-- ==== Sys2Proof/Word.lean ====
section
/-!
DEFINITION. The word types of the machine: lane elements, uniform registers, vectors of 256 lanes and masks of 256 lanes.
-/

namespace Sys2Proof

/-- One byte (00 R4). -/
abbrev Byte := BitVec 8
/-- A 16-bit halfword (01 R8). -/
abbrev W16 := BitVec 16
/-- One lane element, or an instruction word (00 R6, 01 R11). -/
abbrev W32 := BitVec 32
/-- One uniform register (02 R63). -/
abbrev W64 := BitVec 64
/-- One vector register: lane i holds bits [32i+31:32i] (06 R140). -/
abbrev Vec := BitVec 8192
/-- One predicate or execution mask: bit i is lane i (02 R42, R59). -/
abbrev Mask := BitVec 256

end Sys2Proof
end

