-- ==== Sys2Proof/Syntax.lean ====
section
/-!
DEFINITION. The instruction set: one constructor per row of spec/opcode_table.json. The first 265 rows are instruction
words, with the fields of Tables 01-2 and 01-3 as arguments (`s` is the settle marker of 01 R15, `g` the guard). The other
133 rows are events, which have no word and no field; what an event is about (an agent, an object, a packet) and what
arrives from outside the module stand in the event record of the state. (The rows stand in the table's order but for the
twenty-one last instruction rows.)
-/

namespace Sys2Proof

/-- One row of the opcode table. -/
inductive Instr where
  /-- R46. -/
  | iadd (s : Bool) (g : BitVec 3) (d : BitVec 6) (a : BitVec 6) (b : BitVec 6)
  /-- R46. -/
  | isub (s : Bool) (g : BitVec 3) (d : BitVec 6) (a : BitVec 6) (b : BitVec 6)
  /-- R46. -/
  | imul (s : Bool) (g : BitVec 3) (d : BitVec 6) (a : BitVec 6) (b : BitVec 6)
  /-- R46. -/
  | imulhI32 (s : Bool) (g : BitVec 3) (d : BitVec 6) (a : BitVec 6) (b : BitVec 6)
  /-- R46. -/
  | imulhN32 (s : Bool) (g : BitVec 3) (d : BitVec 6) (a : BitVec 6) (b : BitVec 6)
  /-- R46. -/
  | and (s : Bool) (g : BitVec 3) (d : BitVec 6) (a : BitVec 6) (b : BitVec 6)
  /-- R46. -/
  | or (s : Bool) (g : BitVec 3) (d : BitVec 6) (a : BitVec 6) (b : BitVec 6)
  /-- R46. -/
  | xor (s : Bool) (g : BitVec 3) (d : BitVec 6) (a : BitVec 6) (b : BitVec 6)
  /-- R46. -/
  | andn (s : Bool) (g : BitVec 3) (d : BitVec 6) (a : BitVec 6) (b : BitVec 6)
  /-- R46. -/
  | shl (s : Bool) (g : BitVec 3) (d : BitVec 6) (a : BitVec 6) (b : BitVec 6)
  /-- R46. -/
  | shr (s : Bool) (g : BitVec 3) (d : BitVec 6) (a : BitVec 6) (b : BitVec 6)
  /-- R46. -/
  | sra (s : Bool) (g : BitVec 3) (d : BitVec 6) (a : BitVec 6) (b : BitVec 6)
  /-- R46. -/
  | iminI32 (s : Bool) (g : BitVec 3) (d : BitVec 6) (a : BitVec 6) (b : BitVec 6)
  /-- R46. -/
  | iminN32 (s : Bool) (g : BitVec 3) (d : BitVec 6) (a : BitVec 6) (b : BitVec 6)
  /-- R46. -/
  | imaxI32 (s : Bool) (g : BitVec 3) (d : BitVec 6) (a : BitVec 6) (b : BitVec 6)
  /-- R46. -/
  | imaxN32 (s : Bool) (g : BitVec 3) (d : BitVec 6) (a : BitVec 6) (b : BitVec 6)
  /-- R46. -/
  | idivI32 (s : Bool) (g : BitVec 3) (d : BitVec 6) (a : BitVec 6) (b : BitVec 6)
  /-- R46. -/
  | idivN32 (s : Bool) (g : BitVec 3) (d : BitVec 6) (a : BitVec 6) (b : BitVec 6)
  /-- R46. -/
  | iremI32 (s : Bool) (g : BitVec 3) (d : BitVec 6) (a : BitVec 6) (b : BitVec 6)
  /-- R46. -/
  | iremN32 (s : Bool) (g : BitVec 3) (d : BitVec 6) (a : BitVec 6) (b : BitVec 6)
  /-- R46. -/
  | imad (s : Bool) (g : BitVec 3) (d : BitVec 6) (a : BitVec 6) (b : BitVec 6)
  /-- R47. -/
  | sel (s : Bool) (p : BitVec 3) (d : BitVec 6) (a : BitVec 6) (b : BitVec 6)
  /-- R46. -/
  | mov (s : Bool) (g : BitVec 3) (d : BitVec 6) (a : BitVec 6) (b : BitVec 6)
  /-- R48. -/
  | iabs (s : Bool) (g : BitVec 3) (d : BitVec 6) (a : BitVec 6)
  /-- R48. -/
  | clz (s : Bool) (g : BitVec 3) (d : BitVec 6) (a : BitVec 6)
  /-- R48. -/
  | popc (s : Bool) (g : BitVec 3) (d : BitVec 6) (a : BitVec 6)
  /-- R49. -/
  | iaddi (s : Bool) (g : BitVec 3) (d : BitVec 6) (i : BitVec 12)
  /-- R49. -/
  | andi (s : Bool) (g : BitVec 3) (d : BitVec 6) (i : BitVec 12)
  /-- R49. -/
  | ori (s : Bool) (g : BitVec 3) (d : BitVec 6) (i : BitVec 12)
  /-- R49. -/
  | xori (s : Bool) (g : BitVec 3) (d : BitVec 6) (i : BitVec 12)
  /-- R49. -/
  | shli (s : Bool) (g : BitVec 3) (d : BitVec 6) (i : BitVec 5)
  /-- R49. -/
  | shri (s : Bool) (g : BitVec 3) (d : BitVec 6) (i : BitVec 5)
  /-- R49. -/
  | srai (s : Bool) (g : BitVec 3) (d : BitVec 6) (i : BitVec 5)
  /-- R49. -/
  | lii (s : Bool) (g : BitVec 3) (d : BitVec 6) (i : BitVec 12)
  /-- R49. -/
  | liu (s : Bool) (g : BitVec 3) (d : BitVec 6) (i : BitVec 12)
  /-- R50. -/
  | fadd (s : Bool) (g : BitVec 3) (d : BitVec 6) (a : BitVec 6) (b : BitVec 6)
  /-- R50. -/
  | fsub (s : Bool) (g : BitVec 3) (d : BitVec 6) (a : BitVec 6) (b : BitVec 6)
  /-- R50. -/
  | fmul (s : Bool) (g : BitVec 3) (d : BitVec 6) (a : BitVec 6) (b : BitVec 6)
  /-- R50. -/
  | ffma (s : Bool) (g : BitVec 3) (d : BitVec 6) (a : BitVec 6) (b : BitVec 6)
  /-- R51. -/
  | fmin (s : Bool) (g : BitVec 3) (d : BitVec 6) (a : BitVec 6) (b : BitVec 6)
  /-- R51. -/
  | fmax (s : Bool) (g : BitVec 3) (d : BitVec 6) (a : BitVec 6) (b : BitVec 6)
  /-- R50. -/
  | fneg (s : Bool) (g : BitVec 3) (d : BitVec 6) (a : BitVec 6) (b : BitVec 6)
  /-- R52. -/
  | fabs (s : Bool) (g : BitVec 3) (d : BitVec 6) (a : BitVec 6)
  /-- R52. -/
  | frcp (s : Bool) (g : BitVec 3) (d : BitVec 6) (a : BitVec 6)
  /-- R52. -/
  | frsq (s : Bool) (g : BitVec 3) (d : BitVec 6) (a : BitVec 6)
  /-- R52. -/
  | fexp2 (s : Bool) (g : BitVec 3) (d : BitVec 6) (a : BitVec 6)
  /-- R52. -/
  | flog2 (s : Bool) (g : BitVec 3) (d : BitVec 6) (a : BitVec 6)
  /-- R52. -/
  | fsqrt (s : Bool) (g : BitVec 3) (d : BitVec 6) (a : BitVec 6)
  /-- R50. -/
  | fdiv (s : Bool) (g : BitVec 3) (d : BitVec 6) (a : BitVec 6) (b : BitVec 6)
  /-- R53. -/
  | hadd2 (s : Bool) (g : BitVec 3) (d : BitVec 6) (a : BitVec 6) (b : BitVec 6)
  /-- R53. -/
  | hmul2 (s : Bool) (g : BitVec 3) (d : BitVec 6) (a : BitVec 6) (b : BitVec 6)
  /-- R53. -/
  | hfma2 (s : Bool) (g : BitVec 3) (d : BitVec 6) (a : BitVec 6) (b : BitVec 6)
  /-- R53. -/
  | hmax2 (s : Bool) (g : BitVec 3) (d : BitVec 6) (a : BitVec 6) (b : BitVec 6)
  /-- R53. -/
  | hmin2 (s : Bool) (g : BitVec 3) (d : BitVec 6) (a : BitVec 6) (b : BitVec 6)
  /-- R53. -/
  | hdot2 (s : Bool) (g : BitVec 3) (d : BitVec 6) (a : BitVec 6) (b : BitVec 6)
  /-- R54. -/
  | cvt (s : Bool) (g : BitVec 3) (m : BitVec 3) (d : BitVec 6) (a : BitVec 6) (e : BitVec 6)
  /-- R55. -/
  | pack (s : Bool) (g : BitVec 3) (d : BitVec 6) (a : BitVec 6) (b : BitVec 6)
  /-- R55. -/
  | unpkLo (s : Bool) (g : BitVec 3) (d : BitVec 6) (a : BitVec 6)
  /-- R55. -/
  | unpkHi (s : Bool) (g : BitVec 3) (d : BitVec 6) (a : BitVec 6)
  /-- R55. -/
  | cvt8Lo (s : Bool) (g : BitVec 3) (d : BitVec 6) (a : BitVec 6) (b : BitVec 6)
  /-- R55. -/
  | cvt8Hi (s : Bool) (g : BitVec 3) (d : BitVec 6) (a : BitVec 6) (b : BitVec 6)
  /-- R55. -/
  | unpk8 (s : Bool) (g : BitVec 3) (d : BitVec 6) (a : BitVec 6) (k : BitVec 2)
  /-- R56. -/
  | icmpEq (s : Bool) (g : BitVec 3) (p : BitVec 3) (a : BitVec 6) (b : BitVec 6)
  /-- R56. -/
  | icmpNe (s : Bool) (g : BitVec 3) (p : BitVec 3) (a : BitVec 6) (b : BitVec 6)
  /-- R56. -/
  | icmpLtI32 (s : Bool) (g : BitVec 3) (p : BitVec 3) (a : BitVec 6) (b : BitVec 6)
  /-- R56. -/
  | icmpLeI32 (s : Bool) (g : BitVec 3) (p : BitVec 3) (a : BitVec 6) (b : BitVec 6)
  /-- R56. -/
  | icmpLtN32 (s : Bool) (g : BitVec 3) (p : BitVec 3) (a : BitVec 6) (b : BitVec 6)
  /-- R56. -/
  | icmpLeN32 (s : Bool) (g : BitVec 3) (p : BitVec 3) (a : BitVec 6) (b : BitVec 6)
  /-- R57. -/
  | pand (s : Bool) (g : BitVec 3) (p : BitVec 3) (r : BitVec 3) (q : BitVec 3)
  /-- R57. -/
  | por (s : Bool) (g : BitVec 3) (p : BitVec 3) (r : BitVec 3) (q : BitVec 3)
  /-- R56. -/
  | fcmpEq (s : Bool) (g : BitVec 3) (p : BitVec 3) (a : BitVec 6) (b : BitVec 6)
  /-- R56. -/
  | fcmpNe (s : Bool) (g : BitVec 3) (p : BitVec 3) (a : BitVec 6) (b : BitVec 6)
  /-- R56. -/
  | fcmpLt (s : Bool) (g : BitVec 3) (p : BitVec 3) (a : BitVec 6) (b : BitVec 6)
  /-- R56. -/
  | fcmpLe (s : Bool) (g : BitVec 3) (p : BitVec 3) (a : BitVec 6) (b : BitVec 6)
  /-- R56. -/
  | fcmpUn (s : Bool) (g : BitVec 3) (p : BitVec 3) (a : BitVec 6) (b : BitVec 6)
  /-- R56. -/
  | fcmpOrd (s : Bool) (g : BitVec 3) (p : BitVec 3) (a : BitVec 6) (b : BitVec 6)
  /-- R57. -/
  | pxor (s : Bool) (g : BitVec 3) (p : BitVec 3) (r : BitVec 3) (q : BitVec 3)
  /-- R57. -/
  | pnot (s : Bool) (g : BitVec 3) (p : BitVec 3) (r : BitVec 3)
  /-- R57. -/
  | pmov (s : Bool) (g : BitVec 3) (p : BitVec 3) (r : BitVec 3)
  /-- R58. -/
  | pcount (s : Bool) (g : BitVec 3) (d : BitVec 6) (r : BitVec 3)
  /-- R59. -/
  | emrd (s : Bool) (g : BitVec 3) (p : BitVec 3)
  /-- R59. -/
  | emwr (s : Bool) (r : BitVec 3)
  /-- R59. -/
  | emand (s : Bool) (r : BitVec 3)
  /-- R60. -/
  | shfl (s : Bool) (g : BitVec 3) (d : BitVec 6) (a : BitVec 6) (b : BitVec 6)
  /-- R60. -/
  | bcast (s : Bool) (g : BitVec 3) (d : BitVec 6) (a : BitVec 6) (b : BitVec 6)
  /-- R60. -/
  | rot (s : Bool) (g : BitVec 3) (d : BitVec 6) (a : BitVec 6) (b : BitVec 6)
  /-- R61. -/
  | vtos (s : Bool) (g : BitVec 3) (d : BitVec 6) (a : BitVec 6)
  /-- R61. -/
  | stov (s : Bool) (g : BitVec 3) (d : BitVec 6) (a : BitVec 6)
  /-- R61. -/
  | lane (s : Bool) (g : BitVec 3) (d : BitVec 6)
  /-- R62. -/
  | vreduce (s : Bool) (g : BitVec 3) (d : BitVec 6) (a : BitVec 6) (e : BitVec 6)
  /-- R62. -/
  | vscan (s : Bool) (g : BitVec 3) (d : BitVec 6) (a : BitVec 6) (e : BitVec 6)
  /-- R63. -/
  | sadd (s : Bool) (d : BitVec 6) (a : BitVec 6) (b : BitVec 6)
  /-- R63. -/
  | ssub (s : Bool) (d : BitVec 6) (a : BitVec 6) (b : BitVec 6)
  /-- R63. -/
  | smul (s : Bool) (d : BitVec 6) (a : BitVec 6) (b : BitVec 6)
  /-- R63. -/
  | smulh (s : Bool) (d : BitVec 6) (a : BitVec 6) (b : BitVec 6)
  /-- R63. -/
  | sand (s : Bool) (d : BitVec 6) (a : BitVec 6) (b : BitVec 6)
  /-- R63. -/
  | sor (s : Bool) (d : BitVec 6) (a : BitVec 6) (b : BitVec 6)
  /-- R63. -/
  | sxor (s : Bool) (d : BitVec 6) (a : BitVec 6) (b : BitVec 6)
  /-- R63. -/
  | scmpLtu (s : Bool) (d : BitVec 6) (a : BitVec 6) (b : BitVec 6)
  /-- R63. -/
  | sshl (s : Bool) (d : BitVec 6) (a : BitVec 6) (b : BitVec 6)
  /-- R63. -/
  | sshr (s : Bool) (d : BitVec 6) (a : BitVec 6) (b : BitVec 6)
  /-- R63. -/
  | ssra (s : Bool) (d : BitVec 6) (a : BitVec 6) (b : BitVec 6)
  /-- R63. -/
  | smin (s : Bool) (d : BitVec 6) (a : BitVec 6) (b : BitVec 6)
  /-- R63. -/
  | smax (s : Bool) (d : BitVec 6) (a : BitVec 6) (b : BitVec 6)
  /-- R63. -/
  | sdiv (s : Bool) (d : BitVec 6) (a : BitVec 6) (b : BitVec 6)
  /-- R63. -/
  | scmpEq (s : Bool) (d : BitVec 6) (a : BitVec 6) (b : BitVec 6)
  /-- R63. -/
  | scmpLt (s : Bool) (d : BitVec 6) (a : BitVec 6) (b : BitVec 6)
  /-- R64. -/
  | sli (s : Bool) (d : BitVec 6) (i : BitVec 18)
  /-- R64. -/
  | slui (s : Bool) (d : BitVec 6) (i : BitVec 18)
  /-- R65. -/
  | br (s : Bool) (o : BitVec 18)
  /-- R65. -/
  | bz (s : Bool) (n : BitVec 3) (o : BitVec 18)
  /-- R65. -/
  | bnz (s : Bool) (n : BitVec 3) (o : BitVec 18)
  /-- R65. -/
  | bany (s : Bool) (n : BitVec 3) (o : BitVec 18)
  /-- R65. -/
  | ball (s : Bool) (n : BitVec 3) (o : BitVec 18)
  /-- R65. -/
  | bnone (s : Bool) (n : BitVec 3) (o : BitVec 18)
  /-- R65. -/
  | call (s : Bool) (o : BitVec 18)
  /-- R66. -/
  | jr (s : Bool) (d : BitVec 6) (a : BitVec 6)
  /-- R66. -/
  | ret (s : Bool)
  /-- R68. -/
  | trap (s : Bool) (c : BitVec 6)
  /-- R72. -/
  | lpx (s : Bool) (p : BitVec 3)
  /-- R70. -/
  | lpb (s : Bool) (c : BitVec 6) (l : BitVec 5) (t : BitVec 4)
  /-- R74. -/
  | yield (s : Bool) (l : BitVec 6) (r : BitVec 12)
  /-- R84. -/
  | ldg8 (s : Bool) (g : BitVec 3) (d : BitVec 6) (a : BitVec 6) (b : BitVec 6)
  /-- R84. -/
  | ldgI8 (s : Bool) (g : BitVec 3) (d : BitVec 6) (a : BitVec 6) (b : BitVec 6)
  /-- R84. -/
  | ldg16 (s : Bool) (g : BitVec 3) (d : BitVec 6) (a : BitVec 6) (b : BitVec 6)
  /-- R84. -/
  | ldgI16 (s : Bool) (g : BitVec 3) (d : BitVec 6) (a : BitVec 6) (b : BitVec 6)
  /-- R84. -/
  | ldg32 (s : Bool) (g : BitVec 3) (d : BitVec 6) (a : BitVec 6) (b : BitVec 6)
  /-- R84. -/
  | ldg64 (s : Bool) (g : BitVec 3) (d : BitVec 6) (a : BitVec 6) (b : BitVec 6)
  /-- R84. -/
  | ldg128 (s : Bool) (g : BitVec 3) (d : BitVec 6) (a : BitVec 6) (b : BitVec 6)
  /-- R84. -/
  | stg8 (s : Bool) (g : BitVec 3) (d : BitVec 6) (a : BitVec 6) (b : BitVec 6)
  /-- R84. -/
  | stg16 (s : Bool) (g : BitVec 3) (d : BitVec 6) (a : BitVec 6) (b : BitVec 6)
  /-- R84. -/
  | stg32 (s : Bool) (g : BitVec 3) (d : BitVec 6) (a : BitVec 6) (b : BitVec 6)
  /-- R84. -/
  | stg64 (s : Bool) (g : BitVec 3) (d : BitVec 6) (a : BitVec 6) (b : BitVec 6)
  /-- R84. -/
  | stg128 (s : Bool) (g : BitVec 3) (d : BitVec 6) (a : BitVec 6) (b : BitVec 6)
  /-- R86. -/
  | lds8 (s : Bool) (g : BitVec 3) (d : BitVec 6) (a : BitVec 6) (b : BitVec 6)
  /-- R86. -/
  | ldsI8 (s : Bool) (g : BitVec 3) (d : BitVec 6) (a : BitVec 6) (b : BitVec 6)
  /-- R86. -/
  | lds16 (s : Bool) (g : BitVec 3) (d : BitVec 6) (a : BitVec 6) (b : BitVec 6)
  /-- R86. -/
  | ldsI16 (s : Bool) (g : BitVec 3) (d : BitVec 6) (a : BitVec 6) (b : BitVec 6)
  /-- R86. -/
  | lds32 (s : Bool) (g : BitVec 3) (d : BitVec 6) (a : BitVec 6) (b : BitVec 6)
  /-- R86. -/
  | lds64 (s : Bool) (g : BitVec 3) (d : BitVec 6) (a : BitVec 6) (b : BitVec 6)
  /-- R86. -/
  | lds128 (s : Bool) (g : BitVec 3) (d : BitVec 6) (a : BitVec 6) (b : BitVec 6)
  /-- R86. -/
  | sts8 (s : Bool) (g : BitVec 3) (d : BitVec 6) (a : BitVec 6) (b : BitVec 6)
  /-- R86. -/
  | sts16 (s : Bool) (g : BitVec 3) (d : BitVec 6) (a : BitVec 6) (b : BitVec 6)
  /-- R86. -/
  | sts32 (s : Bool) (g : BitVec 3) (d : BitVec 6) (a : BitVec 6) (b : BitVec 6)
  /-- R86. -/
  | sts64 (s : Bool) (g : BitVec 3) (d : BitVec 6) (a : BitVec 6) (b : BitVec 6)
  /-- R86. -/
  | sts128 (s : Bool) (g : BitVec 3) (d : BitVec 6) (a : BitVec 6) (b : BitVec 6)
  /-- R87. -/
  | sldg8 (s : Bool) (d : BitVec 6) (a : BitVec 6) (b : BitVec 6)
  /-- R87. -/
  | sldgI8 (s : Bool) (d : BitVec 6) (a : BitVec 6) (b : BitVec 6)
  /-- R87. -/
  | sldg16 (s : Bool) (d : BitVec 6) (a : BitVec 6) (b : BitVec 6)
  /-- R87. -/
  | sldgI16 (s : Bool) (d : BitVec 6) (a : BitVec 6) (b : BitVec 6)
  /-- R87. -/
  | sldg32 (s : Bool) (d : BitVec 6) (a : BitVec 6) (b : BitVec 6)
  /-- R87. -/
  | sldg64 (s : Bool) (d : BitVec 6) (a : BitVec 6) (b : BitVec 6)
  /-- R87. -/
  | sstg8 (s : Bool) (d : BitVec 6) (a : BitVec 6) (b : BitVec 6)
  /-- R87. -/
  | sstg16 (s : Bool) (d : BitVec 6) (a : BitVec 6) (b : BitVec 6)
  /-- R87. -/
  | sstg32 (s : Bool) (d : BitVec 6) (a : BitVec 6) (b : BitVec 6)
  /-- R87. -/
  | sstg64 (s : Bool) (d : BitVec 6) (a : BitVec 6) (b : BitVec 6)
  /-- R88. -/
  | ldg32Ord (s : Bool) (o : BitVec 3) (d : BitVec 6) (a : BitVec 6) (b : BitVec 4) (c : BitVec 2)
  /-- R88. -/
  | ldg64Ord (s : Bool) (o : BitVec 3) (d : BitVec 6) (a : BitVec 6) (b : BitVec 4) (c : BitVec 2)
  /-- R88. -/
  | stg32Ord (s : Bool) (o : BitVec 3) (d : BitVec 6) (a : BitVec 6) (b : BitVec 4) (c : BitVec 2)
  /-- R88. -/
  | stg64Ord (s : Bool) (o : BitVec 3) (d : BitVec 6) (a : BitVec 6) (b : BitVec 4) (c : BitVec 2)
  /-- R96. -/
  | pref (s : Bool) (g : BitVec 3) (a : BitVec 6) (b : BitVec 6)
  /-- R96. -/
  | cinv (s : Bool) (g : BitVec 3) (a : BitVec 6) (b : BitVec 6)
  /-- R96. -/
  | cinvAll (s : Bool) (g : BitVec 3)
  /-- R90. -/
  | atomAdd32 (s : Bool) (o : BitVec 3) (d : BitVec 6) (a : BitVec 6) (b : BitVec 4) (c : BitVec 2)
  /-- R90. -/
  | atomMinI32 (s : Bool) (o : BitVec 3) (d : BitVec 6) (a : BitVec 6) (b : BitVec 4) (c : BitVec 2)
  /-- R90. -/
  | atomMaxI32 (s : Bool) (o : BitVec 3) (d : BitVec 6) (a : BitVec 6) (b : BitVec 4) (c : BitVec 2)
  /-- R90. -/
  | atomAnd32 (s : Bool) (o : BitVec 3) (d : BitVec 6) (a : BitVec 6) (b : BitVec 4) (c : BitVec 2)
  /-- R90. -/
  | atomOr32 (s : Bool) (o : BitVec 3) (d : BitVec 6) (a : BitVec 6) (b : BitVec 4) (c : BitVec 2)
  /-- R90. -/
  | atomXor32 (s : Bool) (o : BitVec 3) (d : BitVec 6) (a : BitVec 6) (b : BitVec 4) (c : BitVec 2)
  /-- R90. -/
  | atomExch32 (s : Bool) (o : BitVec 3) (d : BitVec 6) (a : BitVec 6) (b : BitVec 4) (c : BitVec 2)
  /-- R90. -/
  | atomCas32 (s : Bool) (o : BitVec 3) (d : BitVec 6) (a : BitVec 6) (b : BitVec 4) (c : BitVec 2)
  /-- R90. -/
  | atomAdd64 (s : Bool) (o : BitVec 3) (d : BitVec 6) (a : BitVec 6) (b : BitVec 4) (c : BitVec 2)
  /-- R90. -/
  | atomMinN32 (s : Bool) (o : BitVec 3) (d : BitVec 6) (a : BitVec 6) (b : BitVec 4) (c : BitVec 2)
  /-- R90. -/
  | atomMaxN32 (s : Bool) (o : BitVec 3) (d : BitVec 6) (a : BitVec 6) (b : BitVec 4) (c : BitVec 2)
  /-- R90. -/
  | atomFaddF32 (s : Bool) (o : BitVec 3) (d : BitVec 6) (a : BitVec 6) (b : BitVec 4) (c : BitVec 2)
  /-- R90. -/
  | atomExch64 (s : Bool) (o : BitVec 3) (d : BitVec 6) (a : BitVec 6) (b : BitVec 4) (c : BitVec 2)
  /-- R90. -/
  | atomCas64 (s : Bool) (o : BitVec 3) (d : BitVec 6) (a : BitVec 6) (b : BitVec 4) (c : BitVec 2)
  /-- R93. -/
  | redAdd32 (s : Bool) (o : BitVec 3) (d : BitVec 6) (a : BitVec 6) (b : BitVec 4) (c : BitVec 2)
  /-- R93. -/
  | redMinI32 (s : Bool) (o : BitVec 3) (d : BitVec 6) (a : BitVec 6) (b : BitVec 4) (c : BitVec 2)
  /-- R93. -/
  | redMaxI32 (s : Bool) (o : BitVec 3) (d : BitVec 6) (a : BitVec 6) (b : BitVec 4) (c : BitVec 2)
  /-- R93. -/
  | redAnd32 (s : Bool) (o : BitVec 3) (d : BitVec 6) (a : BitVec 6) (b : BitVec 4) (c : BitVec 2)
  /-- R93. -/
  | redOr32 (s : Bool) (o : BitVec 3) (d : BitVec 6) (a : BitVec 6) (b : BitVec 4) (c : BitVec 2)
  /-- R93. -/
  | redXor32 (s : Bool) (o : BitVec 3) (d : BitVec 6) (a : BitVec 6) (b : BitVec 4) (c : BitVec 2)
  /-- R93. -/
  | redFaddF32 (s : Bool) (o : BitVec 3) (d : BitVec 6) (a : BitVec 6) (b : BitVec 4) (c : BitVec 2)
  /-- R93. -/
  | redAdd64 (s : Bool) (o : BitVec 3) (d : BitVec 6) (a : BitVec 6) (b : BitVec 4) (c : BitVec 2)
  /-- R94. -/
  | satomAdd (s : Bool) (o : BitVec 3) (d : BitVec 6) (a : BitVec 6) (c : BitVec 2)
  /-- R94. -/
  | satomExch (s : Bool) (o : BitVec 3) (d : BitVec 6) (a : BitVec 6) (c : BitVec 2)
  /-- R94. -/
  | satomCas (s : Bool) (o : BitVec 3) (d : BitVec 6) (a : BitVec 6) (c : BitVec 2)
  /-- R94. -/
  | satomMaxN64 (s : Bool) (o : BitVec 3) (d : BitVec 6) (a : BitVec 6) (c : BitVec 2)
  /-- R95. -/
  | fence (s : Bool) (o : BitVec 3) (c : BitVec 2)
  /-- R165. -/
  | cpt (s : Bool) (g : BitVec 3) (d : BitVec 6) (a : BitVec 6) (b : BitVec 6)
  /-- R169. -/
  | cpl (s : Bool) (g : BitVec 3) (d : BitVec 6) (a : BitVec 6) (b : BitVec 6)
  /-- R174. -/
  | cpc (s : Bool) (g : BitVec 3) (d : BitVec 6) (a : BitVec 6) (b : BitVec 6)
  /-- R167. -/
  | cpm (s : Bool) (g : BitVec 3) (d : BitVec 6) (a : BitVec 6) (b : BitVec 6)
  /-- R167. -/
  | cpmCon (s : Bool) (g : BitVec 3) (d : BitVec 6) (a : BitVec 6) (b : BitVec 6)
  /-- R170. -/
  | cprAdd (s : Bool) (g : BitVec 3) (d : BitVec 6) (a : BitVec 6) (b : BitVec 6)
  /-- R170. -/
  | cprMin (s : Bool) (g : BitVec 3) (d : BitVec 6) (a : BitVec 6) (b : BitVec 6)
  /-- R170. -/
  | cprMax (s : Bool) (g : BitVec 3) (d : BitVec 6) (a : BitVec 6) (b : BitVec 6)
  /-- R163. -/
  | bclose (s : Bool) (d : BitVec 6)
  /-- R163. -/
  | bwait (s : Bool) (d : BitVec 6) (a : BitVec 6)
  /-- R163. -/
  | btest (s : Bool) (d : BitVec 6) (a : BitVec 6)
  /-- R177. -/
  | barInit (s : Bool) (g : BitVec 3) (p : BitVec 3) (a : BitVec 6) (b : BitVec 6)
  /-- R177. -/
  | barArrive (s : Bool) (g : BitVec 3) (d : BitVec 6) (a : BitVec 6) (b : BitVec 6)
  /-- R177. -/
  | barExpect (s : Bool) (g : BitVec 3) (d : BitVec 6) (a : BitVec 6) (b : BitVec 6)
  /-- R177. -/
  | barWait (s : Bool) (g : BitVec 3) (d : BitVec 6) (a : BitVec 6) (b : BitVec 6)
  /-- R177. -/
  | barTwait (s : Bool) (g : BitVec 3) (p : BitVec 3) (a : BitVec 6) (b : BitVec 6)
  /-- R177. -/
  | barInval (s : Bool) (g : BitVec 3) (d : BitVec 6) (a : BitVec 6)
  /-- R180. -/
  | qbind (s : Bool) (g : BitVec 3) (q : BitVec 3) (a : BitVec 6)
  /-- R180. -/
  | qpush (s : Bool) (g : BitVec 3) (d : BitVec 6) (q : BitVec 3) (b : BitVec 6)
  /-- R180. -/
  | qpop (s : Bool) (g : BitVec 3) (d : BitVec 6) (q : BitVec 3) (b : BitVec 6)
  /-- R180. -/
  | qtry (s : Bool) (g : BitVec 3) (d : BitVec 6) (q : BitVec 3) (b : BitVec 6)
  /-- R178. -/
  | stb32 (s : Bool) (g : BitVec 3) (d : BitVec 6) (a : BitVec 6) (b : BitVec 6)
  /-- R178. -/
  | stb64 (s : Bool) (g : BitVec 3) (d : BitVec 6) (a : BitVec 6) (b : BitVec 6)
  /-- R178. -/
  | stb128 (s : Bool) (g : BitVec 3) (d : BitVec 6) (a : BitVec 6) (b : BitVec 6)
  /-- R181. -/
  | spawn (s : Bool) (g : BitVec 3) (d : BitVec 6) (a : BitVec 6) (b : BitVec 6)
  /-- R182. -/
  | coll (s : Bool) (g : BitVec 3) (d : BitVec 6) (a : BitVec 6)
  /-- R184. -/
  | cwait (s : Bool) (g : BitVec 3) (d : BitVec 6) (a : BitVec 6) (b : BitVec 6)
  /-- R184. -/
  | ctest (s : Bool) (g : BitVec 3) (d : BitVec 6) (a : BitVec 6) (b : BitVec 6)
  /-- R278. -/
  | txbegin (s : Bool) (p : BitVec 3)
  /-- R282. -/
  | txend (s : Bool) (p : BitVec 3)
  /-- R284. -/
  | txstat (s : Bool) (d : BitVec 6)
  /-- R284. -/
  | txstatAddr (s : Bool) (d : BitVec 5)
  /-- R238. -/
  | mxld (s : Bool) (a : BitVec 6) (b : BitVec 6)
  /-- R240. -/
  | mxfma (s : Bool) (a : BitVec 6) (b : BitVec 6)
  /-- R246. -/
  | mxzero (s : Bool) (a : BitVec 6)
  /-- R246. -/
  | mxck (s : Bool) (a : BitVec 6)
  /-- R237. -/
  | mxfence (s : Bool) (d : BitVec 6)
  /-- R237. -/
  | mxwait (s : Bool) (d : BitVec 6) (a : BitVec 6)
  /-- R237. -/
  | mxtest (s : Bool) (d : BitVec 6) (a : BitVec 6)
  /-- R248. -/
  | mxsplit (s : Bool) (d : BitVec 6) (a : BitVec 6) (b : BitVec 6)
  /-- R247. -/
  | mxsave (s : Bool) (a : BitVec 6) (b : BitVec 6)
  /-- R247. -/
  | mxrest (s : Bool) (a : BitVec 6) (b : BitVec 6)
  /-- R249. -/
  | vraccRow (s : Bool) (g : BitVec 3) (d : BitVec 6) (x : BitVec 4) (t : BitVec 2) (i : BitVec 6)
  /-- R249. -/
  | vraccCol (s : Bool) (g : BitVec 3) (d : BitVec 6) (x : BitVec 4) (t : BitVec 2) (i : BitVec 6)
  /-- R249. -/
  | vwaccRow (s : Bool) (g : BitVec 3) (d : BitVec 6) (x : BitVec 4) (t : BitVec 2) (i : BitVec 6)
  /-- R249. -/
  | vwaccCol (s : Bool) (g : BitVec 3) (d : BitVec 6) (x : BitVec 4) (t : BitVec 2) (i : BitVec 6)
  /-- R220. -/
  | qz (s : Bool) (g : BitVec 3) (d : BitVec 6) (a : BitVec 6)
  /-- R75. -/
  | srd (s : Bool) (d : BitVec 6) (n : BitVec 12)
  /-- R75. -/
  | swr (s : Bool) (d : BitVec 6) (n : BitVec 12)
  /-- R76. -/
  | clkq (s : Bool) (d : BitVec 6) (c : BitVec 4)
  /-- R77. -/
  | eret (s : Bool) (g : BitVec 3)
  /-- R78. -/
  | fltaddr (s : Bool) (g : BitVec 3) (d : BitVec 5)
  /-- R79. -/
  | pmap (s : Bool) (g : BitVec 3) (d : BitVec 6) (a : BitVec 6)
  /-- R80. -/
  | tlbinv (s : Bool) (g : BitVec 3) (d : BitVec 6) (a : BitVec 6) (b : BitVec 6)
  /-- R67. -/
  | exit (s : Bool)
  /-- R69. -/
  | nop (s : Bool)
  /-- R95. -/
  | fenceAsync (s : Bool)
  /-- R283. -/
  | txabort (s : Bool)
  /-- R26. -/
  | hint (s : Bool) (h : BitVec 24)
  /-- R18. -/
  | movShort (s : Bool) (d : BitVec 5) (a : BitVec 5)
  /-- R18. -/
  | iaddShort (s : Bool) (d : BitVec 5) (a : BitVec 5)
  /-- R18. -/
  | isubShort (s : Bool) (d : BitVec 5) (a : BitVec 5)
  /-- R18. -/
  | imulShort (s : Bool) (d : BitVec 5) (a : BitVec 5)
  /-- R18. -/
  | andShort (s : Bool) (d : BitVec 5) (a : BitVec 5)
  /-- R18. -/
  | orShort (s : Bool) (d : BitVec 5) (a : BitVec 5)
  /-- R18. -/
  | xorShort (s : Bool) (d : BitVec 5) (a : BitVec 5)
  /-- R18. -/
  | shlShort (s : Bool) (d : BitVec 5) (a : BitVec 5)
  /-- R18. -/
  | shrShort (s : Bool) (d : BitVec 5) (a : BitVec 5)
  /-- R18. -/
  | faddShort (s : Bool) (d : BitVec 5) (a : BitVec 5)
  /-- R18. -/
  | fsubShort (s : Bool) (d : BitVec 5) (a : BitVec 5)
  /-- R18. -/
  | fmulShort (s : Bool) (d : BitVec 5) (a : BitVec 5)
  /-- R18. -/
  | fmaxShort (s : Bool) (d : BitVec 5) (a : BitVec 5)
  /-- R18. -/
  | fminShort (s : Bool) (d : BitVec 5) (a : BitVec 5)
  /-- R18. -/
  | fnegShort (s : Bool) (d : BitVec 5) (a : BitVec 5)
  /-- R18. -/
  | ldsShort (s : Bool) (d : BitVec 5) (a : BitVec 5)
  /-- R16. -/
  | deferredResultWrite
  /-- R341. -/
  | groupWake
  /-- R307. -/
  | yieldover
  /-- R80. -/
  | tlbinvComplete
  /-- R135. -/
  | walkerServe
  /-- R116. -/
  | walkComplete
  /-- R318. -/
  | meshFlitReceive
  /-- R130. -/
  | packetDelivery
  /-- R413. -/
  | dropLogAppend
  /-- R131. -/
  | negativeAcknowledgement
  /-- R91. -/
  | atomicPerform
  /-- R310. -/
  | faultRingWrite
  /-- R333. -/
  | launch
  /-- R151. -/
  | blockResident
  /-- R181. -/
  | spawnAccept
  /-- R206. -/
  | jobDispatch
  /-- R160. -/
  | subjobDispatch
  /-- R162. -/
  | chunkComplete
  /-- R168. -/
  | cpmShareApply
  /-- R176. -/
  | barrierOperation
  /-- R342. -/
  | barrierWaveWake
  /-- R177. -/
  | barTwaitTimeout
  /-- R180. -/
  | queueWaiterServe
  /-- R182. -/
  | collectiveStart
  /-- R183. -/
  | collectiveChunkComplete
  /-- R222. -/
  | qzBlockComplete
  /-- R236. -/
  | matrixOpStart
  /-- R238. -/
  | mxldSlabWrite
  /-- R259. -/
  | aRowRead
  /-- R260. -/
  | mxfmaRowWrite
  /-- R236. -/
  | matrixOpEnd
  /-- R262. -/
  | matrixStopComplete
  /-- R295. -/
  | txPrepare
  /-- R295. -/
  | txAnswer
  /-- R295. -/
  | txCommit
  /-- R295. -/
  | txRelease
  /-- R280. -/
  | tokenGrant
  /-- R304. -/
  | groupStop
  /-- R305. -/
  | groupResume
  /-- R313. -/
  | coreFailure
  /-- R313. -/
  | remapWaveStep
  /-- R317. -/
  | tileFailure
  /-- R316. -/
  | retireShrink
  /-- R316. -/
  | retireRemap
  /-- R316. -/
  | retireAbort
  /-- R316. -/
  | retireTimeout
  /-- R350. -/
  | boostIntervalBoundary
  /-- R359. -/
  | sensorRead
  /-- R409. -/
  | fieldCurrentSample
  /-- R337. -/
  | transitTick
  /-- R337. -/
  | periodBoundary
  /-- R338. -/
  | sliceEnd
  /-- R330. -/
  | qProdWrite
  /-- R329. -/
  | qCtlEn
  /-- R330. -/
  | qCtlRun
  /-- R334. -/
  | qCtlAbort
  /-- R335. -/
  | waitPacket
  /-- R335. -/
  | waitRecheck
  /-- R335. -/
  | waitTimeout
  /-- R336. -/
  | signalPacket
  /-- R336. -/
  | markPacket
  /-- R336. -/
  | reshapeAck
  /-- R354. -/
  | powerControlWrite
  /-- R354. -/
  | powerRangeWrite
  /-- R358. -/
  | energyLoRead
  /-- R5. -/
  | registerWrite
  /-- R370. -/
  | lockInterfaceRequest
  /-- R370. -/
  | startInterfaceRequest
  /-- R370. -/
  | stopInterfaceRequest
  /-- R372. -/
  | idePacketReceive
  /-- R370. -/
  | spdmSessionLoss
  /-- R373. -/
  | getVersion
  /-- R373. -/
  | getCapabilities
  /-- R373. -/
  | negotiateAlgorithms
  /-- R373. -/
  | getDigests
  /-- R373. -/
  | getCertificate
  /-- R373. -/
  | challenge
  /-- R374. -/
  | getMeasurements
  /-- R373. -/
  | keyExchange
  /-- R373. -/
  | finish
  /-- R373. -/
  | endSession
  /-- R372. -/
  | ideKeyManagement
  /-- R379. -/
  | keySlotLoad
  /-- R379. -/
  | keySlotClear
  /-- R379. -/
  | keySlotQuery
  /-- R375. -/
  | recoveryImage
  /-- R386. -/
  | reshapeStep
  /-- R387. -/
  | reshapeDirtyTimeout
  /-- R391. -/
  | scrubGranule
  /-- R394. -/
  | write
  /-- R399. -/
  | readreq
  /-- R404. -/
  | readrsp
  /-- R401. -/
  | atomic
  /-- R402. -/
  | reduce
  /-- R403. -/
  | stamp
  /-- R397. -/
  | marker
  /-- R395. -/
  | ack
  /-- R395. -/
  | nak
  /-- R394. -/
  | chunk
  /-- R396. -/
  | mgmt
  /-- R404. -/
  | forward
  /-- R397. -/
  | keySwitchThreshold
  /-- R404. -/
  | stampTimer
  /-- R392. -/
  | linkTraining
  /-- R400. -/
  | linkUp
  /-- R407. -/
  | xdMove
  /-- R407. -/
  | xdUnpin
  /-- R410. -/
  | powerOn
  /-- R410. -/
  | resetPin
  /-- R410. -/
  | modResetWrite
  /-- R408. -/
  | undervolt
  /-- R409. -/
  | coolantFault
  /-- R410. -/
  | lockstep
  /-- R414. -/
  | dropTailWrite
  /-- R416. -/
  | partCreate
  /-- R416. -/
  | partDestroy
  /-- R416. -/
  | vfBind
  /-- R416. -/
  | vfUnbind
  /-- R416. -/
  | granAdd
  /-- R416. -/
  | granRelease
  /-- R385. -/
  | reshape
  /-- R416. -/
  | exportPage
  /-- R416. -/
  | unexportPage
  /-- R377. -/
  | sharedCreate
  /-- R416. -/
  | sharedFill
  /-- R400. -/
  | devForget
  /-- R375. -/
  | rollbackCommit
  /-- R416. -/
  | setHeadroom
  /-- R416. -/
  | linkCtl
  /-- R346. -/
  | clockDriveStep
  /-- R395. -/
  | discardedFlit
  /-- R204. -/
  | hostOriginatedRequest
  /-- R369. -/
  | unsupportedRequest
  deriving DecidableEq, Repr

end Sys2Proof
end

