-- ==== Sys2Proof/WellFormed.lean ====
section
/-!
DEFINITION. Which instruction terms an encoding exists for: the restrictions of 01 R20, R21 and R23 on field values that
the fields' widths do not already enforce.
-/

namespace Sys2Proof

/-- R21: the orders an ordered load takes: `.rlx`, `.acq`, `.sc`. -/
def ordLoad (o : BitVec 3) : Bool := o == 0 || o == 1 || o == 4
/-- R21: the orders an ordered store or a reduction takes: `.rlx`, `.rel`, `.sc`. -/
def ordStore (o : BitVec 3) : Bool := o == 0 || o == 2 || o == 4
/-- R21: the orders an atomic takes: 0 to 4. -/
def ordAny (o : BitVec 3) : Bool := o.toNat ≤ 4
/-- R21: the kinds of `fence` other than `fence.async`: 1 to 4. -/
def fenceKind (o : BitVec 3) : Bool := 1 ≤ o.toNat && o.toNat ≤ 4
/-- R21: D ≤ 62, for a pair of registers. -/
def pairField (d : BitVec 6) : Bool := d.toNat ≤ 62
/-- R21: D ≤ 60, for four registers. -/
def quadField (d : BitVec 6) : Bool := d.toNat ≤ 60
/-- R70: at most eight step words. -/
def stepsField (t : BitVec 4) : Bool := t.toNat ≤ 8
/-- R76: the request codes 0 to 4. -/
def clkCode (c : BitVec 4) : Bool := c.toNat ≤ 4
/-- R20, Table 01-6: the eleven reduction operations. -/
def reduceExt (e : BitVec 6) : Bool := e.toNat ≤ 10
/-- R20, Table 01-6: the type pairs of `cvt` by mode; `.sat` takes no pair 0, 1 or 5. -/
def cvtPair (m : BitVec 3) (e : BitVec 6) : Bool :=
  e.toNat ≤ 5 && (m.toNat < 4 || (m.toNat == 4 && 2 ≤ e.toNat && e.toNat ≤ 4))
/-- R23: the assigned system register numbers (Tables 01-9, 05-9, 06-7, 13-2, 16-4, 19-4, 19-7, 19-8, 21-6, 22-6). -/
def sysReg (n : BitVec 12) : Bool :=
  let k := n.toNat
  (k ≤ 0x002) || (0x004 ≤ k && k ≤ 0x008) || (0x010 ≤ k && k ≤ 0x014) || (0x020 ≤ k && k ≤ 0x021) ||
  (0x800 ≤ k && k ≤ 0x807) || (0x810 ≤ k && k ≤ 0x813) || (0x820 ≤ k && k ≤ 0x823) || (0x830 ≤ k && k ≤ 0x834) ||
  (0x838 ≤ k && k ≤ 0x83D) || (0x840 ≤ k && k ≤ 0x844) || (0x848 ≤ k && k ≤ 0x849) || (0x850 ≤ k && k ≤ 0x853) ||
  (0x860 ≤ k && k ≤ 0x861) || k == 0x870 || (0x880 ≤ k && k ≤ 0x882) || (0x890 ≤ k && k ≤ 0x893)

/-- An instruction term that has an encoding (an event term is always well formed). -/
def wellFormed : Instr → Bool
  | .iadd _ _ _ _ _ => true
  | .isub _ _ _ _ _ => true
  | .imul _ _ _ _ _ => true
  | .imulhI32 _ _ _ _ _ => true
  | .imulhN32 _ _ _ _ _ => true
  | .and _ _ _ _ _ => true
  | .or _ _ _ _ _ => true
  | .xor _ _ _ _ _ => true
  | .andn _ _ _ _ _ => true
  | .shl _ _ _ _ _ => true
  | .shr _ _ _ _ _ => true
  | .sra _ _ _ _ _ => true
  | .iminI32 _ _ _ _ _ => true
  | .iminN32 _ _ _ _ _ => true
  | .imaxI32 _ _ _ _ _ => true
  | .imaxN32 _ _ _ _ _ => true
  | .idivI32 _ _ _ _ _ => true
  | .idivN32 _ _ _ _ _ => true
  | .iremI32 _ _ _ _ _ => true
  | .iremN32 _ _ _ _ _ => true
  | .imad _ _ _ _ _ => true
  | .sel _ _ _ _ _ => true
  | .mov _ _ _ _ _ => true
  | .iabs _ _ _ _ => true
  | .clz _ _ _ _ => true
  | .popc _ _ _ _ => true
  | .iaddi _ _ _ _ => true
  | .andi _ _ _ _ => true
  | .ori _ _ _ _ => true
  | .xori _ _ _ _ => true
  | .shli _ _ _ _ => true
  | .shri _ _ _ _ => true
  | .srai _ _ _ _ => true
  | .lii _ _ _ _ => true
  | .liu _ _ _ _ => true
  | .fadd _ _ _ _ _ => true
  | .fsub _ _ _ _ _ => true
  | .fmul _ _ _ _ _ => true
  | .ffma _ _ _ _ _ => true
  | .fmin _ _ _ _ _ => true
  | .fmax _ _ _ _ _ => true
  | .fneg _ _ _ _ _ => true
  | .fabs _ _ _ _ => true
  | .frcp _ _ _ _ => true
  | .frsq _ _ _ _ => true
  | .fexp2 _ _ _ _ => true
  | .flog2 _ _ _ _ => true
  | .fsqrt _ _ _ _ => true
  | .fdiv _ _ _ _ _ => true
  | .hadd2 _ _ _ _ _ => true
  | .hmul2 _ _ _ _ _ => true
  | .hfma2 _ _ _ _ _ => true
  | .hmax2 _ _ _ _ _ => true
  | .hmin2 _ _ _ _ _ => true
  | .hdot2 _ _ _ _ _ => true
  | .cvt _ _ m _ _ e => cvtPair m e
  | .pack _ _ _ _ _ => true
  | .unpkLo _ _ _ _ => true
  | .unpkHi _ _ _ _ => true
  | .cvt8Lo _ _ _ _ _ => true
  | .cvt8Hi _ _ _ _ _ => true
  | .unpk8 _ _ _ _ _ => true
  | .icmpEq _ _ _ _ _ => true
  | .icmpNe _ _ _ _ _ => true
  | .icmpLtI32 _ _ _ _ _ => true
  | .icmpLeI32 _ _ _ _ _ => true
  | .icmpLtN32 _ _ _ _ _ => true
  | .icmpLeN32 _ _ _ _ _ => true
  | .pand _ _ _ _ _ => true
  | .por _ _ _ _ _ => true
  | .fcmpEq _ _ _ _ _ => true
  | .fcmpNe _ _ _ _ _ => true
  | .fcmpLt _ _ _ _ _ => true
  | .fcmpLe _ _ _ _ _ => true
  | .fcmpUn _ _ _ _ _ => true
  | .fcmpOrd _ _ _ _ _ => true
  | .pxor _ _ _ _ _ => true
  | .pnot _ _ _ _ => true
  | .pmov _ _ _ _ => true
  | .pcount _ _ _ _ => true
  | .emrd _ _ _ => true
  | .emwr _ _ => true
  | .emand _ _ => true
  | .shfl _ _ _ _ _ => true
  | .bcast _ _ _ _ _ => true
  | .rot _ _ _ _ _ => true
  | .vtos _ _ _ _ => true
  | .stov _ _ _ _ => true
  | .lane _ _ _ => true
  | .vreduce _ _ _ _ e => reduceExt e
  | .vscan _ _ _ _ e => reduceExt e
  | .sadd _ _ _ _ => true
  | .ssub _ _ _ _ => true
  | .smul _ _ _ _ => true
  | .smulh _ _ _ _ => true
  | .sand _ _ _ _ => true
  | .sor _ _ _ _ => true
  | .sxor _ _ _ _ => true
  | .scmpLtu _ _ _ _ => true
  | .sshl _ _ _ _ => true
  | .sshr _ _ _ _ => true
  | .ssra _ _ _ _ => true
  | .smin _ _ _ _ => true
  | .smax _ _ _ _ => true
  | .sdiv _ _ _ _ => true
  | .scmpEq _ _ _ _ => true
  | .scmpLt _ _ _ _ => true
  | .sli _ _ _ => true
  | .slui _ _ _ => true
  | .br _ _ => true
  | .bz _ _ _ => true
  | .bnz _ _ _ => true
  | .bany _ _ _ => true
  | .ball _ _ _ => true
  | .bnone _ _ _ => true
  | .call _ _ => true
  | .jr _ _ _ => true
  | .ret _ => true
  | .exit _ => true
  | .trap _ _ => true
  | .nop _ => true
  | .lpx _ _ => true
  | .lpb _ _ _ t => stepsField t
  | .yield _ _ _ => true
  | .ldg8 _ _ _ _ _ => true
  | .ldgI8 _ _ _ _ _ => true
  | .ldg16 _ _ _ _ _ => true
  | .ldgI16 _ _ _ _ _ => true
  | .ldg32 _ _ _ _ _ => true
  | .ldg64 _ _ _ _ _ => true
  | .ldg128 _ _ _ _ _ => true
  | .stg8 _ _ _ _ _ => true
  | .stg16 _ _ _ _ _ => true
  | .stg32 _ _ _ _ _ => true
  | .stg64 _ _ _ _ _ => true
  | .stg128 _ _ _ _ _ => true
  | .lds8 _ _ _ _ _ => true
  | .ldsI8 _ _ _ _ _ => true
  | .lds16 _ _ _ _ _ => true
  | .ldsI16 _ _ _ _ _ => true
  | .lds32 _ _ _ _ _ => true
  | .lds64 _ _ _ _ _ => true
  | .lds128 _ _ _ _ _ => true
  | .sts8 _ _ _ _ _ => true
  | .sts16 _ _ _ _ _ => true
  | .sts32 _ _ _ _ _ => true
  | .sts64 _ _ _ _ _ => true
  | .sts128 _ _ _ _ _ => true
  | .sldg8 _ _ _ _ => true
  | .sldgI8 _ _ _ _ => true
  | .sldg16 _ _ _ _ => true
  | .sldgI16 _ _ _ _ => true
  | .sldg32 _ _ _ _ => true
  | .sldg64 _ _ _ _ => true
  | .sstg8 _ _ _ _ => true
  | .sstg16 _ _ _ _ => true
  | .sstg32 _ _ _ _ => true
  | .sstg64 _ _ _ _ => true
  | .ldg32Ord _ o _ _ _ _ => ordLoad o
  | .ldg64Ord _ o _ _ _ _ => ordLoad o
  | .stg32Ord _ o _ _ _ _ => ordStore o
  | .stg64Ord _ o _ _ _ _ => ordStore o
  | .pref _ _ _ _ => true
  | .cinv _ _ _ _ => true
  | .cinvAll _ _ => true
  | .atomAdd32 _ o _ _ _ _ => ordAny o
  | .atomMinI32 _ o _ _ _ _ => ordAny o
  | .atomMaxI32 _ o _ _ _ _ => ordAny o
  | .atomAnd32 _ o _ _ _ _ => ordAny o
  | .atomOr32 _ o _ _ _ _ => ordAny o
  | .atomXor32 _ o _ _ _ _ => ordAny o
  | .atomExch32 _ o _ _ _ _ => ordAny o
  | .atomCas32 _ o d _ _ _ => ordAny o && pairField d
  | .atomAdd64 _ o _ _ _ _ => ordAny o
  | .atomMinN32 _ o _ _ _ _ => ordAny o
  | .atomMaxN32 _ o _ _ _ _ => ordAny o
  | .atomFaddF32 _ o _ _ _ _ => ordAny o
  | .atomExch64 _ o _ _ _ _ => ordAny o
  | .atomCas64 _ o d _ _ _ => ordAny o && quadField d
  | .redAdd32 _ o _ _ _ _ => ordStore o
  | .redMinI32 _ o _ _ _ _ => ordStore o
  | .redMaxI32 _ o _ _ _ _ => ordStore o
  | .redAnd32 _ o _ _ _ _ => ordStore o
  | .redOr32 _ o _ _ _ _ => ordStore o
  | .redXor32 _ o _ _ _ _ => ordStore o
  | .redFaddF32 _ o _ _ _ _ => ordStore o
  | .redAdd64 _ o _ _ _ _ => ordStore o
  | .satomAdd _ o _ _ _ => ordAny o
  | .satomExch _ o _ _ _ => ordAny o
  | .satomCas _ o d _ _ => ordAny o && pairField d
  | .satomMaxN64 _ o _ _ _ => ordAny o
  | .fence _ o _ => fenceKind o
  | .fenceAsync _ => true
  | .cpt _ _ _ _ _ => true
  | .cpl _ _ _ _ _ => true
  | .cpc _ _ _ _ _ => true
  | .cpm _ _ _ _ _ => true
  | .cpmCon _ _ _ _ _ => true
  | .cprAdd _ _ _ _ _ => true
  | .cprMin _ _ _ _ _ => true
  | .cprMax _ _ _ _ _ => true
  | .bclose _ _ => true
  | .bwait _ _ _ => true
  | .btest _ _ _ => true
  | .barInit _ _ _ _ _ => true
  | .barArrive _ _ _ _ _ => true
  | .barExpect _ _ _ _ _ => true
  | .barWait _ _ _ _ _ => true
  | .barTwait _ _ _ _ _ => true
  | .barInval _ _ _ _ => true
  | .qbind _ _ _ _ => true
  | .qpush _ _ _ _ _ => true
  | .qpop _ _ _ _ _ => true
  | .qtry _ _ _ _ _ => true
  | .stb32 _ _ _ _ _ => true
  | .stb64 _ _ _ _ _ => true
  | .stb128 _ _ _ _ _ => true
  | .spawn _ _ _ _ _ => true
  | .coll _ _ _ _ => true
  | .cwait _ _ _ _ _ => true
  | .ctest _ _ _ _ _ => true
  | .txbegin _ _ => true
  | .txend _ _ => true
  | .txabort _ => true
  | .txstat _ _ => true
  | .txstatAddr _ _ => true
  | .mxld _ _ _ => true
  | .mxfma _ _ _ => true
  | .mxzero _ _ => true
  | .mxck _ _ => true
  | .mxfence _ _ => true
  | .mxwait _ _ _ => true
  | .mxtest _ _ _ => true
  | .mxsplit _ _ _ _ => true
  | .mxsave _ _ _ => true
  | .mxrest _ _ _ => true
  | .vraccRow _ _ _ _ _ _ => true
  | .vraccCol _ _ _ _ _ _ => true
  | .vwaccRow _ _ _ _ _ _ => true
  | .vwaccCol _ _ _ _ _ _ => true
  | .qz _ _ _ _ => true
  | .srd _ _ n => sysReg n
  | .swr _ _ n => sysReg n
  | .clkq _ _ c => clkCode c
  | .eret _ _ => true
  | .fltaddr _ _ _ => true
  | .pmap _ _ _ _ => true
  | .tlbinv _ _ _ _ _ => true
  | .hint _ _ => true
  | .movShort s d a => s || d != 0 || a != 0
  | .iaddShort _ _ _ => true
  | .isubShort _ _ _ => true
  | .imulShort _ _ _ => true
  | .andShort _ _ _ => true
  | .orShort _ _ _ => true
  | .xorShort _ _ _ => true
  | .shlShort _ _ _ => true
  | .shrShort _ _ _ => true
  | .faddShort _ _ _ => true
  | .fsubShort _ _ _ => true
  | .fmulShort _ _ _ => true
  | .fmaxShort _ _ _ => true
  | .fminShort _ _ _ => true
  | .fnegShort _ _ _ => true
  | .ldsShort _ _ _ => true
  | .deferredResultWrite => true
  | .groupWake => true
  | .yieldover => true
  | .tlbinvComplete => true
  | .walkerServe => true
  | .walkComplete => true
  | .meshFlitReceive => true
  | .packetDelivery => true
  | .dropLogAppend => true
  | .negativeAcknowledgement => true
  | .atomicPerform => true
  | .faultRingWrite => true
  | .launch => true
  | .blockResident => true
  | .spawnAccept => true
  | .jobDispatch => true
  | .subjobDispatch => true
  | .chunkComplete => true
  | .cpmShareApply => true
  | .barrierOperation => true
  | .barrierWaveWake => true
  | .barTwaitTimeout => true
  | .queueWaiterServe => true
  | .collectiveStart => true
  | .collectiveChunkComplete => true
  | .qzBlockComplete => true
  | .matrixOpStart => true
  | .mxldSlabWrite => true
  | .aRowRead => true
  | .mxfmaRowWrite => true
  | .matrixOpEnd => true
  | .matrixStopComplete => true
  | .txPrepare => true
  | .txAnswer => true
  | .txCommit => true
  | .txRelease => true
  | .tokenGrant => true
  | .groupStop => true
  | .groupResume => true
  | .coreFailure => true
  | .remapWaveStep => true
  | .tileFailure => true
  | .retireShrink => true
  | .retireRemap => true
  | .retireAbort => true
  | .retireTimeout => true
  | .boostIntervalBoundary => true
  | .sensorRead => true
  | .fieldCurrentSample => true
  | .transitTick => true
  | .periodBoundary => true
  | .sliceEnd => true
  | .qProdWrite => true
  | .qCtlEn => true
  | .qCtlRun => true
  | .qCtlAbort => true
  | .waitPacket => true
  | .waitRecheck => true
  | .waitTimeout => true
  | .signalPacket => true
  | .markPacket => true
  | .reshapeAck => true
  | .powerControlWrite => true
  | .powerRangeWrite => true
  | .energyLoRead => true
  | .registerWrite => true
  | .lockInterfaceRequest => true
  | .startInterfaceRequest => true
  | .stopInterfaceRequest => true
  | .idePacketReceive => true
  | .spdmSessionLoss => true
  | .getVersion => true
  | .getCapabilities => true
  | .negotiateAlgorithms => true
  | .getDigests => true
  | .getCertificate => true
  | .challenge => true
  | .getMeasurements => true
  | .keyExchange => true
  | .finish => true
  | .endSession => true
  | .ideKeyManagement => true
  | .keySlotLoad => true
  | .keySlotClear => true
  | .keySlotQuery => true
  | .recoveryImage => true
  | .reshapeStep => true
  | .reshapeDirtyTimeout => true
  | .scrubGranule => true
  | .write => true
  | .readreq => true
  | .readrsp => true
  | .atomic => true
  | .reduce => true
  | .stamp => true
  | .marker => true
  | .ack => true
  | .nak => true
  | .chunk => true
  | .mgmt => true
  | .forward => true
  | .keySwitchThreshold => true
  | .stampTimer => true
  | .linkTraining => true
  | .linkUp => true
  | .xdMove => true
  | .xdUnpin => true
  | .powerOn => true
  | .resetPin => true
  | .modResetWrite => true
  | .undervolt => true
  | .coolantFault => true
  | .lockstep => true
  | .dropTailWrite => true
  | .partCreate => true
  | .partDestroy => true
  | .vfBind => true
  | .vfUnbind => true
  | .granAdd => true
  | .granRelease => true
  | .reshape => true
  | .exportPage => true
  | .unexportPage => true
  | .sharedCreate => true
  | .sharedFill => true
  | .devForget => true
  | .rollbackCommit => true
  | .setHeadroom => true
  | .linkCtl => true
  | .clockDriveStep => true
  | .discardedFlit => true
  | .hostOriginatedRequest => true
  | .unsupportedRequest => true

end Sys2Proof
end

