-- ==== Sys2Proof/Decode.lean ====
section
/-!
DEFINITION. Decoding, total on any bytes, and the encoder. A 32-bit word is split once into the fields of Table 01-1; every
format of Table 01-2 is a regrouping of them. The order of the checks is that of 01 R25: not assigned, then reserved.
-/

namespace Sys2Proof

/-- Why a word is no instruction (01 R25). -/
inductive Bad where
  /-- Fewer bytes than the instruction has. -/
  | tooShort
  /-- The major, FN, EXT or field use is not assigned (ILLEGAL detail 0). -/
  | notAssigned
  /-- A reserved field or PG is nonzero (ILLEGAL detail 1). -/
  | reservedField
  deriving DecidableEq, Repr

/-- The fields of Table 01-1. -/
structure Fields where
  s : Bool
  maj : BitVec 6
  pg : BitVec 3
  fn : BitVec 3
  d : BitVec 6
  a : BitVec 6
  b : BitVec 6
  deriving DecidableEq, Repr

/-- R11: the fields of a 32-bit word. -/
def fieldsOf (w : BitVec 32) : Fields :=
  ⟨w.getLsbD 1, w.extractLsb' 2 6, w.extractLsb' 8 3, w.extractLsb' 11 3, w.extractLsb' 14 6, w.extractLsb' 20 6,
    w.extractLsb' 26 6⟩

/-- R11: the 32-bit word of its fields. -/
def Fields.word (f : Fields) : BitVec 32 :=
  f.b ++ f.a ++ f.d ++ f.fn ++ f.pg ++ f.maj ++ BitVec.ofBool f.s ++ 1#1

/-- An encoded instruction: a halfword, or the fields of a 32-bit word. -/
inductive Enc where
  | half (w : BitVec 16)
  | word (f : Fields)
  deriving DecidableEq, Repr

/-- A decoded word. Twenty-one rows (the short forms and five others) stand apart as data of their own, because Lean's compiled
code cannot build a constructor numbered above 244; `Decoded.instr` is the instruction meant. -/
inductive Decoded where
  | std (i : Instr)
  | short (op : BitVec 4) (s : Bool) (d a : BitVec 5)
  | hint (s : Bool) (h : BitVec 24)
  | nop (s : Bool)
  | txabort (s : Bool)
  | fenceAsync (s : Bool)
  | exit (s : Bool)

/-- Major 0x00 (Table 01-5). -/
def decodeMajor00 (f : Fields) : Except Bad Decoded :=
  match f.fn with
  | 0#3 => .ok (.std (.iadd f.s f.pg f.d f.a f.b))
  | 1#3 => .ok (.std (.isub f.s f.pg f.d f.a f.b))
  | 2#3 => .ok (.std (.imul f.s f.pg f.d f.a f.b))
  | 3#3 => .ok (.std (.imulhI32 f.s f.pg f.d f.a f.b))
  | 4#3 => .ok (.std (.imulhN32 f.s f.pg f.d f.a f.b))
  | 5#3 => .ok (.std (.and f.s f.pg f.d f.a f.b))
  | 6#3 => .ok (.std (.or f.s f.pg f.d f.a f.b))
  | 7#3 => .ok (.std (.xor f.s f.pg f.d f.a f.b))

/-- Major 0x01 (Table 01-5). -/
def decodeMajor01 (f : Fields) : Except Bad Decoded :=
  match f.fn with
  | 0#3 => .ok (.std (.andn f.s f.pg f.d f.a f.b))
  | 1#3 => .ok (.std (.shl f.s f.pg f.d f.a f.b))
  | 2#3 => .ok (.std (.shr f.s f.pg f.d f.a f.b))
  | 3#3 => .ok (.std (.sra f.s f.pg f.d f.a f.b))
  | 4#3 => .ok (.std (.iminI32 f.s f.pg f.d f.a f.b))
  | 5#3 => .ok (.std (.iminN32 f.s f.pg f.d f.a f.b))
  | 6#3 => .ok (.std (.imaxI32 f.s f.pg f.d f.a f.b))
  | 7#3 => .ok (.std (.imaxN32 f.s f.pg f.d f.a f.b))

/-- Major 0x02 (Table 01-5). -/
def decodeMajor02 (f : Fields) : Except Bad Decoded :=
  match f.fn with
  | 0#3 => .ok (.std (.idivI32 f.s f.pg f.d f.a f.b))
  | 1#3 => .ok (.std (.idivN32 f.s f.pg f.d f.a f.b))
  | 2#3 => .ok (.std (.iremI32 f.s f.pg f.d f.a f.b))
  | 3#3 => .ok (.std (.iremN32 f.s f.pg f.d f.a f.b))
  | 4#3 => .ok (.std (.imad f.s f.pg f.d f.a f.b))
  | 5#3 => .ok (.std (.sel f.s f.pg f.d f.a f.b))
  | 6#3 => .ok (.std (.mov f.s f.pg f.d f.a f.b))
  | _ => .error .notAssigned

/-- Major 0x03 (Table 01-5). -/
def decodeMajor03 (f : Fields) : Except Bad Decoded :=
  match f.fn with
  | 0#3 => (match f.b with
      | 0#6 => .ok (.std (.iabs f.s f.pg f.d f.a))
      | 1#6 => .ok (.std (.clz f.s f.pg f.d f.a))
      | 2#6 => .ok (.std (.popc f.s f.pg f.d f.a))
      | _ => .error .notAssigned)
  | _ => .error .notAssigned

/-- Major 0x04 (Table 01-5). -/
def decodeMajor04 (f : Fields) : Except Bad Decoded :=
  match f.fn with
  | 0#3 => .ok (.std (.iaddi f.s f.pg f.d (f.b ++ f.a)))
  | 1#3 => .ok (.std (.andi f.s f.pg f.d (f.b ++ f.a)))
  | 2#3 => .ok (.std (.ori f.s f.pg f.d (f.b ++ f.a)))
  | 3#3 => .ok (.std (.xori f.s f.pg f.d (f.b ++ f.a)))
  | 4#3 => if f.a.extractLsb' 5 1 != 0#1 || f.b != 0#6 then .error .notAssigned else .ok (.std (.shli f.s f.pg f.d (f.a.extractLsb' 0 5)))
  | 5#3 => if f.a.extractLsb' 5 1 != 0#1 || f.b != 0#6 then .error .notAssigned else .ok (.std (.shri f.s f.pg f.d (f.a.extractLsb' 0 5)))
  | 6#3 => if f.a.extractLsb' 5 1 != 0#1 || f.b != 0#6 then .error .notAssigned else .ok (.std (.srai f.s f.pg f.d (f.a.extractLsb' 0 5)))
  | 7#3 => .ok (.std (.lii f.s f.pg f.d (f.b ++ f.a)))

/-- Major 0x05 (Table 01-5). -/
def decodeMajor05 (f : Fields) : Except Bad Decoded :=
  match f.fn with
  | 0#3 => .ok (.std (.liu f.s f.pg f.d (f.b ++ f.a)))
  | _ => .error .notAssigned

/-- Major 0x08 (Table 01-5). -/
def decodeMajor08 (f : Fields) : Except Bad Decoded :=
  match f.fn with
  | 0#3 => .ok (.std (.fadd f.s f.pg f.d f.a f.b))
  | 1#3 => .ok (.std (.fsub f.s f.pg f.d f.a f.b))
  | 2#3 => .ok (.std (.fmul f.s f.pg f.d f.a f.b))
  | 3#3 => .ok (.std (.ffma f.s f.pg f.d f.a f.b))
  | 4#3 => .ok (.std (.fmin f.s f.pg f.d f.a f.b))
  | 5#3 => .ok (.std (.fmax f.s f.pg f.d f.a f.b))
  | 6#3 => .ok (.std (.fneg f.s f.pg f.d f.a f.b))
  | _ => .error .notAssigned

/-- Major 0x09 (Table 01-5). -/
def decodeMajor09 (f : Fields) : Except Bad Decoded :=
  match f.fn with
  | 0#3 => (match f.b with
      | 0#6 => .ok (.std (.fabs f.s f.pg f.d f.a))
      | 1#6 => .ok (.std (.frcp f.s f.pg f.d f.a))
      | 2#6 => .ok (.std (.frsq f.s f.pg f.d f.a))
      | 3#6 => .ok (.std (.fexp2 f.s f.pg f.d f.a))
      | 4#6 => .ok (.std (.flog2 f.s f.pg f.d f.a))
      | 5#6 => .ok (.std (.fsqrt f.s f.pg f.d f.a))
      | _ => .error .notAssigned)
  | _ => .error .notAssigned

/-- Major 0x0A (Table 01-5). -/
def decodeMajor0A (f : Fields) : Except Bad Decoded :=
  match f.fn with
  | 0#3 => .ok (.std (.fdiv f.s f.pg f.d f.a f.b))
  | _ => .error .notAssigned

/-- Major 0x10 (Table 01-5). -/
def decodeMajor10 (f : Fields) : Except Bad Decoded :=
  match f.fn with
  | 0#3 => .ok (.std (.hadd2 f.s f.pg f.d f.a f.b))
  | 1#3 => .ok (.std (.hmul2 f.s f.pg f.d f.a f.b))
  | 2#3 => .ok (.std (.hfma2 f.s f.pg f.d f.a f.b))
  | 3#3 => .ok (.std (.hmax2 f.s f.pg f.d f.a f.b))
  | 4#3 => .ok (.std (.hmin2 f.s f.pg f.d f.a f.b))
  | 5#3 => .ok (.std (.hdot2 f.s f.pg f.d f.a f.b))
  | _ => .error .notAssigned

/-- Major 0x12 (Table 01-5). -/
def decodeMajor12 (f : Fields) : Except Bad Decoded :=
  if !cvtPair f.fn f.b then .error .notAssigned else .ok (.std (.cvt f.s f.pg f.fn f.d f.a f.b))

/-- Major 0x13 (Table 01-5). -/
def decodeMajor13 (f : Fields) : Except Bad Decoded :=
  match f.fn with
  | 0#3 => .ok (.std (.pack f.s f.pg f.d f.a f.b))
  | 1#3 => (match f.b with
      | 0#6 => .ok (.std (.unpkLo f.s f.pg f.d f.a))
      | 1#6 => .ok (.std (.unpkHi f.s f.pg f.d f.a))
      | _ => .error .notAssigned)
  | 2#3 => .ok (.std (.cvt8Lo f.s f.pg f.d f.a f.b))
  | 3#3 => .ok (.std (.cvt8Hi f.s f.pg f.d f.a f.b))
  | 4#3 => if f.b.extractLsb' 2 4 != 0#4 then .error .notAssigned else (.ok (.std (.unpk8 f.s f.pg f.d f.a (f.b.extractLsb' 0 2))))
  | _ => .error .notAssigned

/-- Major 0x14 (Table 01-5). -/
def decodeMajor14 (f : Fields) : Except Bad Decoded :=
  match f.fn with
  | 0#3 => if f.d.extractLsb' 3 3 != 0#3 then .error .reservedField else .ok (.std (.icmpEq f.s f.pg (f.d.extractLsb' 0 3) f.a f.b))
  | 1#3 => if f.d.extractLsb' 3 3 != 0#3 then .error .reservedField else .ok (.std (.icmpNe f.s f.pg (f.d.extractLsb' 0 3) f.a f.b))
  | 2#3 => if f.d.extractLsb' 3 3 != 0#3 then .error .reservedField else .ok (.std (.icmpLtI32 f.s f.pg (f.d.extractLsb' 0 3) f.a f.b))
  | 3#3 => if f.d.extractLsb' 3 3 != 0#3 then .error .reservedField else .ok (.std (.icmpLeI32 f.s f.pg (f.d.extractLsb' 0 3) f.a f.b))
  | 4#3 => if f.d.extractLsb' 3 3 != 0#3 then .error .reservedField else .ok (.std (.icmpLtN32 f.s f.pg (f.d.extractLsb' 0 3) f.a f.b))
  | 5#3 => if f.d.extractLsb' 3 3 != 0#3 then .error .reservedField else .ok (.std (.icmpLeN32 f.s f.pg (f.d.extractLsb' 0 3) f.a f.b))
  | 6#3 => if f.d.extractLsb' 3 3 != 0#3 || f.a.extractLsb' 3 3 != 0#3 || f.b.extractLsb' 3 3 != 0#3 then .error .reservedField else .ok (.std (.pand f.s f.pg (f.d.extractLsb' 0 3) (f.a.extractLsb' 0 3) (f.b.extractLsb' 0 3)))
  | 7#3 => if f.d.extractLsb' 3 3 != 0#3 || f.a.extractLsb' 3 3 != 0#3 || f.b.extractLsb' 3 3 != 0#3 then .error .reservedField else .ok (.std (.por f.s f.pg (f.d.extractLsb' 0 3) (f.a.extractLsb' 0 3) (f.b.extractLsb' 0 3)))

/-- Major 0x15 (Table 01-5). -/
def decodeMajor15 (f : Fields) : Except Bad Decoded :=
  match f.fn with
  | 0#3 => if f.d.extractLsb' 3 3 != 0#3 then .error .reservedField else .ok (.std (.fcmpEq f.s f.pg (f.d.extractLsb' 0 3) f.a f.b))
  | 1#3 => if f.d.extractLsb' 3 3 != 0#3 then .error .reservedField else .ok (.std (.fcmpNe f.s f.pg (f.d.extractLsb' 0 3) f.a f.b))
  | 2#3 => if f.d.extractLsb' 3 3 != 0#3 then .error .reservedField else .ok (.std (.fcmpLt f.s f.pg (f.d.extractLsb' 0 3) f.a f.b))
  | 3#3 => if f.d.extractLsb' 3 3 != 0#3 then .error .reservedField else .ok (.std (.fcmpLe f.s f.pg (f.d.extractLsb' 0 3) f.a f.b))
  | 4#3 => if f.d.extractLsb' 3 3 != 0#3 then .error .reservedField else .ok (.std (.fcmpUn f.s f.pg (f.d.extractLsb' 0 3) f.a f.b))
  | 5#3 => if f.d.extractLsb' 3 3 != 0#3 then .error .reservedField else .ok (.std (.fcmpOrd f.s f.pg (f.d.extractLsb' 0 3) f.a f.b))
  | 6#3 => if f.d.extractLsb' 3 3 != 0#3 || f.a.extractLsb' 3 3 != 0#3 || f.b.extractLsb' 3 3 != 0#3 then .error .reservedField else .ok (.std (.pxor f.s f.pg (f.d.extractLsb' 0 3) (f.a.extractLsb' 0 3) (f.b.extractLsb' 0 3)))
  | 7#3 => (match f.b with
      | 0#6 => if f.d.extractLsb' 3 3 != 0#3 || f.a.extractLsb' 3 3 != 0#3 then .error .reservedField else .ok (.std (.pnot f.s f.pg (f.d.extractLsb' 0 3) (f.a.extractLsb' 0 3)))
      | 1#6 => if f.d.extractLsb' 3 3 != 0#3 || f.a.extractLsb' 3 3 != 0#3 then .error .reservedField else .ok (.std (.pmov f.s f.pg (f.d.extractLsb' 0 3) (f.a.extractLsb' 0 3)))
      | 2#6 => if f.a.extractLsb' 3 3 != 0#3 then .error .reservedField else .ok (.std (.pcount f.s f.pg f.d (f.a.extractLsb' 0 3)))
      | 3#6 => if f.d.extractLsb' 3 3 != 0#3 || f.a != 0#6 then .error .reservedField else .ok (.std (.emrd f.s f.pg (f.d.extractLsb' 0 3)))
      | 4#6 => if f.pg != 0#3 then .error .notAssigned else if f.d != 0#6 || f.a.extractLsb' 3 3 != 0#3 then .error .reservedField else .ok (.std (.emwr f.s (f.a.extractLsb' 0 3)))
      | 5#6 => if f.pg != 0#3 then .error .notAssigned else if f.d != 0#6 || f.a.extractLsb' 3 3 != 0#3 then .error .reservedField else .ok (.std (.emand f.s (f.a.extractLsb' 0 3)))
      | _ => .error .notAssigned)

/-- Major 0x16 (Table 01-5). -/
def decodeMajor16 (f : Fields) : Except Bad Decoded :=
  match f.fn with
  | 0#3 => .ok (.std (.shfl f.s f.pg f.d f.a f.b))
  | 1#3 => .ok (.std (.bcast f.s f.pg f.d f.a f.b))
  | 2#3 => .ok (.std (.rot f.s f.pg f.d f.a f.b))
  | 3#3 => if f.b != 0#6 then .error .reservedField else .ok (.std (.vtos f.s f.pg f.d f.a))
  | 4#3 => if f.b != 0#6 then .error .notAssigned else .ok (.std (.stov f.s f.pg f.d f.a))
  | 5#3 => if f.a != 0#6 || f.b != 0#6 then .error .notAssigned else .ok (.std (.lane f.s f.pg f.d))
  | _ => .error .notAssigned

/-- Major 0x17 (Table 01-5). -/
def decodeMajor17 (f : Fields) : Except Bad Decoded :=
  match f.fn with
  | 0#3 => if !reduceExt f.b then .error .notAssigned else .ok (.std (.vreduce f.s f.pg f.d f.a f.b))
  | 1#3 => if !reduceExt f.b then .error .notAssigned else .ok (.std (.vscan f.s f.pg f.d f.a f.b))
  | _ => .error .notAssigned

/-- Major 0x18 (Table 01-5). -/
def decodeMajor18 (f : Fields) : Except Bad Decoded :=
  match f.fn with
  | 0#3 => if f.pg != 0#3 then .error .reservedField else .ok (.std (.sadd f.s f.d f.a f.b))
  | 1#3 => if f.pg != 0#3 then .error .reservedField else .ok (.std (.ssub f.s f.d f.a f.b))
  | 2#3 => if f.pg != 0#3 then .error .reservedField else .ok (.std (.smul f.s f.d f.a f.b))
  | 3#3 => if f.pg != 0#3 then .error .reservedField else .ok (.std (.smulh f.s f.d f.a f.b))
  | 4#3 => if f.pg != 0#3 then .error .reservedField else .ok (.std (.sand f.s f.d f.a f.b))
  | 5#3 => if f.pg != 0#3 then .error .reservedField else .ok (.std (.sor f.s f.d f.a f.b))
  | 6#3 => if f.pg != 0#3 then .error .reservedField else .ok (.std (.sxor f.s f.d f.a f.b))
  | 7#3 => if f.pg != 0#3 then .error .reservedField else .ok (.std (.scmpLtu f.s f.d f.a f.b))

/-- Major 0x19 (Table 01-5). -/
def decodeMajor19 (f : Fields) : Except Bad Decoded :=
  match f.fn with
  | 0#3 => if f.pg != 0#3 then .error .reservedField else .ok (.std (.sshl f.s f.d f.a f.b))
  | 1#3 => if f.pg != 0#3 then .error .reservedField else .ok (.std (.sshr f.s f.d f.a f.b))
  | 2#3 => if f.pg != 0#3 then .error .reservedField else .ok (.std (.ssra f.s f.d f.a f.b))
  | 3#3 => if f.pg != 0#3 then .error .reservedField else .ok (.std (.smin f.s f.d f.a f.b))
  | 4#3 => if f.pg != 0#3 then .error .reservedField else .ok (.std (.smax f.s f.d f.a f.b))
  | 5#3 => if f.pg != 0#3 then .error .reservedField else .ok (.std (.sdiv f.s f.d f.a f.b))
  | 6#3 => if f.pg != 0#3 then .error .reservedField else .ok (.std (.scmpEq f.s f.d f.a f.b))
  | 7#3 => if f.pg != 0#3 then .error .reservedField else .ok (.std (.scmpLt f.s f.d f.a f.b))

/-- Major 0x1A (Table 01-5). -/
def decodeMajor1A (f : Fields) : Except Bad Decoded :=
  .ok (.std (.sli f.s (f.fn ++ f.pg) (f.b ++ f.a ++ f.d)))

/-- Major 0x1B (Table 01-5). -/
def decodeMajor1B (f : Fields) : Except Bad Decoded :=
  .ok (.std (.slui f.s (f.fn ++ f.pg) (f.b ++ f.a ++ f.d)))

/-- Major 0x1C (Table 01-5). -/
def decodeMajor1C (f : Fields) : Except Bad Decoded :=
  match f.fn with
  | 0#3 => if f.pg != 0#3 then .error .reservedField else .ok (.std (.br f.s (f.b ++ f.a ++ f.d)))
  | 1#3 => .ok (.std (.bz f.s f.pg (f.b ++ f.a ++ f.d)))
  | 2#3 => .ok (.std (.bnz f.s f.pg (f.b ++ f.a ++ f.d)))
  | 3#3 => .ok (.std (.bany f.s f.pg (f.b ++ f.a ++ f.d)))
  | 4#3 => .ok (.std (.ball f.s f.pg (f.b ++ f.a ++ f.d)))
  | 5#3 => .ok (.std (.bnone f.s f.pg (f.b ++ f.a ++ f.d)))
  | 6#3 => if f.pg != 0#3 then .error .reservedField else .ok (.std (.call f.s (f.b ++ f.a ++ f.d)))
  | _ => .error .notAssigned

/-- Major 0x1D (Table 01-5). -/
def decodeMajor1D (f : Fields) : Except Bad Decoded :=
  match f.fn with
  | 0#3 => if f.pg != 0#3 || f.b != 0#6 then .error .reservedField else .ok (.std (.jr f.s f.d f.a))
  | 1#3 => if f.d != 0#6 || f.a != 0#6 || f.b != 0#6 then .error .notAssigned else if f.pg != 0#3 then .error .reservedField else .ok (.std (.ret f.s))
  | 2#3 => if f.d != 0#6 || f.a != 0#6 || f.b != 0#6 then .error .notAssigned else if f.pg != 0#3 then .error .reservedField else .ok (.exit f.s)
  | 3#3 => if f.pg != 0#3 || f.a != 0#6 || f.b != 0#6 then .error .reservedField else .ok (.std (.trap f.s f.d))
  | 4#3 => if f.d != 0#6 || f.a != 0#6 || f.b != 0#6 then .error .notAssigned else if f.pg != 0#3 then .error .reservedField else .ok (.nop f.s)
  | 5#3 => if f.d != 0#6 || f.a != 0#6 || f.b != 0#6 then .error .reservedField else .ok (.std (.lpx f.s f.pg))
  | _ => .error .notAssigned

/-- Major 0x1E (Table 01-5). -/
def decodeMajor1E (f : Fields) : Except Bad Decoded :=
  match f.fn with
  | 0#3 => if !stepsField (f.b.extractLsb' 0 3 ++ f.a.extractLsb' 5 1) then .error .notAssigned else if f.pg != 0#3 || f.b.extractLsb' 3 3 != 0#3 then .error .reservedField else .ok (.std (.lpb f.s f.d (f.a.extractLsb' 0 5) ((f.b.extractLsb' 0 3) ++ (f.a.extractLsb' 5 1))))
  | _ => .error .notAssigned

/-- Major 0x1F (Table 01-5). -/
def decodeMajor1F (f : Fields) : Except Bad Decoded :=
  match f.fn with
  | 0#3 => if f.pg != 0#3 then .error .reservedField else .ok (.std (.yield f.s f.d (f.b ++ f.a)))
  | _ => .error .notAssigned

/-- Major 0x20 (Table 01-5). -/
def decodeMajor20 (f : Fields) : Except Bad Decoded :=
  match f.fn with
  | 0#3 => .ok (.std (.ldg8 f.s f.pg f.d f.a f.b))
  | 1#3 => .ok (.std (.ldgI8 f.s f.pg f.d f.a f.b))
  | 2#3 => .ok (.std (.ldg16 f.s f.pg f.d f.a f.b))
  | 3#3 => .ok (.std (.ldgI16 f.s f.pg f.d f.a f.b))
  | 4#3 => .ok (.std (.ldg32 f.s f.pg f.d f.a f.b))
  | 5#3 => .ok (.std (.ldg64 f.s f.pg f.d f.a f.b))
  | 6#3 => .ok (.std (.ldg128 f.s f.pg f.d f.a f.b))
  | _ => .error .notAssigned

/-- Major 0x21 (Table 01-5). -/
def decodeMajor21 (f : Fields) : Except Bad Decoded :=
  match f.fn with
  | 0#3 => .ok (.std (.stg8 f.s f.pg f.d f.a f.b))
  | 2#3 => .ok (.std (.stg16 f.s f.pg f.d f.a f.b))
  | 4#3 => .ok (.std (.stg32 f.s f.pg f.d f.a f.b))
  | 5#3 => .ok (.std (.stg64 f.s f.pg f.d f.a f.b))
  | 6#3 => .ok (.std (.stg128 f.s f.pg f.d f.a f.b))
  | _ => .error .notAssigned

/-- Major 0x22 (Table 01-5). -/
def decodeMajor22 (f : Fields) : Except Bad Decoded :=
  match f.fn with
  | 0#3 => .ok (.std (.lds8 f.s f.pg f.d f.a f.b))
  | 1#3 => .ok (.std (.ldsI8 f.s f.pg f.d f.a f.b))
  | 2#3 => .ok (.std (.lds16 f.s f.pg f.d f.a f.b))
  | 3#3 => .ok (.std (.ldsI16 f.s f.pg f.d f.a f.b))
  | 4#3 => .ok (.std (.lds32 f.s f.pg f.d f.a f.b))
  | 5#3 => .ok (.std (.lds64 f.s f.pg f.d f.a f.b))
  | 6#3 => .ok (.std (.lds128 f.s f.pg f.d f.a f.b))
  | _ => .error .notAssigned

/-- Major 0x23 (Table 01-5). -/
def decodeMajor23 (f : Fields) : Except Bad Decoded :=
  match f.fn with
  | 0#3 => .ok (.std (.sts8 f.s f.pg f.d f.a f.b))
  | 2#3 => .ok (.std (.sts16 f.s f.pg f.d f.a f.b))
  | 4#3 => .ok (.std (.sts32 f.s f.pg f.d f.a f.b))
  | 5#3 => .ok (.std (.sts64 f.s f.pg f.d f.a f.b))
  | 6#3 => .ok (.std (.sts128 f.s f.pg f.d f.a f.b))
  | _ => .error .notAssigned

/-- Major 0x24 (Table 01-5). -/
def decodeMajor24 (f : Fields) : Except Bad Decoded :=
  match f.fn with
  | 0#3 => if f.pg != 0#3 then .error .reservedField else .ok (.std (.sldg8 f.s f.d f.a f.b))
  | 1#3 => if f.pg != 0#3 then .error .reservedField else .ok (.std (.sldgI8 f.s f.d f.a f.b))
  | 2#3 => if f.pg != 0#3 then .error .reservedField else .ok (.std (.sldg16 f.s f.d f.a f.b))
  | 3#3 => if f.pg != 0#3 then .error .reservedField else .ok (.std (.sldgI16 f.s f.d f.a f.b))
  | 4#3 => if f.pg != 0#3 then .error .reservedField else .ok (.std (.sldg32 f.s f.d f.a f.b))
  | 5#3 => if f.pg != 0#3 then .error .reservedField else .ok (.std (.sldg64 f.s f.d f.a f.b))
  | _ => .error .notAssigned

/-- Major 0x25 (Table 01-5). -/
def decodeMajor25 (f : Fields) : Except Bad Decoded :=
  match f.fn with
  | 0#3 => if f.pg != 0#3 then .error .reservedField else .ok (.std (.sstg8 f.s f.d f.a f.b))
  | 2#3 => if f.pg != 0#3 then .error .reservedField else .ok (.std (.sstg16 f.s f.d f.a f.b))
  | 4#3 => if f.pg != 0#3 then .error .reservedField else .ok (.std (.sstg32 f.s f.d f.a f.b))
  | 5#3 => if f.pg != 0#3 then .error .reservedField else .ok (.std (.sstg64 f.s f.d f.a f.b))
  | _ => .error .notAssigned

/-- Major 0x26 (Table 01-5). -/
def decodeMajor26 (f : Fields) : Except Bad Decoded :=
  match f.fn with
  | 0#3 => if !ordLoad f.pg then .error .notAssigned else .ok (.std (.ldg32Ord f.s f.pg f.d f.a (f.b.extractLsb' 0 4) (f.b.extractLsb' 4 2)))
  | 1#3 => if !ordLoad f.pg then .error .notAssigned else .ok (.std (.ldg64Ord f.s f.pg f.d f.a (f.b.extractLsb' 0 4) (f.b.extractLsb' 4 2)))
  | 2#3 => if !ordStore f.pg then .error .notAssigned else .ok (.std (.stg32Ord f.s f.pg f.d f.a (f.b.extractLsb' 0 4) (f.b.extractLsb' 4 2)))
  | 3#3 => if !ordStore f.pg then .error .notAssigned else .ok (.std (.stg64Ord f.s f.pg f.d f.a (f.b.extractLsb' 0 4) (f.b.extractLsb' 4 2)))
  | _ => .error .notAssigned

/-- Major 0x27 (Table 01-5). -/
def decodeMajor27 (f : Fields) : Except Bad Decoded :=
  match f.fn with
  | 0#3 => if f.d != 0#6 then .error .reservedField else .ok (.std (.pref f.s f.pg f.a f.b))
  | 1#3 => if f.d != 0#6 then .error .reservedField else .ok (.std (.cinv f.s f.pg f.a f.b))
  | 2#3 => if f.d != 0#6 || f.a != 0#6 || f.b != 0#6 then .error .reservedField else .ok (.std (.cinvAll f.s f.pg))
  | _ => .error .notAssigned

/-- Major 0x28 (Table 01-5). -/
def decodeMajor28 (f : Fields) : Except Bad Decoded :=
  match f.fn with
  | 0#3 => if !ordAny f.pg then .error .notAssigned else .ok (.std (.atomAdd32 f.s f.pg f.d f.a (f.b.extractLsb' 0 4) (f.b.extractLsb' 4 2)))
  | 1#3 => if !ordAny f.pg then .error .notAssigned else .ok (.std (.atomMinI32 f.s f.pg f.d f.a (f.b.extractLsb' 0 4) (f.b.extractLsb' 4 2)))
  | 2#3 => if !ordAny f.pg then .error .notAssigned else .ok (.std (.atomMaxI32 f.s f.pg f.d f.a (f.b.extractLsb' 0 4) (f.b.extractLsb' 4 2)))
  | 3#3 => if !ordAny f.pg then .error .notAssigned else .ok (.std (.atomAnd32 f.s f.pg f.d f.a (f.b.extractLsb' 0 4) (f.b.extractLsb' 4 2)))
  | 4#3 => if !ordAny f.pg then .error .notAssigned else .ok (.std (.atomOr32 f.s f.pg f.d f.a (f.b.extractLsb' 0 4) (f.b.extractLsb' 4 2)))
  | 5#3 => if !ordAny f.pg then .error .notAssigned else .ok (.std (.atomXor32 f.s f.pg f.d f.a (f.b.extractLsb' 0 4) (f.b.extractLsb' 4 2)))
  | 6#3 => if !ordAny f.pg then .error .notAssigned else .ok (.std (.atomExch32 f.s f.pg f.d f.a (f.b.extractLsb' 0 4) (f.b.extractLsb' 4 2)))
  | 7#3 => if !ordAny f.pg || !pairField f.d then .error .notAssigned else .ok (.std (.atomCas32 f.s f.pg f.d f.a (f.b.extractLsb' 0 4) (f.b.extractLsb' 4 2)))

/-- Major 0x29 (Table 01-5). -/
def decodeMajor29 (f : Fields) : Except Bad Decoded :=
  match f.fn with
  | 0#3 => if !ordAny f.pg then .error .notAssigned else .ok (.std (.atomAdd64 f.s f.pg f.d f.a (f.b.extractLsb' 0 4) (f.b.extractLsb' 4 2)))
  | 1#3 => if !ordAny f.pg then .error .notAssigned else .ok (.std (.atomMinN32 f.s f.pg f.d f.a (f.b.extractLsb' 0 4) (f.b.extractLsb' 4 2)))
  | 2#3 => if !ordAny f.pg then .error .notAssigned else .ok (.std (.atomMaxN32 f.s f.pg f.d f.a (f.b.extractLsb' 0 4) (f.b.extractLsb' 4 2)))
  | 3#3 => if !ordAny f.pg then .error .notAssigned else .ok (.std (.atomFaddF32 f.s f.pg f.d f.a (f.b.extractLsb' 0 4) (f.b.extractLsb' 4 2)))
  | 6#3 => if !ordAny f.pg then .error .notAssigned else .ok (.std (.atomExch64 f.s f.pg f.d f.a (f.b.extractLsb' 0 4) (f.b.extractLsb' 4 2)))
  | 7#3 => if !ordAny f.pg || !quadField f.d then .error .notAssigned else .ok (.std (.atomCas64 f.s f.pg f.d f.a (f.b.extractLsb' 0 4) (f.b.extractLsb' 4 2)))
  | _ => .error .notAssigned

/-- Major 0x2A (Table 01-5). -/
def decodeMajor2A (f : Fields) : Except Bad Decoded :=
  match f.fn with
  | 0#3 => if !ordStore f.pg then .error .notAssigned else .ok (.std (.redAdd32 f.s f.pg f.d f.a (f.b.extractLsb' 0 4) (f.b.extractLsb' 4 2)))
  | 1#3 => if !ordStore f.pg then .error .notAssigned else .ok (.std (.redMinI32 f.s f.pg f.d f.a (f.b.extractLsb' 0 4) (f.b.extractLsb' 4 2)))
  | 2#3 => if !ordStore f.pg then .error .notAssigned else .ok (.std (.redMaxI32 f.s f.pg f.d f.a (f.b.extractLsb' 0 4) (f.b.extractLsb' 4 2)))
  | 3#3 => if !ordStore f.pg then .error .notAssigned else .ok (.std (.redAnd32 f.s f.pg f.d f.a (f.b.extractLsb' 0 4) (f.b.extractLsb' 4 2)))
  | 4#3 => if !ordStore f.pg then .error .notAssigned else .ok (.std (.redOr32 f.s f.pg f.d f.a (f.b.extractLsb' 0 4) (f.b.extractLsb' 4 2)))
  | 5#3 => if !ordStore f.pg then .error .notAssigned else .ok (.std (.redXor32 f.s f.pg f.d f.a (f.b.extractLsb' 0 4) (f.b.extractLsb' 4 2)))
  | 6#3 => if !ordStore f.pg then .error .notAssigned else .ok (.std (.redFaddF32 f.s f.pg f.d f.a (f.b.extractLsb' 0 4) (f.b.extractLsb' 4 2)))
  | 7#3 => if !ordStore f.pg then .error .notAssigned else .ok (.std (.redAdd64 f.s f.pg f.d f.a (f.b.extractLsb' 0 4) (f.b.extractLsb' 4 2)))

/-- Major 0x2B (Table 01-5). -/
def decodeMajor2B (f : Fields) : Except Bad Decoded :=
  match f.fn with
  | 0#3 => if !ordAny f.pg then .error .notAssigned else if f.b.extractLsb' 0 4 != 0#4 then .error .reservedField else .ok (.std (.satomAdd f.s f.pg f.d f.a (f.b.extractLsb' 4 2)))
  | 1#3 => if !ordAny f.pg then .error .notAssigned else if f.b.extractLsb' 0 4 != 0#4 then .error .reservedField else .ok (.std (.satomExch f.s f.pg f.d f.a (f.b.extractLsb' 4 2)))
  | 2#3 => if !ordAny f.pg || !pairField f.d then .error .notAssigned else if f.b.extractLsb' 0 4 != 0#4 then .error .reservedField else .ok (.std (.satomCas f.s f.pg f.d f.a (f.b.extractLsb' 4 2)))
  | 3#3 => if !ordAny f.pg then .error .notAssigned else if f.b.extractLsb' 0 4 != 0#4 then .error .reservedField else .ok (.std (.satomMaxN64 f.s f.pg f.d f.a (f.b.extractLsb' 4 2)))
  | 6#3 => if f.pg = 0#3 then (if f.d != 0#6 || f.a != 0#6 || f.b != 0#6 then .error .notAssigned else .ok (.fenceAsync f.s)) else if !fenceKind f.pg then .error .notAssigned else (if f.d != 0#6 || f.a != 0#6 || f.b.extractLsb' 0 4 != 0#4 then .error .notAssigned else .ok (.std (.fence f.s f.pg (f.b.extractLsb' 4 2))))
  | _ => .error .notAssigned

/-- Major 0x2C (Table 01-5). -/
def decodeMajor2C (f : Fields) : Except Bad Decoded :=
  match f.fn with
  | 0#3 => .ok (.std (.cpt f.s f.pg f.d f.a f.b))
  | 1#3 => .ok (.std (.cpl f.s f.pg f.d f.a f.b))
  | 2#3 => .ok (.std (.cpc f.s f.pg f.d f.a f.b))
  | _ => .error .notAssigned

/-- Major 0x2D (Table 01-5). -/
def decodeMajor2D (f : Fields) : Except Bad Decoded :=
  match f.fn with
  | 0#3 => .ok (.std (.cpm f.s f.pg f.d f.a f.b))
  | 1#3 => .ok (.std (.cpmCon f.s f.pg f.d f.a f.b))
  | _ => .error .notAssigned

/-- Major 0x2E (Table 01-5). -/
def decodeMajor2E (f : Fields) : Except Bad Decoded :=
  match f.fn with
  | 0#3 => .ok (.std (.cprAdd f.s f.pg f.d f.a f.b))
  | 1#3 => .ok (.std (.cprMin f.s f.pg f.d f.a f.b))
  | 2#3 => .ok (.std (.cprMax f.s f.pg f.d f.a f.b))
  | _ => .error .notAssigned

/-- Major 0x30 (Table 01-5). -/
def decodeMajor30 (f : Fields) : Except Bad Decoded :=
  match f.fn with
  | 0#3 => if f.pg != 0#3 || f.a != 0#6 || f.b != 0#6 then .error .reservedField else .ok (.std (.bclose f.s f.d))
  | 1#3 => if f.pg != 0#3 || f.b != 0#6 then .error .reservedField else .ok (.std (.bwait f.s f.d f.a))
  | 2#3 => if f.pg != 0#3 || f.b != 0#6 then .error .reservedField else .ok (.std (.btest f.s f.d f.a))
  | _ => .error .notAssigned

/-- Major 0x31 (Table 01-5). -/
def decodeMajor31 (f : Fields) : Except Bad Decoded :=
  match f.fn with
  | 0#3 => if f.d.extractLsb' 3 3 != 0#3 then .error .reservedField else .ok (.std (.barInit f.s f.pg (f.d.extractLsb' 0 3) f.a f.b))
  | 1#3 => .ok (.std (.barArrive f.s f.pg f.d f.a f.b))
  | 2#3 => .ok (.std (.barExpect f.s f.pg f.d f.a f.b))
  | 3#3 => .ok (.std (.barWait f.s f.pg f.d f.a f.b))
  | 4#3 => if f.d.extractLsb' 3 3 != 0#3 then .error .reservedField else .ok (.std (.barTwait f.s f.pg (f.d.extractLsb' 0 3) f.a f.b))
  | 5#3 => if f.b != 0#6 then .error .reservedField else .ok (.std (.barInval f.s f.pg f.d f.a))
  | _ => .error .notAssigned

/-- Major 0x32 (Table 01-5). -/
def decodeMajor32 (f : Fields) : Except Bad Decoded :=
  match f.fn with
  | 0#3 => if f.d.extractLsb' 3 3 != 0#3 || f.b != 0#6 then .error .reservedField else .ok (.std (.qbind f.s f.pg (f.d.extractLsb' 0 3) f.a))
  | 1#3 => if f.a.extractLsb' 3 3 != 0#3 then .error .reservedField else .ok (.std (.qpush f.s f.pg f.d (f.a.extractLsb' 0 3) f.b))
  | 2#3 => if f.a.extractLsb' 3 3 != 0#3 then .error .reservedField else .ok (.std (.qpop f.s f.pg f.d (f.a.extractLsb' 0 3) f.b))
  | 3#3 => if f.a.extractLsb' 3 3 != 0#3 then .error .reservedField else .ok (.std (.qtry f.s f.pg f.d (f.a.extractLsb' 0 3) f.b))
  | _ => .error .notAssigned

/-- Major 0x33 (Table 01-5). -/
def decodeMajor33 (f : Fields) : Except Bad Decoded :=
  match f.fn with
  | 4#3 => .ok (.std (.stb32 f.s f.pg f.d f.a f.b))
  | 5#3 => .ok (.std (.stb64 f.s f.pg f.d f.a f.b))
  | 6#3 => .ok (.std (.stb128 f.s f.pg f.d f.a f.b))
  | _ => .error .notAssigned

/-- Major 0x34 (Table 01-5). -/
def decodeMajor34 (f : Fields) : Except Bad Decoded :=
  match f.fn with
  | 0#3 => .ok (.std (.spawn f.s f.pg f.d f.a f.b))
  | _ => .error .notAssigned

/-- Major 0x35 (Table 01-5). -/
def decodeMajor35 (f : Fields) : Except Bad Decoded :=
  match f.fn with
  | 0#3 => if f.b != 0#6 then .error .reservedField else .ok (.std (.coll f.s f.pg f.d f.a))
  | 1#3 => .ok (.std (.cwait f.s f.pg f.d f.a f.b))
  | 2#3 => .ok (.std (.ctest f.s f.pg f.d f.a f.b))
  | _ => .error .notAssigned

/-- Major 0x36 (Table 01-5). -/
def decodeMajor36 (f : Fields) : Except Bad Decoded :=
  match f.fn with
  | 0#3 => if f.pg != 0#3 || f.d.extractLsb' 3 3 != 0#3 || f.a != 0#6 || f.b != 0#6 then .error .reservedField else .ok (.std (.txbegin f.s (f.d.extractLsb' 0 3)))
  | 1#3 => if f.pg != 0#3 || f.d.extractLsb' 3 3 != 0#3 || f.a != 0#6 || f.b != 0#6 then .error .reservedField else .ok (.std (.txend f.s (f.d.extractLsb' 0 3)))
  | 2#3 => if f.pg != 0#3 || f.d != 0#6 || f.a != 0#6 || f.b != 0#6 then .error .reservedField else .ok (.txabort f.s)
  | 3#3 => if f.a = 1#6 then (if f.d.extractLsb' 0 1 != 0#1 then .error .notAssigned else if f.pg != 0#3 || f.b != 0#6 then .error .reservedField else .ok (.std (.txstatAddr f.s (f.d.extractLsb' 1 5)))) else if f.a != 0#6 then .error .notAssigned else (if f.pg != 0#3 || f.b != 0#6 then .error .reservedField else .ok (.std (.txstat f.s f.d)))
  | _ => .error .notAssigned

/-- Major 0x38 (Table 01-5). -/
def decodeMajor38 (f : Fields) : Except Bad Decoded :=
  match f.fn with
  | 0#3 => if f.pg != 0#3 || f.d != 0#6 then .error .reservedField else .ok (.std (.mxld f.s f.a f.b))
  | 1#3 => if f.pg != 0#3 || f.d != 0#6 then .error .reservedField else .ok (.std (.mxfma f.s f.a f.b))
  | 2#3 => if f.pg != 0#3 || f.d != 0#6 || f.b != 0#6 then .error .reservedField else .ok (.std (.mxzero f.s f.a))
  | 3#3 => if f.pg != 0#3 || f.d != 0#6 || f.b != 0#6 then .error .reservedField else .ok (.std (.mxck f.s f.a))
  | _ => .error .notAssigned

/-- Major 0x39 (Table 01-5). -/
def decodeMajor39 (f : Fields) : Except Bad Decoded :=
  match f.fn with
  | 0#3 => if f.pg != 0#3 || f.a != 0#6 || f.b != 0#6 then .error .reservedField else .ok (.std (.mxfence f.s f.d))
  | 1#3 => if f.pg != 0#3 || f.b != 0#6 then .error .reservedField else .ok (.std (.mxwait f.s f.d f.a))
  | 2#3 => if f.pg != 0#3 || f.b != 0#6 then .error .reservedField else .ok (.std (.mxtest f.s f.d f.a))
  | 3#3 => if f.pg != 0#3 then .error .reservedField else .ok (.std (.mxsplit f.s f.d f.a f.b))
  | 4#3 => if f.pg != 0#3 || f.d != 0#6 then .error .reservedField else .ok (.std (.mxsave f.s f.a f.b))
  | 5#3 => if f.pg != 0#3 || f.d != 0#6 then .error .reservedField else .ok (.std (.mxrest f.s f.a f.b))
  | _ => .error .notAssigned

/-- Major 0x3A (Table 01-5). -/
def decodeMajor3A (f : Fields) : Except Bad Decoded :=
  match f.fn with
  | 0#3 => .ok (.std (.vraccRow f.s f.pg f.d (f.a.extractLsb' 0 4) (f.a.extractLsb' 4 2) f.b))
  | 1#3 => .ok (.std (.vraccCol f.s f.pg f.d (f.a.extractLsb' 0 4) (f.a.extractLsb' 4 2) f.b))
  | _ => .error .notAssigned

/-- Major 0x3B (Table 01-5). -/
def decodeMajor3B (f : Fields) : Except Bad Decoded :=
  match f.fn with
  | 0#3 => .ok (.std (.vwaccRow f.s f.pg f.d (f.a.extractLsb' 0 4) (f.a.extractLsb' 4 2) f.b))
  | 1#3 => .ok (.std (.vwaccCol f.s f.pg f.d (f.a.extractLsb' 0 4) (f.a.extractLsb' 4 2) f.b))
  | _ => .error .notAssigned

/-- Major 0x3C (Table 01-5). -/
def decodeMajor3C (f : Fields) : Except Bad Decoded :=
  match f.fn with
  | 0#3 => if f.b != 0#6 then .error .reservedField else .ok (.std (.qz f.s f.pg f.d f.a))
  | _ => .error .notAssigned

/-- Major 0x3D (Table 01-5). -/
def decodeMajor3D (f : Fields) : Except Bad Decoded :=
  match f.fn with
  | 0#3 => if !sysReg (f.b ++ f.a) then .error .notAssigned else if f.pg != 0#3 then .error .reservedField else .ok (.std (.srd f.s f.d (f.b ++ f.a)))
  | 1#3 => if !sysReg (f.b ++ f.a) then .error .notAssigned else if f.pg != 0#3 then .error .reservedField else .ok (.std (.swr f.s f.d (f.b ++ f.a)))
  | 2#3 => if !clkCode (f.a.extractLsb' 0 4) then .error .notAssigned else if f.pg != 0#3 || f.a.extractLsb' 4 2 != 0#2 || f.b != 0#6 then .error .reservedField else .ok (.std (.clkq f.s f.d (f.a.extractLsb' 0 4)))
  | _ => .error .notAssigned

/-- Major 0x3E (Table 01-5). -/
def decodeMajor3E (f : Fields) : Except Bad Decoded :=
  match f.fn with
  | 0#3 => if f.d != 0#6 || f.a != 0#6 || f.b != 0#6 then .error .notAssigned else .ok (.std (.eret f.s f.pg))
  | 1#3 => if f.d.extractLsb' 0 1 != 0#1 || f.a != 0#6 || f.b != 0#6 then .error .notAssigned else .ok (.std (.fltaddr f.s f.pg (f.d.extractLsb' 1 5)))
  | 2#3 => if f.b != 0#6 then .error .reservedField else .ok (.std (.pmap f.s f.pg f.d f.a))
  | 3#3 => .ok (.std (.tlbinv f.s f.pg f.d f.a f.b))
  | _ => .error .notAssigned

/-- Major 0x3F (Table 01-5). -/
def decodeMajor3F (f : Fields) : Except Bad Decoded :=
  .ok (.hint f.s (f.b ++ f.a ++ f.d ++ f.fn ++ f.pg))

/-- R19: the major opcode selects the row of Table 01-5. -/
def decodeFields (f : Fields) : Except Bad Decoded :=
  match f.maj with
  | 0#6 => decodeMajor00 f
  | 1#6 => decodeMajor01 f
  | 2#6 => decodeMajor02 f
  | 3#6 => decodeMajor03 f
  | 4#6 => decodeMajor04 f
  | 5#6 => decodeMajor05 f
  | 8#6 => decodeMajor08 f
  | 9#6 => decodeMajor09 f
  | 10#6 => decodeMajor0A f
  | 16#6 => decodeMajor10 f
  | 18#6 => decodeMajor12 f
  | 19#6 => decodeMajor13 f
  | 20#6 => decodeMajor14 f
  | 21#6 => decodeMajor15 f
  | 22#6 => decodeMajor16 f
  | 23#6 => decodeMajor17 f
  | 24#6 => decodeMajor18 f
  | 25#6 => decodeMajor19 f
  | 26#6 => decodeMajor1A f
  | 27#6 => decodeMajor1B f
  | 28#6 => decodeMajor1C f
  | 29#6 => decodeMajor1D f
  | 30#6 => decodeMajor1E f
  | 31#6 => decodeMajor1F f
  | 32#6 => decodeMajor20 f
  | 33#6 => decodeMajor21 f
  | 34#6 => decodeMajor22 f
  | 35#6 => decodeMajor23 f
  | 36#6 => decodeMajor24 f
  | 37#6 => decodeMajor25 f
  | 38#6 => decodeMajor26 f
  | 39#6 => decodeMajor27 f
  | 40#6 => decodeMajor28 f
  | 41#6 => decodeMajor29 f
  | 42#6 => decodeMajor2A f
  | 43#6 => decodeMajor2B f
  | 44#6 => decodeMajor2C f
  | 45#6 => decodeMajor2D f
  | 46#6 => decodeMajor2E f
  | 48#6 => decodeMajor30 f
  | 49#6 => decodeMajor31 f
  | 50#6 => decodeMajor32 f
  | 51#6 => decodeMajor33 f
  | 52#6 => decodeMajor34 f
  | 53#6 => decodeMajor35 f
  | 54#6 => decodeMajor36 f
  | 56#6 => decodeMajor38 f
  | 57#6 => decodeMajor39 f
  | 58#6 => decodeMajor3A f
  | 59#6 => decodeMajor3B f
  | 60#6 => decodeMajor3C f
  | 61#6 => decodeMajor3D f
  | 62#6 => decodeMajor3E f
  | 63#6 => decodeMajor3F f
  | _ => .error .notAssigned

/-- R18, Table 01-4: a 16-bit form; the word 0x0000 is no instruction (R10). -/
def decodeHalf (w : BitVec 16) : Except Bad Decoded :=
  if w = 0#16 then .error .notAssigned
  else .ok (.short (w.extractLsb' 2 4) (w.getLsbD 1) (w.extractLsb' 6 5) (w.extractLsb' 11 5))

/-- Table 01-4: the short form of an OP field. -/
noncomputable def shortInstr (op : BitVec 4) (s : Bool) (d a : BitVec 5) : Instr :=
  match op with
  | 0#4 => .movShort s d a
  | 1#4 => .iaddShort s d a
  | 2#4 => .isubShort s d a
  | 3#4 => .imulShort s d a
  | 4#4 => .andShort s d a
  | 5#4 => .orShort s d a
  | 6#4 => .xorShort s d a
  | 7#4 => .shlShort s d a
  | 8#4 => .shrShort s d a
  | 9#4 => .faddShort s d a
  | 10#4 => .fsubShort s d a
  | 11#4 => .fmulShort s d a
  | 12#4 => .fmaxShort s d a
  | 13#4 => .fminShort s d a
  | 14#4 => .fnegShort s d a
  | _ => .ldsShort s d a

/-- The instruction of a decoded word. -/
noncomputable def Decoded.instr : Decoded → Instr
  | .std i => i
  | .short op s d a => shortInstr op s d a
  | .hint s h => .hint s h
  | .nop s => .nop s
  | .txabort s => .txabort s
  | .fenceAsync s => .fenceAsync s
  | .exit s => .exit s

/-- The encoding of Tables 01-2, 01-4, 01-5 and 01-6; an event has none. -/
def encode : Instr → Option Enc
  | .iadd s g d a b => some (.word ⟨s, 0#6, g, 0#3, d, a, b⟩)
  | .isub s g d a b => some (.word ⟨s, 0#6, g, 1#3, d, a, b⟩)
  | .imul s g d a b => some (.word ⟨s, 0#6, g, 2#3, d, a, b⟩)
  | .imulhI32 s g d a b => some (.word ⟨s, 0#6, g, 3#3, d, a, b⟩)
  | .imulhN32 s g d a b => some (.word ⟨s, 0#6, g, 4#3, d, a, b⟩)
  | .and s g d a b => some (.word ⟨s, 0#6, g, 5#3, d, a, b⟩)
  | .or s g d a b => some (.word ⟨s, 0#6, g, 6#3, d, a, b⟩)
  | .xor s g d a b => some (.word ⟨s, 0#6, g, 7#3, d, a, b⟩)
  | .andn s g d a b => some (.word ⟨s, 1#6, g, 0#3, d, a, b⟩)
  | .shl s g d a b => some (.word ⟨s, 1#6, g, 1#3, d, a, b⟩)
  | .shr s g d a b => some (.word ⟨s, 1#6, g, 2#3, d, a, b⟩)
  | .sra s g d a b => some (.word ⟨s, 1#6, g, 3#3, d, a, b⟩)
  | .iminI32 s g d a b => some (.word ⟨s, 1#6, g, 4#3, d, a, b⟩)
  | .iminN32 s g d a b => some (.word ⟨s, 1#6, g, 5#3, d, a, b⟩)
  | .imaxI32 s g d a b => some (.word ⟨s, 1#6, g, 6#3, d, a, b⟩)
  | .imaxN32 s g d a b => some (.word ⟨s, 1#6, g, 7#3, d, a, b⟩)
  | .idivI32 s g d a b => some (.word ⟨s, 2#6, g, 0#3, d, a, b⟩)
  | .idivN32 s g d a b => some (.word ⟨s, 2#6, g, 1#3, d, a, b⟩)
  | .iremI32 s g d a b => some (.word ⟨s, 2#6, g, 2#3, d, a, b⟩)
  | .iremN32 s g d a b => some (.word ⟨s, 2#6, g, 3#3, d, a, b⟩)
  | .imad s g d a b => some (.word ⟨s, 2#6, g, 4#3, d, a, b⟩)
  | .sel s p d a b => some (.word ⟨s, 2#6, p, 5#3, d, a, b⟩)
  | .mov s g d a b => some (.word ⟨s, 2#6, g, 6#3, d, a, b⟩)
  | .iabs s g d a => some (.word ⟨s, 3#6, g, 0#3, d, a, 0#6⟩)
  | .clz s g d a => some (.word ⟨s, 3#6, g, 0#3, d, a, 1#6⟩)
  | .popc s g d a => some (.word ⟨s, 3#6, g, 0#3, d, a, 2#6⟩)
  | .iaddi s g d i => some (.word ⟨s, 4#6, g, 0#3, d, i.extractLsb' 0 6, i.extractLsb' 6 6⟩)
  | .andi s g d i => some (.word ⟨s, 4#6, g, 1#3, d, i.extractLsb' 0 6, i.extractLsb' 6 6⟩)
  | .ori s g d i => some (.word ⟨s, 4#6, g, 2#3, d, i.extractLsb' 0 6, i.extractLsb' 6 6⟩)
  | .xori s g d i => some (.word ⟨s, 4#6, g, 3#3, d, i.extractLsb' 0 6, i.extractLsb' 6 6⟩)
  | .shli s g d i => some (.word ⟨s, 4#6, g, 4#3, d, 0#1 ++ i, 0#6⟩)
  | .shri s g d i => some (.word ⟨s, 4#6, g, 5#3, d, 0#1 ++ i, 0#6⟩)
  | .srai s g d i => some (.word ⟨s, 4#6, g, 6#3, d, 0#1 ++ i, 0#6⟩)
  | .lii s g d i => some (.word ⟨s, 4#6, g, 7#3, d, i.extractLsb' 0 6, i.extractLsb' 6 6⟩)
  | .liu s g d i => some (.word ⟨s, 5#6, g, 0#3, d, i.extractLsb' 0 6, i.extractLsb' 6 6⟩)
  | .fadd s g d a b => some (.word ⟨s, 8#6, g, 0#3, d, a, b⟩)
  | .fsub s g d a b => some (.word ⟨s, 8#6, g, 1#3, d, a, b⟩)
  | .fmul s g d a b => some (.word ⟨s, 8#6, g, 2#3, d, a, b⟩)
  | .ffma s g d a b => some (.word ⟨s, 8#6, g, 3#3, d, a, b⟩)
  | .fmin s g d a b => some (.word ⟨s, 8#6, g, 4#3, d, a, b⟩)
  | .fmax s g d a b => some (.word ⟨s, 8#6, g, 5#3, d, a, b⟩)
  | .fneg s g d a b => some (.word ⟨s, 8#6, g, 6#3, d, a, b⟩)
  | .fabs s g d a => some (.word ⟨s, 9#6, g, 0#3, d, a, 0#6⟩)
  | .frcp s g d a => some (.word ⟨s, 9#6, g, 0#3, d, a, 1#6⟩)
  | .frsq s g d a => some (.word ⟨s, 9#6, g, 0#3, d, a, 2#6⟩)
  | .fexp2 s g d a => some (.word ⟨s, 9#6, g, 0#3, d, a, 3#6⟩)
  | .flog2 s g d a => some (.word ⟨s, 9#6, g, 0#3, d, a, 4#6⟩)
  | .fsqrt s g d a => some (.word ⟨s, 9#6, g, 0#3, d, a, 5#6⟩)
  | .fdiv s g d a b => some (.word ⟨s, 10#6, g, 0#3, d, a, b⟩)
  | .hadd2 s g d a b => some (.word ⟨s, 16#6, g, 0#3, d, a, b⟩)
  | .hmul2 s g d a b => some (.word ⟨s, 16#6, g, 1#3, d, a, b⟩)
  | .hfma2 s g d a b => some (.word ⟨s, 16#6, g, 2#3, d, a, b⟩)
  | .hmax2 s g d a b => some (.word ⟨s, 16#6, g, 3#3, d, a, b⟩)
  | .hmin2 s g d a b => some (.word ⟨s, 16#6, g, 4#3, d, a, b⟩)
  | .hdot2 s g d a b => some (.word ⟨s, 16#6, g, 5#3, d, a, b⟩)
  | .cvt s g m d a e => some (.word ⟨s, 18#6, g, m, d, a, e⟩)
  | .pack s g d a b => some (.word ⟨s, 19#6, g, 0#3, d, a, b⟩)
  | .unpkLo s g d a => some (.word ⟨s, 19#6, g, 1#3, d, a, 0#6⟩)
  | .unpkHi s g d a => some (.word ⟨s, 19#6, g, 1#3, d, a, 1#6⟩)
  | .cvt8Lo s g d a b => some (.word ⟨s, 19#6, g, 2#3, d, a, b⟩)
  | .cvt8Hi s g d a b => some (.word ⟨s, 19#6, g, 3#3, d, a, b⟩)
  | .unpk8 s g d a k => some (.word ⟨s, 19#6, g, 4#3, d, a, 0#4 ++ k⟩)
  | .icmpEq s g p a b => some (.word ⟨s, 20#6, g, 0#3, 0#3 ++ p, a, b⟩)
  | .icmpNe s g p a b => some (.word ⟨s, 20#6, g, 1#3, 0#3 ++ p, a, b⟩)
  | .icmpLtI32 s g p a b => some (.word ⟨s, 20#6, g, 2#3, 0#3 ++ p, a, b⟩)
  | .icmpLeI32 s g p a b => some (.word ⟨s, 20#6, g, 3#3, 0#3 ++ p, a, b⟩)
  | .icmpLtN32 s g p a b => some (.word ⟨s, 20#6, g, 4#3, 0#3 ++ p, a, b⟩)
  | .icmpLeN32 s g p a b => some (.word ⟨s, 20#6, g, 5#3, 0#3 ++ p, a, b⟩)
  | .pand s g p r q => some (.word ⟨s, 20#6, g, 6#3, 0#3 ++ p, 0#3 ++ r, 0#3 ++ q⟩)
  | .por s g p r q => some (.word ⟨s, 20#6, g, 7#3, 0#3 ++ p, 0#3 ++ r, 0#3 ++ q⟩)
  | .fcmpEq s g p a b => some (.word ⟨s, 21#6, g, 0#3, 0#3 ++ p, a, b⟩)
  | .fcmpNe s g p a b => some (.word ⟨s, 21#6, g, 1#3, 0#3 ++ p, a, b⟩)
  | .fcmpLt s g p a b => some (.word ⟨s, 21#6, g, 2#3, 0#3 ++ p, a, b⟩)
  | .fcmpLe s g p a b => some (.word ⟨s, 21#6, g, 3#3, 0#3 ++ p, a, b⟩)
  | .fcmpUn s g p a b => some (.word ⟨s, 21#6, g, 4#3, 0#3 ++ p, a, b⟩)
  | .fcmpOrd s g p a b => some (.word ⟨s, 21#6, g, 5#3, 0#3 ++ p, a, b⟩)
  | .pxor s g p r q => some (.word ⟨s, 21#6, g, 6#3, 0#3 ++ p, 0#3 ++ r, 0#3 ++ q⟩)
  | .pnot s g p r => some (.word ⟨s, 21#6, g, 7#3, 0#3 ++ p, 0#3 ++ r, 0#6⟩)
  | .pmov s g p r => some (.word ⟨s, 21#6, g, 7#3, 0#3 ++ p, 0#3 ++ r, 1#6⟩)
  | .pcount s g d r => some (.word ⟨s, 21#6, g, 7#3, d, 0#3 ++ r, 2#6⟩)
  | .emrd s g p => some (.word ⟨s, 21#6, g, 7#3, 0#3 ++ p, 0#6, 3#6⟩)
  | .emwr s r => some (.word ⟨s, 21#6, 0#3, 7#3, 0#6, 0#3 ++ r, 4#6⟩)
  | .emand s r => some (.word ⟨s, 21#6, 0#3, 7#3, 0#6, 0#3 ++ r, 5#6⟩)
  | .shfl s g d a b => some (.word ⟨s, 22#6, g, 0#3, d, a, b⟩)
  | .bcast s g d a b => some (.word ⟨s, 22#6, g, 1#3, d, a, b⟩)
  | .rot s g d a b => some (.word ⟨s, 22#6, g, 2#3, d, a, b⟩)
  | .vtos s g d a => some (.word ⟨s, 22#6, g, 3#3, d, a, 0#6⟩)
  | .stov s g d a => some (.word ⟨s, 22#6, g, 4#3, d, a, 0#6⟩)
  | .lane s g d => some (.word ⟨s, 22#6, g, 5#3, d, 0#6, 0#6⟩)
  | .vreduce s g d a e => some (.word ⟨s, 23#6, g, 0#3, d, a, e⟩)
  | .vscan s g d a e => some (.word ⟨s, 23#6, g, 1#3, d, a, e⟩)
  | .sadd s d a b => some (.word ⟨s, 24#6, 0#3, 0#3, d, a, b⟩)
  | .ssub s d a b => some (.word ⟨s, 24#6, 0#3, 1#3, d, a, b⟩)
  | .smul s d a b => some (.word ⟨s, 24#6, 0#3, 2#3, d, a, b⟩)
  | .smulh s d a b => some (.word ⟨s, 24#6, 0#3, 3#3, d, a, b⟩)
  | .sand s d a b => some (.word ⟨s, 24#6, 0#3, 4#3, d, a, b⟩)
  | .sor s d a b => some (.word ⟨s, 24#6, 0#3, 5#3, d, a, b⟩)
  | .sxor s d a b => some (.word ⟨s, 24#6, 0#3, 6#3, d, a, b⟩)
  | .scmpLtu s d a b => some (.word ⟨s, 24#6, 0#3, 7#3, d, a, b⟩)
  | .sshl s d a b => some (.word ⟨s, 25#6, 0#3, 0#3, d, a, b⟩)
  | .sshr s d a b => some (.word ⟨s, 25#6, 0#3, 1#3, d, a, b⟩)
  | .ssra s d a b => some (.word ⟨s, 25#6, 0#3, 2#3, d, a, b⟩)
  | .smin s d a b => some (.word ⟨s, 25#6, 0#3, 3#3, d, a, b⟩)
  | .smax s d a b => some (.word ⟨s, 25#6, 0#3, 4#3, d, a, b⟩)
  | .sdiv s d a b => some (.word ⟨s, 25#6, 0#3, 5#3, d, a, b⟩)
  | .scmpEq s d a b => some (.word ⟨s, 25#6, 0#3, 6#3, d, a, b⟩)
  | .scmpLt s d a b => some (.word ⟨s, 25#6, 0#3, 7#3, d, a, b⟩)
  | .sli s d i => some (.word ⟨s, 26#6, d.extractLsb' 0 3, d.extractLsb' 3 3, i.extractLsb' 0 6, i.extractLsb' 6 6, i.extractLsb' 12 6⟩)
  | .slui s d i => some (.word ⟨s, 27#6, d.extractLsb' 0 3, d.extractLsb' 3 3, i.extractLsb' 0 6, i.extractLsb' 6 6, i.extractLsb' 12 6⟩)
  | .br s o => some (.word ⟨s, 28#6, 0#3, 0#3, o.extractLsb' 0 6, o.extractLsb' 6 6, o.extractLsb' 12 6⟩)
  | .bz s n o => some (.word ⟨s, 28#6, n, 1#3, o.extractLsb' 0 6, o.extractLsb' 6 6, o.extractLsb' 12 6⟩)
  | .bnz s n o => some (.word ⟨s, 28#6, n, 2#3, o.extractLsb' 0 6, o.extractLsb' 6 6, o.extractLsb' 12 6⟩)
  | .bany s n o => some (.word ⟨s, 28#6, n, 3#3, o.extractLsb' 0 6, o.extractLsb' 6 6, o.extractLsb' 12 6⟩)
  | .ball s n o => some (.word ⟨s, 28#6, n, 4#3, o.extractLsb' 0 6, o.extractLsb' 6 6, o.extractLsb' 12 6⟩)
  | .bnone s n o => some (.word ⟨s, 28#6, n, 5#3, o.extractLsb' 0 6, o.extractLsb' 6 6, o.extractLsb' 12 6⟩)
  | .call s o => some (.word ⟨s, 28#6, 0#3, 6#3, o.extractLsb' 0 6, o.extractLsb' 6 6, o.extractLsb' 12 6⟩)
  | .jr s d a => some (.word ⟨s, 29#6, 0#3, 0#3, d, a, 0#6⟩)
  | .ret s => some (.word ⟨s, 29#6, 0#3, 1#3, 0#6, 0#6, 0#6⟩)
  | .exit s => some (.word ⟨s, 29#6, 0#3, 2#3, 0#6, 0#6, 0#6⟩)
  | .trap s c => some (.word ⟨s, 29#6, 0#3, 3#3, c, 0#6, 0#6⟩)
  | .nop s => some (.word ⟨s, 29#6, 0#3, 4#3, 0#6, 0#6, 0#6⟩)
  | .lpx s p => some (.word ⟨s, 29#6, p, 5#3, 0#6, 0#6, 0#6⟩)
  | .lpb s c l t => some (.word ⟨s, 30#6, 0#3, 0#3, c, (t.extractLsb' 0 1) ++ l, 0#3 ++ (t.extractLsb' 1 3)⟩)
  | .yield s l r => some (.word ⟨s, 31#6, 0#3, 0#3, l, r.extractLsb' 0 6, r.extractLsb' 6 6⟩)
  | .ldg8 s g d a b => some (.word ⟨s, 32#6, g, 0#3, d, a, b⟩)
  | .ldgI8 s g d a b => some (.word ⟨s, 32#6, g, 1#3, d, a, b⟩)
  | .ldg16 s g d a b => some (.word ⟨s, 32#6, g, 2#3, d, a, b⟩)
  | .ldgI16 s g d a b => some (.word ⟨s, 32#6, g, 3#3, d, a, b⟩)
  | .ldg32 s g d a b => some (.word ⟨s, 32#6, g, 4#3, d, a, b⟩)
  | .ldg64 s g d a b => some (.word ⟨s, 32#6, g, 5#3, d, a, b⟩)
  | .ldg128 s g d a b => some (.word ⟨s, 32#6, g, 6#3, d, a, b⟩)
  | .stg8 s g d a b => some (.word ⟨s, 33#6, g, 0#3, d, a, b⟩)
  | .stg16 s g d a b => some (.word ⟨s, 33#6, g, 2#3, d, a, b⟩)
  | .stg32 s g d a b => some (.word ⟨s, 33#6, g, 4#3, d, a, b⟩)
  | .stg64 s g d a b => some (.word ⟨s, 33#6, g, 5#3, d, a, b⟩)
  | .stg128 s g d a b => some (.word ⟨s, 33#6, g, 6#3, d, a, b⟩)
  | .lds8 s g d a b => some (.word ⟨s, 34#6, g, 0#3, d, a, b⟩)
  | .ldsI8 s g d a b => some (.word ⟨s, 34#6, g, 1#3, d, a, b⟩)
  | .lds16 s g d a b => some (.word ⟨s, 34#6, g, 2#3, d, a, b⟩)
  | .ldsI16 s g d a b => some (.word ⟨s, 34#6, g, 3#3, d, a, b⟩)
  | .lds32 s g d a b => some (.word ⟨s, 34#6, g, 4#3, d, a, b⟩)
  | .lds64 s g d a b => some (.word ⟨s, 34#6, g, 5#3, d, a, b⟩)
  | .lds128 s g d a b => some (.word ⟨s, 34#6, g, 6#3, d, a, b⟩)
  | .sts8 s g d a b => some (.word ⟨s, 35#6, g, 0#3, d, a, b⟩)
  | .sts16 s g d a b => some (.word ⟨s, 35#6, g, 2#3, d, a, b⟩)
  | .sts32 s g d a b => some (.word ⟨s, 35#6, g, 4#3, d, a, b⟩)
  | .sts64 s g d a b => some (.word ⟨s, 35#6, g, 5#3, d, a, b⟩)
  | .sts128 s g d a b => some (.word ⟨s, 35#6, g, 6#3, d, a, b⟩)
  | .sldg8 s d a b => some (.word ⟨s, 36#6, 0#3, 0#3, d, a, b⟩)
  | .sldgI8 s d a b => some (.word ⟨s, 36#6, 0#3, 1#3, d, a, b⟩)
  | .sldg16 s d a b => some (.word ⟨s, 36#6, 0#3, 2#3, d, a, b⟩)
  | .sldgI16 s d a b => some (.word ⟨s, 36#6, 0#3, 3#3, d, a, b⟩)
  | .sldg32 s d a b => some (.word ⟨s, 36#6, 0#3, 4#3, d, a, b⟩)
  | .sldg64 s d a b => some (.word ⟨s, 36#6, 0#3, 5#3, d, a, b⟩)
  | .sstg8 s d a b => some (.word ⟨s, 37#6, 0#3, 0#3, d, a, b⟩)
  | .sstg16 s d a b => some (.word ⟨s, 37#6, 0#3, 2#3, d, a, b⟩)
  | .sstg32 s d a b => some (.word ⟨s, 37#6, 0#3, 4#3, d, a, b⟩)
  | .sstg64 s d a b => some (.word ⟨s, 37#6, 0#3, 5#3, d, a, b⟩)
  | .ldg32Ord s o d a b c => some (.word ⟨s, 38#6, o, 0#3, d, a, c ++ b⟩)
  | .ldg64Ord s o d a b c => some (.word ⟨s, 38#6, o, 1#3, d, a, c ++ b⟩)
  | .stg32Ord s o d a b c => some (.word ⟨s, 38#6, o, 2#3, d, a, c ++ b⟩)
  | .stg64Ord s o d a b c => some (.word ⟨s, 38#6, o, 3#3, d, a, c ++ b⟩)
  | .pref s g a b => some (.word ⟨s, 39#6, g, 0#3, 0#6, a, b⟩)
  | .cinv s g a b => some (.word ⟨s, 39#6, g, 1#3, 0#6, a, b⟩)
  | .cinvAll s g => some (.word ⟨s, 39#6, g, 2#3, 0#6, 0#6, 0#6⟩)
  | .atomAdd32 s o d a b c => some (.word ⟨s, 40#6, o, 0#3, d, a, c ++ b⟩)
  | .atomMinI32 s o d a b c => some (.word ⟨s, 40#6, o, 1#3, d, a, c ++ b⟩)
  | .atomMaxI32 s o d a b c => some (.word ⟨s, 40#6, o, 2#3, d, a, c ++ b⟩)
  | .atomAnd32 s o d a b c => some (.word ⟨s, 40#6, o, 3#3, d, a, c ++ b⟩)
  | .atomOr32 s o d a b c => some (.word ⟨s, 40#6, o, 4#3, d, a, c ++ b⟩)
  | .atomXor32 s o d a b c => some (.word ⟨s, 40#6, o, 5#3, d, a, c ++ b⟩)
  | .atomExch32 s o d a b c => some (.word ⟨s, 40#6, o, 6#3, d, a, c ++ b⟩)
  | .atomCas32 s o d a b c => some (.word ⟨s, 40#6, o, 7#3, d, a, c ++ b⟩)
  | .atomAdd64 s o d a b c => some (.word ⟨s, 41#6, o, 0#3, d, a, c ++ b⟩)
  | .atomMinN32 s o d a b c => some (.word ⟨s, 41#6, o, 1#3, d, a, c ++ b⟩)
  | .atomMaxN32 s o d a b c => some (.word ⟨s, 41#6, o, 2#3, d, a, c ++ b⟩)
  | .atomFaddF32 s o d a b c => some (.word ⟨s, 41#6, o, 3#3, d, a, c ++ b⟩)
  | .atomExch64 s o d a b c => some (.word ⟨s, 41#6, o, 6#3, d, a, c ++ b⟩)
  | .atomCas64 s o d a b c => some (.word ⟨s, 41#6, o, 7#3, d, a, c ++ b⟩)
  | .redAdd32 s o d a b c => some (.word ⟨s, 42#6, o, 0#3, d, a, c ++ b⟩)
  | .redMinI32 s o d a b c => some (.word ⟨s, 42#6, o, 1#3, d, a, c ++ b⟩)
  | .redMaxI32 s o d a b c => some (.word ⟨s, 42#6, o, 2#3, d, a, c ++ b⟩)
  | .redAnd32 s o d a b c => some (.word ⟨s, 42#6, o, 3#3, d, a, c ++ b⟩)
  | .redOr32 s o d a b c => some (.word ⟨s, 42#6, o, 4#3, d, a, c ++ b⟩)
  | .redXor32 s o d a b c => some (.word ⟨s, 42#6, o, 5#3, d, a, c ++ b⟩)
  | .redFaddF32 s o d a b c => some (.word ⟨s, 42#6, o, 6#3, d, a, c ++ b⟩)
  | .redAdd64 s o d a b c => some (.word ⟨s, 42#6, o, 7#3, d, a, c ++ b⟩)
  | .satomAdd s o d a c => some (.word ⟨s, 43#6, o, 0#3, d, a, c ++ 0#4⟩)
  | .satomExch s o d a c => some (.word ⟨s, 43#6, o, 1#3, d, a, c ++ 0#4⟩)
  | .satomCas s o d a c => some (.word ⟨s, 43#6, o, 2#3, d, a, c ++ 0#4⟩)
  | .satomMaxN64 s o d a c => some (.word ⟨s, 43#6, o, 3#3, d, a, c ++ 0#4⟩)
  | .fence s o c => some (.word ⟨s, 43#6, o, 6#3, 0#6, 0#6, c ++ 0#4⟩)
  | .fenceAsync s => some (.word ⟨s, 43#6, 0#3, 6#3, 0#6, 0#6, 0#6⟩)
  | .cpt s g d a b => some (.word ⟨s, 44#6, g, 0#3, d, a, b⟩)
  | .cpl s g d a b => some (.word ⟨s, 44#6, g, 1#3, d, a, b⟩)
  | .cpc s g d a b => some (.word ⟨s, 44#6, g, 2#3, d, a, b⟩)
  | .cpm s g d a b => some (.word ⟨s, 45#6, g, 0#3, d, a, b⟩)
  | .cpmCon s g d a b => some (.word ⟨s, 45#6, g, 1#3, d, a, b⟩)
  | .cprAdd s g d a b => some (.word ⟨s, 46#6, g, 0#3, d, a, b⟩)
  | .cprMin s g d a b => some (.word ⟨s, 46#6, g, 1#3, d, a, b⟩)
  | .cprMax s g d a b => some (.word ⟨s, 46#6, g, 2#3, d, a, b⟩)
  | .bclose s d => some (.word ⟨s, 48#6, 0#3, 0#3, d, 0#6, 0#6⟩)
  | .bwait s d a => some (.word ⟨s, 48#6, 0#3, 1#3, d, a, 0#6⟩)
  | .btest s d a => some (.word ⟨s, 48#6, 0#3, 2#3, d, a, 0#6⟩)
  | .barInit s g p a b => some (.word ⟨s, 49#6, g, 0#3, 0#3 ++ p, a, b⟩)
  | .barArrive s g d a b => some (.word ⟨s, 49#6, g, 1#3, d, a, b⟩)
  | .barExpect s g d a b => some (.word ⟨s, 49#6, g, 2#3, d, a, b⟩)
  | .barWait s g d a b => some (.word ⟨s, 49#6, g, 3#3, d, a, b⟩)
  | .barTwait s g p a b => some (.word ⟨s, 49#6, g, 4#3, 0#3 ++ p, a, b⟩)
  | .barInval s g d a => some (.word ⟨s, 49#6, g, 5#3, d, a, 0#6⟩)
  | .qbind s g q a => some (.word ⟨s, 50#6, g, 0#3, 0#3 ++ q, a, 0#6⟩)
  | .qpush s g d q b => some (.word ⟨s, 50#6, g, 1#3, d, 0#3 ++ q, b⟩)
  | .qpop s g d q b => some (.word ⟨s, 50#6, g, 2#3, d, 0#3 ++ q, b⟩)
  | .qtry s g d q b => some (.word ⟨s, 50#6, g, 3#3, d, 0#3 ++ q, b⟩)
  | .stb32 s g d a b => some (.word ⟨s, 51#6, g, 4#3, d, a, b⟩)
  | .stb64 s g d a b => some (.word ⟨s, 51#6, g, 5#3, d, a, b⟩)
  | .stb128 s g d a b => some (.word ⟨s, 51#6, g, 6#3, d, a, b⟩)
  | .spawn s g d a b => some (.word ⟨s, 52#6, g, 0#3, d, a, b⟩)
  | .coll s g d a => some (.word ⟨s, 53#6, g, 0#3, d, a, 0#6⟩)
  | .cwait s g d a b => some (.word ⟨s, 53#6, g, 1#3, d, a, b⟩)
  | .ctest s g d a b => some (.word ⟨s, 53#6, g, 2#3, d, a, b⟩)
  | .txbegin s p => some (.word ⟨s, 54#6, 0#3, 0#3, 0#3 ++ p, 0#6, 0#6⟩)
  | .txend s p => some (.word ⟨s, 54#6, 0#3, 1#3, 0#3 ++ p, 0#6, 0#6⟩)
  | .txabort s => some (.word ⟨s, 54#6, 0#3, 2#3, 0#6, 0#6, 0#6⟩)
  | .txstat s d => some (.word ⟨s, 54#6, 0#3, 3#3, d, 0#6, 0#6⟩)
  | .txstatAddr s d => some (.word ⟨s, 54#6, 0#3, 3#3, d ++ 0#1, 1#6, 0#6⟩)
  | .mxld s a b => some (.word ⟨s, 56#6, 0#3, 0#3, 0#6, a, b⟩)
  | .mxfma s a b => some (.word ⟨s, 56#6, 0#3, 1#3, 0#6, a, b⟩)
  | .mxzero s a => some (.word ⟨s, 56#6, 0#3, 2#3, 0#6, a, 0#6⟩)
  | .mxck s a => some (.word ⟨s, 56#6, 0#3, 3#3, 0#6, a, 0#6⟩)
  | .mxfence s d => some (.word ⟨s, 57#6, 0#3, 0#3, d, 0#6, 0#6⟩)
  | .mxwait s d a => some (.word ⟨s, 57#6, 0#3, 1#3, d, a, 0#6⟩)
  | .mxtest s d a => some (.word ⟨s, 57#6, 0#3, 2#3, d, a, 0#6⟩)
  | .mxsplit s d a b => some (.word ⟨s, 57#6, 0#3, 3#3, d, a, b⟩)
  | .mxsave s a b => some (.word ⟨s, 57#6, 0#3, 4#3, 0#6, a, b⟩)
  | .mxrest s a b => some (.word ⟨s, 57#6, 0#3, 5#3, 0#6, a, b⟩)
  | .vraccRow s g d x t i => some (.word ⟨s, 58#6, g, 0#3, d, t ++ x, i⟩)
  | .vraccCol s g d x t i => some (.word ⟨s, 58#6, g, 1#3, d, t ++ x, i⟩)
  | .vwaccRow s g d x t i => some (.word ⟨s, 59#6, g, 0#3, d, t ++ x, i⟩)
  | .vwaccCol s g d x t i => some (.word ⟨s, 59#6, g, 1#3, d, t ++ x, i⟩)
  | .qz s g d a => some (.word ⟨s, 60#6, g, 0#3, d, a, 0#6⟩)
  | .srd s d n => some (.word ⟨s, 61#6, 0#3, 0#3, d, n.extractLsb' 0 6, n.extractLsb' 6 6⟩)
  | .swr s d n => some (.word ⟨s, 61#6, 0#3, 1#3, d, n.extractLsb' 0 6, n.extractLsb' 6 6⟩)
  | .clkq s d c => some (.word ⟨s, 61#6, 0#3, 2#3, d, 0#2 ++ c, 0#6⟩)
  | .eret s g => some (.word ⟨s, 62#6, g, 0#3, 0#6, 0#6, 0#6⟩)
  | .fltaddr s g d => some (.word ⟨s, 62#6, g, 1#3, d ++ 0#1, 0#6, 0#6⟩)
  | .pmap s g d a => some (.word ⟨s, 62#6, g, 2#3, d, a, 0#6⟩)
  | .tlbinv s g d a b => some (.word ⟨s, 62#6, g, 3#3, d, a, b⟩)
  | .hint s h => some (.word ⟨s, 63#6, h.extractLsb' 0 3, h.extractLsb' 3 3, h.extractLsb' 6 6, h.extractLsb' 12 6, h.extractLsb' 18 6⟩)
  | .movShort s d a => some (.half (a ++ d ++ 0#4 ++ BitVec.ofBool s ++ 0#1))
  | .iaddShort s d a => some (.half (a ++ d ++ 1#4 ++ BitVec.ofBool s ++ 0#1))
  | .isubShort s d a => some (.half (a ++ d ++ 2#4 ++ BitVec.ofBool s ++ 0#1))
  | .imulShort s d a => some (.half (a ++ d ++ 3#4 ++ BitVec.ofBool s ++ 0#1))
  | .andShort s d a => some (.half (a ++ d ++ 4#4 ++ BitVec.ofBool s ++ 0#1))
  | .orShort s d a => some (.half (a ++ d ++ 5#4 ++ BitVec.ofBool s ++ 0#1))
  | .xorShort s d a => some (.half (a ++ d ++ 6#4 ++ BitVec.ofBool s ++ 0#1))
  | .shlShort s d a => some (.half (a ++ d ++ 7#4 ++ BitVec.ofBool s ++ 0#1))
  | .shrShort s d a => some (.half (a ++ d ++ 8#4 ++ BitVec.ofBool s ++ 0#1))
  | .faddShort s d a => some (.half (a ++ d ++ 9#4 ++ BitVec.ofBool s ++ 0#1))
  | .fsubShort s d a => some (.half (a ++ d ++ 10#4 ++ BitVec.ofBool s ++ 0#1))
  | .fmulShort s d a => some (.half (a ++ d ++ 11#4 ++ BitVec.ofBool s ++ 0#1))
  | .fmaxShort s d a => some (.half (a ++ d ++ 12#4 ++ BitVec.ofBool s ++ 0#1))
  | .fminShort s d a => some (.half (a ++ d ++ 13#4 ++ BitVec.ofBool s ++ 0#1))
  | .fnegShort s d a => some (.half (a ++ d ++ 14#4 ++ BitVec.ofBool s ++ 0#1))
  | .ldsShort s d a => some (.half (a ++ d ++ 15#4 ++ BitVec.ofBool s ++ 0#1))
  | .deferredResultWrite => none
  | .groupWake => none
  | .yieldover => none
  | .tlbinvComplete => none
  | .walkerServe => none
  | .walkComplete => none
  | .meshFlitReceive => none
  | .packetDelivery => none
  | .dropLogAppend => none
  | .negativeAcknowledgement => none
  | .atomicPerform => none
  | .faultRingWrite => none
  | .launch => none
  | .blockResident => none
  | .spawnAccept => none
  | .jobDispatch => none
  | .subjobDispatch => none
  | .chunkComplete => none
  | .cpmShareApply => none
  | .barrierOperation => none
  | .barrierWaveWake => none
  | .barTwaitTimeout => none
  | .queueWaiterServe => none
  | .collectiveStart => none
  | .collectiveChunkComplete => none
  | .qzBlockComplete => none
  | .matrixOpStart => none
  | .mxldSlabWrite => none
  | .aRowRead => none
  | .mxfmaRowWrite => none
  | .matrixOpEnd => none
  | .matrixStopComplete => none
  | .txPrepare => none
  | .txAnswer => none
  | .txCommit => none
  | .txRelease => none
  | .tokenGrant => none
  | .groupStop => none
  | .groupResume => none
  | .coreFailure => none
  | .remapWaveStep => none
  | .tileFailure => none
  | .retireShrink => none
  | .retireRemap => none
  | .retireAbort => none
  | .retireTimeout => none
  | .boostIntervalBoundary => none
  | .sensorRead => none
  | .fieldCurrentSample => none
  | .transitTick => none
  | .periodBoundary => none
  | .sliceEnd => none
  | .qProdWrite => none
  | .qCtlEn => none
  | .qCtlRun => none
  | .qCtlAbort => none
  | .waitPacket => none
  | .waitRecheck => none
  | .waitTimeout => none
  | .signalPacket => none
  | .markPacket => none
  | .reshapeAck => none
  | .powerControlWrite => none
  | .powerRangeWrite => none
  | .energyLoRead => none
  | .registerWrite => none
  | .lockInterfaceRequest => none
  | .startInterfaceRequest => none
  | .stopInterfaceRequest => none
  | .idePacketReceive => none
  | .spdmSessionLoss => none
  | .getVersion => none
  | .getCapabilities => none
  | .negotiateAlgorithms => none
  | .getDigests => none
  | .getCertificate => none
  | .challenge => none
  | .getMeasurements => none
  | .keyExchange => none
  | .finish => none
  | .endSession => none
  | .ideKeyManagement => none
  | .keySlotLoad => none
  | .keySlotClear => none
  | .keySlotQuery => none
  | .recoveryImage => none
  | .reshapeStep => none
  | .reshapeDirtyTimeout => none
  | .scrubGranule => none
  | .write => none
  | .readreq => none
  | .readrsp => none
  | .atomic => none
  | .reduce => none
  | .stamp => none
  | .marker => none
  | .ack => none
  | .nak => none
  | .chunk => none
  | .mgmt => none
  | .forward => none
  | .keySwitchThreshold => none
  | .stampTimer => none
  | .linkTraining => none
  | .linkUp => none
  | .xdMove => none
  | .xdUnpin => none
  | .powerOn => none
  | .resetPin => none
  | .modResetWrite => none
  | .undervolt => none
  | .coolantFault => none
  | .lockstep => none
  | .dropTailWrite => none
  | .partCreate => none
  | .partDestroy => none
  | .vfBind => none
  | .vfUnbind => none
  | .granAdd => none
  | .granRelease => none
  | .reshape => none
  | .exportPage => none
  | .unexportPage => none
  | .sharedCreate => none
  | .sharedFill => none
  | .devForget => none
  | .rollbackCommit => none
  | .setHeadroom => none
  | .linkCtl => none
  | .clockDriveStep => none
  | .discardedFlit => none
  | .hostOriginatedRequest => none
  | .unsupportedRequest => none

/-- R8: bit 0 of the first halfword gives the length in bytes. -/
def lengthOfHalf (h : BitVec 16) : Nat := if h.getLsbD 0 then 4 else 2

/-- R11, R25: a 32-bit word to its instruction. -/
noncomputable def decodeWord (w : BitVec 32) : Except Bad Instr := (decodeFields (fieldsOf w)).map Decoded.instr

/-- A little-endian halfword of two bytes (R8). -/
def halfOf (b0 b1 : Byte) : BitVec 16 := b1 ++ b0

/-- R8: the instruction at the head of a stream of bytes, with the bytes after it. -/
noncomputable def decode : List Byte → Except Bad (Instr × List Byte)
  | b0 :: b1 :: rest =>
    if lengthOfHalf (halfOf b0 b1) = 2 then
      match decodeHalf (halfOf b0 b1) with
      | .ok i => .ok (i.instr, rest)
      | .error e => .error e
    else
      match rest with
      | b2 :: b3 :: rest' =>
        match decodeWord (b3 ++ b2 ++ b1 ++ b0) with
        | .ok i => .ok (i, rest')
        | .error e => .error e
      | _ => .error .tooShort
  | _ => .error .tooShort

/-- The bytes of an encoded instruction, lowest address first (R8). -/
def Enc.bytes : Enc → List Byte
  | .half w => [w.extractLsb' 0 8, w.extractLsb' 8 8]
  | .word f =>
    let w := f.word
    [w.extractLsb' 0 8, w.extractLsb' 8 8, w.extractLsb' 16 8, w.extractLsb' 24 8]

/-- The value `w` of `n` bytes laid out from the lowest address. -/
def bytesOfNat : Nat → Nat → List Byte
  | 0, _ => []
  | n + 1, w => BitVec.ofNat 8 w :: bytesOfNat n (w / 256)

/-- The instruction the decoder reads from a row's bits (bit 0 the least significant of the first halfword); the bits above
`nbits` are zero. -/
noncomputable def decodeTableWord (nbits w : Nat) : Option Instr :=
  match decode (bytesOfNat 4 (w % 2 ^ nbits)) with
  | .ok (i, _) => some i
  | .error _ => none

end Sys2Proof
end

