-- ==== Sys2Proof/Config.lean ====
section
/-!
DEFINITION. The free values: what the spec leaves open. Each is an opaque constant with no body, applied to a plain
counter of the state (`State.oracle`) or to the data the value depends on; nothing can prove a value of one.
-/

namespace Sys2Proof.Config

/-- A free choice between two outcomes the spec allows (01 R17, 03 R89, 05 R117; assumption 1). -/
opaque freeBool : Nat → Bool
/-- A free 64-bit value (assumption 1). -/
opaque freeWord : Nat → BitVec 64
/-- A free 256-bit value, such as a key the module draws at random (21 R376; assumption 1). -/
opaque freeKey : Nat → BitVec 256
/-- The second key of AES-256-XTS, which belongs to a memory key (21 R376; assumption 69). -/
opaque tweakKey : BitVec 256 → BitVec 256
/-- The photometer's coefficients, 24 bits each, by activity kind (19 R356; assumption 7). -/
opaque photoCoeff : Nat → BitVec 24

end Sys2Proof.Config
end

