-- ==== Sys2Proof/Machine/State.lean ====
section
/-!
DEFINITION. The state of the module as plain data: every piece of architectural state the spec names, and the model's own
counters (`oracle`, `nextId`) and schedule (`agenda`, `ev`). Sparse data stands in ascending lists of key and value pairs
that list no default value, so equal states are equal data.
-/

namespace Sys2Proof.Machine

/-- Sparse data by key, ascending, no entry equal to its default. -/
abbrev SMap (α : Type) := List (Nat × α)

/-- Bytes by address, ascending, no entry equal to what an unlisted byte reads as, which is 0 (21 R391, 23 R411;
assumption 8). -/
abbrev Mem := List Host.Cell

/-- A place of coherence: the target type of Table 05-3 and an address within it. TT 0: site × 2^36 + device byte address;
TT 1: core × 2^21 + offset; TT 2, 4: core × 2^22 + offset; TT 3: core × 2^20 + offset (R119); TT 5: port × 2^57 + host
address; TT 6: device × 2^57 + index × 2^16 + offset (R398); TT 7: MMIO offset. -/
structure Loc where
  tt : Nat := 0
  addr : Nat := 0
  deriving DecidableEq, Repr

/-- A fault event (16 R308, R309): kind, detail and what the record carries. `lanes` lists the failing lanes with their
addresses; an event of the whole group has `count` 0. -/
structure FaultEv where
  kind : Nat
  detail : Nat := 0
  lane : Nat := 0
  count : Nat := 0
  spoff : Bool := false
  code : Nat := 0
  /-- the program counter `eret` resumes at (R97, R98, R136) -/
  pc : W64 := 0
  /-- the program counter of the ring record (Table 16-5) -/
  rpc : W64 := 0
  addrs : SMap W64 := []
  /-- the handler's `em`: `none` leaves it unchanged -/
  em : Option Mask := none
  aux : Nat := 0
  deriving DecidableEq, Repr

/-- A destination a packet or an agent may be (05 R112, R132). -/
structure Agent where
  /-- 0 lanes or sequencer, 1 core engine, 2 tile unit, 3 host port (Table 05-5) -/
  unit : Nat := 0
  tag : Nat := 0
  /-- core number (y × 27 + x) × 16 + slot; a tile for unit 2, a port for unit 3 -/
  core : Nat := 0
  /-- identity of the context, 0 when none -/
  ctx : Nat := 0
  launch : Nat := 0
  /-- the launch's queue: VF × 8 + queue -/
  lq : Nat := 0
  deriving DecidableEq, Repr

/-- The loop state of 02 R73: count, pass and slot, with the body's slot addresses (the address after the body last) and
step words, which the hardware holds in the loop buffer (assumption 12). -/
structure LoopState where
  count : W64 := 0
  pass : W64 := 0
  slot : Nat := 0
  addrs : List W64 := []
  steps : List W32 := []
  deriving DecidableEq, Repr

/-- One part of a deferred result. `contested` marks the lanes that a later instruction has written since (01 R17). -/
inductive DVal where
  | vec (row : Nat) (m : Mask) (v : Vec) (contested : Mask)
  | uni (r : Nat) (v : W64) (contested : Bool)
  | prd (r : Nat) (m : Mask) (v : Mask) (contested : Mask)
  deriving DecidableEq, Repr

/-- A deferred result (01 R16): its parts, its flags and the core steps until it is written; 0 means the result has
returned from memory and is written at a settle or a DEFERRED_RESULT_WRITE. `ready` is false while an engine or a slice
still owes the value. -/
structure Deferred where
  id : Nat := 0
  vals : List DVal := []
  flags : BitVec 5 := 0
  due : Nat := 0
  ready : Bool := true
  deriving DecidableEq, Repr

/-- Why a context is parked (18 R341). -/
inductive Park where
  | settle
  | batch (n : Nat)
  | mxBatch (n : Nat)
  | barrier (obj : Loc) (phase : Nat)
  /-- a `bar.twait`: the core's `span` at which HINT has elapsed -/
  | barrierTimed (obj : Loc) (phase : Nat) (until_ : Nat)
  /-- woken: the wave this context belongs to has not come yet -/
  | wave
  | queue (q : Loc) (push : Bool)
  | flag (a : Loc)
  | txPlace
  | token
  /-- until a commit's lock on a line is gone (16 R297) -/
  | line (n : Nat)
  /-- `txend` until its lanes have committed or aborted (14 R282) -/
  | txend
  | limit
  | qzQueue
  | mxLimit
  | mxIdle
  | exitWait
  /-- the partition has no walker or link answer yet, or a peer is severed (22 R400) -/
  | link
  deriving DecidableEq, Repr

/-- One submission batch (07 R158). -/
structure Batch where
  num : Nat
  jobs : List Nat
  deriving DecidableEq, Repr

/-- One matrix batch: the operations still unfinished, how many there were and the first failure in issue order
(Table 11-3). -/
structure MxBatch where
  num : Nat
  ops : List Nat
  count : Nat := 0
  /-- cause, ordinal and progress of the first failed operation -/
  fail : Option (Nat × Nat × Nat) := none
  deriving DecidableEq, Repr

/-- A logged word: its place, its home tile and the value read (14 R281). -/
structure TxRead where
  l : Loc
  home : Nat
  v : W32
  deriving DecidableEq, Repr

/-- A logged write of a word: its bytes and their mask. -/
structure TxWrite where
  l : Loc
  home : Nat
  v : W32
  m : BitVec 4
  deriving DecidableEq, Repr

/-- Read and write logs of one lane's transaction (14 R281). -/
structure TxLog where
  rlog : List TxRead := []
  wlog : List TxWrite := []
  deriving DecidableEq, Repr

inductive CtxKind where
  | none
  | group
  | seq (c : Nat)
  deriving DecidableEq, Repr

/-- A group or a sequencer context (06 R140, R144; 11 R230). -/
structure Ctx where
  kind : CtxKind := .none
  id : Nat := 0
  launch : Nat := 0
  block : Nat := 0
  lg : Nat := 0
  core : Nat := 0
  slot : Nat := 0
  vbase : Nat := 0
  valloc : Nat := 0
  fbbase : Nat := 0
  resident : Bool := false
  pc : W64 := 0
  smode : Bool := false
  em : Mask := 0
  /-- `p1`–`p7`; `p0` is not stored (02 R42) -/
  preds : SMap Mask := []
  sregs : SMap W64 := []
  fpx : BitVec 5 := 0
  txThresh : BitVec 4 := 0
  txg : Bool := false
  txHold : Bool := false
  txLane : Nat := 0
  /-- the transaction record of each lane (Table 14-2) -/
  txrec : SMap W32 := []
  txlogs : SMap TxLog := []
  txAddr : SMap W64 := []
  doomed : Mask := 0
  loop : Option LoopState := none
  deferred : List Deferred := []
  park : Option Park := none
  /-- the next issue repeats an instruction that parked without effect -/
  reissue : Bool := false
  /-- why a barrier wait woke: 1 by `bar.inval`, 2 because its phase became late, 3 because HINT has elapsed (Table 07-8) -/
  woken : Nat := 0
  /-- when it parked: a smaller number is earlier (18 R342) -/
  parkSeq : Nat := 0
  dirty : Bool := false
  deadline : Nat := 4096
  issued : Nat := 0
  smCount : Nat := 0
  epc : W64 := 0
  cause : W64 := 0
  savedEm : Mask := 0
  savedLoop : Option LoopState := none
  /-- a fault in a recipe body: `eret` returns into it (16 R302) -/
  savedRecipe : Option W64 := none
  fltAddrs : SMap W64 := []
  rcpHeader : W64 := 0
  /-- the loop buffer's contents at the flashback point (assumption 12) -/
  fbLoop : Option LoopState := none
  /-- in a recipe body: the address just after its end (16 R302) -/
  recipe : Option W64 := none
  icnt : W64 := 0
  drag : W64 := 0
  cls0 : W64 := 0
  cls1 : W64 := 0
  cls2 : W64 := 0
  cls3 : W64 := 0
  breq : Bool := false
  nreq : Bool := false
  openSet : List Nat := []
  batchN : BitVec 32 := 0
  batches : List Batch := []
  mxOpen : List Nat := []
  mxBatchN : BitVec 32 := 0
  mxBatches : List MxBatch := []
  /-- the first failure, in issue order, among the open matrix operations that have ended -/
  mxOpenFail : Option (Nat × Nat × Nat) := none
  stage : Nat := 0
  yields : Nat := 0
  age : Nat := 0
  resOrder : Nat := 0
  poisonV : SMap Mask := []
  poisonS : BitVec 64 := 0
  preempt : Bool := false
  stopped : Bool := false
  ended : Bool := false
  /-- the slot in issue (02 R71): its stepped byte offset; the length a stepped short form really has when it is issued as its
  32-bit equivalent; whether a register field of it is stepped -/
  addrOff : W64 := 0
  slotLen : Nat := 0
  stepped : Bool := false
  /-- an event whose handler entry waits for the settle (01 R15) -/
  event : Option FaultEv := none
  /-- an event of an earlier reduction that met a word poisoned since, raised at the next instruction (03 R98) -/
  late : Option FaultEv := none
  /-- the fence of a `.sc.sys` access: what follows waits until each of these devices has applied the forwards up to its number (09 R200, R203) -/
  fenced : List (Nat × Nat) := []
  /-- accesses to several exported pages: 0 not asked, 1 the entries are being asked for, 2 they are valid (03 R97; assumption 57) -/
  probe : Nat := 0
  /-- answers of other devices to the accesses of the parked instruction, by lane: status (0 answered, 1 refused, 2 lost) and
  bytes (22 R398, R400) -/
  answers : SMap (Nat × List Byte) := []
  /-- packets numbered below these precede the stores and atomics, and the submissions, that follow (03 R95) -/
  relFence : Nat := 0
  asyncFence : Nat := 0
  deriving DecidableEq, Repr

/-- A queue handle's binding (07 R180): core and byte offset of the control word. -/
structure QBind where
  core : Nat
  off : Nat
  deriving DecidableEq, Repr

inductive BlockState where
  | pending
  | resident
  | stopped
  | held
  | ended
  deriving DecidableEq, Repr

/-- A block (06 R140, R153). -/
structure Block where
  launch : Nat := 0
  b : Nat := 0
  bx : Nat := 0
  bY : Nat := 0
  bz : Nat := 0
  groups : Nat := 1
  vregs : Nat := 32
  spbase : Nat := 0
  spsize : Nat := 0
  core : Nat := 0
  entry : W64 := 0
  args : W64 := 0
  st : BlockState := .pending
  placed : Bool := false
  handles : SMap QBind := []
  claim : Bool := false
  split : Bool := false
  order : Nat := 0
  deriving DecidableEq, Repr

structure Stage where
  entry : W64 := 0
  recipe : W64 := 0
  min : Nat := 1
  max : Nat := 8
  qin : Nat := 15
  qout : Nat := 15
  deriving DecidableEq, Repr

structure PQueue where
  ctrl : Nat := 0
  qbase : Nat := 0
  depth : Nat := 0
  esize : Nat := 0
  handle : Nat := 0
  deriving DecidableEq, Repr

/-- A pipeline record (13 Tables 13-4 to 13-6). -/
structure Pipe where
  hold : Nat := 2
  hi : Nat := 12
  lo : Nat := 4
  args : W64 := 0
  stages : List Stage := []
  queues : List PQueue := []
  deriving DecidableEq, Repr

/-- A running launch (06 R142, R150; 11 R228; 13 R267). -/
structure Launch where
  tag : Nat := 0
  vf : Nat := 0
  q : Nat := 0
  kernel : W64 := 0
  args : W64 := 0
  places : List (Nat × Nat × Nat) := []
  blocks : Nat := 1
  gx : Nat := 1
  gy : Nat := 1
  gz : Nat := 1
  groups : Nat := 1
  vregs : Nat := 32
  spbytes : Nat := 0
  /-- (block, lg, constellations) in index order -/
  gtable : List (Nat × Nat × List Nat) := []
  fbthresh : Nat := 4
  order : Bool := false
  seq : W64 := 0
  pipe : Option Pipe := none
  counter : Nat := 0
  /-- the first block accepted with each linear index (21 R378, 07 R168) -/
  first : SMap Nat := []
  /-- the packet series of each core: next write and read sequence (05 R132) -/
  wseq : SMap Nat := []
  rseq : SMap Nat := []
  ended : Bool := false
  /-- the code its packet completes with once every write of it has been performed (09 R198) -/
  done : Option Nat := none
  deriving DecidableEq, Repr

/-- The engine of a core (11 R229–R248, 13 R257–R266). -/
structure Engine where
  holder : Nat := 0
  split : Bool := false
  held : Bool := false
  stopped : Bool := false
  /-- format of each plane in each half: bit j + 16 h set when half h of plane j holds BF16 integers -/
  fmt : BitVec 32 := 0
  /-- poison marks of the tiles -/
  poison : BitVec 4 := 0
  progF0 : W64 := 0
  progL0 : W64 := 0
  progF1 : W64 := 0
  progL1 : W64 := 0
  busy0 : W64 := 0
  busy1 : W64 := 0
  rows0 : W64 := 0
  rows1 : W64 := 0
  await0 : W64 := 0
  await1 : W64 := 0
  /-- no block has claimed it since the tile's last boundary (19 R353) -/
  unclaimed : Bool := false
  retained : Bool := false
  deriving DecidableEq, Repr

/-- An instruction in the stages: its context, its class and the stages it has still to leave. -/
structure StageEntry where
  ctx : Nat
  cls : Nat
  left : Nat
  seq : Bool := false
  deriving DecidableEq, Repr

/-- A group waiting for its wave (18 R342): the core step at which it becomes ready. -/
structure Wave where
  ctx : Nat
  at_ : Nat
  value : Nat := 0
  deriving DecidableEq, Repr

/-- A logical core. -/
structure Core where
  pending : List Nat := []
  cyc : W64 := 0
  span : W64 := 0
  stages : List StageEntry := []
  setpt : Nat := 2
  winClass : Nat := 0
  winCount : Nat := 0
  steps : Nat := 0
  stalled : Nat := 0
  boosted : Bool := false
  issuedTick : List Nat := []
  ntIvs : W64 := 0
  /-- L1 lines (03 R89): partition byte address of the line by TT 0 location, with its 128 bytes as fetched -/
  l1 : SMap (BitVec 1024) := []
  waves : List Wave := []
  engine : Engine := {}
  lost : Bool := false
  /-- which position of its row the logical core occupies (16 R313); 9 means not moved -/
  pos : Nat := 9
  deriving DecidableEq, Repr

/-- A tile. -/
structure Tile where
  owner : Nat := 0
  gated : Bool := true
  degraded : Bool := false
  permits : Nat := 64
  boostIvs : W64 := 0
  granted : Bool := false
  lastGrant : Nat := 0
  idle : Nat := 0
  requested : Bool := false
  /-- per row: the spare is in use, the row is exhausted, failed position, next wave step -/
  spare0 : Nat := 0
  spare1 : Nat := 0
  fail0 : Option (Nat × Nat) := none
  fail1 : Option (Nat × Nat) := none
  temps : SMap (BitVec 16) := []
  /-- activity counts of the interval: key (VF + 1, or 0 for the partition alone) × 32 + kind -/
  counts : SMap Nat := []
  qz : List Nat := []
  /-- routing table: destination (648 tiles, 48 sites, 8 ports) to output port (05 R126; assumption 6) -/
  routes : SMap Nat := []
  flitRetry : SMap Nat := []
  deriving DecidableEq, Repr

/-- A field (19 Table 19-4, 23 Table 23-3). -/
structure Field where
  headroom : Nat := 0
  thermLim : BitVec 16 := 0x05A0
  slopeLim : W32 := 0x00010010
  zen : W64 := 0
  current : Nat := 0
  ilim : Nat := 1000
  trips : W32 := 0
  throttled : Bool := false
  cool : Nat := 0
  noGrant : Bool := false
  degraded : Bool := false
  /-- walk queues by partition tag: (walk number) oldest first; walkers in use -/
  walkQ : SMap (List Nat) := []
  walkers : List (Nat × Nat) := []
  rr : Nat := 0
  grants : Nat := 0
  /-- photometer coefficients that the dome controller has written, by event kind (19 R356) -/
  coefs : SMap Nat := []
  deriving DecidableEq, Repr

/-- A walk in progress (05 R116): who asked, for what, and in which field. -/
structure Walk where
  tag : Nat
  va : W64
  field : Nat
  deriving DecidableEq, Repr

/-- A device granule at a memory site (05 R130, 21 R391). -/
structure Granule where
  owner : Nat := 0
  shr : Bool := false
  region : Nat := 0
  zp : Bool := true
  /-- bit i: line i is not yet scrubbed -/
  unscrubbed : BitVec 16384 := BitVec.allOnes 16384
  demanded : Nat := 0
  deriving DecidableEq, Repr

/-- A granule table entry (05 Table 05-4); an absent entry has V = 0. -/
structure GranEntry where
  site : Nat := 0
  dgran : Nat := 0
  shr : Bool := false
  deriving DecidableEq, Repr

/-- A copy key slot (21 R378). -/
structure KeySlot where
  key : BitVec 256
  floor : W64
  vf : Nat
  q : Nat
  block : Nat
  lg : Nat
  deriving DecidableEq, Repr

/-- What a TLB or a walker cache of the partition holds (05 R123, R129): the page number (64 KiB) it was walked for; at level 0 a leaf, whether it
is a large one, and the granule entry through which it reached its device frame; at levels 1 to 3 the node entry read there. `unit` is the holder: a
core's TLB, 2^16 + a tile's, or 2^17 + the walkers of a field. -/
structure TlbEntry where
  vpn : Nat
  large : Bool
  leaf : W64
  gran : GranEntry := {}
  unit : Nat := 0
  lvl : Nat := 0
  deriving DecidableEq, Repr

/-- A waiting retire event (16 Table 16-7). -/
structure Retire where
  ekind : Nat
  ecore : Nat
  enum_ : Nat
  deriving DecidableEq, Repr

/-- A reshape in progress (21 R385, R386): the last step that has begun, the tiles, and the core map by core number. -/
structure Reshape where
  step : Nat := 0
  added : List Nat := []
  removed : List Nat := []
  cmap : List (Nat × Nat) := []
  byMailbox : Bool := true
  deriving DecidableEq, Repr

/-- A partition (05 R110), with its supervisor registers (Tables 05-9, 16-4, 19-7, 19-8, 21-6, 22-6). -/
structure Part where
  tiles : List Nat := []
  grans : SMap GranEntry := []
  absent : List Nat := []
  svVec : W64 := 0
  ptRoot : W64 := 0
  ftpBase : W64 := 0
  ftpCount : W32 := 0
  dropsSeen : W64 := 0
  svs0 : W64 := 0
  svs1 : W64 := 0
  svs2 : W64 := 0
  svs3 : W64 := 0
  frBase : W64 := 0
  frSize : Nat := 0
  frHead : W32 := 0
  frTail : W32 := 0
  frLost : W64 := 0
  rseq : W64 := 0
  retire : Option Retire := none
  retireQ : List Retire := []
  retireN : Nat := 0
  /-- the answer written to `RETIRE_ANS` and not yet acted on -/
  retireAns : Nat := 0
  token : Option Nat := none
  tokenQ : List Nat := []
  events : SMap W64 := []
  phAcc : W64 := 0
  phRem : Nat := 0
  phShadowS : W32 := 0
  phShadowH : W32 := 0
  phShadowM : W32 := 0
  zen : W64 := 0
  ephBase : W64 := 0
  ephSize : W32 := 0
  gen : W64 := 0
  pgen : W64 := 0
  /-- the current plate, and the ephemeris header as last published (21 R374) -/
  plate : List Byte := []
  ephHead : List Byte := []
  /-- a publication that has begun and not ended: `GEN` is odd; the `RESHAPING` bit it will write (21 R384) -/
  pub : Option Bool := none
  reshaping : Bool := false
  reshape : Option Reshape := none
  memKey : BitVec 256 := 0
  region : Nat := 0
  keys : SMap KeySlot := []
  xdMstat : W32 := 0
  xdPinned : W32 := 0
  xdRunning : Option (W64) := none
  tlb : List TlbEntry := []
  deriving DecidableEq, Repr

/-- A queue of a VF and its transit thread (18 R329–R336). -/
structure Queue where
  base : W64 := 0
  cbase : W64 := 0
  en : Bool := false
  run : Bool := true
  hoe : Bool := true
  qsize : Nat := 0
  prio : Nat := 0
  irq : Bool := false
  prod : W32 := 0
  cons : W32 := 0
  halted : Bool := false
  blocked : Bool := false
  gated : Bool := false
  nothread : Bool := false
  last : Nat := 0
  thread : Option Nat := none
  launch : Nat := 0
  /-- `EN` has been cleared and takes effect when no launch runs (R329) -/
  closing : Bool := false
  /-- the packet under way, and ticks left of a WAIT -/
  packet : Option (BitVec 512) := none
  ticks : Nat := 0
  /-- the completion record still to be written: code, type, data (R331) -/
  record : Option (Nat × Nat × W64) := none
  /-- its record has been sent to another device: 1 no answer yet, 2 written, 3 not written -/
  sent : Nat := 0
  /-- the value a WAIT read last -/
  seen : W64 := 0
  deriving DecidableEq, Repr

/-- A virtual function (18 Table 18-6, 19 Table 19-5, 21 R368–R373). -/
structure VF where
  tag : Nat := 0
  port : Nat := 0
  tdi : Nat := 0
  tBudget : W32 := 0
  eBudget : W32 := 0
  tLeft : Int := 0
  eLeft : Int := 0
  slice : Nat := 10
  preempts : W32 := 0
  pwrCap : W32 := 0
  boostPref : W32 := 1
  ntAllow : W32 := 0
  slopeReq : W32 := 128
  pwrRng : W32 := 0xFFFF0000
  boostRng : W32 := 0x00020000
  ntRng : W32 := 0x000F0000
  slopeRng : W32 := 0x00800001
  clamps : W32 := 0
  overCap : Bool := false
  tickEnergy : Nat := 0
  acc : W64 := 0
  rem : Nat := 0
  shadowH : W32 := 0
  shadowM : W32 := 0
  queues : SMap Queue := []
  ideKey : Option (BitVec 256) := none
  /-- SPDM responder: 0 start, 1 version, 2 capabilities, 3 algorithms agreed, 4 key exchange, 5 session -/
  spdm : Nat := 0
  irqs : Nat := 0
  stopped : Bool := false
  deriving DecidableEq, Repr

/-- What a packet in flight does at its destination. -/
inductive PacketOp where
  | store
  /-- reduction: operation code of Table 01-5 (red FN) applied to each (place, operand) in lane order -/
  | reduce (fn : Nat) (parts : List (Loc × W64))
  /-- a store whose bytes are then counted into a barrier phase (07 R178): object offset, phase -/
  | counted (obj : Nat) (phase : Nat)
  deriving DecidableEq, Repr

/-- A write packet in flight (05 R130–R132). -/
structure Packet where
  id : Nat
  src : Agent
  kind : Nat
  seq : Nat
  va : W64 := 0
  pc : W64 := 0
  bytes : Nat := 0
  op : PacketOp := .store
  writes : List (Loc × Byte) := []
  /-- the agent's packets numbered below this are performed first (09 R197) -/
  after : Nat := 0
  deriving DecidableEq, Repr

/-- A dropped packet's record, not yet in the log (05 Table 05-5). -/
structure Drop where
  rec_ : BitVec 256
  deriving DecidableEq, Repr

/-- A negative acknowledgement on its way to the sender (05 R131). -/
structure Nack where
  src : Agent
  seq : Nat
  va : W64
  pc : W64
  bytes : Nat
  job : W64 := 0
  extent : Nat := 0
  b : Nat := 0
  lg : Nat := 0
  /-- the sequencer context that sent it -/
  seqc : Option Nat := none
  deriving DecidableEq, Repr

/-- A submitted job (07 R157; 10 R220). The operand words are those read at issue. -/
structure Job where
  id : Nat
  ctx : Nat
  launch : Nat
  block : Nat
  core : Nat
  agent : Agent
  smode : Bool
  /-- 0 cpt, 1 cpl, 2 cpc, 3 cpm, 4 cpm.con, 5–7 cpr.add/min/max, 8 spawn, 9 coll, 10 qz -/
  kind : Nat
  sd : Nat
  opA : W64 := 0
  opB : W64 := 0
  opB1 : W64 := 0
  opB2 : W64 := 0
  card : BitVec 512 := 0
  key : BitVec 256 := 0
  /-- a cause already known at issue (07 R174, R182), 0 for none -/
  pre : Nat := 0
  started : Bool := false
  nchunks : Nat := 0
  next : Nat := 0
  flight : List Nat := []
  applied : List Nat := []
  /-- (chunk, cause, extent) of failed chunks -/
  failed : List (Nat × Nat × Nat) := []
  bytes : Nat := 0
  limit : Nat := 0
  /-- the issuer's packets numbered below this are performed before the job touches memory (03 R95) -/
  after : Nat := 0
  receivers : List Nat := []
  /-- constellation members that no accepted block has yet -/
  missing : List Nat := []
  /-- (receiver, chunk) shares applied -/
  shares : List (Nat × Nat) := []
  nan : Nat := 0
  ovf : Nat := 0
  /-- multicast chunks read and not yet applied everywhere, which wait in the engine -/
  data : SMap (List Byte) := []
  /-- the extents of the sub-job under way: the place of each 64 KiB page (07 R160) -/
  pages : SMap Loc := []
  /-- the index, within its sub-job, of the extent of each page -/
  extents : SMap Nat := []
  /-- the number of its next packet (05 R132) -/
  seq : Nat := 1
  /-- the issuer's packets from the first of these numbers up to the second, the zeroed flags of a card, are performed first (07 R183) -/
  need : Nat × Nat := (0, 0)
  /-- the bytes of a chunk or block under way that its engine has still to write (09 R207) -/
  cells : SMap (List (Loc × Byte)) := []
  /-- chunks below this belong to dispatched sub-jobs -/
  sub : Nat := 0
  ended : Bool := false
  suspended : Bool := false
  deriving DecidableEq, Repr

/-- A collective (07 R182): its members' jobs by rank. -/
structure Coll where
  launch : Nat
  con : Nat
  cid : Nat
  size : Nat
  jobs : SMap Nat := []
  started : Bool := false
  next : Nat := 0
  deriving DecidableEq, Repr

/-- A matrix operation (11 R235). -/
structure MxOp where
  id : Nat
  ctx : Nat
  core : Nat
  half : Nat
  /-- 0 mxld, 1 mxfma, 2 mxzero, 3 mxck, 4 mxsave, 5 mxrest -/
  kind : Nat
  ord : Nat := 0
  batch : Nat := 0
  opA : W64 := 0
  opB : W64 := 0
  opB1 : W64 := 0
  split : Bool := false
  started : Bool := false
  /-- next row or slab -/
  next : Nat := 0
  fmtBlock : BitVec 512 := 0
  /-- scales read before the first row, keyed m × 8 + kb for A and 2048 + kb × 8 + t for B; one that could not be read stands at 4096 more -/
  scales : SMap W32 := []
  /-- rows read and not yet written, from `next` on (R259, R260) -/
  rows : List (List Byte) := []
  /-- the cause that ends it, 0 for none, and for `mxck` its bitmap -/
  fail : Nat := 0
  bitmap : Nat := 0
  /-- an `mxsave` has read a parity error, or an `mxrest` a poison mark -/
  mark : Bool := false
  pc : W64 := 0
  stopped : Bool := false
  /-- the issuer's packets numbered below this are performed first (11 R235) -/
  after : Nat := 0
  /-- the extents it was translated to: the place of each 64 KiB page (13 R262), and its index within its sub-job -/
  pages : SMap Loc := []
  extents : SMap Nat := []
  /-- the number of its next packet (05 R132) -/
  seq : Nat := 1
  /-- it has started, or a product's format block has been read: it starts with its last scale (11 R241) -/
  begun : Bool := false
  /-- its format block is valid and its ranges are translated -/
  ranged : Bool := false
  /-- the bytes moved so far of the next row or slab -/
  got : List Byte := []
  /-- the tile's rows that the promotion unit has read, of the oldest rows in flight (13 R260) -/
  promo : List Vec := []
  deriving DecidableEq, Repr

/-- A lane's commit under way (16 R295). -/
structure TxCommit where
  id : Nat
  ctx : Nat
  lane : Nat
  log : TxLog
  holder : Bool := false
  /-- slices still to prepare, prepared, and the verdict: 0 open, 1 conflict, 2 stale -/
  todo : List Nat := []
  ready : List Nat := []
  verdict : Nat := 0
  failLine : Nat := 0
  /-- 0 preparing, 1 committing, 2 releasing, 3 done -/
  phase : Nat := 0
  ok : Bool := false
  deriving DecidableEq, Repr

/-- A line lock (16 R295): its holder, and whether it is only a token holder's read lock. -/
structure Lock where
  ctx : Nat
  lane : Nat
  home : Nat := 0
  readOnly : Bool := false
  deriving DecidableEq, Repr

/-- A flit in a replay buffer: its header fields, its payload in clear, its slot and its invocation count (22 R393, R395). -/
structure Sent where
  seq : Nat
  ftype : Nat
  ptag : Nat := 0
  sdev : Nat := 0
  payload : List Byte
  ks : Bool := false
  ic : Nat := 0
  deriving DecidableEq, Repr

/-- A link port direction pair (22 R392–R397). -/
structure Port where
  ctl : W32 := 0
  up : Bool := false
  keywait : Bool := false
  ks : Bool := false
  nextld : Bool := false
  down : Bool := false
  txseq : W32 := 0
  rxseq : W32 := 0
  ic : W32 := 0
  retry : W64 := 0
  authfail : W64 := 0
  crcfail : W64 := 0
  /-- key slots, salt above key: 0 and 1 transmit, 2 and 3 receive (R396) -/
  keys : SMap (BitVec 288) := []
  replay : List Sent := []
  resent : Nat := 0
  nakked : Bool := false
  /-- receiver: current slot, flits accepted under its key, announced switch point; sender's switch point -/
  rks : Bool := false
  rxic : Nat := 0
  rswitch : Option Nat := none
  tswitch : Option Nat := none
  /-- ordering flits sent since the last STAMP (R404) -/
  sinceStamp : Nat := 0
  deriving DecidableEq, Repr

/-- A request that another device has to answer: its identity there, who waits (a context, 2^40 + device for a relayed request, 2^41 + job,
2^42 + VF × 8 + queue for the front end), the lane, the original identity or the chunk, what it is, and the TT 6 address. -/
structure Asked where
  ident : Nat
  who : Nat
  lane : Nat
  kind : Nat := 0
  addr : Nat := 0
  deriving DecidableEq, Repr

/-- A flit accepted and not yet applied, or a forward not yet sent (R404, R405). -/
structure Held where
  ftype : Nat
  home : Nat := 0
  sdev : Nat := 0
  ptag : Nat := 0
  payload : List Byte
  deriving DecidableEq, Repr

/-- Another device (22 R400–R405). -/
structure Peer where
  lost : Bool := false
  pseqIn : Nat := 0
  pseqOut : Nat := 0
  /-- CHUNK flits sent, which have a count of their own (R394) -/
  cseqOut : Nat := 0
  frontier : Nat := 0
  knows : Nat := 0
  /-- vector of the last STAMP received -/
  vector : SMap Nat := []
  stamped : SMap Nat := []
  held : List Held := []
  /-- forwards that no port has taken yet -/
  waiting : List Held := []
  /-- the application number of the newest forward to it, until its STAMP shows that it has applied it (09 R203; assumption 58) -/
  fwd : Option Nat := none
  /-- responses that wait for the forwards of their writes: identity, application number, data -/
  owed : List (Nat × Nat × List Byte) := []
  asks : List Asked := []
  /-- identities of reducing chunks applied and not yet released: job, chunk, target (R402) -/
  records : List (Nat × Nat × Nat) := []
  deriving DecidableEq, Repr

/-- An export entry (22 Table 22-5). -/
structure Export where
  wr : Bool := false
  otag : Nat := 0
  frame : Nat := 0
  loc : Nat := 0
  moves : Nat := 0
  pin : Bool := false
  imps : List (Nat × Nat) := []
  vpage : Nat := 0
  deriving DecidableEq, Repr

/-- A shared region (21 R377). -/
structure Region where
  members : List Nat := []
  grans : List (Nat × Nat) := []
  key : BitVec 256 := 0
  deriving DecidableEq, Repr

/-- A delivery at a barrier unit (07 R176, R177): the object, the phase and the bytes. -/
structure Delivery where
  obj : Loc
  phase : Nat
  n : Nat
  deriving DecidableEq, Repr

/-- Module registers (23 Tables 23-3, 23-4) and the dome controller's state. -/
structure Module where
  ready : Bool := true
  recovery : Bool := false
  cause : Nat := 1
  vin : Nat := 0
  pinW : Nat := 0
  coolTemp : Nat := 0
  coolFlow : Nat := 0
  coolFault : Bool := false
  thermHot : BitVec 16 := 0x0690
  thermCrit : BitVec 16 := 0x0780
  dropHead : W32 := 0
  dropTail : W32 := 0
  dropLost : W64 := 0
  dropLog : SMap (BitVec 256) := []
  mbGo : Bool := false
  mbStatus : Nat := 0
  mbReason : Nat := 0
  mbSeq : BitVec 16 := 0
  mbIrq : Bool := false
  mbBuf : SMap Byte := []
  mbIrqs : Nat := 0
  /-- the PFs' SPDM responders -/
  spdm : SMap Nat := []
  domeTimer : W64 := 0
  ticks : Nat := 0
  zenDev : W64 := 0
  /-- M0–M7, 64 bytes each (21 R375) -/
  meas : SMap (BitVec 512) := []
  fuses : SMap Nat := []
  svns : SMap Nat := []
  devId : Nat := 0
  ownApp : Nat := 0
  deriving DecidableEq, Repr

/-- An invalidation under way (02 R80): partition, first page, pages (0 for all), and the context and deferred result that wait. -/
structure Inval where
  tag : Nat
  page : Nat
  count : Nat
  ctx : Nat
  id : Nat
  deriving DecidableEq, Repr

/-- What an event is about: numbers and bytes, read by its meaning (assumption 2). -/
structure Ev where
  args : List Nat := []
  bytes : List Byte := []
  deriving DecidableEq, Repr

/-- An uncorrectable error (16 R311, R312, R318). -/
inductive Upset where
  /-- in a word of HBM, a scratchpad, an accumulator tile or a macro, by its place -/
  | word (l : Loc)
  /-- in an element of a vector register, or in a uniform register, of a context -/
  | vreg (ctx r lane : Nat)
  | sreg (ctx r : Nat)
  /-- in `em`, the predicates or the program counter of a context -/
  | control (ctx : Nat)
  /-- in a cached line: its place, whether it is dirty, whether the HBM copy is good, and its bad words -/
  | line (l : Loc) (dirty good : Bool) (words : List Nat)
  deriving DecidableEq, Repr

/-- A move of the schedule: an event, one cycle of a core, one issue of a context, or an error of the hardware (assumption 2). -/
inductive Move where
  | ev (i : Instr) (d : Ev)
  | core (c : Nat)
  | ctx (id : Nat)
  | upset (u : Upset)
  deriving DecidableEq, Repr

/-- The module. -/
structure State where
  cur : Ctx := {}
  ctxs : List Ctx := []
  blocks : SMap Block := []
  launches : SMap Launch := []
  parts : SMap Part := []
  vfs : SMap VF := []
  cores : SMap Core := []
  tiles : SMap Tile := []
  fields : SMap Field := []
  grans : SMap Granule := []
  hbm : Mem := []
  host : Mem := []
  sp : Mem := []
  /-- register rows, keyed core × 4096 + row -/
  vrf : SMap Vec := []
  /-- accumulator rows, keyed core × 1024 + tile × 256 + row -/
  acc : SMap Vec := []
  /-- plane rows of 256 bytes, keyed core × 16384 + plane × 1024 + row -/
  planes : SMap (BitVec 2048) := []
  /-- checksum entries, keyed (core × 16384 + plane × 1024 + row) × 8 + column group, as signed integers -/
  sums : SMap Int := []
  /-- BF16 block exponents, keyed ((core × 16 + plane) × 8 + K-group) × 256 + column; `none` marks a non-finite block -/
  bexp : SMap (Option Int) := []
  /-- poisoned aligned words, keyed address × 8 + TT of the word -/
  poison : List (Nat × Nat) := []
  packets : List Packet := []
  drops : List Drop := []
  nacks : List Nack := []
  /-- deliveries that the barrier units have not yet performed, in the order of their arrival -/
  deliveries : List Delivery := []
  /-- fault records raised and not yet at the ring (16 R310): partition tag and record without RSEQ -/
  raised : List (Nat × BitVec 512) := []
  jobs : List Job := []
  colls : List Coll := []
  mxops : List MxOp := []
  commits : List TxCommit := []
  locks : SMap Lock := []
  walks : SMap Walk := []
  ports : SMap Port := []
  peers : SMap Peer := []
  /-- export entries of this device by index, and by 2^20 × (home + 1) + index the pages of other homes that are here -/
  exports : SMap Export := []
  /-- copies of other devices' memory, 64 bytes each, by TT 6 address / 64; the devices that hold copies of a line, by TT 6 address / 128; the
  newest application number of a line, by HBM address / 128 (09 R201; 22 R404) -/
  copies : SMap (BitVec 512) := []
  holders : List (Nat × Nat) := []
  lineApp : SMap Nat := []
  regions : SMap Region := []
  module : Module := {}
  inval : List Inval := []
  /-- what the last request from outside was answered: a code and bytes -/
  reply : Nat × List Byte := (0, [])
  oracle : Nat := 0
  nextId : Nat := 1
  turn : Nat := 0
  agenda : List Move := []
  ev : Ev := {}
  deriving DecidableEq, Repr

/-- Faults. The spec gives every access an exception, a drop or an effect, so no path of the machine raises one. -/
inductive Fault where
  /-- A memory site or a device frame outside the device (05 Table 05-4 holds sites 0–47): raised by no path; safe. -/
  | noSuchFrame
  deriving DecidableEq, Repr

/-- Refusals. -/
inductive Refusal where
  /-- An instruction given to `exec` while no context holds the issue slot: raised by every instruction row, never by a
  step of the machine; safe. -/
  | noContext
  /-- An arm of the dispatch that has no meaning yet; safe. -/
  | notModelled (mnemonic : String)
  deriving DecidableEq, Repr

/-- The module right after power-on, when `READY` first reads 1 (23 R411, R412). -/
def State.reset : State := {}

end Sys2Proof.Machine
end

