-- ==== Sys2Proof/Machine/Bits.lean ====
section
/-!
DEFINITION. Sparse maps, vectors of lanes, masks and little-endian byte strings.
-/

namespace Sys2Proof.Machine

/-! ## Sparse maps -/

/-- The value listed at a key. -/
def SMap.find {α : Type} : SMap α → Nat → Option α
  | [], _ => none
  | (k', v) :: t, k => if k = k' then some v else SMap.find t k

/-- The value at a key, `d` where none is listed. -/
def SMap.get {α : Type} (d : α) (m : SMap α) (k : Nat) : α :=
  match SMap.find m k with
  | some v => v
  | none => d

/-- List a value at a key, in ascending order. -/
def SMap.put {α : Type} : SMap α → Nat → α → SMap α
  | [], k, v => [(k, v)]
  | (k', v') :: t, k, v =>
    if k < k' then (k, v) :: (k', v') :: t
    else if k = k' then (k, v) :: t
    else (k', v') :: SMap.put t k v

/-- Remove a key. -/
def SMap.del {α : Type} : SMap α → Nat → SMap α
  | [], _ => []
  | (k', v') :: t, k => if k = k' then SMap.del t k else (k', v') :: SMap.del t k

/-- Write a value, removing the entry when it is the default. -/
def SMap.set {α : Type} [DecidableEq α] (d : α) (m : SMap α) (k : Nat) (v : α) : SMap α :=
  if v = d then SMap.del m k else SMap.put m k v

/-- The keys, ascending. -/
def SMap.keys {α : Type} (m : SMap α) : List Nat := m.map Prod.fst

/-- Ascending keys, no entry equal to the default. -/
def SMap.wf {α : Type} [DecidableEq α] (d : α) : SMap α → Bool
  | [] => true
  | [(_, v)] => v != d
  | (k, v) :: (k', v') :: t => v != d && k < k' && SMap.wf d ((k', v') :: t)

/-- The canonical form of byte memory: addresses strictly rising, no byte equal to what an unlisted address reads as. -/
def Memory.wf (m : Mem) : Bool := SMap.wf (0 : Byte) m

/-- R4: one byte. -/
def Mem.byte (m : Mem) (a : Nat) : Byte := SMap.get (0 : Byte) m a
/-- Write one byte. -/
def Mem.setByte (m : Mem) (a : Nat) (b : Byte) : Mem := SMap.set (0 : Byte) m a b

/-! ## Lanes -/

/-- The sum of `f i` placed at bit `w × i`, for i below `n`. -/
def packNat (w : Nat) (f : Nat → Nat) : Nat → Nat
  | 0 => 0
  | n + 1 => packNat w f n + (f n % 2 ^ w) * 2 ^ (w * n)

/-- R6: LANE(v, i). -/
def laneOf (v : Vec) (i : Nat) : W32 := v.extractLsb' (32 * i) 32
/-- The vector whose lane i is `f i`. -/
def ofLanes (f : Nat → W32) : Vec := BitVec.ofNat 8192 (packNat 32 (fun i => (f i).toNat) 256)
/-- The mask whose bit i is `f i`. -/
def ofBits (f : Nat → Bool) : Mask := BitVec.ofNat 256 (packNat 1 (fun i => (f i).toNat) 256)
/-- All lanes. -/
def allLanes : Mask := BitVec.allOnes 256
/-- The lanes 0 to 255. -/
def lanes : List Nat := List.range 256
/-- Lanes of a mask, ascending. -/
def maskLanes (m : Mask) : List Nat := lanes.filter (fun i => m.getLsbD i)
/-- The lowest lane of a mask. -/
def lowestLane (m : Mask) : Option Nat := lanes.find? (fun i => m.getLsbD i)
/-- The mask of one lane. -/
def oneLane (i : Nat) : Mask := BitVec.twoPow 256 i
/-- How many lanes a mask holds. -/
def maskCount (m : Mask) : Nat := (maskLanes m).length
/-- In the lanes of `m` the value of `new`, elsewhere that of `old`. -/
def mergeVec (m : Mask) (new old : Vec) : Vec := ofLanes fun i => if m.getLsbD i then laneOf new i else laneOf old i
/-- As `mergeVec`, for predicates. -/
def mergeMask (m new old : Mask) : Mask := (m &&& new) ||| (~~~m &&& old)

/-! ## Bytes -/

/-- The little-endian bytes of a number. -/
def natBytes : Nat → Nat → List Byte
  | 0, _ => []
  | n + 1, w => BitVec.ofNat 8 w :: natBytes n (w / 256)
/-- The number of little-endian bytes (R4). -/
def bytesNat : List Byte → Nat
  | [] => 0
  | b :: t => b.toNat + 256 * bytesNat t
/-- The number of big-endian bytes. -/
def bytesNatBE (l : List Byte) : Nat := bytesNat l.reverse
/-- The big-endian bytes of a number. -/
def natBytesBE (n w : Nat) : List Byte := (natBytes n w).reverse
/-- Bits [hi:lo] of a number. -/
def field (x hi lo : Nat) : Nat := (x / 2 ^ lo) % 2 ^ (hi + 1 - lo)
/-- A number's low `w` bits as a two's complement integer. -/
def signedNat (w x : Nat) : Int := if x % 2 ^ w < 2 ^ (w - 1) then (x % 2 ^ w : Nat) else (x % 2 ^ w : Nat) - (2 ^ w : Nat)
/-- An address aligned to n bytes. -/
def alignedTo (a n : Nat) : Bool := a % n == 0
/-- The first element that fails, left to right. -/
def firstSome {α β : Type} (f : α → Option β) : List α → Option β
  | [] => none
  | a :: t => match f a with | some b => some b | none => firstSome f t
/-- Fold over a count of passes. -/
def iterate {α : Type} (f : Nat → α → α) : Nat → Nat → α → α
  | 0, _, a => a
  | n + 1, i, a => iterate f n (i + 1) (f i a)
/-- Replace the elements that satisfy a test. -/
def updWhere {α : Type} (p : α → Bool) (f : α → α) (l : List α) : List α := l.map fun a => if p a then f a else a
/-- Keep the first occurrence of each element. -/
def dedup (l : List Nat) : List Nat := l.foldl (fun acc x => if acc.contains x then acc else acc ++ [x]) []
/-- Ascending order without repeats. -/
def sortNat (l : List Nat) : List Nat := SMap.keys (l.foldl (fun m x => SMap.put m x ()) ([] : SMap Unit))

/-- 22 R403, R405: a number is not behind another, modulo 2^32. -/
def notBehind (a b : Nat) : Bool := decide ((a + 2 ^ 32 - b % 2 ^ 32) % 2 ^ 32 < 2 ^ 31)

/-- R8: an address as the program counter holds it: bit 0 is 0. -/
def evenPc (a : W64) : W64 := a &&& 0xFFFFFFFFFFFFFFFE

end Sys2Proof.Machine
end

