-- ==== Sys2Proof/Machine/Flags.lean ====
section
/-!
DEFINITION. The number formats of chapter 10 and every rounding and flag computation (02 R43, R44, R50–R55; 10 R212–R215).
Every value is an exact dyadic or rational number until it is rounded once.
-/

namespace Sys2Proof.Machine

/-- The sticky flags of Table 10-3: NV, DZ, OF, UF, NX from bit 0. -/
abbrev FFlags := BitVec 5
def fNV : FFlags := 1
def fDZ : FFlags := 2
def fOF : FFlags := 4
def fUF : FFlags := 8
def fNX : FFlags := 16

/-- A result with the flags it raises. -/
structure FRes where
  v : W32
  fl : FFlags := 0
  deriving DecidableEq, Repr

/-- Rounding modes of Table 01-6: nearest even, toward zero, up, down. -/
inductive RMode where
  | rne | rz | ru | rd
  deriving DecidableEq, Repr

/-- An exact dyadic m × 2^e. -/
structure Dy where
  m : Int
  e : Int
  deriving DecidableEq, Repr

def Dy.add (a b : Dy) : Dy :=
  if a.e ≤ b.e then ⟨a.m + b.m * 2 ^ (b.e - a.e).toNat, a.e⟩ else ⟨a.m * 2 ^ (a.e - b.e).toNat + b.m, b.e⟩
def Dy.mul (a b : Dy) : Dy := ⟨a.m * b.m, a.e + b.e⟩
def Dy.neg (a : Dy) : Dy := ⟨-a.m, a.e⟩
/-- a ≤ b. -/
def Dy.le (a b : Dy) : Bool := (Dy.add b (Dy.neg a)).m ≥ 0

/-- What the bits of an FP32 or BF16 element stand for (Table 10-1). -/
inductive FVal where
  | nan (signalling : Bool)
  | inf (neg : Bool)
  | fin (neg : Bool) (x : Dy)
  deriving DecidableEq, Repr

/-- Table 10-1: an FP32 element. -/
def f32Val (w : W32) : FVal :=
  let neg := w.getLsbD 31
  let e := (w.extractLsb' 23 8).toNat
  let f := (w.extractLsb' 0 23).toNat
  if e = 255 then (if f = 0 then .inf neg else .nan (!w.getLsbD 22))
  else
    let m : Int := if e = 0 then (f : Int) else (f + 2 ^ 23 : Nat)
    .fin neg ⟨if neg then -m else m, (if e = 0 then 1 else (e : Int)) - 150⟩

/-- R212: a BF16 element is the FP32 element with sixteen zero bits below. -/
def bfVal (w : W16) : FVal := f32Val (w ++ (0 : W16))

/-- An integer to the nearest integer of n / d by a mode (`neg` is the sign of the value being rounded). -/
def roundQuot (mode : RMode) (neg : Bool) (n d : Nat) : Nat :=
  let q := n / d
  let r := n % d
  let up : Bool := match mode with
    | .rne => 2 * r > d || (2 * r == d && q % 2 == 1)
    | .rz => false
    | .ru => !neg && r != 0
    | .rd => neg && r != 0
  if up then q + 1 else q

/-- floor(log2 (n / d)) for n, d > 0. -/
def floorLog2 (n d : Nat) : Int :=
  let e : Int := (Nat.log2 n : Int) - Nat.log2 d
  let ge : Bool := if e ≥ 0 then d * 2 ^ e.toNat ≤ n else d ≤ n * 2 ^ (-e).toNat
  if ge then e else e - 1

/-- R43: n / d (> 0) rounded to p bits with exponents from −126 to 127: the magnitude's bits and the flags. -/
def roundMag (p : Nat) (mode : RMode) (neg : Bool) (n d : Nat) : Nat × FFlags :=
  let e := floorLog2 n d
  let scaled (q : Int) : Nat × Nat := if q < 0 then (n * 2 ^ (-q).toNat, d) else (n, d * 2 ^ q.toNat)
  let q : Int := (if e < -126 then -126 else e) - (p - 1 : Nat)
  let nd := scaled q
  let r := roundQuot mode neg nd.1 nd.2
  let inexact : Bool := nd.1 % nd.2 != 0
  let bits : Nat := ((q + (p - 1 : Nat) + 127).toNat - 1) * 2 ^ (p - 1) + r
  let top := 255 * 2 ^ (p - 1)
  if bits ≥ top then
    let toInf : Bool := match mode with | .rne => true | .rz => false | .ru => !neg | .rd => neg
    (if toInf then top else top - 1, fOF ||| fNX)
  else
    let nd' := scaled (e - (p - 1 : Nat))
    let tiny : Bool := e < -126 && !(e == -127 && roundQuot mode neg nd'.1 nd'.2 == 2 ^ p)
    (bits, (if inexact then fNX else 0) ||| (if inexact && tiny then fUF else 0))

/-- A rational with its sign, rounded to a format of p bits in w = p + 8 bits, laid at the top of 32. -/
def roundRat (p : Nat) (mode : RMode) (neg : Bool) (n d : Nat) : FRes :=
  let sh := 24 - p
  let sgn : Nat := if neg then 2 ^ 31 else 0
  if n = 0 then ⟨BitVec.ofNat 32 sgn, 0⟩
  else
    let r := roundMag p mode neg n d
    ⟨BitVec.ofNat 32 (sgn + r.1 * 2 ^ sh), r.2⟩

/-- An exact dyadic rounded; `zneg` is the sign of an exact zero. -/
def roundDy (p : Nat) (mode : RMode) (zneg : Bool) (x : Dy) : FRes :=
  if x.m = 0 then ⟨if zneg then 0x80000000 else 0, 0⟩
  else
    let a := x.m.natAbs
    if x.e ≥ 0 then roundRat p mode (x.m < 0) (a * 2 ^ x.e.toNat) 1
    else roundRat p mode (x.m < 0) a (2 ^ (-x.e).toNat)

/-- R44: the canonical NaN, as an FP32 element (its upper half is the BF16 one). -/
def canonNaN : W32 := 0x7FC00000
def infBits (neg : Bool) : W32 := if neg then 0xFF800000 else 0x7F800000
def zeroBits (neg : Bool) : W32 := if neg then 0x80000000 else 0

def FVal.isNaN : FVal → Bool | .nan _ => true | _ => false
def FVal.isSig : FVal → Bool | .nan s => s | _ => false
def FVal.isInf : FVal → Bool | .inf _ => true | _ => false
def FVal.isZero : FVal → Bool | .fin _ x => x.m == 0 | _ => false
def FVal.sign : FVal → Bool | .nan _ => false | .inf s => s | .fin s _ => s
def FVal.dy : FVal → Dy | .fin _ x => x | _ => ⟨0, 0⟩
/-- R44: an arithmetic instruction that reads a signalling NaN raises invalid. -/
def sigFlag (l : List FVal) : FFlags := if l.any FVal.isSig then fNV else 0

/-- R50: a sum, rounded once to p bits. -/
def addVals (p : Nat) (a b : FVal) : FRes :=
  if a.isNaN || b.isNaN then ⟨canonNaN, sigFlag [a, b]⟩
  else match a, b with
    | .inf x, .inf y => if x = y then ⟨infBits x, 0⟩ else ⟨canonNaN, fNV⟩
    | .inf x, _ => ⟨infBits x, 0⟩
    | _, .inf y => ⟨infBits y, 0⟩
    | a, b => roundDy p .rne (a.isZero && b.isZero && a.sign && b.sign) (Dy.add a.dy b.dy)

def FVal.neg : FVal → FVal
  | .nan s => .nan s
  | .inf s => .inf (!s)
  | .fin s x => .fin (!s) (Dy.neg x)

/-- R50: a product, rounded once. -/
def mulVals (p : Nat) (a b : FVal) : FRes :=
  if a.isNaN || b.isNaN then ⟨canonNaN, sigFlag [a, b]⟩
  else
    let s := a.sign != b.sign
    if a.isInf || b.isInf then (if a.isZero || b.isZero then ⟨canonNaN, fNV⟩ else ⟨infBits s, 0⟩)
    else roundDy p .rne s (Dy.mul a.dy b.dy)

/-- R50: a × b + d with one rounding; 0 × ∞ is invalid even when d is NaN. -/
def fmaVals (p : Nat) (a b d : FVal) : FRes :=
  let zinf := (a.isInf && b.isZero) || (a.isZero && b.isInf)
  if zinf then ⟨canonNaN, fNV⟩
  else if a.isNaN || b.isNaN || d.isNaN then ⟨canonNaN, sigFlag [a, b, d]⟩
  else
    let s := a.sign != b.sign
    if a.isInf || b.isInf then
      (match d with | .inf t => if t = s then ⟨infBits s, 0⟩ else ⟨canonNaN, fNV⟩ | _ => ⟨infBits s, 0⟩)
    else match d with
      | .inf t => ⟨infBits t, 0⟩
      | d =>
        let pz := a.isZero || b.isZero
        roundDy p .rne (pz && d.isZero && s && d.sign) (Dy.add (Dy.mul a.dy b.dy) d.dy)

/-- R50: a quotient. -/
def divVals (a b : FVal) : FRes :=
  if a.isNaN || b.isNaN then ⟨canonNaN, sigFlag [a, b]⟩
  else
    let s := a.sign != b.sign
    if a.isInf then (if b.isInf then ⟨canonNaN, fNV⟩ else ⟨infBits s, 0⟩)
    else if b.isInf then ⟨zeroBits s, 0⟩
    else if b.isZero then (if a.isZero then ⟨canonNaN, fNV⟩ else ⟨infBits s, fDZ⟩)
    else if a.isZero then ⟨zeroBits s, 0⟩
    else
      let x := a.dy; let y := b.dy
      let e := x.e - y.e
      if e ≥ 0 then roundRat 24 .rne s (x.m.natAbs * 2 ^ e.toNat) y.m.natAbs
      else roundRat 24 .rne s x.m.natAbs (y.m.natAbs * 2 ^ (-e).toNat)

def fadd32 (a b : W32) : FRes := addVals 24 (f32Val a) (f32Val b)
def fsub32 (a b : W32) : FRes := addVals 24 (f32Val a) (f32Val b).neg
def fmul32 (a b : W32) : FRes := mulVals 24 (f32Val a) (f32Val b)
def ffma32 (a b d : W32) : FRes := fmaVals 24 (f32Val a) (f32Val b) (f32Val d)
def fdiv32 (a b : W32) : FRes := divVals (f32Val a) (f32Val b)

/-- R51: whether a value orders below another, with −0 below +0. -/
def belowVal (a b : FVal) : Bool :=
  match a, b with
  | .inf s, .inf t => s && !t
  | .inf s, _ => s
  | _, .inf t => !t
  | a, b => if a.isZero && b.isZero then a.sign && !b.sign else !Dy.le b.dy a.dy

/-- R51, on elements laid at the top of 32 bits. -/
def minMax (max : Bool) (wa wb : W32) : FRes :=
  let a := f32Val wa; let b := f32Val wb
  let fl := sigFlag [a, b]
  if a.isNaN then (if b.isNaN then ⟨canonNaN, fl⟩ else ⟨wb, fl⟩)
  else if b.isNaN then ⟨wa, fl⟩
  else if max then ⟨if belowVal a b then wb else wa, fl⟩
  else ⟨if belowVal b a then wb else wa, fl⟩

/-! ## Roots, powers and logarithms (R52) -/

/-- The largest r with r² ≤ n and r < 2^k. -/
def isqrt (n : Nat) : Nat → Nat → Nat
  | 0, r => r
  | k + 1, r => if (r + 2 ^ k) * (r + 2 ^ k) ≤ n then isqrt n k (r + 2 ^ k) else isqrt n k r

/-- √(n / d) rounded: 200 fraction bits and a sticky bit decide it. -/
def roundSqrt (n d : Nat) : FRes :=
  let big := n * 2 ^ 400 / d
  let r := isqrt big 290 0
  let exact : Bool := r * r * d == n * 2 ^ 400
  roundRat 24 .rne false (2 * r + (if exact then 0 else 1)) (2 ^ 201)

/-- A positive dyadic as a ratio. -/
def Dy.ratio (x : Dy) : Nat × Nat :=
  if x.e ≥ 0 then (x.m.natAbs * 2 ^ x.e.toNat, 1) else (x.m.natAbs, 2 ^ (-x.e).toNat)

/-- The scale of the series below. -/
def seriesBits : Nat := 160

/-- Σ z^(2k+1) / (2k+1), all in units of 2^−160: z and z² given, `p` the running power. -/
def atanhSeries (z2 : Nat) : Nat → Nat → Nat → Nat
  | 0, _, _ => 0
  | n + 1, k, p => p / (2 * k + 1) + atanhSeries z2 n (k + 1) (p * z2 / 2 ^ seriesBits)

/-- ln (n / d) for 1 ≤ n / d < 2, in units of 2^−160, at most 200 below the exact value. -/
def lnFix (n d : Nat) : Nat :=
  let z := (n - d) * 2 ^ seriesBits / (n + d)
  2 * atanhSeries (z * z / 2 ^ seriesBits) 60 0 z

/-- ln 2. -/
def ln2Fix : Nat := lnFix (2 ^ 200 - 1) (2 ^ 199)

/-- Σ t^k / k!, in units of 2^−160. -/
def expSeries (t : Nat) : Nat → Nat → Nat → Nat
  | 0, _, _ => 0
  | n + 1, k, p => p + expSeries t n (k + 1) (p * t / 2 ^ seriesBits / (k + 1))

/-- Round a value known to lie in [lo, lo + err] / 2^s: the bounds agree unless the value lies within err of a rounding
boundary, which no FP32 operand brings about at this precision. -/
def roundFix (neg : Bool) (lo : Nat) (s : Int) : FRes :=
  if s ≥ 0 then roundRat 24 .rne neg (2 * lo + 1) (2 ^ (s.toNat + 1))
  else roundRat 24 .rne neg ((2 * lo + 1) * 2 ^ (-s).toNat) 2

/-- R52: 2^x for a finite nonzero x. -/
def exp2Val (x : Dy) : FRes :=
  if x.e ≥ 0 || x.m % 2 ^ (-x.e).toNat = 0 then
    let i : Int := if x.e ≥ 0 then x.m * 2 ^ x.e.toNat else x.m / 2 ^ (-x.e).toNat
    if i > 200 then roundRat 24 .rne false (2 ^ 200) 1
    else if i < -200 then roundRat 24 .rne false 1 (2 ^ 200)
    else if i ≥ 0 then roundRat 24 .rne false (2 ^ i.toNat) 1 else roundRat 24 .rne false 1 (2 ^ (-i).toNat)
  else
    let k := (-x.e).toNat
    let i := x.m.fdiv (2 ^ k)
    let f := (x.m.fmod (2 ^ k)).toNat
    if i > 200 then roundRat 24 .rne false (2 ^ 200) 1
    else if i < -200 then roundRat 24 .rne false 1 (2 ^ 200)
    else
      let t := f * ln2Fix / 2 ^ k
      roundFix false (expSeries t 60 0 (2 ^ seriesBits)) (seriesBits - i)

/-- R52: log₂ x for a finite x > 0. -/
def log2Val (x : Dy) : FRes :=
  let nd := x.ratio
  let e := floorLog2 nd.1 nd.2
  let n := if e ≥ 0 then nd.1 else nd.1 * 2 ^ (-e).toNat
  let d := if e ≥ 0 then nd.2 * 2 ^ e.toNat else nd.2
  if n = d then roundDy 24 .rne false ⟨e, 0⟩
  else
    let l : Int := (lnFix n d * 2 ^ seriesBits / ln2Fix : Nat) + e * (2 ^ seriesBits : Nat)
    if l ≥ 0 then roundFix false l.toNat seriesBits else roundFix true ((-l).toNat - 1) seriesBits

def frcp32 (w : W32) : FRes :=
  match f32Val w with
  | .nan s => ⟨canonNaN, if s then fNV else 0⟩
  | .inf s => ⟨zeroBits s, 0⟩
  | .fin s x =>
    if x.m = 0 then ⟨infBits s, fDZ⟩
    else let nd := x.ratio; roundRat 24 .rne s nd.2 nd.1

def frsq32 (w : W32) : FRes :=
  match f32Val w with
  | .nan s => ⟨canonNaN, if s then fNV else 0⟩
  | .inf s => if s then ⟨canonNaN, fNV⟩ else ⟨0, 0⟩
  | .fin s x =>
    if x.m = 0 then ⟨infBits s, fDZ⟩
    else if s then ⟨canonNaN, fNV⟩
    else let nd := x.ratio; roundSqrt nd.2 nd.1

def fsqrt32 (w : W32) : FRes :=
  match f32Val w with
  | .nan s => ⟨canonNaN, if s then fNV else 0⟩
  | .inf s => if s then ⟨canonNaN, fNV⟩ else ⟨infBits false, 0⟩
  | .fin s x =>
    if x.m = 0 then ⟨zeroBits s, 0⟩
    else if s then ⟨canonNaN, fNV⟩
    else let nd := x.ratio; roundSqrt nd.1 nd.2

def fexp232 (w : W32) : FRes :=
  match f32Val w with
  | .nan s => ⟨canonNaN, if s then fNV else 0⟩
  | .inf s => ⟨if s then 0 else infBits false, 0⟩
  | .fin _ x => if x.m = 0 then ⟨0x3F800000, 0⟩ else exp2Val x

def flog232 (w : W32) : FRes :=
  match f32Val w with
  | .nan s => ⟨canonNaN, if s then fNV else 0⟩
  | .inf s => if s then ⟨canonNaN, fNV⟩ else ⟨infBits false, 0⟩
  | .fin s x =>
    if x.m = 0 then ⟨infBits true, fDZ⟩
    else if s then ⟨canonNaN, fNV⟩
    else log2Val x

/-! ## BF16 -/

/-- R53: the lower or upper half of a pair as an FP32 element of the same value. -/
def bfLo (w : W32) : W32 := w.extractLsb' 0 16 ++ (0 : W16)
def bfHi (w : W32) : W32 := w.extractLsb' 16 16 ++ (0 : W16)
/-- Two halves, each given as the upper half of an element, as a pair. -/
def bfPair (lo hi : FRes) : FRes := ⟨hi.v.extractLsb' 16 16 ++ lo.v.extractLsb' 16 16, lo.fl ||| hi.fl⟩
/-- R53: round_bf16 of an FP32 element. -/
def roundBf (mode : RMode) (w : W32) : FRes :=
  match f32Val w with
  | .nan s => ⟨canonNaN, if s then fNV else 0⟩
  | .inf s => ⟨infBits s, 0⟩
  | .fin s x => roundDy 8 mode s x
def hadd2 (a b : W32) : FRes :=
  bfPair (addVals 8 (f32Val (bfLo a)) (f32Val (bfLo b))) (addVals 8 (f32Val (bfHi a)) (f32Val (bfHi b)))
def hmul2 (a b : W32) : FRes :=
  bfPair (mulVals 8 (f32Val (bfLo a)) (f32Val (bfLo b))) (mulVals 8 (f32Val (bfHi a)) (f32Val (bfHi b)))
def hfma2 (a b d : W32) : FRes :=
  bfPair (fmaVals 8 (f32Val (bfLo a)) (f32Val (bfLo b)) (f32Val (bfLo d)))
    (fmaVals 8 (f32Val (bfHi a)) (f32Val (bfHi b)) (f32Val (bfHi d)))
def hminMax2 (max : Bool) (a b : W32) : FRes := bfPair (minMax max (bfLo a) (bfLo b)) (minMax max (bfHi a) (bfHi b))

/-- R53: d + a.lo × b.lo + a.hi × b.hi, exact, rounded once to FP32. -/
def hdot2 (a b d : W32) : FRes :=
  let al := f32Val (bfLo a); let bl := f32Val (bfLo b); let ah := f32Val (bfHi a); let bh := f32Val (bfHi b)
  let dv := f32Val d
  let zi (x y : FVal) : Bool := (x.isInf && y.isZero) || (x.isZero && y.isInf)
  if zi al bl || zi ah bh then ⟨canonNaN, fNV⟩
  else if [al, bl, ah, bh, dv].any FVal.isNaN then ⟨canonNaN, sigFlag [al, bl, ah, bh, dv]⟩
  else
    let sl := al.sign != bl.sign
    let sh := ah.sign != bh.sign
    let infs : List Bool := (if al.isInf || bl.isInf then [sl] else []) ++ (if ah.isInf || bh.isInf then [sh] else []) ++
      (if dv.isInf then [dv.sign] else [])
    if infs.contains true && infs.contains false then ⟨canonNaN, fNV⟩
    else if infs.contains true then ⟨infBits true, 0⟩
    else if infs.contains false then ⟨infBits false, 0⟩
    else
      let pl := Dy.mul al.dy bl.dy; let ph := Dy.mul ah.dy bh.dy
      let zneg := pl.m == 0 && ph.m == 0 && dv.isZero && sl && sh && dv.sign
      roundDy 24 .rne zneg (Dy.add (Dy.add pl ph) dv.dy)

/-! ## Conversions (R54, R55) -/

/-- A dyadic to an integer by a mode, with the inexact mark. -/
def roundInt (mode : RMode) (x : Dy) : Int × Bool :=
  let nd := x.ratio
  let r := roundQuot mode (x.m < 0) nd.1 nd.2
  (if x.m < 0 then -(r : Int) else r, nd.1 % nd.2 != 0)

/-- R54: to an integer type with bounds lo and hi; `bad` is what NaN and out of range give without `.sat`. -/
def cvtToInt (mode : RMode) (sat : Bool) (lo hi : Int) (bad : W32) (w : W32) : FRes :=
  match f32Val w with
  | .nan _ => ⟨if sat then 0 else bad, fNV⟩
  | .inf s => ⟨if sat then BitVec.ofInt 32 (if s then lo else hi) else bad, fNV⟩
  | .fin _ x =>
    let y := roundInt (if sat then .rne else mode) x
    if y.1 < lo || hi < y.1 then ⟨if sat then BitVec.ofInt 32 (if y.1 < lo then lo else hi) else bad, fNV⟩
    else ⟨BitVec.ofInt 32 y.1, if y.2 then fNX else 0⟩

def rmodeOf (m : BitVec 3) : RMode :=
  match m with
  | 1#3 => .rz
  | 2#3 => .ru
  | 3#3 => .rd
  | _ => .rne

/-- R54: `cvt` by mode (FN) and type pair (EXT). -/
def cvtElem (m : BitVec 3) (e : BitVec 6) (w : W32) : FRes :=
  let sat := m == 4#3
  let mode := rmodeOf m
  match e with
  | 0#6 => roundDy 24 mode false ⟨w.toInt, 0⟩
  | 1#6 => roundDy 24 mode false ⟨w.toNat, 0⟩
  | 2#6 => cvtToInt mode sat (-(2 ^ 31)) (2 ^ 31 - 1) 0x80000000 w
  | 3#6 => cvtToInt mode sat 0 (2 ^ 32 - 1) 0xFFFFFFFF w
  | 4#6 =>
    let r := roundBf mode w
    let h := r.v.extractLsb' 16 16
    let ovf := sat && !(f32Val w).isInf && !(f32Val w).isNaN && h.extractLsb' 0 15 == 0x7F80#15
    ⟨(0 : W16) ++ (if ovf then (h.extractLsb' 15 1 ++ 0x7F7F#15) else h), r.fl⟩
  | _ =>
    let x := bfLo w
    match f32Val x with
    | .nan s => ⟨canonNaN, if s then fNV else 0⟩
    | _ => ⟨x, 0⟩

/-! ## E4M3 (10 R213–R215) -/

/-- R214: the integer image, in units of 2^−9; `none` for NaN. -/
def e4Image (c : Byte) : Option Int :=
  let e := (c.extractLsb' 3 4).toNat
  let f := (c.extractLsb' 0 3).toNat
  if e = 15 && f = 7 then none
  else
    let m : Int := if e = 0 then (f : Int) else ((8 + f) * 2 ^ (e - 1) : Nat)
    some (if c.getLsbD 7 then -m else m)

/-- R215: the magnitude n / d rounded on the unbounded grid, in units of 2^−9. -/
def e4Grid (n d : Nat) : Nat :=
  if n = 0 then 0
  else
    let e := floorLog2 n d
    let q : Int := if e < -6 then 0 else e + 6
    roundQuot .rne false (n * 2 ^ 9) (d * 2 ^ q.toNat) * 2 ^ q.toNat

/-- The code of a magnitude on the grid, at most 448. -/
def e4CodeMag (u : Nat) : Nat :=
  if u < 8 then u
  else
    let e := Nat.log2 u
    (e - 2) * 8 + (u / 2 ^ (e - 3) - 8)

/-- R215: code of SAT(RNE_E4M3(±n / d)). -/
def e4Code (neg : Bool) (n d : Nat) : Byte :=
  let u := e4Grid n d
  let u' := if u > 229376 then 229376 else u
  BitVec.ofNat 8 (e4CodeMag u' + (if neg then 128 else 0))

/-- R55: `cvt8` of one FP32 element, with its flags. -/
def cvt8Elem (w : W32) : Byte × FFlags :=
  match f32Val w with
  | .nan _ => (0x7F, fNV)
  | .inf s => (if s then 0xFE else 0x7E, fNX)
  | .fin s x =>
    let nd := x.ratio
    let u := e4Grid nd.1 nd.2
    let c := e4Code s nd.1 nd.2
    if u > 229376 then (c, fOF ||| fNX)
    else (c, if u * nd.2 = nd.1 * 2 ^ 9 then 0 else fNX)

/-- R55: the FP32 element equal to an E4M3 code. -/
def e4ToF32 (c : Byte) : W32 :=
  match e4Image c with
  | none => canonNaN
  | some i => (roundDy 24 .rne (c.getLsbD 7) ⟨i, -9⟩).v

/-! ## Compares (R56) -/

/-- Table 02-4: an `fcmp` condition and whether it raises invalid. -/
def fcmpElem (fn : Nat) (wa wb : W32) : Bool × FFlags :=
  let a := f32Val wa; let b := f32Val wb
  let un := a.isNaN || b.isNaN
  let sig := sigFlag [a, b]
  let eq : Bool := !un && !belowVal a b && !belowVal b a || (!un && a.isZero && b.isZero)
  let lt : Bool := !un && belowVal a b && !(a.isZero && b.isZero)
  match fn with
  | 0 => (eq, sig)
  | 1 => (!eq, sig)
  | 2 => (lt, if un then fNV else 0)
  | 3 => (lt || eq, if un then fNV else 0)
  | 4 => (un, sig)
  | _ => (!un, sig)

end Sys2Proof.Machine
end

