-- ==== Sys2Proof/Machine/Memory.lean ====
section
/-!
DEFINITION. The places of coherence (09 R194): reading and writing bytes at HBM granules with their scrub state (21 R391),
scratchpads, register rows, accumulators and planes through windows (05 R119), and host memory; the delivery check of 05 R130.
-/

namespace Sys2Proof.Machine

/-! ## Geometry (00 R2, 05 R111) -/

def tileX (t : Nat) : Nat := t % 27
def tileY (t : Nat) : Nat := t / 27
def tileAt (x y : Nat) : Nat := y * 27 + x
def tileOfCore (c : Nat) : Nat := c / 16
def slotOfCore (c : Nat) : Nat := c % 16
def fieldOfTile (t : Nat) : Nat := tileX t / 3 + 9 * (tileY t / 3)
/-- The cores of a tile. -/
def coresOf (t : Nat) : List Nat := (List.range 16).map (t * 16 + ·)

/-! ## Accessors with defaults -/

def State.core (s : State) (c : Nat) : Core := SMap.get {} s.cores c
def State.setCore (s : State) (c : Nat) (v : Core) : State := { s with cores := SMap.set {} s.cores c v }
def State.updCore (s : State) (c : Nat) (f : Core → Core) : State := s.setCore c (f (s.core c))
def State.tile (s : State) (t : Nat) : Tile := SMap.get {} s.tiles t
def State.setTile (s : State) (t : Nat) (v : Tile) : State := { s with tiles := SMap.set {} s.tiles t v }
def State.updTile (s : State) (t : Nat) (f : Tile → Tile) : State := s.setTile t (f (s.tile t))
def State.fld (s : State) (f : Nat) : Field := SMap.get {} s.fields f
def State.setFld (s : State) (f : Nat) (v : Field) : State := { s with fields := SMap.set {} s.fields f v }
def State.updFld (s : State) (f : Nat) (g : Field → Field) : State := s.setFld f (g (s.fld f))
def State.gran (s : State) (g : Nat) : Granule := SMap.get {} s.grans g
def State.setGran (s : State) (g : Nat) (v : Granule) : State := { s with grans := SMap.set {} s.grans g v }
def State.part (s : State) (t : Nat) : Part := SMap.get {} s.parts t
def State.setPart (s : State) (t : Nat) (v : Part) : State := { s with parts := SMap.put s.parts t v }
/-- Update a partition that exists. -/
def State.updPart (s : State) (t : Nat) (f : Part → Part) : State :=
  match SMap.find s.parts t with
  | some p => s.setPart t (f p)
  | none => s
def State.vf (s : State) (v : Nat) : VF := SMap.get {} s.vfs v
def State.setVf (s : State) (v : Nat) (x : VF) : State := { s with vfs := SMap.set {} s.vfs v x }
def State.updVf (s : State) (v : Nat) (f : VF → VF) : State := s.setVf v (f (s.vf v))
def VF.queue (v : VF) (q : Nat) : Queue := SMap.get {} v.queues q
def VF.setQueue (v : VF) (q : Nat) (x : Queue) : VF := { v with queues := SMap.set {} v.queues q x }
def State.updQueue (s : State) (v q : Nat) (f : Queue → Queue) : State := s.updVf v fun x => x.setQueue q (f (x.queue q))
def State.launch (s : State) (l : Nat) : Launch := SMap.get {} s.launches l
def State.updLaunch (s : State) (l : Nat) (f : Launch → Launch) : State :=
  match SMap.find s.launches l with
  | some x => { s with launches := SMap.put s.launches l (f x) }
  | none => s
def State.block (s : State) (b : Nat) : Block := SMap.get {} s.blocks b
def State.updBlock (s : State) (b : Nat) (f : Block → Block) : State :=
  match SMap.find s.blocks b with
  | some x => { s with blocks := SMap.put s.blocks b (f x) }
  | none => s
def State.port (s : State) (p : Nat) : Port := SMap.get {} s.ports p
def State.updPort (s : State) (p : Nat) (f : Port → Port) : State := { s with ports := SMap.set {} s.ports p (f (s.port p)) }
def State.peer (s : State) (d : Nat) : Peer := SMap.get {} s.peers d
def State.updPeer (s : State) (d : Nat) (f : Peer → Peer) : State := { s with peers := SMap.set {} s.peers d (f (s.peer d)) }
def State.updModule (s : State) (f : Module → Module) : State := { s with module := f s.module }
/-- A fresh identity. -/
def State.fresh (s : State) : Nat × State := (s.nextId, { s with nextId := s.nextId + 1 })
/-- A free choice of the current issue, numbered by `site`; every issue takes fresh ones (assumption 1). -/
def State.pick (s : State) (site : Nat) : Bool := Config.freeBool (Nat.pair s.oracle site)
/-- Every context: the current one and the others. -/
def State.allCtxs (s : State) : List Ctx := s.cur :: s.ctxs
/-- Update the contexts that satisfy a test, wherever they stand. -/
def State.updCtxs (s : State) (p : Ctx → Bool) (f : Ctx → Ctx) : State :=
  { s with cur := if p s.cur then f s.cur else s.cur, ctxs := updWhere p f s.ctxs }
def State.ctx? (s : State) (id : Nat) : Option Ctx := s.allCtxs.find? fun c => c.id == id && c.kind != .none
def State.updCtx (s : State) (id : Nat) (f : Ctx → Ctx) : State := s.updCtxs (fun c => c.id == id && c.kind != .none) f

/-! ## Positions of logical cores (16 R313) -/

/-- The spare and the failure of a row of a tile. -/
def Tile.spare (t : Tile) (row : Nat) : Nat := if row = 0 then t.spare0 else t.spare1
def Tile.fail (t : Tile) (row : Nat) : Option (Nat × Nat) := if row = 0 then t.fail0 else t.fail1
def Tile.setRow (t : Tile) (row spare : Nat) (fail : Option (Nat × Nat)) : Tile :=
  if row = 0 then { t with spare0 := spare, fail0 := fail } else { t with spare1 := spare, fail1 := fail }
/-- R313: the position a logical core occupies in its row. -/
def State.posOf (s : State) (core : Nat) : Nat := let p := (s.core core).pos; if p = 9 then core % 8 else p
/-- R313: the logical core stands on a failed position and its wave has not reached it. -/
def State.coreFailed (s : State) (core : Nat) : Bool := match (s.tile (tileOfCore core)).fail (core / 8 % 2) with
  | some f => s.posOf core == f.1
  | none => false

/-! ## HBM and its scrub state -/

/-- The device address of a byte of a frame: site, device frame, offset. -/
def hbmKey (site dframe off : Nat) : Nat := site * 2 ^ 36 + dframe * 65536 + off
/-- The granule that holds a device address. -/
def granOf (key : Nat) : Nat := (key / 2 ^ 36) * 32768 + (key % 2 ^ 36) / 2 ^ 21
/-- The line of a device address within its granule. -/
def lineOf (key : Nat) : Nat := (key % 2 ^ 21) / 128
/-- Whether the line holding a device address is not yet scrubbed. -/
def State.unscrubbed (s : State) (key : Nat) : Bool := (s.gran (granOf key)).unscrubbed.getLsbD (lineOf key)
/-- Drop the bytes of an address range, which then read as zero. -/
def Mem.clear (m : Mem) (lo n : Nat) : Mem := m.filter fun c => c.1 < lo || lo + n ≤ c.1
/-- R391: zero the line of an address and mark it scrubbed, when it is not. -/
def State.scrubLine (s : State) (key : Nat) : State :=
  if s.unscrubbed key then
    let g := s.gran (granOf key)
    let u := g.unscrubbed &&& ~~~(BitVec.twoPow 16384 (lineOf key))
    { s.setGran (granOf key) { g with unscrubbed := u, zp := u != 0 } with hbm := Mem.clear s.hbm (key / 128 * 128) 128 }
  else s

/-! ## Bytes within vectors of 1 KiB and plane rows -/

def getByte {n : Nat} (v : BitVec n) (i : Nat) : Byte := v.extractLsb' (8 * i) 8
def putByte {n : Nat} (v : BitVec n) (i : Nat) (b : Byte) : BitVec n :=
  (v &&& ~~~((0xFF#n) <<< (8 * i))) ||| ((b.setWidth n) <<< (8 * i))

/-- R119, R233: the plane row and byte of a macro-window offset. -/
def macroPlace (o : Nat) : Nat × Nat × Nat :=
  let m := o / 65536
  (field o 15 12, 128 * (m / 8) + field o 11 5, 32 * (m % 8) + o % 32)

/-- R258: the E4M3 checksum entry of one slab row: the sum of the images of its 32 codes, NaN as 0. -/
def e4Sum (row : BitVec 2048) (cg : Nat) : Int :=
  ((List.range 32).map fun n => (e4Image (getByte row (32 * cg + n))).getD 0).foldl (· + ·) 0
/-- R258: the BF16 checksum entry of one slab row: the sum of its 16 integers. -/
def bfSum (row : BitVec 2048) (cg : Nat) : Int :=
  ((List.range 16).map fun n => (row.extractLsb' (256 * cg + 16 * n) 16).toInt).foldl (· + ·) 0

def planeKey (core plane row : Nat) : Nat := core * 16384 + plane * 1024 + row
/-- R258: the checksum entry of one slab row. -/
def slabSum (row : BitVec 2048) (bf : Bool) (cg : Nat) : Int := if bf then bfSum row cg else e4Sum row cg
/-- R238, R258: store 32 bytes of a plane row, one slab row, with its checksum entry. -/
def State.setSlabRow (s : State) (core plane row cg : Nat) (v : BitVec 256) (bf : Bool) : State :=
  let k := planeKey core plane row
  let old := SMap.get (0 : BitVec 2048) s.planes k
  let new := (old &&& ~~~((BitVec.allOnes 256).setWidth 2048 <<< (256 * cg))) ||| (v.setWidth 2048 <<< (256 * cg))
  { s with planes := SMap.set 0 s.planes k new, sums := SMap.set 0 s.sums (k * 8 + cg) (slabSum new bf cg) }
/-- The halves whose format a write to a K-group sets: its own in split mode, else both (R233, R234). -/
def Engine.halves (e : Engine) (kg : Nat) : List Nat := if e.split then [kg / 4] else [0, 1]
/-- R233: set the format of a plane. -/
def Engine.setFmt (e : Engine) (plane kg : Nat) (bf : Bool) : Engine :=
  { e with fmt := (e.halves kg).foldl (fun f h => if bf then f ||| BitVec.twoPow 32 (plane + 16 * h) else f &&& ~~~(BitVec.twoPow 32 (plane + 16 * h))) e.fmt }
/-- R245: a window write of one code. -/
def State.writeMacro (s : State) (c plane row i : Nat) (b : Byte) : State :=
  let v := SMap.get (0 : BitVec 2048) s.planes (planeKey c plane row)
  let s := s.setSlabRow c plane row (i / 32) ((putByte v i b).extractLsb' (256 * (i / 32)) 256) false
  s.updCore c fun k => { k with engine := k.engine.setFmt plane (row / 128) false }

/-- One byte at its place of coherence. TT 6 and TT 7 hold none. -/
def State.readByte (s : State) (l : Loc) : Byte :=
  match l.tt with
  | 0 => if s.unscrubbed l.addr then 0 else Mem.byte s.hbm l.addr
  | 1 => Mem.byte s.sp l.addr
  | 2 => getByte (SMap.get (0 : Vec) s.vrf (l.addr / 1024)) (l.addr % 1024)
  | 3 => getByte (SMap.get (0 : Vec) s.acc (l.addr / 1024)) (l.addr % 1024)
  | 4 =>
    let p := macroPlace (l.addr % 2 ^ 22)
    getByte (SMap.get (0 : BitVec 2048) s.planes (planeKey (l.addr / 2 ^ 22) p.1 p.2.1)) p.2.2
  | 5 => Mem.byte s.host l.addr
  | _ => 0

/-- Write one byte at its place of coherence (R119, R245, R391). -/
def State.writeByte (s : State) (l : Loc) (b : Byte) : State :=
  match l.tt with
  | 0 => let s := s.scrubLine l.addr; { s with hbm := Mem.setByte s.hbm l.addr b }
  | 1 => { s with sp := Mem.setByte s.sp l.addr b }
  | 2 =>
    let r := l.addr / 1024
    { s with vrf := SMap.set 0 s.vrf r (putByte (SMap.get (0 : Vec) s.vrf r) (l.addr % 1024) b) }
  | 3 =>
    let r := l.addr / 1024
    { s with acc := SMap.set 0 s.acc r (putByte (SMap.get (0 : Vec) s.acc r) (l.addr % 1024) b) }
  | 4 =>
    let p := macroPlace (l.addr % 2 ^ 22)
    let c := l.addr / 2 ^ 22
    s.writeMacro c p.1 p.2.1 p.2.2 (if b = 0xFF then 0x7F else b)
  | 5 => { s with host := Mem.setByte s.host l.addr b }
  | _ => s

/-- `n` consecutive bytes from a place. -/
def State.readBytes (s : State) (l : Loc) (n : Nat) : List Byte :=
  (List.range n).map fun i => s.readByte ⟨l.tt, l.addr + i⟩
/-- A little-endian number of `n` bytes. -/
def State.readNum (s : State) (l : Loc) (n : Nat) : Nat := bytesNat (s.readBytes l n)
/-- Write places and bytes in order; a later entry for one place wins (R85). -/
def State.writeAll (s : State) : List (Loc × Byte) → State
  | [] => s
  | (l, b) :: t => State.writeAll (s.writeByte l b) t
/-- The places of consecutive bytes. -/
def cellsFrom (l : Loc) (bs : List Byte) : List (Loc × Byte) :=
  (List.range bs.length).zip bs |>.map fun p => (⟨l.tt, l.addr + p.1⟩, p.2)
def State.writeBytes (s : State) (l : Loc) (bs : List Byte) : State := s.writeAll (cellsFrom l bs)
def State.writeNum (s : State) (l : Loc) (n v : Nat) : State := s.writeBytes l (natBytes n v)

/-! ## Poison (16 R311) -/

def wordKey (l : Loc) : Nat × Nat := (l.addr / 4, l.tt)
/-- R118: the context that holds a register row, with the register's number. -/
def State.rowHolder (s : State) (row : Nat) : Option (Ctx × Nat) :=
  (s.allCtxs.find? fun c => c.kind == .group && c.resident && decide (c.core * 4096 + c.vbase ≤ row) && decide (row < c.core * 4096 + c.vbase + c.valloc)).map
    fun c => (c, row - (c.core * 4096 + c.vbase))
/-- R311: an uncorrectable error was met in the word of a place; a register element's mark ends with any full write of it. -/
def State.isPoisoned (s : State) (l : Loc) : Bool :=
  s.poison.contains (wordKey l) && (l.tt != 2 || (match s.rowHolder (l.addr / 1024) with
    | some x => (SMap.get 0 x.1.poisonV x.2).getLsbD (l.addr % 1024 / 4)
    | none => false))
/-- R311: a write of all four bytes of a word clears its poison. -/
def State.clearPoison (s : State) (ls : List Loc) : State :=
  if s.poison.isEmpty then s
  else
    let full (k : Nat × Nat) : Bool := (List.range 4).all fun i => ls.contains ⟨k.2, k.1 * 4 + i⟩
    let s := (s.poison.filter fun k => k.2 == 2 && full k).foldl (fun s k => match s.rowHolder (k.1 / 256) with
      | some x => s.updCtx x.1.id fun c => { c with poisonV := SMap.set 0 c.poisonV x.2 (SMap.get 0 c.poisonV x.2 &&& ~~~(oneLane (k.1 % 256))) }
      | none => s) s
    { s with poison := s.poison.filter fun k => !full k }
/-- R249, R261: the elements of an accumulator row that hold a parity error. -/
def State.accPoison (s : State) (row : Nat) : Mask :=
  if s.poison.isEmpty then 0 else ofBits fun i => s.poison.contains (row * 256 + i, 3)
/-- A write of elements of an accumulator row gives them good parity. -/
def State.cleanAcc (s : State) (row : Nat) (m : Mask) : State :=
  if s.poison.isEmpty then s
  else { s with poison := s.poison.filter fun k => !(k.2 == 3 && k.1 / 256 == row && m.getLsbD (k.1 % 256)) }
/-- R257: a word of a slab. -/
def inSlab (core plane kg cg : Nat) (k : Nat × Nat) : Bool :=
  let o := k.1 * 4 % 2 ^ 22
  k.2 == 4 && k.1 * 4 / 2 ^ 22 == core && o / 65536 == 8 * kg + cg && field o 15 12 == plane

/-! ## Delivery (05 R130) -/

/-- The core a window place belongs to. -/
def Loc.core (l : Loc) : Nat :=
  match l.tt with
  | 1 => l.addr / 2 ^ 21
  | 3 => l.addr / 2 ^ 20
  | _ => l.addr / 2 ^ 22
/-- The owner tag checked at a place, and whether it is a shared-region granule. -/
def State.ownerAt (s : State) (l : Loc) : Nat × Bool :=
  match l.tt with
  | 0 => let g := s.gran (granOf l.addr); (g.owner, g.shr)
  | 5 => (0, false)
  | _ => ((s.tile (tileOfCore l.core)).owner, false)
/-- R368: the VF that carries a TT 5 access of a launch of VF `v` to port `h`. -/
def State.carrier (s : State) (tag v h : Nat) : Option Nat :=
  if (s.vf v).tag = tag && (s.vf v).port = h then some v
  else (s.vfs.find? fun x => x.2.tag == tag && x.2.port == h).map Prod.fst

/-- R130: a packet with this tag is delivered at this place. For TT 5 the carrying
VF must be one of the partition's (R368) and not be in ERROR (21 R371). -/
def State.delivers (s : State) (src : Agent) (l : Loc) : Bool :=
  if l.tt = 5 then
    src.unit == 3 || src.tag == 0 || (match s.carrier src.tag (src.lq / 8) (l.addr / 2 ^ 57) with
      | some v => (s.vf v).tdi != 3
      | none => false)
  else if src.tag = 0 then true
  else
    let o := s.ownerAt l
    if o.2 then ((SMap.get {} s.regions (s.gran (granOf l.addr)).region).members).contains src.tag
    else o.1 == src.tag && !((l.tt != 0) && (s.core l.core).lost)

end Sys2Proof.Machine
end

