-- ==== Sys2Proof/Machine/Addr.lean ====
section
/-!
DEFINITION. Partition addresses, the page-table walk and the access rules (05 R113–R118, R123, R124, R417; 03 R83).
-/

namespace Sys2Proof.Machine

/-- Fault kinds of Table 16-3. -/
def kNotPresent : Nat := 1
def kPerm : Nat := 2
def kFirstTouch : Nat := 3
def kIllegal : Nat := 4
def kPriv : Nat := 5
def kMisalign : Nat := 6
def kYieldover : Nat := 7
def kMxsum : Nat := 8
def kPoison : Nat := 9
def kPhaseover : Nat := 10
def kKeyowner : Nat := 11
def kCorelost : Nat := 12
def kTilelost : Nat := 13
def kDropnotice : Nat := 14
def kTrap : Nat := 15
def kReshape : Nat := 16

/-- R122, R123: the place of a partition address, when its granule is valid. -/
def Part.place (p : Part) (pa : Nat) : Option Loc :=
  if pa / 65536 ≥ 2 ^ 26 then none
  else match SMap.find p.grans (pa / 2 ^ 21) with
    | some g => some ⟨0, hbmKey g.site (g.dgran * 32 + (pa / 65536) % 32) (pa % 65536)⟩
    | none => none

/-- A partition's `n`-byte word at a partition address. -/
def State.partNum (s : State) (p : Part) (pa n : Nat) : Option Nat :=
  match p.place pa with
  | some l => some (s.readNum l n)
  | none => none

/-- What a walk ends with: a leaf (its level 0 or 1 and the partition address of its entry) or a kind and detail. -/
inductive WalkRes where
  | leaf (large : Bool) (e : Nat) (at_ : Nat)
  | fault (kind detail : Nat)
  deriving DecidableEq, Repr

/-- The index of a virtual address at a level (R113). -/
def walkIndex (va : Nat) : Nat → Nat
  | 3 => field va 56 49
  | 2 => field va 48 38
  | 1 => field va 37 27
  | _ => field va 26 16

/-- R115, R116: the walk from the node at a level. -/
def State.walkFrom (s : State) (p : Part) (va : Nat) : Nat → Nat → WalkRes
  | lvl, node =>
    let ea := node + 8 * walkIndex va lvl
    match s.partNum p ea 8 with
    | none => .fault kNotPresent 3
    | some e =>
      if e.testBit 8 then (if 2 ≤ lvl then .fault kNotPresent 1 else .leaf (lvl == 1) e ea)
      else
        match lvl with
        | 0 => .fault kNotPresent 1
        | n + 1 =>
          if field e 7 1 ≠ 0 || field e 13 9 ≠ 0 then .fault kNotPresent 1
          else if !e.testBit 0 then .fault kNotPresent 0
          else State.walkFrom s p va n (field e 55 14 * 16384)

/-- R297: a line that a prepare holds; a token holder's read lock stops no load. -/
def State.prepareLocked (s : State) (line : Nat) : Bool := match SMap.find s.locks line with
  | some k => !k.readOnly
  | none => false

/-- R81, R114: the walk of a virtual address. -/
def State.walk (s : State) (p : Part) (va : Nat) : WalkRes :=
  if va / 2 ^ 57 ≠ 0 then .fault kNotPresent 2
  else if !p.ptRoot.getLsbD 0 then .fault kNotPresent 0
  else s.walkFrom p va 3 (field p.ptRoot.toNat 55 14 * 16384)

/-- The bytes of virtual address that one entry read at a level covers (R113). -/
def levelSpan : Nat → Nat
  | 0 => 2 ^ 16
  | 1 => 2 ^ 27
  | 2 => 2 ^ 38
  | _ => 2 ^ 49
/-- R129: an entry that a unit holds for an address at a level. -/
def TlbEntry.serves (t : TlbEntry) (unit lvl va : Nat) : Bool := t.unit == unit && t.lvl == lvl && t.vpn * 65536 / levelSpan lvl == va / levelSpan lvl
/-- R129: the holders that serve a core: its own TLB, its tile's, and its field's walkers. -/
def tlbTile (core : Nat) : Nat := 2 ^ 16 + tileOfCore core
def tlbWalkers (core : Nat) : Nat := 2 ^ 17 + fieldOfTile (tileOfCore core)

/-- R129: the walk, each node entry read from the walkers' cache or from memory. -/
def State.walkHeld (s : State) (p : Part) (unit va salt : Nat) : Nat → Nat → WalkRes
  | lvl, node =>
    let ea := node + 8 * walkIndex va lvl
    let held : Option Nat := match p.tlb.find? fun t => t.serves unit lvl va with
      | some t => if s.pick (Nat.pair salt lvl) then none else some t.leaf.toNat
      | none => none
    match (match held with | some e => some e | none => s.partNum p ea 8) with
    | none => .fault kNotPresent 3
    | some e =>
      if e.testBit 8 then (if 2 ≤ lvl then .fault kNotPresent 1 else .leaf (lvl == 1) e ea)
      else
        match lvl with
        | 0 => .fault kNotPresent 1
        | n + 1 =>
          if field e 7 1 ≠ 0 || field e 13 9 ≠ 0 then .fault kNotPresent 1
          else if !e.testBit 0 then .fault kNotPresent 0
          else State.walkHeld s p unit va salt n (field e 55 14 * 16384)

/-- R129: the valid node entries that a walk of an address reads: the level and the entry. -/
def State.walkNodes (s : State) (p : Part) (va : Nat) : Nat → Nat → List (Nat × Nat)
  | lvl, node => match s.partNum p (node + 8 * walkIndex va lvl) 8, lvl with
    | some e, n + 1 =>
      if e.testBit 8 || field e 7 1 ≠ 0 || field e 13 9 ≠ 0 || !e.testBit 0 then []
      else (lvl, e) :: State.walkNodes s p va n (field e 55 14 * 16384)
    | _, _ => []

/-- R297: a walker's read meets a line that a prepare holds. An access with a cached translation waits as well, since its TLB may have given the
entry up (assumption 60). -/
def State.walkMeets (s : State) (p : Part) (va : Nat) : Nat → Nat → Bool
  | lvl, node =>
    let ea := node + 8 * walkIndex va lvl
    match p.place ea with
    | none => false
    | some l => s.prepareLocked (l.addr / 128) ||
      match lvl with
      | 0 => false
      | n + 1 =>
        let e := s.readNum l 8
        if e.testBit 8 || !e.testBit 0 then false else State.walkMeets s p va n (field e 55 14 * 16384)
def State.walkLocked (s : State) (tag va : Nat) : Bool :=
  if s.locks.isEmpty then false
  else
    let p := s.part tag
    va / 2 ^ 57 == 0 && p.ptRoot.getLsbD 0 && s.walkMeets p va 3 (field p.ptRoot.toNat 55 14 * 16384)

/-- Fields of a leaf (Table 05-2). -/
def leafTT (e : Nat) : Nat := field e 6 4
def leafTarget (e : Nat) : Nat := field e 55 16

/-- R116: the checks that read no TARGET. -/
def leafMalformed (large : Bool) (e : Nat) : Bool :=
  field e 15 12 ≠ 0 || (e.testBit 9 && e.testBit 1) || (e.testBit 11 && leafTT e ≠ 0) || (large && leafTT e ≠ 0)

/-- R116, R118, Table 05-3: a TARGET a valid leaf may not hold. -/
def targetMalformed (large : Bool) (e : Nat) : Bool :=
  let t := leafTarget e
  match leafTT e with
  | 0 => t ≥ 2 ^ 26 || (large && t % 2048 ≠ 0)
  | 1 | 2 | 3 | 4 => field t 4 0 > 26 || field t 9 5 > 23 || t / 2 ^ 20 ≠ 0
  | 5 => t / 2 ^ 39 ≠ 0
  | 6 => t / 2 ^ 25 ≠ 0
  | _ => false

/-- Pages of each window type (Table 05-3). -/
def windowPages : Nat → Nat
  | 1 => 32
  | 2 => 64
  | 3 => 16
  | _ => 64

/-- What an access is, for Table 03-2 and R417. -/
inductive Acc where
  | fetch
  | load (bytes : Nat)
  | store (bytes : Nat)
  /-- an atomic, `red` or `satom`; `pcie` when TT 5 carries the form -/
  | atomic (pcie : Bool)
  /-- `stb`, and what changes a barrier object; a barrier's wait or a queue's control word (R177, R178, R180) -/
  | counted
  | watched
  /-- an engine's read, a copy's write, which may reach TT 4, and another engine's write (R160) -/
  | engineRead
  | engineWrite
  | engineStore
  /-- an engine's reducing write (R170) -/
  | engineReduce
  deriving DecidableEq, Repr

def Acc.isWrite : Acc → Bool
  | .fetch | .load _ | .watched | .engineRead => false
  | _ => true

/-- Table 03-2, with R160, R170 and R178: refused with detail 2. -/
def refused (tt : Nat) : Acc → Bool
  | .fetch => false
  | .load n => tt == 7 && !(n == 4 || n == 8)
  | .store n => tt == 4 || (tt == 7 && !(n == 4 || n == 8))
  | .atomic pcie => tt == 2 || tt == 3 || tt == 4 || tt == 7 || (tt == 5 && !pcie)
  | .counted => tt != 1
  | .watched => tt != 1
  | .engineRead => tt == 7
  | .engineWrite => tt == 7
  | .engineStore => tt == 4 || tt == 7
  | .engineReduce => tt == 2 || tt == 3 || tt == 4 || tt == 5 || tt == 7

/-- A translated access. -/
structure Xlat where
  loc : Loc
  /-- the byte address the home hash uses (R124) -/
  home : Nat
  ms : Bool := false
  nc : Bool := false
  sk : Bool := false
  /-- the partition whose exported page, standing on this device, a TT 6 address names; 0 for no such page (22 R398, R399) -/
  via : Nat := 0
  deriving DecidableEq, Repr

/-- R116, R123, R417: a leaf to a place, or the kind and detail it raises. -/
def State.useLeaf (s : State) (tag : Nat) (p : Part) (vf : Nat) (user : Bool) (acc : Acc) (va : Nat) (large : Bool) (e : Nat) :
    Except (Nat × Nat) Xlat :=
  if leafMalformed large e then .error (kNotPresent, 1)
  else if !e.testBit 0 then .error (if e.testBit 11 then kFirstTouch else kNotPresent, 0)
  else if targetMalformed large e then .error (kNotPresent, 1)
  else
    let tt := leafTT e
    let t := leafTarget e
    let off := va % 65536
    let pa := t * 65536 + (if large then va % 2 ^ 27 else off)
    let sk := e.testBit 9
    match (if tt = 0 then p.place pa else some ⟨0, 0⟩) with
    | none => .error (kNotPresent, 3)
    | some hbm =>
      let shr : Bool := tt == 0 && (match SMap.find p.grans (pa / 2 ^ 21) with | some g => g.shr | none => false)
      if user && !e.testBit 3 then .error (kPerm, 1)
      else if acc == .fetch && (!e.testBit 2 || tt ≠ 0) then .error (kPerm, 8)
      else if (sk && !shr) || (sk && acc.isWrite) || (shr && !sk && tt == 0) then .error (kPerm, 6)
      else if acc.isWrite && !e.testBit 1 then .error (kPerm, 0)
      else if refused tt acc then .error (kPerm, 2)
      else if 1 ≤ tt && tt ≤ 4 && field t 19 14 ≥ windowPages tt then .error (kPerm, 4)
      else if tt == 5 && (s.carrier tag vf (field t 38 36)).isNone then .error (kPerm, 5)
      else
        let core := tileAt (field t 4 0) (field t 9 5) * 16 + field t 13 10
        let o := field t 19 14 * 65536 + off
        let loc : Loc := match tt with
          | 0 => hbm
          | 1 => ⟨1, core * 2 ^ 21 + o⟩
          | 2 => ⟨2, core * 2 ^ 22 + o⟩
          | 3 => ⟨3, core * 2 ^ 20 + o⟩
          | 4 => ⟨4, core * 2 ^ 22 + o⟩
          | 5 => ⟨5, field t 38 36 * 2 ^ 57 + field t 35 0 * 65536 + off⟩
          | 6 => ⟨6, field t 4 0 * 2 ^ 57 + field t 24 5 * 65536 + off⟩
          | _ => ⟨7, t * 65536 + off⟩
        .ok { loc := loc, home := if tt = 0 then pa else t * 65536 + off, ms := e.testBit 7, nc := e.testBit 10, sk := sk }

/-- R123: the granule entry that a leaf goes through; a leaf that reaches no device frame has none. -/
def Part.leafGran (p : Part) (va : Nat) (large : Bool) (e : Nat) : Option GranEntry :=
  if leafTT e ≠ 0 then some {} else SMap.find p.grans ((leafTarget e * 65536 + (if large then va % 2 ^ 27 else 0)) / 2 ^ 21)
/-- R123: the partition as a cached translation knows it: its page at the device frame of the walk. -/
def Part.withGran (p : Part) (va : Nat) (t : TlbEntry) : Part :=
  if leafTT t.leaf.toNat ≠ 0 then p
  else { p with grans := SMap.put p.grans ((leafTarget t.leaf.toNat * 65536 + (if t.large then va % 2 ^ 27 else 0)) / 2 ^ 21) t.gran }
/-- R117, R129: the leaf for an address as the current core's TLB, the tile's or the walkers find it, and the partition's frames as it knows them; a TLB
may have given up an entry, so that the next level is asked (assumption 60). -/
def State.leafFor (s : State) (p : Part) (va salt : Nat) : WalkRes × Part :=
  if p.tlb.isEmpty then (s.walk p va, p)
  else
    let held (unit k : Nat) : Option TlbEntry := match p.tlb.find? fun t => t.serves unit 0 va with
      | some t => if s.pick (Nat.pair salt (8 + k)) then none else some t
      | none => none
    match held s.cur.core 0, held (tlbTile s.cur.core) 1 with
    | some t, _ => (.leaf t.large t.leaf.toNat 0, p.withGran va t)
    | none, some t => (.leaf t.large t.leaf.toNat 0, p.withGran va t)
    | none, none =>
      (if va / 2 ^ 57 ≠ 0 || !p.ptRoot.getLsbD 0 then s.walk p va
       else s.walkHeld p (tlbWalkers s.cur.core) va salt 3 (field p.ptRoot.toNat 55 14 * 16384), p)

/-- The translation of a virtual address for an access of a partition (R129, R417). `salt` numbers the access. -/
def State.translate (s : State) (tag vf : Nat) (user : Bool) (acc : Acc) (va salt : Nat) : Except (Nat × Nat) Xlat :=
  let p := s.part tag
  if va / 2 ^ 57 ≠ 0 then .error (kNotPresent, 2)
  else
    match (if acc == .fetch then (s.walk p va, p) else s.leafFor p va salt) with
    | (.fault k d, _) => .error (k, d)
    | (.leaf large e _, p) => s.useLeaf tag p vf user acc va large e
/-- The state as a request of another core's meets it. -/
def State.atCore (s : State) (core : Nat) : State := { s with cur := { s.cur with core := core } }

/-- R129: the entries a TLB keeps: its newest n (assumption 60). -/
def dropOldest (unit : Nat) : List TlbEntry → Nat → List TlbEntry
  | l, 0 => l
  | [], _ => []
  | t :: l, n + 1 => if t.unit = unit then dropOldest unit l n else t :: dropOldest unit l (n + 1)
def keepNewest (unit n : Nat) (l : List TlbEntry) : List TlbEntry := dropOldest unit l ((l.filter fun t => t.unit == unit).length - n)
/-- R129: the current core's TLB, of 128 entries, and its tile's, of 4,096, cache the leaves of the pages just used, and the walkers the node entries;
only valid entries are cached. -/
def State.cachePages (s : State) (tag : Nat) (vas : List Nat) : State :=
  let p := s.part tag
  let put (t : List TlbEntry) (va : Nat) (x : TlbEntry) : List TlbEntry := if t.any fun y => y.serves x.unit x.lvl va then t else t ++ [x]
  let add (t : List TlbEntry) (va : Nat) : List TlbEntry :=
    let t := (s.walkNodes p va 3 (field p.ptRoot.toNat 55 14 * 16384)).foldl (fun t n =>
      put t va { vpn := va / 65536, large := false, leaf := BitVec.ofNat 64 n.2, unit := tlbWalkers s.cur.core, lvl := n.1 }) t
    match s.walk p va with
    | .leaf large e _ =>
      (match (if e.testBit 0 then p.leafGran va large e else none) with
        | some g =>
          let x : TlbEntry := { vpn := va / 65536, large := large, leaf := BitVec.ofNat 64 e, gran := g }
          let t := keepNewest s.cur.core 128 (put t va { x with unit := s.cur.core })
          keepNewest (tlbTile s.cur.core) 4096 (put t va { x with unit := tlbTile s.cur.core })
        | none => t)
    | .fault _ _ => t
  let tlb := (dedup (vas.map (· / 65536))).foldl (fun t v => add t (v * 65536)) p.tlb
  if tlb = p.tlb then s else s.updPart tag fun p => { p with tlb := tlb }

/-- R124: the home tile of a cacheable line. -/
def Part.homeTile (p : Part) (tt byteAddr : Nat) : Nat :=
  let l := if tt = 0 then byteAddr / 128 else (byteAddr / 128) ^^^ (tt * 2 ^ 40)
  let h := l ^^^ (l / 2 ^ 11) ^^^ (l / 2 ^ 22) ^^^ (l / 2 ^ 33)
  p.tiles.getD (h % p.tiles.length) 0

/-- R111: a partition core index from a core, and back. -/
def Part.coreIndex (p : Part) (core : Nat) : Nat := (p.tiles.idxOf (tileOfCore core)) * 16 + slotOfCore core
/-- R147: the core of an index, when it exists. -/
def Part.coreAt (p : Part) (i : Nat) : Option Nat :=
  if i < 16 * p.tiles.length then
    let c := p.tiles.getD (i / 16) 0 * 16 + i % 16
    if p.absent.contains c then none else some c
  else none

end Sys2Proof.Machine
end

