-- ==== Sys2Proof/Machine/Link.lean ====
section
/-!
DEFINITION. The links to other devices as the memory side uses them: ports, the flits of writes and their numbers, forwards to the holders of
copies, and the requests that wait for an answer (22 R392–R405; 09 R201).
-/

namespace Sys2Proof.Machine

/-- The packets one instruction forms: one for each 128-byte line of HBM, one for each window of a core, one for each host port
and one for each line of a device (assumption 15). -/
def destKey (l : Loc) : Nat × Nat :=
  match l.tt with
  | 0 | 6 => (l.tt, l.addr / 128)
  | 5 => (5, l.addr / 2 ^ 57)
  | t => (t, l.core)
/-- Group keyed items in the order of their first appearance. -/
def groupBy {α : Type} (key : α → Nat × Nat) (l : List α) : List (List α) :=
  let keys := l.foldl (fun ks x => if ks.contains (key x) then ks else ks ++ [key x]) ([] : List (Nat × Nat))
  keys.map fun k => l.filter fun x => key x == k

/-! ## Link flits (22 R392–R405) -/

def laterOf (a b : Nat) : Nat := if notBehind a b then a else b
/-- Ports joining this device and a peer that are up. -/
def State.portsTo (s : State) (dev : Nat) : List Nat :=
  (s.ports.filter fun p => p.2.up && !p.2.down && field p.2.ctl.toNat 5 1 == dev && p.2.ctl.getLsbD 0).map Prod.fst
/-- R392, R400: the pair's ordered port, or the first port of the group that is up. -/
def State.orderedPort (s : State) (dev : Nat) : Option Nat :=
  match (s.portsTo dev).find? fun p => (s.port p).ctl.getLsbD 6 with
  | some p => some p
  | none => (s.portsTo dev).head?
/-- R403: the knowledge vector: the largest frontier known of each device. -/
def State.knowledge (s : State) : List Nat :=
  (List.range 32).map fun f => if f = s.module.devId then s.module.ownApp else laterOf (s.peer f).frontier (s.peer f).knows
/-- R397: `LK_IC` has reached 0xFFFF_0000 and no switch point is named. -/
def Port.markerDue (p : Port) : Bool := decide (0xFFFF0000 ≤ p.ic.toNat) && p.tswitch.isNone
/-- R395, R397: a port that may send something new: it is up, its buffer has room, and its key has room for this flit and a MARKER. -/
def Port.ready (p : Port) : Bool :=
  p.up && !p.down && decide (p.replay.length + (if p.markerDue && p.nextld then 2 else 1) ≤ 512) && (!p.markerDue || p.nextld || decide (p.ic.toNat + 2 ≤ 2 ^ 32))
/-- R404: flit types that carry an order: WRITE and forward, ATOMIC, REDUCE. -/
def ordersFlit (ftype : Nat) : Bool := ftype == 1 || ftype == 4 || ftype == 5
/-- R395, R396: put one flit on a port: its sequence, its slot, its invocation count, a place in the replay buffer. -/
def Port.put (p : Port) (f : Held) : Port :=
  let switch : Bool := p.tswitch == some p.txseq.toNat
  let ks := if switch then !p.ks else p.ks
  { p with
    replay := p.replay ++ [{ seq := p.txseq.toNat, ftype := f.ftype, ptag := f.ptag, sdev := f.sdev, payload := f.payload, ks := ks,
                             ic := if switch then 0 else p.ic.toNat }]
    txseq := p.txseq + 1
    ks := ks
    ic := if switch then 1 else p.ic + 1
    nextld := p.nextld && !switch
    tswitch := if switch then none else p.tswitch
    sinceStamp := if f.ftype = 6 then 0 else if ordersFlit f.ftype then p.sinceStamp + 1 else p.sinceStamp }
/-- R397: send the MARKER that names the switch point, up to 256 flits on and while the key lasts. -/
def Port.mark (p : Port) (sdev : Nat) : Port :=
  let ahead := max 1 (min 256 (2 ^ 32 - p.ic.toNat))
  let sp := (p.txseq.toNat + ahead) % 2 ^ 32
  { p.put { ftype := 7, sdev := sdev, payload := natBytes 232 sp } with tswitch := some sp }
/-- R397: before a flit, a MARKER when the key nears its end; `KEYWAIT` when the next key is missing. -/
def Port.send (p : Port) (f : Held) : Port :=
  if p.markerDue then (if p.nextld then (p.mark f.sdev).put f else { p with keywait := true }.put f) else p.put f
/-- R392, R400: a flit that carries an order, or a STAMP. -/
def inOrder (ftype : Nat) : Bool := ordersFlit ftype || ftype == 6
/-- R392: another port to a device still holds flits whose order counts, and they have not been acknowledged. -/
def State.orderHeld (s : State) (dev p : Nat) : Bool :=
  s.ports.any fun q => q.1 != p && field q.2.ctl.toNat 5 1 == dev && q.2.replay.any fun x => inOrder x.ftype
/-- Send a flit to a device: none while no port can take it. -/
def State.sendFlit (s : State) (dev : Nat) (f : Held) : Option State :=
  match s.orderedPort dev with
  | none => none
  | some p => if (s.port p).ready && !(inOrder f.ftype && s.orderHeld dev p) then some (s.updPort p fun x => x.send f) else none
/-- R404: the payload of a STAMP. -/
def State.stampBytes (s : State) : List Byte :=
  natBytes 4 s.module.ownApp ++ s.knowledge.flatMap (natBytes 4) ++ List.replicate 100 0
/-- R404: a STAMP to a device. -/
def State.sendStamp (s : State) (dev : Nat) : Option State :=
  (s.sendFlit dev { ftype := 6, sdev := s.module.devId, payload := s.stampBytes }).map fun t =>
    t.updPeer dev fun p => { p with stamped := (List.range 32).zip s.knowledge }
/-- R404: an ordering flit, after a STAMP when knowledge has grown since the last one there or 64 ordering flits have gone; the payload is made
from its pair sequence. -/
def State.putOrdering (s : State) (dev ftype ptag sdev : Nat) (payload : Nat → List Byte) : Option State :=
  let grown : Bool := (s.peer dev).stamped != (List.range 32).zip s.knowledge
  let full : Bool := match s.orderedPort dev with
    | some p => decide (64 ≤ (s.port p).sinceStamp)
    | none => false
  match (if grown || full then s.sendStamp dev else some s) with
  | none => none
  | some s =>
    let seq := ((s.peer dev).pseqOut + 1) % 2 ^ 32
    (s.sendFlit dev { ftype := ftype, ptag := ptag, sdev := sdev, payload := payload seq }).map fun s => s.updPeer dev fun p => { p with pseqOut := seq }
/-- Table 22-4. -/
def orderingPayload (pseq app target op job chunk : Nat) (data : List Byte) (mask : Nat) : List Byte :=
  natBytes 4 pseq ++ natBytes 4 app ++ natBytes 8 target ++ natBytes 4 op ++ natBytes 4 job ++ natBytes 2 chunk ++ natBytes 6 0 ++
    (data ++ List.replicate (128 - data.length) 0) ++ natBytes 16 mask ++ List.replicate 56 0
/-- Table 22-4: `TARGET` of a TT 6 place. -/
def targetOf (l : Loc) : Nat := l.addr % 2 ^ 57 / 2 ^ 16 % 2 ^ 20 + l.addr % 65536 * 2 ^ 20
/-- The place a `TARGET` names in a home device's table. -/
def targetLoc (home target : Nat) : Loc := ⟨6, home * 2 ^ 57 + field target 19 0 * 2 ^ 16 + field target 35 20⟩
/-- R404: send the forwards that wait for a device, oldest first. -/
def State.sendWaiting (s : State) (dev : Nat) : State :=
  iterate (fun _ s => match (s.peer dev).waiting with
    | [] => s
    | f :: t => match s.putOrdering dev f.ftype f.ptag f.sdev fun q => natBytes 4 q ++ f.payload.drop 4 with
      | none => s
      | some s => s.updPeer dev fun p => { p with waiting := t }) (s.peer dev).waiting.length 0 s
/-- An ordering flit behind the forwards that wait. -/
def State.sendOrdering (s : State) (dev ftype ptag sdev : Nat) (payload : Nat → List Byte) : Option State :=
  let s := s.sendWaiting dev
  if (s.peer dev).waiting.isEmpty then s.putOrdering dev ftype ptag sdev payload else none

/-- What a TT 6 access of this device meets (22 R398, R399). -/
inductive Remote where
  /-- the page is here: its place -/
  | here (l : Loc)
  /-- another device must be asked -/
  | away (dev : Nat)
  /-- the entry is not valid: PERM with detail 7 -/
  | refusedEntry
  /-- the home entry's check fails: the access is dropped -/
  | dropped
  deriving DecidableEq, Repr

/-- R399: the home entry's check of an access by (device, tag). -/
def Export.passes (e : Export) (home dev tag : Nat) (write : Bool) : Bool :=
  (dev == home && tag == e.otag) || (e.imps.contains (dev, tag) && tag != 0 && (!write || e.wr))
/-- The home device's answer at its export table, for an access of (device, tag). -/
def State.atHome (s : State) (l : Loc) (dev tag : Nat) (write : Bool) : Remote :=
  let idx := l.addr % 2 ^ 57 / 2 ^ 16
  match (if idx < 65536 then SMap.find s.exports idx else none) with
  | none => .refusedEntry
  | some e =>
    if !e.passes s.module.devId dev tag write then .dropped
    else if e.loc ≠ s.module.devId then .away e.loc
    else match (s.part e.otag).place (e.frame * 65536 + l.addr % 65536) with
      | some p => .here p
      | none => .dropped
/-- R398, R400: where a TT 6 access of this device goes. -/
def State.remote (s : State) (l : Loc) (tag : Nat) (write : Bool) : Remote :=
  let home := l.addr / 2 ^ 57
  if home = s.module.devId then s.atHome l s.module.devId tag write
  else if (s.peer home).lost then .dropped else .away home

/-- R398: a TT 6 address whose page stands on this device is an address of that page's frame; no L1 keeps it. -/
def State.standing (s : State) (tag : Nat) (write : Bool) (x : Xlat) : Xlat :=
  if x.loc.tt = 6 then match s.remote x.loc tag write with
    | .here h => { x with loc := h, nc := true, via := (s.ownerAt h).1 }
    | _ => x
  else x
/-- The place a TT 6 write of this device lands, when its page is here. -/
def State.landed (s : State) (tag : Nat) (l : Loc) : Loc :=
  if l.tt = 6 then (match s.remote l tag true with | .here h => h | _ => l) else l
/-- A read request's payload: its target, its identity and its bytes (assumption 19). -/
def readPayload (target ident n : Nat) : List Byte := natBytes 8 target ++ natBytes 8 ident ++ natBytes 216 n

/-- The key of an export entry: the page's home and its index. -/
def exportKey (own home idx : Nat) : Nat := if home = own then idx else 2 ^ 20 * (home + 1) + idx
/-- The TT 6 place of an HBM byte of an exported page that is here. -/
def State.exported (s : State) (l : Loc) : Option Loc :=
  firstSome (fun (e : Nat × Export) =>
    if e.2.loc ≠ s.module.devId then none
    else match (s.part e.2.otag).place (e.2.frame * 65536) with
      | some b =>
        if b.addr / 65536 = l.addr / 65536 then
          some (if e.1 < 2 ^ 20 then ⟨6, s.module.devId * 2 ^ 57 + e.1 * 2 ^ 16 + l.addr % 65536⟩
            else ⟨6, (e.1 / 2 ^ 20 - 1) * 2 ^ 57 + e.1 % 2 ^ 20 * 2 ^ 16 + l.addr % 65536⟩)
        else none
      | none => none) s.exports
/-- 09 R201, 22 R403, R404: writes applied here to exported pages take the next application number, line by line, and go to every device that
holds a copy. -/
def State.forwardWrites (s : State) (cells : List (Loc × Byte)) : State :=
  if s.exports.isEmpty then s
  else
    let xs := cells.filterMap fun c => if c.1.tt = 0 then (s.exported c.1).map fun l => (l, c.1, c.2) else none
    (groupBy (fun (x : Loc × Loc × Byte) => destKey x.1) xs).foldl (fun s g => match g with
      | [] => s
      | (l, h, _) :: _ =>
        let app := (s.module.ownApp + 1) % 2 ^ 32
        let s := { s.updModule fun m => { m with ownApp := app } with lineApp := SMap.set 0 s.lineApp (h.addr / 128) app }
        let line := l.addr / 128 * 128
        let data := (List.range 128).map fun i => ((g.filter fun w => w.1.addr == line + i).getLast?.map fun w => w.2.2).getD 0
        let mask := packNat 1 (fun i => if g.any fun w => w.1.addr == line + i then 1 else 0) 128
        let f : Held := { ftype := 1, sdev := s.module.devId, payload := orderingPayload 0 app (targetOf ⟨6, line⟩) 0 0 0 data mask }
        (s.holders.filter fun x => x.1 == l.addr / 128).foldl (fun s x =>
          (s.updPeer x.2 fun p => { p with waiting := p.waiting ++ [f], fwd := some app }).sendWaiting x.2) s) s
/-- The copies of a line of another device are given up. -/
def State.dropCopies (s : State) (l : Loc) : State :=
  { s with copies := s.copies.filter fun c => c.1 / 2 != l.addr / 128 }
/-- R398, R402: note that another device has to answer the flit just sent, numbered by its kind: 0 a read, 1 an ordering flit, 2 a chunk. -/
def State.noteAsk (s : State) (dev cls who lane : Nat) (kind : Nat) (l : Loc) : State :=
  let n := match cls with
    | 0 => s.nextId
    | 1 => (s.peer dev).pseqOut
    | _ => (s.peer dev).cseqOut
  { s.updPeer dev fun p => { p with asks := p.asks ++ [{ ident := 4 * n + cls, who := who, lane := lane, kind := kind, addr := l.addr }] } with
    nextId := s.nextId + 1 }
/-- The mark of a posted access in `Asked.lane`. -/
def postedLane : Nat := 1000
/-- An access of the context waits at another device. -/
def State.asking (s : State) (id : Nat) : Bool := s.peers.any fun p => p.2.asks.any fun q => q.who == id

end Sys2Proof.Machine
end

