-- ==== Sys2Proof/Machine/Ops.lean ====
section
/-!
DEFINITION. The shared operations: registers and their deferred results (01 R15–R17), the fault ring (16 R310), the end of a
launch (18 R334), completion records (18 R331), taking an exception (05 R136, 11 R231) and returning from one (05 R137).
-/

namespace Sys2Proof.Machine

/-! ## Registers of the current context -/

/-- R152: the row of the core's file that holds a register. -/
def Ctx.row (c : Ctx) (r : Nat) : Nat := c.core * 4096 + c.vbase + r

/-- A vector register as its row holds it. -/
def State.rawV (s : State) (r : Nat) : Vec := SMap.get 0 s.vrf (s.cur.row r)
/-- A uniform register as it stands. -/
def State.rawS (s : State) (r : Nat) : W64 := SMap.get 0 s.cur.sregs r
/-- R42: a predicate as it stands; `p0` reads as all ones. -/
def State.rawP (s : State) (r : Nat) : Mask := if r = 0 then allLanes else SMap.get 0 s.cur.preds r

/-- R17: a vector register while results are in flight: each element is its old value or a result's. -/
def State.readV (s : State) (r : Nat) : Vec :=
  s.cur.deferred.foldl (fun v d => d.vals.foldl (fun v x => match x with
    | .vec r' m nv _ => if r' = r then ofLanes fun i => if m.getLsbD i && s.pick (Nat.pair d.id (r * 256 + i)) then laneOf nv i else laneOf v i
        else v
    | _ => v) v) (s.rawV r)
/-- R17: a uniform register while results are in flight. -/
def State.readS (s : State) (r : Nat) : W64 :=
  s.cur.deferred.foldl (fun v d => d.vals.foldl (fun v x => match x with
    | .uni r' nv _ =>
      if r' = r then
        (if s.pick (Nat.pair d.id (16384 + r * 2 + 1)) then nv.extractLsb' 32 32 else v.extractLsb' 32 32) ++
        (if s.pick (Nat.pair d.id (16384 + r * 2)) then nv.extractLsb' 0 32 else v.extractLsb' 0 32)
      else v
    | _ => v) v) (s.rawS r)
/-- R17, R42: a predicate while results are in flight. -/
def State.readP (s : State) (r : Nat) : Mask :=
  if r = 0 then allLanes
  else s.cur.deferred.foldl (fun v d => d.vals.foldl (fun v x => match x with
    | .prd r' m nv _ => if r' = r then ofBits fun i => if m.getLsbD i && s.pick (Nat.pair d.id (20480 + r * 256 + i)) then nv.getLsbD i else v.getLsbD i
        else v
    | _ => v) v) (s.rawP r)

/-- Update the current context. -/
def State.updCur (s : State) (f : Ctx → Ctx) : State := { s with cur := f s.cur }

/-- R17: lanes written now contest the results still in flight for that register. -/
def contestV (r : Nat) (m : Mask) (d : Deferred) : Deferred :=
  { d with vals := d.vals.map fun x => match x with
      | .vec r' m' v c => if r' = r then .vec r' m' v (c ||| m) else x
      | _ => x }
def contestS (r : Nat) (d : Deferred) : Deferred :=
  { d with vals := d.vals.map fun x => match x with
      | .uni r' v c => if r' = r then .uni r' v true else .uni r' v c
      | _ => x }
def contestP (r : Nat) (m : Mask) (d : Deferred) : Deferred :=
  { d with vals := d.vals.map fun x => match x with
      | .prd r' m' v c => if r' = r then .prd r' m' v (c ||| m) else x
      | _ => x }

/-- Write lanes of a vector register at once (R16); a full element write clears its poison (R311). -/
def State.writeV (s : State) (r : Nat) (m : Mask) (v : Vec) : State :=
  { s with
    vrf := SMap.set 0 s.vrf (s.cur.row r) (mergeVec m v (s.rawV r))
    cur := { s.cur with
      deferred := s.cur.deferred.map (contestV r m)
      poisonV := SMap.set 0 s.cur.poisonV r (SMap.get 0 s.cur.poisonV r &&& ~~~m) } }
/-- Write a uniform register at once. -/
def State.writeS (s : State) (r : Nat) (v : W64) : State :=
  { s with cur := { s.cur with
      sregs := SMap.set 0 s.cur.sregs r v
      deferred := s.cur.deferred.map (contestS r)
      poisonS := s.cur.poisonS &&& ~~~(BitVec.twoPow 64 r) } }
/-- R42: write lanes of a predicate at once; a write of `p0` is discarded. -/
def State.writeP (s : State) (r : Nat) (m v : Mask) : State :=
  if r = 0 then s
  else { s with cur := { s.cur with
      preds := SMap.set 0 s.cur.preds r (mergeMask m v (s.rawP r))
      deferred := s.cur.deferred.map (contestP r m) } }
/-- R43: flags are sticky. -/
def State.orFlags (s : State) (fl : FFlags) : State := s.updCur fun c => { c with fpx := c.fpx ||| fl }

/-! ## Deferred results -/

/-- R17: a later deferred result meets the earlier ones lane by lane. -/
def contestNew (old : List Deferred) (x : DVal) : DVal :=
  old.foldl (fun x d => d.vals.foldl (fun x y => match x, y with
    | .vec r m v c, .vec r' m' _ _ => if r = r' then .vec r m v (c ||| m') else .vec r m v c
    | .uni r v c, .uni r' _ _ => if r = r' then .uni r v true else .uni r v c
    | .prd r m v c, .prd r' m' _ _ => if r = r' then .prd r m v (c ||| m') else .prd r m v c
    | x, _ => x) x) x

/-- R16: leave a result in flight. -/
def State.defer (s : State) (vals : List DVal) (flags : FFlags) (due : Nat) (ready : Bool) : State :=
  { s with
    nextId := s.nextId + 1
    cur := { s.cur with deferred := s.cur.deferred ++ [⟨s.nextId, vals.map (contestNew s.cur.deferred), flags, due, ready⟩] } }

/-- Write one part of a result into a context's registers. -/
def State.landVal (s : State) (id : Nat) (c : Ctx) : DVal → State × Ctx
  | .vec r m v con =>
    let old : Vec := SMap.get 0 s.vrf (c.row r)
    let nv := ofLanes fun i =>
      if m.getLsbD i && !(con.getLsbD i && s.pick (Nat.pair id (65536 + r * 256 + i))) then laneOf v i else laneOf old i
    ({ s with vrf := SMap.set 0 s.vrf (c.row r) nv },
      { c with poisonV := SMap.set 0 c.poisonV r (SMap.get 0 c.poisonV r &&& ~~~m) })
  | .uni r v con =>
    let old : W64 := SMap.get 0 c.sregs r
    let half (k : Nat) : W32 := if con && s.pick (Nat.pair id (98304 + r * 2 + k)) then old.extractLsb' (32 * k) 32 else v.extractLsb' (32 * k) 32
    (s, { c with sregs := SMap.set 0 c.sregs r (half 1 ++ half 0), poisonS := c.poisonS &&& ~~~(BitVec.twoPow 64 r) })
  | .prd r m v con =>
    let old : Mask := SMap.get 0 c.preds r
    let nv := ofBits fun i => if m.getLsbD i && !(con.getLsbD i && s.pick (Nat.pair id (114688 + r * 256 + i))) then v.getLsbD i else old.getLsbD i
    (s, if r = 0 then c else { c with preds := SMap.set 0 c.preds r nv })

/-- Write a deferred result, its flags in the same step (R43). -/
def State.land (s : State) (c : Ctx) (d : Deferred) : State × Ctx :=
  let r := d.vals.foldl (fun a x => a.1.landVal d.id a.2 x) (s, c)
  ({ r.1 with oracle := r.1.oracle + 1 }, { r.2 with fpx := r.2.fpx ||| d.flags })

/-- Write, in order, the results in flight that satisfy a test. -/
def State.landWhere (s : State) (c : Ctx) (p : Deferred → Bool) : State × Ctx :=
  let r := (c.deferred.filter p).foldl (fun a d => a.1.land a.2 d) (s, c)
  (r.1, { r.2 with deferred := c.deferred.filter fun d => !p d })

/-- R15: a settle: everything returned is written; the stream parks while a result is still out. -/
def State.settle (s : State) : State :=
  if s.cur.deferred.isEmpty then s
  else if s.cur.deferred.all fun d => d.ready && d.due == 0 then
    let r := s.landWhere s.cur fun _ => true
    { r.1 with cur := r.2 }
  else s.updCur fun c => { c with park := some .settle }
/-- Whether a settle completes at once. -/
def Ctx.settled (c : Ctx) : Bool := c.deferred.all fun d => d.ready && d.due == 0

/-- R203: a device that holds copies has not yet applied what was forwarded to it up to a number. -/
def State.notApplied (s : State) (x : Nat × Nat) : Bool :=
  !(s.peer x.1).lost && !notBehind (SMap.get 0 (s.peer x.1).vector s.module.devId) x.2
/-- R203: the devices behind in what was forwarded to them, each with the last number. -/
def State.behind (s : State) : List (Nat × Nat) := (s.peers.filterMap fun p => p.2.fwd.map fun n => (p.1, n)).filter s.notApplied
/-- R203: a write applied here has not been applied at every device that holds a copy of its line. -/
def State.forwardsOut (s : State) : Bool := !s.behind.isEmpty

/-! ## Agents and front-end accesses -/

/-- R112: the current context as the sender of its packets. -/
def State.agentOf (s : State) (c : Ctx) : Agent :=
  let l := s.launch c.launch
  ⟨0, (s.tile (tileOfCore c.core)).owner, c.core, c.id, c.launch, l.vf * 8 + l.q⟩
def State.agent (s : State) : Agent := s.agentOf s.cur

/-- R143, R331: the front end translates with the supervisor's rights and takes no fault: a place, or none. -/
def State.frontPlace (s : State) (tag vf : Nat) (acc : Acc) (va : Nat) : Option Xlat :=
  match (s.atCore (2 ^ 20)).translate tag vf false acc va 0 with
  | .ok x => some x
  | .error _ => none
/-- The front end's mark in `Asked.who`. -/
def frontMark (v q : Nat) : Nat := 2 ^ 42 + v * 8 + q
/-- R130: the destination takes an access of the front end of VF v; a drop has no record, for Table 05-5 names no such source (assumption 66). -/
def State.frontTakes (s : State) (v : Nat) (x : Xlat) : Bool := x.via != 0 || s.delivers { unit := 2, tag := (s.vf v).tag, lq := v * 8 } x.loc
/-- One byte as the front end reads it, or why not: `true` when it has to wait for another device or for a lock, `false` for a fault (06 R143). -/
def State.frontByte (s : State) (v q va : Nat) : Except Bool Byte :=
  let tag := (s.vf v).tag
  match (s.frontPlace tag v .engineRead va).map (s.standing tag false) with
  | none => .error false
  | some x =>
    if x.loc.tt = 6 then match s.remote x.loc tag false with
      | .away _ => (match SMap.find s.copies (x.loc.addr / 64), ((s.vf v).queue q).sent with
        | some c, _ => .ok (c.extractLsb' (8 * (x.loc.addr % 64)) 8)
        | none, 4 => .error false
        | none, 5 => .ok 0
        | none, _ => .error true)
      | .refusedEntry => .error false
      | _ => .ok 0
    else if x.loc.tt = 0 && s.prepareLocked (x.loc.addr / 128) then .error true
    else if s.isPoisoned x.loc then .error false
    else .ok (if s.frontTakes v x then s.readByte x.loc else 0)
/-- Bytes the front end reads: a fault of one outweighs the wait of another. -/
def State.frontBytes (s : State) (v q va n : Nat) : Except Bool (List Byte) :=
  (List.range n).foldr (fun i acc => match s.frontByte v q (va + i), acc with
    | .error false, _ => .error false
    | _, .error false => .error false
    | .ok b, .ok l => .ok (b :: l)
    | _, _ => .error true) (.ok [])
/-- R398: ask other devices, once, for the lines of some bytes. -/
def State.frontAsk (s : State) (v q va n : Nat) : State :=
  let tag := (s.vf v).tag
  let units := ((List.range (n / 64 + 2)).map fun i => va / 64 * 64 + 64 * i).filter fun a => decide (a < va + n)
  units.foldl (fun s a => match (s.frontPlace tag v .engineRead a).map (s.standing tag false) with
    | none => s
    | some x => if x.loc.tt ≠ 6 || (SMap.find s.copies (x.loc.addr / 64)).isSome then s
      else match s.remote x.loc tag false with
        | .away d =>
          if (s.peer d).asks.any fun y => y.who == frontMark v q && y.addr == x.loc.addr then s
          else match s.sendFlit d { ftype := 2, ptag := tag, sdev := s.module.devId, payload := readPayload (targetOf x.loc) (4 * s.nextId) 64 } with
            | none => s
            | some s => s.noteAsk d 0 (frontMark v q) 0 1 x.loc
        | _ => s) s
/-- How a write of the front end ended: performed, still waiting, or a fault. -/
inductive FrontWrite where
  | done (s : State)
  | wait (s : State)
  | fail
/-- R331: write a record, which lies on one page: a `.rel.sys` store. One for another device is sent once and waits for the answer. -/
def State.frontWrite (s : State) (v q va : Nat) (bs : List Byte) : FrontWrite :=
  let tag := (s.vf v).tag
  match (s.frontPlace tag v .engineWrite va).map (s.standing tag true) with
  | none => .fail
  | some x =>
    if x.loc.tt = 6 then match s.remote x.loc tag true, ((s.vf v).queue q).sent with
      | .refusedEntry, _ => .fail
      | .away _, 1 => .wait s
      | .away _, 2 => .done s
      | .away _, 3 => .fail
      | .away d, _ =>
        (match s.sendOrdering d 1 tag s.module.devId fun n => orderingPayload n 0 (targetOf ⟨6, x.loc.addr / 128 * 128⟩) 0 0 0
            (List.replicate (x.loc.addr % 128) 0 ++ bs) ((2 ^ bs.length - 1) * 2 ^ (x.loc.addr % 128)) with
          | none => .wait s
          | some s => .wait (((s.dropCopies x.loc).noteAsk d 1 (frontMark v q) 0 0 x.loc).updQueue v q fun k => { k with sent := 1 }))
      | _, _ => .done s
    else if x.loc.tt = 0 && (SMap.find s.locks (x.loc.addr / 128)).isSome then .wait s
    else
      let ws := cellsFrom x.loc bs
      .done (if s.frontTakes v x then ((s.writeAll ws).clearPoison (ws.map Prod.fst)).forwardWrites ws else s)

/-! ## The fault ring (16 R310) -/

/-- A record of Table 16-5 but for RSEQ. -/
def recordOf (kind detail lane count : Nat) (spoff nested : Bool) (seqc : Option Nat) (handled : Bool) (core : Nat) (pc addr : W64)
    (b lg aux bytes extent : Nat) (job : W64) (lq : Nat) : BitVec 512 :=
  let w0 := kind % 256 + detail % 256 * 2 ^ 8 + lane % 256 * 2 ^ 16 + count % 512 * 2 ^ 24 + spoff.toNat * 2 ^ 33 +
    nested.toNat * 2 ^ 34 + seqc.isSome.toNat * 2 ^ 35 + (seqc.getD 0) % 2 * 2 ^ 36 + handled.toNat * 2 ^ 37 + core % 2 ^ 14 * 2 ^ 48
  BitVec.ofNat 512 (w0 + pc.toNat * 2 ^ 64 + addr.toNat * 2 ^ 128 + b % 2 ^ 24 * 2 ^ 192 + lg % 8 * 2 ^ 216 +
    aux % 2 ^ 32 * 2 ^ 224 + bytes % 2 ^ 16 * 2 ^ 256 + extent % 8 * 2 ^ 272 + job.toNat * 2 ^ 288 + lq % 2 ^ 12 * 2 ^ 416)

/-- Hand a record to the partition's ring unit. -/
def State.raiseRecord (s : State) (tag : Nat) (r : BitVec 512) : State := { s with raised := s.raised ++ [(tag, r)] }

/-- R310: write the oldest raised record at FR_HEAD, or count it in FR_LOST; it takes the next RSEQ either way. -/
def State.ringWrite (s : State) : State :=
  match s.raised with
  | [] => s
  | (tag, r) :: rest =>
    let s := { s with raised := rest }
    let p := s.part tag
    let r := r ||| (BitVec.ofNat 512 (p.rseq.toNat * 2 ^ 352))
    let full : Bool := p.frSize == 0 || (p.frHead - p.frTail).toNat == 2 ^ p.frSize
    let at_ := p.frBase.toNat + 64 * (p.frHead.toNat % 2 ^ p.frSize)
    match (if full then none else p.place at_) with
    | some l => (s.writeNum l 64 r.toNat).updPart tag fun p => { p with frHead := p.frHead + 1, rseq := p.rseq + 1 }
    | none => s.updPart tag fun p =>
        { p with rseq := p.rseq + 1, frLost := if p.frLost = BitVec.allOnes 64 then p.frLost else p.frLost + 1 }

/-- The record of an event of a context. -/
def State.eventRecord (s : State) (c : Ctx) (e : FaultEv) (nested handled : Bool) : BitVec 512 :=
  let p := s.part (s.launch c.launch).tag
  let b := s.block c.block
  let sq : Option Nat := match c.kind with | .seq k => some k | _ => none
  let l := s.launch c.launch
  recordOf e.kind e.detail e.lane e.count e.spoff nested sq handled (p.coreIndex c.core) e.rpc (SMap.get 0 e.addrs e.lane) b.b c.lg e.aux
    0 0 0 (l.vf * 8 + l.q)

/-! ## Completion records (18 R331) -/

/-- R336: raise the queue's MSI-X vector when the packet and `Q_CTL.IRQ` allow it. -/
def State.queueIrq (s : State) (v q : Nat) (want : Bool) : State :=
  if want && ((s.vf v).queue q).irq then s.updVf v fun x => { x with irqs := x.irqs + 1 } else s
/-- Write the pending completion record, or halt the queue with UNMAPPED; a MARK's interrupt follows its record (R336). -/
def State.writeRecord (s : State) (v q : Nat) : State :=
  let x := (s.vf v).queue q
  match x.record with
  | none => s
  | some (code, ptype, data) =>
    let at_ := x.cbase.toNat + 16 * (x.cons.toNat % 2 ^ x.qsize)
    let bs := natBytes 16 (code + ptype * 2 ^ 8 + x.cons.toNat * 2 ^ 32 + data.toNat * 2 ^ 64)
    match s.frontWrite v q at_ bs with
    | .done s' => (s'.updQueue v q fun x =>
        { x with record := none, packet := none, sent := 0, cons := x.cons + 1, last := code
                 run := x.run && !(x.hoe && code != 0), halted := x.halted || (x.hoe && code != 0) }).queueIrq v q
          (ptype == 4 && code == 0 && (match x.packet with | some p => p.getLsbD 8 | none => false))
    | .wait s' => s'
    | .fail => s.updQueue v q fun x => { x with sent := 0, last := 11, run := false, halted := true }
/-- A packet is complete: its record is due and is written. -/
def State.complete (s : State) (v q code ptype : Nat) (data : W64) : State :=
  (s.updQueue v q fun x => { x with record := some (code, ptype, data), sent := 0, blocked := false, ticks := 0 }).writeRecord v q

/-! ## The end of a group, a block and a launch -/

/-- R280: the holder's transaction has ended; the token passes when TOKEN_GRANT gives it. -/
def State.releaseToken (s : State) (ctx : Nat) : State :=
  { s with
    parts := s.parts.map fun (k, p) => (k, { p with token := if p.token = some ctx then none else p.token
                                                    tokenQ := p.tokenQ.filter (· ≠ ctx) })
    locks := s.locks.filter fun l => l.2.ctx ≠ ctx || s.commits.any fun c => c.ctx == ctx && c.lane == l.2.lane && c.phase == 1 }

/-- A block has no group and no context left: its allocation and its claim are released (06 R151, 11 R230). -/
def State.retireBlock (s : State) (b : Nat) : State :=
  let x := s.block b
  if (s.allCtxs.any fun c => c.block == b && c.kind != .none) then s
  else
    let s := { s with blocks := SMap.del s.blocks b }
    if x.claim then s.updCore x.core fun k =>
        { k with engine := { k.engine with holder := 0, split := false, held := false, stopped := false } }
    else s

/-- The first place of a packet. -/
def Packet.first (p : Packet) : Loc :=
  match p.op, p.writes.head? with
  | .reduce _ (x :: _), _ => x.1
  | _, some w => w.1
  | _, none => {}
/-- R198, R319: every write of the launch has been performed; a packet that is to be dropped holds nothing back (R99, R105). -/
def State.launchQuiet (s : State) (l : Nat) : Bool :=
  !(s.packets.any fun p => p.src.launch == l && (p.first.tt == 6 || s.delivers p.src p.first)) && !(s.jobs.any fun j => j.launch == l && !j.flight.isEmpty) &&
    s.commits.all fun c => (s.ctx? c.ctx).isSome
/-- R150: the launch is over; its packet completes. -/
def State.closeLaunch (s : State) (l code : Nat) : State :=
  let x := s.launch l
  let s := { s with launches := SMap.del s.launches l, colls := s.colls.filter fun c => c.launch ≠ l }
  let s := s.updQueue x.vf x.q fun q => { q with launch := 0, en := q.en && !q.closing, closing := false,
                                                 thread := if q.closing then none else q.thread }
  s.complete x.vf x.q code 1 0

/-- R150, R198: the launch is complete, or ended; its packet completes once every write of it has been performed. -/
def State.finishLaunch (s : State) (l code : Nat) : State :=
  if s.launchQuiet l then s.closeLaunch l code else s.updLaunch l fun x => { x with done := some code }
/-- R198: the launches whose last write has been performed are over. -/
def State.closeQuiet (s : State) : State :=
  (s.launches.filter fun x => x.2.done.isSome).foldl (fun s x => if s.launchQuiet x.1 then s.closeLaunch x.1 (x.2.done.getD 0) else s) s

/-- R67, R230: a context ends: the spawn-tree counter falls by one. -/
def State.endCtx (s : State) (c : Ctx) : State :=
  let s := { s with cur := if s.cur.id = c.id then {} else s.cur, ctxs := s.ctxs.filter fun x => x.id ≠ c.id }
  let s := s.releaseToken c.id
  let s := s.retireBlock c.block
  let s := s.updLaunch c.launch fun l => { l with counter := l.counter - 1 }
  if (s.launch c.launch).counter = 0 && (SMap.find s.launches c.launch).isSome then s.finishLaunch c.launch 0 else s

/-- R230, R231: a stopped context counts as ended once what it issued has ended. -/
def State.reapCtx (s : State) (id : Nat) : State :=
  match s.ctx? id with
  | none => s
  | some c => if c.ended && !(s.jobs.any fun j => j.ctx == id) && !(s.mxops.any fun o => o.ctx == id) then s.endCtx c else s

/-- R334, Table 16-6: end a launch: its groups and contexts stop, pending blocks go, engine work is accounted, and its packet
completes with ENDED. -/
def State.endLaunch (s : State) (l : Nat) : State :=
  if (SMap.find s.launches l).isNone || (s.launch l).done.isSome then s
  else
    let gone (c : Ctx) : Bool := c.launch == l && c.kind != .none
    let ids := (s.allCtxs.filter gone).map fun c => c.id
    let held := (s.blocks.filter fun b => b.2.launch == l)
    let s := ids.foldl (fun s i => s.releaseToken i) s
    let s := { s with
      cur := if gone s.cur then {} else s.cur
      ctxs := s.ctxs.filter fun c => !gone c
      blocks := s.blocks.filter fun b => b.2.launch ≠ l
      jobs := (s.jobs.map (fun (j : Job) => if j.launch = l then { j with ended := true } else j)).filter fun (j : Job) =>
        j.launch ≠ l || !j.flight.isEmpty
      mxops := s.mxops.filter fun o => !ids.contains o.ctx
      commits := s.commits.filter fun c => !ids.contains c.ctx || c.phase == 1
      locks := s.locks.filter fun k => !ids.contains k.2.ctx || s.commits.any fun c => c.ctx == k.2.ctx && c.lane == k.2.lane && c.phase == 1 }
    let s : State := { s with tiles := s.tiles.map fun t => (t.1, { t.2 with qz := t.2.qz.filter fun i => s.jobs.any fun j => j.id == i }) }
    let s := held.foldl (fun s b => s.updCore b.2.core fun k =>
      { k with pending := k.pending.filter (· ≠ b.1)
               waves := k.waves.filter fun w => !ids.contains w.ctx
               engine := if b.2.claim then { k.engine with holder := 0, split := false, held := false, stopped := false } else k.engine }) s
    s.finishLaunch l 9

/-! ## Taking an exception -/

/-- R276: an abort sets CAUSE, clears OPEN and adds one to COUNT. -/
def abortWord (cause fkind : Nat) (w : W32) : W32 :=
  let n := w.toNat
  let cnt := field n 7 4
  BitVec.ofNat 32 (cause + (if cnt ≥ 15 then 15 else cnt + 1) * 16 + field n 9 8 * 256 + (if cause = 7 then fkind % 256 * 65536 else 0))
def Ctx.txWord (c : Ctx) (i : Nat) : W32 := SMap.get 0 c.txrec i
/-- R276: whether a lane's transaction is open. -/
def Ctx.openLane (c : Ctx) (i : Nat) : Bool := (c.txWord i).getLsbD 10
def Ctx.openMask (c : Ctx) : Mask := ofBits c.openLane
/-- Abort one lane. -/
def Ctx.abortLane (cause fkind : Nat) (va : W64) (c : Ctx) (i : Nat) : Ctx :=
  { c with txrec := SMap.set 0 c.txrec i (abortWord cause fkind (c.txWord i))
           txlogs := SMap.del c.txlogs i
           txAddr := if cause = 7 then SMap.put c.txAddr i va else SMap.del c.txAddr i
           doomed := c.doomed ||| oneLane i }
/-- Abort every open lane of a mask with one cause. -/
def Ctx.abortLanes (cause : Nat) (m : Mask) (c : Ctx) : Ctx :=
  ((maskLanes m).filter c.openLane).foldl (fun c i => c.abortLane cause 0 0 i) c
/-- The current context aborts open lanes; an aborting holder releases the token (R280). -/
def State.abortOpen (s : State) (cause : Nat) (m : Mask) : State :=
  if !s.cur.txg then s
  else
    let hold := s.cur.txHold && m.getLsbD s.cur.txLane && s.cur.openLane s.cur.txLane
    let s := s.updCur (Ctx.abortLanes cause m)
    if hold then (s.releaseToken s.cur.id).updCur fun c => { c with txHold := false, txLane := 0 } else s

/-- Table 05-7. A trap's code stands in CODE, and in the DETAIL of a ring record only (16 R308; assumption 21). -/
def causeWord (e : FaultEv) : W64 :=
  BitVec.ofNat 64 (e.kind % 256 + (if e.kind = 15 then 0 else e.detail) % 256 * 2 ^ 8 + e.lane % 256 * 2 ^ 16 + e.count % 512 * 2 ^ 24 + e.spoff.toNat * 2 ^ 33 +
    e.code % 64 * 2 ^ 34)

/-- R136: enter the supervisor handler: the pc, `em`, the loop state, the cause and the lanes' addresses are saved; the mode
becomes S and the pc `SV_VEC`. -/
def State.enterHandler (s : State) (vec : W64) (e : FaultEv) : State :=
  s.updCur fun c =>
    { c with epc := e.pc, savedEm := c.em, savedLoop := c.loop, savedRecipe := c.recipe, recipe := none, cause := causeWord e, fltAddrs := e.addrs,
             em := (e.em).getD c.em, smode := true, smCount := 0, loop := none, pc := evenPc vec, park := none, reissue := false,
             addrOff := 0, slotLen := 0, stepped := false, event := none, answers := [], probe := 0 }

/-- R136, R137, R231, R308: take a fault event or a trap in the current context. In a sequencer stream the context stops with
one record; in S mode, or where `SV_VEC` is 0, the launch ends with one record; else the handler is entered, with a record
unless the event is a trap. The entry behaves as marked (R15): the caller settles first. -/
def State.takeFault (s : State) (e : FaultEv) : State :=
  let c := s.cur
  let tag := (s.launch c.launch).tag
  match c.kind with
  | .none => s
  | .seq _ => ((s.raiseRecord tag (s.eventRecord c e false false)).updCur fun c => { c with ended := true, park := none }).reapCtx c.id
  | .group =>
    let vec := (s.part tag).svVec
    if c.smode then
      (s.raiseRecord tag (s.eventRecord c e true false)).endLaunch c.launch
    else if vec = 0 then (s.raiseRecord tag (s.eventRecord c e false false)).endLaunch c.launch
    else
      let s := if e.kind = kTrap then s else s.raiseRecord tag (s.eventRecord c e false true)
      s.enterHandler vec e

/-- The slot and pass after this one, with its address; none after the last pass (02 R70). -/
def LoopState.next (l : LoopState) : W64 × Option LoopState :=
  let n := l.addrs.length - 1
  if l.slot + 1 < n then (l.addrs.getD (l.slot + 1) 0, some { l with slot := l.slot + 1 })
  else if l.pass + 1 = l.count then (l.addrs.getD n 0, none)
  else (l.addrs.getD 0 0, some { l with pass := l.pass + 1, slot := 0 })

/-- The loop state that goes with a program counter: the slot at that address in the same pass (02 R73), the next pass for the
address after the body, and none elsewhere (assumption 13). -/
def LoopState.at_ (l : LoopState) (pc : W64) : Option LoopState × W64 :=
  let n := l.addrs.length - 1
  if l.addrs.getD l.slot 0 = pc then (some l, pc)
  else match (List.range n).find? fun j => l.addrs.getD j 0 == pc with
    | some j => (some { l with slot := j }, pc)
    | none =>
      if l.addrs.getD n 0 = pc then
        let r := ({ l with slot := n - 1 } : LoopState).next
        (r.2, r.1)
      else (none, pc)

/-- R77, R137: return to U mode at `SV_EPC` with `em` and the loop state saved at entry. -/
def State.leaveHandler (s : State) : State :=
  s.updCur fun c =>
    let r : Option LoopState × W64 := match c.savedLoop with
      | some l => if c.savedRecipe.isSome then (some l, c.epc) else l.at_ c.epc
      | none => (none, c.epc)
    { c with pc := r.2, em := c.savedEm, loop := r.1, recipe := c.savedRecipe, smode := false, smCount := 0 }

/-- An event of the whole group at the current instruction (R9, R27, R308): the lowest lane whose `em` bit is 1 stands for it,
and for a kind other than ILLEGAL and PRIV the handler's `em` is that lane (assumption 14). -/
def State.groupEvent (s : State) (kind detail : Nat) (addr : W64) : FaultEv :=
  let lane := (lowestLane s.cur.em).getD 0
  { kind := kind, detail := detail, lane := lane, count := 0, pc := s.cur.pc, rpc := s.cur.pc,
    addrs := if addr = 0 then [] else [(lane, addr)],
    em := if kind = kIllegal || kind = kPriv then none else some (oneLane lane) }

end Sys2Proof.Machine
end

