-- ==== Sys2Proof/Machine/Operands.lean ====
section
/-!
DEFINITION. The issue of one instruction of the current context: the checks of 01 R25 and 02 R71, the fate of a transaction's
lanes (14 R285), the yield watchdog (16 R307), the counters (19 R348), the effect, and what follows it: the next address or
slot (02 R70), the settle (01 R15), an exception (05 R136) or a park (18 R341). Then the operand forms of lane instructions.
-/

namespace Sys2Proof.Machine

/-- What the issue of an instruction knows of it besides its effect. -/
structure Meta where
  /-- S, the settle marker -/
  settle : Bool
  /-- Table 02-1 -/
  cls : Nat := 0
  /-- bytes of the word -/
  len : Nat := 4
  /-- Table 01-7 accepts it in a sequencer stream -/
  seq : Bool := false
  /-- a field the word does not use is nonzero (R13) -/
  unused : Bool := false
  /-- PG of an X form, which a sequencer stream needs to be 0 (Table 01-3) -/
  pg : BitVec 3 := 0
  /-- one above the highest vector register and the highest uniform register it uses (R13) -/
  vEnd : Nat := 0
  sEnd : Nat := 0
  /-- U mode takes PRIV (R25) -/
  priv : Bool := false
  /-- a further ILLEGAL detail that the state gives the instruction -/
  extra : Option Nat := none
  /-- Table 14-5: open lanes abort with INSN first -/
  insn : Bool := false
  /-- R303 -/
  nonreplay : Bool := false
  /-- R302 -/
  recipe : Bool := false
  /-- the guard, and the vector and uniform registers read (R311) -/
  guard : BitVec 3 := 0
  vs : List Nat := []
  ss : List Nat := []

/-- How an instruction's effect ends. -/
inductive Eff where
  /-- performed; the next instruction follows -/
  | done (s : State)
  /-- performed; control passes to an even address -/
  | goto (s : State) (target : W64)
  /-- performed; a loop body starts -/
  | loop (s : State) (l : LoopState)
  /-- an event, with the state it is raised in -/
  | event (s : State) (e : FaultEv)
  /-- no effect yet: the context parks at the instruction -/
  | wait (s : State) (p : Park)
  /-- the context has ended or has been moved: nothing follows -/
  | ended (s : State)

/-! ## Checks before the effect -/

/-- R13: the end of the vector registers the context may name; a sequencer has none, and only the field's own end applies. -/
def Ctx.vLimit (c : Ctx) : Nat := match c.kind with
  | .group => min c.valloc 64
  | _ => 64
/-- The kind is a sequencer context. -/
def Ctx.isSeq (c : Ctx) : Bool := match c.kind with
  | .seq _ => true
  | _ => false
def Ctx.isGroup (c : Ctx) : Bool := c.kind == .group

/-- R25, R302, R308: why the current context may not execute the word: fault kind and detail. -/
def State.illegal (s : State) (m : Meta) : Option (Nat × Nat) :=
  let c := s.cur
  if c.recipe.isSome && !m.recipe then some (kIllegal, 4)
  else if m.unused || (c.isSeq && m.pg ≠ 0) then some (kIllegal, 1)
  else if c.vLimit < m.vEnd || 64 < m.sEnd then some (kIllegal, 2)
  else if c.isSeq && !m.seq then some (kIllegal, 5)
  else if !c.smode && m.priv then some (kPriv, 0)
  else m.extra.map fun d => (kIllegal, d)

/-- R307, R137: the deadline allows no further instruction. A repeated issue after a park is not a further one. -/
def Ctx.overdue (c : Ctx) : Bool :=
  c.isGroup && !c.reissue && (if c.smode then decide (4096 ≤ c.smCount) else c.recipe.isNone && decide (c.deadline ≤ c.issued))

/-- R344: the arbiter's window after an issue of a class. -/
def Core.window (k : Core) (cls : Nat) : Core :=
  if k.winClass = cls && 0 < k.winCount && k.winCount < 32 then { k with winCount := k.winCount + 1 }
  else { k with winClass := cls, winCount := 1 }

def bumpCls (c : Ctx) : Nat → Ctx
  | 0 => { c with cls0 := c.cls0 + 1 }
  | 1 => { c with cls1 := c.cls1 + 1 }
  | 2 => { c with cls2 := c.cls2 + 1 }
  | _ => { c with cls3 := c.cls3 + 1 }

/-- R356: count activity events of a kind for a VF (`none`: the partition alone). -/
def Tile.count (t : Tile) (vf : Option Nat) (kind n : Nat) : Tile :=
  let k := (match vf with | some v => v + 1 | none => 0) * 32 + kind
  { t with counts := SMap.set 0 t.counts k (SMap.get 0 t.counts k + n) }

/-- R307, R321, R343, R348, R356: the counters of an issue. A repeated issue after a park is none. -/
def State.charge (s : State) (m : Meta) : State :=
  let c := s.cur
  let s := { s with oracle := s.oracle + 1 }
  if c.reissue then s.updCur fun c => { c with reissue := false }
  else
    let k := s.core c.core
    let s := s.updCur fun c =>
      let c := bumpCls c m.cls
      { c with
        icnt := if c.smode then c.icnt else c.icnt + 1
        smCount := if c.smode then c.smCount + 1 else c.smCount
        issued := if c.smode || c.recipe.isSome then c.issued else c.issued + 1
        age := k.cyc.toNat + 1 }
    let k := if c.isSeq then k else k.window m.cls
    let v := (s.launch c.launch).vf
    let s := s.setCore c.core { k with stages := k.stages ++ [⟨c.id, m.cls, 4, c.isSeq⟩], issuedTick := if k.issuedTick.contains v then k.issuedTick else k.issuedTick ++ [v] }
    s.updTile (tileOfCore c.core) fun t => t.count (some (s.launch c.launch).vf) (4 * k.setpt + m.cls) 1

/-- R311: a source element is poisoned. -/
def State.poisoned (s : State) (m : Meta) : Bool :=
  (m.ss.any fun r => s.cur.poisonS.getLsbD r) ||
  (!s.cur.poisonV.isEmpty && m.vs.any fun r => (SMap.get 0 s.cur.poisonV r &&& (s.cur.em &&& s.readP m.guard.toNat)) != 0)
/-- R309, R311: the event of poisoned registers: its failing lanes are those that read a poisoned element; a poisoned uniform register is read by
every active lane (assumption 56). -/
def State.regPoison (s : State) (bad : Mask) : FaultEv :=
  let l := maskLanes bad
  { s.groupEvent kPoison 0 0 with lane := l.headD ((lowestLane s.cur.em).getD 0), count := l.length, em := if l.isEmpty then some 0 else some bad }
/-- The active lanes that read a poisoned source. -/
def State.poisonMask (s : State) (m : Meta) : Mask :=
  (s.cur.em &&& s.readP m.guard.toNat) &&&
    (if m.ss.any fun r => s.cur.poisonS.getLsbD r then allLanes else m.vs.foldl (fun a r => a ||| SMap.get 0 s.cur.poisonV r) 0)

/-! ## After the effect -/

/-- Clear what belongs to one issue. -/
def State.clearIssue (s : State) : State :=
  s.updCur fun c => { c with addrOff := 0, slotLen := 0, stepped := false, answers := [], probe := 0, woken := 0 }

/-- A number in the context's flashback slot (Table 16-1). -/
def State.slotNum (s : State) (c : Ctx) (off n : Nat) : Nat := s.readNum ⟨1, c.core * 2 ^ 21 + c.fbbase + off⟩ n

/-- R302, R305: the end of a recipe run: `em`, the program counter and the deadline from the slot, and a settle. -/
def State.endRecipe (s : State) : State :=
  let c := s.cur
  (s.updCur fun k => { k with
    recipe := none
    em := BitVec.ofNat 256 (s.slotNum c 0x2050 32)
    pc := evenPc (BitVec.ofNat 64 (s.slotNum c 0x2040 8))
    deadline := s.slotNum c 0x2168 4
    issued := 0 }).settle

/-- The next address: after the word, in the recipe, in the loop body (02 R70). -/
def State.advance (s : State) (len : Nat) : State :=
  let c := s.cur
  let pc := c.pc + BitVec.ofNat 64 len
  match c.recipe with
  | some stop => if stop.toNat ≤ pc.toNat then s.endRecipe else s.updCur fun c => { c with pc := pc }
  | none =>
    match c.loop with
    | none => s.updCur fun c => { c with pc := pc }
    | some l => s.updCur fun c => { c with pc := l.next.1, loop := l.next.2 }

/-- R15, R136: an event waits for the settle when it enters the handler. -/
def State.raise (s : State) (e : FaultEv) : State :=
  let s := s.clearIssue
  let enters : Bool := s.cur.isGroup && !s.cur.smode && (s.part (s.launch s.cur.launch).tag).svVec != 0
  if enters && !s.cur.settled then s.updCur fun c => { c with park := some .settle, event := some e }
  else (if enters then s.settle else s).takeFault e

/-- End the launch of the current context with one record, which never reaches a handler (16 R307, R308). -/
def State.endWith (s : State) (kind detail : Nat) : State :=
  let c := s.cur
  (s.raiseRecord (s.launch c.launch).tag (s.eventRecord c (s.groupEvent kind detail 0) c.smode false)).endLaunch c.launch
/-- R307: the launch ends with YIELDOVER. -/
def State.endOver (s : State) : State := s.endWith kYieldover 0

/-- What follows an effect. -/
def Eff.close (m : Meta) : Eff → State
  | .done s =>
    let len := if s.cur.slotLen = 0 then m.len else s.cur.slotLen
    let s := (s.clearIssue).updCur fun c => { c with dirty := c.dirty || m.nonreplay, park := none }
    let s := s.advance len
    if m.settle then s.settle else s
  | .goto s t =>
    let s := (s.clearIssue).updCur fun c => { c with pc := t, loop := none }
    if m.settle then s.settle else s
  | .loop s l =>
    let s := (s.clearIssue).updCur fun c => { c with pc := l.addrs.getD 0 0, loop := some l }
    if m.settle then s.settle else s
  | .event s e => (s.updCur fun c => { c with dirty := c.dirty || m.nonreplay }).raise e
  | .wait s p =>
    { s with
      nextId := s.nextId + 1
      cur := { s.cur with park := some p, reissue := true, addrOff := 0, slotLen := 0, stepped := false, woken := 0,
                          parkSeq := s.nextId } }
  | .ended s => s

/-- R25, R285, R343: a word that faults has no effect and is not counted; it occupies one class-0 cycle, counts as class 0 for the arbiter, and open
lanes abort with INSN first. -/
def State.beforeFault (s : State) : State :=
  let s := s.updCore s.cur.core fun k =>
    { (if s.cur.isSeq then k else k.window 0) with stages := k.stages ++ [⟨0, 0, 4, s.cur.isSeq⟩] }
  (({ s with oracle := s.oracle + 1 }).abortOpen 10 allLanes).updCur fun c => { c with reissue := false, age := (s.core c.core).cyc.toNat + 1 }

/-- R71: a stepped operand that breaks R13 or leaves its range ends the loop; `eret` continues after the body. -/
def State.loopFault (s : State) (detail : Nat) : State :=
  let stop := match s.cur.loop with
    | some l => l.addrs.getD (l.addrs.length - 1) 0
    | none => s.cur.pc
  (s.beforeFault.updCur fun c => { c with loop := none }).raise { s.groupEvent kIllegal detail 0 with pc := stop }

/-- R25: the event of a word that faults. -/
def State.faultWord (s : State) (kind detail : Nat) : State :=
  if s.cur.stepped && detail = 2 then s.loopFault 2 else s.beforeFault.raise (s.groupEvent kind detail 0)

/-- One issue of the current context. -/
def State.issueWith (s : State) (m : Meta) (body : State → Eff) : State :=
  match s.illegal m with
  | some (k, d) => s.faultWord k d
  | none =>
    if s.cur.overdue then s.endOver
    else
      let s := s.charge m
      let s := if m.insn then s.abortOpen 10 allLanes else s
      if s.poisoned m then s.raise (s.regPoison (s.poisonMask m))
      else (body s).close m

/-- The meaning of an instruction: refused only when no context holds the issue slot. -/
def issue (m : Meta) (s : State) (body : State → Eff) : Host.Outcome State Fault Refusal :=
  if s.cur.kind = .none then .refused .noContext else .next (s.issueWith m body)

/-- R15: run what needs every result written; else park and issue again. -/
def whenSettled (s : State) (k : State → Eff) : Eff :=
  if s.cur.settled then k s.settle else .wait s .settle

/-! ## Lane operand forms (02 R40) -/

/-- R6: ACTIVE: the lanes whose `em` bit and guard bit are 1. -/
def State.act (s : State) (g : BitVec 3) : Mask := s.cur.em &&& s.readP g.toNat

/-- The flags of the lanes of a mask together (R43). -/
def flagsOf (m : Mask) (f : Nat → FFlags) : FFlags := (maskLanes m).foldl (fun a i => a ||| f i) 0

/-- Meta of a lane instruction that reads `vs`, its registers below `vEnd`. -/
def laneMeta (s : Bool) (g : BitVec 3) (cls vEnd : Nat) (vs : List Nat) : Meta :=
  { settle := s, cls := cls, vEnd := vEnd, guard := g, vs := vs, recipe := true }

/-- One above the highest of some registers. -/
def topReg (l : List Nat) : Nat := l.foldl (fun a r => max a (r + 1)) 0

/-- d := f a b in the active lanes. -/
def lane2 (sm : Bool) (g : BitVec 3) (cls : Nat) (d a b : BitVec 6) (f : W32 → W32 → W32) (st : State) :
    Host.Outcome State Fault Refusal :=
  issue (laneMeta sm g cls (topReg [d.toNat, a.toNat, b.toNat]) [a.toNat, b.toNat]) st fun s =>
    let va := s.readV a.toNat
    let vb := s.readV b.toNat
    .done (s.writeV d.toNat (s.act g) (ofLanes fun i => f (laneOf va i) (laneOf vb i)))

/-- d := f d a b in the active lanes. -/
def lane3 (sm : Bool) (g : BitVec 3) (cls : Nat) (d a b : BitVec 6) (f : W32 → W32 → W32 → W32) (st : State) :
    Host.Outcome State Fault Refusal :=
  issue (laneMeta sm g cls (topReg [d.toNat, a.toNat, b.toNat]) [d.toNat, a.toNat, b.toNat]) st fun s =>
    let va := s.readV a.toNat
    let vb := s.readV b.toNat
    let vd := s.readV d.toNat
    .done (s.writeV d.toNat (s.act g) (ofLanes fun i => f (laneOf vd i) (laneOf va i) (laneOf vb i)))

/-- d := f a in the active lanes. -/
def lane1 (sm : Bool) (g : BitVec 3) (cls : Nat) (d a : BitVec 6) (f : W32 → W32) (st : State) :
    Host.Outcome State Fault Refusal :=
  issue (laneMeta sm g cls (topReg [d.toNat, a.toNat]) [a.toNat]) st fun s =>
    let va := s.readV a.toNat
    .done (s.writeV d.toNat (s.act g) (ofLanes fun i => f (laneOf va i)))

/-- d := f d in the active lanes (format I). -/
def laneImm (sm : Bool) (g : BitVec 3) (d : BitVec 6) (reads : Bool) (f : W32 → W32) (st : State) :
    Host.Outcome State Fault Refusal :=
  issue (laneMeta sm g 0 (topReg [d.toNat]) (if reads then [d.toNat] else [])) st fun s =>
    let vd := s.readV d.toNat
    .done (s.writeV d.toNat (s.act g) (ofLanes fun i => f (laneOf vd i)))

/-- d := f a b with flags, immediate (R16, R43). -/
def float2 (sm : Bool) (g : BitVec 3) (cls : Nat) (d a b : BitVec 6) (f : W32 → W32 → FRes) (st : State) :
    Host.Outcome State Fault Refusal :=
  issue (laneMeta sm g cls (topReg [d.toNat, a.toNat, b.toNat]) [a.toNat, b.toNat]) st fun s =>
    let va := s.readV a.toNat
    let vb := s.readV b.toNat
    let m := s.act g
    let r := fun i => if m.getLsbD i then f (laneOf va i) (laneOf vb i) else ⟨0, 0⟩
    .done ((s.writeV d.toNat m (ofLanes fun i => (r i).v)).orFlags (flagsOf m fun i => (r i).fl))

/-- d := f d a b with flags. -/
def float3 (sm : Bool) (g : BitVec 3) (cls : Nat) (d a b : BitVec 6) (f : W32 → W32 → W32 → FRes) (st : State) :
    Host.Outcome State Fault Refusal :=
  issue (laneMeta sm g cls (topReg [d.toNat, a.toNat, b.toNat]) [d.toNat, a.toNat, b.toNat]) st fun s =>
    let va := s.readV a.toNat
    let vb := s.readV b.toNat
    let vd := s.readV d.toNat
    let m := s.act g
    let r := fun i => if m.getLsbD i then f (laneOf vd i) (laneOf va i) (laneOf vb i) else ⟨0, 0⟩
    .done ((s.writeV d.toNat m (ofLanes fun i => (r i).v)).orFlags (flagsOf m fun i => (r i).fl))

/-- d := f a with flags. -/
def float1 (sm : Bool) (g : BitVec 3) (cls : Nat) (d a : BitVec 6) (f : W32 → FRes) (st : State) :
    Host.Outcome State Fault Refusal :=
  issue (laneMeta sm g cls (topReg [d.toNat, a.toNat]) [a.toNat]) st fun s =>
    let va := s.readV a.toNat
    let m := s.act g
    let r := fun i => if m.getLsbD i then f (laneOf va i) else ⟨0, 0⟩
    .done ((s.writeV d.toNat m (ofLanes fun i => (r i).v)).orFlags (flagsOf m fun i => (r i).fl))

/-- The steps after which a class-2 or class-3 result, `srd` or `clkq` is written (17 R321). -/
def e4Steps : Nat := 4

/-- d := f a b, a deferred result of class 2 or 3. -/
def slow2 (sm : Bool) (g : BitVec 3) (cls : Nat) (d a b : BitVec 6) (f : W32 → W32 → FRes) (st : State) :
    Host.Outcome State Fault Refusal :=
  issue (laneMeta sm g cls (topReg [d.toNat, a.toNat, b.toNat]) [a.toNat, b.toNat]) st fun s =>
    let va := s.readV a.toNat
    let vb := s.readV b.toNat
    let m := s.act g
    let r := fun i => if m.getLsbD i then f (laneOf va i) (laneOf vb i) else ⟨0, 0⟩
    .done (s.defer [.vec d.toNat m (ofLanes fun i => (r i).v) 0] (flagsOf m fun i => (r i).fl) e4Steps true)

/-- d := f a, a deferred result of class 2 or 3. -/
def slow1 (sm : Bool) (g : BitVec 3) (cls : Nat) (d a : BitVec 6) (f : W32 → FRes) (st : State) :
    Host.Outcome State Fault Refusal :=
  issue (laneMeta sm g cls (topReg [d.toNat, a.toNat]) [a.toNat]) st fun s =>
    let va := s.readV a.toNat
    let m := s.act g
    let r := fun i => if m.getLsbD i then f (laneOf va i) else ⟨0, 0⟩
    .done (s.defer [.vec d.toNat m (ofLanes fun i => (r i).v) 0] (flagsOf m fun i => (r i).fl) e4Steps true)

/-- pd := f a b, a compare of vectors with flags (R56). -/
def compare2 (sm : Bool) (g : BitVec 3) (d : BitVec 3) (a b : BitVec 6) (f : W32 → W32 → Bool × FFlags) (st : State) :
    Host.Outcome State Fault Refusal :=
  issue (laneMeta sm g 0 (topReg [a.toNat, b.toNat]) [a.toNat, b.toNat]) st fun s =>
    let va := s.readV a.toNat
    let vb := s.readV b.toNat
    let m := s.act g
    let r := fun i => if m.getLsbD i then f (laneOf va i) (laneOf vb i) else (false, 0)
    .done ((s.writeP d.toNat m (ofBits fun i => (r i).1)).orFlags (flagsOf m fun i => (r i).2))

/-- pd := f pa pb (R57). -/
def pred2 (sm : Bool) (g : BitVec 3) (d a b : BitVec 3) (f : Mask → Mask → Mask) (st : State) :
    Host.Outcome State Fault Refusal :=
  issue (laneMeta sm g 0 0 []) st fun s =>
    .done (s.writeP d.toNat (s.act g) (f (s.readP a.toNat) (s.readP b.toNat)))

/-! ## Uniform operand forms (02 R63) -/

/-- Meta of a uniform instruction. -/
def uniMeta (s : Bool) (cls : Nat) (ss : List Nat) : Meta := { settle := s, cls := cls, seq := true, recipe := true, ss := ss }

/-- sd := f a b, immediate. -/
def uni2 (sm : Bool) (cls : Nat) (d a b : BitVec 6) (f : W64 → W64 → W64) (st : State) : Host.Outcome State Fault Refusal :=
  issue (uniMeta sm cls [a.toNat, b.toNat]) st fun s =>
    .done (s.writeS d.toNat (f (s.readS a.toNat) (s.readS b.toNat)))

/-- sd := f a b, a deferred result of class 2 or 3. -/
def uniSlow (sm : Bool) (cls : Nat) (d a b : BitVec 6) (f : W64 → W64 → W64) (st : State) : Host.Outcome State Fault Refusal :=
  issue (uniMeta sm cls [a.toNat, b.toNat]) st fun s =>
    .done (s.defer [.uni d.toNat (f (s.readS a.toNat) (s.readS b.toNat)) false] 0 e4Steps true)

/-- R14: the leader lane of an X form in a group, and whether the operation is issued; a sequencer issues for itself. -/
def State.leader (s : State) (g : BitVec 3) : Option Nat :=
  if s.cur.isSeq then some 0 else lowestLane (s.act g)

end Sys2Proof.Machine
end

