-- ==== Sys2Proof/Machine/Fabric.lean ====
section
/-!
DEFINITION. What a packet does where it arrives: barrier objects (07 R175–R178), indivisible updates (03 R90, R93), what
a packet for another device becomes (22 R394, R401), the delivery check and its drop record (05 R130–R132), the locks of commits (16 R297)
and the order of an agent's packets (09 R197).
-/

namespace Sys2Proof.Machine

/-! ## Barrier objects (07 R175, R176) -/

/-- The place of a barrier object's header, and of a phase slot. -/
def barSlotLoc (obj : Loc) (k : Nat) : Loc := ⟨obj.tt, obj.addr + 8 + 6 * (k % 4)⟩
def State.barHeader (s : State) (obj : Loc) : Nat := s.readNum obj 8
def barValid (h : Nat) : Bool := h.testBit 63
def barMode (h : Nat) : Nat := field h 21 20
def barBase (h : Nat) : Nat := field h 55 24
/-- `ARRIVED` and `BALANCE` of phase p's slot. -/
def State.barSlot (s : State) (obj : Loc) (p : Nat) : Nat × Int :=
  let n := s.readNum (barSlotLoc obj p) 6
  (field n 19 0, signedNat 28 (field n 47 20))
/-- Table 07-7: the counts saturate. -/
def satArrived (n : Nat) : Nat := min n 0xFFFFF
def satBalance (b : Int) : Int := max (-(2 ^ 27)) (min (2 ^ 27 - 1) b)
def State.setBarSlot (s : State) (obj : Loc) (p arrived : Nat) (bal : Int) : State :=
  s.writeNum (barSlotLoc obj p) 6 (satArrived arrived + (bal % 2 ^ 28).toNat * 2 ^ 20)

/-- R176: a phase is open, late or beyond. -/
inductive Phase where
  | isOpen
  | late
  | beyond
  deriving DecidableEq, Repr

def phaseOf (h p : Nat) : Phase :=
  let d := (p + 2 ^ 32 - barBase h) % 2 ^ 32
  if d < 4 then .isOpen else if 2 ^ 31 ≤ d then .late else .beyond

/-- R342: the contexts parked on a phase of an object, earliest first. -/
def State.parkedOn (s : State) (obj : Loc) (p : Nat) : List Ctx :=
  let l := s.allCtxs.filter fun c => match c.park with
    | some (.barrier o q) => o == obj && q == p
    | some (.barrierTimed o q _) => o == obj && q == p
    | _ => false
  (sortNat (l.map fun c => c.parkSeq)).filterMap fun n => l.find? fun c => c.parkSeq == n

/-- R355: `SLOPE` of a core: the least of `SLOPE_LIM` and the `SLOPE_REQ` of the VFs with a resident block, and `SLOPE_LIM`'s spacing. -/
def State.slopeOf (s : State) (core : Nat) : Nat :=
  let lim := (s.fld (fieldOfTile (tileOfCore core))).slopeLim.toNat
  let reqs := (s.blocks.filter fun b => b.2.core == core && b.2.st == .resident).map fun b => (s.vf (s.launch b.2.launch).vf).slopeReq.toNat
  reqs.foldl min (field lim 7 0) + field lim 23 8 * 2 ^ 8

/-- R342: wake contexts in waves of the size and spacing of the core's `SLOPE`. -/
def State.startWaves (s : State) (core : Nat) (cs : List Ctx) (why : Nat) : State :=
  let k := s.core core
  let size := max 1 (field (s.slopeOf core) 7 0)
  let gap := field (s.slopeOf core) 23 8
  let ws := (List.range cs.length).zip cs |>.map fun x => (⟨x.2.id, k.cyc.toNat + 1 + (x.1 / size) * gap, why⟩ : Wave)
  let s := cs.foldl (fun s c => s.updCtx c.id fun c => { c with park := some .wave }) s
  s.updCore core fun k => { k with waves := k.waves ++ ws }

/-- R176: one completion, if the phase of `BASE` is done. -/
def State.barStep (s : State) (obj : Loc) : Option State :=
  let h := s.barHeader obj
  let base := barBase h
  let sl := s.barSlot obj base
  let arrived : Bool := max (field h 19 0) 1 ≤ sl.1
  if barValid h && arrived && (barMode h == 0 || sl.2 == 0) then
    let s := s.setBarSlot obj base 0 0
    let s := s.writeNum ⟨obj.tt, obj.addr + 3⟩ 4 ((base + 1) % 2 ^ 32)
    some (s.startWaves obj.core (s.parkedOn obj base) 2)
  else none
/-- R176: complete phases until none is done; every phase needs an arrival, so four slots complete at most four times. -/
def State.barRun (s : State) (obj : Loc) : State :=
  iterate (fun _ s => (s.barStep obj).getD s) 5 0 s

/-- R177: a delivery of n bytes into a phase. -/
def State.barDeliver (s : State) (obj : Loc) (p n : Nat) : State :=
  let h := s.barHeader obj
  if barValid h && phaseOf h p != .isOpen then s
  else
    let sl := s.barSlot obj p
    (s.setBarSlot obj p sl.1 (satBalance (sl.2 + n))).barRun obj

/-- R176: the barrier unit of a core performs its oldest delivery. -/
def State.serveDelivery (s : State) (core : Nat) : State :=
  match s.deliveries.find? fun d => d.obj.core == core with
  | none => s
  | some d => { s with deliveries := s.deliveries.erase d }.barDeliver d.obj d.phase d.n
/-- R176: every delivery that has arrived at a core's barrier unit is performed before what arrives now. -/
def State.serveDeliveries (s : State) (core : Nat) : State :=
  iterate (fun _ s => s.serveDelivery core) (s.deliveries.filter fun d => d.obj.core == core).length 0 s

/-! ## Read-modify-writes (03 Table 03-3) -/

inductive Rmw where
  | add | minI | maxI | minN | maxN | and | or | xor | exch | cas | fadd
  deriving DecidableEq, Repr

/-- new := combine(old, v) over w bytes; `cmp` is the compare value of `cas`. -/
def Rmw.apply (op : Rmw) (w old v cmp : Nat) : Nat :=
  let b := 8 * w
  match op with
  | .add => (old + v) % 2 ^ b
  | .minI => if signedNat b v < signedNat b old then v else old
  | .maxI => if signedNat b old < signedNat b v then v else old
  | .minN => min old v
  | .maxN => max old v
  | .and => old &&& v
  | .or => old ||| v
  | .xor => old ^^^ v
  | .exch => v
  | .cas => if old = cmp then v else old
  | .fadd => (fadd32 (BitVec.ofNat 32 old) (BitVec.ofNat 32 v)).v.toNat

/-- R93: the operation and width of a `red` FN. -/
def redOp : Nat → Rmw × Nat
  | 0 => (.add, 4)
  | 1 => (.minI, 4)
  | 2 => (.maxI, 4)
  | 3 => (.and, 4)
  | 4 => (.or, 4)
  | 5 => (.xor, 4)
  | 6 => (.fadd, 4)
  | _ => (.add, 8)

/-- R89: update the copies a core's L1 holds of the bytes it has stored. -/
def State.l1Store (s : State) (core : Nat) (cells : List (Loc × Byte)) : State :=
  let k := s.core core
  if k.l1.isEmpty then s
  else
    let l1 := cells.foldl (fun (m : SMap (BitVec 1024)) c =>
      if c.1.tt = 0 then
        match SMap.find m (c.1.addr / 128) with
        | some v => SMap.put m (c.1.addr / 128) (putByte v (c.1.addr % 128) c.2)
        | none => m
      else m) k.l1
    s.setCore core { k with l1 := l1 }

/-- One read-modify-write at its place (R91), by an agent of `core`: the old value and the state after. -/
def State.rmwAt (s : State) (core : Nat) (l : Loc) (op : Rmw) (w v cmp : Nat) : Nat × State :=
  let old := s.readNum l w
  let bs := natBytes w (op.apply w old v cmp)
  let cells := cellsFrom l bs
  (old, ((s.writeAll cells).l1Store core cells).forwardWrites cells)

/-- R399, R400: a TT 6 access that is dropped here: the home entry's check fails or the device is lost. -/
def State.lost6 (s : State) (l : Loc) (tag : Nat) (write : Bool) : Bool := match s.remote l tag write with
  | .dropped => true
  | _ => false
/-- R130: an access is delivered; an exported page's accesses have passed its entry's check. -/
def State.reaches (s : State) (src : Agent) (x : Xlat) : Bool := x.via != 0 || s.delivers src x.loc

/-! ## Drops (05 R131) -/

/-- What crosses to a destination (Table 05-6). -/
inductive Cross where
  | store | read | atomic | counted | sync | chunk | hostWrite | hostRead | slice | dispatch
  deriving DecidableEq, Repr

/-- Table 05-6. -/
def dropKind (tt : Nat) : Cross → Nat
  | .counted => 11
  | .chunk => 12
  | .hostWrite => 13
  | .hostRead => 14
  | .sync => 23
  | .slice => 9
  | .dispatch => 10
  | .store => match tt with | 0 => 0 | 1 => 3 | 2 => 6 | 3 => 7 | 4 => 8 | 5 => 20 | _ => 16
  | .read => match tt with | 0 => 1 | 1 => 4 | 2 => 6 | 3 => 7 | 4 => 19 | 5 => 21 | _ => 17
  | .atomic => match tt with | 0 => 2 | 5 => 22 | 6 => 18 | _ => 5

/-- Saturating counter (R133). -/
def satInc (n : W64) : W64 := if n = BitVec.allOnes 64 then n else n + 1

/-- R131: drop a packet or request: the drop record, `DROPS_SEEN` and the negative acknowledgement. -/
def State.dropAt (s : State) (src : Agent) (x : Cross) (l : Loc) (seq bytes : Nat) (va pc job : W64) (extent : Nat) : State :=
  let kind := dropKind l.tt x
  let host : Bool := 20 ≤ kind && kind ≤ 22
  let own := s.ownerAt l
  let tag := if host then (match s.carrier src.tag (src.lq / 8) (l.addr / 2 ^ 57) with | some _ => src.tag | none => 0)
    else if own.2 then 0 else own.1
  let st := if src.unit = 2 then src.core else tileOfCore src.core
  let srcBits :=
    if l.tt = 6 && src.unit ≠ 3 then s.module.devId + 3 * 2 ^ 14
    else if src.unit = 3 then src.core + 3 * 2 ^ 14
    else tileX st + tileY st * 2 ^ 5 + (if src.unit ≤ 1 then slotOfCore src.core else 0) * 2 ^ 10 + src.unit * 2 ^ 14
  let dstBits :=
    if host then l.addr / 2 ^ 57
    else if l.tt = 0 then l.addr / 2 ^ 36 + 2 * 2 ^ 14
    else if l.tt = 6 then 0
    else
      let t := tileOfCore l.core
      tileX t + tileY t * 2 ^ 5 + (match x with | .slice => 2 ^ 14 | .dispatch => 3 * 2 ^ 14 | _ => slotOfCore l.core * 2 ^ 10)
  let offset := match l.tt with
    | 0 => l.addr % 2 ^ 36
    | 1 => l.addr % 2 ^ 21
    | 2 | 4 => l.addr % 2 ^ 22
    | 3 => l.addr % 2 ^ 20
    | _ => l.addr % 2 ^ 57
  let r := srcBits + dstBits * 2 ^ 16 + src.tag % 128 * 2 ^ 32 + tag % 128 * 2 ^ 40 + kind * 2 ^ 48 + offset * 2 ^ 64 +
    seq % 2 ^ 32 * 2 ^ 128 + bytes % 2 ^ 16 * 2 ^ 160 + (if src.unit ≤ 1 && l.tt ≠ 6 then src.lq else 0) % 2 ^ 12 * 2 ^ 176 +
    s.module.domeTimer.toNat * 2 ^ 192
  let s := { s with drops := s.drops ++ [⟨BitVec.ofNat 256 r⟩] }
  let s := if host || own.2 || own.1 = 0 || l.tt = 6 then s else s.updPart own.1 fun p => { p with dropsSeen := satInc p.dropsSeen }
  if src.unit = 3 then s
  else
    let c := s.ctx? src.ctx
    let b := match c with | some c => (s.block c.block).b | none => 0
    let lg := match c with | some c => c.lg | none => 0
    let sq : Option Nat := match c with | some c => (match c.kind with | .seq n => some n | _ => none) | none => none
    { s with nacks := s.nacks ++ [⟨src, seq, va, pc, bytes, job, extent, b, lg, sq⟩] }

/-! ## Packets -/

/-- The lines of a packet that a lock may hold (16 R295). -/
def Packet.lines (p : Packet) : List Nat :=
  let ws := p.writes.map Prod.fst ++ (match p.op with | .reduce _ parts => parts.map Prod.fst | _ => [])
  dedup ((ws.filter fun l => l.tt == 0).map fun l => l.addr / 128)
/-- R297: a line of the packet is locked. -/
def State.lineLocked (s : State) (line : Nat) : Bool := (SMap.find s.locks line).isSome
def State.packetLocked (s : State) (p : Packet) : Bool := !s.locks.isEmpty && p.lines.any s.lineLocked
/-- The places a packet writes. -/
def Packet.places (p : Packet) : List Loc :=
  p.writes.map Prod.fst ++ (match p.op with
    | .reduce fn parts => parts.flatMap (fun x => (List.range (redOp fn).2).map (fun i => ⟨x.1.tt, x.1.addr + i⟩))
    | _ => [])
/-- R84, R204: two packets of one agent whose order is kept: they meet in a byte, or go to host memory through one port. -/
def Packet.meets (p q : Packet) : Bool :=
  (p.places.any fun l => q.places.contains l) ||
  (match p.places.head?, q.places.head? with
    | some a, some b => a.tt == 5 && b.tt == 5 && a.addr / 2 ^ 57 == b.addr / 2 ^ 57
    | _, _ => false)
/-- R197: nothing of the agent that must be performed first is still in flight. -/
def State.mayArrive (s : State) (p : Packet) : Bool :=
  !(s.packets.any fun q => q.id < p.id && q.src.ctx == p.src.ctx && q.src.unit == p.src.unit &&
    (q.id < p.after || q.meets p))

def Packet.cross (p : Packet) : Cross := match p.op with
  | .store => .store
  | .reduce _ _ => .atomic
  | .counted _ _ => .counted

/-- R177, R178: the object that counts the bytes a `stb` packet wrote: in the allocation of the block that holds them. -/
def State.countedObject (s : State) (l : Loc) (obj : Nat) : Option Loc :=
  let core := l.core
  let off := l.addr % 2 ^ 21
  match s.blocks.find? fun b => b.2.placed && b.2.core == core && b.2.spbase ≤ off && off < b.2.spbase + b.2.spsize with
  | some b => if obj % 32 = 0 && obj + 32 ≤ b.2.spsize then some ⟨1, core * 2 ^ 21 + b.2.spbase + obj⟩ else none
  | none => none

/-- Apply a delivered packet at its place (R85, R92, R178). -/
def State.applyPacket (s : State) (p : Packet) : State :=
  match p.op with
  | .store => (((s.writeAll p.writes).l1Store p.src.core p.writes).clearPoison (p.writes.map Prod.fst)).forwardWrites p.writes
  | .reduce fn parts =>
    let bad (x : Loc × W64) : Bool := s.isPoisoned x.1 || ((redOp fn).2 == 8 && s.isPoisoned ⟨x.1.tt, x.1.addr + 4⟩)
    let n := (parts.filter bad).length
    let t := parts.foldl (fun s x => if bad x then s else (s.rmwAt p.src.core x.1 (redOp fn).1 (redOp fn).2 x.2.toNat 0).2) s
    if n = 0 then t
    else t.updCtx p.src.ctx fun c => { c with late := some { kind := kPoison, count := n, addrs := [(0, p.va)], em := some (oneLane 0) } }
  | .counted obj phase =>
    let s := (s.writeAll p.writes).clearPoison (p.writes.map Prod.fst)
    let objs := p.writes.filterMap fun w => s.countedObject w.1 obj
    { s with deliveries := s.deliveries ++ (dedup (objs.map fun o => o.addr)).map fun a => ⟨⟨1, a⟩, phase, (objs.filter fun o => o.addr == a).length⟩ }

/-- R394, R401: send a packet to the device that holds its page. -/
def State.sendAway (s : State) (p : Packet) (dev : Nat) : Option State :=
  let l := p.first
  match p.op with
  | .reduce fn parts => parts.foldl (fun s? x => match s? with
      | none => none
      | some s => (s.sendOrdering dev 5 p.src.tag s.module.devId fun q => orderingPayload q 0 (targetOf x.1)
          (fn + (if (redOp fn).2 = 8 then 3 else 2) * 16) 0 0 (natBytes (redOp fn).2 x.2.toNat) (2 ^ (redOp fn).2 - 1)).map
            fun s => (s.dropCopies x.1).noteAsk dev 1 p.src.ctx postedLane 2 x.1) (some s)
  | _ =>
    let line := l.addr / 128 * 128
    let data := (List.range 128).map fun i => ((p.writes.filter fun w => w.1.addr == line + i).getLast?.map Prod.snd).getD 0
    let mask := packNat 1 (fun i => if p.writes.any fun w => w.1.addr == line + i then 1 else 0) 128
    (s.sendOrdering dev 1 p.src.tag s.module.devId fun q => orderingPayload q 0 (targetOf ⟨6, line⟩) 0 0 0 data mask).map
      fun s => (s.dropCopies l).noteAsk dev 1 p.src.ctx postedLane 0 l

/-- R130, R297: a packet arrives: it is performed, dropped, sent to another device, or waits. -/
def State.deliver (s : State) (p : Packet) : State :=
  if !s.mayArrive p || s.packetLocked p then s
  else
    let gone : State := { s with packets := s.packets.filter fun q => q.id ≠ p.id }
    let l := p.first
    if l.tt = 6 then
      match s.remote l p.src.tag true with
      | .here h =>
        let move (x : Loc) : Loc := ⟨h.tt, h.addr / 65536 * 65536 + x.addr % 65536⟩
        gone.applyPacket { p with
          writes := p.writes.map fun w => (move w.1, w.2)
          op := match p.op with | .reduce fn parts => .reduce fn (parts.map fun x => (move x.1, x.2)) | o => o }
      | .away d => match gone.sendAway p d with | some t => t | none => s
      | _ => gone.dropAt p.src p.cross l p.seq p.bytes p.va p.pc 0 0
    else if s.delivers p.src l then gone.applyPacket p
    else gone.dropAt p.src p.cross l p.seq p.bytes p.va p.pc 0 0

/-- Deliver, oldest first, the packets in flight that satisfy a test. -/
def State.flush (s : State) (f : Packet → Bool) : State :=
  (s.packets.filter f).foldl (fun s p => s.deliver p) s
/-- The packets of the current context. -/
def State.own (s : State) (p : Packet) : Bool := p.src.ctx == s.cur.id && p.src.unit == 0
/-- R95, R197: perform every earlier access of the current context numbered below n, then go on; wait while a lock or a link
holds one back. -/
def whenPerformed (s : State) (n : Nat) (k : State → Eff) : Eff :=
  let t := s.flush fun p => s.own p && decide (p.id < n)
  if (t.packets.any fun p => t.own p && decide (p.id < n)) || t.asking t.cur.id then .wait t .limit else k t

/-- R200, R203: before what follows a `.sc` fence: everything earlier is performed, at `.sys` at every device that holds a copy. -/
def whenFenced (s : State) (scope : BitVec 2) (k : State → Eff) : Eff :=
  whenPerformed s s.nextId fun t => if scope = 3 && t.forwardsOut then .wait t .limit else k t

/-- R132: the next write sequence of the current launch on the core. -/
def Launch.nextWrite (l : Launch) (core : Nat) : Nat := SMap.get 1 l.wseq core
def Launch.nextRead (l : Launch) (core : Nat) : Nat := SMap.get 1 l.rseq core

/-- R112, R132: inject one packet of the current context. -/
def State.inject (s : State) (op : PacketOp) (writes : List (Loc × Byte)) (va : W64) (bytes : Nat) (release : Bool) (via : Nat := 0) : State :=
  let src := if via = 0 then s.agent else { s.agent with tag := via }
  let l := s.launch s.cur.launch
  let seq := l.nextWrite s.cur.core
  let p : Packet := { id := s.nextId, src := src, kind := 0, seq := seq, va := va, pc := s.cur.pc, bytes := bytes, op := op,
                      writes := writes, after := if release then s.nextId else s.cur.relFence }
  { s.updLaunch s.cur.launch fun l => { l with wseq := SMap.put l.wseq s.cur.core ((seq + 1) % 2 ^ 32) } with
    nextId := s.nextId + 1, packets := s.packets ++ [p] }
/-- R132: the sequence of one read request of the current context. -/
def State.readRequest (s : State) : Nat × State :=
  let seq := (s.launch s.cur.launch).nextRead s.cur.core
  (seq, s.updLaunch s.cur.launch fun l => { l with rseq := SMap.put l.rseq s.cur.core ((seq + 1) % 2 ^ 32) })

end Sys2Proof.Machine
end

