-- ==== Sys2Proof/Machine/Regs.lean ====
section
/-!
DEFINITION. The registers a program reads and writes: system registers by number (01 R23, Table 01-9, and the tables of 05, 06,
13, 14, 16, 19, 21, 22) in the U and S views (00 R5), and the partition's MMIO block through a TT 7 page (Table 21-12).
-/

namespace Sys2Proof.Machine

/-- Table 13-1: `MX_MODE`. -/
def Engine.modeWord (e : Engine) : Nat := e.split.toNat + e.held.toNat * 2 + e.stopped.toNat * 4

/-- R264: the engine registers from `MX_MODE` on; context 1 reads zero in whole mode. -/
def Engine.reg (e : Engine) : Nat → Nat
  | 0x830 => e.modeWord
  | 0x831 => e.progF0.toNat
  | 0x832 => e.progL0.toNat
  | 0x833 => if e.split then e.progF1.toNat else 0
  | 0x834 => if e.split then e.progL1.toNat else 0
  | 0x838 => e.busy0.toNat
  | 0x839 => e.busy1.toNat
  | 0x83A => e.rows0.toNat
  | 0x83B => e.rows1.toNat
  | 0x83C => e.await0.toNat
  | 0x83D => e.await1.toNat
  | _ => 0

/-- Table 16-7. -/
def Part.retireWord (p : Part) (core : Nat → Nat) : Nat :=
  match p.retire with
  | some r => 1 + r.ekind % 4 * 2 + core r.ecore % 2 ^ 14 * 8 + r.enum_ % 2 ^ 32 * 2 ^ 32
  | none => 0

/-- Table 21-6: `KS_BOUND`. -/
def Part.ksBound (p : Part) : Nat := packNat 1 (fun i => if (SMap.find p.keys i).isSome then 1 else 0) 16

/-- Table 14-4: `txc`. -/
def Ctx.txcWord (c : Ctx) : Nat :=
  c.txThresh.toNat + c.txg.toNat * 2 ^ 4 + c.txHold.toNat * 2 ^ 5 + c.txLane % 256 * 2 ^ 6

/-- R75: `fpx` before a settle may include or omit the flags of results in flight. -/
def State.fpxNow (s : State) : FFlags :=
  s.cur.deferred.foldl (fun a d => if s.pick (Nat.pair d.id 40000) then a ||| d.flags else a) s.cur.fpx

/-- The value an `srd` of the current context reads (Table 01-9 and the chapters' tables). -/
def State.sysRead (s : State) (n : Nat) : Nat :=
  let c := s.cur
  let k := s.core c.core
  let l := s.launch c.launch
  let p := s.part l.tag
  let b := s.block c.block
  let t := s.tile (tileOfCore c.core)
  match n with
  | 0x000 => k.cyc.toNat
  | 0x001 => k.span.toNat
  | 0x002 => c.drag.toNat
  | 0x004 => c.cls0.toNat
  | 0x005 => c.cls1.toNat
  | 0x006 => c.cls2.toNat
  | 0x007 => c.cls3.toNat
  | 0x008 => c.icnt.toNat
  | 0x010 => if c.isSeq then 0 else p.coreIndex c.core * 128 + c.slot
  | 0x011 => b.bx
  | 0x012 => b.bY
  | 0x013 => b.bz
  | 0x014 => if c.isSeq then 0 else c.lg
  | 0x020 => s.fpxNow.toNat
  | 0x021 => c.txcWord
  | 0x800 => p.svVec.toNat
  | 0x801 => c.epc.toNat
  | 0x802 => c.cause.toNat
  | 0x803 => p.ptRoot.toNat
  | 0x804 => p.ftpBase.toNat
  | 0x805 => p.ftpCount.toNat
  | 0x806 => p.dropsSeen.toNat
  | 0x807 => l.tag
  | 0x810 => p.svs0.toNat
  | 0x811 => p.svs1.toNat
  | 0x812 => p.svs2.toNat
  | 0x813 => p.svs3.toNat
  | 0x820 => c.vbase
  | 0x821 => b.spbase
  | 0x822 => b.spsize
  | 0x823 => c.fbbase
  | 0x840 => p.frBase.toNat
  | 0x841 => p.frSize
  | 0x842 => p.frHead.toNat
  | 0x843 => p.frTail.toNat
  | 0x844 => p.frLost.toNat
  | 0x848 => p.retireWord p.coreIndex
  | 0x850 => s.slopeOf c.core
  | 0x851 => t.permits
  | 0x852 => t.boostIvs.toNat
  | 0x853 => k.ntIvs.toNat
  | 0x860 => p.phAcc.toNat % 2 ^ 32
  | 0x861 => p.phShadowS.toNat
  | 0x870 => p.zen.toNat
  | 0x880 => p.ephBase.toNat
  | 0x881 => p.ephSize.toNat
  | 0x882 => p.ksBound
  | 0x891 => p.xdMstat.toNat
  | 0x893 => p.xdPinned.toNat
  | k' => k.engine.reg k'

/-- What reading a register does besides (R310, R358). -/
def State.sysReadEffect (s : State) (n : Nat) : State :=
  match n with
  | 0x842 => s.updCore s.cur.core fun k => { k with l1 := [] }
  | 0x860 => s.updPart (s.launch s.cur.launch).tag fun p => { p with phShadowS := p.phAcc.extractLsb' 32 32 }
  | _ => s

/-- R316: the first nonzero answer to a pending event; an answer with none pending is ignored. -/
def Part.answer (p : Part) (v : Nat) : Part :=
  if p.retire.isSome && p.retireAns = 0 then { p with retireAns := v % 4 } else p

/-- R310: `FR_SIZE` takes 4 to 16, or 0. -/
def frSizeOf (v : Nat) : Nat := if 4 ≤ v % 32 && v % 32 ≤ 16 then v % 32 else 0

/-- What an `swr` of the current context does (views of R5; a write the view may not make is ignored). -/
def State.sysWrite (s : State) (n : Nat) (v : W64) : State :=
  let tag := (s.launch s.cur.launch).tag
  let w32 : W32 := v.extractLsb' 0 32
  match n with
  | 0x020 => s.updCur fun c => { c with fpx := v.extractLsb' 0 5 }
  | 0x021 => s.updCur fun c => { c with txThresh := if v.extractLsb' 0 4 = 0#4 then 1 else v.extractLsb' 0 4 }
  | 0x800 => s.updPart tag fun p => { p with svVec := v }
  | 0x801 => s.updCur fun c => { c with epc := v }
  | 0x803 => s.updPart tag fun p => { p with ptRoot := v &&& 0x00FFFFFFFFFFC001 }
  | 0x804 => s.updPart tag fun p => { p with ftpBase := v &&& 0xFFFFFFFFFFFFFFFC }
  | 0x805 => s.updPart tag fun p => { p with ftpCount := w32 }
  | 0x810 => s.updPart tag fun p => { p with svs0 := v }
  | 0x811 => s.updPart tag fun p => { p with svs1 := v }
  | 0x812 => s.updPart tag fun p => { p with svs2 := v }
  | 0x813 => s.updPart tag fun p => { p with svs3 := v }
  | 0x840 => s.updPart tag fun p => { p with frBase := v &&& 0xFFFFFFFFFFFFFFC0 }
  | 0x841 => s.updPart tag fun p => { p with frSize := frSizeOf v.toNat }
  | 0x843 => s.updPart tag fun p => { p with frTail := w32 }
  | 0x849 => s.updPart tag fun p => p.answer v.toNat
  | 0x890 => s.updPart tag fun p =>
      match p.xdRunning with
      | some _ => { p with xdMstat := 5 }
      | none => { p with xdRunning := some v }
  | 0x892 => { s with agenda := .ev .xdUnpin ⟨[tag, v.toNat], []⟩ :: s.agenda }
  | _ => s

/-- Table 21-12: a register of the partition's MMIO block in the S view, as (value, width in bytes). -/
def State.mmioS (s : State) (tag off : Nat) : Nat × Nat :=
  let p := s.part tag
  match off with
  | 0x0000 => (tag, 4)
  | 0x0008 => (p.dropsSeen.toNat, 8)
  | 0x0010 => (p.frHead.toNat, 4)
  | 0x0014 => (p.frTail.toNat, 4)
  | 0x0018 => (p.frLost.toNat, 8)
  | 0x0020 => (p.retireWord p.coreIndex, 8)
  | 0x0030 => (p.ephBase.toNat, 8)
  | 0x0038 => (p.ephSize.toNat, 4)
  | 0x003C => (p.ksBound, 4)
  | 0x0040 => (p.xdMstat.toNat, 4)
  | 0x0044 => (p.xdPinned.toNat, 4)
  | 0x0800 => (p.phAcc.toNat % 2 ^ 32, 4)
  | 0x0808 => (p.phShadowS.toNat, 4)
  | 0x0810 => (p.zen.toNat, 8)
  | _ =>
    if 0x10000 ≤ off then
      match p.coreAt ((off - 0x10000) / 0x80) with
      | none => (0, 8)
      | some c =>
        let e := (s.core c).engine
        match (off - 0x10000) % 0x80 with
        | 0x00 => (e.modeWord, 4)
        | 0x08 => (e.reg 0x831, 8)
        | 0x10 => (e.reg 0x832, 8)
        | 0x18 => (e.reg 0x833, 8)
        | 0x20 => (e.reg 0x834, 8)
        | 0x28 => (e.reg 0x838, 8)
        | 0x30 => (e.reg 0x839, 8)
        | 0x38 => (e.reg 0x83A, 8)
        | 0x40 => (e.reg 0x83B, 8)
        | 0x48 => (e.reg 0x83C, 8)
        | 0x50 => (e.reg 0x83D, 8)
        | _ => (0, 8)
    else (0, 8)

/-- A read through a TT 7 page: the S view for the supervisor, nothing for U mode (R5); what it returns and the state after. -/
def State.mmioRead (s : State) (tag : Nat) (smode : Bool) (off n : Nat) : List Byte × State :=
  if !smode then (natBytes n 0, s)
  else
    let r := s.mmioS tag off
    let v := if r.2 = 4 then r.1 % 2 ^ 32 else r.1
    let s := if off = 0x0800 then s.updPart tag fun p => { p with phShadowS := p.phAcc.extractLsb' 32 32 } else s
    (natBytes n v, s)
/-- A write through a TT 7 page. -/
def State.mmioWrite (s : State) (tag : Nat) (smode : Bool) (off : Nat) (bs : List Byte) : State :=
  if !smode then s
  else
    let v := bytesNat bs
    match off with
    | 0x0014 => s.updPart tag fun p => { p with frTail := BitVec.ofNat 32 v }
    | 0x0028 => s.updPart tag fun p => p.answer v
    | _ => s

end Sys2Proof.Machine
end

