-- ==== Sys2Proof/Machine/Access.lean ====
section
/-!
DEFINITION. The memory accesses of a group or sequencer: the checks of 03 R97 and R98, the L1 (03 R89), loads, posted stores
and atomics, accesses to other devices (22 R398), and the accesses of a transaction's lanes (14 R281).
-/

namespace Sys2Proof.Machine

/-! ## Addresses, checks and events -/

/-- R81: the address of each lane of a mask. -/
def State.laneAddrs (s : State) (m : Mask) (base : W64) (a : Nat) : List (Nat × Nat) :=
  let v := s.readV a
  (maskLanes m).map fun i => (i, (base + (laneOf v i).setWidth 64 + s.cur.addrOff).toNat)

/-- The current context's partition and VF. -/
def State.curTag (s : State) : Nat := (s.launch s.cur.launch).tag
def State.curVf (s : State) : Nat := (s.launch s.cur.launch).vf

/-- R82, R97: one lane's checks: alignment, then translation, then the export entry (R417). -/
def State.checkLane (s : State) (acc : Acc) (n va salt : Nat) : Except (Nat × Nat) Xlat :=
  if va % n ≠ 0 then .error (kMisalign, 0)
  else match s.translate s.curTag s.curVf (!s.cur.smode) acc va salt with
    | .error e => .error e
    | .ok x =>
      if x.loc.tt = 6 then
        if 65536 ≤ x.loc.addr % 2 ^ 57 / 2 ^ 16 then .error (kPerm, 7)
        else match s.remote x.loc s.curTag acc.isWrite with
          | .refusedEntry => .error (kPerm, 7)
          | _ => .ok (s.standing s.curTag acc.isWrite x)
      else .ok x

/-- A failing lane: kind, detail and address. -/
structure LaneFail where
  lane : Nat
  kind : Nat
  detail : Nat
  va : Nat
  deriving DecidableEq, Repr

/-- R97, R309: the one event of an instruction whose lanes fail: the kind of the lowest, the count, each lane's address. -/
def State.laneEvent (s : State) (fs : List LaneFail) (spoff : Bool) : FaultEv :=
  match fs with
  | [] => s.groupEvent kIllegal 0 0
  | f :: _ =>
    { kind := f.kind, detail := f.detail, lane := f.lane, count := fs.length, spoff := spoff, pc := s.cur.pc, rpc := s.cur.pc,
      addrs := fs.foldl (fun m x => SMap.put m x.lane (BitVec.ofNat 64 x.va)) [],
      em := some (ofBits fun i => fs.any fun x => x.lane == i) }

/-- A lane that passed its checks. -/
structure LaneOk where
  lane : Nat
  va : Nat
  x : Xlat
  deriving DecidableEq, Repr

/-- R97: check every lane. -/
def State.checkLanes (s : State) (acc : Acc) (n : Nat) (addrs : List (Nat × Nat)) : List LaneFail × List LaneOk :=
  addrs.foldr (fun p r => match s.checkLane acc n p.2 (Nat.pair 0 p.1) with
    | .error e => (⟨p.1, e.1, e.2, p.2⟩ :: r.1, r.2)
    | .ok x => (r.1, ⟨p.1, p.2, x⟩ :: r.2)) ([], [])

/-- Check every lane; go on with those that pass when none fails. -/
def State.withLanes (s : State) (acc : Acc) (n : Nat) (addrs : List (Nat × Nat)) (k : State → List LaneOk → Eff) : Eff :=
  let r := s.checkLanes acc n addrs
  if !s.locks.isEmpty && addrs.any fun p => s.walkLocked s.curTag p.2 then .wait s .limit
  else if r.1.isEmpty then
    let s := s.cachePages s.curTag (r.2.map fun l => l.va)
    let s := if r.2.any fun l => l.x.loc.tt == 7 then s.updCur fun c => { c with dirty := true } else s
    k s r.2
  else .event s (s.laneEvent r.1 false)

/-! ## Other devices (22 R398–R402) -/

/-- 09 R201: the copy this device holds of some bytes of another device's line. -/
def State.copyOf (s : State) (l : Loc) (n : Nat) : Option (List Byte) :=
  (SMap.find s.copies (l.addr / 64)).map fun v => (List.range n).map fun i => v.extractLsb' (8 * (l.addr % 64 + i)) 8
/-- The device a lane's access must be asked of. -/
def State.awayOf (s : State) (l : LaneOk) (write : Bool) : Option Nat :=
  if l.x.loc.tt = 6 then match s.remote l.x.loc s.curTag write with
    | .away d => if !write && (SMap.find s.copies (l.x.loc.addr / 64)).isSome then none else some d
    | _ => none
  else none

/-- What is sent to another device for one lane. -/
inductive Ask where
  | read (n : Nat)
  | write (bs : List Byte)
  | reduce (fn : Nat) (bs : List Byte)
  | atomic (code : Nat) (w : Nat) (bs : List Byte)
  deriving DecidableEq, Repr

/-- Table 22-4: the width field of a flit's `OP`. -/
def opWidth (w : Nat) : Nat := (if w = 8 then 3 else if w = 4 then 2 else if w = 2 then 1 else 0) * 16
/-- R394: the flit of one lane's access; none while no port takes it. -/
def State.sendAsk (s : State) (dev : Nat) (l : LaneOk) (a : Ask) : Option State :=
  let loc := l.x.loc
  let target := targetOf loc
  let own := s.module.devId
  let id := s.cur.id
  match a with
  | .read n => (s.sendFlit dev { ftype := 2, ptag := s.curTag, sdev := own, payload := readPayload target (4 * s.nextId) n }).map
      fun s => s.noteAsk dev 0 id l.lane 1 loc
  | .write bs => (s.sendOrdering dev 1 s.curTag own fun q => orderingPayload q 0 (targetOf ⟨6, loc.addr / 128 * 128⟩) 0 0 0
      (List.replicate (loc.addr % 128) 0 ++ bs) ((2 ^ bs.length - 1) * 2 ^ (loc.addr % 128))).map
      fun s => (s.dropCopies loc).noteAsk dev 1 id l.lane 0 loc
  | .reduce fn bs => (s.sendOrdering dev 5 s.curTag own fun q => orderingPayload q 0 target (fn + opWidth bs.length) 0 0 bs (2 ^ bs.length - 1)).map
      fun s => (s.dropCopies loc).noteAsk dev 1 id l.lane 2 loc
  | .atomic code w bs => (s.sendOrdering dev 4 s.curTag own fun q => orderingPayload q 0 target (code + opWidth w) 0 0 bs (2 ^ bs.length - 1)).map
      fun s => (s.dropCopies loc).noteAsk dev 1 id l.lane 2 loc

/-- The lanes not yet asked for are asked for. -/
def State.askRound (s : State) (away : List (LaneOk × Nat)) (a : LaneOk → Ask) : State :=
  let asked (l : LaneOk) : Bool := (SMap.find s.cur.answers l.lane).isSome ||
    s.peers.any fun p => p.2.asks.any fun q => q.who == s.cur.id && q.lane == l.lane
  away.foldl (fun s x => if asked x.1 then s else (s.sendAsk x.2 x.1 (a x.1)).getD s) s
/-- R97: the accesses name more than one exported page, so that one of them may be refused. -/
def severalPages (away : List (LaneOk × Nat)) : Bool := match away with
  | [] => false
  | x :: t => t.any fun y => y.1.x.loc.addr / 65536 != x.1.x.loc.addr / 65536
/-- Ask other devices for the lanes that need it, once; the context parks until every answer has come. Writes to several exported pages are
preceded by reads of them, so that no lane writes when a lane's entry is refused (R97; assumption 57). -/
def State.askAll (s : State) (write : Bool) (ls : List LaneOk) (a : LaneOk → Ask) (k : State → Eff) : Eff :=
  let away := ls.filterMap fun l => (s.awayOf l write).map fun d => (l, d)
  if away.isEmpty then k s
  else if away.all fun x => (SMap.find s.cur.answers x.1.lane).isSome then
    let bad := away.filter fun x => ((SMap.find s.cur.answers x.1.lane).getD (0, [])).1 = 1
    if !bad.isEmpty then .event s (s.laneEvent (bad.map fun x => ⟨x.1.lane, kPerm, 7, x.1.va⟩) false)
    else if s.cur.probe = 1 then .wait ((s.updCur fun c => { c with answers := [], probe := 2 }).askRound away a) .link
    else k s
  else if s.cur.probe = 1 || (write && s.cur.probe = 0 && s.cur.answers.isEmpty && severalPages away) then
    .wait ((s.updCur fun c => { c with probe := 1 }).askRound away fun _ => .read 1) .link
  else .wait (s.askRound away a) .link
/-- The bytes another device answered for a lane; zero for a lost one (R99, R400). -/
def State.answer (s : State) (lane n : Nat) : List Byte :=
  match SMap.find s.cur.answers lane with
  | some (0, bs) => (bs ++ List.replicate n 0).take n
  | _ => List.replicate n 0

/-! ## Reading -/

/-- R297: a load waits for a line that a prepare holds. -/
def State.readLocked (s : State) (ls : List LaneOk) : Bool :=
  !s.locks.isEmpty && ls.any fun l => l.x.loc.tt == 0 && s.prepareLocked (l.x.loc.addr / 128)
/-- R297: a store or an atomic waits for any lock. -/
def State.writeLocked (s : State) (ls : List LaneOk) : Bool :=
  !s.locks.isEmpty && ls.any fun l => l.x.loc.tt == 0 && (SMap.find s.locks (l.x.loc.addr / 128)).isSome
/-- R297: what waits for a line waits in the order of its arrival. -/
def State.lockPark (s : State) (ls : List LaneOk) : Park :=
  match ls.find? fun l => l.x.loc.tt == 0 && (SMap.find s.locks (l.x.loc.addr / 128)).isSome with
  | some l => .line (l.x.loc.addr / 128)
  | none => .limit

/-- R89: the L1 serves a plain load of a cacheable line, or fetches it. -/
def Xlat.cached (x : Xlat) : Bool := x.loc.tt == 0 && !x.nc && !x.ms
/-- The 128 bytes of an HBM line. -/
def State.lineBits (s : State) (line : Nat) : BitVec 1024 := BitVec.ofNat 1024 (s.readNum ⟨0, line * 128⟩ 128)
/-- R89: for each line, the copy held may serve, or the line is fetched anew. -/
def State.fillL1 (s : State) (ls : List LaneOk) : State :=
  let lines := dedup ((ls.filter fun l => l.x.cached && s.delivers s.agent l.x.loc).map fun l => l.x.loc.addr / 128)
  let l1 := lines.foldl (fun (m : SMap (BitVec 1024)) n =>
    if (SMap.find m n).isSome && s.pick (Nat.pair 1 n) then m else SMap.put m n (s.lineBits n)) (s.core s.cur.core).l1
  s.updCore s.cur.core fun k => { k with l1 := l1 }

/-- R195: an access that has read at the place of coherence leaves no older copy of the line in the core's L1. -/
def State.dropLines (s : State) (lines : List Nat) : State :=
  if (s.core s.cur.core).l1.isEmpty then s
  else s.updCore s.cur.core fun k => { k with l1 := k.l1.filter fun x => !lines.contains x.1 }
/-- The HBM lines of lanes. -/
def lineNos (ls : List LaneOk) : List Nat := (ls.filter fun l => l.x.loc.tt == 0).map fun l => l.x.loc.addr / 128
/-- R195, R196: what the context itself has stored and not yet performed is seen by its own loads. -/
def State.ownByte (s : State) (l : Loc) (b : Byte) : Byte :=
  s.packets.foldl (fun b p => if s.own p then ((p.writes.filter fun w => w.1 == l).getLast?.map Prod.snd).getD b else b) b

/-- One byte as the current context reads it. -/
def State.seeByte (s : State) (l1 : Bool) (l : Loc) : Byte :=
  let b := if l1 && l.tt = 0 then
      match SMap.find (s.core s.cur.core).l1 (l.addr / 128) with
      | some v => getByte v (l.addr % 128)
      | none => s.readByte l
    else s.readByte l
  if s.packets.isEmpty then b else s.ownByte l b

/-- R195: reductions of the context that meet the bytes read are performed first. -/
def State.meetsOwnReduce (s : State) (ls : List LaneOk) (n : Nat) (p : Packet) : Bool :=
  s.own p && (match p.op with | .reduce _ _ => true | _ => false) &&
    p.places.any fun q => ls.any fun l => l.x.loc.tt == q.tt && l.x.loc.addr ≤ q.addr && q.addr < l.x.loc.addr + n

/-- R98: the lanes whose data is poisoned. -/
def State.poisonedLanes (s : State) (ls : List LaneOk) (n : Nat) : List LaneOk :=
  if s.poison.isEmpty then []
  else ls.filter fun l => s.reaches s.agent l.x && (List.range n).any fun i => s.isPoisoned ⟨l.x.loc.tt, l.x.loc.addr + i⟩

/-- R99, R132: the read requests of an instruction, one for each destination; a dropped one is recorded. -/
def State.requestReads (s : State) (x : Cross) (ls : List LaneOk) (n : Nat) : State :=
  (groupBy (fun (l : LaneOk) => destKey l.x.loc) (ls.filter fun l => l.x.loc.tt != 7)).foldl (fun s g => match g with
    | [] => s
    | l :: _ =>
      let r := s.readRequest
      if (if l.x.loc.tt = 6 then !r.2.lost6 l.x.loc r.2.curTag false else r.2.reaches r.2.agent l.x) then r.2
      else r.2.dropAt r.2.agent x l.x.loc r.1 (n * g.length) (BitVec.ofNat 64 l.va) r.2.cur.pc 0 0) s

/-- The bytes of one lane's load, and the state after (a TT 7 read may have an effect). -/
def State.laneBytes (s : State) (l1 : Bool) (n : Nat) (l : LaneOk) : List Byte × State :=
  let x := l.x
  if x.loc.tt = 7 then s.mmioRead s.curTag s.cur.smode x.loc.addr n
  else if x.loc.tt = 6 then
    match s.remote x.loc s.curTag false with
    | .away _ => ((s.copyOf x.loc n).getD (s.answer l.lane n), s)
    | _ => (List.replicate n 0, s)
  else if s.reaches s.agent x then ((List.range n).map fun i => s.seeByte (l1 && x.cached) ⟨x.loc.tt, x.loc.addr + i⟩, s)
  else (List.replicate n 0, s)

/-- R84, R98, R99: read every lane, ascending. -/
def State.readLanes (s : State) (l1 : Bool) (n : Nat) (ls : List LaneOk) (k : State → List (Nat × List Byte) → Eff) : Eff :=
  s.askAll false ls (fun _ => .read n) fun s =>
    let s := s.flush (s.meetsOwnReduce ls n)
    if s.readLocked ls then .wait s (s.lockPark ls)
    else if s.packets.any (s.meetsOwnReduce ls n) then .wait s .limit
    else
      let bad := s.poisonedLanes ls n
      if !bad.isEmpty then .event s (s.laneEvent (bad.map fun l => ⟨l.lane, kPoison, 0, l.va⟩) false)
      else
        let s := if l1 then s.fillL1 ls else s.dropLines (lineNos ls)
        let s := s.requestReads .read ls n
        let r := ls.foldl (fun (a : State × List (Nat × List Byte)) l =>
          let q := a.1.laneBytes l1 n l
          (q.2, a.2 ++ [(l.lane, q.1)])) (s, [])
        k r.1 r.2

/-- Registers a width uses. -/
def widthRegs (n : Nat) : Nat := if n ≤ 4 then 1 else n / 4
/-- Table 03-1: the k-th register of a loaded value. -/
def regWord (signed : Bool) (bs : List Byte) (k : Nat) : W32 :=
  if bs.length < 4 then
    (if signed then BitVec.ofInt 32 (signedNat (8 * bs.length) (bytesNat bs)) else BitVec.ofNat 32 (bytesNat bs))
  else BitVec.ofNat 32 (bytesNat ((bs.drop (4 * k)).take 4))
/-- R84: the deferred results of a load into d and the registers after it. -/
def loadVals (signed : Bool) (n d : Nat) (m : Mask) (bs : List (Nat × List Byte)) : List DVal :=
  (List.range (widthRegs n)).map fun k =>
    .vec (d + k) m (ofLanes fun i => match bs.find? fun p => p.1 == i with
      | some p => regWord signed p.2 k
      | none => 0) 0
/-- Table 03-1: the bytes a store takes from d and the registers after it. -/
def State.storeBytes (s : State) (n d lane : Nat) : List Byte :=
  natBytes n (packNat 32 (fun k => (laneOf (s.readV (d + k)) lane).toNat) (widthRegs n))

/-! ## Writing -/

/-- R84, R85, R132: post a store's bytes, one packet for each destination; TT 7 is written at once, ascending (R83). -/
def State.postStores (s : State) (op : PacketOp) (release : Bool) (ws : List (LaneOk × List Byte)) : State :=
  let s := ws.foldl (fun s w => if w.1.x.loc.tt = 7 then s.mmioWrite s.curTag s.cur.smode w.1.x.loc.addr w.2 else s) s
  (groupBy (fun (w : LaneOk × List Byte) => destKey w.1.x.loc) (ws.filter fun w => w.1.x.loc.tt != 7 && (s.awayOf w.1 true).isNone)).foldl
    (fun s g => match g with
      | [] => s
      | w :: _ =>
        let cells := g.flatMap fun w => cellsFrom w.1.x.loc w.2
        s.inject op cells (BitVec.ofNat 64 w.1.va) cells.length release w.1.x.via) s

/-- R88, R95, R203: a store that leaves at once, to an MMIO page or another device, follows the accesses that a release order or fence puts before
it. -/
def State.whenReleased (s : State) (release : Bool) (ls : List LaneOk) (k : State → Eff) : Eff :=
  let n := if release then s.nextId else s.cur.relFence
  if n ≠ 0 && s.cur.answers.isEmpty && s.cur.probe = 0 && ls.any fun l => l.x.loc.tt == 7 || (s.awayOf l true).isSome then whenPerformed s n k
  else k s

/-- R84, R89: store every lane's bytes; stores to another device wait for its answer (assumption 16). -/
def State.storeLanes (s : State) (op : PacketOp) (release : Bool) (ws : List (LaneOk × List Byte)) (k : State → Eff) : Eff :=
  s.whenReleased release (ws.map Prod.fst) fun s => s.askAll true (ws.map Prod.fst) (fun l => .write ((ws.find? fun w => w.1.lane == l.lane).elim [] Prod.snd)) fun s =>
    k (s.postStores op release ws)

/-- R93: post a reduction of every lane. -/
def State.reduceLanes (s : State) (fn : Nat) (release : Bool) (ws : List (LaneOk × W64)) (k : State → Eff) : Eff :=
  let w := (redOp fn).2
  s.whenReleased release (ws.map Prod.fst) fun s => s.askAll true (ws.map Prod.fst) (fun l => .reduce fn (natBytes w (((ws.find? fun x => x.1.lane == l.lane).elim 0 Prod.snd).toNat))) fun s =>
    k <| (groupBy (fun (x : LaneOk × W64) => destKey x.1.x.loc) (ws.filter fun x => (s.awayOf x.1 true).isNone)).foldl
      (fun s g => match g with
        | [] => s
        | x :: _ => s.inject (.reduce fn (g.map fun x => (x.1.x.loc, x.2))) [] (BitVec.ofNat 64 x.1.va) (w * g.length) release x.1.x.via) s

/-- R95, R197, R204: before what follows a release, perform the context's earlier accesses; before an atomic, those ordered before it
by a fence, by meeting its bytes or by going through its host port. -/
def State.whenOrdered (s : State) (all : Bool) (ls : List LaneOk) (n : Nat) (k : State → Eff) : Eff :=
  let f (s : State) (p : Packet) : Bool := s.own p && (all || decide (p.id < s.cur.relFence) ||
    p.places.any fun q => ls.any fun l => l.x.loc.tt == q.tt && ((l.x.loc.addr ≤ q.addr && q.addr < l.x.loc.addr + n) ||
      (q.tt == 5 && l.x.loc.addr / 2 ^ 57 == q.addr / 2 ^ 57)))
  let t := s.flush (f s)
  if t.packets.any (f t) then .wait t .limit else k t

/-- R132: the write packets of an atomic, one for each destination; a dropped one is recorded. -/
def State.requestWrites (s : State) (ls : List (LaneOk × W64 × W64)) (w : Nat) : State :=
  (groupBy (fun (x : LaneOk × W64 × W64) => destKey x.1.x.loc) ls).foldl (fun s g => match g with
    | [] => s
    | x :: _ =>
      let seq := (s.launch s.cur.launch).nextWrite s.cur.core
      let s := s.updLaunch s.cur.launch fun l => { l with wseq := SMap.put l.wseq s.cur.core ((seq + 1) % 2 ^ 32) }
      if (if x.1.x.loc.tt = 6 then !s.lost6 x.1.x.loc s.curTag true else s.reaches s.agent x.1.x) then s
      else s.dropAt s.agent .atomic x.1.x.loc seq (w * g.length) (BitVec.ofNat 64 x.1.va) s.cur.pc 0 0) s

/-- R90–R92, R98, R99: perform an atomic lane by lane, ascending: the old values, and the poisoned lanes left out. -/
def State.atomicLanes (s : State) (op : Rmw) (w : Nat) (ls : List (LaneOk × W64 × W64)) (k : State → List (Nat × List Byte) → List LaneOk → Eff) :
    Eff :=
  let oks := ls.map Prod.fst
  s.askAll true oks (fun l => .atomic (match op with
      | .add => 0 | .minI => 1 | .maxI => 2 | .and => 3 | .or => 4 | .xor => 5 | .exch => 6 | .cas => 7 | .minN => 9 | .maxN => 10 | .fadd => 11) w
      (natBytes w (((ls.find? fun x => x.1.lane == l.lane).elim 0 fun x => x.2.1).toNat) ++
       natBytes w (((ls.find? fun x => x.1.lane == l.lane).elim 0 fun x => x.2.2).toNat))) fun s =>
    if s.writeLocked oks then .wait s (s.lockPark oks)
    else
      let bad := s.poisonedLanes oks w
      let good := ls.filter fun x => !bad.contains x.1
      let s := s.requestWrites good w
      let r := good.foldl (fun (a : State × List (Nat × List Byte)) x =>
        let l := x.1
        let s := a.1
        let out (s : State) (bs : List Byte) : State × List (Nat × List Byte) := (s, a.2 ++ [(l.lane, bs)])
        let run (p : Loc) : State × List (Nat × List Byte) :=
          let q := s.rmwAt s.cur.core p op w x.2.1.toNat x.2.2.toNat
          out q.2 (natBytes w q.1)
        if l.x.loc.tt = 6 then
          match s.remote l.x.loc s.curTag true with
          | .away _ => out s (s.answer l.lane w)
          | _ => out s (List.replicate w 0)
        else if s.reaches s.agent l.x then run l.x.loc
        else out s (List.replicate w 0)) (s, [])
      k r.1 r.2 bad

/-- R88, R95: an acquire at `.blk` or wider drops the core's L1. -/
def State.acquire (s : State) (sc : Nat) : State :=
  if sc = 0 then s else s.updCore s.cur.core fun k => { k with l1 := [] }

/-- R197, R203: the fence that follows a `.sc.sys` access. -/
def State.fenceAfter (s : State) (sc : Bool) (scope : BitVec 2) : State :=
  if sc && scope = 3 && s.forwardsOut then s.updCur fun c => { c with fenced := s.behind } else s

end Sys2Proof.Machine
end

