-- ==== Sys2Proof/Machine/Fetch.lean ====
section
/-!
DEFINITION. Fetching instruction halfwords (01 R8, R9), the loop buffer's body and step words (01 R22, 02 R70, R71), recipe
headers and flashback slots (16 R300, R301), and the closing of batches (07 R163).
-/

namespace Sys2Proof.Machine

/-! ## Fetch -/

/-- Why a halfword cannot be fetched: kind, detail and its address. -/
structure FetchFail where
  kind : Nat
  detail : Nat
  va : W64
  deriving DecidableEq, Repr

/-- R9, R311: one halfword of the current context's stream; a word with an uncorrectable error is reported as POISON. -/
def State.fetchHalf (s : State) (va : W64) : Except FetchFail W16 :=
  match s.translate s.curTag s.curVf (!s.cur.smode) .fetch va.toNat 0 with
  | .error e => .error ⟨e.1, e.2, va⟩
  | .ok x =>
    if !s.delivers s.agent x.loc then .ok 0
    else if s.poison.contains (wordKey x.loc) then .error ⟨kPoison, 0, va⟩
    else .ok (halfOf (s.readByte x.loc) (s.readByte ⟨x.loc.tt, x.loc.addr + 1⟩))

/-- R8: the instruction word at an address: its halfword, or its two halfwords, and its length in bytes. -/
def State.fetchWord (s : State) (va : W64) : Except FetchFail (W32 × Nat) :=
  match s.fetchHalf va with
  | .error e => .error e
  | .ok lo =>
    if lengthOfHalf lo = 2 then .ok (lo.setWidth 32, 2)
    else match s.fetchHalf (va + 2) with
      | .error e => .error e
      | .ok hi => .ok (hi ++ lo, 4)

/-- `n` halfwords from an address. -/
def State.fetchHalves (s : State) : Nat → W64 → Except FetchFail (List W16)
  | 0, _ => .ok []
  | n + 1, va =>
    match s.fetchHalf va with
    | .error e => .error e
    | .ok h => match s.fetchHalves n (va + 2) with
      | .error e => .error e
      | .ok t => .ok (h :: t)

/-- R9: the event of a halfword that cannot be fetched. -/
def State.fetchEvent (s : State) (f : FetchFail) : FaultEv :=
  let e := s.groupEvent f.kind f.detail f.va
  { e with addrs := [(e.lane, f.va)] }

/-! ## Timing classes of words (Table 02-1) -/

/-- The class of a 32-bit word, by its major, FN and EXT. -/
def classOfFields (f : Fields) : Nat :=
  match f.maj.toNat, f.fn.toNat with
  | 0x00, 2 => 1 | 0x00, 3 => 2 | 0x00, 4 => 2
  | 0x02, 0 => 3 | 0x02, 1 => 3 | 0x02, 2 => 3 | 0x02, 3 => 3 | 0x02, 4 => 1
  | 0x08, 2 => 1 | 0x08, 3 => 1
  | 0x09, 0 => (match f.b.toNat with | 0 => 0 | 5 => 3 | _ => 2)
  | 0x0A, 0 => 3
  | 0x10, 1 => 1 | 0x10, 2 => 1 | 0x10, 5 => 1
  | 0x12, _ => 1
  | 0x13, _ => 1
  | 0x15, 7 => if f.b = 2#6 then 2 else 0
  | 0x16, 0 => 1 | 0x16, 1 => 1 | 0x16, 2 => 1
  | 0x17, _ => 2
  | 0x18, 2 => 1 | 0x18, 3 => 2
  | 0x19, 5 => 3
  | _, _ => 0
/-- The class of a short form: `imul` and `fmul` are class 1. -/
def classOfHalf (h : W16) : Nat := if h.extractLsb' 2 4 = 3#4 || h.extractLsb' 2 4 = 11#4 then 1 else 0

/-! ## The loop buffer -/

/-- R22: the fields an instruction has that a step word may name: d, a, b, immediate. The `DL` field of a `yield`, which format YD draws in
place of d, counts as d (DESIGN CHOICE, assumption 55). -/
def stepFields (f : Fields) : Bool × Bool × Bool × Bool :=
  let n := f.fn.toNat
  match f.maj.toNat with
  | 0x02 => (true, n != 6, true, false)
  | 0x03 | 0x09 | 0x12 | 0x17 => (true, true, false, false)
  | 0x13 => (true, true, n != 1 && n != 4, false)
  | 0x04 | 0x05 | 0x1A | 0x1B => (true, false, false, true)
  | 0x08 => (true, n != 6, true, false)
  | 0x15 =>
    if n = 7 then (match f.b.toNat with
      | 3 => (true, false, false, false)
      | 4 | 5 => (false, true, false, false)
      | _ => (true, true, false, false))
    else (true, true, true, false)
  | 0x16 => (true, n != 5, n != 3 && n != 4 && n != 5, false)
  | 0x1C | 0x3F => (false, false, false, false)
  | 0x1D => (n == 0 || n == 3, n == 0, false, false)
  | 0x1E | 0x1F | 0x3D => (true, false, false, false)
  | 0x20 | 0x21 | 0x22 | 0x23 | 0x26 | 0x28 | 0x29 | 0x2A | 0x33 => (true, true, true, true)
  | 0x27 => (false, n != 2, n != 2, n != 2)
  | 0x2B => (n != 6, n != 6, false, false)
  | 0x30 => (true, n != 0, false, false)
  | 0x31 => (true, true, n != 5, false)
  | 0x32 => (true, true, n != 0, false)
  | 0x35 => (true, true, n != 0, false)
  | 0x36 => (n != 2, false, false, false)
  | 0x38 => (false, true, n < 2, false)
  | 0x39 => (n < 4, n != 0, 3 ≤ n, false)
  | 0x3C => (true, true, false, false)
  | 0x3A | 0x3B => (true, true, false, true)
  | 0x3E => (n != 0, n == 2 || n == 3, n == 3, false)
  | _ => (true, true, true, false)

/-- Table 01-8: the fields of a step word. -/
def stepSlot (w : W32) : Nat := (w.extractLsb' 0 5).toNat
def stepOpnd (w : W32) : Nat := (w.extractLsb' 5 2).toNat
def stepDelta (w : W32) : Int := (w.extractLsb' 16 16).toInt

/-- R22: a step word is valid for a body of the given words (`none`: the slot holds no instruction). -/
def stepValid (body : List (Option (Fields ⊕ W16))) (w : W32) : Bool :=
  w.extractLsb' 7 9 == 0#9 &&
  match body.getD (stepSlot w) none with
  | none => false
  | some (.inr _) => decide (stepOpnd w < 2)
  | some (.inl f) =>
    let r := stepFields f
    match stepOpnd w with
    | 0 => r.1
    | 1 => r.2.1
    | 2 => r.2.2.1
    | _ => r.2.2.2

/-- The word of a slot as an instruction's fields, when it is one. -/
def slotWord (w : W32) (len : Nat) : Option (Fields ⊕ W16) :=
  if len = 2 then (match decodeHalf (w.extractLsb' 0 16) with | .ok _ => some (.inr (w.extractLsb' 0 16)) | .error _ => none)
  else match decodeFields (fieldsOf w) with
    | .ok _ => some (.inl (fieldsOf w))
    | .error _ => none

/-- R70: the addresses and words of the body's slots, with the address after it. -/
def State.readSlots (s : State) : Nat → W64 → Except FetchFail (List W64 × List (Option (Fields ⊕ W16)))
  | 0, va => .ok ([va], [])
  | n + 1, va =>
    match s.fetchWord va with
    | .error e => .error e
    | .ok (w, len) => match s.readSlots n (va + BitVec.ofNat 64 len) with
      | .error e => .error e
      | .ok r => .ok (va :: r.1, slotWord w len :: r.2)

/-- The loop body an `lpb` at the current address opens: its slot addresses and step words, and whether every step word is
valid (R22). -/
def State.readBody (s : State) (len : BitVec 5) (steps : BitVec 4) : Except FetchFail (List W64 × List W32 × Bool) :=
  match s.fetchHalves (2 * steps.toNat) (s.cur.pc + 4) with
  | .error e => .error e
  | .ok hs =>
    let ws := (List.range steps.toNat).map fun i => (hs.getD (2 * i + 1) 0 ++ hs.getD (2 * i) 0 : W32)
    match s.readSlots (len.toNat + 1) (s.cur.pc + 4 + 4 * BitVec.ofNat 64 steps.toNat) with
    | .error e => .error e
    | .ok r => .ok (r.1, ws, ws.all (stepValid r.2))

/-- R71: the sum of a slot's deltas for an operand. -/
def LoopState.delta (l : LoopState) (opnd : Nat) : Int :=
  ((l.steps.filter fun w => stepSlot w == l.slot && stepOpnd w == opnd).map stepDelta).foldl (· + ·) 0

/-- What a slot becomes in a pass: an instruction's bytes, with its stepped byte offset, its own length and whether a register
is stepped; or the detail of the ILLEGAL that ends the loop (R71). -/
inductive Stepped where
  | word (f : Fields) (off : W64) (len : Nat) (reg : Bool)
  | half (h : W16)
  | bad (detail : Nat)
  deriving DecidableEq, Repr

/-- A field of w bits moved by k × DELTA, when it stays in range. -/
def moveField (w : Nat) (lo hi : Int) (v k d : Int) : Option (BitVec w) :=
  let x := v + k * d
  if lo ≤ x && x ≤ hi then some (BitVec.ofInt w x) else none

/-- R71: the 32-bit word of a slot in pass k. -/
def stepFields32 (l : LoopState) (f : Fields) (len : Nat) : Stepped :=
  let k : Int := l.pass.toNat
  let dd := l.delta 0
  let da := l.delta 1
  let db := l.delta 2
  let di := l.delta 3
  let reg : Bool := dd != 0 || da != 0 || db != 0
  let maj := f.maj.toNat
  let mo : Bool := maj == 0x26 || maj == 0x28 || maj == 0x29 || maj == 0x2A
  let m : Bool := mo || maj == 0x20 || maj == 0x21 || maj == 0x22 || maj == 0x23 || maj == 0x27 || maj == 0x33
  if maj = 0x1A || maj = 0x1B then
    let sd := f.fn ++ f.pg
    let imm : BitVec 18 := f.b ++ f.a ++ f.d
    match moveField 6 0 63 sd.toNat k dd with
    | none => .bad 2
    | some sd =>
      match (if maj = 0x1A then moveField 18 (-131072) 131071 imm.toInt k di else moveField 18 0 262143 imm.toNat k di) with
      | none => .bad 6
      | some imm => .word { f with fn := sd.extractLsb' 3 3, pg := sd.extractLsb' 0 3, b := imm.extractLsb' 12 6,
                                   a := imm.extractLsb' 6 6, d := imm.extractLsb' 0 6 } 0 len reg
  else
    match moveField 6 0 63 f.d.toNat k dd, moveField 6 0 63 f.a.toNat k da,
        (if mo then (moveField 4 0 15 (f.b.extractLsb' 0 4).toNat k db).map fun x => f.b.extractLsb' 4 2 ++ x
         else moveField 6 0 63 f.b.toNat k db) with
    | some d, some a, some b =>
      let g := { f with d := d, a := a, b := b }
      if m then .word g (BitVec.ofInt 64 (k * di)) len reg
      else if maj = 0x04 || maj = 0x05 then
        let imm : BitVec 12 := f.b ++ f.a
        let r := if maj = 0x05 then moveField 12 0 4095 imm.toNat k di
          else if 4 ≤ f.fn.toNat && f.fn.toNat ≤ 6 then moveField 12 0 31 imm.toNat k di
          else moveField 12 (-2048) 2047 imm.toInt k di
        match r with
        | none => .bad 6
        | some imm => .word { g with b := imm.extractLsb' 6 6, a := imm.extractLsb' 0 6 } 0 len reg
      else if maj = 0x3A || maj = 0x3B then
        match moveField 6 0 63 f.b.toNat k di with
        | none => .bad 6
        | some b => .word { g with b := b } 0 len reg
      else .word g 0 len reg
    | _, _, _ => .bad 2

/-- Table 01-4: the 32-bit fields of a short form. -/
def shortFields (h : W16) (d a : Nat) : Fields :=
  let s := h.getLsbD 1
  let d6 : BitVec 6 := BitVec.ofNat 6 d
  let a6 : BitVec 6 := BitVec.ofNat 6 a
  let mk (maj : BitVec 6) (fn : BitVec 3) : Fields := ⟨s, maj, 0, fn, d6, d6, a6⟩
  match (h.extractLsb' 2 4).toNat with
  | 0 => mk 0x02 6
  | 1 => mk 0x00 0
  | 2 => mk 0x00 1
  | 3 => mk 0x00 2
  | 4 => mk 0x00 5
  | 5 => mk 0x00 6
  | 6 => mk 0x00 7
  | 7 => mk 0x01 1
  | 8 => mk 0x01 2
  | 9 => mk 0x08 0
  | 10 => mk 0x08 1
  | 11 => mk 0x08 2
  | 12 => mk 0x08 5
  | 13 => mk 0x08 4
  | 14 => mk 0x08 6
  | _ => ⟨s, 0x22, 0, 4, d6, a6, 0⟩

/-- R71: a short form in pass k; a stepped register above 31 makes it act as its 32-bit equivalent. -/
def stepHalf (l : LoopState) (h : W16) : Stepped :=
  let k : Int := l.pass.toNat
  let d := (h.extractLsb' 6 5).toNat
  let a := (h.extractLsb' 11 5).toNat
  let reg : Bool := l.delta 0 != 0 || l.delta 1 != 0
  if !reg then .half h
  else match moveField 6 0 63 d k (l.delta 0), moveField 6 0 63 a k (l.delta 1) with
    | some d', some a' => .word (shortFields h d'.toNat a'.toNat) 0 2 true
    | _, _ => .bad 2

/-! ## Recipe headers and flashback slots (16 R300, R301) -/

/-- A valid recipe header's lists and body length in halfwords. -/
structure Recipe where
  vs : List Nat := []
  us : List Nat := []
  blen : Nat := 0
  deriving DecidableEq, Repr

/-- R301: read a header of two doublewords; none when it is not valid. -/
def parseRecipe (valloc w0 w1 : Nat) : Option Recipe :=
  let nv := field w0 51 48
  let nu := field w0 55 52
  let vn := (List.range 8).map fun i => field w0 (6 * i + 5) (6 * i)
  let un := (List.range 8).map fun i => field w1 (6 * i + 5) (6 * i)
  let vs := vn.take nv
  let us := un.take nu
  if field w0 63 56 = 0xA7 && nv ≤ 8 && nu ≤ 8 && (vn.drop nv).all (· == 0) && (un.drop nu).all (· == 0) && vs.Nodup && us.Nodup &&
      vs.all (fun r => decide (r < valloc)) && field w1 63 60 = 0 then
    some ⟨vs, us, field w1 59 48⟩
  else none

/-- R74: the header at an address, read as instruction words are; none when it is not valid. -/
def State.readRecipe (s : State) (va : W64) : Except FetchFail (Option Recipe) :=
  match s.fetchHalves 8 va with
  | .error e => .error e
  | .ok hs =>
    let n := bytesNat (hs.flatMap fun h => natBytes 2 h.toNat)
    .ok (if va.getLsbD 0 then none else parseRecipe s.cur.vLimit (n % 2 ^ 64) (n / 2 ^ 64))

/-- The place of a byte of the current context's slot. -/
def Ctx.slotLoc (c : Ctx) (off : Nat) : Loc := ⟨1, c.core * 2 ^ 21 + c.fbbase + off⟩

/-- R311: the words of a context's slot are written whole. -/
def State.cleanSlot (s : State) (c : Ctx) : State :=
  let at_ := (c.slotLoc 0).addr
  { s with poison := s.poison.filter fun k => !(k.2 == 1 && at_ ≤ k.1 * 4 && k.1 * 4 < at_ + 9216) }
/-- R311: a word that a resumption reads from the current context's slot, beside the registers of its recipe, holds an error. -/
def State.slotBad (s : State) (r : Recipe) : Bool :=
  s.poison.any fun k => k.2 == 1 && (
    let o := k.1 * 4 - (s.cur.slotLoc 0).addr
    decide ((s.cur.slotLoc 0).addr ≤ k.1 * 4) && (decide (o < 1024 * r.vs.length) || (decide (0x2000 ≤ o) && decide (o < 0x2000 + 8 * r.us.length)) ||
      (decide (0x2040 ≤ o) && decide (o < 0x2180))))
/-- Table 16-1: write the whole slot of the current context; the loop buffer's contents go with it (assumption 12). -/
def State.writeSlot (s : State) (r : Recipe) (hdr resume : W64) (lp : Option LoopState) (deadline entry : Nat) (s1 s2 : W64) : State :=
  let c := s.cur
  let vpart := (List.range 8).flatMap fun i => match r.vs[i]? with
    | some v => natBytes 1024 (s.readV v).toNat
    | none => List.replicate 1024 0
  let upart := (List.range 8).flatMap fun i => match r.us[i]? with
    | some u => natBytes 8 (s.readS u).toNat
    | none => List.replicate 8 0
  let lpart := match lp with
    | some l => natBytes 8 l.count.toNat ++ natBytes 8 l.pass.toNat ++ natBytes 8 (l.slot + 256)
    | none => List.replicate 24 0
  let bytes := vpart ++ upart ++ natBytes 8 resume.toNat ++ natBytes 8 hdr.toNat ++ natBytes 32 c.em.toNat ++
    ((List.range 7).flatMap fun i => natBytes 32 (s.readP (i + 1)).toNat) ++ lpart ++ natBytes 4 deadline ++ natBytes 4 entry ++
    natBytes 8 s1.toNat ++ natBytes 8 s2.toNat ++ List.replicate 640 0
  let s := (s.writeBytes (c.slotLoc 0) bytes).cleanSlot c
  s.updCur fun c => { c with dirty := false, fbLoop := lp, rcpHeader := hdr }

/-- R235: the matrix operations that count against the limit of 64: those in the open set or in a batch not yet complete. -/
def Ctx.mxCount (c : Ctx) : Nat := c.mxOpen.length + ((c.mxBatches.filter fun b => !b.ops.isEmpty).map fun b => b.count).sum

/-! ## Batches (07 R158, R163) -/

/-- R163: the open set becomes the next batch; ended submissions leave it complete. -/
def State.closeOpen (s : State) : State :=
  if s.cur.openSet.isEmpty then s
  else
    let n := s.cur.batchN + 1
    let js := s.cur.openSet.filter fun j => s.jobs.any fun x => x.id == j
    s.updCur fun c => { c with openSet := [], batchN := n, batches := if js.isEmpty then c.batches else c.batches ++ [⟨n.toNat, s.cur.openSet⟩] }
/-- R235: the same for matrix operations; a batch whose operations have all ended keeps its outcome. -/
def State.closeMx (s : State) : State :=
  if s.cur.mxOpen.isEmpty then s
  else
    let n := s.cur.mxBatchN + 1
    let ops := s.cur.mxOpen.filter fun o => s.mxops.any fun x => x.id == o
    let count := s.cur.mxOpen.length
    { s with
      mxops := s.mxops.map fun o => if ops.contains o.id then { o with batch := n.toNat } else o
      cur := { s.cur with mxOpen := [], mxOpenFail := none, mxBatchN := n,
                           mxBatches := s.cur.mxBatches ++ [⟨n.toNat, ops, count, s.cur.mxOpenFail⟩] } }

end Sys2Proof.Machine
end

