-- ==== Sys2Proof/Machine/Tx.lean ====
section
/-!
DEFINITION. Transactions (14 R275–R286): the accesses of open, doomed and outside lanes, and the transaction instructions. The
slices' side of a commit (16 R295) is in the events of EvTx.
-/

namespace Sys2Proof.Machine

/-! ## Transactional accesses (R281) -/

/-- Roles of lanes in a transactional group: open, doomed, outside. -/
def State.txOpen (s : State) (m : Mask) : Mask := if s.cur.txg then m &&& s.cur.openMask else 0
def State.txDoomed (s : State) (m : Mask) : Mask := if s.cur.txg then m &&& s.cur.doomed &&& ~~~s.cur.openMask else 0
def State.txOutside (s : State) (m : Mask) : Mask := m &&& ~~~(s.txOpen m ||| s.txDoomed m)

/-- The lane holds the token (R280). -/
def Ctx.holdsToken (c : Ctx) (i : Nat) : Bool := c.txHold && c.txLane == i
/-- The home tile of a translated word (R124). -/
def State.homeOf (s : State) (x : Xlat) : Nat := (s.part s.curTag).homeTile x.loc.tt x.home
/-- Another lane's lock on a line (R295). -/
def State.lockedByOther (s : State) (i line : Nat) : Bool :=
  match SMap.find s.locks line with
  | some k => !(k.ctx == s.cur.id && k.lane == i)
  | none => false
/-- R295: locks a slice holds. -/
def State.locksAt (s : State) (home : Nat) : Nat := (s.locks.filter fun k => k.2.home == home).length

/-- What a lane's transactional access ends with. -/
inductive TxRes (α : Type) where
  | ok (a : α)
  | abort (cause : Nat) (fkind : Nat)
  | wait

/-- R281: a lane's page check. -/
def State.txPage (s : State) (acc : Acc) (n i va : Nat) : TxRes Xlat :=
  match s.checkLane acc n va (Nat.pair 0 i) with
  | .error e => .abort 7 e.1
  | .ok x => if x.loc.tt ≠ 0 then .abort 6 0 else if x.ms || x.nc then .abort 5 0 else .ok x

/-- The aligned words of an access: each with its place, its home address and the bytes used. -/
def txWords (x : Xlat) (n : Nat) : List (Loc × Nat × BitVec 4) :=
  if n < 4 then
    let o := x.loc.addr % 4
    [(⟨0, x.loc.addr - o⟩, x.home - o, BitVec.ofNat 4 ((2 ^ n - 1) * 2 ^ o))]
  else (List.range (n / 4)).map fun k => (⟨0, x.loc.addr + 4 * k⟩, x.home + 4 * k, 15)

/-- Bytes of a word chosen by a mask. -/
def mixWord (m : BitVec 4) (new old : W32) : W32 :=
  BitVec.ofNat 32 (packNat 8 (fun i => (getByte (if m.getLsbD i then new else old) i).toNat) 4)

/-- R281: one word read by an open lane: its value and the state after. -/
def State.txReadWord (s : State) (i : Nat) (x : Xlat) (w : Loc × Nat × BitVec 4) : TxRes (W32 × State) :=
  let l := w.1
  let log := SMap.get {} s.cur.txlogs i
  let own := log.wlog.find? fun e => e.l == l
  let have_ : BitVec 4 := match own with | some e => e.m | none => 0
  let wv : W32 := match own with | some e => e.v | none => 0
  if (w.2.2 &&& ~~~have_) = 0 then .ok (wv, s)
  else match log.rlog.find? fun e => e.l == l with
    | some e => .ok (mixWord have_ wv e.v, s)
    | none =>
      let line := l.addr / 128
      let hold := s.cur.holdsToken i
      let home := s.homeOf { x with home := w.2.1 }
      if 16 ≤ log.rlog.length then .abort 3 0
      else if s.lockedByOther i line then (if hold then .wait else .abort 1 0)
      else if hold && (SMap.find s.locks line).isNone && 4096 ≤ s.locksAt home then .wait
      else if s.isPoisoned l then .abort 7 kPoison
      else
        let v := if s.delivers s.agent l then BitVec.ofNat 32 (bytesNat ((List.range 4).map fun k => s.seeByte false ⟨0, l.addr + k⟩)) else 0
        let s := if hold && (SMap.find s.locks line).isNone then
            { s with locks := SMap.put s.locks line { ctx := s.cur.id, lane := i, home := home, readOnly := true } } else s
        .ok (mixWord have_ wv v,
          (s.dropLines [line]).updCur fun c => { c with txlogs := SMap.put c.txlogs i { log with rlog := log.rlog ++ [⟨l, home, v⟩] } })

/-- The words of an access, in order. -/
def State.txReadWords (s : State) (i : Nat) (x : Xlat) : List (Loc × Nat × BitVec 4) → TxRes (List W32 × State)
  | [] => .ok ([], s)
  | w :: t => match s.txReadWord i x w with
    | .abort c k => .abort c k
    | .wait => .wait
    | .ok r => match r.2.txReadWords i x t with
      | .abort c k => .abort c k
      | .wait => .wait
      | .ok q => .ok (r.1 :: q.1, q.2)

/-- R281: one word written by an open lane. -/
def State.txWriteWord (s : State) (i : Nat) (x : Xlat) (w : Loc × Nat × BitVec 4) (v : W32) : TxRes State :=
  let log := SMap.get {} s.cur.txlogs i
  let put (wl : List TxWrite) : State := s.updCur fun c => { c with txlogs := SMap.put c.txlogs i { log with wlog := wl } }
  match log.wlog.find? fun e => e.l == w.1 with
  | some _ => .ok (put (updWhere (fun e => e.l == w.1) (fun e => { e with v := mixWord w.2.2 v e.v, m := e.m ||| w.2.2 }) log.wlog))
  | none =>
    if 8 ≤ log.wlog.length then .abort 4 0
    else .ok (put (log.wlog ++ [⟨w.1, s.homeOf { x with home := w.2.1 }, mixWord w.2.2 v 0, w.2.2⟩]))
def State.txWriteWords (s : State) (i : Nat) (x : Xlat) : List ((Loc × Nat × BitVec 4) × W32) → TxRes State
  | [] => .ok s
  | w :: t => match s.txWriteWord i x w.1 w.2 with
    | .ok s => s.txWriteWords i x t
    | r => r

/-- Abort one open lane of the current context; an aborting holder releases the token. -/
def State.txAbort (s : State) (i cause fkind : Nat) (va : Nat) : State :=
  let hold := s.cur.holdsToken i
  let s := s.updCur fun c => c.abortLane cause fkind (BitVec.ofNat 64 va) i
  if hold then (s.releaseToken s.cur.id).updCur fun c => { c with txHold := false, txLane := 0 } else s

/-- R281: one open lane's load: its bytes, none when it aborts; or the group waits. -/
def State.txLoadLane (s : State) (n i va : Nat) : TxRes (Option (List Byte) × State) :=
  match s.txPage (.load n) n i va with
  | .abort c k => .ok (none, s.txAbort i c k va)
  | .wait => .wait
  | .ok x => match s.txReadWords i x (txWords x n) with
    | .abort c k => .ok (none, s.txAbort i c k va)
    | .wait => .wait
    | .ok r =>
      let bs := r.1.flatMap fun w => natBytes 4 w.toNat
      .ok (some ((bs.drop (if n < 4 then x.loc.addr % 4 else 0)).take n), r.2)
/-- R281: the open lanes' loads, ascending. -/
def State.txLoads (s : State) (n : Nat) : List (Nat × Nat) → TxRes (List (Nat × List Byte) × State)
  | [] => .ok ([], s)
  | a :: t => match s.txLoadLane n a.1 a.2 with
    | .abort c k => .abort c k
    | .wait => .wait
    | .ok r => match r.2.txLoads n t with
      | .abort c k => .abort c k
      | .wait => .wait
      | .ok q => .ok ((match r.1 with | some bs => [(a.1, bs)] | none => []) ++ q.1, q.2)

/-- R281: the open lanes' stores, ascending. -/
def State.txStores (s : State) (n : Nat) (ws : List (Nat × Nat × List Byte)) : State :=
  ws.foldl (fun s w =>
    match s.txPage (.store n) n w.1 w.2.1 with
    | .abort c k => s.txAbort w.1 c k w.2.1
    | .wait => s
    | .ok x =>
      let o := if n < 4 then x.loc.addr % 4 else 0
      let bs := List.replicate o 0 ++ w.2.2
      let vs := (txWords x n).zip ((List.range (max 1 (n / 4))).map fun k => BitVec.ofNat 32 (bytesNat ((bs.drop (4 * k)).take 4)))
      match s.txWriteWords w.1 x vs with
      | .ok t => t
      | .abort c k => s.txAbort w.1 c k w.2.1
      | .wait => s) s

/-- R281: an outside lane that fails a check aborts every open lane with INSN and the event is raised for the outside lanes. -/
def State.outsideCheck (s : State) (acc : Acc) (n : Nat) (addrs : List (Nat × Nat)) (k : State → List LaneOk → Eff) : Eff :=
  let bad : Bool := (addrs.any fun a => match s.checkLane acc n a.2 (Nat.pair 0 a.1) with | .error _ => true | .ok _ => false)
  (if bad then s.abortOpen 10 allLanes else s).withLanes acc n addrs k

/-- R281: an ordered access has its order when it acts for a lane that is not in a transaction. -/
def State.ordered (s : State) : Bool := !s.cur.txg || s.txOutside s.cur.em != 0

/-! ## Transaction instructions -/

/-- R278: the transaction of the current context ends. -/
def State.endTx (s : State) : State :=
  let s := if s.cur.txHold then s.releaseToken s.cur.id else s
  s.updCur fun c => { c with txg := false, txHold := false, txLane := 0, doomed := 0, txlogs := [] }

/-- Meta of a transaction form. -/
def txMeta (s : Bool) (vEnd : Nat) : Meta := { settle := s, vEnd := vEnd }

/-- R278: a lane's record when it opens. -/
def openWord (w : W32) (token : Bool) : W32 := (w &&& 0x00FF00FF) ||| 0x400 ||| (if token then 0x100 else 0)
/-- R278, R279: a lane's record when it is refused. -/
def refuseWord (w : W32) : W32 := (w &&& 0x00FF010F) ||| 0x200
/-- R278: the lanes refused, and those at the threshold. -/
def Ctx.txRefused (c : Ctx) : Mask :=
  ofBits fun i => c.em.getLsbD i && (let w := (c.txWord i).toNat; (field w 3 0 == 3 || field w 3 0 == 4) && !w.testBit 9)
def Ctx.txFallback (c : Ctx) : Mask :=
  ofBits fun i => c.em.getLsbD i && decide (c.txThresh.toNat ≤ field (c.txWord i).toNat 7 4)

/-- R278: what `txbegin` does once it has a place and, where needed, the token. Its predicate is written at once: the accesses it guards read it
before a settle, and a refused lane makes none (15 R289, R291; assumption 51). -/
def State.openLanes (s : State) (d : Nat) (x : Mask) (token : Option Nat) : State :=
  let a := s.cur.em
  let s := s.updCur fun c =>
    { c with
      txrec := (maskLanes a).foldl (fun m i => SMap.set 0 m i
        (if x.getLsbD i then refuseWord (c.txWord i) else openWord (c.txWord i) (token == some i))) c.txrec
      txlogs := []
      txg := (a &&& ~~~x) != 0
      txHold := token.isSome
      txLane := token.getD 0 }
  s.writeP d a (a &&& ~~~x)

/-- R278: write the flashback slot as a `yield` does, resuming at this `txbegin`. -/
def State.txSlot (s : State) (r : Recipe) : State :=
  let c := s.cur
  let entry := s.slotNum c 0x216C 4 % 2
  s.writeSlot r c.rcpHeader c.pc c.loop (c.deadline - c.issued) entry
    (if entry = 1 then BitVec.ofNat 64 (s.slotNum c 0x2170 8) else 0) (if entry = 1 then BitVec.ofNat 64 (s.slotNum c 0x2178 8) else 0)

/-- R278–R280: pd := the lanes whose transaction opens. -/
def execTxbegin (s : Bool) (d : BitVec 3) (st : State) : Host.Outcome State Fault Refusal :=
  issue { txMeta s 0 with insn := true } st fun t =>
    let t := if t.cur.txg then t.endTx else t
    let others := t.ctxs.filter fun c => c.isGroup && c.core == t.cur.core
    let busy := (others.filter fun c => c.txg).length
    let queued := if t.cur.woken = 4 then 0 else (others.filter fun c => c.park == some .txPlace).length
    if 4 ≤ busy + queued then .wait t .txPlace
    else
      let x := t.cur.txRefused
      let f := t.cur.txFallback &&& ~~~x
      let tag := t.curTag
      let holds : Bool := (t.part tag).token == some t.cur.id
      if f ≠ 0 && !holds then
        let q := (t.part tag).tokenQ
        .wait (if q.contains t.cur.id then t else t.updPart tag fun p => { p with tokenQ := p.tokenQ ++ [t.cur.id] }) .token
      else
        let token := if f ≠ 0 then lowestLane f else none
        if t.cur.rcpHeader = 0 then .done ((t.txSlot {}).openLanes d.toNat x token)
        else match t.readRecipe t.cur.rcpHeader with
          | .error e => .event t (t.fetchEvent e)
          | .ok none => .event t (t.groupEvent kIllegal 3 0)
          | .ok (some r) =>
            let bad := t.poisonMask { settle := s, vs := r.vs, ss := r.us }
            if bad = 0 then .done ((t.txSlot r).openLanes d.toNat x token) else .event t (t.regPoison bad)

/-- R282, R295: the commit of an open lane: one prepare for each home slice of its logs. -/
def State.commitOf (s : State) (i : Nat) : TxCommit :=
  let log := SMap.get {} s.cur.txlogs i
  let homes := sortNat ((log.rlog.map fun e => e.home) ++ (log.wlog.map fun e => e.home))
  { id := 0, ctx := s.cur.id, lane := i, log := log, holder := s.cur.holdsToken i, todo := homes,
    phase := if homes.isEmpty then 3 else 0, ok := homes.isEmpty }

/-- R276: a lane's record after its commit. -/
def commitWord (w : W32) : W32 := w &&& 0x00000300

/-- R282: the lanes have ended: pd, the token and the end of the transaction. -/
def State.finishTx (s : State) (d : Nat) : State :=
  let mine := s.commits.filter fun c => c.ctx == s.cur.id
  let ok := ofBits fun i => mine.any fun c => c.lane == i && c.ok
  let s := { s with commits := s.commits.filter fun c => c.ctx != s.cur.id }
  let s := s.updCur fun c => { c with txrec := (maskLanes ok).foldl (fun m i => SMap.set 0 m i (commitWord (c.txWord i))) c.txrec }
  (s.endTx.acquire 2).defer [.prd d allLanes ok 0] 0 0 true

/-- R282: pd := the lanes that committed, in all 256 lanes. -/
def execTxend (s : Bool) (d : BitVec 3) (st : State) : Host.Outcome State Fault Refusal :=
  issue { txMeta s 0 with nonreplay := true } st fun t =>
    let mine := t.commits.filter fun c => c.ctx == t.cur.id
    if !mine.isEmpty then
      if mine.all fun c => c.phase == 3 then .done (t.finishTx d.toNat) else .wait t .txend
    else whenPerformed t t.nextId fun t =>
      let cs := (maskLanes (t.txOpen allLanes)).map t.commitOf
      let ids := (List.range cs.length).zip cs |>.map fun p => { p.2 with id := t.nextId + p.1 }
      let u := { t with commits := t.commits ++ ids, nextId := t.nextId + cs.length }
      if ids.all fun c => c.phase == 3 then .done (u.finishTx d.toNat)
      else .wait (u.updCur fun c => { c with dirty := true }) .txend

/-- R283: every open lane of `em` aborts with EXPLICIT. -/
def execTxabort (s : Bool) (st : State) : Host.Outcome State Fault Refusal :=
  issue (txMeta s 0) st fun t => .done (t.abortOpen 9 t.cur.em)

/-- R284: vd := the active lanes' records, deferred. -/
def execTxstat (s : Bool) (d : BitVec 6) (st : State) : Host.Outcome State Fault Refusal :=
  issue (txMeta s (topReg [d.toNat])) st fun t => .done (t.defer [.vec d.toNat t.cur.em (ofLanes t.cur.txWord) 0] 0 0 true)

/-- R284: the pair vd, vd + 1 := the address a lane with `CAUSE` FAULT failed at, deferred. -/
def execTxstatAddr (s : Bool) (d : BitVec 5) (st : State) : Host.Outcome State Fault Refusal :=
  issue (txMeta s (topReg [2 * d.toNat + 1])) st fun t =>
    let a (i : Nat) : W64 := if field (t.cur.txWord i).toNat 3 0 = 7 then SMap.get 0 t.cur.txAddr i else 0
    .done (t.defer [.vec (2 * d.toNat) t.cur.em (ofLanes fun i => (a i).extractLsb' 0 32) 0,
      .vec (2 * d.toNat + 1) t.cur.em (ofLanes fun i => (a i).extractLsb' 32 32) 0] 0 0 true)

end Sys2Proof.Machine
end

