-- ==== Sys2Proof/Machine/Atomics.lean ====
section
/-!
DEFINITION. Atomics, reductions, uniform atomics and fences (03 R90–R95, R98).
-/

namespace Sys2Proof.Machine

/-- R98: the address after the current instruction; after the last slot of a body it is the address after the body, from which `eret`
goes on with the next pass (assumption 13). -/
def State.nextPc (s : State) : W64 := s.cur.pc + BitVec.ofNat 64 (if s.cur.slotLen = 0 then 4 else s.cur.slotLen)

/-- R98: the poisoned lanes' event, with the program counter at the next instruction. -/
def State.poisonEvent (s : State) (bad : List LaneOk) : FaultEv :=
  { s.laneEvent (bad.map fun l => ⟨l.lane, kPoison, 0, l.va⟩) false with pc := s.nextPc }

/-- The operand of w bytes a lane holds in register r and the one after it. -/
def State.laneVal (s : State) (w r lane : Nat) : W64 :=
  (if w = 8 then (laneOf (s.readV (r + 1)) lane) else 0) ++ laneOf (s.readV r) lane

/-- R93: a release order of an atomic or reduction. -/
def relOrder (o : Nat) : Bool := o == 2 || o == 3 || o == 4
/-- R90: an acquire order. -/
def acqOrder (o : Nat) : Bool := o == 1 || o == 3 || o == 4

/-- R90–R92, R98: a vector atomic of w bytes; `regs` registers hold its operands, `pcie` when TT 5 carries it. -/
def atomMO (op : Rmw) (w regs : Nat) (pcie : Bool) (s : Bool) (o : BitVec 3) (d a : BitVec 6) (b : BitVec 4) (c : BitVec 2) (st : State) :
    Host.Outcome State Fault Refusal :=
  issue { settle := s, vEnd := topReg [d.toNat + regs - 1, a.toNat], insn := true, nonreplay := true, ss := [b.toNat]
          vs := a.toNat :: (List.range regs).map (d.toNat + ·) } st fun t =>
    t.withLanes (.atomic pcie) w (t.laneAddrs t.cur.em (t.readS b.toNat) a.toNat) fun t oks =>
      t.whenOrdered (relOrder o.toNat) oks w fun t => if o = 4 && c = 3 && t.forwardsOut then .wait t .limit else
        let vr := if op = .cas then d.toNat + w / 4 else d.toNat
        let ls := oks.map fun l => (l, t.laneVal w vr l.lane, t.laneVal w d.toNat l.lane)
        t.atomicLanes op w ls fun t bs bad =>
          let t := if bs.isEmpty then t else t.defer (loadVals false w d.toNat (ofBits fun i => bs.any fun p => p.1 == i) bs) 0 0 true
          let t := (if acqOrder o.toNat then t.acquire c.toNat else t).fenceAfter (o == 4) c
          if bad.isEmpty then .done t else .event t (t.poisonEvent bad)

/-- R93, R98: a reduction of Table 01-5's FN. -/
def redMO (fn : Nat) (pcie : Bool) (s : Bool) (o : BitVec 3) (d a : BitVec 6) (b : BitVec 4) (c : BitVec 2) (st : State) :
    Host.Outcome State Fault Refusal :=
  let w := (redOp fn).2
  issue { settle := s, vEnd := topReg [d.toNat + w / 4 - 1, a.toNat], insn := true, nonreplay := true, ss := [b.toNat]
          vs := a.toNat :: (List.range (w / 4)).map (d.toNat + ·) } st fun t =>
    t.withLanes (.atomic pcie) w (t.laneAddrs t.cur.em (t.readS b.toNat) a.toNat) fun t oks =>
      let go (t : State) : Eff :=
       if o = 4 && t.writeLocked oks then .wait t (t.lockPark oks) else
       let bad := t.poisonedLanes oks w
       let ls := (oks.filter fun l => !bad.contains l).map fun l => (l, t.laneVal w d.toNat l.lane)
       t.reduceLanes fn (relOrder o.toNat) ls fun t =>
        let t := (if o = 4 then t.flush t.own else t).fenceAfter (o == 4) c
        if bad.isEmpty then .done t else .event t (t.poisonEvent bad)
      if o = 4 then whenFenced t c go else go t

/-- R94: one 64-bit atomic for the whole group, attributed as R87 gives. -/
def atomUO (op : Rmw) (pcie : Bool) (s : Bool) (o : BitVec 3) (d a : BitVec 6) (c : BitVec 2) (st : State) :
    Host.Outcome State Fault Refusal :=
  issue { settle := s, seq := true, insn := true, nonreplay := true
          ss := [d.toNat, a.toNat] ++ (if op = .cas then [d.toNat + 1] else []) } st fun t =>
    t.withLanes (.atomic pcie) 8 [((lowestLane t.cur.em).getD 0, (t.readS a.toNat).toNat)] fun t oks =>
      t.whenOrdered (relOrder o.toNat) oks 8 fun t => if o = 4 && c = 3 && t.forwardsOut then .wait t .limit else
        let v := if op = .cas then t.readS (d.toNat + 1) else t.readS d.toNat
        t.atomicLanes op 8 (oks.map fun l => (l, v, t.readS d.toNat)) fun t bs bad =>
          let t := match bs with
            | p :: _ => t.defer [.uni d.toNat (BitVec.ofNat 64 (bytesNat p.2)) false] 0 0 true
            | [] => t
          let t := (if acqOrder o.toNat then t.acquire c.toNat else t).fenceAfter (o == 4) c
          if bad.isEmpty then .done t else .event t (t.poisonEvent bad)

/-- Table 03-3: memory := old + v; the old value, deferred. -/
def execAtomAdd32 (s : Bool) (o : BitVec 3) (d a : BitVec 6) (b : BitVec 4) (c : BitVec 2) (st : State) : Host.Outcome State Fault Refusal :=
  atomMO .add 4 1 true s o d a b c st

/-- Table 03-3: memory := the signed minimum; the old value, deferred. -/
def execAtomMinI32 (s : Bool) (o : BitVec 3) (d a : BitVec 6) (b : BitVec 4) (c : BitVec 2) (st : State) : Host.Outcome State Fault Refusal :=
  atomMO .minI 4 1 false s o d a b c st

/-- Table 03-3: memory := the signed maximum; the old value, deferred. -/
def execAtomMaxI32 (s : Bool) (o : BitVec 3) (d a : BitVec 6) (b : BitVec 4) (c : BitVec 2) (st : State) : Host.Outcome State Fault Refusal :=
  atomMO .maxI 4 1 false s o d a b c st

/-- Table 03-3: memory := old AND v; the old value, deferred. -/
def execAtomAnd32 (s : Bool) (o : BitVec 3) (d a : BitVec 6) (b : BitVec 4) (c : BitVec 2) (st : State) : Host.Outcome State Fault Refusal :=
  atomMO .and 4 1 false s o d a b c st

/-- Table 03-3: memory := old OR v; the old value, deferred. -/
def execAtomOr32 (s : Bool) (o : BitVec 3) (d a : BitVec 6) (b : BitVec 4) (c : BitVec 2) (st : State) : Host.Outcome State Fault Refusal :=
  atomMO .or 4 1 false s o d a b c st

/-- Table 03-3: memory := old XOR v; the old value, deferred. -/
def execAtomXor32 (s : Bool) (o : BitVec 3) (d a : BitVec 6) (b : BitVec 4) (c : BitVec 2) (st : State) : Host.Outcome State Fault Refusal :=
  atomMO .xor 4 1 false s o d a b c st

/-- Table 03-3: memory := v; the old value, deferred. -/
def execAtomExch32 (s : Bool) (o : BitVec 3) (d a : BitVec 6) (b : BitVec 4) (c : BitVec 2) (st : State) : Host.Outcome State Fault Refusal :=
  atomMO .exch 4 1 true s o d a b c st

/-- Table 03-3: memory := d + 1 if old = d; the old value, deferred. -/
def execAtomCas32 (s : Bool) (o : BitVec 3) (d a : BitVec 6) (b : BitVec 4) (c : BitVec 2) (st : State) : Host.Outcome State Fault Refusal :=
  atomMO .cas 4 2 true s o d a b c st

/-- Table 03-3: memory := old + v over 64 bits; the old value, deferred. -/
def execAtomAdd64 (s : Bool) (o : BitVec 3) (d a : BitVec 6) (b : BitVec 4) (c : BitVec 2) (st : State) : Host.Outcome State Fault Refusal :=
  atomMO .add 8 2 true s o d a b c st

/-- Table 03-3: memory := the unsigned minimum; the old value, deferred. -/
def execAtomMinN32 (s : Bool) (o : BitVec 3) (d a : BitVec 6) (b : BitVec 4) (c : BitVec 2) (st : State) : Host.Outcome State Fault Refusal :=
  atomMO .minN 4 1 false s o d a b c st

/-- Table 03-3: memory := the unsigned maximum; the old value, deferred. -/
def execAtomMaxN32 (s : Bool) (o : BitVec 3) (d a : BitVec 6) (b : BitVec 4) (c : BitVec 2) (st : State) : Host.Outcome State Fault Refusal :=
  atomMO .maxN 4 1 false s o d a b c st

/-- Table 03-3: memory := RNE32(old + v); the old value, deferred. -/
def execAtomFaddF32 (s : Bool) (o : BitVec 3) (d a : BitVec 6) (b : BitVec 4) (c : BitVec 2) (st : State) : Host.Outcome State Fault Refusal :=
  atomMO .fadd 4 1 false s o d a b c st

/-- Table 03-3: memory := v over 64 bits; the old value, deferred. -/
def execAtomExch64 (s : Bool) (o : BitVec 3) (d a : BitVec 6) (b : BitVec 4) (c : BitVec 2) (st : State) : Host.Outcome State Fault Refusal :=
  atomMO .exch 8 2 true s o d a b c st

/-- Table 03-3: memory := d + 2, d + 3 if old = d, d + 1; the old value, deferred. -/
def execAtomCas64 (s : Bool) (o : BitVec 3) (d a : BitVec 6) (b : BitVec 4) (c : BitVec 2) (st : State) : Host.Outcome State Fault Refusal :=
  atomMO .cas 8 4 true s o d a b c st

/-- R93: reduction 0. -/
def execRedAdd32 (s : Bool) (o : BitVec 3) (d a : BitVec 6) (b : BitVec 4) (c : BitVec 2) (st : State) : Host.Outcome State Fault Refusal :=
  redMO 0 true s o d a b c st

/-- R93: reduction 1. -/
def execRedMinI32 (s : Bool) (o : BitVec 3) (d a : BitVec 6) (b : BitVec 4) (c : BitVec 2) (st : State) : Host.Outcome State Fault Refusal :=
  redMO 1 false s o d a b c st

/-- R93: reduction 2. -/
def execRedMaxI32 (s : Bool) (o : BitVec 3) (d a : BitVec 6) (b : BitVec 4) (c : BitVec 2) (st : State) : Host.Outcome State Fault Refusal :=
  redMO 2 false s o d a b c st

/-- R93: reduction 3. -/
def execRedAnd32 (s : Bool) (o : BitVec 3) (d a : BitVec 6) (b : BitVec 4) (c : BitVec 2) (st : State) : Host.Outcome State Fault Refusal :=
  redMO 3 false s o d a b c st

/-- R93: reduction 4. -/
def execRedOr32 (s : Bool) (o : BitVec 3) (d a : BitVec 6) (b : BitVec 4) (c : BitVec 2) (st : State) : Host.Outcome State Fault Refusal :=
  redMO 4 false s o d a b c st

/-- R93: reduction 5. -/
def execRedXor32 (s : Bool) (o : BitVec 3) (d a : BitVec 6) (b : BitVec 4) (c : BitVec 2) (st : State) : Host.Outcome State Fault Refusal :=
  redMO 5 false s o d a b c st

/-- R93: reduction 6. -/
def execRedFaddF32 (s : Bool) (o : BitVec 3) (d a : BitVec 6) (b : BitVec 4) (c : BitVec 2) (st : State) : Host.Outcome State Fault Refusal :=
  redMO 6 false s o d a b c st

/-- R93: reduction 7. -/
def execRedAdd64 (s : Bool) (o : BitVec 3) (d a : BitVec 6) (b : BitVec 4) (c : BitVec 2) (st : State) : Host.Outcome State Fault Refusal :=
  redMO 7 true s o d a b c st

/-- R94: adds sd; sd := the old value, deferred. -/
def execSatomAdd (s : Bool) (o : BitVec 3) (d a : BitVec 6) (c : BitVec 2) (st : State) : Host.Outcome State Fault Refusal :=
  atomUO .add true s o d a c st

/-- R94: stores sd; sd := the old value, deferred. -/
def execSatomExch (s : Bool) (o : BitVec 3) (d a : BitVec 6) (c : BitVec 2) (st : State) : Host.Outcome State Fault Refusal :=
  atomUO .exch true s o d a c st

/-- R94: stores s(d+1) if the old value is sd; sd := the old value, deferred. -/
def execSatomCas (s : Bool) (o : BitVec 3) (d a : BitVec 6) (c : BitVec 2) (st : State) : Host.Outcome State Fault Refusal :=
  atomUO .cas true s o d a c st

/-- R94: stores the unsigned maximum; sd := the old value, deferred. -/
def execSatomMaxN64 (s : Bool) (o : BitVec 3) (d a : BitVec 6) (c : BitVec 2) (st : State) : Host.Outcome State Fault Refusal :=
  atomUO .maxN false s o d a c st

/-- R95: a fence of kind ORD 1 to 4. A release part orders what follows behind everything before; `.sc` performs it at once. -/
def execFence (s : Bool) (o : BitVec 3) (c : BitVec 2) (st : State) : Host.Outcome State Fault Refusal :=
  issue { settle := s, seq := true } st fun t =>
    let acq (t : State) : State := if o ≠ 2 then t.acquire c.toNat else t
    let rel (t : State) : State := if o ≠ 1 then t.updCur fun c => { c with relFence := t.nextId } else t
    if o = 4 then whenFenced t c fun t => .done (acq (rel t)) else .done (acq (rel t))

/-- R95: later submissions touch memory only after every earlier access of the context. -/
def execFenceAsync (s : Bool) (st : State) : Host.Outcome State Fault Refusal :=
  issue { settle := s, seq := true } st fun t => .done (t.updCur fun c => { c with asyncFence := t.nextId })

end Sys2Proof.Machine
end

