-- ==== Sys2Proof/Machine/Sched.lean ====
section
/-!
DEFINITION. The issue arbiter (18 R343–R345) and the preparation of one step: which context issues, its instruction word and
what the loop buffer makes of it (02 R70, R71). The schedule of assumption 2 is read here.
-/

namespace Sys2Proof.Machine

/-! ## Readiness -/

/-- R341, R304: a context that may issue: not parked, stopped or ended, and not a clean group under a pre-emption request. -/
def Ctx.isReady (c : Ctx) : Bool :=
  c.kind != .none && c.park.isNone && !c.stopped && !c.ended && (c.isSeq || c.resident) &&
    !(c.preempt && c.isGroup && !c.dirty && !c.smode)

/-- Ready groups and sequencer contexts of a core. -/
def State.readyOn (s : State) (core : Nat) (seq : Bool) : List Ctx :=
  s.allCtxs.filter fun c => c.core == core && c.isSeq == seq && c.isReady

/-! ## The class of the next instruction (R343) -/

/-- One above the highest vector register of a word of class 1 to 3. -/
def vSpan (f : Fields) : Nat :=
  let r := stepFields f
  match f.maj.toNat with
  | 0x15 | 0x18 | 0x19 => 0
  | 0x17 => topReg ([f.a.toNat] ++ (if f.fn = 1 then [f.d.toNat] else []))
  | _ => topReg ((if r.1 then [f.d.toNat] else []) ++ (if r.2.1 then [f.a.toNat] else []) ++ (if r.2.2.1 then [f.b.toNat] else []))

/-- R302: whether a word, decodable or not, is of a kind a recipe body may hold. -/
def recipeWord (w : W32) (len : Nat) : Bool :=
  if len = 2 then w.extractLsb' 0 16 != 0#16
  else
    let f := fieldsOf w
    let m := f.maj.toNat
    (decide (m < 6) || (decide (8 ≤ m) && decide (m ≤ 0x19) && !(m == 0x15 && f.fn == 7#3 && (f.b == 4#6 || f.b == 5#6))) || m == 0x1A || m == 0x1B ||
      (m == 0x1D && f.fn == 4#3) || m == 0x20 || m == 0x22 || m == 0x24 || (m == 0x3D && f.fn == 0#3) || m == 0x3F)
/-- R343: the timing class of a context's next instruction; a word that faults counts as class 0. -/
def State.nextClass (s : State) (c : Ctx) : Nat :=
  let t : State := { s with cur := c }
  match t.fetchWord c.pc with
  | .error _ => 0
  | .ok (w, len) =>
    if len = 2 then
      match decodeHalf (w.extractLsb' 0 16) with
      | .error _ => 0
      | .ok _ => classOfHalf (w.extractLsb' 0 16)
    else match decodeFields (fieldsOf w) with
      | .error _ => 0
      | .ok _ => if c.vLimit < vSpan (fieldsOf w) || (c.recipe.isSome && !recipeWord w len) then 0 else classOfFields (fieldsOf w)

/-! ## The arbiter -/

/-- R343: a is older than b. -/
def Ctx.older (a b : Ctx) : Bool :=
  decide (a.age < b.age) || (a.age == b.age && (decide (a.resOrder < b.resOrder) || (a.resOrder == b.resOrder && decide (a.lg < b.lg))))
/-- The oldest of some contexts. -/
def oldest : List Ctx → Option Ctx
  | [] => none
  | c :: t => match oldest t with
    | none => some c
    | some d => if d.older c then some d else some c
/-- R345: every resident group of the core belongs to a launch with `order` = 1. -/
def State.ageOrder (s : State) (core : Nat) : Bool :=
  (s.allCtxs.filter fun c => c.isGroup && c.core == core && c.resident).all fun c => (s.launch c.launch).order
/-- R344, R345: the group a core issues. -/
def State.arbiter (s : State) (core : Nat) : Option Ctx :=
  let ready := s.readyOn core false
  match ready with
  | [] => none
  | [c] => some c
  | _ =>
    if s.ageOrder core then oldest ready
    else
      let k := s.core core
      let cls := ready.filter fun c => s.nextClass c == k.winClass
      if k.winCount = 0 || 32 ≤ k.winCount || cls.isEmpty then oldest ready else oldest cls

/-- Make a context the current one. -/
def State.switchTo (s : State) (id : Nat) : State :=
  if s.cur.id = id && s.cur.kind != .none then s
  else match s.ctxs.find? fun c => c.id == id && c.kind != .none with
    | none => s
    | some c => { s with cur := c, ctxs := (if s.cur.kind = .none then [] else [s.cur]) ++ s.ctxs.filter fun x => x.id != id }

/-! ## One step -/

/-- What a step is to do: nothing, a next state found already, an instruction of the current context, or an event. -/
inductive Todo where
  | idle
  | go (s : State)
  | run (p : Decoded) (s : State)
  | event (i : Instr) (s : State)

/-- R9: a halfword cannot be fetched: the whole group faults, nothing is issued. -/
def State.fetchFault (s : State) (f : FetchFail) : State :=
  let s := { s with oracle := s.oracle + 1 }
  (s.updCur fun c => { c with reissue := false, age := (s.core c.core).cyc.toNat + 1 }).raise (s.fetchEvent f)

/-- R22, R72: an `lpb` inside a body, or with a step word that is not valid, is not assigned. -/
def State.lpbDetail (s : State) (len : BitVec 5) (steps : BitVec 4) : Option Nat :=
  if s.cur.loop.isSome then some 0
  else match s.readBody len steps with
    | .ok r => if r.2.2 then none else some 0
    | .error _ => none
/-- The ILLEGAL detail of a word that is no instruction (R25): 4 where a recipe may not hold it (R302); a word is not assigned before its reserved
fields count, and so is an `lpb` with a step word that is not valid. -/
def State.badDetail (s : State) (w : W32) (len : Nat) : Bad → Nat
  | .reservedField =>
    if s.cur.recipe.isSome && !recipeWord w len then 4
    else
      let f := fieldsOf w
      if f.maj = 0x1E#6 then (s.lpbDetail (f.a.extractLsb' 0 5) (f.b.extractLsb' 0 3 ++ f.a.extractLsb' 5 1)).getD 1 else 1
  | _ => if s.cur.recipe.isSome && !recipeWord w len then 4 else 0

/-- R305: the listed registers := the slot's; the start values of an entry slot stand above them. -/
def State.loadListed (s : State) (r : Recipe) : State :=
  let c := s.cur
  let entry := s.slotNum c 0x216C 4 % 2 = 1
  let vs := (List.range 8).zip r.vs
  let us := ((List.range 8).zip r.us).filter fun x => !(entry && (x.2 = 1 || x.2 = 2))
  let vrf := vs.foldl (fun (m : SMap Vec) (x : Nat × Nat) => SMap.set 0 m (c.row x.2) (BitVec.ofNat 8192 (s.slotNum c (1024 * x.1) 1024))) s.vrf
  let sregs := us.foldl (fun (m : SMap W64) (x : Nat × Nat) => SMap.set 0 m x.2 (BitVec.ofNat 64 (s.slotNum c (0x2000 + 8 * x.1) 8))) c.sregs
  { s with vrf := vrf, cur := { c with sregs := sregs } }

/-- R302: a recipe run starts at its header, which is fetched again; an invalid one raises ILLEGAL with detail 3, for an entry
slot at the resume address (13 R273). An error found in the slot ends the launch (R311). -/
def State.startRecipe (s : State) : State :=
  let c := s.cur
  match s.readRecipe c.pc with
  | .error f => s.fetchFault f
  | .ok none =>
    let e := s.groupEvent kIllegal 3 0
    if (s.slotNum c 0x216C 4) % 2 = 1 then
      let at_ := evenPc (BitVec.ofNat 64 (s.slotNum c 0x2040 8))
      (s.updCur fun c => { c with recipe := none, em := BitVec.ofNat 256 (s.slotNum c 0x2050 32), deadline := s.slotNum c 0x2168 4 }).raise
        { e with pc := at_, rpc := at_ }
    else s.raise e
  | .ok (some r) =>
    if s.slotBad r then s.endWith kPoison 1 else
    let body := c.pc + 16
    let stop := body + BitVec.ofNat 64 (2 * r.blen)
    let s := (s.loadListed r).updCur fun c => { c with pc := body, recipe := some stop }
    if r.blen = 0 then s.endRecipe else s

/-- What comes before the next word: an event of an earlier reduction (R98), the fence of a `.sc.sys` access (R200, R203), or a translation of the
word whose walk meets a locked line (R297). -/
def State.held (s : State) : Bool :=
  s.cur.late.isSome || (s.cur.fenced.any s.notApplied) || (!s.locks.isEmpty && s.walkLocked s.curTag s.cur.pc.toNat)
def State.holdBack (s : State) : State :=
  match s.cur.late with
  | some e => (s.updCur fun c => { c with late := none }).raise { e with pc := s.cur.pc, rpc := s.cur.pc }
  | none => { s with nextId := s.nextId + 1, cur := { s.cur with park := some .limit, parkSeq := s.nextId } }
/-- The current context's word, decoded, with what the loop buffer makes of it. -/
def State.issueCur (s : State) : Todo :=
  if s.cur.recipe = some s.cur.pc then .go s.startRecipe
  else if s.held then .go s.holdBack
  else
  match s.fetchWord s.cur.pc with
  | .error f => .go (s.fetchFault f)
  | .ok (w, len) =>
    let st : Stepped := match s.cur.loop with
      | some l => if l.steps.isEmpty || s.cur.recipe.isSome then .bad 99 else if len = 2 then stepHalf l (w.extractLsb' 0 16) else stepFields32 l (fieldsOf w) len
      | none => .bad 99
    match st with
    | .word f off n reg =>
      let s := s.updCur fun c => { c with addrOff := off, slotLen := n, stepped := reg }
      match decodeFields f with
      | .ok p => .run p s
      | .error .reservedField => .go (if reg then s.loopFault 2 else s.faultWord kIllegal 1)
      | .error _ => .go (s.faultWord kIllegal 0)
    | .bad 99 | .half _ =>
      match (if len = 2 then decodeHalf (w.extractLsb' 0 16) else decodeFields (fieldsOf w)) with
      | .ok p => .run p s
      | .error e => .go (s.faultWord kIllegal (s.badDetail w len e))
    | .bad d => .go (s.loopFault d)

/-- R343: the core has issued for a group in this step. -/
def Core.issued (k : Core) : Bool := k.stages.any fun e => e.left == 4 && !e.seq
/-- R321, R343: a group of the core is ready in this step and none has issued yet: the step does not end before one has. -/
def State.issueDue (s : State) (core : Nat) : Bool :=
  !(s.core core).issued && (s.readyOn core false).any fun c => decide (c.age ≤ (s.core core).cyc.toNat)
/-- R343: a context may issue in this step: its core's slot is free; what had parked and has been woken takes none. -/
def State.slotFree (s : State) (c : Ctx) : Bool :=
  c.reissue || (if c.isSeq then !((s.core c.core).stages.any fun e => e.left == 4 && e.ctx == c.id) else !(s.core c.core).issued)

/-- One cycle of a core (R343): its group, its sequencer contexts, and the step of its clock drive, which stands in the schedule
behind them. -/
def State.cycle (s : State) (core : Nat) : Todo :=
  match (s.arbiter core).toList ++ s.readyOn core true with
  | [] => .event .clockDriveStep { s with ev := ⟨[core], []⟩ }
  | x :: rest =>
    (({ s with agenda := rest.map (fun (c : Ctx) => Move.ctx c.id) ++ Move.ev .clockDriveStep ⟨[core], []⟩ :: s.agenda }).switchTo x.id).issueCur

/-- Something of the context happens at a step of its core's clock drive. -/
def Ctx.timed (c : Ctx) : Bool :=
  c.kind != .none && ((c.deferred.any fun d => d.due != 0) || (match c.park with | some (.barrierTimed _ _ _) => true | some .wave => true | _ => false))
/-- The core whose turn it is when the schedule says nothing: the next one, in turn, with a context that may issue or that the
clock drive concerns. -/
def State.nextCore (s : State) : Option Nat :=
  let cs := (s.allCtxs.filter fun c => c.isReady || c.timed).map fun c => c.core
  match (cs.filter fun c => decide (s.cur.core < c)).min? with
  | some c => some c
  | none => cs.min?

/-! ## A program in place (assumption 17) -/

/-- A launch of one group whose text page lies at virtual address 0: what a LAUNCH packet and a resident block leave, so that
bytes at `pc` = 0x10000 are the next instruction. A matrix word runs in sequencer context 0, a privileged word in S mode. -/
def State.withProgram (s : State) (n w : Nat) : State :=
  let maj := field w 7 2
  let seq : Bool := w % 2 == 1 && (maj == 0x38 || maj == 0x39)
  let s := (s.setTile 0 { s.tile 0 with owner := 1, gated := false }).setGran 0 { owner := 1, zp := false, unscrubbed := 0 }
  let s := s.setPart 1 { tiles := [0], grans := [(0, { site := 0, dgran := 0 })], ptRoot := 1 }
  let s := s.updCore 0 fun k => { k with engine := { k.engine with holder := 1 } }
  let s := { s with
    launches := SMap.put s.launches 1 { tag := 1, vregs := 64, seq := if seq then 0x10000 else 0, counter := 1 }
    blocks := SMap.put s.blocks 1 { launch := 1, vregs := 64, spsize := 0x10000, placed := true, claim := true, st := .resident }
    cur := { kind := if seq then .seq 0 else .group, id := 1, launch := 1, block := 1, valloc := 64, fbbase := 0x10000, resident := !seq,
             em := allLanes, pc := 0x10000, smode := maj == 0x3E && w % 2 == 1, txThresh := 4 }
    ctxs := [], agenda := [], raised := [], nextId := max s.nextId 2 }
  let s := s.writeNum ⟨0, 0⟩ 8 0x4001
  let s := s.writeNum ⟨0, 0x4000⟩ 8 0x8001
  let s := s.writeNum ⟨0, 0x8000⟩ 8 0x10F
  s.writeNum ⟨0, 0x10000⟩ n w

end Sys2Proof.Machine
end

