-- ==== Sys2Proof/Machine/Spad.lean ====
section
/-!
DEFINITION. Leader operations (01 R14), copy addresses (07 R159), bulk accesses of the leader lane, barrier operations
(07 R177) and queue operations (07 R179, R180) on scratchpad.
-/

namespace Sys2Proof.Machine

/-! ## Leader -/

/-- R14: run for the leader lane; with none, nothing happens. -/
def State.withLeader (s : State) (g : BitVec 3) (k : Nat → Eff) : Eff :=
  match s.leader g with
  | none => .done s
  | some i => k i
/-- Meta of a format X instruction: non-leader registers are uniform. -/
def xMeta (s : Bool) (g : BitVec 3) (ss : List Nat) : Meta := { settle := s, seq := true, pg := g, guard := g, ss := ss }
/-- A result in a uniform register, deferred. -/
def State.deferS (s : State) (d : Nat) (v : W64) : State := s.defer [.uni d v false] 0 0 true
/-- A predicate result in every lane, deferred. -/
def State.deferP (s : State) (d : Nat) (b : Bool) : State := s.defer [.prd d allLanes (if b then allLanes else 0) 0] 0 0 true
/-- R308: an event of the leader lane alone. -/
def State.leaderEvent (s : State) (f : LaneFail) (spoff : Bool) : FaultEv := s.laneEvent [f] spoff
/-- R97: attribute an event of a bulk access to the leader lane. -/
def Eff.attr (lane : Nat) : Eff → Eff
  | .event s e =>
    .event s { e with lane := lane, count := 1, addrs := (e.addrs.take 1).map fun x => (lane, x.2), em := some (oneLane lane) }
  | e => e

/-! ## Copy addresses (R159) -/

/-- R159: bit 63 marks an offset into the block's allocation. -/
def isLocal (a : W64) : Bool := a.getLsbD 63
def localOff (a : W64) : Nat := (a.extractLsb' 0 32).toNat
/-- R159: `n` bytes at a copy address, aligned to `al`, for a synchronous instruction of one lane. -/
def State.copyCheck (s : State) (acc : Acc) (al n lane : Nat) (a : W64) : Except LaneFail LaneOk :=
  if isLocal a then
    let o := localOff a
    let b := s.block s.cur.block
    if o % al ≠ 0 then .error ⟨lane, kMisalign, 0, o⟩
    else if b.spsize < o + n then .error ⟨lane, kPerm, 3, o⟩
    else .ok ⟨lane, o, { loc := ⟨1, s.cur.core * 2 ^ 21 + b.spbase + o⟩, home := 0 }⟩
  else match s.checkLane acc al a.toNat (Nat.pair 0 lane) with
    | .error e => .error ⟨lane, e.1, e.2, a.toNat⟩
    | .ok x => .ok ⟨lane, a.toNat, x⟩
/-- R177: a scratchpad object at a copy address: TT 1 only. -/
def State.spadPlace (s : State) (acc : Acc) (al n lane : Nat) (a : W64) : Except LaneFail Loc :=
  match s.copyCheck acc al n lane a with
  | .error e => .error e
  | .ok l => if l.x.loc.tt = 1 then .ok l.x.loc else .error ⟨lane, kPerm, 2, a.toNat⟩

/-- The pieces of a bulk access: as wide as its alignment allows, at most 16 bytes. -/
def bulkUnit (a n : Nat) : Nat := if a % 16 = 0 && n % 16 = 0 then 16 else if a % 4 = 0 && n % 4 = 0 then 4 else 1
/-- The pieces of a bulk access checked one by one. -/
def State.bulkLanes (s : State) (write : Bool) (lane : Nat) (a : W64) (n : Nat) : Except LaneFail (Nat × List LaneOk) :=
  let u := bulkUnit a.toNat n
  let acc := if write then Acc.store u else Acc.load u
  let rs := (List.range (n / u)).map fun k => (k, s.copyCheck acc 1 u lane (a + BitVec.ofNat 64 (k * u)))
  match rs.findSome? fun r => match r.2 with | .error e => some e | .ok _ => none with
  | some e => .error e
  | none => .ok (u, rs.filterMap fun r => match r.2 with | .ok l => some { l with lane := r.1 } | .error _ => none)
/-- Read `n` bytes at a copy address as a plain load of the leader lane (R97). -/
def State.bulkLoad (s : State) (al lane : Nat) (a : W64) (n : Nat) (k : State → List Byte → Eff) : Eff :=
  if (if isLocal a then localOff a else a.toNat) % al ≠ 0 then
    .event s (s.leaderEvent ⟨lane, kMisalign, 0, if isLocal a then localOff a else a.toNat⟩ (isLocal a))
  else match s.bulkLanes false lane a n with
    | .error e => .event s (s.leaderEvent e (isLocal a))
    | .ok r =>
      let s := s.cachePages s.curTag (if isLocal a then [] else r.2.map fun l => l.va)
      (s.readLanes false r.1 r.2 fun t bs => k t (bs.flatMap Prod.snd)).attr lane
/-- Write bytes at a copy address as a plain store of the leader lane. -/
def State.bulkStore (s : State) (lane : Nat) (a : W64) (bs : List Byte) (k : State → Eff) : Eff :=
  match s.bulkLanes true lane a bs.length with
  | .error e => .event s (s.leaderEvent e (isLocal a))
  | .ok r =>
    let s := s.cachePages s.curTag (if isLocal a then [] else r.2.map fun l => l.va)
    let ws := r.2.map fun l => (l, (bs.drop (l.lane * r.1)).take r.1)
    (s.storeLanes .store false ws fun t => k (if isLocal a then t.flush t.own else t)).attr lane

/-! ## Barrier operations (R177) -/

/-- R155: how many group-table entries name a constellation. -/
def Launch.conSize (l : Launch) (con : Nat) : Nat := (l.gtable.filter fun e => e.2.2.contains con).length
/-- R308: PHASEOVER at the leader lane. -/
def State.phaseOver (s : State) (lane : Nat) (va : W64) : FaultEv := s.leaderEvent ⟨lane, kPhaseover, 0, va.toNat⟩ (isLocal va)
/-- A barrier operation at its object, behind the context's earlier accesses (R297): a dropped one has no effect and answers zero
(R130). -/
def State.atBarrier (s : State) (acc : Acc) (lane : Nat) (a : W64) (zero : State → State) (k : State → Loc → Eff) : Eff :=
  match s.spadPlace acc 32 32 lane a with
  | .error e => .event s (s.leaderEvent e (isLocal a))
  | .ok l =>
    whenPerformed s s.nextId fun t =>
      if isLocal a then k (t.serveDeliveries l.core) l
      else
        let r := (t.cachePages t.curTag [a.toNat]).readRequest
        if r.2.delivers r.2.agent l then k (r.2.serveDeliveries l.core) l else .done (zero (r.2.dropAt r.2.agent .sync l r.1 32 a r.2.cur.pc 0 0))
/-- R343: the step in which what is ready now issues at the earliest: the next one once the core has issued in this one. -/
def Core.nextStep (k : Core) : Nat := k.cyc.toNat + (if k.stages.any fun e => e.left == 4 then 1 else 0)
/-- A parked context becomes ready (18 R341, R343). An instruction that parked ends now, outside the core's issue slots. -/
def State.wake (s : State) (id why : Nat) : State :=
  let again : Bool := match s.ctx? id with | some c => c.reissue | none => false
  let s := s.updCtx id fun c => { c with park := none, woken := why, age := (s.core c.core).nextStep }
  if again then { s with agenda := .ctx id :: s.agenda } else s
/-- R177: the contexts parked on any phase of an object. -/
def State.parkedAt (s : State) (obj : Loc) : List Ctx :=
  s.allCtxs.filter fun c => match c.park with
    | some (.barrier o _) => o == obj
    | some (.barrierTimed o _ _) => o == obj
    | _ => false
/-- R177: contexts parked on an object whose phase a `bar.init` leaves late, earliest first. -/
def State.wakeLate (s : State) (obj : Loc) : State :=
  let h := s.barHeader obj
  let l := (s.parkedAt obj).filter fun c => match c.park with
    | some (.barrier _ p) => phaseOf h p == .late
    | some (.barrierTimed _ p _) => phaseOf h p == .late
    | _ => false
  let l := (sortNat (l.map fun c => c.parkSeq)).filterMap fun n => l.find? fun c => c.parkSeq == n
  if l.isEmpty then s else s.startWaves obj.core l 2
/-- R177: `bar.arrive` and `bar.expect`: the object after and the answer. -/
def State.barCount (s : State) (obj : Loc) (p add bytes : Nat) (expect : Bool) : State × Nat :=
  let h := s.barHeader obj
  let sl := s.barSlot obj p
  let n := if expect then (if barMode h = 1 then 1 else 0) else add
  let raw := if expect then sl.2 - bytes else sl.2
  let s := s.setBarSlot obj p (satArrived (sl.1 + n)) (satBalance raw)
  (s.barRun obj, if expect && raw != satBalance raw then 4 else if barValid h then 1 else 2)

/-! ## Queues (R179, R180) -/

/-- A queue control word. -/
structure QWord where
  qbase : Nat
  depth : Nat
  esize : Nat
  head : Nat
  tail : Nat
  deriving DecidableEq, Repr
def State.qWord (s : State) (core off : Nat) : QWord :=
  let n := s.readNum ⟨1, core * 2 ^ 21 + off⟩ 16
  ⟨field n 31 0, field n 47 32, field n 63 48, field n 95 64, field n 127 96⟩
def QWord.count (q : QWord) : Nat := (q.tail + 2 ^ 32 - q.head) % 2 ^ 32
def QWord.broken (q : QWord) : Bool := decide (q.depth < q.count)
/-- The allocation that holds a scratchpad offset of a core. -/
def State.allocAt (s : State) (core off : Nat) : Option Block :=
  (s.blocks.find? fun b => b.2.placed && b.2.core == core && b.2.spbase ≤ off && off < b.2.spbase + b.2.spsize).map Prod.snd
/-- R180: what a `qbind` of a control word gives. -/
def State.qBindAt (s : State) (core off : Nat) : Option QBind :=
  let q := s.qWord core off
  match s.allocAt core off with
  | none => none
  | some b =>
    if q.depth = 0 || q.esize = 0 || q.esize % 16 ≠ 0 || q.qbase % 16 ≠ 0 || b.spsize < q.qbase + q.depth * q.esize then none
    else some ⟨core, off⟩
/-- A handle of a block. -/
def State.handle (s : State) (block q : Nat) : Option QBind := SMap.find (s.block block).handles q
/-- The place of element i. -/
def State.qElem (s : State) (b : QBind) (q : QWord) (i : Nat) : Loc :=
  let base := match s.allocAt b.core b.off with | some a => a.spbase | none => 0
  ⟨1, b.core * 2 ^ 21 + (base + q.qbase + (i % q.depth) * q.esize) % 2 ^ 21⟩
def QBind.loc (b : QBind) : Loc := ⟨1, b.core * 2 ^ 21 + b.off⟩
/-- Move `HEAD` or `TAIL` by one. -/
def State.qHead (s : State) (b : QBind) (q : QWord) : State := s.writeNum ⟨1, b.loc.addr + 8⟩ 4 ((q.head + 1) % 2 ^ 32)
def State.qTail (s : State) (b : QBind) (q : QWord) : State := s.writeNum ⟨1, b.loc.addr + 12⟩ 4 ((q.tail + 1) % 2 ^ 32)
/-- R180: earlier waiters of the queue are served first; a served one comes now. -/
def State.qAhead (s : State) (b : QBind) (push : Bool) : Bool :=
  s.cur.woken != 5 && s.ctxs.any fun c => c.park == some (.queue b.loc push)

end Sys2Proof.Machine
end

