-- ==== Sys2Proof/Machine/Control.lean ====
section
/-!
DEFINITION. Control: branches, jumps, `exit`, `trap`, the loop buffer, hints and `yield` with its stage balancer (02 R65–R74, 01
R26, R27, 13 R271–R273).
-/

namespace Sys2Proof.Machine

/-- Meta of a control word. -/
def ctlMeta (s : Bool) (seq : Bool) (ss : List Nat) : Meta := { settle := s, seq := seq, ss := ss }

/-- R65: the target of a branch. -/
def State.branchTo (s : State) (o : BitVec 18) : W64 := s.cur.pc + 2 * o.signExtend 64
/-- R65: pass control to the target when the condition holds. -/
def branchIf (sm seq : Bool) (ss : List Nat) (o : BitVec 18) (cond : State → Bool) (st : State) : Host.Outcome State Fault Refusal :=
  issue (ctlMeta sm seq ss) st fun t => if cond t then .goto t (t.branchTo o) else .done t

/-- R65: branch always. -/
def execBr (s : Bool) (o : BitVec 18) (st : State) : Host.Outcome State Fault Refusal :=
  branchIf s true [] o (fun _ => true) st

/-- R65: branch if sn = 0. -/
def execBz (s : Bool) (n : BitVec 3) (o : BitVec 18) (st : State) : Host.Outcome State Fault Refusal :=
  branchIf s true [n.toNat] o (fun t => t.readS n.toNat == 0) st

/-- R65: branch if sn ≠ 0. -/
def execBnz (s : Bool) (n : BitVec 3) (o : BitVec 18) (st : State) : Host.Outcome State Fault Refusal :=
  branchIf s true [n.toNat] o (fun t => t.readS n.toNat != 0) st

/-- R65: branch if some lane of `em` has its bit of pn. -/
def execBany (s : Bool) (n : BitVec 3) (o : BitVec 18) (st : State) : Host.Outcome State Fault Refusal :=
  branchIf s false [] o (fun t => t.cur.em &&& t.readP n.toNat != 0) st

/-- R65: branch if every lane of `em` has its bit of pn. -/
def execBall (s : Bool) (n : BitVec 3) (o : BitVec 18) (st : State) : Host.Outcome State Fault Refusal :=
  branchIf s false [] o (fun t => t.cur.em &&& ~~~(t.readP n.toNat) == 0) st

/-- R65: branch if no lane of `em` has its bit of pn. -/
def execBnone (s : Bool) (n : BitVec 3) (o : BitVec 18) (st : State) : Host.Outcome State Fault Refusal :=
  branchIf s false [] o (fun t => t.cur.em &&& t.readP n.toNat == 0) st

/-- R65: s63 := the address after the call; branch. -/
def execCall (s : Bool) (o : BitVec 18) (st : State) : Host.Outcome State Fault Refusal :=
  issue (ctlMeta s true []) st fun t => .goto (t.writeS 63 (t.cur.pc + 4)) (t.branchTo o)

/-- R27, R66: jump; an odd target raises MISALIGN and writes nothing. -/
def State.jump (s : State) (target : W64) (link : Option Nat) : Eff :=
  if target.getLsbD 0 then .event s (s.groupEvent kMisalign 0 target)
  else .goto (match link with | some d => s.writeS d (s.cur.pc + 4) | none => s) target

/-- R66: jump to sa, with a link in sd when D ≠ 0. -/
def execJr (s : Bool) (d a : BitVec 6) (st : State) : Host.Outcome State Fault Refusal :=
  issue (ctlMeta s true [a.toNat]) st fun t => t.jump (t.readS a.toNat) (if d = 0 then none else some d.toNat)

/-- R66: jump to s63. -/
def execRet (s : Bool) (st : State) : Host.Outcome State Fault Refusal :=
  issue (ctlMeta s true [63]) st fun t => t.jump (t.readS 63) none

/-- R67, R230: settle, close the open sets, wait until every batch is complete; then open lanes abort with EXIT (Table 14-5) and the context
ends. While it waits nothing has been done, so that it can be withdrawn (R304). -/
def execExit (s : Bool) (st : State) : Host.Outcome State Fault Refusal :=
  issue (ctlMeta s true []) st fun t =>
    whenSettled t fun t =>
      let u := t.closeOpen.closeMx
      if u.cur.batches.isEmpty && u.cur.mxBatches.all fun b => b.ops.isEmpty then
        let u := (u.abortOpen 11 allLanes).updCur fun c => { c with txg := false, doomed := 0 }
        .ended (u.endCtx u.cur)
      else .wait t .exitWait

/-- R68, R136: take a trap of code n; the return address is the one after it. In S mode it is ILLEGAL. -/
def execTrap (s : Bool) (c : BitVec 6) (st : State) : Host.Outcome State Fault Refusal :=
  issue { ctlMeta s true [] with extra := if st.cur.smode then some 0 else none, insn := true } st fun t =>
    .event t { t.groupEvent kTrap c.toNat 0 with code := c.toNat, pc := t.cur.pc + 4, em := none, addrs := [] }

/-- R69: no effect. -/
def execNop (s : Bool) (st : State) : Host.Outcome State Fault Refusal :=
  issue { ctlMeta s true [] with recipe := true } st .done

/-- R26: no effect, in every mode and stream. -/
def execHint (s : Bool) (_h : BitVec 24) (st : State) : Host.Outcome State Fault Refusal :=
  issue { ctlMeta s true [] with recipe := true } st .done

/-- R72: end the loop when some lane of `em` has its bit of pn. -/
def execLpx (s : Bool) (n : BitVec 3) (st : State) : Host.Outcome State Fault Refusal :=
  issue (ctlMeta s false []) st fun t =>
    match t.cur.loop with
    | none => .done t
    | some l => if t.cur.em &&& t.readP n.toNat != 0 then .goto t (l.addrs.getD (l.addrs.length - 1) 0) else .done t

/-- R70: run the body slots for sc passes; none when sc = 0. A body or step word that cannot be fetched faults as R9 gives. -/
def execLpb (s : Bool) (c : BitVec 6) (len : BitVec 5) (steps : BitVec 4) (st : State) : Host.Outcome State Fault Refusal :=
  issue { ctlMeta s true [c.toNat] with extra := st.lpbDetail len steps } st fun t =>
    match t.readBody len steps with
    | .error f => .event t (t.fetchEvent f)
    | .ok r =>
      let n := t.readS c.toNat
      if n = 0 then .goto t (r.1.getD (r.1.length - 1) 0)
      else .loop t { count := n, addrs := r.1, steps := r.2.1 }

/-! ## The stage balancer (13 R271–R273) -/

/-- R272: what a queue handle of a block says: its depth and count, none when unbound or broken. -/
def State.stageQueue (s : State) (b : Nat) (h : Nat) : Option (Nat × Nat) :=
  match s.handle b h with
  | none => none
  | some q => let w := s.qWord q.core q.off; if w.broken then none else some (w.depth, w.count)
def State.isHigh (s : State) (p : Pipe) (b h : Nat) : Bool :=
  h < 8 && (match s.stageQueue b h with | some q => decide (p.hi * q.1 ≤ 16 * q.2) | none => false)
def State.isLow (s : State) (p : Pipe) (b h : Nat) : Bool :=
  h < 8 && (match s.stageQueue b h with | some q => decide (16 * q.2 ≤ p.lo * q.1) | none => false)
/-- R272: the groups of a block bound to a stage. -/
def State.inStage (s : State) (b t : Nat) : Nat := (s.allCtxs.filter fun c => c.isGroup && c.block == b && c.stage == t).length
/-- R271: the group may be re-bound. -/
def State.rebindable (s : State) (p : Pipe) : Bool :=
  let c := s.cur
  c.loop.isNone && c.openSet.isEmpty && c.batches.isEmpty && !c.txg && !c.txHold && decide (p.hold ≤ c.yields)
/-- R272: the stage a yielding group is re-bound to. -/
def State.rebindTo (s : State) (p : Pipe) : Option Nat :=
  let c := s.cur
  let b := c.block
  let own := p.stages.getD c.stage {}
  if !s.rebindable p then none
  else if !(decide (own.min < s.inStage b c.stage) && (s.isLow p b own.qin || s.isHigh p b own.qout)) then none
  else
    let cand := (List.range p.stages.length).filterMap fun t =>
      let st := p.stages.getD t {}
      if t = c.stage || st.max ≤ s.inStage b t then none
      else
        let need : Bool := if st.qin < 8 then s.isHigh p b st.qin else s.isLow p b st.qout
        if !need then none
        else
          let pr : Nat := if st.qin < 8 then ((s.stageQueue b st.qin).map Prod.snd).getD 0
            else match s.stageQueue b st.qout with | some q => q.1 - q.2 | none => 0
          some (t, pr)
    cand.foldl (fun (best : Option (Nat × Nat)) x => match best with
      | some y => if y.2 < x.2 then some x else best
      | none => some x) none |>.map Prod.fst

/-- R305: the context's registers as a resumption from its slot begins: all zero but those of the start state; the header's listed
registers follow when the recipe run starts. -/
def State.restoreSlot (s : State) : State :=
  let c := s.cur
  let base := c.core * 4096 + c.vbase
  let s := { s with vrf := s.vrf.filter fun x => x.1 < base || base + c.valloc ≤ x.1 }
  let sregs : SMap W64 := if s.slotNum c 0x216C 4 % 2 = 1 then
      SMap.set 0 (SMap.set 0 [] 1 (BitVec.ofNat 64 (s.slotNum c 0x2170 8))) 2 (BitVec.ofNat 64 (s.slotNum c 0x2178 8))
    else []
  let inBody : Bool := (s.slotNum c 0x2160 8).testBit 8
  s.updCur fun c => { c with
    em := allLanes
    preds := (List.range 7).foldl (fun m i => SMap.set 0 m (i + 1) (BitVec.ofNat 256 (s.slotNum c (0x2070 + 32 * i) 32))) []
    sregs := sregs
    poisonV := []
    poisonS := 0
    deferred := []
    park := none
    reissue := false
    woken := 0
    addrOff := 0
    slotLen := 0
    stepped := false
    event := none
    late := none
    fenced := []
    answers := []
    probe := 0
    loop := if inBody then c.fbLoop.map fun l => { l with count := BitVec.ofNat 64 (s.slotNum c 0x2150 8), pass := BitVec.ofNat 64 (s.slotNum c 0x2158 8),
                                                          slot := s.slotNum c 0x2160 8 % 32 } else none }

/-- R302, R305: begin the run from the slot: the recipe header when there is one, else the resume address. -/
def State.runSlot (s : State) : State :=
  let c := s.cur
  let hdr := BitVec.ofNat 64 (s.slotNum c 0x2048 8)
  if hdr = 0 then
    s.updCur fun k => { k with em := BitVec.ofNat 256 (s.slotNum c 0x2050 32), pc := evenPc (BitVec.ofNat 64 (s.slotNum c 0x2040 8)),
                               deadline := s.slotNum c 0x2168 4, issued := 0, recipe := none }
  else s.updCur fun k => { k with pc := evenPc hdr, recipe := some (evenPc hdr) }

/-- R273: re-bind the current group to a stage: an entry slot for it, its clock requests withdrawn, and the run from that slot. -/
def State.rebind (s : State) (p : Pipe) (t : Nat) : State :=
  let st := p.stages.getD t {}
  let s := s.updCur fun c => { c with em := allLanes, preds := [], breq := false, nreq := false, stage := t, yields := 0 }
  let s := s.writeSlot {} st.recipe st.entry none 4096 1 p.args (BitVec.ofNat 64 t)
  s.restoreSlot.runSlot

/-- R74: settle, write the flashback slot with the recipe's registers, clear the record of non-replayable instructions and
restart the deadline; then the balancer looks at the group (R271). -/
def execYield (s : Bool) (l : BitVec 6) (r : BitVec 12) (st : State) : Host.Outcome State Fault Refusal :=
  issue { ctlMeta s false [] with extra := if st.cur.smode then some 0 else none, insn := true } st fun t =>
    whenSettled t fun t =>
      let hdr : W64 := if r = 0 then 0 else t.cur.pc + 2 * r.signExtend 64
      let write (rc : Recipe) : Eff :=
        let next : W64 × Option LoopState := match t.cur.loop with
          | some lp => lp.next
          | none => (t.cur.pc + 4, none)
        let dl := (l.toNat + 1) * 64
        let u := (t.writeSlot rc hdr next.1 next.2 dl 0 0 0).updCur fun c => { c with deadline := dl, issued := 0, yields := min 255 (c.yields + 1) }
        match (u.launch u.cur.launch).pipe with
        | none => .done u
        | some p => match u.rebindTo p with
          | none => .done u
          | some k => .ended (u.clearIssue.rebind p k)
      if r = 0 then write {}
      else match t.readRecipe hdr with
        | .error f => .event t (t.fetchEvent f)
        | .ok none => .event t (t.groupEvent kIllegal 3 0)
        | .ok (some rc) =>
          let bad := t.poisonMask { settle := s, vs := rc.vs, ss := rc.us }
          if bad = 0 then write rc else .event t (t.regPoison bad)

end Sys2Proof.Machine
end

