-- ==== Sys2Proof/Machine/Crypto.lean ====
section
/-!
DEFINITION. AES-256-GCM, which decrypting copies and the links use (07 R172, R173; 21 R378; 22 R396), and AES-256-XTS, which the memory sites use
(21 R376).
-/

namespace Sys2Proof.Machine

/-! ## The field GF(2^8) -/

def aesDouble (a : Nat) : Nat := if 128 ≤ a then (2 * a) ^^^ 0x11B else 2 * a
/-- The product of two field elements. -/
def aesMul (a b : Nat) : Nat :=
  (iterate (fun i (x : Nat × Nat) => (aesDouble x.1, if b.testBit i then x.2 ^^^ x.1 else x.2)) 8 0 (a, 0)).2
/-- a^254, the inverse of a nonzero element. -/
def aesInv (a : Nat) : Nat := iterate (fun _ x => aesMul (aesMul x x) a) 6 0 a |> fun x => aesMul x x
def rotByte (a k : Nat) : Nat := (a * 2 ^ k) % 256 + a / 2 ^ (8 - k)
def aesSub (a : Nat) : Nat :=
  let i := aesInv a
  i ^^^ rotByte i 1 ^^^ rotByte i 2 ^^^ rotByte i 3 ^^^ rotByte i 4 ^^^ 0x63

/-! ## AES-256 -/

def xorBytes (a b : List Nat) : List Nat := List.zipWith (· ^^^ ·) a b
/-- The next word of the key schedule; the words so far are listed newest first. -/
def aesNextWord (n : Nat) (ws : List (List Nat)) : List Nat :=
  let t := ws.getD 0 []
  let t' :=
    if n % 8 = 0 then
      match (t.drop 1 ++ t.take 1).map aesSub with
      | x :: r => (x ^^^ iterate (fun _ c => aesDouble c) (n / 8 - 1) 0 1) :: r
      | [] => []
    else if n % 8 = 4 then t.map aesSub
    else t
  xorBytes (ws.getD 7 []) t'
/-- The 60 words of the key schedule. -/
def aesSchedule (key : List Nat) : List (List Nat) :=
  let first := (List.range 8).map fun i => (key.drop (4 * i)).take 4
  (iterate (fun n ws => aesNextWord n ws :: ws) 52 8 first.reverse).reverse
def aesShift (s : List Nat) : List Nat := (List.range 16).map fun k => s.getD (4 * ((k / 4 + k % 4) % 4) + k % 4) 0
def aesMix (s : List Nat) : List Nat := (List.range 16).map fun k =>
  let c (i : Nat) : Nat := s.getD (4 * (k / 4) + (k % 4 + i) % 4) 0
  aesDouble (c 0) ^^^ (aesDouble (c 1) ^^^ c 1) ^^^ c 2 ^^^ c 3
def aesRoundKey (ws : List (List Nat)) (r : Nat) : List Nat := ((ws.drop (4 * r)).take 4).flatten
/-- One block under a schedule. -/
def aesBlock (ws : List (List Nat)) (b : List Nat) : List Nat :=
  let s := iterate (fun r s => xorBytes (aesMix (aesShift (s.map aesSub))) (aesRoundKey ws r)) 13 1 (xorBytes b (aesRoundKey ws 0))
  xorBytes (aesShift (s.map aesSub)) (aesRoundKey ws 14)

/-! ## GCM -/

def natOfBE (l : List Nat) : Nat := l.foldl (fun a b => a * 256 + b) 0
def beOfNat : Nat → Nat → List Nat
  | 0, _ => []
  | n + 1, x => beOfNat n (x / 256) ++ [x % 256]
/-- The product of GHASH, the first bit of a block being the most significant of its number. -/
def ghashMul (x y : Nat) : Nat :=
  (iterate (fun i (p : Nat × Nat) =>
    (if p.1 % 2 = 1 then (p.1 / 2) ^^^ (0xE1 * 2 ^ 120) else p.1 / 2, if x.testBit (127 - i) then p.2 ^^^ p.1 else p.2)) 128 0 (y, 0)).2
/-- The blocks of 16 of a string, the last one filled with zeros. -/
def blocks16 (l : List Nat) : List (List Nat) :=
  (List.range ((l.length + 15) / 16)).map fun i => let b := (l.drop (16 * i)).take 16; b ++ List.replicate (16 - b.length) 0
def ghash (h : Nat) (bs : List (List Nat)) : Nat := bs.foldl (fun y b => ghashMul (y ^^^ natOfBE b) h) 0
/-- The key stream applied from counter block `c0` + 1. -/
def gcmStream (ws : List (List Nat)) (iv text : List Nat) : List Nat :=
  let bs := blocks16 text
  ((List.range bs.length).flatMap fun i => xorBytes (bs.getD i []) (aesBlock ws (iv ++ beOfNat 4 (i + 2)))).take text.length
/-- The tag of a ciphertext. -/
def gcmTag (ws : List (List Nat)) (iv aad ct : List Nat) : List Nat :=
  let h := natOfBE (aesBlock ws (List.replicate 16 0))
  let s := ghash h (blocks16 aad ++ blocks16 ct ++ [beOfNat 8 (8 * aad.length) ++ beOfNat 8 (8 * ct.length)])
  xorBytes (beOfNat 16 s) (aesBlock ws (iv ++ beOfNat 4 1))
/-- AES-256-GCM: the plaintext, when the tag matches. -/
def gcmOpen (key iv aad ct tag : List Nat) : Option (List Nat) :=
  let ws := aesSchedule key
  if gcmTag ws iv aad ct = tag then some (gcmStream ws iv ct) else none

/-! ## XTS -/

/-- The next tweak: the product by x, the first byte being the least significant. -/
def xtsNext (t : List Nat) : List Nat :=
  let n := 2 * (t.reverse.foldl (fun a b => a * 256 + b) 0)
  let m := if 2 ^ 128 ≤ n then (n % 2 ^ 128) ^^^ 0x87 else n
  (beOfNat 16 m).reverse
/-- AES-256-XTS: the ciphertext of whole blocks, with the number of their data unit. -/
def xtsSeal (key tweak : List Nat) (unit : Nat) (text : List Nat) : List Nat :=
  let ws := aesSchedule key
  ((blocks16 text).foldl (fun (x : List Nat × List Nat) b => (xtsNext x.1, x.2 ++ xorBytes (aesBlock ws (xorBytes b x.1)) x.1))
    (aesBlock (aesSchedule tweak) (beOfNat 16 unit).reverse, [])).2

/-- Bytes as numbers. -/
def byteNats (l : List Byte) : List Nat := l.map BitVec.toNat
def natsBytes (l : List Nat) : List Byte := l.map (BitVec.ofNat 8)

end Sys2Proof.Machine
end

