-- ==== Sys2Proof/Machine/Sync.lean ====
section
/-!
DEFINITION. Barrier objects, queues, counted stores, batches and collective flags (07 R163, R164, R175–R180, R184).
-/

namespace Sys2Proof.Machine

/-- Meta of a barrier, queue or collective word: open lanes abort with INSN first (Table 14-5). -/
def syncMeta (s : Bool) (g : BitVec 3) (ss : List Nat) (nonreplay : Bool) : Meta :=
  { xMeta s g ss with insn := true, nonreplay := nonreplay }

/-! ## Barriers (R177) -/

/-- Table 07-8: initialise the object; pd := whether a slot was nonzero beforehand. -/
def execBarInit (s : Bool) (g p : BitVec 3) (a b : BitVec 6) (st : State) : Host.Outcome State Fault Refusal :=
  issue (syncMeta s g [a.toNat, b.toNat] true) st fun t =>
    t.withLeader g fun i =>
      t.atBarrier .counted i (t.readS a.toNat) (fun u => u.deferP p.toNat false) fun t o =>
        let w := (t.readS b.toNat).toNat
        let old := t.readNum ⟨o.tt, o.addr + 8⟩ 24
        let con := field w 31 24
        let expect := if con = 0xFF then field w 19 0 else (t.launch t.cur.launch).conSize con
        let t := t.writeNum o 8 (expect % 2 ^ 20 + field w 21 20 * 2 ^ 20 + field w 63 32 * 2 ^ 24 + 2 ^ 63)
        let t := if w.testBit 22 then t else t.writeNum ⟨o.tt, o.addr + 8⟩ 24 0
        .done (((t.barRun o).wakeLate o).deferP p.toNat (old != 0))

/-- R177: the phase test of an arrival, and its count. -/
def State.barArrival (s : State) (o : Loc) (lane : Nat) (va : W64) (d p add bytes : Nat) (expect : Bool) : Eff :=
  let h := s.barHeader o
  match (if barValid h then phaseOf h p else .isOpen) with
  | .beyond => .event s (s.phaseOver lane va)
  | .late => .done (s.deferS d 3)
  | .isOpen =>
    let r := s.barCount o p add bytes expect
    .done (r.1.deferS d (BitVec.ofNat 64 r.2))

/-- Table 07-8: arrivals of a phase; sd := the outcome. -/
def execBarArrive (s : Bool) (g : BitVec 3) (d a b : BitVec 6) (st : State) : Host.Outcome State Fault Refusal :=
  issue (syncMeta s g [a.toNat, b.toNat] true) st fun t =>
    t.withLeader g fun i =>
      t.atBarrier .counted i (t.readS a.toNat) (fun u => u.deferS d.toNat 0) fun t o =>
        let w := (t.readS b.toNat).toNat
        t.barArrival o i (t.readS a.toNat) d.toNat (field w 31 0) (field w 51 32) 0 false

/-- Table 07-8: expected bytes of a phase; sd := the outcome. -/
def execBarExpect (s : Bool) (g : BitVec 3) (d a b : BitVec 6) (st : State) : Host.Outcome State Fault Refusal :=
  issue (syncMeta s g [a.toNat, b.toNat] true) st fun t =>
    t.withLeader g fun i =>
      t.atBarrier .counted i (t.readS a.toNat) (fun u => u.deferS d.toNat 0) fun t o =>
        let w := (t.readS b.toNat).toNat
        t.barArrival o i (t.readS a.toNat) d.toNat (field w 31 0) 0 (field w 59 32) true

/-- What a barrier wait finds (Table 07-8): it may go on, must park, or its phase is beyond. -/
def State.barState (s : State) (o : Loc) (p : Nat) : Phase :=
  let h := s.barHeader o
  if barValid h then phaseOf h p else .isOpen

/-- Table 07-8: park until the phase is late; sd := 0, or 1 when `bar.inval` wakes it. -/
def execBarWait (s : Bool) (g : BitVec 3) (d a b : BitVec 6) (st : State) : Host.Outcome State Fault Refusal :=
  issue (syncMeta s g [a.toNat, b.toNat] false) st fun t =>
    t.withLeader g fun i =>
      match t.cur.woken with
      | 1 => .done (t.deferS d.toNat 1)
      | 2 => .done ((t.acquire 1).deferS d.toNat 0)
      | _ => t.atBarrier .watched i (t.readS a.toNat) (fun u => u.deferS d.toNat 0) fun t o =>
          let p := field (t.readS b.toNat).toNat 31 0
          match t.barState o p with
          | .late => .done ((t.acquire 1).deferS d.toNat 0)
          | .beyond => .event t (t.phaseOver i (t.readS a.toNat))
          | .isOpen => .wait t (.barrier o p)

/-- Table 07-8: park until the phase is late or HINT has elapsed; pd := whether it is late. -/
def execBarTwait (s : Bool) (g p : BitVec 3) (a b : BitVec 6) (st : State) : Host.Outcome State Fault Refusal :=
  issue (syncMeta s g [a.toNat, b.toNat] false) st fun t =>
    t.withLeader g fun i =>
      match t.cur.woken with
      | 1 => .done (t.deferP p.toNat false)
      | 2 => .done ((t.acquire 1).deferP p.toNat true)
      | 3 => .done (t.deferP p.toNat false)
      | _ => t.atBarrier .watched i (t.readS a.toNat) (fun u => u.deferP p.toNat false) fun t o =>
          let w := (t.readS b.toNat).toNat
          match t.barState o (field w 31 0) with
          | .late => .done ((t.acquire 1).deferP p.toNat true)
          | .beyond => .event t (t.phaseOver i (t.readS a.toNat))
          | .isOpen =>
            if field w 63 32 = 0 then .done (t.deferP p.toNat false)
            else .wait t (.barrierTimed o (field w 31 0) ((t.core t.cur.core).span.toNat + field w 63 32 * 444))

/-- Table 07-8: the object is no longer valid; the contexts parked on it wake; sd := 0. -/
def execBarInval (s : Bool) (g : BitVec 3) (d a : BitVec 6) (st : State) : Host.Outcome State Fault Refusal :=
  issue (syncMeta s g [a.toNat] true) st fun t =>
    t.withLeader g fun i =>
      t.atBarrier .counted i (t.readS a.toNat) (fun u => u.deferS d.toNat 0) fun t o =>
        let h := t.barHeader o
        let t := (t.writeNum o 8 (h % 2 ^ 63)).writeNum ⟨o.tt, o.addr + 8⟩ 24 0
        .done (((t.parkedAt o).foldl (fun t c => t.wake c.id 1) t).deferS d.toNat 0)

/-! ## Queues (R180) -/

/-- Meta of a queue word, which only a group stream holds (Table 01-7). -/
def queueMeta (s : Bool) (g : BitVec 3) (ss : List Nat) (nonreplay : Bool) : Meta :=
  { syncMeta s g ss nonreplay with seq := false }

/-- R180: bind handle q to the control word at sa, or unbind it. -/
def execQbind (s : Bool) (g q : BitVec 3) (a : BitVec 6) (st : State) : Host.Outcome State Fault Refusal :=
  issue (queueMeta s g [a.toNat] false) st fun t =>
    t.withLeader g fun i =>
      let va := t.readS a.toNat
      match t.spadPlace .watched 16 16 i va with
      | .error e => .event t (t.leaderEvent e (isLocal va))
      | .ok l =>
        whenPerformed t t.nextId fun t =>
          let set (t : State) (h : Option QBind) : Eff := .done (t.updBlock t.cur.block fun b =>
            { b with handles := match h with | some x => SMap.put b.handles q.toNat x | none => SMap.del b.handles q.toNat })
          if isLocal va then set t (t.qBindAt l.core (l.addr % 2 ^ 21))
          else
            let r := (t.cachePages t.curTag [va.toNat]).readRequest
            if r.2.delivers r.2.agent l then set r.2 (r.2.qBindAt l.core (l.addr % 2 ^ 21))
            else set (r.2.dropAt r.2.agent .sync l r.1 16 va r.2.cur.pc 0 0) none

/-- R180: a queue operation at its control word: a broken queue answers at once. -/
def State.atWord (s : State) (h : QBind) (d : Nat) (k : State → QBind → QWord → Eff) : Eff :=
  let w := s.qWord h.core h.off
  if w.broken then .done (s.deferS d (BitVec.allOnes 64)) else k s h w
/-- R180: a queue operation on a handle: an unbound handle answers at once, and so does an operation dropped at another core (R130). -/
def State.atQueue (s : State) (q d : Nat) (k : State → QBind → QWord → Eff) : Eff :=
  match s.handle s.cur.block q with
  | none => .done (s.deferS d (BitVec.allOnes 64))
  | some h =>
    whenPerformed s s.nextId fun t =>
      if h.core = t.cur.core then t.atWord h d k
      else
        let r := t.readRequest
        if r.2.delivers r.2.agent h.loc then r.2.atWord h d k
        else .done ((r.2.dropAt r.2.agent .sync h.loc r.1 16 0 r.2.cur.pc 0 0).deferS d 0)

/-- R180: push the element at sb; sd := the old `TAIL`. -/
def execQpush (s : Bool) (g : BitVec 3) (d : BitVec 6) (q : BitVec 3) (b : BitVec 6) (st : State) : Host.Outcome State Fault Refusal :=
  issue (queueMeta s g [b.toNat] true) st fun t =>
    t.withLeader g fun i => t.atQueue q.toNat d.toNat fun t h w =>
      if w.count = w.depth || t.qAhead h true then .wait t (.queue h.loc true)
      else t.bulkLoad 1 i (t.readS b.toNat) w.esize fun t bs =>
        .done (((t.writeBytes (t.qElem h w w.tail) bs).qTail h w).deferS d.toNat (BitVec.ofNat 64 w.tail))

/-- R180: the head element to the copy address sb; sd := the old `HEAD`. -/
def State.qTake (s : State) (i d b : Nat) (h : QBind) (w : QWord) : Eff :=
  (s.acquire 1).bulkStore i (s.readS b) (s.readBytes (s.qElem h w w.head) w.esize) fun t =>
    .done ((t.qHead h w).deferS d (BitVec.ofNat 64 w.head))

/-- R180: pop, or park while the queue is empty. -/
def execQpop (s : Bool) (g : BitVec 3) (d : BitVec 6) (q : BitVec 3) (b : BitVec 6) (st : State) : Host.Outcome State Fault Refusal :=
  issue (queueMeta s g [b.toNat] true) st fun t =>
    t.withLeader g fun i => t.atQueue q.toNat d.toNat fun t h w =>
      if w.count = 0 || t.qAhead h false then .wait t (.queue h.loc false) else t.qTake i d.toNat b.toNat h w

/-- R180: pop, or 0x8000_0000_0000_0000 when every element there is already has a waiter before this one. -/
def execQtry (s : Bool) (g : BitVec 3) (d : BitVec 6) (q : BitVec 3) (b : BitVec 6) (st : State) : Host.Outcome State Fault Refusal :=
  issue (queueMeta s g [b.toNat] true) st fun t =>
    t.withLeader g fun i => t.atQueue q.toNat d.toNat fun t h w =>
      if w.count ≤ (t.ctxs.filter fun c => c.park == some (.queue h.loc false)).length then
        .done (t.deferS d.toNat 0x8000000000000000)
      else t.qTake i d.toNat b.toNat h w

/-! ## Counted stores (R178) -/

/-- R178: store as `stg` does to TT 1 pages; the bytes of each packet are then counted into the phase s(b+1) names. -/
def storeCounted (n : Nat) (s : Bool) (g : BitVec 3) (d a b : BitVec 6) (st : State) : Host.Outcome State Fault Refusal :=
  issue { settle := s, guard := g, insn := true, nonreplay := true, sEnd := b.toNat + 2
          vEnd := topReg [d.toNat + widthRegs n - 1, a.toNat]
          vs := a.toNat :: (List.range (widthRegs n)).map (d.toNat + ·), ss := [b.toNat, b.toNat + 1] } st fun t =>
    t.withLanes .counted n (t.laneAddrs (t.act g) (t.readS b.toNat) a.toNat) fun t oks =>
      let w := (t.readS (b.toNat + 1)).toNat
      t.storeLanes (.counted (field w 31 0) (field w 63 32)) false (oks.map fun l => (l, t.storeBytes n d.toNat l.lane)) .done

/-- R178: store and count four bytes a lane. -/
def execStb32 (s : Bool) (g : BitVec 3) (d a b : BitVec 6) (st : State) : Host.Outcome State Fault Refusal :=
  storeCounted 4 s g d a b st

/-- R178: store and count eight bytes a lane. -/
def execStb64 (s : Bool) (g : BitVec 3) (d a b : BitVec 6) (st : State) : Host.Outcome State Fault Refusal :=
  storeCounted 8 s g d a b st

/-- R178: store and count sixteen bytes a lane. -/
def execStb128 (s : Bool) (g : BitVec 3) (d a b : BitVec 6) (st : State) : Host.Outcome State Fault Refusal :=
  storeCounted 16 s g d a b st

/-! ## Batches (R163, R164) -/

/-- R163: a is after b, modulo 2^32. -/
def after32 (a b : Nat) : Bool := let d := (a + 2 ^ 32 - b) % 2 ^ 32; 0 < d && d < 2 ^ 31
/-- A batch up to n is unfinished. -/
def Ctx.owes (c : Ctx) (n : Nat) : Bool := c.batches.any fun b => !after32 b.num n
/-- The highest k for which every batch up to k has completed. -/
def Ctx.batchDone (c : Ctx) : Nat := match c.batches with
  | b :: _ => (b.num + 2 ^ 32 - 1) % 2 ^ 32
  | [] => c.batchN.toNat

/-- R163: close the open set; sd := the newest batch, written at once: a `bwait` behind it waits for that batch (08 R190, R191; assumption 51). -/
def execBclose (s : Bool) (d : BitVec 6) (st : State) : Host.Outcome State Fault Refusal :=
  issue { settle := s, seq := true } st fun t =>
    let t := t.closeOpen
    .done (t.writeS d.toNat (t.cur.batchN.setWidth 64))

/-- R163, R164: park until every batch up to sa has completed; sd := the highest such batch. -/
def execBwait (s : Bool) (d a : BitVec 6) (st : State) : Host.Outcome State Fault Refusal :=
  issue { settle := s, seq := true, ss := [a.toNat] } st fun t =>
    let m := t.cur.batchN.toNat
    let n := field (t.readS a.toNat).toNat 31 0
    let n := if after32 n m then m else n
    if t.cur.owes n then .wait t (.batch n) else .done ((t.acquire 1).deferS d.toNat (BitVec.ofNat 64 t.cur.batchDone))

/-- R163, R164: sd := whether every batch up to sa has completed. -/
def execBtest (s : Bool) (d a : BitVec 6) (st : State) : Host.Outcome State Fault Refusal :=
  issue { settle := s, seq := true, ss := [a.toNat] } st fun t =>
    let n := field (t.readS a.toNat).toNat 31 0
    if after32 n t.cur.batchN.toNat || t.cur.owes n then .done (t.deferS d.toNat 0) else .done ((t.acquire 1).deferS d.toNat 1)

/-! ## Collective flags (R184) -/

/-- Table 07-11: the output bytes of a card for a constellation of g members, and its chunks. -/
def cardOut (card g : Nat) : Nat := if field card 3 0 = 1 then field card 220 192 / g else field card 220 192
def cardChunks (card g : Nat) : Nat := (cardOut card g + 65535) / 65536

/-- R184: the flag of chunk sb of the card at sa, or 3 beyond the output. -/
def State.cardFlag (s : State) (i a b : Nat) (k : State → Option Loc → Nat → Eff) : Eff :=
  s.bulkLoad 64 i (s.readS a) 64 fun t bs =>
    let card := bytesNat bs
    let j := field (t.readS b).toNat 15 0
    if cardChunks card ((t.launch t.cur.launch).conSize (field card 15 8)) ≤ j then k t none 3
    else
      let f := BitVec.ofNat 64 (field card 319 256) + BitVec.ofNat 64 j
      t.bulkLoad 1 i f 1 fun t fb =>
        let l : Option Loc := match t.copyCheck (.load 1) 1 1 i f with
          | .ok x => some x.x.loc
          | .error _ => none
        k t l (bytesNat fb)
/-- R184: the answer, with the chunk's bytes visible when it is complete. -/
def State.flagAnswer (s : State) (d v : Nat) : Eff :=
  .done ((if v = 1 then s.acquire 1 else s).deferS d (BitVec.ofNat 64 v))

/-- R184: park until the flag is nonzero; sd := the flag. -/
def execCwait (s : Bool) (g : BitVec 3) (d a b : BitVec 6) (st : State) : Host.Outcome State Fault Refusal :=
  issue (syncMeta s g [a.toNat, b.toNat] false) st fun t =>
    t.withLeader g fun i => t.cardFlag i a.toNat b.toNat fun t l v =>
      match l with
      | some x => if v = 0 then .wait t (.flag x) else t.flagAnswer d.toNat v
      | none => t.flagAnswer d.toNat v

/-- R184: sd := the flag. -/
def execCtest (s : Bool) (g : BitVec 3) (d a b : BitVec 6) (st : State) : Host.Outcome State Fault Refusal :=
  issue (syncMeta s g [a.toNat, b.toNat] false) st fun t =>
    t.withLeader g fun i => t.cardFlag i a.toNat b.toNat fun t _ v => t.flagAnswer d.toNat v

end Sys2Proof.Machine
end

