-- ==== Sys2Proof/Machine/Matrix.lean ====
section
/-!
DEFINITION. The sequencer's matrix words and the accumulator slices as they issue (11 R235–R249). What the engine then does is in
the events of EvMatrix.
-/

namespace Sys2Proof.Machine

/-- Table 01-7: a matrix word is ILLEGAL in a group stream. -/
def seqOnly (st : State) : Option Nat := if st.cur.isSeq then none else some 5
/-- Meta of a matrix word. -/
def mxMeta (st : State) (s : Bool) (ss : List Nat) : Meta := { settle := s, seq := true, ss := ss, extra := seqOnly st }

/-- R230: the number of a sequencer context. -/
def Ctx.seqNo (c : Ctx) : Nat := match c.kind with
  | .seq n => n
  | _ => 0

/-- R235: issue a matrix operation into the open set; a 65th unfinished one parks. -/
def matrixOp (kind : Nat) (s : Bool) (a b : BitVec 6) (span : Nat) (st : State) : Host.Outcome State Fault Refusal :=
  issue { mxMeta st s (a.toNat :: (List.range span).map (b.toNat + ·)) with sEnd := b.toNat + span } st fun t =>
    let c := t.cur
    if 64 ≤ c.mxCount then .wait t .mxLimit
    else
      let o : MxOp := { id := t.nextId, ctx := c.id, core := c.core, half := c.seqNo, kind := kind, ord := c.mxOpen.length
                        opA := t.readS a.toNat, opB := if span = 0 then 0 else t.readS b.toNat
                        opB1 := if span = 2 then t.readS (b.toNat + 1) else 0
                        split := (t.core c.core).engine.split, after := c.asyncFence, pc := c.pc }
      .done { t with mxops := t.mxops ++ [o], nextId := t.nextId + 1, cur := { c with mxOpen := c.mxOpen ++ [t.nextId] } }

/-- R238: issue a plane load. -/
def execMxld (s : Bool) (a b : BitVec 6) (st : State) : Host.Outcome State Fault Refusal := matrixOp 0 s a b 1 st

/-- R240: issue a product. -/
def execMxfma (s : Bool) (a b : BitVec 6) (st : State) : Host.Outcome State Fault Refusal := matrixOp 1 s a b 2 st

/-- R246: issue a zeroing of tiles. -/
def execMxzero (s : Bool) (a : BitVec 6) (st : State) : Host.Outcome State Fault Refusal := matrixOp 2 s a 0 0 st

/-- R246: issue a checksum check. -/
def execMxck (s : Bool) (a : BitVec 6) (st : State) : Host.Outcome State Fault Refusal := matrixOp 3 s a 0 0 st

/-- R247: issue a save of a tile. -/
def execMxsave (s : Bool) (a b : BitVec 6) (st : State) : Host.Outcome State Fault Refusal := matrixOp 4 s a b 1 st

/-- R247: issue a restore of a tile. -/
def execMxrest (s : Bool) (a b : BitVec 6) (st : State) : Host.Outcome State Fault Refusal := matrixOp 5 s a b 1 st

/-- R237: close the matrix open set; sd := the newest batch. -/
def execMxfence (s : Bool) (d : BitVec 6) (st : State) : Host.Outcome State Fault Refusal :=
  issue (mxMeta st s []) st fun t =>
    let t := t.closeMx
    .done (t.deferS d.toNat (t.cur.mxBatchN.setWidth 64))

/-- R236: batch n and every lower-numbered one have completed. -/
def Ctx.mxDone (c : Ctx) (n : Nat) : Bool := c.mxBatches.all fun b => b.ops.isEmpty || after32 b.num n
/-- Table 11-3. -/
def MxBatch.word (b : MxBatch) : W64 := match b.fail with
  | none => BitVec.ofNat 64 (1 + b.count % 256 * 2 ^ 32)
  | some f => BitVec.ofNat 64 (2 + f.1 % 64 * 4 + f.2.1 % 256 * 2 ^ 8 + f.2.2 % 512 * 2 ^ 16 + b.count % 256 * 2 ^ 32)
/-- R237: the batch an `mxwait` names. -/
def State.mxNamed (s : State) (a : Nat) : Nat :=
  let m := s.cur.mxBatchN.toNat
  let n := field (s.readS a).toNat 31 0
  if after32 n m then m else n
def Ctx.mxWord (c : Ctx) (n : Nat) : W64 := match c.mxBatches.find? fun b => b.num == n with
  | some b => b.word
  | none => 0

/-- R237: park until batch sa completes; sd := its status word. -/
def execMxwait (s : Bool) (d a : BitVec 6) (st : State) : Host.Outcome State Fault Refusal :=
  issue (mxMeta st s [a.toNat]) st fun t =>
    let n := t.mxNamed a.toNat
    if n = 0 then .done (t.deferS d.toNat 0)
    else if t.cur.mxDone n then .done ((t.acquire 1).deferS d.toNat (t.cur.mxWord n))
    else .wait t (.mxBatch n)

/-- R237: sd := the status word of batch sa, 0 while it has not completed. -/
def execMxtest (s : Bool) (d a : BitVec 6) (st : State) : Host.Outcome State Fault Refusal :=
  issue (mxMeta st s [a.toNat]) st fun t =>
    let n := t.mxNamed a.toNat
    if n = 0 || !t.cur.mxDone n then .done (t.deferS d.toNat 0) else .done ((t.acquire 1).deferS d.toNat (t.cur.mxWord n))

/-- R229, R248: a sequencer context as it starts. -/
def seqStart (owner : Ctx) (id n : Nat) (pc s1 : W64) : Ctx :=
  { kind := .seq n, id := id, launch := owner.launch, block := owner.block, core := owner.core, pc := pc,
    sregs := SMap.set 0 [] 1 s1, resident := true }

/-- R248: split the array, or join its halves; sd := 0, or 1 when neither applies. -/
def execMxsplit (s : Bool) (d a b : BitVec 6) (st : State) : Host.Outcome State Fault Refusal :=
  issue (mxMeta st s [a.toNat, b.toNat]) st fun t =>
    let c := t.cur
    let target := t.readS a.toNat
    let split := (t.core c.core).engine.split
    let setSplit (t : State) (v : Bool) : State := t.updCore c.core fun k => { k with engine := { k.engine with split := v } }
    if c.seqNo = 0 && !split && target != 0 then
      if target.getLsbD 0 then .event t (t.groupEvent kMisalign 0 target)
      else if t.mxops.any fun o => o.ctx == c.id then .wait t .mxIdle
      else
        let u := setSplit t true
        .done (({ u with ctxs := u.ctxs ++ [seqStart c u.nextId 1 target (u.readS b.toNat)], nextId := u.nextId + 1 }.updLaunch c.launch fun l =>
          { l with counter := l.counter + 1 }).deferS d.toNat 0)
    else if c.seqNo = 0 && split && target = 0 then
      if t.ctxs.any fun x => x.kind == .seq 1 && x.block == c.block then .wait t .mxIdle
      else .done ((setSplit t false).deferS d.toNat 0)
    else .done (t.deferS d.toNat 1)

/-! ## Accumulator slices (R249) -/

/-- R229: why a slice may not be used: the block does not hold the engine. -/
def sliceDetail (st : State) : Option Nat :=
  if (st.core st.cur.core).engine.holder = st.cur.block && (st.launch st.cur.launch).seq != 0 then none else some 7
/-- Meta of a slice form. -/
def sliceMeta (st : State) (s : Bool) (g : BitVec 3) (d : BitVec 6) (x : BitVec 4) (read : Bool) : Meta :=
  { settle := s, guard := g, vEnd := topReg [d.toNat], extra := sliceDetail st, ss := [x.toNat], vs := if read then [d.toNat] else [] }
/-- R249: the row or column named. -/
def State.sliceIndex (s : State) (x : BitVec 4) (i : BitVec 6) : Nat := ((s.readS x.toNat).toNat + i.toNat) % 256
/-- The row of a tile of the core's accumulators. -/
def Ctx.tileRow (c : Ctx) (t row : Nat) : Nat := c.core * 1024 + t * 256 + row
/-- R249, R98: read a slice, or raise POISON: in a poisoned tile for every lane that acts, else for those whose element has a parity error. -/
def State.sliceRead (s : State) (g : BitVec 3) (d t : Nat) (bad : Mask) (f : Nat → W32) : Eff :=
  let m := s.act g
  let b := if (s.core s.cur.core).engine.poison.getLsbD t then m else m &&& bad
  if b != 0 then .event s { s.laneEvent ((maskLanes b).map fun i => ⟨i, kPoison, 0, 0⟩) false with addrs := [] }
  else .done (s.defer [.vec d m (ofLanes f) 0] 0 0 true)

/-- R249: vd := a row of a tile, deferred. -/
def execVraccRow (s : Bool) (g : BitVec 3) (d : BitVec 6) (x : BitVec 4) (t : BitVec 2) (i : BitVec 6) (st : State) :
    Host.Outcome State Fault Refusal :=
  issue (sliceMeta st s g d x false) st fun u =>
    let k := u.cur.tileRow t.toNat (u.sliceIndex x i)
    let v : Vec := SMap.get 0 u.acc k
    u.sliceRead g d.toNat t.toNat (u.accPoison k) (laneOf v)

/-- R249: vd := a column of a tile, deferred. -/
def execVraccCol (s : Bool) (g : BitVec 3) (d : BitVec 6) (x : BitVec 4) (t : BitVec 2) (i : BitVec 6) (st : State) :
    Host.Outcome State Fault Refusal :=
  issue (sliceMeta st s g d x false) st fun u =>
    let bad : Mask := if u.poison.isEmpty then 0 else ofBits fun r => (u.accPoison (u.cur.tileRow t.toNat r)).getLsbD (u.sliceIndex x i)
    u.sliceRead g d.toNat t.toNat bad fun r => laneOf (SMap.get (0 : Vec) u.acc (u.cur.tileRow t.toNat r)) (u.sliceIndex x i)

/-- R249: a row of a tile := vd. -/
def execVwaccRow (s : Bool) (g : BitVec 3) (d : BitVec 6) (x : BitVec 4) (t : BitVec 2) (i : BitVec 6) (st : State) :
    Host.Outcome State Fault Refusal :=
  issue (sliceMeta st s g d x true) st fun u =>
    let k := u.cur.tileRow t.toNat (u.sliceIndex x i)
    .done { u.cleanAcc k (u.act g) with acc := SMap.set 0 u.acc k (mergeVec (u.act g) (u.readV d.toNat) (SMap.get 0 u.acc k)) }

/-- R249: a column of a tile := vd. -/
def execVwaccCol (s : Bool) (g : BitVec 3) (d : BitVec 6) (x : BitVec 4) (t : BitVec 2) (i : BitVec 6) (st : State) :
    Host.Outcome State Fault Refusal :=
  issue (sliceMeta st s g d x true) st fun u =>
    let v := u.readV d.toNat
    let j := u.sliceIndex x i
    let w := if u.poison.isEmpty then u else (maskLanes (u.act g)).foldl (fun w r => w.cleanAcc (u.cur.tileRow t.toNat r) (oneLane j)) u
    .done { w with acc := (maskLanes (u.act g)).foldl (fun m r =>
      let k := u.cur.tileRow t.toNat r
      SMap.set 0 m k (mergeVec (oneLane j) (ofLanes fun _ => laneOf v r) (SMap.get (0 : Vec) m k))) u.acc }

end Sys2Proof.Machine
end

