-- ==== Sys2Proof/Machine/EvCore.lean ====
section
/-!
DEFINITION. Events of a core: results and wakes (01 R15, R16; 18 R341, R342), the clock drive (18 R321, R322; 19 R346–R348), waiters of
barriers and queues (07 R177, R180), translations (02 R80; 05 R129, R134, R135), the token (14 R280), stopping and resuming a group
(16 R304, R305). An event whose condition does not hold changes nothing (assumption 2).
-/

namespace Sys2Proof.Machine

/-- The n-th number of the event's data. -/
def State.arg (s : State) (n : Nat) : Nat := s.ev.args.getD n 0
/-- Run with a context in the issue slot, then put the former one back. -/
def State.onCtx (s : State) (id : Nat) (f : State → State) : State :=
  let old := s.cur.id
  (f (s.switchTo id)).switchTo old

/-! ## Results and wakes -/

/-- R16: a result that has returned is written, with its flags. Data: context, result. -/
def execDeferredResultWrite (st : State) : Host.Outcome State Fault Refusal :=
  .next <| match st.ctx? (st.arg 0) with
    | none => st
    | some c =>
      let r := st.landWhere c fun d => d.id == st.arg 1 && d.ready && d.due == 0
      r.1.updCtx c.id fun _ => r.2

/-- R341: whether a parked context wakes outside a wave, a queue or a HINT, and with what mark. -/
def State.wakes (s : State) (c : Ctx) : Option Nat :=
  let yes (b : Bool) : Option Nat := if b then some 0 else none
  match c.park with
  | some .settle => yes c.deferred.isEmpty
  | some (.batch n) => yes (!c.owes n)
  | some (.mxBatch n) => yes (c.mxDone n)
  | some (.flag l) =>
    let h := if l.tt = 6 then (match s.remote l (s.launch c.launch).tag false with | .here h => h | _ => l) else l
    if h.tt = 6 then (match SMap.find s.copies (h.addr / 64) with
      | some v => yes (v.extractLsb' (8 * (h.addr % 64)) 8 != 0#8)
      | none => yes true)
    else yes (s.readByte h != 0)
  | some .txPlace =>
    let same := s.allCtxs.filter fun x => x.isGroup && x.core == c.core && x.id != c.id
    let first := same.all fun x => x.park != some .txPlace || c.parkSeq < x.parkSeq
    if (same.filter fun x => x.txg).length < 4 && first then some 4 else none
  | some .token => yes ((s.part (s.launch c.launch).tag).token == some c.id)
  | some .txend => yes ((s.commits.filter fun k => k.ctx == c.id).all fun k => k.phase == 3)
  | some .limit => yes true
  | some (.line n) => yes ((SMap.find s.locks n).isNone && s.allCtxs.all fun x => x.park != some (.line n) || c.parkSeq ≤ x.parkSeq)
  | some .qzQueue => yes ((s.tile (tileOfCore c.core)).qz.length < 64)
  | some .mxLimit => yes (c.mxCount < 64)
  | some .mxIdle => yes (if (s.core c.core).engine.split then !(s.allCtxs.any fun x => x.kind == .seq 1 && x.block == c.block)
      else !(s.mxops.any fun o => o.ctx == c.id))
  | some .exitWait => yes (c.batches.isEmpty && (c.mxBatches.all fun b => b.ops.isEmpty) && (c.openSet.all fun j => !(s.jobs.any fun x => x.id == j)) &&
      c.mxOpen.all fun o => !(s.mxops.any fun x => x.id == o))
  | some .link => yes true
  | _ => none

/-- R341: a parked context whose condition holds becomes ready; one that waited to enter the handler enters it. -/
def State.groupWake (st : State) (id : Nat) : State :=
  match st.ctx? id with
  | none => st
  | some c => match st.wakes c with
    | none => st
    | some why =>
      let s := st.wake c.id why
      match c.event with
      | none => s
      | some e => s.onCtx c.id fun s => (s.updCur fun c => { c with event := none }).takeFault e
/-- R341. Data: context. -/
def execGroupWake (st : State) : Host.Outcome State Fault Refusal := .next (st.groupWake (st.arg 0))

/-- R307: a group at its deadline: a next word that cannot be fetched or decoded faults first and is not counted; another raises YIELDOVER in
place of issuing, and its launch ends. Data: context. -/
def execYieldover (st : State) : Host.Outcome State Fault Refusal :=
  .next <| match st.ctx? (st.arg 0) with
    | none => st
    | some c => if c.overdue && c.isReady then { st with agenda := .ctx c.id :: st.agenda } else st

/-! ## The clock drive -/

/-- Table 19-1: step length by setpoint and class. -/
def stepLen (setpt cls : Nat) : Nat :=
  let base := match setpt with | 0 => 400 | 1 => 420 | 2 => 444 | _ => 1000
  match cls with
  | 0 => base
  | 1 => base + base / 4
  | 2 => base + base / 2
  | _ => 2 * base
/-- R346: the class of a step. -/
def stepClass (l : List StageEntry) : Nat := l.foldl (fun a e => max a e.cls) 0

/-- R321: the timed results of a context after one more step: those whose E4 step ends are written. -/
def State.tickResults (s : State) (id : Nat) : State :=
  match s.ctx? id with
  | none => s
  | some c =>
    let done := (c.deferred.filter fun d => d.due == 1).map fun d => d.id
    let c := { c with deferred := c.deferred.map fun d => { d with due := d.due - 1 } }
    let r := s.landWhere c fun d => done.contains d.id
    r.1.updCtx id fun _ => r.2

/-- R259: an array half waits for the next A row of its product; none waits once a stop is requested (R262). -/
def State.awaits (s : State) (core half : Nat) : Bool :=
  !(s.core core).engine.held && s.mxops.any fun o => o.core == core && o.half == half && o.kind == 1 && o.started && !o.stopped && o.fail == 0 &&
    o.rows.isEmpty && decide (o.next < field o.opB.toNat 19 12 + 1)

/-- R342: the groups of a wave whose step has come become ready. -/
def State.waveWake (st : State) (core : Nat) : State :=
  let k := st.core core
  let due := k.waves.filter fun w => w.at_ ≤ k.cyc.toNat
  let s := st.setCore core { k with waves := k.waves.filter fun w => !(w.at_ ≤ k.cyc.toNat) }
  due.foldl (fun s w => match s.ctx? w.ctx with
    | some c => if c.park = some .wave then s.wake w.ctx w.value else s
    | none => s) s
/-- R177: a `bar.twait` whose HINT has elapsed wakes with 0. -/
def State.twaitTimeout (st : State) (id : Nat) : State :=
  match st.ctx? id with
  | none => st
  | some c => match c.park with
    | some (.barrierTimed _ _ t) => if t ≤ (st.core c.core).span.toNat then st.wake c.id 3 else st
    | _ => st
/-- R341: at the end of a step, the core's contexts whose condition holds become ready for the next one. -/
def State.promptWakes (s : State) (core : Nat) : State :=
  let s := if (s.core core).waves.isEmpty then s else s.waveWake core
  ((s.allCtxs.filter fun c => c.core == core && c.park.isSome && c.park != some .limit && c.park != some .link).map fun c => c.id).foldl
    (fun s i => (s.groupWake i).twaitTimeout i) s

/-- R321, R322, R341, R346–R348: one step of a core's clock drive. Data: core. -/
def execClockDriveStep (st : State) : Host.Outcome State Fault Refusal :=
  let core := st.arg 0
  let k := st.core core
  let len := stepLen k.setpt (stepClass k.stages)
  let issued := k.issued
  let w0 := st.awaits core 0
  let w1 := st.awaits core 1
  let s := st.setCore core { k with
    cyc := k.cyc + 1
    span := k.span + BitVec.ofNat 64 len
    steps := k.steps + 1
    stalled := if issued then k.stalled else k.stalled + 1
    boosted := k.boosted || k.setpt == 0
    stages := (k.stages.map fun e => { e with left := e.left - 1 }).filter fun e => e.left != 0
    engine := { k.engine with await0 := k.engine.await0 + (if w0 then 1 else 0), await1 := k.engine.await1 + (if w1 then 1 else 0) } }
  let s := k.stages.foldl (fun s e => s.updCtx e.ctx fun c => { c with drag := c.drag + BitVec.ofNat 64 (len - stepLen k.setpt e.cls) }) s
  .next ((((s.allCtxs.filter fun c => c.core == core && c.deferred.any fun d => d.due != 0).map fun c => c.id).foldl State.tickResults s).promptWakes core)

/-! ## Waiters -/

/-- R342: the groups of a wave whose step has come become ready. Data: core. -/
def execBarrierWaveWake (st : State) : Host.Outcome State Fault Refusal :=
  .next (st.waveWake (st.arg 0))

/-- R177: a `bar.twait` whose HINT has elapsed wakes with 0. Data: context. -/
def execBarTwaitTimeout (st : State) : Host.Outcome State Fault Refusal :=
  .next (st.twaitTimeout (st.arg 0))

/-- The earliest context parked on a queue. -/
def State.firstWaiter (s : State) (q : Loc) (push : Bool) : Option Ctx :=
  let l := s.allCtxs.filter fun c => c.park == some (.queue q push)
  l.find? fun c => l.all fun d => c.parkSeq ≤ d.parkSeq
/-- R180: a waiter of the queue can be served. -/
def State.queueReady (s : State) (q : Loc) (push : Bool) : Bool :=
  let w := s.qWord q.core (q.addr % 2 ^ 21)
  w.broken || (if push then w.count != w.depth else w.count != 0)

/-- R180: the earliest waiter of a queue is served next. Data: core, offset, 1 for pushers. -/
def execQueueWaiterServe (st : State) : Host.Outcome State Fault Refusal :=
  let q : Loc := ⟨1, st.arg 0 * 2 ^ 21 + st.arg 1⟩
  let push := st.arg 2 == 1
  .next <| if !st.queueReady q push then st
    else match st.firstWaiter q push with
      | none => st
      | some c => st.wake c.id 5

/-! ## Translations -/

/-- A cached translation, or what a node entry covers, lies in a range of pages; 0 pages mean all. -/
def TlbEntry.inRange (t : TlbEntry) (page count : Nat) : Bool :=
  let n := levelSpan (if t.large then 1 else t.lvl) / 65536
  count == 0 || (decide (t.vpn / n * n < page + count) && decide (page < t.vpn / n * n + n))

/-- R80: the oldest removal of a partition is complete in every TLB and walker cache; its `tlbinv` receives 0. Several that are outstanding complete
in the order of their issue, which the spec leaves open (DESIGN CHOICE, assumption 61). Data: partition. -/
def execTlbinvComplete (st : State) : Host.Outcome State Fault Refusal :=
  .next <| match st.inval.find? fun x => x.tag == st.arg 0 with
    | none => st
    | some x =>
      let s := { st with inval := st.inval.filter fun y => y.id != x.id }
      let s := s.updPart x.tag fun p => { p with tlb := p.tlb.filter fun t => !t.inRange x.page x.count }
      s.updCtx x.ctx fun c => { c with deferred := c.deferred.map fun d => if d.id = x.id then { d with ready := true } else d }

/-- R134: a partition's quota of a field's walkers. -/
def State.quota (s : State) (f tag : Nat) : Nat :=
  let here := (List.range 648).filter fun t => fieldOfTile t == f && (s.tile t).owner != 0
  let k := (here.filter fun t => (s.tile t).owner == tag).length
  16 * k / here.length
/-- The partitions with a queued walk, from the round-robin position on. -/
def Field.waiting (x : Field) : List Nat :=
  let l := (x.walkQ.filter fun q => !q.2.isEmpty).map Prod.fst
  l.filter (fun t => x.rr < t) ++ l.filter (fun t => t ≤ x.rr)
/-- R135: the partition a free walker serves. -/
def State.serves (s : State) (f : Nat) : Option Nat :=
  let x := s.fld f
  if 16 ≤ x.walkers.length then none
  else match x.waiting.find? fun t => (x.walkers.filter fun w => w.2 == t).length < s.quota f t with
    | some t => some t
    | none => x.waiting.head?

/-- R129, R134, R135: a walk of an address joins its field's queue when there is room, and a free walker takes the next one. Data:
field, then, for a new request, partition and page number. -/
def execWalkerServe (st : State) : Host.Outcome State Fault Refusal :=
  let f := st.arg 0
  let s := match st.ev.args with
    | [_, tag, page] =>
      let q := SMap.get [] (st.fld f).walkQ tag
      if 64 ≤ q.length || (SMap.find st.parts tag).isNone then st
      else
        let w : Walk := { tag := tag, va := BitVec.ofNat 64 (page * 65536), field := f }
        { (st.updFld f fun x => { x with walkQ := SMap.put x.walkQ tag (q ++ [st.nextId]) }) with
          walks := SMap.put st.walks st.nextId w, nextId := st.nextId + 1 }
    | _ => st
  .next <| match s.serves f with
    | none => s
    | some tag => s.updFld f fun x =>
        match SMap.get [] x.walkQ tag with
        | [] => x
        | w :: rest => { x with walkQ := SMap.set [] x.walkQ tag rest, walkers := x.walkers ++ [(w, tag)], rr := tag }

/-- R113–R117, R129: a walk ends; a valid leaf is cached and its walker is free. Data: walk. -/
def execWalkComplete (st : State) : Host.Outcome State Fault Refusal :=
  .next <| match SMap.find st.walks (st.arg 0) with
    | none => st
    | some w =>
      if !((st.fld w.field).walkers.any fun x => x.1 == st.arg 0) then st
      else
        let s := { st with walks := SMap.del st.walks (st.arg 0) }
        let s := s.updFld w.field fun x => { x with walkers := x.walkers.filter fun y => y.1 != st.arg 0 }
        match (s.part w.tag).tiles.find? fun t => fieldOfTile t == w.field with
        | none => s
        | some t => { (s.atCore (t * 16)).cachePages w.tag [w.va.toNat] with cur := s.cur }

/-! ## The token (R280) -/

/-- R280, R299: the token passes to the first group in the queue. Data: partition. -/
def execTokenGrant (st : State) : Host.Outcome State Fault Refusal :=
  let p := st.part (st.arg 0)
  .next <| match p.token, p.tokenQ with
    | none, id :: rest => (st.updPart (st.arg 0) fun p => { p with token := some id, tokenQ := rest }).wake id 0
    | _, _ => st

/-! ## Pre-emption (16 R304, R305) -/

/-- The answers still owed to a context's loads are discarded when they come. -/
def State.dropAsks (s : State) (id : Nat) : State :=
  { s with peers := s.peers.map fun p => (p.1, { p.2 with asks := p.2.asks.map fun q => if q.who = id then { q with who := 0 } else q }) }
/-- R232, R304: a parked instruction is withdrawn with no effect, its place in the token's queue with it (R299); a wait that follows a performed
instruction stays (R15), and so does one for another device's answer to a write that has been sent. -/
def State.withdraw (s : State) (id : Nat) : State :=
  match s.ctx? id with
  | none => s
  | some c =>
    if !c.reissue || (s.peers.any fun p => p.2.asks.any fun q => q.who == id && q.kind != 1) then s
    else
      let s := s.dropAsks id
      let s : State := { s with
        parts := s.parts.map fun p => (p.1, { p.2 with tokenQ := p.2.tokenQ.filter (· ≠ id) })
        cores := s.cores.map fun k => (k.1, { k.2 with waves := k.2.waves.filter fun w => w.ctx != id }) }
      s.updCtx id fun c => { c with park := none, reissue := false, answers := [], probe := 0, woken := 0 }
/-- R304, R232: request pre-emption of a block: its sequencer contexts stop, and its groups are to stop; a group out of the handler withdraws the
instruction it is parked in. -/
def State.requestPreempt (s : State) (b : Nat) : State :=
  let cs := s.allCtxs.filter fun c => c.block == b && c.kind != .none
  let s := cs.foldl (fun s c => if c.smode then s else s.withdraw c.id) s
  let s := s.updCtxs (fun c => c.block == b && c.kind != .none) fun c => if c.isSeq then { c with stopped := true } else { c with preempt := true }
  s.updCore (s.block b).core fun k => { k with engine := if k.engine.holder = b then { k.engine with held := true } else k.engine }

/-- R286: every open and doomed lane aborts with PREEMPT. -/
def Ctx.preemptTx (c : Ctx) : Ctx :=
  if !c.txg then c
  else
    let m := c.openMask ||| c.doomed
    { (maskLanes m).foldl (fun c i => c.abortLane 8 0 0 i) c with txg := false, txHold := false, txLane := 0, doomed := 0, txlogs := [] }

/-- R304: stop a clean group: what it had in flight into registers is discarded; its stores stay. -/
def State.stopGroup (s : State) (id : Nat) : State :=
  let s := (s.releaseToken id).dropAsks id
  let s := s.updCtx id fun c =>
    { c.preemptTx with
      deferred := []
      park := none
      reissue := false
      woken := 0
      event := none
      late := none
      answers := []
      probe := 0
      addrOff := 0
      slotLen := 0
      stepped := false
      breq := false
      nreq := false
      preempt := false
      smode := false
      smCount := 0
      stopped := true }
  { s with cores := s.cores.map fun k => (k.1, { k.2 with waves := k.2.waves.filter fun w => w.ctx != id }) }

/-- R152, R340: a block whose groups have all stopped gives up its rows and its group slots. -/
def State.settleBlock (s : State) (b : Nat) : State :=
  let x := s.block b
  if x.st = .resident && (!x.claim || (s.core x.core).engine.stopped) && (s.allCtxs.all fun c => !(c.block == b && c.kind != .none) || c.stopped || c.ended) then
    (s.updBlock b fun x => { x with st := .stopped }).updCtxs (fun c => c.block == b && c.isGroup) fun c => { c with resident := false }
  else s

/-- R304: a group under a request, clean and out of the handler, stops. Data: context. -/
def execGroupStop (st : State) : Host.Outcome State Fault Refusal :=
  .next <| match st.ctx? (st.arg 0) with
    | none => st
    | some c => if c.isGroup && c.preempt && !c.dirty && !c.smode then (st.stopGroup c.id).settleBlock c.block else st

/-- R232, R305: a stopped context of a resident block resumes: a group from its flashback slot, a sequencer context where it was. An error found in
the slot ends the launch (R311).
Data: context. -/
def execGroupResume (st : State) : Host.Outcome State Fault Refusal :=
  .next <| match st.ctx? (st.arg 0) with
    | none => st
    | some c =>
      let e := (st.core c.core).engine
      if !c.stopped || c.ended || (st.block c.block).st != .resident || (e.holder == c.block && e.held) ||
          st.allCtxs.any (fun x => x.block == c.block && x.preempt) then st
      else
        let s := st.updCtx c.id fun c => { c with stopped := false, resident := c.isGroup, age := (st.core c.core).cyc.toNat + 1 }
        if c.isSeq then s else s.onCtx c.id fun s => if s.slotBad {} then s.endWith kPoison 1 else s.restoreSlot.runSlot

end Sys2Proof.Machine
end

