-- ==== Sys2Proof/Machine/Submit.lean ====
section
/-!
DEFINITION. Submissions: copies, spawn, collectives and quantisation jobs as they issue (07 R157–R161, R165–R174, R181–R183, 10
R220). What the engines then do is in the events of EvJobs.
-/

namespace Sys2Proof.Machine

/-- R158: the current context's submissions that count against the limit of 255: those in its open set or in a batch not yet complete. -/
def State.subs (s : State) : Nat := s.cur.openSet.length + (s.cur.batches.map fun b => b.jobs.length).sum

/-- R157: submit a job for the current context. A `spawn` also follows a release fence: the spawned group sees what it ordered (R145). -/
def State.submit (s : State) (kind d : Nat) (f : Job → Job) : State :=
  let c := s.cur
  let agent : Agent := if kind = 10 then { s.agent with unit := 2, core := tileOfCore c.core } else { s.agent with unit := 1 }
  let j : Job := { id := s.nextId, ctx := c.id, launch := c.launch, block := c.block, core := c.core, agent := agent, smode := c.smode,
                   kind := kind, sd := d, after := if kind = 8 then max c.asyncFence c.relFence else c.asyncFence }
  { s with jobs := s.jobs ++ [f j], nextId := s.nextId + 1, cur := { c with openSet := c.openSet ++ [s.nextId] } }

/-- Meta of a submission: `span` operand registers from sb on (R13). -/
def subMeta (s : Bool) (g : BitVec 3) (a b span : Nat) : Meta :=
  { syncMeta s g (a :: (List.range span).map (b + ·)) true with sEnd := b + span }

/-- R14, R157, R158: the leader submits once; a 256th submission parks. -/
def submission (m : Meta) (st : State) (k : State → Nat → Eff) : Host.Outcome State Fault Refusal :=
  issue m st fun t => t.withLeader m.guard fun i => if 255 ≤ t.subs then .wait t .limit else k t i

/-- A submission that takes its operand words as they are. -/
def submitWords (kind span : Nat) (s : Bool) (g : BitVec 3) (d a b : BitVec 6) (st : State) : Host.Outcome State Fault Refusal :=
  submission (subMeta s g a.toNat b.toNat span) st fun t _ =>
    .done (t.submit kind d.toNat fun j =>
      { j with opA := t.readS a.toNat, opB := t.readS b.toNat, opB1 := t.readS (b.toNat + 1)
               opB2 := if span = 3 then t.readS (b.toNat + 2) else 0 })

/-- R165: submit a tensor copy. -/
def execCpt (s : Bool) (g : BitVec 3) (d a b : BitVec 6) (st : State) : Host.Outcome State Fault Refusal :=
  submitWords 0 2 s g d a b st

/-- R169: submit a linear copy. -/
def execCpl (s : Bool) (g : BitVec 3) (d a b : BitVec 6) (st : State) : Host.Outcome State Fault Refusal :=
  submitWords 1 2 s g d a b st

/-- R378: the context the slot's binding names. -/
def State.ownsSlot (s : State) (k : KeySlot) : Bool :=
  let c := s.cur
  let l := s.launch c.launch
  let lg : Nat := match c.kind with
    | .seq n => 8 + n
    | _ => c.lg
  l.vf == k.vf && l.q == k.q && ((s.vf l.vf).queue l.q).launch == c.launch && (s.block c.block).b == k.block && lg == k.lg &&
    SMap.find l.first k.block == some c.block

/-- Table 07-5: chunk bytes and chunks of a decryption descriptor. -/
def cpcChunk (x : Nat) : Nat := 256 * 2 ^ field x 163 160
def cpcChunks (x : Nat) : Nat := (field x 156 128 + cpcChunk x - 1) / cpcChunk x
/-- R174: a descriptor that is not valid. -/
def cpcBad (x : Nat) : Bool :=
  let len := field x 156 128
  field x 159 157 != 0 || field x 191 168 != 0 || field x 511 288 != 0 || decide (8 < field x 163 160) || len % 16 != 0 || len < 16 ||
    decide (2 ^ 28 < len) || field x 127 64 % 16 != 0

/-- R172, R174: read the descriptor, check the slot, its validity and the counter floor, then submit. -/
def execCpc (s : Bool) (g : BitVec 3) (d a b : BitVec 6) (st : State) : Host.Outcome State Fault Refusal :=
  submission (subMeta s g a.toNat b.toNat 1) st fun t i =>
    let va := (t.readS a.toNat).toNat
    if isLocal (t.readS a.toNat) then .event t (t.leaderEvent (if va % 64 = 0 then ⟨i, kNotPresent, 2, va⟩ else ⟨i, kMisalign, 0, va⟩) false)
    else t.bulkLoad 64 i (t.readS a.toNat) 64 fun t bs =>
      let x := bytesNat bs
      let slot := field x 167 164
      let key := SMap.find (t.part t.curTag).keys slot
      match key with
      | none => .event t { t.leaderEvent ⟨i, kKeyowner, slot, 0⟩ false with aux := slot, addrs := [] }
      | some k =>
        if !t.ownsSlot k then .event t { t.leaderEvent ⟨i, kKeyowner, slot, 0⟩ false with aux := slot, addrs := [] }
        else
          let n := cpcChunks x
          let top := field x 255 192 + n - 1
          let pre := if cpcBad x then 8 else if field x 255 192 ≤ k.floor.toNat || 2 ^ 64 ≤ top then 7 else 0
          let t := if pre = 0 then t.updPart t.curTag fun p => { p with keys := SMap.put p.keys slot { k with floor := BitVec.ofNat 64 top } } else t
          .done (t.submit 2 d.toNat fun j => { j with opA := t.readS a.toNat, opB := t.readS b.toNat, card := BitVec.ofNat 512 x, key := k.key, pre := pre })

/-- R167: submit a multicast copy to cores of the tile. -/
def execCpm (s : Bool) (g : BitVec 3) (d a b : BitVec 6) (st : State) : Host.Outcome State Fault Refusal :=
  submitWords 3 3 s g d a b st

/-- R167: submit a multicast copy to a constellation. -/
def execCpmCon (s : Bool) (g : BitVec 3) (d a b : BitVec 6) (st : State) : Host.Outcome State Fault Refusal :=
  submitWords 4 3 s g d a b st

/-- R170: submit an adding copy. -/
def execCprAdd (s : Bool) (g : BitVec 3) (d a b : BitVec 6) (st : State) : Host.Outcome State Fault Refusal :=
  submitWords 5 2 s g d a b st

/-- R170: submit a minimum copy. -/
def execCprMin (s : Bool) (g : BitVec 3) (d a b : BitVec 6) (st : State) : Host.Outcome State Fault Refusal :=
  submitWords 6 2 s g d a b st

/-- R170: submit a maximum copy. -/
def execCprMax (s : Bool) (g : BitVec 3) (d a b : BitVec 6) (st : State) : Host.Outcome State Fault Refusal :=
  submitWords 7 2 s g d a b st

/-- R181: submit a spawn record; only a group stream holds it (Table 01-7). -/
def execSpawn (s : Bool) (g : BitVec 3) (d a b : BitVec 6) (st : State) : Host.Outcome State Fault Refusal :=
  submission { subMeta s g a.toNat b.toNat 2 with seq := false } st fun t _ =>
    .done (t.submit 8 d.toNat fun j => { j with opA := t.readS a.toNat, opB := t.readS b.toNat, opB1 := t.readS (b.toNat + 1) })

/-- R182, R183: read the card, zero the member's flags, then submit. -/
def execColl (s : Bool) (g : BitVec 3) (d a : BitVec 6) (st : State) : Host.Outcome State Fault Refusal :=
  submission { syncMeta s g [a.toNat] true with sEnd := 0 } st fun t i =>
    t.bulkLoad 64 i (t.readS a.toNat) 64 fun t bs =>
      let x := bytesNat bs
      let n := cardChunks x ((t.launch t.cur.launch).conSize (field x 15 8))
      t.bulkStore i (BitVec.ofNat 64 (field x 319 256)) (List.replicate n 0) fun u =>
        .done (u.submit 9 d.toNat fun j => { j with opA := u.readS a.toNat, card := BitVec.ofNat 512 x, nchunks := n, need := (t.nextId, u.nextId) })

/-- R220: submit a quantisation job; the tile's queue holds 64. -/
def execQz (s : Bool) (g : BitVec 3) (d a : BitVec 6) (st : State) : Host.Outcome State Fault Refusal :=
  submission (syncMeta s g [a.toNat] true) st fun t _ =>
    let tl := tileOfCore t.cur.core
    if 64 ≤ (t.tile tl).qz.length then .wait t .qzQueue
    else
      let u := t.submit 10 d.toNat fun j => { j with opA := t.readS a.toNat }
      .done (u.updTile tl fun x => { x with qz := x.qz ++ [t.nextId] })

end Sys2Proof.Machine
end

