-- ==== Sys2Proof/Machine/Engine.lean ====
section
/-!
DEFINITION. What engine jobs share: their addresses and extents (07 R159, R160), the order of a copy's elements (07 R166, R169),
footprints (09 R206), element combinations (07 R170), status words (07 R162) and the end of a job (07 R163, R185).
-/

namespace Sys2Proof.Machine

/-- Causes of Table 07-2. -/
def cUnmapped : Nat := 1
def cPerm : Nat := 2
def cSprange : Nat := 3
def cDropped : Nat := 4
def cPoison : Nat := 5
def cTag : Nat := 6
def cLayout : Nat := 8
def cNorecv : Nat := 10
def cLink : Nat := 11

def State.job? (s : State) (id : Nat) : Option Job := s.jobs.find? fun j => j.id == id
def State.updJob (s : State) (id : Nat) (f : Job → Job) : State := { s with jobs := updWhere (fun j => j.id == id) f s.jobs }

/-! ## Addresses -/

/-- R160, R159: where an engine's access at a copy address lands, or the cause that refuses it. -/
def State.enginePlace (s : State) (a : Agent) (block : Nat) (smode : Bool) (acc : Acc) (va : W64) : Except Nat Loc :=
  if isLocal va then
    let b := s.block block
    if b.spsize ≤ localOff va then .error cSprange else .ok ⟨1, b.core * 2 ^ 21 + b.spbase + localOff va⟩
  else match (s.atCore (if a.unit = 2 then a.core * 16 else a.core)).translate a.tag (a.lq / 8) (!smode) acc va.toNat 0 with
    | .error e => .error (if e.1 = kPerm then cPerm else cUnmapped)
    | .ok x => .ok x.loc
/-- The page an address lies on, with the direction; the allocation is one extent of its own. -/
def extentKey (write : Bool) (va : W64) : Nat := (if isLocal va then 2 ^ 60 else va.toNat / 65536) * 2 + write.toNat
/-- R160: the place of a byte within the job's translated extents. -/
def Job.at_ (j : Job) (write : Bool) (va : W64) : Option Loc :=
  (SMap.find j.pages (extentKey write va)).map fun l =>
    if isLocal va then ⟨l.tt, l.addr + localOff va⟩ else ⟨l.tt, l.addr + va.toNat % 65536⟩
/-- R160: the access class of a job: a reduction, a read, a copy's write, or another write. -/
def Job.acc (j : Job) (write : Bool) : Acc :=
  if !write then .engineRead else if 5 ≤ j.kind && j.kind ≤ 7 then .engineReduce else if j.kind ≤ 4 then .engineWrite else .engineStore
/-- R160: translate an extent of a job for its first byte accessed. -/
def State.extentAt (s : State) (j : Job) (write : Bool) (va : W64) : Except Nat Loc :=
  match s.enginePlace j.agent j.block j.smode (j.acc write) va with
  | .error e => .error e
  | .ok l => .ok (if isLocal va then ⟨1, l.addr - localOff va⟩ else ⟨l.tt, l.addr - va.toNat % 65536⟩)

/-! ## The order of a copy -/

/-- A copy: its chunk bytes, elements and their bytes, and the addresses of each element; no source is a zero element, no destination
an element not stored (R166). -/
structure Geo where
  chunk : Nat := 4096
  count : Nat
  el : Nat
  src : Nat → Option W64
  dst : Nat → Option W64
def Geo.bytes (g : Geo) : Nat := g.count * g.el
def Geo.chunks (g : Geo) : Nat := (g.bytes + g.chunk - 1) / g.chunk
/-- The elements of a chunk. -/
def Geo.elems (g : Geo) (k : Nat) : List Nat :=
  let per := g.chunk / g.el
  (List.range (min per (g.count - k * per))).map (k * per + ·)
def Geo.chunkBytes (g : Geo) (k : Nat) : Nat := min g.chunk (g.bytes - k * g.chunk)

/-- Table 07-3. -/
def recSize (r k : Nat) : Nat := field r (64 + 24 * k + 23) (64 + 24 * k)
def recStride (r k : Nat) : Nat := if k = 0 then 0 else field r (184 + 40 * (k - 1) + 39) (184 + 40 * (k - 1))
def recBox (r k : Nat) : Nat := field r (344 + 8 * k + 7) (344 + 8 * k)
def recEl (r : Nat) : Nat := 2 ^ field r 385 384
def recDim (r : Nat) : Nat := field r 388 386
def recMode (r : Nat) : Nat := field r 390 389
def recDir (r : Nat) : Bool := r.testBit 391
/-- Table 07-4: ck of a tiled coordinate word. -/
def coord (c k : Nat) : Nat := field c (12 * k + 11) (12 * k)
/-- Elements of the box. -/
def boxCount (r : Nat) : Nat := (List.range 5).foldl (fun n k => n * (recBox r k + 1)) 1
/-- R166: the elements that move; an image window's `BOX3` is not read (DEDUCED, assumption 62). -/
def recordCount (r : Nat) : Nat := if recMode r = 1 then (recBox r 0 + 1) * (recBox r 1 + 1) * (recBox r 2 + 1) else boxCount r
/-- jk of box element i. -/
def boxIndex (r i k : Nat) : Nat :=
  i / ((List.range k).foldl (fun n m => n * (recBox r m + 1)) 1) % (recBox r k + 1)

/-- R166: a record or coordinate word that is not valid. -/
def recordBad (r c : Nat) : Bool :=
  let el := recEl r
  let n := recDim r
  field r 511 392 != 0 || n == 0 || decide (5 < n) || decide (1 < recMode r) ||
  ((List.range n).any fun k => recSize r k == 0) ||
  ((List.range 5).any fun k => decide (n ≤ k) && (recBox r k != 0 || (recMode r == 0 && coord c k != 0))) ||
  field r 63 0 % el != 0 || ((List.range n).any fun k => recStride r k % el != 0) ||
  decide (2 ^ 28 < recordCount r * el) ||
  (if recMode r = 1 then n != 4 || decide (256 < (recBox r 1 + 1) * (recBox r 2 + 1)) || recDir r else field c 63 60 != 0)

/-- R166: the tensor address of box element i, none outside the tensor. -/
def tiledAddr (r c i : Nat) : Option W64 :=
  let e := fun k => coord c k * (recBox r k + 1) + boxIndex r i k
  if (List.range (recDim r)).all fun k => e k < recSize r k then
    some (BitVec.ofNat 64 (field r 63 0 + e 0 * recEl r + ((List.range (recDim r)).map fun k => e k * recStride r k).foldl (· + ·) 0))
  else none
/-- R166: the address of an image window's element i. -/
def imageAddr (r c i : Nat) : Option W64 :=
  let w := recBox r 0 + 1
  let row := i / w
  let x := signedNat 16 (field c 15 0) + signedNat 4 (field c 59 56) + (row % (recBox r 1 + 1) : Nat)
  let y := signedNat 16 (field c 31 16) + signedNat 4 (field c 63 60) + (row / (recBox r 1 + 1) : Nat)
  let ch := field c 55 44 * w + i % w
  let n := field c 43 32
  if 0 ≤ x && x < recSize r 1 && 0 ≤ y && y < recSize r 2 && ch < recSize r 0 && n < recSize r 3 then
    some (BitVec.ofNat 64 (field r 63 0 + ch * recEl r + x.toNat * recStride r 1 + y.toNat * recStride r 2 + n * recStride r 3))
  else none
/-- A virtual address that is no copy address: one with bit 63 set translates to nothing (R81). -/
def plainVa (a : W64) : W64 := if isLocal a then BitVec.ofNat 64 (2 ^ 62 + a.toNat % 2 ^ 62) else a
/-- The elements of a tensor box; `BASE` is a virtual address. -/
def recordAddr (r c i : Nat) : Option W64 := (if recMode r = 1 then imageAddr r c i else tiledAddr r c i).map plainVa

/-- The copy of a job of kinds 0 to 7; a decrypting copy is counted in bytes. -/
def Job.geo (j : Job) : Geo :=
  let r := j.card.toNat
  let c := j.opB1.toNat
  match j.kind with
  | 0 =>
    let box (i : Nat) : Option W64 := some (j.opB + BitVec.ofNat 64 (i * recEl r))
    if recDir r then { count := recordCount r, el := recEl r, src := box, dst := recordAddr r c }
    else { count := recordCount r, el := recEl r, src := recordAddr r c, dst := box }
  | 2 =>
    { chunk := cpcChunk r, count := field r 156 128, el := 1, src := fun i => some (BitVec.ofNat 64 (field r 63 0) + BitVec.ofNat 64 i)
      dst := fun i => some (j.opB + BitVec.ofNat 64 i) }
  | 3 | 4 => { count := recordCount r, el := recEl r, src := recordAddr r c, dst := fun i => some (BitVec.ofNat 64 (2 ^ 63 + field j.opB.toNat 31 0 + i * recEl r)) }
  | k =>
    let el := if 5 ≤ k && field c 33 32 = 1 then 2 else 4
    { count := field c 28 0 / el, el := el, src := fun i => some (j.opA + BitVec.ofNat 64 (i * el)), dst := fun i => some (j.opB + BitVec.ofNat 64 (i * el)) }

/-! ## Quantisation cards (10 R218–R224) -/

def qzRows (x : Nat) : Nat := field x 271 256
def qzCols (x : Nat) : Nat := field x 287 272
def qzMode (x : Nat) : Nat := field x 385 384
def qzSize (x : Nat) : Nat := if x.testBit 386 then 4 else 2
/-- R221. -/
def qzBad (x : Nat) : Bool :=
  let r := qzRows x
  let c := qzCols x
  field x 511 388 != 0 || qzMode x == 3 || r == 0 || decide (32768 < r) || c == 0 || decide (32768 < c) || decide (2 ^ 26 < r * c) ||
  (qzMode x == 0 && c % 128 != 0) || (qzMode x == 1 && r % 128 != 0) || (qzMode x == 2 && (r % 128 != 0 || c % 128 != 0)) ||
  field x 319 288 % qzSize x != 0 || decide (field x 319 288 < c * qzSize x) || decide (field x 351 320 < c) ||
  (field x 255 192 != 0 && (qzMode x != 2 || decide (field x 383 352 < r))) ||
  field x 63 0 % qzSize x != 0 || field x 191 128 % 4 != 0
/-- Table 10-6: how many blocks. -/
def qzBlocks (x : Nat) : Nat := match qzMode x with
  | 2 => (qzRows x / 128) * (qzCols x / 128)
  | _ => qzRows x * qzCols x / 128
/-- Row and column of element i of block b (R222, Table 10-6). -/
def qzElem (x b i : Nat) : Nat × Nat :=
  let n := qzCols x / 128
  match qzMode x with
  | 0 => (b / n, b % n * 128 + i)
  | 1 => (b / qzCols x * 128 + i, b % qzCols x)
  | _ => (b / n * 128 + i / 128, b % n * 128 + i % 128)
def qzLen (x : Nat) : Nat := if qzMode x = 2 then 16384 else 128
def qzSrc (x b i : Nat) : W64 :=
  let e := qzElem x b i
  BitVec.ofNat 64 (field x 63 0 + e.1 * field x 319 288 + e.2 * qzSize x)
def qzDst (x b i : Nat) : W64 :=
  let e := qzElem x b i
  BitVec.ofNat 64 (field x 127 64 + e.1 * field x 351 320 + e.2)
def qzScl (x b : Nat) : W64 := BitVec.ofNat 64 (field x 191 128 + 4 * b)
/-- The transposed code, none without `TDST`. -/
def qzTrans (x b i : Nat) : Option W64 :=
  let e := qzElem x b i
  if field x 255 192 = 0 then none else some (BitVec.ofNat 64 (field x 255 192 + e.2 * field x 383 352 + e.1))
/-- The transposed tile's scale. -/
def qzTransScl (x b : Nat) : Option W64 :=
  let n := qzCols x / 128
  let m := qzRows x / 128
  if field x 255 192 = 0 then none else some (BitVec.ofNat 64 (field x 191 128 + 4 * (m * n + b % n * m + b / n)))
/-- The ends of an element of n bytes. -/
def bothEnds (w : Bool) (n : Nat) (a : W64) : List (Bool × W64) := if n = 1 then [(w, a)] else [(w, a), (w, a + BitVec.ofNat 64 (n - 1))]
/-- The accesses of a block, its outputs after its sources. -/
def qzTouches (x b : Nat) : List (Bool × W64) :=
  (List.range (qzLen x)).flatMap (fun i => bothEnds false (qzSize x) (qzSrc x b i)) ++
    (List.range (qzLen x)).map (fun i => (true, qzDst x b i)) ++ bothEnds true 4 (qzScl x b) ++
    (List.range (qzLen x)).filterMap (fun i => (qzTrans x b i).map fun a => (true, a)) ++
    (match qzTransScl x b with | some a => bothEnds true 4 a | none => [])

/-- The accesses of a chunk that need extents: direction and address, in element order; multicast destinations are places already. -/
def Job.touches (j : Job) (k : Nat) : List (Bool × W64) :=
  if j.kind = 10 then qzTouches j.card.toNat k
  else
  let g := j.geo
  ((g.elems k).flatMap fun i =>
    (match g.src i with | some a => bothEnds false g.el a | none => []) ++
    (if j.kind = 3 || j.kind = 4 then [] else match g.dst i with | some a => bothEnds true g.el a | none => [])) ++
  (if j.kind = 2 then [(false, BitVec.ofNat 64 (field j.card.toNat 127 64 + 16 * k)), (false, BitVec.ofNat 64 (field j.card.toNat 127 64 + 16 * k + 15))] else [])

/-- Extents kept in the order met. -/
def addExtent (l : List (Nat × Bool × W64)) (x : Bool × W64) : List (Nat × Bool × W64) :=
  if l.any fun y => y.1 == extentKey x.1 x.2 then l else l ++ [(extentKey x.1 x.2, x)]
/-- R160: how many chunks from k on a sub-job takes: as many as eight extents hold. A chunk that alone needs more is translated in several sub-jobs
of eight before any of it moves, as 10 R223 states for a block (DESIGN CHOICE, assumption 63). -/
def Job.subEnd (j : Job) (total : Nat) : Nat → Nat → List (Nat × Bool × W64) → Nat × List (Nat × Bool × W64)
  | 0, k, ext => (k, ext)
  | fuel + 1, k, ext =>
    if total ≤ k then (k, ext)
    else
      let e := (j.touches k).foldl addExtent ext
      if 8 < e.length && !ext.isEmpty then (k, ext) else j.subEnd total fuel (k + 1) e
/-- R160: translate some extents, each with its index within its sub-job, or the cause and the index of the one that fails. -/
def State.extentsOf (s : State) (j : Job) (l : List (Nat × Bool × W64)) : Except (Nat × Nat) (SMap Loc × SMap Nat) :=
  (List.range l.length).zip l |>.foldl (fun (m : Except (Nat × Nat) (SMap Loc × SMap Nat)) x => match m with
    | .error e => .error e
    | .ok m => match s.extentAt j x.2.2.1 x.2.2.2 with
      | .error c => .error (c, x.1 % 8)
      | .ok l => .ok (SMap.put m.1 x.2.1 l, SMap.put m.2 x.2.1 (x.1 % 8))) (.ok (j.pages, j.extents))
/-- R160: translate the sub-job that begins at chunk k: its end and the job's extents, or the cause and the index of the extent that fails. -/
def State.subJob (s : State) (j : Job) (k total : Nat) : Nat × Except (Nat × Nat) (SMap Loc × SMap Nat) :=
  let r := j.subEnd total total k []
  (r.1, s.extentsOf j r.2)
/-- R159: a local byte beyond the allocation. -/
def State.beyond (s : State) (j : Job) : Bool :=
  let b := s.block j.block
  let far (n : Nat) (a : Option W64) : Bool := match a with
    | some a => isLocal a && b.spsize < localOff a + n
    | none => false
  let g := j.geo
  let x := j.card.toNat
  if j.kind = 3 || j.kind = 4 then (s.launch j.launch).spbytes < field j.opB.toNat 31 0 + g.bytes
  else if j.kind = 10 then (List.range (qzBlocks x)).any fun b => far 4 (some (qzScl x b)) || far 4 (qzTransScl x b) ||
    (List.range (qzLen x)).any fun i => far (qzSize x) (some (qzSrc x b i)) || far 1 (some (qzDst x b i)) || far 1 (qzTrans x b i)
  else (List.range g.count).any (fun i => far g.el (g.src i) || far g.el (g.dst i)) ||
    (j.kind == 2 && (List.range g.chunks).any fun k => far 16 (some (BitVec.ofNat 64 (field x 127 64 + 16 * k))))

/-! ## Bytes -/

/-- An engine reads a byte: dropped, poisoned, or its value; another device's bytes come with the event. -/
inductive EngRead where
  | ok (b : Byte)
  | fail (cause : Nat)
  | wait
  deriving DecidableEq, Repr

/-- One byte as an engine reads it (R130, R297, R311). -/
def State.engByte (s : State) (a : Agent) (l : Loc) (remote : Byte) : EngRead :=
  if l.tt = 6 then
    match s.remote l a.tag false with
    | .here h => .ok (s.readByte h)
    | .away d => if (s.peer d).lost then .fail cLink else .ok remote
    | .refusedEntry => .fail cPerm
    | .dropped => .fail cDropped
  else if !s.delivers a l then .fail cDropped
  else if l.tt = 0 && (match SMap.find s.locks (l.addr / 128) with | some k => !k.readOnly | none => false) then .wait
  else if s.isPoisoned l then .fail cPoison
  else .ok (s.readByte l)
/-- Read several places; the first that fails decides. -/
def State.engBytes (s : State) (a : Agent) : List Loc → List Byte → Except (Option Nat) (List Byte)
  | [], _ => .ok []
  | l :: t, rem =>
    match s.engByte a l (rem.headD 0) with
    | .wait => .error none
    | .fail c => .error (some c)
    | .ok b => match s.engBytes a t (if l.tt = 6 then rem.tail else rem) with
      | .error e => .error e
      | .ok bs => .ok (b :: bs)
/-- R395: another device's ordered port has room for the flits of a write. -/
def State.roomFor (s : State) (a : Agent) (ls : List Loc) : Bool :=
  (dedup (ls.filterMap fun l => if l.tt = 6 then (match s.remote l a.tag true with | .away d => some d | _ => none) else none)).all fun d =>
    match s.orderedPort d with
    | some p => (s.port p).ready && decide ((s.port p).replay.length + 2 * (dedup (ls.map fun l => l.addr / 128)).length < 512)
    | none => false
/-- R130, R297: how writes to some places end before any is made: a cause, a wait, or none. -/
def State.engMayWrite (s : State) (a : Agent) (ls : List Loc) : Except (Option Nat) Unit :=
  if ls.any fun l => l.tt == 6 && (match s.remote l a.tag true with | .away d => (s.peer d).lost | _ => false) then .error (some cLink)
  else if ls.any fun l => if l.tt = 6 then (match s.remote l a.tag true with | .dropped => true | .refusedEntry => true | _ => false) else !s.delivers a l then
    .error (some cDropped)
  else if ls.any fun l => l.tt == 0 && (SMap.find s.locks (l.addr / 128)).isSome then .error none
  else if !s.roomFor a ls then .error none
  else .ok ()
/-- The mark of a job in `Asked.who`. -/
def jobMark (id : Nat) : Nat := 2 ^ 41 + id
/-- R394: a line of bytes for another device leaves as one CHUNK flit; a copy's chunk waits for its answer (R402). A probe writes none of them: it
shows that the line may be written (R162; assumption 57). -/
def State.sendChunk (s : State) (dev : Nat) (a : Agent) (who : Option (Nat × Nat)) (probe : Bool) (g : List (Loc × Byte)) : State :=
  match g with
  | [] => s
  | c :: _ =>
    let line := c.1.addr / 128 * 128
    let data := (List.range 128).map fun i => ((g.filter fun w => w.1.addr == line + i).getLast?.map Prod.snd).getD 0
    let mask := if probe then 0 else packNat 1 (fun i => if g.any fun w => w.1.addr == line + i then 1 else 0) 128
    let n := ((s.peer dev).cseqOut + 1) % 2 ^ 32
    let id := who.getD (0, 0)
    match s.sendFlit dev { ftype := 10, ptag := a.tag, sdev := s.module.devId,
                           payload := orderingPayload n 0 (targetOf ⟨6, line⟩) 0 id.1 id.2 data mask } with
    | none => s
    | some s =>
      let s := (s.updPeer dev fun p => { p with cseqOut := n }).dropCopies c.1
      match who with
      | some w => s.noteAsk dev 2 (jobMark w.1) w.2 0 c.1
      | none => s
/-- R394: flits for the lines of other devices among some bytes. -/
def State.sendLines (s : State) (a : Agent) (who : Option (Nat × Nat)) (probe : Bool) (cells : List (Loc × Byte)) : State :=
  (groupBy (fun (c : Loc × Byte) => (c.1.addr / 2 ^ 57, c.1.addr / 128)) (cells.filter fun c => (s.landed a.tag c.1).tt == 6)).foldl (fun s g => match g with
    | [] => s
    | c :: _ => match s.remote c.1 a.tag true with
      | .away d => s.sendChunk d a who probe g
      | _ => s) s
/-- R394: write bytes; those of other devices leave as flits. -/
def State.engWrite (s : State) (a : Agent) (who : Option (Nat × Nat)) (cells : List (Loc × Byte)) : State :=
  let here := (cells.map fun c => (s.landed a.tag c.1, c.2)).filter fun c => c.1.tt != 6
  (((s.writeAll here).clearPoison (here.map Prod.fst)).forwardWrites here).sendLines a who false cells
/-- R207: the bytes of the words chosen by their numbers, all for none, and the others. -/
def pickWords (cs : List (Loc × Byte)) (ns : List Nat) : List (Loc × Byte) × List (Loc × Byte) :=
  if ns.isEmpty then (cs, [])
  else
    let key (c : Loc × Byte) : Nat := c.1.addr / 4 * 8 + c.1.tt
    let ws := dedup (cs.map key)
    let now := ns.filterMap fun n => ws[n]?
    (cs.filter (fun c => now.contains (key c)), cs.filter fun c => !now.contains (key c))
/-- R131, R132, R399: an engine's accesses leave in packets, numbered from `seq` on; each one that its destination does not take is recorded. -/
def State.engPackets (s : State) (a : Agent) (x : Cross) (job : W64) (ext : W64 → Nat) (seq : Nat) (as : List (W64 × Loc)) : State × Nat :=
  (groupBy (fun (p : W64 × Loc) => destKey p.2) as).foldl (fun r g => match g with
    | [] => r
    | (va, l) :: _ =>
      let takes : Bool := if l.tt = 6 then !r.1.lost6 l a.tag (x != .read) else r.1.delivers a l
      (if takes then r.1 else r.1.dropAt a x l r.2 g.length va 0 job (ext va), (r.2 + 1) % 2 ^ 32)) (s, seq)
/-- The packets of a job's accesses; the record of a drop carries the address of the job's card and the index of the extent (R131). -/
def State.jobPackets (s : State) (j : Job) (x : Cross) (as : List (W64 × Loc)) : State :=
  let r := s.engPackets j.agent x j.opA (fun va => SMap.get 0 j.extents (extentKey (x != .read) va)) (((s.job? j.id).getD j).seq) as
  r.1.updJob j.id fun j => { j with seq := r.2 }
/-- The bytes of an element with their addresses. -/
def Job.spread (j : Job) (w : Bool) (el : Nat) (a : W64) : List (W64 × Loc) :=
  match j.at_ w a with
  | none => []
  | some l => (List.range el).map fun i => (a + BitVec.ofNat 64 i, ⟨l.tt, l.addr + i⟩)

/-! ## Combinations (R170) -/

/-- R170: combine an old element with a source element. -/
def combine (ty op : Nat) (old new : Nat) : Nat :=
  let a := BitVec.ofNat 32 old
  let b := BitVec.ofNat 32 new
  match ty with
  | 0 => (match op with
    | 0 => (fadd32 a b).v.toNat
    | 1 => (minMax false a b).v.toNat
    | _ => (minMax true a b).v.toNat)
  | 1 => (match op with
    | 0 => (hadd2 a b).v.toNat % 2 ^ 16
    | 1 => (hminMax2 false a b).v.toNat % 2 ^ 16
    | _ => (hminMax2 true a b).v.toNat % 2 ^ 16)
  | 2 => (match op with
    | 0 => (old + new) % 2 ^ 32
    | 1 => if signedNat 32 new < signedNat 32 old then new else old
    | _ => if signedNat 32 old < signedNat 32 new then new else old)
  | _ => (match op with
    | 0 => (old + new) % 2 ^ 32
    | 1 => min old new
    | _ => max old new)

/-! ## The end of a job -/

/-- R162, R185: write a status word into the issuer's register; a stopped group's goes to its slot when the recipe lists it. -/
def State.writeStatus (s : State) (j : Job) (w : W64) : State :=
  match s.ctx? j.ctx with
  | none => s
  | some c =>
    if c.stopped && c.isGroup then
      let r := (({ s with cur := c } : State).readRecipe c.rcpHeader)
      match (if c.rcpHeader = 0 then .ok none else r) with
      | .ok (some r) =>
        if r.us.contains j.sd then s.writeNum (c.slotLoc (0x2000 + 8 * r.us.idxOf j.sd)) 8 w.toNat else s
      | _ => s
    else s.updCtx j.ctx fun c => { c with sregs := SMap.set 0 c.sregs j.sd w, poisonS := c.poisonS &&& ~~~(BitVec.twoPow 64 j.sd),
                                          deferred := c.deferred.map (contestS j.sd) }
/-- R163: a batch whose submissions have all ended is complete. -/
def Ctx.dropBatches (live : List Nat) (c : Ctx) : Ctx :=
  { c with batches := c.batches.filter fun b => b.jobs.any live.contains }
/-- R162, R163: a job ends. -/
def State.endJob (s : State) (j : Job) (w : W64) : State :=
  let s := if j.ended then s else s.writeStatus j w
  let s := { s with jobs := s.jobs.filter fun x => x.id != j.id }
  let live := s.jobs.map fun x => x.id
  let s := (s.updCtx j.ctx (Ctx.dropBatches live)).reapCtx j.ctx
  if j.kind = 10 then s.updTile (tileOfCore j.core) fun t => { t with qz := t.qz.filter (· ≠ j.id) } else s

/-- Table 07-1: the status word of a copy or collective of n chunks. -/
def copyStatus (n : Nat) (applied : List Nat) (failed : List (Nat × Nat × Nat)) (bytes : Nat) (other : Nat) : W64 :=
  match (List.range n).find? fun k => !applied.contains k with
  | none => if n = 0 && !failed.isEmpty then BitVec.ofNat 64 (3 + (match failed with | f :: _ => f.2.1 | [] => 0) * 4)
      else BitVec.ofNat 64 (1 + bytes * 2 ^ 32)
  | some first =>
    let f := failed.find? fun x => x.1 == first
    let cause := match f with | some x => x.2.1 | none => other
    let map := if cause = cUnmapped then (match f with | some x => x.2.2 % 8 | none => 0)
      else packNat 1 (fun i => (applied.contains (first + 1 + i)).toNat) 7
    BitVec.ofNat 64 ((if applied.isEmpty then 3 else 2) + cause * 4 + first % 65536 * 2 ^ 8 + map * 2 ^ 24 + bytes * 2 ^ 32)

/-- Nothing was applied: `STATE` 3 with a cause. -/
def statusNone (cause : Nat) : W64 := BitVec.ofNat 64 (3 + cause * 4)

/-! ## Dispatch order (09 R206) -/

/-- One run of bytes of a footprint: where, how many, and whether they are written. -/
abbrev Span := Loc × Nat × Bool
def Span.meets (a b : Span) : Bool :=
  a.1.tt == b.1.tt && (a.2.2 || b.2.2) && decide (a.1.addr < b.1.addr + b.2.1) && decide (b.1.addr < a.1.addr + a.2.1)
/-- R209, R235: the issuer's accesses before its `fence.async` are performed. -/
def State.asyncDone (s : State) (ctx after : Nat) : Bool :=
  !(s.packets.any fun p => p.src.ctx == ctx && p.src.unit == 0 && p.id < after)

end Sys2Proof.Machine
end

