-- ==== Sys2Proof/Machine/EvJobs.lean ====
section
/-!
DEFINITION. Events of the engines: the dispatch of jobs (07 R160; 09 R206, R208), their chunks (07 R162, R166–R173), multicast shares
(07 R168) and quantised blocks (10 R221–R225). An event whose condition does not hold changes nothing (assumption 2).
-/

namespace Sys2Proof.Machine

/-! ## Structures read at dispatch -/

def Loc.plus (l : Loc) (n : Nat) : Loc := ⟨l.tt, l.addr + n⟩

/-- The places of a structure's bytes, with their addresses; fewer when one does not translate. -/
def State.structAt (s : State) (j : Job) (va : W64) (n : Nat) : List (W64 × Loc) :=
  (List.range n).filterMap fun i =>
    let a := va + BitVec.ofNat 64 i
    match s.enginePlace j.agent j.block j.smode .engineRead (plainVa a) with
    | .ok l => some (a, l)
    | .error _ => none
/-- R208, R166, R221: a structure read once at dispatch: a misaligned address is LAYOUT and reads nothing, one that cannot be read is
UNMAPPED. -/
def State.engStruct (s : State) (j : Job) (va : W64) (al n : Nat) (remote : List Byte) : Except (Option Nat) Nat :=
  if va.toNat % al ≠ 0 then .error (some cLayout)
  else
    let ls := (s.structAt j va n).map Prod.snd
    if ls.length ≠ n then .error (some cUnmapped)
    else match s.engBytes j.agent ls remote with
      | .ok bs => .ok (bytesNat bs)
      | .error none => .error none
      | .error (some _) => .error (some cUnmapped)
/-- R131, R132: the packets of a structure's read. -/
def State.structPackets (s : State) (j : Job) (va : W64) (al n : Nat) : State := if va.toNat % al ≠ 0 then s else s.jobPackets j .read (s.structAt j va n)
/-- The kinds whose record or card is read at dispatch. -/
def Job.readsCard (j : Job) : Bool := j.kind == 0 || j.kind == 3 || j.kind == 4 || j.kind == 10
/-- The layout record or card of a job, read at dispatch, or the copy read at issue. -/
def State.jobCard (s : State) (j : Job) (remote : List Byte) : Except (Option Nat) Nat :=
  if !j.started && j.readsCard then s.engStruct j j.opA 64 64 remote else .ok j.card.toNat
/-- R166, R167, R169, R221: operands that end a job with LAYOUT. -/
def Job.badLayout (j : Job) : Bool :=
  let r := j.card.toNat
  let low (a : W64) : Nat := if isLocal a then localOff a else a.toNat
  match j.kind with
  | 0 => recordBad r j.opB1.toNat || low j.opB % 16 != 0
  | 3 | 4 => recordBad r j.opB1.toNat || recDir r || field j.opB.toNat 31 0 % 16 != 0 ||
      (field j.opB.toNat 63 32 != 0xFFFFFFFF && field j.opB.toNat 63 32 % 32 != 0)
  | 10 => qzBad r
  | 2 | 9 => false
  | _ => low j.opA % 4 != 0 || low j.opB % 4 != 0 || field j.opB1.toNat 28 0 % 4 != 0 || field j.opB1.toNat 28 0 == 0 ||
      decide (2 ^ 28 < field j.opB1.toNat 28 0)
/-- Chunks or blocks of a job. -/
def Job.total (j : Job) : Nat := if j.kind = 10 then qzBlocks j.card.toNat else if j.kind = 9 then j.nchunks else j.geo.chunks

/-! ## Footprints (R206) -/

/-- A run of bytes that lies on one page or in the allocation. -/
def State.span (s : State) (j : Job) (va : W64) (n : Nat) (w : Bool) : List Span :=
  match s.enginePlace j.agent j.block j.smode (j.acc w) va with
  | .ok l => [(s.landed j.agent.tag l, n, w)]
  | .error _ => []
/-- A run of bytes cut at its pages. -/
def State.spans (s : State) (j : Job) (va : W64) (n : Nat) (w : Bool) : List Span :=
  if isLocal va then s.span j va n w
  else
    let off := va.toNat % 65536
    (List.range ((off + n + 65535) / 65536)).flatMap fun i =>
      let lo := max off (i * 65536)
      s.span j (va + BitVec.ofNat 64 (lo - off)) (min (off + n) ((i + 1) * 65536) - lo) w
/-- R206: the footprint of chunks lo to hi − 1 of a job whose card is known. -/
def State.footprint (s : State) (j : Job) (lo hi : Nat) : List Span :=
  let g := j.geo
  let x := j.card.toNat
  let ks := (List.range (hi - lo)).map (lo + ·)
  let one (o : Option W64) (n : Nat) (w : Bool) : List Span := match o with | some a => s.span j a n w | none => []
  match j.kind with
  | 9 =>
    let n := (s.launch j.launch).conSize (field x 15 8)
    let part := field x 220 192 / n
    s.spans j (BitVec.ofNat 64 (field x 127 64)) (if field x 3 0 = 2 then part else field x 220 192) false ++
      s.spans j (BitVec.ofNat 64 (field x 191 128)) (cardOut x n) true ++ s.spans j (BitVec.ofNat 64 (field x 319 256)) j.nchunks true
  | 10 => ks.flatMap fun b =>
      (List.range (qzLen x)).flatMap (fun i => one (some (qzSrc x b i)) (qzSize x) false ++ one (some (qzDst x b i)) 1 true ++ one (qzTrans x b i) 1 true) ++
        one (some (qzScl x b)) 4 true ++ one (qzTransScl x b) 4 true
  | 3 | 4 =>
    ks.flatMap (fun k => (g.elems k).flatMap fun i => one (g.src i) g.el false) ++
      ((s.blocks.filter fun b => j.receivers.contains b.1 && b.2.placed).map fun b => (⟨1, b.2.core * 2 ^ 21 + b.2.spbase + field j.opB.toNat 31 0⟩, g.bytes, true))
  | k =>
    ks.flatMap (fun c => (g.elems c).flatMap fun i => one (g.src i) g.el false ++ one (g.dst i) g.el true) ++
      (if k = 2 then ks.flatMap fun c => s.span j (BitVec.ofNat 64 (field x 127 64 + 16 * c)) 16 false else [])
/-! ## Dispatch -/

/-- R162: the engine keeps at most eight chunks in flight and issues none after a failure. -/
def Job.fill (j : Job) : Job :=
  let n := if !j.failed.isEmpty || j.ended || j.suspended then 0 else min (8 - j.flight.length) (j.sub - j.next)
  { j with flight := j.flight ++ (List.range n).map (j.next + ·), next := j.next + n }
/-- R223, Table 10-5; a device that is lost drops what is written to it (22 R400; DEDUCED, assumption 64). -/
def qzStatus (j : Job) (cause first : Nat) : W64 :=
  let cause := if cause = cLink then cDropped else cause
  BitVec.ofNat 64 ((if cause = 0 then 1 else if first = 0 then 3 else 2) + cause * 4 + (if cause = 0 then 0 else first * 2 ^ 8) +
    min j.nan 0xFFFF * 2 ^ 32 + min j.ovf 0xFFFF * 2 ^ 48)
/-- R162: a copy with nothing in flight and nothing left to issue ends. -/
def State.mayEnd (s : State) (id : Nat) : State :=
  match s.job? id with
  | none => s
  | some j =>
    if j.flight.isEmpty && (j.ended || !j.failed.isEmpty || j.next = j.nchunks) then
      s.endJob j (copyStatus j.nchunks j.applied j.failed j.bytes 0)
    else s

/-- R155: the constellation's member entries. -/
def Launch.members (l : Launch) (con : Nat) : List (Nat × Nat) := (l.gtable.filter fun e => e.2.2.contains con).map fun e => (e.1, e.2.1)
/-- R168: the receivers fixed at dispatch, 0 where there is none, and the member indices that no block has yet. -/
def State.receiversOf (s : State) (j : Job) : List Nat × List Nat :=
  let l := s.launch j.launch
  if j.kind = 3 then
    let slots := (List.range 16).filter fun i => j.opB2.getLsbD i
    (slots.map fun i =>
      let bs := s.blocks.filter fun b => b.2.launch == j.launch && b.2.core == tileOfCore j.core * 16 + i && b.2.st == .resident
      match bs.find? fun b => bs.all fun c => b.2.b ≤ c.2.b with
      | some b => b.1
      | none => 0, [])
  else
    let idx := dedup ((l.members (field j.opB2.toNat 7 0)).map Prod.fst)
    (idx.flatMap fun i =>
      let live := (s.blocks.filter fun b => b.2.launch == j.launch && b.2.b == i).map Prod.fst
      if live.isEmpty then (match SMap.find l.first i with | some b => [b] | none => []) else live,
     idx.filter fun i => (SMap.find l.first i).isNone)

/-- R206: the members of one collective, whose footprints do not order each other. -/
def Job.oneColl (j e : Job) : Bool :=
  j.kind == 9 && e.kind == 9 && e.launch == j.launch && field e.card.toNat 15 8 == field j.card.toNat 15 8 && field e.card.toNat 63 32 == field j.card.toNat 63 32
/-- R206: an earlier job of the tile that has not ended overlaps these chunks; one whose record cannot be read yet is taken to. -/
def State.overlapped (s : State) (j : Job) (lo hi : Nat) : Bool :=
  let mine := s.footprint j lo hi
  s.jobs.any fun e => decide (e.id < j.id) && tileOfCore e.core == tileOfCore j.core && e.kind != 8 && e.pre == 0 && !j.oneColl e &&
    ((!e.started && e.readsCard && (s.structAt e e.opA 64).any fun l => (s.landed e.agent.tag l.2).tt == 6) ||
    (match s.jobCard e [] with
      | .error c => c.isNone
      | .ok x =>
        let e := { e with card := BitVec.ofNat 512 x, receivers := if e.started then e.receivers else (s.receiversOf e).1 }
        !e.badLayout && (s.footprint e 0 e.total).any fun a => mine.any fun b => Span.meets a b))

/-- R131, R132: a dispatch that the tile's engine queue does not take (Table 05-6, kind 10): the tile is another partition's. -/
def State.dispatchLost (s : State) (j : Job) : Bool := j.agent.tag != 0 && (s.tile (tileOfCore j.core)).owner != j.agent.tag
/-- R160, R206, R208: a job is dispatched once its earlier accesses and earlier overlapping footprints have ended. Data: job; bytes of
another device. -/
def execJobDispatch (st : State) : Host.Outcome State Fault Refusal :=
  .next <| match st.job? (st.arg 0) with
    | none => st
    | some j =>
      if j.started || j.suspended || j.kind = 8 || j.kind = 9 || !st.asyncDone j.ctx j.after then st
      else if j.kind = 10 && (st.tile (tileOfCore j.core)).qz.head? != some j.id then st
      else if j.pre ≠ 0 then st.endJob j (statusNone j.pre)
      else if st.dispatchLost j then
        (st.dropAt j.agent .dispatch ⟨8, j.core * 2 ^ 22⟩ j.seq 0 j.opA 0 j.opA 0).endJob j (statusNone cDropped)
      else match st.jobCard j st.ev.bytes with
        | .error none => st
        | .error (some c) => (st.structPackets j j.opA 64 64).endJob j (statusNone c)
        | .ok x =>
          let st := if j.readsCard then st.structPackets j j.opA 64 64 else st
          let j := { j with card := BitVec.ofNat 512 x, seq := ((st.job? j.id).getD j).seq }
          if j.badLayout then st.endJob j (statusNone cLayout)
          else if st.beyond j then st.endJob j (statusNone cSprange)
          else
            let r := if j.kind = 3 || j.kind = 4 then st.receiversOf j else ([], [])
            let j := { j with receivers := r.1, missing := r.2, nchunks := j.total, started := true }
            let sub := st.subJob j 0 j.nchunks
            if st.overlapped j 0 sub.1 then st
            else match sub.2 with
              | .error e => st.endJob j (if j.kind = 10 then statusNone e.1 else copyStatus j.nchunks [] [(0, e.1, e.2)] 0 0)
              | .ok pages =>
                let s := st.updJob j.id fun _ => let k := { j with pages := pages.1, extents := pages.2, sub := sub.1 }; if j.kind = 10 then k else k.fill
                if j.kind = 10 then s.updTile (tileOfCore j.core) fun t => { t with qz := t.qz.filter (· ≠ j.id) } else s

/-- R160, R223: the next sub-job of a long job, once the one before it has been dispatched. Data: job. -/
def execSubjobDispatch (st : State) : Host.Outcome State Fault Refusal :=
  .next <| match st.job? (st.arg 0) with
    | none => st
    | some j =>
      if !j.started || j.suspended || j.ended || !j.failed.isEmpty || j.kind = 9 || j.next ≠ j.sub || j.nchunks ≤ j.sub then st
      else
        let sub := st.subJob j j.sub j.nchunks
        if st.overlapped j j.sub sub.1 then st
        else match sub.2 with
          | .error e =>
            if j.kind = 10 then st.endJob j (qzStatus j e.1 j.sub)
            else (st.updJob j.id fun j => { j with failed := j.failed ++ [(j.sub, e.1, e.2)] }).mayEnd j.id
          | .ok pages => st.updJob j.id fun j =>
              let k := { j with pages := pages.1, extents := pages.2, sub := sub.1 }
              if j.kind = 10 then k else k.fill

/-! ## Chunks -/

/-- The places of an element. -/
def Job.locs (j : Job) (w : Bool) (el : Nat) (a : W64) : List Loc :=
  match j.at_ w a with
  | none => []
  | some l => (List.range el).map l.plus
/-- Cut bytes into the elements they came from; an element without an address is zero. -/
def cutElems {α : Type} (el : Nat) : List (Option α) → List Byte → List (List Byte)
  | [], _ => []
  | none :: t, bs => List.replicate el 0 :: cutElems el t bs
  | some _ :: t, bs => bs.take el :: cutElems el t (bs.drop el)
/-- Read a list of elements: their bytes, or a cause, or a wait. -/
def State.readElems (s : State) (j : Job) (el : Nat) (as : List (Option W64)) (remote : List Byte) : Except (Option Nat) (List (List Byte)) :=
  match s.engBytes j.agent (as.flatMap fun o => match o with | some a => j.locs false el a | none => []) remote with
  | .error e => .error e
  | .ok bs => .ok (cutElems el as bs)

/-- What a chunk comes to: the state after, a cause, or a wait. -/
inductive ChunkEnd where
  | ok (s : State)
  | fail (s : State) (cause : Nat)
  | wait

/-- R162: what a job is to write for chunk k: its bytes wait in the engine, none of them written; the lines of other devices are asked whether they
may be. -/
def State.holdCells (s : State) (j : Job) (x : Cross) (k : Nat) (ws : List (Option W64 × List Byte)) : ChunkEnd :=
  let as := ws.flatMap fun w => match w.1 with
    | some a => j.spread true w.2.length a
    | none => []
  let cells := ws.flatMap fun w => match w.1 with
    | some a => (j.locs true w.2.length a).zip w.2
    | none => []
  let ls := cells.map Prod.fst
  match s.engMayWrite j.agent ls with
  | .error none => .wait
  | .error (some c) => .fail (s.jobPackets j x as) c
  | .ok _ =>
    if 5 ≤ j.kind && j.kind ≤ 7 && ls.any fun l => s.isPoisoned (s.landed j.agent.tag l) then .fail s cPoison
    else .ok (((s.jobPackets j x as).sendLines j.agent (some (j.id, k)) true cells).updJob j.id fun j => { j with cells := SMap.put j.cells k cells })

/-- Bytes of a job's elements, cut into elements of n bytes each. -/
def elemCells (n : Nat) : Nat → List (Loc × Byte) → List (Loc × Nat)
  | 0, _ => []
  | fuel + 1, cs => match cs with
    | [] => []
    | c :: _ => (c.1, bytesNat ((cs.take n).map Prod.snd)) :: elemCells n fuel (cs.drop n)
/-- R170: combine the elements of a chunk at their places; those on another device go there, one flit each (22 R401, R402). -/
def State.combineCells (s : State) (j : Job) (k : Nat) (cs : List (Loc × Byte)) : Option State :=
  let ty := field j.opB1.toNat 33 32
  let op := j.kind - 5
  let el := if ty = 1 then 2 else 4
  (elemCells el cs.length cs).foldl (fun (s? : Option State) w => match s? with
    | none => none
    | some s =>
      let h := s.landed j.agent.tag w.1
      if h.tt = 6 then
        (match s.remote h j.agent.tag true with
          | .away d => (s.sendOrdering d 5 j.agent.tag s.module.devId fun q => orderingPayload q 0 (targetOf h)
              (op + 4 * ty + (if el = 2 then 1 else 2) * 16) j.id k (natBytes el w.2) (2 ^ el - 1)).map
                fun s => (s.dropCopies h).noteAsk d 1 (jobMark j.id) k 2 h
          | _ => some s)
      else some (let s := s.writeNum h el (combine ty op (s.readNum h el) w.2)
        s.forwardWrites (cellsFrom h (natBytes el (s.readNum h el))))) (some s)
/-- R207: the words of a chunk chosen by their numbers, all for none, are written; none is written while a line is locked or a link has no room. -/
def State.writeCells (s : State) (j : Job) (k : Nat) (ns : List Nat) : Option State :=
  let r := pickWords ((SMap.find j.cells k).getD []) ns
  match s.engMayWrite j.agent (r.1.map Prod.fst) with
  | .error none => none
  | .error (some c) => some (s.updJob j.id fun j => { j with cells := SMap.put j.cells k []
                                                             failed := if j.failed.any fun f => f.1 == k then j.failed else j.failed ++ [(k, c, 0)] })
  | .ok _ =>
    (if 5 ≤ j.kind && j.kind ≤ 7 then s.combineCells j k r.1 else some (s.engWrite j.agent (some (j.id, k)) r.1)).map fun s =>
      s.updJob j.id fun j => { j with cells := SMap.put j.cells k r.2 }

/-- R173: the plaintext of a chunk, when its tag matches. -/
def cpcOpen (key : BitVec 256) (x k : Nat) (ct tag : List Byte) : Option (List Byte) :=
  let iv := beOfNat 4 (field x 287 256) ++ beOfNat 8 (field x 255 192 + k)
  (gcmOpen (byteNats (natBytes 32 key.toNat)) iv (byteNats (natBytes 8 k)) (byteNats ct) (byteNats tag)).map natsBytes

/-- R131, R132: the packets of the reads of some elements. -/
def State.readPackets (s : State) (j : Job) (el : Nat) (as : List (Option W64)) : State :=
  s.jobPackets j .read (as.flatMap fun o => match o with | some a => j.spread false el a | none => [])
/-- One chunk of a copy of kinds 0 to 2 and 5 to 7: its sources are read and its bytes held. -/
def State.runChunk (s : State) (j : Job) (k : Nat) (remote : List Byte) : ChunkEnd :=
  let g := j.geo
  let es := g.elems k
  let srcs := es.map g.src
  match s.readElems j g.el srcs remote with
  | .error none => .wait
  | .error (some c) => .fail (s.readPackets j g.el srcs) c
  | .ok els =>
    let t := s.readPackets j g.el srcs
    if j.kind = 2 then
      let tags := [some (BitVec.ofNat 64 (field j.card.toNat 127 64 + 16 * k))]
      match t.readElems j 16 tags (remote.drop els.length) with
      | .error none => .wait
      | .error (some c) => .fail (t.readPackets j 16 tags) c
      | .ok tag =>
        match cpcOpen j.key j.card.toNat k els.flatten tag.flatten with
        | none => .fail (t.readPackets j 16 tags) cTag
        | some pt => (t.readPackets j 16 tags).holdCells j .store k (es.zip pt |>.map fun p => (g.dst p.1, [p.2]))
    else t.holdCells j (if 5 ≤ j.kind then .atomic else .store) k (es.zip els |>.map fun p => (g.dst p.1, p.2))

/-- R162: a chunk leaves the engine, applied or failed. -/
def State.chunkOut (s : State) (id k : Nat) (cause : Option Nat) : State :=
  (s.updJob id fun j =>
    let j := { j with flight := j.flight.filter (· ≠ k), data := SMap.del j.data k, cells := SMap.del j.cells k }
    (match cause with
      | none => if j.failed.any fun f => f.1 == k then j else { j with applied := j.applied ++ [k], bytes := j.bytes + j.geo.chunkBytes k }
      | some c => { j with failed := if j.failed.any fun f => f.1 == k then j.failed else j.failed ++ [(k, c, 0)] }).fill).mayEnd id

/-! ## Multicast shares (R168) -/

/-- R168: the blocks that receive a share, 0 for none, and whether every member index has its block by now. -/
def State.shareBlocks (s : State) (j : Job) : List Nat × Bool :=
  let l := s.launch j.launch
  (j.receivers ++ j.missing.filterMap fun i => SMap.find l.first i, j.missing.all fun i => (SMap.find l.first i).isSome)
/-- One share: written at its block and counted, failed, or waiting for residency. -/
def State.share (s : State) (j : Job) (k r : Nat) (bs : List Byte) : ChunkEnd :=
  match SMap.find s.blocks r with
  | none => .fail s cNorecv
  | some b =>
    if b.st ≠ .resident then .wait
    else
      let g := j.geo
      let off := field j.opB.toNat 31 0 + k * g.chunk
      let cells := cellsFrom ⟨1, b.core * 2 ^ 21 + b.spbase + off⟩ bs
      match s.engMayWrite j.agent (cells.map Prod.fst) with
      | .error none => .wait
      | .error (some c) => .fail (s.jobPackets j .counted (cells.map fun c => (BitVec.ofNat 64 (2 ^ 63 + off), c.1))) c
      | .ok _ =>
        let s := (s.jobPackets j .counted (cells.map fun c => (BitVec.ofNat 64 (2 ^ 63 + off), c.1))).engWrite j.agent none cells
        let o := field j.opB.toNat 63 32
        .ok (if o + 32 ≤ b.spsize then
          { s with deliveries := s.deliveries ++ [⟨⟨1, b.core * 2 ^ 21 + b.spbase + o⟩, field j.opB2.toNat 63 32, bs.length⟩] } else s)
/-- Apply what can be applied of a chunk's shares; the chunk ends with its last one. -/
def State.shares (s : State) (id k : Nat) (only : Option Nat) : State :=
  match s.job? id with
  | none => s
  | some j =>
    match SMap.find j.data k with
    | none => s
    | some bs =>
      let rs := s.shareBlocks j
      let s := (rs.1.filter fun r => !j.shares.contains (r, k) && (only.isNone || only == some r)).foldl (fun s r =>
        match s.share j k r bs with
        | .wait => s
        | .ok s => s.updJob id fun j => { j with shares := j.shares ++ [(r, k)] }
        | .fail s c => s.updJob id fun j => { j with shares := j.shares ++ [(r, k)]
                                                     failed := if j.failed.any fun f => f.1 == k then j.failed else j.failed ++ [(k, c, 0)] }) s
      match s.job? id with
      | none => s
      | some j => if rs.2 && rs.1.all fun r => j.shares.contains (r, k) then s.chunkOut id k none else s

/-- R402: another device has not yet answered for a chunk. -/
def State.chunkAsked (s : State) (id k : Nat) : Bool := s.peers.any fun p => p.2.asks.any fun q => q.who == jobMark id && q.lane == k
/-- R162, R207: chunk k, whose bytes the engine holds: the words chosen are written, and it ends with its last one, when no other device has still to
answer for it; one that another device refuses is not written. -/
def State.chunkWrites (s : State) (id k : Nat) (ns : List Nat) : State :=
  match s.job? id with
  | none => s
  | some j => match SMap.find j.cells k with
    | none => s
    | some [] => if s.chunkAsked id k then s else s.chunkOut id k none
    | some _ =>
      if s.chunkAsked id k then s
      else match j.failed.find? fun f => f.1 == k with
        | some f => s.chunkOut id k (some f.2.1)
        | none => match s.writeCells j k ns with
          | none => s
          | some t => if (match t.job? id with | some j => SMap.find j.cells k == some [] | none => false) && !t.chunkAsked id k then t.chunkOut id k none else t

/-- R162, R173, R207: a chunk in flight is read and checked, then words of it are written, and with the last one it finishes; the engine issues more.
Data: job, chunk, the numbers of the words written now, none for all; bytes of another device. -/
def execChunkComplete (st : State) : Host.Outcome State Fault Refusal :=
  let k := st.arg 1
  .next <| match st.job? (st.arg 0) with
    | none => st
    | some j =>
      if !j.flight.contains k || j.kind = 9 || j.kind = 10 then st
      else if j.kind = 3 || j.kind = 4 then
        (if (SMap.find j.data k).isSome then st.shares j.id k none
        else
          let g := j.geo
          let srcs := (g.elems k).map g.src
          match st.readElems j g.el srcs st.ev.bytes with
          | .error none => st
          | .error (some c) => (st.readPackets j g.el srcs).chunkOut j.id k (some c)
          | .ok els => ((st.readPackets j g.el srcs).updJob j.id fun j => { j with data := SMap.put j.data k els.flatten }).shares j.id k none)
      else if (SMap.find j.cells k).isSome then st.chunkWrites j.id k (st.ev.args.drop 2)
      else match st.runChunk j k st.ev.bytes with
        | .wait => st
        | .ok s => s.chunkWrites j.id k (st.ev.args.drop 2)
        | .fail s c => s.chunkOut j.id k (some c)

/-- R168: a waiting share is written at its block once that is resident. Data: job, block, chunk. -/
def execCpmShareApply (st : State) : Host.Outcome State Fault Refusal :=
  .next (st.shares (st.arg 0) (st.arg 2) (some (st.arg 1)))

/-- R176: the barrier unit of a core performs its next delivery and completes phases. Data: core. -/
def execBarrierOperation (st : State) : Host.Outcome State Fault Refusal := .next (st.serveDelivery (st.arg 0))

/-! ## Quantised blocks (10 R222) -/

/-- The scale of a block with a largest magnitude. -/
def qzScale (amax : Dy) : W32 :=
  if amax.m = 0 then 0x3F800000
  else
    let r := amax.ratio
    let s := (roundRat 24 .rne false r.1 (r.2 * 448)).v
    if s = 0 then 1 else s
/-- R222: the codes of a block in element order, its scale, and what it adds to `NANBLK` and `OVFEL`. -/
def qzBlock (ef : Bool) (xs : List W32) : List Byte × W32 × Nat × Nat :=
  if xs.any fun x => (f32Val x).isNaN || (f32Val x).isInf then (xs.map fun _ => 0x7F, canonNaN, 1, 0)
  else
    let mag (x : W32) : Dy := let d := (f32Val x).dy; ⟨d.m.natAbs, d.e⟩
    let amax := xs.foldl (fun (a : Dy) x => if a.le (mag x) then mag x else a) ⟨0, 0⟩
    let s := qzScale amax
    let sd := (f32Val s).dy
    let r := xs.foldl (fun (p : List Byte × W32 × Nat) x =>
      let e := p.2.1
      let t := if !ef || (f32Val e).isZero then x else (fadd32 x e).v
      match f32Val t with
      | .fin neg y =>
        let n := y.ratio
        let d := sd.ratio
        let c := e4Code neg (n.1 * d.2) (n.2 * d.1)
        let back : Dy := Dy.mul ⟨(e4Image c).getD 0, -9⟩ sd
        (p.1 ++ [c], (roundDy 24 .rne false (y.add back.neg)).v, p.2.2)
      | _ => (p.1 ++ [if t.getLsbD 31 then 0xFE else 0x7E], 0, p.2.2 + 1)) ([], 0, 0)
    (r.1, s, 0, r.2.2)

/-- R223: the words chosen of the block whose outputs the engine holds are written; after the last one, once no other device has still to answer, the
next block may be read, or the job ends. -/
def State.qzWrites (s : State) (id : Nat) (ns : List Nat) : State :=
  match s.job? id with
  | none => s
  | some j =>
    let b := j.next
    let out (s : State) : State := match s.job? id with
      | none => s
      | some j =>
        if s.chunkAsked id b || SMap.find j.cells b != some [] then s
        else match j.failed.find? fun f => f.1 == b with
          | some f => s.endJob j (qzStatus j f.2.1 b)
          | none => if b + 1 = j.nchunks then s.endJob j (qzStatus j 0 0) else s.updJob id fun j => { j with next := b + 1, cells := [] }
    if (SMap.find j.cells b).getD [] = [] then out s else match s.writeCells j b ns with
      | none => s
      | some t => out t
/-- R222–R225: the quantisation engine reads the next block of a job, then writes words of its outputs. Data: job, the numbers of the words written
now, none for all; bytes of another device. -/
def execQzBlockComplete (st : State) : Host.Outcome State Fault Refusal :=
  .next <| match st.job? (st.arg 0) with
    | none => st
    | some j =>
      let b := j.next
      if j.kind ≠ 10 || !j.started || j.sub ≤ b then st
      else if (SMap.find j.cells b).isSome then st.qzWrites j.id (st.ev.args.drop 1)
      else if j.ended then st.endJob j 0
      else if j.suspended then st
      else
        let x := j.card.toNat
        let n := qzLen x
        let srcs := (List.range n).map fun i => some (qzSrc x b i)
        match st.readElems j (qzSize x) srcs st.ev.bytes with
        | .error none => st
        | .error (some c) => (st.readPackets j (qzSize x) srcs).endJob j (qzStatus j c b)
        | .ok els =>
          let r := qzBlock (x.testBit 387) (els.map fun e => BitVec.ofNat 32 (if qzSize x = 2 then bytesNat e * 65536 else bytesNat e))
          let sc := natBytes 4 r.2.1.toNat
          let ws := ((List.range n).zip r.1 |>.flatMap fun p => [(some (qzDst x b p.1), [p.2]), (qzTrans x b p.1, [p.2])]) ++
            [(some (qzScl x b), sc), (qzTransScl x b, sc)]
          match (st.readPackets j (qzSize x) srcs).holdCells j .store b ws with
          | .wait => st
          | .fail s c => s.endJob j (qzStatus j c b)
          | .ok s => (s.updJob j.id fun j => { j with nan := j.nan + r.2.2.1, ovf := j.ovf + r.2.2.2 }).qzWrites j.id (st.ev.args.drop 1)

end Sys2Proof.Machine
end

