-- ==== Sys2Proof/Machine/EvLaunch.lean ====
section
/-!
DEFINITION. The front end: the LAUNCH packet (06 R142–R146; 11 R228; 13 R267–R270; 18 R330–R333, R337), acceptance and residency of blocks
(06 R147–R152; 11 R229; 18 R340) and spawn records (07 R181).
-/

namespace Sys2Proof.Machine

/-! ## Queue packets (18 R330, R331) -/

/-- R330, R371: the thread of a queue may take a packet. -/
def Queue.mayRun (x : Queue) : Bool :=
  x.en && (x.run || x.packet.isSome) && x.thread.isSome && !x.halted && x.qsize != 0 && x.launch == 0 && x.record.isNone
/-- Bits that must be zero in a packet of each type, and encodings that are not assigned (R331, R332, R335, R336). -/
def packetBad (p : Nat) : Bool :=
  match field p 7 0 with
  | 1 => field p 127 124 != 0 || [128, 192, 256, 320, 384, 448].any fun o => field p (o + 63) (o + 57) != 0
  | 2 => field p 63 18 != 0 || field p 127 121 != 0 || field p 511 288 != 0 || 6 ≤ field p 10 8
  | 3 => field p 63 19 != 0 || field p 127 121 != 0 || field p 511 192 != 0 || field p 9 8 == 3
  | 4 => field p 63 9 != 0 || field p 511 128 != 0
  | 5 => field p 63 11 != 0 || field p 191 185 != 0 || field p 511 205 != 0
  | _ => true
/-- R330, R331: serve the queue's next packet with the meaning of a type: OVERRUN halts the queue, an unreadable packet is UNMAPPED, a
malformed one is BADPKT; a packet of another type waits for its own event. A record that waits is tried again first. -/
def State.servePacket (s : State) (v q t : Nat) (f : State → Nat → State) : State :=
  let x := s.vf v
  let k := x.queue q
  if x.tag = 0 then s
  else if k.record.isSome then (if k.halted then s else s.writeRecord v q)
  else if !k.mayRun then s
  else if 2 ^ k.qsize < (k.prod - k.cons).toNat then s.updQueue v q fun k => { k with last := 14, run := false, halted := true, packet := none }
  else if k.prod = k.cons then s
  else
    let at_ := k.base.toNat + 64 * (k.cons.toNat % 2 ^ k.qsize)
    let p? : Except Bool Nat := match k.packet with
      | some p => .ok p.toNat
      | none => (s.frontBytes v q at_ 64).map bytesNat
    match p? with
    | .error true => s.frontAsk v q at_ 64
    | .error false => s.complete v q 11 0 0
    | .ok p =>
      if packetBad p then s.complete v q 12 (field p 7 0) 0
      else if field p 7 0 ≠ t then s
      else f (s.updQueue v q fun k => { k with packet := some (BitVec.ofNat 512 p) }) p

/-! ## Placement (06 R146, R147) -/

/-- A table of 8-byte entries, none when it cannot be read. -/
def State.frontTable (s : State) (v q va n : Nat) : Option (List Nat) :=
  if va % 8 ≠ 0 then none
  else match s.frontBytes v q va (8 * n) with
    | .ok bs => some ((List.range n).map fun i => bytesNat ((bs.drop (8 * i)).take 8))
    | .error _ => none
/-- R143, R297, R398: some tables wait for another device or for a lock: the state in which they have been asked for; none when all can be decided. -/
def State.frontWaits (s : State) (v q : Nat) (l : List (Nat × Nat)) : Option State :=
  let late := l.filter fun x => match s.frontBytes v q x.1 x.2 with | .error true => true | _ => false
  if late.isEmpty then none else some (late.foldl (fun s x => s.frontAsk v q x.1 x.2) s)
/-- Table 06-3. -/
def placeBad (e : Nat) : Bool := field e 63 62 != 0 || decide (field e 47 24 < field e 23 0)
def placeOf (e : Nat) : Nat × Nat × Nat := (field e 23 0, field e 47 24, field e 61 48)
/-- R143: the stored placement table, or code 3. -/
def State.readPlaces (s : State) (v q va n : Nat) : Option (List (Nat × Nat × Nat)) :=
  if n = 0 || 4096 < n then none
  else match s.frontTable v q va n with
    | none => none
    | some es => if es.any placeBad then none else some (es.map placeOf)
/-- R147: the core of a block. -/
def State.coreFor (s : State) (tag : Nat) (places : List (Nat × Nat × Nat)) (b : Nat) : Option Nat :=
  match places.find? fun e => e.1 ≤ b && b ≤ e.2.1 with
  | none => none
  | some e => match (s.part tag).coreAt e.2.2 with
    | some c => if (s.core c).lost then none else some c
    | none => none
/-- R151: a block fits an empty core. -/
def fitsEmpty (groups vregs sp : Nat) : Bool := groups ≤ 128 && groups * vregs ≤ 4096 && sp + 9216 * groups ≤ 2 ^ 21
/-- R141: the linear index of a coordinate. -/
def linearIndex (l : Launch) (x y z : Nat) : Nat := x + l.gx * (y + l.gy * z)

/-- R149, R150: a block is accepted at the tail of its core's pending queue; the spawn-tree counter rises by its groups. -/
def State.acceptBlock (s : State) (x : Block) : State :=
  let id := s.nextId
  let s := { s with nextId := id + 1, blocks := SMap.put s.blocks id { x with st := .pending, order := id } }
  let s := s.updCore x.core fun k => { k with pending := k.pending ++ [id] }
  s.updLaunch x.launch fun l => { l with counter := l.counter + x.groups
                                         first := if (SMap.find l.first x.b).isSome then l.first else SMap.put l.first x.b id }

/-! ## The LAUNCH packet -/

/-- R337: work of the VF is admitted. -/
def VF.funded (x : VF) : Bool := (x.tBudget == 0 || decide (0 < x.tLeft)) && (x.eBudget == 0 || decide (0 < x.eLeft))

/-- Table 13-4 to Table 13-6: a pipeline record. -/
def pipeOf (r : Nat) : Pipe :=
  { hold := field r 15 8, hi := field r 23 16, lo := field r 31 24, args := BitVec.ofNat 64 (field r 127 64)
    stages := (List.range (field r 3 0)).map fun i =>
      let e := field r (512 + 256 * i + 255) (512 + 256 * i)
      { entry := BitVec.ofNat 64 (field e 63 0), recipe := BitVec.ofNat 64 (field e 127 64), min := field e 131 128, max := field e 135 132
        qin := field e 139 136, qout := field e 143 140 }
    queues := (List.range (field r 7 4)).map fun i =>
      let e := field r (2560 + 128 * i + 127) (2560 + 128 * i)
      { ctrl := field e 31 0, qbase := field e 63 32, depth := field e 79 64, esize := field e 95 80, handle := field e 98 96 } }
/-- R269: a group count a pipeline refuses. -/
def Pipe.refuses (p : Pipe) (groups : Nat) : Bool :=
  decide (groups < (p.stages.map fun t => t.min).sum) || decide ((p.stages.map fun t => t.max).sum < groups)
/-- The byte ranges of a queue entry in the allocation. -/
def PQueue.ranges (q : PQueue) : List (Nat × Nat) := [(q.ctrl, 16), (q.qbase, q.depth * q.esize)]
def rangesMeet (a b : Nat × Nat) : Bool := decide (a.1 < b.1 + b.2) && decide (b.1 < a.1 + a.2)
/-- R268, R269: a record that is not valid. -/
def pipeBad (r groups sp : Nat) : Bool :=
  let p := pipeOf r
  let ns := field r 3 0
  let nq := field r 7 4
  let handleOk (h : Nat) : Bool := h == 15 || p.queues.any fun q => q.handle == h
  field r 63 32 != 0 || field r 511 128 != 0 || field r 4095 3584 != 0 || ns == 0 || 8 < ns || 8 < nq ||
  ((List.range ns).any fun i => field r (512 + 256 * i + 255) (512 + 256 * i + 144) != 0) ||
  ((List.range nq).any fun i => field r (2560 + 128 * i + 127) (2560 + 128 * i + 99) != 0) ||
  p.hi == 0 || 16 < p.hi || p.hi ≤ p.lo ||
  (p.stages.any fun t => t.entry.getLsbD 0 || 8 < t.min || t.max == 0 || 8 < t.max || decide (t.max < t.min) || !handleOk t.qin || !handleOk t.qout) ||
  (p.queues.any fun q => q.ctrl % 16 != 0 || q.qbase % 16 != 0 || q.depth == 0 || q.esize == 0 || q.esize % 16 != 0 ||
    decide (sp < q.ctrl + 16) || decide (sp < q.qbase + q.depth * q.esize)) ||
  ((List.range nq).any fun i => (List.range i).any fun j =>
    let a := p.queues.getD i {}
    let b := p.queues.getD j {}
    a.handle == b.handle || a.ranges.any fun x => b.ranges.any fun y => rangesMeet x y) ||
  p.refuses groups

/-- R143, R228, R269: the launch a packet describes, or the first check that fails, in the order of Table 06-2. -/
def State.checkLaunch (s : State) (v q p : Nat) : Except Nat (Launch × Nat) :=
  let x := s.vf v
  let blocks := field p 31 8
  let gx := if field p 47 32 = 0 then blocks else field p 47 32
  let gy := field p 63 48
  let gz := if gx * gy = 0 then 0 else blocks / (gx * gy)
  let groups := field p 67 64
  let vregs := field p 74 68
  let sp := field p 114 93
  let n := field p 123 115
  if gx = 0 || gy = 0 || gz = 0 || 65535 < gx || 65535 < gy || 65535 < gz || blocks ≠ gx * gy * gz then .error 1
  else if groups = 0 || 8 < groups || vregs % 8 ≠ 0 || vregs = 0 || 64 < vregs || field p 78 75 = 0 || sp % 1024 ≠ 0 then .error 2
  else match s.readPlaces v q (field p 312 256) (field p 92 80), (if n = 0 then some [] else s.frontTable v q (field p 376 320) n) with
    | some places, some gt =>
      match s.coreFor x.tag places 0 with
      | none => .error 4
      | some core =>
        if !fitsEmpty groups vregs sp then .error 5
        else
          let entry (e : Nat) : Nat × Nat := (field e 23 0, field e 26 24)
          if 256 < n || (gt.any fun e => field e 31 27 != 0 || decide (blocks ≤ field e 23 0)) ||
              (List.range n).any (fun i => (List.range i).any fun j => entry (gt.getD i 0) == entry (gt.getD j 0)) then .error 6
          else if p.testBit 128 || p.testBit 384 then .error 7
          else
            let pa := field p 504 448
            let r? : Except Bool Nat := if pa = 0 then .ok 0 else if pa % 512 ≠ 0 then .error false else (s.frontBytes v q pa 512).map bytesNat
            match r? with
            | .error _ => .error 8
            | .ok r =>
              if pa ≠ 0 && pipeBad r groups sp then .error 8
              else .ok ({ tag := x.tag, vf := v, q := q, kernel := BitVec.ofNat 64 (field p 184 128), args := BitVec.ofNat 64 (field p 248 192)
                          places := places, blocks := blocks, gx := gx, gy := gy, gz := gz, groups := groups, vregs := vregs, spbytes := sp
                          gtable := gt.map fun e => (field e 23 0, field e 26 24,
                            dedup (([0, 1, 2, 3].map fun i => field e (39 + 8 * i) (32 + 8 * i)).filter (· ≠ 255)))
                          fbthresh := field p 78 75, order := p.testBit 79, seq := BitVec.ofNat 64 (field p 440 384)
                          pipe := if pa = 0 then none else some (pipeOf r) }, core)
    | _, _ => .error 3

/-- R330: the packet a queue's thread would serve next. -/
def State.nextPacket (s : State) (v q : Nat) : Option Nat :=
  let k := (s.vf v).queue q
  if !k.mayRun || k.prod == k.cons || decide (2 ^ k.qsize < (k.prod - k.cons).toNat) then none
  else match k.packet with
    | some p => some p.toNat
    | none => match s.frontBytes v q (k.base.toNat + 64 * (k.cons.toNat % 2 ^ k.qsize)) 64 with
      | .ok bs => some (bytesNat bs)
      | .error _ => none
/-- The tables a LAUNCH packet names. -/
def launchTables (p : Nat) : List (Nat × Nat) :=
  [(field p 312 256, 8 * min 4096 (field p 92 80)), (field p 376 320, 8 * field p 123 115)] ++
    (if field p 504 448 = 0 then [] else [(field p 504 448, 512)])
/-- R333, R337: a queue admits a LAUNCH now. -/
def State.admits (s : State) (v q : Nat) : Bool :=
  let x := s.vf v
  match s.nextPacket v q with
  | none => false
  | some p => !packetBad p && field p 7 0 == 1 && !(x.queue q).gated && x.funded && !(s.part x.tag).reshaping &&
      (s.frontWaits v q (launchTables p)).isNone && (match s.checkLaunch v q p with | .ok _ => true | .error _ => false)
/-- R339: the place of a queue among those of its VF: the higher priority first, then the lower number. -/
def VF.rank (x : VF) (q : Nat) : Nat := (7 - (x.queue q).prio) * 8 + q
/-- R339: another queue of the VF that admits a LAUNCH too goes first. -/
def State.outranked (s : State) (v q : Nat) : Bool :=
  (s.vf v).queues.any fun k => decide ((s.vf v).rank k.1 < (s.vf v).rank q) && s.admits v k.1

/-- R333, R337, R339: the queue's LAUNCH packet: it waits for its budget (until a period boundary), for a reshape, for its tables and for a queue that goes first, is
rejected with its code, or creates its first block. Data: VF, queue. -/
def execLaunch (st : State) : Host.Outcome State Fault Refusal :=
  let v := st.arg 0
  let q := st.arg 1
  .next <| st.servePacket v q 1 fun s p =>
    let x := s.vf v
    if (x.queue q).gated then s
    else if !x.funded then s.updQueue v q fun k => { k with gated := true }
    else if (s.part x.tag).reshaping then s
    else match s.frontWaits v q (launchTables p), s.checkLaunch v q p with
      | some s, _ => s
      | none, .error c => s.complete v q c 1 0
      | none, .ok (l, core) =>
        if s.outranked v q then s
        else
          let id := s.nextId
          let s := { s with nextId := id + 1, launches := SMap.put s.launches id l }
          let s := s.updQueue v q fun k => { k with launch := id }
          s.acceptBlock { launch := id, groups := l.groups, vregs := l.vregs, spsize := l.spbytes, core := core, entry := l.kernel, args := l.args }

/-! ## Spawn records (07 R181) -/

/-- Table 06-5, R269: why a block of a record is not accepted, 0 for none. -/
def State.spawnCause (s : State) (l : Launch) (groups vregs x y z : Nat) : Nat :=
  if l.gx ≤ x || l.gy ≤ y || l.gz ≤ z then 1
  else match s.coreFor l.tag l.places (linearIndex l x y z) with
    | none => 2
    | some c =>
      if !fitsEmpty groups vregs l.spbytes then 3
      else if (match l.pipe with | some p => p.refuses groups | none => false) then 6
      else if 1024 ≤ (s.core c).pending.length then 5
      else 0
/-- Table 07-10. -/
def spawnStatus (accepted failed cause : Nat) (listerr : Bool) : W64 :=
  BitVec.ofNat 64 ((if failed = 0 then 1 else if accepted = 0 then 3 else 2) + cause % 64 * 4 + accepted % 2 ^ 24 * 2 ^ 8 +
    min failed 0xFFFFFF * 2 ^ 32 + listerr.toNat * 2 ^ 56)
/-- R181: write the failure list, as far as its capacity goes; an entry that cannot be written is skipped and reported; none while a line of it is
locked (R297). -/
def State.failList (s : State) (j : Job) (fs : List (Nat × Nat)) : Option (State × Bool) :=
  if j.opB = 0 then some (s, false)
  else
    let fs := fs.take j.opB1.toNat
    ((List.range fs.length).zip fs).foldl (fun (r? : Option (State × Bool)) x => r?.bind fun r =>
      let va := j.opB + BitVec.ofNat 64 (8 * x.1)
      match (if j.opB.toNat % 8 = 0 then r.1.enginePlace j.agent j.block j.smode .engineStore (plainVa va) else .error 0) with
      | .error _ => some (r.1, true)
      | .ok l =>
        let s := r.1.jobPackets j .store ((List.range 8).map fun i => (va + BitVec.ofNat 64 i, l.plus i))
        match r.1.engMayWrite j.agent [l] with
        | .error none => none
        | .error (some _) => some (s, true)
        | .ok _ => some (s.engWrite j.agent none (cellsFrom l (natBytes 8 (x.2.1 % 2 ^ 32 + x.2.2 * 2 ^ 32))), r.2)) (some (s, false))
/-- R148, R181: try the blocks of a record in ascending order: the accepted count and the failures. -/
def State.spawnBox (s : State) (j : Job) (r : Nat) : State × Nat × List (Nat × Nat) :=
  let l := s.launch j.launch
  let nx := field r 191 176 - field r 143 128 + 1
  let ny := field r 207 192 - field r 159 144 + 1
  let nz := field r 223 208 - field r 175 160 + 1
  let groups := field r 226 224 + 1
  let vregs := (field r 229 227 + 1) * 8
  let bad : Bool := field r 255 230 != 0 || r.testBit 0
  (List.range (nx * ny * nz)).foldl (fun a i =>
    let x := field r 143 128 + i % nx
    let y := field r 159 144 + i / nx % ny
    let z := field r 175 160 + i / (nx * ny)
    let c := if bad then 4 else a.1.spawnCause l groups vregs x y z
    if c ≠ 0 then (a.1, a.2.1, a.2.2 ++ [(i, c)])
    else
      let b := linearIndex l x y z
      (a.1.acceptBlock { launch := j.launch, b := b, bx := x, bY := y, bz := z, groups := groups, vregs := vregs, spsize := l.spbytes
                         core := (a.1.coreFor l.tag l.places b).getD 0, entry := BitVec.ofNat 64 (field r 63 0), args := BitVec.ofNat 64 (field r 127 64) },
        a.2.1 + 1, a.2.2)) (s, 0, [])

/-- R181: the front end takes a spawn record, accepts or fails each block, writes the list and then the status word. Data: job; bytes
of another device. -/
def execSpawnAccept (st : State) : Host.Outcome State Fault Refusal :=
  .next <| match st.job? (st.arg 0) with
    | none => st
    | some j =>
      if j.kind ≠ 8 || (st.part (st.launch j.launch).tag).reshaping || !st.asyncDone j.ctx j.after then st
      else
        let finish (s : State) (acc n : Nat) (fs : List (Nat × Nat)) : State := match (s.structPackets j j.opA 32 32).failList j fs with
          | none => st
          | some r => r.1.endJob j (spawnStatus acc n (match fs with | f :: _ => f.2 | [] => 0) r.2)
        match st.engStruct j j.opA 32 32 st.ev.bytes with
        | .error none => st
        | .error (some _) => finish st 0 1 [(0, 4)]
        | .ok r =>
          if field r 191 176 < field r 143 128 || field r 207 192 < field r 159 144 || field r 223 208 < field r 175 160 then finish st 0 1 [(0, 4)]
          else if 2 ^ 24 < (field r 191 176 - field r 143 128 + 1) * (field r 207 192 - field r 159 144 + 1) * (field r 223 208 - field r 175 160 + 1) then
            finish st 0 0xFFFFFF [(0, 4)]
          else
            let a := st.spawnBox j r
            finish a.1 a.2.1 a.2.2.length a.2.2

/-! ## Residency (06 R151, R152; 18 R340) -/

/-- The lowest start, in steps of `step`, of a free run of `n` below `limit`. -/
def firstFit (used : List (Nat × Nat)) (n step limit : Nat) : Option Nat :=
  ((List.range (limit / step + 1)).map (· * step)).find? fun a => a + n ≤ limit && used.all fun u => !rangesMeet u (a, n)
/-- Scratchpad runs in use on a core: allocations and flashback slots. -/
def State.spUsed (s : State) (core : Nat) : List (Nat × Nat) :=
  ((s.blocks.filter fun b => b.2.placed && b.2.core == core && b.2.spsize != 0).map fun b => (b.2.spbase, b.2.spsize)) ++
    ((s.allCtxs.filter fun c => c.isGroup && c.core == core).map fun c => (c.fbbase, 9216))
/-- Rows in use on a core. -/
def State.rowsUsed (s : State) (core : Nat) : List (Nat × Nat) :=
  (s.allCtxs.filter fun c => c.isGroup && c.core == core && c.resident).map fun c => (c.vbase, c.valloc)
def State.slotsUsed (s : State) (core : Nat) : List Nat := (s.allCtxs.filter fun c => c.isGroup && c.core == core && c.resident).map fun c => c.slot
/-- Place n runs of one size one after another, each at the lowest free start. -/
def placeRuns (size step limit : Nat) : Nat → List (Nat × Nat) → Option (List Nat)
  | 0, _ => some []
  | n + 1, used => match firstFit used size step limit with
    | none => none
    | some a => (placeRuns size step limit n (used ++ [(a, size)])).map (a :: ·)
/-- The lowest free group slots of a core. -/
def State.freeSlots (s : State) (core n : Nat) : List Nat := ((List.range 128).filter fun i => !(s.slotsUsed core).contains i).take n

/-- What residency gives a block: its allocation, slots of its groups, rows and resident slots. -/
structure Seat where
  spbase : Nat
  fbs : List Nat
  rows : List Nat
  slots : List Nat
/-- R151: a seat on a core for a block that holds none of its scratchpad yet. -/
def State.seatFresh (s : State) (core groups vregs sp : Nat) : Option Seat :=
  let used := s.spUsed core
  match (if sp = 0 then some 0 else firstFit used sp 1024 (2 ^ 21)) with
  | none => none
  | some a =>
    match placeRuns 9216 1024 (2 ^ 21) groups (if sp = 0 then used else used ++ [(a, sp)]), placeRuns vregs 8 4096 groups (s.rowsUsed core) with
    | some fbs, some rows =>
      let sl := s.freeSlots core groups
      if sl.length < groups then none else some ⟨a, fbs, rows, sl⟩
    | _, _ => none

/-- R144, R391: n bytes of a core's scratchpad become zero. -/
def State.zeroSp (s : State) (core base n : Nat) : State :=
  let lo := core * 2 ^ 21 + base
  { s with sp := Mem.clear s.sp lo n, poison := s.poison.filter fun p => p.2 != 1 || p.1 * 4 < lo || lo + n ≤ p.1 * 4 }
/-- Rows of a core become zero. -/
def State.zeroRows (s : State) (core base n : Nat) : State :=
  let lo := core * 4096 + base
  { s with vrf := s.vrf.filter fun r => r.1 < lo || lo + n ≤ r.1 }
/-- R229: the engine's tiles, planes and marks as a claim leaves them. -/
def State.zeroEngine (s : State) (core : Nat) : State :=
  { s with
    acc := s.acc.filter fun r => r.1 / 1024 ≠ core
    planes := s.planes.filter fun r => r.1 / 16384 ≠ core
    sums := s.sums.filter fun r => r.1 / 8 / 16384 ≠ core
    bexp := s.bexp.filter fun r => r.1 / 256 / 8 / 16 ≠ core
    poison := s.poison.filter fun p => !(p.2 == 3 && p.1 * 4 / 2 ^ 20 == core) && !(p.2 == 4 && p.1 * 4 / 2 ^ 22 == core) }
/-- R229, R264: a block claims the engine of its core and sequencer context 0 starts. -/
def State.claimEngine (s : State) (id : Nat) : State :=
  let b := s.block id
  let l := s.launch b.launch
  let s := (s.zeroEngine b.core).updCore b.core fun k => { k with engine := { holder := id } }
  let s := s.updBlock id fun b => { b with claim := true }
  let c : Ctx := { kind := .seq 0, id := s.nextId, launch := b.launch, block := id, core := b.core, pc := l.seq, sregs := SMap.set 0 [] 1 b.args, resident := true }
  { s with ctxs := s.ctxs ++ [c], nextId := s.nextId + 1 }.updLaunch b.launch fun l => { l with counter := l.counter + 1 }

/-- R270: the stage of each group of a block, in ascending `lg`. -/
def stagesOf (p : Pipe) (groups : Nat) : List Nat :=
  let n := p.stages.length
  let mins := (List.range n).flatMap fun t => List.replicate (p.stages.getD t {}).min t
  (iterate (fun _ (a : List Nat × Nat) =>
    if groups ≤ a.1.length then a
    else
      let t := a.2 % n
      ((if a.1.count t < (p.stages.getD t {}).max then a.1 ++ [t] else a.1), a.2 + 1)) (64 * n) 0 (mins, 0)).1
/-- R270: the queues of a pipeline block are written and bound. -/
def State.pipeQueues (s : State) (id : Nat) (p : Pipe) : State :=
  let b := s.block id
  let s := p.queues.foldl (fun s q => s.writeNum ⟨1, b.core * 2 ^ 21 + b.spbase + q.ctrl⟩ 16 (q.qbase + q.depth * 2 ^ 32 + q.esize * 2 ^ 48)) s
  s.updBlock id fun b => { b with handles := p.queues.foldl (fun m q => SMap.put m q.handle ⟨b.core, b.spbase + q.ctrl⟩) b.handles }

/-- R144, R152, R153: the groups of a block start in the defined state, each with its entry slot. -/
def State.startGroups (s : State) (id : Nat) (seat : Seat) : State :=
  let b := s.block id
  let l := s.launch b.launch
  let stages := match l.pipe with
    | some p => stagesOf p b.groups
    | none => []
  (List.range b.groups).foldl (fun s i =>
    let t := stages.getD i 0
    let pc := match l.pipe with
      | some p => (p.stages.getD t {}).entry
      | none => b.entry
    let s1 := match l.pipe with
      | some p => p.args
      | none => b.args
    let vb := seat.rows.getD i 0
    let c : Ctx := { kind := .group, id := s.nextId, launch := b.launch, block := id, lg := i, core := b.core, slot := seat.slots.getD i 0, vbase := vb
                     valloc := b.vregs, fbbase := seat.fbs.getD i 0, resident := true, pc := pc, em := allLanes
                     sregs := SMap.set 0 (SMap.set 0 [] 1 s1) 2 (BitVec.ofNat 64 t), txThresh := BitVec.ofNat 4 l.fbthresh, stage := t
                     yields := 255, age := (s.core b.core).cyc.toNat + 1, resOrder := s.nextId }
    let s := (s.zeroRows b.core vb b.vregs).zeroSp b.core c.fbbase 9216
    { s with ctxs := s.ctxs ++ [c], nextId := s.nextId + 1 }.onCtx c.id fun s => s.writeSlot {} 0 pc none 4096 1 s1 (BitVec.ofNat 64 t)) s

/-- R151: the block named becomes resident for the first time. -/
def State.enterBlock (s : State) (id : Nat) (seat : Seat) : State :=
  let b := s.block id
  let l := s.launch b.launch
  let s := s.serveDeliveries b.core
  let s := s.updCore b.core fun k => { k with pending := k.pending.filter (· ≠ id), l1 := [] }
  let s := s.updBlock id fun b => { b with st := .resident, placed := true, spbase := seat.spbase }
  let s := s.zeroSp b.core seat.spbase b.spsize
  let s := match l.pipe with
    | some p => s.pipeQueues id p
    | none => s
  let s := s.startGroups id seat
  if l.seq ≠ 0 then s.claimEngine id else s

/-- R340: the groups of a stopped block. -/
def State.groupsOf (s : State) (id : Nat) : List Ctx :=
  let l := s.allCtxs.filter fun c => c.isGroup && c.block == id
  (List.range 8).filterMap fun i => l.find? fun c => c.lg == i
/-- R152, R340: a stopped block becomes resident again where its scratchpad stands; rows and slots are placed anew. -/
def State.reenterBlock (s : State) (id : Nat) : Option State :=
  let b := s.block id
  let gs := s.groupsOf id
  let sl := s.freeSlots b.core gs.length
  match placeRuns b.vregs 8 4096 gs.length (s.rowsUsed b.core) with
  | none => none
  | some rows =>
    if sl.length < gs.length then none
    else
      let s := (List.range gs.length).zip gs |>.foldl (fun s x => s.updCtx x.2.id fun c =>
        { c with vbase := rows.getD x.1 0, slot := sl.getD x.1 0, resident := true, resOrder := s.nextId + x.1 }) s
      let s := { s with nextId := s.nextId + gs.length
                        mxops := s.mxops.map fun (o : MxOp) => if (s.allCtxs.any fun c => c.id == o.ctx && c.block == id) then { o with stopped := false } else o }
      let s := s.updBlock id fun b => { b with st := .resident }
      some (s.updCore b.core fun k => { k with l1 := [], engine := if k.engine.holder = id then { k.engine with held := false, stopped := false } else k.engine })

/-- R152: the contents of a run of scratchpad move to another place. -/
def State.moveSp (s : State) (fromCore fromBase toCore toBase n : Nat) : State :=
  let lo := fromCore * 2 ^ 21 + fromBase
  let cells := s.sp.filter fun c => lo ≤ c.1 && c.1 < lo + n
  let ps := s.poison.filter fun p => p.2 == 1 && lo ≤ p.1 * 4 && p.1 * 4 < lo + n
  let s := (s.zeroSp fromCore fromBase n).zeroSp toCore toBase n
  let dst (a : Nat) : Nat := a - lo + toCore * 2 ^ 21 + toBase
  { s with sp := cells.foldl (fun m c => Mem.setByte m (dst c.1) c.2) s.sp, poison := s.poison ++ ps.map fun p => (dst (p.1 * 4) / 4, 1) }
/-- R261: the contents of an engine move to another core. -/
def State.moveEngine (s : State) (a b : Nat) : State :=
  let re {α : Type} (unit : Nat) (m : SMap α) : SMap α :=
    (m.filter fun x => x.1 / unit == a).foldl (fun m x => SMap.put m (x.1 - a * unit + b * unit) x.2) (m.filter fun x => x.1 / unit != a && x.1 / unit != b)
  let e := (s.core a).engine
  let s := { s with
    acc := re 1024 s.acc, planes := re 16384 s.planes, sums := re (16384 * 8) s.sums, bexp := re (16 * 8 * 256) s.bexp
    poison := s.poison.map fun (p : Nat × Nat) =>
      if p.2 = 3 && p.1 * 4 / 2 ^ 20 = a then (p.1 - a * 2 ^ 18 + b * 2 ^ 18, 3) else if p.2 = 4 && p.1 * 4 / 2 ^ 22 = a then (p.1 - a * 2 ^ 20 + b * 2 ^ 20, 4) else p
    mxops := s.mxops.map fun (o : MxOp) => if o.core = a then { o with core := b } else o }
  (s.updCore b fun k => { k with engine := e }).updCore a fun k => { k with engine := {} }
/-- R152, R156, R386: a stopped block moves to another core with its allocation, its groups' slots, its contexts, its engine and its jobs,
when that core has room. -/
def State.moveBlock (s : State) (id core : Nat) : Option State :=
  let b := s.block id
  let gs := s.groupsOf id
  if b.claim && (s.core core).engine.holder ≠ 0 then none
  else
    let used := s.spUsed core
    match (if b.spsize = 0 then some 0 else firstFit used b.spsize 1024 (2 ^ 21)) with
    | none => none
    | some a =>
      match placeRuns 9216 1024 (2 ^ 21) gs.length (if b.spsize = 0 then used else used ++ [(a, b.spsize)]) with
      | none => none
      | some fbs =>
        let s := s.serveDeliveries b.core
        let s := s.moveSp b.core b.spbase core a b.spsize
        let s := (List.range gs.length).zip gs |>.foldl (fun s x => s.moveSp b.core x.2.fbbase core (fbs.getD x.1 0) 9216) s
        let s := (List.range gs.length).zip gs |>.foldl (fun s x => s.updCtx x.2.id fun c => { c with fbbase := fbs.getD x.1 0 }) s
        let s := s.updCtxs (fun c => c.block == id && c.kind != .none) fun c => { c with core := core }
        let s := if b.claim then s.moveEngine b.core core else s
        let page (p : Nat × Loc) : Nat × Loc := if p.1 / 2 = 2 ^ 60 then (p.1, ⟨1, core * 2 ^ 21 + a⟩) else p
        let s := { s with
          jobs := s.jobs.map fun (j : Job) => if j.block = id then
            { j with core := core, agent := { j.agent with core := if j.agent.unit = 2 then tileOfCore core else core }, pages := j.pages.map page
                     cells := j.cells.map fun (c : Nat × List (Loc × Byte)) => (c.1, c.2.map fun (x : Loc × Byte) =>
                       if x.1.tt = 1 && b.core * 2 ^ 21 + b.spbase ≤ x.1.addr && x.1.addr < b.core * 2 ^ 21 + b.spbase + b.spsize then
                         (⟨1, x.1.addr - (b.core * 2 ^ 21 + b.spbase) + core * 2 ^ 21 + a⟩, x.2) else x) } else j
          mxops := s.mxops.map fun (o : MxOp) => if (match s.ctx? o.ctx with | some c => c.block == id | none => false) then { o with pages := o.pages.map page } else o }
        let hop (h : QBind) : QBind := if h.core = b.core && b.spbase ≤ h.off && h.off < b.spbase + b.spsize then ⟨core, h.off - b.spbase + a⟩ else h
        let s := s.updBlock id fun b => { b with core := core, spbase := a }
        some { s with blocks := s.blocks.map fun (x : Nat × Block) => (x.1, { x.2 with handles := x.2.handles.map fun (h : Nat × QBind) => (h.1, hop h.2) }) }

/-- R338, R340: work of a block's VF may run. -/
def State.blockRuns (s : State) (id : Nat) : Bool :=
  let l := s.launch (s.block id).launch
  !(s.vf l.vf).stopped && !(s.part l.tag).reshaping
/-- R339, R340: the stopped block of a core that resumes next: its VF's launches in order of priority, then of queue. A block that cannot be placed
(R147) holds nothing back. -/
def State.nextStopped (s : State) (core : Nat) : Option Nat :=
  let bs := (s.blocks.filter fun b => b.2.st == .stopped && b.2.core == core && s.blockRuns b.1 &&
    (s.coreFor (s.launch b.2.launch).tag (s.launch b.2.launch).places b.2.b).isSome).map Prod.fst
  match bs with
  | [] => none
  | b0 :: _ =>
    let v := (s.launch (s.block b0).launch).vf
    let same := bs.filter fun b => (s.launch (s.block b).launch).vf == v
    let key (b : Nat) : Nat := (s.vf v).rank (s.launch (s.block b).launch).q
    same.find? fun b => same.all fun c => key b < key c || (key b == key c && b ≤ c)

/-- R151, R156, R229, R340: the block at the head of a core becomes resident when it fits and, for one that needs it, the engine is free
and awake. Data: core. -/
def execBlockResident (st : State) : Host.Outcome State Fault Refusal :=
  let core := st.arg 0
  .next <| if st.coreFailed core then st else match st.nextStopped core with
    | some id =>
      let b := st.block id
      let l := st.launch b.launch
      let s? : Option State := match st.coreFor l.tag l.places b.b with
        | some c => if c = b.core then some st else st.moveBlock id c
        | none => none
      (match s? with
        | some s => (s.reenterBlock id).getD st
        | none => st)
    | none =>
      match (st.core core).pending.find? st.blockRuns with
      | none => st
      | some id =>
        let b := st.block id
        let e := (st.core core).engine
        if (st.launch b.launch).seq ≠ 0 && (e.holder ≠ 0 || e.retained) then st
        else match st.seatFresh core b.groups b.vregs b.spsize with
          | none => st
          | some seat => st.enterBlock id seat

end Sys2Proof.Machine
end

