-- ==== Sys2Proof/Machine/Keccak.lean ====
section
/-!
DEFINITION. SHAKE256 (FIPS 202), which chapter 21 uses for digests, measurements and key identities (21 R373, R375, R382).
-/

namespace Sys2Proof.Machine

/-- Rotation offsets of lane x + 5 y. -/
def keccakRot : List Nat := [0, 1, 62, 28, 27, 36, 44, 6, 55, 20, 3, 10, 43, 25, 39, 41, 45, 15, 21, 8, 18, 2, 61, 56, 14]
/-- Round constants. -/
def keccakRc : List (BitVec 64) :=
  [0x0000000000000001, 0x0000000000008082, 0x800000000000808A, 0x8000000080008000, 0x000000000000808B, 0x0000000080000001,
   0x8000000080008081, 0x8000000000008009, 0x000000000000008A, 0x0000000000000088, 0x0000000080008009, 0x000000008000000A] ++
  [0x000000008000808B, 0x800000000000008B, 0x8000000000008089, 0x8000000000008003, 0x8000000000008002, 0x8000000000000080,
   0x000000000000800A, 0x800000008000000A, 0x8000000080008081, 0x8000000000008080, 0x0000000080000001, 0x8000000080008008]
def laneAt (a : List (BitVec 64)) (i : Nat) : BitVec 64 := a.getD i 0
/-- One round of the permutation. -/
def keccakRound (a : List (BitVec 64)) (rc : BitVec 64) : List (BitVec 64) :=
  let c := (List.range 5).map fun x => laneAt a x ^^^ laneAt a (x + 5) ^^^ laneAt a (x + 10) ^^^ laneAt a (x + 15) ^^^ laneAt a (x + 20)
  let d := (List.range 5).map fun x => laneAt c ((x + 4) % 5) ^^^ (laneAt c ((x + 1) % 5)).rotateLeft 1
  let t := (List.range 25).map fun i => (laneAt a i ^^^ laneAt d (i % 5)).rotateLeft (keccakRot.getD i 0)
  -- lane (x, y) moves to (y, 2x + 3y)
  let b := (List.range 25).map fun i =>
    let x := i % 5
    let y := i / 5
    laneAt t ((x + 3 * y) % 5 + 5 * x)
  let e := (List.range 25).map fun i => laneAt b i ^^^ (~~~(laneAt b ((i % 5 + 1) % 5 + 5 * (i / 5))) &&& laneAt b ((i % 5 + 2) % 5 + 5 * (i / 5)))
  match e with
  | h :: r => (h ^^^ rc) :: r
  | [] => []
def keccak (a : List (BitVec 64)) : List (BitVec 64) := keccakRc.foldl keccakRound a
/-- Mix a block of 136 bytes into the state. -/
def absorb (a : List (BitVec 64)) (blk : List Byte) : List (BitVec 64) :=
  keccak ((List.range 25).map fun i => if i < 17 then laneAt a i ^^^ BitVec.ofNat 64 (bytesNat ((blk.drop (8 * i)).take 8)) else laneAt a i)
/-- Absorb all of a padded message. -/
def absorbAll : Nat → List (BitVec 64) → List Byte → List (BitVec 64)
  | 0, a, _ => a
  | n + 1, a, m => if m.isEmpty then a else absorbAll n (absorb a (m.take 136)) (m.drop 136)
/-- The padding of SHAKE: 1111, then 10…01. -/
def shakePad (m : List Byte) : List Byte :=
  let r := 135 - m.length % 136
  if r = 0 then m ++ [0x9F] else m ++ 0x1F :: List.replicate (r - 1) 0 ++ [0x80]
/-- The first n bytes, at most 136, of SHAKE256 of a message. -/
def shake256 (m : List Byte) (n : Nat) : List Byte :=
  let p := shakePad m
  let a := absorbAll (p.length / 136 + 1) (List.replicate 25 0) p
  ((a.take 17).flatMap fun w => natBytes 8 w.toNat).take n

end Sys2Proof.Machine
end

