-- ==== Sys2Proof/Machine/Plate.lean ====
section
/-!
DEFINITION. The zenith tree (19 R359), plates and the ephemeris (21 R380–R384), granules as they are bound, released and scrubbed
(21 R391; 05 R122), tiles as they are bound and returned (19 R353), and the connection of tile sets (05 R110).
-/

namespace Sys2Proof.Machine

/-! ## The zenith tree (19 R359, Table 19-9) -/

def zenTemp (w : W64) : Int := (w.extractLsb' 0 16).toInt
def zenValid (w : W64) : Bool := w.getLsbD 31
/-- R359: the hottest unit of some tiles: temperature, tile, slot; ties by y, then x, then slot. -/
def State.hottest (s : State) (tiles : List Nat) : Option (Int × Nat × Nat) :=
  (sortNat tiles).foldl (fun best t => (s.tile t).temps.foldl (fun (best : Option (Int × Nat × Nat)) r => match best with
    | none => some (r.2.toInt, t, r.1)
    | some b => if b.1 < r.2.toInt then some (r.2.toInt, t, r.1) else best) best) none
/-- R359: a maximum after one more update; `ZVALID` is 0 while no reading exists. -/
def zenWord (old : W64) (m : Option (Int × Nat × Nat)) : W64 :=
  let seq := (old.toNat / 2 ^ 32 + 1) % 2 ^ 32 * 2 ^ 32
  match m with
  | none => if zenValid old then BitVec.ofNat 64 seq else old
  | some (v, t, slot) => BitVec.ofNat 64 ((v % 65536).toNat + tileX t * 2 ^ 16 + tileY t * 2 ^ 21 + slot * 2 ^ 26 + 2 ^ 31 + seq)
/-- R359: the maxima over a tile follow its readings: of its field, of its partition and of the device. -/
def State.rezen (s : State) (t tag : Nat) : State :=
  let f := fieldOfTile t
  let s := s.updFld f fun x => { x with zen := zenWord x.zen (s.hottest ((List.range 648).filter fun k => fieldOfTile k == f)) }
  let s := s.updPart tag fun p => { p with zen := zenWord p.zen (s.hottest p.tiles) }
  s.updModule fun m => { m with zenDev := zenWord m.zenDev (s.hottest (List.range 648)) }

/-! ## Tiles -/

/-- The neighbours of a tile in the order N, E, S, W. -/
def neighbours (t : Nat) : List Nat :=
  (if tileY t = 0 then [] else [t - 27]) ++ (if tileX t = 26 then [] else [t + 1]) ++ (if tileY t = 23 then [] else [t + 27]) ++
    (if tileX t = 0 then [] else [t - 1])
/-- R406: the breadth-first spanning tree of some tiles from a root, as (tile, parent) in the order reached. -/
def spanning (tiles : List Nat) (root : Nat) : List (Nat × Nat) :=
  iterate (fun i (l : List (Nat × Nat)) => match l[i]? with
    | none => l
    | some t => (neighbours t.1).foldl (fun l n => if tiles.contains n && !(l.any fun x => x.1 == n) then l ++ [(n, t.1)] else l) l)
    tiles.length 0 [(root, root)]
/-- R110: a set of tiles is connected. -/
def connected (tiles : List Nat) : Bool := match tiles with
  | [] => false
  | t :: _ => (spanning tiles t).length == tiles.length
/-- R353: the arrays of a tile are zeroed, and the counters of its cores (R348). -/
def State.zeroTile (s : State) (t : Nat) : State :=
  let lo := t * 16
  let inTile (c : Nat) : Bool := decide (lo ≤ c) && decide (c < lo + 16)
  let s := (coresOf t).foldl State.zeroEngine s
  let s := { s with
    sp := s.sp.filter fun c => !inTile (c.1 / 2 ^ 21)
    vrf := s.vrf.filter fun r => !inTile (r.1 / 4096)
    poison := s.poison.filter fun p => !(p.2 == 1 && inTile (p.1 * 4 / 2 ^ 21)) && !(p.2 == 2 && inTile (p.1 * 4 / 2 ^ 22)) }
  (coresOf t).foldl (fun s c => s.updCore c fun k => { lost := k.lost, pos := k.pos }) s
/-- R353: bind a tile to a partition; its arrays are zeroed first. -/
def State.bindTile (s : State) (tag t : Nat) : State := (s.zeroTile t).updTile t fun x => { x with owner := tag, gated := false }
/-- R353: return a tile to the pool, zeroed and gated; its sensors are read no more (R359). -/
def State.freeTile (s : State) (t : Nat) : State :=
  let lost := (coresOf t).any fun c => (s.core c).lost
  let seen : Bool := !(s.tile t).temps.isEmpty
  let tag := (s.tile t).owner
  let s := (s.zeroTile t).updTile t fun x => { x with owner := 0, gated := true, degraded := x.degraded || lost, qz := [], counts := [], temps := [] }
  if seen then s.rezen t tag else s

/-! ## Granules -/

/-- Every device granule: site × 32,768 + granule. -/
def granuleCount : Nat := 48 * 32768
/-- A granule that no partition and no region holds. -/
def State.granFree (s : State) (g : Nat) : Bool := decide (g < granuleCount) && (s.gran g).owner == 0 && !(s.gran g).shr && decide ((s.gran g).region = 0)
/-- n free granules: those named that are free, then the lowest. None when there are too few. -/
def State.takeGranules (s : State) (named : List Nat) (n : Nat) : Option (List Nat) :=
  let first := ((dedup named).filter s.granFree).take n
  let used := s.grans.filter fun g => !s.granFree g.1
  if granuleCount < used.length + n then none
  else
    let rest := ((List.range (n + used.length + first.length)).filter fun g => s.granFree g && !first.contains g).take (n - first.length)
    some (first ++ rest)
/-- R122: back partition granules from `at_` on with some device granules. -/
def State.backGranules (s : State) (tag at_ : Nat) (gs : List Nat) : State :=
  let s := gs.foldl (fun s g => s.setGran g { s.gran g with owner := tag }) s
  s.updPart tag fun p => { p with grans := (List.range gs.length).zip gs |>.foldl (fun m x =>
    SMap.put m (at_ + x.1) { site := x.2 / 32768, dgran := x.2 % 32768 }) p.grans }
/-- R391: a released granule has owner 0 at once and joins the scrub queue. -/
def State.releaseGranule (s : State) (g : Nat) : State :=
  { s.setGran g { owner := 0, zp := true, unscrubbed := BitVec.allOnes 16384, demanded := s.nextId } with nextId := s.nextId + 1 }
/-- The device granule of an entry. -/
def GranEntry.dev (e : GranEntry) : Nat := e.site * 32768 + e.dgran

/-! ## Plates (R380–R382) -/

/-- R382: a key identity; an unloaded slot's is zero. -/
def keyIdentity (kind : Nat) (key : Option (BitVec 256)) : List Byte := match key with
  | none => List.replicate 16 0
  | some k => shake256 (BitVec.ofNat 8 (kind + 1) :: natBytes 32 k.toNat) 16
/-- R381: a tile entry. -/
def State.tileEntry (s : State) (p : Part) (t : Nat) : List Byte :=
  let slots := packNat 1 (fun i => if p.absent.contains (t * 16 + i) then 0 else 1) 16
  natBytes 8 (tileX t + tileY t * 2 ^ 5 + slots * 2 ^ 10 + (s.tile t).spare0 % 4 * 2 ^ 26 + (s.tile t).spare1 % 4 * 2 ^ 28)
/-- R381: the granule runs of a partition: first partition granule, count, entry, ZP. -/
def State.granRuns (s : State) (p : Part) : List (Nat × Nat × GranEntry × Bool) :=
  (p.grans.foldl (fun (l : List (Nat × Nat × GranEntry × Bool)) g =>
    let zp := (s.gran g.2.dev).zp
    match l with
    | (f, n, e, z) :: t =>
      if g.1 = f + n && g.2.site = e.site && g.2.dgran = e.dgran + n && g.2.shr = e.shr && zp = z then (f, n + 1, e, z) :: t
      else (g.1, 1, g.2, zp) :: l
    | [] => [(g.1, 1, g.2, zp)]) []).reverse
def runEntry (r : Nat × Nat × GranEntry × Bool) : List Byte :=
  natBytes 16 (r.1 % 2 ^ 24 + r.2.1 % 2 ^ 24 * 2 ^ 24 + r.2.2.1.site * 2 ^ 48 + r.2.2.1.dgran * 2 ^ 54 + r.2.2.1.shr.toNat * 2 ^ 69 + r.2.2.2.toNat * 2 ^ 70)
/-- R376, R103, R109: what the cells of a line hold: its bytes under the key of the partition or region that owns the granule; `State.hbm` holds the
bytes themselves (assumption 69). -/
def State.cellLine (s : State) (line : Nat) : Option (List Byte) :=
  let g := s.gran (granOf (line * 128))
  let key : Option (BitVec 256) := if g.shr then (SMap.find s.regions g.region).map fun r => r.key else (SMap.find s.parts g.owner).map fun p => p.memKey
  key.map fun k => natsBytes (xtsSeal (byteNats (natBytes 32 k.toNat)) (byteNats (natBytes 32 (Config.tweakKey k).toNat)) (line * 128)
    (byteNats (s.readBytes ⟨0, line * 128⟩ 128)))
/-- R381: a key entry. -/
def keyEntry (kind slot : Nat) (key : Option (BitVec 256)) : List Byte :=
  natBytes 8 (kind + slot * 4 + key.isSome.toNat * 2 ^ 8) ++ keyIdentity kind key ++ List.replicate 8 0
/-- The key entries in the order memory key, shared-region key, copy slots. -/
def State.keyEntries (s : State) (p : Part) : List Byte :=
  keyEntry 0 0 (some p.memKey) ++ keyEntry 1 0 ((SMap.find s.regions p.region).map fun r => r.key) ++
    (List.range 16).flatMap fun i => keyEntry 2 i ((SMap.find p.keys i).map fun k => k.key)
/-- R380: the attestation key's signature of 3,309 bytes: a free value. -/
def State.signature (s : State) : List Byte := (List.range 3309).map fun i => (Config.freeWord (Nat.pair s.oracle (Nat.pair i 380))).extractLsb' 0 8
/-- R380, R381: the plate of a partition. -/
def State.plateOf (s : State) (tag : Nat) : List Byte :=
  let p := s.part tag
  let runs := s.granRuns p
  let body := (p.tiles.flatMap (s.tileEntry p)) ++ runs.flatMap runEntry ++ s.keyEntries p
  let head := natBytes 64 (0x1B648 + tag * 2 ^ 32 + p.tiles.length * 2 ^ 40 + 18 * 2 ^ 56 + p.pgen.toNat * 2 ^ 64 + runs.length * 2 ^ 128 +
    (64 + body.length) * 2 ^ 160)
  head ++ body ++ s.signature
/-- R380: write a new plate with the next generation. -/
def State.newPlate (s : State) (tag : Nat) : State :=
  let s := s.updPart tag fun p => { p with pgen := p.pgen + 1 }
  { s.updPart tag fun p => { p with plate := s.plateOf tag } with oracle := s.oracle + 1 }

/-! ## The ephemeris (R383, R384) -/

/-- Table 21-7, R384: the region's contents, with the gaps of 8 bytes that the dome controller leaves before its parts (assumption 18). -/
def State.ephBytes (s : State) (tag : Nat) (flag : Bool) (gaps : List Nat) : List Byte :=
  let p := s.part tag
  let runs := s.granRuns p
  let vfs := (s.vfs.filter fun v => v.2.tag == tag).map Prod.fst
  let gap (i : Nat) : List Byte := List.replicate (8 * gaps.getD i 0) 0
  let b0 := gap 0 ++ p.tiles.flatMap (s.tileEntry p)
  let b1 := gap 1 ++ runs.flatMap runEntry
  let b2 := gap 2 ++ vfs.flatMap (natBytes 2)
  let b3 := gap 3 ++ p.plate
  let goff := 64 + b0.length
  let voff := goff + b1.length
  let poff := voff + b2.length
  let head := natBytes 64 (p.gen.toNat + tag * 2 ^ 64 + flag.toNat * 2 ^ 71 + p.tiles.length * 2 ^ 72 + runs.length % 2 ^ 24 * 2 ^ 88 + vfs.length * 2 ^ 112 +
    p.pgen.toNat * 2 ^ 128 + (64 + (gap 0).length) * 2 ^ 192 + (goff + (gap 1).length) * 2 ^ 224 + (voff + (gap 2).length) * 2 ^ 256 +
    (poff + (gap 3).length) * 2 ^ 288 + p.plate.length * 2 ^ 320)
  head ++ b0 ++ b1 ++ b2 ++ b3
/-- A line of the region is written whole: zero, and scrubbed. -/
def State.zeroLine (s : State) (key : Nat) : State :=
  let s := s.scrubLine key
  { s with hbm := Mem.clear s.hbm key 128 }
/-- R384: the end of a publication: the region is rewritten whole and `GEN` becomes even. -/
def State.publishEnd (s : State) (tag : Nat) (flag : Bool) (gaps : List Nat) : State :=
  let s := s.updPart tag fun p => { p with gen := p.gen + 1, pub := none }
  let p := s.part tag
  let fits := if (s.ephBytes tag flag gaps).length ≤ p.ephSize.toNat then gaps else []
  let bs := s.ephBytes tag flag fits
  let s := s.updPart tag fun p => { p with ephHead := bs.take 64 }
  let base := p.ephBase.toNat
  let pages := p.ephSize.toNat / 65536
  -- every line of the region is written whole
  let s := (List.range pages).foldl (fun s i => match p.place (base + i * 65536) with
    | none => s
    | some l => (List.range 512).foldl (fun s n => s.zeroLine (l.addr + 128 * n)) s) s
  (List.range bs.length).zip bs |>.foldl (fun s x => match p.place (base + x.1) with
    | none => s
    | some l => s.writeByte l x.2) s
/-- R384: the start of a publication: `GEN` becomes odd at its place. -/
def State.publishStart (s : State) (tag : Nat) (flag : Bool) : State :=
  let s := s.updPart tag fun p => { p with gen := p.gen + 1, pub := some flag }
  match (s.part tag).place (s.part tag).ephBase.toNat with
  | some l => s.writeNum l 8 (s.part tag).gen.toNat
  | none => s
/-- R384: publish; a publication that runs ends first. It ends with a RESHAPE_STEP of the partition. -/
def State.publish (s : State) (tag : Nat) (flag : Bool) : State :=
  (match (s.part tag).pub with | some f => s.publishEnd tag f [] | none => s).publishStart tag flag

end Sys2Proof.Machine
end

