-- ==== Sys2Proof/Machine/EvColl.lean ====
section
/-!
DEFINITION. Events of collectives (07 R182, R183; 22 R406). An event whose condition does not hold changes nothing (assumption 2).
-/

namespace Sys2Proof.Machine

/-! ## Cards (Table 07-11) -/

def cardOp (x : Nat) : Nat := field x 3 0
def cardType (x : Nat) : Nat := field x 5 4
def cardRop (x : Nat) : Nat := field x 7 6
def cardCon (x : Nat) : Nat := field x 15 8
def cardCid (x : Nat) : Nat := field x 63 32
def cardLen (x : Nat) : Nat := field x 220 192
def cardRoot (x : Nat) : Nat := field x 255 224
def cardSrc (x : Nat) : W64 := BitVec.ofNat 64 (field x 127 64)
def cardDst (x : Nat) : W64 := BitVec.ofNat 64 (field x 191 128)
def cardFlags (x : Nat) : W64 := BitVec.ofNat 64 (field x 319 256)
/-- R182: a card that is not valid in a constellation of size g. -/
def cardBad (x g : Nat) : Bool :=
  field x 31 16 != 0 || field x 223 221 != 0 || field x 511 384 != 0 || decide (3 < cardOp x) || cardRop x == 3 || cardLen x == 0 ||
    cardLen x % (4 * g) != 0 || (cardOp x == 3 && decide (g ≤ cardRoot x)) || field x 127 64 % 4 != 0 || field x 191 128 % 4 != 0
/-- R182: cards that agree. -/
def cardsAgree (x y : Nat) : Bool :=
  cardOp x == cardOp y && cardType x == cardType y && cardRop x == cardRop y && cardLen x == cardLen y && cardRoot x == cardRoot y

/-- R182: the rank of a job's issuer; a sequencer acts for the member of its block with the lowest `lg`. -/
def State.rankOf (s : State) (j : Job) : Option Nat :=
  let ms := (s.launch j.launch).members (cardCon j.card.toNat)
  let b := (s.block j.block).b
  match s.ctx? j.ctx with
  | none => none
  | some c =>
    let lg? : Option Nat := if c.isSeq then ((ms.filter fun m => m.1 == b).map Prod.snd).min? else some c.lg
    match lg? with
    | some lg => if ms.contains (b, lg) then some (ms.idxOf (b, lg)) else none
    | none => none

/-! ## Memory -/

/-- The first address of each page of a run. -/
def pageStarts (va : W64) (n : Nat) : List W64 :=
  if isLocal va then [va]
  else
    let off := va.toNat % 65536
    (List.range ((off + n + 65535) / 65536)).map fun i => if i = 0 then va else va + BitVec.ofNat 64 (i * 65536 - off)
/-- R80, R160: the pages of some runs (direction, address, bytes) that a member's job has no extent for yet are translated and kept; one that fails
stays absent. -/
def State.collExtents (s : State) (j : Job) (runs : List (Bool × W64 × Nat)) : State :=
  s.updJob j.id fun k => (runs.flatMap fun r => (pageStarts r.2.1 r.2.2).map fun a => (r.1, a)).foldl (fun k x =>
    let key := extentKey x.1 x.2
    if (SMap.find k.pages key).isSome then k
    else match s.extentAt k x.1 x.2 with
      | .ok l => { k with pages := SMap.put k.pages key l, extents := SMap.put k.extents key (k.extents.length % 8) }
      | .error _ => k) k
/-- R160: the places of a run of bytes of a job, or the cause that refuses it. -/
def State.runPlaces (s : State) (j : Job) (w : Bool) (va : W64) (n : Nat) : Except Nat (List Loc) :=
  if isLocal va && (s.block j.block).spsize < localOff va + n then .error cSprange
  else
    let pages : Except Nat (SMap Loc) := (pageStarts va n).foldl (fun m a => match m with
      | .error c => .error c
      | .ok m => if (SMap.find m (extentKey w a)).isSome then .ok m else match s.extentAt j w a with
        | .error c => .error c
        | .ok l => .ok (SMap.put m (extentKey w a) l)) (.ok j.pages)
    match pages with
    | .error c => .error c
    | .ok m => .ok ((List.range n).filterMap fun i => ({ j with pages := m } : Job).at_ w (va + BitVec.ofNat 64 i))
/-- A member's source bytes: none for a wait, else the bytes or a cause. -/
def State.collRead (s : State) (j : Job) (va : W64) (n : Nat) (remote : List Byte) : Option (Except Nat (List Byte)) :=
  match s.runPlaces j false va n with
  | .error c => some (.error c)
  | .ok ls => match s.engBytes j.agent ls remote with
    | .error none => none
    | .error (some c) => some (.error c)
    | .ok bs => some (.ok bs)
/-- The packets of a member's run (R131, R132). -/
def State.runPackets (s : State) (j : Job) (x : Cross) (va : W64) (n : Nat) : State :=
  match s.runPlaces j (x != .read) va n with
  | .error _ => s
  | .ok ls => s.jobPackets j x ((List.range n).zip ls |>.map fun p => (va + BitVec.ofNat 64 p.1, p.2))
/-- Flags and `PROGRESS` are written where they can be; a locked line, or a link without room, waits (R297). -/
def State.collMark (s : State) (j : Job) (va : W64) (bs : List Byte) : Option State :=
  match s.runPlaces j true va bs.length with
  | .error _ => some s
  | .ok ls => match s.engMayWrite j.agent ls with
    | .error none => none
    | .error (some _) => some (s.runPackets j .chunk va bs.length)
    | .ok _ => some ((s.runPackets j .chunk va bs.length).engWrite j.agent none (ls.zip bs))
/-- R182: a card ends with LAYOUT and all its flags are set to 2. -/
def State.collRefuse (s : State) (j : Job) : Option State :=
  (s.collMark j (cardFlags j.card.toNat) (List.replicate j.nchunks 2)).map fun s => s.endJob j (statusNone cLayout)

/-! ## The tree (R406) -/

/-- Combine two vectors of elements. -/
def combineAll (ty op : Nat) (a b : List Nat) : List Nat := (a.zip b).map fun x => combine ty op x.1 x.2
def combineOpt (ty op : Nat) : Option (List Nat) → Option (List Nat) → Option (List Nat)
  | some a, some b => some (combineAll ty op a b)
  | none, b => b
  | a, none => a
/-- R406: what a tile sends up: its members by ascending rank, then its children by ascending ordinal. -/
def treeValue (ty op : Nat) (order : List Nat) (tree : List (Nat × Nat)) (vals : List (Nat × List Nat)) : Nat → Nat → Option (List Nat)
  | 0, _ => none
  | fuel + 1, t =>
    let own := (vals.filter fun v => v.1 == t).foldl (fun p v => combineOpt ty op p (some v.2)) none
    let kids := order.filter fun c => tree.any fun x => x.1 == c && x.2 == t && c != t
    kids.foldl (fun p c => combineOpt ty op p (treeValue ty op order tree vals fuel c)) own
/-- R406: the reduction of every rank's elements. -/
def State.treeReduce (s : State) (tag ty op : Nat) (vals : List (Nat × List Nat)) : List Nat :=
  let p := s.part tag
  match vals with
  | [] => []
  | r :: _ => ((treeValue ty op p.tiles (spanning p.tiles r.1) vals (p.tiles.length + 1) r.1).getD [])
/-- The elements of some bytes, and back. -/
def elemsOf (w : Nat) (bs : List Byte) : List Nat := (List.range (bs.length / w)).map fun i => bytesNat ((bs.drop (w * i)).take w)

/-! ## Starting -/

def State.updColl (s : State) (c : Coll) (f : Coll → Coll) : State :=
  { s with colls := updWhere (fun x => x.launch == c.launch && x.con == c.con && x.cid == c.cid) f s.colls }
def State.dropColl (s : State) (c : Coll) : State :=
  { s with colls := s.colls.filter fun x => !(x.launch == c.launch && x.con == c.con && x.cid == c.cid) }
def State.coll? (s : State) (l con cid : Nat) : Option Coll := s.colls.find? fun x => x.launch == l && x.con == con && x.cid == cid
/-- The members' jobs by rank. -/
def State.collJobs (s : State) (c : Coll) : List Job := c.jobs.filterMap fun x => s.job? x.2
/-- R182: a card reaches its collective. -/
def State.joinColl (s0 : State) (j : Job) : State :=
  match s0.rankOf j with
  | none => s0.endJob j (statusNone cLayout)
  | some r =>
    let x := j.card.toNat
    let s := s0.updJob j.id fun j => { j with started := true }
    match s.coll? j.launch (cardCon x) (cardCid x) with
    | none => { s with colls := s.colls ++ [{ launch := j.launch, con := cardCon x, cid := cardCid x
                                              size := (s.launch j.launch).conSize (cardCon x), jobs := [(r, j.id)] }] }
    | some c => if (SMap.find c.jobs r).isSome then (s.collRefuse j).getD s0 else s.updColl c fun c => { c with jobs := SMap.put c.jobs r j.id }
/-- What output chunk k of rank r is made of: runs (rank, offset in that rank's `SRC`, bytes); for a reduction every rank gives the run. -/
def chunkParts (x g r k : Nat) : List (Nat × Nat × Nat) :=
  let part := cardLen x / g
  let n := min 65536 (cardOut x g - k * 65536)
  match cardOp x with
  | 0 => (List.range g).map fun q => (q, k * 65536, n)
  | 1 => (List.range g).map fun q => (q, r * part + k * 65536, n)
  | 2 => (List.range g).filterMap fun q =>
      let lo := max (k * 65536) (q * part)
      let hi := min (k * 65536 + n) ((q + 1) * part)
      if lo < hi then some (q, lo - q * part, hi - lo) else none
  | _ => [(cardRoot x, k * 65536, n)]
/-- The runs of every source that chunk k reads, each once. -/
def chunkReads (x g k : Nat) : List (Nat × Nat × Nat) :=
  ((List.range g).flatMap fun r => chunkParts x g r k).foldl (fun l p => if l.contains p then l else l ++ [p]) []
/-- R80, R160: the extents of chunk k at every member: its sources, its output, its flag and `PROGRESS`. -/
def State.chunkExtents (s : State) (js : List Job) (g k : Nat) : State :=
  (List.range js.length).zip js |>.foldl (fun s j =>
    let x := j.2.card.toNat
    let reads := (chunkReads x g k).filterMap fun p => if p.1 = j.1 then some (false, cardSrc x + BitVec.ofNat 64 p.2.1, p.2.2) else none
    s.collExtents j.2 (reads ++ [(true, cardDst x + BitVec.ofNat 64 (k * 65536), min 65536 (cardOut x g - k * 65536)),
      (true, cardFlags x + BitVec.ofNat 64 k, 1), (true, j.2.opA + 40, 8)])) s
/-- R182, R206: a collective with a card for every rank starts, or ends every card with LAYOUT. -/
def State.startColl (s : State) (c : Coll) : State :=
  let js := s.collJobs c
  if c.started || c.jobs.length ≠ c.size || js.length ≠ c.size then s
  else match js with
    | [] => s
    | h :: _ =>
      if js.any fun j => cardBad j.card.toNat c.size || !cardsAgree h.card.toNat j.card.toNat then
        ((js.foldl (fun (t : Option State) j => t.bind fun t => t.collRefuse j) (some s)).map fun t => t.dropColl c).getD s
      else if js.any fun j => s.overlapped j 0 j.nchunks then s
      else (s.chunkExtents js c.size 0).updColl c fun c => { c with started := true }

/-- R183: the stores that zero a card's flags have been performed. -/
def State.needed (s : State) (j : Job) : Bool := s.packets.any fun p => p.src.ctx == j.ctx && p.src.unit == 0 && decide (j.need.1 ≤ p.id) && decide (p.id < j.need.2)
/-- R182: a card reaches its collective, which starts once a card has been submitted for every rank. Data: job. -/
def execCollectiveStart (st : State) : Host.Outcome State Fault Refusal :=
  .next <| match st.job? (st.arg 0) with
    | none => st
    | some j =>
      if j.kind ≠ 9 || j.ended || j.suspended || !st.asyncDone j.ctx j.after || st.needed j then st
      else
        let s := if j.started then st else st.joinColl j
        match s.coll? j.launch (cardCon j.card.toNat) (cardCid j.card.toNat) with
        | none => s
        | some c => s.startColl c

/-! ## Chunks -/

/-- The bytes of some runs, by rank: none for a wait, else all of them or the cause of the lowest rank that fails. -/
def State.gather (s : State) (js : List Job) : List (Nat × Nat × Nat) → List Byte → Option (Except Nat (List (Nat × List Byte)))
  | [], _ => some (.ok [])
  | (q, off, n) :: t, remote =>
    match js[q]? with
    | none => some (.error cUnmapped)
    | some j => match s.collRead j (cardSrc j.card.toNat + BitVec.ofNat 64 off) n remote with
      | none => none
      | some (.error c) => (State.gather s js t remote).map fun _ => .error c
      | some (.ok bs) => (State.gather s js t (remote.drop n)).map fun r => match r with
        | .error c => .error c
        | .ok l => .ok ((q, bs) :: l)
/-- The bytes of one member's chunk. -/
def State.chunkValue (s : State) (c : Coll) (js : List Job) (r k : Nat) (remote : List Byte) : Option (Except Nat (List Byte)) :=
  let x := (js.headD { id := 0, ctx := 0, launch := 0, block := 0, core := 0, agent := {}, smode := false, kind := 9, sd := 0 }).card.toNat
  (s.gather js (chunkParts x c.size r k) remote).map fun v => match v with
    | .error e => .error e
    | .ok parts =>
      if 2 ≤ cardOp x then .ok (parts.flatMap Prod.snd)
      else
        let w := if cardType x = 1 then 2 else 4
        let vals := parts.map fun p => (tileOfCore (((js[p.1]?).map fun j => j.core).getD 0), elemsOf w p.2)
        .ok ((s.treeReduce (s.launch c.launch).tag (cardType x) (cardRop x) vals).flatMap (natBytes w))
/-- R183: one member's chunk is done: its flag, its status and `PROGRESS`; none while a line they lie in is locked. -/
def State.memberChunk (s : State) (id k n : Nat) (cause : Option Nat) : Option State :=
  match s.job? id with
  | none => some s
  | some j =>
    let failed := j.failed.filter fun f => f.1 != k
    let done := j.applied.length + failed.length + 1
    let x := j.card.toNat
    match s.collMark j (cardFlags x + BitVec.ofNat 64 k) [if cause.isSome then 2 else 1] with
    | none => none
    | some t => (t.collMark j (j.opA + 40) (natBytes 8 done)).map fun s =>
      s.updJob id fun j => match cause with
        | none => { j with applied := j.applied ++ [k], bytes := j.bytes + n, next := done, cells := SMap.del j.cells k }
        | some c => { j with failed := failed ++ [(k, c, 0)], next := done, cells := SMap.del j.cells k }
/-- R162, R183: a chunk that is not yet done and is among the eight that may be under way. -/
def Job.mayFinish (j : Job) (k : Nat) : Bool :=
  let done (i : Nat) : Bool := j.applied.contains i || j.failed.any fun f => f.1 == i
  decide (k < j.nchunks) && !done k && decide (((List.range k).filter fun i => !done i).length < 8)
/-- R183, R406: every source of chunk k is read, and each member's bytes are held, or its chunk fails; none while something has to wait. -/
def State.chunkBegin (s : State) (c : Coll) (k : Nat) (remote : List Byte) : Option State :=
  let s := s.chunkExtents (s.collJobs c) c.size k
  let js := s.collJobs c
  let vals := (List.range js.length).map fun r => s.chunkValue c js r k remote
  if vals.any Option.isNone then none
  else
    let x := (js.head?.map fun j => j.card.toNat).getD 0
    let s := (chunkReads x c.size k).foldl (fun s p => match js[p.1]? with
      | some j => s.runPackets j .read (cardSrc j.card.toNat + BitVec.ofNat 64 p.2.1) p.2.2
      | none => s) s
    (js.zip vals).foldl (fun (s? : Option State) v => s?.bind fun s => match v.2 with
      | none => none
      | some (.error e) => s.memberChunk v.1.id k 0 (some e)
      | some (.ok bs) =>
        let va := cardDst v.1.card.toNat + BitVec.ofNat 64 (k * 65536)
        match s.runPlaces v.1 true va bs.length with
        | .error e => s.memberChunk v.1.id k 0 (some e)
        | .ok ls => match s.engMayWrite v.1.agent ls with
          | .error none => none
          | .error (some e) => (s.runPackets v.1 .chunk va bs.length).memberChunk v.1.id k 0 (some e)
          | .ok _ => some (((s.runPackets v.1 .chunk va bs.length).sendLines v.1.agent (some (v.1.id, k)) true (ls.zip bs)).updJob v.1.id fun j =>
              { j with cells := SMap.put j.cells k (ls.zip bs) })) (some s)
/-- R183, R207: a member's held bytes of chunk k: the words chosen are written; after the last one the chunk is done there. -/
def State.chunkGoesOn (s : State) (id k : Nat) (ns : List Nat) : State :=
  let finish (s : State) : State := match s.job? id with
    | none => s
    | some j => if s.chunkAsked id k || SMap.find j.cells k != some [] then s
      else match j.failed.find? fun f => f.1 == k with
        | some f => (s.memberChunk id k 0 (some f.2.1)).getD s
        | none => (s.memberChunk id k (min 65536 (cardOut j.card.toNat (s.launch j.launch |>.conSize (cardCon j.card.toNat)) - k * 65536)) none).getD s
  match s.job? id with
  | none => s
  | some j => match SMap.find j.cells k with
    | none => s
    | some [] => finish s
    | some _ =>
      if s.chunkAsked id k then s
      else match j.failed.find? fun f => f.1 == k with
        | some f => (s.memberChunk id k 0 (some f.2.1)).getD s
        | none => match s.writeCells j k ns with
          | none => s
          | some t => finish t

/-- R183, R206, R207, R406: an output chunk begins, once every source of it is read, and is written at every member, word by word; a member's flag
follows its last word. Data: launch, `CON`, `CID`, chunk, then the numbers of the words written now, none for all; bytes of another device. -/
def execCollectiveChunkComplete (st : State) : Host.Outcome State Fault Refusal :=
  let k := st.arg 3
  .next <| match st.coll? (st.arg 0) (st.arg 1) (st.arg 2) with
    | none => st
    | some c =>
      let js := st.collJobs c
      let under : Bool := js.any fun j => (SMap.find j.cells k).isSome
      if !c.started || (!under && js.any fun j => j.suspended || !j.mayFinish k) then st
      else match (if under then some st else st.chunkBegin c k st.ev.bytes) with
        | none => st
        | some s =>
          let s := js.foldl (fun s j => s.chunkGoesOn j.id k (st.ev.args.drop 4)) s
          let js := s.collJobs c
          let s := if js.any fun j => (SMap.find j.cells k).isSome then s else s.updColl c fun c => { c with next := max c.next (k + 1) }
          if js.all fun j => j.applied.length + j.failed.length == j.nchunks && j.cells.isEmpty then
            (js.foldl (fun s j => s.endJob j (copyStatus j.nchunks j.applied j.failed j.bytes 0)) s).dropColl c
          else s

end Sys2Proof.Machine
end

