-- ==== Sys2Proof/Machine/EvMatrix.lean ====
section
/-!
DEFINITION. Events of the matrix engine (11 R235–R248; 13 R257–R266). An event whose condition does not hold changes nothing (assumption 2).
-/

namespace Sys2Proof.Machine

def cMxsum : Nat := 12
def cQueue : Nat := 13

def State.mxop? (s : State) (id : Nat) : Option MxOp := s.mxops.find? fun o => o.id == id
def State.updMx (s : State) (id : Nat) (f : MxOp → MxOp) : State := { s with mxops := updWhere (fun o => o.id == id) f s.mxops }

/-! ## Fields (Tables 11-5 to 11-7) and names (R234) -/

/-- K-groups of the operation's context. -/
def MxOp.groups (o : MxOp) : Nat := if o.split then 4 else 8
/-- The physical number of a named K-group and of a named tile. -/
def MxOp.kg (o : MxOp) (g : Nat) : Nat := if o.split then g + 4 * o.half else g
def MxOp.tileNo (o : MxOp) (t : Nat) : Nat := if o.split then t + 2 * o.half else t
def MxOp.tilesNamed (o : MxOp) : Nat := if o.split then 2 else 4
def MxOp.ctl (o : MxOp) : Nat := o.opB.toNat
def MxOp.plane (o : MxOp) : Nat := field (if o.kind = 3 then o.opA.toNat else o.ctl) 3 0
def MxOp.kb (o : MxOp) : Nat := if o.kind = 0 then field o.ctl 10 8 else field o.ctl 8 6
def MxOp.kg0 (o : MxOp) : Nat := if o.kind = 0 then field o.ctl 13 11 else field o.ctl 11 9
def MxOp.tile (o : MxOp) : Nat := if o.kind = 1 then field o.ctl 5 4 else field o.ctl 1 0
def MxOp.m (o : MxOp) : Nat := field o.ctl 19 12
def MxOp.aq (o : MxOp) : Bool := o.ctl.testBit 20
def MxOp.pitch (o : MxOp) : Nat := field o.ctl 63 32
/-- BF16 operands. -/
def MxOp.bf (o : MxOp) : Bool := if o.kind = 0 then o.ctl.testBit 4 else field o.fmtBlock.toNat 193 192 = 1
def MxOp.esize (o : MxOp) : Nat := if o.bf then 2 else 1
/-- Bytes of one A row that the product uses. -/
def MxOp.rowBytes (o : MxOp) : Nat := 128 * (o.kb + 1) * o.esize
/-- Slabs of a load, rows of a product or a tile. -/
def MxOp.total (o : MxOp) : Nat := match o.kind with
  | 0 => (o.kb + 1) * 8 * o.esize
  | 1 => o.m + 1
  | _ => 256
def MxOp.ascl (o : MxOp) : W64 := o.fmtBlock.extractLsb' 0 64
def MxOp.bscl (o : MxOp) : W64 := o.fmtBlock.extractLsb' 64 64
/-- R240: the address of a scale. -/
def MxOp.ascale (o : MxOp) (m kb : Nat) : W64 :=
  let str := field o.fmtBlock.toNat 159 128
  o.ascl + BitVec.ofNat 64 (4 * (if o.fmtBlock.getLsbD 194 then kb * str + m else m * str + kb))
def MxOp.bscale (o : MxOp) (kb t : Nat) : W64 :=
  let str := field o.fmtBlock.toNat 191 160
  o.bscl + BitVec.ofNat 64 (4 * (if o.fmtBlock.getLsbD 195 then t * str + kb else kb * str + t))
/-- The scales of a product with their keys in `MxOp.scales`. -/
def MxOp.scaleList (o : MxOp) : List (Nat × W64) :=
  let kbs := List.range (o.kb + 1)
  (if o.ascl = 0 then [] else (List.range (o.m + 1)).flatMap fun m => kbs.map fun kb => (m * 8 + kb, o.ascale m kb)) ++
    (if o.bscl = 0 then [] else kbs.flatMap fun kb => [(2048 + kb * 8, o.bscale kb 0), (2048 + kb * 8 + 1, o.bscale kb 1)])
/-- A scale the scale store holds: 1.0 when none is named, none when its word could not be read. -/
def MxOp.scale (o : MxOp) (base : W64) (key : Nat) : Option W32 := if base = 0 then some 0x3F800000 else SMap.find o.scales key

/-! ## Order (R236) -/

/-- Planes an operation reads or writes. Only its format block says whether a product reads a second plane: before it is read, a later operation
waits for both, and the product itself only for the first. -/
def MxOp.planes (o : MxOp) (earlier : Bool) : List Nat := match o.kind with
  | 0 => if o.bf then [o.plane, o.plane + 1] else [o.plane]
  | 1 => if (if o.begun then o.bf else earlier) then [o.plane, o.plane + 1] else [o.plane]
  | 3 => [o.plane]
  | _ => []
def MxOp.tiles (o : MxOp) : List Nat := match o.kind with
  | 1 | 4 | 5 => [o.tile]
  | 2 => (List.range 4).filter fun t => o.opA.getLsbD t
  | _ => []
def listsMeet (a b : List Nat) : Bool := a.any b.contains
/-- R236: an earlier operation of the context that must end first. -/
def MxOp.waitsFor (o e : MxOp) : Bool :=
  (o.kind == 1 && e.kind == 1) || ((o.kind == 0 || o.kind == 3) && (e.kind == 0 || e.kind == 3)) ||
    ((o.kind == 0 || e.kind == 0) && listsMeet (o.planes false) (e.planes true)) || listsMeet o.tiles e.tiles
def State.mxFirst (s : State) (o : MxOp) : Bool :=
  !(s.mxops.any fun e => e.ctx == o.ctx && decide (e.id < o.id) && o.waitsFor e)

/-! ## Memory -/

/-- R160: an operation's accesses are those of its core's engine; none is a copy's. -/
def State.mxJob (s : State) (o : MxOp) : Job :=
  let c := (s.ctx? o.ctx).getD {}
  { id := 0, ctx := o.ctx, launch := c.launch, block := c.block, core := o.core, agent := { s.agentOf c with unit := 1 }, smode := false, kind := 11, sd := 0
    opA := o.opA, pages := o.pages, extents := o.extents }
/-- R83, R160: the operation with the extents of some accesses, or the cause that refuses one. -/
def State.mxExtents (s : State) (o : MxOp) (l : List (Bool × W64)) : Except (Option Nat) MxOp :=
  match s.extentsOf (s.mxJob o) (l.foldl addExtent []) with
  | .error e => .error (some e.1)
  | .ok m => .ok { o with pages := m.1, extents := m.2 }
/-- R159: runs of bytes that lie beyond the allocation. -/
def State.mxBeyond (s : State) (o : MxOp) (l : List (W64 × Nat)) : Bool :=
  let size := (s.block (s.mxJob o).block).spsize
  l.any fun x => isLocal x.1 && decide (size < localOff x.1 + x.2)
def runEnds (w : Bool) (l : List (W64 × Nat)) : List (Bool × W64) := l.flatMap fun x => bothEnds w x.2 x.1
/-- The addresses of a run of bytes. -/
def runBytes (n : Nat) (a : W64) : List W64 := (List.range n).map fun i => a + BitVec.ofNat 64 i
/-- R131, R132: the packets of an operation's accesses, with the record of each one dropped. -/
def State.mxPackets (s : State) (o : MxOp) (x : Cross) (as : List (W64 × Loc)) : State :=
  let r := s.engPackets (s.mxJob o).agent x o.opA (fun va => SMap.get 0 o.extents (extentKey (x != .read) va)) ((s.mxop? o.id).getD o).seq as
  r.1.updMx o.id fun o => { o with seq := r.2 }
/-- Read bytes: a dropped read returns zeros (05 R131), poison or a refusal by an export entry is a cause, a locked line waits. -/
def State.mxRead (s : State) (o : MxOp) (as : List W64) (remote : List Byte) : Except (Option Nat) (State × List Byte) :=
  let j := s.mxJob o
  let ls := as.map fun a => (a, j.at_ false a)
  let bs := (List.range ls.length).zip ls |>.foldr (fun x (acc : Except (Option Nat) (List Byte)) =>
    match x.2.2.map fun l => s.engByte j.agent l (remote.getD x.1 0) with
    | some .wait => .error none
    | some (.fail c) => if c = cPoison || c = cPerm then (match acc with | .error none => .error none | _ => .error (some c)) else acc.map (0 :: ·)
    | some (.ok b) => acc.map (b :: ·)
    | none => acc.map (0 :: ·)) (.ok [])
  bs.map fun bs => (s.mxPackets o .read (ls.filterMap fun x => x.2.map fun l => (x.1, l)), bs)
/-- R207: of some bytes, those of the next n aligned words; all for 0. -/
def nextWords (n : Nat) (as : List W64) : List W64 :=
  if n = 0 then as else ((groupBy (fun (a : W64) => (a.toNat / 4, 0)) as).take n).flatten
/-- R207: read on in the next row or slab, which lies at some addresses: the bytes read of it so far. -/
def State.mxFill (s : State) (o : MxOp) (as : List W64) (n : Nat) (remote : List Byte) : Except (Option Nat) (State × List Byte) :=
  (s.mxRead o (nextWords n (as.drop o.got.length)) remote).map fun r => (r.1, o.got ++ r.2)
/-- R337: the engine performs an operation for a VF. -/
def State.mxCharge (s : State) (o : MxOp) : State :=
  let v := (s.launch ((s.ctx? o.ctx).getD {}).launch).vf
  s.updCore o.core fun k => { k with issuedTick := if k.issuedTick.contains v then k.issuedTick else k.issuedTick ++ [v] }

/-! ## The end of an operation (R236, Table 11-3) -/

/-- The progress a failed operation reports. -/
def MxOp.progress (o : MxOp) : Nat := if o.kind = 3 then o.bitmap else if o.kind = 2 then 0 else o.next
/-- Keep the failure of lowest ordinal. -/
def firstFail (old : Option (Nat × Nat × Nat)) (new : Nat × Nat × Nat) : Option (Nat × Nat × Nat) := match old with
  | some f => if f.2.1 < new.2.1 then some f else some new
  | none => some new
/-- Account an operation that has ended. -/
def Ctx.mxEnded (o : MxOp) (c : Ctx) : Ctx :=
  let f := (o.fail, o.ord, o.progress)
  if o.batch = 0 then { c with mxOpenFail := if o.fail = 0 then c.mxOpenFail else firstFail c.mxOpenFail f }
  else { c with mxBatches := c.mxBatches.map fun b =>
      if b.ops.contains o.id then { b with ops := b.ops.filter (· ≠ o.id), fail := if o.fail = 0 then b.fail else firstFail b.fail f } else b }
/-- R264: which progress word an operation uses. -/
def MxOp.inL (o : MxOp) : Bool := o.kind == 0 || o.kind == 3
def Engine.setProgress (e : Engine) (half : Nat) (l : Bool) (w : W64) : Engine := match half, l with
  | 0, false => { e with progF0 := w }
  | 0, true => { e with progL0 := w }
  | _, false => { e with progF1 := w }
  | _, true => { e with progL1 := w }
def Engine.progress (e : Engine) (half : Nat) (l : Bool) : W64 := match half, l with
  | 0, false => e.progF0
  | 0, true => e.progL0
  | _, false => e.progF1
  | _, true => e.progL1
/-- Table 13-2: the progress word of a stopped operation. -/
def MxOp.progressWord (o : MxOp) (batch : Nat) : W64 :=
  let op := match o.kind with | 0 => 1 | 1 => 2 | 3 => 4 | 4 => 5 | _ => 6
  BitVec.ofNat 64 (op + o.next % 512 * 2 ^ 3 + o.ord % 64 * 2 ^ 12 + (o.aq && o.kind == 1 && !o.rows.isEmpty).toNat * 2 ^ 18 + batch * 2 ^ 20)
/-- The batch an operation belongs to; one in the open set, the batch it will join. -/
def State.mxBatchOf (s : State) (o : MxOp) : Nat := if o.batch = 0 then (((s.ctx? o.ctx).getD {}).mxBatchN + 1).toNat else o.batch
/-- R236, R264: an operation ends; the progress word it left returns to 0. -/
def State.endMx (s : State) (o : MxOp) : State :=
  let mine (w : W64) : Nat × Nat := (field w.toNat 2 0, field w.toNat 51 12 - field w.toNat 19 18 * 64)
  let own := mine ((s.core o.core).engine.progress o.half o.inL) == mine (o.progressWord (s.mxBatchOf o))
  let s := { s.mxCharge o with mxops := s.mxops.filter fun x => x.id ≠ o.id }
  let s := if own then s.updCore o.core fun k => { k with engine := k.engine.setProgress o.half o.inL 0 } else s
  (s.updCtx o.ctx (Ctx.mxEnded o)).reapCtx o.ctx

/-! ## Starting -/

/-- R238, R241, R246, R247: control words that end an operation with LAYOUT, before anything is read. -/
def MxOp.badWord (o : MxOp) : Bool :=
  let low := if isLocal o.opA then localOff o.opA else o.opA.toNat
  match o.kind with
  | 0 => field o.ctl 7 5 != 0 || field o.ctl 31 14 != 0 || decide (o.groups < o.kg0 + o.kb + 1) || (o.bf && o.plane % 2 == 1) ||
      decide (o.pitch < 256 * o.esize) || o.pitch % o.esize != 0 || low % o.esize != 0
  | 1 => field o.ctl 31 21 != 0 || decide (o.groups < o.kg0 + o.kb + 1) || decide (o.tilesNamed ≤ o.tile) || low % 64 != 0 ||
      (o.aq && o.opB1.toNat / 8 != 0)
  | 2 => o.opA.toNat / 2 ^ o.tilesNamed != 0
  | 3 => o.opA.toNat / 16 != 0
  | _ => o.ctl / 4 != 0 || decide (o.tilesNamed ≤ o.tile) || low % 16 != 0
/-- R233: the format of the plane in the halves the operation names. -/
def MxOp.planeIs (o : MxOp) (e : Engine) (bf : Bool) : Bool :=
  let hs := dedup ((List.range (o.kb + 1)).map fun i => o.kg (o.kg0 + i) / 4)
  (if bf then [o.plane, o.plane + 1] else [o.plane]).all fun p => hs.all fun h => e.fmt.getLsbD (p + 16 * h) == bf
/-- R241: a format block, or a plane's format, that ends a product with LAYOUT. -/
def MxOp.badBlock (o : MxOp) (e : Engine) : Bool :=
  let x := o.fmtBlock.toNat
  let low (a : W64) : Nat := if isLocal a then localOff a else a.toNat
  field x 511 204 != 0 || decide (1 < field x 193 192) || field x 203 196 != 128 || (o.bf && o.plane % 2 == 1) || !o.planeIs e o.bf ||
    (!o.aq && (decide (o.pitch < o.rowBytes) || low o.opB1 % o.esize != 0)) || low o.ascl % 4 != 0 || low o.bscl % 4 != 0
/-- The runs of bytes an operation accesses once its words are known. -/
def MxOp.runs (o : MxOp) : List (W64 × Nat) := match o.kind with
  | 0 => (List.range (128 * (o.kb + 1))).map fun k => (o.opA + BitVec.ofNat 64 (k * o.pitch), 256 * o.esize)
  | 1 => (o.scaleList.map fun x => (x.2, 4)) ++
      (if o.aq then [] else (List.range (o.m + 1)).map fun m => (o.opB1 + BitVec.ofNat 64 (m * o.pitch), o.rowBytes))
  | 4 | 5 => (List.range 256).map (fun r => (o.opA + BitVec.ofNat 64 (1024 * r), 1024)) ++ [(o.opA + 0x40000, 64)]
  | _ => []
/-- Check and translate an operation's ranges. -/
def State.mxRanges (s : State) (o : MxOp) (w : Bool) : Except (Option Nat) MxOp :=
  if s.mxBeyond o o.runs then .error (some cSprange) else s.mxExtents o (runEnds w o.runs)
/-- Read the bytes of an operation's own structure once. -/
def State.mxStructure (s : State) (o : MxOp) (a : W64) (remote : List Byte) : Except (Option Nat) (State × MxOp × Nat) :=
  if s.mxBeyond o [(a, 64)] then .error (some cSprange)
  else match s.mxExtents o (runEnds false [(a, 64)]) with
    | .error e => .error e
    | .ok o => (s.mxRead o (runBytes 64 a) remote).map fun r => (r.1, o, bytesNat r.2)
/-- The scales of a product not yet read. -/
def MxOp.scalesLeft (o : MxOp) : List (Nat × W64) :=
  o.scaleList.filter fun x => (SMap.find o.scales x.1).isNone && (SMap.find o.scales (4096 + x.1)).isNone
/-- Read one scale into the scale store; one that cannot be read ends the operation at its row (R244). -/
def State.mxScale (r : Option (State × MxOp)) (x : Nat × W64) (remote : List Byte) : Option (State × MxOp) :=
  match r with
  | none => none
  | some (s, o) => match s.mxRead o (runBytes 4 x.2) remote with
    | .error none => none
    | .error (some c) => some (s, { o with scales := SMap.put o.scales (4096 + x.1) (BitVec.ofNat 32 c) })
    | .ok (s, bs) => some (s, { o with scales := SMap.put o.scales x.1 (BitVec.ofNat 32 (bytesNat bs)) })
/-- R241: the format block is read once, then its ranges are translated, then the scales are read, n at a time or all for 0. -/
def State.mxProduct (s : State) (o : MxOp) (n : Nat) (remote : List Byte) : Except (Option Nat) (State × MxOp) :=
  if !o.begun then (s.mxStructure o o.opA remote).map fun r => (r.1, { r.2.1 with fmtBlock := BitVec.ofNat 512 r.2.2, begun := true })
  else if !o.ranged then
    if o.badBlock (s.core o.core).engine then .error (some cLayout)
    else (s.mxRanges o false).map fun o => (s, { o with ranged := true, started := o.scaleList.isEmpty })
  else
    let l := if n = 0 then o.scalesLeft else o.scalesLeft.take n
    match (List.range l.length).zip l |>.foldl (fun r x => State.mxScale r x.2 (remote.drop (4 * x.1))) (some (s, o)) with
    | none => .error none
    | some (s, o) => .ok (s, { o with started := o.scalesLeft.isEmpty })
/-- R160, R238–R247: what is decided before an operation's first row or slab. -/
def State.mxBegin (s : State) (o : MxOp) (n : Nat) (remote : List Byte) : Except (Option Nat) (State × MxOp) :=
  let go (o : MxOp) : MxOp := { o with begun := true, started := true }
  if o.badWord then .error (some cLayout)
  else match o.kind with
    | 1 => s.mxProduct o n remote
    | 2 | 3 => .ok (s, go o)
    | 5 => match s.mxRanges o false with
      | .error e => .error e
      | .ok o => match s.mxRead o (runBytes 64 (o.opA + 0x40000)) remote with
        | .error e => .error e
        | .ok (s, bs) => if bytesNat bs / 2 ≠ 0 then .error (some cLayout) else .ok (s, go { o with mark := bytesNat bs % 2 == 1 })
    | k => (s.mxRanges o (k == 4)).map fun o => (s, go o)

/-- R235, R236, R241: an operation starts once what it must follow has ended; a product first reads its format block and its scales. Data:
operation, scales to read (0 for all); bytes of another device. -/
def execMatrixOpStart (st : State) : Host.Outcome State Fault Refusal :=
  .next <| match st.mxop? (st.arg 0) with
    | none => st
    | some o =>
      if o.started || (st.core o.core).engine.held || !st.asyncDone o.ctx o.after || !st.mxFirst o then st
      else match st.mxBegin o (st.arg 1) st.ev.bytes with
        | .error none => st
        | .error (some c) => st.updMx o.id fun o => { o with begun := true, started := true, fail := c }
        | .ok (s, n) => (s.mxCharge n).updMx o.id fun o => { n with seq := o.seq }

/-! ## Loading (R238, R239) -/

/-- R239: a column block of 128 BF16 elements: its exponent, none when it is not finite, and its integers. -/
def bfBlock (scale : Int) (l : List W16) : Option Int × List Int :=
  let vs := l.map bfVal
  let exps := vs.filterMap fun v => match v with
    | .fin _ x => if x.m = 0 then none else some ((Nat.log2 x.m.natAbs : Int) + x.e)
    | _ => none
  let e := exps.foldl max (exps.headD 0)
  let ints := vs.map fun v => match v with
    | .fin _ x => (roundInt .rne ⟨x.m, x.e + scale - e⟩).1
    | _ => 0
  (if vs.any fun v => v.isNaN || v.isInf then none else some e, ints)
/-- R233: what slab i of a load is: K-group named, plane, column group. -/
def MxOp.slab (o : MxOp) (i : Nat) : Nat × Nat × Nat := (i / (8 * o.esize), o.plane + i / 8 % o.esize, i % 8)
/-- R238, R239: write one slab from its 128 source runs of 32 bytes. -/
def State.writeSlab (s : State) (o : MxOp) (i : Nat) (rows : List (List Byte)) : State :=
  let x := o.slab i
  let g := o.kg (o.kg0 + x.1)
  let s := s.updCore o.core fun k => { k with engine := k.engine.setFmt x.2.1 g o.bf }
  let s : State := { s with poison := s.poison.filter fun k => !inSlab o.core x.2.1 g x.2.2 k }
  if !o.bf then
    (List.range 128).zip rows |>.foldl (fun s r =>
      s.setSlabRow o.core x.2.1 (128 * g + r.1) x.2.2 (BitVec.ofNat 256 (bytesNat (r.2.map fun b => if b.toNat % 128 = 127 then 0x7F else b))) false) s
  else
    let cols := (List.range 16).map fun c => bfBlock 14 (rows.map fun r => BitVec.ofNat 16 (bytesNat ((r.drop (2 * c)).take 2)))
    let s := (List.range 128).foldl (fun s k =>
      let bits := (List.range 16).zip cols |>.foldl (fun n c => n + (c.2.2.getD k 0 % 2 ^ 16).toNat * 2 ^ (16 * c.1)) 0
      s.setSlabRow o.core x.2.1 (128 * g + k) x.2.2 (BitVec.ofNat 256 bits) true) s
    { s with bexp := (List.range 16).zip cols |>.foldl (fun m c =>
        SMap.set (some 0) m (((o.core * 16 + x.2.1) * 8 + g) * 256 + (x.2.1 % 2) * 128 + 16 * x.2.2 + c.1) c.2.1) s.bexp }
/-- The source runs of a slab. -/
def MxOp.slabRuns (o : MxOp) (i : Nat) : List W64 :=
  let x := o.slab i
  (List.range 128).map fun k => o.opA + BitVec.ofNat 64 ((128 * x.1 + k) * o.pitch + 256 * (x.2.1 - o.plane) + 32 * x.2.2)
/-- Cut a list into parts of n. -/
def partsOf {α : Type} (n k : Nat) (l : List α) : List (List α) := (List.range k).map fun i => (l.drop (n * i)).take n

/-- R238: the next slab of a load is read, word by word, and written whole with its checksum column. Data: operation, words to read (0 for the
rest of the slab); bytes of another device. -/
def execMxldSlabWrite (st : State) : Host.Outcome State Fault Refusal :=
  .next <| match st.mxop? (st.arg 0) with
    | none => st
    | some o =>
      if o.kind ≠ 0 || !o.started || o.stopped || o.fail ≠ 0 || o.total ≤ o.next || ((st.core o.core).engine.held && o.got.isEmpty) then st
      else match st.mxFill o ((o.slabRuns o.next).flatMap (runBytes 32)) (st.arg 1) st.ev.bytes with
        | .error none => st
        | .error (some c) => st.updMx o.id fun o => { o with fail := c, got := [] }
        | .ok (s, bs) =>
          let s := s.mxCharge o
          if bs.length < 4096 then s.updMx o.id fun o => { o with got := bs }
          else (s.writeSlab o o.next (partsOf 32 128 bs)).updMx o.id fun o => { o with next := o.next + 1, got := [] }

/-! ## The product (R240–R244, R259, R260) -/

/-- R259, R260: rows read and not yet written: those in flight and the one that waits in the row buffer. -/
def MxOp.ahead (o : MxOp) : Nat := if o.bf then 4 else 9
/-- R180, R259: pop an element of a queue as the row buffer does: its bytes and the state after. -/
def State.mxPop (s : State) (o : MxOp) : Except (Option Nat) (State × List Byte) :=
  match s.handle (s.mxJob o).block (field o.opB1.toNat 2 0) with
  | none => .error (some cQueue)
  | some h =>
    let w := s.qWord h.core h.off
    if w.broken || w.esize < o.rowBytes then .error (some cQueue)
    else if w.count = 0 || s.allCtxs.any (fun c => c.park == some (.queue h.loc false)) then .error none
    else
      let l := s.qElem h w w.head
      let ls : List Loc := (List.range o.rowBytes).map fun i => ⟨1, l.addr + i⟩
      let t := (s.mxPackets o .read (ls.map fun l => (o.opB1, l))).qHead h w
      match s.engBytes (s.mxJob o).agent ls [] with
      | .error none => .error none
      | .error (some c) => if c = cPoison then .error (some c) else .ok (t, List.replicate o.rowBytes 0)
      | .ok bs => .ok (t, bs)

/-- R259: the row buffer reads the next A row, word by word, or pops it. Data: operation, words to read (0 for the rest of the row); bytes of
another device. -/
def execARowRead (st : State) : Host.Outcome State Fault Refusal :=
  .next <| match st.mxop? (st.arg 0) with
    | none => st
    | some o =>
      let m := o.next + o.rows.length
      if o.kind ≠ 1 || !o.started || o.stopped || (st.core o.core).engine.held || o.fail ≠ 0 || o.total ≤ m || o.ahead ≤ o.rows.length then st
      else match (if o.aq then st.mxPop o else st.mxFill o (runBytes o.rowBytes (o.opB1 + BitVec.ofNat 64 (m * o.pitch))) (st.arg 1) st.ev.bytes) with
        | .error none => st
        | .error (some c) => if o.rows.isEmpty then st.updMx o.id fun o => { o with fail := c, got := [] } else st
        | .ok (s, bs) => s.updMx o.id fun o =>
            if bs.length < o.rowBytes then { o with got := bs } else { o with rows := o.rows ++ [bs], got := [] }

/-- R242: the integers of one A block with its exponent; none marks a block that holds a NaN or an infinity. -/
def MxOp.aBlock (o : MxOp) (row : List Byte) (kb : Nat) : Option Int × List Int :=
  if o.bf then bfBlock 22 ((List.range 128).map fun k => BitVec.ofNat 16 (bytesNat ((row.drop (2 * (128 * kb + k))).take 2)))
  else
    let cs := ((row.drop (128 * kb)).take 128).map e4Image
    (if cs.all Option.isSome then some 0 else none, cs.map fun c => c.getD 0)
def dot (a b : List Int) : Int := (a.zip b).foldl (fun n x => n + x.1 * x.2) 0
/-- R233: a stored element of a slab row as the macro multiplies it: an image, or an integer. -/
def codeInt (bf : Bool) (row : BitVec 2048) (c : Nat) : Int :=
  if bf then (row.extractLsb' (16 * c) 16).toInt else (e4Image (getByte row c)).getD 0
/-- The rows of a plane in a K-group. -/
def State.planeRows (s : State) (core plane g : Nat) : List (BitVec 2048) :=
  (List.range 128).map fun k => SMap.get 0 s.planes (planeKey core plane (128 * g + k))
/-- R258: a macro's row check fails: its partials do not add up to its checksum column's. -/
def State.macroBad (s : State) (o : MxOp) (a : List Int) (plane g cg : Nat) : Bool :=
  let rows := s.planeRows o.core plane g
  let width := if o.bf then 16 else 32
  let check := dot a ((List.range 128).map fun k => SMap.get 0 s.sums (planeKey o.core plane (128 * g + k) * 8 + cg))
  let sum := ((List.range width).map fun c => dot a (rows.map fun r => codeInt o.bf r (width * cg + c))).foldl (· + ·) 0
  check != sum
/-- R244, R257, R258: some macro that takes part in a row finds a mismatch, or a weight word with an uncorrectable error. -/
def State.rowBad (s : State) (o : MxOp) (row : List Byte) : Bool :=
  (List.range (o.kb + 1)).any fun kb =>
    let a := (o.aBlock row kb).2
    (List.range o.esize).any fun h => (List.range 8).any fun cg =>
      s.poison.any (inSlab o.core (o.plane + h) (o.kg (o.kg0 + kb)) cg) || s.macroBad o a (o.plane + h) (o.kg (o.kg0 + kb)) cg
/-- R242: the partial of one block and column. -/
def State.partialOf (s : State) (o : MxOp) (a : Option Int × List Int) (g n : Nat) : W32 :=
  let plane := if o.bf then o.plane + n / 128 else o.plane
  let rows := s.planeRows o.core plane g
  let c := if o.bf then n % 128 else n
  let int := dot a.2 (rows.map fun r => codeInt o.bf r c)
  if o.bf then
    match a.1, SMap.get (some 0) s.bexp (((o.core * 16 + plane) * 8 + g) * 256 + n) with
    | some ea, some eb => (roundDy 24 .rne false ⟨int, ea + eb - 36⟩).v
    | _, _ => canonNaN
  else if a.1.isNone || rows.any fun r => (e4Image (getByte r c)).isNone then canonNaN
  else (roundDy 24 .rne false ⟨int, -18⟩).v
/-- R242: the new row of the tile; `sc` gives the scales. -/
def State.productRow (s : State) (o : MxOp) (row : List Byte) (old : Vec) (sa : Nat → W32) (sb : Nat → Nat → W32) : Vec :=
  let as := (List.range (o.kb + 1)).map fun kb => (kb, o.aBlock row kb)
  ofLanes fun n => as.foldl (fun acc x =>
    (ffma32 (s.partialOf o x.2 (o.kg (o.kg0 + x.1)) n) (fmul32 (sa x.1) (sb x.1 (n / 128))).v acc).v) (laneOf old n)
/-- R244: poison the tile of a product. -/
def State.poisonTile (s : State) (o : MxOp) : State :=
  s.updCore o.core fun k => { k with engine := { k.engine with poison := k.engine.poison ||| BitVec.twoPow 4 (o.tileNo o.tile) } }
/-- R244, Table 16-5: the MXSUM record; an operation of the open set names the batch it will join. -/
def State.mxsumRecord (s : State) (o : MxOp) : State :=
  match s.ctx? o.ctx with
  | none => s
  | some c =>
    let e : FaultEv := { kind := kMxsum, rpc := o.pc, aux := s.mxBatchOf o }
    s.raiseRecord (s.launch c.launch).tag (s.eventRecord c e false false)
/-- R243, R259, R260, R264, R348, R356: what one broadcast row counts; the row after which the array stands idle also counts the cycles of its
promotion, of which R260 gives the bound (assumption 37). -/
def State.countRow (s : State) (o : MxOp) (wrote last : Bool) : State :=
  let n := if o.bf then 24 else 10
  let tail := if last then (Config.freeWord (Nat.pair s.oracle 260)).toNat % (81 - n) else 0
  let l := s.launch ((s.ctx? o.ctx).getD {}).launch
  let s := (s.mxCharge o).updCore o.core fun k => { k with
    engine := if o.half = 0 then { k.engine with busy0 := k.engine.busy0 + BitVec.ofNat 64 (n + tail), rows0 := k.engine.rows0 + (if wrote then 1 else 0) }
      else { k.engine with busy1 := k.engine.busy1 + BitVec.ofNat 64 (n + tail), rows1 := k.engine.rows1 + (if wrote then 1 else 0) } }
  { s.updTile (tileOfCore o.core) fun t => t.count (some l.vf) 16 ((o.kb + 1) * 8 * n) with oracle := s.oracle + 1 }
/-- The accumulator row of an operation's row m. -/
def MxOp.accRow (o : MxOp) (m : Nat) : Nat := o.core * 1024 + o.tileNo o.tile * 256 + m
/-- R260: the promotion of the next row in flight begins: its tile row is read. -/
def State.promote (s : State) (o : MxOp) : State := s.updMx o.id fun o =>
  if o.promo.length < o.rows.length then { o with promo := o.promo ++ [SMap.get 0 s.acc (o.accRow (o.next + o.promo.length))] } else o
/-- R242–R244: the oldest row in flight is written onto the tile row that its promotion read, or its operation ends with MXSUM or POISON. -/
def State.writeRow (s : State) (o : MxOp) (err : Nat) : State := match o.rows with
  | [] => s
  | row :: rest =>
    let key := o.accRow o.next
    let sas := (List.range (o.kb + 1)).map fun kb => o.scale o.ascl (o.next * 8 + kb)
    let sbs := (List.range (o.kb + 1)).flatMap fun kb => [o.scale o.bscl (2048 + kb * 8), o.scale o.bscl (2048 + kb * 8 + 1)]
    let unread := (List.range (o.kb + 1)).flatMap fun kb => [o.next * 8 + kb, 2048 + kb * 8, 2048 + kb * 8 + 1]
    let stop (s : State) (c : Nat) : State := s.updMx o.id fun o => { o with rows := [], promo := [], got := [], fail := c }
    match unread.findSome? fun k => SMap.find o.scales (4096 + k) with
    | some c => stop s c.toNat
    | none =>
      if err.testBit 1 || (o.promo.isEmpty && s.accPoison key != 0) then stop ((s.countRow o false true).poisonTile o) cPoison
      else if err.testBit 0 || s.rowBad o row then stop (((s.countRow o false true).poisonTile o).mxsumRecord o) cMxsum
      else
        let v := s.productRow o row (o.promo.headD (SMap.get 0 s.acc key)) (fun kb => (sas.getD kb none).getD 0) fun kb t => (sbs.getD (2 * kb + t) none).getD 0
        { (s.countRow o true rest.isEmpty).cleanAcc key allLanes with acc := SMap.set 0 s.acc key v }.updMx o.id fun o =>
          { o with next := o.next + 1, rows := rest, promo := o.promo.tail }

/-- R242–R244, R260: the oldest row in flight is written, or the promotion of the next one begins. Data: operation; bit 0: a macro meets an
uncorrectable error; bit 1: the read of the tile meets a parity error; bit 2: a promotion begins. -/
def execMxfmaRowWrite (st : State) : Host.Outcome State Fault Refusal :=
  .next <| match st.mxop? (st.arg 0) with
    | none => st
    | some o =>
      if o.stopped then st
      else if (st.arg 1).testBit 2 then (if st.accPoison (o.accRow (o.next + o.promo.length)) != 0 then st else st.promote o)
      else st.writeRow o (st.arg 1)

/-! ## The other operations and the end (R236, R246, R247) -/

/-- R246: zero tiles and clear their marks. -/
def State.mxZero (s : State) (o : MxOp) : State :=
  let ts := o.tiles.map o.tileNo
  let s := { s with acc := s.acc.filter fun r => !(r.1 / 1024 == o.core && ts.contains (r.1 / 256 % 4)) }
  let s : State := { s with poison := s.poison.filter fun k => !(k.2 == 3 && k.1 / 256 / 1024 == o.core && ts.contains (k.1 / 256 / 256 % 4)) }
  s.updCore o.core fun k => { k with engine := { k.engine with poison := ts.foldl (fun m t => m &&& ~~~(BitVec.twoPow 4 t)) k.engine.poison } }
/-- R246, R258: the K-groups of a plane whose stored checksums differ from their codes. -/
def State.mxCheck (s : State) (o : MxOp) : Nat :=
  packNat 1 (fun g =>
    let k := o.kg g
    let bf := (s.core o.core).engine.fmt.getLsbD (o.plane + 16 * (k / 4))
    (List.range 128).any (fun r =>
      let key := planeKey o.core o.plane (128 * k + r)
      let row := SMap.get (0 : BitVec 2048) s.planes key
      (List.range 8).any fun cg => SMap.get 0 s.sums (key * 8 + cg) != slabSum row bf cg || s.poison.any (inSlab o.core o.plane k cg)) |>.toNat) o.groups
/-- R130, R131, R247: save bytes at an address: packets that their destinations drop have no effect; a locked line waits. -/
def State.mxStore (s : State) (o : MxOp) (a : W64) (bs : List Byte) : Option State :=
  let j := s.mxJob o
  let as := (runBytes bs.length a).filterMap fun a => (j.at_ true a).map fun l => (a, l)
  let gs := groupBy (fun (c : Loc × Byte) => destKey c.1) ((as.map Prod.snd).zip bs)
  let may (g : List (Loc × Byte)) : Except (Option Nat) Unit := s.engMayWrite j.agent (g.map Prod.fst)
  if gs.any fun g => (match may g with | .error none => true | _ => false) then none
  else
    let ok := gs.filter fun g => match may g with | .ok _ => true | _ => false
    some ((s.mxPackets o .store as).engWrite j.agent none ok.flatten)
/-- R247: move on in the next row of a save or a restore, n words of it or the whole row for 0; a wait moves none. -/
def State.mxMove (s : State) (id : Nat) (parity : Bool) (n : Nat) (remote : List Byte) : State :=
  match s.mxop? id with
  | none => s
  | some o =>
    if 256 ≤ o.next || o.fail ≠ 0 || ((s.core o.core).engine.held && o.got.isEmpty) then s
    else
      let key := o.accRow o.next
      let a := o.opA + BitVec.ofNat 64 (1024 * o.next)
      let step (s : State) (bs : List Byte) : State := s.updMx id fun o => if bs.length < 1024 then { o with got := bs } else { o with next := o.next + 1, got := [] }
      if o.kind = 4 then
        let row := natBytes 1024 (SMap.get (0 : Vec) s.acc key).toNat
        let now := (row.drop o.got.length).take (if n = 0 then 1024 else 4 * n)
        match s.mxStore o (a + BitVec.ofNat 64 o.got.length) now with
        | none => s
        | some t => (step t (o.got ++ now)).updMx id fun o => { o with mark := o.mark || parity || s.accPoison key != 0 }
      else match s.mxFill o (runBytes 1024 a) n remote with
        | .error none => s
        | .error (some c) => s.updMx id fun o => { o with fail := c, got := [] }
        | .ok (s, bs) =>
          step (if bs.length < 1024 then s else { s.cleanAcc key allLanes with acc := SMap.set 0 s.acc key (BitVec.ofNat 8192 (bytesNat bs)) }) bs
/-- R247: after the last row, the trailer is written or the mark is set, and the operation ends. -/
def State.mxFinish (s : State) (o : MxOp) : State :=
  if o.kind = 4 then
    let mark := o.mark || (s.core o.core).engine.poison.getLsbD (o.tileNo o.tile)
    match s.mxStore o (o.opA + 0x40000) (natBytes 64 mark.toNat) with
    | none => s
    | some s => s.endMx o
  else
    let bit := BitVec.twoPow 4 (o.tileNo o.tile)
    (s.updCore o.core fun k => { k with engine := { k.engine with poison := if o.mark then k.engine.poison ||| bit else k.engine.poison &&& ~~~bit } }).endMx o

/-- R236, R246, R247: a zeroing or a check is performed, rows of a save or a restore move, and an operation with nothing left to do ends.
Data: operation, rows moved (0 for all), for a check the K-groups with an uncorrectable error, for a save 1 for a parity error, and words moved
of the next row alone (0 for whole rows); bytes of another device. -/
def execMatrixOpEnd (st : State) : Host.Outcome State Fault Refusal :=
  .next <| match st.mxop? (st.arg 0) with
    | none => st
    | some o =>
      if !o.started || o.stopped then st
      else if o.fail ≠ 0 then st.endMx o
      else match o.kind with
        | 0 | 1 => if o.next = o.total then st.endMx o else st
        | 2 => (st.mxZero o).endMx o
        | 3 =>
          let n := st.mxCheck o ||| st.arg 1 % 2 ^ o.groups
          if (st.core o.core).engine.held then st else st.endMx { o with bitmap := n, fail := if n = 0 then 0 else cMxsum }
        | _ =>
          let words := st.arg 3
          let n := if words ≠ 0 then 1 else if st.arg 1 = 0 then 256 else st.arg 1
          let s := iterate (fun i s => s.mxMove o.id (st.arg 2 == 1 && i == 0) words (st.ev.bytes.drop (1024 * i))) (min n 256) 0 (st.mxCharge o)
          match s.mxop? o.id with
          | some o => if o.fail ≠ 0 then s.endMx o else if o.next = 256 && !(s.core o.core).engine.held then s.mxFinish o else s
          | none => s

/-! ## Stopping (R262, R264) -/

/-- R262: a row popped for the buffer stays there; one read from a region is read again. -/
def MxOp.atStop (o : MxOp) : MxOp :=
  { o with stopped := true, next := if o.kind = 3 then 0 else o.next, rows := if o.aq && o.kind = 1 then o.rows.take 1 else [], got := [] }
/-- R262: what an operation still does before its engine has stopped: the rows in flight are written (the last one read may still wait in the row
buffer), the slab or row being moved ends, and a zeroing runs to its end. -/
def MxOp.finishing (o : MxOp) : Bool := match o.kind with
  | 0 | 4 | 5 => !o.got.isEmpty
  | 1 => decide (1 < o.rows.length) || !o.promo.isEmpty
  | 2 => o.started
  | _ => false

/-- R262: the engine of a core reaches its stop, and each operation under way leaves its progress word; where two share a register, that of the
later one stands (assumption 65). Data: core. -/
def execMatrixStopComplete (st : State) : Host.Outcome State Fault Refusal :=
  let core := st.arg 0
  let e := (st.core core).engine
  let ops := st.mxops.filter fun o => o.core == core && o.begun && !o.stopped && o.fail == 0
  .next <| if !e.held || e.stopped || ops.any MxOp.finishing then st
    else
      let s := ops.foldl (fun s o =>
        let w := o.atStop.progressWord (s.mxBatchOf o)
        (s.updMx o.id MxOp.atStop).updCore core fun k => { k with engine := k.engine.setProgress o.half o.inL w }) st
      (s.updCore core fun k => { k with engine := { k.engine with stopped := true } }).settleBlock e.holder

end Sys2Proof.Machine
end

