-- ==== Sys2Proof/Machine/EvReshape.lean ====
section
/-!
DEFINITION. Reshaping a partition (21 R385–R390) and scrubbing (21 R391). An event whose condition does not hold changes nothing
(assumption 2).
-/

namespace Sys2Proof.Machine

/-! ## The mailbox's answer (23 R415) -/

/-- R415: a command ends: its result from byte 8, `STATUS`, `REASON`, `SEQ`, `GO` and the interrupt. -/
def State.mbFinish (s : State) (status reason : Nat) (result : List Byte) : State :=
  s.updModule fun m => { m with
    mbBuf := (List.range result.length).zip result |>.foldl (fun b x => SMap.set 0 b (8 + x.1) x.2) m.mbBuf
    mbStatus := status, mbReason := reason, mbSeq := m.mbSeq + 1, mbGo := false, mbIrqs := m.mbIrqs + m.mbIrq.toNat }

/-! ## Checks (Table 21-8) -/

/-- The tiles after a reshape, in tile order. -/
def Reshape.tilesAfter (r : Reshape) (old : List Nat) : List Nat := sortNat ((old.filter fun t => !r.removed.contains t) ++ r.added)
/-- The existing cores of a partition. -/
def Part.cores (p : Part) : List Nat := (p.tiles.flatMap coresOf).filter fun c => !p.absent.contains c
/-- The image of a core under the map. -/
def Reshape.image (r : Reshape) (c : Nat) : Option Nat := (r.cmap.find? fun x => x.1 == c).map Prod.snd
/-- The blocks of a partition. -/
def State.partBlocks (s : State) (tag : Nat) : List (Nat × Block) := s.blocks.filter fun b => (s.launch b.2.launch).tag == tag
/-- Bytes of a core that a placed block takes: its allocation and its flashback slots. -/
def Block.footBytes (b : Block) : Nat := if b.placed then b.spsize + 9216 * b.groups else 0
/-- Table 21-8: why a request is rejected, 0 for none. -/
def State.reshapeBad (s : State) (tag : Nat) (r : Reshape) (mapBad : Bool) : Nat :=
  let p := s.part tag
  let after := r.tilesAfter p.tiles
  let bs := s.partBlocks tag
  let images := p.cores.map r.image
  let dest := dedup (images.filterMap id)
  let on (d : Nat) : List (Nat × Block) := bs.filter fun b => r.image b.2.core == some d
  if !connected after then 1
  else if r.added.any fun t => decide (648 ≤ t) || (s.tile t).degraded || (s.fld (fieldOfTile t)).degraded || ((s.tile t).owner != 0 && (s.tile t).owner != tag) then 2
  else if mapBad || images.any Option.isNone || dest.any (fun d => !after.contains (tileOfCore d) || p.absent.contains d) ||
      dest.any (fun d => decide (1 < ((on d).filter fun b => b.2.claim).length)) then 3
  else if dest.any fun d => decide (2 ^ 21 < ((on d).map fun b => b.2.footBytes).foldl (· + ·) 0) then 4
  else 0

/-! ## Steps (Table 21-9) -/

/-- The jobs of a partition. -/
def State.partJob (s : State) (tag : Nat) (j : Job) : Bool := (s.launch j.launch).tag == tag || j.agent.tag == tag
/-- Step 2: pre-empt every block that runs. -/
def State.quiesce (s : State) (tag : Nat) : State :=
  ((s.partBlocks tag).filter fun b => b.2.st == .resident).foldl (fun s b => s.requestPreempt b.1) s
/-- Step 4: a packet that must land first. -/
def State.trafficOf (s : State) (tag : Nat) (r : Reshape) : Bool :=
  s.packets.any (fun p => p.src.tag == tag || (p.first.tt != 0 && p.first.tt != 5 && p.first.tt != 6 && r.removed.contains (tileOfCore p.first.core))) ||
    s.commits.any fun c => match s.ctx? c.ctx with
      | some x => (s.launch x.launch).tag == tag
      | none => false
/-- A core number no tile has, where a block stands between two places. -/
def stagingCore (k : Nat) : Nat := 648 * 16 + k
/-- Move blocks to new cores one after another; none when one finds no room. -/
def State.moveAll (s : State) : List (Nat × Nat) → Option State
  | [] => some s
  | (b, c) :: t => match s.moveBlock b c with
    | none => none
    | some s => State.moveAll s t
/-- Step 5: the blocks whose core the map changes leave their cores, then take their new ones; where a core has no room as it stands, its
blocks are placed anew. -/
def State.moveBlocks (s : State) (tag : Nat) (r : Reshape) : State :=
  let bs := (s.partBlocks tag).filter fun b => b.2.placed
  let target (b : Nat × Block) : Nat := (r.image b.2.core).getD b.2.core
  let away (l : List (Nat × Block)) : List (Nat × Nat) := (List.range l.length).zip l |>.map fun x => (x.2.1, stagingCore x.1)
  let back (l : List (Nat × Block)) : List (Nat × Nat) := l.map fun b => (b.1, target b)
  let moving := bs.filter fun b => target b != b.2.core
  match s.moveAll (away moving ++ back moving) with
  | some s => s
  | none =>
    let crowd := bs.filter fun b => moving.any fun m => target m == target b
    (s.moveAll (away crowd ++ back crowd)).getD s
/-- Step 5: pending blocks join their new core's queue in acceptance order. -/
def State.movePending (s : State) (tag : Nat) (r : Reshape) : State :=
  let ps := (s.partBlocks tag).filter fun b => !b.2.placed
  let s := ps.foldl (fun s b => match r.image b.2.core with
    | some d => if d = b.2.core then s else
        ((s.updCore b.2.core fun k => { k with pending := k.pending.filter (· ≠ b.1) }).updCore d fun k => { k with pending := k.pending ++ [b.1] }).updBlock b.1
          fun x => { x with core := d }
    | none => s) s
  (dedup (ps.filterMap fun b => r.image b.2.core)).foldl (fun s d => s.updCore d fun k =>
    { k with pending := (sortNat (k.pending.map fun b => (s.block b).order * 2 ^ 32 + b)).map (· % 2 ^ 32) }) s
/-- Step 5: queued quantisation jobs move to the scheduler of their new tile. -/
def State.moveQz (s : State) (tiles : List Nat) : State :=
  let js := s.jobs.filter fun j => j.kind == 10 && !j.started
  tiles.foldl (fun s t => s.updTile t fun x => { x with qz := (js.filter fun j => tileOfCore j.core == t).map fun j => j.id }) s
/-- Step 7: tables, tags and translations of the new shape. -/
def State.rewrite (s : State) (tag : Nat) (r : Reshape) : State :=
  let p := s.part tag
  let after := r.tilesAfter p.tiles
  let newIndex (c : Nat) : Nat := after.idxOf (tileOfCore c) * 16 + slotOfCore c
  let s := { s with launches := s.launches.map fun (l : Nat × Launch) =>
    if l.2.tag = tag then (l.1, { l.2 with places := l.2.places.map fun (e : Nat × Nat × Nat) => (e.1, e.2.1, match (p.coreAt e.2.2).map r.image with
      | some (some d) => newIndex d
      | _ => e.2.2) }) else l }
  let s := s.updPart tag fun p => { p with
    tiles := after, tlb := []
    absent := p.absent.filter (fun c => after.contains (tileOfCore c)) }
  let s := after.foldl (fun s t => s.updTile t fun x => { x with owner := tag, gated := false }) s
  (p.tiles.filter fun t => !after.contains t).foldl State.freeTile s
/-- Step 9: suspended jobs go on, and a retire event that waited becomes pending. -/
def State.resumeAll (s : State) (tag : Nat) : State :=
  let s := { s with jobs := s.jobs.map fun (j : Job) => if j.suspended && s.partJob tag j then
    (let k := { j with suspended := false }; if k.started && k.kind != 9 && k.kind != 10 then k.fill else k) else j }
  s.updPart tag fun p =>
    let p := { p with reshaping := false, reshape := none }
    match p.retire, p.retireQ with
    | none, r :: t => { p with retire := some r, retireQ := t }
    | _, _ => p
/-- R386: record 16 with the new plate generation. -/
def State.reshapeRecord (s : State) (tag : Nat) : State :=
  s.raiseRecord tag (recordOf kReshape 0 0 0 false false none false 0 0 0 0 0 (s.part tag).pgen.toNat 0 0 0 0)
def State.setStep (s : State) (tag n : Nat) : State := s.updPart tag fun p => { p with reshape := p.reshape.map fun r => { r with step := n } }
/-- R386: step n of a reshape, when what it waits for has ended. -/
def State.reshapeStep (s : State) (tag : Nat) (r : Reshape) : State :=
  let jobs := s.jobs.filter (s.partJob tag)
  match r.step with
  | 0 => ((s.updPart tag fun p => { p with reshaping := true }).publish tag true).setStep tag 1
  | 1 => (s.quiesce tag).setStep tag 2
  | 2 =>
    if (s.partBlocks tag).any fun b => b.2.st == .resident then s
    else { s with jobs := s.jobs.map fun (j : Job) => if s.partJob tag j then { j with suspended := true } else j }.setStep tag 3
  | 3 => if jobs.any fun j => (j.flight.any fun k => (SMap.find j.data k).isNone) || !j.cells.isEmpty then s else s.setStep tag 4
  | 4 =>
    if s.trafficOf tag r then s
    else
      let s := r.added.foldl (fun s t => if (s.tile t).owner = 0 then s.zeroTile t else s) s
      ((((s.moveBlocks tag r).movePending tag r).moveQz ((s.part tag).tiles ++ r.added))).setStep tag 5
  | 5 => ((s.part tag).cores.foldl (fun s c => s.updCore c fun k => { k with l1 := [] }) s).setStep tag 6
  | 6 => (s.rewrite tag r).setStep tag 7
  | 7 => ((s.newPlate tag).publish tag false).setStep tag 8
  | _ =>
    let s := (s.reshapeRecord tag).resumeAll tag
    if r.byMailbox then s.mbFinish 0 0 (natBytes 8 (s.part tag).pgen.toNat) else s

/-- R385: a request begins, when none runs for the partition. -/
def State.beginReshape (s : State) (tag : Nat) (r : Reshape) : State := s.updPart tag fun p => { p with reshape := some { r with step := 0 } }

/-- R384, R386–R390: a publication that runs ends; else one quiesce step of a reshape. Data: partition, then the ephemeris's gaps. -/
def execReshapeStep (st : State) : Host.Outcome State Fault Refusal :=
  .next <| match (st.part (st.arg 0)).pub, (st.part (st.arg 0)).reshape with
    | some flag, _ => st.publishEnd (st.arg 0) flag (st.ev.args.drop 1)
    | none, some r => st.reshapeStep (st.arg 0) r
    | none, none => st

/-- R387: a dirty group that has not stopped within 20 ms ends its launch. Data: context. -/
def execReshapeDirtyTimeout (st : State) : Host.Outcome State Fault Refusal :=
  .next <| match st.ctx? (st.arg 0) with
    | none => st
    | some c =>
      let tag := (st.launch c.launch).tag
      match (st.part tag).reshape with
      | some r => if r.step = 2 && c.isGroup && c.preempt && (c.dirty || c.smode) then st.endLaunch c.launch else st
      | none => st

/-! ## Scrubbing (R391) -/

/-- R391: every granule that came to the scrub queue before this one is scrubbed. -/
def State.scrubTurn (s : State) (g : Nat) : Bool :=
  let x := s.gran g
  if x.demanded = 0 then (s.grans.filter fun y => decide (y.1 < g) && (!y.2.zp || y.2.demanded != 0)).length == g
  else
    (s.grans.filter fun y => !y.2.zp || y.2.demanded != 0).length == granuleCount &&
      !(s.grans.any fun y => y.2.zp && y.2.demanded != 0 && decide (y.2.demanded < x.demanded))
/-- R391: the scrubber zeroes what is left of the next granule, and `ZP` becomes 0. Data: device granule. -/
def execScrubGranule (st : State) : Host.Outcome State Fault Refusal :=
  let g := st.arg 0
  let x := st.gran g
  .next <| if !x.zp || granuleCount ≤ g || !st.scrubTurn g then st
    else
      let base := g / 32768 * 2 ^ 36 + g % 32768 * 2 ^ 21
      let hbm := st.hbm.filter fun c => !(decide (base ≤ c.1) && decide (c.1 < base + 2 ^ 21) && x.unscrubbed.getLsbD (c.1 % 2 ^ 21 / 128))
      { st with hbm := hbm }.setGran g { x with zp := false, unscrubbed := 0, demanded := 0 }

end Sys2Proof.Machine
end

