-- ==== Sys2Proof/Machine/EvFail.lean ====
section
/-!
DEFINITION. Failures of cores, tiles and links, and the answers to retire events (16 R313–R318). An event whose condition does not hold
changes nothing (assumption 2).
-/

namespace Sys2Proof.Machine

/-! ## Uncorrectable errors (R311, R312, R318) -/

/-- R311: the word of a place is poisoned; a register row's word is poisoned in the context that holds it. -/
def State.spoil (s : State) (l : Loc) : State :=
  let s : State := if 5 ≤ l.tt || s.poison.contains (wordKey l) then s else { s with poison := s.poison ++ [wordKey l] }
  if l.tt ≠ 2 then s
  else match s.rowHolder (l.addr / 1024) with
    | some x => s.updCtx x.1.id fun c => { c with poisonV := SMap.set 0 c.poisonV x.2 (SMap.get 0 c.poisonV x.2 ||| oneLane (l.addr % 1024 / 4)) }
    | none => s
/-- R311, R312, R318: an uncorrectable error, by what it strikes. A line of a shared region is always clean (R123); a clean line is fetched again from
HBM, and where that copy is not good its bad words are poisoned; the words of a dirty line are. -/
def State.upset (s : State) : Upset → State
  | .word l => s.spoil l
  | .vreg id r lane => match s.ctx? id with
    | some c => if c.isGroup && c.resident && r < c.valloc && lane < 256 then s.spoil ⟨2, (c.core * 4096 + c.vbase + r) * 1024 + lane * 4⟩ else s
    | none => s
  | .sreg id r => if r = 0 || 64 ≤ r then s else s.updCtx id fun c => { c with poisonS := c.poisonS ||| BitVec.twoPow 64 r }
  | .control id => match s.ctx? id with
    | some c => s.onCtx c.id fun s => s.endWith kPoison 2
    | none => s
  | .line l dirty good ws =>
    if l.tt ≠ 0 || (good && (!dirty || (s.gran (granOf l.addr)).shr)) then s
    else (ws.filter fun w => w / 128 == l.addr / 128).foldl (fun s w => s.spoil ⟨0, w⟩) s

/-! ## Losses (R315, R317) -/

/-- R315: the next retire event of a partition; one that finds another pending, or a reshape, waits. -/
def State.raiseRetire (s : State) (tag kind core : Nat) : State :=
  s.updPart tag fun p =>
    let n := p.retireN + 1
    let r : Retire := ⟨kind, core, n⟩
    if p.retire.isNone && p.reshape.isNone then { p with retireN := n, retire := some r, retireAns := 0 } else { p with retireN := n, retireQ := p.retireQ ++ [r] }
/-- R315: the launches with a group or a block on a core. -/
def State.launchesOn (s : State) (core : Nat) : List Nat := dedup ((s.blocks.filter fun b => b.2.core == core).map fun b => b.2.launch)
/-- R315: a logical core is lost: its launches end, each with one record. -/
def State.loseCore (s : State) (core kind n : Nat) : State :=
  let tag := (s.tile (tileOfCore core)).owner
  let s := (s.launchesOn core).foldl (fun s l =>
    let x := s.launch l
    let s := s.raiseRecord x.tag (recordOf kind 0 0 0 false false none false ((s.part x.tag).coreIndex core) 0 0 0 0 n 0 0 0 (x.vf * 8 + x.q))
    s.endLaunch l) s
  let s := (s.zeroEngine core).zeroSp core 0 (2 ^ 21)
  let s := s.zeroRows core 0 4096
  let s := { s with deliveries := s.deliveries.filter fun d => d.obj.core ≠ core }
  let s := s.updCore core fun k => { lost := true, pos := k.pos, cyc := k.cyc, span := k.span, steps := k.steps }
  s.updPart tag fun p => { p with reshape := p.reshape.map fun r => { r with cmap := r.cmap.filter fun x => x.1 ≠ core } }
/-- R315: a lost core and its retire event. -/
def State.coreLost (s : State) (core : Nat) : State :=
  let tag := (s.tile (tileOfCore core)).owner
  if (s.core core).lost then s
  else if (SMap.find s.parts tag).isNone then s.updCore core fun k => { k with lost := true }
  else (s.loseCore core kCorelost ((s.part tag).retireN + 1)).raiseRetire tag 1 core
/-- The partition address of a device address. -/
def Part.addrOf (p : Part) (key : Nat) : Option Nat :=
  (p.grans.find? fun g => hbmKey g.2.site (g.2.dgran * 32) 0 ≤ key && key < hbmKey g.2.site (g.2.dgran * 32) 0 + 2 ^ 21).map fun g =>
    g.1 * 2 ^ 21 + key % 2 ^ 21
/-- R317: a tile is lost, with the words of dirty lines that had their home there. -/
def State.tileLost (s : State) (t : Nat) (words : List Nat) : State :=
  let tag := (s.tile t).owner
  let p := s.part tag
  let s := s.updTile t fun x => { x with degraded := true }
  if (SMap.find s.parts tag).isNone then s
  else
    let n := p.retireN + 1
    let s := ((coresOf t).filter fun c => !(s.core c).lost).foldl (fun s c => s.loseCore c kTilelost n) s
    let dirty := words.filter fun w => match p.addrOf w with
      | some pa => p.homeTile 0 pa == t
      | none => false
    (dirty.foldl (fun s w => s.spoil ⟨0, w⟩) s).raiseRetire tag 2 (t * 16)

/-! ## Core failures (R313, R314) -/

/-- The logical core at a position of a row. -/
def State.coreAtPos (s : State) (t row pos : Nat) : Option Nat :=
  ((List.range 8).map fun i => t * 16 + row * 8 + i).find? fun c => !(s.core c).lost && s.posOf c == pos
/-- R286: the aborts of a stop after which the group goes on where it was. -/
def Ctx.abortHere (c : Ctx) : Ctx :=
  if !c.txg then c else { (maskLanes (c.openMask ||| c.doomed)).foldl (fun c i => c.abortLane 8 0 0 i) c with txHold := false, txLane := 0 }
/-- R313, R304: the stop of a core that moves: parked instructions are withdrawn, open lanes abort, the token and the clock requests go; no group is
rewound, so that a dirty group and one in the handler move as they stand, and results in flight stay (assumption 67). -/
def State.waveStop (s : State) (core : Nat) : State :=
  (s.allCtxs.filter fun c => c.kind != .none && c.core == core && !c.stopped && !c.ended && !c.smode && (c.isSeq || (c.resident && !c.dirty))).foldl (fun s c =>
    let s := s.withdraw c.id
    if c.isSeq then s else (s.releaseToken c.id).updCtx c.id fun c => { c.abortHere with breq := false, nreq := false }) s
/-- R313: groups on a failed core: a clean one stops, to be rewound; a dirty one ends its launch. -/
def State.stopFailed (s : State) (core : Nat) : State :=
  let gs := s.allCtxs.filter fun c => c.isGroup && c.core == core && c.resident && !c.stopped
  let s := gs.foldl (fun s g => match s.ctx? g.id with
    | none => s
    | some c =>
      if c.dirty then
        let l := s.launch c.launch
        (s.raiseRecord l.tag (recordOf kCorelost 1 0 0 false false none false ((s.part l.tag).coreIndex core) 0 0 (s.block c.block).b c.lg 0 0 0 0
          (l.vf * 8 + l.q))).endLaunch c.launch
      else s.stopGroup c.id) s
  let s := s.updCtxs (fun c => c.isSeq && c.core == core) fun c => { c with stopped := true, park := none, reissue := false, answers := [], woken := 0 }
  let s := { s with mxops := s.mxops.map fun (o : MxOp) => if o.core = core then { o with stopped := o.begun } else o }
  let s := s.updCore core fun k => { k with engine := if k.engine.holder = 0 then k.engine else { k.engine with held := true, stopped := true } }
  (dedup (gs.map fun g => g.block)).foldl State.settleBlock s

/-- R313, R314: the logic of the core at a position of a row fails. Data: tile, row, position. -/
def execCoreFailure (st : State) : Host.Outcome State Fault Refusal :=
  let t := st.arg 0
  let row := st.arg 1
  let f := st.arg 2
  let lose (s : State) (c : Option Nat) : State := match c with
    | some c => s.coreLost c
    | none => s
  .next <| if 648 ≤ t || 2 ≤ row || 9 ≤ f then st
    else match (st.tile t).spare row, (st.tile t).fail row with
      | 0, _ =>
        if f = 8 then st.updTile t fun x => x.setRow row 2 none
        else
          let s := st.updTile t fun x => x.setRow row 1 (some (f, 7))
          (match s.coreAtPos t row f with
            | some c => s.stopFailed c
            | none => s)
      | 1, some (f0, _) =>
        let late := st.coreAtPos t row f0
        let hit := st.coreAtPos t row f
        let s := lose (lose st hit) late
        s.updTile t fun x => x.setRow row 2 none
      | _, _ => lose st (st.coreAtPos t row f)

/-- R313: the remap wave stops the next logical core, moves it one position toward the spare, and it goes on there. Data: tile, row. -/
def execRemapWaveStep (st : State) : Host.Outcome State Fault Refusal :=
  let t := st.arg 0
  let row := st.arg 1
  .next <| if 2 ≤ row then st
    else match (st.tile t).fail row with
      | none => st
      | some (f, p) =>
        let s := match st.coreAtPos t row p with
          | some c => (st.waveStop c).updCore c fun k => { k with pos := p + 1, l1 := [] }
          | none => st
        s.updTile t fun x => x.setRow row 1 (if p ≤ f then none else some (f, p - 1))

/-- R317: a tile fails. Data: tile, then the device addresses of words of dirty lines that had their home there. -/
def execTileFailure (st : State) : Host.Outcome State Fault Refusal :=
  .next (if 648 ≤ st.arg 0 || (st.tile (st.arg 0)).degraded then st else st.tileLost (st.arg 0) (st.ev.args.drop 1))

/-! ## Mesh hops (R318) -/

/-- The neighbour beyond an in-port (0 N, 1 E, 2 S, 3 W). -/
def beyondPort (t port : Nat) : Option Nat := match port with
  | 0 => if tileY t = 0 then none else some (t - 27)
  | 1 => if tileX t = 26 then none else some (t + 1)
  | 2 => if tileY t = 23 then none else some (t + 27)
  | 3 => if tileX t = 0 then none else some (t - 1)
  | _ => none
/-- R318: a link whose sixteen retries have failed is routed around. -/
def linkOut : Nat := 17
/-- R318: every link of a tile is out. -/
def State.isolated (s : State) (t : Nat) : Bool :=
  (List.range 4).all fun p => (beyondPort t p).isNone || SMap.get 0 (s.tile t).flitRetry p == linkOut
/-- R318: a flit arrives over a hop: a failed CRC asks for a retry, and after sixteen failed retries the link is out; a tile with no link left
is lost. Data: tile, in-port, 1 when the CRC matches; the device addresses of words of dirty lines that have their home on a tile then lost. -/
def execMeshFlitReceive (st : State) : Host.Outcome State Fault Refusal :=
  let t := st.arg 0
  let p := st.arg 1
  .next <| match beyondPort t p with
    | none => st
    | some n =>
      let k := SMap.get 0 (st.tile t).flitRetry p
      if 648 ≤ t || k = linkOut then st
      else
        let k := if st.arg 2 = 1 then 0 else k + 1
        let s := st.updTile t fun x => { x with flitRetry := SMap.set 0 x.flitRetry p k }
        if k ≠ linkOut then s
        else
          let s := s.updTile n fun x => { x with flitRetry := SMap.set 0 x.flitRetry ((p + 2) % 4) linkOut }
          [t, n].foldl (fun s u => if s.isolated u && !(s.tile u).degraded then s.tileLost u (st.ev.args.drop 3) else s) s

/-! ## Retire answers (R316) -/

/-- R316: the pending event is done with; the next one becomes pending, after a reshape when one has begun. -/
def State.retireDone (s : State) (tag : Nat) : State :=
  s.updPart tag fun p => match p.reshape, p.retireQ with
    | none, r :: t => { p with retire := some r, retireQ := t, retireAns := 0 }
    | _, _ => { p with retire := none, retireAns := 0 }
/-- R316: the lost slots count as cores that do not exist; a new plate and a publication say so. -/
def State.markAbsent (s : State) (tag : Nat) : State :=
  let s := s.updPart tag fun p => { p with absent := sortNat (p.absent ++ (p.tiles.flatMap coresOf).filter fun c => (s.core c).lost) }
  (s.newPlate tag).publish tag false
/-- R316: end every launch of a partition. -/
def State.endPartLaunches (s : State) (tag : Nat) : State :=
  ((s.launches.filter fun l => l.2.tag == tag).map Prod.fst).foldl State.endLaunch s
/-- R316, R317: shrink. -/
def State.retireShrink (s : State) (tag : Nat) (r : Retire) : State :=
  let s := s.markAbsent tag
  let p := s.part tag
  if r.ekind = 1 then s.retireDone tag
  else
    let t := tileOfCore r.ecore
    let q : Reshape := { removed := [t], cmap := (p.cores.map fun c => (c, c)), byMailbox := false }
    if s.reshapeBad tag q false = 0 then ((s.beginReshape tag q).retireDone tag) else (s.endPartLaunches tag).retireDone tag
/-- R316: a healthy free tile that keeps the partition connected: the one named, else the lowest. -/
def State.remapTile (s : State) (tag t : Nat) (named : List Nat) : Option Nat :=
  let rest := (s.part tag).tiles.filter (· ≠ t)
  (named ++ List.range 648).find? fun u => decide (u < 648) && (s.tile u).owner == 0 && !(s.tile u).degraded && !(s.fld (fieldOfTile u)).degraded && connected (sortNat (u :: rest))
/-- R316: remap, or shrink when no tile serves. -/
def State.retireRemap (s : State) (tag : Nat) (r : Retire) (named : List Nat) : State :=
  let t := tileOfCore r.ecore
  match s.remapTile tag t named with
  | none => s.retireShrink tag r
  | some u =>
    let s := s.markAbsent tag
    let q : Reshape := { added := [u], removed := [t], byMailbox := false
                         cmap := (s.part tag).cores.map fun c => (c, if tileOfCore c = t then u * 16 + slotOfCore c else c) }
    if s.reshapeBad tag q false = 0 then ((s.beginReshape tag q).retireDone tag) else s.retireDone tag
/-- The pending event of a partition that no reshape holds back, with its answer. -/
def State.pendingRetire (s : State) (tag : Nat) : Option (Retire × Nat) :=
  let p := s.part tag
  match p.retire, p.reshape with
  | some r, none => some (r, p.retireAns)
  | _, _ => none

/-- R316: the answer shrink takes effect. Data: partition. -/
def execRetireShrink (st : State) : Host.Outcome State Fault Refusal :=
  .next <| match st.pendingRetire (st.arg 0) with
    | some (r, 1) => st.retireShrink (st.arg 0) r
    | _ => st

/-- R316: the answer remap takes effect. Data: partition, the tile chosen. -/
def execRetireRemap (st : State) : Host.Outcome State Fault Refusal :=
  .next <| match st.pendingRetire (st.arg 0) with
    | some (r, 2) => st.retireRemap (st.arg 0) r ((st.ev.args.drop 1).take 1)
    | _ => st

/-- R316: the answer abort takes effect: every launch ends, and the partition stands as after shrink. Data: partition. -/
def execRetireAbort (st : State) : Host.Outcome State Fault Refusal :=
  .next <| match st.pendingRetire (st.arg 0) with
    | some (r, 3) => (st.endPartLaunches (st.arg 0)).retireShrink (st.arg 0) r
    | _ => st

/-- R316: no answer has come within 20 ms: the partition shrinks. Data: partition. -/
def execRetireTimeout (st : State) : Host.Outcome State Fault Refusal :=
  .next <| match st.pendingRetire (st.arg 0) with
    | some (r, 0) => st.retireShrink (st.arg 0) r
    | _ => st

end Sys2Proof.Machine
end

