-- ==== Sys2Proof/Machine/EvLink.lean ====
section
/-!
DEFINITION. Links to other devices: acceptance and replay of flits, key slots, the ordering of writes between devices, the export table and
pages that move (22 R392–R405, R407). An event whose condition does not hold changes nothing (assumption 2).
-/

namespace Sys2Proof.Machine

/-! ## The flit (R393) -/

/-- A received flit: Table 22-2, the ciphertext and the tag. -/
structure Flit where
  seq : Nat
  ftype : Nat
  ks : Bool
  ptag : Nat
  sdev : Nat
  ddev : Nat
  reserved : Nat
  head : List Byte
  body : List Byte
  tag : List Byte
  deriving DecidableEq, Repr
def flitOf (bs : List Byte) : Flit :=
  let n := bytesNat (bs.take 8)
  { seq := field n 31 0, ftype := field n 35 32, ks := n.testBit 36, ptag := field n 43 37, sdev := field n 48 44, ddev := field n 53 49
    reserved := field n 63 54, head := bs.take 8, body := (bs.drop 8).take 232, tag := (bs.drop 240).take 16 }
/-- Table 22-2. -/
def headOf (seq ftype : Nat) (ks : Bool) (ptag sdev ddev : Nat) : List Byte :=
  natBytes 8 (seq + ftype % 16 * 2 ^ 32 + ks.toNat * 2 ^ 36 + ptag % 128 * 2 ^ 37 + sdev % 32 * 2 ^ 44 + ddev % 32 * 2 ^ 49)
/-- R393: the IV of a slot and a count, and the slot's key. -/
def flitIv (k : BitVec 288) (ic : Nat) : List Nat := beOfNat 4 (k.toNat / 2 ^ 256) ++ beOfNat 4 0 ++ beOfNat 4 ic
def flitKey (k : BitVec 288) : List Nat := byteNats (natBytes 32 (k.toNat % 2 ^ 256))
/-- R393, R395: the 256 bytes a port sends for a flit of its replay buffer, the same at every resending. -/
def Port.wire (p : Port) (x : Sent) : List Byte :=
  let k := SMap.get 0 p.keys x.ks.toNat
  let head := headOf x.seq x.ftype x.ks x.ptag x.sdev (field p.ctl.toNat 5 1)
  let ws := aesSchedule (flitKey k)
  let ct := gcmStream ws (flitIv k x.ic) (byteNats x.payload)
  head ++ natsBytes ct ++ natsBytes (gcmTag ws (flitIv k x.ic) (byteNats head) ct)

/-- R395: what a receiver makes of a flit. -/
inductive Fate where
  | accept (payload : List Byte)
  | crc
  | auth
  | bad
  | ahead
  | again
  deriving DecidableEq, Repr
/-- R397: the slot and the count that a sequence number requires. -/
def Port.wants (p : Port) (seq : Nat) : Bool × Nat := if p.rswitch = some seq then (!p.rks, 0) else (p.rks, p.rxic)
/-- R395: the conditions of acceptance. -/
def Port.fate (p : Port) (crcOk : Bool) (f : Flit) : Fate :=
  let w := p.wants f.seq
  if !crcOk then .crc
  else if f.seq ≠ p.rxseq.toNat then (if notBehind f.seq p.rxseq.toNat then .ahead else .again)
  else if f.ks ≠ w.1 then .auth
  else match SMap.find p.keys (2 + w.1.toNat) with
    | none => .auth
    | some k => match gcmOpen (flitKey k) (flitIv k w.2) (byteNats f.head) (byteNats f.body) (byteNats f.tag) with
      | none => .auth
      | some pl => if f.ftype = 0 || 11 < f.ftype || f.reserved ≠ 0 then .bad else .accept (natsBytes pl)
/-- The device a port joins. -/
def Port.peer (p : Port) : Nat := field p.ctl.toNat 5 1
/-- R395, R397: the receiver after it accepts a flit; the old key goes at the switch point. -/
def Port.take (p : Port) : Port :=
  let w := p.wants p.rxseq.toNat
  { p with
    keys := if w.1 ≠ p.rks then SMap.del p.keys (2 + p.rks.toNat) else p.keys
    rxseq := p.rxseq + 1, rks := w.1, rxic := w.2 + 1, nakked := false
    rswitch := if w.1 ≠ p.rks then none else p.rswitch }
/-- ACK and NAK flits ride the port's own stream. -/
def State.portReply (s : State) (port ftype seq : Nat) : State :=
  if (s.port port).ready then s.updPort port fun p => p.send { ftype := ftype, sdev := s.module.devId, payload := natBytes 232 seq } else s
/-- R395: accept a flit of a type on a port, act on its payload, and acknowledge it. Data: port, 1 when the frame's CRC is correct, the home device
of the target; the flit. -/
def State.acceptFlit (s : State) (ftype : Nat) (act : State → Nat → Flit → List Byte → Option State) : State :=
  let n := s.arg 0
  let p := s.port n
  let f := flitOf s.ev.bytes
  if 64 ≤ n || !p.up || f.ftype ≠ ftype then s
  else match p.fate (s.arg 1 == 1) f with
    | .accept pl => match act (s.updPort n Port.take) p.peer f pl with
      | none => s
      | some t => if ftype = 8 || ftype = 9 then t else t.portReply n 8 f.seq
    | _ => s
/-- R395: a NAK that names the expected sequence number, at most once until it arrives. -/
def State.nak (s : State) (n : Nat) : State :=
  if (s.port n).nakked then s
  else (s.portReply n 9 (s.port n).rxseq.toNat).updPort n fun p => { p with nakked := true }

/-- R395: a flit that is not accepted. Data: port, 1 when the frame's CRC is correct; the flit. -/
def execDiscardedFlit (st : State) : Host.Outcome State Fault Refusal :=
  let n := st.arg 0
  .next <| if 64 ≤ n || !(st.port n).up then st
    else match (st.port n).fate (st.arg 1 == 1) (flitOf st.ev.bytes) with
      | .accept _ => st
      | .crc => (st.updPort n fun p => { p with crcfail := p.crcfail + 1 }).nak n
      | .auth => (st.updPort n fun p => { p with authfail := p.authfail + 1 }).nak n
      | .bad => st.nak n
      | .ahead => st
      | .again => st.portReply n 8 ((st.port n).rxseq - 1).toNat

/-! ## Writes, reads and reductions between devices (R398–R402) -/

/-- What an access meets: at this device's own table, or at a page of another home that is here (R399). -/
def State.reachedAt (s : State) (home : Nat) (l : Loc) (sdev ptag : Nat) (write : Bool) : Remote :=
  if home = s.module.devId then s.atHome l sdev ptag write
  else match SMap.find s.exports (exportKey s.module.devId home (l.addr % 2 ^ 57 / 2 ^ 16)) with
    | none => .refusedEntry
    | some e => if e.loc ≠ s.module.devId then .away home
      else match (s.part e.otag).place (e.frame * 65536 + l.addr % 65536) with
        | some p => .here p
        | none => .dropped
/-- A response's payload: the identity, how it ended, 64 bytes of data, and the frontier (assumption 19). -/
def responsePayload (ident status : Nat) (data : List Byte) (vec : List Nat) : List Byte :=
  natBytes 8 ident ++ natBytes 8 status ++ (data ++ List.replicate (64 - data.length) 0) ++ vec.flatMap (natBytes 4) ++ List.replicate 24 0
/-- R404: the frontier a response carries, its own entry set to a line's newest application number. -/
def State.frontierOf (s : State) (app : Nat) : List Nat :=
  (List.range 32).map fun f => if f = s.module.devId then app else (s.peer f).frontier
/-- Answer a request of a device. -/
def State.respond (s : State) (dev ident status app : Nat) (data : List Byte) : Option State :=
  s.sendFlit dev { ftype := 3, sdev := s.module.devId, payload := responsePayload ident status data (s.frontierOf app) }
/-- The parts of Table 22-4. -/
structure Ordering where
  pseq : Nat
  app : Nat
  target : Nat
  op : Nat
  job : Nat
  chunk : Nat
  data : List Byte
  mask : Nat
  deriving DecidableEq, Repr
def orderingOf (bs : List Byte) : Ordering :=
  let n := bytesNat (bs.take 32)
  { pseq := field n 31 0, app := field n 63 32, target := field n 127 64, op := field n 159 128, job := field n 191 160, chunk := field n 207 192
    data := (bs.drop 32).take 128, mask := bytesNat ((bs.drop 160).take 16) }
/-- The bytes a flit writes, from its target on. -/
def Ordering.cells (o : Ordering) (l : Loc) : List (Loc × Byte) :=
  (List.range 128).filterMap fun i => if o.mask.testBit i then some (⟨l.tt, l.addr + i⟩, o.data.getD i 0) else none
/-- Table 22-4: the operation of an ATOMIC, or of a REDUCE of a lane; those of major 0x29 are written 8 above (assumption 20). -/
def linkRmw (op : Nat) : Rmw := match op % 16 with
  | 0 => .add | 1 => .minI | 2 => .maxI | 3 => .and | 4 => .or | 5 => .xor | 6 => .exch | 7 => .cas | 9 => .minN | 10 => .maxN | 11 => .fadd | _ => .add
def linkRed (op : Nat) : Rmw := match op % 16 with | 6 => .fadd | n => linkRmw n
def opBytes (op : Nat) : Nat := 2 ^ field op 5 4
/-- R401: perform a flit's operation at its place: the old bytes and the state after. -/
def State.performAt (s : State) (ftype : Nat) (o : Ordering) (h : Loc) : List Byte × State :=
  let w := opBytes o.op
  let v := bytesNat (o.data.take w)
  if ftype = 1 || ftype = 10 then
    let cs := o.cells h
    ([], ((s.writeAll cs).clearPoison (cs.map Prod.fst)).forwardWrites cs)
  else if ftype = 5 && o.job ≠ 0 then
    let t := s.writeNum h w (combine (field o.op 3 2) (o.op % 4) (s.readNum h w) v)
    ([], t.forwardWrites (cellsFrom h (natBytes w (t.readNum h w))))
  else
    let r := s.rmwAt (2 ^ 20) h (if ftype = 5 then linkRed o.op else linkRmw o.op) w v (bytesNat ((o.data.drop w).take w))
    (natBytes w r.1, r.2)
/-- A line that a commit or the token holds. -/
def State.heldLine (s : State) (l : Loc) : Bool := l.tt == 0 && s.lineLocked (l.addr / 128)
/-- R203, R401, R402: a write, atomic, reduction or bulk flit at its target: performed here, sent on, refused, dropped or, with none, waiting. The answer
to one performed is owed until every device that holds a copy has applied it. -/
def State.performFlit (s : State) (dev : Nat) (x : Held) : Option State :=
  let o := orderingOf x.payload
  let l := targetLoc x.home o.target
  let ident := 4 * o.pseq + (if x.ftype = 10 then 2 else 1)
  let key := (o.job, o.chunk, o.target)
  match s.reachedAt x.home l x.sdev x.ptag true with
  | .refusedEntry => s.respond dev ident 1 0 []
  | .dropped =>
    (s.respond dev ident 2 0 []).map fun s => s.dropAt { unit := 3, tag := x.ptag, core := x.sdev } (if x.ftype = 1 || x.ftype = 10 then .store else .atomic)
      l o.pseq (if x.ftype = 1 || x.ftype = 10 then (o.cells l).length else opBytes o.op) 0 0 0 0
  | .here h =>
    if s.heldLine h then none
    else if x.ftype = 5 && o.job ≠ 0 && (s.peer dev).records.contains key then s.respond dev ident 0 0 []
    else
      let r := s.performAt x.ftype o h
      let t := if r.2.forwardsOut then some (r.2.updPeer dev fun p => { p with owed := p.owed ++ [(ident, r.2.module.ownApp, r.1)] })
        else r.2.respond dev ident 0 r.2.module.ownApp r.1
      t.map fun t => if x.ftype = 5 && o.job ≠ 0 then t.updPeer dev fun p => { p with records := p.records ++ [key] } else t
  | .away d =>
    if x.ftype = 10 then
      let n := ((s.peer d).cseqOut + 1) % 2 ^ 32
      (s.sendFlit d { ftype := 10, ptag := x.ptag, sdev := x.sdev, payload := natBytes 4 n ++ x.payload.drop 4 }).map fun s =>
        (s.updPeer d fun p => { p with cseqOut := n }).noteAsk d 2 (2 ^ 40 + dev) ident 0 l
    else
      (s.sendOrdering d x.ftype x.ptag x.sdev fun q => natBytes 4 q ++ x.payload.drop 4).map fun s => s.noteAsk d 1 (2 ^ 40 + dev) ident 2 l
/-- R404: a forward is applied to this device's copy. -/
def State.applyForward (s : State) (x : Held) : State :=
  let o := orderingOf x.payload
  { s with copies := (o.cells (targetLoc x.home o.target)).foldl (fun m c => match SMap.find m (c.1.addr / 64) with
    | some v => SMap.put m (c.1.addr / 64) ((v &&& ~~~(BitVec.ofNat 512 (255 * 2 ^ (8 * (c.1.addr % 64))))) ||| BitVec.ofNat 512 (c.2.toNat * 2 ^ (8 * (c.1.addr % 64))))
    | none => m) s.copies }
/-- R399: a read request: 64 bytes of the line, and the reader holds a copy from now on. -/
def State.performRead (s : State) (dev : Nat) (x : Held) : Option State :=
  let n := bytesNat (x.payload.take 16)
  let l := targetLoc x.home (field n 63 0)
  let ident := field n 127 64
  match s.reachedAt x.home l x.sdev x.ptag false with
  | .refusedEntry => s.respond dev ident 1 0 []
  | .dropped => (s.respond dev ident 2 0 []).map fun s => s.dropAt { unit := 3, tag := x.ptag, core := x.sdev } .read l 0 64 0 0 0 0
  | .here h =>
    if h.tt = 0 && (match SMap.find s.locks (h.addr / 128) with | some k => !k.readOnly | none => false) then none
    else
      let unit : Loc := ⟨h.tt, h.addr / 64 * 64⟩
      (s.respond dev ident 0 (SMap.get 0 s.lineApp (h.addr / 128)) (natBytes 64 (s.readNum unit 64))).map fun t =>
        if t.holders.contains (l.addr / 128, x.sdev) then t else { t with holders := t.holders ++ [(l.addr / 128, x.sdev)] }
  | .away d =>
    (s.sendFlit d { ftype := 2, ptag := x.ptag, sdev := x.sdev, payload := natBytes 8 (field n 63 0) ++ natBytes 8 (4 * s.nextId) ++ x.payload.drop 16 }).map
      fun s => s.noteAsk d 0 (2 ^ 40 + dev) ident 1 l

/-! ## Causal order (R400, R403–R405) -/

/-- R405: this device's frontier has reached every entry of the sender's vector but its own. -/
def State.causallyReady (s : State) (dev : Nat) : Bool :=
  (s.peer dev).vector.all fun v => v.1 == s.module.devId || notBehind (s.peer v.1).frontier v.2
/-- R403: a STAMP raises the frontier for the sender and opens a flit batch with its vector. -/
def State.applyStamp (s : State) (dev : Nat) (payload : List Byte) : State :=
  let vec := (List.range 32).map fun f => bytesNat ((payload.drop (4 + 4 * f)).take 4)
  s.updPeer dev fun p => { p with frontier := laterOf (bytesNat (payload.take 4)) p.frontier
                                  vector := (List.range 32).zip vec |>.foldl (fun m x => SMap.set 0 m x.1 x.2) [] }
/-- R400, R403–R405: apply a flit a device has sent; none while it has to wait. -/
def State.applyHeld (s : State) (dev : Nat) (x : Held) : Option State :=
  if x.ftype = 6 then some (s.applyStamp dev x.payload)
  else if x.ftype = 2 then s.performRead dev x
  else if x.ftype = 10 then s.performFlit dev x
  else
    let o := orderingOf x.payload
    if notBehind (s.peer dev).pseqIn o.pseq then some s
    else if !s.causallyReady dev then none
    else (if x.ftype = 1 && o.app ≠ 0 then some (s.applyForward x) else s.performFlit dev x).map fun s =>
      s.updPeer dev fun p => { p with pseqIn := o.pseq }
/-- R405: apply a device's held flits in order; an ordering flit or a STAMP behind one that waits waits too. -/
def State.drainList (s : State) (dev : Nat) (blocked : Bool) : List Held → State × List Held
  | [] => (s, [])
  | x :: t =>
    let ordered : Bool := x.ftype != 2 && x.ftype != 10
    if ordered && blocked then let r := s.drainList dev true t; (r.1, x :: r.2)
    else match s.applyHeld dev x with
      | some s => s.drainList dev blocked t
      | none => let r := s.drainList dev (blocked || ordered) t; (r.1, x :: r.2)
def State.drain (s : State) (dev : Nat) : State :=
  let hs := (s.peer dev).held
  let r := (s.updPeer dev fun p => { p with held := [] }).drainList dev false hs
  r.1.updPeer dev fun p => { p with held := r.2 ++ p.held }
/-- R203: the answers owed are sent once every forward has been applied. -/
def State.payOwed (s : State) : State :=
  if s.forwardsOut then s
  else (s.peers.map Prod.fst).foldl (fun s d => (s.peer d).owed.foldl (fun s x => match s.respond d x.1 0 x.2.1 x.2.2 with
    | some t => t.updPeer d fun p => { p with owed := p.owed.erase x }
    | none => s) s) s
/-- A frontier that rises may free the flits of other devices: once round for each device. -/
def State.drainAll (s : State) : State :=
  (iterate (fun _ s => (s.peers.map Prod.fst).foldl State.drain s) (s.peers.length + 1) 0 s).payOwed
/-- Take a flit into the order of its device. -/
def State.hold (s : State) (dev : Nat) (f : Flit) (payload : List Byte) : Option State :=
  some ((s.updPeer dev fun p => { p with held := p.held ++ [{ ftype := f.ftype, home := s.arg 2, sdev := f.sdev, ptag := f.ptag, payload := payload }] }).drainAll)

/-- R394, R399, R405: a WRITE is applied under the causal rule. Data: port, CRC, home; the flit. -/
def execWrite (st : State) : Host.Outcome State Fault Refusal :=
  .next (st.acceptFlit 1 fun s dev f pl => if (orderingOf pl).app = 0 then s.hold dev f pl else none)

/-- R404, R405: a forward of an applied write. Data: port, CRC, home; the flit. -/
def execForward (st : State) : Host.Outcome State Fault Refusal :=
  .next (st.acceptFlit 1 fun s dev f pl => if (orderingOf pl).app = 0 then none else s.hold dev f pl)

/-- R399: a READREQ is checked and read. Data: port, CRC, home; the flit. -/
def execReadreq (st : State) : Host.Outcome State Fault Refusal := .next (st.acceptFlit 2 fun s dev f pl => s.hold dev f pl)

/-- R401: an ATOMIC is performed once at the frame's place. Data: port, CRC, home; the flit. -/
def execAtomic (st : State) : Host.Outcome State Fault Refusal := .next (st.acceptFlit 4 fun s dev f pl => s.hold dev f pl)

/-- R401, R402: a REDUCE is applied once. Data: port, CRC, home; the flit. -/
def execReduce (st : State) : Host.Outcome State Fault Refusal := .next (st.acceptFlit 5 fun s dev f pl => s.hold dev f pl)

/-- R403: a STAMP. Data: port, CRC; the flit. -/
def execStamp (st : State) : Host.Outcome State Fault Refusal := .next (st.acceptFlit 6 fun s dev f pl => s.hold dev f pl)

/-- R394: bulk copy data. Data: port, CRC, home; the flit. -/
def execChunk (st : State) : Host.Outcome State Fault Refusal := .next (st.acceptFlit 10 fun s dev f pl => s.hold dev f pl)

/-- R402: how a request of this device ended: 0 performed, 1 its entry is not valid, 2 dropped or lost. -/
def State.answered (s : State) (a : Asked) (status : Nat) (data : List Byte) : State :=
  if 2 ^ 42 ≤ a.who then
    let v := (a.who - 2 ^ 42) / 8
    let q := (a.who - 2 ^ 42) % 8
    if a.kind = 1 then (if status = 0 then s else s.updQueue v q fun k => { k with sent := if status = 1 then 4 else 5 })
    else (s.updQueue v q fun k => { k with sent := if k.sent = 1 then (if status = 1 then 3 else 2) else k.sent }).writeRecord v q
  else if 2 ^ 41 ≤ a.who then
    if status = 0 then s
    else s.updJob (a.who - 2 ^ 41) fun j =>
      if j.failed.any fun f => f.1 == a.lane then j
      else { j with failed := j.failed ++ [(a.lane, if status = 1 then cPerm else if status = 3 then cLink else cDropped, 0)] }
  else if 2 ^ 40 ≤ a.who then (s.respond (a.who - 2 ^ 40) a.lane (min status 2) 0 data).getD s
  else if a.lane = postedLane then s
  else s.updCtx a.who fun c => { c with
    answers := SMap.put c.answers a.lane (min status 2, if a.kind = 1 then data.drop (a.addr % 64) else data) }
/-- R403, R404: a READRSP answers a request, and its vector joins this device's knowledge. Data: port, CRC; the flit. -/
def execReadrsp (st : State) : Host.Outcome State Fault Refusal :=
  .next (st.acceptFlit 3 fun s dev _ pl =>
    let ident := bytesNat (pl.take 8)
    let status := bytesNat ((pl.drop 8).take 8)
    let data := (pl.drop 16).take 64
    let vec := (List.range 32).map fun f => bytesNat ((pl.drop (80 + 4 * f)).take 4)
    let s := (List.range 32).zip vec |>.foldl (fun s x =>
      if x.1 = s.module.devId || x.2 = 0 then s else s.updPeer x.1 fun p => { p with knows := laterOf x.2 p.knows }) s
    match (s.peer dev).asks.find? fun a => a.ident == ident with
    | none => some s
    | some a =>
      let s := s.updPeer dev fun p => { p with asks := p.asks.erase a }
      let s := if a.kind = 1 && status = 0 && (a.who < 2 ^ 40 || 2 ^ 42 ≤ a.who) then { s with copies := SMap.put s.copies (a.addr / 64) (BitVec.ofNat 512 (bytesNat data)) } else s
      some (s.answered a status data))

/-! ## Key slots and acknowledgements (R395–R397) -/

/-- R397: a MARKER names the switch point; a second one before it is discarded and counted. Data: port, CRC; the flit. -/
def execMarker (st : State) : Host.Outcome State Fault Refusal :=
  .next (st.acceptFlit 7 fun s _ f pl =>
    let sp := bytesNat (pl.take 4)
    some (s.updPort (s.arg 0) fun p =>
      if p.rswitch.isSome then { p with authfail := p.authfail + 1 }
      else if sp ≠ f.seq && notBehind sp f.seq && notBehind ((f.seq + 256) % 2 ^ 32) sp then { p with rswitch := some sp } else p))

/-- R395, R397: flits up to a number are acknowledged: they leave the buffer, a key no flit in it uses is erased, and a port whose `EN` is 0 goes
down once its buffer is empty. -/
def Port.acked (p : Port) (n : Nat) : Port :=
  let rest := p.replay.filter fun x => !notBehind n x.seq
  let old := (!p.ks).toNat
  let done := p.replay.any (fun x => x.ks != p.ks) && rest.all fun x => x.ks == p.ks
  { p with
    replay := rest
    resent := if rest.length < p.replay.length then 0 else p.resent
    keys := if done then SMap.del p.keys old else p.keys
    up := p.up && (p.ctl.getLsbD 0 || !rest.isEmpty) }
/-- R395: an ACK frees the flits it covers. Data: port, CRC; the flit. -/
def execAck (st : State) : Host.Outcome State Fault Refusal :=
  .next (st.acceptFlit 8 fun s dev _ pl => some (((s.updPort (s.arg 0) fun p => p.acked (bytesNat (pl.take 4))).sendWaiting dev).payOwed))

/-- R400, R402: a port takes over the flits whose order counts that the ports of its group that are down still hold. -/
def State.takeOver (s : State) (n : Nat) : State :=
  let others := (s.ports.filter fun q => q.1 != n && q.2.peer == (s.port n).peer && (q.2.down || !q.2.up)).map Prod.fst
  others.foldl (fun s o =>
    let moved := (s.port o).replay.filter fun x => inOrder x.ftype
    let s := s.updPort o fun q => { q with replay := q.replay.filter fun x => !inOrder x.ftype }
    moved.foldl (fun s x => s.updPort n fun q => q.send { ftype := x.ftype, ptag := x.ptag, sdev := x.sdev, payload := x.payload }) s) s
/-- R402: a port of a group that is not severed fails over. -/
def State.failOver (s : State) (dev : Nat) : State := match s.orderedPort dev with
  | some n => s.takeOver n
  | none => s
/-- R395, R402: a NAK makes the sender resend from a number on; after 16 resendings of one number the port is down, and another of its group takes over.
Data: port, CRC; the flit. -/
def execNak (st : State) : Host.Outcome State Fault Refusal :=
  .next (st.acceptFlit 9 fun s dev _ pl =>
    let p := (s.port (s.arg 0)).acked ((bytesNat (pl.take 4) + 2 ^ 32 - 1) % 2 ^ 32)
    some (if p.replay.isEmpty then s.updPort (s.arg 0) fun _ => p
      else if p.resent = 16 then (s.updPort (s.arg 0) fun _ => { p with down := true }).failOver dev
      else s.updPort (s.arg 0) fun _ => { p with resent := p.resent + 1, retry := p.retry + BitVec.ofNat 64 p.replay.length }))

/-- R397: the transmit key nears its end: a MARKER, or `KEYWAIT`. Data: port. -/
def execKeySwitchThreshold (st : State) : Host.Outcome State Fault Refusal :=
  let n := st.arg 0
  let p := st.port n
  .next <| if 64 ≤ n || !p.up || !p.markerDue then st
    else if !p.nextld then st.updPort n fun p => { p with keywait := true }
    else if 512 ≤ p.replay.length then st
    else st.updPort n fun p => p.mark st.module.devId

/-- R404: 1 µs without a STAMP. Data: device. -/
def execStampTimer (st : State) : Host.Outcome State Fault Refusal := .next ((st.sendStamp (st.arg 0)).getD st)

/-- R396: load the next slots of both directions: two keys with their salts. -/
def Port.loadNext (p : Port) (bs : List Byte) : Port :=
  let key (i : Nat) : BitVec 288 := BitVec.ofNat 288 (bytesNat ((bs.drop (36 * i)).take 36))
  { p with keys := SMap.put (SMap.put p.keys (!p.ks).toNat (key 0)) (2 + (!p.rks).toNat) (key 1), nextld := true, keywait := false }
/-- R400: a peer is lost: what waits for it ends. -/
def State.forgetPeer (s : State) (dev : Nat) : State :=
  let asks := (s.peer dev).asks
  let s := s.updPeer dev fun p => { p with lost := true, asks := [], held := [], waiting := [], records := [], owed := [] }
  let s := { s with copies := s.copies.filter (fun c => c.1 / 2 ^ 51 != dev), holders := s.holders.filter fun h => h.2 != dev }
  let s := asks.foldl (fun s a =>
    let s := s.answered a 3 []
    if a.who < 2 ^ 40 && a.kind ≠ 1 then
      (match s.ctx? a.who with
        | some c => s.dropAt { unit := 0, tag := (s.launch c.launch).tag, core := c.core, ctx := c.id, launch := c.launch
                               lq := (s.launch c.launch).vf * 8 + (s.launch c.launch).q } (if a.kind = 0 then .store else .atomic) ⟨6, a.addr⟩ 0 0 0 c.pc 0 0
        | none => s)
    else s) s
  { s with ports := s.ports.map fun (p : Nat × Port) => if p.2.peer = dev then (p.1, { p.2 with replay := p.2.replay.filter fun x => !ordersFlit x.ftype && x.ftype != 10 }) else p }
/-- R396, R400, R402: the dome controllers' flits: what they agree is the event's data: 1 the next keys, 2 the peer's reset, 3 the release of a
reducing chunk. Data: port, CRC, what, job, chunk; the flit, then for 1 the keys. -/
def execMgmt (st : State) : Host.Outcome State Fault Refusal :=
  .next (st.acceptFlit 11 fun s dev f _ =>
    if f.ptag ≠ 0 then some s
    else match s.arg 2 with
      | 1 => some (s.updPort (s.arg 0) fun p => p.loadNext (s.ev.bytes.drop 256))
      | 2 => some (s.forgetPeer dev).payOwed
      | 3 => some (s.updPeer dev fun p => { p with records := p.records.filter fun r => !(r.1 == s.arg 3 && r.2.1 == s.arg 4) })
      | _ => some s)

/-! ## Training and failover (R392, R400) -/

/-- R392: a port trains: the controllers number the devices and load the current slots of both directions. Data: port, this device's number, the
peer's number; two keys with their salts. -/
def execLinkTraining (st : State) : Host.Outcome State Fault Refusal :=
  let n := st.arg 0
  let p := st.port n
  .next <| if 64 ≤ n || p.up || !p.ctl.getLsbD 0 || p.peer ≠ st.arg 2 || 32 ≤ st.arg 1 then st
    else
      let key (i : Nat) : BitVec 288 := BitVec.ofNat 288 (bytesNat ((st.ev.bytes.drop (36 * i)).take 36))
      (st.updModule fun m => { m with devId := st.arg 1 }).updPort n fun p =>
        { ctl := p.ctl, up := true, retry := p.retry, authfail := p.authfail, crcfail := p.crcfail, keys := [(0, key 0), (2, key 1)] }

/-- R400: a port comes up again: it resends its buffer, and takes over the ordering flits that other ports of a severed group hold. Data: port. -/
def execLinkUp (st : State) : Host.Outcome State Fault Refusal :=
  let n := st.arg 0
  let p := st.port n
  .next <| if 64 ≤ n || !p.ctl.getLsbD 0 || !(p.down || !p.up) || (SMap.find p.keys p.ks.toNat).isNone then st
    else
      let severed := (st.portsTo p.peer).isEmpty
      let s := st.updPort n fun p => { p with up := true, down := false, resent := 0, retry := p.retry + BitVec.ofNat 64 p.replay.length }
      if severed then ((s.takeOver n).sendWaiting p.peer).payOwed else s

/-- Table 22-1: a write of `LK_CTL`; a port whose `EN` becomes 0 keeps its buffer until every flit in it is acknowledged. -/
def State.writeLkCtl (s : State) (n v : Nat) : State :=
  s.updPort n fun p => { p with ctl := BitVec.ofNat 32 (v % 128), up := p.up && (v.testBit 0 || !p.replay.isEmpty) }

/-! ## Pages that move (R407) -/

/-- The entry of a page that is here, by its owner here and its virtual page. -/
def State.pageEntry (s : State) (tag page : Nat) : Option (Nat × Export) :=
  s.exports.find? fun e => e.2.loc == s.module.devId && e.2.otag == tag && e.2.vpage == page
def State.setExport (s : State) (k : Nat) (e : Export) : State := { s with exports := SMap.put s.exports k e }
/-- The TT 6 page of an export key. -/
def State.exportPage (s : State) (k : Nat) : Nat :=
  (if k < 2 ^ 20 then s.module.devId * 2 ^ 57 + k * 2 ^ 16 else (k / 2 ^ 20 - 1) * 2 ^ 57 + k % 2 ^ 20 * 2 ^ 16) / 65536
/-- R407: step 2: no device holds a copy of the page any more. -/
def State.flushCopies (s : State) (k : Nat) : State :=
  let page := s.exportPage k
  { s with holders := s.holders.filter (fun h => h.1 / 512 != page), copies := s.copies.filter fun c => c.1 / 1024 != page }
/-- R407: a page is pinned: the count of its owner's partition here grows once. -/
def State.pinHere (s : State) (k : Nat) (e : Export) : State :=
  let s := s.setExport k { e with pin := true }
  if e.pin then s else s.updPart e.otag fun p => { p with xdPinned := if p.xdPinned = BitVec.allOnes 32 then p.xdPinned else p.xdPinned + 1 }
/-- R407: a move that a supervisor here asked for. -/
def State.moveOut (s : State) (tag : Nat) (v : W64) (room : Bool) (frame : Nat) : State :=
  let page := field v.toNat 56 16
  let target := field v.toNat 4 0
  let done (s : State) (n : Nat) : State := s.updPart tag fun p => { p with xdRunning := none, xdMstat := BitVec.ofNat 32 n }
  let mapped := (match s.walk (s.part tag) (page * 65536) with | .leaf _ e _ => e.testBit 0 | .fault _ _ => false) ||
    (s.part tag).tlb.any fun t => t.lvl == 0 && t.inRange page 1
  if mapped then done s 4
  else match s.pageEntry tag page with
    | none => done s 2
    | some (k, e) =>
      if e.moves = 4 then done (s.pinHere k e) 1
      else if !room then done s 3
      else
        let s := s.flushCopies k
        let s := if k < 2 ^ 20 then s.setExport k { e with loc := target, frame := frame, moves := e.moves + 1 } else { s with exports := SMap.del s.exports k }
        done s 0
/-- R407, R128: a page comes here: a frame of the target partition's pool takes its 64 KiB. -/
def State.moveIn (s : State) (tag home idx vpage moves : Nat) (bs : List Byte) : State :=
  let p := s.part tag
  let left := p.ftpCount.toNat
  if left = 0 || (SMap.find s.parts tag).isNone then s
  else match s.partNum p (p.ftpBase.toNat + 4 * (left - 1)) 4 with
    | none => s
    | some frame => match p.place (frame * 65536) with
      | none => s
      | some h =>
        let s := s.updPart tag fun p => { p with ftpCount := p.ftpCount - 1 }
        let s := (List.range 65536).zip bs |>.foldl (fun s x => s.writeByte ⟨h.tt, h.addr + x.1⟩ x.2) s
        let key := exportKey s.module.devId home idx
        let old := (SMap.find s.exports key).getD {}
        s.setExport key { old with otag := tag, frame := frame, loc := s.module.devId, moves := moves, vpage := vpage }

/-- R407: a page is no longer pinned and has made no move. -/
def State.unpinHere (s : State) (k : Nat) (e : Export) (tag : Nat) : State :=
  let s := s.setExport k { e with pin := false, moves := 0 }
  if e.pin then s.updPart tag fun p => { p with xdPinned := if p.xdPinned = 0 then 0 else p.xdPinned - 1 } else s

/-- R407: a move. Data: 0, partition, 1 when the target's pool has a frame, the frame: the move a supervisor here asked for; 1, index, device, frame:
a move between other devices of a page whose home is here; 2, partition, home, index, page, moves, with the 64 KiB: a page comes here. -/
def execXdMove (st : State) : Host.Outcome State Fault Refusal :=
  .next <| match st.arg 0 with
    | 0 => match (st.part (st.arg 1)).xdRunning with
      | none => st
      | some v => st.moveOut (st.arg 1) v (st.arg 2 == 1) (st.arg 3 % 2 ^ 26)
    | 1 => match SMap.find st.exports (st.arg 1) with
      | some e => if st.arg 1 < 65536 && e.loc ≠ st.module.devId then
          (if e.moves = 4 then st.pinHere (st.arg 1) e
           else st.setExport (st.arg 1) { e with loc := st.arg 2 % 32, frame := st.arg 3 % 2 ^ 26, moves := e.moves + 1 }) else st
      | none => st
    | _ => st.moveIn (st.arg 1) (st.arg 2 % 32) (st.arg 3 % 65536) (st.arg 4) (min 4 (st.arg 5)) st.ev.bytes

/-- R407: `XD_UNPIN` clears a page's PIN and MOVES. Data: partition, value; or 0 and the index of a page whose home is here and which a supervisor of
another device unpins. -/
def execXdUnpin (st : State) : Host.Outcome State Fault Refusal :=
  let tag := st.arg 0
  .next <| match st.pageEntry tag (field (st.arg 1) 56 16), SMap.find st.exports (st.arg 1) with
    | some (k, e), _ => st.unpinHere k e tag
    | none, some e => if tag = 0 && st.arg 1 < 65536 && e.loc ≠ st.module.devId then st.unpinHere (st.arg 1) e e.otag else st
    | none, none => st

end Sys2Proof.Machine
end

