-- ==== Sys2Proof/Machine/EvQueue.lean ====
section
/-!
DEFINITION. Queues and their packets: the queue registers (18 R329, R330, R334) and WAIT, SIGNAL, MARK and RESHAPE_ACK (18 R335, R336), with
the periods and slices of the budgets (18 R337, R338).
-/

namespace Sys2Proof.Machine

/-! ## Queue registers -/

/-- R368, R370: host writes to a VF's MMIO are taken while it is bound and not in ERROR. -/
def State.vfTakes (s : State) (v : Nat) : Bool := (s.vf v).tag != 0 && (s.vf v).tdi != 3
/-- R329: the transit threads in use. -/
def State.threadsUsed (s : State) : List Nat := s.vfs.flatMap fun v => v.2.queues.filterMap fun q => q.2.thread

/-- R330: the producer index; more packets than the ring holds halt the queue. -/
def State.writeProd (s : State) (v q : Nat) (n : W32) : State :=
  s.updQueue v q fun k =>
    let k := { k with prod := n }
    if k.en && k.qsize != 0 && decide (2 ^ k.qsize < (n - k.cons).toNat) && k.launch = 0 && k.packet.isNone then
      { k with last := 14, run := false, halted := true }
    else k
/-- R329: set or clear `EN`. -/
def State.writeEn (s : State) (v q : Nat) (on : Bool) : State :=
  let k := (s.vf v).queue q
  if on then
    if k.en then s.updQueue v q fun k => { k with closing := false }
    else match (List.range 512).find? fun t => !s.threadsUsed.contains t with
      | some t => s.updQueue v q fun k => { k with en := true, thread := some t, nothread := false }
      | none => s.updQueue v q fun k => { k with nothread := true }
  else if !k.en then s
  else if k.launch ≠ 0 then s.updQueue v q fun k => { k with closing := true }
  else s.updQueue v q fun k => { k with en := false, thread := none, packet := none, blocked := false, gated := false, ticks := 0 }
/-- R330, R331: hold the queue, or clear a halt and write a record that is still due. -/
def State.writeRun (s : State) (v q : Nat) (on : Bool) : State :=
  if on then (s.updQueue v q fun k => { k with run := true, halted := false }).writeRecord v q
  else s.updQueue v q fun k => { k with run := false }
/-- R334: end the running launch. -/
def State.writeAbort (s : State) (v q : Nat) (on : Bool) : State :=
  let l := ((s.vf v).queue q).launch
  if on && l ≠ 0 then s.endLaunch l else s
/-- Table 18-2: a write of the whole register. -/
def State.writeQctl (s : State) (v q n : Nat) : State :=
  let s := s.updQueue v q fun k => { k with hoe := n.testBit 2, qsize := field n 7 4, prio := field n 10 8, irq := n.testBit 11 }
  ((s.writeEn v q (n.testBit 0)).writeRun v q (n.testBit 1)).writeAbort v q (n.testBit 3)

/-- R330: the host writes the producer index. Data: VF, queue, value. -/
def execQProdWrite (st : State) : Host.Outcome State Fault Refusal :=
  .next (if st.vfTakes (st.arg 0) && st.arg 1 < 8 then st.writeProd (st.arg 0) (st.arg 1) (BitVec.ofNat 32 (st.arg 2)) else st)

/-- R329: `EN` is set, which assigns a transit thread, or cleared. Data: VF, queue, value. -/
def execQCtlEn (st : State) : Host.Outcome State Fault Refusal :=
  .next (if st.vfTakes (st.arg 0) && st.arg 1 < 8 then st.writeEn (st.arg 0) (st.arg 1) (st.arg 2 % 2 == 1) else st)

/-- R330: `RUN` is written. Data: VF, queue, value. -/
def execQCtlRun (st : State) : Host.Outcome State Fault Refusal :=
  .next (if st.vfTakes (st.arg 0) && st.arg 1 < 8 then st.writeRun (st.arg 0) (st.arg 1) (st.arg 2 % 2 == 1) else st)

/-- R334: `ABORT` is written. Data: VF, queue, value. -/
def execQCtlAbort (st : State) : Host.Outcome State Fault Refusal :=
  .next (if st.vfTakes (st.arg 0) && st.arg 1 < 8 then st.writeAbort (st.arg 0) (st.arg 1) (st.arg 2 % 2 == 1) else st)

/-! ## WAIT (R335) -/

/-- R335, R336: the place of a packet's word: aligned, on a TT 0 or TT 5 page. -/
def State.packetWord (s : State) (v va w : Nat) (acc : Acc) : Option Loc :=
  if va % w ≠ 0 then none
  else match s.frontPlace (s.vf v).tag v acc va with
    | some x => if x.loc.tt = 0 || x.loc.tt = 5 then some x.loc else none
    | none => none
/-- R297: the word of a packet lies on a line that a commit holds. -/
def State.packetLocked? (s : State) (v p : Nat) : Bool := match s.packetWord v (field p 120 64) (if p.testBit 11 then 8 else 4) .engineRead with
  | some l => l.tt == 0 && s.prepareLocked (l.addr / 128)
  | none => false
/-- R335: one read of a WAIT's word: its value and whether the condition holds; none when its address fails or its word is poisoned. -/
def State.waitRead (s : State) (v p : Nat) : Option (Nat × Bool) :=
  let cond := field p 10 8
  if cond = 5 then
    let n := (SMap.get 0 (s.part (s.vf v).tag).events (field p 17 12)).toNat
    some (n, decide (field p 191 128 ≤ n))
  else
    let w := if p.testBit 11 then 8 else 4
    match s.packetWord v (field p 120 64) w .engineRead with
    | none => none
    | some l => if s.isPoisoned l || s.isPoisoned (l.plus (w - 4)) then none else
      let raw := if s.frontTakes v { loc := l, home := 0 } then s.readNum l w else 0
      let m := field p 255 192 % 2 ^ (8 * w)
      let val := field p 191 128 % 2 ^ (8 * w)
      let x := raw &&& m
      some (raw, match cond with
        | 0 => x == val
        | 1 => x != val
        | 2 => decide (val ≤ x)
        | 3 => decide (x < val)
        | _ => x != 0)
/-- R335: test a WAIT: done, untranslatable, or still blocked; at its last tick it ends with TIMEOUT. -/
def State.waitTest (s : State) (v q p : Nat) (last : Bool) : State :=
  if field p 10 8 ≠ 5 && s.packetLocked? v p then s
  else match s.waitRead v p with
  | none => s.complete v q 11 2 ((s.vf v).queue q).seen
  | some (n, ok) =>
    if ok then s.complete v q 0 2 (BitVec.ofNat 64 n)
    else if last then s.complete v q 10 2 (BitVec.ofNat 64 n)
    else s.updQueue v q fun k => { k with seen := BitVec.ofNat 64 n }

/-- R335: a WAIT packet blocks its thread until its word's condition holds. Data: VF, queue. -/
def execWaitPacket (st : State) : Host.Outcome State Fault Refusal :=
  let v := st.arg 0
  let q := st.arg 1
  .next <| st.servePacket v q 2 fun s p =>
    if ((st.vf v).queue q).blocked then s
    else (s.updQueue v q fun k => { k with blocked := true, ticks := field p 287 256, seen := 0 }).waitTest v q p false

/-- R335: a write at the word, or a tick, makes a blocked WAIT read again. Data: VF, queue. -/
def execWaitRecheck (st : State) : Host.Outcome State Fault Refusal :=
  let v := st.arg 0
  let q := st.arg 1
  .next <| st.servePacket v q 2 fun s p =>
    let k := (st.vf v).queue q
    if k.blocked && (k.ticks != 0 || field p 287 256 == 0) then s.waitTest v q p false else st

/-- R335: the ticks of a WAIT have passed. Data: VF, queue. -/
def execWaitTimeout (st : State) : Host.Outcome State Fault Refusal :=
  let v := st.arg 0
  let q := st.arg 1
  .next <| st.servePacket v q 2 fun s p =>
    let k := (st.vf v).queue q
    if k.blocked && k.ticks = 0 && field p 287 256 ≠ 0 then s.waitTest v q p true else st

/-! ## SIGNAL, MARK and RESHAPE_ACK (R336) -/

/-- R336: store or add, then the event counter, then the interrupt. Data: VF, queue. -/
def execSignalPacket (st : State) : Host.Outcome State Fault Refusal :=
  let v := st.arg 0
  let q := st.arg 1
  .next <| st.servePacket v q 3 fun s p =>
    let op := field p 9 8
    let w := if p.testBit 10 then 8 else 4
    let val := field p 191 128 % 2 ^ (8 * w)
    let rest (s : State) (data : Nat) : State :=
      let s := if p.testBit 12 then s.updPart (s.vf v).tag fun x =>
        { x with events := SMap.set 0 x.events (field p 18 13) (SMap.get 0 x.events (field p 18 13) + 1) } else s
      (s.queueIrq v q (p.testBit 11)).complete v q 0 3 (BitVec.ofNat 64 data)
    if op = 2 then rest s 0
    else match s.packetWord v (field p 120 64) w (if op = 1 then .atomic true else .engineWrite) with
      | none => s.complete v q 11 3 0
      | some l =>
        if l.tt = 0 && s.lineLocked (l.addr / 128) then st
        else
          let old := s.readNum l w
          let cells := cellsFrom l (natBytes w (if op = 0 then val else (old + val) % 2 ^ (8 * w)))
          let t := if s.frontTakes v { loc := l, home := 0 } then ((s.writeAll cells).clearPoison (cells.map Prod.fst)).forwardWrites cells else s
          rest t (if op = 0 then 0 else old)

/-- R336: record the tag, then the interrupt. Data: VF, queue. -/
def execMarkPacket (st : State) : Host.Outcome State Fault Refusal :=
  let v := st.arg 0
  let q := st.arg 1
  .next <| st.servePacket v q 4 fun s p => s.complete v q 0 4 (BitVec.ofNat 64 (field p 127 64))

/-- R336: wait for an even generation of at least `GEN`, then replace the target launch's placement table. Data: VF, queue. -/
def execReshapeAck (st : State) : Host.Outcome State Fault Refusal :=
  let v := st.arg 0
  let q := st.arg 1
  .next <| st.servePacket v q 5 fun s p =>
    let x := s.vf v
    let l := (x.queue (field p 10 8)).launch
    let gen := (s.part x.tag).gen.toNat
    if l = 0 then s.complete v q 13 5 0
    else if gen < field p 127 64 || gen % 2 = 1 then s
    else if field p 184 128 = 0 then s.complete v q 0 5 (BitVec.ofNat 64 gen)
    else match s.frontWaits v q [(field p 184 128, 8 * min 4096 (field p 204 192))], s.readPlaces v q (field p 184 128) (field p 204 192) with
      | some s, _ => s
      | none, none => s.complete v q 3 5 (BitVec.ofNat 64 gen)
      | none, some places =>
        if (s.coreFor x.tag places 0).isNone then s.complete v q 4 5 (BitVec.ofNat 64 gen)
        else (s.updLaunch l fun k => { k with places := places }).complete v q 0 5 (BitVec.ofNat 64 gen)

/-! ## Periods and slices (R337, R338) -/

/-- R337: a remainder saturates at −2^31. -/
def floorLeft (x : Int) : Int := max (-(2 ^ 31)) x
/-- R338: the end of a slice of one VF: with a spent budget its running blocks are pre-empted. -/
def State.sliceEnd (s : State) (v : Nat) : State :=
  let x := s.vf v
  if x.tag = 0 || x.funded then s
  else
    let bs := (s.blocks.filter fun b => (s.launch b.2.launch).vf == v && b.2.st == .resident && (SMap.find s.launches b.2.launch).isSome &&
      !(s.allCtxs.any fun c => c.block == b.1 && c.kind != .none && (c.preempt || c.stopped))).map Prod.fst
    if bs.isEmpty then s
    else (bs.foldl State.requestPreempt s).updVf v fun x => { x with stopped := true, preempts := x.preempts + 1 }

/-- R338: a slice of a VF ends; the last one of a period ends with it, after the refill. Data: VF. -/
def execSliceEnd (st : State) : Host.Outcome State Fault Refusal :=
  let x := st.vf (st.arg 0)
  .next (if st.module.ticks % max 1 x.slice = 0 && st.module.ticks ≠ 0 && st.module.ticks < 1000 then st.sliceEnd (st.arg 0) else st)

/-- R337, R338: a period of 1,000 ticks ends: the budgets refill, then each VF's slice ends, and funded work may resume. -/
def execPeriodBoundary (st : State) : Host.Outcome State Fault Refusal :=
  .next <| if st.module.ticks < 1000 then st
    else
      let s := st.updModule fun m => { m with ticks := 0 }
      let vs := s.vfs.map Prod.fst
      let s := vs.foldl (fun s v => s.updVf v fun x =>
        { x with tLeft := floorLeft (x.tBudget.toNat + min x.tLeft 0), eLeft := floorLeft (1000 * (x.eBudget.toNat : Int) + min x.eLeft 0) }) s
      vs.foldl (fun s v => if (s.vf v).funded then s.updVf v fun x => { x with stopped := false, queues := x.queues.map fun (q : Nat × Queue) => (q.1, { q.2 with gated := false }) }
        else s.sliceEnd v) s

end Sys2Proof.Machine
end

