-- ==== Sys2Proof/Machine/EvPower.lean ====
section
/-!
DEFINITION. Clock columns, boost permits and grants (17 R323; 19 R350–R353), the photometer (19 R356–R358), the sensors (19 R359), the
power controls (19 R354, R355) and the transit tick (18 R337).
-/

namespace Sys2Proof.Machine

/-! ## Sensors (R359) -/

/-- R359: the sensor's range. -/
def clampTemp (n : Nat) : BitVec 16 := BitVec.ofInt 16 (max (-640) (min 2400 (signedNat 16 n)))

/-- R359: a tile reads its sensors and the maxima over it follow. Data: tile, then the reading of each slot. -/
def execSensorRead (st : State) : Host.Outcome State Fault Refusal :=
  let t := st.arg 0
  .next <| if (st.tile t).owner = 0 || (st.tile t).gated then st
    else
      let temps : SMap (BitVec 16) := (List.range 16).foldl (fun m i => match st.ev.args[i + 1]? with
        | some v => SMap.put m i (clampTemp v)
        | none => m) (st.tile t).temps
      (st.updTile t fun x => { x with temps := temps }).rezen t (st.tile t).owner

/-! ## The photometer (R356, R357) -/

/-- R356: the coefficient of a kind in a field: the one the dome controller has written, or that of manufacture. -/
def State.coef (s : State) (f kind : Nat) : Nat := (SMap.find (s.fld f).coefs kind).getD (Config.photoCoeff (f * 24 + kind)).toNat
/-- Counts of the kinds the model does not follow (17 to 22): free values (assumption 7). -/
def State.freeCount (s : State) (tile key kind : Nat) : Nat := (Config.freeWord (Nat.pair s.oracle (Nat.pair tile (key * 32 + kind)))).toNat
/-- The energy, in fJ, of one accumulator's events on a tile; `key` is the VF + 1, or 0 for the partition alone. -/
def State.foldEnergy (s : State) (t key : Nat) : Nat :=
  let f := fieldOfTile t
  let cs := (s.tile t).counts
  ((List.range 17).map fun k => SMap.get 0 cs (key * 32 + k) * s.coef f k).sum + (([17, 18, 19, 20, 21, 22].map fun k => s.freeCount t key k * s.coef f k).sum) +
    (if key = 0 then s.coef f 23 else 0)
/-- R356: an accumulator and its remainder after some energy: the new pair and the microjoules that moved. -/
def foldAcc (acc : W64) (rem fj : Nat) : W64 × Nat × Nat :=
  let n := (rem + fj) / 10 ^ 9
  (BitVec.ofNat 64 (min (acc.toNat + n) (2 ^ 64 - 1)), (rem + fj) % 10 ^ 9, n)
/-- R356: fold a tile's counts into its partition's and its VFs' accumulators. -/
def State.foldTile (s : State) (t : Nat) : State :=
  let tag := (s.tile t).owner
  let vs := (s.vfs.filter fun v => v.2.tag == tag).map Prod.fst
  let energy := vs.map fun v => (v, s.foldEnergy t (v + 1))
  let total := (energy.map Prod.snd).sum + s.foldEnergy t 0
  let s := energy.foldl (fun s e => s.updVf e.1 fun x =>
    let r := foldAcc x.acc x.rem e.2
    { x with acc := r.1, rem := r.2.1, tickEnergy := x.tickEnergy + r.2.2, eLeft := if x.eBudget = 0 then x.eLeft else floorLeft (x.eLeft - r.2.2) }) s
  let s := s.updPart tag fun p =>
    let r := foldAcc p.phAcc p.phRem total
    { p with phAcc := r.1, phRem := r.2.1 }
  { s.updTile t fun x => { x with counts := [] } with oracle := s.oracle + 1 }

/-- R358: reading a low half latches the view's shadow. Data: 0 for a partition or 1 for a VF, its number, the view 0 S, 1 H, 2 M; a VF's
accumulator has no S view. -/
def execEnergyLoRead (st : State) : Host.Outcome State Fault Refusal :=
  let n := st.arg 1
  .next <| if st.arg 0 = 0 then
      st.updPart n fun p =>
        let hi : W32 := p.phAcc.extractLsb' 32 32
        match st.arg 2 with
        | 0 => { p with phShadowS := hi }
        | 1 => { p with phShadowH := hi }
        | 2 => { p with phShadowM := hi }
        | _ => p
    else st.updVf n fun x =>
        let hi : W32 := x.acc.extractLsb' 32 32
        match st.arg 2 with
        | 1 => { x with shadowH := hi }
        | 2 => { x with shadowM := hi }
        | _ => x

/-! ## Requests and columns (R350–R352) -/

/-- The VFs with a resident block on a core. -/
def State.coreVfs (s : State) (core : Nat) : List Nat :=
  dedup ((s.blocks.filter fun b => b.2.core == core && b.2.st == .resident).map fun b => (s.launch b.2.launch).vf)
/-- The groups and contexts resident on a core. -/
def State.coreCtxs (s : State) (core : Nat) : List Ctx := s.allCtxs.filter fun c => c.core == core && c.kind != .none && c.resident && !c.ended && !c.stopped
/-- R350, R355: a core requests boost. -/
def State.wantsBoost (s : State) (core : Nat) : Bool :=
  let vs := s.coreVfs core
  !(vs.any fun v => (s.vf v).overCap) &&
    ((vs.any fun v => (s.vf v).boostPref == 2) || (s.coreCtxs core).any fun c => c.breq && (s.vf (s.launch c.launch).vf).boostPref != 0)
/-- R352: near-threshold holds for a core. -/
def State.nearThreshold (s : State) (core : Nat) : Bool :=
  let cs := s.coreCtxs core
  let al := (s.coreVfs core).map fun v => (s.vf v).ntAllow.toNat
  let k := s.core core
  cs.any Ctx.isGroup && cs.all (fun c => c.nreq) && al.all (· ≠ 0) && decide (al.foldl max 0 * k.steps ≤ 16 * k.stalled)

/-- R323, R353, R352: what the end of an interval does to one tile: the permit charged or regained, the near-threshold count, the energy
fold and the matrix islands. The second part says that the permits reached 0 here. A request that stands as an interval begins counts in it, though it
is withdrawn before its end. -/
def State.closeInterval (s : State) (t : Nat) : State × Bool :=
  let x := s.tile t
  let cs := coresOf t
  let boosted : Bool := cs.any fun c => (s.core c).boosted
  let busy : Bool := x.requested || cs.any fun c => s.wantsBoost c || (s.coreCtxs c).any fun k => k.breq
  let permits := if boosted then x.permits - 1 else if !busy && x.idle = 1 then min 64 (x.permits + 1) else x.permits
  let s := s.updTile t fun x => { x with
    permits := permits
    boostIvs := if boosted then x.boostIvs + 1 else x.boostIvs
    idle := if busy then 0 else (x.idle + 1) % 2
    requested := cs.any fun c => s.wantsBoost c || (s.coreCtxs c).any fun k => k.breq
    granted := false }
  let s := cs.foldl (fun s c => s.updCore c fun k =>
    let wake : Bool := k.pending.any fun b => (s.launch (s.block b).launch).seq != 0
    { k with
      ntIvs := if k.setpt = 3 then k.ntIvs + 1 else k.ntIvs
      engine := { k.engine with retained := k.engine.holder == 0 && !wake && (k.engine.retained || k.engine.unclaimed), unclaimed := k.engine.holder == 0 } }) s
  (s.foldTile t, boosted && x.permits = 1)
/-- R351, R360, R409: a tile may be granted boost at this boundary. -/
def State.grantable (s : State) (t : Nat) : Bool :=
  let x := s.fld (fieldOfTile t)
  (coresOf t).any s.wantsBoost && 1 ≤ (s.tile t).permits && !(zenValid x.zen && x.thermLim.toInt ≤ zenTemp x.zen) && !x.noGrant
/-- R351: free grant slots of a field. -/
def State.freeGrants (s : State) (f : Nat) : Nat :=
  (s.fld f).headroom - ((List.range 648).filter fun t => fieldOfTile t == f && (s.tile t).granted).length
/-- R323: a is granted before b: less recently granted, then more permits, then field order. -/
def State.grantsFirst (s : State) (a b : Nat) : Bool :=
  let x := s.tile a
  let y := s.tile b
  decide (x.lastGrant < y.lastGrant) || (x.lastGrant == y.lastGrant && (decide (y.permits < x.permits) || (x.permits == y.permits && decide (a ≤ b))))
/-- R323, R351: one grant of a field among the tiles whose boundary this is, the n-th of the field's with a grant: tiles granted at one boundary were
granted equally recently. -/
def State.grantOne (s : State) (f n : Nat) (ts : List Nat) : State :=
  let cand := ts.filter fun t => fieldOfTile t == f && !(s.tile t).granted && s.grantable t
  match (if s.freeGrants f = 0 then none else cand.find? fun t => cand.all fun u => s.grantsFirst t u) with
  | none => s
  | some t => (s.updTile t fun x => { x with granted := true, lastGrant := n }).updFld f fun x => { x with grants := n }
/-- R350, R409: the column of a core for the coming interval. -/
def State.column (s : State) (core : Nat) (nt spent : Bool) : Nat :=
  let t := tileOfCore core
  if (s.fld (fieldOfTile t)).throttled || nt then 3
  else if s.wantsBoost core && (s.tile t).granted then 0
  else if spent && (s.core core).boosted then 1
  else 2

/-- R323, R347, R350–R353, R356: a boost interval of some tiles whose boundaries coincide ends and the next begins. Data: the tiles. -/
def execBoostIntervalBoundary (st : State) : Host.Outcome State Fault Refusal :=
  let ts := dedup (st.ev.args.filter fun t => decide (t < 648) && (st.tile t).owner != 0 && !(st.tile t).gated)
  let nts := ts.flatMap fun t => (coresOf t).filter st.nearThreshold
  let r := ts.foldl (fun (a : State × List Nat) t => let b := a.1.closeInterval t; (b.1, if b.2 then a.2 ++ [t] else a.2)) (st, [])
  let s := (dedup (ts.map fieldOfTile)).foldl (fun s f => let n := (s.fld f).grants + 1; iterate (fun _ s => s.grantOne f n ts) 9 0 s) r.1
  .next ((ts.flatMap coresOf).foldl (fun s c =>
    let col := s.column c (nts.contains c) (r.2.contains (tileOfCore c))
    s.updCore c fun k => { k with setpt := col, steps := 0, stalled := 0, boosted := false }) s)

/-! ## Power controls (R354) -/

/-- R354: a value saturated into a range. -/
def intoRange (rng : W32) (n : Nat) : Nat := min (max n (field rng.toNat 15 0)) (field rng.toNat 31 16)
/-- Table 19-5: the own limits of control 0 to 3. -/
def controlLimits : Nat → Nat × Nat
  | 0 => (0, 0xFFFF)
  | 1 => (0, 2)
  | 2 => (0, 15)
  | _ => (1, 128)
def VF.control (x : VF) : Nat → W32
  | 0 => x.pwrCap
  | 1 => x.boostPref
  | 2 => x.ntAllow
  | _ => x.slopeReq
def VF.range (x : VF) : Nat → W32
  | 0 => x.pwrRng
  | 1 => x.boostRng
  | 2 => x.ntRng
  | _ => x.slopeRng
def VF.setControl (x : VF) (k : Nat) (v : W32) : VF := match k with
  | 0 => { x with pwrCap := v }
  | 1 => { x with boostPref := v }
  | 2 => { x with ntAllow := v }
  | _ => { x with slopeReq := v }
def VF.setRange (x : VF) (k : Nat) (v : W32) : VF := match k with
  | 0 => { x with pwrRng := v }
  | 1 => { x with boostRng := v }
  | 2 => { x with ntRng := v }
  | _ => { x with slopeRng := v }
/-- R354: a write to a control. -/
def VF.writeControl (x : VF) (k n : Nat) : VF :=
  let w := n % 65536
  let v := intoRange (x.range k) w
  { x.setControl k (BitVec.ofNat 32 v) with
    clamps := if v = w || x.clamps = BitVec.allOnes 32 then x.clamps else x.clamps + 1 }
/-- R354: a write to a range saturates its control at once. -/
def VF.writeRange (x : VF) (k n : Nat) : VF :=
  let l := controlLimits k
  let sat (v : Nat) : Nat := min (max v l.1) l.2
  let r : W32 := BitVec.ofNat 32 (sat (field n 15 0) + sat (field n 31 16) * 65536)
  let x := x.setRange k r
  x.setControl k (BitVec.ofNat 32 (intoRange r (x.control k).toNat))

/-- R354: a write to a power control. Data: VF, control 0 to 3 in the order of Table 19-5, value. -/
def execPowerControlWrite (st : State) : Host.Outcome State Fault Refusal :=
  .next (if st.vfTakes (st.arg 0) && st.arg 1 < 4 then st.updVf (st.arg 0) fun x => x.writeControl (st.arg 1) (st.arg 2) else st)

/-- R354: a write to a range register, through the PF. Data: VF, control, value. -/
def execPowerRangeWrite (st : State) : Host.Outcome State Fault Refusal :=
  .next (if st.vfTakes (st.arg 0) && st.arg 1 < 4 then st.updVf (st.arg 0) fun x => x.writeRange (st.arg 1) (st.arg 2) else st)

/-! ## The transit tick (18 R337; 19 R355) -/

/-- R335, R337, R338, R355: a tick of 10 µs: cores are charged, blocked WAITs count down, and the energy of the tick decides who is over cap. What the
tick brings comes next: the WAITs read again or time out, and slices, or the period, end. The dome timer's own ticks are a free value (assumption 1). -/
def execTransitTick (st : State) : Host.Outcome State Fault Refusal :=
  .next <| if 1000 ≤ st.module.ticks then st
    else
      let charged (v : Nat) : Nat := (st.cores.filter fun k => k.2.issuedTick.contains v).length
      let s := (st.vfs.map Prod.fst).foldl (fun s v =>
        let n := charged v
        s.updVf v fun x => { x with
          tLeft := if x.tBudget = 0 then x.tLeft else floorLeft (x.tLeft - n)
          overCap := x.pwrCap != 0 && decide (10 * x.pwrCap.toNat < x.tickEnergy)
          tickEnergy := 0
          queues := x.queues.map fun q => (q.1, if q.2.blocked then { q.2 with ticks := q.2.ticks - 1 } else q.2) }) st
      let s := (st.cores.map Prod.fst).foldl (fun s c => s.updCore c fun k => { k with issuedTick := [] }) s
      let n := st.module.ticks + 1
      let waits := st.vfs.flatMap fun v => (v.2.queues.filter fun q => q.2.blocked).map fun q =>
        Move.ev (if q.2.ticks = 1 then .waitTimeout else .waitRecheck) ⟨[v.1, q.1], []⟩
      let ends := if n = 1000 then [Move.ev .periodBoundary ⟨[], []⟩]
        else (s.vfs.filter fun v => n % max 1 v.2.slice == 0 && v.2.tag != 0 && !v.2.funded).map fun v => .ev .sliceEnd ⟨[v.1], []⟩
      { s.updModule fun m => { m with ticks := n, domeTimer := m.domeTimer + Config.freeWord (Nat.pair s.oracle 218) } with
        oracle := s.oracle + 1, agenda := waits ++ ends ++ st.agenda }

end Sys2Proof.Machine
end

