-- ==== Sys2Proof/Machine/EvModule.lean ====
section
/-!
DEFINITION. Resets of the module, boot and measurement (21 R375; 23 R408–R412), the field controllers (23 R409) and the drop log's tail
(23 R414). An event whose condition does not hold changes nothing (assumption 2).
-/

namespace Sys2Proof.Machine

/-! ## Reset and boot (21 R375; 23 R410–R412) -/

/-- What the reset sequence finds: failed signature checks, the security versions of the four images, and degraded tiles (below 648) and
fields (from 648 on); then the four images' digests and the digest of the fuse configuration. -/
structure Boot where
  badSigs : Nat
  svns : List Nat
  degraded : List Nat
  digests : List (List Byte)
  deriving DecidableEq, Repr
def State.bootOf (s : State) : Boot :=
  { badSigs := s.arg 0, svns := (List.range 4).map fun i => s.arg (1 + i), degraded := s.ev.args.drop 5
    digests := (List.range 5).map fun i => (s.ev.bytes.drop (64 * i)).take 64 }
/-- R375: a check fails: a signature, or a security version below its fuse counter. -/
def Boot.fails (b : Boot) (fuses : SMap Nat) : Bool :=
  b.badSigs != 0 || (List.range 4).any fun k => decide (b.svns.getD k 0 < SMap.get 0 fuses k)
/-- R375: the first image whose check fails; 5 when none does. -/
def Boot.firstBad (b : Boot) (fuses : SMap Nat) : Nat :=
  ((List.range 4).find? fun k => b.badSigs.testBit k || decide (b.svns.getD k 0 < SMap.get 0 fuses k)).getD (if b.badSigs = 0 then 5 else 4)
/-- R375: the measurement registers: M(k) := SHAKE256(M(k) ‖ D), from zero, up to the image that fails; M4 with the fuse configuration. -/
def Boot.measure (b : Boot) (fuses : SMap Nat) : SMap (BitVec 512) :=
  (List.range (b.firstBad fuses)).foldl (fun m k => SMap.set 0 m k (BitVec.ofNat 512 (bytesNat (shake256 (List.replicate 64 0 ++ b.digests.getD k []) 64)))) []
/-- R410–R412: the module after a reset with a cause: the fuses, the contents of HBM and the world outside stay. -/
def State.resetWith (s : State) (cause : Nat) : State :=
  let b := s.bootOf
  let bad := b.fails s.module.fuses
  let m : Module := { ready := !bad, recovery := bad, cause := cause, fuses := s.module.fuses, meas := b.measure s.module.fuses
                      svns := (List.range 4).foldl (fun m k => SMap.set 0 m k (b.svns.getD k 0)) [] }
  let t : State := { State.reset with
    hbm := s.hbm, host := s.host, module := m, oracle := s.oracle, nextId := s.nextId, agenda := s.agenda
    tiles := ((b.degraded.filter (· < 648)).foldl (fun m t => SMap.put m t ({ degraded := true } : Tile)) [])
    fields := ((b.degraded.filter fun t => 648 ≤ t && t < 720).foldl (fun m f => SMap.put m (f - 648) ({ degraded := true } : Field)) []) }
  t

/-- R410: power-on. Data: what the reset sequence finds. -/
def execPowerOn (st : State) : Host.Outcome State Fault Refusal := .next (st.resetWith 1)
/-- R410: the module reset pin. Data: what the reset sequence finds. -/
def execResetPin (st : State) : Host.Outcome State Fault Refusal := .next (st.resetWith 2)
/-- R410: a write of `MOD_RESET`. Data: what the reset sequence finds, with the value written in the first place. -/
def execModResetWrite (st : State) : Host.Outcome State Fault Refusal :=
  .next (if st.arg 0 = 0x52530001 then { st with ev := { st.ev with args := st.ev.args.drop 1 } }.resetWith 3 else st)
/-- R408: the input has stayed below 42 V for 1 ms. Data: what the reset sequence finds. -/
def execUndervolt (st : State) : Host.Outcome State Fault Refusal := .next (st.resetWith 6)
/-- R409: the coolant has stayed outside its limits for 1 s. Data: what the reset sequence finds. -/
def execCoolantFault (st : State) : Host.Outcome State Fault Refusal := .next ((st.updModule fun m => { m with coolFault := true }).resetWith 5)
/-- R410: the lockstep cores disagree. Data: what the reset sequence finds. -/
def execLockstep (st : State) : Host.Outcome State Fault Refusal := .next (st.resetWith 7)
/-- R375, R410: the recovery loader accepts one signed image over PF 0 and the module resets. Data: what the reset sequence finds. -/
def execRecoveryImage (st : State) : Host.Outcome State Fault Refusal := .next (if st.module.recovery then st.resetWith 8 else st)

/-! ## Field samples (R409) -/

/-- R409: a sample of a field's current. Data: field, amperes, the inlet in 1/16 °C and the flow in 0.1 L/min (both 0 when not sampled), the
input in mV and the power in W (0 when not sampled), then what the reset sequence finds should the module reset. -/
def execFieldCurrentSample (st : State) : Host.Outcome State Fault Refusal :=
  let f := st.arg 0
  let a := st.arg 1
  let x := st.fld f
  let zen (lim : BitVec 16) : Bool := zenValid x.zen && decide (lim.toInt ≤ zenTemp x.zen)
  let s := st.updModule fun m => { m with
    coolTemp := if st.arg 2 = 0 then m.coolTemp else st.arg 2 % 2 ^ 12
    coolFlow := if st.arg 3 = 0 then m.coolFlow else st.arg 3 % 2 ^ 12
    vin := if st.arg 4 = 0 then m.vin else st.arg 4 % 2 ^ 16
    pinW := if st.arg 5 = 0 then m.pinW else st.arg 5 % 2 ^ 24 }
  .next <| if 72 ≤ f then st
    else if zen s.module.thermCrit then { s with ev := { s.ev with args := s.ev.args.drop 6 } }.resetWith 4
    else
      let trip := decide (x.ilim < a) || zen s.module.thermHot
      let calm := decide (100 * a < 90 * x.ilim) && !zen s.module.thermHot
      let cool := if x.throttled && !trip && calm then x.cool + 1 else 0
      s.setFld f { x with
        current := a % 2 ^ 12
        noGrant := decide (95 * x.ilim ≤ 100 * a)
        trips := if trip && x.trips != BitVec.allOnes 32 then x.trips + 1 else x.trips
        throttled := trip || (x.throttled && cool != 16)
        cool := if cool = 16 then 0 else cool }

/-! ## The drop log's tail (R414) -/

/-- R414: a write of `DROP_TAIL`; above `DROP_HEAD` it is stored as `DROP_HEAD`. Data: value. -/
def execDropTailWrite (st : State) : Host.Outcome State Fault Refusal :=
  .next <| st.updModule fun m => { m with dropTail := if after32 (st.arg 0 % 2 ^ 32) m.dropHead.toNat then m.dropHead else BitVec.ofNat 32 (st.arg 0) }

end Sys2Proof.Machine
end

