-- ==== Sys2Proof/Machine/EvTdisp.lean ====
section
/-!
DEFINITION. The TDISP states of a VF, its IDE stream and SPDM session (21 R370–R374) and the copy key slots (21 R378, R379, R382). An
event whose condition does not hold changes nothing (assumption 2).
-/

namespace Sys2Proof.Machine

/-! ## States of a VF (R370, R371) -/

/-- Erase the copy key slots bound to contexts of a VF. -/
def State.clearSlots (s : State) (v : Nat) : State := s.updPart (s.vf v).tag fun p => { p with keys := p.keys.filter fun k => k.2.vf ≠ v }
/-- R371: a VF enters ERROR: its queues halt after their packets and its key slots are cleared. -/
def State.vfError (s : State) (v : Nat) : State :=
  (s.clearSlots v).updVf v fun x => { x with tdi := 3, queues := x.queues.map fun (q : Nat × Queue) => (q.1, { q.2 with run := false }) }
/-- R370: CONFIG_LOCKED or RUN. -/
def VF.locked (x : VF) : Bool := x.tdi == 1 || x.tdi == 2
/-- Answer a request. -/
def State.answerWith (s : State) (code : Nat) (bs : List Byte) : State := { s with reply := (code, bs) }
/-- SPDM error codes: an unexpected and an unsupported request. -/
def spdmUnexpected : Nat := 4
def spdmUnsupported : Nat := 7
/-- R370: a TDISP request of a VF, inside its session. -/
def State.tdispRequest (s : State) (v : Nat) (allowed : VF → Bool) (f : State → State) : State :=
  let x := s.vf v
  if 512 ≤ v then s
  else if x.spdm ≠ 5 || !allowed x then s.answerWith spdmUnexpected []
  else (f s).answerWith 0 []

/-- R370: CONFIG_UNLOCKED to CONFIG_LOCKED. Data: VF. -/
def execLockInterfaceRequest (st : State) : Host.Outcome State Fault Refusal :=
  let v := st.arg 0
  .next (st.tdispRequest v (fun x => x.tdi == 0) fun s => s.updVf v fun x => { x with tdi := 1 })

/-- R370: CONFIG_LOCKED to RUN. Data: VF. -/
def execStartInterfaceRequest (st : State) : Host.Outcome State Fault Refusal :=
  let v := st.arg 0
  .next (st.tdispRequest v (fun x => x.tdi == 1) fun s => s.updVf v fun x => { x with tdi := 2 })

/-- R370: back to CONFIG_UNLOCKED from any state; the VF's key slots are cleared. Data: VF. -/
def execStopInterfaceRequest (st : State) : Host.Outcome State Fault Refusal :=
  let v := st.arg 0
  .next (st.tdispRequest v (fun _ => true) fun s => (s.clearSlots v).updVf v fun x => { x with tdi := 0 })

/-- R372: a packet on a VF's stream: a failed MAC is discarded and moves the VF to ERROR; in RUN a non-TEE packet completes with Unsupported
Request. Data: VF, 1 when the MAC matches, 1 for a TEE packet. -/
def execIdePacketReceive (st : State) : Host.Outcome State Fault Refusal :=
  let v := st.arg 0
  let x := st.vf v
  .next <| if x.ideKey.isSome && st.arg 2 = 1 && st.arg 1 ≠ 1 then st.vfError v
    else if x.tdi = 2 && st.arg 2 ≠ 1 then st.answerWith 1 []
    else st

/-- R370: the session of a VF is over. -/
def State.sessionEnd (s : State) (v next : Nat) : State :=
  let s := if (s.vf v).locked then s.vfError v else s
  s.updVf v fun x => { x with spdm := next }
/-- R370: loss of a session in CONFIG_LOCKED or RUN moves the VF to ERROR. Data: VF. -/
def execSpdmSessionLoss (st : State) : Host.Outcome State Fault Refusal :=
  .next (if (st.vf (st.arg 0)).spdm = 5 then st.sessionEnd (st.arg 0) 0 else st)

/-! ## SPDM (R373, R374) -/

/-- The responder state of a function: a VF, or PF p as 512 + p. -/
def State.spdmOf (s : State) (f : Nat) : Nat := if f < 512 then (s.vf f).spdm else SMap.get 0 s.module.spdm f
def State.setSpdm (s : State) (f n : Nat) : State :=
  if f < 512 then s.updVf f fun x => { x with spdm := n } else s.updModule fun m => { m with spdm := SMap.set 0 m.spdm f n }
/-- R373: a request that is answered from some states of the responder only. -/
def State.spdmRequest (s : State) (ok : Nat → Bool) (f : State → State) : State :=
  if 520 ≤ s.arg 0 then s else if ok (s.spdmOf (s.arg 0)) then f s else s.answerWith spdmUnexpected []
/-- R374: the contents of a measurement index; 9 and 10 are empty for a PF or an unbound VF. -/
def State.measurement (s : State) (f i : Nat) : List Byte :=
  let p := s.part (s.vf f).tag
  let bound : Bool := decide (f < 512) && (s.vf f).tag != 0
  if 1 ≤ i && i ≤ 8 then natBytes 64 (SMap.get (0 : BitVec 512) s.module.meas (i - 1)).toNat
  else if i = 9 then (if bound then p.plate else [])
  else if i = 10 then (if bound then p.ephHead else [])
  else if i = 11 then (List.range 4).map fun k => BitVec.ofNat 8 (SMap.get 0 s.module.fuses k)
  else []

/-- R373: version 1.4. Data: function. -/
def execGetVersion (st : State) : Host.Outcome State Fault Refusal :=
  .next (st.spdmRequest (fun _ => true) fun s => (if s.spdmOf (s.arg 0) = 5 then s else s.setSpdm (s.arg 0) 1).answerWith 0 [0x14])

/-- R373: capabilities. Data: function; the bytes answered. -/
def execGetCapabilities (st : State) : Host.Outcome State Fault Refusal :=
  .next (st.spdmRequest (· == 1) fun s => (s.setSpdm (s.arg 0) 2).answerWith 0 s.ev.bytes)

/-- R373: algorithms: the offered ones among ML-DSA-65, SHAKE256, ML-KEM-768 and AES-256-GCM; an offer of none is an error. Data: function, the
offer as bits 0 to 3. -/
def execNegotiateAlgorithms (st : State) : Host.Outcome State Fault Refusal :=
  .next (st.spdmRequest (· == 2) fun s =>
    if s.arg 1 % 16 = 0 then s.answerWith spdmUnsupported [] else (s.setSpdm (s.arg 0) 3).answerWith 0 [BitVec.ofNat 8 (s.arg 1 % 16)])

/-- R373: certificate digests of slot 0, whose chain comes with the event. Data: function; the chain. -/
def execGetDigests (st : State) : Host.Outcome State Fault Refusal :=
  .next (st.spdmRequest (fun n => decide (3 ≤ n)) fun s => s.answerWith 0 (shake256 s.ev.bytes 64))

/-- R373: the chain of slot 0; slots 1 to 7 are empty. Data: function, slot; the chain. -/
def execGetCertificate (st : State) : Host.Outcome State Fault Refusal :=
  .next (st.spdmRequest (fun n => decide (3 ≤ n)) fun s => s.answerWith 0 (if s.arg 1 = 0 then s.ev.bytes else []))

/-- R373: a challenge, signed by the attestation key: a free value. Data: function. -/
def execChallenge (st : State) : Host.Outcome State Fault Refusal :=
  .next (st.spdmRequest (fun n => decide (3 ≤ n)) fun s => { s.answerWith 0 s.signature with oracle := s.oracle + 1 })

/-- R374: measurements. Data: function, index. -/
def execGetMeasurements (st : State) : Host.Outcome State Fault Refusal :=
  .next (st.spdmRequest (fun n => decide (3 ≤ n)) fun s => s.answerWith 0 (s.measurement (s.arg 0) (s.arg 1)))

/-- R373: key exchange. Data: function; the bytes answered. -/
def execKeyExchange (st : State) : Host.Outcome State Fault Refusal :=
  .next (st.spdmRequest (· == 3) fun s => (s.setSpdm (s.arg 0) 4).answerWith 0 s.ev.bytes)

/-- R373: the session is established. Data: function, 1 when the requester's message verifies. -/
def execFinish (st : State) : Host.Outcome State Fault Refusal :=
  .next (st.spdmRequest (· == 4) fun s => if s.arg 1 = 1 then (s.setSpdm (s.arg 0) 5).answerWith 0 [] else (s.setSpdm (s.arg 0) 3).answerWith spdmUnexpected [])

/-- R373: the session ends. Data: function. -/
def execEndSession (st : State) : Host.Outcome State Fault Refusal :=
  .next (st.spdmRequest (· == 5) fun s => (if s.arg 0 < 512 then s.sessionEnd (s.arg 0) 3 else s.setSpdm (s.arg 0) 3).answerWith 0 [])

/-- R372: the keys of a VF's stream, in its session. Data: VF; the key. -/
def execIdeKeyManagement (st : State) : Host.Outcome State Fault Refusal :=
  .next (st.spdmRequest (· == 5) fun s =>
    if 512 ≤ s.arg 0 then s.answerWith spdmUnsupported []
    else (s.updVf (s.arg 0) fun x => { x with ideKey := some (BitVec.ofNat 256 (bytesNat (s.ev.bytes.take 32))) }).answerWith 0 [])

/-! ## Copy key slots (R378, R379) -/

/-- R379: a slot request in a session, its payload in the event's bytes; the checks give codes 1, 2 and 3. Data: the session's VF. -/
def State.slotRequest (s : State) (f : State → Nat → List Byte → State) : State :=
  let v := s.arg 0
  let x := s.vf v
  let n := bytesNat (s.ev.bytes.take 24)
  let w := field n 31 16
  if 512 ≤ v || x.spdm ≠ 5 || x.tag = 0 then s.answerWith spdmUnexpected []
  else if 15 < field n 15 8 || 7 < field n 39 32 || 9 < field n 47 40 || field n 127 72 ≠ 0 then s.answerWith 0 [1]
  else if 512 ≤ w || (s.vf w).tdi ≠ 2 then s.answerWith 0 [2]
  else if (s.vf w).tag ≠ x.tag then s.answerWith 0 [3]
  else f s x.tag s.ev.bytes

/-- R379: replace a slot's key, floor and binding whole. Data: the session's VF; the payload. -/
def execKeySlotLoad (st : State) : Host.Outcome State Fault Refusal :=
  .next (st.slotRequest fun s tag bs =>
    let n := bytesNat (bs.take 56)
    let k : KeySlot := { key := BitVec.ofNat 256 (field n 447 192), floor := BitVec.ofNat 64 (field n 191 128), vf := field n 31 16
                         q := field n 39 32, block := field n 71 48, lg := field n 47 40 }
    (s.updPart tag fun p => { p with keys := SMap.put p.keys (field n 15 8) k }).answerWith 0 [0])

/-- R379: erase a slot. Data: the session's VF; the payload. -/
def execKeySlotClear (st : State) : Host.Outcome State Fault Refusal :=
  .next (st.slotRequest fun s tag bs => (s.updPart tag fun p => { p with keys := SMap.del p.keys (field (bytesNat (bs.take 2)) 15 8) }).answerWith 0 [0])

/-- R379, R382: a slot's binding, floor and key identity. Data: the session's VF; the payload. -/
def execKeySlotQuery (st : State) : Host.Outcome State Fault Refusal :=
  .next (st.slotRequest fun s tag bs =>
    let k := SMap.find (s.part tag).keys (field (bytesNat (bs.take 2)) 15 8)
    s.answerWith 0 (0 :: (match k with
      | some k => natBytes 2 k.vf ++ natBytes 1 k.q ++ natBytes 1 k.lg ++ natBytes 3 k.block ++ natBytes 8 k.floor.toNat ++ keyIdentity 2 (some k.key)
      | none => List.replicate 31 0)))

end Sys2Proof.Machine
end

