-- ==== Sys2Proof/Machine/EvMmio.lean ====
section
/-!
DEFINITION. Registers as the host and the dome controller reach them: the VF and partition MMIO blocks (21 R368, R369, Tables 21-11 and 21-12),
the dome MMIO (23 R414, R415; 22 Table 22-1), the views of 00 R5, and requests that a host makes through a VF (09 R204). An event whose condition
does not hold changes nothing (assumption 2).
-/

namespace Sys2Proof.Machine

/-! ## Halves of registers -/

/-- A block of registers: the value and width of the one at an offset, width 0 where none begins. -/
abbrev Regs := Nat → Nat × Nat
/-- The 32-bit word at an offset: a register, or a half of a 64-bit one. -/
def Regs.word (r : Regs) (off : Nat) : Nat :=
  let a := r off
  let b := r (off - 4)
  if a.2 ≠ 0 then a.1 % 2 ^ 32 else if 4 ≤ off && b.2 = 8 then b.1 / 2 ^ 32 % 2 ^ 32 else 0
/-- R369: a read of 4 or 8 bytes. -/
def Regs.read (r : Regs) (off n : Nat) : Nat :=
  if n = 8 then (if (r off).2 = 8 then (r off).1 % 2 ^ 64 else r.word off + r.word (off + 4) * 2 ^ 32) else r.word off
/-- R369: the registers a write of 4 or 8 bytes touches, whole, with their new values. -/
def Regs.writes (r : Regs) (off n v : Nat) : List (Nat × Nat) :=
  let one (off v : Nat) : List (Nat × Nat) :=
    let a := r off
    let b := r (off - 4)
    if a.2 = 8 then [(off, a.1 / 2 ^ 32 * 2 ^ 32 + v)]
    else if a.2 ≠ 0 then [(off, v)]
    else if 4 ≤ off && b.2 = 8 then [(off - 4, b.1 % 2 ^ 32 + v * 2 ^ 32)] else []
  if n = 8 then (if (r off).2 = 8 then [(off, v % 2 ^ 64)] else one off (v % 2 ^ 32) ++ one (off + 4) (v / 2 ^ 32 % 2 ^ 32)) else one off (v % 2 ^ 32)
def natOfInt32 (x : Int) : Nat := (x % 2 ^ 32).toNat

/-! ## The VF MMIO block -/

/-- Tables 18-2 and 18-3. -/
def Queue.ctlWord (k : Queue) : Nat :=
  k.en.toNat + k.run.toNat * 2 + k.hoe.toNat * 4 + k.qsize % 16 * 2 ^ 4 + k.prio % 8 * 2 ^ 8 + k.irq.toNat * 2 ^ 11
def Queue.statWord (k : Queue) : Nat :=
  k.halted.toNat + (k.launch != 0).toNat * 2 + k.blocked.toNat * 4 + k.gated.toNat * 8 + k.nothread.toNat * 16 + k.last % 256 * 2 ^ 8
/-- Table 21-6: `EPH_GEN`: the generation that stands at the ephemeris's place. -/
def State.ephGen (s : State) (tag : Nat) : Nat := match (s.part tag).place (s.part tag).ephBase.toNat with
  | some l => s.readNum l 8
  | none => 0
/-- Tables 18-1, 18-6, 19-5, 19-7 and 21-6 of a VF, in the H view or, with `m`, the M view. -/
def State.vfRegs (s : State) (v : Nat) (m : Bool) : Regs := fun off =>
  let x := s.vf v
  match off with
  | 0x00 => (x.tBudget.toNat, 4)
  | 0x04 => (x.eBudget.toNat, 4)
  | 0x08 => (natOfInt32 x.tLeft, 4)
  | 0x0C => (natOfInt32 x.eLeft, 4)
  | 0x10 => (x.slice, 4)
  | 0x14 => (x.preempts.toNat, 4)
  | 0x40 => (x.pwrCap.toNat, 4)
  | 0x44 => (x.boostPref.toNat, 4)
  | 0x48 => (x.ntAllow.toNat, 4)
  | 0x4C => (x.slopeReq.toNat, 4)
  | 0x50 => (x.pwrRng.toNat, 4)
  | 0x54 => (x.boostRng.toNat, 4)
  | 0x58 => (x.ntRng.toNat, 4)
  | 0x5C => (x.slopeRng.toNat, 4)
  | 0x60 => (x.clamps.toNat, 4)
  | 0x68 => (x.acc.toNat % 2 ^ 32, 4)
  | 0x6C => ((if m then x.shadowM else x.shadowH).toNat, 4)
  | 0x70 => (x.tdi, 4)
  | 0x78 => (s.ephGen x.tag, 8)
  | _ =>
    if 0x100 ≤ off && off < 0x300 then
      let k := x.queue ((off - 0x100) / 0x40)
      match off % 0x40 with
      | 0x00 => (k.base.toNat, 8)
      | 0x08 => (k.cbase.toNat, 8)
      | 0x10 => (k.ctlWord, 4)
      | 0x18 => (k.prod.toNat, 4)
      | 0x1C => (k.cons.toNat, 4)
      | 0x20 => (k.statWord, 4)
      | _ => (0, 0)
    else (0, 0)
/-- Who writes: the host through the VF, through the PF, or the dome controller. -/
inductive Writer where
  | vf | pf | m
  deriving DecidableEq, Repr
/-- Table 18-1: `Q_BASE` and `Q_CBASE`; a write to a locked one moves the VF to ERROR (R371). -/
def State.writeQBase (s : State) (v q : Nat) (w : Writer) (f : Queue → Queue) : State :=
  if ((s.vf v).queue q).en then (if (s.vf v).locked && w != .m then s.vfError v else s) else s.updQueue v q f
/-- A whole register of the VF's block is written (R5, R337, R354, R369). -/
def State.writeVfReg (s : State) (v : Nat) (w : Writer) (off n : Nat) : State :=
  let w32 : W32 := BitVec.ofNat 32 n
  let high : Bool := w != .vf
  let upd (ok : Bool) (f : VF → VF) : State := if ok then s.updVf v f else s
  let dome : Bool := w == .m
  match off with
  | 0x00 => upd high fun x => { x with tBudget := w32 }
  | 0x04 => upd high fun x => { x with eBudget := w32 }
  | 0x08 => upd dome fun x => { x with tLeft := w32.toInt }
  | 0x0C => upd dome fun x => { x with eLeft := w32.toInt }
  | 0x10 => upd high fun x => { x with slice := if n % 2 ^ 7 = 0 || 100 < n % 2 ^ 7 then 100 else n % 2 ^ 7 }
  | 0x14 => upd dome fun x => { x with preempts := w32 }
  | 0x40 => upd true fun x => x.writeControl 0 n
  | 0x44 => upd true fun x => x.writeControl 1 n
  | 0x48 => upd true fun x => x.writeControl 2 n
  | 0x4C => upd true fun x => x.writeControl 3 n
  | 0x50 => upd high fun x => x.writeRange 0 n
  | 0x54 => upd high fun x => x.writeRange 1 n
  | 0x58 => upd high fun x => x.writeRange 2 n
  | 0x5C => upd high fun x => x.writeRange 3 n
  | 0x60 => upd dome fun x => { x with clamps := w32 }
  | _ =>
    if 0x100 ≤ off && off < 0x300 then
      let q := (off - 0x100) / 0x40
      match off % 0x40 with
      | 0x00 => s.writeQBase v q w fun k => { k with base := BitVec.ofNat 64 (n % 2 ^ 57 / 2 ^ 6 * 2 ^ 6) }
      | 0x08 => s.writeQBase v q w fun k => { k with cbase := BitVec.ofNat 64 (n % 2 ^ 57 / 2 ^ 4 * 2 ^ 4) }
      | 0x10 => s.writeQctl v q n
      | 0x18 => s.writeProd v q w32
      | 0x1C => if dome then s.updQueue v q fun k => { k with cons := w32 } else s
      | _ => s
    else s
/-- A write of 4 or 8 bytes into the VF's block; the host's are taken while the VF is bound and not in ERROR (R368, R370). -/
def State.writeVf (s : State) (v : Nat) (w : Writer) (off n x : Nat) : State :=
  if 512 ≤ v || (w != .m && !s.vfTakes v) then s
  else ((s.vfRegs v (w == .m)).writes off n x).foldl (fun s y => s.writeVfReg v w y.1 y.2) s

/-! ## The partition MMIO block, H view (Table 21-12) -/

def State.partRegs (s : State) (tag : Nat) : Regs := fun off =>
  let p := s.part tag
  if 0x100 ≤ off && off < 0x300 then (if off % 8 = 0 then ((SMap.get 0 p.events ((off - 0x100) / 8)).toNat, 8) else (0, 0))
  else if off = 0x0808 then (p.phShadowH.toNat, 4)
  else if off = 0x0800 || off = 0x0810 || (off < 0x48 && off % 4 = 0 && off ≠ 0x28 && off ≠ 0x4 && off ≠ 0xC && off ≠ 0x1C && off ≠ 0x24 && off ≠ 0x2C && off ≠ 0x34) then
    s.mmioS tag off
  else if 0x10000 ≤ off then
    (match p.coreAt ((off - 0x10000) / 0x80) with
      | none => (0, 0)
      | some c =>
        let e := (s.core c).engine
        match (off - 0x10000) % 0x80 with
        | 0x00 => (e.reg 0x830, 4)
        | 0x08 => (e.reg 0x831, 8)
        | 0x10 => (e.reg 0x832, 8)
        | 0x18 => (e.reg 0x833, 8)
        | 0x20 => (e.reg 0x834, 8)
        | 0x28 => (e.reg 0x838, 8)
        | 0x30 => (e.reg 0x839, 8)
        | 0x38 => (e.reg 0x83A, 8)
        | 0x40 => (e.reg 0x83B, 8)
        | 0x48 => (e.reg 0x83C, 8)
        | 0x50 => (e.reg 0x83D, 8)
        | _ => (0, 0))
  else (0, 0)
/-- A write by the host: only `RETIRE_ANS` takes one. -/
def State.writePart (s : State) (v off n : Nat) (x : Nat) : State :=
  if 512 ≤ v || !s.vfTakes v then s
  else if off = 0x28 then s.updPart (s.vf v).tag fun p => p.answer x
  else if off = 0x24 && n = 8 then s.updPart (s.vf v).tag fun p => p.answer (x / 2 ^ 32)
  else s

/-! ## The dome MMIO (Tables 22-1, 23-3, 23-4) -/

def Port.statWord (p : Port) : Nat := p.up.toNat + p.keywait.toNat * 2 + p.ks.toNat * 4 + p.nextld.toNat * 8 + p.down.toNat * 16
/-- A link register of a port. -/
def Port.reg (p : Port) : Nat → Nat × Nat
  | 0x00 => (p.ctl.toNat, 4)
  | 0x04 => (p.statWord, 4)
  | 0x08 => (p.txseq.toNat, 4)
  | 0x0C => (p.rxseq.toNat, 4)
  | 0x10 => (p.ic.toNat, 4)
  | 0x18 => (p.retry.toNat, 8)
  | 0x20 => (p.authfail.toNat, 8)
  | 0x28 => (p.crcfail.toNat, 8)
  | _ => (0, 0)
/-- Tables 22-1, 23-3 and 23-4; the views differ in what they may write only. -/
def State.domeRegs (s : State) : Regs := fun off =>
  let m := s.module
  if off < 0x3C000 then (0, 0)
  else if 0x3C100 ≤ off && off < 0x3E100 then
    (if off % 4 = 0 then (bytesNat ((List.range 4).map fun i => SMap.get 0 m.mbBuf (off - 0x3C100 + i)), 4) else (0, 0))
  else if 0x3F100 ≤ off && off < 0x3F100 + 576 then
    let f := s.fld ((off - 0x3F100) / 8)
    if off % 8 = 0 then (f.current % 2 ^ 12 + f.throttled.toNat * 2 ^ 12 + f.degraded.toNat * 2 ^ 13, 4) else if off % 8 = 4 then (f.ilim, 4) else (0, 0)
  else if 0x3F400 ≤ off && off < 0x3F400 + 288 then (if off % 4 = 0 then ((s.fld ((off - 0x3F400) / 4)).trips.toNat, 4) else (0, 0))
  else if 0x40000 ≤ off && off < 0x44000 then (s.port ((off - 0x40000) / 0x100)).reg (off % 0x100)
  else if 0x200000 ≤ off && off < 0x400000 then
    (if off % 4 = 0 then (field (SMap.get 0 m.dropLog ((off - 0x200000) / 32)).toNat (off % 32 * 8 + 31) (off % 32 * 8), 4) else (0, 0))
  else match off with
    | 0x3F000 => (m.ready.toNat + m.recovery.toNat * 2 + (s.fields.any fun f => f.2.throttled).toNat * 4, 4)
    | 0x3F004 => (m.cause, 4)
    | 0x3F008 => (0, 4)
    | 0x3F010 => (m.vin % 2 ^ 16, 4)
    | 0x3F014 => (m.pinW % 2 ^ 24, 4)
    | 0x3F018 => (m.coolTemp % 2 ^ 12 + m.coolFlow % 2 ^ 12 * 2 ^ 12 + m.coolFault.toNat * 2 ^ 24, 4)
    | 0x3F01C => (m.thermHot.toNat, 4)
    | 0x3F020 => (m.thermCrit.toNat, 4)
    | 0x3F800 => (m.dropHead.toNat, 4)
    | 0x3F804 => (m.dropTail.toNat, 4)
    | 0x3F808 => (m.dropLost.toNat, 8)
    | 0x3FF00 => (m.devId, 4)
    | 0x3C000 => (m.mbGo.toNat, 4)
    | 0x3C004 => (m.mbStatus + m.mbReason * 2 ^ 8 + m.mbSeq.toNat * 2 ^ 16, 4)
    | 0x3C008 => (m.mbIrq.toNat, 4)
    | _ => (0, 0)

/-! ## The mailbox (23 R415) -/

/-- The n bytes of the command from byte `at_` on, as a number. -/
def Module.mb (m : Module) (at_ n : Nat) : Nat := bytesNat ((List.range n).map fun i => SMap.get 0 m.mbBuf (at_ + i))
/-- A tile word: x, y, and its reserved bits. -/
def tileWordBad (w : Nat) : Bool := w / 2 ^ 10 != 0
def tileOfWord (w : Nat) : Nat := if 27 ≤ w % 32 || 24 ≤ w / 32 % 32 then 648 else tileAt (w % 32) (w / 32 % 32)
/-- Table 23-5: the `PLEN` a command requires, and whether a reserved bit of its parameters is set; none for an opcode not assigned. -/
def Module.mbForm (m : Module) : Option (Nat × Bool) :=
  let a := m.mb 8 8
  match m.mb 0 2 with
  | 1 =>
    let n := field a 31 16
    some (8 + 2 * n, field a 15 7 != 0 || (List.range n).any fun i => tileWordBad (m.mb (16 + 2 * i) 2))
  | 2 => some (8, field a 63 7 != 0)
  | 3 => some (8, field a 15 9 != 0 || field a 63 27 != 0)
  | 4 => some (8, field a 63 9 != 0)
  | 5 => some (8, field a 31 7 != 0)
  | 6 => some (16, field a 31 7 != 0)
  | 7 =>
    let n := field a 31 16 + field a 47 32
    let k := field a 63 48
    let at_ := 16 + (2 * n + 3) / 4 * 4
    some ((8 + 2 * n + 3) / 4 * 4 + 4 * k, a.testBit 7 || field a 15 11 != 0 || ((List.range n).any fun i => tileWordBad (m.mb (16 + 2 * i) 2)) ||
      (n % 2 == 1 && m.mb (16 + 2 * n) 2 != 0) ||
      (List.range k).any fun i =>
        let e := m.mb (at_ + 4 * i) 4
        if e.testBit 31 then field e 15 14 != 0 || e.testBit 30 else field e 15 10 != 0 || field e 30 26 != 0)
  | 8 => some (24, field a 63 28 != 0 || (List.range 4).any fun i => m.mb (24 + 2 * i) 2 / 2 ^ 12 != 0)
  | 9 => some (8, field a 63 20 != 0)
  | 10 => some (16, m.mb 20 4 != 0)
  | 11 => some (32, field a 63 32 != 0 || m.mb 24 4 % 128 != 0 || m.mb 28 4 != 0)
  | 12 => some (8, field a 63 5 != 0)
  | 13 => some (8, field a 63 2 != 0)
  | 14 => some (8, field a 63 12 != 0)
  | 15 => some (8, field a 63 13 != 0)
  | _ => none
/-- R415: the command in the buffer is well formed. -/
def Module.mbOk (m : Module) : Bool := match m.mbForm with
  | none => false
  | some (plen, bad) => !bad && m.mb 2 2 == plen && decide (plen ≤ 8184) && m.mb 4 4 == 0
/-- R415, R412: 1 is written to `GO`. -/
def State.mbStart (s : State) : State :=
  if !s.module.ready || s.module.mbGo then s.updModule fun m => { m with mbStatus := 1 }
  else if s.module.mbOk then s.updModule fun m => { m with mbGo := true, mbStatus := 4 }
  else s.mbFinish 2 0 []

/-! ## Writes to the dome MMIO -/

def State.setFieldLimit (s : State) (f n : Nat) : State := s.updFld f fun x => { x with ilim := min 1000 (max 100 (n % 2 ^ 12)) }
/-- R413, R414: `DROP_TAIL`. -/
def State.writeDropTail (s : State) (n : Nat) : State :=
  s.updModule fun m => { m with dropTail := if after32 (n % 2 ^ 32) m.dropHead.toNat then m.dropHead else BitVec.ofNat 32 n }
/-- A register that the H and the M view may write: the mailbox and `DROP_TAIL`; `MOD_RESET` has an event of its own. -/
def State.writeDomeH (s : State) (off n : Nat) : State :=
  if 0x3C100 ≤ off && off < 0x3E100 then
    (if s.module.mbGo then s
     else s.updModule fun m => { m with mbBuf := (List.range 4).foldl (fun b i => SMap.set 0 b (off - 0x3C100 + i) (BitVec.ofNat 8 (n / 2 ^ (8 * i)))) m.mbBuf })
  else match off with
    | 0x3C000 => if n.testBit 0 then s.mbStart else s
    | 0x3C008 => s.updModule fun m => { m with mbIrq := n.testBit 0 }
    | 0x3F804 => s.writeDropTail n
    | _ => s
/-- Table 05-5: the bits of a drop record that are not reserved. -/
def dropMask : BitVec 256 := ~~~(BitVec.ofNat 256 (2 ^ 39 + 2 ^ 47 + 0xFF * 2 ^ 56 + 0xF * 2 ^ 188))
/-- A register that the M view may write. -/
def State.writeDomeM (s : State) (off n : Nat) : State :=
  let w32 : W32 := BitVec.ofNat 32 n
  if 0x3F100 ≤ off && off < 0x3F100 + 576 then (if off % 8 = 4 then s.setFieldLimit ((off - 0x3F100) / 8) n else s)
  else if 0x3F400 ≤ off && off < 0x3F400 + 288 then s.updFld ((off - 0x3F400) / 4) fun x => { x with trips := w32 }
  else if 0x40000 ≤ off && off < 0x44000 then
    let p := (off - 0x40000) / 0x100
    match off % 0x100 with
    | 0x00 => s.writeLkCtl p n
    | 0x18 => s.updPort p fun x => { x with retry := BitVec.ofNat 64 n }
    | 0x20 => s.updPort p fun x => { x with authfail := BitVec.ofNat 64 n }
    | 0x28 => s.updPort p fun x => { x with crcfail := BitVec.ofNat 64 n }
    | _ => s
  else if 0x200000 ≤ off && off < 0x400000 then
    s.updModule fun m =>
      let k := (off - 0x200000) / 32
      let old := (SMap.get 0 m.dropLog k).toNat
      let sh := off % 32 * 8
      { m with dropLog := SMap.set 0 m.dropLog k (BitVec.ofNat 256 (old - field old (sh + 31) sh * 2 ^ sh + n % 2 ^ 32 * 2 ^ sh) &&& dropMask) }
  else match off with
    | 0x3F01C => s.updModule fun m => { m with thermHot := BitVec.ofNat 16 n }
    | 0x3F020 => s.updModule fun m => { m with thermCrit := if signedNat 16 n < m.thermHot.toInt then m.thermHot else BitVec.ofNat 16 n }
    | 0x3F800 => s.updModule fun m => { m with dropHead := w32 }
    | 0x3F808 => s.updModule fun m => { m with dropLost := BitVec.ofNat 64 n }
    | 0x3FF00 => s.updModule fun m => { m with devId := n % 32 }
    | 0x3C004 => s.updModule fun m => { m with mbStatus := field n 7 0, mbReason := field n 15 8, mbSeq := BitVec.ofNat 16 (n / 2 ^ 16) }
    | _ => s.writeDomeH off n
def State.writeDome (s : State) (dome : Bool) (off n x : Nat) : State :=
  (s.domeRegs.writes off n x).foldl (fun s y => if dome then s.writeDomeM y.1 y.2 else s.writeDomeH y.1 y.2) s

/-- Tables 05-9, 16-4, 21-6 and 22-6: a register of a partition that the dome controller writes, by number. -/
def Part.writeM (p : Part) (num : Nat) (v : W64) : Part :=
  let w32 : W32 := v.extractLsb' 0 32
  match num with
  | 0x800 => { p with svVec := v }
  | 0x803 => { p with ptRoot := v &&& 0x00FFFFFFFFFFC001 }
  | 0x804 => { p with ftpBase := v &&& 0xFFFFFFFFFFFFFFFC }
  | 0x805 => { p with ftpCount := w32 }
  | 0x806 => { p with dropsSeen := v }
  | 0x840 => { p with frBase := v &&& 0xFFFFFFFFFFFFFFC0 }
  | 0x841 => { p with frSize := frSizeOf v.toNat }
  | 0x843 => { p with frTail := w32 }
  | 0x844 => { p with frLost := v }
  | 0x849 => p.answer v.toNat
  | 0x880 => { p with ephBase := v &&& 0xFFFFFFFFFFFF0000 }
  | 0x881 => { p with ephSize := w32 &&& 0xFFFF0000 }
  | 0x890 => (match p.xdRunning with
    | some _ => { p with xdMstat := 5 }
    | none => { p with xdRunning := some v })
  | 0x893 => { p with xdPinned := w32 }
  | _ => p
/-- Table 19-4: the field and tile registers of the dome controller: 0 `HEADROOM`, 1 `THERM_LIM`, 2 `SLOPE_LIM` of a field, 3 `PERMITS` of a tile. -/
def State.writePower (s : State) (k i n : Nat) : State := match k with
  | 0 => s.updFld i fun x => { x with headroom := min 9 (n % 16) }
  | 1 => s.updFld i fun x => { x with thermLim := BitVec.ofNat 16 n }
  | 2 => s.updFld i fun x => { x with slopeLim := BitVec.ofNat 32 (min 128 (max 1 (n % 256)) + n / 256 % 65536 * 256) }
  | _ => s.updTile i fun x => { x with permits := min 64 (n % 128) }

/-- R369: a host access that is 32 or 64 bits wide and aligned. -/
def mmioAligned (off n : Nat) : Bool := (n == 4 || n == 8) && off % n == 0
/-- R5, R369, R371: a write to a register. Data: where (0 the block of a VF, 1 the partition block of a VF's partition, 2 dome MMIO through a PF, 3 the
window of a VF in its PF, 4 dome MMIO by the dome controller, 5 a VF's block by it, 6 a partition's register by it, 7 to 10 a power register by
it, 11 a routing table entry by it, with its destination, 12 a coefficient of a field by it, with its kind), number (a VF, PF, partition, field or tile), offset or register number, bytes, value. -/
def execRegisterWrite (st : State) : Host.Outcome State Fault Refusal :=
  let i := st.arg 1
  let off := st.arg 2
  let n := st.arg 3
  let v := st.arg 4
  .next <| if !mmioAligned off n && st.arg 0 < 6 then st
    else match st.arg 0 with
      | 0 => if off < 4096 then st.writeVf i .vf off n v else st
      | 1 => st.writePart i off n v
      | 2 => if i = 0 then st.writeDome false off n v else st
      | 3 => if off < 4096 then st.writeVf i .pf off n v else st
      | 4 => st.writeDome true off n v
      | 5 => if off < 4096 then st.writeVf i .m off n v else st
      | 6 => if off = 0x892 then { st with agenda := .ev .xdUnpin ⟨[i, v % 2 ^ 64], []⟩ :: st.agenda } else st.updPart i fun p => p.writeM off (BitVec.ofNat 64 v)
      | 11 => if i < 648 && off < 704 then st.updTile i fun t => { t with routes := SMap.put t.routes off (v % 5) } else st
      | 12 => if i < 72 && off < 24 then st.updFld i fun x => { x with coefs := SMap.put x.coefs off (v % 2 ^ 24) } else st
      | k => if k ≤ 9 && i < 72 || k = 10 && i < 648 then st.writePower (k - 7) i v else st

/-- R369: a misaligned access, or one of another width, completes with Unsupported Request. Data: offset, bytes. -/
def execUnsupportedRequest (st : State) : Host.Outcome State Fault Refusal :=
  .next (if mmioAligned (st.arg 0) (st.arg 1) then st else st.answerWith 1 [])

/-! ## Requests of a host through a VF (09 R204) -/

/-- R368, R369: a read of a VF's BAR 0 or 2, with the shadow a low half latches (R358). -/
def State.hostMmioRead (s : State) (v bar off n : Nat) : State :=
  if (s.vf v).tag = 0 then s.answerWith 0 (natBytes n 0)
  else if bar = 0 then
    let r := s.answerWith 0 (natBytes n ((s.vfRegs v false).read off n))
    if off = 0x68 then r.updVf v fun x => { x with shadowH := x.acc.extractLsb' 32 32 } else r
  else
    let r := s.answerWith 0 (natBytes n ((s.partRegs (s.vf v).tag).read off n))
    if off = 0x0800 then r.updPart (s.vf v).tag fun p => { p with phShadowH := p.phAcc.extractLsb' 32 32 } else r
/-- R368, R369, Table 21-11: a read through PF p: the dome MMIO, H view, of PF 0; the windows of the VFs on its port. -/
def State.pfMmioRead (s : State) (p bar off n : Nat) : State :=
  let v := off / 4096
  if bar = 0 then s.answerWith 0 (natBytes n (if p = 0 then s.domeRegs.read off n else 0))
  else if bar = 2 && decide (v < 512) && (s.vf v).tag != 0 && (s.vf v).port == p then
    let r := s.answerWith 0 (natBytes n ((s.vfRegs v false).read (off % 4096) n))
    if off % 4096 = 0x68 then r.updVf v fun x => { x with shadowH := x.acc.extractLsb' 32 32 } else r
  else s.answerWith 0 (natBytes n 0)
/-- R369: a write through PF p. -/
def State.pfMmioWrite (s : State) (p bar off n x : Nat) : State :=
  let v := off / 4096
  if bar = 0 then (if p = 0 then s.writeDome false off n x else s)
  else if bar = 2 && decide (v < 512) && (s.vf v).port == p then s.writeVf v .pf (off % 4096) n x
  else s
/-- R112, R130, R204, R297: a host's access to a place of the device, with the tag of the VF's partition; one that meets a locked line waits. -/
def State.hostAccess (s : State) (v : Nat) (write : Bool) (l : Loc) (n : Nat) (bs : List Byte) : State :=
  let x := s.vf v
  let a : Agent := { unit := 3, tag := x.tag, core := x.port, lq := v * 8 }
  let ls := cellsFrom l bs
  let held (k : Nat) : Bool := if write then s.lineLocked k else s.prepareLocked k
  if l.tt = 0 && (held (l.addr / 128) || held ((l.addr + (if write then bs.length else n) - 1) / 128)) then s
  else if write then
    if s.delivers a l then (((s.writeAll ls).clearPoison (ls.map Prod.fst)).forwardWrites ls).answerWith 0 []
    else (s.dropAt a .hostWrite l 0 bs.length 0 0 0 0).answerWith 2 []
  else if s.delivers a l then s.answerWith 0 (natBytes n (s.readNum l n))
  else (s.dropAt a .hostRead l 0 n 0 0 0 0).answerWith 2 []
/-- R204, R368, R369: a host read or write through a VF or a PF. Data: VF, 1 for a write, the target type (7 for a BAR, 8 for a BAR of a PF, whose number
stands for the VF), the address (for a BAR, BAR × 2^32 + offset), bytes; for a write, the bytes written. -/
def execHostOriginatedRequest (st : State) : Host.Outcome State Fault Refusal :=
  let v := st.arg 0
  let write := st.arg 1 = 1
  let off := st.arg 3 % 2 ^ 32
  let n := st.arg 4
  .next <| if 512 ≤ v then st
    else if st.arg 2 = 7 then
      if !mmioAligned off n then st.answerWith 1 []
      else if write then
        (if st.arg 3 < 2 ^ 32 then st.writeVf v .vf off n (bytesNat (st.ev.bytes.take n)) else st.writePart v off n (bytesNat (st.ev.bytes.take n))).answerWith 0 []
      else st.hostMmioRead v (st.arg 3 / 2 ^ 32) off n
    else if st.arg 2 = 8 then
      (if !mmioAligned off n then st.answerWith 1 []
       else if write then (st.pfMmioWrite v (st.arg 3 / 2 ^ 32) off n (bytesNat (st.ev.bytes.take n))).answerWith 0 []
       else st.pfMmioRead v (st.arg 3 / 2 ^ 32) off n)
    else if (st.vf v).tag = 0 || 5 ≤ st.arg 2 then st.answerWith 2 []
    else st.hostAccess v write ⟨st.arg 2, st.arg 3⟩ n (st.ev.bytes.take n)

end Sys2Proof.Machine
end

