-- ==== Sys2Proof/Machine/EvMailbox.lean ====
section
/-!
DEFINITION. The commands of the management mailbox (23 R415, R416, Table 23-5). Each acts only while its command is the one that runs; what the
dome controller chooses freely (granules, the ephemeris's size and gaps) is the event's data (assumption 2).
-/

namespace Sys2Proof.Machine

/-- R416: perform a command, if it is the one that runs. -/
def State.mailbox (s : State) (op : Nat) (f : State → Module → Nat → State) : State :=
  if s.module.mbGo && s.module.mb 0 2 == op then f s s.module (s.module.mb 8 8) else s
def State.mbReject (s : State) (reason : Nat) : State := s.mbFinish 3 reason []
def State.mbDone (s : State) (result : List Byte) : State := s.mbFinish 0 0 result
def State.isPart (s : State) (tag : Nat) : Bool := (SMap.find s.parts tag).isSome

/-! ## Partitions (R376, R380, R384; 05 R110, R122; 19 R353) -/

/-- The default size of the ephemeris, 2 MiB: the whole granule that holds it. -/
def ephSizeOf (pages : Nat) : Nat := if 1 ≤ pages && pages ≤ 32 then pages * 65536 else 2 ^ 21
/-- R416: create a partition of some tiles with n granules and some backing ones. -/
def State.createPart (s : State) (tag n : Nat) (tiles gs : List Nat) (pages : Nat) (gaps : List Nat) : State :=
  let tiles := sortNat tiles
  let s := tiles.foldl (fun s t => s.bindTile tag t) s
  let lost := (tiles.flatMap coresOf).filter fun c => (s.core c).lost
  let s := { s.setPart tag { tiles := tiles, absent := lost, memKey := Config.freeKey s.oracle
                             ephBase := BitVec.ofNat 64 (n * 2 ^ 21), ephSize := BitVec.ofNat 32 (ephSizeOf pages) } with oracle := s.oracle + 1 }
  (((s.backGranules tag 0 gs).newPlate tag).publish tag false).publishEnd tag false gaps
/-- R416: PART_CREATE. Data: pages of the ephemeris (0 for 2 MiB), its four gaps, then device granules to take first. -/
def execPartCreate (st : State) : Host.Outcome State Fault Refusal :=
  .next <| st.mailbox 1 fun s m a =>
    let tag := field a 6 0
    let tiles := (List.range (field a 31 16)).map fun i => tileOfWord (m.mb (16 + 2 * i) 2)
    let n := field a 63 32
    if tag = 0 || 64 < tag || s.isPart tag then s.mbReject 1
    else if tiles.any (fun t => decide (648 ≤ t) || (s.tile t).owner != 0 || (s.tile t).degraded || (s.fld (fieldOfTile t)).degraded) ||
        (dedup tiles).length ≠ tiles.length then s.mbReject 2
    else if !connected (sortNat tiles) then s.mbReject 3
    else match s.takeGranules (s.ev.args.drop 5) (n + 1) with
      | none => s.mbReject 4
      | some gs =>
        let s := s.createPart tag n tiles gs (s.arg 0) ((s.ev.args.drop 1).take 4)
        s.mbDone (natBytes 8 (s.part tag).ephBase.toNat ++ natBytes 4 (s.part tag).ephSize.toNat)

/-- R416: a VF leaves its partition; its queues are disabled. -/
def State.unbindVf (s : State) (v : Nat) : State :=
  s.updVf v fun x => { x with tag := 0, port := 0, queues := x.queues.map fun (q : Nat × Queue) =>
    (q.1, { q.2 with en := false, closing := false, thread := none, packet := none, blocked := false, gated := false, ticks := 0, record := none }) }
/-- R416: PART_DESTROY: the command runs until every write of the launches it has ended has been performed (R198). -/
def execPartDestroy (st : State) : Host.Outcome State Fault Refusal :=
  .next <| st.mailbox 2 fun s _ a =>
    let tag := field a 6 0
    if !s.isPart tag then s.mbReject 1
    else
      let s := s.endPartLaunches tag
      if s.launches.any fun l => l.2.tag == tag then s
      else
        let vs := (s.vfs.filter fun v => v.2.tag == tag).map Prod.fst
        let s := vs.foldl (fun s v => ((if (s.vf v).locked then s.vfError v else s).updVf v fun x => { x with tdi := 0 }).unbindVf v) s
        let p := s.part tag
        let s := p.tiles.foldl State.freeTile s
        let s := (p.grans.filter fun g => !g.2.shr).foldl (fun s g => s.releaseGranule g.2.dev) s
        let s := { s with
          parts := SMap.del s.parts tag
          exports := s.exports.filter (fun e => e.2.otag != tag)
          regions := s.regions.map (fun (r : Nat × Region) => (r.1, { r.2 with members := r.2.members.filter (· ≠ tag) }))
          fields := s.fields.map fun (f : Nat × Field) => (f.1, { f.2 with walkQ := SMap.del f.2.walkQ tag, walkers := f.2.walkers.filter fun w => w.2 != tag })
          walks := s.walks.filter (fun w => w.2.tag != tag)
          inval := s.inval.filter fun i => i.tag != tag }
        s.mbDone []

/-! ## Virtual functions (R367, R368) -/

/-- The VFs bound on a port. -/
def State.portVfs (s : State) (port : Nat) : Nat := (s.vfs.filter fun v => v.2.tag != 0 && v.2.port == port).length
/-- R416: VF_BIND. -/
def execVfBind (st : State) : Host.Outcome State Fault Refusal :=
  .next <| st.mailbox 3 fun s _ a =>
    let v := field a 8 0
    let tag := field a 22 16
    let port := if a.testBit 23 then (List.range 8).find? fun p => s.portVfs p < 64
      else if s.portVfs (field a 26 24) < 64 then some (field a 26 24) else none
    if (s.vf v).tag ≠ 0 then s.mbReject 1
    else if 8 ≤ (s.vfs.filter fun x => x.2.tag == tag && tag != 0).length then s.mbReject 2
    else match port with
      | none => s.mbReject 3
      | some p => if !s.isPart tag then s.mbReject 4
        else (s.updVf v fun x => { x with tag := tag, port := p }).mbDone [BitVec.ofNat 8 p]

/-- R416: VF_UNBIND. -/
def execVfUnbind (st : State) : Host.Outcome State Fault Refusal :=
  .next <| st.mailbox 4 fun s _ a =>
    let v := field a 8 0
    if (s.vf v).queues.any fun q => q.2.launch != 0 then s.mbReject 1
    else if (s.vf v).tag = 0 then s.mbReject 2
    else ((if (s.vf v).locked then s.vfError v else s).unbindVf v).mbDone []

/-! ## Granules (R391; 05 R122) -/

/-- The partition granule above the highest backed one. -/
def Part.nextGran (p : Part) : Nat := match p.grans.getLast? with
  | some g => g.1 + 1
  | none => 0
/-- R416: GRAN_ADD. Data: device granules to take first. -/
def execGranAdd (st : State) : Host.Outcome State Fault Refusal :=
  .next <| st.mailbox 5 fun s _ a =>
    let tag := field a 6 0
    if !s.isPart tag then s.mbReject 1
    else match s.takeGranules s.ev.args (field a 63 32) with
      | none => s.mbReject 4
      | some gs => let n := (s.part tag).nextGran; (s.backGranules tag n gs).mbDone (natBytes 4 n)

/-- R416: GRAN_RELEASE. -/
def execGranRelease (st : State) : Host.Outcome State Fault Refusal :=
  .next <| st.mailbox 6 fun s m a =>
    let tag := field a 6 0
    let count := field a 63 32
    let first := m.mb 16 8
    let p := s.part tag
    let inRange (g : Nat) : Bool := decide (first ≤ g) && decide (g < first + count)
    let gs := p.grans.filter fun g => inRange g.1
    let e0 := p.ephBase.toNat / 2 ^ 21
    let e1 := (p.ephBase.toNat + p.ephSize.toNat - 1) / 2 ^ 21
    if !s.isPart tag then s.mbReject 1
    else if gs.length ≠ count then s.mbReject 2
    else if gs.any fun g => decide (e0 ≤ g.1) && decide (g.1 ≤ e1) then s.mbReject 3
    else
      let s := (gs.filter fun g => !g.2.shr).foldl (fun s g => s.releaseGranule g.2.dev) s
      (s.updPart tag fun p => { p with grans := p.grans.filter fun g => !inRange g.1 }).mbDone []

/-! ## Reshaping (R385) -/

/-- Table 23-5: a map entry: the cores it maps, and whether it names something that does not exist before or after. -/
def State.mapEntry (p : Part) (after : List Nat) (e : Nat) : List (Nat × Nat) × Bool :=
  if e.testBit 31 then
    let new := field e 29 16
    match p.coreAt (field e 13 0) with
    | some c => if new < 16 * after.length then ([(c, after.getD (new / 16) 0 * 16 + new % 16)], false) else ([], true)
    | none => ([], true)
  else
    let old := tileOfWord (field e 9 0)
    let new := tileOfWord (field e 25 16)
    if p.tiles.contains old && after.contains new then ((List.range 16).map fun i => (old * 16 + i, new * 16 + i), false) else ([], true)
/-- R385, Table 23-5: the request in the buffer, and whether its map is bad. -/
def State.readReshape (m : Module) (p : Part) (a : Nat) : Reshape × Bool :=
  let nadd := field a 31 16
  let nrem := field a 47 32
  let n := nadd + nrem
  let word (i : Nat) : Nat := tileOfWord (m.mb (16 + 2 * i) 2)
  let r : Reshape := { added := (List.range nadd).map word, removed := (List.range nrem).map fun i => word (nadd + i) }
  let after := r.tilesAfter p.tiles
  let raw := (List.range (field a 63 48)).map fun i => m.mb (16 + (2 * n + 3) / 4 * 4 + 4 * i) 4
  let es := raw.map fun e => (e.testBit 31, State.mapEntry p after e)
  let named (k : Bool) (c : Nat) : Option Nat :=
    firstSome (fun (x : Bool × List (Nat × Nat) × Bool) => if x.1 == k then (x.2.1.find? fun y => y.1 == c).map Prod.snd else none) es
  let image (c : Nat) : Option Nat := match named true c with
    | some d => some d
    | none => match named false c with
      | some d => some d
      | none => if after.contains (tileOfCore c) then some c else none
  ({ r with cmap := p.cores.filterMap fun c => (image c).map fun d => (c, d) }, es.any fun x => x.2.2)
/-- R385, R416: RESHAPE: a request that passes its checks begins; the command runs until step 9 has ended. -/
def execReshape (st : State) : Host.Outcome State Fault Refusal :=
  .next <| st.mailbox 7 fun s m a =>
    let tag := field a 6 0
    let kind := field a 10 8
    let p := s.part tag
    if !s.isPart tag then s.mbReject 5
    else if kind = 0 || 4 < kind then s.mbReject 6
    else if p.reshape.isSome then s
    else
      let r := State.readReshape m p a
      match s.reshapeBad tag r.1 r.2 with
      | 0 => s.beginReshape tag r.1
      | n => s.mbReject n

/-! ## Exports and shared regions (R377; 22 R398) -/

/-- The partition frame of a valid TT 0 leaf. -/
def State.leafFrame (s : State) (tag va : Nat) : Option Nat :=
  let p := s.part tag
  match s.walk p va with
  | .fault _ _ => none
  | .leaf large e _ =>
    if leafMalformed large e || !e.testBit 0 || targetMalformed large e || leafTT e ≠ 0 then none
    else
      let f := leafTarget e + (if large then va / 65536 % 2048 else 0)
      if (p.place (f * 65536)).isSome then some f else none
/-- R416: EXPORT. -/
def execExportPage (st : State) : Host.Outcome State Fault Refusal :=
  .next <| st.mailbox 8 fun s m a =>
    let idx := field a 19 0
    let tag := field a 26 20
    let va := m.mb 16 8
    if 65536 ≤ idx || (SMap.find s.exports idx).isSome then s.mbReject 1
    else if !s.isPart tag then s.mbReject 3
    else match s.leafFrame tag va with
      | none => s.mbReject 2
      | some f =>
        let imps := (List.range 4).filterMap fun i =>
          let w := m.mb (24 + 2 * i) 2
          if field w 11 5 = 0 then none else some (field w 4 0, field w 11 5)
        (s.setExport idx { wr := a.testBit 27, otag := tag, frame := f, loc := s.module.devId, imps := imps, vpage := field va 56 16 }).mbDone []

/-- R416: UNEXPORT. -/
def execUnexportPage (st : State) : Host.Outcome State Fault Refusal :=
  .next <| st.mailbox 9 fun s _ a =>
    let idx := field a 19 0
    if 65536 ≤ idx || (SMap.find s.exports idx).isNone then s.mbReject 1
    else { s.flushCopies idx with exports := SMap.del s.exports idx }.mbDone []

/-- R416: SHARED_CREATE. Data: device granules to take first. -/
def execSharedCreate (st : State) : Host.Outcome State Fault Refusal :=
  .next <| st.mailbox 10 fun s m a =>
    let members := ((List.range 64).filter fun i => a.testBit i).map (· + 1)
    if members.any fun t => !s.isPart t || (s.part t).region != 0 then s.mbReject 1
    else match s.takeGranules s.ev.args (m.mb 16 4) with
      | none => s.mbReject 4
      | some gs =>
        let num := ((List.range (s.regions.length + 1)).map (· + 1)).find? (fun i => (SMap.find s.regions i).isNone) |>.getD 1
        let s := gs.foldl (fun s g => s.setGran g { s.gran g with shr := true, region := num }) s
        let region : Region := { members := members, grans := gs.map fun g => (g / 32768, g % 32768), key := Config.freeKey s.oracle }
        let s := { s with regions := SMap.put s.regions num region, oracle := s.oracle + 1 }
        let first := members.map fun t => (s.part t).nextGran
        let s := members.foldl (fun s t => s.updPart t fun p =>
          let n := p.nextGran
          { p with region := num, grans := (List.range gs.length).zip gs |>.foldl (fun k x =>
              SMap.put k (n + x.1) { site := x.2 / 32768, dgran := x.2 % 32768, shr := true }) p.grans }) s
        s.mbDone (natBytes 4 num ++ first.flatMap (natBytes 4))

/-- R416, R311: SHARED_FILL: host memory through PF 0 into the region. Data: 1 when the host's read failed. -/
def execSharedFill (st : State) : Host.Outcome State Fault Refusal :=
  .next <| st.mailbox 11 fun s m a =>
    let off := m.mb 16 8
    let len := m.mb 24 4
    let hpa := m.mb 32 8
    match SMap.find s.regions (field a 31 0) with
    | none => s.mbReject 1
    | some r =>
      if r.grans.length * 2 ^ 21 < off + len || s.arg 0 = 1 then s.mbReject 2
      else
        let cells := (List.range len).map fun i =>
          let o := off + i
          let g := r.grans.getD (o / 2 ^ 21) (0, 0)
          ((⟨0, hbmKey g.1 (g.2 * 32 + o / 65536 % 32) (o % 65536)⟩ : Loc), s.readByte ⟨5, hpa + i⟩)
        ((s.writeAll cells).clearPoison (cells.map Prod.fst)).mbDone []

/-! ## Devices, fuses, headroom and links -/

/-- R416, R400: DEV_FORGET. -/
def execDevForget (st : State) : Host.Outcome State Fault Refusal :=
  .next <| st.mailbox 12 fun s _ a =>
    let d := field a 4 0
    if d = s.module.devId || ((SMap.find s.peers d).isNone && !(s.ports.any fun p => p.2.peer == d)) then s.mbReject 1
    else (s.forgetPeer d).payOwed.mbDone []

/-- R416, R375: ROLLBACK_COMMIT. -/
def execRollbackCommit (st : State) : Host.Outcome State Fault Refusal :=
  .next <| st.mailbox 13 fun s m a =>
    let c := field a 1 0
    let n := max (SMap.get 0 m.fuses c) (SMap.get 0 m.svns c)
    (s.updModule fun m => { m with fuses := SMap.set 0 m.fuses c n }).mbDone [BitVec.ofNat 8 n]

/-- R416: SET_HEADROOM. -/
def execSetHeadroom (st : State) : Host.Outcome State Fault Refusal :=
  .next <| st.mailbox 14 fun s _ a =>
    let f := field a 7 0
    let n := field a 11 8
    if (71 < f && f ≠ 255) || (f < 72 && (s.fld f).degraded) then s.mbReject 1
    else if 9 < n then s.mbReject 2
    else if f ≠ 255 then (s.writePower 0 f n).mbDone []
    else (((List.range 72).filter fun f => !(s.fld f).degraded).foldl (fun s f => s.writePower 0 f n) s).mbDone []

/-- R416: LINK_CTL. -/
def execLinkCtl (st : State) : Host.Outcome State Fault Refusal :=
  .next <| st.mailbox 15 fun s _ a =>
    let port := field a 5 0
    let peer := field a 11 7
    if a.testBit 12 && s.ports.any fun p => p.1 != port && p.2.ctl.getLsbD 6 && p.2.peer == peer then s.mbReject 1
    else (s.writeLkCtl port ((a.testBit 6).toNat + peer * 2 + (a.testBit 12).toNat * 2 ^ 6)).mbDone []

end Sys2Proof.Machine
end

