-- ==== Sys2Proof/Machine/EvMesh.lean ====
section
/-!
DEFINITION. Events of the mesh and its destinations: deliveries (05 R130), drops and their notices (05 R131; 23 R413), indivisible updates
(03 R91) and the fault ring (16 R310).
-/

namespace Sys2Proof.Machine

/-- Whether a packet is performed by an indivisible unit. -/
def Packet.isAtomic (p : Packet) : Bool := match p.op with
  | .reduce _ _ => true
  | _ => false
/-- R130: a packet in flight arrives. -/
def State.arrive (s : State) (id : Nat) (atomic : Bool) : State :=
  match s.packets.find? fun p => p.id == id && p.isAtomic == atomic with
  | none => s
  | some p => (s.deliver p).closeQuiet

/-- R130: a packet reaches its destination and is delivered or dropped by the tag check. Data: packet. -/
def execPacketDelivery (st : State) : Host.Outcome State Fault Refusal := .next (st.arrive (st.arg 0) false)

/-- R91, R93: a reduction is performed where its line is served, each lane once, or dropped. Data: packet. -/
def execAtomicPerform (st : State) : Host.Outcome State Fault Refusal := .next (st.arrive (st.arg 0) true)

/-- R413: the oldest drop record is appended at `DROP_HEAD`, or counted in `DROP_LOST` when the log is full. -/
def execDropLogAppend (st : State) : Host.Outcome State Fault Refusal :=
  .next <| match st.drops with
    | [] => st
    | d :: rest =>
      { st with drops := rest }.updModule fun m =>
        if (m.dropHead - m.dropTail).toNat = 65536 then { m with dropLost := satInc m.dropLost }
        else { m with dropLog := SMap.set 0 m.dropLog (m.dropHead.toNat % 65536) d.rec_, dropHead := m.dropHead + 1 }

/-- R131: the DROPNOTICE record of a negative acknowledgement. -/
def State.dropNotice (s : State) (n : Nack) : BitVec 512 :=
  let core := if n.src.unit = 2 then n.src.core * 16 else n.src.core
  recordOf kDropnotice 0 0 0 false false n.seqc false ((s.part n.src.tag).coreIndex core) (if n.src.unit = 0 then n.pc else 0) n.va n.b n.lg n.seq
    n.bytes n.extent (if n.src.unit = 0 then 0 else n.job) n.src.lq
/-- R131, R132: the oldest negative acknowledgement reaches its sender, whose partition's ring gets a DROPNOTICE record. -/
def execNegativeAcknowledgement (st : State) : Host.Outcome State Fault Refusal :=
  .next <| match st.nacks with
    | [] => st
    | n :: rest =>
      let s := { st with nacks := rest }
      if (SMap.find s.parts n.src.tag).isNone then s else s.raiseRecord n.src.tag (s.dropNotice n)

/-- R310: the oldest raised record takes the next `RSEQ` and is written at `FR_HEAD` or counted in `FR_LOST`. -/
def execFaultRingWrite (st : State) : Host.Outcome State Fault Refusal := .next st.ringWrite

end Sys2Proof.Machine
end

