-- ==== Sys2Proof/Machine/EvTx.lean ====
section
/-!
DEFINITION. The slices' side of a commit (14 R282; 16 R295–R299). An event whose condition does not hold changes nothing (assumption 2).
-/

namespace Sys2Proof.Machine

def State.commit? (s : State) (id : Nat) : Option TxCommit := s.commits.find? fun c => c.id == id
def State.updCommit (s : State) (id : Nat) (f : TxCommit → TxCommit) : State := { s with commits := updWhere (fun c => c.id == id) f s.commits }

/-- R295: the lines of a prepare at a home slice, ascending. -/
def TxCommit.linesAt (c : TxCommit) (home : Nat) : List Nat :=
  sortNat (((c.log.rlog.filter fun e => e.home == home).map fun e => e.l.addr / 128) ++ ((c.log.wlog.filter fun e => e.home == home).map fun e => e.l.addr / 128))
/-- R295: a line that the lane may not lock now. -/
def State.lineTaken (s : State) (c : TxCommit) (home line : Nat) : Bool :=
  match SMap.find s.locks line with
  | some k => !(k.ctx == c.ctx && k.lane == c.lane)
  | none => decide (4096 ≤ (s.locks.filter fun k => k.2.home == home).length)
/-- R295: lock lines in ascending order up to the first one taken: the state and that line. -/
def State.lockLines (s : State) (c : TxCommit) (home : Nat) : List Nat → State × Option Nat
  | [] => (s, none)
  | l :: t =>
    if s.lineTaken c home l then (s, some l)
    else State.lockLines { s with locks := SMap.put s.locks l { ctx := c.ctx, lane := c.lane, home := home } } c home t
/-- Release a lane's locks at a slice. -/
def State.unlock (s : State) (c : TxCommit) (home : Nat) : State :=
  { s with locks := s.locks.filter fun k => !(k.2.ctx == c.ctx && k.2.lane == c.lane && k.2.home == home) }
/-- R295: the lowest line whose logged word no longer holds its value. -/
def State.staleLine (s : State) (c : TxCommit) (home : Nat) : Option Nat :=
  ((c.log.rlog.filter fun e => e.home == home && s.readNum e.l 4 != e.v.toNat).map fun e => e.l.addr / 128).min?
/-- R295: an answer other than READY; the lowest-addressed failing line gives the cause. -/
def TxCommit.answer (cause line : Nat) (c : TxCommit) : TxCommit :=
  if c.verdict = 0 || line < c.failLine then { c with verdict := cause, failLine := line } else c
/-- R282: prepares come in ascending lane order; the lanes above a token holder that waits wait with it. -/
def State.prepareTurn (s : State) (c : TxCommit) (home : Nat) : Bool :=
  !(s.commits.any fun d => d.ctx == c.ctx && decide (d.lane < c.lane) && d.todo.contains home)

/-- R295: a home slice handles one prepare. Data: commit, home tile. -/
def execTxPrepare (st : State) : Host.Outcome State Fault Refusal :=
  let home := st.arg 1
  .next <| match st.commit? (st.arg 0) with
    | none => st
    | some c =>
      if c.phase ≠ 0 || !c.todo.contains home || !st.prepareTurn c home then st
      else match st.lockLines c home (c.linesAt home) with
        | (s, some l) =>
          if c.holder then s
          else (s.unlock c home).updCommit c.id fun c => { c.answer 1 l with todo := c.todo.filter (· ≠ home) }
        | (s, none) => s.updCommit c.id fun c =>
            let c := { c with todo := c.todo.filter (· ≠ home), ready := c.ready ++ [home] }
            match s.staleLine c home with
            | some l => c.answer 2 l
            | none => c

/-- R295: a commit with nothing left to do is over; one whose group is gone leaves no trace. -/
def State.settleCommit (s : State) (id : Nat) : State :=
  match s.commit? id with
  | none => s
  | some c =>
    if c.phase = 0 || !c.ready.isEmpty then s
    else if (s.ctx? c.ctx).isNone then { s with commits := s.commits.filter fun d => d.id ≠ id }
    else s.updCommit id fun c => { c with phase := 3, ok := c.verdict == 0 }

/-- R282: the group's prepares stand before its commits: a lane's prepare is not yet handled. -/
def State.preparing (s : State) (ctx : Nat) : Bool := s.commits.any fun d => d.ctx == ctx && d.phase == 0 && !d.todo.isEmpty
/-- R282, R295: a lane has every answer: it sends commits, or aborts and sends releases. Data: commit. -/
def execTxAnswer (st : State) : Host.Outcome State Fault Refusal :=
  .next <| match st.commit? (st.arg 0) with
    | none => st
    | some c =>
      if c.phase ≠ 0 || !c.todo.isEmpty then st
      else if c.verdict = 0 && st.preparing c.ctx then st
      else if c.verdict = 0 then (st.updCommit c.id fun c => { c with phase := 1 }).settleCommit c.id
      else ((st.updCommit c.id fun c => { c with phase := 2 }).updCtx c.ctx fun x => x.abortLane c.verdict 0 0 c.lane).settleCommit c.id

/-- R210, R295: a slice applies the masked bytes of a lane and releases its locks in one step. Data: commit, home tile. -/
def execTxCommit (st : State) : Host.Outcome State Fault Refusal :=
  let home := st.arg 1
  .next <| match st.commit? (st.arg 0) with
    | none => st
    | some c =>
      if c.phase ≠ 1 || !c.ready.contains home then st
      else
        let cells := (c.log.wlog.filter fun e => e.home == home).flatMap fun e =>
          ((List.range 4).filter fun i => e.m.getLsbD i).map fun i => ((⟨e.l.tt, e.l.addr + i⟩ : Loc), getByte e.v i)
        let s := (((st.writeAll cells).clearPoison (cells.map Prod.fst)).unlock c home).forwardWrites cells
        (s.updCommit c.id fun c => { c with ready := c.ready.filter (· ≠ home) }).settleCommit c.id

/-- R295: a slice releases the locks of a lane that aborts. Data: commit, home tile. -/
def execTxRelease (st : State) : Host.Outcome State Fault Refusal :=
  let home := st.arg 1
  .next <| match st.commit? (st.arg 0) with
    | none => st
    | some c =>
      if c.phase ≠ 2 || !c.ready.contains home then st
      else ((st.unlock c home).updCommit c.id fun c => { c with ready := c.ready.filter (· ≠ home) }).settleCommit c.id

end Sys2Proof.Machine
end

