-- ==== Sys2Proof/Machine/LaneFloat.lean ====
section
/-!
DEFINITION. Floating-point lane instructions: FP32 (02 R50–R52), BF16 pairs (R53), conversions (R54, R55), and the
floating-point short forms (01 R18).
-/

namespace Sys2Proof.Machine

/-- R50: b with bit 31 inverted. -/
def negElem (b : W32) : W32 := b ^^^ 0x80000000
/-- R55: d with two of its bytes replaced by the codes of a and b. -/
def cvt8Pair (hi : Bool) (d a b : W32) : FRes :=
  let x := cvt8Elem a
  let y := cvt8Elem b
  let c : W32 := (y.1 ++ x.1 : W16).setWidth 32
  ⟨if hi then (c <<< 16) ||| (d &&& 0x0000FFFF) else c ||| (d &&& 0xFFFF0000), x.2 ||| y.2⟩
/-- R55: a BF16 half as FP32; a signalling NaN becomes canonical and raises invalid. -/
def unpkElem (h : W32) : FRes := if (f32Val h).isNaN then ⟨canonNaN, sigFlag [f32Val h]⟩ else ⟨h, 0⟩

/-- R50: d := RNE32(a + b). -/
def execFadd (s : Bool) (g : BitVec 3) (d a b : BitVec 6) (st : State) : Host.Outcome State Fault Refusal :=
  float2 s g 0 d a b fadd32 st

/-- R50: d := RNE32(a − b). -/
def execFsub (s : Bool) (g : BitVec 3) (d a b : BitVec 6) (st : State) : Host.Outcome State Fault Refusal :=
  float2 s g 0 d a b fsub32 st

/-- R50: d := RNE32(a × b). -/
def execFmul (s : Bool) (g : BitVec 3) (d a b : BitVec 6) (st : State) : Host.Outcome State Fault Refusal :=
  float2 s g 1 d a b fmul32 st

/-- R50: d := RNE32(a × b + d), one rounding. -/
def execFfma (s : Bool) (g : BitVec 3) (d a b : BitVec 6) (st : State) : Host.Outcome State Fault Refusal :=
  float3 s g 1 d a b (fun z x y => ffma32 x y z) st

/-- R51: the smaller. -/
def execFmin (s : Bool) (g : BitVec 3) (d a b : BitVec 6) (st : State) : Host.Outcome State Fault Refusal :=
  float2 s g 0 d a b (minMax false) st

/-- R51: the larger. -/
def execFmax (s : Bool) (g : BitVec 3) (d a b : BitVec 6) (st : State) : Host.Outcome State Fault Refusal :=
  float2 s g 0 d a b (minMax true) st

/-- R50: d := b with bit 31 inverted; A is not read (R13). -/
def execFneg (s : Bool) (g : BitVec 3) (d _a b : BitVec 6) (st : State) : Host.Outcome State Fault Refusal :=
  lane1 s g 0 d b negElem st

/-- R52: a with bit 31 cleared. -/
def execFabs (s : Bool) (g : BitVec 3) (d a : BitVec 6) (st : State) : Host.Outcome State Fault Refusal :=
  lane1 s g 0 d a (· &&& 0x7FFFFFFF) st

/-- R52: d := RNE32 of 1/a, deferred. -/
def execFrcp (s : Bool) (g : BitVec 3) (d a : BitVec 6) (st : State) : Host.Outcome State Fault Refusal :=
  slow1 s g 2 d a frcp32 st

/-- R52: d := RNE32 of 1/√a, deferred. -/
def execFrsq (s : Bool) (g : BitVec 3) (d a : BitVec 6) (st : State) : Host.Outcome State Fault Refusal :=
  slow1 s g 2 d a frsq32 st

/-- R52: d := RNE32 of 2^a, deferred. -/
def execFexp2 (s : Bool) (g : BitVec 3) (d a : BitVec 6) (st : State) : Host.Outcome State Fault Refusal :=
  slow1 s g 2 d a fexp232 st

/-- R52: d := RNE32 of log₂ a, deferred. -/
def execFlog2 (s : Bool) (g : BitVec 3) (d a : BitVec 6) (st : State) : Host.Outcome State Fault Refusal :=
  slow1 s g 2 d a flog232 st

/-- R52: d := RNE32 of √a, deferred. -/
def execFsqrt (s : Bool) (g : BitVec 3) (d a : BitVec 6) (st : State) : Host.Outcome State Fault Refusal :=
  slow1 s g 3 d a fsqrt32 st

/-- R50: d := RNE32(a / b), class 3 and deferred. -/
def execFdiv (s : Bool) (g : BitVec 3) (d a b : BitVec 6) (st : State) : Host.Outcome State Fault Refusal :=
  slow2 s g 3 d a b fdiv32 st

/-- R53: sums of BF16 pairs. -/
def execHadd2 (s : Bool) (g : BitVec 3) (d a b : BitVec 6) (st : State) : Host.Outcome State Fault Refusal :=
  float2 s g 0 d a b Sys2Proof.Machine.hadd2 st

/-- R53: products of BF16 pairs. -/
def execHmul2 (s : Bool) (g : BitVec 3) (d a b : BitVec 6) (st : State) : Host.Outcome State Fault Refusal :=
  float2 s g 1 d a b Sys2Proof.Machine.hmul2 st

/-- R53: a × b + d of BF16 pairs, one rounding. -/
def execHfma2 (s : Bool) (g : BitVec 3) (d a b : BitVec 6) (st : State) : Host.Outcome State Fault Refusal :=
  float3 s g 1 d a b (fun z x y => Sys2Proof.Machine.hfma2 x y z) st

/-- R53: the larger of each half. -/
def execHmax2 (s : Bool) (g : BitVec 3) (d a b : BitVec 6) (st : State) : Host.Outcome State Fault Refusal :=
  float2 s g 0 d a b (hminMax2 true) st

/-- R53: the smaller of each half. -/
def execHmin2 (s : Bool) (g : BitVec 3) (d a b : BitVec 6) (st : State) : Host.Outcome State Fault Refusal :=
  float2 s g 0 d a b (hminMax2 false) st

/-- R53: d := RNE32(d + a.lo × b.lo + a.hi × b.hi). -/
def execHdot2 (s : Bool) (g : BitVec 3) (d a b : BitVec 6) (st : State) : Host.Outcome State Fault Refusal :=
  float3 s g 1 d a b (fun z x y => Sys2Proof.Machine.hdot2 x y z) st

/-- R54: convert by the type pair e and mode m. -/
def execCvt (s : Bool) (g m : BitVec 3) (d a e : BitVec 6) (st : State) : Host.Outcome State Fault Refusal :=
  float1 s g 1 d a (cvtElem m e) st

/-- R55: d[15:0] := round_bf16(a), d[31:16] := round_bf16(b). -/
def execPack (s : Bool) (g : BitVec 3) (d a b : BitVec 6) (st : State) : Host.Outcome State Fault Refusal :=
  float2 s g 1 d a b (fun x y => bfPair (roundBf .rne x) (roundBf .rne y)) st

/-- R55: d := FP32 of a[15:0]. -/
def execUnpkLo (s : Bool) (g : BitVec 3) (d a : BitVec 6) (st : State) : Host.Outcome State Fault Refusal :=
  float1 s g 1 d a (fun x => unpkElem (bfLo x)) st

/-- R55: d := FP32 of a[31:16]. -/
def execUnpkHi (s : Bool) (g : BitVec 3) (d a : BitVec 6) (st : State) : Host.Outcome State Fault Refusal :=
  float1 s g 1 d a (fun x => unpkElem (bfHi x)) st

/-- R55: E4M3 codes of a and b into bytes 0 and 1. -/
def execCvt8Lo (s : Bool) (g : BitVec 3) (d a b : BitVec 6) (st : State) : Host.Outcome State Fault Refusal :=
  float3 s g 1 d a b (cvt8Pair false) st

/-- R55: E4M3 codes of a and b into bytes 2 and 3. -/
def execCvt8Hi (s : Bool) (g : BitVec 3) (d a b : BitVec 6) (st : State) : Host.Outcome State Fault Refusal :=
  float3 s g 1 d a b (cvt8Pair true) st

/-- R55: d := FP32 of E4M3 byte k of a. -/
def execUnpk8 (s : Bool) (g : BitVec 3) (d a : BitVec 6) (k : BitVec 2) (st : State) : Host.Outcome State Fault Refusal :=
  lane1 s g 1 d a (fun x => e4ToF32 (x.extractLsb' (8 * k.toNat) 8)) st

/-- A floating-point short form d := f d a. -/
def shortF (sm : Bool) (cls : Nat) (d a : BitVec 5) (f : W32 → W32 → FRes) (st : State) : Host.Outcome State Fault Refusal :=
  issue { laneMeta sm 0 cls (topReg [d.toNat, a.toNat]) [d.toNat, a.toNat] with len := 2 } st fun t =>
    let vd := t.readV d.toNat
    let va := t.readV a.toNat
    let m := t.act 0
    let r := fun i => if m.getLsbD i then f (laneOf vd i) (laneOf va i) else ⟨0, 0⟩
    .done ((t.writeV d.toNat m (ofLanes fun i => (r i).v)).orFlags (flagsOf m fun i => (r i).fl))

/-- Table 01-4: d := d + a. -/
def execFaddShort (s : Bool) (d a : BitVec 5) (st : State) : Host.Outcome State Fault Refusal :=
  shortF s 0 d a fadd32 st

/-- Table 01-4: d := d − a. -/
def execFsubShort (s : Bool) (d a : BitVec 5) (st : State) : Host.Outcome State Fault Refusal :=
  shortF s 0 d a fsub32 st

/-- Table 01-4: d := d × a. -/
def execFmulShort (s : Bool) (d a : BitVec 5) (st : State) : Host.Outcome State Fault Refusal :=
  shortF s 1 d a fmul32 st

/-- Table 01-4: d := max(d, a). -/
def execFmaxShort (s : Bool) (d a : BitVec 5) (st : State) : Host.Outcome State Fault Refusal :=
  shortF s 0 d a (minMax true) st

/-- Table 01-4: d := min(d, a). -/
def execFminShort (s : Bool) (d a : BitVec 5) (st : State) : Host.Outcome State Fault Refusal :=
  shortF s 0 d a (minMax false) st

/-- Table 01-4: d := −a. -/
def execFnegShort (s : Bool) (d a : BitVec 5) (st : State) : Host.Outcome State Fault Refusal :=
  issue { laneMeta s 0 0 (topReg [d.toNat, a.toNat]) [a.toNat] with len := 2 } st fun t =>
    let va := t.readV a.toNat
    .done (t.writeV d.toNat (t.act 0) (ofLanes fun i => negElem (laneOf va i)))

end Sys2Proof.Machine
end

