-- ==== Sys2Proof/Machine/LaneInt.lean ====
section
/-!
DEFINITION. Integer lane instructions: majors 0x00 to 0x05 (02 R46–R49) and the integer short forms (01 R18).
-/

namespace Sys2Proof.Machine

/-- Table 02-2: bits [63:32] of the signed and unsigned product. -/
def mulHiS (a b : W32) : W32 := BitVec.ofInt 32 (a.toInt * b.toInt / 2 ^ 32)
def mulHiU (a b : W32) : W32 := BitVec.ofNat 32 (a.toNat * b.toNat / 2 ^ 32)
/-- Table 02-2: shifts take b[4:0]. -/
def shlElem (a b : W32) : W32 := a <<< (b.toNat % 32)
def shrElem (a b : W32) : W32 := a >>> (b.toNat % 32)
def sraElem (a b : W32) : W32 := a.sshiftRight (b.toNat % 32)
def minS (a b : W32) : W32 := if a.toInt ≤ b.toInt then a else b
def maxS (a b : W32) : W32 := if a.toInt ≤ b.toInt then b else a
def minU (a b : W32) : W32 := if a.toNat ≤ b.toNat then a else b
def maxU (a b : W32) : W32 := if a.toNat ≤ b.toNat then b else a
/-- R46: quotients truncate toward zero; b = 0 gives all ones; the overflow case wraps. -/
def divS (a b : W32) : W32 := if b = 0 then 0xFFFFFFFF else BitVec.ofInt 32 (Int.tdiv a.toInt b.toInt)
def divU (a b : W32) : W32 := if b = 0 then 0xFFFFFFFF else BitVec.ofNat 32 (a.toNat / b.toNat)
/-- R46: a − b × q. -/
def remS (a b : W32) : W32 := a - b * divS a b
def remU (a b : W32) : W32 := a - b * divU a b
/-- R48. -/
def absElem (a : W32) : W32 := if a.toInt < 0 then -a else a
def clzElem (a : W32) : W32 := if a = 0 then 32 else BitVec.ofNat 32 (31 - Nat.log2 a.toNat)
def popElem (a : W32) : W32 := BitVec.ofNat 32 ((List.range 32).countP fun i => a.getLsbD i)

/-- R46: d := a + b. -/
def execIadd (s : Bool) (g : BitVec 3) (d a b : BitVec 6) (st : State) : Host.Outcome State Fault Refusal :=
  lane2 s g 0 d a b (· + ·) st

/-- R46: d := a − b. -/
def execIsub (s : Bool) (g : BitVec 3) (d a b : BitVec 6) (st : State) : Host.Outcome State Fault Refusal :=
  lane2 s g 0 d a b (· - ·) st

/-- R46: d := bits [31:0] of a × b. -/
def execImul (s : Bool) (g : BitVec 3) (d a b : BitVec 6) (st : State) : Host.Outcome State Fault Refusal :=
  lane2 s g 1 d a b (· * ·) st

/-- R46: the high word of the signed product, deferred. -/
def execImulhI32 (s : Bool) (g : BitVec 3) (d a b : BitVec 6) (st : State) : Host.Outcome State Fault Refusal :=
  slow2 s g 2 d a b (fun x y => ⟨mulHiS x y, 0⟩) st

/-- R46: the high word of the unsigned product, deferred. -/
def execImulhN32 (s : Bool) (g : BitVec 3) (d a b : BitVec 6) (st : State) : Host.Outcome State Fault Refusal :=
  slow2 s g 2 d a b (fun x y => ⟨mulHiU x y, 0⟩) st

/-- R46: d := a AND b. -/
def execAnd (s : Bool) (g : BitVec 3) (d a b : BitVec 6) (st : State) : Host.Outcome State Fault Refusal :=
  lane2 s g 0 d a b (· &&& ·) st

/-- R46: d := a OR b. -/
def execOr (s : Bool) (g : BitVec 3) (d a b : BitVec 6) (st : State) : Host.Outcome State Fault Refusal :=
  lane2 s g 0 d a b (· ||| ·) st

/-- R46: d := a XOR b. -/
def execXor (s : Bool) (g : BitVec 3) (d a b : BitVec 6) (st : State) : Host.Outcome State Fault Refusal :=
  lane2 s g 0 d a b (· ^^^ ·) st

/-- R46: d := a AND NOT b. -/
def execAndn (s : Bool) (g : BitVec 3) (d a b : BitVec 6) (st : State) : Host.Outcome State Fault Refusal :=
  lane2 s g 0 d a b (fun x y => x &&& ~~~y) st

/-- R46: d := a shifted left by b[4:0]. -/
def execShl (s : Bool) (g : BitVec 3) (d a b : BitVec 6) (st : State) : Host.Outcome State Fault Refusal :=
  lane2 s g 0 d a b shlElem st

/-- R46: d := a shifted logically right by b[4:0]. -/
def execShr (s : Bool) (g : BitVec 3) (d a b : BitVec 6) (st : State) : Host.Outcome State Fault Refusal :=
  lane2 s g 0 d a b shrElem st

/-- R46: d := a shifted arithmetically right by b[4:0]. -/
def execSra (s : Bool) (g : BitVec 3) (d a b : BitVec 6) (st : State) : Host.Outcome State Fault Refusal :=
  lane2 s g 0 d a b sraElem st

/-- R46: d := the smaller, signed. -/
def execIminI32 (s : Bool) (g : BitVec 3) (d a b : BitVec 6) (st : State) : Host.Outcome State Fault Refusal :=
  lane2 s g 0 d a b minS st

/-- R46: d := the smaller, unsigned. -/
def execIminN32 (s : Bool) (g : BitVec 3) (d a b : BitVec 6) (st : State) : Host.Outcome State Fault Refusal :=
  lane2 s g 0 d a b minU st

/-- R46: d := the larger, signed. -/
def execImaxI32 (s : Bool) (g : BitVec 3) (d a b : BitVec 6) (st : State) : Host.Outcome State Fault Refusal :=
  lane2 s g 0 d a b maxS st

/-- R46: d := the larger, unsigned. -/
def execImaxN32 (s : Bool) (g : BitVec 3) (d a b : BitVec 6) (st : State) : Host.Outcome State Fault Refusal :=
  lane2 s g 0 d a b maxU st

/-- R46: the signed quotient, class 3 and deferred. -/
def execIdivI32 (s : Bool) (g : BitVec 3) (d a b : BitVec 6) (st : State) : Host.Outcome State Fault Refusal :=
  slow2 s g 3 d a b (fun x y => ⟨divS x y, 0⟩) st

/-- R46: the unsigned quotient, class 3 and deferred. -/
def execIdivN32 (s : Bool) (g : BitVec 3) (d a b : BitVec 6) (st : State) : Host.Outcome State Fault Refusal :=
  slow2 s g 3 d a b (fun x y => ⟨divU x y, 0⟩) st

/-- R46: the signed remainder, class 3 and deferred. -/
def execIremI32 (s : Bool) (g : BitVec 3) (d a b : BitVec 6) (st : State) : Host.Outcome State Fault Refusal :=
  slow2 s g 3 d a b (fun x y => ⟨remS x y, 0⟩) st

/-- R46: the unsigned remainder, class 3 and deferred. -/
def execIremN32 (s : Bool) (g : BitVec 3) (d a b : BitVec 6) (st : State) : Host.Outcome State Fault Refusal :=
  slow2 s g 3 d a b (fun x y => ⟨remU x y, 0⟩) st

/-- R46: d := bits [31:0] of a × b + d. -/
def execImad (s : Bool) (g : BitVec 3) (d a b : BitVec 6) (st : State) : Host.Outcome State Fault Refusal :=
  lane3 s g 1 d a b (fun z x y => x * y + z) st

/-- R47: every lane whose `em` bit is 1 takes a where the selector is 1 and b elsewhere. -/
def execSel (s : Bool) (p : BitVec 3) (d a b : BitVec 6) (st : State) : Host.Outcome State Fault Refusal :=
  issue (laneMeta s 0 0 (topReg [d.toNat, a.toNat, b.toNat]) [a.toNat, b.toNat]) st fun t =>
    let va := t.readV a.toNat
    let vb := t.readV b.toNat
    let q := t.readP p.toNat
    .done (t.writeV d.toNat t.cur.em (ofLanes fun i => if q.getLsbD i then laneOf va i else laneOf vb i))

/-- R46: d := b; A is not read (R13). -/
def execMov (s : Bool) (g : BitVec 3) (d _a b : BitVec 6) (st : State) : Host.Outcome State Fault Refusal :=
  lane1 s g 0 d b id st

/-- R48: d := the magnitude of a. -/
def execIabs (s : Bool) (g : BitVec 3) (d a : BitVec 6) (st : State) : Host.Outcome State Fault Refusal :=
  lane1 s g 0 d a absElem st

/-- R48: d := the number of leading zero bits of a. -/
def execClz (s : Bool) (g : BitVec 3) (d a : BitVec 6) (st : State) : Host.Outcome State Fault Refusal :=
  lane1 s g 0 d a clzElem st

/-- R48: d := the number of one bits of a. -/
def execPopc (s : Bool) (g : BitVec 3) (d a : BitVec 6) (st : State) : Host.Outcome State Fault Refusal :=
  lane1 s g 0 d a popElem st

/-- R49: d := d + imm, imm sign-extended. -/
def execIaddi (s : Bool) (g : BitVec 3) (d : BitVec 6) (i : BitVec 12) (st : State) : Host.Outcome State Fault Refusal :=
  laneImm s g d true (· + i.signExtend 32) st

/-- R49: d := d AND imm, imm sign-extended. -/
def execAndi (s : Bool) (g : BitVec 3) (d : BitVec 6) (i : BitVec 12) (st : State) : Host.Outcome State Fault Refusal :=
  laneImm s g d true (· &&& i.signExtend 32) st

/-- R49: d := d OR imm, imm sign-extended. -/
def execOri (s : Bool) (g : BitVec 3) (d : BitVec 6) (i : BitVec 12) (st : State) : Host.Outcome State Fault Refusal :=
  laneImm s g d true (· ||| i.signExtend 32) st

/-- R49: d := d XOR imm, imm sign-extended. -/
def execXori (s : Bool) (g : BitVec 3) (d : BitVec 6) (i : BitVec 12) (st : State) : Host.Outcome State Fault Refusal :=
  laneImm s g d true (· ^^^ i.signExtend 32) st

/-- R49: d shifted left by imm. -/
def execShli (s : Bool) (g : BitVec 3) (d : BitVec 6) (i : BitVec 5) (st : State) : Host.Outcome State Fault Refusal :=
  laneImm s g d true (· <<< i.toNat) st

/-- R49: d shifted logically right by imm. -/
def execShri (s : Bool) (g : BitVec 3) (d : BitVec 6) (i : BitVec 5) (st : State) : Host.Outcome State Fault Refusal :=
  laneImm s g d true (· >>> i.toNat) st

/-- R49: d shifted arithmetically right by imm. -/
def execSrai (s : Bool) (g : BitVec 3) (d : BitVec 6) (i : BitVec 5) (st : State) : Host.Outcome State Fault Refusal :=
  laneImm s g d true (fun x => x.sshiftRight i.toNat) st

/-- R49: d := imm; d is not read. -/
def execLii (s : Bool) (g : BitVec 3) (d : BitVec 6) (i : BitVec 12) (st : State) : Host.Outcome State Fault Refusal :=
  laneImm s g d false (fun _ => i.signExtend 32) st

/-- R49: d := bits [31:0] of (d << 12) OR imm, zero-extended. -/
def execLiu (s : Bool) (g : BitVec 3) (d : BitVec 6) (i : BitVec 12) (st : State) : Host.Outcome State Fault Refusal :=
  laneImm s g d true (fun x => (x <<< 12) ||| i.setWidth 32) st

/-! ## Short forms (Table 01-4): the 32-bit forms without a guard, on `v0`–`v31` -/

/-- A short form d := f d a on the lanes whose `em` bit is 1. -/
def short2 (sm : Bool) (cls : Nat) (d a : BitVec 5) (f : W32 → W32 → W32) (st : State) : Host.Outcome State Fault Refusal :=
  issue { laneMeta sm 0 cls (topReg [d.toNat, a.toNat]) [d.toNat, a.toNat] with len := 2 } st fun t =>
    let vd := t.readV d.toNat
    let va := t.readV a.toNat
    .done (t.writeV d.toNat (t.act 0) (ofLanes fun i => f (laneOf vd i) (laneOf va i)))

/-- Table 01-4: d := a. -/
def execMovShort (s : Bool) (d a : BitVec 5) (st : State) : Host.Outcome State Fault Refusal :=
  issue { laneMeta s 0 0 (topReg [d.toNat, a.toNat]) [a.toNat] with len := 2 } st fun t =>
    let va := t.readV a.toNat
    .done (t.writeV d.toNat (t.act 0) (ofLanes fun i => laneOf va i))

/-- Table 01-4: d := d + a. -/
def execIaddShort (s : Bool) (d a : BitVec 5) (st : State) : Host.Outcome State Fault Refusal :=
  short2 s 0 d a (· + ·) st

/-- Table 01-4: d := d − a. -/
def execIsubShort (s : Bool) (d a : BitVec 5) (st : State) : Host.Outcome State Fault Refusal :=
  short2 s 0 d a (· - ·) st

/-- Table 01-4: d := d × a. -/
def execImulShort (s : Bool) (d a : BitVec 5) (st : State) : Host.Outcome State Fault Refusal :=
  short2 s 1 d a (· * ·) st

/-- Table 01-4: d := d AND a. -/
def execAndShort (s : Bool) (d a : BitVec 5) (st : State) : Host.Outcome State Fault Refusal :=
  short2 s 0 d a (· &&& ·) st

/-- Table 01-4: d := d OR a. -/
def execOrShort (s : Bool) (d a : BitVec 5) (st : State) : Host.Outcome State Fault Refusal :=
  short2 s 0 d a (· ||| ·) st

/-- Table 01-4: d := d XOR a. -/
def execXorShort (s : Bool) (d a : BitVec 5) (st : State) : Host.Outcome State Fault Refusal :=
  short2 s 0 d a (· ^^^ ·) st

/-- Table 01-4: d := d << a. -/
def execShlShort (s : Bool) (d a : BitVec 5) (st : State) : Host.Outcome State Fault Refusal :=
  short2 s 0 d a shlElem st

/-- Table 01-4: d := d >> a. -/
def execShrShort (s : Bool) (d a : BitVec 5) (st : State) : Host.Outcome State Fault Refusal :=
  short2 s 0 d a shrElem st

end Sys2Proof.Machine
end

