-- ==== Sys2Proof/Machine/LanePred.lean ====
section
/-!
DEFINITION. Predicates, compares and the execution mask (02 R56–R59), lane movement and reduction (02 R60–R62).
-/

namespace Sys2Proof.Machine

/-- R311: an active lane names a poisoned element of a register it moves from. -/
def State.namesPoison (s : State) (m : Mask) (r : Nat) (idx : Nat → Nat) : Bool :=
  !s.cur.poisonV.isEmpty && (maskLanes m).any fun i => (SMap.get 0 s.cur.poisonV r).getLsbD (idx i)
/-- R309: those lanes. -/
def State.poisonNamers (s : State) (m : Mask) (r : Nat) (idx : Nat → Nat) : Mask :=
  ofBits fun i => m.getLsbD i && (SMap.get 0 s.cur.poisonV r).getLsbD (idx i)

/-- R60: d_i := element `idx i` of a in the active lanes. -/
def moveLanes (sm : Bool) (g : BitVec 3) (d a b : BitVec 6) (idx : Mask → Vec → Nat → Nat) (st : State) :
    Host.Outcome State Fault Refusal :=
  issue (laneMeta sm g 1 (topReg [d.toNat, a.toNat, b.toNat]) [b.toNat]) st fun t =>
    let va := t.readV a.toNat
    let vb := t.readV b.toNat
    let m := t.act g
    if t.namesPoison m a.toNat (idx m vb) then .event t (t.regPoison (t.poisonNamers m a.toNat (idx m vb)))
    else .done (t.writeV d.toNat m (ofLanes fun i => laneOf va (idx m vb i)))

/-- Table 02-5: identity and combination of a reduction. -/
def reduceId : Nat → W32
  | 0 => 0 | 1 => 0x7FFFFFFF | 2 => 0x80000000 | 3 => 0xFFFFFFFF | 4 => 0 | 5 => 0xFFFFFFFF | 6 => 0 | 7 => 0
  | 8 => 0x80000000 | 9 => 0x7F800000 | _ => 0xFF800000
def reduceOp (e : Nat) (acc x : W32) : FRes :=
  match e with
  | 0 => ⟨acc + x, 0⟩ | 1 => ⟨minS acc x, 0⟩ | 2 => ⟨maxS acc x, 0⟩ | 3 => ⟨minU acc x, 0⟩ | 4 => ⟨maxU acc x, 0⟩
  | 5 => ⟨acc &&& x, 0⟩ | 6 => ⟨acc ||| x, 0⟩ | 7 => ⟨acc ^^^ x, 0⟩
  | 8 => fadd32 acc x | 9 => minMax false acc x | _ => minMax true acc x
/-- R62: the accumulator after each active lane, ascending, with its flags; the running values by lane. -/
def scanLanes (e : Nat) (m : Mask) (v : Vec) : W32 × FFlags × SMap W32 :=
  (maskLanes m).foldl (fun a i =>
    let r := reduceOp e a.1 (laneOf v i)
    (r.v, a.2.1 ||| r.fl, SMap.put a.2.2 i r.v)) (reduceId e, 0, [])

/-- R56: pd := a = b. -/
def execIcmpEq (s : Bool) (g d : BitVec 3) (a b : BitVec 6) (st : State) : Host.Outcome State Fault Refusal :=
  compare2 s g d a b (fun x y => (x == y, 0)) st

/-- R56: pd := a ≠ b. -/
def execIcmpNe (s : Bool) (g d : BitVec 3) (a b : BitVec 6) (st : State) : Host.Outcome State Fault Refusal :=
  compare2 s g d a b (fun x y => (x != y, 0)) st

/-- R56: pd := a < b, signed. -/
def execIcmpLtI32 (s : Bool) (g d : BitVec 3) (a b : BitVec 6) (st : State) : Host.Outcome State Fault Refusal :=
  compare2 s g d a b (fun x y => (decide (x.toInt < y.toInt), 0)) st

/-- R56: pd := a ≤ b, signed. -/
def execIcmpLeI32 (s : Bool) (g d : BitVec 3) (a b : BitVec 6) (st : State) : Host.Outcome State Fault Refusal :=
  compare2 s g d a b (fun x y => (decide (x.toInt ≤ y.toInt), 0)) st

/-- R56: pd := a < b, unsigned. -/
def execIcmpLtN32 (s : Bool) (g d : BitVec 3) (a b : BitVec 6) (st : State) : Host.Outcome State Fault Refusal :=
  compare2 s g d a b (fun x y => (decide (x.toNat < y.toNat), 0)) st

/-- R56: pd := a ≤ b, unsigned. -/
def execIcmpLeN32 (s : Bool) (g d : BitVec 3) (a b : BitVec 6) (st : State) : Host.Outcome State Fault Refusal :=
  compare2 s g d a b (fun x y => (decide (x.toNat ≤ y.toNat), 0)) st

/-- R57: pd := pa AND pb. -/
def execPand (s : Bool) (g d a b : BitVec 3) (st : State) : Host.Outcome State Fault Refusal :=
  pred2 s g d a b (· &&& ·) st

/-- R57: pd := pa OR pb. -/
def execPor (s : Bool) (g d a b : BitVec 3) (st : State) : Host.Outcome State Fault Refusal :=
  pred2 s g d a b (· ||| ·) st

/-- R56: pd := equal. -/
def execFcmpEq (s : Bool) (g d : BitVec 3) (a b : BitVec 6) (st : State) : Host.Outcome State Fault Refusal :=
  compare2 s g d a b (fcmpElem 0) st

/-- R56: pd := not equal. -/
def execFcmpNe (s : Bool) (g d : BitVec 3) (a b : BitVec 6) (st : State) : Host.Outcome State Fault Refusal :=
  compare2 s g d a b (fcmpElem 1) st

/-- R56: pd := less. -/
def execFcmpLt (s : Bool) (g d : BitVec 3) (a b : BitVec 6) (st : State) : Host.Outcome State Fault Refusal :=
  compare2 s g d a b (fcmpElem 2) st

/-- R56: pd := less or equal. -/
def execFcmpLe (s : Bool) (g d : BitVec 3) (a b : BitVec 6) (st : State) : Host.Outcome State Fault Refusal :=
  compare2 s g d a b (fcmpElem 3) st

/-- R56: pd := unordered. -/
def execFcmpUn (s : Bool) (g d : BitVec 3) (a b : BitVec 6) (st : State) : Host.Outcome State Fault Refusal :=
  compare2 s g d a b (fcmpElem 4) st

/-- R56: pd := ordered. -/
def execFcmpOrd (s : Bool) (g d : BitVec 3) (a b : BitVec 6) (st : State) : Host.Outcome State Fault Refusal :=
  compare2 s g d a b (fcmpElem 5) st

/-- R57: pd := pa XOR pb. -/
def execPxor (s : Bool) (g d a b : BitVec 3) (st : State) : Host.Outcome State Fault Refusal :=
  pred2 s g d a b (· ^^^ ·) st

/-- R57: pd := NOT pa. -/
def execPnot (s : Bool) (g d a : BitVec 3) (st : State) : Host.Outcome State Fault Refusal :=
  pred2 s g d a a (fun x _ => ~~~x) st

/-- R57: pd := pa. -/
def execPmov (s : Bool) (g d a : BitVec 3) (st : State) : Host.Outcome State Fault Refusal :=
  pred2 s g d a a (fun x _ => x) st

/-- R58: sd := how many active lanes have their bit of pa, deferred. -/
def execPcount (s : Bool) (g : BitVec 3) (d : BitVec 6) (a : BitVec 3) (st : State) : Host.Outcome State Fault Refusal :=
  issue (laneMeta s g 2 0 []) st fun t =>
    .done (t.defer [.uni d.toNat (BitVec.ofNat 64 (maskCount (t.act g &&& t.readP a.toNat))) false] 0 e4Steps true)

/-- R59: pd := `em` in the lanes whose guard bit is 1, whatever `em` is. -/
def execEmrd (s : Bool) (g d : BitVec 3) (st : State) : Host.Outcome State Fault Refusal :=
  issue (laneMeta s 0 0 0 []) st fun t => .done (t.writeP d.toNat (t.readP g.toNat) t.cur.em)

/-- R59: `em` := pa. -/
def execEmwr (s : Bool) (a : BitVec 3) (st : State) : Host.Outcome State Fault Refusal :=
  issue { laneMeta s 0 0 0 [] with recipe := false } st fun t => .done (t.updCur fun c => { c with em := t.readP a.toNat })

/-- R59: `em` := `em` AND pa. -/
def execEmand (s : Bool) (a : BitVec 3) (st : State) : Host.Outcome State Fault Refusal :=
  issue { laneMeta s 0 0 0 [] with recipe := false } st fun t => .done (t.updCur fun c => { c with em := c.em &&& t.readP a.toNat })

/-- R60: d_i := LANE(a, LANE(b, i)[7:0]). -/
def execShfl (s : Bool) (g : BitVec 3) (d a b : BitVec 6) (st : State) : Host.Outcome State Fault Refusal :=
  moveLanes s g d a b (fun _ vb i => (laneOf vb i).toNat % 256) st

/-- R60: d_i := LANE(a, j), j from the lowest active lane. -/
def execBcast (s : Bool) (g : BitVec 3) (d a b : BitVec 6) (st : State) : Host.Outcome State Fault Refusal :=
  moveLanes s g d a b (fun m vb _ => (laneOf vb ((lowestLane m).getD 0)).toNat % 256) st

/-- R60: d_i := LANE(a, (i + LANE(b, i)[7:0]) mod 256). -/
def execRot (s : Bool) (g : BitVec 3) (d a b : BitVec 6) (st : State) : Host.Outcome State Fault Refusal :=
  moveLanes s g d a b (fun _ vb i => (i + (laneOf vb i).toNat % 256) % 256) st

/-- R61: sd := the lowest active lane of a; unchanged when there is none. -/
def execVtos (s : Bool) (g : BitVec 3) (d a : BitVec 6) (st : State) : Host.Outcome State Fault Refusal :=
  issue { laneMeta s g 0 (topReg [a.toNat]) [] with recipe := true } st fun t =>
    match lowestLane (t.act g) with
    | none => .done t
    | some i =>
      if t.namesPoison (t.act g) a.toNat (fun _ => i) then .event t (t.regPoison (oneLane i))
      else .done (t.writeS d.toNat ((laneOf (t.readV a.toNat) i).setWidth 64))

/-- R61: every active lane takes sa[31:0]. -/
def execStov (s : Bool) (g : BitVec 3) (d a : BitVec 6) (st : State) : Host.Outcome State Fault Refusal :=
  issue { laneMeta s g 0 (topReg [d.toNat]) [] with ss := [a.toNat] } st fun t =>
    let x : W32 := (t.readS a.toNat).extractLsb' 0 32
    .done (t.writeV d.toNat (t.act g) (ofLanes fun _ => x))

/-- R61: d_i := i. -/
def execLane (s : Bool) (g : BitVec 3) (d : BitVec 6) (st : State) : Host.Outcome State Fault Refusal :=
  issue (laneMeta s g 0 (topReg [d.toNat]) []) st fun t => .done (t.writeV d.toNat (t.act g) (ofLanes fun i => BitVec.ofNat 32 i))

/-- R62: sd := the reduction of the active lanes, deferred. -/
def execVreduce (s : Bool) (g : BitVec 3) (d a e : BitVec 6) (st : State) : Host.Outcome State Fault Refusal :=
  issue (laneMeta s g 2 (topReg [a.toNat]) [a.toNat]) st fun t =>
    let r := scanLanes e.toNat (t.act g) (t.readV a.toNat)
    .done (t.defer [.uni d.toNat (r.1.setWidth 64) false] r.2.1 e4Steps true)

/-- R62: d_i := the reduction up to lane i, deferred. -/
def execVscan (s : Bool) (g : BitVec 3) (d a e : BitVec 6) (st : State) : Host.Outcome State Fault Refusal :=
  issue (laneMeta s g 2 (topReg [d.toNat, a.toNat]) [a.toNat]) st fun t =>
    let m := t.act g
    let r := scanLanes e.toNat m (t.readV a.toNat)
    .done (t.defer [.vec d.toNat m (ofLanes fun i => SMap.get 0 r.2.2 i) 0] r.2.1 e4Steps true)

end Sys2Proof.Machine
end

