-- ==== Sys2Proof/Machine/LoadStore.lean ====
section
/-!
DEFINITION. Loads, stores, prefetch and L1 invalidation (03 R81–R89, R96–R101), with their transactional forms (14 R281).
-/

namespace Sys2Proof.Machine

/-! ## Lane accesses -/

/-- Meta of a load or store: its registers and its data registers. -/
def memMeta (s : Bool) (g : BitVec 3) (d n a : Nat) (ss : List Nat) (store : Bool) : Meta :=
  { settle := s, guard := g, vEnd := topReg [d + widthRegs n - 1, a], recipe := !store
    vs := a :: (if store then (List.range (widthRegs n)).map (d + ·) else []), ss := ss }

/-- Leave loaded values in flight (R84); nothing when no lane acts. -/
def State.deferLoad (s : State) (signed : Bool) (n d : Nat) (bs : List (Nat × List Byte)) : State :=
  if bs.isEmpty then s
  else s.defer (loadVals signed n d (ofBits fun i => bs.any fun p => p.1 == i) bs) 0 0 true

/-- R84, R97, R281: a lane load from global memory. -/
def State.globalLoad (s : State) (signed l1 : Bool) (n d : Nat) (m : Mask) (base : W64) (a : Nat) (k : State → State) : Eff :=
  let addrs := s.laneAddrs m base a
  let role (r : Mask) := addrs.filter fun p => r.getLsbD p.1
  let go (t : State) (oks : List LaneOk) : Eff :=
    match t.txLoads n (role (s.txOpen m)) with
    | .ok r => r.2.readLanes l1 n oks fun t bs =>
        .done (k (t.deferLoad signed n d (bs ++ r.1 ++ (role (s.txDoomed m)).map fun p => (p.1, List.replicate n 0))))
    | _ => .wait t .limit
  if s.cur.txg then s.outsideCheck (.load n) n (role (s.txOutside m)) go
  else s.withLanes (.load n) n addrs fun t oks => t.readLanes l1 n oks fun t bs => .done (k (t.deferLoad signed n d bs))

/-- R84, R85, R281: a lane store to global memory. -/
def State.globalStore (s : State) (release sc : Bool) (n d : Nat) (m : Mask) (base : W64) (a : Nat) (k : State → State) : Eff :=
  let addrs := s.laneAddrs m base a
  let role (r : Mask) := addrs.filter fun p => r.getLsbD p.1
  let go (t : State) (oks : List LaneOk) : Eff :=
    if sc && t.writeLocked oks then .wait t (t.lockPark oks)
    else
      let t := t.txStores n ((role (s.txOpen m)).map fun p => (p.1, p.2, s.storeBytes n d p.1))
      t.storeLanes .store release (oks.map fun l => (l, s.storeBytes n d l.lane)) fun t => .done (k (if sc then t.flush t.own else t))
  if s.cur.txg then s.outsideCheck (.store n) n (role (s.txOutside m)) go else s.withLanes (.store n) n addrs go

/-- Format M load. -/
def loadM (signed : Bool) (n : Nat) (s : Bool) (g : BitVec 3) (d a b : BitVec 6) (st : State) : Host.Outcome State Fault Refusal :=
  issue (memMeta s g d.toNat n a.toNat [b.toNat] false) st fun t =>
    t.globalLoad signed true n d.toNat (t.act g) (t.readS b.toNat) a.toNat id
/-- Format M store. -/
def storeM (n : Nat) (s : Bool) (g : BitVec 3) (d a b : BitVec 6) (st : State) : Host.Outcome State Fault Refusal :=
  issue (memMeta s g d.toNat n a.toNat [b.toNat] true) st fun t =>
    t.globalStore false false n d.toNat (t.act g) (t.readS b.toNat) a.toNat id

/-- R88: an ordered load; inside a transaction its order and scope are ignored (R281). -/
def loadOrd (n : Nat) (s : Bool) (o : BitVec 3) (d a : BitVec 6) (b : BitVec 4) (c : BitVec 2) (st : State) :
    Host.Outcome State Fault Refusal :=
  issue { memMeta s 0 d.toNat n a.toNat [b.toNat] false with recipe := false } st fun t =>
    let go (t : State) : Eff := t.globalLoad false (c == 0) n d.toNat t.cur.em (t.readS b.toNat) a.toNat fun t =>
      if t.ordered && o ≠ 0 then t.acquire c.toNat else t
    if o = 4 && t.ordered then whenFenced t c go else go t
/-- R88, R197: an ordered store; a `.sc` store is performed at once, behind everything earlier. -/
def storeOrd (n : Nat) (s : Bool) (o : BitVec 3) (d a : BitVec 6) (b : BitVec 4) (c : BitVec 2) (st : State) :
    Host.Outcome State Fault Refusal :=
  issue (memMeta s 0 d.toNat n a.toNat [b.toNat] true) st fun t =>
    let sc : Bool := o == 4 && t.ordered
    let go (t : State) : Eff := t.globalStore (o != 0) sc n d.toNat t.cur.em (t.readS b.toNat) a.toNat fun t => t.fenceAfter sc c
    if sc then whenFenced t c go else go t

/-! ## Scratchpad (R86) -/

/-- R82, R86: check a scratchpad offset of the block's allocation. -/
def State.spCheck (s : State) (n lane off : Nat) : Except LaneFail LaneOk :=
  let b := s.block s.cur.block
  if off % n ≠ 0 then .error ⟨lane, kMisalign, 0, off⟩
  else if b.spsize < off + n then .error ⟨lane, kPerm, 3, off⟩
  else .ok ⟨lane, off, { loc := ⟨1, s.cur.core * 2 ^ 21 + b.spbase + off⟩, home := 0 }⟩
/-- R97: check every lane; the event's addresses are scratchpad offsets. -/
def State.withSp (s : State) (n : Nat) (addrs : List (Nat × Nat)) (k : State → List LaneOk → Eff) : Eff :=
  let rs := addrs.map fun p => s.spCheck n p.1 p.2
  let bad := rs.filterMap fun r => match r with | .error e => some e | .ok _ => none
  if bad.isEmpty then k s (rs.filterMap fun r => match r with | .ok x => some x | .error _ => none)
  else .event s (s.laneEvent bad true)
/-- R86, R98: a lane load from the block's scratchpad. -/
def State.spLoad (s : State) (signed : Bool) (n d : Nat) (m : Mask) (base : W64) (a : Nat) : Eff :=
  s.withSp n (s.laneAddrs m base a) fun s oks =>
    let s := s.flush (s.meetsOwnReduce oks n)
    if s.packets.any (s.meetsOwnReduce oks n) then .wait s .limit else
    let bad := s.poisonedLanes oks n
    if !bad.isEmpty then .event s (s.laneEvent (bad.map fun l => ⟨l.lane, kPoison, 0, l.va⟩) true)
    else .done (s.deferLoad signed n d (oks.map fun l => (l.lane, (List.range n).map fun i => s.seeByte false ⟨1, l.x.loc.addr + i⟩)))
/-- R86: a lane store to the block's scratchpad, ascending (R85), after the context's own packets to the same bytes (R84). -/
def State.spStore (s : State) (n d : Nat) (m : Mask) (base : W64) (a : Nat) : Eff :=
  s.withSp n (s.laneAddrs m base a) fun s oks =>
    s.whenOrdered false oks n fun s =>
      let cells := oks.flatMap fun l => cellsFrom l.x.loc (s.storeBytes n d l.lane)
      .done ((s.writeAll cells).clearPoison (cells.map Prod.fst))
def loadSp (signed : Bool) (n : Nat) (s : Bool) (g : BitVec 3) (d a b : BitVec 6) (st : State) : Host.Outcome State Fault Refusal :=
  issue (memMeta s g d.toNat n a.toNat [b.toNat] false) st fun t =>
    t.spLoad signed n d.toNat (t.act g) (t.readS b.toNat) a.toNat
def storeSp (n : Nat) (s : Bool) (g : BitVec 3) (d a b : BitVec 6) (st : State) : Host.Outcome State Fault Refusal :=
  issue (memMeta s g d.toNat n a.toNat [b.toNat] true) st fun t =>
    t.spStore n d.toNat (t.act g) (t.readS b.toNat) a.toNat

/-! ## Uniform accesses (R87) -/

/-- R87: the lane a uniform access is attributed to. -/
def State.uniLane (s : State) : Nat := (lowestLane s.cur.em).getD 0
/-- R281: the lanes a uniform access of a transactional group acts for. -/
def State.uniTx (s : State) : Mask := s.txOpen s.cur.em ||| s.txDoomed s.cur.em
/-- Table 03-1: the 64-bit value of a uniform load. -/
def uniValue (signed : Bool) (bs : List Byte) : W64 :=
  if signed then BitVec.ofInt 64 (signedNat (8 * bs.length) (bytesNat bs)) else BitVec.ofNat 64 (bytesNat bs)
/-- R87, R281: sd := the bytes at sa + sb. -/
def loadU (signed : Bool) (n : Nat) (s : Bool) (d a b : BitVec 6) (st : State) : Host.Outcome State Fault Refusal :=
  issue { settle := s, seq := true, recipe := true, ss := [a.toNat, b.toNat] } st fun t =>
    let va := (t.readS a.toNat + t.readS b.toNat).toNat
    let ls := t.uniTx
    if ls = 0 then
      t.withLanes (.load n) n [(t.uniLane, va)] fun t oks => t.readLanes true n oks fun t bs =>
        .done (t.defer [.uni d.toNat (uniValue signed ((bs.head?.map Prod.snd).getD [])) false] 0 0 true)
    else
      match t.txLoads n ((maskLanes (t.txOpen t.cur.em)).map fun i => (i, va)) with
      | .ok r =>
        let low := (lowestLane ls).getD 0
        if (t.txDoomed t.cur.em).getLsbD low then .done (r.2.defer [.uni d.toNat 0 false] 0 0 true)
        else match r.1.find? fun p => p.1 == low with
          | some p => .done (r.2.defer [.uni d.toNat (uniValue signed p.2) false] 0 0 true)
          | none => .done r.2
      | _ => .wait t .limit
/-- R87, R281: the bytes at sa + sb := the low bytes of sd. -/
def storeU (n : Nat) (s : Bool) (d a b : BitVec 6) (st : State) : Host.Outcome State Fault Refusal :=
  issue { settle := s, seq := true, ss := [d.toNat, a.toNat, b.toNat] } st fun t =>
    let va := (t.readS a.toNat + t.readS b.toNat).toNat
    let bs := natBytes n (t.readS d.toNat).toNat
    if t.uniTx = 0 then
      t.withLanes (.store n) n [(t.uniLane, va)] fun t oks => t.storeLanes .store false (oks.map fun l => (l, bs)) .done
    else .done (t.txStores n ((maskLanes (t.txOpen t.cur.em)).map fun i => (i, va, bs)))

/-! ## The instructions -/

/-- R84: load one byte. -/
def execLdg8 (s : Bool) (g : BitVec 3) (d a b : BitVec 6) (st : State) : Host.Outcome State Fault Refusal :=
  loadM false 1 s g d a b st

/-- R84: load one byte, sign-extended. -/
def execLdgI8 (s : Bool) (g : BitVec 3) (d a b : BitVec 6) (st : State) : Host.Outcome State Fault Refusal :=
  loadM true 1 s g d a b st

/-- R84: load two bytes. -/
def execLdg16 (s : Bool) (g : BitVec 3) (d a b : BitVec 6) (st : State) : Host.Outcome State Fault Refusal :=
  loadM false 2 s g d a b st

/-- R84: load two bytes, sign-extended. -/
def execLdgI16 (s : Bool) (g : BitVec 3) (d a b : BitVec 6) (st : State) : Host.Outcome State Fault Refusal :=
  loadM true 2 s g d a b st

/-- R84: load four bytes. -/
def execLdg32 (s : Bool) (g : BitVec 3) (d a b : BitVec 6) (st : State) : Host.Outcome State Fault Refusal :=
  loadM false 4 s g d a b st

/-- R84: load eight bytes. -/
def execLdg64 (s : Bool) (g : BitVec 3) (d a b : BitVec 6) (st : State) : Host.Outcome State Fault Refusal :=
  loadM false 8 s g d a b st

/-- R84: load sixteen bytes. -/
def execLdg128 (s : Bool) (g : BitVec 3) (d a b : BitVec 6) (st : State) : Host.Outcome State Fault Refusal :=
  loadM false 16 s g d a b st

/-- R84: store one byte. -/
def execStg8 (s : Bool) (g : BitVec 3) (d a b : BitVec 6) (st : State) : Host.Outcome State Fault Refusal :=
  storeM 1 s g d a b st

/-- R84: store two bytes. -/
def execStg16 (s : Bool) (g : BitVec 3) (d a b : BitVec 6) (st : State) : Host.Outcome State Fault Refusal :=
  storeM 2 s g d a b st

/-- R84: store four bytes. -/
def execStg32 (s : Bool) (g : BitVec 3) (d a b : BitVec 6) (st : State) : Host.Outcome State Fault Refusal :=
  storeM 4 s g d a b st

/-- R84: store eight bytes. -/
def execStg64 (s : Bool) (g : BitVec 3) (d a b : BitVec 6) (st : State) : Host.Outcome State Fault Refusal :=
  storeM 8 s g d a b st

/-- R84: store sixteen bytes. -/
def execStg128 (s : Bool) (g : BitVec 3) (d a b : BitVec 6) (st : State) : Host.Outcome State Fault Refusal :=
  storeM 16 s g d a b st

/-- R86: load one byte of scratchpad. -/
def execLds8 (s : Bool) (g : BitVec 3) (d a b : BitVec 6) (st : State) : Host.Outcome State Fault Refusal :=
  loadSp false 1 s g d a b st

/-- R86: load one byte of scratchpad, sign-extended. -/
def execLdsI8 (s : Bool) (g : BitVec 3) (d a b : BitVec 6) (st : State) : Host.Outcome State Fault Refusal :=
  loadSp true 1 s g d a b st

/-- R86: load two bytes of scratchpad. -/
def execLds16 (s : Bool) (g : BitVec 3) (d a b : BitVec 6) (st : State) : Host.Outcome State Fault Refusal :=
  loadSp false 2 s g d a b st

/-- R86: load two bytes of scratchpad, sign-extended. -/
def execLdsI16 (s : Bool) (g : BitVec 3) (d a b : BitVec 6) (st : State) : Host.Outcome State Fault Refusal :=
  loadSp true 2 s g d a b st

/-- R86: load four bytes of scratchpad. -/
def execLds32 (s : Bool) (g : BitVec 3) (d a b : BitVec 6) (st : State) : Host.Outcome State Fault Refusal :=
  loadSp false 4 s g d a b st

/-- R86: load eight bytes of scratchpad. -/
def execLds64 (s : Bool) (g : BitVec 3) (d a b : BitVec 6) (st : State) : Host.Outcome State Fault Refusal :=
  loadSp false 8 s g d a b st

/-- R86: load sixteen bytes of scratchpad. -/
def execLds128 (s : Bool) (g : BitVec 3) (d a b : BitVec 6) (st : State) : Host.Outcome State Fault Refusal :=
  loadSp false 16 s g d a b st

/-- R86: store one byte of scratchpad. -/
def execSts8 (s : Bool) (g : BitVec 3) (d a b : BitVec 6) (st : State) : Host.Outcome State Fault Refusal :=
  storeSp 1 s g d a b st

/-- R86: store two bytes of scratchpad. -/
def execSts16 (s : Bool) (g : BitVec 3) (d a b : BitVec 6) (st : State) : Host.Outcome State Fault Refusal :=
  storeSp 2 s g d a b st

/-- R86: store four bytes of scratchpad. -/
def execSts32 (s : Bool) (g : BitVec 3) (d a b : BitVec 6) (st : State) : Host.Outcome State Fault Refusal :=
  storeSp 4 s g d a b st

/-- R86: store eight bytes of scratchpad. -/
def execSts64 (s : Bool) (g : BitVec 3) (d a b : BitVec 6) (st : State) : Host.Outcome State Fault Refusal :=
  storeSp 8 s g d a b st

/-- R86: store sixteen bytes of scratchpad. -/
def execSts128 (s : Bool) (g : BitVec 3) (d a b : BitVec 6) (st : State) : Host.Outcome State Fault Refusal :=
  storeSp 16 s g d a b st

/-- R18: `lds.32 vd, [s0 + va]` in the lanes of `em`. -/
def execLdsShort (s : Bool) (d a : BitVec 5) (st : State) : Host.Outcome State Fault Refusal :=
  issue { memMeta s 0 d.toNat 4 a.toNat [0] false with len := 2 } st fun t =>
    t.spLoad false 4 d.toNat t.cur.em (t.readS 0) a.toNat

/-- R87: a uniform load of 1 bytes. -/
def execSldg8 (s : Bool) (d a b : BitVec 6) (st : State) : Host.Outcome State Fault Refusal :=
  loadU false 1 s d a b st

/-- R87: a uniform load of 1 bytes, sign-extended. -/
def execSldgI8 (s : Bool) (d a b : BitVec 6) (st : State) : Host.Outcome State Fault Refusal :=
  loadU true 1 s d a b st

/-- R87: a uniform load of 2 bytes. -/
def execSldg16 (s : Bool) (d a b : BitVec 6) (st : State) : Host.Outcome State Fault Refusal :=
  loadU false 2 s d a b st

/-- R87: a uniform load of 2 bytes, sign-extended. -/
def execSldgI16 (s : Bool) (d a b : BitVec 6) (st : State) : Host.Outcome State Fault Refusal :=
  loadU true 2 s d a b st

/-- R87: a uniform load of 4 bytes. -/
def execSldg32 (s : Bool) (d a b : BitVec 6) (st : State) : Host.Outcome State Fault Refusal :=
  loadU false 4 s d a b st

/-- R87: a uniform load of 8 bytes. -/
def execSldg64 (s : Bool) (d a b : BitVec 6) (st : State) : Host.Outcome State Fault Refusal :=
  loadU false 8 s d a b st

/-- R87: a uniform store of 1 bytes. -/
def execSstg8 (s : Bool) (d a b : BitVec 6) (st : State) : Host.Outcome State Fault Refusal :=
  storeU 1 s d a b st

/-- R87: a uniform store of 2 bytes. -/
def execSstg16 (s : Bool) (d a b : BitVec 6) (st : State) : Host.Outcome State Fault Refusal :=
  storeU 2 s d a b st

/-- R87: a uniform store of 4 bytes. -/
def execSstg32 (s : Bool) (d a b : BitVec 6) (st : State) : Host.Outcome State Fault Refusal :=
  storeU 4 s d a b st

/-- R87: a uniform store of 8 bytes. -/
def execSstg64 (s : Bool) (d a b : BitVec 6) (st : State) : Host.Outcome State Fault Refusal :=
  storeU 8 s d a b st

/-- R88: an ordered load of 4 bytes. -/
def execLdg32Ord (s : Bool) (o : BitVec 3) (d a : BitVec 6) (b : BitVec 4) (c : BitVec 2) (st : State) : Host.Outcome State Fault Refusal :=
  loadOrd 4 s o d a b c st

/-- R88: an ordered load of 8 bytes. -/
def execLdg64Ord (s : Bool) (o : BitVec 3) (d a : BitVec 6) (b : BitVec 4) (c : BitVec 2) (st : State) : Host.Outcome State Fault Refusal :=
  loadOrd 8 s o d a b c st

/-- R88: an ordered store of 4 bytes. -/
def execStg32Ord (s : Bool) (o : BitVec 3) (d a : BitVec 6) (b : BitVec 4) (c : BitVec 2) (st : State) : Host.Outcome State Fault Refusal :=
  storeOrd 4 s o d a b c st

/-- R88: an ordered store of 8 bytes. -/
def execStg64Ord (s : Bool) (o : BitVec 3) (d a : BitVec 6) (b : BitVec 4) (c : BitVec 2) (st : State) : Host.Outcome State Fault Refusal :=
  storeOrd 8 s o d a b c st

/-! ## Prefetch and invalidation (R96) -/

/-- The lanes' addresses that translate, by a load's rules. -/
def State.reachable (s : State) (addrs : List (Nat × Nat)) : List LaneOk :=
  addrs.filterMap fun p => match s.translate s.curTag s.curVf (!s.cur.smode) (.load 1) p.2 (Nat.pair 0 p.1) with
    | .ok x => some ⟨p.1, p.2, x⟩
    | .error _ => none
/-- R96: the addresses a prefetch does not ignore; its words are of four bytes (assumption 59). -/
def aligned4 (addrs : List (Nat × Nat)) : List (Nat × Nat) := addrs.filter fun p => p.2 % 4 == 0
/-- Meta of major 0x27. -/
def lineMeta (s : Bool) (g : BitVec 3) (a b : BitVec 6) : Meta :=
  { settle := s, guard := g, vEnd := topReg [a.toNat], vs := [a.toNat], ss := [b.toNat] }

/-- R96: bring the lines of the active lanes into the L1; it never faults. -/
def execPref (s : Bool) (g : BitVec 3) (a b : BitVec 6) (st : State) : Host.Outcome State Fault Refusal :=
  issue (lineMeta s g a b) st fun t =>
    .done (t.fillL1 (t.reachable (aligned4 (t.laneAddrs (t.act g) (t.readS b.toNat) a.toNat))))

/-- R96: drop the lines of the active lanes from the L1. -/
def execCinv (s : Bool) (g : BitVec 3) (a b : BitVec 6) (st : State) : Host.Outcome State Fault Refusal :=
  issue (lineMeta s g a b) st fun t =>
    let ls := (t.reachable (t.laneAddrs (t.act g) (t.readS b.toNat) a.toNat)).filter fun l => l.x.loc.tt == 0
    .done (t.updCore t.cur.core fun k => { k with l1 := ls.foldl (fun m l => SMap.del m (l.x.loc.addr / 128)) k.l1 })

/-- R96: drop the whole L1 when some lane is active. -/
def execCinvAll (s : Bool) (g : BitVec 3) (st : State) : Host.Outcome State Fault Refusal :=
  issue { settle := s, guard := g } st fun t =>
    .done (if t.act g = 0 then t else t.updCore t.cur.core fun k => { k with l1 := [] })

end Sys2Proof.Machine
end

