-- ==== Sys2Proof/Machine/System.lean ====
section
/-!
DEFINITION. System registers, clock requests and the privileged instructions (02 R75–R80).
-/

namespace Sys2Proof.Machine

/-- Meta of a word of major 0x3D: NUM 0x800 and above is privileged (01 R25). -/
def sysMeta (s : Bool) (n : Nat) (ss : List Nat) (recipe : Bool) : Meta :=
  { settle := s, seq := true, priv := decide (0x800 ≤ n), ss := ss, recipe := recipe }

/-- R75: sd := the register, deferred; a counter counts every event before this issue. -/
def execSrd (s : Bool) (d : BitVec 6) (n : BitVec 12) (st : State) : Host.Outcome State Fault Refusal :=
  issue (sysMeta s n.toNat [] true) st fun t =>
    .done ((t.sysReadEffect n.toNat).defer [.uni d.toNat (BitVec.ofNat 64 (st.sysRead n.toNat)) false] 0 e4Steps true)

/-- R75: the register := sd, as its view allows. -/
def execSwr (s : Bool) (d : BitVec 6) (n : BitVec 12) (st : State) : Host.Outcome State Fault Refusal :=
  issue (sysMeta s n.toNat [d.toNat] false) st fun t => .done (t.sysWrite n.toNat (t.readS d.toNat))

/-- Table 02-8. -/
def State.clkWord (s : State) : W64 :=
  BitVec.ofNat 64 ((s.core s.cur.core).setpt + s.cur.breq.toNat * 4 + s.cur.nreq.toNat * 8 + (s.tile (tileOfCore s.cur.core)).permits * 256)

/-- R76: set or clear the clock requests; sd := the status word, deferred. -/
def execClkq (s : Bool) (d : BitVec 6) (c : BitVec 4) (st : State) : Host.Outcome State Fault Refusal :=
  issue { settle := s, seq := true } st fun t =>
    let t := t.updCur fun k => match c.toNat with
      | 1 => { k with breq := true }
      | 2 => { k with breq := false }
      | 3 => { k with nreq := true }
      | 4 => { k with nreq := false }
      | _ => k
    let t := if c.toNat = 1 then t.updTile (tileOfCore t.cur.core) fun x => { x with requested := true } else t
    .done (t.defer [.uni d.toNat t.clkWord false] 0 e4Steps true)

/-- Meta of a privileged instruction; `pmap` and `tlbinv` have a leader in PG (Table 01-3). -/
def privMeta (s : Bool) (g : BitVec 3) (ss : List Nat) : Meta := { settle := s, priv := true, guard := g, ss := ss }

/-- R77, R137: settle and return to `SV_EPC` in U mode; an odd one raises MISALIGN. It does not use PG, which is reserved (R13). -/
def execEret (s : Bool) (g : BitVec 3) (st : State) : Host.Outcome State Fault Refusal :=
  issue { privMeta s 0 [] with unused := g != 0 } st fun t =>
    whenSettled t fun t =>
      if t.cur.epc.getLsbD 0 then .event t (t.groupEvent kMisalign 0 t.cur.epc)
      else .ended (t.clearIssue.leaveHandler)

/-- R78: the pair vd, vd + 1 := the address each lane faulted at, 0 in the others, deferred. -/
def execFltaddr (s : Bool) (g : BitVec 3) (d : BitVec 5) (st : State) : Host.Outcome State Fault Refusal :=
  issue { privMeta s g [] with vEnd := topReg [2 * d.toNat + 1] } st fun t =>
    let a (i : Nat) : W64 := SMap.get 0 t.cur.fltAddrs i
    .done (t.defer [.vec (2 * d.toNat) (t.act g) (ofLanes fun i => (a i).extractLsb' 0 32) 0,
      .vec (2 * d.toNat + 1) (t.act g) (ofLanes fun i => (a i).extractLsb' 32 32) 0] 0 0 true)

/-- R128: take a frame from the pool, fill it with zero and validate the leaf at partition address `ea`. A poisoned word of the pool is read as it
stands: it has data, so it can be read (DESIGN CHOICE, assumption 70). -/
def State.poolTake (s : State) (tag e ea : Nat) : State × Nat :=
  let p := s.part tag
  let n := p.ftpCount.toNat
  if n = 0 then (s, 3)
  else match s.partNum p (p.ftpBase.toNat + 4 * (n - 1)) 4 with
    | none => (s, 5)
    | some f =>
      let s := s.updPart tag fun p => { p with ftpCount := p.ftpCount - 1 }
      let s := match p.place (f * 65536) with
        | some l => { s with hbm := Mem.clear s.hbm l.addr 65536, poison := s.poison.filter fun k => !(k.2 == 0 && l.addr / 4 ≤ k.1 && k.1 < l.addr / 4 + 16384) }
        | none => s
      let e' := e % 2 ^ 16 + f * 2 ^ 16 + e / 2 ^ 56 * 2 ^ 56 + (if e.testBit 0 then 0 else 1)
      match p.place ea with
      | some l => (s.writeNum l 8 e', 0)
      | none => (s, 0)

/-- R79: map the first-touch page of an address: the state after and the status. -/
def State.pmap (s : State) (tag va : Nat) : State × Nat :=
  match s.walk (s.part tag) va with
  | .fault _ d => (s, if d = 1 || d = 3 then 4 else 2)
  | .leaf large e ea =>
    if leafMalformed large e then (s, 4)
    else if e.testBit 0 then (s, if targetMalformed large e then 4 else 1)
    else if !e.testBit 11 then (s, 2)
    else if large then (s, 6)
    else s.poolTake tag e ea

/-- R128, R297: `pmap` meets a line that a commit or the token holds: the leaf's, or one of the frame it fills. -/
def State.pmapLocked (s : State) (tag va : Nat) : Bool :=
  let p := s.part tag
  s.walkLocked tag va || (match s.walk p va with
    | .leaf _ _ ea => (match p.place ea with | some l => s.lineLocked (l.addr / 128) | none => false) ||
      (match s.partNum p (p.ftpBase.toNat + 4 * (p.ftpCount.toNat - 1)) 4 with
        | some f => (match p.place (f * 65536) with | some l => s.locks.any (fun k => k.1 / 512 == l.addr / 65536) | none => false)
        | none => false)
    | .fault _ _ => false)

/-- R79, R128: map the page of the address in sa; sd := the status, deferred. -/
def execPmap (s : Bool) (g : BitVec 3) (d a : BitVec 6) (st : State) : Host.Outcome State Fault Refusal :=
  issue { privMeta s g [a.toNat] with pg := g } st fun t =>
    t.withLeader g fun _ =>
      let r := t.pmap t.curTag (t.readS a.toNat).toNat
      if !t.locks.isEmpty && t.pmapLocked t.curTag (t.readS a.toNat).toNat then .wait t .limit
      else .done (r.1.deferS d.toNat (BitVec.ofNat 64 r.2))

/-- R80: remove the translations of sb pages from the one holding sa, all when sb = 0; sd := 0 once that is complete everywhere. -/
def execTlbinv (s : Bool) (g : BitVec 3) (d a b : BitVec 6) (st : State) : Host.Outcome State Fault Refusal :=
  issue { privMeta s g [a.toNat, b.toNat] with pg := g } st fun t =>
    t.withLeader g fun _ =>
      let x : Inval := ⟨t.curTag, (t.readS a.toNat).toNat / 65536, (t.readS b.toNat).toNat, t.cur.id, t.nextId⟩
      .done ({ t with inval := t.inval ++ [x] }.defer [.uni d.toNat 0 false] 0 0 false)

end Sys2Proof.Machine
end

