-- ==== Sys2Proof/Machine/Uniform.lean ====
section
/-!
DEFINITION. Uniform instructions (02 R63, R64).
-/

namespace Sys2Proof.Machine

/-- R63: 1 or 0. -/
def flag64 (b : Bool) : W64 := if b then 1 else 0
/-- R63: the signed quotient; b = 0 gives all ones; the overflow case wraps. -/
def sdivElem (a b : W64) : W64 := if b = 0 then BitVec.allOnes 64 else BitVec.ofInt 64 (Int.tdiv a.toInt b.toInt)

/-- R63: sd := a + b. -/
def execSadd (s : Bool) (d a b : BitVec 6) (st : State) : Host.Outcome State Fault Refusal :=
  uni2 s 0 d a b (· + ·) st

/-- R63: sd := a − b. -/
def execSsub (s : Bool) (d a b : BitVec 6) (st : State) : Host.Outcome State Fault Refusal :=
  uni2 s 0 d a b (· - ·) st

/-- R63: sd := bits [63:0] of a × b. -/
def execSmul (s : Bool) (d a b : BitVec 6) (st : State) : Host.Outcome State Fault Refusal :=
  uni2 s 1 d a b (· * ·) st

/-- R63: bits [127:64] of the signed product, deferred. -/
def execSmulh (s : Bool) (d a b : BitVec 6) (st : State) : Host.Outcome State Fault Refusal :=
  uniSlow s 2 d a b (fun x y => BitVec.ofInt 64 (x.toInt * y.toInt / 2 ^ 64)) st

/-- R63: sd := a AND b. -/
def execSand (s : Bool) (d a b : BitVec 6) (st : State) : Host.Outcome State Fault Refusal :=
  uni2 s 0 d a b (· &&& ·) st

/-- R63: sd := a OR b. -/
def execSor (s : Bool) (d a b : BitVec 6) (st : State) : Host.Outcome State Fault Refusal :=
  uni2 s 0 d a b (· ||| ·) st

/-- R63: sd := a XOR b. -/
def execSxor (s : Bool) (d a b : BitVec 6) (st : State) : Host.Outcome State Fault Refusal :=
  uni2 s 0 d a b (· ^^^ ·) st

/-- R63: sd := a < b, unsigned. -/
def execScmpLtu (s : Bool) (d a b : BitVec 6) (st : State) : Host.Outcome State Fault Refusal :=
  uni2 s 0 d a b (fun x y => flag64 (decide (x.toNat < y.toNat))) st

/-- R63: sd := a shifted left by b[5:0]. -/
def execSshl (s : Bool) (d a b : BitVec 6) (st : State) : Host.Outcome State Fault Refusal :=
  uni2 s 0 d a b (fun x y => x <<< (y.toNat % 64)) st

/-- R63: sd := a shifted logically right by b[5:0]. -/
def execSshr (s : Bool) (d a b : BitVec 6) (st : State) : Host.Outcome State Fault Refusal :=
  uni2 s 0 d a b (fun x y => x >>> (y.toNat % 64)) st

/-- R63: sd := a shifted arithmetically right by b[5:0]. -/
def execSsra (s : Bool) (d a b : BitVec 6) (st : State) : Host.Outcome State Fault Refusal :=
  uni2 s 0 d a b (fun x y => x.sshiftRight (y.toNat % 64)) st

/-- R63: sd := the signed minimum. -/
def execSmin (s : Bool) (d a b : BitVec 6) (st : State) : Host.Outcome State Fault Refusal :=
  uni2 s 0 d a b (fun x y => if x.toInt ≤ y.toInt then x else y) st

/-- R63: sd := the signed maximum. -/
def execSmax (s : Bool) (d a b : BitVec 6) (st : State) : Host.Outcome State Fault Refusal :=
  uni2 s 0 d a b (fun x y => if x.toInt ≤ y.toInt then y else x) st

/-- R63: the signed quotient, class 3 and deferred. -/
def execSdiv (s : Bool) (d a b : BitVec 6) (st : State) : Host.Outcome State Fault Refusal :=
  uniSlow s 3 d a b sdivElem st

/-- R63: sd := a = b. -/
def execScmpEq (s : Bool) (d a b : BitVec 6) (st : State) : Host.Outcome State Fault Refusal :=
  uni2 s 0 d a b (fun x y => flag64 (x == y)) st

/-- R63: sd := a < b, signed. -/
def execScmpLt (s : Bool) (d a b : BitVec 6) (st : State) : Host.Outcome State Fault Refusal :=
  uni2 s 0 d a b (fun x y => flag64 (decide (x.toInt < y.toInt))) st

/-- R64: sd := imm, sign-extended. -/
def execSli (s : Bool) (d : BitVec 6) (i : BitVec 18) (st : State) : Host.Outcome State Fault Refusal :=
  issue (uniMeta s 0 []) st fun t => .done (t.writeS d.toNat (i.signExtend 64))

/-- R64: sd := (sd << 18) OR imm. -/
def execSlui (s : Bool) (d : BitVec 6) (i : BitVec 18) (st : State) : Host.Outcome State Fault Refusal :=
  issue (uniMeta s 0 [d.toNat]) st fun t => .done (t.writeS d.toNat ((t.readS d.toNat <<< 18) ||| i.setWidth 64))

end Sys2Proof.Machine
end

