-- ==== Sys2Proof/Machine/Dispatch.lean ====
section
/-!
DEFINITION. The dispatch: one arm per constructor of `Instr`, each one direct call of the row's meaning.
-/

namespace Sys2Proof.Machine

def exec (i : Instr) (s : State) : Host.Outcome State Fault Refusal :=
  match i with
  | .iadd x0 x1 x2 x3 x4 => Sys2Proof.Machine.execIadd x0 x1 x2 x3 x4 s
  | .isub x0 x1 x2 x3 x4 => Sys2Proof.Machine.execIsub x0 x1 x2 x3 x4 s
  | .imul x0 x1 x2 x3 x4 => Sys2Proof.Machine.execImul x0 x1 x2 x3 x4 s
  | .imulhI32 x0 x1 x2 x3 x4 => Sys2Proof.Machine.execImulhI32 x0 x1 x2 x3 x4 s
  | .imulhN32 x0 x1 x2 x3 x4 => Sys2Proof.Machine.execImulhN32 x0 x1 x2 x3 x4 s
  | .and x0 x1 x2 x3 x4 => Sys2Proof.Machine.execAnd x0 x1 x2 x3 x4 s
  | .or x0 x1 x2 x3 x4 => Sys2Proof.Machine.execOr x0 x1 x2 x3 x4 s
  | .xor x0 x1 x2 x3 x4 => Sys2Proof.Machine.execXor x0 x1 x2 x3 x4 s
  | .andn x0 x1 x2 x3 x4 => Sys2Proof.Machine.execAndn x0 x1 x2 x3 x4 s
  | .shl x0 x1 x2 x3 x4 => Sys2Proof.Machine.execShl x0 x1 x2 x3 x4 s
  | .shr x0 x1 x2 x3 x4 => Sys2Proof.Machine.execShr x0 x1 x2 x3 x4 s
  | .sra x0 x1 x2 x3 x4 => Sys2Proof.Machine.execSra x0 x1 x2 x3 x4 s
  | .iminI32 x0 x1 x2 x3 x4 => Sys2Proof.Machine.execIminI32 x0 x1 x2 x3 x4 s
  | .iminN32 x0 x1 x2 x3 x4 => Sys2Proof.Machine.execIminN32 x0 x1 x2 x3 x4 s
  | .imaxI32 x0 x1 x2 x3 x4 => Sys2Proof.Machine.execImaxI32 x0 x1 x2 x3 x4 s
  | .imaxN32 x0 x1 x2 x3 x4 => Sys2Proof.Machine.execImaxN32 x0 x1 x2 x3 x4 s
  | .idivI32 x0 x1 x2 x3 x4 => Sys2Proof.Machine.execIdivI32 x0 x1 x2 x3 x4 s
  | .idivN32 x0 x1 x2 x3 x4 => Sys2Proof.Machine.execIdivN32 x0 x1 x2 x3 x4 s
  | .iremI32 x0 x1 x2 x3 x4 => Sys2Proof.Machine.execIremI32 x0 x1 x2 x3 x4 s
  | .iremN32 x0 x1 x2 x3 x4 => Sys2Proof.Machine.execIremN32 x0 x1 x2 x3 x4 s
  | .imad x0 x1 x2 x3 x4 => Sys2Proof.Machine.execImad x0 x1 x2 x3 x4 s
  | .sel x0 x1 x2 x3 x4 => Sys2Proof.Machine.execSel x0 x1 x2 x3 x4 s
  | .mov x0 x1 x2 x3 x4 => Sys2Proof.Machine.execMov x0 x1 x2 x3 x4 s
  | .iabs x0 x1 x2 x3 => Sys2Proof.Machine.execIabs x0 x1 x2 x3 s
  | .clz x0 x1 x2 x3 => Sys2Proof.Machine.execClz x0 x1 x2 x3 s
  | .popc x0 x1 x2 x3 => Sys2Proof.Machine.execPopc x0 x1 x2 x3 s
  | .iaddi x0 x1 x2 x3 => Sys2Proof.Machine.execIaddi x0 x1 x2 x3 s
  | .andi x0 x1 x2 x3 => Sys2Proof.Machine.execAndi x0 x1 x2 x3 s
  | .ori x0 x1 x2 x3 => Sys2Proof.Machine.execOri x0 x1 x2 x3 s
  | .xori x0 x1 x2 x3 => Sys2Proof.Machine.execXori x0 x1 x2 x3 s
  | .shli x0 x1 x2 x3 => Sys2Proof.Machine.execShli x0 x1 x2 x3 s
  | .shri x0 x1 x2 x3 => Sys2Proof.Machine.execShri x0 x1 x2 x3 s
  | .srai x0 x1 x2 x3 => Sys2Proof.Machine.execSrai x0 x1 x2 x3 s
  | .lii x0 x1 x2 x3 => Sys2Proof.Machine.execLii x0 x1 x2 x3 s
  | .liu x0 x1 x2 x3 => Sys2Proof.Machine.execLiu x0 x1 x2 x3 s
  | .fadd x0 x1 x2 x3 x4 => Sys2Proof.Machine.execFadd x0 x1 x2 x3 x4 s
  | .fsub x0 x1 x2 x3 x4 => Sys2Proof.Machine.execFsub x0 x1 x2 x3 x4 s
  | .fmul x0 x1 x2 x3 x4 => Sys2Proof.Machine.execFmul x0 x1 x2 x3 x4 s
  | .ffma x0 x1 x2 x3 x4 => Sys2Proof.Machine.execFfma x0 x1 x2 x3 x4 s
  | .fmin x0 x1 x2 x3 x4 => Sys2Proof.Machine.execFmin x0 x1 x2 x3 x4 s
  | .fmax x0 x1 x2 x3 x4 => Sys2Proof.Machine.execFmax x0 x1 x2 x3 x4 s
  | .fneg x0 x1 x2 x3 x4 => Sys2Proof.Machine.execFneg x0 x1 x2 x3 x4 s
  | .fabs x0 x1 x2 x3 => Sys2Proof.Machine.execFabs x0 x1 x2 x3 s
  | .frcp x0 x1 x2 x3 => Sys2Proof.Machine.execFrcp x0 x1 x2 x3 s
  | .frsq x0 x1 x2 x3 => Sys2Proof.Machine.execFrsq x0 x1 x2 x3 s
  | .fexp2 x0 x1 x2 x3 => Sys2Proof.Machine.execFexp2 x0 x1 x2 x3 s
  | .flog2 x0 x1 x2 x3 => Sys2Proof.Machine.execFlog2 x0 x1 x2 x3 s
  | .fsqrt x0 x1 x2 x3 => Sys2Proof.Machine.execFsqrt x0 x1 x2 x3 s
  | .fdiv x0 x1 x2 x3 x4 => Sys2Proof.Machine.execFdiv x0 x1 x2 x3 x4 s
  | .hadd2 x0 x1 x2 x3 x4 => Sys2Proof.Machine.execHadd2 x0 x1 x2 x3 x4 s
  | .hmul2 x0 x1 x2 x3 x4 => Sys2Proof.Machine.execHmul2 x0 x1 x2 x3 x4 s
  | .hfma2 x0 x1 x2 x3 x4 => Sys2Proof.Machine.execHfma2 x0 x1 x2 x3 x4 s
  | .hmax2 x0 x1 x2 x3 x4 => Sys2Proof.Machine.execHmax2 x0 x1 x2 x3 x4 s
  | .hmin2 x0 x1 x2 x3 x4 => Sys2Proof.Machine.execHmin2 x0 x1 x2 x3 x4 s
  | .hdot2 x0 x1 x2 x3 x4 => Sys2Proof.Machine.execHdot2 x0 x1 x2 x3 x4 s
  | .cvt x0 x1 x2 x3 x4 x5 => Sys2Proof.Machine.execCvt x0 x1 x2 x3 x4 x5 s
  | .pack x0 x1 x2 x3 x4 => Sys2Proof.Machine.execPack x0 x1 x2 x3 x4 s
  | .unpkLo x0 x1 x2 x3 => Sys2Proof.Machine.execUnpkLo x0 x1 x2 x3 s
  | .unpkHi x0 x1 x2 x3 => Sys2Proof.Machine.execUnpkHi x0 x1 x2 x3 s
  | .cvt8Lo x0 x1 x2 x3 x4 => Sys2Proof.Machine.execCvt8Lo x0 x1 x2 x3 x4 s
  | .cvt8Hi x0 x1 x2 x3 x4 => Sys2Proof.Machine.execCvt8Hi x0 x1 x2 x3 x4 s
  | .unpk8 x0 x1 x2 x3 x4 => Sys2Proof.Machine.execUnpk8 x0 x1 x2 x3 x4 s
  | .icmpEq x0 x1 x2 x3 x4 => Sys2Proof.Machine.execIcmpEq x0 x1 x2 x3 x4 s
  | .icmpNe x0 x1 x2 x3 x4 => Sys2Proof.Machine.execIcmpNe x0 x1 x2 x3 x4 s
  | .icmpLtI32 x0 x1 x2 x3 x4 => Sys2Proof.Machine.execIcmpLtI32 x0 x1 x2 x3 x4 s
  | .icmpLeI32 x0 x1 x2 x3 x4 => Sys2Proof.Machine.execIcmpLeI32 x0 x1 x2 x3 x4 s
  | .icmpLtN32 x0 x1 x2 x3 x4 => Sys2Proof.Machine.execIcmpLtN32 x0 x1 x2 x3 x4 s
  | .icmpLeN32 x0 x1 x2 x3 x4 => Sys2Proof.Machine.execIcmpLeN32 x0 x1 x2 x3 x4 s
  | .pand x0 x1 x2 x3 x4 => Sys2Proof.Machine.execPand x0 x1 x2 x3 x4 s
  | .por x0 x1 x2 x3 x4 => Sys2Proof.Machine.execPor x0 x1 x2 x3 x4 s
  | .fcmpEq x0 x1 x2 x3 x4 => Sys2Proof.Machine.execFcmpEq x0 x1 x2 x3 x4 s
  | .fcmpNe x0 x1 x2 x3 x4 => Sys2Proof.Machine.execFcmpNe x0 x1 x2 x3 x4 s
  | .fcmpLt x0 x1 x2 x3 x4 => Sys2Proof.Machine.execFcmpLt x0 x1 x2 x3 x4 s
  | .fcmpLe x0 x1 x2 x3 x4 => Sys2Proof.Machine.execFcmpLe x0 x1 x2 x3 x4 s
  | .fcmpUn x0 x1 x2 x3 x4 => Sys2Proof.Machine.execFcmpUn x0 x1 x2 x3 x4 s
  | .fcmpOrd x0 x1 x2 x3 x4 => Sys2Proof.Machine.execFcmpOrd x0 x1 x2 x3 x4 s
  | .pxor x0 x1 x2 x3 x4 => Sys2Proof.Machine.execPxor x0 x1 x2 x3 x4 s
  | .pnot x0 x1 x2 x3 => Sys2Proof.Machine.execPnot x0 x1 x2 x3 s
  | .pmov x0 x1 x2 x3 => Sys2Proof.Machine.execPmov x0 x1 x2 x3 s
  | .pcount x0 x1 x2 x3 => Sys2Proof.Machine.execPcount x0 x1 x2 x3 s
  | .emrd x0 x1 x2 => Sys2Proof.Machine.execEmrd x0 x1 x2 s
  | .emwr x0 x1 => Sys2Proof.Machine.execEmwr x0 x1 s
  | .emand x0 x1 => Sys2Proof.Machine.execEmand x0 x1 s
  | .shfl x0 x1 x2 x3 x4 => Sys2Proof.Machine.execShfl x0 x1 x2 x3 x4 s
  | .bcast x0 x1 x2 x3 x4 => Sys2Proof.Machine.execBcast x0 x1 x2 x3 x4 s
  | .rot x0 x1 x2 x3 x4 => Sys2Proof.Machine.execRot x0 x1 x2 x3 x4 s
  | .vtos x0 x1 x2 x3 => Sys2Proof.Machine.execVtos x0 x1 x2 x3 s
  | .stov x0 x1 x2 x3 => Sys2Proof.Machine.execStov x0 x1 x2 x3 s
  | .lane x0 x1 x2 => Sys2Proof.Machine.execLane x0 x1 x2 s
  | .vreduce x0 x1 x2 x3 x4 => Sys2Proof.Machine.execVreduce x0 x1 x2 x3 x4 s
  | .vscan x0 x1 x2 x3 x4 => Sys2Proof.Machine.execVscan x0 x1 x2 x3 x4 s
  | .sadd x0 x1 x2 x3 => Sys2Proof.Machine.execSadd x0 x1 x2 x3 s
  | .ssub x0 x1 x2 x3 => Sys2Proof.Machine.execSsub x0 x1 x2 x3 s
  | .smul x0 x1 x2 x3 => Sys2Proof.Machine.execSmul x0 x1 x2 x3 s
  | .smulh x0 x1 x2 x3 => Sys2Proof.Machine.execSmulh x0 x1 x2 x3 s
  | .sand x0 x1 x2 x3 => Sys2Proof.Machine.execSand x0 x1 x2 x3 s
  | .sor x0 x1 x2 x3 => Sys2Proof.Machine.execSor x0 x1 x2 x3 s
  | .sxor x0 x1 x2 x3 => Sys2Proof.Machine.execSxor x0 x1 x2 x3 s
  | .scmpLtu x0 x1 x2 x3 => Sys2Proof.Machine.execScmpLtu x0 x1 x2 x3 s
  | .sshl x0 x1 x2 x3 => Sys2Proof.Machine.execSshl x0 x1 x2 x3 s
  | .sshr x0 x1 x2 x3 => Sys2Proof.Machine.execSshr x0 x1 x2 x3 s
  | .ssra x0 x1 x2 x3 => Sys2Proof.Machine.execSsra x0 x1 x2 x3 s
  | .smin x0 x1 x2 x3 => Sys2Proof.Machine.execSmin x0 x1 x2 x3 s
  | .smax x0 x1 x2 x3 => Sys2Proof.Machine.execSmax x0 x1 x2 x3 s
  | .sdiv x0 x1 x2 x3 => Sys2Proof.Machine.execSdiv x0 x1 x2 x3 s
  | .scmpEq x0 x1 x2 x3 => Sys2Proof.Machine.execScmpEq x0 x1 x2 x3 s
  | .scmpLt x0 x1 x2 x3 => Sys2Proof.Machine.execScmpLt x0 x1 x2 x3 s
  | .sli x0 x1 x2 => Sys2Proof.Machine.execSli x0 x1 x2 s
  | .slui x0 x1 x2 => Sys2Proof.Machine.execSlui x0 x1 x2 s
  | .br x0 x1 => Sys2Proof.Machine.execBr x0 x1 s
  | .bz x0 x1 x2 => Sys2Proof.Machine.execBz x0 x1 x2 s
  | .bnz x0 x1 x2 => Sys2Proof.Machine.execBnz x0 x1 x2 s
  | .bany x0 x1 x2 => Sys2Proof.Machine.execBany x0 x1 x2 s
  | .ball x0 x1 x2 => Sys2Proof.Machine.execBall x0 x1 x2 s
  | .bnone x0 x1 x2 => Sys2Proof.Machine.execBnone x0 x1 x2 s
  | .call x0 x1 => Sys2Proof.Machine.execCall x0 x1 s
  | .jr x0 x1 x2 => Sys2Proof.Machine.execJr x0 x1 x2 s
  | .ret x0 => Sys2Proof.Machine.execRet x0 s
  | .exit x0 => Sys2Proof.Machine.execExit x0 s
  | .trap x0 x1 => Sys2Proof.Machine.execTrap x0 x1 s
  | .nop x0 => Sys2Proof.Machine.execNop x0 s
  | .lpx x0 x1 => Sys2Proof.Machine.execLpx x0 x1 s
  | .lpb x0 x1 x2 x3 => Sys2Proof.Machine.execLpb x0 x1 x2 x3 s
  | .yield x0 x1 x2 => Sys2Proof.Machine.execYield x0 x1 x2 s
  | .ldg8 x0 x1 x2 x3 x4 => Sys2Proof.Machine.execLdg8 x0 x1 x2 x3 x4 s
  | .ldgI8 x0 x1 x2 x3 x4 => Sys2Proof.Machine.execLdgI8 x0 x1 x2 x3 x4 s
  | .ldg16 x0 x1 x2 x3 x4 => Sys2Proof.Machine.execLdg16 x0 x1 x2 x3 x4 s
  | .ldgI16 x0 x1 x2 x3 x4 => Sys2Proof.Machine.execLdgI16 x0 x1 x2 x3 x4 s
  | .ldg32 x0 x1 x2 x3 x4 => Sys2Proof.Machine.execLdg32 x0 x1 x2 x3 x4 s
  | .ldg64 x0 x1 x2 x3 x4 => Sys2Proof.Machine.execLdg64 x0 x1 x2 x3 x4 s
  | .ldg128 x0 x1 x2 x3 x4 => Sys2Proof.Machine.execLdg128 x0 x1 x2 x3 x4 s
  | .stg8 x0 x1 x2 x3 x4 => Sys2Proof.Machine.execStg8 x0 x1 x2 x3 x4 s
  | .stg16 x0 x1 x2 x3 x4 => Sys2Proof.Machine.execStg16 x0 x1 x2 x3 x4 s
  | .stg32 x0 x1 x2 x3 x4 => Sys2Proof.Machine.execStg32 x0 x1 x2 x3 x4 s
  | .stg64 x0 x1 x2 x3 x4 => Sys2Proof.Machine.execStg64 x0 x1 x2 x3 x4 s
  | .stg128 x0 x1 x2 x3 x4 => Sys2Proof.Machine.execStg128 x0 x1 x2 x3 x4 s
  | .lds8 x0 x1 x2 x3 x4 => Sys2Proof.Machine.execLds8 x0 x1 x2 x3 x4 s
  | .ldsI8 x0 x1 x2 x3 x4 => Sys2Proof.Machine.execLdsI8 x0 x1 x2 x3 x4 s
  | .lds16 x0 x1 x2 x3 x4 => Sys2Proof.Machine.execLds16 x0 x1 x2 x3 x4 s
  | .ldsI16 x0 x1 x2 x3 x4 => Sys2Proof.Machine.execLdsI16 x0 x1 x2 x3 x4 s
  | .lds32 x0 x1 x2 x3 x4 => Sys2Proof.Machine.execLds32 x0 x1 x2 x3 x4 s
  | .lds64 x0 x1 x2 x3 x4 => Sys2Proof.Machine.execLds64 x0 x1 x2 x3 x4 s
  | .lds128 x0 x1 x2 x3 x4 => Sys2Proof.Machine.execLds128 x0 x1 x2 x3 x4 s
  | .sts8 x0 x1 x2 x3 x4 => Sys2Proof.Machine.execSts8 x0 x1 x2 x3 x4 s
  | .sts16 x0 x1 x2 x3 x4 => Sys2Proof.Machine.execSts16 x0 x1 x2 x3 x4 s
  | .sts32 x0 x1 x2 x3 x4 => Sys2Proof.Machine.execSts32 x0 x1 x2 x3 x4 s
  | .sts64 x0 x1 x2 x3 x4 => Sys2Proof.Machine.execSts64 x0 x1 x2 x3 x4 s
  | .sts128 x0 x1 x2 x3 x4 => Sys2Proof.Machine.execSts128 x0 x1 x2 x3 x4 s
  | .sldg8 x0 x1 x2 x3 => Sys2Proof.Machine.execSldg8 x0 x1 x2 x3 s
  | .sldgI8 x0 x1 x2 x3 => Sys2Proof.Machine.execSldgI8 x0 x1 x2 x3 s
  | .sldg16 x0 x1 x2 x3 => Sys2Proof.Machine.execSldg16 x0 x1 x2 x3 s
  | .sldgI16 x0 x1 x2 x3 => Sys2Proof.Machine.execSldgI16 x0 x1 x2 x3 s
  | .sldg32 x0 x1 x2 x3 => Sys2Proof.Machine.execSldg32 x0 x1 x2 x3 s
  | .sldg64 x0 x1 x2 x3 => Sys2Proof.Machine.execSldg64 x0 x1 x2 x3 s
  | .sstg8 x0 x1 x2 x3 => Sys2Proof.Machine.execSstg8 x0 x1 x2 x3 s
  | .sstg16 x0 x1 x2 x3 => Sys2Proof.Machine.execSstg16 x0 x1 x2 x3 s
  | .sstg32 x0 x1 x2 x3 => Sys2Proof.Machine.execSstg32 x0 x1 x2 x3 s
  | .sstg64 x0 x1 x2 x3 => Sys2Proof.Machine.execSstg64 x0 x1 x2 x3 s
  | .ldg32Ord x0 x1 x2 x3 x4 x5 => Sys2Proof.Machine.execLdg32Ord x0 x1 x2 x3 x4 x5 s
  | .ldg64Ord x0 x1 x2 x3 x4 x5 => Sys2Proof.Machine.execLdg64Ord x0 x1 x2 x3 x4 x5 s
  | .stg32Ord x0 x1 x2 x3 x4 x5 => Sys2Proof.Machine.execStg32Ord x0 x1 x2 x3 x4 x5 s
  | .stg64Ord x0 x1 x2 x3 x4 x5 => Sys2Proof.Machine.execStg64Ord x0 x1 x2 x3 x4 x5 s
  | .pref x0 x1 x2 x3 => Sys2Proof.Machine.execPref x0 x1 x2 x3 s
  | .cinv x0 x1 x2 x3 => Sys2Proof.Machine.execCinv x0 x1 x2 x3 s
  | .cinvAll x0 x1 => Sys2Proof.Machine.execCinvAll x0 x1 s
  | .atomAdd32 x0 x1 x2 x3 x4 x5 => Sys2Proof.Machine.execAtomAdd32 x0 x1 x2 x3 x4 x5 s
  | .atomMinI32 x0 x1 x2 x3 x4 x5 => Sys2Proof.Machine.execAtomMinI32 x0 x1 x2 x3 x4 x5 s
  | .atomMaxI32 x0 x1 x2 x3 x4 x5 => Sys2Proof.Machine.execAtomMaxI32 x0 x1 x2 x3 x4 x5 s
  | .atomAnd32 x0 x1 x2 x3 x4 x5 => Sys2Proof.Machine.execAtomAnd32 x0 x1 x2 x3 x4 x5 s
  | .atomOr32 x0 x1 x2 x3 x4 x5 => Sys2Proof.Machine.execAtomOr32 x0 x1 x2 x3 x4 x5 s
  | .atomXor32 x0 x1 x2 x3 x4 x5 => Sys2Proof.Machine.execAtomXor32 x0 x1 x2 x3 x4 x5 s
  | .atomExch32 x0 x1 x2 x3 x4 x5 => Sys2Proof.Machine.execAtomExch32 x0 x1 x2 x3 x4 x5 s
  | .atomCas32 x0 x1 x2 x3 x4 x5 => Sys2Proof.Machine.execAtomCas32 x0 x1 x2 x3 x4 x5 s
  | .atomAdd64 x0 x1 x2 x3 x4 x5 => Sys2Proof.Machine.execAtomAdd64 x0 x1 x2 x3 x4 x5 s
  | .atomMinN32 x0 x1 x2 x3 x4 x5 => Sys2Proof.Machine.execAtomMinN32 x0 x1 x2 x3 x4 x5 s
  | .atomMaxN32 x0 x1 x2 x3 x4 x5 => Sys2Proof.Machine.execAtomMaxN32 x0 x1 x2 x3 x4 x5 s
  | .atomFaddF32 x0 x1 x2 x3 x4 x5 => Sys2Proof.Machine.execAtomFaddF32 x0 x1 x2 x3 x4 x5 s
  | .atomExch64 x0 x1 x2 x3 x4 x5 => Sys2Proof.Machine.execAtomExch64 x0 x1 x2 x3 x4 x5 s
  | .atomCas64 x0 x1 x2 x3 x4 x5 => Sys2Proof.Machine.execAtomCas64 x0 x1 x2 x3 x4 x5 s
  | .redAdd32 x0 x1 x2 x3 x4 x5 => Sys2Proof.Machine.execRedAdd32 x0 x1 x2 x3 x4 x5 s
  | .redMinI32 x0 x1 x2 x3 x4 x5 => Sys2Proof.Machine.execRedMinI32 x0 x1 x2 x3 x4 x5 s
  | .redMaxI32 x0 x1 x2 x3 x4 x5 => Sys2Proof.Machine.execRedMaxI32 x0 x1 x2 x3 x4 x5 s
  | .redAnd32 x0 x1 x2 x3 x4 x5 => Sys2Proof.Machine.execRedAnd32 x0 x1 x2 x3 x4 x5 s
  | .redOr32 x0 x1 x2 x3 x4 x5 => Sys2Proof.Machine.execRedOr32 x0 x1 x2 x3 x4 x5 s
  | .redXor32 x0 x1 x2 x3 x4 x5 => Sys2Proof.Machine.execRedXor32 x0 x1 x2 x3 x4 x5 s
  | .redFaddF32 x0 x1 x2 x3 x4 x5 => Sys2Proof.Machine.execRedFaddF32 x0 x1 x2 x3 x4 x5 s
  | .redAdd64 x0 x1 x2 x3 x4 x5 => Sys2Proof.Machine.execRedAdd64 x0 x1 x2 x3 x4 x5 s
  | .satomAdd x0 x1 x2 x3 x4 => Sys2Proof.Machine.execSatomAdd x0 x1 x2 x3 x4 s
  | .satomExch x0 x1 x2 x3 x4 => Sys2Proof.Machine.execSatomExch x0 x1 x2 x3 x4 s
  | .satomCas x0 x1 x2 x3 x4 => Sys2Proof.Machine.execSatomCas x0 x1 x2 x3 x4 s
  | .satomMaxN64 x0 x1 x2 x3 x4 => Sys2Proof.Machine.execSatomMaxN64 x0 x1 x2 x3 x4 s
  | .fence x0 x1 x2 => Sys2Proof.Machine.execFence x0 x1 x2 s
  | .fenceAsync x0 => Sys2Proof.Machine.execFenceAsync x0 s
  | .cpt x0 x1 x2 x3 x4 => Sys2Proof.Machine.execCpt x0 x1 x2 x3 x4 s
  | .cpl x0 x1 x2 x3 x4 => Sys2Proof.Machine.execCpl x0 x1 x2 x3 x4 s
  | .cpc x0 x1 x2 x3 x4 => Sys2Proof.Machine.execCpc x0 x1 x2 x3 x4 s
  | .cpm x0 x1 x2 x3 x4 => Sys2Proof.Machine.execCpm x0 x1 x2 x3 x4 s
  | .cpmCon x0 x1 x2 x3 x4 => Sys2Proof.Machine.execCpmCon x0 x1 x2 x3 x4 s
  | .cprAdd x0 x1 x2 x3 x4 => Sys2Proof.Machine.execCprAdd x0 x1 x2 x3 x4 s
  | .cprMin x0 x1 x2 x3 x4 => Sys2Proof.Machine.execCprMin x0 x1 x2 x3 x4 s
  | .cprMax x0 x1 x2 x3 x4 => Sys2Proof.Machine.execCprMax x0 x1 x2 x3 x4 s
  | .bclose x0 x1 => Sys2Proof.Machine.execBclose x0 x1 s
  | .bwait x0 x1 x2 => Sys2Proof.Machine.execBwait x0 x1 x2 s
  | .btest x0 x1 x2 => Sys2Proof.Machine.execBtest x0 x1 x2 s
  | .barInit x0 x1 x2 x3 x4 => Sys2Proof.Machine.execBarInit x0 x1 x2 x3 x4 s
  | .barArrive x0 x1 x2 x3 x4 => Sys2Proof.Machine.execBarArrive x0 x1 x2 x3 x4 s
  | .barExpect x0 x1 x2 x3 x4 => Sys2Proof.Machine.execBarExpect x0 x1 x2 x3 x4 s
  | .barWait x0 x1 x2 x3 x4 => Sys2Proof.Machine.execBarWait x0 x1 x2 x3 x4 s
  | .barTwait x0 x1 x2 x3 x4 => Sys2Proof.Machine.execBarTwait x0 x1 x2 x3 x4 s
  | .barInval x0 x1 x2 x3 => Sys2Proof.Machine.execBarInval x0 x1 x2 x3 s
  | .qbind x0 x1 x2 x3 => Sys2Proof.Machine.execQbind x0 x1 x2 x3 s
  | .qpush x0 x1 x2 x3 x4 => Sys2Proof.Machine.execQpush x0 x1 x2 x3 x4 s
  | .qpop x0 x1 x2 x3 x4 => Sys2Proof.Machine.execQpop x0 x1 x2 x3 x4 s
  | .qtry x0 x1 x2 x3 x4 => Sys2Proof.Machine.execQtry x0 x1 x2 x3 x4 s
  | .stb32 x0 x1 x2 x3 x4 => Sys2Proof.Machine.execStb32 x0 x1 x2 x3 x4 s
  | .stb64 x0 x1 x2 x3 x4 => Sys2Proof.Machine.execStb64 x0 x1 x2 x3 x4 s
  | .stb128 x0 x1 x2 x3 x4 => Sys2Proof.Machine.execStb128 x0 x1 x2 x3 x4 s
  | .spawn x0 x1 x2 x3 x4 => Sys2Proof.Machine.execSpawn x0 x1 x2 x3 x4 s
  | .coll x0 x1 x2 x3 => Sys2Proof.Machine.execColl x0 x1 x2 x3 s
  | .cwait x0 x1 x2 x3 x4 => Sys2Proof.Machine.execCwait x0 x1 x2 x3 x4 s
  | .ctest x0 x1 x2 x3 x4 => Sys2Proof.Machine.execCtest x0 x1 x2 x3 x4 s
  | .txbegin x0 x1 => Sys2Proof.Machine.execTxbegin x0 x1 s
  | .txend x0 x1 => Sys2Proof.Machine.execTxend x0 x1 s
  | .txabort x0 => Sys2Proof.Machine.execTxabort x0 s
  | .txstat x0 x1 => Sys2Proof.Machine.execTxstat x0 x1 s
  | .txstatAddr x0 x1 => Sys2Proof.Machine.execTxstatAddr x0 x1 s
  | .mxld x0 x1 x2 => Sys2Proof.Machine.execMxld x0 x1 x2 s
  | .mxfma x0 x1 x2 => Sys2Proof.Machine.execMxfma x0 x1 x2 s
  | .mxzero x0 x1 => Sys2Proof.Machine.execMxzero x0 x1 s
  | .mxck x0 x1 => Sys2Proof.Machine.execMxck x0 x1 s
  | .mxfence x0 x1 => Sys2Proof.Machine.execMxfence x0 x1 s
  | .mxwait x0 x1 x2 => Sys2Proof.Machine.execMxwait x0 x1 x2 s
  | .mxtest x0 x1 x2 => Sys2Proof.Machine.execMxtest x0 x1 x2 s
  | .mxsplit x0 x1 x2 x3 => Sys2Proof.Machine.execMxsplit x0 x1 x2 x3 s
  | .mxsave x0 x1 x2 => Sys2Proof.Machine.execMxsave x0 x1 x2 s
  | .mxrest x0 x1 x2 => Sys2Proof.Machine.execMxrest x0 x1 x2 s
  | .vraccRow x0 x1 x2 x3 x4 x5 => Sys2Proof.Machine.execVraccRow x0 x1 x2 x3 x4 x5 s
  | .vraccCol x0 x1 x2 x3 x4 x5 => Sys2Proof.Machine.execVraccCol x0 x1 x2 x3 x4 x5 s
  | .vwaccRow x0 x1 x2 x3 x4 x5 => Sys2Proof.Machine.execVwaccRow x0 x1 x2 x3 x4 x5 s
  | .vwaccCol x0 x1 x2 x3 x4 x5 => Sys2Proof.Machine.execVwaccCol x0 x1 x2 x3 x4 x5 s
  | .qz x0 x1 x2 x3 => Sys2Proof.Machine.execQz x0 x1 x2 x3 s
  | .srd x0 x1 x2 => Sys2Proof.Machine.execSrd x0 x1 x2 s
  | .swr x0 x1 x2 => Sys2Proof.Machine.execSwr x0 x1 x2 s
  | .clkq x0 x1 x2 => Sys2Proof.Machine.execClkq x0 x1 x2 s
  | .eret x0 x1 => Sys2Proof.Machine.execEret x0 x1 s
  | .fltaddr x0 x1 x2 => Sys2Proof.Machine.execFltaddr x0 x1 x2 s
  | .pmap x0 x1 x2 x3 => Sys2Proof.Machine.execPmap x0 x1 x2 x3 s
  | .tlbinv x0 x1 x2 x3 x4 => Sys2Proof.Machine.execTlbinv x0 x1 x2 x3 x4 s
  | .hint x0 x1 => Sys2Proof.Machine.execHint x0 x1 s
  | .movShort x0 x1 x2 => Sys2Proof.Machine.execMovShort x0 x1 x2 s
  | .iaddShort x0 x1 x2 => Sys2Proof.Machine.execIaddShort x0 x1 x2 s
  | .isubShort x0 x1 x2 => Sys2Proof.Machine.execIsubShort x0 x1 x2 s
  | .imulShort x0 x1 x2 => Sys2Proof.Machine.execImulShort x0 x1 x2 s
  | .andShort x0 x1 x2 => Sys2Proof.Machine.execAndShort x0 x1 x2 s
  | .orShort x0 x1 x2 => Sys2Proof.Machine.execOrShort x0 x1 x2 s
  | .xorShort x0 x1 x2 => Sys2Proof.Machine.execXorShort x0 x1 x2 s
  | .shlShort x0 x1 x2 => Sys2Proof.Machine.execShlShort x0 x1 x2 s
  | .shrShort x0 x1 x2 => Sys2Proof.Machine.execShrShort x0 x1 x2 s
  | .faddShort x0 x1 x2 => Sys2Proof.Machine.execFaddShort x0 x1 x2 s
  | .fsubShort x0 x1 x2 => Sys2Proof.Machine.execFsubShort x0 x1 x2 s
  | .fmulShort x0 x1 x2 => Sys2Proof.Machine.execFmulShort x0 x1 x2 s
  | .fmaxShort x0 x1 x2 => Sys2Proof.Machine.execFmaxShort x0 x1 x2 s
  | .fminShort x0 x1 x2 => Sys2Proof.Machine.execFminShort x0 x1 x2 s
  | .fnegShort x0 x1 x2 => Sys2Proof.Machine.execFnegShort x0 x1 x2 s
  | .ldsShort x0 x1 x2 => Sys2Proof.Machine.execLdsShort x0 x1 x2 s
  | .deferredResultWrite => Sys2Proof.Machine.execDeferredResultWrite s
  | .groupWake => Sys2Proof.Machine.execGroupWake s
  | .yieldover => Sys2Proof.Machine.execYieldover s
  | .tlbinvComplete => Sys2Proof.Machine.execTlbinvComplete s
  | .walkerServe => Sys2Proof.Machine.execWalkerServe s
  | .walkComplete => Sys2Proof.Machine.execWalkComplete s
  | .meshFlitReceive => Sys2Proof.Machine.execMeshFlitReceive s
  | .packetDelivery => Sys2Proof.Machine.execPacketDelivery s
  | .dropLogAppend => Sys2Proof.Machine.execDropLogAppend s
  | .negativeAcknowledgement => Sys2Proof.Machine.execNegativeAcknowledgement s
  | .atomicPerform => Sys2Proof.Machine.execAtomicPerform s
  | .faultRingWrite => Sys2Proof.Machine.execFaultRingWrite s
  | .launch => Sys2Proof.Machine.execLaunch s
  | .blockResident => Sys2Proof.Machine.execBlockResident s
  | .spawnAccept => Sys2Proof.Machine.execSpawnAccept s
  | .jobDispatch => Sys2Proof.Machine.execJobDispatch s
  | .subjobDispatch => Sys2Proof.Machine.execSubjobDispatch s
  | .chunkComplete => Sys2Proof.Machine.execChunkComplete s
  | .cpmShareApply => Sys2Proof.Machine.execCpmShareApply s
  | .barrierOperation => Sys2Proof.Machine.execBarrierOperation s
  | .barrierWaveWake => Sys2Proof.Machine.execBarrierWaveWake s
  | .barTwaitTimeout => Sys2Proof.Machine.execBarTwaitTimeout s
  | .queueWaiterServe => Sys2Proof.Machine.execQueueWaiterServe s
  | .collectiveStart => Sys2Proof.Machine.execCollectiveStart s
  | .collectiveChunkComplete => Sys2Proof.Machine.execCollectiveChunkComplete s
  | .qzBlockComplete => Sys2Proof.Machine.execQzBlockComplete s
  | .matrixOpStart => Sys2Proof.Machine.execMatrixOpStart s
  | .mxldSlabWrite => Sys2Proof.Machine.execMxldSlabWrite s
  | .aRowRead => Sys2Proof.Machine.execARowRead s
  | .mxfmaRowWrite => Sys2Proof.Machine.execMxfmaRowWrite s
  | .matrixOpEnd => Sys2Proof.Machine.execMatrixOpEnd s
  | .matrixStopComplete => Sys2Proof.Machine.execMatrixStopComplete s
  | .txPrepare => Sys2Proof.Machine.execTxPrepare s
  | .txAnswer => Sys2Proof.Machine.execTxAnswer s
  | .txCommit => Sys2Proof.Machine.execTxCommit s
  | .txRelease => Sys2Proof.Machine.execTxRelease s
  | .tokenGrant => Sys2Proof.Machine.execTokenGrant s
  | .groupStop => Sys2Proof.Machine.execGroupStop s
  | .groupResume => Sys2Proof.Machine.execGroupResume s
  | .coreFailure => Sys2Proof.Machine.execCoreFailure s
  | .remapWaveStep => Sys2Proof.Machine.execRemapWaveStep s
  | .tileFailure => Sys2Proof.Machine.execTileFailure s
  | .retireShrink => Sys2Proof.Machine.execRetireShrink s
  | .retireRemap => Sys2Proof.Machine.execRetireRemap s
  | .retireAbort => Sys2Proof.Machine.execRetireAbort s
  | .retireTimeout => Sys2Proof.Machine.execRetireTimeout s
  | .boostIntervalBoundary => Sys2Proof.Machine.execBoostIntervalBoundary s
  | .sensorRead => Sys2Proof.Machine.execSensorRead s
  | .fieldCurrentSample => Sys2Proof.Machine.execFieldCurrentSample s
  | .transitTick => Sys2Proof.Machine.execTransitTick s
  | .periodBoundary => Sys2Proof.Machine.execPeriodBoundary s
  | .sliceEnd => Sys2Proof.Machine.execSliceEnd s
  | .qProdWrite => Sys2Proof.Machine.execQProdWrite s
  | .qCtlEn => Sys2Proof.Machine.execQCtlEn s
  | .qCtlRun => Sys2Proof.Machine.execQCtlRun s
  | .qCtlAbort => Sys2Proof.Machine.execQCtlAbort s
  | .waitPacket => Sys2Proof.Machine.execWaitPacket s
  | .waitRecheck => Sys2Proof.Machine.execWaitRecheck s
  | .waitTimeout => Sys2Proof.Machine.execWaitTimeout s
  | .signalPacket => Sys2Proof.Machine.execSignalPacket s
  | .markPacket => Sys2Proof.Machine.execMarkPacket s
  | .reshapeAck => Sys2Proof.Machine.execReshapeAck s
  | .powerControlWrite => Sys2Proof.Machine.execPowerControlWrite s
  | .powerRangeWrite => Sys2Proof.Machine.execPowerRangeWrite s
  | .energyLoRead => Sys2Proof.Machine.execEnergyLoRead s
  | .registerWrite => Sys2Proof.Machine.execRegisterWrite s
  | .lockInterfaceRequest => Sys2Proof.Machine.execLockInterfaceRequest s
  | .startInterfaceRequest => Sys2Proof.Machine.execStartInterfaceRequest s
  | .stopInterfaceRequest => Sys2Proof.Machine.execStopInterfaceRequest s
  | .idePacketReceive => Sys2Proof.Machine.execIdePacketReceive s
  | .spdmSessionLoss => Sys2Proof.Machine.execSpdmSessionLoss s
  | .getVersion => Sys2Proof.Machine.execGetVersion s
  | .getCapabilities => Sys2Proof.Machine.execGetCapabilities s
  | .negotiateAlgorithms => Sys2Proof.Machine.execNegotiateAlgorithms s
  | .getDigests => Sys2Proof.Machine.execGetDigests s
  | .getCertificate => Sys2Proof.Machine.execGetCertificate s
  | .challenge => Sys2Proof.Machine.execChallenge s
  | .getMeasurements => Sys2Proof.Machine.execGetMeasurements s
  | .keyExchange => Sys2Proof.Machine.execKeyExchange s
  | .finish => Sys2Proof.Machine.execFinish s
  | .endSession => Sys2Proof.Machine.execEndSession s
  | .ideKeyManagement => Sys2Proof.Machine.execIdeKeyManagement s
  | .keySlotLoad => Sys2Proof.Machine.execKeySlotLoad s
  | .keySlotClear => Sys2Proof.Machine.execKeySlotClear s
  | .keySlotQuery => Sys2Proof.Machine.execKeySlotQuery s
  | .recoveryImage => Sys2Proof.Machine.execRecoveryImage s
  | .reshapeStep => Sys2Proof.Machine.execReshapeStep s
  | .reshapeDirtyTimeout => Sys2Proof.Machine.execReshapeDirtyTimeout s
  | .scrubGranule => Sys2Proof.Machine.execScrubGranule s
  | .write => Sys2Proof.Machine.execWrite s
  | .readreq => Sys2Proof.Machine.execReadreq s
  | .readrsp => Sys2Proof.Machine.execReadrsp s
  | .atomic => Sys2Proof.Machine.execAtomic s
  | .reduce => Sys2Proof.Machine.execReduce s
  | .stamp => Sys2Proof.Machine.execStamp s
  | .marker => Sys2Proof.Machine.execMarker s
  | .ack => Sys2Proof.Machine.execAck s
  | .nak => Sys2Proof.Machine.execNak s
  | .chunk => Sys2Proof.Machine.execChunk s
  | .mgmt => Sys2Proof.Machine.execMgmt s
  | .forward => Sys2Proof.Machine.execForward s
  | .keySwitchThreshold => Sys2Proof.Machine.execKeySwitchThreshold s
  | .stampTimer => Sys2Proof.Machine.execStampTimer s
  | .linkTraining => Sys2Proof.Machine.execLinkTraining s
  | .linkUp => Sys2Proof.Machine.execLinkUp s
  | .xdMove => Sys2Proof.Machine.execXdMove s
  | .xdUnpin => Sys2Proof.Machine.execXdUnpin s
  | .powerOn => Sys2Proof.Machine.execPowerOn s
  | .resetPin => Sys2Proof.Machine.execResetPin s
  | .modResetWrite => Sys2Proof.Machine.execModResetWrite s
  | .undervolt => Sys2Proof.Machine.execUndervolt s
  | .coolantFault => Sys2Proof.Machine.execCoolantFault s
  | .lockstep => Sys2Proof.Machine.execLockstep s
  | .dropTailWrite => Sys2Proof.Machine.execDropTailWrite s
  | .partCreate => Sys2Proof.Machine.execPartCreate s
  | .partDestroy => Sys2Proof.Machine.execPartDestroy s
  | .vfBind => Sys2Proof.Machine.execVfBind s
  | .vfUnbind => Sys2Proof.Machine.execVfUnbind s
  | .granAdd => Sys2Proof.Machine.execGranAdd s
  | .granRelease => Sys2Proof.Machine.execGranRelease s
  | .reshape => Sys2Proof.Machine.execReshape s
  | .exportPage => Sys2Proof.Machine.execExportPage s
  | .unexportPage => Sys2Proof.Machine.execUnexportPage s
  | .sharedCreate => Sys2Proof.Machine.execSharedCreate s
  | .sharedFill => Sys2Proof.Machine.execSharedFill s
  | .devForget => Sys2Proof.Machine.execDevForget s
  | .rollbackCommit => Sys2Proof.Machine.execRollbackCommit s
  | .setHeadroom => Sys2Proof.Machine.execSetHeadroom s
  | .linkCtl => Sys2Proof.Machine.execLinkCtl s
  | .clockDriveStep => Sys2Proof.Machine.execClockDriveStep s
  | .discardedFlit => Sys2Proof.Machine.execDiscardedFlit s
  | .hostOriginatedRequest => Sys2Proof.Machine.execHostOriginatedRequest s
  | .unsupportedRequest => Sys2Proof.Machine.execUnsupportedRequest s

end Sys2Proof.Machine
end

