-- ==== Sys2Proof/Machine/Auto.lean ====
section
/-!
DEFINITION. The machine's own progress when the schedule says nothing: cores with something to issue take turns, and every fourth step, or
when nothing can issue, one of the events that would change something happens, in rotation (assumption 2).
-/

namespace Sys2Proof.Machine

/-- An event with its numbers. -/
def happen (i : Instr) (l : List Nat) : Instr × Ev := (i, ⟨l, []⟩)
/-- Events of contexts: stops, results, wakes, resumptions. -/
def State.ctxEvents (s : State) : List (Instr × Ev) :=
  let cs := s.allCtxs.filter fun c => c.kind != .none
  (cs.filter fun c => c.preempt).map (fun c => happen .groupStop [c.id]) ++
    (s.cores.filter fun k => !k.2.waves.isEmpty).map (fun k => happen .barrierWaveWake [k.1]) ++
    cs.flatMap (fun c => match c.park with
      | some (.queue q push) => [happen .queueWaiterServe [q.core, q.addr % 2 ^ 21, push.toNat]]
      | some (.barrierTimed _ _ _) => [happen .barTwaitTimeout [c.id]]
      | _ => []) ++
    cs.flatMap (fun c => (c.deferred.filter fun d => d.ready && d.due == 0).map fun d => happen .deferredResultWrite [c.id, d.id]) ++
    (cs.filter fun c => c.park.isSome && c.park != some .limit && c.park != some .link).map (fun c => happen .groupWake [c.id]) ++
    (cs.filter fun c => c.overdue).map (fun c => happen .yieldover [c.id]) ++
    (cs.filter fun c => c.stopped).map fun c => happen .groupResume [c.id]
/-- Events of the mesh, the barrier units, the drop log and translations. -/
def State.meshEvents (s : State) : List (Instr × Ev) :=
  s.packets.flatMap (fun p => [happen .packetDelivery [p.id], happen .atomicPerform [p.id]]) ++
    s.deliveries.map (fun d => happen .barrierOperation [d.obj.core]) ++
    (if s.drops.isEmpty then [] else [happen .dropLogAppend []]) ++ (if s.nacks.isEmpty then [] else [happen .negativeAcknowledgement []]) ++
    s.walks.map (fun w => happen .walkComplete [w.1]) ++ s.inval.map (fun i => happen .tlbinvComplete [i.tag]) ++
    s.parts.map fun p => happen .tokenGrant [p.1]
/-- Events of engines and commits. -/
def State.engineEvents (s : State) : List (Instr × Ev) :=
  s.jobs.flatMap (fun j => [happen .jobDispatch [j.id], happen .spawnAccept [j.id], happen .collectiveStart [j.id]] ++
      j.flight.map (fun k => happen .chunkComplete [j.id, k]) ++ [happen .subjobDispatch [j.id], happen .qzBlockComplete [j.id]]) ++
    s.colls.map (fun c => happen .collectiveChunkComplete [c.launch, c.con, c.cid, c.next]) ++
    s.mxops.flatMap (fun o => [happen .matrixOpStart [o.id], happen .mxldSlabWrite [o.id], happen .aRowRead [o.id], happen .mxfmaRowWrite [o.id, 0],
      happen .matrixOpEnd [o.id, 0, 0]]) ++
    (s.cores.filter fun k => k.2.engine.held).map (fun k => happen .matrixStopComplete [k.1]) ++
    s.commits.flatMap fun c => c.todo.map (fun h => happen .txPrepare [c.id, h]) ++ [happen .txAnswer [c.id]] ++
      c.ready.flatMap fun h => [happen .txCommit [c.id, h], happen .txRelease [c.id, h]]
/-- The row of each mailbox command. -/
def mailboxRow : Nat → Option Instr
  | 1 => some .partCreate
  | 2 => some .partDestroy
  | 3 => some .vfBind
  | 4 => some .vfUnbind
  | 5 => some .granAdd
  | 6 => some .granRelease
  | 7 => some .reshape
  | 8 => some .exportPage
  | 9 => some .unexportPage
  | 10 => some .sharedCreate
  | 11 => some .sharedFill
  | 12 => some .devForget
  | 13 => some .rollbackCommit
  | 14 => some .setHeadroom
  | 15 => some .linkCtl
  | _ => none
/-- Events of cores' queues of blocks, of the transit complex and of the dome controller. -/
def State.domeEvents (s : State) : List (Instr × Ev) :=
  s.cores.map (fun k => happen .blockResident [k.1]) ++
    s.vfs.flatMap (fun v => v.2.queues.flatMap fun q => if !q.2.en then [] else
      [Instr.launch, .waitPacket, .waitRecheck, .waitTimeout, .signalPacket, .markPacket, .reshapeAck].map fun i => happen i [v.1, q.1]) ++
    (match (if s.module.mbGo then mailboxRow (bytesNat [SMap.get 0 s.module.mbBuf 0, SMap.get 0 s.module.mbBuf 1]) else none) with
      | some i => [happen i []]
      | none => []) ++
    (s.parts.filter fun p => p.2.reshape.isSome || p.2.pub.isSome).map (fun p => happen .reshapeStep [p.1]) ++
    (s.parts.filter fun p => p.2.retire.isSome).flatMap (fun p => [Instr.retireShrink, .retireRemap, .retireAbort].map fun i => happen i [p.1]) ++
    s.tiles.flatMap fun t => [0, 1].map fun r => happen .remapWaveStep [t.1, r]
/-- Another try of what waits for a lock or a link. -/
def State.timeEvents (s : State) : List (Instr × Ev) :=
  (s.allCtxs.filter fun c => c.kind != .none && (c.park = some .limit || c.park = some .link)).map fun c => happen .groupWake [c.id]

/-- An event that changes the state. -/
def State.changes (s : State) (e : Instr × Ev) : Bool := match exec e.1 { s with ev := e.2 } with
  | .next t => { t with ev := s.ev } != s
  | _ => false
/-- The event of the module that comes next by itself, with what it is about; with `late`, also another try of what waits. -/
def State.autoEvent (s : State) (late : Bool) : Option (Instr × Ev) :=
  let l := (s.ctxEvents ++ s.meshEvents ++ s.engineEvents ++ s.domeEvents ++ (if late then s.timeEvents else [])).filter s.changes
  l[s.turn / 4 % l.length]?

/-- What the next step does. -/
def State.todo (s : State) : Todo :=
  match s.agenda with
  | .ev .clockDriveStep d :: rest =>
    let t := { s with agenda := rest }
    if s.issueDue (d.args.getD 0 0) then t.cycle (d.args.getD 0 0) else .event .clockDriveStep { t with ev := d }
  | .ev i d :: rest => .event i { s with agenda := rest, ev := d }
  | .core c :: rest => ({ s with agenda := rest }).cycle c
  | .upset u :: rest => .go (({ s with agenda := rest }).upset u)
  | .ctx id :: rest =>
    let t := { s with agenda := rest }
    match t.ctx? id with
    | some c => if c.isReady && s.slotFree c then (t.switchTo id).issueCur else .go t
    | none => .go t
  | [] =>
    if !s.raised.isEmpty then .event .faultRingWrite { s with ev := {} }
    else
      let t := { s with turn := s.turn + 1 }
      match s.nextCore with
      | some c => (match (if s.turn % 4 = 3 then s.autoEvent false else none) with
        | some e => .event e.1 { t with ev := e.2 }
        | none => t.cycle c)
      | none => match s.autoEvent true with
        | some e => .event e.1 { t with ev := e.2 }
        | none => .idle

/-! ## A decoded word -/

/-- The meaning of a decoded word is that of its instruction. -/
noncomputable def runDecoded (p : Decoded) (s : State) : Host.Outcome State Fault Refusal := exec p.instr s
/-- The same, word by word, in a form that runs. -/
def execDecoded (p : Decoded) (s : State) : Host.Outcome State Fault Refusal := match p with
  | .std i => exec i s
  | .short op f d a => (match op with
    | 0#4 => execMovShort f d a s
    | 1#4 => execIaddShort f d a s
    | 2#4 => execIsubShort f d a s
    | 3#4 => execImulShort f d a s
    | 4#4 => execAndShort f d a s
    | 5#4 => execOrShort f d a s
    | 6#4 => execXorShort f d a s
    | 7#4 => execShlShort f d a s
    | 8#4 => execShrShort f d a s
    | 9#4 => execFaddShort f d a s
    | 10#4 => execFsubShort f d a s
    | 11#4 => execFmulShort f d a s
    | 12#4 => execFmaxShort f d a s
    | 13#4 => execFminShort f d a s
    | 14#4 => execFnegShort f d a s
    | _ => execLdsShort f d a s)
  | .hint f h => execHint f h s
  | .nop f => execNop f s
  | .txabort f => execTxabort f s
  | .fenceAsync f => execFenceAsync f s
  | .exit f => execExit f s
@[csimp] theorem runDecoded_eq : @runDecoded = @execDecoded := by
  funext p s
  cases p with
  | short op f d a =>
    obtain ⟨⟨n, hn⟩⟩ := op
    interval_cases n <;> rfl
  | _ => rfl

end Sys2Proof.Machine
end

