-- ==== Sys2Proof/Machine/Step.lean ====
section
/-!
DEFINITION. One step of the machine: what `State.todo` says is to be done, performed by `exec`.
-/

namespace Sys2Proof.Machine

/-- One step. -/
def step (s : State) : Host.Outcome State Fault Refusal :=
  match s.todo with
  | .idle => .next s
  | .go t => .next t
  | .run p t => runDecoded p t
  | .event i t => exec i t

/-- A state whose very next step issues the instruction of these bits (assumption 17). -/
def State.withFetchWord (s : State) (nbits w : Nat) : State := s.withProgram 4 (w % 2 ^ nbits)

end Sys2Proof.Machine
end

