-- ==== Sys2Proof/Safety.lean ====
section
/-!
DEFINITION. What counts as a safe run, and the words the statements use: when the context in the issue slot may go on with its next
instruction, and what an instruction leaves as it was.
-/

namespace Sys2Proof.Machine

/-! ## Safe runs -/

/-- The next step answers a next state: the machine neither faults nor refuses. -/
def State.goesOn (s : State) : Prop := ∃ t, step s = .next t
/-- Every byte memory lists addresses that rise strictly, and no byte equal to what an unlisted one reads as. -/
def State.memWf (s : State) : Bool := Memory.wf s.hbm && Memory.wf s.host && Memory.wf s.sp
/-- A run of n steps that never stops, with its last state. -/
def State.runs : Nat → State → State → Prop
  | 0, s, t => s = t
  | n + 1, s, t => ∃ u, step s = .next u ∧ State.runs n u t

/-! ## When an instruction executes normally -/

/-- The issue slot holds a context that is within its deadline (R307), outside a recipe body (R302), with every earlier result
written (R16) and nothing poisoned (R311), at a word of its own length (R71). -/
structure State.Ready (s : State) : Prop where
  holds : s.cur.kind ≠ .none
  recipe : s.cur.recipe = none
  word : s.cur.slotLen = 0
  inTime : s.cur.overdue = false
  written : s.cur.deferred = []
  poisonV : s.cur.poisonV = []
  poisonS : s.cur.poisonS = 0
/-- The same of a group. -/
def State.GroupReady (s : State) : Prop := s.Ready ∧ s.cur.kind = .group
/-- R13: the vector registers stand in the block's allocation. -/
def State.hasV (s : State) (l : List Nat) : Prop := ∀ r ∈ l, r < min s.cur.valloc 64

/-- R70: the address after a word of `len` bytes, in a loop body the next slot's, and the loop state there. -/
def Ctx.follow (c : Ctx) (len : Nat) : W64 × Option LoopState := match c.loop with
  | none => (c.pc + BitVec.ofNat 64 len, none)
  | some l => l.next

/-! ## What an instruction leaves as it was -/

/-- What every issue moves or counts in its context set aside: where it goes on (R70), the marks of one issue, the park and the
counters (R307, R341, R343, R348). -/
def Ctx.aside (c : Ctx) : Ctx :=
  { c with pc := 0, loop := none, park := none, reissue := false, woken := 0, addrOff := 0, slotLen := 0, stepped := false, answers := [], probe := 0,
           icnt := 0, cls0 := 0, cls1 := 0, cls2 := 0, cls3 := 0, smCount := 0, issued := 0, age := 0 }
/-- The same of its core: the stages, the arbiter's window, and who issued in the tick (R321, R337, R344). -/
def Core.aside (k : Core) : Core := { k with stages := [], winClass := 0, winCount := 0, issuedTick := [] }
/-- The same of its tile: the activity counts (R356). -/
def Tile.aside (t : Tile) : Tile := { t with counts := [] }

/-- t is s but for what every issue moves or counts. -/
def State.Keeps (s t : State) : Prop :=
  ({ t with cur := t.cur.aside, cores := [], tiles := [], oracle := 0 } : State) =
    { s with cur := s.cur.aside, cores := [], tiles := [], oracle := 0 } ∧
  (∀ c, (t.core c).aside = (s.core c).aside) ∧ ∀ x, (t.tile x).aside = (s.tile x).aside

/-- Every byte outside the register rows reads as before. -/
def State.SameBytes (s t : State) : Prop := ∀ l : Loc, l.tt ≠ 2 → t.readByte l = s.readByte l
/-- Every row of every register file but one is as before. -/
def State.SameRows (s t : State) (row : Nat) : Prop := ∀ r, r ≠ row → SMap.get 0 t.vrf r = SMap.get 0 s.vrf r

/-- Control goes on behind a word of `len` bytes. -/
def State.GoesOn (s t : State) (len : Nat) : Prop := t.cur.pc = (s.cur.follow len).1 ∧ t.cur.loop = (s.cur.follow len).2

/-- One vector register is written, lane by lane, and flags are added; all else is kept. -/
structure State.WroteV (s t : State) (d len : Nat) (v : Nat → W32) (fl : Nat → FFlags) : Prop where
  lanes : ∀ k < 256, laneOf (t.rawV d) k = v k
  flags : ∀ j, t.cur.fpx.getLsbD j = true ↔ s.cur.fpx.getLsbD j = true ∨ ∃ k < 256, (fl k).getLsbD j = true
  goes : s.GoesOn t len
  rows : s.SameRows t (s.cur.row d)
  bytes : s.SameBytes t
  keeps : s.Keeps { t with vrf := s.vrf, cur := { t.cur with fpx := s.cur.fpx } }

/-- One uniform register is written; all else is kept. -/
structure State.WroteS (s t : State) (d len : Nat) (v : W64) : Prop where
  value : t.rawS d = v
  others : ∀ r, r ≠ d → t.rawS r = s.rawS r
  goes : s.GoesOn t len
  bytes : s.SameBytes t
  rows : t.vrf = s.vrf
  keeps : s.Keeps { t with cur := { t.cur with sregs := s.cur.sregs } }

/-- One predicate is written, bit by bit, but for `p0`, which stays all ones (R42), and flags are added; all else is kept. -/
structure State.WroteP (s t : State) (d len : Nat) (v : Nat → Bool) (fl : Nat → FFlags) : Prop where
  bits : ∀ k < 256, (t.rawP d).getLsbD k = if d = 0 then true else v k
  others : ∀ r, r ≠ d → t.rawP r = s.rawP r
  flags : ∀ j, t.cur.fpx.getLsbD j = true ↔ s.cur.fpx.getLsbD j = true ∨ ∃ k < 256, (fl k).getLsbD j = true
  goes : s.GoesOn t len
  bytes : s.SameBytes t
  rows : t.vrf = s.vrf
  keeps : s.Keeps { t with cur := { t.cur with preds := s.cur.preds, fpx := s.cur.fpx } }

/-- A result is left in flight for `steps` steps of the core (R16, R321); with the settle marker the context parks for it (R15); all else
is kept. -/
structure State.LeftResult (s t : State) (len steps : Nat) (settle : Bool) (vals : List DVal) (fl : FFlags) : Prop where
  result : t.cur.deferred = [⟨s.nextId, vals, fl, steps, true⟩]
  parks : t.cur.park = if settle then some .settle else none
  goes : s.GoesOn t len
  bytes : s.SameBytes t
  rows : t.vrf = s.vrf
  keeps : s.Keeps { t with nextId := s.nextId, cur := { t.cur with deferred := [] } }

/-- Nothing is written; control goes on. -/
structure State.WroteNothing (s t : State) (len : Nat) : Prop where
  goes : s.GoesOn t len
  bytes : s.SameBytes t
  rows : t.vrf = s.vrf
  keeps : s.Keeps t

/-- Control passes to an address or goes on behind the word, and nothing is written. -/
structure State.MovedTo (s t : State) (pc : W64) : Prop where
  pc : t.cur.pc = pc
  bytes : s.SameBytes t
  rows : t.vrf = s.vrf
  keeps : s.Keeps t

/-- One part of a result, written. -/
def State.take (s : State) : DVal → State
  | .vec r m v _ => { s with vrf := SMap.set 0 s.vrf (s.cur.row r) (mergeVec m v (s.rawV r)) }
  | .uni r v _ => { s with cur := { s.cur with sregs := SMap.set 0 s.cur.sregs r v } }
  | .prd r m v _ => if r = 0 then s else { s with cur := { s.cur with preds := SMap.set 0 s.cur.preds r (mergeMask m v (s.rawP r)) } }

/-- The instruction has its effect u, and its result has returned (R16, R99): it is in flight until a settle writes it, which the settle
marker does at once (R15); nothing else changes. -/
structure State.Returns (s u t : State) (len : Nat) (settle : Bool) (vals : List DVal) : Prop where
  flight : t.cur.deferred = if settle = true ∨ vals = [] then [] else [⟨u.nextId, vals, 0, 0, true⟩]
  ids : t.nextId = if vals = [] then u.nextId else u.nextId + 1
  before : settle = false → u.Keeps { t with nextId := u.nextId, cur := { t.cur with deferred := [] } }
  after : ({ vals.foldl State.take u with nextId := t.nextId } : State).Keeps t.settle
  goes : s.GoesOn t len
  awake : t.cur.park = none
  bytes : u.SameBytes t

/-- u is s but for what translated accesses leave: cached translations (R129), request numbers (R132) and L1 lines (R89). -/
structure State.Cached (s u : State) : Prop where
  same : u = { s with parts := u.parts, launches := u.launches, cores := u.cores }
  parts : ∀ p, ({ u.part p with tlb := [] } : Part) = { s.part p with tlb := [] }
  launches : ∀ l, ({ u.launch l with rseq := [], wseq := [] } : Launch) = { s.launch l with rseq := [], wseq := [] }
  own : ({ u.core s.cur.core with l1 := [] } : Core) = { s.core s.cur.core with l1 := [] }
  others : ∀ c, c ≠ s.cur.core → u.core c = s.core c

/-- Nothing else acts on the memory an access meets: no packet or delivery in flight, no lock, no poison, no other device, no cached
translation or line, no transaction. -/
structure State.Alone (s : State) : Prop where
  packets : s.packets = []
  deliveries : s.deliveries = []
  locks : s.locks = []
  poison : s.poison = []
  peers : s.peers = []
  ports : s.ports = []
  exports : s.exports = []
  tlb : (s.part s.curTag).tlb = []
  l1 : (s.core s.cur.core).l1 = []
  tx : s.cur.txg = false

/-! ## Shapes of instructions -/

/-- `op vd, va, vb`: each active lane of d takes the result of a and b, with its flags. -/
def Computes2 (i : Bool → BitVec 3 → BitVec 6 → BitVec 6 → BitVec 6 → Instr) (f : W32 → W32 → FRes) : Prop :=
  ∀ sm g d a b s, s.GroupReady → s.hasV [d.toNat, a.toNat, b.toNat] → ∃ t, exec (i sm g d a b) s = .next t ∧
    s.WroteV t d.toNat 4
      (fun k => if (s.act g).getLsbD k then (f (laneOf (s.rawV a.toNat) k) (laneOf (s.rawV b.toNat) k)).v else laneOf (s.rawV d.toNat) k)
      (fun k => if (s.act g).getLsbD k then (f (laneOf (s.rawV a.toNat) k) (laneOf (s.rawV b.toNat) k)).fl else 0)
/-- The same of an operation that also reads d. -/
def Computes3 (i : Bool → BitVec 3 → BitVec 6 → BitVec 6 → BitVec 6 → Instr) (f : W32 → W32 → W32 → FRes) : Prop :=
  ∀ sm g d a b s, s.GroupReady → s.hasV [d.toNat, a.toNat, b.toNat] → ∃ t, exec (i sm g d a b) s = .next t ∧
    s.WroteV t d.toNat 4
      (fun k => if (s.act g).getLsbD k then (f (laneOf (s.rawV d.toNat) k) (laneOf (s.rawV a.toNat) k) (laneOf (s.rawV b.toNat) k)).v
        else laneOf (s.rawV d.toNat) k)
      (fun k => if (s.act g).getLsbD k then (f (laneOf (s.rawV d.toNat) k) (laneOf (s.rawV a.toNat) k) (laneOf (s.rawV b.toNat) k)).fl else 0)
/-- `op vd, va`. -/
def Computes1 (i : Bool → BitVec 3 → BitVec 6 → BitVec 6 → Instr) (f : W32 → FRes) : Prop :=
  ∀ sm g d a s, s.GroupReady → s.hasV [d.toNat, a.toNat] → ∃ t, exec (i sm g d a) s = .next t ∧
    s.WroteV t d.toNat 4
      (fun k => if (s.act g).getLsbD k then (f (laneOf (s.rawV a.toNat) k)).v else laneOf (s.rawV d.toNat) k)
      (fun k => if (s.act g).getLsbD k then (f (laneOf (s.rawV a.toNat) k)).fl else 0)
/-- `op vd, imm`. -/
def ComputesImm {n : Nat} (i : Bool → BitVec 3 → BitVec 6 → BitVec n → Instr) (f : W32 → BitVec n → W32) : Prop :=
  ∀ sm g d x s, s.GroupReady → s.hasV [d.toNat] → ∃ t, exec (i sm g d x) s = .next t ∧
    s.WroteV t d.toNat 4
      (fun k => if (s.act g).getLsbD k then f (laneOf (s.rawV d.toNat) k) x else laneOf (s.rawV d.toNat) k) (fun _ => 0)
/-- A short form on the lanes of `em`. -/
def ComputesShort (i : Bool → BitVec 5 → BitVec 5 → Instr) (f : W32 → W32 → FRes) : Prop :=
  ∀ sm d a s, s.GroupReady → s.hasV [d.toNat, a.toNat] → ∃ t, exec (i sm d a) s = .next t ∧
    s.WroteV t d.toNat 2
      (fun k => if s.cur.em.getLsbD k then (f (laneOf (s.rawV d.toNat) k) (laneOf (s.rawV a.toNat) k)).v else laneOf (s.rawV d.toNat) k)
      (fun k => if s.cur.em.getLsbD k then (f (laneOf (s.rawV d.toNat) k) (laneOf (s.rawV a.toNat) k)).fl else 0)
/-- `op vd, va, vb` whose result is deferred: it is left in flight for the active lanes, four steps from being written. -/
def Defers2 (i : Bool → BitVec 3 → BitVec 6 → BitVec 6 → BitVec 6 → Instr) (f : W32 → W32 → FRes) : Prop :=
  ∀ sm g d a b s, s.GroupReady → s.hasV [d.toNat, a.toNat, b.toNat] → ∃ t x fl, exec (i sm g d a b) s = .next t ∧
    s.LeftResult t 4 4 sm [.vec d.toNat (s.act g) x 0] fl ∧
    (∀ k < 256, (s.act g).getLsbD k → laneOf x k = (f (laneOf (s.rawV a.toNat) k) (laneOf (s.rawV b.toNat) k)).v) ∧
    ∀ j, fl.getLsbD j = true ↔
      ∃ k < 256, (if (s.act g).getLsbD k then (f (laneOf (s.rawV a.toNat) k) (laneOf (s.rawV b.toNat) k)).fl else 0).getLsbD j = true
/-- `op vd, va` whose result is deferred. -/
def Defers1 (i : Bool → BitVec 3 → BitVec 6 → BitVec 6 → Instr) (f : W32 → FRes) : Prop :=
  ∀ sm g d a s, s.GroupReady → s.hasV [d.toNat, a.toNat] → ∃ t x fl, exec (i sm g d a) s = .next t ∧
    s.LeftResult t 4 4 sm [.vec d.toNat (s.act g) x 0] fl ∧
    (∀ k < 256, (s.act g).getLsbD k → laneOf x k = (f (laneOf (s.rawV a.toNat) k)).v) ∧
    ∀ j, fl.getLsbD j = true ↔ ∃ k < 256, (if (s.act g).getLsbD k then (f (laneOf (s.rawV a.toNat) k)).fl else 0).getLsbD j = true
/-- `op pd, va, vb`: each active lane's bit of pd. -/
def Compares (i : Bool → BitVec 3 → BitVec 3 → BitVec 6 → BitVec 6 → Instr) (f : W32 → W32 → Bool × FFlags) : Prop :=
  ∀ sm g d a b s, s.GroupReady → s.hasV [a.toNat, b.toNat] → ∃ t, exec (i sm g d a b) s = .next t ∧
    s.WroteP t d.toNat 4
      (fun k => if (s.act g).getLsbD k then (f (laneOf (s.rawV a.toNat) k) (laneOf (s.rawV b.toNat) k)).1 else (s.rawP d.toNat).getLsbD k)
      (fun k => if (s.act g).getLsbD k then (f (laneOf (s.rawV a.toNat) k) (laneOf (s.rawV b.toNat) k)).2 else 0)
/-- `op sd, sa, sb`, in a group or a sequencer. -/
def ComputesS (i : Bool → BitVec 6 → BitVec 6 → BitVec 6 → Instr) (f : W64 → W64 → W64) : Prop :=
  ∀ sm d a b s, s.Ready → ∃ t, exec (i sm d a b) s = .next t ∧ s.WroteS t d.toNat 4 (f (s.rawS a.toNat) (s.rawS b.toNat))
/-- The same with a deferred result. -/
def DefersS (i : Bool → BitVec 6 → BitVec 6 → BitVec 6 → Instr) (f : W64 → W64 → W64) : Prop :=
  ∀ sm d a b s, s.Ready → ∃ t, exec (i sm d a b) s = .next t ∧
    s.LeftResult t 4 4 sm [.uni d.toNat (f (s.rawS a.toNat) (s.rawS b.toNat)) false] 0

/-! ## Memory instructions -/

/-- R81: the address of lane k in [base + va]. -/
def State.laneAddr (s : State) (base : W64) (a k : Nat) : Nat := (base + (laneOf (s.rawV a) k).setWidth 64 + s.cur.addrOff).toNat
/-- R86: the place of a scratchpad offset of the block. -/
def State.spPlace (s : State) (off : Nat) : Loc := ⟨1, s.cur.core * 2 ^ 21 + (s.block s.cur.block).spbase + off⟩
/-- R82, R86: an offset an access of n bytes may name. -/
def State.spFits (s : State) (n off : Nat) : Prop := off % n = 0 ∧ off + n ≤ (s.block s.cur.block).spsize
/-- Table 03-1: how many registers n bytes take, and the r-th one of a load. -/
def regsOf (n : Nat) : Nat := max 1 (n / 4)
def State.loaded (s : State) (signed : Bool) (n : Nat) (l : Loc) (r : Nat) : W32 :=
  if n < 4 then (if signed then (BitVec.ofNat (8 * n) (s.readNum l n)).signExtend 32 else BitVec.ofNat 32 (s.readNum l n))
  else BitVec.ofNat 32 (s.readNum ⟨l.tt, l.addr + 4 * r⟩ 4)
/-- R84: the result of a load into d and the registers after it, for the lanes of a mask. -/
def LoadResult (n d : Nat) (m : Mask) (v : Nat → Nat → W32) (vals : List DVal) : Prop :=
  (m = 0 → vals = []) ∧ (m ≠ 0 → ∃ x : Nat → Vec, vals = (List.range (regsOf n)).map (fun r => .vec (d + r) m (x r) 0) ∧
    ∀ r < regsOf n, ∀ k < 256, m.getLsbD k → laneOf (x r) k = v r k)
/-- Table 03-1: byte j of what lane k stores from d and the registers after it, and the bytes of the lanes of a mask, ascending (R85). -/
def State.dataByte (s : State) (d k j : Nat) : Byte := (laneOf (s.rawV (d + j / 4)) k).extractLsb' (8 * (j % 4)) 8
def State.storeCells (s : State) (n d : Nat) (m : Mask) (place : Nat → Loc) : List (Loc × Byte) :=
  (maskLanes m).flatMap fun k => (List.range n).map fun j => (⟨(place k).tt, (place k).addr + j⟩, s.dataByte d k j)
/-- Bytes are written in order, the last one for a place standing (R85); every other byte reads as before. -/
structure State.Stored (s t : State) (cells : List (Loc × Byte)) : Prop where
  last : ∀ l b, (cells.filter fun c => c.1 == l).getLast? = some (l, b) → t.readByte l = b
  others : ∀ l, (∀ c ∈ cells, c.1 ≠ l) → t.readByte l = s.readByte l
/-- Each lane of a mask may access the place it names: of this device, in its partition, aligned (R82, R97, R130). -/
def State.Reaches (s : State) (acc : Acc) (n : Nat) (m : Mask) (va : Nat → Nat) (x : Nat → Xlat) : Prop :=
  ∀ k < 256, m.getLsbD k → s.checkLane acc n (va k) (Nat.pair 0 k) = .ok (x k) ∧ (x k).loc.tt ≤ 5 ∧ s.delivers s.agent (x k).loc = true

/-- u is s but for cached translations (R129) and the numbers of requests and packets (R112, R132), in the partitions and launches. -/
structure State.Numbered (s u : State) : Prop where
  parts : ∀ p, ({ u.part p with tlb := [] } : Part) = { s.part p with tlb := [] }
  launches : ∀ l, ({ u.launch l with rseq := [], wseq := [] } : Launch) = { s.launch l with rseq := [], wseq := [] }
/-- The lanes of a mask whose place has a destination (R132). -/
def destLanes (m : Mask) (place : Nat → Loc) (key : Nat × Nat) : Mask := ofBits fun k => m.getLsbD k && destKey (place k) == key
/-- R84, R132: what the lanes of a mask send is posted, one packet for each destination, the lanes of one in ascending order; a release
stands behind everything the context sent before (R197). No byte changes yet. -/
structure State.Posts (s u : State) (m : Mask) (place : Nat → Loc) (rel : Bool) (content : Mask → PacketOp × List (Loc × Byte)) : Prop where
  same : u = { s with parts := u.parts, launches := u.launches, packets := u.packets, nextId := u.nextId }
  numbered : s.Numbered u
  sent : ∃ keys : List (Nat × Nat), keys.Nodup ∧ (∀ c, c ∈ keys ↔ ∃ k < 256, m.getLsbD k ∧ destKey (place k) = c) ∧
    u.packets.map (fun p => (p.op, p.writes)) = keys.map fun c => content (destLanes m place c)
  sender : ∀ p ∈ u.packets, p.src = s.agent ∧ p.after = if rel then p.id else s.cur.relFence
/-- Bytes are written at once, in order; no register but those of a row a byte stands in changes. -/
structure State.Performs (s u : State) (cells : List (Loc × Byte)) : Prop where
  same : u = { s with parts := u.parts, launches := u.launches, nextId := u.nextId, grans := u.grans, hbm := u.hbm, sp := u.sp, vrf := u.vrf,
                      acc := u.acc, host := u.host }
  numbered : s.Numbered u
  stored : s.Stored u cells

/-- R91: read-modify-writes of w bytes lane by lane, ascending: the state after, and each lane's old value. -/
def State.swapLanes (s : State) (w : Nat) (place : Nat → Loc) (f : Nat → Nat → Nat) (m : Mask) : State × (Nat → Nat) :=
  (maskLanes m).foldl (fun a k => let old := a.1.readNum (place k) w
    (a.1.writeNum (place k) w (f k old), fun j => if j = k then old else a.2 j)) (s, fun _ => 0)
/-- The operand of w bytes a lane holds in a register, and the next one when w is 8. -/
def State.operand (s : State) (w r k : Nat) : Nat :=
  if w = 8 then (laneOf (s.rawV (r + 1)) k ++ laneOf (s.rawV r) k).toNat else (laneOf (s.rawV r) k).toNat
/-- u is v, with s's marks but for the record of what a recipe may not replay (R303), and for requests and translations. -/
structure State.Swapped (s v u : State) : Prop where
  same : u = { v with parts := u.parts, launches := u.launches, nextId := u.nextId, cur := { s.cur with dirty := true } }
  numbered : s.Numbered u

/-- R96: where the line stands that a lane's address names, by a load's rules. -/
def State.lineNamed (s : State) (va k : Nat) : Option Xlat :=
  match s.translate s.curTag s.curVf (!s.cur.smode) (.load 1) va (Nat.pair 0 k) with
  | .ok x => some x
  | .error _ => none
/-- s with another content of its own core's L1. -/
def State.withL1 (s : State) (l : SMap (BitVec 1024)) : State := s.updCore s.cur.core fun k => { k with l1 := l }

/-- Table 02-5: a reduction's running value and flags over the active lanes below n, in ascending order. -/
def reduceTo (act : Mask) (v : Vec) (op : W32 → W32 → FRes) (id_ : W32) (n : Nat) : W32 × FFlags :=
  (List.range n).foldl (fun a k => if act.getLsbD k then ((op a.1 (laneOf v k)).v, a.2 ||| (op a.1 (laneOf v k)).fl) else a) (id_, 0)

/-- R159, R97: a context may access n bytes at a copy address, and place i is where the i-th stands: in the block's own allocation (bit 63), or piece
by piece, as wide as the address and n allow, as plain accesses of a lane. -/
def State.CopyPlaces (s : State) (write : Bool) (lane : Nat) (a : W64) (n : Nat) (place : Nat → Loc) : Prop :=
  (isLocal a = true ∧ a.toNat % 2 ^ 32 + n ≤ (s.block s.cur.block).spsize ∧ a.toNat % 2 ^ 32 + n ≤ 2 ^ 32 ∧
    ∀ i < n, place i = ⟨1, s.cur.core * 2 ^ 21 + (s.block s.cur.block).spbase + a.toNat % 2 ^ 32 + i⟩) ∨
  (isLocal a = false ∧ ∀ k < n / bulkUnit a.toNat n, ∃ x,
    s.checkLane (if write then .store (bulkUnit a.toNat n) else .load (bulkUnit a.toNat n)) 1
      (a + BitVec.ofNat 64 (k * bulkUnit a.toNat n)).toNat (Nat.pair 0 lane) = .ok x ∧ x.loc.tt ≤ 5 ∧
    ∀ j < bulkUnit a.toNat n, place (k * bulkUnit a.toNat n + j) = ⟨x.loc.tt, x.loc.addr + j⟩)

/-! ## What an event meets -/

/-- R330, R331: the thread of a VF's queue serves the packet p, of type t. -/
structure State.Serves (s : State) (v q t p : Nat) : Prop where
  bound : (s.vf v).tag ≠ 0
  runs : ((s.vf v).queue q).mayRun = true
  held : ((s.vf v).queue q).packet = some (BitVec.ofNat 512 p)
  size : p < 2 ^ 512
  fits : (((s.vf v).queue q).prod - ((s.vf v).queue q).cons).toNat ≤ 2 ^ ((s.vf v).queue q).qsize
  due : ((s.vf v).queue q).prod ≠ ((s.vf v).queue q).cons
  good : packetBad p = false
  kind : field p 7 0 = t
/-- The queue with the packet it serves. -/
def State.serving (s : State) (v q p : Nat) : State := s.updQueue v q fun k => { k with packet := some (BitVec.ofNat 512 p) }

/-- R395: the flit of the event arrives on port n with type ftype and is accepted, with payload pl. -/
structure State.Arrives (s : State) (n ftype : Nat) (f : Flit) (pl : List Byte) : Prop where
  port : n = s.arg 0
  small : n < 64
  up : (s.port n).up = true
  flit : f = flitOf s.ev.bytes
  kind : f.ftype = ftype
  ok : (s.port n).fate (s.arg 1 == 1) f = .accept pl
/-- A port with its sequence numbers after it takes a flit. -/
def State.taking (s : State) (n : Nat) : State := s.updPort n Port.take
/-- R415, R416: the command op of the mailbox runs, its first parameter a. -/
structure State.Commands (s : State) (op a : Nat) : Prop where
  go : s.module.mbGo = true
  op : s.module.mb 0 2 = op
  par : a = s.module.mb 8 8

/-- R379: a request for a key slot comes in the session of a VF of the partition, names a VF in RUN of the same partition, and breaks no form. -/
structure State.Slots (s : State) (n : Nat) : Prop where
  vf : s.arg 0 < 512
  session : (s.vf (s.arg 0)).spdm = 5
  bound : (s.vf (s.arg 0)).tag ≠ 0
  payload : n = bytesNat (s.ev.bytes.take 24)

end Sys2Proof.Machine
end

