-- ==== Sys2Proof/Certificates/Slice0/Obligations.lean ====
section
/-!
DEFINITION. What is claimed of the machine. Each `Obligations.<Name>` is a statement for the provers; its docstring names the rules of
the spec it rests on.
-/

open Sys2Proof Sys2Proof.Machine

/-! ## Lane instructions -/

/-- R46, R48: the integer operations of majors 0x00 to 0x03 on each active lane, modulo 2^32, with neither flag nor fault; quotients and
high products are deferred (R16). -/
def Obligations.IntegerLaneOperations : Prop :=
  Computes2 .iadd (fun x y => ⟨x + y, 0⟩) ∧ Computes2 .isub (fun x y => ⟨x - y, 0⟩) ∧ Computes2 .imul (fun x y => ⟨x * y, 0⟩) ∧
  Computes2 .and (fun x y => ⟨x &&& y, 0⟩) ∧ Computes2 .or (fun x y => ⟨x ||| y, 0⟩) ∧ Computes2 .xor (fun x y => ⟨x ^^^ y, 0⟩) ∧
  Computes2 .andn (fun x y => ⟨x &&& ~~~y, 0⟩) ∧ Computes2 .shl (fun x y => ⟨x <<< (y.toNat % 32), 0⟩) ∧
  Computes2 .shr (fun x y => ⟨x >>> (y.toNat % 32), 0⟩) ∧ Computes2 .sra (fun x y => ⟨x.sshiftRight (y.toNat % 32), 0⟩) ∧
  Computes2 .iminI32 (fun x y => ⟨BitVec.ofInt 32 (min x.toInt y.toInt), 0⟩) ∧
  Computes2 .iminN32 (fun x y => ⟨BitVec.ofNat 32 (min x.toNat y.toNat), 0⟩) ∧
  Computes2 .imaxI32 (fun x y => ⟨BitVec.ofInt 32 (max x.toInt y.toInt), 0⟩) ∧
  Computes2 .imaxN32 (fun x y => ⟨BitVec.ofNat 32 (max x.toNat y.toNat), 0⟩) ∧
  Computes3 .imad (fun z x y => ⟨x * y + z, 0⟩) ∧ Computes2 .mov (fun _ y => ⟨y, 0⟩) ∧
  Computes1 .iabs (fun x => ⟨BitVec.ofNat 32 x.toInt.natAbs, 0⟩) ∧
  Computes1 .clz (fun x => ⟨BitVec.ofNat 32 ((List.range 32).countP fun i => x.toNat < 2 ^ i), 0⟩) ∧
  Computes1 .popc (fun x => ⟨BitVec.ofNat 32 ((List.range 32).countP fun i => x.getLsbD i), 0⟩) ∧
  Defers2 .imulhI32 (fun x y => ⟨BitVec.ofInt 32 (x.toInt * y.toInt / 2 ^ 32), 0⟩) ∧
  Defers2 .imulhN32 (fun x y => ⟨BitVec.ofNat 32 (x.toNat * y.toNat / 2 ^ 32), 0⟩) ∧
  Defers2 .idivI32 (fun x y => ⟨if y = 0 then 0xFFFFFFFF else BitVec.ofInt 32 (x.toInt.tdiv y.toInt), 0⟩) ∧
  Defers2 .idivN32 (fun x y => ⟨if y = 0 then 0xFFFFFFFF else x / y, 0⟩) ∧
  Defers2 .iremI32 (fun x y => ⟨if y = 0 then x else BitVec.ofInt 32 (x.toInt.tmod y.toInt), 0⟩) ∧
  Defers2 .iremN32 (fun x y => ⟨if y = 0 then x else x % y, 0⟩)

/-- R49: the immediate operations; imm12 is sign-extended but in `liu`, the shifts take five bits. -/
def Obligations.ImmediateLaneOperations : Prop :=
  ComputesImm .iaddi (fun x (i : BitVec 12) => x + i.signExtend 32) ∧ ComputesImm .andi (fun x (i : BitVec 12) => x &&& i.signExtend 32) ∧
  ComputesImm .ori (fun x (i : BitVec 12) => x ||| i.signExtend 32) ∧ ComputesImm .xori (fun x (i : BitVec 12) => x ^^^ i.signExtend 32) ∧
  ComputesImm .shli (fun x (i : BitVec 5) => x <<< i.toNat) ∧ ComputesImm .shri (fun x (i : BitVec 5) => x >>> i.toNat) ∧
  ComputesImm .srai (fun x (i : BitVec 5) => x.sshiftRight i.toNat) ∧ ComputesImm .lii (fun _ (i : BitVec 12) => i.signExtend 32) ∧
  ComputesImm .liu (fun x (i : BitVec 12) => x.extractLsb' 0 20 ++ i)

/-- R47: `sel` writes every lane whose `em` bit is 1: a where the selector's bit is 1, b otherwise; the prefix is no guard. -/
def Obligations.SelectTakesASelector : Prop :=
  ∀ sm p d a b s, s.GroupReady → s.hasV [d.toNat, a.toNat, b.toNat] → ∃ t, exec (.sel sm p d a b) s = .next t ∧
    s.WroteV t d.toNat 4
      (fun k => if s.cur.em.getLsbD k then (if (s.rawP p.toNat).getLsbD k then laneOf (s.rawV a.toNat) k else laneOf (s.rawV b.toNat) k)
        else laneOf (s.rawV d.toNat) k)
      (fun _ => 0)

/-- R18: the fourteen short forms that compute, on the lanes of `em`, as their 32-bit equivalents do. -/
def Obligations.ShortFormOperations : Prop :=
  ComputesShort .movShort (fun _ y => ⟨y, 0⟩) ∧ ComputesShort .iaddShort (fun x y => ⟨x + y, 0⟩) ∧
  ComputesShort .isubShort (fun x y => ⟨x - y, 0⟩) ∧ ComputesShort .imulShort (fun x y => ⟨x * y, 0⟩) ∧
  ComputesShort .andShort (fun x y => ⟨x &&& y, 0⟩) ∧ ComputesShort .orShort (fun x y => ⟨x ||| y, 0⟩) ∧
  ComputesShort .xorShort (fun x y => ⟨x ^^^ y, 0⟩) ∧ ComputesShort .shlShort (fun x y => ⟨x <<< (y.toNat % 32), 0⟩) ∧
  ComputesShort .shrShort (fun x y => ⟨x >>> (y.toNat % 32), 0⟩) ∧ ComputesShort .faddShort fadd32 ∧ ComputesShort .fsubShort fsub32 ∧
  ComputesShort .fmulShort fmul32 ∧ ComputesShort .fmaxShort (minMax true) ∧ ComputesShort .fminShort (minMax false) ∧
  ComputesShort .fnegShort (fun _ y => ⟨y ^^^ 0x80000000, 0⟩)

/-- R50 to R55: the floating-point operations on each active lane, with their flags; the functions of Table 02-3, square roots and
quotients are deferred (R16). -/
def Obligations.FloatLaneOperations : Prop :=
  Computes2 .fadd fadd32 ∧ Computes2 .fsub fsub32 ∧ Computes2 .fmul fmul32 ∧ Computes3 .ffma (fun z x y => ffma32 x y z) ∧
  Computes2 .fmin (minMax false) ∧ Computes2 .fmax (minMax true) ∧ Computes2 .fneg (fun _ y => ⟨y ^^^ 0x80000000, 0⟩) ∧
  Computes1 .fabs (fun x => ⟨x &&& 0x7FFFFFFF, 0⟩) ∧ Computes2 .hadd2 hadd2 ∧ Computes2 .hmul2 hmul2 ∧
  Computes3 .hfma2 (fun z x y => hfma2 x y z) ∧ Computes2 .hmax2 (hminMax2 true) ∧ Computes2 .hmin2 (hminMax2 false) ∧
  Computes3 .hdot2 (fun z x y => hdot2 x y z) ∧ (∀ m e, Computes1 (fun sm g d a => .cvt sm g m d a e) (cvtElem m e)) ∧
  Computes2 .pack (fun x y => bfPair (roundBf .rne x) (roundBf .rne y)) ∧ Computes1 .unpkLo (fun x => unpkElem (bfLo x)) ∧
  Computes1 .unpkHi (fun x => unpkElem (bfHi x)) ∧ Computes3 .cvt8Lo (cvt8Pair false) ∧ Computes3 .cvt8Hi (cvt8Pair true) ∧
  (∀ k : BitVec 2, Computes1 (fun sm g d a => .unpk8 sm g d a k) (fun x => ⟨e4ToF32 (x.extractLsb' (8 * k.toNat) 8), 0⟩)) ∧
  Defers2 .fdiv fdiv32 ∧ Defers1 .frcp frcp32 ∧ Defers1 .frsq frsq32 ∧ Defers1 .fsqrt fsqrt32 ∧ Defers1 .fexp2 fexp232 ∧
  Defers1 .flog2 flog232

/-- R42, R56: the compares write one bit of pd for each active lane; a write of `p0` leaves it all ones. -/
def Obligations.CompareOperations : Prop :=
  Compares .icmpEq (fun x y => (x == y, 0)) ∧ Compares .icmpNe (fun x y => (x != y, 0)) ∧
  Compares .icmpLtI32 (fun x y => (x.slt y, 0)) ∧ Compares .icmpLeI32 (fun x y => (x.sle y, 0)) ∧
  Compares .icmpLtN32 (fun x y => (x.ult y, 0)) ∧ Compares .icmpLeN32 (fun x y => (x.ule y, 0)) ∧
  Compares .fcmpEq (fcmpElem 0) ∧ Compares .fcmpNe (fcmpElem 1) ∧ Compares .fcmpLt (fcmpElem 2) ∧ Compares .fcmpLe (fcmpElem 3) ∧
  Compares .fcmpUn (fcmpElem 4) ∧ Compares .fcmpOrd (fcmpElem 5)

/-- R42, R57: predicate logic on each active lane. -/
def Obligations.PredicateLogic : Prop :=
  (∀ p ∈ [((.pand, fun x y => x && y) : (Bool → BitVec 3 → BitVec 3 → BitVec 3 → BitVec 3 → Instr) × (Bool → Bool → Bool)),
      (.por, fun x y => x || y), (.pxor, fun x y => x ^^ y)], ∀ sm g d a b s, s.GroupReady →
    ∃ t, exec (p.1 sm g d a b) s = .next t ∧ s.WroteP t d.toNat 4
      (fun k => if (s.act g).getLsbD k then p.2 ((s.rawP a.toNat).getLsbD k) ((s.rawP b.toNat).getLsbD k) else (s.rawP d.toNat).getLsbD k)
      (fun _ => 0)) ∧
  ∀ p ∈ [((.pnot, fun x => !x) : (Bool → BitVec 3 → BitVec 3 → BitVec 3 → Instr) × (Bool → Bool)), (.pmov, fun x => x)],
    ∀ sm g d a s, s.GroupReady → ∃ t, exec (p.1 sm g d a) s = .next t ∧ s.WroteP t d.toNat 4
      (fun k => if (s.act g).getLsbD k then p.2 ((s.rawP a.toNat).getLsbD k) else (s.rawP d.toNat).getLsbD k) (fun _ => 0)

/-- R59: the execution mask: `emrd` reads it in the lanes of the guard whatever it is, `emwr` and `emand` set it. -/
def Obligations.ExecutionMask : Prop :=
  (∀ sm g d s, s.GroupReady → ∃ t, exec (.emrd sm g d) s = .next t ∧ s.WroteP t d.toNat 4
    (fun k => if (s.rawP g.toNat).getLsbD k then s.cur.em.getLsbD k else (s.rawP d.toNat).getLsbD k) (fun _ => 0)) ∧
  (∀ sm a s, s.GroupReady → ∃ t, exec (.emwr sm a) s = .next t ∧ t.cur.em = s.rawP a.toNat ∧
    s.GoesOn t 4 ∧ s.SameBytes t ∧ t.vrf = s.vrf ∧ s.Keeps { t with cur := { t.cur with em := s.cur.em } }) ∧
  ∀ sm a s, s.GroupReady → ∃ t, exec (.emand sm a) s = .next t ∧ t.cur.em = s.cur.em &&& s.rawP a.toNat ∧
    s.GoesOn t 4 ∧ s.SameBytes t ∧ t.vrf = s.vrf ∧ s.Keeps { t with cur := { t.cur with em := s.cur.em } }

/-- R60, R61: moves between lanes and between lanes and uniform registers; every source element is read before any is written. -/
def Obligations.LaneMovement : Prop :=
  (∀ sm g d a b s, s.GroupReady → s.hasV [d.toNat, a.toNat, b.toNat] → ∃ t, exec (.shfl sm g d a b) s = .next t ∧ s.WroteV t d.toNat 4
    (fun k => if (s.act g).getLsbD k then laneOf (s.rawV a.toNat) ((laneOf (s.rawV b.toNat) k).toNat % 256) else laneOf (s.rawV d.toNat) k)
    (fun _ => 0)) ∧
  (∀ sm g d a b s, s.GroupReady → s.hasV [d.toNat, a.toNat, b.toNat] → ∃ t, exec (.rot sm g d a b) s = .next t ∧ s.WroteV t d.toNat 4
    (fun k => if (s.act g).getLsbD k then laneOf (s.rawV a.toNat) ((k + (laneOf (s.rawV b.toNat) k).toNat % 256) % 256)
      else laneOf (s.rawV d.toNat) k) (fun _ => 0)) ∧
  (∀ sm g d a b s l, s.GroupReady → s.hasV [d.toNat, a.toNat, b.toNat] → (l < 256 ∧ (s.act g).getLsbD l ∧ ∀ j < l, !(s.act g).getLsbD j) →
    ∃ t, exec (.bcast sm g d a b) s = .next t ∧ s.WroteV t d.toNat 4
    (fun k => if (s.act g).getLsbD k then laneOf (s.rawV a.toNat) ((laneOf (s.rawV b.toNat) l).toNat % 256) else laneOf (s.rawV d.toNat) k)
    (fun _ => 0)) ∧
  (∀ sm g d a b s, s.GroupReady → s.hasV [d.toNat, a.toNat, b.toNat] → s.act g = 0 →
    ∃ t, exec (.bcast sm g d a b) s = .next t ∧ s.WroteV t d.toNat 4 (laneOf (s.rawV d.toNat)) (fun _ => 0)) ∧
  (∀ sm g d a s l, s.GroupReady → s.hasV [a.toNat] → (l < 256 ∧ (s.act g).getLsbD l ∧ ∀ j < l, !(s.act g).getLsbD j) →
    ∃ t, exec (.vtos sm g d a) s = .next t ∧ s.WroteS t d.toNat 4 (0#32 ++ laneOf (s.rawV a.toNat) l)) ∧
  (∀ sm g d a s, s.GroupReady → s.hasV [a.toNat] → s.act g = 0 → ∃ t, exec (.vtos sm g d a) s = .next t ∧ s.WroteNothing t 4) ∧
  (∀ sm g d a s, s.GroupReady → s.hasV [d.toNat] → ∃ t, exec (.stov sm g d a) s = .next t ∧ s.WroteV t d.toNat 4
    (fun k => if (s.act g).getLsbD k then (s.rawS a.toNat).extractLsb' 0 32 else laneOf (s.rawV d.toNat) k) (fun _ => 0)) ∧
  ∀ sm g d s, s.GroupReady → s.hasV [d.toNat] → ∃ t, exec (.lane sm g d) s = .next t ∧ s.WroteV t d.toNat 4
    (fun k => if (s.act g).getLsbD k then BitVec.ofNat 32 k else laneOf (s.rawV d.toNat) k) (fun _ => 0)

/-- R58, R62: counts, reductions and scans of the active lanes in ascending order, with the identities of Table 02-5; the results are
deferred (R16). -/
def Obligations.LaneReductions : Prop :=
  (∀ sm g d (a : BitVec 3) s, s.GroupReady → ∃ t, exec (.pcount sm g d a) s = .next t ∧ s.LeftResult t 4 4 sm
    [.uni d.toNat (BitVec.ofNat 64 ((List.range 256).countP fun k => (s.act g).getLsbD k && (s.rawP a.toNat).getLsbD k)) false] 0) ∧
  ∀ p ∈ [((0, 0, fun x y => ⟨x + y, 0⟩) : BitVec 6 × W32 × (W32 → W32 → FRes)),
      (1, 0x7FFFFFFF, fun x y => ⟨BitVec.ofInt 32 (min x.toInt y.toInt), 0⟩), (2, 0x80000000, fun x y => ⟨BitVec.ofInt 32 (max x.toInt y.toInt), 0⟩),
      (3, 0xFFFFFFFF, fun x y => ⟨BitVec.ofNat 32 (min x.toNat y.toNat), 0⟩), (4, 0, fun x y => ⟨BitVec.ofNat 32 (max x.toNat y.toNat), 0⟩),
      (5, 0xFFFFFFFF, fun x y => ⟨x &&& y, 0⟩), (6, 0, fun x y => ⟨x ||| y, 0⟩), (7, 0, fun x y => ⟨x ^^^ y, 0⟩), (8, 0x80000000, fadd32),
      (9, 0x7F800000, minMax false), (10, 0xFF800000, minMax true)],
    (∀ sm g d a s, s.GroupReady → s.hasV [a.toNat] → ∃ t, exec (.vreduce sm g d a p.1) s = .next t ∧
      s.LeftResult t 4 4 sm [.uni d.toNat (0#32 ++ (reduceTo (s.act g) (s.rawV a.toNat) p.2.2 p.2.1 256).1) false]
        (reduceTo (s.act g) (s.rawV a.toNat) p.2.2 p.2.1 256).2) ∧
    ∀ sm g d a s, s.GroupReady → s.hasV [d.toNat, a.toNat] → ∃ t x, exec (.vscan sm g d a p.1) s = .next t ∧
      s.LeftResult t 4 4 sm [.vec d.toNat (s.act g) x 0] (reduceTo (s.act g) (s.rawV a.toNat) p.2.2 p.2.1 256).2 ∧
      ∀ k < 256, (s.act g).getLsbD k → laneOf x k = (reduceTo (s.act g) (s.rawV a.toNat) p.2.2 p.2.1 (k + 1)).1

/-- R63, R64: the uniform operations, in a group and in a sequencer; high product and quotient are deferred (R16). -/
def Obligations.UniformOperations : Prop :=
  ComputesS .sadd (· + ·) ∧ ComputesS .ssub (· - ·) ∧ ComputesS .smul (· * ·) ∧ ComputesS .sand (· &&& ·) ∧ ComputesS .sor (· ||| ·) ∧
  ComputesS .sxor (· ^^^ ·) ∧ ComputesS .scmpLtu (fun x y => if x.ult y then 1 else 0) ∧ ComputesS .sshl (fun x y => x <<< (y.toNat % 64)) ∧
  ComputesS .sshr (fun x y => x >>> (y.toNat % 64)) ∧ ComputesS .ssra (fun x y => x.sshiftRight (y.toNat % 64)) ∧
  ComputesS .smin (fun x y => BitVec.ofInt 64 (min x.toInt y.toInt)) ∧ ComputesS .smax (fun x y => BitVec.ofInt 64 (max x.toInt y.toInt)) ∧
  ComputesS .scmpEq (fun x y => if x = y then 1 else 0) ∧ ComputesS .scmpLt (fun x y => if x.slt y then 1 else 0) ∧
  DefersS .smulh (fun x y => BitVec.ofInt 64 (x.toInt * y.toInt / 2 ^ 64)) ∧
  DefersS .sdiv (fun x y => if y = 0 then BitVec.allOnes 64 else BitVec.ofInt 64 (x.toInt.tdiv y.toInt)) ∧
  (∀ sm d (i : BitVec 18) s, s.Ready → ∃ t, exec (.sli sm d i) s = .next t ∧ s.WroteS t d.toNat 4 (i.signExtend 64)) ∧
  ∀ sm d (i : BitVec 18) s, s.Ready → ∃ t, exec (.slui sm d i) s = .next t ∧
    s.WroteS t d.toNat 4 ((s.rawS d.toNat).extractLsb' 0 46 ++ i)

/-! ## Control -/

/-- R65: the branches: the target is the branch's address + 2 × off18; `bz` and `bnz` test a uniform register, `bany`, `ball` and `bnone`
a predicate over `em`; `call` also writes `s63`. -/
def Obligations.Branches : Prop :=
  (∀ sm o s, s.Ready → ∃ t, exec (.br sm o) s = .next t ∧ s.MovedTo t (s.cur.pc + 2 * o.signExtend 64)) ∧
  (∀ sm n o s, s.Ready → ∃ t, exec (.bz sm n o) s = .next t ∧
    s.MovedTo t (if s.rawS n.toNat = 0 then s.cur.pc + 2 * o.signExtend 64 else (s.cur.follow 4).1)) ∧
  (∀ sm n o s, s.Ready → ∃ t, exec (.bnz sm n o) s = .next t ∧
    s.MovedTo t (if s.rawS n.toNat = 0 then (s.cur.follow 4).1 else s.cur.pc + 2 * o.signExtend 64)) ∧
  (∀ sm n o s, s.GroupReady → ∃ t, exec (.bany sm n o) s = .next t ∧
    ((∃ k < 256, s.cur.em.getLsbD k ∧ (s.rawP n.toNat).getLsbD k) → s.MovedTo t (s.cur.pc + 2 * o.signExtend 64)) ∧
    ((∀ k < 256, s.cur.em.getLsbD k → !(s.rawP n.toNat).getLsbD k) → s.MovedTo t (s.cur.follow 4).1)) ∧
  (∀ sm n o s, s.GroupReady → ∃ t, exec (.ball sm n o) s = .next t ∧
    ((∀ k < 256, s.cur.em.getLsbD k → (s.rawP n.toNat).getLsbD k) → s.MovedTo t (s.cur.pc + 2 * o.signExtend 64)) ∧
    ((∃ k < 256, s.cur.em.getLsbD k ∧ !(s.rawP n.toNat).getLsbD k) → s.MovedTo t (s.cur.follow 4).1)) ∧
  (∀ sm n o s, s.GroupReady → ∃ t, exec (.bnone sm n o) s = .next t ∧
    ((∀ k < 256, s.cur.em.getLsbD k → !(s.rawP n.toNat).getLsbD k) → s.MovedTo t (s.cur.pc + 2 * o.signExtend 64)) ∧
    ((∃ k < 256, s.cur.em.getLsbD k ∧ (s.rawP n.toNat).getLsbD k) → s.MovedTo t (s.cur.follow 4).1)) ∧
  ∀ sm o s, s.Ready → ∃ t, exec (.call sm o) s = .next t ∧ t.cur.pc = s.cur.pc + 2 * o.signExtend 64 ∧ t.rawS 63 = s.cur.pc + 4 ∧
    (∀ r, r ≠ 63 → t.rawS r = s.rawS r) ∧ s.SameBytes t ∧ t.vrf = s.vrf ∧ s.Keeps { t with cur := { t.cur with sregs := s.cur.sregs } }

/-- R27, R66: `jr` and `ret` jump to an even address, `jr` with a link in sd unless D = 0; an odd target takes MISALIGN with nothing
written. -/
def Obligations.Jumps : Prop :=
  (∀ sm d a s, s.Ready → (s.rawS a.toNat).getLsbD 0 = false → ∃ t, exec (.jr sm d a) s = .next t ∧ t.cur.pc = s.rawS a.toNat ∧
    (∀ r, t.rawS r = if r = d.toNat ∧ d ≠ 0 then s.cur.pc + 4 else s.rawS r) ∧ s.SameBytes t ∧ t.vrf = s.vrf ∧
    s.Keeps { t with cur := { t.cur with sregs := s.cur.sregs } }) ∧
  (∀ sm s, s.Ready → (s.rawS 63).getLsbD 0 = false → ∃ t, exec (.ret sm) s = .next t ∧ s.MovedTo t (s.rawS 63)) ∧
  ∀ i ∈ [(fun (sm : Bool) (d : BitVec 6) => Instr.jr sm d 63), fun sm _ => .ret sm], ∀ sm d s, s.GroupReady → s.cur.smode = false →
    (s.part s.curTag).svVec ≠ 0 → (s.rawS 63).getLsbD 0 = true → ∃ t, exec (i sm d) s = .next t ∧ t.cur.smode = true ∧
      t.cur.pc = evenPc (s.part s.curTag).svVec ∧ t.cur.epc = s.cur.pc ∧ t.cur.cause.toNat % 256 = 6 ∧ ∀ r, t.rawS r = s.rawS r

/-- R26, R69, R72: hints and `nop` do nothing in any stream; `lpx` outside a loop body does nothing, inside one it goes to the address
behind the body when some lane of `em` has its bit of the predicate. -/
def Obligations.HintsAndLoopExit : Prop :=
  (∀ sm s, s.Ready → ∃ t, exec (.nop sm) s = .next t ∧ s.WroteNothing t 4) ∧
  (∀ sm h s, s.Ready → ∃ t, exec (.hint sm h) s = .next t ∧ s.WroteNothing t 4) ∧
  (∀ sm n s, s.GroupReady → s.cur.loop = none → ∃ t, exec (.lpx sm n) s = .next t ∧ s.WroteNothing t 4) ∧
  (∀ sm n s l, s.GroupReady → s.cur.loop = some l → (∀ k < 256, s.cur.em.getLsbD k → !(s.rawP n.toNat).getLsbD k) →
    ∃ t, exec (.lpx sm n) s = .next t ∧ s.WroteNothing t 4) ∧
  ∀ sm n s l, s.GroupReady → s.cur.loop = some l → (∃ k < 256, s.cur.em.getLsbD k ∧ (s.rawP n.toNat).getLsbD k) →
    ∃ t, exec (.lpx sm n) s = .next t ∧ s.MovedTo t (l.addrs.getD (l.addrs.length - 1) 0) ∧ t.cur.loop = none

/-! ## Scratchpad -/

/-- A load of n bytes a lane from the block's scratchpad. -/
def LoadsSp (i : Bool → BitVec 3 → BitVec 6 → BitVec 6 → BitVec 6 → Instr) (signed : Bool) (n : Nat) : Prop :=
  ∀ sm g d a b s, s.GroupReady → s.packets = [] → s.poison = [] → s.hasV [d.toNat + regsOf n - 1, a.toNat] →
    (∀ k < 256, (s.act g).getLsbD k → s.spFits n (s.laneAddr (s.rawS b.toNat) a.toNat k)) →
    ∃ t vals, exec (i sm g d a b) s = .next t ∧ s.Returns s t 4 sm vals ∧
      LoadResult n d.toNat (s.act g) (fun r k => s.loaded signed n (s.spPlace (s.laneAddr (s.rawS b.toNat) a.toNat k)) r) vals

/-- R84, R86: loads from scratchpad return the bytes at each active lane's offset in the block's allocation, zero- or sign-extended; they
change no byte. `lds` in the short form is `lds.32` at `s0` in the lanes of `em` (R18). -/
def Obligations.ScratchpadLoads : Prop :=
  LoadsSp .lds8 false 1 ∧ LoadsSp .ldsI8 true 1 ∧ LoadsSp .lds16 false 2 ∧ LoadsSp .ldsI16 true 2 ∧ LoadsSp .lds32 false 4 ∧
  LoadsSp .lds64 false 8 ∧ LoadsSp .lds128 false 16 ∧
  ∀ sm d a s, s.GroupReady → s.packets = [] → s.poison = [] → s.hasV [d.toNat, a.toNat] →
    (∀ k < 256, s.cur.em.getLsbD k → s.spFits 4 (s.laneAddr (s.rawS 0) a.toNat k)) →
    ∃ t vals, exec (.ldsShort sm d a) s = .next t ∧ s.Returns s t 2 sm vals ∧
      LoadResult 4 d.toNat s.cur.em (fun r k => s.loaded false 4 (s.spPlace (s.laneAddr (s.rawS 0) a.toNat k)) r) vals

/-- A store of n bytes a lane to the block's scratchpad. -/
def StoresSp (i : Bool → BitVec 3 → BitVec 6 → BitVec 6 → BitVec 6 → Instr) (n : Nat) : Prop :=
  ∀ sm g d a b s, s.GroupReady → s.packets = [] → s.poison = [] → s.hasV [d.toNat + regsOf n - 1, a.toNat] →
    (∀ k < 256, (s.act g).getLsbD k → s.spFits n (s.laneAddr (s.rawS b.toNat) a.toNat k)) →
    ∃ t u, exec (i sm g d a b) s = .next t ∧ s.Returns u t 4 sm [] ∧ u = { s with sp := u.sp } ∧
      s.Stored t (s.storeCells n d.toNat (s.act g) fun k => s.spPlace (s.laneAddr (s.rawS b.toNat) a.toNat k))

/-- R84 to R86: stores to scratchpad write each active lane's bytes at its offset in the block's allocation, ascending, and no other byte. -/
def Obligations.ScratchpadStores : Prop :=
  StoresSp .sts8 1 ∧ StoresSp .sts16 2 ∧ StoresSp .sts32 4 ∧ StoresSp .sts64 8 ∧ StoresSp .sts128 16

/-! ## Global memory -/

/-- A load of n bytes a lane from global memory. -/
def LoadsGlobal (i : Bool → BitVec 3 → BitVec 6 → BitVec 6 → BitVec 6 → Instr) (signed : Bool) (n : Nat) : Prop :=
  ∀ sm g d a b s x, s.GroupReady → s.Alone → s.hasV [d.toNat + regsOf n - 1, a.toNat] →
    s.Reaches (.load n) n (s.act g) (s.laneAddr (s.rawS b.toNat) a.toNat) x →
    ∃ t u vals, exec (i sm g d a b) s = .next t ∧ s.Cached u ∧ s.Returns u t 4 sm vals ∧
      LoadResult n d.toNat (s.act g) (fun r k => s.loaded signed n (x k).loc r) vals

/-- R81, R84, R97: a lane whose aligned address translates to a place of its partition loads the bytes there, zero- or sign-extended, into
d and the registers after it; no byte changes. -/
def Obligations.GlobalLoads : Prop :=
  LoadsGlobal .ldg8 false 1 ∧ LoadsGlobal .ldgI8 true 1 ∧ LoadsGlobal .ldg16 false 2 ∧ LoadsGlobal .ldgI16 true 2 ∧
  LoadsGlobal .ldg32 false 4 ∧ LoadsGlobal .ldg64 false 8 ∧ LoadsGlobal .ldg128 false 16

/-- R88: an ordered load reads as a plain one does, in the lanes of `em`; with an acquire at `.blk` or wider it leaves the core's L1 empty. -/
def Obligations.OrderedLoads : Prop :=
  ∀ p ∈ [((.ldg32Ord, 4) : (Bool → BitVec 3 → BitVec 6 → BitVec 6 → BitVec 4 → BitVec 2 → Instr) × Nat), (.ldg64Ord, 8)],
    ∀ sm o d a b c s x, s.GroupReady → s.Alone → s.hasV [d.toNat + regsOf p.2 - 1, a.toNat] →
    s.Reaches (.load p.2) p.2 s.cur.em (s.laneAddr (s.rawS b.toNat) a.toNat) x →
    ∃ t u vals, exec (p.1 sm o d a b c) s = .next t ∧ s.Cached u ∧ (o ≠ 0 → c ≠ 0 → (u.core s.cur.core).l1 = []) ∧ s.Returns u t 4 sm vals ∧
      LoadResult p.2 d.toNat s.cur.em (fun r k => s.loaded false p.2 (x k).loc r) vals

/-- A store of n bytes a lane to global memory. -/
def StoresGlobal (i : Bool → BitVec 3 → BitVec 6 → BitVec 6 → BitVec 6 → Instr) (n : Nat) : Prop :=
  ∀ sm g d a b s x, s.GroupReady → s.Alone → s.hasV [d.toNat + regsOf n - 1, a.toNat] →
    s.Reaches (.store n) n (s.act g) (s.laneAddr (s.rawS b.toNat) a.toNat) x →
    ∃ t u, exec (i sm g d a b) s = .next t ∧ s.Returns u t 4 sm [] ∧
      s.Posts u (s.act g) (fun k => (x k).loc) false fun m => (.store, s.storeCells n d.toNat m fun k => (x k).loc)

/-- R84, R85, R97, R132: a store posts the bytes of each active lane whose aligned address translates to a place of its partition, in one
packet for each destination; no byte and no register changes at the store. -/
def Obligations.GlobalStores : Prop :=
  StoresGlobal .stg8 1 ∧ StoresGlobal .stg16 2 ∧ StoresGlobal .stg32 4 ∧ StoresGlobal .stg64 8 ∧ StoresGlobal .stg128 16

/-- R88, R197, R200: an ordered store posts as a plain one does, in the lanes of `em`, a release behind everything the context sent before;
`.sc` writes the bytes at once. -/
def Obligations.OrderedStores : Prop :=
  ∀ p ∈ [((.stg32Ord, 4) : (Bool → BitVec 3 → BitVec 6 → BitVec 6 → BitVec 4 → BitVec 2 → Instr) × Nat), (.stg64Ord, 8)],
    ∀ sm o d a b c s x, s.GroupReady → s.Alone → s.hasV [d.toNat + regsOf p.2 - 1, a.toNat] →
    s.Reaches (.store p.2) p.2 s.cur.em (s.laneAddr (s.rawS b.toNat) a.toNat) x →
    ∃ t u, exec (p.1 sm o d a b c) s = .next t ∧ s.Returns u t 4 sm [] ∧
      (o ≠ 4 → s.Posts u s.cur.em (fun k => (x k).loc) (o != 0) fun m => (.store, s.storeCells p.2 d.toNat m fun k => (x k).loc)) ∧
      (o = 4 → ∃ keys : List (Nat × Nat), keys.Nodup ∧ (∀ c, c ∈ keys ↔ ∃ k < 256, s.cur.em.getLsbD k ∧ destKey (x k).loc = c) ∧
        s.Performs u (keys.flatMap fun c => s.storeCells p.2 d.toNat (destLanes s.cur.em (fun k => (x k).loc) c) fun k => (x k).loc))

/-- R87: the uniform loads and stores: one access at sa + sb for the lowest lane of `em`, or for a sequencer; a load's value is zero- or
sign-extended to 64 bits, a store posts the low bytes of sd. -/
def Obligations.UniformAccesses : Prop :=
  (∀ p ∈ [((.sldg8, false, 1) : (Bool → BitVec 6 → BitVec 6 → BitVec 6 → Instr) × Bool × Nat), (.sldgI8, true, 1), (.sldg16, false, 2),
      (.sldgI16, true, 2), (.sldg32, false, 4), (.sldg64, false, 8)], ∀ sm d a b s x, s.Ready → s.Alone →
    s.Reaches (.load p.2.2) p.2.2 (oneLane s.uniLane) (fun _ => (s.rawS a.toNat + s.rawS b.toNat).toNat) (fun _ => x) →
    ∃ t u, exec (p.1 sm d a b) s = .next t ∧ s.Cached u ∧ s.Returns u t 4 sm [.uni d.toNat
      (if p.2.1 then (BitVec.ofNat (8 * p.2.2) (s.readNum x.loc p.2.2)).signExtend 64 else BitVec.ofNat 64 (s.readNum x.loc p.2.2)) false]) ∧
  ∀ p ∈ [((.sstg8, 1) : (Bool → BitVec 6 → BitVec 6 → BitVec 6 → Instr) × Nat), (.sstg16, 2), (.sstg32, 4), (.sstg64, 8)],
    ∀ sm d a b s x, s.Ready → s.Alone →
    s.Reaches (.store p.2) p.2 (oneLane s.uniLane) (fun _ => (s.rawS a.toNat + s.rawS b.toNat).toNat) (fun _ => x) →
    ∃ t u, exec (p.1 sm d a b) s = .next t ∧ s.Returns u t 4 sm [] ∧
      s.Posts u (oneLane s.uniLane) (fun _ => x.loc) false fun m => (.store, (maskLanes m).flatMap fun _ => (List.range p.2).map fun j =>
        (⟨x.loc.tt, x.loc.addr + j⟩, (s.rawS d.toNat).extractLsb' (8 * j) 8))

/-- R89, R96: `pref` brings the cacheable lines the active lanes name into the core's L1, `cinv` drops them, `cinvAll` drops every line when
some lane is active; a lane whose address does not translate is passed over, by `pref` also one that is not aligned to four bytes (the width is the
model's choice, log entry 59), and nothing else changes. -/
def Obligations.LineOperations : Prop :=
  (∀ sm g a b s, s.GroupReady → (s.part s.curTag).tlb = [] → s.hasV [a.toNat] →
    ∃ t l, exec (.pref sm g a b) s = .next t ∧ s.Returns (s.withL1 l) t 4 sm [] ∧
      (∀ n, SMap.find l n ≠ SMap.find (s.core s.cur.core).l1 n → SMap.find l n = some (s.lineBits n) ∧
        ∃ k < 256, (s.act g).getLsbD k ∧ s.laneAddr (s.rawS b.toNat) a.toNat k % 4 = 0 ∧ ∃ x, s.lineNamed (s.laneAddr (s.rawS b.toNat) a.toNat k) k = some x ∧
          x.loc.tt = 0 ∧ x.loc.addr / 128 = n) ∧
      ∀ k < 256, (s.act g).getLsbD k → s.laneAddr (s.rawS b.toNat) a.toNat k % 4 = 0 → ∀ x, s.lineNamed (s.laneAddr (s.rawS b.toNat) a.toNat k) k = some x →
        x.loc.tt = 0 → x.nc = false → x.ms = false → s.delivers s.agent x.loc = true → (SMap.find l (x.loc.addr / 128)).isSome) ∧
  (∀ sm g a b s, s.GroupReady → (s.part s.curTag).tlb = [] → s.hasV [a.toNat] →
    ∃ t l, exec (.cinv sm g a b) s = .next t ∧ s.Returns (s.withL1 l) t 4 sm [] ∧ ∀ n,
      ((∃ k < 256, (s.act g).getLsbD k ∧ ∃ x, s.lineNamed (s.laneAddr (s.rawS b.toNat) a.toNat k) k = some x ∧ x.loc.tt = 0 ∧ x.loc.addr / 128 = n) →
        SMap.find l n = none) ∧
      ((∀ k < 256, (s.act g).getLsbD k → ∀ x, s.lineNamed (s.laneAddr (s.rawS b.toNat) a.toNat k) k = some x → x.loc.tt = 0 → x.loc.addr / 128 ≠ n) →
        SMap.find l n = SMap.find (s.core s.cur.core).l1 n)) ∧
  (∀ sm g s, s.GroupReady → s.act g = 0 → ∃ t, exec (.cinvAll sm g) s = .next t ∧ s.WroteNothing t 4) ∧
  ∀ sm g s, s.GroupReady → s.act g ≠ 0 → ∃ t, exec (.cinvAll sm g) s = .next t ∧ s.Returns (s.withL1 []) t 4 sm []

/-- R90 to R92, R98: an atomic reads the place each lane of `em` names, in ascending order, writes what it makes of the old value and the
lane's operands, and returns the old values into d and the register after it. -/
def Obligations.Atomics : Prop :=
  ∀ p ∈ [((.atomAdd32, 4, 1, true, fun v _ old => (old + v) % 2 ^ 32) :
        (Bool → BitVec 3 → BitVec 6 → BitVec 6 → BitVec 4 → BitVec 2 → Instr) × Nat × Nat × Bool × (Nat → Nat → Nat → Nat)),
      (.atomMinI32, 4, 1, false, fun v _ old => if (BitVec.ofNat 32 v).slt (BitVec.ofNat 32 old) then v else old),
      (.atomMaxI32, 4, 1, false, fun v _ old => if (BitVec.ofNat 32 old).slt (BitVec.ofNat 32 v) then v else old),
      (.atomAnd32, 4, 1, false, fun v _ old => old &&& v), (.atomOr32, 4, 1, false, fun v _ old => old ||| v),
      (.atomXor32, 4, 1, false, fun v _ old => old ^^^ v), (.atomExch32, 4, 1, true, fun v _ _ => v),
      (.atomCas32, 4, 2, true, fun v new old => if old = v then new else old), (.atomAdd64, 8, 2, true, fun v _ old => (old + v) % 2 ^ 64),
      (.atomMinN32, 4, 1, false, fun v _ old => min old v), (.atomMaxN32, 4, 1, false, fun v _ old => max old v),
      (.atomFaddF32, 4, 1, false, fun v _ old => (fadd32 (BitVec.ofNat 32 old) (BitVec.ofNat 32 v)).v.toNat),
      (.atomExch64, 8, 2, true, fun v _ _ => v), (.atomCas64, 8, 4, true, fun v new old => if old = v then new else old)],
    ∀ sm o d a b c s x r, s.GroupReady → s.Alone → s.hasV [d.toNat + p.2.2.1 - 1, a.toNat] →
    s.Reaches (.atomic p.2.2.2.1) p.2.1 s.cur.em (s.laneAddr (s.rawS b.toNat) a.toNat) x →
    r = s.swapLanes p.2.1 (fun k => (x k).loc)
      (fun k => p.2.2.2.2 (s.operand p.2.1 d.toNat k) (s.operand p.2.1 (d.toNat + p.2.1 / 4) k)) s.cur.em →
    ∃ t u vals, exec (p.1 sm o d a b c) s = .next t ∧ s.Swapped r.1 u ∧ s.Returns u t 4 sm vals ∧
      LoadResult p.2.1 d.toNat s.cur.em (fun j k => BitVec.ofNat 32 (r.2 k / 2 ^ (32 * j))) vals

/-- R94: a uniform atomic does one 64-bit atomic at sa for the whole group, or for a sequencer: sd := the old value. -/
def Obligations.UniformAtomics : Prop :=
  ∀ p ∈ [((.satomAdd, true, fun v _ old => (old + v) % 2 ^ 64) :
        (Bool → BitVec 3 → BitVec 6 → BitVec 6 → BitVec 2 → Instr) × Bool × (Nat → Nat → Nat → Nat)),
      (.satomExch, true, fun v _ _ => v), (.satomCas, true, fun v new old => if old = v then new else old),
      (.satomMaxN64, false, fun v _ old => max old v)],
    ∀ sm o d a c s x, s.Ready → s.Alone →
    s.Reaches (.atomic p.2.1) 8 (oneLane s.uniLane) (fun _ => (s.rawS a.toNat).toNat) (fun _ => x) →
    ∃ t u, exec (p.1 sm o d a c) s = .next t ∧
      s.Swapped (s.writeNum x.loc 8 (p.2.2 (s.rawS d.toNat).toNat (s.rawS (d.toNat + 1)).toNat (s.readNum x.loc 8))) u ∧
      s.Returns u t 4 sm [.uni d.toNat (BitVec.ofNat 64 (s.readNum x.loc 8)) false]

/-- R93, R98: a reduction posts its lanes' operands, in one packet for each destination, and returns nothing; at `.sc` the places take the
sums, minima, maxima or logical results at once, lane by lane within a destination. -/
def Obligations.Reductions : Prop :=
  ∀ p ∈ [((.redAdd32, 0, 4, true, fun v old => (old + v) % 2 ^ 32) :
        (Bool → BitVec 3 → BitVec 6 → BitVec 6 → BitVec 4 → BitVec 2 → Instr) × Nat × Nat × Bool × (Nat → Nat → Nat)),
      (.redMinI32, 1, 4, false, fun v old => if (BitVec.ofNat 32 v).slt (BitVec.ofNat 32 old) then v else old),
      (.redMaxI32, 2, 4, false, fun v old => if (BitVec.ofNat 32 old).slt (BitVec.ofNat 32 v) then v else old),
      (.redAnd32, 3, 4, false, fun v old => old &&& v), (.redOr32, 4, 4, false, fun v old => old ||| v),
      (.redXor32, 5, 4, false, fun v old => old ^^^ v),
      (.redFaddF32, 6, 4, false, fun v old => (fadd32 (BitVec.ofNat 32 old) (BitVec.ofNat 32 v)).v.toNat),
      (.redAdd64, 7, 8, true, fun v old => (old + v) % 2 ^ 64)],
    ∀ sm o d a b c s x, s.GroupReady → s.Alone → s.hasV [d.toNat + p.2.2.1 / 4 - 1, a.toNat] →
    s.Reaches (.atomic p.2.2.2.1) p.2.2.1 s.cur.em (s.laneAddr (s.rawS b.toNat) a.toNat) x →
    ∃ t u, exec (p.1 sm o d a b c) s = .next t ∧ s.Returns { u with cur := { s.cur with dirty := true } } t 4 sm [] ∧
      (o ≠ 4 → s.Posts u s.cur.em (fun k => (x k).loc) (o == 2 || o == 3) fun m =>
        (.reduce p.2.1 ((maskLanes m).map fun k => ((x k).loc, BitVec.ofNat 64 (s.operand p.2.2.1 d.toNat k))), [])) ∧
      (o = 4 → ∃ keys : List (Nat × Nat), keys.Nodup ∧ (∀ c, c ∈ keys ↔ ∃ k < 256, s.cur.em.getLsbD k ∧ destKey (x k).loc = c) ∧
        s.Swapped ((keys.map fun c => destLanes s.cur.em (fun k => (x k).loc) c).foldl (fun v m =>
          (v.swapLanes p.2.2.1 (fun k => (x k).loc) (fun k => p.2.2.2.2 (s.operand p.2.2.1 d.toNat k)) m).1) s) u)

/-- R95, R197: a fence with a release part puts what follows behind everything the context has sent; with an acquire part at `.blk` or wider
it empties the core's L1; `fence.async` puts later submissions behind everything before. It writes no register and no byte. -/
def Obligations.Fences : Prop :=
  (∀ sm o c s, s.Ready → (o = 4 → s.packets = [] ∧ s.peers = [] ∧ s.ports = []) → ∃ t u, exec (.fence sm o c) s = .next t ∧
    s.Returns u t 4 sm [] ∧ u.cur = { s.cur with relFence := if o = 1 then s.cur.relFence else s.nextId } ∧
    (o = 2 ∨ c = 0 → u = { s with cur := u.cur }) ∧ (o ≠ 2 → c ≠ 0 → u = { s.withL1 [] with cur := u.cur })) ∧
  ∀ sm s, s.Ready → ∃ t, exec (.fenceAsync sm) s = .next t ∧ s.Returns { s with cur := { s.cur with asyncFence := s.nextId } } t 4 sm []


/-! ## The loop buffer, exceptions, the end of a context and its flashback point -/

/-- R22, R70, R73: `lpb` runs the body whose addresses and step words stand after it, sc passes from its first slot; with sc = 0 control
goes on behind the body. Nothing is written. -/
def Obligations.LoopBuffer : Prop :=
  ∀ sm c len steps s a w, s.Ready → s.cur.loop = none → s.readBody len steps = .ok (a, w, true) →
    ∃ t, exec (.lpb sm c len steps) s = .next t ∧ s.MovedTo t (a.getD (if s.rawS c.toNat = 0 then a.length - 1 else 0) 0) ∧
      t.cur.loop = if s.rawS c.toNat = 0 then none else some { count := s.rawS c.toNat, addrs := a, steps := w }

/-- R13, R25, R68, R77, R136, R137: in U mode `trap` enters the supervisor handler with the address after it, `em`, the loop state and the code saved;
in S mode `eret` gives them back and returns to U mode. Neither writes a byte or a register. `eret` takes PRIV in U mode, and ILLEGAL with its PG, which
it does not use, nonzero. -/
def Obligations.TrapsAndReturns : Prop :=
  (∀ sm c s v, s.GroupReady → s.cur.txg = false → s.cur.smode = false → v = (s.part s.curTag).svVec → v ≠ 0 →
    ∃ t, exec (.trap sm c) s = .next t ∧ t.cur.pc = evenPc v ∧ t.cur.smode = true ∧ t.cur.epc = s.cur.pc + 4 ∧ t.cur.savedEm = s.cur.em ∧
      t.cur.savedLoop = s.cur.loop ∧ t.cur.loop = none ∧ t.cur.cause.extractLsb' 0 8 = 15 ∧ t.cur.cause.extractLsb' 34 6 = c ∧
      s.SameBytes t ∧ t.vrf = s.vrf ∧ s.Keeps { t with cur := { t.cur with
        smode := false, epc := s.cur.epc, savedEm := s.cur.savedEm, recipe := none
        savedLoop := s.cur.savedLoop, savedRecipe := s.cur.savedRecipe, cause := s.cur.cause, fltAddrs := s.cur.fltAddrs, event := s.cur.event } }) ∧
  (∀ sm s, s.GroupReady → s.cur.smode = true → s.cur.epc.getLsbD 0 = false →
    ∃ t, exec (.eret sm 0) s = .next t ∧ t.cur.smode = false ∧ t.cur.em = s.cur.savedEm ∧
      (s.cur.savedLoop = none → t.cur.pc = s.cur.epc ∧ t.cur.loop = none) ∧
      (∀ l, s.cur.savedLoop = some l → l.addrs.getD l.slot 0 = s.cur.epc → t.cur.pc = s.cur.epc ∧ t.cur.loop = some l) ∧
      s.SameBytes t ∧ t.vrf = s.vrf ∧
      s.Keeps { t with cur := { t.cur with smode := true, em := s.cur.em, recipe := none } }) ∧
  ∀ sm (g : BitVec 3) s, s.GroupReady → s.cur.txg = false → s.cur.smode = false → (s.part s.curTag).svVec ≠ 0 → ∃ t, exec (.eret sm g) s = .next t ∧
    t.cur.pc = evenPc (s.part s.curTag).svVec ∧ t.cur.smode = true ∧ t.cur.epc = s.cur.pc ∧ t.cur.cause.extractLsb' 0 8 = (if g = 0 then 5 else 4) ∧
    t.cur.cause.extractLsb' 8 8 = (if g = 0 then 0 else 1) ∧ t.cur.sregs = s.cur.sregs

/-- R67, R150: with nothing submitted and no transaction `exit` ends the context: it leaves the issue slot, the spawn-tree counter falls by
one, and the block goes with its last context. No byte changes. -/
def Obligations.Exit : Prop :=
  ∀ sm s l, s.Ready → s.cur.txg = false → s.cur.openSet = [] → s.cur.batches = [] → s.cur.mxOpen = [] → s.cur.mxBatches = [] →
    SMap.find s.launches s.cur.launch = some l → 1 < l.counter →
    ∃ t, exec (.exit sm) s = .next t ∧ t.cur.kind = .none ∧ t.ctxs = s.ctxs.filter (fun c => c.id ≠ s.cur.id) ∧
      SMap.find t.launches s.cur.launch = some { l with counter := l.counter - 1 } ∧
      (∀ k, k ≠ s.cur.launch → SMap.find t.launches k = SMap.find s.launches k) ∧ s.SameBytes t ∧ t.vrf = s.vrf ∧ t.vfs = s.vfs ∧
      ((∃ c ∈ t.ctxs, c.kind ≠ .none ∧ c.block = s.cur.block) → t.blocks = s.blocks) ∧
      ((∀ c ∈ t.ctxs, c.kind ≠ .none → c.block ≠ s.cur.block) → t.blocks = SMap.del s.blocks s.cur.block)

/-- R74, R300, R301, R311: `yield` writes the flashback slot: the address after it, the recipe header's address, `em` and the deadline of
(L + 1) × 64 issues, which begins anew; with a recipe whose registers hold no error those follow in order, without one no register is saved. It
clears the record of R303 and the slot's errors (R311), and counts itself. -/
def Obligations.Yield : Prop :=
  (∀ sm l r s hdr rc, s.GroupReady → s.cur.smode = false → s.cur.txg = false → s.cur.loop = none → (s.launch s.cur.launch).pipe = none →
    r ≠ 0 → hdr = s.cur.pc + 2 * r.signExtend 64 → s.readRecipe hdr = .ok (some rc) →
    ∃ t, exec (.yield sm l r) s = .next t ∧ s.GoesOn t 4 ∧
      t.slotNum t.cur 0x2040 8 = (s.cur.pc + 4).toNat ∧ t.slotNum t.cur 0x2048 8 = hdr.toNat ∧ t.slotNum t.cur 0x2050 32 = s.cur.em.toNat ∧
      t.slotNum t.cur 0x2168 4 = (l.toNat + 1) * 64 ∧ t.cur.deadline = (l.toNat + 1) * 64 ∧ t.cur.issued = 0 ∧ t.cur.dirty = false ∧
      t.cur.yields = min 255 (s.cur.yields + 1) ∧ t.cur.rcpHeader = hdr ∧ t.vrf = s.vrf ∧
      (∀ p, (∀ i < 9216, p ≠ s.cur.slotLoc i) → t.readByte p = s.readByte p) ∧
      (∀ i v, i < 8 → rc.vs[i]? = some v → t.slotNum t.cur (1024 * i) 1024 = (s.rawV v).toNat) ∧
      ∀ i v, i < 8 → rc.us[i]? = some v → t.slotNum t.cur (0x2000 + 8 * i) 8 = (s.rawS v).toNat) ∧
  ∀ sm l s, s.GroupReady → s.cur.smode = false → s.cur.txg = false → s.cur.loop = none → (s.launch s.cur.launch).pipe = none →
    ∃ t, exec (.yield sm l 0) s = .next t ∧ s.GoesOn t 4 ∧
      t.slotNum t.cur 0x2040 8 = (s.cur.pc + 4).toNat ∧ t.slotNum t.cur 0x2048 8 = 0 ∧ t.slotNum t.cur 0x2050 32 = s.cur.em.toNat ∧
      t.slotNum t.cur 0x2168 4 = (l.toNat + 1) * 64 ∧ t.cur.deadline = (l.toNat + 1) * 64 ∧ t.cur.issued = 0 ∧ t.cur.dirty = false ∧
      t.cur.yields = min 255 (s.cur.yields + 1) ∧ t.cur.rcpHeader = 0 ∧
      (∀ p, (∀ i < 9216, p ≠ s.cur.slotLoc i) → t.readByte p = s.readByte p) ∧ t.vrf = s.vrf ∧
      (∀ k, k ∈ t.poison ↔ k ∈ s.poison ∧ ¬(k.2 = 1 ∧ (s.cur.slotLoc 0).addr ≤ k.1 * 4 ∧ k.1 * 4 < (s.cur.slotLoc 0).addr + 9216)) ∧
      s.Keeps { t with sp := s.sp, poison := s.poison, cur := { t.cur with
        deadline := s.cur.deadline, dirty := s.cur.dirty, yields := s.cur.yields
        rcpHeader := s.cur.rcpHeader, fbLoop := s.cur.fbLoop } }


/-! ## Submissions and batches -/

/-- R14: i is the leader of an X form: the lowest active lane of a group; a sequencer leads itself. -/
def Sys2Proof.Machine.State.Leads (s : State) (g : BitVec 3) (i : Nat) : Prop :=
  (s.cur.kind = .group ∧ i < 256 ∧ (s.act g).getLsbD i ∧ ∀ j < i, !(s.act g).getLsbD j) ∨ (s.cur.kind ≠ .group ∧ g = 0 ∧ i = 0)
/-- s with the record set that an instruction a recipe may not replay has executed (R303). -/
def Sys2Proof.Machine.State.replayless (s : State) : State := { s with cur := { s.cur with dirty := true } }
/-- R157, R158: a job stands among the machine's and in the context's open set. -/
def Sys2Proof.Machine.State.submitted (s : State) (kind unit place d : Nat) (f : Job → Job) : State :=
  { s with
    jobs := s.jobs ++ [f { id := s.nextId, ctx := s.cur.id, launch := s.cur.launch, block := s.cur.block, core := s.cur.core
                           agent := { s.agent with unit := unit, core := place }, smode := s.cur.smode, kind := kind, sd := d
                           after := s.cur.asyncFence }]
    nextId := s.nextId + 1
    cur := { s.cur with openSet := s.cur.openSet ++ [s.nextId], dirty := true } }
/-- A submission of a job of the core's engine with the words of sa and of `span` registers from sb on. -/
def SubmitsWords (i : Bool → BitVec 3 → BitVec 6 → BitVec 6 → BitVec 6 → Instr) (kind span : Nat) : Prop :=
  ∀ sm g d a b s l, s.Ready → s.cur.txg = false → s.Leads g l → b.toNat + span ≤ 64 → s.subs < 255 →
    ∃ t, exec (i sm g d a b) s = .next t ∧ s.Returns (s.submitted kind 1 s.cur.core d.toNat fun j =>
      { j with opA := s.rawS a.toNat, opB := s.rawS b.toNat, opB1 := s.rawS (b.toNat + 1)
               opB2 := if span = 3 then s.rawS (b.toNat + 2) else 0 }) t 4 sm []

/-- R14, R157, R158, R165, R167, R169, R170, R181, R220: a copy, a spawn or a quantisation job is submitted once, by the leader, with its operand
words as they are; only the context's open set and the machine's jobs change. A spawn also follows a release fence (R145). -/
def Obligations.Submissions : Prop :=
  SubmitsWords .cpt 0 2 ∧ SubmitsWords .cpl 1 2 ∧ SubmitsWords .cpm 3 3 ∧ SubmitsWords .cpmCon 4 3 ∧ SubmitsWords .cprAdd 5 2 ∧
  SubmitsWords .cprMin 6 2 ∧ SubmitsWords .cprMax 7 2 ∧
  (∀ sm g d a b s l, s.GroupReady → s.cur.txg = false → s.Leads g l → b.toNat + 2 ≤ 64 → s.subs < 255 →
    ∃ t, exec (.spawn sm g d a b) s = .next t ∧ s.Returns (s.submitted 8 1 s.cur.core d.toNat fun j =>
      { j with opA := s.rawS a.toNat, opB := s.rawS b.toNat, opB1 := s.rawS (b.toNat + 1), after := max s.cur.asyncFence s.cur.relFence }) t 4 sm []) ∧
  (∀ sm g d a s l, s.Ready → s.cur.txg = false → s.Leads g l → s.subs < 255 → (s.tile (s.cur.core / 16)).qz.length < 64 →
    ∃ t u, exec (.qz sm g d a) s = .next t ∧ s.Returns u t 4 sm [] ∧ (u.tile (s.cur.core / 16)).qz = (s.tile (s.cur.core / 16)).qz ++ [s.nextId] ∧
      { u with tiles := s.tiles } = s.submitted 10 2 (s.cur.core / 16) d.toNat (fun j => { j with opA := s.rawS a.toNat }) ∧
      ∀ x, ({ u.tile x with qz := [] } : Tile) = { s.tile x with qz := [] }) ∧
  ∀ i ∈ [(.cpt : Bool → BitVec 3 → BitVec 6 → BitVec 6 → BitVec 6 → Instr), .cpl, .cpm, .cprAdd], ∀ sm g d a b s, s.GroupReady →
    s.cur.txg = false → s.act g = 0 → b.toNat + 3 ≤ 64 → ∃ t, exec (i sm g d a b) s = .next t ∧ s.Returns s.replayless t 4 sm []

/-- A context parks at an instruction without an effect (R341): it issues it again. -/
structure Sys2Proof.Machine.State.Waits (s t : State) (p : Park) : Prop where
  park : t.cur.park = some p
  again : t.cur.reissue = true
  pc : t.cur.pc = s.cur.pc ∧ t.cur.loop = s.cur.loop
  bytes : s.SameBytes t
  keeps : s.Keeps { t with nextId := s.nextId, cur := { t.cur with parkSeq := s.cur.parkSeq } }
/-- s with its open set closed: the next batch, unless every submission of it has ended (R158, R163). -/
def Sys2Proof.Machine.State.closed (s : State) : State :=
  { s with cur := { s.cur with
    openSet := [], batchN := s.cur.batchN + 1
    batches := if s.cur.openSet.all fun j => s.jobs.all fun x => x.id != j then s.cur.batches
      else s.cur.batches ++ [⟨(s.cur.batchN + 1).toNat, s.cur.openSet⟩] } }
/-- R163: x is after y, modulo 2^32. -/
def After (x y : Nat) : Prop := 0 < (x + 2 ^ 32 - y) % 2 ^ 32 ∧ (x + 2 ^ 32 - y) % 2 ^ 32 < 2 ^ 31

/-- R163: the batch a wait names: the newest one when sa is after it. -/
def Named (v : W64) (newest : W32) (n : Nat) : Prop :=
  n = v.toNat % 2 ^ 32 ∧ ¬After n newest.toNat ∨ n = newest.toNat ∧ After (v.toNat % 2 ^ 32) n

/-- R163, R164: `bclose` closes the open set and gives the newest batch, at once (log entry 51); `bwait` waits for every batch up to sa and gives the highest one up to
which all have completed; `btest` says whether they have. A completed wait acts as an acquire. -/
def Obligations.Batches : Prop :=
  (∀ sm d s, s.Ready → s.cur.openSet = [] → ∃ t, exec (.bclose sm d) s = .next t ∧ s.WroteS t d.toNat 4 (s.cur.batchN.setWidth 64)) ∧
  (∀ sm d s, s.Ready → s.cur.openSet ≠ [] → ∃ t, exec (.bclose sm d) s = .next t ∧
    s.Returns (s.closed.take (.uni d.toNat ((s.cur.batchN + 1).setWidth 64) false)) t 4 sm []) ∧
  (∀ sm d a s n, s.Ready → Named (s.rawS a.toNat) s.cur.batchN n → (∀ b ∈ s.cur.batches, After b.num n) →
    ∃ t, exec (.bwait sm d a) s = .next t ∧ s.Returns (s.withL1 []) t 4 sm [.uni d.toNat (match s.cur.batches with
      | [] => s.cur.batchN.setWidth 64
      | b :: _ => BitVec.ofNat 64 ((b.num + 2 ^ 32 - 1) % 2 ^ 32)) false]) ∧
  (∀ sm d a s n, s.Ready → Named (s.rawS a.toNat) s.cur.batchN n → (∃ b ∈ s.cur.batches, ¬After b.num n) →
    ∃ t, exec (.bwait sm d a) s = .next t ∧ s.Waits t (.batch n)) ∧
  (∀ sm d a s n, s.Ready → n = (s.rawS a.toNat).toNat % 2 ^ 32 → ¬After n s.cur.batchN.toNat → (∀ b ∈ s.cur.batches, After b.num n) →
    ∃ t, exec (.btest sm d a) s = .next t ∧ s.Returns (s.withL1 []) t 4 sm [.uni d.toNat 1 false]) ∧
  ∀ sm d a s n, s.Ready → n = (s.rawS a.toNat).toNat % 2 ^ 32 → (After n s.cur.batchN.toNat ∨ ∃ b ∈ s.cur.batches, ¬After b.num n) →
    ∃ t, exec (.btest sm d a) s = .next t ∧ s.Returns s t 4 sm [.uni d.toNat 0 false]


/-! ## System registers and privileged instructions -/

/-- The current context's core, launch, partition and block. -/
def Sys2Proof.Machine.State.myCore (s : State) : Core := s.core s.cur.core
def Sys2Proof.Machine.State.myPart (s : State) : Part := s.part s.curTag
def Sys2Proof.Machine.State.myBlock (s : State) : Block := s.block s.cur.block

/-- R5, R75, Table 01-9 and the tables of the chapters: `srd` gives what the register reads, as it stood before the instruction, left in flight
like every result (R16), for every number, with what reading it does besides (R310, R358); a privileged number asks for S mode, and a number no
register has reads as 0. -/
def Obligations.SystemRegisterReads : Prop :=
  (∀ r ∈ [((0x000, fun s => s.myCore.cyc.toNat) : Nat × (State → Nat)), (0x001, fun s => s.myCore.span.toNat), (0x002, fun s => s.cur.drag.toNat),
      (0x004, fun s => s.cur.cls0.toNat), (0x005, fun s => s.cur.cls1.toNat), (0x006, fun s => s.cur.cls2.toNat), (0x007, fun s => s.cur.cls3.toNat),
      (0x008, fun s => s.cur.icnt.toNat), (0x011, fun s => s.myBlock.bx), (0x012, fun s => s.myBlock.bY), (0x013, fun s => s.myBlock.bz),
      (0x020, fun s => s.cur.fpx.toNat), (0x021, fun s => s.cur.txThresh.toNat + s.cur.txg.toNat * 2 ^ 4 + s.cur.txHold.toNat * 2 ^ 5 + s.cur.txLane % 256 * 2 ^ 6),
      (0x800, fun s => s.myPart.svVec.toNat), (0x801, fun s => s.cur.epc.toNat), (0x802, fun s => s.cur.cause.toNat), (0x803, fun s => s.myPart.ptRoot.toNat),
      (0x804, fun s => s.myPart.ftpBase.toNat), (0x805, fun s => s.myPart.ftpCount.toNat), (0x806, fun s => s.myPart.dropsSeen.toNat), (0x807, fun s => s.curTag),
      (0x810, fun s => s.myPart.svs0.toNat), (0x811, fun s => s.myPart.svs1.toNat), (0x812, fun s => s.myPart.svs2.toNat), (0x813, fun s => s.myPart.svs3.toNat),
      (0x820, fun s => s.cur.vbase), (0x821, fun s => s.myBlock.spbase), (0x822, fun s => s.myBlock.spsize), (0x823, fun s => s.cur.fbbase),
      (0x840, fun s => s.myPart.frBase.toNat), (0x841, fun s => s.myPart.frSize), (0x843, fun s => s.myPart.frTail.toNat), (0x844, fun s => s.myPart.frLost.toNat),
      (0x851, fun s => (s.tile (s.cur.core / 16)).permits), (0x852, fun s => (s.tile (s.cur.core / 16)).boostIvs.toNat), (0x853, fun s => s.myCore.ntIvs.toNat),
      (0x861, fun s => s.myPart.phShadowS.toNat), (0x870, fun s => s.myPart.zen.toNat), (0x880, fun s => s.myPart.ephBase.toNat),
      (0x881, fun s => s.myPart.ephSize.toNat), (0x891, fun s => s.myPart.xdMstat.toNat), (0x893, fun s => s.myPart.xdPinned.toNat),
      (0x831, fun s => s.myCore.engine.progF0.toNat), (0x838, fun s => s.myCore.engine.busy0.toNat), (0x83A, fun s => s.myCore.engine.rows0.toNat),
      (0x003, fun _ => 0), (0x7FF, fun _ => 0), (0x849, fun _ => 0), (0xFFF, fun _ => 0)],
    ∀ sm d s, s.Ready → (0x800 ≤ r.1 → s.cur.smode = true) → ∃ t, exec (.srd sm d (BitVec.ofNat 12 r.1)) s = .next t ∧
      s.LeftResult t 4 4 sm [.uni d.toNat (BitVec.ofNat 64 (r.2 s)) false] 0) ∧
  (∀ sm d n s, s.Ready → (0x800 ≤ n.toNat → s.cur.smode = true) → ∃ t, exec (.srd sm d n) s = .next t ∧
    (s.sysReadEffect n.toNat).LeftResult t 4 4 sm [.uni d.toNat (BitVec.ofNat 64 (s.sysRead n.toNat)) false] 0) ∧
  ∀ sm d n s, s.GroupReady → s.cur.smode = false → s.cur.txg = false → s.myPart.svVec ≠ 0 → 0x800 ≤ n.toNat → ∀ i ∈ [Instr.srd sm d n, .swr sm d n],
    ∃ t, exec i s = .next t ∧ t.cur.pc = evenPc s.myPart.svVec ∧ t.cur.smode = true ∧ t.cur.epc = s.cur.pc ∧ t.cur.cause.extractLsb' 0 8 = 5 ∧ t.cur.sregs = s.cur.sregs

/-- R5, R75, Table 01-9: `swr` writes what its view may write: the named bits of the register, and nothing of one it may not write. -/
def Obligations.SystemRegisterWrites : Prop :=
  (∀ r ∈ [((0x020, fun v c => { c with fpx := v.extractLsb' 0 5 }) : Nat × (W64 → Ctx → Ctx)),
      (0x021, fun v c => { c with txThresh := if v.extractLsb' 0 4 = 0#4 then 1 else v.extractLsb' 0 4 }), (0x801, fun v c => { c with epc := v }),
      (0x000, fun _ c => c), (0x008, fun _ c => c), (0x010, fun _ c => c), (0x802, fun _ c => c), (0x806, fun _ c => c), (0x820, fun _ c => c), (0x842, fun _ c => c)],
    ∀ sm d s, s.Ready → (0x800 ≤ r.1 → s.cur.smode = true) → ∃ t, exec (.swr sm d (BitVec.ofNat 12 r.1)) s = .next t ∧
      s.Returns { s with cur := r.2 (s.rawS d.toNat) s.cur } t 4 sm []) ∧
  ∀ r ∈ [((0x800, fun v p => { p with svVec := v }) : Nat × (W64 → Part → Part)), (0x803, fun v p => { p with ptRoot := v &&& 0x00FFFFFFFFFFC001 }),
      (0x804, fun v p => { p with ftpBase := v &&& ~~~3 }), (0x805, fun v p => { p with ftpCount := v.extractLsb' 0 32 }), (0x810, fun v p => { p with svs0 := v }),
      (0x811, fun v p => { p with svs1 := v }), (0x812, fun v p => { p with svs2 := v }), (0x813, fun v p => { p with svs3 := v }),
      (0x840, fun v p => { p with frBase := v &&& ~~~63 }), (0x843, fun v p => { p with frTail := v.extractLsb' 0 32 }),
      (0x841, fun v p => { p with frSize := if 4 ≤ v.toNat % 32 ∧ v.toNat % 32 ≤ 16 then v.toNat % 32 else 0 })],
    ∀ sm d s, s.Ready → s.cur.smode = true → ∃ t, exec (.swr sm d (BitVec.ofNat 12 r.1)) s = .next t ∧
      s.Returns (s.updPart s.curTag (r.2 (s.rawS d.toNat))) t 4 sm []

/-- R76, Table 02-8: `clkq` sets or clears a clock request of the context and gives the status word as it then is: setpoint, requests and the
tile's permits. -/
def Obligations.ClockRequests : Prop :=
  ∀ sm d (c : BitVec 4) s, s.Ready → ∃ t, ∃ u : State, exec (.clkq sm d c) s = .next t ∧
    u = { s with tiles := u.tiles, cur := { s.cur with
      breq := if c = 1 then true else if c = 2 then false else s.cur.breq
      nreq := if c = 3 then true else if c = 4 then false else s.cur.nreq } } ∧
    (∀ x, u.tile x = if c = 1 ∧ x = s.cur.core / 16 then { s.tile x with requested := true } else s.tile x) ∧
    u.LeftResult t 4 4 sm [.uni d.toNat (BitVec.ofNat 64
      (s.myCore.setpt + u.cur.breq.toNat * 4 + u.cur.nreq.toNat * 8 + (s.tile (s.cur.core / 16)).permits * 256)) false] 0

/-- R78 to R80, R128: in S mode `fltaddr` gives the address each active lane faulted at, 0 in the others; `pmap` of a page gives 1 when it is
mapped, 2 when it is not a first-touch page, 3 when the pool is empty, and else takes the pool's last frame, reads it as zero and makes the leaf
valid with it; `tlbinv` leaves its result out until the translations are gone. -/
def Obligations.Supervisor : Prop :=
  (∀ sm g (d : BitVec 5) s, s.GroupReady → s.cur.smode = true → s.hasV [2 * d.toNat + 1] → ∃ t x y, exec (.fltaddr sm g d) s = .next t ∧
    s.Returns s t 4 sm [.vec (2 * d.toNat) (s.act g) x 0, .vec (2 * d.toNat + 1) (s.act g) y 0] ∧
    ∀ k < 256, laneOf x k = (SMap.get 0 s.cur.fltAddrs k).extractLsb' 0 32 ∧ laneOf y k = (SMap.get 0 s.cur.fltAddrs k).extractLsb' 32 32) ∧
  (∀ sm g d a s l e ea, s.GroupReady → s.cur.smode = true → s.locks = [] → s.Leads g l → s.walk s.myPart (s.rawS a.toNat).toNat = .leaf false e ea →
    leafMalformed false e = false →
    (e.testBit 0 = true → targetMalformed false e = false → ∃ t, exec (.pmap sm g d a) s = .next t ∧ s.Returns s t 4 sm [.uni d.toNat 1 false]) ∧
    (e.testBit 0 = false → e.testBit 11 = false → ∃ t, exec (.pmap sm g d a) s = .next t ∧ s.Returns s t 4 sm [.uni d.toNat 2 false]) ∧
    (e.testBit 0 = false → e.testBit 11 = true → s.myPart.ftpCount = 0 → ∃ t, exec (.pmap sm g d a) s = .next t ∧ s.Returns s t 4 sm [.uni d.toNat 3 false]) ∧
    ∀ f p q, e.testBit 0 = false → e.testBit 11 = true → s.myPart.ftpCount ≠ 0 → SMap.find s.parts s.curTag = some s.myPart → s.poison = [] →
      s.partNum s.myPart (s.myPart.ftpBase.toNat + 4 * (s.myPart.ftpCount.toNat - 1)) 4 = some f → s.myPart.place (f * 65536) = some p →
      s.myPart.place ea = some q → ∃ t u, exec (.pmap sm g d a) s = .next t ∧ s.Returns u t 4 sm [.uni d.toNat 0 false] ∧
        u.myPart = { s.myPart with ftpCount := s.myPart.ftpCount - 1 } ∧
        (∀ i < 8, u.readByte ⟨0, q.addr + i⟩ = BitVec.ofNat 8 ((e % 2 ^ 16 + f * 2 ^ 16 + e / 2 ^ 56 * 2 ^ 56 + 1) / 256 ^ i)) ∧
        ∀ x : Loc, (∀ i < 8, x ≠ ⟨0, q.addr + i⟩) →
          u.readByte x = if x.tt = 0 ∧ p.addr ≤ x.addr ∧ x.addr < p.addr + 65536 then 0 else s.readByte x) ∧
  ∀ sm g d a b s l, s.GroupReady → s.cur.smode = true → s.Leads g l → ∃ t, ∃ u : State, exec (.tlbinv sm g d a b) s = .next t ∧
    u = { s with inval := s.inval ++ [⟨s.curTag, (s.rawS a.toNat).toNat / 65536, (s.rawS b.toNat).toNat, s.cur.id, s.nextId⟩] } ∧
    t.cur.deferred = [⟨s.nextId, [.uni d.toNat 0 false], 0, 0, false⟩] ∧ t.cur.park = (if sm then some .settle else none) ∧ s.GoesOn t 4 ∧
    s.SameBytes t ∧ t.vrf = s.vrf ∧ u.Keeps { t with nextId := s.nextId, cur := { t.cur with deferred := [] } }


/-! ## The matrix engine's words -/

/-- s with a matrix operation of half n issued (R235). -/
def Sys2Proof.Machine.State.withMx (s : State) (n kind : Nat) (a b b1 : W64) : State :=
  { s with
    mxops := s.mxops ++ [{ id := s.nextId, ctx := s.cur.id, core := s.cur.core, half := n, kind := kind, ord := s.cur.mxOpen.length, opA := a, opB := b
                           opB1 := b1, split := s.myCore.engine.split, after := s.cur.asyncFence, pc := s.cur.pc }]
    nextId := s.nextId + 1
    cur := { s.cur with mxOpen := s.cur.mxOpen ++ [s.nextId] } }

/-- R235, R238, R240, R246, R247, Table 01-7: in a sequencer stream a matrix operation is issued into the open set with its operand words as they
are while fewer than 64 stand there or in a batch not yet complete, and nothing else changes; in a group's stream the word is ILLEGAL. -/
def Obligations.MatrixSubmissions : Prop :=
  ∀ p ∈ [((fun sm a b => .mxld sm a b, 0, 1) : (Bool → BitVec 6 → BitVec 6 → Instr) × Nat × Nat), (fun sm a b => .mxfma sm a b, 1, 2),
      (fun sm a _ => .mxzero sm a, 2, 0), (fun sm a _ => .mxck sm a, 3, 0), (fun sm a b => .mxsave sm a b, 4, 1), (fun sm a b => .mxrest sm a b, 5, 1)],
    (∀ sm a b s n, s.Ready → s.cur.kind = .seq n → b.toNat + p.2.2 ≤ 64 →
      s.cur.mxOpen.length + ((s.cur.mxBatches.filter fun b => !b.ops.isEmpty).map MxBatch.count).sum < 64 →
      ∃ t, exec (p.1 sm a b) s = .next t ∧ s.Returns (s.withMx n p.2.1 (s.rawS a.toNat) (if p.2.2 = 0 then 0 else s.rawS b.toNat)
        (if p.2.2 = 2 then s.rawS (b.toNat + 1) else 0)) t 4 sm []) ∧
    ∀ sm a b s, s.GroupReady → s.cur.smode = false → s.cur.txg = false → s.myPart.svVec ≠ 0 → b.toNat + p.2.2 ≤ 64 →
      ∃ t, exec (p.1 sm a b) s = .next t ∧ t.cur.pc = evenPc s.myPart.svVec ∧ t.cur.smode = true ∧ t.cur.epc = s.cur.pc ∧
        t.cur.cause.extractLsb' 0 8 = 4 ∧ t.cur.cause.extractLsb' 8 8 = 5 ∧ t.cur.sregs = s.cur.sregs

/-- Table 11-3: a batch's status word: 1 where no operation failed, else 2 with the first failure's cause, ordinal and progress; the count. -/
def mxStatus (b : MxBatch) : W64 := match b.fail with
  | none => BitVec.ofNat 64 (1 + b.count % 256 * 2 ^ 32)
  | some (cause, ordinal, progress) => BitVec.ofNat 64 (2 + cause % 64 * 4 + ordinal % 256 * 2 ^ 8 + progress % 512 * 2 ^ 16 + b.count % 256 * 2 ^ 32)

/-- R235 to R237, R248: `mxfence` closes the matrix open set and gives the newest batch; `mxwait` waits for a batch and gives its status word, as
`mxtest` does when it has completed; `mxsplit` splits the array with a second context at sa, or joins its halves. -/
def Obligations.MatrixControl : Prop :=
  (∀ sm d s n, s.Ready → s.cur.kind = .seq n → s.cur.mxOpen = [] → ∃ t, exec (.mxfence sm d) s = .next t ∧
    s.Returns s t 4 sm [.uni d.toNat (s.cur.mxBatchN.setWidth 64) false]) ∧
  (∀ sm d s n, s.Ready → s.cur.kind = .seq n → s.cur.mxOpen ≠ [] → ∃ t, ∃ u : State, exec (.mxfence sm d) s = .next t ∧
    s.Returns u t 4 sm [.uni d.toNat ((s.cur.mxBatchN + 1).setWidth 64) false] ∧
    u = { s with mxops := u.mxops, cur := { s.cur with
      mxOpen := [], mxOpenFail := none, mxBatchN := s.cur.mxBatchN + 1
      mxBatches := s.cur.mxBatches ++ [⟨(s.cur.mxBatchN + 1).toNat, s.cur.mxOpen.filter fun o => s.mxops.any fun x => x.id == o, s.cur.mxOpen.length,
        s.cur.mxOpenFail⟩] } } ∧
    u.mxops = s.mxops.map fun o => if o.id ∈ s.cur.mxOpen then { o with batch := (s.cur.mxBatchN + 1).toNat } else o) ∧
  (∀ sm d a s n k, s.Ready → s.cur.kind = .seq k → Named (s.rawS a.toNat) s.cur.mxBatchN n →
    (n = 0 → ∀ i ∈ [Instr.mxwait sm d a, .mxtest sm d a], ∃ t, exec i s = .next t ∧ s.Returns s t 4 sm [.uni d.toNat 0 false]) ∧
    (n ≠ 0 → (∀ b ∈ s.cur.mxBatches, b.ops = [] ∨ After b.num n) → ∀ i ∈ [Instr.mxwait sm d a, .mxtest sm d a], ∃ t, exec i s = .next t ∧
      s.Returns (s.withL1 []) t 4 sm [.uni d.toNat (match s.cur.mxBatches.find? fun b => b.num == n with
        | some b => mxStatus b
        | none => 0) false]) ∧
    (n ≠ 0 → (∃ b ∈ s.cur.mxBatches, b.ops ≠ [] ∧ ¬After b.num n) → (∃ t, exec (.mxwait sm d a) s = .next t ∧ s.Waits t (.mxBatch n)) ∧
      ∃ t, exec (.mxtest sm d a) s = .next t ∧ s.Returns s t 4 sm [.uni d.toNat 0 false])) ∧
  (∀ sm d a b s, s.Ready → s.cur.kind = .seq 0 → s.myCore.engine.split = false → s.rawS a.toNat ≠ 0 → (s.rawS a.toNat).getLsbD 0 = false →
    (∀ o ∈ s.mxops, o.ctx ≠ s.cur.id) → ∃ t, ∃ u : State, exec (.mxsplit sm d a b) s = .next t ∧ s.Returns u t 4 sm [.uni d.toNat 0 false] ∧
      u = { s with cores := u.cores, launches := (s.updLaunch s.cur.launch fun l => { l with counter := l.counter + 1 }).launches, nextId := s.nextId + 1
                   ctxs := s.ctxs ++ [{ kind := .seq 1, id := s.nextId, launch := s.cur.launch, block := s.cur.block, core := s.cur.core, pc := s.rawS a.toNat
                                        sregs := SMap.set 0 [] 1 (s.rawS b.toNat), resident := true }] } ∧
      (u.core s.cur.core).engine = { s.myCore.engine with split := true } ∧ ∀ k, k ≠ s.cur.core → u.core k = s.core k) ∧
  (∀ sm d a b s, s.Ready → s.cur.kind = .seq 0 → s.myCore.engine.split = true → s.rawS a.toNat = 0 →
    (∀ c ∈ s.ctxs, c.kind = .seq 1 → c.block ≠ s.cur.block) → ∃ t, exec (.mxsplit sm d a b) s = .next t ∧
      s.Returns (s.updCore s.cur.core fun k => { k with engine := { k.engine with split := false } }) t 4 sm [.uni d.toNat 0 false]) ∧
  ∀ sm d a b s n, s.Ready → s.cur.kind = .seq n → (n = 0 → (s.myCore.engine.split = true ↔ s.rawS a.toNat ≠ 0)) →
    ∃ t, exec (.mxsplit sm d a b) s = .next t ∧ s.Returns s t 4 sm [.uni d.toNat 1 false]

/-- The row a slice form names, and where a tile's row stands. -/
def Sys2Proof.Machine.State.slice (s : State) (x : BitVec 4) (i : BitVec 6) : Nat := ((s.rawS x.toNat).toNat + i.toNat) % 256
def Sys2Proof.Machine.State.tileRow (s : State) (tile : BitVec 2) (row : Nat) : Vec := SMap.get 0 s.acc (s.cur.core * 1024 + tile.toNat * 256 + row)
/-- R229, R249: the block of the current group holds the engine for a launch with a sequencer. -/
def Sys2Proof.Machine.State.HoldsEngine (s : State) : Prop := s.myCore.engine.holder = s.cur.block ∧ (s.launch s.cur.launch).seq ≠ 0

/-- Where a tile's row stands among the rows of the machine's accumulators. -/
def Sys2Proof.Machine.State.tileAt (s : State) (tile : BitVec 2) (row : Nat) : Nat := s.cur.core * 1024 + tile.toNat * 256 + row
/-- R229, R249, R261: `vracc` gives each active lane its element of a row, or of a column, of a tile, when no element it gives an active lane has
a parity error; `vwacc` writes each active lane's element to it, with good parity. -/
def Obligations.AccumulatorSlices : Prop :=
  (∀ sm g d x (n : BitVec 2) i s, s.GroupReady → s.hasV [d.toNat] → s.HoldsEngine → (s.act g ≠ 0 → s.myCore.engine.poison.getLsbD n.toNat = false) →
    ((∀ k < 256, (s.act g).getLsbD k → (s.tileAt n (s.slice x i) * 256 + k, 3) ∉ s.poison) → ∃ t v, exec (.vraccRow sm g d x n i) s = .next t ∧ s.Returns s t 4 sm [.vec d.toNat (s.act g) v 0] ∧
      ∀ k < 256, laneOf v k = laneOf (s.tileRow n (s.slice x i)) k) ∧
    ((∀ k < 256, (s.act g).getLsbD k → (s.tileAt n k * 256 + s.slice x i, 3) ∉ s.poison) → ∃ t v, exec (.vraccCol sm g d x n i) s = .next t ∧ s.Returns s t 4 sm [.vec d.toNat (s.act g) v 0] ∧
      ∀ k < 256, laneOf v k = laneOf (s.tileRow n k) (s.slice x i))) ∧
  ∀ sm g d x (n : BitVec 2) i s, s.GroupReady → s.hasV [d.toNat] → s.HoldsEngine →
    (∃ t, ∃ u : State, exec (.vwaccRow sm g d x n i) s = .next t ∧ s.Returns u t 4 sm [] ∧ u = { s with acc := u.acc, poison := u.poison } ∧
      (∀ k, k ∈ u.poison ↔ k ∈ s.poison ∧ ¬(k.2 = 3 ∧ ∃ l < 256, (s.act g).getLsbD l ∧ k.1 = s.tileAt n (s.slice x i) * 256 + l)) ∧
      (∀ r, r ≠ s.tileAt n (s.slice x i) → SMap.get 0 u.acc r = SMap.get 0 s.acc r) ∧
      ∀ k < 256, laneOf (u.tileRow n (s.slice x i)) k = if (s.act g).getLsbD k then laneOf (s.rawV d.toNat) k else laneOf (s.tileRow n (s.slice x i)) k) ∧
    ∃ t, ∃ u : State, exec (.vwaccCol sm g d x n i) s = .next t ∧ s.Returns u t 4 sm [] ∧ u = { s with acc := u.acc, poison := u.poison } ∧
      (∀ k, k ∈ u.poison ↔ k ∈ s.poison ∧ ¬(k.2 = 3 ∧ ∃ l < 256, (s.act g).getLsbD l ∧ k.1 = s.tileAt n l * 256 + s.slice x i)) ∧
      (∀ r, (∀ k < 256, r ≠ s.tileAt n k) → SMap.get 0 u.acc r = SMap.get 0 s.acc r) ∧
      ∀ r < 256, ∀ k < 256, laneOf (u.tileRow n r) k = if k = s.slice x i ∧ (s.act g).getLsbD r then laneOf (s.rawV d.toNat) r else laneOf (s.tileRow n r) k

/-! ## Transactions -/

/-- R278, R279: the lanes a `txbegin` opens: those of `em` but for one whose last transaction overflowed a log and was not yet refused for it. -/
def Sys2Proof.Machine.State.Opens (s : State) (k : Nat) : Prop :=
  s.cur.em.getLsbD k = true ∧ ¬(((s.cur.txWord k).extractLsb' 0 4 = 3 ∨ (s.cur.txWord k).extractLsb' 0 4 = 4) ∧ (s.cur.txWord k).getLsbD 9 = false)
/-- R282, R278: s with the current group's transaction over: the lanes of ok committed, nothing open, the core's L1 empty, and the record of R303
set. -/
def Sys2Proof.Machine.State.TxOver (s u : State) (ok : Mask) : Prop :=
  u = { s.withL1 [] with
    commits := s.commits.filter fun c => c.ctx ≠ s.cur.id
    cur := { s.cur with txrec := u.cur.txrec, txg := false, txLane := 0, doomed := 0, txlogs := [], dirty := true } } ∧
  ∀ k < 256, u.cur.txWord k = if ok.getLsbD k then s.cur.txWord k &&& 0x300 else s.cur.txWord k

/-- R276, R278, R279, R281 to R284: `txbegin` writes the flashback slot, to resume at itself, and opens the lanes of `em` that are not refused, whose
bits of pd are 1 at once (log entry 51);
`txend` waits for every lane's commit and gives the lanes that committed; `txabort` aborts the open lanes of `em`; `txstat` gives the records and
the failed addresses. The clauses on the first two are about a group that holds no token. -/
def Obligations.Transactions : Prop :=
  (∀ sm (d : BitVec 3) s, s.GroupReady → s.cur.smode = false → s.cur.reissue = false → s.cur.txg = false → s.cur.rcpHeader = 0 →
    (∀ c ∈ s.ctxs, c.kind = .group → c.core = s.cur.core → c.txg = false ∧ c.park ≠ some .txPlace) →
    (∀ k < 256, s.Opens k → ((s.cur.txWord k).extractLsb' 4 4).toNat < s.cur.txThresh.toNat) →
    ∃ t, ∃ u : State, ∃ x : Mask, exec (.txbegin sm d) s = .next t ∧ s.Returns (u.take (.prd d.toNat s.cur.em x 0)) t 4 sm [] ∧
      (∀ k < 256, x.getLsbD k = true ↔ s.Opens k) ∧
      (∀ k, k ∈ u.poison ↔ k ∈ s.poison ∧ ¬(k.2 = 1 ∧ (s.cur.slotLoc 0).addr ≤ k.1 * 4 ∧ k.1 * 4 < (s.cur.slotLoc 0).addr + 9216)) ∧
      u = { s with sp := u.sp, poison := u.poison, cur := { s.cur with
        txrec := u.cur.txrec, txlogs := [], txg := x != 0, txHold := false, txLane := 0, dirty := false, fbLoop := s.cur.loop } } ∧
      (∀ k < 256, u.cur.txWord k = if s.cur.em.getLsbD k then (if x.getLsbD k then s.cur.txWord k &&& 0x00FF00FF ||| 0x400
        else s.cur.txWord k &&& 0x00FF010F ||| 0x200) else s.cur.txWord k) ∧
      u.slotNum u.cur 0x2040 8 = s.cur.pc.toNat ∧ u.slotNum u.cur 0x2048 8 = 0 ∧ u.slotNum u.cur 0x2050 32 = s.cur.em.toNat ∧
      (s.cur.deadline < 2 ^ 32 → u.slotNum u.cur 0x2168 4 = s.cur.deadline - (s.cur.issued + 1)) ∧
      ∀ p, (∀ i < 9216, p ≠ s.cur.slotLoc i) → u.readByte p = s.readByte p) ∧
  (∀ sm d s, s.GroupReady → s.cur.txHold = false → (∃ c ∈ s.commits, c.ctx = s.cur.id) → (∀ c ∈ s.commits, c.ctx = s.cur.id → c.phase = 3) →
    ∃ t u x, exec (.txend sm d) s = .next t ∧ s.Returns u t 4 sm [.prd d.toNat allLanes x 0] ∧ s.TxOver u x ∧
      ∀ k < 256, x.getLsbD k = true ↔ ∃ c ∈ s.commits, c.ctx = s.cur.id ∧ c.lane = k ∧ c.ok = true) ∧
  (∀ sm d s, s.GroupReady → s.cur.txHold = false → (∀ c ∈ s.commits, c.ctx ≠ s.cur.id) → s.packets = [] → s.peers = [] →
    (s.cur.txg = true → ∀ k < 256, !(s.cur.openLane k)) →
    ∃ t u, exec (.txend sm d) s = .next t ∧ s.Returns u t 4 sm [.prd d.toNat allLanes 0 0] ∧ s.TxOver u 0) ∧
  (∀ sm s, s.GroupReady → (s.cur.txHold = true → s.cur.em.getLsbD s.cur.txLane = false) →
    ∃ t, ∃ u : State, exec (.txabort sm) s = .next t ∧ s.Returns u t 4 sm [] ∧
      u = { s with cur := { s.cur with txrec := u.cur.txrec, txlogs := u.cur.txlogs, txAddr := u.cur.txAddr, doomed := u.cur.doomed } } ∧
      ∀ k < 256, (s.cur.txg = true ∧ s.cur.em.getLsbD k = true ∧ s.cur.openLane k = true →
        u.cur.txWord k = BitVec.ofNat 32 (9 + min 15 (((s.cur.txWord k).extractLsb' 4 4).toNat + 1) * 16 + ((s.cur.txWord k).extractLsb' 8 2).toNat * 256) ∧
        SMap.find u.cur.txlogs k = none ∧ SMap.find u.cur.txAddr k = none ∧ u.cur.doomed.getLsbD k = true) ∧
        (¬(s.cur.txg = true ∧ s.cur.em.getLsbD k = true ∧ s.cur.openLane k = true) → u.cur.txWord k = s.cur.txWord k ∧
        SMap.find u.cur.txlogs k = SMap.find s.cur.txlogs k ∧ SMap.find u.cur.txAddr k = SMap.find s.cur.txAddr k ∧
        u.cur.doomed.getLsbD k = s.cur.doomed.getLsbD k)) ∧
  (∀ sm d s, s.GroupReady → s.hasV [d.toNat] → ∃ t x, exec (.txstat sm d) s = .next t ∧ s.Returns s t 4 sm [.vec d.toNat s.cur.em x 0] ∧
    ∀ k < 256, laneOf x k = s.cur.txWord k) ∧
  ∀ sm (d : BitVec 5) s, s.GroupReady → s.hasV [2 * d.toNat + 1] → ∃ t x y, exec (.txstatAddr sm d) s = .next t ∧
    s.Returns s t 4 sm [.vec (2 * d.toNat) s.cur.em x 0, .vec (2 * d.toNat + 1) s.cur.em y 0] ∧
    ∀ k < 256, laneOf y k ++ laneOf x k = if (s.cur.txWord k).extractLsb' 0 4 = 7 then SMap.get 0 s.cur.txAddr k else 0


/-! ## Barriers, queues and counted stores -/

/-- R178: a counted store posts the bytes of each active lane, which must stand in windows of scratchpad, in one packet for each core, with the
object's offset and the phase of s(b+1); no byte and no register changes at the store. -/
def Obligations.CountedStores : Prop :=
  ∀ p ∈ [((.stb32, 4) : (Bool → BitVec 3 → BitVec 6 → BitVec 6 → BitVec 6 → Instr) × Nat), (.stb64, 8), (.stb128, 16)],
    ∀ sm g d a b s x, s.GroupReady → s.Alone → s.hasV [d.toNat + p.2 / 4 - 1, a.toNat] → b.toNat ≤ 62 →
    s.Reaches .counted p.2 (s.act g) (s.laneAddr (s.rawS b.toNat) a.toNat) x →
    ∃ t u, exec (p.1 sm g d a b) s = .next t ∧ s.Returns { u with cur := { s.cur with dirty := true } } t 4 sm [] ∧
      s.Posts u (s.act g) (fun k => (x k).loc) false fun m =>
        (.counted ((s.rawS (b.toNat + 1)).toNat % 2 ^ 32) ((s.rawS (b.toNat + 1)).toNat / 2 ^ 32), s.storeCells p.2 d.toNat m fun k => (x k).loc)

/-- R159, R177: n bytes of scratchpad at o that a copy address names, as an access aligned to al: a local offset in the block's allocation, or an
address of a scratchpad window whose core answers. -/
def Sys2Proof.Machine.State.NamesSp (s : State) (acc : Acc) (al n lane : Nat) (a : W64) (o : Loc) : Prop :=
  (a.getLsbD 63 = true ∧ a.toNat % 2 ^ 32 % al = 0 ∧ a.toNat % 2 ^ 32 + n ≤ s.myBlock.spsize ∧
    o = ⟨1, s.cur.core * 2 ^ 21 + s.myBlock.spbase + a.toNat % 2 ^ 32⟩) ∨
  a.getLsbD 63 = false ∧ o.tt = 1 ∧ s.delivers s.agent o = true ∧ ∃ x, s.checkLane acc al a.toNat (Nat.pair 0 lane) = .ok x ∧ x.loc = o
/-- u is s but for what one request through a window leaves: cached translations (R129) and request numbers (R132). -/
structure Sys2Proof.Machine.State.Requested (s u : State) : Prop where
  same : u = { s with parts := u.parts, launches := u.launches, cores := u.cores }
  numbered : s.Numbered u
  cores : ∀ k, u.core k = s.core k

/-- R175: the header of a barrier object, its four slots, and a slot of the two counts. -/
def Sys2Proof.Machine.State.header (s : State) (o : Loc) : Nat := s.readNum o 8
def Sys2Proof.Machine.State.slotOf (s : State) (o : Loc) (k : Nat) : Nat := s.readNum ⟨1, o.addr + 8 + 6 * k⟩ 6
def slotValue (arrived : Nat) (balance : Int) : Nat := min arrived 0xFFFFF + (max (-(2 ^ 27)) (min (2 ^ 27 - 1) balance) % 2 ^ 28).toNat * 2 ^ 20
def arrivals (slot : Nat) : Nat := slot % 2 ^ 20
def balance (slot : Nat) : Int := (BitVec.ofNat 28 (slot / 2 ^ 20)).toInt
/-- R176: the oldest open phase, and how far a phase stands behind it. -/
def basePhase (h : Nat) : Nat := h / 2 ^ 24 % 2 ^ 32
def phaseAt (h p : Nat) : Nat := (p + 2 ^ 32 - basePhase h) % 2 ^ 32
/-- R176: the loop of the barrier unit, at most n phases of it: a done phase's slot is cleared and `BASE` moves on. -/
def phaseDone (h : Nat) (f : Nat → Nat) : Bool :=
  h.testBit 63 && decide (max (h % 2 ^ 20) 1 ≤ arrivals (f (basePhase h % 4))) && (decide (h / 2 ^ 20 % 4 = 0) || decide (balance (f (basePhase h % 4)) = 0))
def phases : Nat → Nat → (Nat → Nat) → Nat × (Nat → Nat)
  | 0, h, f => (h, f)
  | n + 1, h, f =>
    if phaseDone h f then phases n (h - basePhase h * 2 ^ 24 + (basePhase h + 1) % 2 ^ 32 * 2 ^ 24) fun k => if k = basePhase h % 4 then 0 else f k
    else (h, f)
/-- The object at o holds a header and four slots after the unit's loop, and no other byte has changed. -/
structure Sys2Proof.Machine.State.ObjectAfter (s u : State) (o : Loc) (h : Nat) (f : Nat → Nat) : Prop where
  same : u = { s with sp := u.sp, parts := u.parts, launches := u.launches, cores := u.cores, cur := { s.cur with dirty := true } }
  numbered : s.Numbered u
  cores : ∀ k, u.core k = s.core k
  header : u.header o = (phases 5 h f).1
  slots : ∀ k < 4, u.slotOf o k = (phases 5 h f).2 k
  others : ∀ l, (∀ i < 32, l ≠ ⟨1, o.addr + i⟩) → u.readByte l = s.readByte l
/-- Nothing waits at an object. -/
def Sys2Proof.Machine.State.Unwatched (s : State) (o : Loc) : Prop :=
  s.cur.park = none ∧ ∀ c ∈ s.ctxs, ∀ p n, c.park ≠ some (.barrier o p) ∧ c.park ≠ some (.barrierTimed o p n)

/-- R176, R177, Table 07-8: the barrier instructions on an object nobody waits at: initialisation, arrivals and expected bytes with the unit's
loop, waits for a phase that is late or open, and invalidation; a phase beyond the open ones takes PHASEOVER. -/
def Obligations.Barriers : Prop :=
  (∀ sm g (d : BitVec 3) a b s l o w, s.Ready → s.Alone → s.Leads g l → s.NamesSp .counted 32 32 l (s.rawS a.toNat) o → s.Unwatched o → w = (s.rawS b.toNat).toNat →
    ∃ t u, exec (.barInit sm g d a b) s = .next t ∧
      s.Returns u t 4 sm [.prd d.toNat allLanes (if (List.range 4).all fun k => s.slotOf o k == 0 then 0 else allLanes) 0] ∧
      s.ObjectAfter u o ((if w / 2 ^ 24 % 2 ^ 8 = 0xFF then w % 2 ^ 20 else ((s.launch s.cur.launch).gtable.filter fun e => e.2.2.contains (w / 2 ^ 24 % 2 ^ 8)).length % 2 ^ 20) +
          w / 2 ^ 20 % 4 * 2 ^ 20 + w / 2 ^ 32 * 2 ^ 24 + 2 ^ 63)
        (fun k => if w.testBit 22 then s.slotOf o k else 0)) ∧
  (∀ sm g d a b s l o w p h, s.Ready → s.Alone → s.Leads g l → s.NamesSp .counted 32 32 l (s.rawS a.toNat) o → s.Unwatched o → w = (s.rawS b.toNat).toNat →
    p = w % 2 ^ 32 → h = s.header o →
    (h.testBit 63 = true → 2 ^ 31 ≤ phaseAt h p → ∀ i ∈ [Instr.barArrive sm g d a b, .barExpect sm g d a b], ∃ t u, exec i s = .next t ∧
      s.Requested u ∧ s.Returns { u with cur := { s.cur with dirty := true } } t 4 sm [.uni d.toNat 3 false]) ∧
    (h.testBit 63 = false ∨ phaseAt h p < 4 →
      (∃ t u, exec (.barArrive sm g d a b) s = .next t ∧ s.Returns u t 4 sm [.uni d.toNat (if h.testBit 63 then 1 else 2) false] ∧
        s.ObjectAfter u o h fun k => if k = p % 4 then slotValue (arrivals (s.slotOf o k) + w / 2 ^ 32 % 2 ^ 20) (balance (s.slotOf o k)) else s.slotOf o k) ∧
      ∃ t u, exec (.barExpect sm g d a b) s = .next t ∧
        s.Returns u t 4 sm [.uni d.toNat (if balance (s.slotOf o (p % 4)) - (w / 2 ^ 32 % 2 ^ 28 : Nat) < -(2 ^ 27) then 4 else if h.testBit 63 then 1 else 2) false] ∧
        s.ObjectAfter u o h fun k => if k = p % 4 then
            slotValue (arrivals (s.slotOf o k) + if h / 2 ^ 20 % 4 = 1 then 1 else 0) (balance (s.slotOf o k) - (w / 2 ^ 32 % 2 ^ 28 : Nat))
          else s.slotOf o k)) ∧
  (∀ sm g d (q : BitVec 3) a b s l o w p h, s.Ready → s.Alone → s.Leads g l → s.cur.woken = 0 → s.NamesSp .watched 32 32 l (s.rawS a.toNat) o →
    w = (s.rawS b.toNat).toNat → p = w % 2 ^ 32 → h = s.header o →
    (h.testBit 63 = true → 2 ^ 31 ≤ phaseAt h p →
      (∃ t u, exec (.barWait sm g d a b) s = .next t ∧ s.Requested u ∧ s.Returns (u.withL1 []) t 4 sm [.uni d.toNat 0 false]) ∧
      ∃ t u, exec (.barTwait sm g q a b) s = .next t ∧ s.Requested u ∧ s.Returns (u.withL1 []) t 4 sm [.prd q.toNat allLanes allLanes 0]) ∧
    (h.testBit 63 = false ∨ phaseAt h p < 4 →
      (∃ t u, exec (.barWait sm g d a b) s = .next t ∧ s.Requested u ∧ u.Waits t (.barrier o p)) ∧
      ∃ t u, exec (.barTwait sm g q a b) s = .next t ∧ s.Requested u ∧ (w / 2 ^ 32 = 0 → s.Returns u t 4 sm [.prd q.toNat allLanes 0 0]) ∧
        (w / 2 ^ 32 ≠ 0 → u.Waits t (.barrierTimed o p (s.myCore.span.toNat + w / 2 ^ 32 * 444))))) ∧
  (∀ sm g d (q : BitVec 3) a b s l, s.Ready → s.cur.txg = false → s.Leads g l →
    (s.cur.woken = 1 → (∃ t, exec (.barWait sm g d a b) s = .next t ∧ s.Returns s t 4 sm [.uni d.toNat 1 false]) ∧
      ∃ t, exec (.barTwait sm g q a b) s = .next t ∧ s.Returns s t 4 sm [.prd q.toNat allLanes 0 0]) ∧
    (s.cur.woken = 2 → (∃ t, exec (.barWait sm g d a b) s = .next t ∧ s.Returns (s.withL1 []) t 4 sm [.uni d.toNat 0 false]) ∧
      ∃ t, exec (.barTwait sm g q a b) s = .next t ∧ s.Returns (s.withL1 []) t 4 sm [.prd q.toNat allLanes allLanes 0]) ∧
    (s.cur.woken = 3 → ∃ t, exec (.barTwait sm g q a b) s = .next t ∧ s.Returns s t 4 sm [.prd q.toNat allLanes 0 0])) ∧
  (∀ sm g d a s l o, s.Ready → s.Alone → s.Leads g l → s.NamesSp .counted 32 32 l (s.rawS a.toNat) o → s.Unwatched o →
    ∃ t u, exec (.barInval sm g d a) s = .next t ∧ s.Returns u t 4 sm [.uni d.toNat 0 false] ∧ s.ObjectAfter u o (s.header o % 2 ^ 63) fun _ => 0) ∧
  ∀ sm g d (q : BitVec 3) a b s l o, s.GroupReady → s.Alone → s.Leads g l → s.cur.woken = 0 → s.cur.smode = false → s.myPart.svVec ≠ 0 →
    s.NamesSp .counted 32 32 l (s.rawS a.toNat) o → s.NamesSp .watched 32 32 l (s.rawS a.toNat) o → (s.header o).testBit 63 = true →
    4 ≤ phaseAt (s.header o) ((s.rawS b.toNat).toNat % 2 ^ 32) → phaseAt (s.header o) ((s.rawS b.toNat).toNat % 2 ^ 32) < 2 ^ 31 →
    ∀ i ∈ [Instr.barArrive sm g d a b, .barExpect sm g d a b, .barWait sm g d a b, .barTwait sm g q a b], ∃ t, exec i s = .next t ∧
      t.cur.pc = evenPc s.myPart.svVec ∧ t.cur.smode = true ∧ t.cur.epc = s.cur.pc ∧ t.cur.cause.extractLsb' 0 8 = 10 ∧ t.cur.cause.extractLsb' 16 8 = BitVec.ofNat 8 l ∧
      t.cur.sregs = s.cur.sregs ∧ s.SameBytes t

/-- n bytes at a copy address can be read (R130, R159); the bytes at n places. -/
def Sys2Proof.Machine.State.ReadsCopy (s : State) (lane : Nat) (a : W64) (n : Nat) (place : Nat → Loc) : Prop :=
  s.CopyPlaces false lane a n place ∧ ∀ i < n, s.delivers s.agent (place i) = true
def Sys2Proof.Machine.State.bytesAt (s : State) (n : Nat) (place : Nat → Loc) : List Byte := (List.range n).map fun i => s.readByte (place i)
/-- A copy address names n bytes of the block's own allocation, from B on, and the core answers. -/
structure Sys2Proof.Machine.State.OwnCopy (s : State) (a : W64) (n B : Nat) : Prop where
  own : a.getLsbD 63 = true
  inside : a.toNat % 2 ^ 32 + n ≤ s.myBlock.spsize
  room : s.myBlock.spbase + s.myBlock.spsize ≤ 2 ^ 21
  base : B = s.cur.core * 2 ^ 21 + s.myBlock.spbase + a.toNat % 2 ^ 32
  answers : s.delivers s.agent ⟨1, B⟩ = true
/-- R84, R85, R132: bytes for a copy address outside the allocation are posted: one packet for each destination, which holds its pieces in order. -/
structure Sys2Proof.Machine.State.PostsCopy (s u : State) (U n : Nat) (place : Nat → Loc) (bs : List Byte) : Prop where
  numbered : s.Numbered u
  sent : ∃ keys : List (Nat × Nat), keys.Nodup ∧ (∀ c, c ∈ keys ↔ ∃ i < n / U, destKey (place (i * U)) = c) ∧
    u.packets.map (fun p => (p.op, p.writes)) = keys.map fun c => (.store,
      ((List.range (n / U)).filter fun k => destKey (place (k * U)) == c).flatMap fun k => (List.range U).map fun j => (place (k * U + j), bs.getD (k * U + j) 0))
  sender : ∀ p ∈ u.packets, p.src = s.agent

/-- Table 07-9: a control word as memory holds it. -/
def Sys2Proof.Machine.State.queueWord (s : State) (o : Loc) : QWord :=
  ⟨s.readNum o 4, s.readNum ⟨1, o.addr + 4⟩ 2, s.readNum ⟨1, o.addr + 6⟩ 2, s.readNum ⟨1, o.addr + 8⟩ 4, s.readNum ⟨1, o.addr + 12⟩ 4⟩
/-- R180: a handle of the block is bound to a control word at o, which answers; w is the word. -/
structure Sys2Proof.Machine.State.HasQueue (s : State) (q : BitVec 3) (h : QBind) (o : Loc) (w : QWord) : Prop where
  bound : SMap.find s.myBlock.handles q.toNat = some h
  answers : h.core = s.cur.core ∨ s.delivers s.agent h.loc = true
  place : o = ⟨1, h.core * 2 ^ 21 + h.off⟩
  word : w = s.queueWord o
/-- R180: what binding handle q to the control word at o makes of a block's handles. -/
def Sys2Proof.Machine.State.bindTo (s : State) (o : Loc) (w : QWord) (hs : SMap QBind) (q : Nat) : SMap QBind :=
  match s.allocAt o.core (o.addr % 2 ^ 21) with
  | none => SMap.del hs q
  | some x =>
    if w.depth ≠ 0 ∧ w.esize ≠ 0 ∧ w.esize % 16 = 0 ∧ w.qbase % 16 = 0 ∧ w.qbase + w.depth * w.esize ≤ x.spsize then SMap.put hs q ⟨o.core, o.addr % 2 ^ 21⟩
    else SMap.del hs q
def waiting (w : QWord) : Nat := (w.tail + 2 ^ 32 - w.head) % 2 ^ 32
/-- R180: an earlier waiter of the queue is served first; a context that was woken comes now. -/
def Sys2Proof.Machine.State.Behind (s : State) (o : Loc) (push : Bool) : Prop := s.cur.woken ≠ 5 ∧ ∃ c ∈ s.ctxs, c.park = some (.queue o push)

/-- R179, R180: a handle is bound to a valid control word of an allocation and unbound by any other; a push stores the element at `TAIL` and a pop takes
the one at `HEAD`, each then moves its count on; a full or an empty queue parks, `qtry` gives 1 in bit 63, and no queue gives all ones. -/
def Obligations.Queues : Prop :=
  (∀ sm g q a s l o w, s.GroupReady → s.Alone → s.Leads g l → s.NamesSp .watched 16 16 l (s.rawS a.toNat) o → w = s.queueWord o →
    ∃ t u, exec (.qbind sm g q a) s = .next t ∧ s.Requested u ∧
      s.Returns (u.updBlock s.cur.block fun b => { b with handles := s.bindTo o w b.handles q.toNat }) t 4 sm []) ∧
  (∀ i ∈ [(.qpush : Bool → BitVec 3 → BitVec 6 → BitVec 3 → BitVec 6 → Instr), .qpop, .qtry], ∀ sm g d q b s l, s.GroupReady → s.Alone → s.Leads g l →
    (SMap.find s.myBlock.handles q.toNat = none ∨ ∃ h o w, s.HasQueue q h o w ∧ w.depth < waiting w) →
    ∃ t u, exec (i sm g d q b) s = .next t ∧ s.Requested u ∧ s.Returns u.replayless t 4 sm [.uni d.toNat (BitVec.allOnes 64) false]) ∧
  (∀ sm g d q b s l h o w, s.GroupReady → s.Alone → s.Leads g l → s.HasQueue q h o w → waiting w ≤ w.depth →
    (waiting w = w.depth ∨ s.Behind o true → ∃ t u, exec (.qpush sm g d q b) s = .next t ∧ s.Requested u ∧ u.Waits t (.queue o true)) ∧
    (waiting w = 0 ∨ s.Behind o false → ∃ t u, exec (.qpop sm g d q b) s = .next t ∧ s.Requested u ∧ u.Waits t (.queue o false)) ∧
    (waiting w ≤ (s.ctxs.filter fun c => c.park == some (.queue o false)).length →
      ∃ t u, exec (.qtry sm g d q b) s = .next t ∧ s.Requested u ∧ s.Returns u.replayless t 4 sm [.uni d.toNat 0x8000000000000000 false])) ∧
  (∀ sm g d q b s l h o w place, s.GroupReady → s.Alone → s.Leads g l → s.HasQueue q h o w → waiting w < w.depth → ¬s.Behind o true →
    s.ReadsCopy l (s.rawS b.toNat) w.esize place → ∃ t u, exec (.qpush sm g d q b) s = .next t ∧
      s.Returns u.replayless t 4 sm [.uni d.toNat (BitVec.ofNat 64 w.tail) false] ∧
      s.Performs u (cellsFrom (s.qElem h w w.tail) (s.bytesAt w.esize place) ++ cellsFrom ⟨1, o.addr + 12⟩ (natBytes 4 ((w.tail + 1) % 2 ^ 32)))) ∧
  ∀ sm g d q b s l h o w, s.GroupReady → s.Alone → s.Leads g l → s.HasQueue q h o w → waiting w ≤ w.depth →
    ∀ i, (i = Instr.qpop sm g d q b ∧ waiting w ≠ 0 ∧ ¬s.Behind o false ∨
      i = Instr.qtry sm g d q b ∧ (s.ctxs.filter fun c => c.park == some (.queue o false)).length < waiting w) →
    (∀ B, s.OwnCopy (s.rawS b.toNat) w.esize B → ∃ t u, exec i s = .next t ∧ s.Returns u.replayless t 4 sm [.uni d.toNat (BitVec.ofNat 64 w.head) false] ∧
      s.Performs u (cellsFrom ⟨1, B⟩ (s.readBytes (s.qElem h w w.head) w.esize) ++ cellsFrom ⟨1, o.addr + 8⟩ (natBytes 4 ((w.head + 1) % 2 ^ 32)))) ∧
    ∀ place, (s.rawS b.toNat).getLsbD 63 = false → s.CopyPlaces true l (s.rawS b.toNat) w.esize place →
      ∃ t u, exec i s = .next t ∧ s.Returns u.replayless t 4 sm [.uni d.toNat (BitVec.ofNat 64 w.head) false] ∧
        u = { s with parts := u.parts, launches := u.launches, packets := u.packets, nextId := u.nextId, sp := u.sp } ∧
        s.PostsCopy u (bulkUnit (s.rawS b.toNat).toNat w.esize) w.esize place (s.readBytes (s.qElem h w w.head) w.esize) ∧
        s.Stored u (cellsFrom ⟨1, o.addr + 8⟩ (natBytes 4 ((w.head + 1) % 2 ^ 32)))

/-! ## Cards and descriptors -/

/-- R184, Table 07-11: the chunks of a card's output for a constellation of g members. -/
def chunksOf (card g : Nat) : Nat := ((if card % 16 = 1 then card / 2 ^ 192 % 2 ^ 29 / g else card / 2 ^ 192 % 2 ^ 29) + 65535) / 65536
/-- R155: the members of a card's constellation. -/
def Sys2Proof.Machine.State.members (s : State) (card : Nat) : Nat :=
  ((s.launch s.cur.launch).gtable.filter fun e => e.2.2.contains (card / 2 ^ 8 % 2 ^ 8)).length

/-- R184: `ctest` gives the flag of a chunk of the card's job, or 3 beyond the output; `cwait` gives the same once the flag is not 0, and parks until then.
A complete chunk acts as an acquire. -/
def Obligations.CollectiveFlags : Prop :=
  ∀ sm g d a b s l place x n j, s.Ready → s.Alone → s.Leads g l → (s.rawS a.toNat).toNat % 64 = 0 → s.ReadsCopy l (s.rawS a.toNat) 64 place →
    x = bytesNat (s.bytesAt 64 place) → n = chunksOf x (s.members x) → j = (s.rawS b.toNat).toNat % 2 ^ 16 →
    (n ≤ j → ∀ i ∈ [Instr.cwait sm g d a b, .ctest sm g d a b], ∃ t u, exec i s = .next t ∧ s.Cached u ∧ s.Returns u t 4 sm [.uni d.toNat 3 false]) ∧
    ∀ p f, j < n → f = BitVec.ofNat 64 (x / 2 ^ 256 % 2 ^ 64) + BitVec.ofNat 64 j → s.ReadsCopy l f 1 p →
      ((s.rawS a.toNat).getLsbD 63 = true ∨ f.getLsbD 63 = true) →
      (∃ t u, exec (.ctest sm g d a b) s = .next t ∧ s.Cached u ∧ s.Returns u t 4 sm [.uni d.toNat ((s.readByte (p 0)).setWidth 64) false]) ∧
      (s.readByte (p 0) ≠ 0 → ∃ t u, exec (.cwait sm g d a b) s = .next t ∧ s.Cached u ∧
        s.Returns u t 4 sm [.uni d.toNat ((s.readByte (p 0)).setWidth 64) false]) ∧
      (s.readByte (p 0) = 0 → f.getLsbD 63 = true → ∃ t u, exec (.cwait sm g d a b) s = .next t ∧ s.Cached u ∧ u.Waits t (.flag (p 0)))

/-- R182, R183: `coll` reads the card, clears the flag of every chunk as plain stores, and submits the job, behind those stores, with the copy it
read. -/
def Obligations.Collectives : Prop :=
  ∀ sm g d a s l place x n f, s.Ready → s.Alone → s.Leads g l → s.subs < 255 → (s.rawS a.toNat).toNat % 64 = 0 →
    s.ReadsCopy l (s.rawS a.toNat) 64 place → x = bytesNat (s.bytesAt 64 place) → n = chunksOf x (s.members x) →
    f = BitVec.ofNat 64 (x / 2 ^ 256 % 2 ^ 64) →
    (∀ B, s.OwnCopy f n B → ∃ t u, exec (.coll sm g d a) s = .next t ∧ s.Performs u (cellsFrom ⟨1, B⟩ (List.replicate n 0)) ∧
      s.Returns (u.submitted 9 1 s.cur.core d.toNat fun j => { j with opA := s.rawS a.toNat, card := BitVec.ofNat 512 x, nchunks := n, need := (s.nextId, u.nextId) }) t 4 sm []) ∧
    ∀ p, f.getLsbD 63 = false → (s.rawS a.toNat).getLsbD 63 = true → s.CopyPlaces true l f n p → ∃ t u, exec (.coll sm g d a) s = .next t ∧
      u = { s with parts := u.parts, launches := u.launches, packets := u.packets, nextId := u.nextId } ∧
      s.PostsCopy u (bulkUnit f.toNat n) n p (List.replicate n 0) ∧
      s.Returns (u.submitted 9 1 s.cur.core d.toNat fun j => { j with opA := s.rawS a.toNat, card := BitVec.ofNat 512 x, nchunks := n, need := (s.nextId, u.nextId) }) t 4 sm []

/-- Table 07-5, R174: a descriptor x that is not valid; its chunks. -/
def BadDescriptor (x : Nat) : Prop :=
  x / 2 ^ 157 % 8 ≠ 0 ∨ x / 2 ^ 168 % 2 ^ 24 ≠ 0 ∨ x / 2 ^ 288 ≠ 0 ∨ 8 < x / 2 ^ 160 % 16 ∨ x / 2 ^ 128 % 2 ^ 29 % 16 ≠ 0 ∨ x / 2 ^ 128 % 2 ^ 29 < 16 ∨
  2 ^ 28 < x / 2 ^ 128 % 2 ^ 29 ∨ x / 2 ^ 64 % 2 ^ 64 % 16 ≠ 0
def lastCounter (x : Nat) : Nat :=
  x / 2 ^ 192 % 2 ^ 64 + (x / 2 ^ 128 % 2 ^ 29 + 256 * 2 ^ (x / 2 ^ 160 % 16) - 1) / (256 * 2 ^ (x / 2 ^ 160 % 16)) - 1

/-- R172, R174, R377, R378: `cpc` reads the descriptor at a virtual address; with a key slot that is the context's own it submits the decryption with
the slot's key: to end at once as not valid (8), or as a counter not above the floor (7), or else with the floor raised to the last counter. An
address with bit 63 is no address of a descriptor: NOTPRESENT, detail 2 (R81). -/
def Obligations.Decryptions : Prop :=
  (∀ sm g d a b s l place x k, s.Ready → s.Alone → s.Leads g l → s.subs < 255 → b.toNat + 1 ≤ 64 → (s.rawS a.toNat).toNat % 64 = 0 →
    (s.rawS a.toNat).getLsbD 63 = false → s.ReadsCopy l (s.rawS a.toNat) 64 place → x = bytesNat (s.bytesAt 64 place) →
    SMap.find s.myPart.keys (x / 2 ^ 164 % 16) = some k → s.ownsSlot k = true →
    ∃ t u, exec (.cpc sm g d a b) s = .next t ∧ s.Cached u ∧
      (BadDescriptor x → s.Returns (u.submitted 2 1 s.cur.core d.toNat fun j =>
        { j with opA := s.rawS a.toNat, opB := s.rawS b.toNat, card := BitVec.ofNat 512 x, key := k.key, pre := 8 }) t 4 sm []) ∧
      (¬BadDescriptor x → x / 2 ^ 192 % 2 ^ 64 ≤ k.floor.toNat ∨ 2 ^ 64 ≤ lastCounter x → s.Returns (u.submitted 2 1 s.cur.core d.toNat fun j =>
        { j with opA := s.rawS a.toNat, opB := s.rawS b.toNat, card := BitVec.ofNat 512 x, key := k.key, pre := 7 }) t 4 sm []) ∧
      (¬BadDescriptor x → k.floor.toNat < x / 2 ^ 192 % 2 ^ 64 → lastCounter x < 2 ^ 64 →
        s.Returns ((u.updPart s.curTag fun p => { p with keys := SMap.put p.keys (x / 2 ^ 164 % 16) { k with floor := BitVec.ofNat 64 (lastCounter x) } }).submitted
          2 1 s.cur.core d.toNat fun j =>
          { j with opA := s.rawS a.toNat, opB := s.rawS b.toNat, card := BitVec.ofNat 512 x, key := k.key, pre := 0 }) t 4 sm [])) ∧
  ∀ sm g d a b s l, s.GroupReady → s.cur.txg = false → s.Leads g l → s.subs < 255 → b.toNat + 1 ≤ 64 → s.cur.smode = false → s.myPart.svVec ≠ 0 →
    (s.rawS a.toNat).toNat % 64 = 0 → (s.rawS a.toNat).getLsbD 63 = true → ∃ t, exec (.cpc sm g d a b) s = .next t ∧ t.cur.pc = evenPc s.myPart.svVec ∧
      t.cur.smode = true ∧ t.cur.epc = s.cur.pc ∧ t.cur.cause.extractLsb' 0 8 = 1 ∧ t.cur.cause.extractLsb' 8 8 = 2 ∧
      t.cur.cause.extractLsb' 16 8 = BitVec.ofNat 8 l ∧ t.cur.sregs = s.cur.sregs

/-! ## Events

An event acts on what its data names (`State.arg`) and on nothing else; the clauses say what it does where its condition holds. -/

/-- A parked context becomes ready, with what it is told; an instruction that is to be repeated is repeated at once (R341). -/
def Sys2Proof.Machine.State.readied (s : State) (c : Ctx) (why : Nat) : State :=
  { s.updCtx c.id fun x => { x with park := none, woken := why, age := (s.core x.core).nextStep } with
    agenda := if c.reissue then .ctx c.id :: s.agenda else s.agenda }
/-- R341: what a parked context waits for has come. -/
def Sys2Proof.Machine.State.Awaited (s : State) (c : Ctx) : Prop :=
  (c.park = some .settle ∧ c.deferred = []) ∨ (∃ n, c.park = some (.batch n) ∧ c.owes n = false) ∨
  (∃ l, c.park = some (.flag l) ∧ s.readByte l ≠ 0) ∨ (c.park = some .token ∧ (s.part (s.launch c.launch).tag).token = some c.id) ∨
  (c.park = some .qzQueue ∧ (s.tile (c.core / 16)).qz.length < 64) ∨
  (c.park = some .txend ∧ ∀ k ∈ s.commits, k.ctx = c.id → k.phase = 3) ∨ c.park = some .limit ∨ c.park = some .link

/-- Where what a clause names holds, and as it says: a deferred result is written (R16), a parked group becomes ready (R341), the issue of a group past its
deadline ends its launch (R307), a core steps its clock (R321, R346), a wave and an elapsed wait wake a group (R177, R342), the oldest waiter of a queue goes on
(R180), an invalidation completes, oldest first (R80; log entry 61), a walk is queued, begins and ends (R129), a token is granted (R299), a group stops and goes
on again (R304, R305). -/
def Obligations.CoreEvents : Prop :=
  (∀ s c r v fl, s.ctx? (s.arg 0) = some c → c.deferred = [⟨s.arg 1, [.uni r v false], fl, 0, true⟩] →
    exec .deferredResultWrite s = .next (({ s with oracle := s.oracle + 1 }).updCtx c.id fun _ =>
      { c with sregs := SMap.set 0 c.sregs r v, poisonS := c.poisonS &&& ~~~(BitVec.twoPow 64 r), fpx := c.fpx ||| fl, deferred := [] })) ∧
  (∀ s c, s.ctx? (s.arg 0) = some c → c.event = none → s.Awaited c → exec .groupWake s = .next (s.readied c 0)) ∧
  (∀ s c, s.ctx? (s.arg 0) = some c → c.overdue = true → c.isReady = true → exec .yieldover s = .next { s with agenda := .ctx c.id :: s.agenda }) ∧
  (∀ s m body, s.cur.kind = .group → s.cur.overdue = true → s.illegal m = none →
    issue m s body = .next ((s.raiseRecord s.curTag (s.eventRecord s.cur (s.groupEvent 7 0 0) s.cur.smode false)).endLaunch s.cur.launch)) ∧
  (∀ s k m, k = s.core (s.arg 0) → k.waves = [] → k.setpt < 4 → (∀ e ∈ k.stages, e.cls ≤ m) → (m = 0 ∨ ∃ e ∈ k.stages, e.cls = m) → m < 4 →
    (∀ c ∈ s.allCtxs, c.core = s.arg 0 → c.park = none ∧ ∀ d ∈ c.deferred, d.due = 0) → s.mxops = [] →
    ∃ t len, exec .clockDriveStep s = .next t ∧ len = [400, 420, 444, 1000].getD k.setpt 0 * [4, 5, 6, 8].getD m 0 / 4 ∧
      (t.core (s.arg 0)).cyc = k.cyc + 1 ∧ (t.core (s.arg 0)).span = k.span + BitVec.ofNat 64 len ∧ (t.core (s.arg 0)).steps = k.steps + 1 ∧
      (t.core (s.arg 0)).stages = ((k.stages.map fun e => { e with left := e.left - 1 }).filter fun e => e.left != 0) ∧
      t = { s with cores := t.cores, ctxs := t.ctxs, cur := t.cur }) ∧
  (∀ s c a v, (s.core (s.arg 0)).waves = [⟨c.id, a, v⟩] → a ≤ (s.core (s.arg 0)).cyc.toNat → s.ctx? c.id = some c → c.park = some .wave →
    exec .barrierWaveWake s = .next ((s.updCore (s.arg 0) fun k => { k with waves := [] }).readied c v)) ∧
  (∀ s c o p u, s.ctx? (s.arg 0) = some c → c.park = some (.barrierTimed o p u) → u ≤ (s.core c.core).span.toNat →
    exec .barTwaitTimeout s = .next (s.readied c 3)) ∧
  (∀ s c o w push, o = ⟨1, s.arg 0 * 2 ^ 21 + s.arg 1⟩ → s.arg 1 < 2 ^ 21 → w = s.queueWord o → (push = true ↔ s.arg 2 = 1) →
    (w.depth < waiting w ∨ if push then waiting w ≠ w.depth else waiting w ≠ 0) → s.ctx? c.id = some c → c ∈ s.allCtxs → c.park = some (.queue o push) →
    (∀ d ∈ s.allCtxs, d.park = some (.queue o push) → d ≠ c → c.parkSeq < d.parkSeq) → exec .queueWaiterServe s = .next (s.readied c 5)) ∧
  (∀ s x rest, s.inval = x :: rest → x.tag = s.arg 0 → (∀ y ∈ rest, y.id ≠ x.id) →
    exec .tlbinvComplete s = .next ((({ s with inval := rest }).updPart x.tag fun p => { p with tlb := p.tlb.filter fun e => !e.inRange x.page x.count }).updCtx x.ctx
      fun c => { c with deferred := c.deferred.map fun (d : Deferred) => if d.id = x.id then { d with ready := true } else d })) ∧
  (∀ s f tag w rest, s.ev.args = [f] → (s.fld f).walkers.length < 16 → (s.fld f).walkQ = [(tag, w :: rest)] →
    exec .walkerServe s = .next (s.updFld f fun x => { x with walkQ := SMap.set [] x.walkQ tag rest, walkers := x.walkers ++ [(w, tag)], rr := tag })) ∧
  (∀ s f tag page p, s.ev.args = [f, tag, page] → SMap.find s.parts tag = some p → (SMap.get [] (s.fld f).walkQ tag).length < 64 →
    16 ≤ (s.fld f).walkers.length →
    exec .walkerServe s = .next { (s.updFld f fun x => { x with walkQ := SMap.put x.walkQ tag (SMap.get [] (s.fld f).walkQ tag ++ [s.nextId]) }) with
      walks := SMap.put s.walks s.nextId ⟨tag, BitVec.ofNat 64 (page * 65536), f⟩, nextId := s.nextId + 1 }) ∧
  (∀ s w, SMap.find s.walks (s.arg 0) = some w → (∃ x ∈ (s.fld w.field).walkers, x.1 = s.arg 0) →
    ∃ t, exec .walkComplete s = .next t ∧ t = { s with walks := SMap.del s.walks (s.arg 0), fields := t.fields, parts := t.parts } ∧
      t.fld w.field = { s.fld w.field with walkers := (s.fld w.field).walkers.filter fun y => y.1 != s.arg 0 } ∧
      ∀ x, (s.part w.tag).tiles.find? (fun x => fieldOfTile x == w.field) = some x →
        t.parts = ((({ s with walks := SMap.del s.walks (s.arg 0), fields := t.fields } : State).atCore (x * 16)).cachePages w.tag [w.va.toNat]).parts) ∧
  (∀ s p c rest, SMap.find s.parts (s.arg 0) = some p → p.token = none → p.tokenQ = c.id :: rest → s.ctx? c.id = some c →
    exec .tokenGrant s = .next ((s.setPart (s.arg 0) { p with token := some c.id, tokenQ := rest }).readied c 0)) ∧
  (∀ s c, s.ctx? (s.arg 0) = some c → c.isGroup = true → c.preempt = true → c.dirty = false → c.smode = false →
    exec .groupStop s = .next ((s.stopGroup c.id).settleBlock c.block) ∧
    ∃ x, (s.stopGroup c.id).ctx? c.id = some x ∧ x.stopped = true ∧ x.preempt = false ∧ x.deferred = [] ∧ x.park = none ∧ x.txg = false ∧
      x.pc = c.pc ∧ x.sregs = c.sregs ∧ (s.stopGroup c.id).vrf = s.vrf ∧ s.SameBytes (s.stopGroup c.id)) ∧
  (∀ s c, s.ctx? (s.arg 0) = some c → c.stopped = true → c.ended = false → (s.block c.block).st = .resident → (s.core c.core).engine.held = false →
    (∀ x ∈ s.allCtxs, x.block = c.block → x.preempt = false) →
    exec .groupResume s = .next (
      let t := s.updCtx c.id fun x => { x with stopped := false, resident := x.isGroup, age := (s.core x.core).cyc.toNat + 1 }
      if c.isSeq then t else t.onCtx c.id fun u => if u.slotBad {} then u.endWith 9 1 else u.restoreSlot.runSlot))

/-- s without a packet. -/
def Sys2Proof.Machine.State.without (s : State) (p : Packet) : State := { s with packets := s.packets.filter fun q => q.id ≠ p.id }
/-- R91, R93, R130, R131, R310, R318, R413: a packet that may arrive is performed where its agent's partition owns the place, and dropped elsewhere; the oldest
drop is logged or counted; a notice raises a record; the oldest record goes to its partition's ring, or is counted as lost. A flit whose CRC
fails is sent again; a link whose sixteen retries have failed is out at both ends. -/
def Sys2Proof.Machine.MeshRules : Prop :=
  (∀ e ∈ [(Instr.packetDelivery, false), (.atomicPerform, true)], ∀ s p, (s.packets.find? fun q => q.id == s.arg 0 && q.isAtomic == e.2) = some p →
    s.mayArrive p = true → s.locks = [] → p.first.tt ≠ 6 →
    exec e.1 s = .next (if s.delivers p.src p.first then (s.without p).applyPacket p
      else (s.without p).dropAt p.src p.cross p.first p.seq p.bytes p.va p.pc 0 0).closeQuiet) ∧
  (∀ s d rest, s.drops = d :: rest → exec .dropLogAppend s = .next { s with
    drops := rest
    module := if (s.module.dropHead - s.module.dropTail).toNat = 65536 then { s.module with dropLost := satInc s.module.dropLost }
      else { s.module with dropLog := SMap.set 0 s.module.dropLog (s.module.dropHead.toNat % 65536) d.rec_, dropHead := s.module.dropHead + 1 } }) ∧
  (∀ s n rest p, s.nacks = n :: rest → SMap.find s.parts n.src.tag = some p →
    exec .negativeAcknowledgement s = .next { s with nacks := rest, raised := s.raised ++ [(n.src.tag, s.dropNotice n)] }) ∧
  (∀ s n k, beyondPort (s.arg 0) (s.arg 1) = some n → s.arg 0 < 648 → k = SMap.get 0 (s.tile (s.arg 0)).flitRetry (s.arg 1) →
    (k ≠ 17 → s.arg 2 = 1 → exec .meshFlitReceive s = .next (s.updTile (s.arg 0) fun x => { x with flitRetry := SMap.set 0 x.flitRetry (s.arg 1) 0 })) ∧
    (k < 16 → s.arg 2 ≠ 1 →
      exec .meshFlitReceive s = .next (s.updTile (s.arg 0) fun x => { x with flitRetry := SMap.set 0 x.flitRetry (s.arg 1) (k + 1) })) ∧
    ∀ u, u = (s.updTile (s.arg 0) fun x => { x with flitRetry := SMap.set 0 x.flitRetry (s.arg 1) 17 }).updTile n
        (fun x => { x with flitRetry := SMap.set 0 x.flitRetry ((s.arg 1 + 2) % 4) 17 }) →
      k = 16 → s.arg 2 ≠ 1 → u.isolated (s.arg 0) = false → u.isolated n = false → exec .meshFlitReceive s = .next u) ∧
  ∀ s tag r rest p, s.raised = (tag, r) :: rest → SMap.find s.parts tag = some p →
    (p.frSize = 0 ∨ (p.frHead - p.frTail).toNat = 2 ^ p.frSize → exec .faultRingWrite s = .next (({ s with raised := rest } : State).setPart tag
      { p with rseq := p.rseq + 1, frLost := if p.frLost = BitVec.allOnes 64 then p.frLost else p.frLost + 1 })) ∧
    ∀ l, p.frSize ≠ 0 → (p.frHead - p.frTail).toNat ≠ 2 ^ p.frSize → p.place (p.frBase.toNat + 64 * (p.frHead.toNat % 2 ^ p.frSize)) = some l →
      exec .faultRingWrite s = .next ((({ s with raised := rest } : State).writeNum l 64 (r ||| BitVec.ofNat 512 (p.rseq.toNat * 2 ^ 352)).toNat).updPart tag
        fun p => { p with frHead := p.frHead + 1, rseq := p.rseq + 1 })

/-- The bytes a lane's commit writes at a home slice. -/
def Sys2Proof.Machine.TxCommit.cellsAt (c : TxCommit) (home : Nat) : List (Loc × Byte) :=
  (c.log.wlog.filter fun e => e.home == home).flatMap fun e => ((List.range 4).filter fun i => e.m.getLsbD i).map fun i => (⟨e.l.tt, e.l.addr + i⟩, getByte e.v i)
/-- The commit c of s stands in t as d; all else is u's. -/
structure Sys2Proof.Machine.State.CommitIs (t u : State) (c d : TxCommit) : Prop where
  same : t = { u with commits := t.commits }
  now : t.commit? c.id = some d
/-- R210, R282, R295: a slice locks the lines of a prepare and answers READY, STALE or CONFLICT; a lane with every answer sends commits, or aborts and
sends releases; a slice writes the masked bytes and releases the lane's locks in one step. -/
def Sys2Proof.Machine.CommitRules : Prop :=
  (∀ s c u, s.commit? (s.arg 0) = some c → c.phase = 0 → s.arg 1 ∈ c.todo → s.prepareTurn c (s.arg 1) = true →
    (s.lockLines c (s.arg 1) (c.linesAt (s.arg 1)) = (u, none) →
      (u.staleLine c (s.arg 1) = none → ∃ t, exec .txPrepare s = .next t ∧
        t.CommitIs u c { c with todo := c.todo.filter (· ≠ s.arg 1), ready := c.ready ++ [s.arg 1] }) ∧
      ∀ l, u.staleLine c (s.arg 1) = some l → ∃ t, exec .txPrepare s = .next t ∧
        t.CommitIs u c (TxCommit.answer 2 l { c with todo := c.todo.filter (· ≠ s.arg 1), ready := c.ready ++ [s.arg 1] })) ∧
    ∀ l, s.lockLines c (s.arg 1) (c.linesAt (s.arg 1)) = (u, some l) → c.holder = false → ∃ t, exec .txPrepare s = .next t ∧
      t.CommitIs (u.unlock c (s.arg 1)) c { TxCommit.answer 1 l c with todo := (TxCommit.answer 1 l c).todo.filter (· ≠ s.arg 1) }) ∧
  (∀ s c, s.commit? (s.arg 0) = some c → c.phase = 0 → c.todo = [] → c.ready ≠ [] →
    (c.verdict = 0 → s.preparing c.ctx = false → ∃ t, exec .txAnswer s = .next t ∧ t.CommitIs s c { c with phase := 1 }) ∧
    (c.verdict ≠ 0 → ∃ t, exec .txAnswer s = .next t ∧
      t.CommitIs (s.updCtx c.ctx fun x => x.abortLane c.verdict 0 0 c.lane) c { c with phase := 2 })) ∧
  ∀ s c r, s.commit? (s.arg 0) = some c → s.arg 1 ∈ c.ready → r = c.ready.filter (· ≠ s.arg 1) → (r = [] → (s.ctx? c.ctx).isSome = true) →
    (c.phase = 1 → ∃ t, exec .txCommit s = .next t ∧ t.CommitIs ((((s.writeAll (c.cellsAt (s.arg 1))).clearPoison ((c.cellsAt (s.arg 1)).map Prod.fst)).unlock c (s.arg 1)).forwardWrites (c.cellsAt (s.arg 1))) c
      (if r = [] then { c with ready := r, phase := 3, ok := c.verdict == 0 } else { c with ready := r })) ∧
    (c.phase = 2 → ∃ t, exec .txRelease s = .next t ∧ t.CommitIs (s.unlock c (s.arg 1)) c
      (if r = [] then { c with ready := r, phase := 3, ok := c.verdict == 0 } else { c with ready := r }))


/-- Where what a clause names holds, and as it says: a packet arrives, and is performed or dropped (R91, R93, R130, R131), the log, the notices and
the fault ring take the oldest entry (R310, R413), a flit between tiles is sent again (R318), and a slice prepares, answers, commits and releases (R210, R282, R295). -/
def Obligations.FabricEvents : Prop := MeshRules ∧ CommitRules

/-- R160, R162, R166 to R168, R173, R176, R206 to R208, R221 to R224: a job starts when nothing stands before it; its sub-jobs, chunks, shares and
blocks are done one by one, a chunk's bytes word by word; a barrier unit performs its oldest delivery. -/
def Sys2Proof.Machine.JobRules : Prop :=
  (∀ s j, s.job? (s.arg 0) = some j → j.started = false → j.suspended = false → j.kind ∉ [8, 9, 10] → s.asyncDone j.ctx j.after = true →
    (j.pre ≠ 0 → exec .jobDispatch s = .next (s.endJob j (statusNone j.pre))) ∧
    (j.pre = 0 → s.dispatchLost j = false →
      (∀ c, s.jobCard j s.ev.bytes = .error (some c) → exec .jobDispatch s = .next ((s.structPackets j j.opA 64 64).endJob j (statusNone c))) ∧
      ∀ x u k n pages ext, j.kind ∉ [3, 4] → s.jobCard j s.ev.bytes = .ok x → u = (if j.readsCard then s.structPackets j j.opA 64 64 else s) →
        k = { j with card := BitVec.ofNat 512 x, seq := ((u.job? j.id).getD j).seq } → k.badLayout = false → u.beyond k = false →
        u.subJob { k with nchunks := k.total, started := true, receivers := [], missing := [] } 0 k.total = (n, .ok (pages, ext)) →
        u.overlapped { k with nchunks := k.total, started := true, receivers := [], missing := [] } 0 n = false →
        exec .jobDispatch s = .next (u.updJob j.id fun _ => ({ k with
          nchunks := k.total, started := true, receivers := [], missing := [], pages := pages, extents := ext, sub := n } : Job).fill))) ∧
  (∀ s j n pages ext, s.job? (s.arg 0) = some j → j.started = true → j.suspended = false → j.ended = false → j.failed = [] → j.kind < 9 → j.next = j.sub →
    j.sub < j.nchunks → s.subJob j j.sub j.nchunks = (n, .ok (pages, ext)) → s.overlapped j j.sub n = false →
    ∃ t, exec .subjobDispatch s = .next t ∧ t = { s with jobs := t.jobs } ∧
      t.job? j.id = some ({ j with pages := pages, extents := ext, sub := n } : Job).fill) ∧
  (∀ s j k, s.job? (s.arg 0) = some j → k = s.arg 1 → k ∈ j.flight → j.kind ∉ [3, 4, 9, 10] →
    (SMap.find j.cells k = none → (∀ u, s.runChunk j k s.ev.bytes = .ok u → exec .chunkComplete s = .next (u.chunkWrites j.id k (s.ev.args.drop 2))) ∧
      ∀ u c, s.runChunk j k s.ev.bytes = .fail u c → exec .chunkComplete s = .next (u.chunkOut j.id k (some c))) ∧
    ∀ t x w ws, SMap.find j.cells k = some (w :: ws) → s.chunkAsked j.id k = false → (∀ f ∈ j.failed, f.1 ≠ k) →
      s.writeCells j k (s.ev.args.drop 2) = some t → t.job? j.id = some x → t.chunkAsked j.id k = false →
      (SMap.find x.cells k = some [] → exec .chunkComplete s = .next (t.chunkOut j.id k none)) ∧
      (SMap.find x.cells k ≠ some [] → exec .chunkComplete s = .next t)) ∧
  (∀ s j u bs q x, s.job? (s.arg 0) = some j → SMap.find j.data (s.arg 2) = some bs → j.missing = [] → j.receivers = [s.arg 1, q] → q ≠ s.arg 1 →
    (s.arg 1, s.arg 2) ∉ j.shares → (q, s.arg 2) ∉ j.shares → s.share j (s.arg 2) (s.arg 1) bs = .ok u → u.job? j.id = some x → x.shares = j.shares →
    exec .cpmShareApply s = .next (u.updJob j.id fun x => { x with shares := x.shares ++ [(s.arg 1, s.arg 2)] })) ∧
  (∀ s d rest, s.deliveries = d :: rest → d.obj.core = s.arg 0 →
    exec .barrierOperation s = .next (({ s with deliveries := rest } : State).barDeliver d.obj d.phase d.n)) ∧
  ∀ s j, s.job? (s.arg 0) = some j → j.kind = 10 → j.started = true → j.next < j.sub →
    (∀ els r u x n, SMap.find j.cells j.next = none → j.ended = false → j.suspended = false → x = j.card.toNat → n = qzLen x →
      s.readElems j (qzSize x) ((List.range n).map fun i => some (qzSrc x j.next i)) s.ev.bytes = .ok els →
      r = qzBlock (x.testBit 387) (els.map fun e => BitVec.ofNat 32 (if qzSize x = 2 then bytesNat e * 65536 else bytesNat e)) →
      (s.readPackets j (qzSize x) ((List.range n).map fun i => some (qzSrc x j.next i))).holdCells j .store j.next
        (((List.range n).zip r.1 |>.flatMap fun p => [(some (qzDst x j.next p.1), [p.2]), (qzTrans x j.next p.1, [p.2])]) ++
          [(some (qzScl x j.next), natBytes 4 r.2.1.toNat), (qzTransScl x j.next, natBytes 4 r.2.1.toNat)]) = .ok u →
      exec .qzBlockComplete s = .next ((u.updJob j.id fun j => { j with nan := j.nan + r.2.2.1, ovf := j.ovf + r.2.2.2 }).qzWrites j.id (s.ev.args.drop 1))) ∧
    ∀ t x w ws, SMap.find j.cells j.next = some (w :: ws) → s.writeCells j j.next (s.ev.args.drop 1) = some t → t.job? j.id = some x →
      SMap.find x.cells j.next = some [] → t.chunkAsked j.id j.next = false → (∀ f ∈ x.failed, f.1 ≠ j.next) →
      exec .qzBlockComplete s = .next (if j.next + 1 = x.nchunks then t.endJob x (qzStatus x 0 0)
        else t.updJob j.id fun j' => { j' with next := j.next + 1, cells := [] })

/-- R182, R183, R206, R207, R406: the first card of a collective opens it, the last one starts it; a chunk is written at every member, and the last one
ends the jobs. -/
def Sys2Proof.Machine.CollectiveRules : Prop :=
  (∀ s j, s.job? (s.arg 0) = some j → j.kind = 9 → j.ended = false → j.suspended = false → s.asyncDone j.ctx j.after = true → s.needed j = false →
    (∀ r, j.started = false → s.rankOf j = some r → (∀ c ∈ s.colls, ¬(c.launch = j.launch ∧ c.con = cardCon j.card.toNat ∧ c.cid = cardCid j.card.toNat)) →
      (s.launch j.launch).conSize (cardCon j.card.toNat) ≠ 1 →
      exec .collectiveStart s = .next { (s.updJob j.id fun x => { x with started := true }) with colls := s.colls ++ [
        { launch := j.launch, con := cardCon j.card.toNat, cid := cardCid j.card.toNat, size := (s.launch j.launch).conSize (cardCon j.card.toNat)
          jobs := [(r, j.id)] }] }) ∧
    ∀ c h t, j.started = true → s.coll? j.launch (cardCon j.card.toNat) (cardCid j.card.toNat) = some c → c.started = false → c.jobs.length = c.size →
      s.collJobs c = h :: t → t.length + 1 = c.size → (∀ k ∈ h :: t, cardBad k.card.toNat c.size = false ∧ cardsAgree h.card.toNat k.card.toNat = true) →
      (∀ k ∈ h :: t, s.overlapped k 0 k.nchunks = false) →
      exec .collectiveStart s = .next ((s.chunkExtents (s.collJobs c) c.size 0).updColl c fun x => { x with started := true })) ∧
  ∀ s c k u v, s.coll? (s.arg 0) (s.arg 1) (s.arg 2) = some c → k = s.arg 3 → c.started = true →
    ((u = s ∧ ∃ j ∈ s.collJobs c, (SMap.find j.cells k).isSome = true) ∨
      (s.chunkBegin c k s.ev.bytes = some u ∧ ∀ j ∈ s.collJobs c, SMap.find j.cells k = none ∧ j.suspended = false ∧ j.mayFinish k = true)) →
    v = (s.collJobs c).foldl (fun t j => t.chunkGoesOn j.id k (s.ev.args.drop 4)) u →
    ((∃ x ∈ v.collJobs c, (SMap.find x.cells k).isSome = true) → exec .collectiveChunkComplete s = .next v) ∧
    ((∀ x ∈ v.collJobs c, SMap.find x.cells k = none) → (∃ x ∈ v.collJobs c, x.applied.length + x.failed.length ≠ x.nchunks) →
      exec .collectiveChunkComplete s = .next (v.updColl c fun x => { x with next := max x.next (k + 1) })) ∧
    ((∀ x ∈ v.collJobs c, x.cells = [] ∧ x.applied.length + x.failed.length = x.nchunks) →
      exec .collectiveChunkComplete s = .next (((v.collJobs c).foldl (fun s j => s.endJob j (copyStatus j.nchunks j.applied j.failed j.bytes 0))
        (v.updColl c fun x => { x with next := max x.next (k + 1) })).dropColl c))

/-- Where what a clause names holds, and as it says: a job is dispatched or ended, a sub-job follows, a chunk is read and written word by word, a share of a
multicast is applied, a barrier unit performs its oldest delivery, a block is quantised, a collective opens, starts, writes its chunks and ends (R160, R162, R168,
R176, R182, R183, R206, R207, R222). -/
def Obligations.EngineEvents : Prop := JobRules ∧ CollectiveRules

/-- R233, R235, R236, R238 to R247, R259, R260, R262, R264: an operation starts once what it follows has ended, loads slab by slab, reads and writes its
product row by row, and ends; a stop leaves the progress word of the operation under way. -/
def Sys2Proof.Machine.MatrixRules : Prop :=
  (∀ s o, s.mxop? (s.arg 0) = some o → o.started = false → (s.core o.core).engine.held = false → s.asyncDone o.ctx o.after = true → s.mxFirst o = true →
    (o.badWord = true → exec .matrixOpStart s = .next (s.updMx o.id fun x => { x with begun := true, started := true, fail := 8 })) ∧
    (o.badWord = false →
      (o.kind ∈ [2, 3] → exec .matrixOpStart s = .next ((s.mxCharge { o with begun := true, started := true }).updMx o.id fun x =>
        { o with begun := true, started := true, seq := x.seq })) ∧
      (∀ r, o.kind ∈ [0, 4] → s.mxRanges o (o.kind == 4) = .ok r → exec .matrixOpStart s = .next ((s.mxCharge { r with begun := true, started := true }).updMx o.id
        fun x => { r with begun := true, started := true, seq := x.seq })) ∧
      ∀ t r b, o.kind = 1 → o.begun = false → s.mxStructure o o.opA s.ev.bytes = .ok (t, r, b) →
        exec .matrixOpStart s = .next ((t.mxCharge { r with fmtBlock := BitVec.ofNat 512 b, begun := true }).updMx o.id fun x =>
          { r with fmtBlock := BitVec.ofNat 512 b, begun := true, seq := x.seq }))) ∧
  (∀ s o t bs, s.mxop? (s.arg 0) = some o → o.kind = 0 → o.started = true → o.stopped = false → o.fail = 0 → o.next < o.total →
    (s.core o.core).engine.held = false → s.mxFill o ((o.slabRuns o.next).flatMap (runBytes 32)) (s.arg 1) s.ev.bytes = .ok (t, bs) →
    (bs.length < 4096 → exec .mxldSlabWrite s = .next ((t.mxCharge o).updMx o.id fun x => { x with got := bs })) ∧
    (4096 ≤ bs.length → exec .mxldSlabWrite s = .next (((t.mxCharge o).writeSlab o o.next (partsOf 32 128 bs)).updMx o.id fun x =>
      { x with next := x.next + 1, got := [] }))) ∧
  (∀ s o t bs, s.mxop? (s.arg 0) = some o → o.kind = 1 → o.started = true → o.stopped = false → o.fail = 0 → (s.core o.core).engine.held = false →
    o.next + o.rows.length < o.total → o.rows.length < o.ahead →
    (if o.aq then s.mxPop o else s.mxFill o (runBytes o.rowBytes (o.opB1 + BitVec.ofNat 64 ((o.next + o.rows.length) * o.pitch))) (s.arg 1) s.ev.bytes) =
      .ok (t, bs) →
    exec .aRowRead s = .next (t.updMx o.id fun x => if bs.length < x.rowBytes then { x with got := bs } else { x with rows := x.rows ++ [bs], got := [] })) ∧
  (∀ s o, s.mxop? (s.arg 0) = some o → o.stopped = false →
    (∀ row rest key v, s.arg 1 = 0 → o.rows = row :: rest → (∀ k, 4096 ≤ k → SMap.find o.scales k = none) → s.rowBad o row = false →
      key = o.core * 1024 + o.tileNo o.tile * 256 + o.next → s.accPoison key = 0 →
      v = s.productRow o row (o.promo.headD (SMap.get 0 s.acc key)) (fun kb => ((o.scale o.ascl (o.next * 8 + kb))).getD 0)
        (fun kb t => ((o.scale o.bscl (2048 + kb * 8 + t))).getD 0) →
      ∃ u, exec .mxfmaRowWrite s = .next u ∧ u.acc = SMap.set 0 s.acc key v ∧ u.vrf = s.vrf ∧ u.planes = s.planes ∧ u.sp = s.sp ∧ u.hbm = s.hbm ∧
        u.mxop? o.id = some { o with next := o.next + 1, rows := rest, promo := o.promo.tail }) ∧
    (s.arg 1 = 4 → s.accPoison (o.accRow (o.next + o.promo.length)) = 0 → o.promo.length < o.rows.length → ∃ u, exec .mxfmaRowWrite s = .next u ∧
      u = { s with mxops := u.mxops } ∧ u.mxop? o.id = some { o with promo := o.promo ++ [SMap.get 0 s.acc (o.accRow (o.next + o.promo.length))] })) ∧
  (∀ s o, s.mxop? (s.arg 0) = some o → o.started = true → o.stopped = false →
    (o.fail ≠ 0 ∨ o.kind ∈ [0, 1] ∧ o.next = o.total → exec .matrixOpEnd s = .next (s.endMx o)) ∧
    (o.fail = 0 →
      (o.kind = 2 → exec .matrixOpEnd s = .next ((s.mxZero o).endMx o)) ∧
      (o.kind = 3 → (s.core o.core).engine.held = false → ∀ n, n = s.mxCheck o ||| s.arg 1 % 2 ^ o.groups →
        exec .matrixOpEnd s = .next (s.endMx { o with bitmap := n, fail := if n = 0 then 0 else 12 })) ∧
      ∀ t x, o.kind ∈ [4, 5] → s.arg 1 = 1 → s.arg 3 = 0 → t = (s.mxCharge o).mxMove o.id (s.arg 2 == 1) 0 s.ev.bytes → t.mxop? o.id = some x → x.fail = 0 →
        (x.next ≠ 256 → exec .matrixOpEnd s = .next t) ∧
        (x.next = 256 → (t.core x.core).engine.held = false → exec .matrixOpEnd s = .next (t.mxFinish x)))) ∧
  ∀ s c e, c = s.arg 0 → e = (s.core c).engine → e.held = true → e.stopped = false →
    (s.mxops.filter (fun o => o.core == c && o.begun && !o.stopped && o.fail == 0) = [] →
      exec .matrixStopComplete s = .next ((s.updCore c fun k => { k with engine := { k.engine with stopped := true } }).settleBlock e.holder)) ∧
    ∀ o u, s.mxops.filter (fun o => o.core == c && o.begun && !o.stopped && o.fail == 0) = [o] → o.finishing = false →
      u = (s.updMx o.id MxOp.atStop).updCore c (fun k => { k with engine := k.engine.setProgress o.half o.inL (o.atStop.progressWord (s.mxBatchOf o)) }) →
      exec .matrixStopComplete s = .next ((u.updCore c fun k => { k with engine := { k.engine with stopped := true } }).settleBlock e.holder)

/-- R143 to R151, R181, R229, R330, R333, R337, R339, R340: a LAUNCH is rejected with the first code that applies, lets a queue of higher priority go first, or creates its first block; a spawn record's
blocks are accepted or fail; a block becomes resident where it fits. -/
def Sys2Proof.Machine.LaunchRules : Prop :=
  (∀ s v q p u, v = s.arg 0 → q = s.arg 1 → s.Serves v q 1 p → u = s.serving v q p → ((u.vf v).queue q).gated = false → (u.vf v).funded = true →
    (u.part (u.vf v).tag).reshaping = false →
    u.frontWaits v q ([(field p 312 256, 8 * min 4096 (field p 92 80)), (field p 376 320, 8 * field p 123 115)] ++
      (if field p 504 448 = 0 then [] else [(field p 504 448, 512)])) = none →
    (∀ c, u.checkLaunch v q p = .error c → exec .launch s = .next (u.complete v q c 1 0)) ∧
    ∀ l core, u.checkLaunch v q p = .ok (l, core) → (u.outranked v q = true → exec .launch s = .next u) ∧ (u.outranked v q = false → exec .launch s = .next ((({ u with
        nextId := u.nextId + 1, launches := SMap.put u.launches u.nextId l } : State).updQueue v q fun k => { k with launch := u.nextId }).acceptBlock
      { launch := u.nextId, groups := l.groups, vregs := l.vregs, spsize := l.spbytes, core := core, entry := l.kernel, args := l.args }))) ∧
  (∀ s j r, s.job? (s.arg 0) = some j → j.kind = 8 → (s.part (s.launch j.launch).tag).reshaping = false → s.asyncDone j.ctx j.after = true →
    s.engStruct j j.opA 32 32 s.ev.bytes = .ok r → field r 143 128 ≤ field r 191 176 → field r 159 144 ≤ field r 207 192 → field r 175 160 ≤ field r 223 208 →
    (field r 191 176 - field r 143 128 + 1) * (field r 207 192 - field r 159 144 + 1) * (field r 223 208 - field r 175 160 + 1) ≤ 2 ^ 24 →
    ∀ a u, a = s.spawnBox j r → (a.1.structPackets j j.opA 32 32).failList j a.2.2 = some u →
      exec .spawnAccept s = .next (u.1.endJob j (spawnStatus a.2.1 a.2.2.length (a.2.2.headD (0, 0)).2 u.2)) ∧
      ∀ l x y z core, l = s.launch j.launch → x = field r 143 128 → y = field r 159 144 → z = field r 175 160 →
        field r 191 176 = x → field r 207 192 = y → field r 223 208 = z → field r 255 230 = 0 → r.testBit 0 = false →
        s.spawnCause l (field r 226 224 + 1) ((field r 229 227 + 1) * 8) x y z = 0 → s.coreFor l.tag l.places (linearIndex l x y z) = some core →
        a = (s.acceptBlock { launch := j.launch, b := linearIndex l x y z, bx := x, bY := y, bz := z, groups := field r 226 224 + 1
                             vregs := (field r 229 227 + 1) * 8, spsize := l.spbytes, core := core, entry := BitVec.ofNat 64 (field r 63 0)
                             args := BitVec.ofNat 64 (field r 127 64) }, 1, [])) ∧
  ∀ s c, c = s.arg 0 → s.coreFailed c = false →
    (∀ id b t, s.nextStopped c = some id → b = s.block id → s.coreFor (s.launch b.launch).tag (s.launch b.launch).places b.b = some b.core →
      s.reenterBlock id = some t → exec .blockResident s = .next t) ∧
    ∀ id b seat, s.nextStopped c = none → (s.core c).pending.find? s.blockRuns = some id → b = s.block id →
      ((s.launch b.launch).seq = 0 ∨ (s.core c).engine.holder = 0 ∧ (s.core c).engine.retained = false) →
      s.seatFresh c b.groups b.vregs b.spsize = some seat → exec .blockResident s = .next (s.enterBlock id seat)

/-- Where what a clause names holds, and as it says: a matrix operation starts, loads, reads and writes rows, ends, and stops (R233, R235, R238 to R247,
R260, R262); a LAUNCH is rejected or makes its first block, a spawn record's blocks are accepted, and a block becomes resident or re-enters (R143, R147, R151, R181). -/
def Obligations.MatrixLaunchEvents : Prop := MatrixRules ∧ LaunchRules

/-- R394 to R405: a flit that is accepted joins the flits held of its device, which are applied in order; an acknowledgement follows. A flit that is not
accepted is counted, and refused once. Answers, key switches, training and failover do what their registers and buffers show. -/
def Sys2Proof.Machine.LinkRules : Prop :=
  (∀ e ∈ [(Instr.write, 1), (.forward, 1), (.readreq, 2), (.atomic, 4), (.reduce, 5), (.stamp, 6), (.chunk, 10)], ∀ s n f pl, s.Arrives n e.2 f pl →
    (e.2 = 1 → (e.1 = .forward ↔ (orderingOf pl).app ≠ 0)) →
    exec e.1 s = .next ((((s.taking n).updPeer (s.port n).peer fun p => { p with
      held := p.held ++ [{ ftype := e.2, home := s.arg 2, sdev := f.sdev, ptag := f.ptag, payload := pl }] }).drainAll).portReply n 8 f.seq)) ∧
  (∀ s n f pl u a, s.Arrives n 3 f pl → (∀ i, i < 32 → i ≠ s.module.devId → bytesNat ((pl.drop (80 + 4 * i)).take 4) = 0) →
    ((s.taking n).peer (s.port n).peer).asks.find? (fun a => a.ident == bytesNat (pl.take 8)) = some a →
    u = (s.taking n).updPeer (s.port n).peer (fun p => { p with asks := p.asks.erase a }) →
    exec .readrsp s = .next (((if a.kind = 1 ∧ bytesNat ((pl.drop 8).take 8) = 0 ∧ (a.who < 2 ^ 40 ∨ 2 ^ 42 ≤ a.who) then
        { u with copies := SMap.put u.copies (a.addr / 64) (BitVec.ofNat 512 (bytesNat ((pl.drop 16).take 64))) } else u).answered a
      (bytesNat ((pl.drop 8).take 8)) ((pl.drop 16).take 64)).portReply n 8 f.seq)) ∧
  (∀ s n f pl sp, s.Arrives n 7 f pl → sp = bytesNat (pl.take 4) →
    ((s.port n).take.rswitch = none → sp ≠ f.seq → notBehind sp f.seq = true → notBehind ((f.seq + 256) % 2 ^ 32) sp = true →
      exec .marker s = .next (((s.taking n).updPort n fun p => { p with rswitch := some sp }).portReply n 8 f.seq)) ∧
    ((s.port n).take.rswitch ≠ none → exec .marker s = .next (((s.taking n).updPort n fun p => { p with authfail := p.authfail + 1 }).portReply n 8 f.seq))) ∧
  (∀ s n f pl, s.Arrives n 8 f pl →
    exec .ack s = .next (((((s.taking n).updPort n fun p => p.acked (bytesNat (pl.take 4))).sendWaiting (s.port n).peer)).payOwed)) ∧
  (∀ s n f pl k p, s.Arrives n 9 f pl → k = bytesNat (pl.take 4) → p = ((s.port n).take).acked ((k + 2 ^ 32 - 1) % 2 ^ 32) →
    (p.replay = [] → exec .nak s = .next ((s.taking n).updPort n fun _ => p)) ∧
    (p.replay ≠ [] → p.resent = 16 → exec .nak s = .next (((s.taking n).updPort n fun _ => { p with down := true }).failOver (s.port n).peer)) ∧
    (p.replay ≠ [] → p.resent ≠ 16 → exec .nak s = .next ((s.taking n).updPort n fun _ =>
      { p with resent := p.resent + 1, retry := p.retry + BitVec.ofNat 64 p.replay.length }))) ∧
  (∀ s n f pl, s.Arrives n 11 f pl → f.ptag = 0 →
    (s.arg 2 = 1 → exec .mgmt s = .next (((s.taking n).updPort n fun p => p.loadNext (s.ev.bytes.drop 256)).portReply n 8 f.seq)) ∧
    (s.arg 2 = 2 → exec .mgmt s = .next ((((s.taking n).forgetPeer (s.port n).peer).payOwed).portReply n 8 f.seq)) ∧
    (s.arg 2 = 3 → exec .mgmt s = .next (((s.taking n).updPeer (s.port n).peer fun p =>
      { p with records := p.records.filter fun r => !(r.1 == s.arg 3 && r.2.1 == s.arg 4) }).portReply n 8 f.seq))) ∧
  (∀ s n, n = s.arg 0 → n < 64 → (s.port n).up = true →
    ((s.port n).fate (s.arg 1 == 1) (flitOf s.ev.bytes) = .crc →
      exec .discardedFlit s = .next ((s.updPort n fun p => { p with crcfail := p.crcfail + 1 }).nak n)) ∧
    ((s.port n).fate (s.arg 1 == 1) (flitOf s.ev.bytes) = .auth →
      exec .discardedFlit s = .next ((s.updPort n fun p => { p with authfail := p.authfail + 1 }).nak n)) ∧
    ((s.port n).fate (s.arg 1 == 1) (flitOf s.ev.bytes) = .bad → exec .discardedFlit s = .next (s.nak n)) ∧
    ((s.port n).fate (s.arg 1 == 1) (flitOf s.ev.bytes) = .again → exec .discardedFlit s = .next (s.portReply n 8 ((s.port n).rxseq - 1).toNat))) ∧
  (∀ s n p, n = s.arg 0 → n < 64 → p = s.port n → p.up = true → p.markerDue = true →
    (p.nextld = false → exec .keySwitchThreshold s = .next (s.updPort n fun _ => { p with keywait := true })) ∧
    (p.nextld = true → p.replay.length < 512 → exec .keySwitchThreshold s = .next (s.updPort n fun _ => p.mark s.module.devId))) ∧
  (∀ s d p, d = s.arg 0 → s.orderedPort d = some p → (s.port p).ready = true → s.orderHeld d p = false →
    exec .stampTimer s = .next ((s.updPort p fun x => x.send { ftype := 6, sdev := s.module.devId, payload := s.stampBytes }).updPeer d fun p =>
      { p with stamped := (List.range 32).zip s.knowledge })) ∧
  (∀ s n p, n = s.arg 0 → p = s.port n → n < 64 → p.up = false → p.ctl.getLsbD 0 = true → p.peer = s.arg 2 → s.arg 1 < 32 →
    exec .linkTraining s = .next ((s.updModule fun m => { m with devId := s.arg 1 }).updPort n fun _ =>
      { ctl := p.ctl, up := true, retry := p.retry, authfail := p.authfail, crcfail := p.crcfail
        keys := [(0, BitVec.ofNat 288 (bytesNat (s.ev.bytes.take 36))), (2, BitVec.ofNat 288 (bytesNat ((s.ev.bytes.drop 36).take 36)))] })) ∧
  ∀ s n p k, n = s.arg 0 → p = s.port n → n < 64 → p.ctl.getLsbD 0 = true → (p.down = true ∨ p.up = false) → SMap.find p.keys p.ks.toNat = some k →
    s.portsTo p.peer ≠ [] → exec .linkUp s = .next (s.updPort n fun _ =>
      { p with up := true, down := false, resent := 0, retry := p.retry + BitVec.ofNat 64 p.replay.length })

/-- R407: a move asked for here ends with the code of Table 22-6's status, gives the page away, or brings it here; `XD_UNPIN` clears `PIN` and `MOVES`. -/
def Sys2Proof.Machine.MoveRules : Prop :=
  (∀ s tag v page, s.arg 0 = 0 → tag = s.arg 1 → (s.part tag).xdRunning = some v → page = field v.toNat 56 16 →
    ((∃ l e h, s.walk (s.part tag) (page * 65536) = .leaf l e h ∧ e.testBit 0 = true) →
      exec .xdMove s = .next (s.updPart tag fun p => { p with xdRunning := none, xdMstat := 4 })) ∧
    ((∀ l e h, s.walk (s.part tag) (page * 65536) = .leaf l e h → e.testBit 0 = false) → (∀ t ∈ (s.part tag).tlb, ¬(t.lvl = 0 ∧ t.inRange page 1 = true)) →
      (s.pageEntry tag page = none → exec .xdMove s = .next (s.updPart tag fun p => { p with xdRunning := none, xdMstat := 2 })) ∧
      ∀ k e, s.pageEntry tag page = some (k, e) → e.moves ≠ 4 →
        (s.arg 2 ≠ 1 → exec .xdMove s = .next (s.updPart tag fun p => { p with xdRunning := none, xdMstat := 3 })) ∧
        (s.arg 2 = 1 → k < 2 ^ 20 → exec .xdMove s = .next (((s.flushCopies k).setExport k
          { e with loc := field v.toNat 4 0, frame := s.arg 3 % 2 ^ 26, moves := e.moves + 1 }).updPart tag fun p => { p with xdRunning := none, xdMstat := 0 })))) ∧
  (∀ s e, s.arg 0 = 1 → SMap.find s.exports (s.arg 1) = some e → s.arg 1 < 65536 → e.loc ≠ s.module.devId →
    (e.moves ≠ 4 → exec .xdMove s = .next (s.setExport (s.arg 1) { e with loc := s.arg 2 % 32, frame := s.arg 3 % 2 ^ 26, moves := e.moves + 1 })) ∧
    (e.moves = 4 → e.pin = true → exec .xdMove s = .next (s.setExport (s.arg 1) { e with pin := true })) ∧
    (e.moves = 4 → e.pin = false → exec .xdMove s = .next ((s.setExport (s.arg 1) { e with pin := true }).updPart e.otag fun p =>
      { p with xdPinned := if p.xdPinned = BitVec.allOnes 32 then p.xdPinned else p.xdPinned + 1 }))) ∧
  ∀ s tag k e, tag = s.arg 0 → s.pageEntry tag (field (s.arg 1) 56 16) = some (k, e) →
    exec .xdUnpin s = .next (if e.pin then (s.setExport k { e with pin := false, moves := 0 }).updPart tag fun p =>
      { p with xdPinned := if p.xdPinned = 0 then 0 else p.xdPinned - 1 } else s.setExport k { e with pin := false, moves := 0 })

/-- Where what a clause names holds, and as it says: an accepted flit of each type has its effect, one that is not accepted is counted and refused, a marker is sent,
a stamp, a link trains and is up again (R394 to R405), and a page moves and is unpinned (R407). -/
def Obligations.LinkEvents : Prop := LinkRules ∧ MoveRules

/-- R416: a partition is created with its tiles and granules, or refused with the reason of Table 23-5; destroyed, nothing of it is left. Granules join
above the highest backed one, and a range that is backed and no part of the ephemeris leaves. -/
def Sys2Proof.Machine.PartitionCommands : Prop :=
  (∀ s a tag tiles, s.Commands 1 a → tag = field a 6 0 → tiles = (List.range (field a 31 16)).map (fun i => tileOfWord (s.module.mb (16 + 2 * i) 2)) →
    (tag = 0 ∨ 64 < tag ∨ s.isPart tag = true → exec .partCreate s = .next (s.mbReject 1)) ∧
    (0 < tag → tag ≤ 64 → s.isPart tag = false →
      ((∃ t ∈ tiles, 648 ≤ t ∨ (s.tile t).owner ≠ 0 ∨ (s.tile t).degraded = true) → exec .partCreate s = .next (s.mbReject 2)) ∧
      ((∀ t ∈ tiles, t < 648 ∧ (s.tile t).owner = 0 ∧ (s.tile t).degraded = false ∧ (s.fld (fieldOfTile t)).degraded = false) →
        (dedup tiles).length = tiles.length →
        (connected (sortNat tiles) = false → exec .partCreate s = .next (s.mbReject 3)) ∧
        (connected (sortNat tiles) = true → s.takeGranules (s.ev.args.drop 5) (field a 63 32 + 1) = none → exec .partCreate s = .next (s.mbReject 4)) ∧
        ∀ gs u, connected (sortNat tiles) = true → s.takeGranules (s.ev.args.drop 5) (field a 63 32 + 1) = some gs →
          u = s.createPart tag (field a 63 32) tiles gs (s.arg 0) ((s.ev.args.drop 1).take 4) →
          exec .partCreate s = .next (u.mbDone (natBytes 8 (u.part tag).ephBase.toNat ++ natBytes 4 (u.part tag).ephSize.toNat))))) ∧
  (∀ s a tag, s.Commands 2 a → tag = field a 6 0 →
    (s.isPart tag = false → exec .partDestroy s = .next (s.mbReject 1)) ∧
    (s.isPart tag = true → (∃ l ∈ (s.endPartLaunches tag).launches, l.2.tag = tag) → exec .partDestroy s = .next (s.endPartLaunches tag)) ∧
    (s.isPart tag = true → (∀ l ∈ (s.endPartLaunches tag).launches, l.2.tag ≠ tag) → ∃ t, exec .partDestroy s = .next t ∧ SMap.find t.parts tag = none ∧ (∀ e ∈ t.exports, e.2.otag ≠ tag) ∧
      (∀ w ∈ t.walks, w.2.tag ≠ tag) ∧ (∀ i ∈ t.inval, i.tag ≠ tag) ∧ t.module.mbGo = false ∧ t.module.mbStatus = 0)) ∧
  (∀ s a tag n, s.Commands 5 a → tag = field a 6 0 → n = (s.part tag).nextGran →
    (s.isPart tag = false → exec .granAdd s = .next (s.mbReject 1)) ∧
    (s.isPart tag = true → s.takeGranules s.ev.args (field a 63 32) = none → exec .granAdd s = .next (s.mbReject 4)) ∧
    ∀ gs, s.isPart tag = true → s.takeGranules s.ev.args (field a 63 32) = some gs → exec .granAdd s = .next ((s.backGranules tag n gs).mbDone (natBytes 4 n))) ∧
  ∀ s a tag first count gs, s.Commands 6 a → tag = field a 6 0 → count = field a 63 32 → first = s.module.mb 16 8 →
    gs = (s.part tag).grans.filter (fun g => decide (first ≤ g.1) && decide (g.1 < first + count)) →
    (s.isPart tag = false → exec .granRelease s = .next (s.mbReject 1)) ∧
    (s.isPart tag = true → gs.length ≠ count → exec .granRelease s = .next (s.mbReject 2)) ∧
    (s.isPart tag = true → gs.length = count → (∃ g ∈ gs, (s.part tag).ephBase.toNat / 2 ^ 21 ≤ g.1 ∧
      g.1 ≤ ((s.part tag).ephBase.toNat + (s.part tag).ephSize.toNat - 1) / 2 ^ 21) → exec .granRelease s = .next (s.mbReject 3)) ∧
    (s.isPart tag = true → gs.length = count → (∀ g ∈ gs, g.1 < (s.part tag).ephBase.toNat / 2 ^ 21 ∨
      ((s.part tag).ephBase.toNat + (s.part tag).ephSize.toNat - 1) / 2 ^ 21 < g.1) →
      exec .granRelease s = .next ((((gs.filter fun g => !g.2.shr).foldl (fun s g => s.releaseGranule g.2.dev) s).updPart tag fun p =>
        { p with grans := p.grans.filter fun g => !(decide (first ≤ g.1) && decide (g.1 < first + count)) }).mbDone []))

/-- R367, R368, R416: a VF is bound to a partition and a port, and leaves it. -/
def Sys2Proof.Machine.FunctionCommands : Prop :=
  (∀ s a v tag p, s.Commands 3 a → v = field a 8 0 → tag = field a 22 16 → p = field a 26 24 → a.testBit 23 = false →
    ((s.vf v).tag ≠ 0 → exec .vfBind s = .next (s.mbReject 1)) ∧
    ((s.vf v).tag = 0 → tag ≠ 0 → 8 ≤ (s.vfs.filter fun x => x.2.tag == tag).length → exec .vfBind s = .next (s.mbReject 2)) ∧
    ((s.vf v).tag = 0 → tag ≠ 0 → (s.vfs.filter fun x => x.2.tag == tag).length < 8 →
      (64 ≤ s.portVfs p → exec .vfBind s = .next (s.mbReject 3)) ∧
      (s.portVfs p < 64 → s.isPart tag = false → exec .vfBind s = .next (s.mbReject 4)) ∧
      (s.portVfs p < 64 → s.isPart tag = true → exec .vfBind s = .next ((s.updVf v fun x => { x with tag := tag, port := p }).mbDone [BitVec.ofNat 8 p])))) ∧
  ∀ s a v, s.Commands 4 a → v = field a 8 0 →
    ((∃ q ∈ (s.vf v).queues, q.2.launch ≠ 0) → exec .vfUnbind s = .next (s.mbReject 1)) ∧
    ((∀ q ∈ (s.vf v).queues, q.2.launch = 0) →
      ((s.vf v).tag = 0 → exec .vfUnbind s = .next (s.mbReject 2)) ∧
      ((s.vf v).tag ≠ 0 → (s.vf v).locked = false → exec .vfUnbind s = .next ((s.unbindVf v).mbDone [])) ∧
      ((s.vf v).tag ≠ 0 → (s.vf v).locked = true → exec .vfUnbind s = .next (((s.vfError v).unbindVf v).mbDone [])))

/-- R377, R398, R416: pages exported and taken back, shared regions made and filled. -/
def Sys2Proof.Machine.SharingCommands : Prop :=
  (∀ s a idx tag va, s.Commands 8 a → idx = field a 19 0 → tag = field a 26 20 → va = s.module.mb 16 8 →
    (65536 ≤ idx ∨ (SMap.find s.exports idx).isSome = true → exec .exportPage s = .next (s.mbReject 1)) ∧
    (idx < 65536 → SMap.find s.exports idx = none → s.isPart tag = false → exec .exportPage s = .next (s.mbReject 3)) ∧
    (idx < 65536 → SMap.find s.exports idx = none → s.isPart tag = true → s.leafFrame tag va = none → exec .exportPage s = .next (s.mbReject 2)) ∧
    ∀ f, idx < 65536 → SMap.find s.exports idx = none → s.isPart tag = true → s.leafFrame tag va = some f →
      exec .exportPage s = .next ((s.setExport idx { wr := a.testBit 27, otag := tag, frame := f, loc := s.module.devId, vpage := field va 56 16
                                                     imps := (List.range 4).filterMap fun i => if field (s.module.mb (24 + 2 * i) 2) 11 5 = 0 then none
                                                       else some (field (s.module.mb (24 + 2 * i) 2) 4 0, field (s.module.mb (24 + 2 * i) 2) 11 5) }).mbDone [])) ∧
  (∀ s a idx, s.Commands 9 a → idx = field a 19 0 →
    (65536 ≤ idx ∨ SMap.find s.exports idx = none → exec .unexportPage s = .next (s.mbReject 1)) ∧
    ∀ e, idx < 65536 → SMap.find s.exports idx = some e → exec .unexportPage s = .next ({ s.flushCopies idx with exports := SMap.del s.exports idx }.mbDone [])) ∧
  (∀ s a members, s.Commands 10 a → members = ((List.range 64).filter fun i => a.testBit i).map (· + 1) →
    ((∃ t ∈ members, s.isPart t = false ∨ (s.part t).region ≠ 0) → exec .sharedCreate s = .next (s.mbReject 1)) ∧
    ((∀ t ∈ members, s.isPart t = true ∧ (s.part t).region = 0) →
      (s.takeGranules s.ev.args (s.module.mb 16 4) = none → exec .sharedCreate s = .next (s.mbReject 4)) ∧
      ∀ gs, s.takeGranules s.ev.args (s.module.mb 16 4) = some gs → ∃ t num r, exec .sharedCreate s = .next t ∧ SMap.find t.regions num = some r ∧
        r.members = members ∧ r.grans = gs.map (fun g => (g / 32768, g % 32768)) ∧ r.key = Config.freeKey s.oracle ∧ t.oracle = s.oracle + 1)) ∧
  ∀ s a off len hpa, s.Commands 11 a → off = s.module.mb 16 8 → len = s.module.mb 24 4 → hpa = s.module.mb 32 8 →
    (SMap.find s.regions (field a 31 0) = none → exec .sharedFill s = .next (s.mbReject 1)) ∧
    ∀ r, SMap.find s.regions (field a 31 0) = some r →
      (r.grans.length * 2 ^ 21 < off + len ∨ s.arg 0 = 1 → exec .sharedFill s = .next (s.mbReject 2)) ∧
      (off + len ≤ r.grans.length * 2 ^ 21 → s.arg 0 ≠ 1 → ∀ cells, cells = (List.range len).map (fun i =>
          ((⟨0, hbmKey (r.grans.getD ((off + i) / 2 ^ 21) (0, 0)).1 ((r.grans.getD ((off + i) / 2 ^ 21) (0, 0)).2 * 32 + (off + i) / 65536 % 32) ((off + i) % 65536)⟩ : Loc),
            s.readByte ⟨5, hpa + i⟩)) →
        exec .sharedFill s = .next (((s.writeAll cells).clearPoison (cells.map Prod.fst)).mbDone []))

/-- R375, R400, R416: a device is forgotten, a fuse counter rises, the grant slots of fields are set, a port is set up. -/
def Sys2Proof.Machine.ModuleCommands : Prop :=
  (∀ s a d, s.Commands 12 a → d = field a 4 0 →
    (d = s.module.devId → exec .devForget s = .next (s.mbReject 1)) ∧
    (d ≠ s.module.devId → (SMap.find s.peers d).isSome = true → exec .devForget s = .next ((s.forgetPeer d).payOwed.mbDone []))) ∧
  (∀ s a c n, s.Commands 13 a → c = field a 1 0 → n = max (SMap.get 0 s.module.fuses c) (SMap.get 0 s.module.svns c) →
    exec .rollbackCommit s = .next ((s.updModule fun m => { m with fuses := SMap.set 0 m.fuses c n }).mbDone [BitVec.ofNat 8 n])) ∧
  (∀ s a f n, s.Commands 14 a → f = field a 7 0 → n = field a 11 8 →
    (f < 72 → (s.fld f).degraded = true → exec .setHeadroom s = .next (s.mbReject 1)) ∧
    (f < 72 → (s.fld f).degraded = false → 9 < n → exec .setHeadroom s = .next (s.mbReject 2)) ∧
    (f < 72 → (s.fld f).degraded = false → n ≤ 9 → exec .setHeadroom s = .next ((s.writePower 0 f n).mbDone [])) ∧
    (f = 255 → n ≤ 9 → exec .setHeadroom s = .next
      (((((List.range 72).filter fun f => !(s.fld f).degraded).foldl (fun s f => s.writePower 0 f n) s)).mbDone []))) ∧
  ∀ s a p d, s.Commands 15 a → p = field a 5 0 → d = field a 11 7 →
    (a.testBit 12 = true → (∃ x ∈ s.ports, x.1 ≠ p ∧ x.2.ctl.getLsbD 6 = true ∧ x.2.peer = d) → exec .linkCtl s = .next (s.mbReject 1)) ∧
    (a.testBit 12 = false → exec .linkCtl s = .next ((s.writeLkCtl p ((a.testBit 6).toNat + d * 2)).mbDone []))

/-- R384 to R391: a reshape that passes the checks of Table 21-8 begins, and its nine steps follow as what each waits for has ended, and a publication ends; a dirty group that
does not stop ends its launch; the scrubber clears the granule whose turn it is. -/
def Sys2Proof.Machine.ReshapeRules : Prop :=
  (∀ s a tag, s.Commands 7 a → tag = field a 6 0 →
    (s.isPart tag = false → exec .reshape s = .next (s.mbReject 5)) ∧
    (s.isPart tag = true → field a 10 8 = 0 ∨ 4 < field a 10 8 → exec .reshape s = .next (s.mbReject 6)) ∧
    (s.isPart tag = true → 0 < field a 10 8 → field a 10 8 ≤ 4 → (s.part tag).reshape = none → ∀ r, r = State.readReshape s.module (s.part tag) a →
      (s.reshapeBad tag r.1 r.2 = 0 → exec .reshape s = .next (s.beginReshape tag r.1)) ∧
      (s.reshapeBad tag r.1 r.2 ≠ 0 → exec .reshape s = .next (s.mbReject (s.reshapeBad tag r.1 r.2))))) ∧
  (∀ s flag, (s.part (s.arg 0)).pub = some flag → exec .reshapeStep s = .next (s.publishEnd (s.arg 0) flag (s.ev.args.drop 1))) ∧
  (∀ s tag r, tag = s.arg 0 → (s.part tag).pub = none → (s.part tag).reshape = some r →
    (r.step = 0 → exec .reshapeStep s = .next (((s.updPart tag fun p => { p with reshaping := true }).publish tag true).setStep tag 1)) ∧
    (r.step = 1 → exec .reshapeStep s = .next ((s.quiesce tag).setStep tag 2)) ∧
    (r.step = 2 → ((∃ b ∈ s.partBlocks tag, b.2.st = .resident) → exec .reshapeStep s = .next s) ∧
      ((∀ b ∈ s.partBlocks tag, b.2.st ≠ .resident) → exec .reshapeStep s = .next
        ({ s with jobs := s.jobs.map fun (j : Job) => if s.partJob tag j = true then { j with suspended := true } else j }.setStep tag 3))) ∧
    (r.step = 3 → (∀ j ∈ s.jobs, s.partJob tag j = true → (∀ k ∈ j.flight, (SMap.find j.data k).isSome = true) ∧ j.cells = []) →
      exec .reshapeStep s = .next (s.setStep tag 4)) ∧
    (r.step = 4 → s.trafficOf tag r = false → exec .reshapeStep s = .next
      (((((r.added.foldl (fun s t => if (s.tile t).owner = 0 then s.zeroTile t else s) s).moveBlocks tag r).movePending tag r).moveQz
        (((r.added.foldl (fun s t => if (s.tile t).owner = 0 then s.zeroTile t else s) s).part tag).tiles ++ r.added)).setStep tag 5)) ∧
    (r.step = 5 → exec .reshapeStep s = .next (((s.part tag).cores.foldl (fun s c => s.updCore c fun k => { k with l1 := [] }) s).setStep tag 6)) ∧
    (r.step = 6 → exec .reshapeStep s = .next ((s.rewrite tag r).setStep tag 7)) ∧
    (r.step = 7 → exec .reshapeStep s = .next (((s.newPlate tag).publish tag false).setStep tag 8)) ∧
    (r.step = 8 → exec .reshapeStep s = .next (if r.byMailbox = true
      then ((s.reshapeRecord tag).resumeAll tag).mbFinish 0 0 (natBytes 8 (((s.reshapeRecord tag).resumeAll tag).part tag).pgen.toNat)
      else (s.reshapeRecord tag).resumeAll tag))) ∧
  (∀ s c r, s.ctx? (s.arg 0) = some c → (s.part (s.launch c.launch).tag).reshape = some r → r.step = 2 → c.isGroup = true → c.preempt = true →
    (c.dirty = true ∨ c.smode = true) → exec .reshapeDirtyTimeout s = .next (s.endLaunch c.launch)) ∧
  ∀ s g base, g = s.arg 0 → g < granuleCount → (s.gran g).zp = true → s.scrubTurn g = true → base = g / 32768 * 2 ^ 36 + g % 32768 * 2 ^ 21 →
    ∃ t, exec .scrubGranule s = .next t ∧ (t.gran g).zp = false ∧ (t.gran g).unscrubbed = 0 ∧ (t.gran g).demanded = 0 ∧
      ∀ c, c ∈ t.hbm ↔ c ∈ s.hbm ∧ ¬(base ≤ c.1 ∧ c.1 < base + 2 ^ 21 ∧ (s.gran g).unscrubbed.getLsbD (c.1 % 2 ^ 21 / 128) = true)

/-- Where what a clause names holds, and as it says: the commands of the mailbox end with their effect or with their reason (Table 23-5, R367, R375, R377, R398,
R416), a reshape is refused or goes through its steps (R385, R386), a group that does not stop ends its launch, and a granule is scrubbed (R391). -/
def Obligations.MailboxEvents : Prop := PartitionCommands ∧ FunctionCommands ∧ SharingCommands ∧ ModuleCommands ∧ ReshapeRules

/-- R313 to R317: a core that fails gives its row the spare, or is lost; the wave moves the next core one position; a lost tile and its retire event;
the answers to the event, and the answer given for a host that gives none. -/
def Sys2Proof.Machine.FailureRules : Prop :=
  (∀ s t row f, t = s.arg 0 → row = s.arg 1 → f = s.arg 2 → t < 648 → row < 2 → f < 9 →
    ((s.tile t).spare row = 0 →
      (f = 8 → exec .coreFailure s = .next (s.updTile t fun x => x.setRow row 2 none)) ∧
      ∀ u, f < 8 → u = s.updTile t (fun x => x.setRow row 1 (some (f, 7))) →
        (u.coreAtPos t row f = none → exec .coreFailure s = .next u) ∧
        ∀ c, u.coreAtPos t row f = some c → exec .coreFailure s = .next (u.stopFailed c)) ∧
    (∀ p, (s.tile t).spare row = 1 → (s.tile t).fail row = some p →
      (∀ hit late, s.coreAtPos t row f = some hit → s.coreAtPos t row p.1 = some late →
        exec .coreFailure s = .next (((s.coreLost hit).coreLost late).updTile t fun x => x.setRow row 2 none))) ∧
    (2 ≤ (s.tile t).spare row → ∀ c, s.coreAtPos t row f = some c → exec .coreFailure s = .next (s.coreLost c))) ∧
  (∀ s t row f p, t = s.arg 0 → row = s.arg 1 → row < 2 → (s.tile t).fail row = some (f, p) →
    (∀ c, s.coreAtPos t row p = some c → exec .remapWaveStep s = .next (((s.waveStop c).updCore c fun k => { k with pos := p + 1, l1 := [] }).updTile t fun x =>
      x.setRow row 1 (if p ≤ f then none else some (f, p - 1)))) ∧
    (s.coreAtPos t row p = none → exec .remapWaveStep s = .next (s.updTile t fun x => x.setRow row 1 (if p ≤ f then none else some (f, p - 1))))) ∧
  (∀ s t, t = s.arg 0 → t < 648 → (s.tile t).degraded = false → exec .tileFailure s = .next (s.tileLost t (s.ev.args.drop 1))) ∧
  ∀ s tag r k, tag = s.arg 0 → (s.part tag).retire = some r → (s.part tag).reshape = none → k = (s.part tag).retireAns →
    (k = 1 → exec .retireShrink s = .next (s.retireShrink tag r)) ∧
    (k = 0 → exec .retireTimeout s = .next (s.retireShrink tag r)) ∧
    (k = 3 → exec .retireAbort s = .next ((s.endPartLaunches tag).retireShrink tag r)) ∧
    (k = 2 → exec .retireRemap s = .next (s.retireRemap tag r ((s.ev.args.drop 1).take 1)) ∧
      (s.remapTile tag (tileOfCore r.ecore) ((s.ev.args.drop 1).take 1) = none → exec .retireRemap s = .next (s.retireShrink tag r)))

/-- R337, R338, R350 to R359, R409: a boundary of a boost interval, a sensor's reading, a field's sample, a tick, a period, a slice, and the registers of the
power controls and of the photometer. -/
def Sys2Proof.Machine.PowerRules : Prop :=
  (∀ s t u, s.ev.args = [t] → t < 648 → (s.tile t).owner ≠ 0 → (s.tile t).gated = false →
    u = iterate (fun _ s => s.grantOne (fieldOfTile t) (((s.closeInterval t).1.fld (fieldOfTile t)).grants + 1) [t]) 9 0 (s.closeInterval t).1 →
    ∃ w, exec .boostIntervalBoundary s = .next w ∧ ∀ c ∈ coresOf t, (w.core c).steps = 0 ∧ (w.core c).stalled = 0 ∧ (w.core c).boosted = false) ∧
  (∀ s t i v, t = s.arg 0 → (s.tile t).owner ≠ 0 → (s.tile t).gated = false → i < 16 → s.ev.args[i + 1]? = some v →
    ∃ u, exec .sensorRead s = .next u ∧ SMap.find (u.tile t).temps i = some (BitVec.ofInt 16 (max (-640) (min 2400 (signedNat 16 v))))) ∧
  (∀ s f a x, f = s.arg 0 → a = s.arg 1 → x = s.fld f → f < 72 →
    (zenValid x.zen = true → s.module.thermCrit.toInt ≤ zenTemp x.zen → ∃ t, exec .fieldCurrentSample s = .next t ∧ t.module.cause = 4 ∧ t.parts = []) ∧
    ((zenValid x.zen = false ∨ zenTemp x.zen < s.module.thermCrit.toInt) → ∃ t, exec .fieldCurrentSample s = .next t ∧
      (t.fld f).current = a % 2 ^ 12 ∧ ((t.fld f).noGrant = true ↔ 95 * x.ilim ≤ 100 * a) ∧
      ((x.ilim < a ∨ zenValid x.zen = true ∧ s.module.thermHot.toInt ≤ zenTemp x.zen) → (t.fld f).throttled = true) ∧
      (x.throttled = false → a ≤ x.ilim → (zenValid x.zen = false ∨ zenTemp x.zen < s.module.thermHot.toInt) → (t.fld f).throttled = false))) ∧
  (∀ s, s.module.ticks < 1000 → ∃ t, exec .transitTick s = .next t ∧ t.module.ticks = s.module.ticks + 1 ∧ (∀ c, (t.core c).issuedTick = []) ∧
    t.module.domeTimer = s.module.domeTimer + Config.freeWord (Nat.pair s.oracle 218)) ∧
  (∀ s u, 1000 ≤ s.module.ticks → u = (s.vfs.map Prod.fst).foldl (fun s v => s.updVf v fun x => { x with
      tLeft := floorLeft (x.tBudget.toNat + min x.tLeft 0), eLeft := floorLeft (1000 * (x.eBudget.toNat : Int) + min x.eLeft 0) })
        (s.updModule fun m => { m with ticks := 0 }) →
    exec .periodBoundary s = .next ((s.vfs.map Prod.fst).foldl (fun s v => if (s.vf v).funded = true then s.updVf v fun x =>
      { x with stopped := false, queues := x.queues.map fun (q : Nat × Queue) => (q.1, { q.2 with gated := false }) } else s.sliceEnd v) u)) ∧
  (∀ s v, v = s.arg 0 → s.module.ticks % max 1 (s.vf v).slice = 0 → s.module.ticks ≠ 0 → s.module.ticks < 1000 →
    ((s.vf v).funded = true → exec .sliceEnd s = .next s) ∧
    ∀ bs, (s.vf v).tag ≠ 0 → (s.vf v).funded = false → bs = (s.blocks.filter fun b => (s.launch b.2.launch).vf == v && b.2.st == .resident &&
        (SMap.find s.launches b.2.launch).isSome && !(s.allCtxs.any fun c => c.block == b.1 && c.kind != .none && (c.preempt || c.stopped))).map Prod.fst →
      bs ≠ [] → exec .sliceEnd s = .next ((bs.foldl State.requestPreempt s).updVf v fun x => { x with stopped := true, preempts := x.preempts + 1 })) ∧
  (∀ s v k n, v = s.arg 0 → k = s.arg 1 → n = s.arg 2 % 65536 → k < 4 → (s.vf v).tag ≠ 0 → (s.vf v).tdi ≠ 3 → ∃ t, exec .powerControlWrite s = .next t ∧
    (t.vf v).control k = BitVec.ofNat 32 (min (max n (field ((s.vf v).range k).toNat 15 0)) (field ((s.vf v).range k).toNat 31 16)) ∧ (t.vf v).range k = (s.vf v).range k) ∧
  (∀ s v k n, v = s.arg 0 → k = s.arg 1 → n = s.arg 2 → k < 4 → (s.vf v).tag ≠ 0 → (s.vf v).tdi ≠ 3 → ∃ t, exec .powerRangeWrite s = .next t ∧
    (t.vf v).range k = BitVec.ofNat 32 (min (max (field n 15 0) (controlLimits k).1) (controlLimits k).2 +
      min (max (field n 31 16) (controlLimits k).1) (controlLimits k).2 * 65536) ∧ (t.vf v).clamps = (s.vf v).clamps) ∧
  ∀ s, (s.arg 0 = 1 → s.arg 2 = 1 → ∃ t, exec .energyLoRead s = .next t ∧ (t.vf (s.arg 1)).shadowH = (s.vf (s.arg 1)).acc.extractLsb' 32 32 ∧
      (t.vf (s.arg 1)).acc = (s.vf (s.arg 1)).acc) ∧
    (s.arg 0 = 1 → s.arg 2 = 2 → ∃ t, exec .energyLoRead s = .next t ∧ (t.vf (s.arg 1)).shadowM = (s.vf (s.arg 1)).acc.extractLsb' 32 32) ∧
    ∀ p, s.arg 0 = 0 → s.arg 2 = 0 → SMap.find s.parts (s.arg 1) = some p →
      exec .energyLoRead s = .next (s.setPart (s.arg 1) { p with phShadowS := p.phAcc.extractLsb' 32 32 })

/-- R329 to R336: a host's writes to a queue's registers, and the packets a queue serves. -/
def Sys2Proof.Machine.QueueRules : Prop :=
  (∀ s v q k, v = s.arg 0 → q = s.arg 1 → q < 8 → (s.vf v).tag ≠ 0 → (s.vf v).tdi ≠ 3 → k = (s.vf v).queue q →
    (∀ n, n = BitVec.ofNat 32 (s.arg 2) →
      (k.en = true → k.qsize ≠ 0 → 2 ^ k.qsize < (n - k.cons).toNat → k.launch = 0 → k.packet = none →
        exec .qProdWrite s = .next (s.updQueue v q fun _ => { k with prod := n, last := 14, run := false, halted := true })) ∧
      ((n - k.cons).toNat ≤ 2 ^ k.qsize → exec .qProdWrite s = .next (s.updQueue v q fun _ => { k with prod := n }))) ∧
    (s.arg 2 % 2 = 1 → k.en = false →
      (∀ t, (List.range 512).find? (fun t => !s.threadsUsed.contains t) = some t →
        exec .qCtlEn s = .next (s.updQueue v q fun _ => { k with en := true, thread := some t, nothread := false })) ∧
      ((List.range 512).find? (fun t => !s.threadsUsed.contains t) = none → exec .qCtlEn s = .next (s.updQueue v q fun _ => { k with nothread := true }))) ∧
    (s.arg 2 % 2 = 0 → k.en = true → k.launch ≠ 0 → exec .qCtlEn s = .next (s.updQueue v q fun _ => { k with closing := true })) ∧
    (s.arg 2 % 2 = 0 → k.en = true → k.launch = 0 →
      exec .qCtlEn s = .next (s.updQueue v q fun _ => { k with en := false, thread := none, packet := none, blocked := false, gated := false, ticks := 0 })) ∧
    (s.arg 2 % 2 = 1 → exec .qCtlRun s = .next ((s.updQueue v q fun _ => { k with run := true, halted := false }).writeRecord v q)) ∧
    (s.arg 2 % 2 = 0 → exec .qCtlRun s = .next (s.updQueue v q fun _ => { k with run := false })) ∧
    (s.arg 2 % 2 = 1 → k.launch ≠ 0 → exec .qCtlAbort s = .next (s.endLaunch k.launch)) ∧
    (s.arg 2 % 2 = 0 ∨ k.launch = 0 → exec .qCtlAbort s = .next s)) ∧
  (∀ s v q p u, v = s.arg 0 → q = s.arg 1 → s.Serves v q 2 p →
    u = (if ((s.vf v).queue q).blocked = true then s.serving v q p else
      (s.serving v q p).updQueue v q fun k => { k with blocked := true, ticks := field p 287 256, seen := 0 }) → field p 10 8 = 5 ∨ u.packetLocked? v p = false →
    ∀ e ∈ [(Instr.waitPacket, false), (.waitRecheck, false), (.waitTimeout, true)],
      (e.1 = .waitPacket ↔ ((s.vf v).queue q).blocked = false) → (e.1 = .waitTimeout ↔ ((s.vf v).queue q).blocked = true ∧ ((s.vf v).queue q).ticks = 0 ∧ field p 287 256 ≠ 0) →
      (u.waitRead v p = none → exec e.1 s = .next (u.complete v q 11 2 ((u.vf v).queue q).seen)) ∧
      (∀ n, u.waitRead v p = some (n, true) → exec e.1 s = .next (u.complete v q 0 2 (BitVec.ofNat 64 n))) ∧
      ∀ n, u.waitRead v p = some (n, false) → exec e.1 s = .next (if e.2 = true then u.complete v q 10 2 (BitVec.ofNat 64 n)
        else u.updQueue v q fun k => { k with seen := BitVec.ofNat 64 n })) ∧
  (∀ s v q p u, v = s.arg 0 → q = s.arg 1 → s.Serves v q 3 p → u = s.serving v q p → field p 9 8 = 2 → p.testBit 12 = false →
    exec .signalPacket s = .next ((u.queueIrq v q (p.testBit 11)).complete v q 0 3 0)) ∧
  (∀ s v q p u w l cells, v = s.arg 0 → q = s.arg 1 → s.Serves v q 3 p → u = s.serving v q p → field p 9 8 = 0 → p.testBit 12 = false →
    w = (if p.testBit 10 = true then 8 else 4) → cells = cellsFrom l (natBytes w (field p 191 128 % 2 ^ (8 * w))) →
    (u.packetWord v (field p 120 64) w .engineWrite = none → exec .signalPacket s = .next (u.complete v q 11 3 0)) ∧
    (u.packetWord v (field p 120 64) w .engineWrite = some l → l.tt ≠ 0 ∨ u.lineLocked (l.addr / 128) = false → u.frontTakes v { loc := l, home := 0 } = true →
      exec .signalPacket s = .next (((((u.writeAll cells).clearPoison (cells.map Prod.fst)).forwardWrites cells).queueIrq v q (p.testBit 11)).complete v q 0 3 0))) ∧
  (∀ s v q p, v = s.arg 0 → q = s.arg 1 → s.Serves v q 4 p →
    exec .markPacket s = .next ((s.serving v q p).complete v q 0 4 (BitVec.ofNat 64 (field p 127 64)))) ∧
  ∀ s v q p u l gen, v = s.arg 0 → q = s.arg 1 → s.Serves v q 5 p → u = s.serving v q p → l = ((u.vf v).queue (field p 10 8)).launch →
    gen = (u.part (u.vf v).tag).gen.toNat →
    (l = 0 → exec .reshapeAck s = .next (u.complete v q 13 5 0)) ∧
    (l ≠ 0 → gen < field p 127 64 ∨ gen % 2 = 1 → exec .reshapeAck s = .next u) ∧
    (l ≠ 0 → field p 127 64 ≤ gen → gen % 2 = 0 → field p 184 128 = 0 → exec .reshapeAck s = .next (u.complete v q 0 5 (BitVec.ofNat 64 gen))) ∧
    ∀ places, l ≠ 0 → field p 127 64 ≤ gen → gen % 2 = 0 → field p 184 128 ≠ 0 → u.frontWaits v q [(field p 184 128, 8 * min 4096 (field p 204 192))] = none →
      u.readPlaces v q (field p 184 128) (field p 204 192) = some places →
      (u.coreFor (u.vf v).tag places 0 = none → exec .reshapeAck s = .next (u.complete v q 4 5 (BitVec.ofNat 64 gen))) ∧
      ∀ c, u.coreFor (u.vf v).tag places 0 = some c →
        exec .reshapeAck s = .next ((u.updLaunch l fun k => { k with places := places }).complete v q 0 5 (BitVec.ofNat 64 gen))

/-- R5, R204, R369, R371, R410 to R414: writes to registers by the host and by the dome controller, a host's requests, and the resets, which leave the fuses
and the contents of HBM and show their cause. -/
def Sys2Proof.Machine.RegisterRules : Prop :=
  (∀ s i off n v, i = s.arg 1 → off = s.arg 2 → n = s.arg 3 → v = s.arg 4 →
    (mmioAligned off n = true →
      (s.arg 0 = 0 → off < 4096 → exec .registerWrite s = .next (s.writeVf i .vf off n v)) ∧
      (s.arg 0 = 1 → exec .registerWrite s = .next (s.writePart i off n v)) ∧
      (s.arg 0 = 2 → i = 0 → exec .registerWrite s = .next (s.writeDome false off n v)) ∧
      (s.arg 0 = 3 → off < 4096 → exec .registerWrite s = .next (s.writeVf i .pf off n v)) ∧
      (s.arg 0 = 4 → exec .registerWrite s = .next (s.writeDome true off n v)) ∧
      (s.arg 0 = 5 → off < 4096 → exec .registerWrite s = .next (s.writeVf i .m off n v))) ∧
    (s.arg 0 = 6 → off ≠ 0x892 → exec .registerWrite s = .next (s.updPart i fun p => p.writeM off (BitVec.ofNat 64 v))) ∧
    (s.arg 0 = 7 → i < 72 → exec .registerWrite s = .next (s.updFld i fun x => { x with headroom := min 9 (v % 16) })) ∧
    (s.arg 0 = 10 → i < 648 → exec .registerWrite s = .next (s.updTile i fun x => { x with permits := min 64 (v % 128) })) ∧
    (s.arg 0 = 11 → i < 648 → off < 704 → exec .registerWrite s = .next (s.updTile i fun t => { t with routes := SMap.put t.routes off (v % 5) }))) ∧
  (∀ s off n, off = s.arg 0 → n = s.arg 1 → (n ≠ 4 ∧ n ≠ 8) ∨ off % n ≠ 0 → exec .unsupportedRequest s = .next (s.answerWith 1 [])) ∧
  (∀ s (v off n : Nat), v = s.arg 0 → v < 512 → off = s.arg 3 % 2 ^ 32 → n = s.arg 4 →
    (s.arg 2 = 7 → mmioAligned off n = false → exec .hostOriginatedRequest s = .next (s.answerWith 1 [])) ∧
    (s.arg 2 = 7 → mmioAligned off n = true → s.arg 1 = 1 → s.arg 3 < 2 ^ 32 →
      exec .hostOriginatedRequest s = .next ((s.writeVf v .vf off n (bytesNat (s.ev.bytes.take n))).answerWith 0 [])) ∧
    (s.arg 2 = 7 → mmioAligned off n = true → s.arg 1 ≠ 1 → exec .hostOriginatedRequest s = .next (s.hostMmioRead v (s.arg 3 / 2 ^ 32) off n)) ∧
    (s.arg 2 < 5 → (s.vf v).tag = 0 → exec .hostOriginatedRequest s = .next (s.answerWith 2 [])) ∧
    (∀ l a, s.arg 2 < 5 → (s.vf v).tag ≠ 0 → l = ⟨s.arg 2, s.arg 3⟩ → l.tt ≠ 0 → a = { unit := 3, tag := (s.vf v).tag, core := (s.vf v).port, lq := v * 8 } →
      (s.delivers a l = true → s.arg 1 ≠ 1 → exec .hostOriginatedRequest s = .next (s.answerWith 0 (natBytes n (s.readNum l n)))) ∧
      (s.delivers a l = false → s.arg 1 ≠ 1 → exec .hostOriginatedRequest s = .next ((s.dropAt a .hostRead l 0 n 0 0 0 0).answerWith 2 [])))) ∧
  (∀ s (n : Nat), n = s.arg 0 % 2 ^ 32 → ∃ t, exec .dropTailWrite s = .next t ∧ t.module.dropHead = s.module.dropHead ∧
    t.module.dropTail = if after32 n s.module.dropHead.toNat = true then s.module.dropHead else BitVec.ofNat 32 n) ∧
  ∀ e ∈ [(Instr.powerOn, 1), (.resetPin, 2), (.modResetWrite, 3), (.coolantFault, 5), (.undervolt, 6), (.lockstep, 7), (.recoveryImage, 8)], ∀ s,
    (e.1 = .modResetWrite → s.arg 0 = 0x52530001) → (e.1 = .recoveryImage → s.module.recovery = true) → ∃ t, exec e.1 s = .next t ∧ t.module.cause = e.2 ∧
      t.hbm = s.hbm ∧ t.module.fuses = s.module.fuses ∧ t.parts = [] ∧ t.vfs = [] ∧ t.launches = [] ∧ t.module.ready = !t.module.recovery

/-- Where what a clause names holds, and as it says: a core and a tile fail, a wave goes one step, a retire event is answered (R313 to R317); an interval, a
sensor, a field, a tick, a period and a slice (R337, R338, R350 to R359); a queue's registers and the packets it serves (R329 to R336); writes to registers, requests
from the host, and the resets (R5, R204, R410 to R414). -/
def Obligations.ModuleEvents : Prop := FailureRules ∧ PowerRules ∧ QueueRules ∧ RegisterRules

/-- R370 to R372: inside its session a VF is locked, started and stopped; a packet of its stream that fails its check moves it to ERROR, and in RUN one that
is not of the TEE is refused; a lost session moves a locked or running VF to ERROR. -/
def Sys2Proof.Machine.InterfaceRules : Prop :=
  (∀ s v, v = s.arg 0 → v < 512 → (s.vf v).spdm = 5 →
    ((s.vf v).tdi = 0 → exec .lockInterfaceRequest s = .next ((s.updVf v fun x => { x with tdi := 1 }).answerWith 0 [])) ∧
    ((s.vf v).tdi ≠ 0 → exec .lockInterfaceRequest s = .next (s.answerWith spdmUnexpected [])) ∧
    ((s.vf v).tdi = 1 → exec .startInterfaceRequest s = .next ((s.updVf v fun x => { x with tdi := 2 }).answerWith 0 [])) ∧
    ((s.vf v).tdi ≠ 1 → exec .startInterfaceRequest s = .next (s.answerWith spdmUnexpected [])) ∧
    ∃ t, exec .stopInterfaceRequest s = .next t ∧ t.reply = (0, []) ∧ (t.vf v).tdi = 0 ∧
      ∀ p, SMap.find s.parts (s.vf v).tag = some p → (t.part (s.vf v).tag).keys = p.keys.filter fun k => k.2.vf ≠ v) ∧
  (∀ e ∈ [Instr.lockInterfaceRequest, .startInterfaceRequest, .stopInterfaceRequest], ∀ s, s.arg 0 < 512 → (s.vf (s.arg 0)).spdm ≠ 5 →
    exec e s = .next (s.answerWith spdmUnexpected [])) ∧
  (∀ s v, v = s.arg 0 →
    ((s.vf v).ideKey ≠ none → s.arg 2 = 1 → s.arg 1 ≠ 1 → exec .idePacketReceive s = .next (s.vfError v)) ∧
    (s.arg 2 = 1 → s.arg 1 = 1 → exec .idePacketReceive s = .next s) ∧
    ((s.vf v).tdi = 2 → s.arg 2 ≠ 1 → exec .idePacketReceive s = .next (s.answerWith 1 []))) ∧
  ∀ s v, v = s.arg 0 → (s.vf v).spdm = 5 →
    ((s.vf v).tdi = 1 ∨ (s.vf v).tdi = 2 → ∃ t, exec .spdmSessionLoss s = .next t ∧ (t.vf v).tdi = 3 ∧ (t.vf v).spdm = 0 ∧
      ∀ q ∈ (t.vf v).queues, q.2.run = false) ∧
    ((s.vf v).tdi = 0 ∨ (s.vf v).tdi = 3 → exec .spdmSessionLoss s = .next (s.updVf v fun x => { x with spdm := 0 }))

/-- R373, R374: each request of the protocol is answered from the states that allow it, moves the responder on, and is an unexpected request in any
other state. -/
def Sys2Proof.Machine.ResponderRules : Prop :=
  (∀ s f, f = s.arg 0 → f < 520 →
    (s.spdmOf f ≠ 5 → exec .getVersion s = .next ((s.setSpdm f 1).answerWith 0 [0x14])) ∧
    (s.spdmOf f = 5 → exec .getVersion s = .next (s.answerWith 0 [0x14])) ∧
    (s.spdmOf f = 1 → exec .getCapabilities s = .next ((s.setSpdm f 2).answerWith 0 s.ev.bytes)) ∧
    (s.spdmOf f = 2 → s.arg 1 % 16 ≠ 0 → exec .negotiateAlgorithms s = .next ((s.setSpdm f 3).answerWith 0 [BitVec.ofNat 8 (s.arg 1 % 16)])) ∧
    (s.spdmOf f = 2 → s.arg 1 % 16 = 0 → exec .negotiateAlgorithms s = .next (s.answerWith spdmUnsupported [])) ∧
    (3 ≤ s.spdmOf f →
      exec .getDigests s = .next (s.answerWith 0 (shake256 s.ev.bytes 64)) ∧
      (s.arg 1 = 0 → exec .getCertificate s = .next (s.answerWith 0 s.ev.bytes)) ∧
      (s.arg 1 ≠ 0 → exec .getCertificate s = .next (s.answerWith 0 [])) ∧
      exec .challenge s = .next { s.answerWith 0 s.signature with oracle := s.oracle + 1 } ∧
      exec .getMeasurements s = .next (s.answerWith 0 (s.measurement f (s.arg 1)))) ∧
    (s.spdmOf f = 3 → exec .keyExchange s = .next ((s.setSpdm f 4).answerWith 0 s.ev.bytes)) ∧
    (s.spdmOf f = 4 → s.arg 1 = 1 → exec .finish s = .next ((s.setSpdm f 5).answerWith 0 [])) ∧
    (s.spdmOf f = 4 → s.arg 1 ≠ 1 → exec .finish s = .next ((s.setSpdm f 3).answerWith spdmUnexpected [])) ∧
    (s.spdmOf f = 5 → f < 512 → (s.vf f).locked = false → exec .endSession s = .next ((s.updVf f fun x => { x with spdm := 3 }).answerWith 0 [])) ∧
    (s.spdmOf f = 5 → f < 512 → (s.vf f).locked = true → exec .endSession s = .next (((s.vfError f).updVf f fun x => { x with spdm := 3 }).answerWith 0 [])) ∧
    (s.spdmOf f = 5 → 512 ≤ f → exec .endSession s = .next ((s.setSpdm f 3).answerWith 0 [])) ∧
    (s.spdmOf f = 5 → f < 512 → exec .ideKeyManagement s = .next ((s.updVf f fun x =>
      { x with ideKey := some (BitVec.ofNat 256 (bytesNat (s.ev.bytes.take 32))) }).answerWith 0 []))) ∧
  ∀ e ∈ [(Instr.getCapabilities, [1]), (.negotiateAlgorithms, [2]), (.getDigests, [3, 4, 5]), (.getCertificate, [3, 4, 5]), (.challenge, [3, 4, 5]),
      (.getMeasurements, [3, 4, 5]), (.keyExchange, [3]), (.finish, [4]), (.endSession, [5]), (.ideKeyManagement, [5])],
    ∀ s, s.arg 0 < 520 → s.spdmOf (s.arg 0) ≤ 5 → s.spdmOf (s.arg 0) ∉ e.2 → exec e.1 s = .next (s.answerWith spdmUnexpected [])

/-- R378, R379, R382: the checks of a request for a key slot and what it does. -/
def Sys2Proof.Machine.SlotRules : Prop :=
  (∀ e ∈ [Instr.keySlotLoad, .keySlotClear, .keySlotQuery], ∀ s n, s.Slots n →
    (15 < field n 15 8 ∨ 7 < field n 39 32 ∨ 9 < field n 47 40 ∨ field n 127 72 ≠ 0 → exec e s = .next (s.answerWith 0 [1])) ∧
    (field n 15 8 ≤ 15 → field n 39 32 ≤ 7 → field n 47 40 ≤ 9 → field n 127 72 = 0 →
      (512 ≤ field n 31 16 ∨ (s.vf (field n 31 16)).tdi ≠ 2 → exec e s = .next (s.answerWith 0 [2])) ∧
      (field n 31 16 < 512 → (s.vf (field n 31 16)).tdi = 2 → (s.vf (field n 31 16)).tag ≠ (s.vf (s.arg 0)).tag → exec e s = .next (s.answerWith 0 [3])))) ∧
  ∀ s n m tag slot, s.Slots n → m = bytesNat (s.ev.bytes.take 56) → tag = (s.vf (s.arg 0)).tag →
    field n 15 8 ≤ 15 → field n 39 32 ≤ 7 → field n 47 40 ≤ 9 → field n 127 72 = 0 → field n 31 16 < 512 → (s.vf (field n 31 16)).tdi = 2 →
    (s.vf (field n 31 16)).tag = tag → slot = field m 15 8 →
    (∀ k : KeySlot, k = { key := BitVec.ofNat 256 (field m 447 192), floor := BitVec.ofNat 64 (field m 191 128), vf := field m 31 16
                          q := field m 39 32, block := field m 71 48, lg := field m 47 40 } →
      exec .keySlotLoad s = .next ((s.updPart tag fun p => { p with keys := SMap.put p.keys slot k }).answerWith 0 [0])) ∧
    ∀ k, k = field (bytesNat (s.ev.bytes.take 2)) 15 8 →
      exec .keySlotClear s = .next ((s.updPart tag fun p => { p with keys := SMap.del p.keys k }).answerWith 0 [0]) ∧
      (SMap.find (s.part tag).keys k = none → exec .keySlotQuery s = .next (s.answerWith 0 (List.replicate 32 0))) ∧
      ∀ x, SMap.find (s.part tag).keys k = some x → exec .keySlotQuery s = .next (s.answerWith 0 (0 :: (natBytes 2 x.vf ++ natBytes 1 x.q ++ natBytes 1 x.lg ++
        natBytes 3 x.block ++ natBytes 8 x.floor.toNat ++ keyIdentity 2 (some x.key))))

/-- Where what a clause names holds, and as it says: a VF is locked, started and stopped in its session, a packet of its stream is checked and a session is lost
(R370 to R372); each request of the protocol is answered, or is unexpected (R373, R374); and a key slot is loaded, cleared and queried (R379). -/
def Obligations.SecurityEvents : Prop := InterfaceRules ∧ ResponderRules ∧ SlotRules

/-! ## The machine -/

/-- R9, R311: a halfword can be fetched at an address, from a word without an error, and these are its two bytes. -/
def Sys2Proof.Machine.State.Fetches (s : State) (va : W64) (b0 b1 : Byte) : Prop :=
  ∃ x, s.translate s.curTag s.curVf (!s.cur.smode) .fetch va.toNat 0 = .ok x ∧ s.delivers s.agent x.loc = true ∧
    s.poison.contains (wordKey x.loc) = false ∧ s.readByte x.loc = b0 ∧
    s.readByte ⟨x.loc.tt, x.loc.addr + 1⟩ = b1
/-- The next step gives a context its turn, and t is the state then: the schedule names it and its core's slot is free (R343), or it is the one its
core's arbiter takes (R343), with no sequencer context ready, and the core's clock drive steps behind it (R346). -/
def Sys2Proof.Machine.State.GivesTurn (s t : State) : Prop :=
  (∃ id rest c, s.agenda = .ctx id :: rest ∧ s.ctx? id = some c ∧ c.isReady = true ∧ s.slotFree c = true ∧ t = ({ s with agenda := rest } : State).switchTo id) ∨
  ∃ k x, s.agenda = [] ∧ s.raised = [] ∧ s.turn % 4 ≠ 3 ∧ s.nextCore = some k ∧ ({ s with turn := s.turn + 1 } : State).arbiter k = some x ∧
    s.readyOn k true = [] ∧ t = ({ s with turn := s.turn + 1, agenda := [.ev .clockDriveStep ⟨[k], []⟩] } : State).switchTo x.id

/-- R8, R9, R70, R71: a step whose turn a context has runs the instruction that the bytes at its program counter decode to, in a loop pass with the
fields its step words make of it, when nothing holds the word back: no event of an earlier reduction (R98), no fence of a `.sc.sys` access (R200,
R203), no line a commit locks in the walk (R297). A step whose turn an event has runs the event; a clock drive's step waits for a group that is
ready and has not issued (R321, R343). -/
def Obligations.StepRunsDecoded : Prop :=
  (∀ s i d rest, s.agenda = .ev i d :: rest → (i = .clockDriveStep → s.issueDue (d.args.getD 0 0) = false) →
    step s = exec i { s with agenda := rest, ev := d }) ∧
  ∀ s t b0 b1, s.GivesTurn t → t.held = false → t.cur.recipe ≠ some t.cur.pc → t.Fetches t.cur.pc b0 b1 →
    ((∀ l, t.cur.loop = some l → l.steps = [] ∨ t.cur.recipe.isSome = true) →
      (∀ i, decode [b0, b1] = .ok (i, []) → step s = exec i t) ∧
      ∀ i b2 b3, t.Fetches (t.cur.pc + 2) b2 b3 → decode [b0, b1, b2, b3] = .ok (i, []) → step s = exec i t) ∧
    ∀ l, t.cur.loop = some l → l.steps ≠ [] → t.cur.recipe = none →
      (∀ i, lengthOfHalf (halfOf b0 b1) = 2 → stepHalf l (halfOf b0 b1) = .half (halfOf b0 b1) → decode [b0, b1] = .ok (i, []) → step s = exec i t) ∧
      (∀ f off n r p, lengthOfHalf (halfOf b0 b1) = 2 → stepHalf l (halfOf b0 b1) = .word f off n r → decodeFields f = .ok p →
        step s = exec p.instr { t with cur := { t.cur with addrOff := off, slotLen := n, stepped := r } }) ∧
      ∀ b2 b3 f off n r p, lengthOfHalf (halfOf b0 b1) = 4 → t.Fetches (t.cur.pc + 2) b2 b3 →
        stepFields32 l (fieldsOf (b3 ++ b2 ++ b1 ++ b0)) 4 = .word f off n r → decodeFields f = .ok p →
        step s = exec p.instr { t with cur := { t.cur with addrOff := off, slotLen := n, stepped := r } }

/-- R8, R10, R18 to R25: decoding and encoding agree: a well-formed instruction that has a word decodes from it, and what decodes is well formed and
has exactly the bytes it was read from; so no two words mean one instruction. -/
def Obligations.DecodeAndEncodeAgree : Prop :=
  (∀ i e rest, wellFormed i = true → encode i = some e → decode (e.bytes ++ rest) = .ok (i, rest)) ∧
  ∀ bs i rest, decode bs = .ok (i, rest) → wellFormed i = true ∧ ∃ e, encode i = some e ∧ bs = e.bytes ++ rest

/-- Words that the spec's own listings and tables give, bit for bit. -/
def Obligations.SampleWords : Prop :=
  ∀ p ∈ [((32, 0x008140F5, .srd false 5 0x008) : Nat × Nat × Instr), (32, 0x0C204321, .fadd false 3 1 2 3), (32, 0x03F0B811, .lii false 0 2 0x03F),
      (32, 0x10203855, .emwr false 2), (32, 0x20C2405D, .vreduce false 0 9 12 8), (32, 0x00000875, .ret false), (32, 0x00001075, .exit false),
      (32, 0x000040D9, .txbegin false 1), (32, 0x182330CD, .stb128 false 0 12 2 6), (32, 0x1C6248C5, .barArrive false 0 9 6 7),
      (32, 0x3C3388C9, .qpush false 0 14 3 15), (32, 0x800034AD, .fence false 4 2)],
    decodeTableWord p.1 p.2.1 = some p.2.2

/-- R411 to R415, Tables 19-4, 23-3, 23-4: what reset leaves: the module is ready, nothing runs, every array of every tile reads 0, every granule
is free and zero-pending, and each module, mailbox and field register reads the value its table gives for reset. -/
def Obligations.ResetValues : Prop :=
  State.reset.module.ready = true ∧ State.reset.parts = [] ∧ State.reset.vfs = [] ∧ State.reset.launches = [] ∧ State.reset.ctxs = [] ∧
  State.reset.cur.kind = .none ∧ State.reset.packets = [] ∧ State.reset.jobs = [] ∧ State.reset.mxops = [] ∧ State.reset.agenda = [] ∧
  (∀ x, (State.reset.tile x).owner = 0 ∧ (State.reset.tile x).permits = 64 ∧ (State.reset.tile x).gated = true ∧ (State.reset.tile x).counts = []) ∧
  (∀ f, (State.reset.fld f).headroom = 0 ∧ (State.reset.fld f).thermLim = 0x05A0 ∧ (State.reset.fld f).slopeLim = 0x00010010 ∧
    (State.reset.fld f).trips = 0 ∧ (State.reset.fld f).ilim = 1000 ∧ (State.reset.fld f).current = 0 ∧ (State.reset.fld f).throttled = false) ∧
  (∀ p, (State.reset.port p).ctl = 0) ∧ (∀ k, (State.reset.gran k).owner = 0 ∧ (State.reset.gran k).zp = true) ∧
  State.reset.module.thermHot = 0x0690 ∧ State.reset.module.thermCrit = 0x0780 ∧ State.reset.module.vin = 0 ∧ State.reset.module.pinW = 0 ∧
  State.reset.module.dropHead = 0 ∧ State.reset.module.dropTail = 0 ∧ State.reset.module.dropLost = 0 ∧ State.reset.module.dropLog = [] ∧
  State.reset.module.mbGo = false ∧ State.reset.module.mbStatus = 0 ∧ State.reset.module.mbReason = 0 ∧ State.reset.module.mbSeq = 0 ∧
  State.reset.module.mbIrq = false ∧
  (∀ r, SMap.get 0 State.reset.vrf r = 0 ∧ SMap.get 0 State.reset.acc r = 0 ∧ SMap.get 0 State.reset.planes r = 0) ∧
  (∀ a, State.reset.readByte ⟨1, a⟩ = 0) ∧ State.reset.memWf = true ∧ step State.reset = .next State.reset

/-- Every byte memory keeps its canonical form: addresses rising, and nothing listed that reads as an unlisted byte does. -/
def Obligations.MemoryFormKept : Prop := ∀ s t, s.memWf = true → step s = .next t → t.memWf = true

/-- The form of `MemoryFormKept` holds at reset. -/
def Obligations.ResetMemoryForm : Prop := State.reset.memWf = true
end

