-- ==== Sys2Proof/Laws/Lanes.lean ====
section
/-!
SUPPORT. Vectors of lanes, masks and little-endian bytes: what each holds at one place.
-/

namespace Sys2Proof.Machine

/-! ## Packed fields -/

theorem packNat_lt (w : Nat) (f : Nat → Nat) (n : Nat) : packNat w f n < 2 ^ (w * n) := by
  induction n with
  | zero => simp [packNat]
  | succ n ih =>
    have h1 : f n % 2 ^ w < 2 ^ w := Nat.mod_lt _ (by positivity)
    have h2 : 2 ^ (w * (n + 1)) = 2 ^ w * 2 ^ (w * n) := by rw [Nat.mul_succ, Nat.pow_add, Nat.mul_comm]
    have h3 : (f n % 2 ^ w) * 2 ^ (w * n) + 2 ^ (w * n) ≤ 2 ^ w * 2 ^ (w * n) := by
      have := Nat.mul_le_mul_right (2 ^ (w * n)) (Nat.succ_le_of_lt h1); rwa [Nat.succ_mul] at this
    simp only [packNat, h2]; omega

theorem packNat_field (w : Nat) (f : Nat → Nat) (n i : Nat) (h : i < n) :
    packNat w f n / 2 ^ (w * i) % 2 ^ w = f i % 2 ^ w := by
  induction n with
  | zero => omega
  | succ n ih =>
    simp only [packNat]
    rcases Nat.lt_succ_iff_lt_or_eq.1 h with h | rfl
    · have e : 2 ^ (w * n) = 2 ^ (w * i) * (2 ^ w * 2 ^ (w * (n - i - 1))) := by
        rw [← Nat.pow_add, ← Nat.pow_add]; congr 1
        obtain ⟨k, rfl⟩ : ∃ k, n = i + 1 + k := ⟨n - i - 1, by omega⟩
        have : i + 1 + k - i - 1 = k := by omega
        rw [this]; ring
      have p : 0 < 2 ^ (w * i) := by positivity
      rw [e, ← ih h]
      have : f n % 2 ^ w * (2 ^ (w * i) * (2 ^ w * 2 ^ (w * (n - i - 1)))) =
          2 ^ (w * i) * (2 ^ w * (f n % 2 ^ w * 2 ^ (w * (n - i - 1)))) := by ring
      rw [this, Nat.add_mul_div_left _ _ p, Nat.add_mul_mod_self_left]
    · rw [Nat.add_mul_div_right _ _ (by positivity), Nat.div_eq_of_lt (packNat_lt w f i), Nat.zero_add, Nat.mod_mod]

theorem packNat_testBit (f : Nat → Bool) (n i : Nat) (h : i < n) : (packNat 1 (fun i => (f i).toNat) n).testBit i = f i := by
  have := packNat_field 1 (fun i => (f i).toNat) n i h
  simp only [Nat.one_mul, Nat.pow_one] at this
  rw [Nat.testBit_eq_decide_div_mod_eq, this]
  cases f i <;> simp

/-! ## Lanes -/

theorem extract_pack {N w n : Nat} (hN : w * n = N) (f : Nat → BitVec w) {i : Nat} (h : i < n) :
    (BitVec.ofNat N (packNat w (fun i => (f i).toNat) n)).extractLsb' (w * i) w = f i := by
  apply BitVec.eq_of_toNat_eq
  have hl := packNat_lt w (fun i => (f i).toNat) n
  rw [hN] at hl
  rw [BitVec.extractLsb'_toNat, BitVec.toNat_ofNat, Nat.shiftRight_eq_div_pow, Nat.mod_eq_of_lt hl, packNat_field w _ n i h]
  exact Nat.mod_eq_of_lt (f i).isLt

theorem bit_pack {N n : Nat} (hN : n = N) (f : Nat → Bool) {i : Nat} (h : i < n) :
    (BitVec.ofNat N (packNat 1 (fun i => (f i).toNat) n)).getLsbD i = f i := by
  subst hN
  have hl := packNat_lt 1 (fun i => (f i).toNat) n
  rw [Nat.one_mul] at hl
  rw [BitVec.getLsbD, BitVec.toNat_ofNat, Nat.mod_eq_of_lt hl, packNat_testBit f n i h]

/-- A vector built lane by lane. -/
theorem laneOf_ofLanes (f : Nat → W32) {i : Nat} (h : i < 256) : laneOf (ofLanes f) i = f i :=
  extract_pack (by decide) f h

/-- A mask built bit by bit. -/
theorem getLsbD_ofBits (f : Nat → Bool) {i : Nat} (h : i < 256) : (ofBits f).getLsbD i = f i := bit_pack rfl f h

theorem laneOf_mergeVec (m : Mask) (new old : Vec) {i : Nat} (h : i < 256) :
    laneOf (mergeVec m new old) i = if m.getLsbD i then laneOf new i else laneOf old i := laneOf_ofLanes _ h

theorem getLsbD_mergeMask (m new old : Mask) {i : Nat} (h : i < 256) :
    (mergeMask m new old).getLsbD i = if m.getLsbD i then new.getLsbD i else old.getLsbD i := by
  simp only [mergeMask, BitVec.getLsbD_or, BitVec.getLsbD_and, BitVec.getLsbD_not, h, decide_true, Bool.true_and]
  cases m.getLsbD i <;> simp

@[simp] theorem getLsbD_allLanes {i : Nat} (h : i < 256) : allLanes.getLsbD i = true := by
  rw [allLanes, BitVec.getLsbD_allOnes]; simpa using h

/-- A vector is its lanes. -/
theorem vec_ext {a b : Vec} (h : ∀ i, i < 256 → laneOf a i = laneOf b i) : a = b := by
  apply BitVec.eq_of_getLsbD_eq
  intro j hj
  have h1 := h (j / 32) (by omega)
  have h2 := congrArg (fun x => BitVec.getLsbD x (j % 32)) h1
  simp only [laneOf, BitVec.getLsbD_extractLsb'] at h2
  have h3 : 32 * (j / 32) + j % 32 = j := Nat.div_add_mod j 32
  have h4 : j % 32 < 32 := Nat.mod_lt _ (by decide)
  simpa [h3, h4] using h2

theorem mem_maskLanes {m : Mask} {i : Nat} : i ∈ maskLanes m ↔ i < 256 ∧ m.getLsbD i = true := by
  simp [maskLanes, lanes]

/-- The lowest lane of a mask is its least element. -/
theorem lowestLane_eq_some {m : Mask} {i : Nat} : lowestLane m = some i ↔ i < 256 ∧ m.getLsbD i = true ∧ ∀ j < i, m.getLsbD j = false := by
  unfold lowestLane lanes
  rw [List.find?_range_eq_some]
  constructor
  · rintro ⟨h1, h2, h3⟩; exact ⟨by simpa using h2, h1, fun j hj => by simpa using h3 j hj⟩
  · rintro ⟨h1, h2, h3⟩; exact ⟨h2, by simpa using h1, fun j hj => by simp [h3 j hj]⟩

/-! ## Bytes -/

@[simp] theorem natBytes_length (n w : Nat) : (natBytes n w).length = n := by
  induction n generalizing w with
  | zero => rfl
  | succ n ih => simp [natBytes, ih]

/-- A number below 256^n is its n little-endian bytes. -/
theorem bytesNat_natBytes (n w : Nat) (h : w < 256 ^ n) : bytesNat (natBytes n w) = w := by
  induction n generalizing w with
  | zero => simp at h; simp [natBytes, bytesNat, h]
  | succ n ih =>
    have h1 : w / 256 < 256 ^ n := by
      rw [Nat.div_lt_iff_lt_mul (by decide)]; rwa [Nat.pow_succ] at h
    simp only [natBytes, bytesNat, ih _ h1, BitVec.toNat_ofNat]
    omega

end Sys2Proof.Machine
end

