-- ==== Sys2Proof/Laws/Maps.lean ====
section
/-!
SUPPORT. Sparse maps: what is read after a write, and that every write keeps the canonical form.
-/

namespace Sys2Proof.Machine

variable {α : Type}

/-! ## Read after write -/

@[simp] theorem SMap.find_nil (k : Nat) : SMap.find ([] : SMap α) k = none := rfl

theorem SMap.find_put (m : SMap α) (k j : Nat) (v : α) :
    SMap.find (SMap.put m k v) j = if j = k then some v else SMap.find m j := by
  induction m with
  | nil => simp [SMap.put, SMap.find]
  | cons p t ih =>
    obtain ⟨k', v'⟩ := p
    simp only [SMap.put]
    split
    · simp [SMap.find]
    · split
      · next h => subst h; by_cases hj : j = k <;> simp [SMap.find, hj]
      · simp only [SMap.find, ih]
        by_cases h1 : j = k' <;> by_cases h2 : j = k <;> simp_all

theorem SMap.find_del (m : SMap α) (k j : Nat) : SMap.find (SMap.del m k) j = if j = k then none else SMap.find m j := by
  induction m with
  | nil => simp [SMap.del]
  | cons p t ih =>
    obtain ⟨k', v'⟩ := p
    simp only [SMap.del]
    split
    · next h => subst h; rw [ih]; by_cases hj : j = k <;> simp [SMap.find, hj]
    · simp only [SMap.find, ih]
      by_cases h1 : j = k' <;> by_cases h2 : j = k <;> simp_all

theorem SMap.get_set [DecidableEq α] (d : α) (m : SMap α) (k j : Nat) (v : α) :
    SMap.get d (SMap.set d m k v) j = if j = k then v else SMap.get d m j := by
  by_cases hv : v = d
  · rw [SMap.set, if_pos hv]; unfold SMap.get; rw [SMap.find_del]; by_cases hj : j = k <;> simp [hj, hv]
  · rw [SMap.set, if_neg hv]; unfold SMap.get; rw [SMap.find_put]; by_cases hj : j = k <;> simp [hj]

@[simp] theorem SMap.get_set_same [DecidableEq α] (d : α) (m : SMap α) (k : Nat) (v : α) :
    SMap.get d (SMap.set d m k v) k = v := by simp [SMap.get_set]

theorem SMap.get_set_ne [DecidableEq α] (d : α) (m : SMap α) {k j : Nat} (v : α) (h : j ≠ k) :
    SMap.get d (SMap.set d m k v) j = SMap.get d m j := by simp [SMap.get_set, h]

theorem SMap.get_put (d : α) (m : SMap α) (k j : Nat) (v : α) :
    SMap.get d (SMap.put m k v) j = if j = k then v else SMap.get d m j := by
  unfold SMap.get
  rw [SMap.find_put]; by_cases hj : j = k <;> simp [hj]

theorem SMap.get_del (d : α) (m : SMap α) (k j : Nat) : SMap.get d (SMap.del m k) j = if j = k then d else SMap.get d m j := by
  unfold SMap.get
  rw [SMap.find_del]; by_cases hj : j = k <;> simp [hj]

/-! ## Canonical form -/

variable [DecidableEq α] (d : α)

/-- Keys above a bound. -/
theorem SMap.wf_iff (m : SMap α) : SMap.wf d m = true ↔ m.Pairwise (fun a b => a.1 < b.1) ∧ ∀ p ∈ m, p.2 ≠ d := by
  induction m with
  | nil => simp [SMap.wf]
  | cons p t ih =>
    obtain ⟨k, v⟩ := p
    cases t with
    | nil => simp [SMap.wf]
    | cons q t =>
      obtain ⟨k', v'⟩ := q
      simp only [SMap.wf, Bool.and_eq_true, ih, List.pairwise_cons, List.mem_cons, forall_eq_or_imp, bne_iff_ne, ne_eq, decide_eq_true_eq]
      constructor
      · rintro ⟨⟨h1, h2⟩, ⟨h3, h4⟩, h5, h6⟩
        exact ⟨⟨⟨h2, fun a ha => lt_trans h2 (h3 a ha)⟩, h3, h4⟩, h1, h5, h6⟩
      · rintro ⟨⟨⟨h2, -⟩, h3, h4⟩, h1, h5, h6⟩
        exact ⟨⟨h1, h2⟩, ⟨h3, h4⟩, h5, h6⟩

omit [DecidableEq α] in
theorem SMap.mem_put {m : SMap α} {k : Nat} {v : α} {p : Nat × α} (h : p ∈ SMap.put m k v) : p = (k, v) ∨ p ∈ m := by
  induction m with
  | nil => simpa [SMap.put] using h
  | cons q t ih =>
    obtain ⟨k', v'⟩ := q
    simp only [SMap.put] at h
    split at h
    · simpa using h
    · split at h
      · rcases List.mem_cons.1 h with h | h
        · exact .inl h
        · exact .inr (List.mem_cons_of_mem _ h)
      · rcases List.mem_cons.1 h with h | h
        · exact .inr (by simp [h])
        · rcases ih h with h | h
          · exact .inl h
          · exact .inr (List.mem_cons_of_mem _ h)

omit [DecidableEq α] in
theorem SMap.pairwise_put {m : SMap α} (k : Nat) (v : α) (h : m.Pairwise fun a b => a.1 < b.1) :
    (SMap.put m k v).Pairwise fun a b => a.1 < b.1 := by
  induction m with
  | nil => simp [SMap.put]
  | cons q t ih =>
    obtain ⟨k', v'⟩ := q
    obtain ⟨h1, h2⟩ := List.pairwise_cons.1 h
    simp only [SMap.put]
    split
    · next hk => exact List.pairwise_cons.2 ⟨fun a ha => by
        rcases List.mem_cons.1 ha with rfl | ha
        · exact hk
        · exact lt_trans hk (h1 a ha), h⟩
    · split
      · next hk => subst hk; exact List.pairwise_cons.2 ⟨h1, h2⟩
      · next hn he => exact List.pairwise_cons.2 ⟨fun a ha => by
          rcases SMap.mem_put ha with rfl | ha
          · show k' < k; omega
          · exact h1 a ha, ih h2⟩

omit [DecidableEq α] in
theorem SMap.del_sublist (m : SMap α) (k : Nat) : (SMap.del m k).Sublist m := by
  induction m with
  | nil => simp [SMap.del]
  | cons q t ih =>
    obtain ⟨k', v'⟩ := q
    simp only [SMap.del]
    split
    · exact ih.cons _
    · exact ih.cons_cons _

/-- A part of a canonical map is canonical. -/
theorem SMap.wf_sublist {l m : SMap α} (hs : l.Sublist m) (h : SMap.wf d m = true) : SMap.wf d l = true := by
  rw [SMap.wf_iff] at h ⊢
  exact ⟨h.1.sublist hs, fun p hp => h.2 p (hs.subset hp)⟩

/-- A write keeps the canonical form. -/
theorem SMap.wf_set {m : SMap α} (h : SMap.wf d m = true) (k : Nat) (v : α) : SMap.wf d (SMap.set d m k v) = true := by
  unfold SMap.set
  split
  · exact SMap.wf_sublist d (SMap.del_sublist m k) h
  · next hv =>
    rw [SMap.wf_iff] at h ⊢
    refine ⟨SMap.pairwise_put k v h.1, fun p hp => ?_⟩
    rcases SMap.mem_put hp with rfl | hp
    · exact hv
    · exact h.2 p hp

omit [DecidableEq α] in
theorem SMap.find_of_mem {m : SMap α} (h : m.Pairwise fun a b => a.1 < b.1) {k : Nat} {v : α} (hm : (k, v) ∈ m) :
    SMap.find m k = some v := by
  induction m with
  | nil => simp at hm
  | cons q t ih =>
    obtain ⟨k', v'⟩ := q
    obtain ⟨h1, h2⟩ := List.pairwise_cons.1 h
    simp only [SMap.find]
    rcases List.mem_cons.1 hm with he | he
    · simp_all
    · have := h1 _ he
      simp only at this
      rw [if_neg (by omega)]
      exact ih h2 he

omit [DecidableEq α] in
theorem SMap.mem_of_find {m : SMap α} {k : Nat} {v : α} (h : SMap.find m k = some v) : (k, v) ∈ m := by
  induction m with
  | nil => simp at h
  | cons q t ih =>
    obtain ⟨k', v'⟩ := q
    simp only [SMap.find] at h
    split at h
    · simp_all
    · exact List.mem_cons_of_mem _ (ih h)

/-- Canonical maps that read alike are equal: equal memories are equal data. -/
theorem SMap.ext_of_wf {m n : SMap α} (hm : SMap.wf d m = true) (hn : SMap.wf d n = true)
    (h : ∀ k, SMap.get d m k = SMap.get d n k) : m = n := by
  rw [SMap.wf_iff] at hm hn
  have hf : ∀ (a b : SMap α), a.Pairwise (fun a b => a.1 < b.1) → (∀ p ∈ a, p.2 ≠ d) → (∀ k, SMap.get d a k = SMap.get d b k) →
      ∀ p ∈ a, p ∈ b := by
    intro a b ha hd hk p hp
    have h1 := SMap.find_of_mem ha (k := p.1) (v := p.2) hp
    have h2 := hk p.1
    simp only [SMap.get, h1] at h2
    split at h2
    · next v hv => subst h2; exact SMap.mem_of_find hv
    · exact absurd h2 (hd p hp)
  refine List.Perm.eq_of_pairwise (le := fun a b : Nat × α => a.1 < b.1) ?_ hm.1 hn.1 ?_
  · intro a b _ _ h1 h2; exact absurd h1 (by omega)
  · refine (List.perm_ext_iff_of_nodup ?_ ?_).2 fun p => ⟨hf m n hm.1 hm.2 h p, hf n m hn.1 hn.2 (fun k => (h k).symm) p⟩
    · exact hm.1.imp fun h e => by simp_all
    · exact hn.1.imp fun h e => by simp_all

end Sys2Proof.Machine
end

