-- ==== Sys2Proof/Laws/Memory.lean ====
section
/-!
SUPPORT. Memory: what a byte reads as after a write, and that every memory operation keeps the canonical form.
-/

namespace Sys2Proof.Machine

/-! ## The canonical form -/

theorem Mem.wf_setByte {m : Mem} (h : Memory.wf m = true) (a : Nat) (b : Byte) : Memory.wf (Mem.setByte m a b) = true :=
  SMap.wf_set _ h a b
theorem Mem.wf_filter {m : Mem} (h : Memory.wf m = true) (p : Host.Cell → Bool) : Memory.wf (m.filter p) = true :=
  SMap.wf_sublist _ List.filter_sublist h
theorem Mem.wf_clear {m : Mem} (h : Memory.wf m = true) (a n : Nat) : Memory.wf (Mem.clear m a n) = true :=
  Mem.wf_filter h _
/-- Equal memories are equal data. -/
theorem Mem.ext_of_wf {m n : Mem} (hm : Memory.wf m = true) (hn : Memory.wf n = true) (h : ∀ a, Mem.byte m a = Mem.byte n a) : m = n :=
  SMap.ext_of_wf _ hm hn h

theorem State.memWf_iff {s : State} : s.memWf = true ↔ Memory.wf s.hbm = true ∧ Memory.wf s.host = true ∧ Memory.wf s.sp = true := by
  simp [State.memWf, and_assoc]

theorem State.reset_memWf : State.reset.memWf = true := by decide

theorem State.scrubLine_memWf {s : State} (h : s.memWf = true) (k : Nat) : (s.scrubLine k).memWf = true := by
  rw [State.memWf_iff] at h ⊢
  unfold State.scrubLine
  split
  · exact ⟨Mem.wf_clear h.1 _ _, h.2.1, h.2.2⟩
  · exact h

/-- One byte written at any place keeps the canonical form. -/
theorem State.writeByte_memWf {s : State} (h : s.memWf = true) (l : Loc) (b : Byte) : (s.writeByte l b).memWf = true := by
  have h' := State.memWf_iff.1 h
  unfold State.writeByte
  split
  · have hs := State.memWf_iff.1 (State.scrubLine_memWf h l.addr)
    exact State.memWf_iff.2 ⟨Mem.wf_setByte hs.1 _ _, hs.2.1, hs.2.2⟩
  · exact State.memWf_iff.2 ⟨h'.1, h'.2.1, Mem.wf_setByte h'.2.2 _ _⟩
  · exact State.memWf_iff.2 h'
  · exact State.memWf_iff.2 h'
  · exact State.memWf_iff.2 h'
  · exact State.memWf_iff.2 ⟨h'.1, Mem.wf_setByte h'.2.1 _ _, h'.2.2⟩
  · exact h

theorem State.writeAll_memWf {s : State} (h : s.memWf = true) (l : List (Loc × Byte)) : (s.writeAll l).memWf = true := by
  induction l generalizing s with
  | nil => exact h
  | cons p t ih => exact ih (State.writeByte_memWf h p.1 p.2)
theorem State.writeBytes_memWf {s : State} (h : s.memWf = true) (l : Loc) (bs : List Byte) : (s.writeBytes l bs).memWf = true :=
  State.writeAll_memWf h _
theorem State.writeNum_memWf {s : State} (h : s.memWf = true) (l : Loc) (n v : Nat) : (s.writeNum l n v).memWf = true :=
  State.writeBytes_memWf h _ _

/-! ## Read after write -/

@[simp] theorem Mem.byte_setByte (m : Mem) (a k : Nat) (b : Byte) : Mem.byte (Mem.setByte m a b) k = if k = a then b else Mem.byte m k :=
  SMap.get_set _ _ _ _ _

theorem SMap.find_filter {α : Type} (m : SMap α) (p : Nat → Bool) (k : Nat) :
    SMap.find (m.filter fun c => p c.1) k = if p k then SMap.find m k else none := by
  induction m with
  | nil => simp
  | cons q t ih =>
    obtain ⟨k', v⟩ := q
    by_cases hk : k = k'
    · subst hk; by_cases hp : p k <;> simp [hp, SMap.find, ih]
    · by_cases hp : p k' <;> simp [hp, SMap.find, ih, hk]

/-- A cleared range reads as zero; the rest is as before. -/
theorem Mem.byte_clear (m : Mem) (lo n k : Nat) : Mem.byte (Mem.clear m lo n) k = if lo ≤ k ∧ k < lo + n then 0 else Mem.byte m k := by
  unfold Mem.byte Mem.clear SMap.get
  rw [SMap.find_filter m (fun a => decide (a < lo) || decide (lo + n ≤ a)) k]
  by_cases h : lo ≤ k ∧ k < lo + n
  · simp [h, show ¬ k < lo by omega, show ¬ lo + n ≤ k by omega]
  · rw [if_neg h]
    have : (decide (k < lo) || decide (lo + n ≤ k)) = true := by simp; omega
    rw [this]; rfl

/-! ## Bytes of vectors -/

theorem getByte_getLsbD {n : Nat} (v : BitVec n) (i j : Nat) : (getByte v i).getLsbD j = (decide (j < 8) && v.getLsbD (8 * i + j)) := by
  unfold getByte; rw [BitVec.getLsbD_extractLsb']
theorem ff_getLsbD (n : Nat) (hn : 8 ≤ n) (x : Nat) : (0xFF#n).getLsbD x = decide (x < 8) := by
  have h : (0xFF#n) = (BitVec.allOnes 8).setWidth n := by
    apply BitVec.eq_of_toNat_eq
    have : (2 : Nat) ^ 8 ≤ 2 ^ n := Nat.pow_le_pow_right (by decide) hn
    rw [BitVec.toNat_setWidth, BitVec.toNat_ofNat]; rfl
  rw [h, BitVec.getLsbD_setWidth, BitVec.getLsbD_allOnes]
  by_cases hx : x < 8
  · simp [hx, show x < n by omega]
  · simp [hx]
theorem putByte_getLsbD {n : Nat} (v : BitVec n) (hn : 8 ≤ n) (i x : Nat) (b : Byte) (hx : x < n) :
    (putByte v i b).getLsbD x = if 8 * i ≤ x ∧ x < 8 * i + 8 then b.getLsbD (x - 8 * i) else v.getLsbD x := by
  unfold putByte
  rw [BitVec.getLsbD_or, BitVec.getLsbD_and, BitVec.getLsbD_not, BitVec.getLsbD_shiftLeft, BitVec.getLsbD_shiftLeft, BitVec.getLsbD_setWidth,
    ff_getLsbD n hn]
  by_cases h1 : 8 * i ≤ x
  · by_cases h2 : x < 8 * i + 8
    · rw [if_pos ⟨h1, h2⟩]
      simp [hx, show ¬ x < 8 * i by omega, show x - 8 * i < 8 by omega, show x - 8 * i < n by omega]
    · rw [if_neg (by omega)]
      have : b.getLsbD (x - 8 * i) = false := BitVec.getLsbD_of_ge _ _ (by omega)
      simp [hx, show ¬ x < 8 * i by omega, show ¬ x - 8 * i < 8 by omega, this]
  · rw [if_neg (by omega)]
    simp [hx, show x < 8 * i by omega]
/-- A byte of a vector as last put. -/
theorem getByte_putByte {n : Nat} (v : BitVec (8 * n)) (i j : Nat) (b : Byte) (hi : i < n) (hj : j < n) :
    getByte (putByte v i b) j = if j = i then b else getByte v j := by
  apply BitVec.eq_of_getLsbD_eq
  intro x hx
  rw [getByte_getLsbD, putByte_getLsbD _ (by omega) _ _ _ (by omega)]
  by_cases h : j = i
  · subst h; simp [hx]
  · rw [if_neg (by omega), if_neg h, getByte_getLsbD]

/-! ## Any place -/

theorem State.unscrubbed_eq (s : State) (k : Nat) : s.unscrubbed k = (SMap.get {} s.grans (granOf k)).unscrubbed.getLsbD (lineOf k) := rfl
theorem sameLine {a b : Nat} : granOf a = granOf b ∧ lineOf a = lineOf b ↔ a / 128 = b / 128 := by
  unfold granOf lineOf; omega
theorem lineOf_lt (a : Nat) : lineOf a < 16384 := by unfold lineOf; omega
theorem State.unscrubbed_scrubLine (s : State) (k j : Nat) : (s.scrubLine k).unscrubbed j = (s.unscrubbed j && decide (j / 128 ≠ k / 128)) := by
  unfold State.scrubLine
  by_cases h : s.unscrubbed k = true
  · rw [if_pos h]
    simp only [State.unscrubbed_eq, State.setGran, State.gran]
    by_cases hg : granOf j = granOf k
    · rw [hg, SMap.get_set_same]
      rw [BitVec.getLsbD_and, BitVec.getLsbD_not, BitVec.getLsbD_twoPow]
      have h1 := lineOf_lt j
      have h2 := @sameLine j k
      by_cases hl : lineOf j = lineOf k
      · simp [hl, lineOf_lt, h2.1 ⟨hg, hl⟩]
      · have : j / 128 ≠ k / 128 := fun hc => hl (h2.2 hc).2
        simp [h1, Ne.symm hl, this]
    · rw [SMap.get_set_ne _ _ _ hg]
      have : j / 128 ≠ k / 128 := fun hc => hg (sameLine.2 hc).1
      simp [this]
  · rw [if_neg h]
    by_cases hj : j / 128 = k / 128
    · have h2 := sameLine.2 hj
      have : s.unscrubbed j = s.unscrubbed k := by rw [State.unscrubbed_eq, State.unscrubbed_eq, h2.1, h2.2]
      simp [this, h]
    · simp [hj]
theorem State.scrubLine_rest (s : State) (k : Nat) : (s.scrubLine k).sp = s.sp ∧ (s.scrubLine k).vrf = s.vrf ∧ (s.scrubLine k).acc = s.acc ∧
    (s.scrubLine k).planes = s.planes ∧ (s.scrubLine k).host = s.host := by
  unfold State.scrubLine; split <;> exact ⟨rfl, rfl, rfl, rfl, rfl⟩
theorem State.hbm_scrubLine (s : State) (k j : Nat) (h : j / 128 ≠ k / 128 ∨ s.unscrubbed k = false) :
    Mem.byte (s.scrubLine k).hbm j = Mem.byte s.hbm j := by
  unfold State.scrubLine
  split
  · rename_i hs
    rcases h with h | h
    · change Mem.byte (Mem.clear s.hbm (k / 128 * 128) 128) j = _
      rw [Mem.byte_clear, if_neg (by omega)]
    · rw [h] at hs; simp at hs
  · rfl
theorem State.hbm_scrubLine_in (s : State) (k j : Nat) (h : j / 128 = k / 128) (hs : s.unscrubbed k = true) : Mem.byte (s.scrubLine k).hbm j = 0 := by
  unfold State.scrubLine
  rw [if_pos hs]
  change Mem.byte (Mem.clear s.hbm (k / 128 * 128) 128) j = _
  rw [Mem.byte_clear, if_pos (by omega)]

/-- 03 R85, 05 R119: a byte reads as last written, and no other byte moves. -/
theorem State.readByte_writeByte (s : State) (l l' : Loc) (b : Byte) (h4 : l.tt ≠ 4) (h5 : l.tt ≤ 5) :
    (s.writeByte l b).readByte l' = if l' = l then b else s.readByte l' := by
  obtain ⟨tt, a⟩ := l
  obtain ⟨tt', a'⟩ := l'
  simp only at h4 h5
  have hne : tt' ≠ tt → ¬ ((⟨tt', a'⟩ : Loc) = ⟨tt, a⟩) := fun h hc => h (by injection hc)
  have heq : ((⟨tt, a'⟩ : Loc) = ⟨tt, a⟩) ↔ a' = a := ⟨fun h => by injection h, fun h => by rw [h]⟩
  have hrow : ∀ {x y : Nat}, x / 1024 = y / 1024 → x % 1024 = y % 1024 → x = y := by intro x y h1 h2; omega
  rcases (show tt = 0 ∨ tt = 1 ∨ tt = 2 ∨ tt = 3 ∨ tt = 5 by omega) with rfl | rfl | rfl | rfl | rfl
  · obtain ⟨r1, r2, r3, r4, r5⟩ := State.scrubLine_rest s a
    have hu : ∀ j, (s.writeByte ⟨0, a⟩ b).unscrubbed j = (s.unscrubbed j && decide (j / 128 ≠ a / 128)) := fun j => State.unscrubbed_scrubLine s a j
    by_cases ht : tt' = 0
    · subst ht
      have e : (s.writeByte ⟨0, a⟩ b).readByte ⟨0, a'⟩ = if (s.writeByte ⟨0, a⟩ b).unscrubbed a' then 0 else
          Mem.byte (Mem.setByte (s.scrubLine a).hbm a b) a' := rfl
      rw [e, hu, Mem.byte_setByte]
      by_cases ha : a' = a
      · subst ha; simp
      · rw [if_neg ha]
        have hr : (if (⟨0, a'⟩ : Loc) = ⟨0, a⟩ then b else s.readByte ⟨0, a'⟩) = s.readByte ⟨0, a'⟩ := if_neg (by rw [heq]; exact ha)
        rw [hr]
        change _ = if s.unscrubbed a' then 0 else Mem.byte s.hbm a'
        by_cases hl : a' / 128 = a / 128
        · have h2 := sameLine.2 hl
          have hs : s.unscrubbed a' = s.unscrubbed a := by rw [State.unscrubbed_eq, State.unscrubbed_eq, h2.1, h2.2]
          by_cases hus : s.unscrubbed a = true
          · simp [hl, hs, hus, State.hbm_scrubLine_in s a a' hl hus]
          · rw [Bool.not_eq_true] at hus
            simp [hl, hs, hus, State.hbm_scrubLine s a a' (.inr hus)]
        · simp [hl, State.hbm_scrubLine s a a' (.inl hl)]
    · rw [if_neg (hne ht)]
      unfold State.readByte State.writeByte
      simp only
      split <;> first | contradiction | (simp only [r1, r2, r3, r4, r5])
  · by_cases ht : tt' = 1
    · subst ht
      rw [show (s.writeByte ⟨1, a⟩ b).readByte ⟨1, a'⟩ = Mem.byte (Mem.setByte s.sp a b) a' from rfl, Mem.byte_setByte]
      simp only [heq]; rfl
    · rw [if_neg (hne ht)]
      unfold State.readByte State.writeByte
      simp only
      split <;> first | contradiction | rfl
  · by_cases ht : tt' = 2
    · subst ht
      rw [show (s.writeByte ⟨2, a⟩ b).readByte ⟨2, a'⟩ = getByte (SMap.get 0 (SMap.set 0 s.vrf (a / 1024)
        (putByte (SMap.get (0 : Vec) s.vrf (a / 1024)) (a % 1024) b)) (a' / 1024)) (a' % 1024) from rfl]
      by_cases hq : a' / 1024 = a / 1024
      · rw [hq, SMap.get_set_same, getByte_putByte (n := 1024) _ _ _ _ (by omega) (by omega)]
        by_cases hm : a' % 1024 = a % 1024
        · rw [if_pos hm, if_pos (heq.2 (hrow hq hm))]
        · rw [if_neg hm, if_neg (by rw [heq]; intro h; rw [h] at hm; exact hm rfl), ← hq]; rfl
      · rw [SMap.get_set_ne _ _ _ hq, if_neg (by rw [heq]; intro h; rw [h] at hq; exact hq rfl)]; rfl
    · rw [if_neg (hne ht)]
      unfold State.readByte State.writeByte
      simp only
      split <;> first | contradiction | rfl
  · by_cases ht : tt' = 3
    · subst ht
      rw [show (s.writeByte ⟨3, a⟩ b).readByte ⟨3, a'⟩ = getByte (SMap.get 0 (SMap.set 0 s.acc (a / 1024)
        (putByte (SMap.get (0 : Vec) s.acc (a / 1024)) (a % 1024) b)) (a' / 1024)) (a' % 1024) from rfl]
      by_cases hq : a' / 1024 = a / 1024
      · rw [hq, SMap.get_set_same, getByte_putByte (n := 1024) _ _ _ _ (by omega) (by omega)]
        by_cases hm : a' % 1024 = a % 1024
        · rw [if_pos hm, if_pos (heq.2 (hrow hq hm))]
        · rw [if_neg hm, if_neg (by rw [heq]; intro h; rw [h] at hm; exact hm rfl), ← hq]; rfl
      · rw [SMap.get_set_ne _ _ _ hq, if_neg (by rw [heq]; intro h; rw [h] at hq; exact hq rfl)]; rfl
    · rw [if_neg (hne ht)]
      unfold State.readByte State.writeByte
      simp only
      split <;> first | contradiction | rfl
  · by_cases ht : tt' = 5
    · subst ht
      rw [show (s.writeByte ⟨5, a⟩ b).readByte ⟨5, a'⟩ = Mem.byte (Mem.setByte s.host a b) a' from rfl, Mem.byte_setByte]
      simp only [heq]; rfl
    · rw [if_neg (hne ht)]
      unfold State.readByte State.writeByte
      simp only
      split <;> first | contradiction | rfl

/-- R85: bytes written in order: the last one for a place stands, and no other byte moves. -/
theorem State.writeAll_stores : ∀ (cells : List (Loc × Byte)) (s : State), (∀ c ∈ cells, c.1.tt ≠ 4 ∧ c.1.tt ≤ 5) → s.Stored (s.writeAll cells) cells
  | [], s, _ => ⟨by simp, fun _ _ => rfl⟩
  | (l, b) :: t, s, h => by
    have hl := h (l, b) (List.mem_cons_self ..)
    have h2 := State.writeAll_stores t (s.writeByte l b) fun c hc => h c (List.mem_cons_of_mem _ hc)
    refine ⟨?_, ?_⟩
    · intro l' b' hb
      by_cases he : (t.filter fun c => c.1 == l') = []
      · rw [List.filter_cons] at hb
        split at hb
        · rename_i hll
          have hll : l = l' := by simpa using hll
          subst hll
          rw [he] at hb
          have hbb : b = b' := by simpa using hb
          subst hbb
          rw [State.writeAll, h2.others l (by
            intro c hc hcl
            have : c ∈ t.filter fun c => c.1 == l := List.mem_filter.2 ⟨hc, by simpa using hcl⟩
            rw [he] at this; simp at this), State.readByte_writeByte _ _ _ _ hl.1 hl.2, if_pos rfl]
        · rw [he] at hb; simp at hb
      · refine h2.last l' b' ?_
        rw [List.filter_cons] at hb
        split at hb
        · rw [List.getLast?_cons, List.getLast?_eq_some_getLast he] at hb
          rw [List.getLast?_eq_some_getLast he]
          simpa only [Option.getD_some] using hb
        · exact hb
    · intro l' hl'
      rw [State.writeAll, h2.others l' fun c hc => hl' c (List.mem_cons_of_mem _ hc), State.readByte_writeByte _ _ _ _ hl.1 hl.2,
        if_neg fun h => hl' (l, b) (List.mem_cons_self ..) h.symm]

end Sys2Proof.Machine
end

