-- ==== Sys2Proof/Laws/State.lean ====
section
/-!
SUPPORT. What each update of the state leaves in each field, so that no proof unfolds a record update.
-/

namespace Sys2Proof.Machine

/-! ## `State.updCur` -/

@[simp] theorem State.updCur_cur (s : State) (f : Ctx → Ctx) : (s.updCur f).cur = f s.cur := rfl
@[simp] theorem State.updCur_ctxs (s : State) (f : Ctx → Ctx) : (s.updCur f).ctxs = s.ctxs := rfl
@[simp] theorem State.updCur_blocks (s : State) (f : Ctx → Ctx) : (s.updCur f).blocks = s.blocks := rfl
@[simp] theorem State.updCur_launches (s : State) (f : Ctx → Ctx) : (s.updCur f).launches = s.launches := rfl
@[simp] theorem State.updCur_parts (s : State) (f : Ctx → Ctx) : (s.updCur f).parts = s.parts := rfl
@[simp] theorem State.updCur_vfs (s : State) (f : Ctx → Ctx) : (s.updCur f).vfs = s.vfs := rfl
@[simp] theorem State.updCur_cores (s : State) (f : Ctx → Ctx) : (s.updCur f).cores = s.cores := rfl
@[simp] theorem State.updCur_tiles (s : State) (f : Ctx → Ctx) : (s.updCur f).tiles = s.tiles := rfl
@[simp] theorem State.updCur_fields (s : State) (f : Ctx → Ctx) : (s.updCur f).fields = s.fields := rfl
@[simp] theorem State.updCur_grans (s : State) (f : Ctx → Ctx) : (s.updCur f).grans = s.grans := rfl
@[simp] theorem State.updCur_hbm (s : State) (f : Ctx → Ctx) : (s.updCur f).hbm = s.hbm := rfl
@[simp] theorem State.updCur_host (s : State) (f : Ctx → Ctx) : (s.updCur f).host = s.host := rfl
@[simp] theorem State.updCur_sp (s : State) (f : Ctx → Ctx) : (s.updCur f).sp = s.sp := rfl
@[simp] theorem State.updCur_vrf (s : State) (f : Ctx → Ctx) : (s.updCur f).vrf = s.vrf := rfl
@[simp] theorem State.updCur_acc (s : State) (f : Ctx → Ctx) : (s.updCur f).acc = s.acc := rfl
@[simp] theorem State.updCur_planes (s : State) (f : Ctx → Ctx) : (s.updCur f).planes = s.planes := rfl
@[simp] theorem State.updCur_sums (s : State) (f : Ctx → Ctx) : (s.updCur f).sums = s.sums := rfl
@[simp] theorem State.updCur_bexp (s : State) (f : Ctx → Ctx) : (s.updCur f).bexp = s.bexp := rfl
@[simp] theorem State.updCur_poison (s : State) (f : Ctx → Ctx) : (s.updCur f).poison = s.poison := rfl
@[simp] theorem State.updCur_packets (s : State) (f : Ctx → Ctx) : (s.updCur f).packets = s.packets := rfl
@[simp] theorem State.updCur_drops (s : State) (f : Ctx → Ctx) : (s.updCur f).drops = s.drops := rfl
@[simp] theorem State.updCur_nacks (s : State) (f : Ctx → Ctx) : (s.updCur f).nacks = s.nacks := rfl
@[simp] theorem State.updCur_deliveries (s : State) (f : Ctx → Ctx) : (s.updCur f).deliveries = s.deliveries := rfl
@[simp] theorem State.updCur_raised (s : State) (f : Ctx → Ctx) : (s.updCur f).raised = s.raised := rfl
@[simp] theorem State.updCur_jobs (s : State) (f : Ctx → Ctx) : (s.updCur f).jobs = s.jobs := rfl
@[simp] theorem State.updCur_colls (s : State) (f : Ctx → Ctx) : (s.updCur f).colls = s.colls := rfl
@[simp] theorem State.updCur_mxops (s : State) (f : Ctx → Ctx) : (s.updCur f).mxops = s.mxops := rfl
@[simp] theorem State.updCur_commits (s : State) (f : Ctx → Ctx) : (s.updCur f).commits = s.commits := rfl
@[simp] theorem State.updCur_locks (s : State) (f : Ctx → Ctx) : (s.updCur f).locks = s.locks := rfl
@[simp] theorem State.updCur_walks (s : State) (f : Ctx → Ctx) : (s.updCur f).walks = s.walks := rfl
@[simp] theorem State.updCur_ports (s : State) (f : Ctx → Ctx) : (s.updCur f).ports = s.ports := rfl
@[simp] theorem State.updCur_peers (s : State) (f : Ctx → Ctx) : (s.updCur f).peers = s.peers := rfl
@[simp] theorem State.updCur_exports (s : State) (f : Ctx → Ctx) : (s.updCur f).exports = s.exports := rfl
@[simp] theorem State.updCur_copies (s : State) (f : Ctx → Ctx) : (s.updCur f).copies = s.copies := rfl
@[simp] theorem State.updCur_holders (s : State) (f : Ctx → Ctx) : (s.updCur f).holders = s.holders := rfl
@[simp] theorem State.updCur_lineApp (s : State) (f : Ctx → Ctx) : (s.updCur f).lineApp = s.lineApp := rfl
@[simp] theorem State.updCur_regions (s : State) (f : Ctx → Ctx) : (s.updCur f).regions = s.regions := rfl
@[simp] theorem State.updCur_module (s : State) (f : Ctx → Ctx) : (s.updCur f).module = s.module := rfl
@[simp] theorem State.updCur_inval (s : State) (f : Ctx → Ctx) : (s.updCur f).inval = s.inval := rfl
@[simp] theorem State.updCur_reply (s : State) (f : Ctx → Ctx) : (s.updCur f).reply = s.reply := rfl
@[simp] theorem State.updCur_oracle (s : State) (f : Ctx → Ctx) : (s.updCur f).oracle = s.oracle := rfl
@[simp] theorem State.updCur_nextId (s : State) (f : Ctx → Ctx) : (s.updCur f).nextId = s.nextId := rfl
@[simp] theorem State.updCur_turn (s : State) (f : Ctx → Ctx) : (s.updCur f).turn = s.turn := rfl
@[simp] theorem State.updCur_agenda (s : State) (f : Ctx → Ctx) : (s.updCur f).agenda = s.agenda := rfl
@[simp] theorem State.updCur_ev (s : State) (f : Ctx → Ctx) : (s.updCur f).ev = s.ev := rfl

/-! ## `State.setCore` -/

@[simp] theorem State.setCore_cur (s : State) (c : Nat) (v : Core) : (s.setCore c v).cur = s.cur := rfl
@[simp] theorem State.setCore_ctxs (s : State) (c : Nat) (v : Core) : (s.setCore c v).ctxs = s.ctxs := rfl
@[simp] theorem State.setCore_blocks (s : State) (c : Nat) (v : Core) : (s.setCore c v).blocks = s.blocks := rfl
@[simp] theorem State.setCore_launches (s : State) (c : Nat) (v : Core) : (s.setCore c v).launches = s.launches := rfl
@[simp] theorem State.setCore_parts (s : State) (c : Nat) (v : Core) : (s.setCore c v).parts = s.parts := rfl
@[simp] theorem State.setCore_vfs (s : State) (c : Nat) (v : Core) : (s.setCore c v).vfs = s.vfs := rfl
@[simp] theorem State.setCore_cores (s : State) (c : Nat) (v : Core) : (s.setCore c v).cores = SMap.set {} s.cores c v := rfl
@[simp] theorem State.setCore_tiles (s : State) (c : Nat) (v : Core) : (s.setCore c v).tiles = s.tiles := rfl
@[simp] theorem State.setCore_fields (s : State) (c : Nat) (v : Core) : (s.setCore c v).fields = s.fields := rfl
@[simp] theorem State.setCore_grans (s : State) (c : Nat) (v : Core) : (s.setCore c v).grans = s.grans := rfl
@[simp] theorem State.setCore_hbm (s : State) (c : Nat) (v : Core) : (s.setCore c v).hbm = s.hbm := rfl
@[simp] theorem State.setCore_host (s : State) (c : Nat) (v : Core) : (s.setCore c v).host = s.host := rfl
@[simp] theorem State.setCore_sp (s : State) (c : Nat) (v : Core) : (s.setCore c v).sp = s.sp := rfl
@[simp] theorem State.setCore_vrf (s : State) (c : Nat) (v : Core) : (s.setCore c v).vrf = s.vrf := rfl
@[simp] theorem State.setCore_acc (s : State) (c : Nat) (v : Core) : (s.setCore c v).acc = s.acc := rfl
@[simp] theorem State.setCore_planes (s : State) (c : Nat) (v : Core) : (s.setCore c v).planes = s.planes := rfl
@[simp] theorem State.setCore_sums (s : State) (c : Nat) (v : Core) : (s.setCore c v).sums = s.sums := rfl
@[simp] theorem State.setCore_bexp (s : State) (c : Nat) (v : Core) : (s.setCore c v).bexp = s.bexp := rfl
@[simp] theorem State.setCore_poison (s : State) (c : Nat) (v : Core) : (s.setCore c v).poison = s.poison := rfl
@[simp] theorem State.setCore_packets (s : State) (c : Nat) (v : Core) : (s.setCore c v).packets = s.packets := rfl
@[simp] theorem State.setCore_drops (s : State) (c : Nat) (v : Core) : (s.setCore c v).drops = s.drops := rfl
@[simp] theorem State.setCore_nacks (s : State) (c : Nat) (v : Core) : (s.setCore c v).nacks = s.nacks := rfl
@[simp] theorem State.setCore_deliveries (s : State) (c : Nat) (v : Core) : (s.setCore c v).deliveries = s.deliveries := rfl
@[simp] theorem State.setCore_raised (s : State) (c : Nat) (v : Core) : (s.setCore c v).raised = s.raised := rfl
@[simp] theorem State.setCore_jobs (s : State) (c : Nat) (v : Core) : (s.setCore c v).jobs = s.jobs := rfl
@[simp] theorem State.setCore_colls (s : State) (c : Nat) (v : Core) : (s.setCore c v).colls = s.colls := rfl
@[simp] theorem State.setCore_mxops (s : State) (c : Nat) (v : Core) : (s.setCore c v).mxops = s.mxops := rfl
@[simp] theorem State.setCore_commits (s : State) (c : Nat) (v : Core) : (s.setCore c v).commits = s.commits := rfl
@[simp] theorem State.setCore_locks (s : State) (c : Nat) (v : Core) : (s.setCore c v).locks = s.locks := rfl
@[simp] theorem State.setCore_walks (s : State) (c : Nat) (v : Core) : (s.setCore c v).walks = s.walks := rfl
@[simp] theorem State.setCore_ports (s : State) (c : Nat) (v : Core) : (s.setCore c v).ports = s.ports := rfl
@[simp] theorem State.setCore_peers (s : State) (c : Nat) (v : Core) : (s.setCore c v).peers = s.peers := rfl
@[simp] theorem State.setCore_exports (s : State) (c : Nat) (v : Core) : (s.setCore c v).exports = s.exports := rfl
@[simp] theorem State.setCore_copies (s : State) (c : Nat) (v : Core) : (s.setCore c v).copies = s.copies := rfl
@[simp] theorem State.setCore_holders (s : State) (c : Nat) (v : Core) : (s.setCore c v).holders = s.holders := rfl
@[simp] theorem State.setCore_lineApp (s : State) (c : Nat) (v : Core) : (s.setCore c v).lineApp = s.lineApp := rfl
@[simp] theorem State.setCore_regions (s : State) (c : Nat) (v : Core) : (s.setCore c v).regions = s.regions := rfl
@[simp] theorem State.setCore_module (s : State) (c : Nat) (v : Core) : (s.setCore c v).module = s.module := rfl
@[simp] theorem State.setCore_inval (s : State) (c : Nat) (v : Core) : (s.setCore c v).inval = s.inval := rfl
@[simp] theorem State.setCore_reply (s : State) (c : Nat) (v : Core) : (s.setCore c v).reply = s.reply := rfl
@[simp] theorem State.setCore_oracle (s : State) (c : Nat) (v : Core) : (s.setCore c v).oracle = s.oracle := rfl
@[simp] theorem State.setCore_nextId (s : State) (c : Nat) (v : Core) : (s.setCore c v).nextId = s.nextId := rfl
@[simp] theorem State.setCore_turn (s : State) (c : Nat) (v : Core) : (s.setCore c v).turn = s.turn := rfl
@[simp] theorem State.setCore_agenda (s : State) (c : Nat) (v : Core) : (s.setCore c v).agenda = s.agenda := rfl
@[simp] theorem State.setCore_ev (s : State) (c : Nat) (v : Core) : (s.setCore c v).ev = s.ev := rfl

/-! ## `State.updCore` -/

@[simp] theorem State.updCore_cur (s : State) (c : Nat) (f : Core → Core) : (s.updCore c f).cur = s.cur := rfl
@[simp] theorem State.updCore_ctxs (s : State) (c : Nat) (f : Core → Core) : (s.updCore c f).ctxs = s.ctxs := rfl
@[simp] theorem State.updCore_blocks (s : State) (c : Nat) (f : Core → Core) : (s.updCore c f).blocks = s.blocks := rfl
@[simp] theorem State.updCore_launches (s : State) (c : Nat) (f : Core → Core) : (s.updCore c f).launches = s.launches := rfl
@[simp] theorem State.updCore_parts (s : State) (c : Nat) (f : Core → Core) : (s.updCore c f).parts = s.parts := rfl
@[simp] theorem State.updCore_vfs (s : State) (c : Nat) (f : Core → Core) : (s.updCore c f).vfs = s.vfs := rfl
@[simp] theorem State.updCore_cores (s : State) (c : Nat) (f : Core → Core) : (s.updCore c f).cores = SMap.set {} s.cores c (f (s.core c)) := rfl
@[simp] theorem State.updCore_tiles (s : State) (c : Nat) (f : Core → Core) : (s.updCore c f).tiles = s.tiles := rfl
@[simp] theorem State.updCore_fields (s : State) (c : Nat) (f : Core → Core) : (s.updCore c f).fields = s.fields := rfl
@[simp] theorem State.updCore_grans (s : State) (c : Nat) (f : Core → Core) : (s.updCore c f).grans = s.grans := rfl
@[simp] theorem State.updCore_hbm (s : State) (c : Nat) (f : Core → Core) : (s.updCore c f).hbm = s.hbm := rfl
@[simp] theorem State.updCore_host (s : State) (c : Nat) (f : Core → Core) : (s.updCore c f).host = s.host := rfl
@[simp] theorem State.updCore_sp (s : State) (c : Nat) (f : Core → Core) : (s.updCore c f).sp = s.sp := rfl
@[simp] theorem State.updCore_vrf (s : State) (c : Nat) (f : Core → Core) : (s.updCore c f).vrf = s.vrf := rfl
@[simp] theorem State.updCore_acc (s : State) (c : Nat) (f : Core → Core) : (s.updCore c f).acc = s.acc := rfl
@[simp] theorem State.updCore_planes (s : State) (c : Nat) (f : Core → Core) : (s.updCore c f).planes = s.planes := rfl
@[simp] theorem State.updCore_sums (s : State) (c : Nat) (f : Core → Core) : (s.updCore c f).sums = s.sums := rfl
@[simp] theorem State.updCore_bexp (s : State) (c : Nat) (f : Core → Core) : (s.updCore c f).bexp = s.bexp := rfl
@[simp] theorem State.updCore_poison (s : State) (c : Nat) (f : Core → Core) : (s.updCore c f).poison = s.poison := rfl
@[simp] theorem State.updCore_packets (s : State) (c : Nat) (f : Core → Core) : (s.updCore c f).packets = s.packets := rfl
@[simp] theorem State.updCore_drops (s : State) (c : Nat) (f : Core → Core) : (s.updCore c f).drops = s.drops := rfl
@[simp] theorem State.updCore_nacks (s : State) (c : Nat) (f : Core → Core) : (s.updCore c f).nacks = s.nacks := rfl
@[simp] theorem State.updCore_deliveries (s : State) (c : Nat) (f : Core → Core) : (s.updCore c f).deliveries = s.deliveries := rfl
@[simp] theorem State.updCore_raised (s : State) (c : Nat) (f : Core → Core) : (s.updCore c f).raised = s.raised := rfl
@[simp] theorem State.updCore_jobs (s : State) (c : Nat) (f : Core → Core) : (s.updCore c f).jobs = s.jobs := rfl
@[simp] theorem State.updCore_colls (s : State) (c : Nat) (f : Core → Core) : (s.updCore c f).colls = s.colls := rfl
@[simp] theorem State.updCore_mxops (s : State) (c : Nat) (f : Core → Core) : (s.updCore c f).mxops = s.mxops := rfl
@[simp] theorem State.updCore_commits (s : State) (c : Nat) (f : Core → Core) : (s.updCore c f).commits = s.commits := rfl
@[simp] theorem State.updCore_locks (s : State) (c : Nat) (f : Core → Core) : (s.updCore c f).locks = s.locks := rfl
@[simp] theorem State.updCore_walks (s : State) (c : Nat) (f : Core → Core) : (s.updCore c f).walks = s.walks := rfl
@[simp] theorem State.updCore_ports (s : State) (c : Nat) (f : Core → Core) : (s.updCore c f).ports = s.ports := rfl
@[simp] theorem State.updCore_peers (s : State) (c : Nat) (f : Core → Core) : (s.updCore c f).peers = s.peers := rfl
@[simp] theorem State.updCore_exports (s : State) (c : Nat) (f : Core → Core) : (s.updCore c f).exports = s.exports := rfl
@[simp] theorem State.updCore_copies (s : State) (c : Nat) (f : Core → Core) : (s.updCore c f).copies = s.copies := rfl
@[simp] theorem State.updCore_holders (s : State) (c : Nat) (f : Core → Core) : (s.updCore c f).holders = s.holders := rfl
@[simp] theorem State.updCore_lineApp (s : State) (c : Nat) (f : Core → Core) : (s.updCore c f).lineApp = s.lineApp := rfl
@[simp] theorem State.updCore_regions (s : State) (c : Nat) (f : Core → Core) : (s.updCore c f).regions = s.regions := rfl
@[simp] theorem State.updCore_module (s : State) (c : Nat) (f : Core → Core) : (s.updCore c f).module = s.module := rfl
@[simp] theorem State.updCore_inval (s : State) (c : Nat) (f : Core → Core) : (s.updCore c f).inval = s.inval := rfl
@[simp] theorem State.updCore_reply (s : State) (c : Nat) (f : Core → Core) : (s.updCore c f).reply = s.reply := rfl
@[simp] theorem State.updCore_oracle (s : State) (c : Nat) (f : Core → Core) : (s.updCore c f).oracle = s.oracle := rfl
@[simp] theorem State.updCore_nextId (s : State) (c : Nat) (f : Core → Core) : (s.updCore c f).nextId = s.nextId := rfl
@[simp] theorem State.updCore_turn (s : State) (c : Nat) (f : Core → Core) : (s.updCore c f).turn = s.turn := rfl
@[simp] theorem State.updCore_agenda (s : State) (c : Nat) (f : Core → Core) : (s.updCore c f).agenda = s.agenda := rfl
@[simp] theorem State.updCore_ev (s : State) (c : Nat) (f : Core → Core) : (s.updCore c f).ev = s.ev := rfl

/-! ## `State.setTile` -/

@[simp] theorem State.setTile_cur (s : State) (c : Nat) (v : Tile) : (s.setTile c v).cur = s.cur := rfl
@[simp] theorem State.setTile_ctxs (s : State) (c : Nat) (v : Tile) : (s.setTile c v).ctxs = s.ctxs := rfl
@[simp] theorem State.setTile_blocks (s : State) (c : Nat) (v : Tile) : (s.setTile c v).blocks = s.blocks := rfl
@[simp] theorem State.setTile_launches (s : State) (c : Nat) (v : Tile) : (s.setTile c v).launches = s.launches := rfl
@[simp] theorem State.setTile_parts (s : State) (c : Nat) (v : Tile) : (s.setTile c v).parts = s.parts := rfl
@[simp] theorem State.setTile_vfs (s : State) (c : Nat) (v : Tile) : (s.setTile c v).vfs = s.vfs := rfl
@[simp] theorem State.setTile_cores (s : State) (c : Nat) (v : Tile) : (s.setTile c v).cores = s.cores := rfl
@[simp] theorem State.setTile_tiles (s : State) (c : Nat) (v : Tile) : (s.setTile c v).tiles = SMap.set {} s.tiles c v := rfl
@[simp] theorem State.setTile_fields (s : State) (c : Nat) (v : Tile) : (s.setTile c v).fields = s.fields := rfl
@[simp] theorem State.setTile_grans (s : State) (c : Nat) (v : Tile) : (s.setTile c v).grans = s.grans := rfl
@[simp] theorem State.setTile_hbm (s : State) (c : Nat) (v : Tile) : (s.setTile c v).hbm = s.hbm := rfl
@[simp] theorem State.setTile_host (s : State) (c : Nat) (v : Tile) : (s.setTile c v).host = s.host := rfl
@[simp] theorem State.setTile_sp (s : State) (c : Nat) (v : Tile) : (s.setTile c v).sp = s.sp := rfl
@[simp] theorem State.setTile_vrf (s : State) (c : Nat) (v : Tile) : (s.setTile c v).vrf = s.vrf := rfl
@[simp] theorem State.setTile_acc (s : State) (c : Nat) (v : Tile) : (s.setTile c v).acc = s.acc := rfl
@[simp] theorem State.setTile_planes (s : State) (c : Nat) (v : Tile) : (s.setTile c v).planes = s.planes := rfl
@[simp] theorem State.setTile_sums (s : State) (c : Nat) (v : Tile) : (s.setTile c v).sums = s.sums := rfl
@[simp] theorem State.setTile_bexp (s : State) (c : Nat) (v : Tile) : (s.setTile c v).bexp = s.bexp := rfl
@[simp] theorem State.setTile_poison (s : State) (c : Nat) (v : Tile) : (s.setTile c v).poison = s.poison := rfl
@[simp] theorem State.setTile_packets (s : State) (c : Nat) (v : Tile) : (s.setTile c v).packets = s.packets := rfl
@[simp] theorem State.setTile_drops (s : State) (c : Nat) (v : Tile) : (s.setTile c v).drops = s.drops := rfl
@[simp] theorem State.setTile_nacks (s : State) (c : Nat) (v : Tile) : (s.setTile c v).nacks = s.nacks := rfl
@[simp] theorem State.setTile_deliveries (s : State) (c : Nat) (v : Tile) : (s.setTile c v).deliveries = s.deliveries := rfl
@[simp] theorem State.setTile_raised (s : State) (c : Nat) (v : Tile) : (s.setTile c v).raised = s.raised := rfl
@[simp] theorem State.setTile_jobs (s : State) (c : Nat) (v : Tile) : (s.setTile c v).jobs = s.jobs := rfl
@[simp] theorem State.setTile_colls (s : State) (c : Nat) (v : Tile) : (s.setTile c v).colls = s.colls := rfl
@[simp] theorem State.setTile_mxops (s : State) (c : Nat) (v : Tile) : (s.setTile c v).mxops = s.mxops := rfl
@[simp] theorem State.setTile_commits (s : State) (c : Nat) (v : Tile) : (s.setTile c v).commits = s.commits := rfl
@[simp] theorem State.setTile_locks (s : State) (c : Nat) (v : Tile) : (s.setTile c v).locks = s.locks := rfl
@[simp] theorem State.setTile_walks (s : State) (c : Nat) (v : Tile) : (s.setTile c v).walks = s.walks := rfl
@[simp] theorem State.setTile_ports (s : State) (c : Nat) (v : Tile) : (s.setTile c v).ports = s.ports := rfl
@[simp] theorem State.setTile_peers (s : State) (c : Nat) (v : Tile) : (s.setTile c v).peers = s.peers := rfl
@[simp] theorem State.setTile_exports (s : State) (c : Nat) (v : Tile) : (s.setTile c v).exports = s.exports := rfl
@[simp] theorem State.setTile_copies (s : State) (c : Nat) (v : Tile) : (s.setTile c v).copies = s.copies := rfl
@[simp] theorem State.setTile_holders (s : State) (c : Nat) (v : Tile) : (s.setTile c v).holders = s.holders := rfl
@[simp] theorem State.setTile_lineApp (s : State) (c : Nat) (v : Tile) : (s.setTile c v).lineApp = s.lineApp := rfl
@[simp] theorem State.setTile_regions (s : State) (c : Nat) (v : Tile) : (s.setTile c v).regions = s.regions := rfl
@[simp] theorem State.setTile_module (s : State) (c : Nat) (v : Tile) : (s.setTile c v).module = s.module := rfl
@[simp] theorem State.setTile_inval (s : State) (c : Nat) (v : Tile) : (s.setTile c v).inval = s.inval := rfl
@[simp] theorem State.setTile_reply (s : State) (c : Nat) (v : Tile) : (s.setTile c v).reply = s.reply := rfl
@[simp] theorem State.setTile_oracle (s : State) (c : Nat) (v : Tile) : (s.setTile c v).oracle = s.oracle := rfl
@[simp] theorem State.setTile_nextId (s : State) (c : Nat) (v : Tile) : (s.setTile c v).nextId = s.nextId := rfl
@[simp] theorem State.setTile_turn (s : State) (c : Nat) (v : Tile) : (s.setTile c v).turn = s.turn := rfl
@[simp] theorem State.setTile_agenda (s : State) (c : Nat) (v : Tile) : (s.setTile c v).agenda = s.agenda := rfl
@[simp] theorem State.setTile_ev (s : State) (c : Nat) (v : Tile) : (s.setTile c v).ev = s.ev := rfl

/-! ## `State.updTile` -/

@[simp] theorem State.updTile_cur (s : State) (c : Nat) (f : Tile → Tile) : (s.updTile c f).cur = s.cur := rfl
@[simp] theorem State.updTile_ctxs (s : State) (c : Nat) (f : Tile → Tile) : (s.updTile c f).ctxs = s.ctxs := rfl
@[simp] theorem State.updTile_blocks (s : State) (c : Nat) (f : Tile → Tile) : (s.updTile c f).blocks = s.blocks := rfl
@[simp] theorem State.updTile_launches (s : State) (c : Nat) (f : Tile → Tile) : (s.updTile c f).launches = s.launches := rfl
@[simp] theorem State.updTile_parts (s : State) (c : Nat) (f : Tile → Tile) : (s.updTile c f).parts = s.parts := rfl
@[simp] theorem State.updTile_vfs (s : State) (c : Nat) (f : Tile → Tile) : (s.updTile c f).vfs = s.vfs := rfl
@[simp] theorem State.updTile_cores (s : State) (c : Nat) (f : Tile → Tile) : (s.updTile c f).cores = s.cores := rfl
@[simp] theorem State.updTile_tiles (s : State) (c : Nat) (f : Tile → Tile) : (s.updTile c f).tiles = SMap.set {} s.tiles c (f (s.tile c)) := rfl
@[simp] theorem State.updTile_fields (s : State) (c : Nat) (f : Tile → Tile) : (s.updTile c f).fields = s.fields := rfl
@[simp] theorem State.updTile_grans (s : State) (c : Nat) (f : Tile → Tile) : (s.updTile c f).grans = s.grans := rfl
@[simp] theorem State.updTile_hbm (s : State) (c : Nat) (f : Tile → Tile) : (s.updTile c f).hbm = s.hbm := rfl
@[simp] theorem State.updTile_host (s : State) (c : Nat) (f : Tile → Tile) : (s.updTile c f).host = s.host := rfl
@[simp] theorem State.updTile_sp (s : State) (c : Nat) (f : Tile → Tile) : (s.updTile c f).sp = s.sp := rfl
@[simp] theorem State.updTile_vrf (s : State) (c : Nat) (f : Tile → Tile) : (s.updTile c f).vrf = s.vrf := rfl
@[simp] theorem State.updTile_acc (s : State) (c : Nat) (f : Tile → Tile) : (s.updTile c f).acc = s.acc := rfl
@[simp] theorem State.updTile_planes (s : State) (c : Nat) (f : Tile → Tile) : (s.updTile c f).planes = s.planes := rfl
@[simp] theorem State.updTile_sums (s : State) (c : Nat) (f : Tile → Tile) : (s.updTile c f).sums = s.sums := rfl
@[simp] theorem State.updTile_bexp (s : State) (c : Nat) (f : Tile → Tile) : (s.updTile c f).bexp = s.bexp := rfl
@[simp] theorem State.updTile_poison (s : State) (c : Nat) (f : Tile → Tile) : (s.updTile c f).poison = s.poison := rfl
@[simp] theorem State.updTile_packets (s : State) (c : Nat) (f : Tile → Tile) : (s.updTile c f).packets = s.packets := rfl
@[simp] theorem State.updTile_drops (s : State) (c : Nat) (f : Tile → Tile) : (s.updTile c f).drops = s.drops := rfl
@[simp] theorem State.updTile_nacks (s : State) (c : Nat) (f : Tile → Tile) : (s.updTile c f).nacks = s.nacks := rfl
@[simp] theorem State.updTile_deliveries (s : State) (c : Nat) (f : Tile → Tile) : (s.updTile c f).deliveries = s.deliveries := rfl
@[simp] theorem State.updTile_raised (s : State) (c : Nat) (f : Tile → Tile) : (s.updTile c f).raised = s.raised := rfl
@[simp] theorem State.updTile_jobs (s : State) (c : Nat) (f : Tile → Tile) : (s.updTile c f).jobs = s.jobs := rfl
@[simp] theorem State.updTile_colls (s : State) (c : Nat) (f : Tile → Tile) : (s.updTile c f).colls = s.colls := rfl
@[simp] theorem State.updTile_mxops (s : State) (c : Nat) (f : Tile → Tile) : (s.updTile c f).mxops = s.mxops := rfl
@[simp] theorem State.updTile_commits (s : State) (c : Nat) (f : Tile → Tile) : (s.updTile c f).commits = s.commits := rfl
@[simp] theorem State.updTile_locks (s : State) (c : Nat) (f : Tile → Tile) : (s.updTile c f).locks = s.locks := rfl
@[simp] theorem State.updTile_walks (s : State) (c : Nat) (f : Tile → Tile) : (s.updTile c f).walks = s.walks := rfl
@[simp] theorem State.updTile_ports (s : State) (c : Nat) (f : Tile → Tile) : (s.updTile c f).ports = s.ports := rfl
@[simp] theorem State.updTile_peers (s : State) (c : Nat) (f : Tile → Tile) : (s.updTile c f).peers = s.peers := rfl
@[simp] theorem State.updTile_exports (s : State) (c : Nat) (f : Tile → Tile) : (s.updTile c f).exports = s.exports := rfl
@[simp] theorem State.updTile_copies (s : State) (c : Nat) (f : Tile → Tile) : (s.updTile c f).copies = s.copies := rfl
@[simp] theorem State.updTile_holders (s : State) (c : Nat) (f : Tile → Tile) : (s.updTile c f).holders = s.holders := rfl
@[simp] theorem State.updTile_lineApp (s : State) (c : Nat) (f : Tile → Tile) : (s.updTile c f).lineApp = s.lineApp := rfl
@[simp] theorem State.updTile_regions (s : State) (c : Nat) (f : Tile → Tile) : (s.updTile c f).regions = s.regions := rfl
@[simp] theorem State.updTile_module (s : State) (c : Nat) (f : Tile → Tile) : (s.updTile c f).module = s.module := rfl
@[simp] theorem State.updTile_inval (s : State) (c : Nat) (f : Tile → Tile) : (s.updTile c f).inval = s.inval := rfl
@[simp] theorem State.updTile_reply (s : State) (c : Nat) (f : Tile → Tile) : (s.updTile c f).reply = s.reply := rfl
@[simp] theorem State.updTile_oracle (s : State) (c : Nat) (f : Tile → Tile) : (s.updTile c f).oracle = s.oracle := rfl
@[simp] theorem State.updTile_nextId (s : State) (c : Nat) (f : Tile → Tile) : (s.updTile c f).nextId = s.nextId := rfl
@[simp] theorem State.updTile_turn (s : State) (c : Nat) (f : Tile → Tile) : (s.updTile c f).turn = s.turn := rfl
@[simp] theorem State.updTile_agenda (s : State) (c : Nat) (f : Tile → Tile) : (s.updTile c f).agenda = s.agenda := rfl
@[simp] theorem State.updTile_ev (s : State) (c : Nat) (f : Tile → Tile) : (s.updTile c f).ev = s.ev := rfl

/-! ## `State.updFld` -/

@[simp] theorem State.updFld_cur (s : State) (c : Nat) (f : Field → Field) : (s.updFld c f).cur = s.cur := rfl
@[simp] theorem State.updFld_ctxs (s : State) (c : Nat) (f : Field → Field) : (s.updFld c f).ctxs = s.ctxs := rfl
@[simp] theorem State.updFld_blocks (s : State) (c : Nat) (f : Field → Field) : (s.updFld c f).blocks = s.blocks := rfl
@[simp] theorem State.updFld_launches (s : State) (c : Nat) (f : Field → Field) : (s.updFld c f).launches = s.launches := rfl
@[simp] theorem State.updFld_parts (s : State) (c : Nat) (f : Field → Field) : (s.updFld c f).parts = s.parts := rfl
@[simp] theorem State.updFld_vfs (s : State) (c : Nat) (f : Field → Field) : (s.updFld c f).vfs = s.vfs := rfl
@[simp] theorem State.updFld_cores (s : State) (c : Nat) (f : Field → Field) : (s.updFld c f).cores = s.cores := rfl
@[simp] theorem State.updFld_tiles (s : State) (c : Nat) (f : Field → Field) : (s.updFld c f).tiles = s.tiles := rfl
@[simp] theorem State.updFld_fields (s : State) (c : Nat) (f : Field → Field) : (s.updFld c f).fields = SMap.set {} s.fields c (f (s.fld c)) := rfl
@[simp] theorem State.updFld_grans (s : State) (c : Nat) (f : Field → Field) : (s.updFld c f).grans = s.grans := rfl
@[simp] theorem State.updFld_hbm (s : State) (c : Nat) (f : Field → Field) : (s.updFld c f).hbm = s.hbm := rfl
@[simp] theorem State.updFld_host (s : State) (c : Nat) (f : Field → Field) : (s.updFld c f).host = s.host := rfl
@[simp] theorem State.updFld_sp (s : State) (c : Nat) (f : Field → Field) : (s.updFld c f).sp = s.sp := rfl
@[simp] theorem State.updFld_vrf (s : State) (c : Nat) (f : Field → Field) : (s.updFld c f).vrf = s.vrf := rfl
@[simp] theorem State.updFld_acc (s : State) (c : Nat) (f : Field → Field) : (s.updFld c f).acc = s.acc := rfl
@[simp] theorem State.updFld_planes (s : State) (c : Nat) (f : Field → Field) : (s.updFld c f).planes = s.planes := rfl
@[simp] theorem State.updFld_sums (s : State) (c : Nat) (f : Field → Field) : (s.updFld c f).sums = s.sums := rfl
@[simp] theorem State.updFld_bexp (s : State) (c : Nat) (f : Field → Field) : (s.updFld c f).bexp = s.bexp := rfl
@[simp] theorem State.updFld_poison (s : State) (c : Nat) (f : Field → Field) : (s.updFld c f).poison = s.poison := rfl
@[simp] theorem State.updFld_packets (s : State) (c : Nat) (f : Field → Field) : (s.updFld c f).packets = s.packets := rfl
@[simp] theorem State.updFld_drops (s : State) (c : Nat) (f : Field → Field) : (s.updFld c f).drops = s.drops := rfl
@[simp] theorem State.updFld_nacks (s : State) (c : Nat) (f : Field → Field) : (s.updFld c f).nacks = s.nacks := rfl
@[simp] theorem State.updFld_deliveries (s : State) (c : Nat) (f : Field → Field) : (s.updFld c f).deliveries = s.deliveries := rfl
@[simp] theorem State.updFld_raised (s : State) (c : Nat) (f : Field → Field) : (s.updFld c f).raised = s.raised := rfl
@[simp] theorem State.updFld_jobs (s : State) (c : Nat) (f : Field → Field) : (s.updFld c f).jobs = s.jobs := rfl
@[simp] theorem State.updFld_colls (s : State) (c : Nat) (f : Field → Field) : (s.updFld c f).colls = s.colls := rfl
@[simp] theorem State.updFld_mxops (s : State) (c : Nat) (f : Field → Field) : (s.updFld c f).mxops = s.mxops := rfl
@[simp] theorem State.updFld_commits (s : State) (c : Nat) (f : Field → Field) : (s.updFld c f).commits = s.commits := rfl
@[simp] theorem State.updFld_locks (s : State) (c : Nat) (f : Field → Field) : (s.updFld c f).locks = s.locks := rfl
@[simp] theorem State.updFld_walks (s : State) (c : Nat) (f : Field → Field) : (s.updFld c f).walks = s.walks := rfl
@[simp] theorem State.updFld_ports (s : State) (c : Nat) (f : Field → Field) : (s.updFld c f).ports = s.ports := rfl
@[simp] theorem State.updFld_peers (s : State) (c : Nat) (f : Field → Field) : (s.updFld c f).peers = s.peers := rfl
@[simp] theorem State.updFld_exports (s : State) (c : Nat) (f : Field → Field) : (s.updFld c f).exports = s.exports := rfl
@[simp] theorem State.updFld_copies (s : State) (c : Nat) (f : Field → Field) : (s.updFld c f).copies = s.copies := rfl
@[simp] theorem State.updFld_holders (s : State) (c : Nat) (f : Field → Field) : (s.updFld c f).holders = s.holders := rfl
@[simp] theorem State.updFld_lineApp (s : State) (c : Nat) (f : Field → Field) : (s.updFld c f).lineApp = s.lineApp := rfl
@[simp] theorem State.updFld_regions (s : State) (c : Nat) (f : Field → Field) : (s.updFld c f).regions = s.regions := rfl
@[simp] theorem State.updFld_module (s : State) (c : Nat) (f : Field → Field) : (s.updFld c f).module = s.module := rfl
@[simp] theorem State.updFld_inval (s : State) (c : Nat) (f : Field → Field) : (s.updFld c f).inval = s.inval := rfl
@[simp] theorem State.updFld_reply (s : State) (c : Nat) (f : Field → Field) : (s.updFld c f).reply = s.reply := rfl
@[simp] theorem State.updFld_oracle (s : State) (c : Nat) (f : Field → Field) : (s.updFld c f).oracle = s.oracle := rfl
@[simp] theorem State.updFld_nextId (s : State) (c : Nat) (f : Field → Field) : (s.updFld c f).nextId = s.nextId := rfl
@[simp] theorem State.updFld_turn (s : State) (c : Nat) (f : Field → Field) : (s.updFld c f).turn = s.turn := rfl
@[simp] theorem State.updFld_agenda (s : State) (c : Nat) (f : Field → Field) : (s.updFld c f).agenda = s.agenda := rfl
@[simp] theorem State.updFld_ev (s : State) (c : Nat) (f : Field → Field) : (s.updFld c f).ev = s.ev := rfl

/-! ## `State.setGran` -/

@[simp] theorem State.setGran_cur (s : State) (c : Nat) (v : Granule) : (s.setGran c v).cur = s.cur := rfl
@[simp] theorem State.setGran_ctxs (s : State) (c : Nat) (v : Granule) : (s.setGran c v).ctxs = s.ctxs := rfl
@[simp] theorem State.setGran_blocks (s : State) (c : Nat) (v : Granule) : (s.setGran c v).blocks = s.blocks := rfl
@[simp] theorem State.setGran_launches (s : State) (c : Nat) (v : Granule) : (s.setGran c v).launches = s.launches := rfl
@[simp] theorem State.setGran_parts (s : State) (c : Nat) (v : Granule) : (s.setGran c v).parts = s.parts := rfl
@[simp] theorem State.setGran_vfs (s : State) (c : Nat) (v : Granule) : (s.setGran c v).vfs = s.vfs := rfl
@[simp] theorem State.setGran_cores (s : State) (c : Nat) (v : Granule) : (s.setGran c v).cores = s.cores := rfl
@[simp] theorem State.setGran_tiles (s : State) (c : Nat) (v : Granule) : (s.setGran c v).tiles = s.tiles := rfl
@[simp] theorem State.setGran_fields (s : State) (c : Nat) (v : Granule) : (s.setGran c v).fields = s.fields := rfl
@[simp] theorem State.setGran_grans (s : State) (c : Nat) (v : Granule) : (s.setGran c v).grans = SMap.set {} s.grans c v := rfl
@[simp] theorem State.setGran_hbm (s : State) (c : Nat) (v : Granule) : (s.setGran c v).hbm = s.hbm := rfl
@[simp] theorem State.setGran_host (s : State) (c : Nat) (v : Granule) : (s.setGran c v).host = s.host := rfl
@[simp] theorem State.setGran_sp (s : State) (c : Nat) (v : Granule) : (s.setGran c v).sp = s.sp := rfl
@[simp] theorem State.setGran_vrf (s : State) (c : Nat) (v : Granule) : (s.setGran c v).vrf = s.vrf := rfl
@[simp] theorem State.setGran_acc (s : State) (c : Nat) (v : Granule) : (s.setGran c v).acc = s.acc := rfl
@[simp] theorem State.setGran_planes (s : State) (c : Nat) (v : Granule) : (s.setGran c v).planes = s.planes := rfl
@[simp] theorem State.setGran_sums (s : State) (c : Nat) (v : Granule) : (s.setGran c v).sums = s.sums := rfl
@[simp] theorem State.setGran_bexp (s : State) (c : Nat) (v : Granule) : (s.setGran c v).bexp = s.bexp := rfl
@[simp] theorem State.setGran_poison (s : State) (c : Nat) (v : Granule) : (s.setGran c v).poison = s.poison := rfl
@[simp] theorem State.setGran_packets (s : State) (c : Nat) (v : Granule) : (s.setGran c v).packets = s.packets := rfl
@[simp] theorem State.setGran_drops (s : State) (c : Nat) (v : Granule) : (s.setGran c v).drops = s.drops := rfl
@[simp] theorem State.setGran_nacks (s : State) (c : Nat) (v : Granule) : (s.setGran c v).nacks = s.nacks := rfl
@[simp] theorem State.setGran_deliveries (s : State) (c : Nat) (v : Granule) : (s.setGran c v).deliveries = s.deliveries := rfl
@[simp] theorem State.setGran_raised (s : State) (c : Nat) (v : Granule) : (s.setGran c v).raised = s.raised := rfl
@[simp] theorem State.setGran_jobs (s : State) (c : Nat) (v : Granule) : (s.setGran c v).jobs = s.jobs := rfl
@[simp] theorem State.setGran_colls (s : State) (c : Nat) (v : Granule) : (s.setGran c v).colls = s.colls := rfl
@[simp] theorem State.setGran_mxops (s : State) (c : Nat) (v : Granule) : (s.setGran c v).mxops = s.mxops := rfl
@[simp] theorem State.setGran_commits (s : State) (c : Nat) (v : Granule) : (s.setGran c v).commits = s.commits := rfl
@[simp] theorem State.setGran_locks (s : State) (c : Nat) (v : Granule) : (s.setGran c v).locks = s.locks := rfl
@[simp] theorem State.setGran_walks (s : State) (c : Nat) (v : Granule) : (s.setGran c v).walks = s.walks := rfl
@[simp] theorem State.setGran_ports (s : State) (c : Nat) (v : Granule) : (s.setGran c v).ports = s.ports := rfl
@[simp] theorem State.setGran_peers (s : State) (c : Nat) (v : Granule) : (s.setGran c v).peers = s.peers := rfl
@[simp] theorem State.setGran_exports (s : State) (c : Nat) (v : Granule) : (s.setGran c v).exports = s.exports := rfl
@[simp] theorem State.setGran_copies (s : State) (c : Nat) (v : Granule) : (s.setGran c v).copies = s.copies := rfl
@[simp] theorem State.setGran_holders (s : State) (c : Nat) (v : Granule) : (s.setGran c v).holders = s.holders := rfl
@[simp] theorem State.setGran_lineApp (s : State) (c : Nat) (v : Granule) : (s.setGran c v).lineApp = s.lineApp := rfl
@[simp] theorem State.setGran_regions (s : State) (c : Nat) (v : Granule) : (s.setGran c v).regions = s.regions := rfl
@[simp] theorem State.setGran_module (s : State) (c : Nat) (v : Granule) : (s.setGran c v).module = s.module := rfl
@[simp] theorem State.setGran_inval (s : State) (c : Nat) (v : Granule) : (s.setGran c v).inval = s.inval := rfl
@[simp] theorem State.setGran_reply (s : State) (c : Nat) (v : Granule) : (s.setGran c v).reply = s.reply := rfl
@[simp] theorem State.setGran_oracle (s : State) (c : Nat) (v : Granule) : (s.setGran c v).oracle = s.oracle := rfl
@[simp] theorem State.setGran_nextId (s : State) (c : Nat) (v : Granule) : (s.setGran c v).nextId = s.nextId := rfl
@[simp] theorem State.setGran_turn (s : State) (c : Nat) (v : Granule) : (s.setGran c v).turn = s.turn := rfl
@[simp] theorem State.setGran_agenda (s : State) (c : Nat) (v : Granule) : (s.setGran c v).agenda = s.agenda := rfl
@[simp] theorem State.setGran_ev (s : State) (c : Nat) (v : Granule) : (s.setGran c v).ev = s.ev := rfl

/-! ## `State.setPart` -/

@[simp] theorem State.setPart_cur (s : State) (c : Nat) (v : Part) : (s.setPart c v).cur = s.cur := rfl
@[simp] theorem State.setPart_ctxs (s : State) (c : Nat) (v : Part) : (s.setPart c v).ctxs = s.ctxs := rfl
@[simp] theorem State.setPart_blocks (s : State) (c : Nat) (v : Part) : (s.setPart c v).blocks = s.blocks := rfl
@[simp] theorem State.setPart_launches (s : State) (c : Nat) (v : Part) : (s.setPart c v).launches = s.launches := rfl
@[simp] theorem State.setPart_parts (s : State) (c : Nat) (v : Part) : (s.setPart c v).parts = SMap.put s.parts c v := rfl
@[simp] theorem State.setPart_vfs (s : State) (c : Nat) (v : Part) : (s.setPart c v).vfs = s.vfs := rfl
@[simp] theorem State.setPart_cores (s : State) (c : Nat) (v : Part) : (s.setPart c v).cores = s.cores := rfl
@[simp] theorem State.setPart_tiles (s : State) (c : Nat) (v : Part) : (s.setPart c v).tiles = s.tiles := rfl
@[simp] theorem State.setPart_fields (s : State) (c : Nat) (v : Part) : (s.setPart c v).fields = s.fields := rfl
@[simp] theorem State.setPart_grans (s : State) (c : Nat) (v : Part) : (s.setPart c v).grans = s.grans := rfl
@[simp] theorem State.setPart_hbm (s : State) (c : Nat) (v : Part) : (s.setPart c v).hbm = s.hbm := rfl
@[simp] theorem State.setPart_host (s : State) (c : Nat) (v : Part) : (s.setPart c v).host = s.host := rfl
@[simp] theorem State.setPart_sp (s : State) (c : Nat) (v : Part) : (s.setPart c v).sp = s.sp := rfl
@[simp] theorem State.setPart_vrf (s : State) (c : Nat) (v : Part) : (s.setPart c v).vrf = s.vrf := rfl
@[simp] theorem State.setPart_acc (s : State) (c : Nat) (v : Part) : (s.setPart c v).acc = s.acc := rfl
@[simp] theorem State.setPart_planes (s : State) (c : Nat) (v : Part) : (s.setPart c v).planes = s.planes := rfl
@[simp] theorem State.setPart_sums (s : State) (c : Nat) (v : Part) : (s.setPart c v).sums = s.sums := rfl
@[simp] theorem State.setPart_bexp (s : State) (c : Nat) (v : Part) : (s.setPart c v).bexp = s.bexp := rfl
@[simp] theorem State.setPart_poison (s : State) (c : Nat) (v : Part) : (s.setPart c v).poison = s.poison := rfl
@[simp] theorem State.setPart_packets (s : State) (c : Nat) (v : Part) : (s.setPart c v).packets = s.packets := rfl
@[simp] theorem State.setPart_drops (s : State) (c : Nat) (v : Part) : (s.setPart c v).drops = s.drops := rfl
@[simp] theorem State.setPart_nacks (s : State) (c : Nat) (v : Part) : (s.setPart c v).nacks = s.nacks := rfl
@[simp] theorem State.setPart_deliveries (s : State) (c : Nat) (v : Part) : (s.setPart c v).deliveries = s.deliveries := rfl
@[simp] theorem State.setPart_raised (s : State) (c : Nat) (v : Part) : (s.setPart c v).raised = s.raised := rfl
@[simp] theorem State.setPart_jobs (s : State) (c : Nat) (v : Part) : (s.setPart c v).jobs = s.jobs := rfl
@[simp] theorem State.setPart_colls (s : State) (c : Nat) (v : Part) : (s.setPart c v).colls = s.colls := rfl
@[simp] theorem State.setPart_mxops (s : State) (c : Nat) (v : Part) : (s.setPart c v).mxops = s.mxops := rfl
@[simp] theorem State.setPart_commits (s : State) (c : Nat) (v : Part) : (s.setPart c v).commits = s.commits := rfl
@[simp] theorem State.setPart_locks (s : State) (c : Nat) (v : Part) : (s.setPart c v).locks = s.locks := rfl
@[simp] theorem State.setPart_walks (s : State) (c : Nat) (v : Part) : (s.setPart c v).walks = s.walks := rfl
@[simp] theorem State.setPart_ports (s : State) (c : Nat) (v : Part) : (s.setPart c v).ports = s.ports := rfl
@[simp] theorem State.setPart_peers (s : State) (c : Nat) (v : Part) : (s.setPart c v).peers = s.peers := rfl
@[simp] theorem State.setPart_exports (s : State) (c : Nat) (v : Part) : (s.setPart c v).exports = s.exports := rfl
@[simp] theorem State.setPart_copies (s : State) (c : Nat) (v : Part) : (s.setPart c v).copies = s.copies := rfl
@[simp] theorem State.setPart_holders (s : State) (c : Nat) (v : Part) : (s.setPart c v).holders = s.holders := rfl
@[simp] theorem State.setPart_lineApp (s : State) (c : Nat) (v : Part) : (s.setPart c v).lineApp = s.lineApp := rfl
@[simp] theorem State.setPart_regions (s : State) (c : Nat) (v : Part) : (s.setPart c v).regions = s.regions := rfl
@[simp] theorem State.setPart_module (s : State) (c : Nat) (v : Part) : (s.setPart c v).module = s.module := rfl
@[simp] theorem State.setPart_inval (s : State) (c : Nat) (v : Part) : (s.setPart c v).inval = s.inval := rfl
@[simp] theorem State.setPart_reply (s : State) (c : Nat) (v : Part) : (s.setPart c v).reply = s.reply := rfl
@[simp] theorem State.setPart_oracle (s : State) (c : Nat) (v : Part) : (s.setPart c v).oracle = s.oracle := rfl
@[simp] theorem State.setPart_nextId (s : State) (c : Nat) (v : Part) : (s.setPart c v).nextId = s.nextId := rfl
@[simp] theorem State.setPart_turn (s : State) (c : Nat) (v : Part) : (s.setPart c v).turn = s.turn := rfl
@[simp] theorem State.setPart_agenda (s : State) (c : Nat) (v : Part) : (s.setPart c v).agenda = s.agenda := rfl
@[simp] theorem State.setPart_ev (s : State) (c : Nat) (v : Part) : (s.setPart c v).ev = s.ev := rfl

/-! ## `State.updVf` -/

@[simp] theorem State.updVf_cur (s : State) (c : Nat) (f : VF → VF) : (s.updVf c f).cur = s.cur := rfl
@[simp] theorem State.updVf_ctxs (s : State) (c : Nat) (f : VF → VF) : (s.updVf c f).ctxs = s.ctxs := rfl
@[simp] theorem State.updVf_blocks (s : State) (c : Nat) (f : VF → VF) : (s.updVf c f).blocks = s.blocks := rfl
@[simp] theorem State.updVf_launches (s : State) (c : Nat) (f : VF → VF) : (s.updVf c f).launches = s.launches := rfl
@[simp] theorem State.updVf_parts (s : State) (c : Nat) (f : VF → VF) : (s.updVf c f).parts = s.parts := rfl
@[simp] theorem State.updVf_vfs (s : State) (c : Nat) (f : VF → VF) : (s.updVf c f).vfs = SMap.set {} s.vfs c (f (s.vf c)) := rfl
@[simp] theorem State.updVf_cores (s : State) (c : Nat) (f : VF → VF) : (s.updVf c f).cores = s.cores := rfl
@[simp] theorem State.updVf_tiles (s : State) (c : Nat) (f : VF → VF) : (s.updVf c f).tiles = s.tiles := rfl
@[simp] theorem State.updVf_fields (s : State) (c : Nat) (f : VF → VF) : (s.updVf c f).fields = s.fields := rfl
@[simp] theorem State.updVf_grans (s : State) (c : Nat) (f : VF → VF) : (s.updVf c f).grans = s.grans := rfl
@[simp] theorem State.updVf_hbm (s : State) (c : Nat) (f : VF → VF) : (s.updVf c f).hbm = s.hbm := rfl
@[simp] theorem State.updVf_host (s : State) (c : Nat) (f : VF → VF) : (s.updVf c f).host = s.host := rfl
@[simp] theorem State.updVf_sp (s : State) (c : Nat) (f : VF → VF) : (s.updVf c f).sp = s.sp := rfl
@[simp] theorem State.updVf_vrf (s : State) (c : Nat) (f : VF → VF) : (s.updVf c f).vrf = s.vrf := rfl
@[simp] theorem State.updVf_acc (s : State) (c : Nat) (f : VF → VF) : (s.updVf c f).acc = s.acc := rfl
@[simp] theorem State.updVf_planes (s : State) (c : Nat) (f : VF → VF) : (s.updVf c f).planes = s.planes := rfl
@[simp] theorem State.updVf_sums (s : State) (c : Nat) (f : VF → VF) : (s.updVf c f).sums = s.sums := rfl
@[simp] theorem State.updVf_bexp (s : State) (c : Nat) (f : VF → VF) : (s.updVf c f).bexp = s.bexp := rfl
@[simp] theorem State.updVf_poison (s : State) (c : Nat) (f : VF → VF) : (s.updVf c f).poison = s.poison := rfl
@[simp] theorem State.updVf_packets (s : State) (c : Nat) (f : VF → VF) : (s.updVf c f).packets = s.packets := rfl
@[simp] theorem State.updVf_drops (s : State) (c : Nat) (f : VF → VF) : (s.updVf c f).drops = s.drops := rfl
@[simp] theorem State.updVf_nacks (s : State) (c : Nat) (f : VF → VF) : (s.updVf c f).nacks = s.nacks := rfl
@[simp] theorem State.updVf_deliveries (s : State) (c : Nat) (f : VF → VF) : (s.updVf c f).deliveries = s.deliveries := rfl
@[simp] theorem State.updVf_raised (s : State) (c : Nat) (f : VF → VF) : (s.updVf c f).raised = s.raised := rfl
@[simp] theorem State.updVf_jobs (s : State) (c : Nat) (f : VF → VF) : (s.updVf c f).jobs = s.jobs := rfl
@[simp] theorem State.updVf_colls (s : State) (c : Nat) (f : VF → VF) : (s.updVf c f).colls = s.colls := rfl
@[simp] theorem State.updVf_mxops (s : State) (c : Nat) (f : VF → VF) : (s.updVf c f).mxops = s.mxops := rfl
@[simp] theorem State.updVf_commits (s : State) (c : Nat) (f : VF → VF) : (s.updVf c f).commits = s.commits := rfl
@[simp] theorem State.updVf_locks (s : State) (c : Nat) (f : VF → VF) : (s.updVf c f).locks = s.locks := rfl
@[simp] theorem State.updVf_walks (s : State) (c : Nat) (f : VF → VF) : (s.updVf c f).walks = s.walks := rfl
@[simp] theorem State.updVf_ports (s : State) (c : Nat) (f : VF → VF) : (s.updVf c f).ports = s.ports := rfl
@[simp] theorem State.updVf_peers (s : State) (c : Nat) (f : VF → VF) : (s.updVf c f).peers = s.peers := rfl
@[simp] theorem State.updVf_exports (s : State) (c : Nat) (f : VF → VF) : (s.updVf c f).exports = s.exports := rfl
@[simp] theorem State.updVf_copies (s : State) (c : Nat) (f : VF → VF) : (s.updVf c f).copies = s.copies := rfl
@[simp] theorem State.updVf_holders (s : State) (c : Nat) (f : VF → VF) : (s.updVf c f).holders = s.holders := rfl
@[simp] theorem State.updVf_lineApp (s : State) (c : Nat) (f : VF → VF) : (s.updVf c f).lineApp = s.lineApp := rfl
@[simp] theorem State.updVf_regions (s : State) (c : Nat) (f : VF → VF) : (s.updVf c f).regions = s.regions := rfl
@[simp] theorem State.updVf_module (s : State) (c : Nat) (f : VF → VF) : (s.updVf c f).module = s.module := rfl
@[simp] theorem State.updVf_inval (s : State) (c : Nat) (f : VF → VF) : (s.updVf c f).inval = s.inval := rfl
@[simp] theorem State.updVf_reply (s : State) (c : Nat) (f : VF → VF) : (s.updVf c f).reply = s.reply := rfl
@[simp] theorem State.updVf_oracle (s : State) (c : Nat) (f : VF → VF) : (s.updVf c f).oracle = s.oracle := rfl
@[simp] theorem State.updVf_nextId (s : State) (c : Nat) (f : VF → VF) : (s.updVf c f).nextId = s.nextId := rfl
@[simp] theorem State.updVf_turn (s : State) (c : Nat) (f : VF → VF) : (s.updVf c f).turn = s.turn := rfl
@[simp] theorem State.updVf_agenda (s : State) (c : Nat) (f : VF → VF) : (s.updVf c f).agenda = s.agenda := rfl
@[simp] theorem State.updVf_ev (s : State) (c : Nat) (f : VF → VF) : (s.updVf c f).ev = s.ev := rfl

/-! ## `State.updModule` -/

@[simp] theorem State.updModule_cur (s : State) (f : Module → Module) : (s.updModule f).cur = s.cur := rfl
@[simp] theorem State.updModule_ctxs (s : State) (f : Module → Module) : (s.updModule f).ctxs = s.ctxs := rfl
@[simp] theorem State.updModule_blocks (s : State) (f : Module → Module) : (s.updModule f).blocks = s.blocks := rfl
@[simp] theorem State.updModule_launches (s : State) (f : Module → Module) : (s.updModule f).launches = s.launches := rfl
@[simp] theorem State.updModule_parts (s : State) (f : Module → Module) : (s.updModule f).parts = s.parts := rfl
@[simp] theorem State.updModule_vfs (s : State) (f : Module → Module) : (s.updModule f).vfs = s.vfs := rfl
@[simp] theorem State.updModule_cores (s : State) (f : Module → Module) : (s.updModule f).cores = s.cores := rfl
@[simp] theorem State.updModule_tiles (s : State) (f : Module → Module) : (s.updModule f).tiles = s.tiles := rfl
@[simp] theorem State.updModule_fields (s : State) (f : Module → Module) : (s.updModule f).fields = s.fields := rfl
@[simp] theorem State.updModule_grans (s : State) (f : Module → Module) : (s.updModule f).grans = s.grans := rfl
@[simp] theorem State.updModule_hbm (s : State) (f : Module → Module) : (s.updModule f).hbm = s.hbm := rfl
@[simp] theorem State.updModule_host (s : State) (f : Module → Module) : (s.updModule f).host = s.host := rfl
@[simp] theorem State.updModule_sp (s : State) (f : Module → Module) : (s.updModule f).sp = s.sp := rfl
@[simp] theorem State.updModule_vrf (s : State) (f : Module → Module) : (s.updModule f).vrf = s.vrf := rfl
@[simp] theorem State.updModule_acc (s : State) (f : Module → Module) : (s.updModule f).acc = s.acc := rfl
@[simp] theorem State.updModule_planes (s : State) (f : Module → Module) : (s.updModule f).planes = s.planes := rfl
@[simp] theorem State.updModule_sums (s : State) (f : Module → Module) : (s.updModule f).sums = s.sums := rfl
@[simp] theorem State.updModule_bexp (s : State) (f : Module → Module) : (s.updModule f).bexp = s.bexp := rfl
@[simp] theorem State.updModule_poison (s : State) (f : Module → Module) : (s.updModule f).poison = s.poison := rfl
@[simp] theorem State.updModule_packets (s : State) (f : Module → Module) : (s.updModule f).packets = s.packets := rfl
@[simp] theorem State.updModule_drops (s : State) (f : Module → Module) : (s.updModule f).drops = s.drops := rfl
@[simp] theorem State.updModule_nacks (s : State) (f : Module → Module) : (s.updModule f).nacks = s.nacks := rfl
@[simp] theorem State.updModule_deliveries (s : State) (f : Module → Module) : (s.updModule f).deliveries = s.deliveries := rfl
@[simp] theorem State.updModule_raised (s : State) (f : Module → Module) : (s.updModule f).raised = s.raised := rfl
@[simp] theorem State.updModule_jobs (s : State) (f : Module → Module) : (s.updModule f).jobs = s.jobs := rfl
@[simp] theorem State.updModule_colls (s : State) (f : Module → Module) : (s.updModule f).colls = s.colls := rfl
@[simp] theorem State.updModule_mxops (s : State) (f : Module → Module) : (s.updModule f).mxops = s.mxops := rfl
@[simp] theorem State.updModule_commits (s : State) (f : Module → Module) : (s.updModule f).commits = s.commits := rfl
@[simp] theorem State.updModule_locks (s : State) (f : Module → Module) : (s.updModule f).locks = s.locks := rfl
@[simp] theorem State.updModule_walks (s : State) (f : Module → Module) : (s.updModule f).walks = s.walks := rfl
@[simp] theorem State.updModule_ports (s : State) (f : Module → Module) : (s.updModule f).ports = s.ports := rfl
@[simp] theorem State.updModule_peers (s : State) (f : Module → Module) : (s.updModule f).peers = s.peers := rfl
@[simp] theorem State.updModule_exports (s : State) (f : Module → Module) : (s.updModule f).exports = s.exports := rfl
@[simp] theorem State.updModule_copies (s : State) (f : Module → Module) : (s.updModule f).copies = s.copies := rfl
@[simp] theorem State.updModule_holders (s : State) (f : Module → Module) : (s.updModule f).holders = s.holders := rfl
@[simp] theorem State.updModule_lineApp (s : State) (f : Module → Module) : (s.updModule f).lineApp = s.lineApp := rfl
@[simp] theorem State.updModule_regions (s : State) (f : Module → Module) : (s.updModule f).regions = s.regions := rfl
@[simp] theorem State.updModule_module (s : State) (f : Module → Module) : (s.updModule f).module = f s.module := rfl
@[simp] theorem State.updModule_inval (s : State) (f : Module → Module) : (s.updModule f).inval = s.inval := rfl
@[simp] theorem State.updModule_reply (s : State) (f : Module → Module) : (s.updModule f).reply = s.reply := rfl
@[simp] theorem State.updModule_oracle (s : State) (f : Module → Module) : (s.updModule f).oracle = s.oracle := rfl
@[simp] theorem State.updModule_nextId (s : State) (f : Module → Module) : (s.updModule f).nextId = s.nextId := rfl
@[simp] theorem State.updModule_turn (s : State) (f : Module → Module) : (s.updModule f).turn = s.turn := rfl
@[simp] theorem State.updModule_agenda (s : State) (f : Module → Module) : (s.updModule f).agenda = s.agenda := rfl
@[simp] theorem State.updModule_ev (s : State) (f : Module → Module) : (s.updModule f).ev = s.ev := rfl

/-! ## `State.writeV` -/

@[simp] theorem State.writeV_ctxs (s : State) (r : Nat) (m : Mask) (v : Vec) : (s.writeV r m v).ctxs = s.ctxs := rfl
@[simp] theorem State.writeV_blocks (s : State) (r : Nat) (m : Mask) (v : Vec) : (s.writeV r m v).blocks = s.blocks := rfl
@[simp] theorem State.writeV_launches (s : State) (r : Nat) (m : Mask) (v : Vec) : (s.writeV r m v).launches = s.launches := rfl
@[simp] theorem State.writeV_parts (s : State) (r : Nat) (m : Mask) (v : Vec) : (s.writeV r m v).parts = s.parts := rfl
@[simp] theorem State.writeV_vfs (s : State) (r : Nat) (m : Mask) (v : Vec) : (s.writeV r m v).vfs = s.vfs := rfl
@[simp] theorem State.writeV_cores (s : State) (r : Nat) (m : Mask) (v : Vec) : (s.writeV r m v).cores = s.cores := rfl
@[simp] theorem State.writeV_tiles (s : State) (r : Nat) (m : Mask) (v : Vec) : (s.writeV r m v).tiles = s.tiles := rfl
@[simp] theorem State.writeV_fields (s : State) (r : Nat) (m : Mask) (v : Vec) : (s.writeV r m v).fields = s.fields := rfl
@[simp] theorem State.writeV_grans (s : State) (r : Nat) (m : Mask) (v : Vec) : (s.writeV r m v).grans = s.grans := rfl
@[simp] theorem State.writeV_hbm (s : State) (r : Nat) (m : Mask) (v : Vec) : (s.writeV r m v).hbm = s.hbm := rfl
@[simp] theorem State.writeV_host (s : State) (r : Nat) (m : Mask) (v : Vec) : (s.writeV r m v).host = s.host := rfl
@[simp] theorem State.writeV_sp (s : State) (r : Nat) (m : Mask) (v : Vec) : (s.writeV r m v).sp = s.sp := rfl
@[simp] theorem State.writeV_acc (s : State) (r : Nat) (m : Mask) (v : Vec) : (s.writeV r m v).acc = s.acc := rfl
@[simp] theorem State.writeV_planes (s : State) (r : Nat) (m : Mask) (v : Vec) : (s.writeV r m v).planes = s.planes := rfl
@[simp] theorem State.writeV_sums (s : State) (r : Nat) (m : Mask) (v : Vec) : (s.writeV r m v).sums = s.sums := rfl
@[simp] theorem State.writeV_bexp (s : State) (r : Nat) (m : Mask) (v : Vec) : (s.writeV r m v).bexp = s.bexp := rfl
@[simp] theorem State.writeV_poison (s : State) (r : Nat) (m : Mask) (v : Vec) : (s.writeV r m v).poison = s.poison := rfl
@[simp] theorem State.writeV_packets (s : State) (r : Nat) (m : Mask) (v : Vec) : (s.writeV r m v).packets = s.packets := rfl
@[simp] theorem State.writeV_drops (s : State) (r : Nat) (m : Mask) (v : Vec) : (s.writeV r m v).drops = s.drops := rfl
@[simp] theorem State.writeV_nacks (s : State) (r : Nat) (m : Mask) (v : Vec) : (s.writeV r m v).nacks = s.nacks := rfl
@[simp] theorem State.writeV_deliveries (s : State) (r : Nat) (m : Mask) (v : Vec) : (s.writeV r m v).deliveries = s.deliveries := rfl
@[simp] theorem State.writeV_raised (s : State) (r : Nat) (m : Mask) (v : Vec) : (s.writeV r m v).raised = s.raised := rfl
@[simp] theorem State.writeV_jobs (s : State) (r : Nat) (m : Mask) (v : Vec) : (s.writeV r m v).jobs = s.jobs := rfl
@[simp] theorem State.writeV_colls (s : State) (r : Nat) (m : Mask) (v : Vec) : (s.writeV r m v).colls = s.colls := rfl
@[simp] theorem State.writeV_mxops (s : State) (r : Nat) (m : Mask) (v : Vec) : (s.writeV r m v).mxops = s.mxops := rfl
@[simp] theorem State.writeV_commits (s : State) (r : Nat) (m : Mask) (v : Vec) : (s.writeV r m v).commits = s.commits := rfl
@[simp] theorem State.writeV_locks (s : State) (r : Nat) (m : Mask) (v : Vec) : (s.writeV r m v).locks = s.locks := rfl
@[simp] theorem State.writeV_walks (s : State) (r : Nat) (m : Mask) (v : Vec) : (s.writeV r m v).walks = s.walks := rfl
@[simp] theorem State.writeV_ports (s : State) (r : Nat) (m : Mask) (v : Vec) : (s.writeV r m v).ports = s.ports := rfl
@[simp] theorem State.writeV_peers (s : State) (r : Nat) (m : Mask) (v : Vec) : (s.writeV r m v).peers = s.peers := rfl
@[simp] theorem State.writeV_exports (s : State) (r : Nat) (m : Mask) (v : Vec) : (s.writeV r m v).exports = s.exports := rfl
@[simp] theorem State.writeV_copies (s : State) (r : Nat) (m : Mask) (v : Vec) : (s.writeV r m v).copies = s.copies := rfl
@[simp] theorem State.writeV_holders (s : State) (r : Nat) (m : Mask) (v : Vec) : (s.writeV r m v).holders = s.holders := rfl
@[simp] theorem State.writeV_lineApp (s : State) (r : Nat) (m : Mask) (v : Vec) : (s.writeV r m v).lineApp = s.lineApp := rfl
@[simp] theorem State.writeV_regions (s : State) (r : Nat) (m : Mask) (v : Vec) : (s.writeV r m v).regions = s.regions := rfl
@[simp] theorem State.writeV_module (s : State) (r : Nat) (m : Mask) (v : Vec) : (s.writeV r m v).module = s.module := rfl
@[simp] theorem State.writeV_inval (s : State) (r : Nat) (m : Mask) (v : Vec) : (s.writeV r m v).inval = s.inval := rfl
@[simp] theorem State.writeV_reply (s : State) (r : Nat) (m : Mask) (v : Vec) : (s.writeV r m v).reply = s.reply := rfl
@[simp] theorem State.writeV_oracle (s : State) (r : Nat) (m : Mask) (v : Vec) : (s.writeV r m v).oracle = s.oracle := rfl
@[simp] theorem State.writeV_nextId (s : State) (r : Nat) (m : Mask) (v : Vec) : (s.writeV r m v).nextId = s.nextId := rfl
@[simp] theorem State.writeV_turn (s : State) (r : Nat) (m : Mask) (v : Vec) : (s.writeV r m v).turn = s.turn := rfl
@[simp] theorem State.writeV_agenda (s : State) (r : Nat) (m : Mask) (v : Vec) : (s.writeV r m v).agenda = s.agenda := rfl
@[simp] theorem State.writeV_ev (s : State) (r : Nat) (m : Mask) (v : Vec) : (s.writeV r m v).ev = s.ev := rfl

/-! ## `State.writeS` -/

@[simp] theorem State.writeS_ctxs (s : State) (r : Nat) (v : W64) : (s.writeS r v).ctxs = s.ctxs := rfl
@[simp] theorem State.writeS_blocks (s : State) (r : Nat) (v : W64) : (s.writeS r v).blocks = s.blocks := rfl
@[simp] theorem State.writeS_launches (s : State) (r : Nat) (v : W64) : (s.writeS r v).launches = s.launches := rfl
@[simp] theorem State.writeS_parts (s : State) (r : Nat) (v : W64) : (s.writeS r v).parts = s.parts := rfl
@[simp] theorem State.writeS_vfs (s : State) (r : Nat) (v : W64) : (s.writeS r v).vfs = s.vfs := rfl
@[simp] theorem State.writeS_cores (s : State) (r : Nat) (v : W64) : (s.writeS r v).cores = s.cores := rfl
@[simp] theorem State.writeS_tiles (s : State) (r : Nat) (v : W64) : (s.writeS r v).tiles = s.tiles := rfl
@[simp] theorem State.writeS_fields (s : State) (r : Nat) (v : W64) : (s.writeS r v).fields = s.fields := rfl
@[simp] theorem State.writeS_grans (s : State) (r : Nat) (v : W64) : (s.writeS r v).grans = s.grans := rfl
@[simp] theorem State.writeS_hbm (s : State) (r : Nat) (v : W64) : (s.writeS r v).hbm = s.hbm := rfl
@[simp] theorem State.writeS_host (s : State) (r : Nat) (v : W64) : (s.writeS r v).host = s.host := rfl
@[simp] theorem State.writeS_sp (s : State) (r : Nat) (v : W64) : (s.writeS r v).sp = s.sp := rfl
@[simp] theorem State.writeS_vrf (s : State) (r : Nat) (v : W64) : (s.writeS r v).vrf = s.vrf := rfl
@[simp] theorem State.writeS_acc (s : State) (r : Nat) (v : W64) : (s.writeS r v).acc = s.acc := rfl
@[simp] theorem State.writeS_planes (s : State) (r : Nat) (v : W64) : (s.writeS r v).planes = s.planes := rfl
@[simp] theorem State.writeS_sums (s : State) (r : Nat) (v : W64) : (s.writeS r v).sums = s.sums := rfl
@[simp] theorem State.writeS_bexp (s : State) (r : Nat) (v : W64) : (s.writeS r v).bexp = s.bexp := rfl
@[simp] theorem State.writeS_poison (s : State) (r : Nat) (v : W64) : (s.writeS r v).poison = s.poison := rfl
@[simp] theorem State.writeS_packets (s : State) (r : Nat) (v : W64) : (s.writeS r v).packets = s.packets := rfl
@[simp] theorem State.writeS_drops (s : State) (r : Nat) (v : W64) : (s.writeS r v).drops = s.drops := rfl
@[simp] theorem State.writeS_nacks (s : State) (r : Nat) (v : W64) : (s.writeS r v).nacks = s.nacks := rfl
@[simp] theorem State.writeS_deliveries (s : State) (r : Nat) (v : W64) : (s.writeS r v).deliveries = s.deliveries := rfl
@[simp] theorem State.writeS_raised (s : State) (r : Nat) (v : W64) : (s.writeS r v).raised = s.raised := rfl
@[simp] theorem State.writeS_jobs (s : State) (r : Nat) (v : W64) : (s.writeS r v).jobs = s.jobs := rfl
@[simp] theorem State.writeS_colls (s : State) (r : Nat) (v : W64) : (s.writeS r v).colls = s.colls := rfl
@[simp] theorem State.writeS_mxops (s : State) (r : Nat) (v : W64) : (s.writeS r v).mxops = s.mxops := rfl
@[simp] theorem State.writeS_commits (s : State) (r : Nat) (v : W64) : (s.writeS r v).commits = s.commits := rfl
@[simp] theorem State.writeS_locks (s : State) (r : Nat) (v : W64) : (s.writeS r v).locks = s.locks := rfl
@[simp] theorem State.writeS_walks (s : State) (r : Nat) (v : W64) : (s.writeS r v).walks = s.walks := rfl
@[simp] theorem State.writeS_ports (s : State) (r : Nat) (v : W64) : (s.writeS r v).ports = s.ports := rfl
@[simp] theorem State.writeS_peers (s : State) (r : Nat) (v : W64) : (s.writeS r v).peers = s.peers := rfl
@[simp] theorem State.writeS_exports (s : State) (r : Nat) (v : W64) : (s.writeS r v).exports = s.exports := rfl
@[simp] theorem State.writeS_copies (s : State) (r : Nat) (v : W64) : (s.writeS r v).copies = s.copies := rfl
@[simp] theorem State.writeS_holders (s : State) (r : Nat) (v : W64) : (s.writeS r v).holders = s.holders := rfl
@[simp] theorem State.writeS_lineApp (s : State) (r : Nat) (v : W64) : (s.writeS r v).lineApp = s.lineApp := rfl
@[simp] theorem State.writeS_regions (s : State) (r : Nat) (v : W64) : (s.writeS r v).regions = s.regions := rfl
@[simp] theorem State.writeS_module (s : State) (r : Nat) (v : W64) : (s.writeS r v).module = s.module := rfl
@[simp] theorem State.writeS_inval (s : State) (r : Nat) (v : W64) : (s.writeS r v).inval = s.inval := rfl
@[simp] theorem State.writeS_reply (s : State) (r : Nat) (v : W64) : (s.writeS r v).reply = s.reply := rfl
@[simp] theorem State.writeS_oracle (s : State) (r : Nat) (v : W64) : (s.writeS r v).oracle = s.oracle := rfl
@[simp] theorem State.writeS_nextId (s : State) (r : Nat) (v : W64) : (s.writeS r v).nextId = s.nextId := rfl
@[simp] theorem State.writeS_turn (s : State) (r : Nat) (v : W64) : (s.writeS r v).turn = s.turn := rfl
@[simp] theorem State.writeS_agenda (s : State) (r : Nat) (v : W64) : (s.writeS r v).agenda = s.agenda := rfl
@[simp] theorem State.writeS_ev (s : State) (r : Nat) (v : W64) : (s.writeS r v).ev = s.ev := rfl

/-! ## `State.orFlags` -/

@[simp] theorem State.orFlags_cur (s : State) (x : FFlags) : (s.orFlags x).cur = { s.cur with fpx := s.cur.fpx ||| x } := rfl
@[simp] theorem State.orFlags_ctxs (s : State) (x : FFlags) : (s.orFlags x).ctxs = s.ctxs := rfl
@[simp] theorem State.orFlags_blocks (s : State) (x : FFlags) : (s.orFlags x).blocks = s.blocks := rfl
@[simp] theorem State.orFlags_launches (s : State) (x : FFlags) : (s.orFlags x).launches = s.launches := rfl
@[simp] theorem State.orFlags_parts (s : State) (x : FFlags) : (s.orFlags x).parts = s.parts := rfl
@[simp] theorem State.orFlags_vfs (s : State) (x : FFlags) : (s.orFlags x).vfs = s.vfs := rfl
@[simp] theorem State.orFlags_cores (s : State) (x : FFlags) : (s.orFlags x).cores = s.cores := rfl
@[simp] theorem State.orFlags_tiles (s : State) (x : FFlags) : (s.orFlags x).tiles = s.tiles := rfl
@[simp] theorem State.orFlags_fields (s : State) (x : FFlags) : (s.orFlags x).fields = s.fields := rfl
@[simp] theorem State.orFlags_grans (s : State) (x : FFlags) : (s.orFlags x).grans = s.grans := rfl
@[simp] theorem State.orFlags_hbm (s : State) (x : FFlags) : (s.orFlags x).hbm = s.hbm := rfl
@[simp] theorem State.orFlags_host (s : State) (x : FFlags) : (s.orFlags x).host = s.host := rfl
@[simp] theorem State.orFlags_sp (s : State) (x : FFlags) : (s.orFlags x).sp = s.sp := rfl
@[simp] theorem State.orFlags_vrf (s : State) (x : FFlags) : (s.orFlags x).vrf = s.vrf := rfl
@[simp] theorem State.orFlags_acc (s : State) (x : FFlags) : (s.orFlags x).acc = s.acc := rfl
@[simp] theorem State.orFlags_planes (s : State) (x : FFlags) : (s.orFlags x).planes = s.planes := rfl
@[simp] theorem State.orFlags_sums (s : State) (x : FFlags) : (s.orFlags x).sums = s.sums := rfl
@[simp] theorem State.orFlags_bexp (s : State) (x : FFlags) : (s.orFlags x).bexp = s.bexp := rfl
@[simp] theorem State.orFlags_poison (s : State) (x : FFlags) : (s.orFlags x).poison = s.poison := rfl
@[simp] theorem State.orFlags_packets (s : State) (x : FFlags) : (s.orFlags x).packets = s.packets := rfl
@[simp] theorem State.orFlags_drops (s : State) (x : FFlags) : (s.orFlags x).drops = s.drops := rfl
@[simp] theorem State.orFlags_nacks (s : State) (x : FFlags) : (s.orFlags x).nacks = s.nacks := rfl
@[simp] theorem State.orFlags_deliveries (s : State) (x : FFlags) : (s.orFlags x).deliveries = s.deliveries := rfl
@[simp] theorem State.orFlags_raised (s : State) (x : FFlags) : (s.orFlags x).raised = s.raised := rfl
@[simp] theorem State.orFlags_jobs (s : State) (x : FFlags) : (s.orFlags x).jobs = s.jobs := rfl
@[simp] theorem State.orFlags_colls (s : State) (x : FFlags) : (s.orFlags x).colls = s.colls := rfl
@[simp] theorem State.orFlags_mxops (s : State) (x : FFlags) : (s.orFlags x).mxops = s.mxops := rfl
@[simp] theorem State.orFlags_commits (s : State) (x : FFlags) : (s.orFlags x).commits = s.commits := rfl
@[simp] theorem State.orFlags_locks (s : State) (x : FFlags) : (s.orFlags x).locks = s.locks := rfl
@[simp] theorem State.orFlags_walks (s : State) (x : FFlags) : (s.orFlags x).walks = s.walks := rfl
@[simp] theorem State.orFlags_ports (s : State) (x : FFlags) : (s.orFlags x).ports = s.ports := rfl
@[simp] theorem State.orFlags_peers (s : State) (x : FFlags) : (s.orFlags x).peers = s.peers := rfl
@[simp] theorem State.orFlags_exports (s : State) (x : FFlags) : (s.orFlags x).exports = s.exports := rfl
@[simp] theorem State.orFlags_copies (s : State) (x : FFlags) : (s.orFlags x).copies = s.copies := rfl
@[simp] theorem State.orFlags_holders (s : State) (x : FFlags) : (s.orFlags x).holders = s.holders := rfl
@[simp] theorem State.orFlags_lineApp (s : State) (x : FFlags) : (s.orFlags x).lineApp = s.lineApp := rfl
@[simp] theorem State.orFlags_regions (s : State) (x : FFlags) : (s.orFlags x).regions = s.regions := rfl
@[simp] theorem State.orFlags_module (s : State) (x : FFlags) : (s.orFlags x).module = s.module := rfl
@[simp] theorem State.orFlags_inval (s : State) (x : FFlags) : (s.orFlags x).inval = s.inval := rfl
@[simp] theorem State.orFlags_reply (s : State) (x : FFlags) : (s.orFlags x).reply = s.reply := rfl
@[simp] theorem State.orFlags_oracle (s : State) (x : FFlags) : (s.orFlags x).oracle = s.oracle := rfl
@[simp] theorem State.orFlags_nextId (s : State) (x : FFlags) : (s.orFlags x).nextId = s.nextId := rfl
@[simp] theorem State.orFlags_turn (s : State) (x : FFlags) : (s.orFlags x).turn = s.turn := rfl
@[simp] theorem State.orFlags_agenda (s : State) (x : FFlags) : (s.orFlags x).agenda = s.agenda := rfl
@[simp] theorem State.orFlags_ev (s : State) (x : FFlags) : (s.orFlags x).ev = s.ev := rfl

/-! ## `State.defer` -/

@[simp] theorem State.defer_ctxs (s : State) (l : List DVal) (x : FFlags) (n : Nat) (b : Bool) : (s.defer l x n b).ctxs = s.ctxs := rfl
@[simp] theorem State.defer_blocks (s : State) (l : List DVal) (x : FFlags) (n : Nat) (b : Bool) : (s.defer l x n b).blocks = s.blocks := rfl
@[simp] theorem State.defer_launches (s : State) (l : List DVal) (x : FFlags) (n : Nat) (b : Bool) : (s.defer l x n b).launches = s.launches := rfl
@[simp] theorem State.defer_parts (s : State) (l : List DVal) (x : FFlags) (n : Nat) (b : Bool) : (s.defer l x n b).parts = s.parts := rfl
@[simp] theorem State.defer_vfs (s : State) (l : List DVal) (x : FFlags) (n : Nat) (b : Bool) : (s.defer l x n b).vfs = s.vfs := rfl
@[simp] theorem State.defer_cores (s : State) (l : List DVal) (x : FFlags) (n : Nat) (b : Bool) : (s.defer l x n b).cores = s.cores := rfl
@[simp] theorem State.defer_tiles (s : State) (l : List DVal) (x : FFlags) (n : Nat) (b : Bool) : (s.defer l x n b).tiles = s.tiles := rfl
@[simp] theorem State.defer_fields (s : State) (l : List DVal) (x : FFlags) (n : Nat) (b : Bool) : (s.defer l x n b).fields = s.fields := rfl
@[simp] theorem State.defer_grans (s : State) (l : List DVal) (x : FFlags) (n : Nat) (b : Bool) : (s.defer l x n b).grans = s.grans := rfl
@[simp] theorem State.defer_hbm (s : State) (l : List DVal) (x : FFlags) (n : Nat) (b : Bool) : (s.defer l x n b).hbm = s.hbm := rfl
@[simp] theorem State.defer_host (s : State) (l : List DVal) (x : FFlags) (n : Nat) (b : Bool) : (s.defer l x n b).host = s.host := rfl
@[simp] theorem State.defer_sp (s : State) (l : List DVal) (x : FFlags) (n : Nat) (b : Bool) : (s.defer l x n b).sp = s.sp := rfl
@[simp] theorem State.defer_vrf (s : State) (l : List DVal) (x : FFlags) (n : Nat) (b : Bool) : (s.defer l x n b).vrf = s.vrf := rfl
@[simp] theorem State.defer_acc (s : State) (l : List DVal) (x : FFlags) (n : Nat) (b : Bool) : (s.defer l x n b).acc = s.acc := rfl
@[simp] theorem State.defer_planes (s : State) (l : List DVal) (x : FFlags) (n : Nat) (b : Bool) : (s.defer l x n b).planes = s.planes := rfl
@[simp] theorem State.defer_sums (s : State) (l : List DVal) (x : FFlags) (n : Nat) (b : Bool) : (s.defer l x n b).sums = s.sums := rfl
@[simp] theorem State.defer_bexp (s : State) (l : List DVal) (x : FFlags) (n : Nat) (b : Bool) : (s.defer l x n b).bexp = s.bexp := rfl
@[simp] theorem State.defer_poison (s : State) (l : List DVal) (x : FFlags) (n : Nat) (b : Bool) : (s.defer l x n b).poison = s.poison := rfl
@[simp] theorem State.defer_packets (s : State) (l : List DVal) (x : FFlags) (n : Nat) (b : Bool) : (s.defer l x n b).packets = s.packets := rfl
@[simp] theorem State.defer_drops (s : State) (l : List DVal) (x : FFlags) (n : Nat) (b : Bool) : (s.defer l x n b).drops = s.drops := rfl
@[simp] theorem State.defer_nacks (s : State) (l : List DVal) (x : FFlags) (n : Nat) (b : Bool) : (s.defer l x n b).nacks = s.nacks := rfl
@[simp] theorem State.defer_deliveries (s : State) (l : List DVal) (x : FFlags) (n : Nat) (b : Bool) : (s.defer l x n b).deliveries = s.deliveries := rfl
@[simp] theorem State.defer_raised (s : State) (l : List DVal) (x : FFlags) (n : Nat) (b : Bool) : (s.defer l x n b).raised = s.raised := rfl
@[simp] theorem State.defer_jobs (s : State) (l : List DVal) (x : FFlags) (n : Nat) (b : Bool) : (s.defer l x n b).jobs = s.jobs := rfl
@[simp] theorem State.defer_colls (s : State) (l : List DVal) (x : FFlags) (n : Nat) (b : Bool) : (s.defer l x n b).colls = s.colls := rfl
@[simp] theorem State.defer_mxops (s : State) (l : List DVal) (x : FFlags) (n : Nat) (b : Bool) : (s.defer l x n b).mxops = s.mxops := rfl
@[simp] theorem State.defer_commits (s : State) (l : List DVal) (x : FFlags) (n : Nat) (b : Bool) : (s.defer l x n b).commits = s.commits := rfl
@[simp] theorem State.defer_locks (s : State) (l : List DVal) (x : FFlags) (n : Nat) (b : Bool) : (s.defer l x n b).locks = s.locks := rfl
@[simp] theorem State.defer_walks (s : State) (l : List DVal) (x : FFlags) (n : Nat) (b : Bool) : (s.defer l x n b).walks = s.walks := rfl
@[simp] theorem State.defer_ports (s : State) (l : List DVal) (x : FFlags) (n : Nat) (b : Bool) : (s.defer l x n b).ports = s.ports := rfl
@[simp] theorem State.defer_peers (s : State) (l : List DVal) (x : FFlags) (n : Nat) (b : Bool) : (s.defer l x n b).peers = s.peers := rfl
@[simp] theorem State.defer_exports (s : State) (l : List DVal) (x : FFlags) (n : Nat) (b : Bool) : (s.defer l x n b).exports = s.exports := rfl
@[simp] theorem State.defer_copies (s : State) (l : List DVal) (x : FFlags) (n : Nat) (b : Bool) : (s.defer l x n b).copies = s.copies := rfl
@[simp] theorem State.defer_holders (s : State) (l : List DVal) (x : FFlags) (n : Nat) (b : Bool) : (s.defer l x n b).holders = s.holders := rfl
@[simp] theorem State.defer_lineApp (s : State) (l : List DVal) (x : FFlags) (n : Nat) (b : Bool) : (s.defer l x n b).lineApp = s.lineApp := rfl
@[simp] theorem State.defer_regions (s : State) (l : List DVal) (x : FFlags) (n : Nat) (b : Bool) : (s.defer l x n b).regions = s.regions := rfl
@[simp] theorem State.defer_module (s : State) (l : List DVal) (x : FFlags) (n : Nat) (b : Bool) : (s.defer l x n b).module = s.module := rfl
@[simp] theorem State.defer_inval (s : State) (l : List DVal) (x : FFlags) (n : Nat) (b : Bool) : (s.defer l x n b).inval = s.inval := rfl
@[simp] theorem State.defer_reply (s : State) (l : List DVal) (x : FFlags) (n : Nat) (b : Bool) : (s.defer l x n b).reply = s.reply := rfl
@[simp] theorem State.defer_oracle (s : State) (l : List DVal) (x : FFlags) (n : Nat) (b : Bool) : (s.defer l x n b).oracle = s.oracle := rfl
@[simp] theorem State.defer_nextId (s : State) (l : List DVal) (x : FFlags) (n : Nat) (b : Bool) : (s.defer l x n b).nextId = s.nextId + 1 := rfl
@[simp] theorem State.defer_turn (s : State) (l : List DVal) (x : FFlags) (n : Nat) (b : Bool) : (s.defer l x n b).turn = s.turn := rfl
@[simp] theorem State.defer_agenda (s : State) (l : List DVal) (x : FFlags) (n : Nat) (b : Bool) : (s.defer l x n b).agenda = s.agenda := rfl
@[simp] theorem State.defer_ev (s : State) (l : List DVal) (x : FFlags) (n : Nat) (b : Bool) : (s.defer l x n b).ev = s.ev := rfl

/-! ## `State.raiseRecord` -/

@[simp] theorem State.raiseRecord_cur (s : State) (k : Nat) (r : BitVec 512) : (s.raiseRecord k r).cur = s.cur := rfl
@[simp] theorem State.raiseRecord_ctxs (s : State) (k : Nat) (r : BitVec 512) : (s.raiseRecord k r).ctxs = s.ctxs := rfl
@[simp] theorem State.raiseRecord_blocks (s : State) (k : Nat) (r : BitVec 512) : (s.raiseRecord k r).blocks = s.blocks := rfl
@[simp] theorem State.raiseRecord_launches (s : State) (k : Nat) (r : BitVec 512) : (s.raiseRecord k r).launches = s.launches := rfl
@[simp] theorem State.raiseRecord_parts (s : State) (k : Nat) (r : BitVec 512) : (s.raiseRecord k r).parts = s.parts := rfl
@[simp] theorem State.raiseRecord_vfs (s : State) (k : Nat) (r : BitVec 512) : (s.raiseRecord k r).vfs = s.vfs := rfl
@[simp] theorem State.raiseRecord_cores (s : State) (k : Nat) (r : BitVec 512) : (s.raiseRecord k r).cores = s.cores := rfl
@[simp] theorem State.raiseRecord_tiles (s : State) (k : Nat) (r : BitVec 512) : (s.raiseRecord k r).tiles = s.tiles := rfl
@[simp] theorem State.raiseRecord_fields (s : State) (k : Nat) (r : BitVec 512) : (s.raiseRecord k r).fields = s.fields := rfl
@[simp] theorem State.raiseRecord_grans (s : State) (k : Nat) (r : BitVec 512) : (s.raiseRecord k r).grans = s.grans := rfl
@[simp] theorem State.raiseRecord_hbm (s : State) (k : Nat) (r : BitVec 512) : (s.raiseRecord k r).hbm = s.hbm := rfl
@[simp] theorem State.raiseRecord_host (s : State) (k : Nat) (r : BitVec 512) : (s.raiseRecord k r).host = s.host := rfl
@[simp] theorem State.raiseRecord_sp (s : State) (k : Nat) (r : BitVec 512) : (s.raiseRecord k r).sp = s.sp := rfl
@[simp] theorem State.raiseRecord_vrf (s : State) (k : Nat) (r : BitVec 512) : (s.raiseRecord k r).vrf = s.vrf := rfl
@[simp] theorem State.raiseRecord_acc (s : State) (k : Nat) (r : BitVec 512) : (s.raiseRecord k r).acc = s.acc := rfl
@[simp] theorem State.raiseRecord_planes (s : State) (k : Nat) (r : BitVec 512) : (s.raiseRecord k r).planes = s.planes := rfl
@[simp] theorem State.raiseRecord_sums (s : State) (k : Nat) (r : BitVec 512) : (s.raiseRecord k r).sums = s.sums := rfl
@[simp] theorem State.raiseRecord_bexp (s : State) (k : Nat) (r : BitVec 512) : (s.raiseRecord k r).bexp = s.bexp := rfl
@[simp] theorem State.raiseRecord_poison (s : State) (k : Nat) (r : BitVec 512) : (s.raiseRecord k r).poison = s.poison := rfl
@[simp] theorem State.raiseRecord_packets (s : State) (k : Nat) (r : BitVec 512) : (s.raiseRecord k r).packets = s.packets := rfl
@[simp] theorem State.raiseRecord_drops (s : State) (k : Nat) (r : BitVec 512) : (s.raiseRecord k r).drops = s.drops := rfl
@[simp] theorem State.raiseRecord_nacks (s : State) (k : Nat) (r : BitVec 512) : (s.raiseRecord k r).nacks = s.nacks := rfl
@[simp] theorem State.raiseRecord_deliveries (s : State) (k : Nat) (r : BitVec 512) : (s.raiseRecord k r).deliveries = s.deliveries := rfl
@[simp] theorem State.raiseRecord_raised (s : State) (k : Nat) (r : BitVec 512) : (s.raiseRecord k r).raised = s.raised ++ [(k, r)] := rfl
@[simp] theorem State.raiseRecord_jobs (s : State) (k : Nat) (r : BitVec 512) : (s.raiseRecord k r).jobs = s.jobs := rfl
@[simp] theorem State.raiseRecord_colls (s : State) (k : Nat) (r : BitVec 512) : (s.raiseRecord k r).colls = s.colls := rfl
@[simp] theorem State.raiseRecord_mxops (s : State) (k : Nat) (r : BitVec 512) : (s.raiseRecord k r).mxops = s.mxops := rfl
@[simp] theorem State.raiseRecord_commits (s : State) (k : Nat) (r : BitVec 512) : (s.raiseRecord k r).commits = s.commits := rfl
@[simp] theorem State.raiseRecord_locks (s : State) (k : Nat) (r : BitVec 512) : (s.raiseRecord k r).locks = s.locks := rfl
@[simp] theorem State.raiseRecord_walks (s : State) (k : Nat) (r : BitVec 512) : (s.raiseRecord k r).walks = s.walks := rfl
@[simp] theorem State.raiseRecord_ports (s : State) (k : Nat) (r : BitVec 512) : (s.raiseRecord k r).ports = s.ports := rfl
@[simp] theorem State.raiseRecord_peers (s : State) (k : Nat) (r : BitVec 512) : (s.raiseRecord k r).peers = s.peers := rfl
@[simp] theorem State.raiseRecord_exports (s : State) (k : Nat) (r : BitVec 512) : (s.raiseRecord k r).exports = s.exports := rfl
@[simp] theorem State.raiseRecord_copies (s : State) (k : Nat) (r : BitVec 512) : (s.raiseRecord k r).copies = s.copies := rfl
@[simp] theorem State.raiseRecord_holders (s : State) (k : Nat) (r : BitVec 512) : (s.raiseRecord k r).holders = s.holders := rfl
@[simp] theorem State.raiseRecord_lineApp (s : State) (k : Nat) (r : BitVec 512) : (s.raiseRecord k r).lineApp = s.lineApp := rfl
@[simp] theorem State.raiseRecord_regions (s : State) (k : Nat) (r : BitVec 512) : (s.raiseRecord k r).regions = s.regions := rfl
@[simp] theorem State.raiseRecord_module (s : State) (k : Nat) (r : BitVec 512) : (s.raiseRecord k r).module = s.module := rfl
@[simp] theorem State.raiseRecord_inval (s : State) (k : Nat) (r : BitVec 512) : (s.raiseRecord k r).inval = s.inval := rfl
@[simp] theorem State.raiseRecord_reply (s : State) (k : Nat) (r : BitVec 512) : (s.raiseRecord k r).reply = s.reply := rfl
@[simp] theorem State.raiseRecord_oracle (s : State) (k : Nat) (r : BitVec 512) : (s.raiseRecord k r).oracle = s.oracle := rfl
@[simp] theorem State.raiseRecord_nextId (s : State) (k : Nat) (r : BitVec 512) : (s.raiseRecord k r).nextId = s.nextId := rfl
@[simp] theorem State.raiseRecord_turn (s : State) (k : Nat) (r : BitVec 512) : (s.raiseRecord k r).turn = s.turn := rfl
@[simp] theorem State.raiseRecord_agenda (s : State) (k : Nat) (r : BitVec 512) : (s.raiseRecord k r).agenda = s.agenda := rfl
@[simp] theorem State.raiseRecord_ev (s : State) (k : Nat) (r : BitVec 512) : (s.raiseRecord k r).ev = s.ev := rfl

/-! ## `State.clearIssue` -/

@[simp] theorem State.clearIssue_ctxs (s : State) : (s.clearIssue).ctxs = s.ctxs := rfl
@[simp] theorem State.clearIssue_blocks (s : State) : (s.clearIssue).blocks = s.blocks := rfl
@[simp] theorem State.clearIssue_launches (s : State) : (s.clearIssue).launches = s.launches := rfl
@[simp] theorem State.clearIssue_parts (s : State) : (s.clearIssue).parts = s.parts := rfl
@[simp] theorem State.clearIssue_vfs (s : State) : (s.clearIssue).vfs = s.vfs := rfl
@[simp] theorem State.clearIssue_cores (s : State) : (s.clearIssue).cores = s.cores := rfl
@[simp] theorem State.clearIssue_tiles (s : State) : (s.clearIssue).tiles = s.tiles := rfl
@[simp] theorem State.clearIssue_fields (s : State) : (s.clearIssue).fields = s.fields := rfl
@[simp] theorem State.clearIssue_grans (s : State) : (s.clearIssue).grans = s.grans := rfl
@[simp] theorem State.clearIssue_hbm (s : State) : (s.clearIssue).hbm = s.hbm := rfl
@[simp] theorem State.clearIssue_host (s : State) : (s.clearIssue).host = s.host := rfl
@[simp] theorem State.clearIssue_sp (s : State) : (s.clearIssue).sp = s.sp := rfl
@[simp] theorem State.clearIssue_vrf (s : State) : (s.clearIssue).vrf = s.vrf := rfl
@[simp] theorem State.clearIssue_acc (s : State) : (s.clearIssue).acc = s.acc := rfl
@[simp] theorem State.clearIssue_planes (s : State) : (s.clearIssue).planes = s.planes := rfl
@[simp] theorem State.clearIssue_sums (s : State) : (s.clearIssue).sums = s.sums := rfl
@[simp] theorem State.clearIssue_bexp (s : State) : (s.clearIssue).bexp = s.bexp := rfl
@[simp] theorem State.clearIssue_poison (s : State) : (s.clearIssue).poison = s.poison := rfl
@[simp] theorem State.clearIssue_packets (s : State) : (s.clearIssue).packets = s.packets := rfl
@[simp] theorem State.clearIssue_drops (s : State) : (s.clearIssue).drops = s.drops := rfl
@[simp] theorem State.clearIssue_nacks (s : State) : (s.clearIssue).nacks = s.nacks := rfl
@[simp] theorem State.clearIssue_deliveries (s : State) : (s.clearIssue).deliveries = s.deliveries := rfl
@[simp] theorem State.clearIssue_raised (s : State) : (s.clearIssue).raised = s.raised := rfl
@[simp] theorem State.clearIssue_jobs (s : State) : (s.clearIssue).jobs = s.jobs := rfl
@[simp] theorem State.clearIssue_colls (s : State) : (s.clearIssue).colls = s.colls := rfl
@[simp] theorem State.clearIssue_mxops (s : State) : (s.clearIssue).mxops = s.mxops := rfl
@[simp] theorem State.clearIssue_commits (s : State) : (s.clearIssue).commits = s.commits := rfl
@[simp] theorem State.clearIssue_locks (s : State) : (s.clearIssue).locks = s.locks := rfl
@[simp] theorem State.clearIssue_walks (s : State) : (s.clearIssue).walks = s.walks := rfl
@[simp] theorem State.clearIssue_ports (s : State) : (s.clearIssue).ports = s.ports := rfl
@[simp] theorem State.clearIssue_peers (s : State) : (s.clearIssue).peers = s.peers := rfl
@[simp] theorem State.clearIssue_exports (s : State) : (s.clearIssue).exports = s.exports := rfl
@[simp] theorem State.clearIssue_copies (s : State) : (s.clearIssue).copies = s.copies := rfl
@[simp] theorem State.clearIssue_holders (s : State) : (s.clearIssue).holders = s.holders := rfl
@[simp] theorem State.clearIssue_lineApp (s : State) : (s.clearIssue).lineApp = s.lineApp := rfl
@[simp] theorem State.clearIssue_regions (s : State) : (s.clearIssue).regions = s.regions := rfl
@[simp] theorem State.clearIssue_module (s : State) : (s.clearIssue).module = s.module := rfl
@[simp] theorem State.clearIssue_inval (s : State) : (s.clearIssue).inval = s.inval := rfl
@[simp] theorem State.clearIssue_reply (s : State) : (s.clearIssue).reply = s.reply := rfl
@[simp] theorem State.clearIssue_oracle (s : State) : (s.clearIssue).oracle = s.oracle := rfl
@[simp] theorem State.clearIssue_nextId (s : State) : (s.clearIssue).nextId = s.nextId := rfl
@[simp] theorem State.clearIssue_turn (s : State) : (s.clearIssue).turn = s.turn := rfl
@[simp] theorem State.clearIssue_agenda (s : State) : (s.clearIssue).agenda = s.agenda := rfl
@[simp] theorem State.clearIssue_ev (s : State) : (s.clearIssue).ev = s.ev := rfl

@[simp] theorem State.writeV_vrf (s : State) (r : Nat) (m : Mask) (v : Vec) :
    (s.writeV r m v).vrf = SMap.set 0 s.vrf (s.cur.row r) (mergeVec m v (s.rawV r)) := by
  simp only [State.writeV]

/-! ## `State.writeP` -/

@[simp] theorem State.writeP_ctxs (s : State) (r : Nat) (m v : Mask) : (s.writeP r m v).ctxs = s.ctxs := by
  unfold State.writeP; split <;> rfl
@[simp] theorem State.writeP_blocks (s : State) (r : Nat) (m v : Mask) : (s.writeP r m v).blocks = s.blocks := by
  unfold State.writeP; split <;> rfl
@[simp] theorem State.writeP_launches (s : State) (r : Nat) (m v : Mask) : (s.writeP r m v).launches = s.launches := by
  unfold State.writeP; split <;> rfl
@[simp] theorem State.writeP_parts (s : State) (r : Nat) (m v : Mask) : (s.writeP r m v).parts = s.parts := by
  unfold State.writeP; split <;> rfl
@[simp] theorem State.writeP_vfs (s : State) (r : Nat) (m v : Mask) : (s.writeP r m v).vfs = s.vfs := by
  unfold State.writeP; split <;> rfl
@[simp] theorem State.writeP_cores (s : State) (r : Nat) (m v : Mask) : (s.writeP r m v).cores = s.cores := by
  unfold State.writeP; split <;> rfl
@[simp] theorem State.writeP_tiles (s : State) (r : Nat) (m v : Mask) : (s.writeP r m v).tiles = s.tiles := by
  unfold State.writeP; split <;> rfl
@[simp] theorem State.writeP_fields (s : State) (r : Nat) (m v : Mask) : (s.writeP r m v).fields = s.fields := by
  unfold State.writeP; split <;> rfl
@[simp] theorem State.writeP_grans (s : State) (r : Nat) (m v : Mask) : (s.writeP r m v).grans = s.grans := by
  unfold State.writeP; split <;> rfl
@[simp] theorem State.writeP_hbm (s : State) (r : Nat) (m v : Mask) : (s.writeP r m v).hbm = s.hbm := by
  unfold State.writeP; split <;> rfl
@[simp] theorem State.writeP_host (s : State) (r : Nat) (m v : Mask) : (s.writeP r m v).host = s.host := by
  unfold State.writeP; split <;> rfl
@[simp] theorem State.writeP_sp (s : State) (r : Nat) (m v : Mask) : (s.writeP r m v).sp = s.sp := by
  unfold State.writeP; split <;> rfl
@[simp] theorem State.writeP_vrf (s : State) (r : Nat) (m v : Mask) : (s.writeP r m v).vrf = s.vrf := by
  unfold State.writeP; split <;> rfl
@[simp] theorem State.writeP_acc (s : State) (r : Nat) (m v : Mask) : (s.writeP r m v).acc = s.acc := by
  unfold State.writeP; split <;> rfl
@[simp] theorem State.writeP_planes (s : State) (r : Nat) (m v : Mask) : (s.writeP r m v).planes = s.planes := by
  unfold State.writeP; split <;> rfl
@[simp] theorem State.writeP_sums (s : State) (r : Nat) (m v : Mask) : (s.writeP r m v).sums = s.sums := by
  unfold State.writeP; split <;> rfl
@[simp] theorem State.writeP_bexp (s : State) (r : Nat) (m v : Mask) : (s.writeP r m v).bexp = s.bexp := by
  unfold State.writeP; split <;> rfl
@[simp] theorem State.writeP_poison (s : State) (r : Nat) (m v : Mask) : (s.writeP r m v).poison = s.poison := by
  unfold State.writeP; split <;> rfl
@[simp] theorem State.writeP_packets (s : State) (r : Nat) (m v : Mask) : (s.writeP r m v).packets = s.packets := by
  unfold State.writeP; split <;> rfl
@[simp] theorem State.writeP_drops (s : State) (r : Nat) (m v : Mask) : (s.writeP r m v).drops = s.drops := by
  unfold State.writeP; split <;> rfl
@[simp] theorem State.writeP_nacks (s : State) (r : Nat) (m v : Mask) : (s.writeP r m v).nacks = s.nacks := by
  unfold State.writeP; split <;> rfl
@[simp] theorem State.writeP_deliveries (s : State) (r : Nat) (m v : Mask) : (s.writeP r m v).deliveries = s.deliveries := by
  unfold State.writeP; split <;> rfl
@[simp] theorem State.writeP_raised (s : State) (r : Nat) (m v : Mask) : (s.writeP r m v).raised = s.raised := by
  unfold State.writeP; split <;> rfl
@[simp] theorem State.writeP_jobs (s : State) (r : Nat) (m v : Mask) : (s.writeP r m v).jobs = s.jobs := by
  unfold State.writeP; split <;> rfl
@[simp] theorem State.writeP_colls (s : State) (r : Nat) (m v : Mask) : (s.writeP r m v).colls = s.colls := by
  unfold State.writeP; split <;> rfl
@[simp] theorem State.writeP_mxops (s : State) (r : Nat) (m v : Mask) : (s.writeP r m v).mxops = s.mxops := by
  unfold State.writeP; split <;> rfl
@[simp] theorem State.writeP_commits (s : State) (r : Nat) (m v : Mask) : (s.writeP r m v).commits = s.commits := by
  unfold State.writeP; split <;> rfl
@[simp] theorem State.writeP_locks (s : State) (r : Nat) (m v : Mask) : (s.writeP r m v).locks = s.locks := by
  unfold State.writeP; split <;> rfl
@[simp] theorem State.writeP_walks (s : State) (r : Nat) (m v : Mask) : (s.writeP r m v).walks = s.walks := by
  unfold State.writeP; split <;> rfl
@[simp] theorem State.writeP_ports (s : State) (r : Nat) (m v : Mask) : (s.writeP r m v).ports = s.ports := by
  unfold State.writeP; split <;> rfl
@[simp] theorem State.writeP_peers (s : State) (r : Nat) (m v : Mask) : (s.writeP r m v).peers = s.peers := by
  unfold State.writeP; split <;> rfl
@[simp] theorem State.writeP_exports (s : State) (r : Nat) (m v : Mask) : (s.writeP r m v).exports = s.exports := by
  unfold State.writeP; split <;> rfl
@[simp] theorem State.writeP_copies (s : State) (r : Nat) (m v : Mask) : (s.writeP r m v).copies = s.copies := by
  unfold State.writeP; split <;> rfl
@[simp] theorem State.writeP_holders (s : State) (r : Nat) (m v : Mask) : (s.writeP r m v).holders = s.holders := by
  unfold State.writeP; split <;> rfl
@[simp] theorem State.writeP_lineApp (s : State) (r : Nat) (m v : Mask) : (s.writeP r m v).lineApp = s.lineApp := by
  unfold State.writeP; split <;> rfl
@[simp] theorem State.writeP_regions (s : State) (r : Nat) (m v : Mask) : (s.writeP r m v).regions = s.regions := by
  unfold State.writeP; split <;> rfl
@[simp] theorem State.writeP_module (s : State) (r : Nat) (m v : Mask) : (s.writeP r m v).module = s.module := by
  unfold State.writeP; split <;> rfl
@[simp] theorem State.writeP_inval (s : State) (r : Nat) (m v : Mask) : (s.writeP r m v).inval = s.inval := by
  unfold State.writeP; split <;> rfl
@[simp] theorem State.writeP_reply (s : State) (r : Nat) (m v : Mask) : (s.writeP r m v).reply = s.reply := by
  unfold State.writeP; split <;> rfl
@[simp] theorem State.writeP_oracle (s : State) (r : Nat) (m v : Mask) : (s.writeP r m v).oracle = s.oracle := by
  unfold State.writeP; split <;> rfl
@[simp] theorem State.writeP_nextId (s : State) (r : Nat) (m v : Mask) : (s.writeP r m v).nextId = s.nextId := by
  unfold State.writeP; split <;> rfl
@[simp] theorem State.writeP_turn (s : State) (r : Nat) (m v : Mask) : (s.writeP r m v).turn = s.turn := by
  unfold State.writeP; split <;> rfl
@[simp] theorem State.writeP_agenda (s : State) (r : Nat) (m v : Mask) : (s.writeP r m v).agenda = s.agenda := by
  unfold State.writeP; split <;> rfl
@[simp] theorem State.writeP_ev (s : State) (r : Nat) (m v : Mask) : (s.writeP r m v).ev = s.ev := by
  unfold State.writeP; split <;> rfl

/-! ## The current context after `State.writeV` -/

@[simp] theorem State.writeV_cur_kind (s : State) (r : Nat) (m : Mask) (v : Vec) : (s.writeV r m v).cur.kind = s.cur.kind := rfl
@[simp] theorem State.writeV_cur_id (s : State) (r : Nat) (m : Mask) (v : Vec) : (s.writeV r m v).cur.id = s.cur.id := rfl
@[simp] theorem State.writeV_cur_launch (s : State) (r : Nat) (m : Mask) (v : Vec) : (s.writeV r m v).cur.launch = s.cur.launch := rfl
@[simp] theorem State.writeV_cur_block (s : State) (r : Nat) (m : Mask) (v : Vec) : (s.writeV r m v).cur.block = s.cur.block := rfl
@[simp] theorem State.writeV_cur_lg (s : State) (r : Nat) (m : Mask) (v : Vec) : (s.writeV r m v).cur.lg = s.cur.lg := rfl
@[simp] theorem State.writeV_cur_core (s : State) (r : Nat) (m : Mask) (v : Vec) : (s.writeV r m v).cur.core = s.cur.core := rfl
@[simp] theorem State.writeV_cur_slot (s : State) (r : Nat) (m : Mask) (v : Vec) : (s.writeV r m v).cur.slot = s.cur.slot := rfl
@[simp] theorem State.writeV_cur_vbase (s : State) (r : Nat) (m : Mask) (v : Vec) : (s.writeV r m v).cur.vbase = s.cur.vbase := rfl
@[simp] theorem State.writeV_cur_valloc (s : State) (r : Nat) (m : Mask) (v : Vec) : (s.writeV r m v).cur.valloc = s.cur.valloc := rfl
@[simp] theorem State.writeV_cur_fbbase (s : State) (r : Nat) (m : Mask) (v : Vec) : (s.writeV r m v).cur.fbbase = s.cur.fbbase := rfl
@[simp] theorem State.writeV_cur_resident (s : State) (r : Nat) (m : Mask) (v : Vec) : (s.writeV r m v).cur.resident = s.cur.resident := rfl
@[simp] theorem State.writeV_cur_pc (s : State) (r : Nat) (m : Mask) (v : Vec) : (s.writeV r m v).cur.pc = s.cur.pc := rfl
@[simp] theorem State.writeV_cur_smode (s : State) (r : Nat) (m : Mask) (v : Vec) : (s.writeV r m v).cur.smode = s.cur.smode := rfl
@[simp] theorem State.writeV_cur_em (s : State) (r : Nat) (m : Mask) (v : Vec) : (s.writeV r m v).cur.em = s.cur.em := rfl
@[simp] theorem State.writeV_cur_preds (s : State) (r : Nat) (m : Mask) (v : Vec) : (s.writeV r m v).cur.preds = s.cur.preds := rfl
@[simp] theorem State.writeV_cur_sregs (s : State) (r : Nat) (m : Mask) (v : Vec) : (s.writeV r m v).cur.sregs = s.cur.sregs := rfl
@[simp] theorem State.writeV_cur_fpx (s : State) (r : Nat) (m : Mask) (v : Vec) : (s.writeV r m v).cur.fpx = s.cur.fpx := rfl
@[simp] theorem State.writeV_cur_txThresh (s : State) (r : Nat) (m : Mask) (v : Vec) : (s.writeV r m v).cur.txThresh = s.cur.txThresh := rfl
@[simp] theorem State.writeV_cur_txg (s : State) (r : Nat) (m : Mask) (v : Vec) : (s.writeV r m v).cur.txg = s.cur.txg := rfl
@[simp] theorem State.writeV_cur_txHold (s : State) (r : Nat) (m : Mask) (v : Vec) : (s.writeV r m v).cur.txHold = s.cur.txHold := rfl
@[simp] theorem State.writeV_cur_txLane (s : State) (r : Nat) (m : Mask) (v : Vec) : (s.writeV r m v).cur.txLane = s.cur.txLane := rfl
@[simp] theorem State.writeV_cur_txrec (s : State) (r : Nat) (m : Mask) (v : Vec) : (s.writeV r m v).cur.txrec = s.cur.txrec := rfl
@[simp] theorem State.writeV_cur_txlogs (s : State) (r : Nat) (m : Mask) (v : Vec) : (s.writeV r m v).cur.txlogs = s.cur.txlogs := rfl
@[simp] theorem State.writeV_cur_txAddr (s : State) (r : Nat) (m : Mask) (v : Vec) : (s.writeV r m v).cur.txAddr = s.cur.txAddr := rfl
@[simp] theorem State.writeV_cur_doomed (s : State) (r : Nat) (m : Mask) (v : Vec) : (s.writeV r m v).cur.doomed = s.cur.doomed := rfl
@[simp] theorem State.writeV_cur_loop (s : State) (r : Nat) (m : Mask) (v : Vec) : (s.writeV r m v).cur.loop = s.cur.loop := rfl
@[simp] theorem State.writeV_cur_deferred (s : State) (r : Nat) (m : Mask) (v : Vec) : (s.writeV r m v).cur.deferred = s.cur.deferred.map (contestV r m) := rfl
@[simp] theorem State.writeV_cur_park (s : State) (r : Nat) (m : Mask) (v : Vec) : (s.writeV r m v).cur.park = s.cur.park := rfl
@[simp] theorem State.writeV_cur_reissue (s : State) (r : Nat) (m : Mask) (v : Vec) : (s.writeV r m v).cur.reissue = s.cur.reissue := rfl
@[simp] theorem State.writeV_cur_woken (s : State) (r : Nat) (m : Mask) (v : Vec) : (s.writeV r m v).cur.woken = s.cur.woken := rfl
@[simp] theorem State.writeV_cur_parkSeq (s : State) (r : Nat) (m : Mask) (v : Vec) : (s.writeV r m v).cur.parkSeq = s.cur.parkSeq := rfl
@[simp] theorem State.writeV_cur_dirty (s : State) (r : Nat) (m : Mask) (v : Vec) : (s.writeV r m v).cur.dirty = s.cur.dirty := rfl
@[simp] theorem State.writeV_cur_deadline (s : State) (r : Nat) (m : Mask) (v : Vec) : (s.writeV r m v).cur.deadline = s.cur.deadline := rfl
@[simp] theorem State.writeV_cur_issued (s : State) (r : Nat) (m : Mask) (v : Vec) : (s.writeV r m v).cur.issued = s.cur.issued := rfl
@[simp] theorem State.writeV_cur_smCount (s : State) (r : Nat) (m : Mask) (v : Vec) : (s.writeV r m v).cur.smCount = s.cur.smCount := rfl
@[simp] theorem State.writeV_cur_epc (s : State) (r : Nat) (m : Mask) (v : Vec) : (s.writeV r m v).cur.epc = s.cur.epc := rfl
@[simp] theorem State.writeV_cur_cause (s : State) (r : Nat) (m : Mask) (v : Vec) : (s.writeV r m v).cur.cause = s.cur.cause := rfl
@[simp] theorem State.writeV_cur_savedEm (s : State) (r : Nat) (m : Mask) (v : Vec) : (s.writeV r m v).cur.savedEm = s.cur.savedEm := rfl
@[simp] theorem State.writeV_cur_savedLoop (s : State) (r : Nat) (m : Mask) (v : Vec) : (s.writeV r m v).cur.savedLoop = s.cur.savedLoop := rfl
@[simp] theorem State.writeV_cur_savedRecipe (s : State) (r : Nat) (m : Mask) (v : Vec) : (s.writeV r m v).cur.savedRecipe = s.cur.savedRecipe := rfl
@[simp] theorem State.writeV_cur_fltAddrs (s : State) (r : Nat) (m : Mask) (v : Vec) : (s.writeV r m v).cur.fltAddrs = s.cur.fltAddrs := rfl
@[simp] theorem State.writeV_cur_rcpHeader (s : State) (r : Nat) (m : Mask) (v : Vec) : (s.writeV r m v).cur.rcpHeader = s.cur.rcpHeader := rfl
@[simp] theorem State.writeV_cur_fbLoop (s : State) (r : Nat) (m : Mask) (v : Vec) : (s.writeV r m v).cur.fbLoop = s.cur.fbLoop := rfl
@[simp] theorem State.writeV_cur_recipe (s : State) (r : Nat) (m : Mask) (v : Vec) : (s.writeV r m v).cur.recipe = s.cur.recipe := rfl
@[simp] theorem State.writeV_cur_icnt (s : State) (r : Nat) (m : Mask) (v : Vec) : (s.writeV r m v).cur.icnt = s.cur.icnt := rfl
@[simp] theorem State.writeV_cur_drag (s : State) (r : Nat) (m : Mask) (v : Vec) : (s.writeV r m v).cur.drag = s.cur.drag := rfl
@[simp] theorem State.writeV_cur_cls0 (s : State) (r : Nat) (m : Mask) (v : Vec) : (s.writeV r m v).cur.cls0 = s.cur.cls0 := rfl
@[simp] theorem State.writeV_cur_cls1 (s : State) (r : Nat) (m : Mask) (v : Vec) : (s.writeV r m v).cur.cls1 = s.cur.cls1 := rfl
@[simp] theorem State.writeV_cur_cls2 (s : State) (r : Nat) (m : Mask) (v : Vec) : (s.writeV r m v).cur.cls2 = s.cur.cls2 := rfl
@[simp] theorem State.writeV_cur_cls3 (s : State) (r : Nat) (m : Mask) (v : Vec) : (s.writeV r m v).cur.cls3 = s.cur.cls3 := rfl
@[simp] theorem State.writeV_cur_breq (s : State) (r : Nat) (m : Mask) (v : Vec) : (s.writeV r m v).cur.breq = s.cur.breq := rfl
@[simp] theorem State.writeV_cur_nreq (s : State) (r : Nat) (m : Mask) (v : Vec) : (s.writeV r m v).cur.nreq = s.cur.nreq := rfl
@[simp] theorem State.writeV_cur_openSet (s : State) (r : Nat) (m : Mask) (v : Vec) : (s.writeV r m v).cur.openSet = s.cur.openSet := rfl
@[simp] theorem State.writeV_cur_batchN (s : State) (r : Nat) (m : Mask) (v : Vec) : (s.writeV r m v).cur.batchN = s.cur.batchN := rfl
@[simp] theorem State.writeV_cur_batches (s : State) (r : Nat) (m : Mask) (v : Vec) : (s.writeV r m v).cur.batches = s.cur.batches := rfl
@[simp] theorem State.writeV_cur_mxOpen (s : State) (r : Nat) (m : Mask) (v : Vec) : (s.writeV r m v).cur.mxOpen = s.cur.mxOpen := rfl
@[simp] theorem State.writeV_cur_mxBatchN (s : State) (r : Nat) (m : Mask) (v : Vec) : (s.writeV r m v).cur.mxBatchN = s.cur.mxBatchN := rfl
@[simp] theorem State.writeV_cur_mxBatches (s : State) (r : Nat) (m : Mask) (v : Vec) : (s.writeV r m v).cur.mxBatches = s.cur.mxBatches := rfl
@[simp] theorem State.writeV_cur_mxOpenFail (s : State) (r : Nat) (m : Mask) (v : Vec) : (s.writeV r m v).cur.mxOpenFail = s.cur.mxOpenFail := rfl
@[simp] theorem State.writeV_cur_stage (s : State) (r : Nat) (m : Mask) (v : Vec) : (s.writeV r m v).cur.stage = s.cur.stage := rfl
@[simp] theorem State.writeV_cur_yields (s : State) (r : Nat) (m : Mask) (v : Vec) : (s.writeV r m v).cur.yields = s.cur.yields := rfl
@[simp] theorem State.writeV_cur_age (s : State) (r : Nat) (m : Mask) (v : Vec) : (s.writeV r m v).cur.age = s.cur.age := rfl
@[simp] theorem State.writeV_cur_resOrder (s : State) (r : Nat) (m : Mask) (v : Vec) : (s.writeV r m v).cur.resOrder = s.cur.resOrder := rfl
@[simp] theorem State.writeV_cur_poisonV (s : State) (r : Nat) (m : Mask) (v : Vec) : (s.writeV r m v).cur.poisonV = SMap.set 0 s.cur.poisonV r (SMap.get 0 s.cur.poisonV r &&& ~~~m) := rfl
@[simp] theorem State.writeV_cur_poisonS (s : State) (r : Nat) (m : Mask) (v : Vec) : (s.writeV r m v).cur.poisonS = s.cur.poisonS := rfl
@[simp] theorem State.writeV_cur_preempt (s : State) (r : Nat) (m : Mask) (v : Vec) : (s.writeV r m v).cur.preempt = s.cur.preempt := rfl
@[simp] theorem State.writeV_cur_stopped (s : State) (r : Nat) (m : Mask) (v : Vec) : (s.writeV r m v).cur.stopped = s.cur.stopped := rfl
@[simp] theorem State.writeV_cur_ended (s : State) (r : Nat) (m : Mask) (v : Vec) : (s.writeV r m v).cur.ended = s.cur.ended := rfl
@[simp] theorem State.writeV_cur_addrOff (s : State) (r : Nat) (m : Mask) (v : Vec) : (s.writeV r m v).cur.addrOff = s.cur.addrOff := rfl
@[simp] theorem State.writeV_cur_slotLen (s : State) (r : Nat) (m : Mask) (v : Vec) : (s.writeV r m v).cur.slotLen = s.cur.slotLen := rfl
@[simp] theorem State.writeV_cur_stepped (s : State) (r : Nat) (m : Mask) (v : Vec) : (s.writeV r m v).cur.stepped = s.cur.stepped := rfl
@[simp] theorem State.writeV_cur_event (s : State) (r : Nat) (m : Mask) (v : Vec) : (s.writeV r m v).cur.event = s.cur.event := rfl
@[simp] theorem State.writeV_cur_late (s : State) (r : Nat) (m : Mask) (v : Vec) : (s.writeV r m v).cur.late = s.cur.late := rfl
@[simp] theorem State.writeV_cur_fenced (s : State) (r : Nat) (m : Mask) (v : Vec) : (s.writeV r m v).cur.fenced = s.cur.fenced := rfl
@[simp] theorem State.writeV_cur_probe (s : State) (r : Nat) (m : Mask) (v : Vec) : (s.writeV r m v).cur.probe = s.cur.probe := rfl
@[simp] theorem State.writeV_cur_answers (s : State) (r : Nat) (m : Mask) (v : Vec) : (s.writeV r m v).cur.answers = s.cur.answers := rfl
@[simp] theorem State.writeV_cur_relFence (s : State) (r : Nat) (m : Mask) (v : Vec) : (s.writeV r m v).cur.relFence = s.cur.relFence := rfl
@[simp] theorem State.writeV_cur_asyncFence (s : State) (r : Nat) (m : Mask) (v : Vec) : (s.writeV r m v).cur.asyncFence = s.cur.asyncFence := rfl

/-! ## The current context after `State.writeS` -/

@[simp] theorem State.writeS_cur_kind (s : State) (r : Nat) (v : W64) : (s.writeS r v).cur.kind = s.cur.kind := rfl
@[simp] theorem State.writeS_cur_id (s : State) (r : Nat) (v : W64) : (s.writeS r v).cur.id = s.cur.id := rfl
@[simp] theorem State.writeS_cur_launch (s : State) (r : Nat) (v : W64) : (s.writeS r v).cur.launch = s.cur.launch := rfl
@[simp] theorem State.writeS_cur_block (s : State) (r : Nat) (v : W64) : (s.writeS r v).cur.block = s.cur.block := rfl
@[simp] theorem State.writeS_cur_lg (s : State) (r : Nat) (v : W64) : (s.writeS r v).cur.lg = s.cur.lg := rfl
@[simp] theorem State.writeS_cur_core (s : State) (r : Nat) (v : W64) : (s.writeS r v).cur.core = s.cur.core := rfl
@[simp] theorem State.writeS_cur_slot (s : State) (r : Nat) (v : W64) : (s.writeS r v).cur.slot = s.cur.slot := rfl
@[simp] theorem State.writeS_cur_vbase (s : State) (r : Nat) (v : W64) : (s.writeS r v).cur.vbase = s.cur.vbase := rfl
@[simp] theorem State.writeS_cur_valloc (s : State) (r : Nat) (v : W64) : (s.writeS r v).cur.valloc = s.cur.valloc := rfl
@[simp] theorem State.writeS_cur_fbbase (s : State) (r : Nat) (v : W64) : (s.writeS r v).cur.fbbase = s.cur.fbbase := rfl
@[simp] theorem State.writeS_cur_resident (s : State) (r : Nat) (v : W64) : (s.writeS r v).cur.resident = s.cur.resident := rfl
@[simp] theorem State.writeS_cur_pc (s : State) (r : Nat) (v : W64) : (s.writeS r v).cur.pc = s.cur.pc := rfl
@[simp] theorem State.writeS_cur_smode (s : State) (r : Nat) (v : W64) : (s.writeS r v).cur.smode = s.cur.smode := rfl
@[simp] theorem State.writeS_cur_em (s : State) (r : Nat) (v : W64) : (s.writeS r v).cur.em = s.cur.em := rfl
@[simp] theorem State.writeS_cur_preds (s : State) (r : Nat) (v : W64) : (s.writeS r v).cur.preds = s.cur.preds := rfl
@[simp] theorem State.writeS_cur_sregs (s : State) (r : Nat) (v : W64) : (s.writeS r v).cur.sregs = SMap.set 0 s.cur.sregs r v := rfl
@[simp] theorem State.writeS_cur_fpx (s : State) (r : Nat) (v : W64) : (s.writeS r v).cur.fpx = s.cur.fpx := rfl
@[simp] theorem State.writeS_cur_txThresh (s : State) (r : Nat) (v : W64) : (s.writeS r v).cur.txThresh = s.cur.txThresh := rfl
@[simp] theorem State.writeS_cur_txg (s : State) (r : Nat) (v : W64) : (s.writeS r v).cur.txg = s.cur.txg := rfl
@[simp] theorem State.writeS_cur_txHold (s : State) (r : Nat) (v : W64) : (s.writeS r v).cur.txHold = s.cur.txHold := rfl
@[simp] theorem State.writeS_cur_txLane (s : State) (r : Nat) (v : W64) : (s.writeS r v).cur.txLane = s.cur.txLane := rfl
@[simp] theorem State.writeS_cur_txrec (s : State) (r : Nat) (v : W64) : (s.writeS r v).cur.txrec = s.cur.txrec := rfl
@[simp] theorem State.writeS_cur_txlogs (s : State) (r : Nat) (v : W64) : (s.writeS r v).cur.txlogs = s.cur.txlogs := rfl
@[simp] theorem State.writeS_cur_txAddr (s : State) (r : Nat) (v : W64) : (s.writeS r v).cur.txAddr = s.cur.txAddr := rfl
@[simp] theorem State.writeS_cur_doomed (s : State) (r : Nat) (v : W64) : (s.writeS r v).cur.doomed = s.cur.doomed := rfl
@[simp] theorem State.writeS_cur_loop (s : State) (r : Nat) (v : W64) : (s.writeS r v).cur.loop = s.cur.loop := rfl
@[simp] theorem State.writeS_cur_deferred (s : State) (r : Nat) (v : W64) : (s.writeS r v).cur.deferred = s.cur.deferred.map (contestS r) := rfl
@[simp] theorem State.writeS_cur_park (s : State) (r : Nat) (v : W64) : (s.writeS r v).cur.park = s.cur.park := rfl
@[simp] theorem State.writeS_cur_reissue (s : State) (r : Nat) (v : W64) : (s.writeS r v).cur.reissue = s.cur.reissue := rfl
@[simp] theorem State.writeS_cur_woken (s : State) (r : Nat) (v : W64) : (s.writeS r v).cur.woken = s.cur.woken := rfl
@[simp] theorem State.writeS_cur_parkSeq (s : State) (r : Nat) (v : W64) : (s.writeS r v).cur.parkSeq = s.cur.parkSeq := rfl
@[simp] theorem State.writeS_cur_dirty (s : State) (r : Nat) (v : W64) : (s.writeS r v).cur.dirty = s.cur.dirty := rfl
@[simp] theorem State.writeS_cur_deadline (s : State) (r : Nat) (v : W64) : (s.writeS r v).cur.deadline = s.cur.deadline := rfl
@[simp] theorem State.writeS_cur_issued (s : State) (r : Nat) (v : W64) : (s.writeS r v).cur.issued = s.cur.issued := rfl
@[simp] theorem State.writeS_cur_smCount (s : State) (r : Nat) (v : W64) : (s.writeS r v).cur.smCount = s.cur.smCount := rfl
@[simp] theorem State.writeS_cur_epc (s : State) (r : Nat) (v : W64) : (s.writeS r v).cur.epc = s.cur.epc := rfl
@[simp] theorem State.writeS_cur_cause (s : State) (r : Nat) (v : W64) : (s.writeS r v).cur.cause = s.cur.cause := rfl
@[simp] theorem State.writeS_cur_savedEm (s : State) (r : Nat) (v : W64) : (s.writeS r v).cur.savedEm = s.cur.savedEm := rfl
@[simp] theorem State.writeS_cur_savedLoop (s : State) (r : Nat) (v : W64) : (s.writeS r v).cur.savedLoop = s.cur.savedLoop := rfl
@[simp] theorem State.writeS_cur_savedRecipe (s : State) (r : Nat) (v : W64) : (s.writeS r v).cur.savedRecipe = s.cur.savedRecipe := rfl
@[simp] theorem State.writeS_cur_fltAddrs (s : State) (r : Nat) (v : W64) : (s.writeS r v).cur.fltAddrs = s.cur.fltAddrs := rfl
@[simp] theorem State.writeS_cur_rcpHeader (s : State) (r : Nat) (v : W64) : (s.writeS r v).cur.rcpHeader = s.cur.rcpHeader := rfl
@[simp] theorem State.writeS_cur_fbLoop (s : State) (r : Nat) (v : W64) : (s.writeS r v).cur.fbLoop = s.cur.fbLoop := rfl
@[simp] theorem State.writeS_cur_recipe (s : State) (r : Nat) (v : W64) : (s.writeS r v).cur.recipe = s.cur.recipe := rfl
@[simp] theorem State.writeS_cur_icnt (s : State) (r : Nat) (v : W64) : (s.writeS r v).cur.icnt = s.cur.icnt := rfl
@[simp] theorem State.writeS_cur_drag (s : State) (r : Nat) (v : W64) : (s.writeS r v).cur.drag = s.cur.drag := rfl
@[simp] theorem State.writeS_cur_cls0 (s : State) (r : Nat) (v : W64) : (s.writeS r v).cur.cls0 = s.cur.cls0 := rfl
@[simp] theorem State.writeS_cur_cls1 (s : State) (r : Nat) (v : W64) : (s.writeS r v).cur.cls1 = s.cur.cls1 := rfl
@[simp] theorem State.writeS_cur_cls2 (s : State) (r : Nat) (v : W64) : (s.writeS r v).cur.cls2 = s.cur.cls2 := rfl
@[simp] theorem State.writeS_cur_cls3 (s : State) (r : Nat) (v : W64) : (s.writeS r v).cur.cls3 = s.cur.cls3 := rfl
@[simp] theorem State.writeS_cur_breq (s : State) (r : Nat) (v : W64) : (s.writeS r v).cur.breq = s.cur.breq := rfl
@[simp] theorem State.writeS_cur_nreq (s : State) (r : Nat) (v : W64) : (s.writeS r v).cur.nreq = s.cur.nreq := rfl
@[simp] theorem State.writeS_cur_openSet (s : State) (r : Nat) (v : W64) : (s.writeS r v).cur.openSet = s.cur.openSet := rfl
@[simp] theorem State.writeS_cur_batchN (s : State) (r : Nat) (v : W64) : (s.writeS r v).cur.batchN = s.cur.batchN := rfl
@[simp] theorem State.writeS_cur_batches (s : State) (r : Nat) (v : W64) : (s.writeS r v).cur.batches = s.cur.batches := rfl
@[simp] theorem State.writeS_cur_mxOpen (s : State) (r : Nat) (v : W64) : (s.writeS r v).cur.mxOpen = s.cur.mxOpen := rfl
@[simp] theorem State.writeS_cur_mxBatchN (s : State) (r : Nat) (v : W64) : (s.writeS r v).cur.mxBatchN = s.cur.mxBatchN := rfl
@[simp] theorem State.writeS_cur_mxBatches (s : State) (r : Nat) (v : W64) : (s.writeS r v).cur.mxBatches = s.cur.mxBatches := rfl
@[simp] theorem State.writeS_cur_mxOpenFail (s : State) (r : Nat) (v : W64) : (s.writeS r v).cur.mxOpenFail = s.cur.mxOpenFail := rfl
@[simp] theorem State.writeS_cur_stage (s : State) (r : Nat) (v : W64) : (s.writeS r v).cur.stage = s.cur.stage := rfl
@[simp] theorem State.writeS_cur_yields (s : State) (r : Nat) (v : W64) : (s.writeS r v).cur.yields = s.cur.yields := rfl
@[simp] theorem State.writeS_cur_age (s : State) (r : Nat) (v : W64) : (s.writeS r v).cur.age = s.cur.age := rfl
@[simp] theorem State.writeS_cur_resOrder (s : State) (r : Nat) (v : W64) : (s.writeS r v).cur.resOrder = s.cur.resOrder := rfl
@[simp] theorem State.writeS_cur_poisonV (s : State) (r : Nat) (v : W64) : (s.writeS r v).cur.poisonV = s.cur.poisonV := rfl
@[simp] theorem State.writeS_cur_poisonS (s : State) (r : Nat) (v : W64) : (s.writeS r v).cur.poisonS = s.cur.poisonS &&& ~~~(BitVec.twoPow 64 r) := rfl
@[simp] theorem State.writeS_cur_preempt (s : State) (r : Nat) (v : W64) : (s.writeS r v).cur.preempt = s.cur.preempt := rfl
@[simp] theorem State.writeS_cur_stopped (s : State) (r : Nat) (v : W64) : (s.writeS r v).cur.stopped = s.cur.stopped := rfl
@[simp] theorem State.writeS_cur_ended (s : State) (r : Nat) (v : W64) : (s.writeS r v).cur.ended = s.cur.ended := rfl
@[simp] theorem State.writeS_cur_addrOff (s : State) (r : Nat) (v : W64) : (s.writeS r v).cur.addrOff = s.cur.addrOff := rfl
@[simp] theorem State.writeS_cur_slotLen (s : State) (r : Nat) (v : W64) : (s.writeS r v).cur.slotLen = s.cur.slotLen := rfl
@[simp] theorem State.writeS_cur_stepped (s : State) (r : Nat) (v : W64) : (s.writeS r v).cur.stepped = s.cur.stepped := rfl
@[simp] theorem State.writeS_cur_event (s : State) (r : Nat) (v : W64) : (s.writeS r v).cur.event = s.cur.event := rfl
@[simp] theorem State.writeS_cur_late (s : State) (r : Nat) (v : W64) : (s.writeS r v).cur.late = s.cur.late := rfl
@[simp] theorem State.writeS_cur_fenced (s : State) (r : Nat) (v : W64) : (s.writeS r v).cur.fenced = s.cur.fenced := rfl
@[simp] theorem State.writeS_cur_probe (s : State) (r : Nat) (v : W64) : (s.writeS r v).cur.probe = s.cur.probe := rfl
@[simp] theorem State.writeS_cur_answers (s : State) (r : Nat) (v : W64) : (s.writeS r v).cur.answers = s.cur.answers := rfl
@[simp] theorem State.writeS_cur_relFence (s : State) (r : Nat) (v : W64) : (s.writeS r v).cur.relFence = s.cur.relFence := rfl
@[simp] theorem State.writeS_cur_asyncFence (s : State) (r : Nat) (v : W64) : (s.writeS r v).cur.asyncFence = s.cur.asyncFence := rfl

/-! ## The current context after `State.clearIssue` -/

@[simp] theorem State.clearIssue_cur_kind (s : State) : (s.clearIssue).cur.kind = s.cur.kind := rfl
@[simp] theorem State.clearIssue_cur_id (s : State) : (s.clearIssue).cur.id = s.cur.id := rfl
@[simp] theorem State.clearIssue_cur_launch (s : State) : (s.clearIssue).cur.launch = s.cur.launch := rfl
@[simp] theorem State.clearIssue_cur_block (s : State) : (s.clearIssue).cur.block = s.cur.block := rfl
@[simp] theorem State.clearIssue_cur_lg (s : State) : (s.clearIssue).cur.lg = s.cur.lg := rfl
@[simp] theorem State.clearIssue_cur_core (s : State) : (s.clearIssue).cur.core = s.cur.core := rfl
@[simp] theorem State.clearIssue_cur_slot (s : State) : (s.clearIssue).cur.slot = s.cur.slot := rfl
@[simp] theorem State.clearIssue_cur_vbase (s : State) : (s.clearIssue).cur.vbase = s.cur.vbase := rfl
@[simp] theorem State.clearIssue_cur_valloc (s : State) : (s.clearIssue).cur.valloc = s.cur.valloc := rfl
@[simp] theorem State.clearIssue_cur_fbbase (s : State) : (s.clearIssue).cur.fbbase = s.cur.fbbase := rfl
@[simp] theorem State.clearIssue_cur_resident (s : State) : (s.clearIssue).cur.resident = s.cur.resident := rfl
@[simp] theorem State.clearIssue_cur_pc (s : State) : (s.clearIssue).cur.pc = s.cur.pc := rfl
@[simp] theorem State.clearIssue_cur_smode (s : State) : (s.clearIssue).cur.smode = s.cur.smode := rfl
@[simp] theorem State.clearIssue_cur_em (s : State) : (s.clearIssue).cur.em = s.cur.em := rfl
@[simp] theorem State.clearIssue_cur_preds (s : State) : (s.clearIssue).cur.preds = s.cur.preds := rfl
@[simp] theorem State.clearIssue_cur_sregs (s : State) : (s.clearIssue).cur.sregs = s.cur.sregs := rfl
@[simp] theorem State.clearIssue_cur_fpx (s : State) : (s.clearIssue).cur.fpx = s.cur.fpx := rfl
@[simp] theorem State.clearIssue_cur_txThresh (s : State) : (s.clearIssue).cur.txThresh = s.cur.txThresh := rfl
@[simp] theorem State.clearIssue_cur_txg (s : State) : (s.clearIssue).cur.txg = s.cur.txg := rfl
@[simp] theorem State.clearIssue_cur_txHold (s : State) : (s.clearIssue).cur.txHold = s.cur.txHold := rfl
@[simp] theorem State.clearIssue_cur_txLane (s : State) : (s.clearIssue).cur.txLane = s.cur.txLane := rfl
@[simp] theorem State.clearIssue_cur_txrec (s : State) : (s.clearIssue).cur.txrec = s.cur.txrec := rfl
@[simp] theorem State.clearIssue_cur_txlogs (s : State) : (s.clearIssue).cur.txlogs = s.cur.txlogs := rfl
@[simp] theorem State.clearIssue_cur_txAddr (s : State) : (s.clearIssue).cur.txAddr = s.cur.txAddr := rfl
@[simp] theorem State.clearIssue_cur_doomed (s : State) : (s.clearIssue).cur.doomed = s.cur.doomed := rfl
@[simp] theorem State.clearIssue_cur_loop (s : State) : (s.clearIssue).cur.loop = s.cur.loop := rfl
@[simp] theorem State.clearIssue_cur_deferred (s : State) : (s.clearIssue).cur.deferred = s.cur.deferred := rfl
@[simp] theorem State.clearIssue_cur_park (s : State) : (s.clearIssue).cur.park = s.cur.park := rfl
@[simp] theorem State.clearIssue_cur_reissue (s : State) : (s.clearIssue).cur.reissue = s.cur.reissue := rfl
@[simp] theorem State.clearIssue_cur_woken (s : State) : (s.clearIssue).cur.woken = 0 := rfl
@[simp] theorem State.clearIssue_cur_parkSeq (s : State) : (s.clearIssue).cur.parkSeq = s.cur.parkSeq := rfl
@[simp] theorem State.clearIssue_cur_dirty (s : State) : (s.clearIssue).cur.dirty = s.cur.dirty := rfl
@[simp] theorem State.clearIssue_cur_deadline (s : State) : (s.clearIssue).cur.deadline = s.cur.deadline := rfl
@[simp] theorem State.clearIssue_cur_issued (s : State) : (s.clearIssue).cur.issued = s.cur.issued := rfl
@[simp] theorem State.clearIssue_cur_smCount (s : State) : (s.clearIssue).cur.smCount = s.cur.smCount := rfl
@[simp] theorem State.clearIssue_cur_epc (s : State) : (s.clearIssue).cur.epc = s.cur.epc := rfl
@[simp] theorem State.clearIssue_cur_cause (s : State) : (s.clearIssue).cur.cause = s.cur.cause := rfl
@[simp] theorem State.clearIssue_cur_savedEm (s : State) : (s.clearIssue).cur.savedEm = s.cur.savedEm := rfl
@[simp] theorem State.clearIssue_cur_savedLoop (s : State) : (s.clearIssue).cur.savedLoop = s.cur.savedLoop := rfl
@[simp] theorem State.clearIssue_cur_savedRecipe (s : State) : (s.clearIssue).cur.savedRecipe = s.cur.savedRecipe := rfl
@[simp] theorem State.clearIssue_cur_fltAddrs (s : State) : (s.clearIssue).cur.fltAddrs = s.cur.fltAddrs := rfl
@[simp] theorem State.clearIssue_cur_rcpHeader (s : State) : (s.clearIssue).cur.rcpHeader = s.cur.rcpHeader := rfl
@[simp] theorem State.clearIssue_cur_fbLoop (s : State) : (s.clearIssue).cur.fbLoop = s.cur.fbLoop := rfl
@[simp] theorem State.clearIssue_cur_recipe (s : State) : (s.clearIssue).cur.recipe = s.cur.recipe := rfl
@[simp] theorem State.clearIssue_cur_icnt (s : State) : (s.clearIssue).cur.icnt = s.cur.icnt := rfl
@[simp] theorem State.clearIssue_cur_drag (s : State) : (s.clearIssue).cur.drag = s.cur.drag := rfl
@[simp] theorem State.clearIssue_cur_cls0 (s : State) : (s.clearIssue).cur.cls0 = s.cur.cls0 := rfl
@[simp] theorem State.clearIssue_cur_cls1 (s : State) : (s.clearIssue).cur.cls1 = s.cur.cls1 := rfl
@[simp] theorem State.clearIssue_cur_cls2 (s : State) : (s.clearIssue).cur.cls2 = s.cur.cls2 := rfl
@[simp] theorem State.clearIssue_cur_cls3 (s : State) : (s.clearIssue).cur.cls3 = s.cur.cls3 := rfl
@[simp] theorem State.clearIssue_cur_breq (s : State) : (s.clearIssue).cur.breq = s.cur.breq := rfl
@[simp] theorem State.clearIssue_cur_nreq (s : State) : (s.clearIssue).cur.nreq = s.cur.nreq := rfl
@[simp] theorem State.clearIssue_cur_openSet (s : State) : (s.clearIssue).cur.openSet = s.cur.openSet := rfl
@[simp] theorem State.clearIssue_cur_batchN (s : State) : (s.clearIssue).cur.batchN = s.cur.batchN := rfl
@[simp] theorem State.clearIssue_cur_batches (s : State) : (s.clearIssue).cur.batches = s.cur.batches := rfl
@[simp] theorem State.clearIssue_cur_mxOpen (s : State) : (s.clearIssue).cur.mxOpen = s.cur.mxOpen := rfl
@[simp] theorem State.clearIssue_cur_mxBatchN (s : State) : (s.clearIssue).cur.mxBatchN = s.cur.mxBatchN := rfl
@[simp] theorem State.clearIssue_cur_mxBatches (s : State) : (s.clearIssue).cur.mxBatches = s.cur.mxBatches := rfl
@[simp] theorem State.clearIssue_cur_mxOpenFail (s : State) : (s.clearIssue).cur.mxOpenFail = s.cur.mxOpenFail := rfl
@[simp] theorem State.clearIssue_cur_stage (s : State) : (s.clearIssue).cur.stage = s.cur.stage := rfl
@[simp] theorem State.clearIssue_cur_yields (s : State) : (s.clearIssue).cur.yields = s.cur.yields := rfl
@[simp] theorem State.clearIssue_cur_age (s : State) : (s.clearIssue).cur.age = s.cur.age := rfl
@[simp] theorem State.clearIssue_cur_resOrder (s : State) : (s.clearIssue).cur.resOrder = s.cur.resOrder := rfl
@[simp] theorem State.clearIssue_cur_poisonV (s : State) : (s.clearIssue).cur.poisonV = s.cur.poisonV := rfl
@[simp] theorem State.clearIssue_cur_poisonS (s : State) : (s.clearIssue).cur.poisonS = s.cur.poisonS := rfl
@[simp] theorem State.clearIssue_cur_preempt (s : State) : (s.clearIssue).cur.preempt = s.cur.preempt := rfl
@[simp] theorem State.clearIssue_cur_stopped (s : State) : (s.clearIssue).cur.stopped = s.cur.stopped := rfl
@[simp] theorem State.clearIssue_cur_ended (s : State) : (s.clearIssue).cur.ended = s.cur.ended := rfl
@[simp] theorem State.clearIssue_cur_addrOff (s : State) : (s.clearIssue).cur.addrOff = 0 := rfl
@[simp] theorem State.clearIssue_cur_slotLen (s : State) : (s.clearIssue).cur.slotLen = 0 := rfl
@[simp] theorem State.clearIssue_cur_stepped (s : State) : (s.clearIssue).cur.stepped = false := rfl
@[simp] theorem State.clearIssue_cur_event (s : State) : (s.clearIssue).cur.event = s.cur.event := rfl
@[simp] theorem State.clearIssue_cur_late (s : State) : (s.clearIssue).cur.late = s.cur.late := rfl
@[simp] theorem State.clearIssue_cur_fenced (s : State) : (s.clearIssue).cur.fenced = s.cur.fenced := rfl
@[simp] theorem State.clearIssue_cur_probe (s : State) : (s.clearIssue).cur.probe = 0 := rfl
@[simp] theorem State.clearIssue_cur_answers (s : State) : (s.clearIssue).cur.answers = [] := rfl
@[simp] theorem State.clearIssue_cur_relFence (s : State) : (s.clearIssue).cur.relFence = s.cur.relFence := rfl
@[simp] theorem State.clearIssue_cur_asyncFence (s : State) : (s.clearIssue).cur.asyncFence = s.cur.asyncFence := rfl

end Sys2Proof.Machine
end

