-- ==== Sys2Proof/Laws/Issue.lean ====
section
/-!
SUPPORT. The issue of one instruction when nothing stands against it: what its counters change, what its end changes, and the
instruction's own effect between them.
-/

namespace Sys2Proof.Machine

/-! ## Keeping -/

theorem State.Keeps.refl (s : State) : s.Keeps s := ⟨rfl, fun _ => rfl, fun _ => rfl⟩
theorem State.Keeps.trans {s t u : State} (h : s.Keeps t) (k : t.Keeps u) : s.Keeps u :=
  ⟨k.1.trans h.1, fun c => (k.2.1 c).trans (h.2.1 c), fun c => (k.2.2 c).trans (h.2.2 c)⟩

@[simp] theorem bumpCls_aside (c : Ctx) (n : Nat) : (bumpCls c n).aside = c.aside := by
  unfold bumpCls; split <;> rfl
@[simp] theorem Core.window_aside (k : Core) (n : Nat) : (k.window n).aside = k.aside := by
  unfold Core.window; split <;> rfl

/-! ## The counters of an issue -/

/-- The two cases of `State.charge`. -/
theorem State.charge_reissue {s : State} (m : Meta) (h : s.cur.reissue = true) :
    s.charge m = { s with oracle := s.oracle + 1, cur := { s.cur with reissue := false } } := by
  simp only [State.charge, h, if_true]; rfl
/-- What `State.charge` may change: the counters of the context, its core and its tile. -/
theorem State.charge_eq (s : State) (m : Meta) :
    s.charge m = { s with oracle := s.oracle + 1, cur := (s.charge m).cur, cores := (s.charge m).cores, tiles := (s.charge m).tiles } := by
  by_cases h : s.cur.reissue
  · rw [State.charge_reissue m h]
  · simp only [State.charge, h]; rfl
theorem State.charge_cur (s : State) (m : Meta) :
    (s.charge m).cur = { s.cur with
      reissue := (s.charge m).cur.reissue, icnt := (s.charge m).cur.icnt, smCount := (s.charge m).cur.smCount,
      issued := (s.charge m).cur.issued, age := (s.charge m).cur.age, cls0 := (s.charge m).cur.cls0,
      cls1 := (s.charge m).cur.cls1, cls2 := (s.charge m).cur.cls2, cls3 := (s.charge m).cur.cls3 } := by
  by_cases h : s.cur.reissue
  · rw [State.charge_reissue m h]
  · simp only [State.charge, h]
    simp only [State.updTile, State.setTile, State.setCore, State.updCur, Bool.false_eq_true, if_false]
    unfold bumpCls
    split <;> rfl
theorem State.charge_keeps (s : State) (m : Meta) : s.Keeps (s.charge m) := by
  refine ⟨?_, ?_, ?_⟩
  · rw [State.charge_eq, State.charge_cur]; rfl
  · intro c
    by_cases h : s.cur.reissue
    · rw [State.charge_reissue m h]; rfl
    · simp only [State.charge, h]
      simp only [State.core, State.updTile, State.setTile, State.setCore, State.updCur, Bool.false_eq_true, if_false]
      rw [SMap.get_set]
      split
      · subst_vars
        cases s.cur.isSeq
        · rw [← Core.window_aside (SMap.get {} s.cores s.cur.core) m.cls]; rfl
        · rfl
      · rfl
  · intro x
    by_cases h : s.cur.reissue
    · rw [State.charge_reissue m h]; rfl
    · simp only [State.charge, h]
      simp only [State.tile, State.updTile, State.setTile, State.setCore, State.updCur, Bool.false_eq_true, if_false]
      rw [SMap.get_set]
      split
      · subst_vars; rfl
      · rfl

/-! ## Fields an issue leaves -/

@[simp] theorem State.charge_ctxs (s : State) (m : Meta) : (s.charge m).ctxs = s.ctxs := by rw [State.charge_eq]
@[simp] theorem State.charge_blocks (s : State) (m : Meta) : (s.charge m).blocks = s.blocks := by rw [State.charge_eq]
@[simp] theorem State.charge_launches (s : State) (m : Meta) : (s.charge m).launches = s.launches := by rw [State.charge_eq]
@[simp] theorem State.charge_parts (s : State) (m : Meta) : (s.charge m).parts = s.parts := by rw [State.charge_eq]
@[simp] theorem State.charge_vfs (s : State) (m : Meta) : (s.charge m).vfs = s.vfs := by rw [State.charge_eq]
@[simp] theorem State.charge_fields (s : State) (m : Meta) : (s.charge m).fields = s.fields := by rw [State.charge_eq]
@[simp] theorem State.charge_grans (s : State) (m : Meta) : (s.charge m).grans = s.grans := by rw [State.charge_eq]
@[simp] theorem State.charge_hbm (s : State) (m : Meta) : (s.charge m).hbm = s.hbm := by rw [State.charge_eq]
@[simp] theorem State.charge_host (s : State) (m : Meta) : (s.charge m).host = s.host := by rw [State.charge_eq]
@[simp] theorem State.charge_sp (s : State) (m : Meta) : (s.charge m).sp = s.sp := by rw [State.charge_eq]
@[simp] theorem State.charge_vrf (s : State) (m : Meta) : (s.charge m).vrf = s.vrf := by rw [State.charge_eq]
@[simp] theorem State.charge_acc (s : State) (m : Meta) : (s.charge m).acc = s.acc := by rw [State.charge_eq]
@[simp] theorem State.charge_planes (s : State) (m : Meta) : (s.charge m).planes = s.planes := by rw [State.charge_eq]
@[simp] theorem State.charge_sums (s : State) (m : Meta) : (s.charge m).sums = s.sums := by rw [State.charge_eq]
@[simp] theorem State.charge_bexp (s : State) (m : Meta) : (s.charge m).bexp = s.bexp := by rw [State.charge_eq]
@[simp] theorem State.charge_poison (s : State) (m : Meta) : (s.charge m).poison = s.poison := by rw [State.charge_eq]
@[simp] theorem State.charge_packets (s : State) (m : Meta) : (s.charge m).packets = s.packets := by rw [State.charge_eq]
@[simp] theorem State.charge_drops (s : State) (m : Meta) : (s.charge m).drops = s.drops := by rw [State.charge_eq]
@[simp] theorem State.charge_nacks (s : State) (m : Meta) : (s.charge m).nacks = s.nacks := by rw [State.charge_eq]
@[simp] theorem State.charge_deliveries (s : State) (m : Meta) : (s.charge m).deliveries = s.deliveries := by rw [State.charge_eq]
@[simp] theorem State.charge_raised (s : State) (m : Meta) : (s.charge m).raised = s.raised := by rw [State.charge_eq]
@[simp] theorem State.charge_jobs (s : State) (m : Meta) : (s.charge m).jobs = s.jobs := by rw [State.charge_eq]
@[simp] theorem State.charge_colls (s : State) (m : Meta) : (s.charge m).colls = s.colls := by rw [State.charge_eq]
@[simp] theorem State.charge_mxops (s : State) (m : Meta) : (s.charge m).mxops = s.mxops := by rw [State.charge_eq]
@[simp] theorem State.charge_commits (s : State) (m : Meta) : (s.charge m).commits = s.commits := by rw [State.charge_eq]
@[simp] theorem State.charge_locks (s : State) (m : Meta) : (s.charge m).locks = s.locks := by rw [State.charge_eq]
@[simp] theorem State.charge_walks (s : State) (m : Meta) : (s.charge m).walks = s.walks := by rw [State.charge_eq]
@[simp] theorem State.charge_ports (s : State) (m : Meta) : (s.charge m).ports = s.ports := by rw [State.charge_eq]
@[simp] theorem State.charge_peers (s : State) (m : Meta) : (s.charge m).peers = s.peers := by rw [State.charge_eq]
@[simp] theorem State.charge_exports (s : State) (m : Meta) : (s.charge m).exports = s.exports := by rw [State.charge_eq]
@[simp] theorem State.charge_copies (s : State) (m : Meta) : (s.charge m).copies = s.copies := by rw [State.charge_eq]
@[simp] theorem State.charge_holders (s : State) (m : Meta) : (s.charge m).holders = s.holders := by rw [State.charge_eq]
@[simp] theorem State.charge_lineApp (s : State) (m : Meta) : (s.charge m).lineApp = s.lineApp := by rw [State.charge_eq]
@[simp] theorem State.charge_regions (s : State) (m : Meta) : (s.charge m).regions = s.regions := by rw [State.charge_eq]
@[simp] theorem State.charge_module (s : State) (m : Meta) : (s.charge m).module = s.module := by rw [State.charge_eq]
@[simp] theorem State.charge_inval (s : State) (m : Meta) : (s.charge m).inval = s.inval := by rw [State.charge_eq]
@[simp] theorem State.charge_reply (s : State) (m : Meta) : (s.charge m).reply = s.reply := by rw [State.charge_eq]
@[simp] theorem State.charge_nextId (s : State) (m : Meta) : (s.charge m).nextId = s.nextId := by rw [State.charge_eq]
@[simp] theorem State.charge_turn (s : State) (m : Meta) : (s.charge m).turn = s.turn := by rw [State.charge_eq]
@[simp] theorem State.charge_agenda (s : State) (m : Meta) : (s.charge m).agenda = s.agenda := by rw [State.charge_eq]
@[simp] theorem State.charge_ev (s : State) (m : Meta) : (s.charge m).ev = s.ev := by rw [State.charge_eq]
@[simp] theorem State.charge_cur_kind (s : State) (m : Meta) : (s.charge m).cur.kind = s.cur.kind := by rw [State.charge_cur]
@[simp] theorem State.charge_cur_id (s : State) (m : Meta) : (s.charge m).cur.id = s.cur.id := by rw [State.charge_cur]
@[simp] theorem State.charge_cur_launch (s : State) (m : Meta) : (s.charge m).cur.launch = s.cur.launch := by rw [State.charge_cur]
@[simp] theorem State.charge_cur_block (s : State) (m : Meta) : (s.charge m).cur.block = s.cur.block := by rw [State.charge_cur]
@[simp] theorem State.charge_cur_lg (s : State) (m : Meta) : (s.charge m).cur.lg = s.cur.lg := by rw [State.charge_cur]
@[simp] theorem State.charge_cur_core (s : State) (m : Meta) : (s.charge m).cur.core = s.cur.core := by rw [State.charge_cur]
@[simp] theorem State.charge_cur_slot (s : State) (m : Meta) : (s.charge m).cur.slot = s.cur.slot := by rw [State.charge_cur]
@[simp] theorem State.charge_cur_vbase (s : State) (m : Meta) : (s.charge m).cur.vbase = s.cur.vbase := by rw [State.charge_cur]
@[simp] theorem State.charge_cur_valloc (s : State) (m : Meta) : (s.charge m).cur.valloc = s.cur.valloc := by rw [State.charge_cur]
@[simp] theorem State.charge_cur_fbbase (s : State) (m : Meta) : (s.charge m).cur.fbbase = s.cur.fbbase := by rw [State.charge_cur]
@[simp] theorem State.charge_cur_resident (s : State) (m : Meta) : (s.charge m).cur.resident = s.cur.resident := by rw [State.charge_cur]
@[simp] theorem State.charge_cur_pc (s : State) (m : Meta) : (s.charge m).cur.pc = s.cur.pc := by rw [State.charge_cur]
@[simp] theorem State.charge_cur_smode (s : State) (m : Meta) : (s.charge m).cur.smode = s.cur.smode := by rw [State.charge_cur]
@[simp] theorem State.charge_cur_em (s : State) (m : Meta) : (s.charge m).cur.em = s.cur.em := by rw [State.charge_cur]
@[simp] theorem State.charge_cur_preds (s : State) (m : Meta) : (s.charge m).cur.preds = s.cur.preds := by rw [State.charge_cur]
@[simp] theorem State.charge_cur_sregs (s : State) (m : Meta) : (s.charge m).cur.sregs = s.cur.sregs := by rw [State.charge_cur]
@[simp] theorem State.charge_cur_fpx (s : State) (m : Meta) : (s.charge m).cur.fpx = s.cur.fpx := by rw [State.charge_cur]
@[simp] theorem State.charge_cur_txThresh (s : State) (m : Meta) : (s.charge m).cur.txThresh = s.cur.txThresh := by rw [State.charge_cur]
@[simp] theorem State.charge_cur_txg (s : State) (m : Meta) : (s.charge m).cur.txg = s.cur.txg := by rw [State.charge_cur]
@[simp] theorem State.charge_cur_txHold (s : State) (m : Meta) : (s.charge m).cur.txHold = s.cur.txHold := by rw [State.charge_cur]
@[simp] theorem State.charge_cur_txLane (s : State) (m : Meta) : (s.charge m).cur.txLane = s.cur.txLane := by rw [State.charge_cur]
@[simp] theorem State.charge_cur_txrec (s : State) (m : Meta) : (s.charge m).cur.txrec = s.cur.txrec := by rw [State.charge_cur]
@[simp] theorem State.charge_cur_txlogs (s : State) (m : Meta) : (s.charge m).cur.txlogs = s.cur.txlogs := by rw [State.charge_cur]
@[simp] theorem State.charge_cur_txAddr (s : State) (m : Meta) : (s.charge m).cur.txAddr = s.cur.txAddr := by rw [State.charge_cur]
@[simp] theorem State.charge_cur_doomed (s : State) (m : Meta) : (s.charge m).cur.doomed = s.cur.doomed := by rw [State.charge_cur]
@[simp] theorem State.charge_cur_loop (s : State) (m : Meta) : (s.charge m).cur.loop = s.cur.loop := by rw [State.charge_cur]
@[simp] theorem State.charge_cur_deferred (s : State) (m : Meta) : (s.charge m).cur.deferred = s.cur.deferred := by rw [State.charge_cur]
@[simp] theorem State.charge_cur_park (s : State) (m : Meta) : (s.charge m).cur.park = s.cur.park := by rw [State.charge_cur]
@[simp] theorem State.charge_cur_woken (s : State) (m : Meta) : (s.charge m).cur.woken = s.cur.woken := by rw [State.charge_cur]
@[simp] theorem State.charge_cur_parkSeq (s : State) (m : Meta) : (s.charge m).cur.parkSeq = s.cur.parkSeq := by rw [State.charge_cur]
@[simp] theorem State.charge_cur_dirty (s : State) (m : Meta) : (s.charge m).cur.dirty = s.cur.dirty := by rw [State.charge_cur]
@[simp] theorem State.charge_cur_deadline (s : State) (m : Meta) : (s.charge m).cur.deadline = s.cur.deadline := by rw [State.charge_cur]
@[simp] theorem State.charge_cur_epc (s : State) (m : Meta) : (s.charge m).cur.epc = s.cur.epc := by rw [State.charge_cur]
@[simp] theorem State.charge_cur_cause (s : State) (m : Meta) : (s.charge m).cur.cause = s.cur.cause := by rw [State.charge_cur]
@[simp] theorem State.charge_cur_savedEm (s : State) (m : Meta) : (s.charge m).cur.savedEm = s.cur.savedEm := by rw [State.charge_cur]
@[simp] theorem State.charge_cur_savedLoop (s : State) (m : Meta) : (s.charge m).cur.savedLoop = s.cur.savedLoop := by rw [State.charge_cur]
@[simp] theorem State.charge_cur_savedRecipe (s : State) (m : Meta) : (s.charge m).cur.savedRecipe = s.cur.savedRecipe := by rw [State.charge_cur]
@[simp] theorem State.charge_cur_fltAddrs (s : State) (m : Meta) : (s.charge m).cur.fltAddrs = s.cur.fltAddrs := by rw [State.charge_cur]
@[simp] theorem State.charge_cur_rcpHeader (s : State) (m : Meta) : (s.charge m).cur.rcpHeader = s.cur.rcpHeader := by rw [State.charge_cur]
@[simp] theorem State.charge_cur_fbLoop (s : State) (m : Meta) : (s.charge m).cur.fbLoop = s.cur.fbLoop := by rw [State.charge_cur]
@[simp] theorem State.charge_cur_recipe (s : State) (m : Meta) : (s.charge m).cur.recipe = s.cur.recipe := by rw [State.charge_cur]
@[simp] theorem State.charge_cur_drag (s : State) (m : Meta) : (s.charge m).cur.drag = s.cur.drag := by rw [State.charge_cur]
@[simp] theorem State.charge_cur_breq (s : State) (m : Meta) : (s.charge m).cur.breq = s.cur.breq := by rw [State.charge_cur]
@[simp] theorem State.charge_cur_nreq (s : State) (m : Meta) : (s.charge m).cur.nreq = s.cur.nreq := by rw [State.charge_cur]
@[simp] theorem State.charge_cur_openSet (s : State) (m : Meta) : (s.charge m).cur.openSet = s.cur.openSet := by rw [State.charge_cur]
@[simp] theorem State.charge_cur_batchN (s : State) (m : Meta) : (s.charge m).cur.batchN = s.cur.batchN := by rw [State.charge_cur]
@[simp] theorem State.charge_cur_batches (s : State) (m : Meta) : (s.charge m).cur.batches = s.cur.batches := by rw [State.charge_cur]
@[simp] theorem State.charge_cur_mxOpen (s : State) (m : Meta) : (s.charge m).cur.mxOpen = s.cur.mxOpen := by rw [State.charge_cur]
@[simp] theorem State.charge_cur_mxBatchN (s : State) (m : Meta) : (s.charge m).cur.mxBatchN = s.cur.mxBatchN := by rw [State.charge_cur]
@[simp] theorem State.charge_cur_mxBatches (s : State) (m : Meta) : (s.charge m).cur.mxBatches = s.cur.mxBatches := by rw [State.charge_cur]
@[simp] theorem State.charge_cur_mxOpenFail (s : State) (m : Meta) : (s.charge m).cur.mxOpenFail = s.cur.mxOpenFail := by rw [State.charge_cur]
@[simp] theorem State.charge_cur_stage (s : State) (m : Meta) : (s.charge m).cur.stage = s.cur.stage := by rw [State.charge_cur]
@[simp] theorem State.charge_cur_yields (s : State) (m : Meta) : (s.charge m).cur.yields = s.cur.yields := by rw [State.charge_cur]
@[simp] theorem State.charge_cur_resOrder (s : State) (m : Meta) : (s.charge m).cur.resOrder = s.cur.resOrder := by rw [State.charge_cur]
@[simp] theorem State.charge_cur_poisonV (s : State) (m : Meta) : (s.charge m).cur.poisonV = s.cur.poisonV := by rw [State.charge_cur]
@[simp] theorem State.charge_cur_poisonS (s : State) (m : Meta) : (s.charge m).cur.poisonS = s.cur.poisonS := by rw [State.charge_cur]
@[simp] theorem State.charge_cur_preempt (s : State) (m : Meta) : (s.charge m).cur.preempt = s.cur.preempt := by rw [State.charge_cur]
@[simp] theorem State.charge_cur_stopped (s : State) (m : Meta) : (s.charge m).cur.stopped = s.cur.stopped := by rw [State.charge_cur]
@[simp] theorem State.charge_cur_ended (s : State) (m : Meta) : (s.charge m).cur.ended = s.cur.ended := by rw [State.charge_cur]
@[simp] theorem State.charge_cur_addrOff (s : State) (m : Meta) : (s.charge m).cur.addrOff = s.cur.addrOff := by rw [State.charge_cur]
@[simp] theorem State.charge_cur_slotLen (s : State) (m : Meta) : (s.charge m).cur.slotLen = s.cur.slotLen := by rw [State.charge_cur]
@[simp] theorem State.charge_cur_stepped (s : State) (m : Meta) : (s.charge m).cur.stepped = s.cur.stepped := by rw [State.charge_cur]
@[simp] theorem State.charge_cur_event (s : State) (m : Meta) : (s.charge m).cur.event = s.cur.event := by rw [State.charge_cur]
@[simp] theorem State.charge_cur_late (s : State) (m : Meta) : (s.charge m).cur.late = s.cur.late := by rw [State.charge_cur]
@[simp] theorem State.charge_cur_fenced (s : State) (m : Meta) : (s.charge m).cur.fenced = s.cur.fenced := by rw [State.charge_cur]
@[simp] theorem State.charge_cur_probe (s : State) (m : Meta) : (s.charge m).cur.probe = s.cur.probe := by rw [State.charge_cur]
@[simp] theorem State.charge_cur_answers (s : State) (m : Meta) : (s.charge m).cur.answers = s.cur.answers := by rw [State.charge_cur]
@[simp] theorem State.charge_cur_relFence (s : State) (m : Meta) : (s.charge m).cur.relFence = s.cur.relFence := by rw [State.charge_cur]
@[simp] theorem State.charge_cur_asyncFence (s : State) (m : Meta) : (s.charge m).cur.asyncFence = s.cur.asyncFence := by rw [State.charge_cur]

@[simp] theorem State.charge_rawV (s : State) (m : Meta) (r : Nat) : (s.charge m).rawV r = s.rawV r := by
  simp [State.rawV, Ctx.row]
@[simp] theorem State.charge_rawS (s : State) (m : Meta) (r : Nat) : (s.charge m).rawS r = s.rawS r := by simp [State.rawS]
@[simp] theorem State.charge_rawP (s : State) (m : Meta) (r : Nat) : (s.charge m).rawP r = s.rawP r := by simp [State.rawP]
@[simp] theorem State.charge_row (s : State) (m : Meta) (r : Nat) : (s.charge m).cur.row r = s.cur.row r := by simp [Ctx.row]
@[simp] theorem State.charge_follow (s : State) (m : Meta) (n : Nat) : (s.charge m).cur.follow n = s.cur.follow n := by simp [Ctx.follow]

/-! ## Reading registers with nothing in flight -/

theorem State.readV_eq {s : State} (h : s.cur.deferred = []) (r : Nat) : s.readV r = s.rawV r := by simp [State.readV, h]
theorem State.readS_eq {s : State} (h : s.cur.deferred = []) (r : Nat) : s.readS r = s.rawS r := by simp [State.readS, h]
theorem State.readP_eq {s : State} (h : s.cur.deferred = []) (r : Nat) : s.readP r = s.rawP r := by
  simp only [State.readP, h, State.rawP, List.foldl_nil]; split <;> rfl

/-! ## The end of an issue -/

/-- What a performed instruction leaves besides its effect, outside a recipe body (R15, R70, R303). -/
def State.finish (u : State) (len : Nat) (nonreplay : Bool) (p : Option Park) : State :=
  { u with cur := { u.cur with
      addrOff := 0, slotLen := 0, stepped := false, answers := [], probe := 0, woken := 0, dirty := u.cur.dirty || nonreplay, park := p,
      pc := (u.cur.follow len).1, loop := (u.cur.follow len).2 } }

theorem State.settle_none {s : State} (h : s.cur.deferred = []) : s.settle = s := by simp [State.settle, h]

theorem Eff.close_done {m : Meta} {u : State} (hr : u.cur.recipe = none) (hl : u.cur.slotLen = 0) :
    (Eff.done u).close m = if m.settle then (u.finish m.len m.nonreplay none).settle else u.finish m.len m.nonreplay none := by
  have e : (u.clearIssue.updCur fun c => { c with dirty := c.dirty || m.nonreplay, park := none }).advance m.len =
      u.finish m.len m.nonreplay none := by
    unfold State.advance State.finish Ctx.follow
    simp only [State.updCur, State.clearIssue, hr]
    cases hloop : u.cur.loop <;> simp_all
  unfold Eff.close
  simp only [hl, if_true, e]
/-- With no result in flight. -/
theorem Eff.close_done_quiet {m : Meta} {u : State} (hr : u.cur.recipe = none) (hl : u.cur.slotLen = 0) (hd : u.cur.deferred = []) :
    (Eff.done u).close m = u.finish m.len m.nonreplay none := by
  rw [Eff.close_done hr hl]
  split
  · exact State.settle_none hd
  · rfl
/-- With one timed result in flight. -/
theorem Eff.close_done_timed {m : Meta} {u : State} {x : Deferred} (hr : u.cur.recipe = none) (hl : u.cur.slotLen = 0)
    (hd : u.cur.deferred = [x]) (hx : x.due ≠ 0 ∨ x.ready = false) :
    (Eff.done u).close m = u.finish m.len m.nonreplay (if m.settle then some .settle else none) := by
  rw [Eff.close_done hr hl]
  split
  · have h1 : (u.finish m.len m.nonreplay none).cur.deferred = [x] := hd
    have h2 : ([x].all fun d => d.ready && d.due == 0) = false := by rcases hx with hx | hx <;> simp [hx]
    unfold State.settle
    rw [h1, h2]
    rfl
  · rfl
theorem State.finish_keeps (u : State) (len : Nat) (p : Option Park) : u.Keeps (u.finish len false p) := by
  refine ⟨?_, fun _ => rfl, fun _ => rfl⟩
  simp only [State.finish, Ctx.aside, Bool.or_false]

/-! ## The issue -/

/-- R13: registers within the allocation. -/
theorem topReg_le {l : List Nat} {n : Nat} (h : ∀ r ∈ l, r < n) : topReg l ≤ n := by
  suffices ∀ a, a ≤ n → l.foldl (fun a r => max a (r + 1)) a ≤ n from this 0 (Nat.zero_le _)
  induction l with
  | nil => intro a ha; exact ha
  | cons x t ih =>
    intro a ha
    exact ih (fun r hr => h r (List.mem_cons_of_mem _ hr)) _ (max_le ha (h x (List.mem_cons_self ..)))

/-- Nothing stands against the issue of an instruction: it is the instruction's own effect that follows. -/
theorem issue_ready {m : Meta} {s : State} (h : s.Ready) (hi : s.illegal m = none) (hn : m.insn = false) (body : State → Eff) :
    issue m s body = .next ((body (s.charge m)).close m) := by
  have hp : (s.charge m).poisoned m = false := by
    simp only [State.poisoned, State.charge_cur_poisonV, State.charge_cur_poisonS, h.poisonV, h.poisonS]
    simp
  rw [issue, if_neg h.holds]
  simp [State.issueWith, hi, h.inTime, hn, hp]

/-- The check of a lane instruction's words in a group. -/
theorem illegal_lane {s : State} (h : s.GroupReady) {m : Meta} (hv : m.vEnd ≤ min s.cur.valloc 64) (hs : m.sEnd ≤ 64)
    (hp : m.priv = false ∨ s.cur.smode = true) (he : m.extra = none) (hu : m.unused = false := by rfl) : s.illegal m = none := by
  have h1 : s.cur.isSeq = false := by simp [Ctx.isSeq, h.2]
  have h2 : s.cur.vLimit = min s.cur.valloc 64 := by simp [Ctx.vLimit, h.2]
  have h3 : (!s.cur.smode && m.priv) = false := by rcases hp with hp | hp <;> simp [hp]
  simp only [State.illegal, h.1.recipe, h1, h2, h3, he, hu, Option.isSome_none, Bool.false_and, Option.map_none]
  rw [if_neg (by simp), if_neg (by simp), if_neg (by simp; omega), if_neg (by simp), if_neg (by simp)]

/-- The check of a uniform instruction's words, in a group or a sequencer. -/
theorem illegal_uniform {s : State} (h : s.Ready) {m : Meta} (hv : m.vEnd = 0) (hs : m.sEnd ≤ 64) (hq : m.seq = true)
    (hg : s.cur.isSeq = true → m.pg = 0) (hp : m.priv = false ∨ s.cur.smode = true) (he : m.extra = none) (hu : m.unused = false := by rfl) : s.illegal m = none := by
  have h3 : (!s.cur.smode && m.priv) = false := by rcases hp with hp | hp <;> simp [hp]
  have h4 : (s.cur.isSeq && decide (m.pg ≠ 0)) = false := by
    cases hc : s.cur.isSeq
    · simp
    · simp [hg hc]
  have h5 : ¬ (s.cur.vLimit < m.vEnd ∨ 64 < m.sEnd) := by omega
  simp only [State.illegal, h.recipe, he, hu, Option.isSome_none, Bool.false_and, Option.map_none, hq, h3]
  rw [if_neg (by simp), if_neg (by simpa using h4), if_neg (by simpa using h5), if_neg (by simp), if_neg (by simp)]

end Sys2Proof.Machine
end

