-- ==== Sys2Proof/Laws/Operands.lean ====
section
/-!
SUPPORT. The operand forms: everything a form does when nothing stands against it. One lemma per form, which statements about single
instructions cite.
-/

namespace Sys2Proof.Machine

/-! ## Flags -/

@[simp] theorem State.orFlags_zero (s : State) : s.orFlags 0 = s := by simp [State.orFlags, State.updCur]

theorem foldl_or_getLsbD {α : Type} (f : α → FFlags) (l : List α) (a : FFlags) (j : Nat) :
    (l.foldl (fun a i => a ||| f i) a).getLsbD j = true ↔ a.getLsbD j = true ∨ ∃ i ∈ l, (f i).getLsbD j = true := by
  induction l generalizing a with
  | nil => simp
  | cons x t ih => rw [List.foldl_cons, ih]; simp [or_assoc]

/-- R43: the flags of an instruction are those of its active lanes together. -/
theorem flagsOf_getLsbD (m : Mask) (f : Nat → FFlags) (j : Nat) :
    (flagsOf m f).getLsbD j = true ↔ ∃ k < 256, m.getLsbD k = true ∧ (f k).getLsbD j = true := by
  unfold flagsOf
  rw [foldl_or_getLsbD]
  simp [mem_maskLanes, and_assoc]

/-! ## Effects -/

/-- A byte outside the register rows depends on the memories alone. -/
theorem State.sameBytes_of {s t : State} (hg : t.grans = s.grans) (hh : t.hbm = s.hbm) (hs : t.sp = s.sp) (ha : t.acc = s.acc)
    (hp : t.planes = s.planes) (ho : t.host = s.host) : s.SameBytes t := by
  intro l hl
  unfold State.readByte
  split
  · unfold State.unscrubbed State.gran; rw [hg, hh]
  · rw [hs]
  · contradiction
  · rw [ha]
  · rw [hp]
  · rw [ho]
  · rfl

/-- The same, of the memories together. -/
theorem State.sameBytes_mem {s t : State} (h : (t.grans, t.hbm, t.sp, t.acc, t.planes, t.host) = (s.grans, s.hbm, s.sp, s.acc, s.planes, s.host)) :
    s.SameBytes t := by
  simp only [Prod.mk.injEq] at h
  obtain ⟨hg, hh, hs, ha, hp, ho⟩ := h
  exact State.sameBytes_of hg hh hs ha hp ho

/-- A vector register and flags. -/
theorem issue_wroteV {m : Meta} {s : State} (h : s.Ready) (hi : s.illegal m = none) (hn : m.insn = false) (hr : m.nonreplay = false)
    {body : State → Eff} {d : Nat} {w : Mask} {x : Vec} {fl : FFlags} {v : Nat → W32} {g : Nat → FFlags}
    (hb : body (s.charge m) = .done (((s.charge m).writeV d w x).orFlags fl))
    (hv : ∀ k < 256, v k = if w.getLsbD k then laneOf x k else laneOf (s.rawV d) k)
    (hg : ∀ j, fl.getLsbD j = true ↔ ∃ k < 256, (g k).getLsbD j = true) :
    ∃ t, issue m s body = .next t ∧ s.WroteV t d m.len v g := by
  let u := ((s.charge m).writeV d w x).orFlags fl
  have hd : u.cur.deferred = [] := by simp [u, h.written]
  refine ⟨u.finish m.len m.nonreplay none, ?_, ?_⟩
  · rw [issue_ready h hi hn, hb, Eff.close_done_quiet (u := u) (by simp [u, h.recipe]) (by simp [u, h.word]) hd]
  · have hvrf : (u.finish m.len m.nonreplay none).vrf = SMap.set 0 s.vrf (s.cur.row d) (mergeVec w x (s.rawV d)) := by
      simp [State.finish, u]
    refine ⟨?_, ?_, ?_, ?_, ?_, ?_⟩
    · intro k hk
      rw [hv k hk]
      have : (u.finish m.len m.nonreplay none).rawV d = mergeVec w x (s.rawV d) := by
        unfold State.rawV
        rw [hvrf]
        simp [State.finish, u, Ctx.row, State.rawV]
      rw [this, laneOf_mergeVec _ _ _ hk]
    · intro j
      rw [← hg j]
      simp [State.finish, u]
    · simp [State.GoesOn, State.finish, u, Ctx.follow]
    · intro r hr
      rw [hvrf, SMap.get_set_ne _ _ _ hr]
    · exact State.sameBytes_mem (by simp [State.finish, u])
    · have e : ({ u.finish m.len m.nonreplay none with
            vrf := s.vrf, cur := { (u.finish m.len m.nonreplay none).cur with fpx := s.cur.fpx } } : State) =
          (s.charge m).finish m.len m.nonreplay none := by
        have h1 := h.poisonV
        have h2 := h.written
        simp only [State.finish, u, State.orFlags, State.writeV, State.updCur, State.charge_cur_deferred, State.charge_cur_poisonV, h1, h2]
        simp [Ctx.follow, SMap.set, SMap.del, SMap.get]
      rw [e, hr]
      exact (State.charge_keeps s m).trans (State.finish_keeps _ _ _)

/-- Nothing but the issue itself. -/
theorem issue_wroteNothing {m : Meta} {s : State} (h : s.Ready) (hi : s.illegal m = none) (hn : m.insn = false) (hr : m.nonreplay = false)
    {body : State → Eff} (hb : body (s.charge m) = .done (s.charge m)) : ∃ t, issue m s body = .next t ∧ s.WroteNothing t m.len := by
  refine ⟨(s.charge m).finish m.len m.nonreplay none, ?_, ?_⟩
  · rw [issue_ready h hi hn, hb, Eff.close_done_quiet (by simp [h.recipe]) (by simp [h.word]) (by simp [h.written])]
  · refine ⟨?_, ?_, ?_, ?_⟩
    · simp [State.GoesOn, State.finish]
    · exact State.sameBytes_mem (by simp [State.finish])
    · simp [State.finish]
    · rw [hr]; exact (State.charge_keeps s m).trans (State.finish_keeps _ _ _)

/-- A uniform register. -/
theorem issue_wroteS {m : Meta} {s : State} (h : s.Ready) (hi : s.illegal m = none) (hn : m.insn = false) (hr : m.nonreplay = false)
    {body : State → Eff} {d : Nat} {v : W64} (hb : body (s.charge m) = .done ((s.charge m).writeS d v)) :
    ∃ t, issue m s body = .next t ∧ s.WroteS t d m.len v := by
  let u := (s.charge m).writeS d v
  have hd : u.cur.deferred = [] := by simp [u, h.written]
  refine ⟨u.finish m.len m.nonreplay none, ?_, ?_⟩
  · rw [issue_ready h hi hn, hb, Eff.close_done_quiet (u := u) (by simp [u, h.recipe]) (by simp [u, h.word]) hd]
  · refine ⟨?_, ?_, ?_, ?_, ?_, ?_⟩
    · simp [State.rawS, State.finish, u]
    · intro r hr; simp [State.rawS, State.finish, u, SMap.get_set, hr]
    · simp [State.GoesOn, State.finish, u, Ctx.follow]
    · exact State.sameBytes_mem (by simp [State.finish, u])
    · simp [State.finish, u]
    · have e : ({ u.finish m.len m.nonreplay none with
            cur := { (u.finish m.len m.nonreplay none).cur with sregs := s.cur.sregs } } : State) =
          (s.charge m).finish m.len m.nonreplay none := by
        have h1 := h.poisonS
        have h2 := h.written
        simp only [State.finish, u, State.writeS, State.charge_cur_deferred, State.charge_cur_poisonS, h1, h2]
        simp [Ctx.follow]
      rw [e, hr]
      exact (State.charge_keeps s m).trans (State.finish_keeps _ _ _)

/-- A predicate and flags. -/
theorem issue_wroteP {m : Meta} {s : State} (h : s.Ready) (hi : s.illegal m = none) (hn : m.insn = false) (hr : m.nonreplay = false)
    {body : State → Eff} {d : Nat} {w x : Mask} {fl : FFlags} {v : Nat → Bool} {g : Nat → FFlags}
    (hb : body (s.charge m) = .done (((s.charge m).writeP d w x).orFlags fl))
    (hv : ∀ k < 256, v k = if w.getLsbD k then x.getLsbD k else (s.rawP d).getLsbD k)
    (hg : ∀ j, fl.getLsbD j = true ↔ ∃ k < 256, (g k).getLsbD j = true) :
    ∃ t, issue m s body = .next t ∧ s.WroteP t d m.len v g := by
  by_cases hz : d = 0
  · let u := (s.charge m).orFlags fl
    have hw : (s.charge m).writeP d w x = s.charge m := by simp [State.writeP, hz]
    have hd : u.cur.deferred = [] := by simp [u, h.written]
    refine ⟨u.finish m.len m.nonreplay none, ?_, ?_⟩
    · rw [issue_ready h hi hn, hb, hw, Eff.close_done_quiet (u := u) (by simp [u, h.recipe]) (by simp [u, h.word]) hd]
    · refine ⟨?_, ?_, ?_, ?_, ?_, ?_, ?_⟩
      · intro k hk; simp only [hz, State.rawP, if_true]; exact getLsbD_allLanes hk
      · intro r hr; simp [State.rawP, State.finish, u]
      · intro j; rw [← hg j]; simp [State.finish, u]
      · simp [State.GoesOn, State.finish, u, Ctx.follow]
      · exact State.sameBytes_mem (by simp [State.finish, u])
      · simp [State.finish, u]
      · have e : ({ u.finish m.len m.nonreplay none with cur := { (u.finish m.len m.nonreplay none).cur with
              preds := s.cur.preds, fpx := s.cur.fpx } } : State) = (s.charge m).finish m.len m.nonreplay none := by
          simp only [State.finish, u, State.orFlags, State.updCur]
          simp [Ctx.follow]
        rw [e, hr]
        exact (State.charge_keeps s m).trans (State.finish_keeps _ _ _)
  · let u := ((s.charge m).writeP d w x).orFlags fl
    have hw : (s.charge m).writeP d w x = { s.charge m with cur := { (s.charge m).cur with
        preds := SMap.set 0 s.cur.preds d (mergeMask w x (s.rawP d)) } } := by
      simp [State.writeP, hz, h.written, State.rawP]
    have hd : u.cur.deferred = [] := by simp [u, hw, h.written]
    refine ⟨u.finish m.len m.nonreplay none, ?_, ?_⟩
    · rw [issue_ready h hi hn, hb, Eff.close_done_quiet (u := u) (by simp [u, hw, h.recipe]) (by simp [u, hw, h.word]) hd]
    · refine ⟨?_, ?_, ?_, ?_, ?_, ?_, ?_⟩
      · intro k hk
        rw [if_neg hz, hv k hk, ← getLsbD_mergeMask _ _ _ hk]
        simp [State.rawP, hz, State.finish, u, hw]
      · intro r hr
        by_cases h0 : r = 0
        · simp [State.rawP, h0]
        · simp [State.rawP, h0, State.finish, u, hw, SMap.get_set, hr]
      · intro j; rw [← hg j]; simp [State.finish, u, hw]
      · simp [State.GoesOn, State.finish, u, hw, Ctx.follow]
      · exact State.sameBytes_mem (by simp [State.finish, u])
      · simp [State.finish, u]
      · have e : ({ u.finish m.len m.nonreplay none with cur := { (u.finish m.len m.nonreplay none).cur with
              preds := s.cur.preds, fpx := s.cur.fpx } } : State) = (s.charge m).finish m.len m.nonreplay none := by
          simp only [State.finish, u, hw, State.orFlags, State.updCur]
          simp [Ctx.follow]
        rw [e, hr]
        exact (State.charge_keeps s m).trans (State.finish_keeps _ _ _)

/-- A result left in flight. -/
theorem issue_leftResult {m : Meta} {s : State} (h : s.Ready) (hi : s.illegal m = none) (hn : m.insn = false) (hr : m.nonreplay = false)
    {body : State → Eff} {vals : List DVal} {fl : FFlags} (hb : body (s.charge m) = .done ((s.charge m).defer vals fl e4Steps true)) :
    ∃ t, issue m s body = .next t ∧ s.LeftResult t m.len e4Steps m.settle vals fl := by
  let u := (s.charge m).defer vals fl e4Steps true
  have hd : u.cur.deferred = [⟨s.nextId, vals, fl, e4Steps, true⟩] := by
    have : contestNew ([] : List Deferred) = id := by funext x; rfl
    simp [u, State.defer, h.written, this]
  refine ⟨u.finish m.len m.nonreplay (if m.settle then some .settle else none), ?_, ?_⟩
  · rw [issue_ready h hi hn, hb, Eff.close_done_timed (u := u) (by simp [u, State.defer, h.recipe]) (by simp [u, State.defer, h.word]) hd
      (.inl (by simp [e4Steps]))]
  · refine ⟨hd, rfl, ?_, ?_, ?_, ?_⟩
    · simp [State.GoesOn, State.finish, u, State.defer, Ctx.follow]
    · exact State.sameBytes_mem (by simp [State.finish, u])
    · simp [State.finish, u]
    · have e : ({ u.finish m.len m.nonreplay (if m.settle then some .settle else none) with
            nextId := s.nextId
            cur := { (u.finish m.len m.nonreplay (if m.settle then some .settle else none)).cur with deferred := [] } } : State) =
          (s.charge m).finish m.len m.nonreplay (if m.settle then some .settle else none) := by
        simp only [State.finish, u, State.defer]
        simp [Ctx.follow, h.written]
      rw [e, hr]
      exact (State.charge_keeps s m).trans (State.finish_keeps _ _ _)

/-! ## The lane forms -/

theorem laneMeta_ok {s : State} (h : s.GroupReady) {sm : Bool} {g : BitVec 3} {cls : Nat} {l vs : List Nat} (hv : s.hasV l) :
    s.illegal (laneMeta sm g cls (topReg l) vs) = none :=
  illegal_lane h (topReg_le hv) (Nat.zero_le _) (.inl rfl) rfl

section forms
variable {s : State} (h : s.GroupReady) (sm : Bool) (g : BitVec 3) (cls : Nat)
include h

theorem charge_act (m : Meta) : (s.charge m).act g = s.cur.em &&& s.rawP g.toNat := by
  simp [State.act, State.readP_eq (s := s.charge m) (by simp [h.1.written])]
theorem charge_readV (m : Meta) (r : Nat) : (s.charge m).readV r = s.rawV r := by
  rw [State.readV_eq (by simp [h.1.written]), State.charge_rawV]
theorem charge_readP (m : Meta) (r : Nat) : (s.charge m).readP r = s.rawP r := by
  rw [State.readP_eq (by simp [h.1.written]), State.charge_rawP]
theorem ready_act : s.act g = s.cur.em &&& s.rawP g.toNat := by
  simp [State.act, State.readP_eq (s := s) h.1.written]

omit h in
/-- No flag of any lane. -/
theorem noFlags (j : Nat) : (0 : FFlags).getLsbD j = true ↔ ∃ k < 256, ((fun _ : Nat => (0 : FFlags)) k).getLsbD j = true := by simp

theorem lane2_wroteV (d a b : BitVec 6) (hv : s.hasV [d.toNat, a.toNat, b.toNat]) (f : W32 → W32 → W32) :
    ∃ t, lane2 sm g cls d a b f s = .next t ∧ s.WroteV t d.toNat 4
      (fun k => if (s.act g).getLsbD k then f (laneOf (s.rawV a.toNat) k) (laneOf (s.rawV b.toNat) k) else laneOf (s.rawV d.toNat) k)
      (fun _ => 0) := by
  refine issue_wroteV h.1 (laneMeta_ok h hv) rfl rfl (w := s.act g)
    (x := ofLanes fun i => f (laneOf (s.rawV a.toNat) i) (laneOf (s.rawV b.toNat) i)) (fl := 0) ?_ ?_ noFlags
  · simp only [charge_readV h, charge_act h, ready_act h, State.orFlags_zero]
  · intro k hk; simp only [laneOf_ofLanes _ hk]

theorem lane3_wroteV (d a b : BitVec 6) (hv : s.hasV [d.toNat, a.toNat, b.toNat]) (f : W32 → W32 → W32 → W32) :
    ∃ t, lane3 sm g cls d a b f s = .next t ∧ s.WroteV t d.toNat 4
      (fun k => if (s.act g).getLsbD k then f (laneOf (s.rawV d.toNat) k) (laneOf (s.rawV a.toNat) k) (laneOf (s.rawV b.toNat) k)
        else laneOf (s.rawV d.toNat) k) (fun _ => 0) := by
  refine issue_wroteV h.1 (laneMeta_ok h hv) rfl rfl (w := s.act g)
    (x := ofLanes fun i => f (laneOf (s.rawV d.toNat) i) (laneOf (s.rawV a.toNat) i) (laneOf (s.rawV b.toNat) i)) (fl := 0) ?_ ?_ noFlags
  · simp only [charge_readV h, charge_act h, ready_act h, State.orFlags_zero]
  · intro k hk; simp only [laneOf_ofLanes _ hk]

theorem lane1_wroteV (d a : BitVec 6) (hv : s.hasV [d.toNat, a.toNat]) (f : W32 → W32) :
    ∃ t, lane1 sm g cls d a f s = .next t ∧ s.WroteV t d.toNat 4
      (fun k => if (s.act g).getLsbD k then f (laneOf (s.rawV a.toNat) k) else laneOf (s.rawV d.toNat) k) (fun _ => 0) := by
  refine issue_wroteV h.1 (laneMeta_ok h hv) rfl rfl (w := s.act g) (x := ofLanes fun i => f (laneOf (s.rawV a.toNat) i)) (fl := 0) ?_ ?_ noFlags
  · simp only [charge_readV h, charge_act h, ready_act h, State.orFlags_zero]
  · intro k hk; simp only [laneOf_ofLanes _ hk]

theorem laneImm_wroteV (d : BitVec 6) (hv : s.hasV [d.toNat]) (reads : Bool) (f : W32 → W32) :
    ∃ t, laneImm sm g d reads f s = .next t ∧ s.WroteV t d.toNat 4
      (fun k => if (s.act g).getLsbD k then f (laneOf (s.rawV d.toNat) k) else laneOf (s.rawV d.toNat) k) (fun _ => 0) := by
  refine issue_wroteV h.1 (laneMeta_ok h hv) rfl rfl (w := s.act g) (x := ofLanes fun i => f (laneOf (s.rawV d.toNat) i)) (fl := 0) ?_ ?_ noFlags
  · simp only [charge_readV h, charge_act h, ready_act h, State.orFlags_zero]
  · intro k hk; simp only [laneOf_ofLanes _ hk]

omit h in
/-- Lane results with flags, as an active mask selects them. -/
theorem maskedLanes (m : Mask) (f : Nat → FRes) (v : Nat → W32) (k : Nat) (hk : k < 256) :
    (if m.getLsbD k then (f k).v else v k) =
      if m.getLsbD k then laneOf (ofLanes fun i => (if m.getLsbD i then f i else ⟨0, 0⟩ : FRes).v) k else v k := by
  rw [laneOf_ofLanes _ hk]; cases m.getLsbD k <;> simp
omit h in
theorem maskedFlags (m : Mask) (f : Nat → FRes) (j : Nat) :
    (flagsOf m fun i => (if m.getLsbD i then f i else ⟨0, 0⟩ : FRes).fl).getLsbD j = true ↔
      ∃ k < 256, (if m.getLsbD k then (f k).fl else 0).getLsbD j = true := by
  rw [flagsOf_getLsbD]
  constructor
  · rintro ⟨k, hk, hm, hf⟩; exact ⟨k, hk, by simpa [hm] using hf⟩
  · rintro ⟨k, hk, hf⟩
    cases hm : m.getLsbD k
    · rw [hm] at hf; simp at hf
    · exact ⟨k, hk, hm, by simpa [hm] using hf⟩

theorem float2_wroteV (d a b : BitVec 6) (hv : s.hasV [d.toNat, a.toNat, b.toNat]) (f : W32 → W32 → FRes) :
    ∃ t, float2 sm g cls d a b f s = .next t ∧ s.WroteV t d.toNat 4
      (fun k => if (s.act g).getLsbD k then (f (laneOf (s.rawV a.toNat) k) (laneOf (s.rawV b.toNat) k)).v else laneOf (s.rawV d.toNat) k)
      (fun k => if (s.act g).getLsbD k then (f (laneOf (s.rawV a.toNat) k) (laneOf (s.rawV b.toNat) k)).fl else 0) := by
  refine issue_wroteV h.1 (laneMeta_ok h hv) rfl rfl (w := s.act g) ?_
    (maskedLanes (s.act g) (fun k => f (laneOf (s.rawV a.toNat) k) (laneOf (s.rawV b.toNat) k)) _) (maskedFlags _ _)
  simp only [charge_readV h, charge_act h, ready_act h]

theorem float3_wroteV (d a b : BitVec 6) (hv : s.hasV [d.toNat, a.toNat, b.toNat]) (f : W32 → W32 → W32 → FRes) :
    ∃ t, float3 sm g cls d a b f s = .next t ∧ s.WroteV t d.toNat 4
      (fun k => if (s.act g).getLsbD k then (f (laneOf (s.rawV d.toNat) k) (laneOf (s.rawV a.toNat) k) (laneOf (s.rawV b.toNat) k)).v
        else laneOf (s.rawV d.toNat) k)
      (fun k => if (s.act g).getLsbD k then (f (laneOf (s.rawV d.toNat) k) (laneOf (s.rawV a.toNat) k) (laneOf (s.rawV b.toNat) k)).fl else 0) := by
  refine issue_wroteV h.1 (laneMeta_ok h hv) rfl rfl (w := s.act g) ?_
    (maskedLanes (s.act g) (fun k => f (laneOf (s.rawV d.toNat) k) (laneOf (s.rawV a.toNat) k) (laneOf (s.rawV b.toNat) k)) _)
    (maskedFlags _ _)
  simp only [charge_readV h, charge_act h, ready_act h]

theorem float1_wroteV (d a : BitVec 6) (hv : s.hasV [d.toNat, a.toNat]) (f : W32 → FRes) :
    ∃ t, float1 sm g cls d a f s = .next t ∧ s.WroteV t d.toNat 4
      (fun k => if (s.act g).getLsbD k then (f (laneOf (s.rawV a.toNat) k)).v else laneOf (s.rawV d.toNat) k)
      (fun k => if (s.act g).getLsbD k then (f (laneOf (s.rawV a.toNat) k)).fl else 0) := by
  refine issue_wroteV h.1 (laneMeta_ok h hv) rfl rfl (w := s.act g) ?_
    (maskedLanes (s.act g) (fun k => f (laneOf (s.rawV a.toNat) k)) _) (maskedFlags _ _)
  simp only [charge_readV h, charge_act h, ready_act h]

theorem slow2_left (d a b : BitVec 6) (hv : s.hasV [d.toNat, a.toNat, b.toNat]) (f : W32 → W32 → FRes) :
    ∃ t x fl, slow2 sm g cls d a b f s = .next t ∧ s.LeftResult t 4 4 sm [.vec d.toNat (s.act g) x 0] fl ∧
      (∀ k < 256, (s.act g).getLsbD k → laneOf x k = (f (laneOf (s.rawV a.toNat) k) (laneOf (s.rawV b.toNat) k)).v) ∧
      ∀ j, fl.getLsbD j = true ↔ ∃ k < 256, (if (s.act g).getLsbD k then (f (laneOf (s.rawV a.toNat) k) (laneOf (s.rawV b.toNat) k)).fl else 0).getLsbD j = true := by
  obtain ⟨t, h1, h2⟩ := issue_leftResult (m := laneMeta sm g cls (topReg [d.toNat, a.toNat, b.toNat]) [a.toNat, b.toNat])
    h.1 (laneMeta_ok h hv) rfl rfl (body := fun s =>
      let va := s.readV a.toNat
      let vb := s.readV b.toNat
      let m := s.act g
      let r := fun i => if m.getLsbD i then f (laneOf va i) (laneOf vb i) else ⟨0, 0⟩
      .done (s.defer [.vec d.toNat m (ofLanes fun i => (r i).v) 0] (flagsOf m fun i => (r i).fl) e4Steps true))
    (by simp only [charge_readV h, charge_act h, ← ready_act h]; rfl)
  refine ⟨t, _, _, h1, h2, ?_, maskedFlags _ _⟩
  intro k hk hm
  rw [laneOf_ofLanes _ hk, if_pos hm]

theorem slow1_left (d a : BitVec 6) (hv : s.hasV [d.toNat, a.toNat]) (f : W32 → FRes) :
    ∃ t x fl, slow1 sm g cls d a f s = .next t ∧ s.LeftResult t 4 4 sm [.vec d.toNat (s.act g) x 0] fl ∧
      (∀ k < 256, (s.act g).getLsbD k → laneOf x k = (f (laneOf (s.rawV a.toNat) k)).v) ∧
      ∀ j, fl.getLsbD j = true ↔ ∃ k < 256, (if (s.act g).getLsbD k then (f (laneOf (s.rawV a.toNat) k)).fl else 0).getLsbD j = true := by
  obtain ⟨t, h1, h2⟩ := issue_leftResult (m := laneMeta sm g cls (topReg [d.toNat, a.toNat]) [a.toNat])
    h.1 (laneMeta_ok h hv) rfl rfl (body := fun s =>
      let va := s.readV a.toNat
      let m := s.act g
      let r := fun i => if m.getLsbD i then f (laneOf va i) else ⟨0, 0⟩
      .done (s.defer [.vec d.toNat m (ofLanes fun i => (r i).v) 0] (flagsOf m fun i => (r i).fl) e4Steps true))
    (by simp only [charge_readV h, charge_act h, ← ready_act h]; rfl)
  refine ⟨t, _, _, h1, h2, ?_, maskedFlags _ _⟩
  intro k hk hm
  rw [laneOf_ofLanes _ hk, if_pos hm]

theorem compare2_wroteP (d : BitVec 3) (a b : BitVec 6) (hv : s.hasV [a.toNat, b.toNat]) (f : W32 → W32 → Bool × FFlags) :
    ∃ t, compare2 sm g d a b f s = .next t ∧ s.WroteP t d.toNat 4
      (fun k => if (s.act g).getLsbD k then (f (laneOf (s.rawV a.toNat) k) (laneOf (s.rawV b.toNat) k)).1 else (s.rawP d.toNat).getLsbD k)
      (fun k => if (s.act g).getLsbD k then (f (laneOf (s.rawV a.toNat) k) (laneOf (s.rawV b.toNat) k)).2 else 0) := by
  refine issue_wroteP h.1 (laneMeta_ok h hv) rfl rfl (w := s.act g)
    (x := ofBits fun i => (if (s.act g).getLsbD i then f (laneOf (s.rawV a.toNat) i) (laneOf (s.rawV b.toNat) i) else (false, 0)).1)
    (fl := flagsOf (s.act g) fun i => (if (s.act g).getLsbD i then f (laneOf (s.rawV a.toNat) i) (laneOf (s.rawV b.toNat) i) else (false, 0)).2)
    ?_ ?_ ?_
  · simp only [charge_readV h, charge_act h, ready_act h]
  · intro k hk; rw [getLsbD_ofBits _ hk]; cases (s.act g).getLsbD k <;> simp
  · intro j
    rw [flagsOf_getLsbD]
    constructor
    · rintro ⟨k, hk, hm, hf⟩; exact ⟨k, hk, by simpa [hm] using hf⟩
    · rintro ⟨k, hk, hf⟩
      cases hm : (s.act g).getLsbD k
      · rw [hm] at hf; simp at hf
      · exact ⟨k, hk, hm, by simpa [hm] using hf⟩

theorem pred2_wroteP (d a b : BitVec 3) (f : Mask → Mask → Mask) :
    ∃ t, pred2 sm g d a b f s = .next t ∧ s.WroteP t d.toNat 4
      (fun k => if (s.act g).getLsbD k then (f (s.rawP a.toNat) (s.rawP b.toNat)).getLsbD k else (s.rawP d.toNat).getLsbD k) (fun _ => 0) := by
  refine issue_wroteP h.1 (laneMeta_ok h (l := []) (by simp [State.hasV])) rfl rfl (w := s.act g)
    (x := f (s.rawP a.toNat) (s.rawP b.toNat)) (fl := 0) ?_ (fun _ _ => rfl) noFlags
  simp only [charge_readP h, charge_act h, ready_act h, State.orFlags_zero]

/-- Short forms: the guard is `p0`. -/
theorem act_zero : s.act 0 = s.cur.em := by
  rw [ready_act h]; simp only [State.rawP, allLanes]; exact BitVec.and_allOnes

theorem short2_wroteV (d a : BitVec 5) (hv : s.hasV [d.toNat, a.toNat]) (f : W32 → W32 → W32) :
    ∃ t, short2 sm cls d a f s = .next t ∧ s.WroteV t d.toNat 2
      (fun k => if s.cur.em.getLsbD k then f (laneOf (s.rawV d.toNat) k) (laneOf (s.rawV a.toNat) k) else laneOf (s.rawV d.toNat) k)
      (fun _ => 0) := by
  refine issue_wroteV (m := { laneMeta sm 0 cls (topReg [d.toNat, a.toNat]) [d.toNat, a.toNat] with len := 2 })
    h.1 (illegal_lane h (topReg_le hv) (Nat.zero_le _) (.inl rfl) rfl) rfl rfl (w := s.cur.em)
    (x := ofLanes fun i => f (laneOf (s.rawV d.toNat) i) (laneOf (s.rawV a.toNat) i)) (fl := 0) ?_ ?_ noFlags
  · simp only [charge_readV h, charge_act h, ← ready_act h, act_zero h, State.orFlags_zero]
  · intro k hk; simp only [laneOf_ofLanes _ hk]

theorem shortF_wroteV (d a : BitVec 5) (hv : s.hasV [d.toNat, a.toNat]) (f : W32 → W32 → FRes) :
    ∃ t, shortF sm cls d a f s = .next t ∧ s.WroteV t d.toNat 2
      (fun k => if s.cur.em.getLsbD k then (f (laneOf (s.rawV d.toNat) k) (laneOf (s.rawV a.toNat) k)).v else laneOf (s.rawV d.toNat) k)
      (fun k => if s.cur.em.getLsbD k then (f (laneOf (s.rawV d.toNat) k) (laneOf (s.rawV a.toNat) k)).fl else 0) := by
  refine issue_wroteV (m := { laneMeta sm 0 cls (topReg [d.toNat, a.toNat]) [d.toNat, a.toNat] with len := 2 })
    h.1 (illegal_lane h (topReg_le hv) (Nat.zero_le _) (.inl rfl) rfl) rfl rfl (w := s.cur.em) ?_
    (maskedLanes s.cur.em (fun k => f (laneOf (s.rawV d.toNat) k) (laneOf (s.rawV a.toNat) k)) _) (maskedFlags _ _)
  simp only [charge_readV h, charge_act h, ← ready_act h, act_zero h]

end forms

/-! ## The uniform forms -/

section uniform
variable {s : State} (h : s.Ready) (sm : Bool) (cls : Nat)
include h

theorem uniMeta_ok {ss : List Nat} : s.illegal (uniMeta sm cls ss) = none :=
  illegal_uniform h rfl (Nat.zero_le _) rfl (fun _ => rfl) (.inl rfl) rfl
theorem charge_readS (m : Meta) (r : Nat) : (s.charge m).readS r = s.rawS r := by
  rw [State.readS_eq (by simp [h.written]), State.charge_rawS]

theorem uni2_wroteS (d a b : BitVec 6) (f : W64 → W64 → W64) :
    ∃ t, uni2 sm cls d a b f s = .next t ∧ s.WroteS t d.toNat 4 (f (s.rawS a.toNat) (s.rawS b.toNat)) :=
  issue_wroteS h (uniMeta_ok h sm cls) rfl rfl (by simp only [charge_readS h])

theorem uniSlow_left (d a b : BitVec 6) (f : W64 → W64 → W64) :
    ∃ t, uniSlow sm cls d a b f s = .next t ∧
      s.LeftResult t 4 4 sm [.uni d.toNat (f (s.rawS a.toNat) (s.rawS b.toNat)) false] 0 :=
  issue_leftResult (m := uniMeta sm cls [a.toNat, b.toNat]) h (uniMeta_ok h sm cls) rfl rfl (by simp only [charge_readS h])

end uniform

end Sys2Proof.Machine
end

