-- ==== Sys2Proof/Laws/Returns.lean ====
section
/-!
SUPPORT. Instructions whose results return from memory, an engine or a register at once: the effect, the result in flight, and the
settle that writes it.
-/

namespace Sys2Proof.Machine

/-- R25: with no transaction of the group open, nothing comes before an instruction's own effect. -/
theorem issue_open {m : Meta} {s : State} (h : s.Ready) (hi : s.illegal m = none) (hn : m.insn = false ∨ s.cur.txg = false)
    (body : State → Eff) : issue m s body = .next ((body (s.charge m)).close m) := by
  rcases hn with hn | hn
  · exact issue_ready h hi hn body
  · have hp : (s.charge m).poisoned m = false := by
      simp only [State.poisoned, State.charge_cur_poisonV, State.charge_cur_poisonS, h.poisonV, h.poisonS]
      simp
    have ha : (s.charge m).abortOpen 10 allLanes = s.charge m := by simp [State.abortOpen, hn]
    rw [issue, if_neg h.holds]
    simp [State.issueWith, hi, h.inTime, ha, hp]

/-- A result with nothing in flight before it is contested by nothing. -/
theorem contestNew_nil : contestNew ([] : List Deferred) = id := by funext x; rfl

/-- A part of a result without contested lanes. -/
def DVal.plain : DVal → Bool
  | .vec _ _ _ c => c == 0
  | .uni _ _ c => !c
  | .prd _ _ _ c => c == 0

/-- A register's two elements, put together. -/
theorem halves_append (v : W64) : v.extractLsb' (32 * 1) 32 ++ v.extractLsb' (32 * 0) 32 = v := by
  apply BitVec.eq_of_getLsbD_eq
  intro j hj
  rw [BitVec.getLsbD_append]
  split
  · next h => simp [h]
  · next h => rw [BitVec.getLsbD_extractLsb', decide_eq_true (by omega), show 32 * 1 + (j - 32) = j by omega]; rfl
theorem State.landVal_take {s : State} (id : Nat) {x : DVal} (hx : x.plain = true) (hv : s.cur.poisonV = []) (hs : s.cur.poisonS = 0) :
    { (s.landVal id s.cur x).1 with cur := (s.landVal id s.cur x).2 } = s.take x := by
  cases x with
  | vec r m v k =>
    have hk : k = 0 := by simpa [DVal.plain] using hx
    subst hk
    have hp : SMap.set 0 s.cur.poisonV r (SMap.get 0 s.cur.poisonV r &&& ~~~m) = s.cur.poisonV := by
      rw [hv]; simp [SMap.get, SMap.set, SMap.del]
    have hm : (ofLanes fun i => if m.getLsbD i && !((0 : Mask).getLsbD i && s.pick (Nat.pair id (65536 + r * 256 + i))) then laneOf v i
        else laneOf (SMap.get (0 : Vec) s.vrf (s.cur.row r)) i) = mergeVec m v (s.rawV r) := by
      unfold mergeVec State.rawV
      congr 1; funext i; simp
    simp only [State.landVal, hp]
    rw [hm]; rfl
  | uni r v k =>
    have hk : k = false := by simpa [DVal.plain] using hx
    subst hk
    have hp : s.cur.poisonS &&& ~~~(BitVec.twoPow 64 r) = s.cur.poisonS := by rw [hs]; simp
    have hw : v.extractLsb' (32 * 1) 32 ++ v.extractLsb' (32 * 0) 32 = v := halves_append v
    simp only [State.landVal, State.take, hp, Bool.false_and, Bool.false_eq_true, if_false, hw]
  | prd r m v k =>
    have hk : k = 0 := by simpa [DVal.plain] using hx
    subst hk
    simp only [State.landVal, State.take]
    split
    · rfl
    · rename_i h0
      have : (ofBits fun i => if m.getLsbD i && !((0 : Mask).getLsbD i && s.pick (Nat.pair id (114688 + r * 256 + i))) then v.getLsbD i
          else (SMap.get 0 s.cur.preds r).getLsbD i) = mergeMask m v (s.rawP r) := by
        apply BitVec.eq_of_getLsbD_eq
        intro j hj
        rw [getLsbD_ofBits _ hj, getLsbD_mergeMask _ _ _ hj]
        simp [State.rawP, h0]
      rw [this]

theorem State.take_vec_cur (s : State) (r m v k) : (s.take (.vec r m v k)).cur = s.cur := by rw [State.take]
theorem State.take_quiet {s : State} (x : DVal) : (s.take x).cur.poisonV = s.cur.poisonV ∧ (s.take x).cur.poisonS = s.cur.poisonS := by
  cases x with
  | vec r m v k => rw [State.take_vec_cur]; exact ⟨rfl, rfl⟩
  | uni r v k => rw [State.take]; exact ⟨rfl, rfl⟩
  | prd r m v k =>
    by_cases h : r = 0
    · rw [State.take, if_pos h]; exact ⟨rfl, rfl⟩
    · rw [State.take, if_neg h]; exact ⟨rfl, rfl⟩

/-- Every part of an uncontested result is written as it is (R16). -/
theorem State.landVals_take (id : Nat) (l : List DVal) : ∀ {s : State}, (∀ x ∈ l, x.plain = true) → s.cur.poisonV = [] → s.cur.poisonS = 0 →
    { (l.foldl (fun a x => a.1.landVal id a.2 x) (s, s.cur)).1 with cur := (l.foldl (fun a x => a.1.landVal id a.2 x) (s, s.cur)).2 } =
      l.foldl State.take s := by
  suffices H : ∀ (l : List DVal) (s t : State), (∀ x ∈ l, x.plain = true) → t = { s with cur := t.cur } → t.cur.poisonV = [] → t.cur.poisonS = 0 →
      { (l.foldl (fun a x => a.1.landVal id a.2 x) (s, t.cur)).1 with cur := (l.foldl (fun a x => a.1.landVal id a.2 x) (s, t.cur)).2 } =
        l.foldl State.take t from fun {s} hl hv hs => H l s s hl rfl hv hs
  intro l
  induction l with
  | nil => intro s t _ ht _ _; exact ht.symm
  | cons x l ih =>
    intro s t hl ht hv hs
    simp only [List.foldl_cons]
    have h1 := State.landVal_take (s := t) id (hl x (List.mem_cons_self ..)) hv hs
    have h2 : (t.landVal id t.cur x).2 = (s.landVal id t.cur x).2 ∧
        { (t.landVal id t.cur x).1 with cur := (t.landVal id t.cur x).2 } = { (s.landVal id t.cur x).1 with cur := (s.landVal id t.cur x).2 } := by
      rw [ht]; cases x <;> exact ⟨rfl, rfl⟩
    have h3 : (s.landVal id t.cur x).2 = (t.take x).cur := by rw [← h1]; exact h2.1.symm
    rw [show (s.landVal id t.cur x) = ((s.landVal id t.cur x).1, (t.take x).cur) from by rw [← h3]]
    refine ih _ _ (fun y hy => hl y (List.mem_cons_of_mem _ hy)) ?_ ?_ ?_
    · rw [← h3, ← h2.2, h1]
    · rw [(State.take_quiet x).1, hv]
    · rw [(State.take_quiet x).2, hs]

/-! ## Keeping, through the writing of a result -/

/-- A state with what every issue moves set aside. -/
def State.bare (s : State) : State := { s with cur := s.cur.aside, cores := [], tiles := [], oracle := 0 }
theorem State.keeps_iff {s t : State} : s.Keeps t ↔
    t.bare = s.bare ∧ (∀ c, (t.core c).aside = (s.core c).aside) ∧ ∀ x, (t.tile x).aside = (s.tile x).aside := Iff.rfl
@[simp] theorem State.bare_cur (s : State) : s.bare.cur = s.cur.aside := rfl
@[simp] theorem State.bare_vrf (s : State) : s.bare.vrf = s.vrf := rfl

theorem State.bare_take (s : State) (x : DVal) : (s.take x).bare = s.bare.take x := by
  cases x with
  | vec r m v k =>
    have h1 : s.bare.cur.row r = s.cur.row r := rfl
    have h2 : s.bare.rawV r = s.rawV r := by rw [State.rawV, State.rawV, h1]; rfl
    rw [State.take, State.take, h1, h2, State.bare_vrf]
    simp only [State.bare]
  | uni r v k => rw [State.take, State.take]; rfl
  | prd r m v k =>
    by_cases h : r = 0
    · rw [State.take, if_pos h, State.take, if_pos h]
    · rw [State.take, if_neg h, State.take, if_neg h]; rfl
theorem State.take_cores (s : State) (x : DVal) : (s.take x).cores = s.cores ∧ (s.take x).tiles = s.tiles := by
  cases x with
  | vec r m v k => rw [State.take]; exact ⟨rfl, rfl⟩
  | uni r v k => rw [State.take]; exact ⟨rfl, rfl⟩
  | prd r m v k =>
    by_cases h : r = 0
    · rw [State.take, if_pos h]; exact ⟨rfl, rfl⟩
    · rw [State.take, if_neg h]; exact ⟨rfl, rfl⟩
theorem State.take_nextId (s : State) (x : DVal) : (s.take x).nextId = s.nextId := by
  cases x with
  | vec r m v k => rw [State.take]
  | uni r v k => rw [State.take]
  | prd r m v k =>
    by_cases h : r = 0
    · rw [State.take, if_pos h]
    · rw [State.take, if_neg h]
theorem State.take_rest (s : State) (x : DVal) : (s.take x).cur.pc = s.cur.pc ∧ (s.take x).cur.loop = s.cur.loop ∧
    (s.take x).cur.park = s.cur.park ∧ (s.take x).grans = s.grans ∧ (s.take x).hbm = s.hbm ∧ (s.take x).sp = s.sp ∧ (s.take x).acc = s.acc ∧
    (s.take x).planes = s.planes ∧ (s.take x).host = s.host := by
  cases x with
  | vec r m v k => rw [State.take]; exact ⟨rfl, rfl, rfl, rfl, rfl, rfl, rfl, rfl, rfl⟩
  | uni r v k => rw [State.take]; exact ⟨rfl, rfl, rfl, rfl, rfl, rfl, rfl, rfl, rfl⟩
  | prd r m v k =>
    by_cases h : r = 0
    · rw [State.take, if_pos h]; exact ⟨rfl, rfl, rfl, rfl, rfl, rfl, rfl, rfl, rfl⟩
    · rw [State.take, if_neg h]; exact ⟨rfl, rfl, rfl, rfl, rfl, rfl, rfl, rfl, rfl⟩
theorem State.Keeps.take {s t : State} (h : s.Keeps t) (x : DVal) : (s.take x).Keeps (t.take x) := by
  refine State.keeps_iff.2 ⟨?_, ?_, ?_⟩
  · rw [State.bare_take, State.bare_take, (State.keeps_iff.1 h).1]
  · intro c; simpa [State.core, State.take_cores] using h.2.1 c
  · intro c; simpa [State.tile, State.take_cores] using h.2.2 c
theorem State.Keeps.takes {l : List DVal} : ∀ {s t : State}, s.Keeps t → (l.foldl State.take s).Keeps (l.foldl State.take t) := by
  induction l with
  | nil => intro s t h; exact h
  | cons x l ih => intro s t h; exact ih (h.take x)

/-- A state with its results in flight and its next identity set aside. -/
def State.still (s : State) (n : Nat) : State := { s with nextId := n, cur := { s.cur with deferred := [] } }
theorem State.still_take (s : State) (n : Nat) (x : DVal) : (s.still n).take x = (s.take x).still n := by
  cases x with
  | vec r m v k =>
    have h1 : (s.still n).cur.row r = s.cur.row r := rfl
    have h2 : (s.still n).rawV r = s.rawV r := by rw [State.rawV, State.rawV, h1]; rfl
    rw [State.take, State.take, h1, h2, show (s.still n).vrf = s.vrf from rfl]
    simp only [State.still]
  | uni r v k => rw [State.take, State.take]; rfl
  | prd r m v k =>
    by_cases h : r = 0
    · rw [State.take, if_pos h, State.take, if_pos h]
    · rw [State.take, if_neg h, State.take, if_neg h]; rfl
theorem State.still_takes (n : Nat) (l : List DVal) : ∀ s : State, l.foldl State.take (s.still n) = (l.foldl State.take s).still n := by
  induction l with
  | nil => intro s; rfl
  | cons x l ih => intro s; rw [List.foldl_cons, List.foldl_cons, State.still_take, ih]

/-- R15: a settle of one result that has returned writes it. -/
theorem State.settle_takes {f : State} {id : Nat} {vals : List DVal} (hp : ∀ x ∈ vals, x.plain = true) (hv : f.cur.poisonV = [])
    (hs : f.cur.poisonS = 0) (hd : f.cur.deferred = [⟨id, vals, 0, 0, true⟩]) :
    f.settle = { vals.foldl State.take f with oracle := (vals.foldl State.take f).oracle + 1, cur := { (vals.foldl State.take f).cur with deferred := [] } } := by
  have hl := State.landVals_take id vals hp hv hs
  unfold State.settle
  rw [hd]
  simp only [List.isEmpty_cons, Bool.false_eq_true, if_false, List.all_cons, List.all_nil, Bool.and_true, BEq.rfl, if_true, State.landWhere, hd,
    List.filter_cons, List.filter_nil, List.foldl_cons, List.foldl_nil, State.land, Bool.not_true]
  generalize vals.foldl (fun a x => a.1.landVal id a.2 x) (f, f.cur) = r at hl ⊢
  rw [← hl]
  have : r.2.fpx ||| 0#5 = r.2.fpx := by simp
  simp [this]

/-- R303: the record of non-replayable instructions. -/
def State.mark (s : State) (b : Bool) : State := { s with cur := { s.cur with dirty := s.cur.dirty || b } }
theorem State.mark_false (s : State) : s.mark false = s := by
  have : s.cur = { s.cur with dirty := s.cur.dirty || false } := by simp
  rw [State.mark, ← this]
theorem State.Keeps.mark {s t : State} (h : s.Keeps t) (b : Bool) : (s.mark b).Keeps (t.mark b) := by
  obtain ⟨h1, h2, h3⟩ := State.keeps_iff.1 h
  refine State.keeps_iff.2 ⟨?_, h2, h3⟩
  have h4 : ∀ x : State, (x.mark b).bare = x.bare.mark b := fun x => rfl
  rw [h4, h4, h1]
theorem State.charge_quiet {s : State} {m : Meta} (hr : m.nonreplay = false) :
    s.Keeps { s.charge m with cur := { (s.charge m).cur with dirty := (s.charge m).cur.dirty || m.nonreplay } } := by
  have := State.charge_keeps s m
  rw [← State.mark_false (s.charge m)] at this
  rw [hr]; exact this

/-- The effect u of an instruction and the result it returns. -/
theorem issue_returns {m : Meta} {s u w : State} (h : s.Ready) (hi : s.illegal m = none) (hn : m.insn = false ∨ s.cur.txg = false)
    {body : State → Eff} {vals : List DVal} (hb : body (s.charge m) = .done (if vals = [] then w else w.defer vals 0 0 true))
    (hp : ∀ x ∈ vals, x.plain = true) (hw : u.Keeps { w with cur := { w.cur with dirty := w.cur.dirty || m.nonreplay } })
    (hpc : w.cur.pc = s.cur.pc) (hlp : w.cur.loop = s.cur.loop) (hl : w.cur.slotLen = 0) (hr : w.cur.recipe = none)
    (hd : w.cur.deferred = []) (hv : w.cur.poisonV = []) (hs : w.cur.poisonS = 0) :
    ∃ t, issue m s body = .next t ∧ s.Returns u t m.len m.settle vals := by
  have hg : ∀ x : State, x.cur.pc = w.cur.pc → x.cur.loop = w.cur.loop → x.cur.follow m.len = s.cur.follow m.len := by
    intro x h1 h2; simp [Ctx.follow, h1, h2, hpc, hlp]
  have hb1 := (State.keeps_iff.1 hw).1
  have hid : w.nextId = u.nextId := by have e := congrArg State.nextId hb1; exact e
  have hmem : ∀ {t : State}, t.grans = w.grans → t.hbm = w.hbm → t.sp = w.sp → t.acc = w.acc → t.planes = w.planes → t.host = w.host → u.SameBytes t := by
    intro t h1 h2 h3 h4 h5 h6
    refine State.sameBytes_of ?_ ?_ ?_ ?_ ?_ ?_
    · rw [h1]; have e := congrArg State.grans hb1; exact e
    · rw [h2]; have e := congrArg State.hbm hb1; exact e
    · rw [h3]; have e := congrArg State.sp hb1; exact e
    · rw [h4]; have e := congrArg State.acc hb1; exact e
    · rw [h5]; have e := congrArg State.planes hb1; exact e
    · rw [h6]; have e := congrArg State.host hb1; exact e
  by_cases he : vals = []
  · subst he
    have hk : u.Keeps (w.finish m.len m.nonreplay none) :=
      hw.trans (by refine ⟨?_, fun _ => rfl, fun _ => rfl⟩; simp only [State.finish, Ctx.aside])
    refine ⟨w.finish m.len m.nonreplay none, ?_, ?_⟩
    · rw [issue_open h hi hn, hb, if_pos rfl, Eff.close_done_quiet hr hl hd]
    · have hf : (w.finish m.len m.nonreplay none).cur.deferred = [] := hd
      have hst := State.settle_none hf
      refine ⟨by rw [hf]; simp, by simp only [if_true]; exact hid, ?_, ?_, ?_, rfl, hmem rfl rfl rfl rfl rfl rfl⟩
      · intro _
        have e : ({ w.finish m.len m.nonreplay none with nextId := u.nextId, cur := { (w.finish m.len m.nonreplay none).cur with deferred := [] } } : State) =
            w.finish m.len m.nonreplay none := by
          rw [← hid, ← hf]; rfl
        rw [e]; exact hk
      · rw [hst]
        have e : ({ ([] : List DVal).foldl State.take u with nextId := (w.finish m.len m.nonreplay none).nextId } : State) = u := by
          rw [show (w.finish m.len m.nonreplay none).nextId = u.nextId from hid]; rfl
        rw [e]; exact hk
      · exact ⟨congrArg Prod.fst (hg w rfl rfl), congrArg Prod.snd (hg w rfl rfl)⟩
  · have hf : (w.defer vals 0 0 true).cur.deferred = [⟨u.nextId, vals, 0, 0, true⟩] := by
      simp [State.defer, hd, contestNew_nil, hid]
    let f := (w.defer vals 0 0 true).finish m.len m.nonreplay none
    have hff : f.cur.deferred = [⟨u.nextId, vals, 0, 0, true⟩] := hf
    have hset := State.settle_takes (f := f) hp hv hs hff
    have hclose : (Eff.done (w.defer vals 0 0 true)).close m = if m.settle then f.settle else f :=
      Eff.close_done hr hl
    have hbef : u.Keeps { f with nextId := u.nextId, cur := { f.cur with deferred := [] } } := by
      refine hw.trans ⟨?_, fun _ => rfl, fun _ => rfl⟩
      simp only [f, State.finish, Ctx.aside, State.defer, ← hid, ← hd]
    have hnx : f.nextId = u.nextId + 1 := by rw [← hid]; rfl
    have hns : f.settle.nextId = f.nextId := by
      rw [hset]
      have e := congrArg State.nextId (State.still_takes f.nextId vals f)
      have e2 : ∀ (l : List DVal) (x : State), (l.foldl State.take x).nextId = x.nextId := by
        intro l
        induction l with
        | nil => intro x; rfl
        | cons y l ih => intro x; rw [List.foldl_cons, ih, State.take_nextId]
      exact e2 vals f
    have haft : ({ vals.foldl State.take u with nextId := f.settle.nextId } : State).Keeps f.settle := by
      have h1 := hbef.takes (l := vals)
      rw [show ({ f with nextId := u.nextId, cur := { f.cur with deferred := [] } } : State) = f.still u.nextId from rfl, State.still_takes] at h1
      have h2 := State.keeps_iff.1 h1
      have e : ∀ x : State, x.nextId = f.nextId → x = { (vals.foldl State.take f).still u.nextId with nextId := f.nextId, oracle := x.oracle } →
          ({ vals.foldl State.take u with nextId := x.nextId } : State).Keeps x := by
        intro x hx hy
        refine ⟨?_, ?_, ?_⟩
        · have h3 := congrArg (fun z : State => ({ z with nextId := f.nextId } : State)) h2.1
          rw [hx]
          refine Eq.trans ?_ h3
          rw [hy]; rfl
        · intro c; rw [hy]; exact h2.2.1 c
        · intro c; rw [hy]; exact h2.2.2 c
      refine e _ hns ?_
      have e3 : (vals.foldl State.take f).nextId = f.nextId := by rw [← hns, hset]
      rw [hset, State.still, ← e3]
    refine ⟨if m.settle then f.settle else f, by rw [issue_open h hi hn, hb, if_neg he, hclose], ?_⟩
    have hfs : f.settle.cur.deferred = [] := by rw [hset]
    have hss : f.settle.settle = f.settle := State.settle_none hfs
    have hgo : s.GoesOn f m.len := ⟨congrArg Prod.fst (hg _ rfl rfl), congrArg Prod.snd (hg _ rfl rfl)⟩
    have ht : ∀ (l : List DVal) (x : State), (l.foldl State.take x).cur.pc = x.cur.pc ∧ (l.foldl State.take x).cur.loop = x.cur.loop ∧
        (l.foldl State.take x).cur.park = x.cur.park ∧ (l.foldl State.take x).grans = x.grans ∧ (l.foldl State.take x).hbm = x.hbm ∧
        (l.foldl State.take x).sp = x.sp ∧ (l.foldl State.take x).acc = x.acc ∧ (l.foldl State.take x).planes = x.planes ∧
        (l.foldl State.take x).host = x.host := by
      intro l
      induction l with
      | nil => intro x; exact ⟨rfl, rfl, rfl, rfl, rfl, rfl, rfl, rfl, rfl⟩
      | cons y l ih =>
        intro x
        rw [List.foldl_cons]
        have h1 := ih (x.take y)
        have h2 := State.take_rest x y
        simp only [h1, h2, and_self]
    have htf := ht vals f
    cases hm : m.settle with
    | false =>
      simp only [Bool.false_eq_true, if_false]
      rw [hns] at haft
      refine ⟨?_, ?_, fun _ => hbef, haft, hgo, rfl, hmem rfl rfl rfl rfl rfl rfl⟩
      · rw [if_neg (by simp [he])]; exact hff
      · rw [if_neg he]; exact hnx
    | true =>
      simp only [if_true]
      refine ⟨?_, ?_, fun hc => by simp at hc, by rw [hss]; exact haft, ?_, ?_, ?_⟩
      · rw [if_pos (.inl rfl)]; exact hfs
      · rw [if_neg he, hns]; exact hnx
      · rw [hset]; exact ⟨htf.1.trans hgo.1, htf.2.1.trans hgo.2⟩
      · rw [hset]; exact htf.2.2.1
      · rw [hset]
        obtain ⟨-, -, -, h1, h2, h3, h4, h5, h6⟩ := htf
        exact hmem h1 h2 h3 h4 h5 h6

end Sys2Proof.Machine
end

