-- ==== Sys2Proof/Laws/Access.lean ====
section
/-!
SUPPORT. Loads and stores: the lanes' addresses, the result of a load, and the bytes of a store.
-/

namespace Sys2Proof.Machine

/-! ## Addresses -/

theorem charge_laneAddrs {s : State} (h : s.Ready) (c : Meta) (m : Mask) (base : W64) (a : Nat) :
    (s.charge c).laneAddrs m base a = (maskLanes m).map fun k => (k, s.laneAddr base a k) := by
  have hr : (s.charge c).readV a = s.rawV a := by rw [State.readV_eq (by simp [h.written]), State.charge_rawV]
  simp only [State.laneAddrs, hr, State.laneAddr, State.charge_cur_addrOff]

/-- R97: scratchpad lanes that all pass. -/
theorem State.withSp_ok {s : State} {n : Nat} {m : Mask} {off : Nat → Nat} (h : ∀ k < 256, m.getLsbD k → s.spFits n (off k)) (k : State → List LaneOk → Eff) :
    s.withSp n ((maskLanes m).map fun i => (i, off i)) k =
      k s ((maskLanes m).map fun i => ⟨i, off i, { loc := s.spPlace (off i), home := 0 }⟩) := by
  have hc : ∀ i ∈ maskLanes m, s.spCheck n i (off i) = .ok ⟨i, off i, { loc := s.spPlace (off i), home := 0 }⟩ := by
    intro i hi
    obtain ⟨h1, h2⟩ := mem_maskLanes.1 hi
    obtain ⟨h3, h4⟩ := h i h1 h2
    simp only [State.spCheck, h3, ne_eq, not_true_eq_false, if_false]
    rw [if_neg (by omega)]
    rfl
  have e : ((maskLanes m).map fun i => (i, off i)).map (fun p => s.spCheck n p.1 p.2) =
      (maskLanes m).map fun i => .ok ⟨i, off i, { loc := s.spPlace (off i), home := 0 }⟩ := by
    rw [List.map_map]; exact List.map_congr_left hc
  unfold State.withSp
  simp only [e]
  rw [List.filterMap_map, List.filterMap_map]
  refine (if_pos (List.isEmpty_iff.2 (List.filterMap_eq_nil_iff.2 fun i _ => rfl))).trans (congrArg (k s) ?_)
  rw [← List.filterMap_eq_map]
  rfl

/-! ## The result of a load -/

theorem bytesNat_lt : ∀ l : List Byte, bytesNat l < 256 ^ l.length
  | [] => by simp [bytesNat]
  | b :: t => by
    have h1 := bytesNat_lt t
    have h2 := b.isLt
    simp only [bytesNat, List.length_cons, Nat.pow_succ]
    omega

theorem State.readBytes_length (s : State) (l : Loc) (n : Nat) : (s.readBytes l n).length = n := by simp [State.readBytes]
theorem State.readBytes_drop_take (s : State) (l : Loc) (n k : Nat) (h : 4 * k + 4 ≤ n) :
    ((s.readBytes l n).drop (4 * k)).take 4 = s.readBytes ⟨l.tt, l.addr + 4 * k⟩ 4 := by
  apply List.ext_getElem
  · simp [State.readBytes]; omega
  · intro i h1 h2
    simp [State.readBytes, Nat.add_assoc]

/-- Table 03-1: the r-th register of the bytes at a place. -/
theorem State.regWord_readBytes (s : State) (signed : Bool) (n r : Nat) (l : Loc) (hn : n = 1 ∨ n = 2 ∨ n = 4 ∨ n = 8 ∨ n = 16) (hr : r < regsOf n) :
    regWord signed (s.readBytes l n) r = s.loaded signed n l r := by
  unfold regWord State.loaded
  rw [State.readBytes_length]
  by_cases h4 : n < 4
  · rw [if_pos h4, if_pos h4]
    by_cases hs : signed = true
    · rw [if_pos hs, if_pos hs]
      rw [State.readNum]
      generalize bytesNat (s.readBytes l n) = x
      apply BitVec.eq_of_toInt_eq
      rw [BitVec.toInt_signExtend, BitVec.toInt_ofInt, BitVec.toInt_eq_toNat_cond, BitVec.toNat_ofNat, signedNat]
      rcases (show n = 1 ∨ n = 2 by omega) with rfl | rfl
      · norm_num [Int.bmod_def]; omega
      · norm_num [Int.bmod_def]; omega
    · rw [if_neg hs, if_neg hs, State.readNum]
  · rw [if_neg h4, if_neg h4, State.readBytes_drop_take _ _ _ _ (by unfold regsOf at hr; rcases hn with h | h | h | h | h <;> omega), State.readNum]

theorem widthRegs_eq {n : Nat} (hn : n = 1 ∨ n = 2 ∨ n = 4 ∨ n = 8 ∨ n = 16) : widthRegs n = regsOf n := by
  rcases hn with rfl | rfl | rfl | rfl | rfl <;> rfl

/-- The lanes and bytes of a load, as its deferred result. -/
theorem loadVals_result (signed : Bool) (n d : Nat) (m : Mask) (f : Nat → List Byte) (v : Nat → Nat → W32)
    (hn : n = 1 ∨ n = 2 ∨ n = 4 ∨ n = 8 ∨ n = 16) (hv : ∀ r < regsOf n, ∀ k < 256, m.getLsbD k → regWord signed (f k) r = v r k) :
    LoadResult n d m v (if m = 0 then [] else loadVals signed n d
      (ofBits fun i => ((maskLanes m).map fun k => (k, f k)).any fun p => p.1 == i) ((maskLanes m).map fun k => (k, f k))) := by
  refine ⟨fun h => if_pos h, fun h => ?_⟩
  rw [if_neg h]
  have hm : (ofBits fun i => ((maskLanes m).map fun k => (k, f k)).any fun p => p.1 == i) = m := by
    apply BitVec.eq_of_getLsbD_eq
    intro i hi
    rw [getLsbD_ofBits _ hi, Bool.eq_iff_iff, List.any_eq_true]
    constructor
    · rintro ⟨p, hp, hpi⟩
      obtain ⟨k, hk, rfl⟩ := List.mem_map.1 hp
      have : k = i := by simpa using hpi
      exact this ▸ (mem_maskLanes.1 hk).2
    · intro hb
      exact ⟨(i, f i), List.mem_map.2 ⟨i, mem_maskLanes.2 ⟨hi, hb⟩, rfl⟩, by simp⟩
  rw [hm]
  refine ⟨fun r => ofLanes fun i => match ((maskLanes m).map fun k => (k, f k)).find? fun p => p.1 == i with
      | some p => regWord signed p.2 r
      | none => 0, ?_, ?_⟩
  · unfold loadVals; rw [widthRegs_eq hn]; try rfl
  · intro r hr k hk hb
    rw [laneOf_ofLanes _ hk, ← hv r hr k hk hb]
    have : ((maskLanes m).map fun k => (k, f k)).find? (fun p => p.1 == k) = some (k, f k) := by
      rw [List.find?_map]
      have h1 : (maskLanes m).find? ((fun p : Nat × List Byte => p.1 == k) ∘ fun k => (k, f k)) = some k := by
        rw [List.find?_eq_some_iff_append]
        have hmem := mem_maskLanes.2 ⟨hk, hb⟩
        obtain ⟨a, b, hab⟩ := List.append_of_mem hmem
        refine ⟨by simp, a, b, hab, ?_⟩
        intro x hx
        have hnd : (maskLanes m).Nodup := by unfold maskLanes lanes; exact List.Nodup.filter _ List.nodup_range
        rw [hab] at hnd
        have := List.nodup_append.1 hnd
        simp only [Function.comp]
        have hne := this.2.2 x hx k (by simp)
        simpa using hne
      rw [h1]; rfl
    rw [this]

theorem loadVals_plain (signed : Bool) (n d : Nat) (m : Mask) (bs : List (Nat × List Byte)) : ∀ x ∈ loadVals signed n d m bs, x.plain = true := by
  intro x hx
  obtain ⟨k, -, rfl⟩ := List.mem_map.1 hx
  rfl

theorem maskLanes_zero : maskLanes (0 : Mask) = [] := by
  unfold maskLanes lanes
  rw [List.filter_eq_nil_iff]
  intro x _
  change ¬ BitVec.getLsbD 0#256 x = true
  simp
theorem maskLanes_ne {m : Mask} (h : m ≠ 0) : maskLanes m ≠ [] := by
  intro hc
  apply h
  apply BitVec.eq_of_getLsbD_eq
  intro j hj
  by_contra hx
  have : j ∈ maskLanes m := mem_maskLanes.2 ⟨hj, by simpa using hx⟩
  rw [hc] at this
  simp at this

/-- R86: a load from scratchpad when nothing is in flight. -/
theorem issue_spLoad {s : State} (h : s.GroupReady) (hp : s.packets = []) (hpo : s.poison = []) (c : Meta) (hc : s.illegal c = none)
    (hi : c.insn = false) (hr : c.nonreplay = false) (signed : Bool) (n d a : Nat) (m : Mask) (base : W64)
    (hn : n = 1 ∨ n = 2 ∨ n = 4 ∨ n = 8 ∨ n = 16) (hl : ∀ k < 256, m.getLsbD k → s.spFits n (s.laneAddr base a k)) (body : State → Eff)
    (hb : body (s.charge c) = (s.charge c).spLoad signed n d m base a) :
    ∃ t vals, issue c s body = .next t ∧ s.Returns s t c.len c.settle vals ∧
      LoadResult n d m (fun r k => s.loaded signed n (s.spPlace (s.laneAddr base a k)) r) vals := by
  have hR := loadVals_result signed n d m (fun k => s.readBytes (s.spPlace (s.laneAddr base a k)) n) (fun r k => s.loaded signed n (s.spPlace (s.laneAddr base a k)) r) hn
    (fun r hr k _ _ => State.regWord_readBytes _ _ _ _ _ hn hr)
  generalize hvals : (if m = 0 then [] else _) = vals at hR
  suffices key : ∃ t, issue c s body = .next t ∧ s.Returns s t c.len c.settle vals by
    obtain ⟨t, h1, h2⟩ := key
    exact ⟨t, vals, h1, h2, hR⟩
  refine issue_returns (u := s) (w := s.charge c) (vals := vals) h.1 hc (.inl hi) (body := body) ?_ ?_ ?_ (by simp) (by simp) (by simp [h.1.word]) (by simp [h.1.recipe]) (by simp [h.1.written]) (by simp [h.1.poisonV]) (by simp [h.1.poisonS])
  · rw [hb, State.spLoad, charge_laneAddrs h.1, State.withSp_ok (s := s.charge c) (off := s.laneAddr base a) (fun k hk hm => by have := hl k hk hm; simpa [State.spFits, State.block] using this)]
    have e1 : ∀ f, (s.charge c).flush f = s.charge c := by intro f; simp [State.flush, hp]
    have e2 : ∀ l k, (s.charge c).poisonedLanes l k = [] := by intro l k; simp [State.poisonedLanes, hpo]
    have e0 : ∀ f, (s.charge c).packets.any f = false := by intro f; simp [hp]
    simp only [e1, e0, e2, List.isEmpty_nil, Bool.not_true, Bool.false_eq_true, if_false]
    have e3 : ∀ l : Loc, (s.charge c).seeByte false l = s.readByte l := by
      intro l; simp [State.seeByte, hp]
      rw [State.charge_eq]; rfl
    simp only [e3, List.map_map]
    have e4 : ((maskLanes m).map ((fun l : LaneOk => (l.lane, (List.range n).map fun i => s.readByte ⟨1, l.x.loc.addr + i⟩)) ∘ fun i => ⟨i, s.laneAddr base a i, { loc := (s.charge c).spPlace (s.laneAddr base a i), home := 0 }⟩)) =
       (maskLanes m).map fun k => (k, s.readBytes (s.spPlace (s.laneAddr base a k)) n) := by
      refine List.map_congr_left fun k _ => ?_
      simp [State.readBytes, State.spPlace, State.block]
    rw [e4]
    unfold State.deferLoad
    by_cases hm : m = 0
    · have : maskLanes m = [] := by rw [hm]; unfold maskLanes lanes; rw [List.filter_eq_nil_iff]; intro x _; change ¬ BitVec.getLsbD 0#256 x = true; simp
      rw [if_pos hm] at hvals
      simp [this, ← hvals]
    · have : ∃ k, k ∈ maskLanes m := by
        by_contra hcon
        apply hm
        apply BitVec.eq_of_getLsbD_eq; intro j hj
        by_contra hx
        exact hcon ⟨j, mem_maskLanes.2 ⟨hj, by simpa using hx⟩⟩
      obtain ⟨k, hk⟩ := this
      rw [if_neg hm] at hvals
      have hne : ((maskLanes m).map fun k => (k, s.readBytes (s.spPlace (s.laneAddr base a k)) n)).isEmpty = false := by
        rw [List.isEmpty_eq_false_iff]; intro hc; rw [List.map_eq_nil_iff] at hc; rw [hc] at hk; simp at hk
      rw [hne, hvals]
      have : vals ≠ [] := by
        rw [← hvals]; unfold loadVals; rw [widthRegs_eq hn]; simp [regsOf]
      rw [if_neg this]; rfl
  · rw [← hvals]; split
    · simp
    · exact loadVals_plain _ _ _ _ _
  · exact State.charge_quiet hr

/-! ## The bytes of a store -/

theorem natBytes_getElem : ∀ (n w j : Nat) (h : j < (natBytes n w).length), (natBytes n w)[j] = BitVec.ofNat 8 (w / 256 ^ j)
  | 0, w, j, h => by simp [natBytes] at h
  | n + 1, w, 0, h => by simp [natBytes]
  | n + 1, w, j + 1, h => by
    simp only [natBytes, List.getElem_cons_succ]
    rw [natBytes_getElem n (w / 256) j (by simpa [natBytes] using h), Nat.div_div_eq_div_mul, Nat.pow_succ']

/-- Table 03-1: the bytes a lane stores. -/
theorem storeBytes_eq {s : State} (hd : s.cur.deferred = []) (n d k : Nat) (hn : n = 1 ∨ n = 2 ∨ n = 4 ∨ n = 8 ∨ n = 16) :
    s.storeBytes n d k = (List.range n).map fun j => s.dataByte d k j := by
  apply List.ext_getElem
  · simp [State.storeBytes]
  · intro j h1 h2
    have hj : j < n := by simpa using h2
    have hreg : j / 4 < widthRegs n := by rw [widthRegs_eq hn, regsOf]; rcases hn with h | h | h | h | h <;> omega
    simp only [State.storeBytes, natBytes_getElem, List.getElem_map, List.getElem_range, State.dataByte]
    rw [← State.readV_eq hd]
    have hf := packNat_field 32 (fun r => (laneOf (s.readV (d + r)) k).toNat) (widthRegs n) (j / 4) hreg
    apply BitVec.eq_of_toNat_eq
    rw [BitVec.toNat_ofNat, BitVec.extractLsb'_toNat]
    have hx : (laneOf (s.readV (d + j / 4)) k).toNat = (packNat 32 (fun r => (laneOf (s.readV (d + r)) k).toNat) (widthRegs n)) / 2 ^ (32 * (j / 4)) % 2 ^ 32 := by
      rw [hf]; exact (Nat.mod_eq_of_lt (laneOf (s.readV (d + j / 4)) k).isLt).symm
    rw [hx]
    generalize packNat 32 _ _ = p
    rw [Nat.shiftRight_eq_div_pow, show (256 : Nat) ^ j = 2 ^ (32 * (j / 4) + 8 * (j % 4)) by rw [show (256 : Nat) = 2 ^ 8 from rfl, ← Nat.pow_mul]; congr 1; omega,
      Nat.pow_add, ← Nat.div_div_eq_div_mul]
    generalize p / 2 ^ (32 * (j / 4)) = q
    have h3 : j % 4 < 4 := Nat.mod_lt _ (by decide)
    generalize j % 4 = r at *
    interval_cases r <;> omega

theorem cellsFrom_map (l : Loc) (n : Nat) (f : Nat → Byte) :
    cellsFrom l ((List.range n).map f) = (List.range n).map fun j => (⟨l.tt, l.addr + j⟩, f j) := by
  unfold cellsFrom
  apply List.ext_getElem <;> simp

theorem State.readByte_sp (s : State) (m : Mem) (l : Loc) :
    ({ s with sp := m } : State).readByte l = if l.tt = 1 then Mem.byte m l.addr else s.readByte l := by
  by_cases h : l.tt = 1
  · simp [State.readByte, h]
  · rw [if_neg h]
    unfold State.readByte
    split <;> first | rfl | contradiction

/-- R85: writes of memory bytes in order. -/
theorem State.writeAll_stored : ∀ (cells : List (Loc × Byte)) (s : State), (∀ c ∈ cells, c.1.tt = 1) →
    s.writeAll cells = { s with sp := (s.writeAll cells).sp } ∧ s.Stored (s.writeAll cells) cells
  | [], s, _ => ⟨rfl, by simp, fun _ _ => rfl⟩
  | (l, b) :: t, s, h => by
    have hl : l.tt = 1 := h (l, b) (List.mem_cons_self ..)
    obtain ⟨h1, h2⟩ := State.writeAll_stored t (s.writeByte l b) fun c hc => h c (List.mem_cons_of_mem _ hc)
    have hw : s.writeByte l b = { s with sp := Mem.setByte s.sp l.addr b } := by simp [State.writeByte, hl]
    refine ⟨?_, ?_, ?_⟩
    · rw [State.writeAll, h1, hw]
    · intro l' b' hb
      by_cases he : (t.filter fun c => c.1 == l') = []
      · rw [List.filter_cons] at hb
        split at hb
        · rename_i hll
          have hll : l = l' := by simpa using hll
          subst hll
          rw [he] at hb
          have hbb : b = b' := by simpa using hb
          subst hbb
          rw [State.writeAll, h2.others l (by
            intro c hc hcl
            have : c ∈ t.filter fun c => c.1 == l := List.mem_filter.2 ⟨hc, by simpa using hcl⟩
            rw [he] at this; simp at this), hw, State.readByte_sp, if_pos hl, Mem.byte_setByte, if_pos rfl]
        · rw [he] at hb; simp at hb
      · refine h2.last l' b' ?_
        rw [List.filter_cons] at hb
        split at hb
        · rw [List.getLast?_cons, List.getLast?_eq_some_getLast he] at hb
          rw [List.getLast?_eq_some_getLast he]
          simpa only [Option.getD_some] using hb
        · exact hb
    · intro l' hl'
      rw [State.writeAll, h2.others l' fun c hc => hl' c (List.mem_cons_of_mem _ hc), hw]
      have hne := hl' (l, b) (List.mem_cons_self ..)
      rw [State.readByte_sp]
      split
      · rename_i h3
        have h4 : l'.addr ≠ l.addr := by
          intro hc
          apply hne
          have e1 : l = ⟨1, l.addr⟩ := by rw [← hl]
          have e2 : l' = ⟨1, l'.addr⟩ := by rw [← h3]
          change l = l'
          rw [e1, e2, hc]
        rw [Mem.byte_setByte, if_neg h4]
        simp [State.readByte, h3]
      · rfl

/-- R86: a store to scratchpad when nothing is in flight. -/
theorem storeSp_stored {s : State} (h : s.GroupReady) (hp : s.packets = []) (hpo : s.poison = []) (sm : Bool) (g : BitVec 3) (d a b : BitVec 6)
    {n : Nat} (hv : s.hasV [d.toNat + regsOf n - 1, a.toNat]) (hn : n = 1 ∨ n = 2 ∨ n = 4 ∨ n = 8 ∨ n = 16)
    (hl : ∀ k < 256, (s.act g).getLsbD k → s.spFits n (s.laneAddr (s.rawS b.toNat) a.toNat k)) :
    ∃ t u, storeSp n sm g d a b s = .next t ∧ s.Returns u t 4 sm [] ∧ u = { s with sp := u.sp } ∧
      s.Stored t (s.storeCells n d.toNat (s.act g) fun k => s.spPlace (s.laneAddr (s.rawS b.toNat) a.toNat k)) := by
  rw [storeSp]
  let c := memMeta sm g d.toNat n a.toNat [b.toNat] true
  let w := s.charge c
  let cells := s.storeCells n d.toNat (s.act g) fun k => s.spPlace (s.laneAddr (s.rawS b.toNat) a.toNat k)
  have htt : ∀ x ∈ cells, x.1.tt = 1 := by
    intro x hx
    simp only [cells, State.storeCells, List.mem_flatMap, List.mem_map] at hx
    obtain ⟨k, -, j, -, rfl⟩ := hx; rfl
  obtain ⟨e1, e2⟩ := State.writeAll_stored cells s htt
  obtain ⟨e3, e4⟩ := State.writeAll_stored cells w htt
  have e5 : (w.writeAll cells).sp = (s.writeAll cells).sp := by
    have : ∀ (l : List (Loc × Byte)) (x y : State), (∀ c ∈ l, c.1.tt = 1) → x.sp = y.sp → (x.writeAll l).sp = (y.writeAll l).sp := by
      intro l
      induction l with
      | nil => intro x y _ h; exact h
      | cons p l ih =>
        intro x y hl hxy
        obtain ⟨q, r⟩ := p
        have hq : q.tt = 1 := hl (q, r) (List.mem_cons_self ..)
        refine ih _ _ (fun c hc => hl c (List.mem_cons_of_mem _ hc)) ?_
        simp [State.writeByte, hq, hxy]
    exact this _ _ _ htt (by simp [w])
  have key : ∃ t, issue c s (fun t => t.spStore n d.toNat (t.act g) (t.readS b.toNat) a.toNat) = .next t ∧ s.Returns (s.writeAll cells) t 4 sm [] := by
    refine issue_returns (m := c) (u := s.writeAll cells) (w := w.writeAll cells) (vals := []) h.1
      (illegal_lane h (by simp only [c]; rw [memMeta, widthRegs_eq hn]; exact topReg_le hv) (Nat.zero_le _) (.inl rfl) rfl) (.inl rfl) ?_ (by simp) ?_ (by rw [e3]; simp [w]) (by rw [e3]; simp [w]) (by rw [e3]; simp [w, h.1.word]) (by rw [e3]; simp [w, h.1.recipe]) (by rw [e3]; simp [w, h.1.written]) (by rw [e3]; simp [w, h.1.poisonV]) (by rw [e3]; simp [w, h.1.poisonS])
    · simp only [charge_act h, ← ready_act h, charge_readS h.1]
      rw [State.spStore, charge_laneAddrs h.1, State.withSp_ok (s := s.charge c) (off := s.laneAddr (s.rawS b.toNat) a.toNat) (fun k hk hm => by have := hl k hk hm; simpa [State.spFits, State.block] using this)]
      rw [State.whenOrdered]
      have f1 : ∀ f, (s.charge c).flush f = s.charge c := by intro f; simp [State.flush, hp]
      simp only [f1]
      simp only [State.charge_packets, hp, List.any_nil, Bool.false_eq_true, if_false]
      have f2 : ((maskLanes (s.act g)).map fun i => (⟨i, s.laneAddr (s.rawS b.toNat) a.toNat i, { loc := (s.charge c).spPlace (s.laneAddr (s.rawS b.toNat) a.toNat i), home := 0 }⟩ : LaneOk)).flatMap
          (fun l => cellsFrom l.x.loc ((s.charge c).storeBytes n d.toNat l.lane)) = cells := by
        rw [List.flatMap_map]
        refine List.flatMap_congr fun k _ => ?_
        rw [storeBytes_eq (by simp [h.1.written]) _ _ _ hn, cellsFrom_map]
        simp [State.spPlace, State.block, State.dataByte]
      rw [f2]
      have f3 : ∀ x : State, ∀ l, x.poison = [] → x.clearPoison l = x := by intro x l hx; simp [State.clearPoison, hx]
      rw [f3 _ _ (by change (w.writeAll cells).poison = []; rw [e3]; simp [w, hpo])]
      rfl
    · have f4 := State.charge_quiet (s := s) (m := c) rfl
      rw [e1, e3, e5]
      obtain ⟨g1, g2, g3⟩ := State.keeps_iff.1 f4
      refine State.keeps_iff.2 ⟨?_, g2, g3⟩
      have := congrArg (fun z : State => ({ z with sp := (s.writeAll cells).sp } : State)) g1
      exact this
  obtain ⟨t, k1, k2⟩ := key
  refine ⟨t, s.writeAll cells, k1, k2, e1, ?_, ?_⟩
  · intro l b hb
    have := e2.last l b hb
    have hl1 : l.tt ≠ 2 := by
      have hm := List.mem_of_getLast? hb
      have := htt _ (List.mem_filter.1 hm).1
      simp only at this; omega
    rw [k2.bytes l hl1, this]
  · intro l hl
    by_cases hl2 : l.tt = 2
    · have hvrf : t.vrf = s.vrf := by
        have := congrArg State.vrf (State.keeps_iff.1 k2.after).1
        have hs : t.settle = t := State.settle_none (by rw [k2.flight]; simp)
        rw [hs] at this
        have e6 : (s.writeAll cells).vrf = s.vrf := by rw [e1]
        exact this.trans e6
      rw [State.readByte, State.readByte, hl2]
      simp only [hvrf]
    · rw [k2.bytes l hl2]; exact e2.others l hl

end Sys2Proof.Machine
end

