-- ==== Sys2Proof/Laws/Global.lean ====
section
/-!
SUPPORT. Translated accesses of lanes when nothing else acts on the memory they meet: what the checks, the translations, the L1 and the
requests leave, and that a load returns the bytes of memory.
-/

namespace Sys2Proof.Machine

/-! ## What translation and delivery read -/

theorem State.readByte_congr {s t : State} (hg : t.grans = s.grans) (hh : t.hbm = s.hbm) (hs : t.sp = s.sp) (hv : t.vrf = s.vrf)
    (ha : t.acc = s.acc) (hp : t.planes = s.planes) (ho : t.host = s.host) (l : Loc) : t.readByte l = s.readByte l := by
  unfold State.readByte State.unscrubbed State.gran
  rw [hg, hh, hs, hv, ha, hp, ho]

theorem State.readByte_same {s t : State} (h : (t.grans, t.hbm, t.sp, t.vrf, t.acc, t.planes, t.host) = (s.grans, s.hbm, s.sp, s.vrf, s.acc, s.planes, s.host))
    (l : Loc) : t.readByte l = s.readByte l := by
  simp only [Prod.mk.injEq] at h
  obtain ⟨hg, hh, hs, hv, ha, hp, ho⟩ := h
  exact State.readByte_congr hg hh hs hv ha hp ho l
theorem State.partNum_congr {s t : State} (h : ∀ l, t.readByte l = s.readByte l) (p : Part) (pa n : Nat) : t.partNum p pa n = s.partNum p pa n := by
  simp only [State.partNum, State.readNum, State.readBytes, h]
theorem State.walkFrom_congr {s t : State} (h : ∀ l, t.readByte l = s.readByte l) (p : Part) (va : Nat) :
    ∀ lvl node, t.walkFrom p va lvl node = s.walkFrom p va lvl node := by
  intro lvl
  induction lvl with
  | zero => intro node; unfold State.walkFrom; simp only [State.partNum_congr h]
  | succ n ih => intro node; unfold State.walkFrom; simp only [State.partNum_congr h, ih]
theorem State.walk_congr {s t : State} (h : ∀ l, t.readByte l = s.readByte l) (p : Part) (va : Nat) : t.walk p va = s.walk p va := by
  unfold State.walk; rw [State.walkFrom_congr h]
/-- With no cached translation of the partition, the walk alone decides. -/
theorem State.translate_walk {s : State} {tag : Nat} (ht : (s.part tag).tlb = []) (vf : Nat) (user : Bool) (acc : Acc) (va salt : Nat) :
    s.translate tag vf user acc va salt = if va / 2 ^ 57 ≠ 0 then .error (kNotPresent, 2) else match s.walk (s.part tag) va with
      | .fault k d => .error (k, d)
      | .leaf large e _ => s.useLeaf tag (s.part tag) vf user acc va large e := by
  have h1 : (if acc == .fetch then (s.walk (s.part tag) va, s.part tag) else s.leafFor (s.part tag) va salt) = (s.walk (s.part tag) va, s.part tag) := by
    simp [State.leafFor, ht]
  simp only [State.translate, h1]
  cases s.walk (s.part tag) va <;> rfl

theorem State.translate_congr {s t : State} (h : ∀ l, t.readByte l = s.readByte l) (hv : t.vfs = s.vfs) (tag : Nat) (hp : t.part tag = s.part tag)
    (ht : (s.part tag).tlb = []) (vf : Nat) (user : Bool) (acc : Acc) (va salt : Nat) :
    t.translate tag vf user acc va salt = s.translate tag vf user acc va salt := by
  rw [State.translate_walk (hp ▸ ht), State.translate_walk ht, hp, State.walk_congr h]
  have hc : ∀ a b c, t.carrier a b c = s.carrier a b c := by intro a b c; unfold State.carrier State.vf; rw [hv]
  have h2 : ∀ large e, t.useLeaf tag (s.part tag) vf user acc va large e = s.useLeaf tag (s.part tag) vf user acc va large e := by
    intro large e; unfold State.useLeaf; simp only [hc]
  simp only [h2]
theorem State.delivers_congr {s t : State} (hv : t.vfs = s.vfs) (hg : t.grans = s.grans) (hr : t.regions = s.regions)
    (ht : ∀ x, (t.tile x).owner = (s.tile x).owner) (hc : ∀ c, (t.core c).lost = (s.core c).lost) (a : Agent) (l : Loc) :
    t.delivers a l = s.delivers a l := by
  have ho : t.ownerAt l = s.ownerAt l := by
    unfold State.ownerAt State.gran; rw [hg]; split <;> first | rfl | rw [ht]
  have hcr : ∀ a b c, t.carrier a b c = s.carrier a b c := by intro a b c; unfold State.carrier State.vf; rw [hv]
  have hvf : ∀ v, t.vf v = s.vf v := by intro v; unfold State.vf; rw [hv]
  have hgr : ∀ v, t.gran v = s.gran v := by intro v; unfold State.gran; rw [hg]
  unfold State.delivers
  simp only [hcr, hvf, ho, hgr, hr, hc]

theorem charge_tile_owner (s : State) (m : Meta) (x : Nat) : ((s.charge m).tile x).owner = (s.tile x).owner := by
  have e := congrArg Tile.owner ((State.charge_keeps s m).2.2 x); exact e
theorem charge_core_lost (s : State) (m : Meta) (c : Nat) : ((s.charge m).core c).lost = (s.core c).lost := by
  have e := congrArg Core.lost ((State.charge_keeps s m).2.1 c); exact e
theorem charge_core_l1 (s : State) (m : Meta) (c : Nat) : ((s.charge m).core c).l1 = (s.core c).l1 := by
  have e := congrArg Core.l1 ((State.charge_keeps s m).2.1 c); exact e
theorem charge_readByte (s : State) (m : Meta) (l : Loc) : (s.charge m).readByte l = s.readByte l :=
  State.readByte_same (by simp) l
theorem charge_part (s : State) (m : Meta) (p : Nat) : (s.charge m).part p = s.part p := by simp [State.part]
theorem charge_launch (s : State) (m : Meta) (p : Nat) : (s.charge m).launch p = s.launch p := by simp [State.launch]
theorem charge_curTag (s : State) (m : Meta) : (s.charge m).curTag = s.curTag := by simp [State.curTag, State.launch]
theorem charge_curVf (s : State) (m : Meta) : (s.charge m).curVf = s.curVf := by simp [State.curVf, State.launch]
theorem charge_agent (s : State) (m : Meta) : (s.charge m).agent = s.agent := by
  simp only [State.agent, State.agentOf, State.charge_cur_launch, State.charge_cur_core, State.charge_cur_id, charge_tile_owner, charge_launch]
theorem charge_delivers (s : State) (m : Meta) (a : Agent) (l : Loc) : (s.charge m).delivers a l = s.delivers a l :=
  State.delivers_congr (by simp) (by simp) (by simp) (charge_tile_owner s m) (charge_core_lost s m) a l

/-- A page that no export entry of this device names does not stand here. -/
theorem State.standing_none {s : State} (h : s.exports = []) (tag : Nat) (w : Bool) (x : Xlat) : s.standing tag w x = x := by
  have hn : ∀ l h', s.remote l tag w ≠ .here h' := by
    intro l h'
    simp only [State.remote, State.atHome, h]
    split
    · split <;> simp_all [SMap.find]
    · split <;> simp
  unfold State.standing
  split
  · split
    · rename_i h' hh; exact absurd hh (hn _ _)
    · rfl
  · rfl
/-- What a leaf gives is no page of another partition. -/
theorem State.translate_via {s : State} {tag vf : Nat} {user : Bool} {acc : Acc} {va salt : Nat} {x : Xlat} (h : s.translate tag vf user acc va salt = .ok x) :
    x.via = 0 := by
  have hu : ∀ p large e, s.useLeaf tag p vf user acc va large e = .ok x → x.via = 0 := by
    intro p large e hx
    unfold State.useLeaf at hx
    have hs : ∀ (b : Prop) [Decidable b] (e : Nat × Nat) (r : Except (Nat × Nat) Xlat), (if b then .error e else r) = .ok x → r = .ok x := by
      intro b _ e r h; split at h
      · cases h
      · exact h
    have hx := hs _ _ _ (hs _ _ _ (hs _ _ _ hx))
    extract_lets tt t off pa sk core o loc at hx
    split at hx
    · cases hx
    · have hx := hs _ _ _ (hs _ _ _ (hs _ _ _ (hs _ _ _ (hs _ _ _ (hs _ _ _ (hs _ _ _ hx))))))
      cases hx; rfl
  unfold State.translate at h
  extract_lets p at h
  split at h
  · cases h
  · generalize (if acc == .fetch then (s.walk p va, p) else s.leafFor p va salt) = r at h
    split at h
    · cases h
    · exact hu _ _ _ h
/-- A lane that passes its checks for a place of this device names it by its own translation. -/
theorem State.checkLane_here {s : State} (he : s.exports = []) {acc : Acc} {n va salt : Nat} {x : Xlat} (h : s.checkLane acc n va salt = .ok x)
    (_ : x.loc.tt ≤ 5) : va % n = 0 ∧ s.translate s.curTag s.curVf (!s.cur.smode) acc va salt = .ok x := by
  unfold State.checkLane at h
  split at h
  · cases h
  · rename_i h0
    refine ⟨by simpa using h0, ?_⟩
    split at h
    · cases h
    · rename_i y hy
      have : y = x := by
        split at h
        · split at h
          · cases h
          · split at h
            · cases h
            · simpa [State.standing_none he] using h
        · simpa using h
      rw [hy, this]
theorem State.checkLane_via {s : State} (he : s.exports = []) {acc : Acc} {n va salt : Nat} {x : Xlat} (h : s.checkLane acc n va salt = .ok x)
    (hx : x.loc.tt ≤ 5) : x.via = 0 := State.translate_via (State.checkLane_here he h hx).2
/-- It still does so at the issue. -/
theorem charge_checkLane {s : State} (ht : (s.part s.curTag).tlb = []) (he : s.exports = []) (m : Meta) {acc : Acc} {n va salt : Nat} {x : Xlat}
    (h : s.checkLane acc n va salt = .ok x) (hx : x.loc.tt ≤ 5) : (s.charge m).checkLane acc n va salt = .ok x := by
  obtain ⟨h1, h2⟩ := State.checkLane_here he h hx
  unfold State.checkLane
  rw [if_neg (by simpa using h1), charge_curTag, charge_curVf, State.charge_cur_smode,
    State.translate_congr (charge_readByte s m) (by simp) s.curTag (charge_part s m _) ht, h2]
  simp only
  rw [if_neg (by omega)]

/-! ## Lanes that pass -/

theorem State.checkLanes_ok {s : State} {acc : Acc} {n : Nat} {va : Nat → Nat} {x : Nat → Xlat} (ls : List Nat)
    (h : ∀ k ∈ ls, s.checkLane acc n (va k) (Nat.pair 0 k) = .ok (x k)) :
    s.checkLanes acc n (ls.map fun k => (k, va k)) = ([], ls.map fun k => ⟨k, va k, x k⟩) := by
  induction ls with
  | nil => rfl
  | cons k t ih =>
    have h1 := ih fun j hj => h j (List.mem_cons_of_mem _ hj)
    unfold State.checkLanes at h1 ⊢
    rw [List.map_cons, List.foldr_cons, h1]
    simp only [h k (List.mem_cons_self ..), List.map_cons]

/-- R97: go on with the lanes, the translations cached. -/
theorem State.withLanes_ok {s : State} {acc : Acc} {n : Nat} {va : Nat → Nat} {x : Nat → Xlat} (ls : List Nat)
    (h : ∀ k ∈ ls, s.checkLane acc n (va k) (Nat.pair 0 k) = .ok (x k)) (h7 : ∀ k ∈ ls, (x k).loc.tt ≤ 5) (hk : s.locks = [])
    (k : State → List LaneOk → Eff) :
    s.withLanes acc n (ls.map fun k => (k, va k)) k = k (s.cachePages s.curTag (ls.map va)) (ls.map fun k => ⟨k, va k, x k⟩) := by
  unfold State.withLanes
  rw [State.checkLanes_ok ls h]
  simp only [hk, List.isEmpty_nil, Bool.not_true, Bool.false_and, Bool.false_eq_true, if_false, if_true, List.map_map]
  have : ((ls.map fun k => (⟨k, va k, x k⟩ : LaneOk)).any fun l => l.x.loc.tt == 7) = false := by
    rw [List.any_eq_false]
    intro l hl
    obtain ⟨j, hj, rfl⟩ := List.mem_map.1 hl
    have := h7 j hj
    simp; omega
  rw [this]
  rfl

/-! ## What accesses leave -/

theorem State.Cached.refl (s : State) : s.Cached s := ⟨rfl, fun _ => rfl, fun _ => rfl, rfl, fun _ _ => rfl⟩
theorem State.Cached.trans {s t u : State} (h : s.Cached t) (k : t.Cached u) : s.Cached u := by
  have hc : t.cur = s.cur := by rw [h.same]
  refine ⟨?_, fun p => (k.parts p).trans (h.parts p), fun p => (k.launches p).trans (h.launches p), ?_, ?_⟩
  · rw [k.same, h.same]
  · have := k.own
    rw [hc] at this
    exact this.trans h.own
  · intro c hn
    rw [k.others c (by rw [hc]; exact hn), h.others c hn]

section cached
variable {s t : State} (h : s.Cached t)
include h
theorem State.Cached.cur : t.cur = s.cur := by rw [h.same]
theorem State.Cached.packets : t.packets = s.packets := by rw [h.same]
theorem State.Cached.poison : t.poison = s.poison := by rw [h.same]
theorem State.Cached.locks : t.locks = s.locks := by rw [h.same]
theorem State.Cached.vfs : t.vfs = s.vfs := by rw [h.same]
theorem State.Cached.vrf : t.vrf = s.vrf := by rw [h.same]
theorem State.Cached.oracle : t.oracle = s.oracle := by rw [h.same]
theorem State.Cached.tile (x : Nat) : t.tile x = s.tile x := by rw [h.same]; rfl
theorem State.Cached.readByte (l : Loc) : t.readByte l = s.readByte l :=
  State.readByte_same (by rw [h.same]) l
theorem State.Cached.coreLost (c : Nat) : (t.core c).lost = (s.core c).lost := by
  by_cases hc : c = s.cur.core
  · rw [hc]; have e := congrArg Core.lost h.own; exact e
  · rw [h.others c hc]
theorem State.Cached.delivers (a : Agent) (l : Loc) : t.delivers a l = s.delivers a l :=
  State.delivers_congr h.vfs (by rw [h.same]) (by rw [h.same]) (fun x => by rw [h.tile]) h.coreLost a l
theorem State.Cached.agent : t.agent = s.agent := by
  have h1 := congrArg Launch.vf (h.launches s.cur.launch)
  have h2 := congrArg Launch.q (h.launches s.cur.launch)
  simp only at h1 h2
  simp only [State.agent, State.agentOf, h.cur, h.tile, h1, h2]
theorem State.Cached.curTag : t.curTag = s.curTag := by
  have h1 := congrArg Launch.tag (h.launches s.cur.launch)
  simp only at h1
  simp only [State.curTag, h.cur, h1]
end cached

theorem State.part_updPart (s : State) (t p : Nat) (f : Part → Part) (hf : ({ f (s.part t) with tlb := [] } : Part) = { s.part t with tlb := [] }) :
    ({ (s.updPart t f).part p with tlb := [] } : Part) = { s.part p with tlb := [] } := by
  unfold State.updPart
  cases hs : SMap.find s.parts t with
  | none => rfl
  | some y =>
    simp only [State.part, State.setPart, SMap.get_put]
    by_cases hp : p = t
    · rw [if_pos hp, hp]
      have : SMap.get {} s.parts t = y := by simp [SMap.get, hs]
      rw [State.part, this] at hf
      rw [this]; exact hf
    · rw [if_neg hp]
theorem State.cachePages_cached (s : State) (tag : Nat) (vas : List Nat) : s.Cached (s.cachePages tag vas) := by
  unfold State.cachePages
  extract_lets p add tlb
  split
  · exact .refl s
  · refine ⟨?_, fun p => State.part_updPart s tag p _ rfl, ?_, ?_, ?_⟩
    · unfold State.updPart; split <;> rfl
    · intro l; unfold State.updPart; split <;> rfl
    · unfold State.updPart; split <;> rfl
    · intro l _; unfold State.updPart; split <;> rfl

theorem State.launch_updLaunch (s : State) (t p : Nat) (f : Launch → Launch)
    (hf : ∀ x : Launch, ({ f x with rseq := [], wseq := [] } : Launch) = { x with rseq := [], wseq := [] }) :
    ({ (s.updLaunch t f).launch p with rseq := [], wseq := [] } : Launch) = { s.launch p with rseq := [], wseq := [] } := by
  unfold State.updLaunch
  cases hs : SMap.find s.launches t with
  | none => rfl
  | some y =>
    simp only [State.launch, SMap.get_put]
    by_cases hp : p = t
    · rw [if_pos hp, hp]
      have : SMap.get {} s.launches t = y := by simp [SMap.get, hs]
      rw [this]; exact hf y
    · rw [if_neg hp]
theorem State.updLaunch_cached (s : State) (t : Nat) (f : Launch → Launch)
    (hf : ∀ x : Launch, ({ f x with rseq := [], wseq := [] } : Launch) = { x with rseq := [], wseq := [] }) : s.Cached (s.updLaunch t f) := by
  refine ⟨?_, ?_, fun p => State.launch_updLaunch s t p f hf, ?_, ?_⟩
  · unfold State.updLaunch; split <;> rfl
  · intro l; unfold State.updLaunch; split <;> rfl
  · unfold State.updLaunch; split <;> rfl
  · intro l _; unfold State.updLaunch; split <;> rfl
theorem State.readRequest_cached (s : State) : s.Cached s.readRequest.2 := State.updLaunch_cached s _ _ fun _ => rfl

/-- R99, R132: the requests of lanes that all deliver. -/
theorem State.requestReads_cached' (n : Nat) (c : Cross) : ∀ (ls : List LaneOk) (s : State),
    (∀ l ∈ ls, l.x.loc.tt ≤ 5 ∧ s.delivers s.agent l.x.loc = true) → s.Cached (s.requestReads c ls n) ∧ (s.requestReads c ls n).cores = s.cores ∧ (s.requestReads c ls n).parts = s.parts := by
  intro ls s hl
  unfold State.requestReads
  have hg : ∀ g ∈ groupBy (fun (l : LaneOk) => destKey l.x.loc) (ls.filter fun l => l.x.loc.tt != 7), ∀ l ∈ g, l.x.loc.tt ≤ 5 ∧ s.delivers s.agent l.x.loc = true := by
    intro g hg l hlg
    unfold groupBy at hg
    obtain ⟨k, -, rfl⟩ := List.mem_map.1 hg
    exact hl l (List.mem_filter.1 (List.mem_filter.1 hlg).1).1
  generalize groupBy (fun (l : LaneOk) => destKey l.x.loc) (ls.filter fun l => l.x.loc.tt != 7) = gs at hg
  suffices H : ∀ u, s.Cached u ∧ u.cores = s.cores ∧ u.parts = s.parts → let r := gs.foldl (fun s g => match g with
    | [] => s
    | l :: _ =>
      let r := s.readRequest
      if (if l.x.loc.tt = 6 then !r.2.lost6 l.x.loc r.2.curTag false else r.2.reaches r.2.agent l.x) then r.2
      else r.2.dropAt r.2.agent c l.x.loc r.1 (n * g.length) (BitVec.ofNat 64 l.va) r.2.cur.pc 0 0) u
      s.Cached r ∧ r.cores = s.cores ∧ r.parts = s.parts from H s ⟨.refl s, rfl, rfl⟩
  induction gs with
  | nil => intro u hu; exact hu
  | cons g gs ih =>
    intro u hu
    rw [List.foldl_cons]
    refine ih (fun g' h' => hg g' (List.mem_cons_of_mem _ h')) _ ?_
    cases g with
    | nil => exact hu
    | cons l t =>
      have hu2 : s.Cached u.readRequest.2 := hu.1.trans (State.readRequest_cached u)
      have hu3 : u.readRequest.2.cores = s.cores := by
        rw [← hu.2.1]; unfold State.readRequest State.updLaunch; simp only; split <;> rfl
      have hu4 : u.readRequest.2.parts = s.parts := by
        rw [← hu.2.2]; unfold State.readRequest State.updLaunch; simp only; split <;> rfl
      obtain ⟨h5, hd⟩ := hg (l :: t) (List.mem_cons_self ..) l (List.mem_cons_self ..)
      rw [← hu2.agent, ← hu2.delivers] at hd
      have h6 : ¬ l.x.loc.tt = 6 := by omega
      simp only [h6, if_false, State.reaches, hd, Bool.or_true, if_true]
      exact ⟨hu2, hu3, hu4⟩
theorem State.requestReads_cached (n : Nat) (c : Cross) (ls : List LaneOk) (s : State) (h : ∀ l ∈ ls, l.x.loc.tt ≤ 5 ∧ s.delivers s.agent l.x.loc = true) :
    s.Cached (s.requestReads c ls n) := (State.requestReads_cached' n c ls s h).1

/-! ## The L1 -/

theorem bytesNat_div : ∀ (l : List Byte) (j : Nat) (h : j < l.length), bytesNat l / 256 ^ j % 256 = l[j].toNat
  | [], j, h => by simp at h
  | b :: t, 0, h => by
    have := b.isLt
    simp only [bytesNat, Nat.pow_zero, Nat.div_one, List.getElem_cons_zero]
    omega
  | b :: t, j + 1, h => by
    have h1 := bytesNat_div t j (by simpa using h)
    have h2 := b.isLt
    rw [List.getElem_cons_succ, ← h1, Nat.pow_succ', ← Nat.div_div_eq_div_mul]
    congr 2
    simp only [bytesNat]
    omega
theorem getByte_ofNat (N x j : Nat) (hj : j < N) : (getByte (BitVec.ofNat (8 * N) x) j).toNat = x / 256 ^ j % 256 := by
  unfold getByte
  rw [BitVec.extractLsb'_toNat, BitVec.toNat_ofNat, Nat.shiftRight_eq_div_pow, show (256 : Nat) ^ j = 2 ^ (8 * j) by
    rw [show (256 : Nat) = 2 ^ 8 from rfl, ← Nat.pow_mul]]
  have h1 : (2 : Nat) ^ (8 * N) = 2 ^ (8 * j) * 2 ^ (8 * (N - j)) := by rw [← Nat.pow_add]; congr 1; omega
  have h2 : (2 : Nat) ^ (8 * (N - j)) = 2 ^ 8 * 2 ^ (8 * (N - j) - 8) := by rw [← Nat.pow_add]; congr 1; omega
  rw [h1, Nat.mod_mul_right_div_self, h2, Nat.mod_mul_right_mod]; rfl
/-- R89: a line brought in holds the bytes of memory. -/
theorem State.lineBits_getByte (s : State) (n j : Nat) (hj : j < 128) : getByte (s.lineBits n) j = s.readByte ⟨0, n * 128 + j⟩ := by
  apply BitVec.eq_of_toNat_eq
  have h1 : s.lineBits n = BitVec.ofNat (8 * 128) (bytesNat (s.readBytes ⟨0, n * 128⟩ 128)) := rfl
  rw [h1, getByte_ofNat _ _ _ hj, bytesNat_div _ _ (by rw [State.readBytes_length]; exact hj)]
  simp [State.readBytes]

/-- The lines a map holds are those of memory. -/
def State.trueLines (s : State) (m : SMap (BitVec 1024)) : Prop := ∀ n v, SMap.find m n = some v → v = s.lineBits n
theorem State.fillL1_cached (s : State) (ls : List LaneOk) (hl : s.trueLines (s.core s.cur.core).l1) :
    s.Cached (s.fillL1 ls) ∧ s.trueLines ((s.fillL1 ls).core s.cur.core).l1 := by
  unfold State.fillL1
  extract_lets lines l1
  have hm : s.trueLines l1 := by
    suffices H : ∀ m, s.trueLines m → s.trueLines (lines.foldl (fun (m : SMap (BitVec 1024)) n =>
        if (SMap.find m n).isSome && s.pick (Nat.pair 1 n) then m else SMap.put m n (s.lineBits n)) m) from H _ hl
    induction lines with
    | nil => intro m hm; exact hm
    | cons x t ih =>
      intro m hm
      rw [List.foldl_cons]
      refine ih _ ?_
      split
      · exact hm
      · intro n v hv
        rw [SMap.find_put] at hv
        split at hv
        · rename_i hn
          rw [hn]; simpa using hv.symm
        · exact hm n v hv
  refine ⟨⟨rfl, fun _ => rfl, fun _ => rfl, ?_, ?_⟩, ?_⟩
  · simp only [State.core, State.updCore, State.setCore, SMap.get_set_same]
  · intro c hc
    simp only [State.core, State.updCore, State.setCore, SMap.get_set_ne _ _ _ hc]
  · simp only [State.core, State.updCore, State.setCore, SMap.get_set_same]
    exact hm

theorem State.dropLines_cached (s : State) (ns : List Nat) (hl : s.trueLines (s.core s.cur.core).l1) :
    s.Cached (s.dropLines ns) ∧ s.trueLines ((s.dropLines ns).core s.cur.core).l1 := by
  unfold State.dropLines
  split
  · exact ⟨.refl s, hl⟩
  · refine ⟨⟨rfl, fun _ => rfl, fun _ => rfl, ?_, fun c hc => ?_⟩, ?_⟩
    · simp only [State.core, State.updCore, State.setCore, SMap.get_set_same]
    · simp only [State.core, State.updCore, State.setCore, SMap.get_set_ne _ _ _ hc]
    · simp only [State.core, State.updCore, State.setCore, SMap.get_set_same]
      intro n v hv
      rw [SMap.find_filter _ fun i => !ns.contains i] at hv
      split at hv
      · exact hl n v hv
      · cases hv

theorem State.Cached.trueLines {s t : State} (h : s.Cached t) {m : SMap (BitVec 1024)} (hm : s.trueLines m) : t.trueLines m := by
  intro n v hv
  rw [hm n v hv]
  unfold State.lineBits State.readNum State.readBytes
  simp only [h.readByte]

theorem State.seeByte_true {s : State} (hp : s.packets = []) (hl : s.trueLines (s.core s.cur.core).l1) (l1 : Bool) (l : Loc) :
    s.seeByte l1 l = s.readByte l := by
  unfold State.seeByte
  simp only [hp, List.isEmpty_nil, if_true]
  split
  · rename_i h
    have h0 : l.tt = 0 := by simp at h; exact h.2
    split
    · rename_i v hv
      rw [hl _ _ hv, State.lineBits_getByte _ _ _ (Nat.mod_lt _ (by decide)), Nat.div_add_mod']
      rw [← h0]
    · rfl
  · rfl

/-! ## Reading -/

theorem State.askAll_here {s : State} (w : Bool) (ls : List LaneOk) (a : LaneOk → Ask) (k : State → Eff) (h : ∀ l ∈ ls, l.x.loc.tt ≤ 5) :
    s.askAll w ls a k = k s := by
  unfold State.askAll
  have : (ls.filterMap fun l => (s.awayOf l w).map fun d => (l, d)) = [] := by
    rw [List.filterMap_eq_nil_iff]
    intro l hl
    have := h l hl
    unfold State.awayOf
    rw [if_neg (by omega)]; rfl
  rw [this]
  rfl
theorem State.flush_none {s : State} (h : s.packets = []) (f : Packet → Bool) : s.flush f = s := by simp [State.flush, h]

theorem State.requestReads_core (n : Nat) (c : Cross) (ls : List LaneOk) (s : State) (h : ∀ l ∈ ls, l.x.loc.tt ≤ 5 ∧ s.delivers s.agent l.x.loc = true) (i : Nat) :
    (s.requestReads c ls n).core i = s.core i := by
  unfold State.core; rw [(State.requestReads_cached' n c ls s h).2.1]

/-- R84, R98, R99: lanes of this device whose accesses arrive read memory, when nothing else acts on it. -/
theorem State.readLanes_here {s : State} (l1 : Bool) (n : Nat) (ls : List LaneOk) (k : State → List (Nat × List Byte) → Eff)
    (hp : s.packets = []) (hk : s.locks = []) (hpo : s.poison = []) (hl1 : s.trueLines (s.core s.cur.core).l1)
    (ht : ∀ l ∈ ls, l.x.loc.tt ≤ 5) (hd : ∀ l ∈ ls, s.delivers s.agent l.x.loc = true) :
    ∃ u, s.Cached u ∧ (l1 = false → (s.core s.cur.core).l1 = [] → u.cores = s.cores ∧ u.parts = s.parts) ∧
      s.readLanes l1 n ls k = k u (ls.map fun l => (l.lane, s.readBytes l.x.loc n)) := by
  obtain ⟨hf1, hf2⟩ := State.fillL1_cached s ls hl1
  obtain ⟨hf3, hf4⟩ := State.dropLines_cached s (lineNos ls) hl1
  let v := if l1 then s.fillL1 ls else s.dropLines (lineNos ls)
  have hv : s.Cached v := by simp only [v]; split <;> first | exact hf1 | exact hf3
  have hvl : s.trueLines (v.core s.cur.core).l1 := by simp only [v]; split <;> first | exact hf2 | exact hf4
  have hdv : ∀ l ∈ ls, l.x.loc.tt ≤ 5 ∧ v.delivers v.agent l.x.loc = true := by
    intro l hl; rw [hv.agent, hv.delivers]; exact ⟨ht l hl, hd l hl⟩
  let u := v.requestReads .read ls n
  have hu : s.Cached u := hv.trans (State.requestReads_cached n .read ls v hdv)
  refine ⟨u, hu, fun hf he => ?_, ?_⟩
  · have e : v = s := by simp only [v, hf, Bool.false_eq_true, if_false, State.dropLines, he, List.isEmpty_nil, if_true]
    rw [← e]; exact (State.requestReads_cached' n .read ls v hdv).2
  unfold State.readLanes
  rw [State.askAll_here false ls _ _ ht]
  simp only [State.flush_none hp]
  have h1 : s.readLocked ls = false := by simp [State.readLocked, hk]
  have h2 : ∀ f, s.packets.any f = false := by intro f; rw [hp]; rfl
  have h3 : s.poisonedLanes ls n = [] := by simp [State.poisonedLanes, hpo]
  simp only [h1, h2, h3, Bool.false_eq_true, if_false, List.isEmpty_nil, Bool.not_true]
  change k (ls.foldl _ (u, [])).1 (ls.foldl _ (u, [])).2 = _
  have hul : u.trueLines (u.core u.cur.core).l1 := by
    rw [hu.cur, State.requestReads_core n .read ls v hdv]; exact hu.trueLines hvl
  have hup : u.packets = [] := by rw [hu.packets, hp]
  have hb : ∀ l ∈ ls, u.laneBytes l1 n l = (s.readBytes l.x.loc n, u) := by
    intro l hl
    have h5 := ht l hl
    unfold State.laneBytes
    rw [if_neg (by omega), if_neg (by omega), if_pos (by rw [State.reaches, hu.agent, hu.delivers, hd l hl, Bool.or_true])]
    simp only [State.seeByte_true hup hul, hu.readByte, State.readBytes]
  have hfold : ∀ (t : List LaneOk) acc, (∀ l ∈ t, l ∈ ls) → t.foldl (fun (a : State × List (Nat × List Byte)) l =>
      let q := a.1.laneBytes l1 n l
      (q.2, a.2 ++ [(l.lane, q.1)])) (u, acc) = (u, acc ++ t.map fun l => (l.lane, s.readBytes l.x.loc n)) := by
    intro t
    induction t with
    | nil => intro acc _; simp
    | cons x t ih =>
      intro acc hx
      rw [List.foldl_cons]
      simp only [hb x (hx x (List.mem_cons_self ..))]
      rw [ih _ fun l hl => hx l (List.mem_cons_of_mem _ hl)]
      simp
  rw [hfold ls [] fun _ h => h]
  simp

/-! ## Under the counters of an issue -/

/-- What an access leaves at an issue it also leaves in the state before it. -/
theorem State.cached_under {s w : State} {c : Meta} (h : (s.charge c).Cached w) : ∃ u, s.Cached u ∧ u.Keeps w ∧ u.cur = s.cur := by
  let u : State := { s with
    parts := w.parts, launches := w.launches
    cores := SMap.set {} s.cores s.cur.core { s.core s.cur.core with l1 := (w.core s.cur.core).l1 } }
  have hk := State.charge_keeps s c
  have hcc : (s.charge c).cur.core = s.cur.core := by simp
  have huc : u.core s.cur.core = { s.core s.cur.core with l1 := (w.core s.cur.core).l1 } := by
    simp only [u, State.core, SMap.get_set_same]
  have huo : ∀ i, i ≠ s.cur.core → u.core i = s.core i := by
    intro i hi
    simp only [u, State.core, SMap.get_set_ne _ _ _ hi]
  refine ⟨u, ⟨rfl, ?_, ?_, ?_, huo⟩, ⟨?_, ?_, ?_⟩, rfl⟩
  · intro p; rw [show u.part p = w.part p from rfl, h.parts, charge_part]
  · intro p; rw [show u.launch p = w.launch p from rfl, h.launches, charge_launch]
  · rw [huc]
  · have e1 := congrArg State.bare h.same
    have e2 := congrArg (fun x : State => ({ x with parts := w.parts, launches := w.launches } : State)) hk.1
    exact Eq.trans e1 e2
  · intro i
    by_cases hi : i = s.cur.core
    · rw [hi, huc]
      have e1 := h.own
      rw [hcc] at e1
      have e2 := hk.2.1 s.cur.core
      have e3 := congrArg (fun x : Core => ({ x with l1 := (w.core s.cur.core).l1 } : Core).aside) e1
      have e4 := congrArg (fun x : Core => ({ x with l1 := (w.core s.cur.core).l1 } : Core)) e2
      exact Eq.trans e3 e4
    · rw [huo i hi, h.others i (by rw [hcc]; exact hi)]
      exact hk.2.1 i
  · intro x
    rw [show u.tile x = s.tile x from rfl, h.tile]
    exact hk.2.2 x

end Sys2Proof.Machine
end

