-- ==== Sys2Proof/Laws/GlobalLoads.lean ====
section
/-!
SUPPORT. Loads from global memory by a group without a transaction, when nothing else acts on the memory they meet.
-/

namespace Sys2Proof.Machine

theorem State.txOpen_none {s : State} (h : s.cur.txg = false) (m : Mask) : s.txOpen m = 0 := by simp [State.txOpen, h]
theorem State.txDoomed_none {s : State} (h : s.cur.txg = false) (m : Mask) : s.txDoomed m = 0 := by simp [State.txDoomed, h]
theorem filter_zeroMask {α : Type} (l : List (Nat × α)) : (l.filter fun p => (0 : Mask).getLsbD p.1) = [] := by
  rw [List.filter_eq_nil_iff]
  intro x _
  change ¬ BitVec.getLsbD 0#256 x.1 = true
  simp

/-- The lanes of a mask with their translations. -/
def okLanes (m : Mask) (va : Nat → Nat) (x : Nat → Xlat) : List LaneOk := (maskLanes m).map fun k => ⟨k, va k, x k⟩

/-- R97: lanes that reach their places pass at the issue. -/
theorem withLanes_reaches {s : State} (ha : s.Alone) (c : Meta) {acc : Acc} {n : Nat} {m : Mask} {va : Nat → Nat} {x : Nat → Xlat}
    (hr : s.Reaches acc n m va x) (k : State → List LaneOk → Eff) :
    (s.charge c).withLanes acc n ((maskLanes m).map fun k => (k, va k)) k =
      k ((s.charge c).cachePages s.curTag ((maskLanes m).map va)) (okLanes m va x) := by
  rw [State.withLanes_ok (s := s.charge c) (va := va) (x := x) (maskLanes m), charge_curTag]
  · rfl
  · intro i hi
    obtain ⟨h1, h2⟩ := mem_maskLanes.1 hi
    obtain ⟨h3, h4, -⟩ := hr i h1 h2
    exact charge_checkLane ha.tlb ha.exports c h3 h4
  · intro i hi
    obtain ⟨h1, h2⟩ := mem_maskLanes.1 hi
    exact (hr i h1 h2).2.1
  · rw [State.charge_locks, ha.locks]

/-- What an access may rely on after its translations are cached. -/
theorem cached_alone {s : State} (ha : s.Alone) (c : Meta) {w : State} (hw : (s.charge c).Cached w) (hl : (w.core w.cur.core).l1 = []) :
    w.packets = [] ∧ w.locks = [] ∧ w.poison = [] ∧ w.trueLines (w.core w.cur.core).l1 := by
  refine ⟨by rw [hw.packets]; simp [ha.packets], by rw [hw.locks]; simp [ha.locks], by rw [hw.poison]; simp [ha.poison], ?_⟩
  rw [hl]
  intro n v h
  simp [SMap.find] at h

theorem cachePages_l1 {s : State} (ha : s.Alone) (c : Meta) (tag : Nat) (l : List Nat) :
    (((s.charge c).cachePages tag l).core ((s.charge c).cachePages tag l).cur.core).l1 = [] := by
  have h1 := State.cachePages_cached (s.charge c) tag l
  have e := congrArg Core.l1 h1.own
  have h2 : (((s.charge c).cachePages tag l).core (s.charge c).cur.core) = (s.charge c).core (s.charge c).cur.core := by
    unfold State.cachePages
    extract_lets p add tlb
    split
    · rfl
    · unfold State.updPart; split <;> rfl
  rw [h1.cur, h2, State.charge_cur_core, charge_core_l1, ha.l1]

theorem deferLoad_eq (w : State) (signed : Bool) (n d : Nat) (m : Mask) (f : Nat → List Byte) (hn : n = 1 ∨ n = 2 ∨ n = 4 ∨ n = 8 ∨ n = 16)
    (vals : List DVal) (hv : (if m = 0 then [] else loadVals signed n d
      (ofBits fun i => ((maskLanes m).map fun k => (k, f k)).any fun p => p.1 == i) ((maskLanes m).map fun k => (k, f k))) = vals) :
    w.deferLoad signed n d ((maskLanes m).map fun k => (k, f k)) = if vals = [] then w else w.defer vals 0 0 true := by
  unfold State.deferLoad
  by_cases hm : m = 0
  · subst hm
    rw [if_pos rfl] at hv
    rw [if_pos hv.symm, maskLanes_zero]; rfl
  · rw [if_neg hm] at hv
    have hne : ((maskLanes m).map fun k => (k, f k)).isEmpty = false := by
      rw [List.isEmpty_eq_false_iff]; intro hc; rw [List.map_eq_nil_iff] at hc; exact maskLanes_ne hm hc
    have : vals ≠ [] := by
      rw [← hv]; unfold loadVals; rw [widthRegs_eq hn]; simp [regsOf]
    rw [hne, if_neg this, hv]; rfl

/-- A load from global memory. `k` is what follows the load: nothing, or an acquire. -/
theorem issue_globalLoad {s : State} (h : s.GroupReady) (ha : s.Alone) (c : Meta) (hc : s.illegal c = none)
    (hi : c.insn = false) (hr : c.nonreplay = false) (signed l1 : Bool) (n d a : Nat) (m : Mask) (base : W64) (x : Nat → Xlat)
    (hn : n = 1 ∨ n = 2 ∨ n = 4 ∨ n = 8 ∨ n = 16) (hl : s.Reaches (.load n) n m (s.laneAddr base a) x) (k : State → State) (body : State → Eff)
    (hb : body (s.charge c) = (s.charge c).globalLoad signed l1 n d m base a k) (P : State → Prop)
    (hk : ∀ w : State, w.cur.txg = false → w.Cached (k w) ∧ P (k w) ∧ ∀ vals, k (w.defer vals 0 0 true) = (k w).defer vals 0 0 true) :
    ∃ t u vals w, issue c s body = .next t ∧ s.Cached u ∧ u.Keeps w ∧ P w ∧ w.cur.core = s.cur.core ∧ s.Returns u t c.len c.settle vals ∧
      LoadResult n d m (fun r k => s.loaded signed n (x k).loc r) vals := by
  have hR := loadVals_result signed n d m (fun k => s.readBytes (x k).loc n) (fun r k => s.loaded signed n (x k).loc r) hn
    (fun r hr k _ _ => State.regWord_readBytes _ _ _ _ _ hn hr)
  generalize hvals : (if m = 0 then [] else _) = vals at hR
  let p := (s.charge c).cachePages s.curTag ((maskLanes m).map (s.laneAddr base a))
  have hp : (s.charge c).Cached p := State.cachePages_cached _ _ _
  obtain ⟨g1, g2, g3, g4⟩ := cached_alone ha c hp (cachePages_l1 ha c _ _)
  have htx : ∀ w : State, w.cur = (s.charge c).cur → w.cur.txg = false := by intro w hw; rw [hw]; simp [ha.tx]
  obtain ⟨v, hv, -, hve⟩ := State.readLanes_here (s := p) l1 n (okLanes m (s.laneAddr base a) x)
    (fun t bs => .done (k (t.deferLoad signed n d bs))) g1 g2 g3 g4
    (by intro l hl'; obtain ⟨i, hi', rfl⟩ := List.mem_map.1 hl'; obtain ⟨h1, h2⟩ := mem_maskLanes.1 hi'; exact (hl i h1 h2).2.1)
    (by
      intro l hl'; obtain ⟨i, hi', rfl⟩ := List.mem_map.1 hl'; obtain ⟨h1, h2⟩ := mem_maskLanes.1 hi'
      rw [hp.delivers, hp.agent, charge_agent, charge_delivers]; exact (hl i h1 h2).2.2)
  have hbody : body (s.charge c) = .done (k (if vals = [] then v else v.defer vals 0 0 true)) := by
    rw [hb, State.globalLoad]
    have e2 : (s.charge c).cur.txg = false := by simp [ha.tx]
    simp only [e2, Bool.false_eq_true, if_false]
    rw [charge_laneAddrs h.1, withLanes_reaches ha c hl]
    refine hve.trans ?_
    congr 2
    have e3 : (okLanes m (s.laneAddr base a) x).map (fun l => (l.lane, p.readBytes l.x.loc n)) = (maskLanes m).map fun k => (k, s.readBytes (x k).loc n) := by
      rw [okLanes, List.map_map]
      refine List.map_congr_left fun i _ => ?_
      simp only [Function.comp, State.readBytes, hp.readByte, charge_readByte]
    rw [e3]
    exact deferLoad_eq v signed n d m _ hn vals hvals
  have hvc : (s.charge c).Cached v := hp.trans hv
  obtain ⟨hk1, hk2, hk3⟩ := hk v (htx v hvc.cur)
  have hwc := hvc.trans hk1
  obtain ⟨u, hu1, hu2, hu3⟩ := State.cached_under hwc
  have hcur : (k v).cur = (s.charge c).cur := hwc.cur
  suffices key : ∃ t, issue c s body = .next t ∧ s.Returns u t c.len c.settle vals by
    obtain ⟨t, h1, h2⟩ := key
    exact ⟨t, u, vals, k v, h1, hu1, hu2, hk2, by rw [hcur]; simp, h2, hR⟩
  refine issue_returns (u := u) (w := k v) (vals := vals) h.1 hc (.inl hi) (body := body) ?_ ?_ ?_ (by simp [hcur]) (by simp [hcur]) (by simp [hcur, h.1.word]) (by simp [hcur, h.1.recipe]) (by simp [hcur, h.1.written]) (by simp [hcur, h.1.poisonV]) (by simp [hcur, h.1.poisonS])
  · rw [hbody]
    by_cases hvl : vals = []
    · simp [hvl]
    · rw [if_neg hvl, if_neg hvl, hk3]
  · rw [← hvals]; split
    · simp
    · exact loadVals_plain _ _ _ _ _
  · have e : (k v).mark c.nonreplay = k v := by rw [hr, State.mark_false]
    have e2 : u.Keeps ((k v).mark c.nonreplay) := by rw [e]; exact hu2
    exact e2

theorem maskLanes_oneLane {l : Nat} (h : l < 256) : maskLanes (oneLane l) = [l] := by
  unfold maskLanes lanes
  have e : (List.range 256).filter (fun i => (oneLane l).getLsbD i) = (List.range 256).filter (fun i => i == l) := by
    refine List.filter_congr fun i hi => ?_
    have hi : i < 256 := by simpa using hi
    have : (oneLane l).getLsbD i = (decide (i < 256) && decide (l = i)) := by unfold oneLane; rw [BitVec.getLsbD_twoPow]; simp [hi, h]
    rw [this]
    by_cases hl : i = l
    · subst hl; simp [hi]
    · simp [hl, Ne.symm hl]
  rw [e]
  have : ∀ n, l < n → (List.range n).filter (fun i => i == l) = [l] := by
    intro n
    induction n with
    | zero => intro h; omega
    | succ n ih =>
      intro h
      rw [List.range_succ, List.filter_append]
      by_cases hl : l = n
      · subst hl
        have : (List.range l).filter (fun i => i == l) = [] := by
          rw [List.filter_eq_nil_iff]; intro i hi; have := List.mem_range.1 hi; simp; omega
        rw [this]; simp
      · rw [ih (by omega)]
        have : n ≠ l := fun h => hl h.symm
        simp [this]
  exact this 256 h
theorem State.uniLane_lt (s : State) : s.uniLane < 256 := by
  unfold State.uniLane
  cases h : lowestLane s.cur.em with
  | none => simp
  | some i => exact (lowestLane_eq_some.1 h).1

/-- A uniform load of places of this device. -/
theorem issue_uniLoad {s : State} (h : s.Ready) (ha : s.Alone) (c : Meta) (hc : s.illegal c = none) (hi : c.insn = false) (hr : c.nonreplay = false)
    (n d : Nat) (va : Nat) (x : Xlat) (f : List Byte → W64) (hl : s.Reaches (.load n) n (oneLane s.uniLane) (fun _ => va) (fun _ => x)) (body : State → Eff)
    (hb : body (s.charge c) = (s.charge c).withLanes (.load n) n ((maskLanes (oneLane s.uniLane)).map fun k => (k, va)) fun t oks =>
      t.readLanes true n oks fun t bs => .done (t.defer [.uni d (f ((bs.head?.map Prod.snd).getD [])) false] 0 0 true)) :
    ∃ t u, issue c s body = .next t ∧ s.Cached u ∧ s.Returns u t c.len c.settle [.uni d (f (s.readBytes x.loc n)) false] := by
  let m := oneLane s.uniLane
  have hm : maskLanes m = [s.uniLane] := maskLanes_oneLane s.uniLane_lt
  have hu := s.uniLane_lt
  have hin : m.getLsbD s.uniLane = true := by
    have : s.uniLane ∈ maskLanes m := by rw [hm]; exact List.mem_singleton.2 rfl
    exact (mem_maskLanes.1 this).2
  let p := (s.charge c).cachePages s.curTag ((maskLanes m).map fun _ => va)
  have hp : (s.charge c).Cached p := State.cachePages_cached _ _ _
  obtain ⟨g1, g2, g3, g4⟩ := cached_alone ha c hp (cachePages_l1 ha c _ _)
  obtain ⟨v, hv, -, hve⟩ := State.readLanes_here (s := p) true n (okLanes m (fun _ => va) (fun _ => x))
    (fun t bs => .done (t.defer [.uni d (f ((bs.head?.map Prod.snd).getD [])) false] 0 0 true)) g1 g2 g3 g4
    (by intro l hl'; obtain ⟨i, hi', rfl⟩ := List.mem_map.1 hl'; obtain ⟨h1, h2⟩ := mem_maskLanes.1 hi'; exact (hl i h1 h2).2.1)
    (by
      intro l hl'; obtain ⟨i, hi', rfl⟩ := List.mem_map.1 hl'; obtain ⟨h1, h2⟩ := mem_maskLanes.1 hi'
      rw [hp.delivers, hp.agent, charge_agent, charge_delivers]; exact (hl i h1 h2).2.2)
  have hbody : body (s.charge c) = .done (v.defer [.uni d (f (s.readBytes x.loc n)) false] 0 0 true) := by
    rw [hb, withLanes_reaches ha c hl]
    refine hve.trans ?_
    rw [okLanes, hm]
    simp only [List.map_cons, List.map_nil, List.head?_cons, Option.map_some, Option.getD_some]
    have e3 : p.readBytes x.loc n = s.readBytes x.loc n := by
      simp only [State.readBytes, hp.readByte, charge_readByte]
    rw [e3]
  have hvc : (s.charge c).Cached v := hp.trans hv
  obtain ⟨u, hu1, hu2, hu3⟩ := State.cached_under hvc
  have hcur : v.cur = (s.charge c).cur := hvc.cur
  suffices key : ∃ t, issue c s body = .next t ∧ s.Returns u t c.len c.settle [.uni d (f (s.readBytes x.loc n)) false] by
    obtain ⟨t, h1, h2⟩ := key
    exact ⟨t, u, h1, hu1, h2⟩
  refine issue_returns (u := u) (w := v) h hc (.inl hi) (body := body) (by rw [hbody, if_neg (by simp)]) (by simp [DVal.plain]) ?_ (by simp [hcur]) (by simp [hcur]) (by simp [hcur, h.word]) (by simp [hcur, h.recipe]) (by simp [hcur, h.written]) (by simp [hcur, h.poisonV]) (by simp [hcur, h.poisonS])
  have e : v.mark c.nonreplay = v := by rw [hr, State.mark_false]
  have e2 : u.Keeps (v.mark c.nonreplay) := by rw [e]; exact hu2
  exact e2

end Sys2Proof.Machine
end

