-- ==== Sys2Proof/Laws/Posts.lean ====
section
/-!
SUPPORT. Posted accesses: the packets an instruction sends, and their arrival when nothing else acts on the memory they meet.
-/

namespace Sys2Proof.Machine

/-! ## Grouping by destination -/

theorem mem_groupKeys {α : Type} (key : α → Nat × Nat) (l : List α) : ∀ ks : List (Nat × Nat), ks.Nodup →
    (l.foldl (fun ks x => if ks.contains (key x) then ks else ks ++ [key x]) ks).Nodup ∧
    ∀ c, c ∈ l.foldl (fun ks x => if ks.contains (key x) then ks else ks ++ [key x]) ks ↔ c ∈ ks ∨ ∃ x ∈ l, key x = c := by
  induction l with
  | nil => intro ks h; exact ⟨h, fun c => by simp⟩
  | cons x l ih =>
    intro ks h
    simp only [List.foldl_cons]
    by_cases hx : key x ∈ ks
    · rw [if_pos (by simpa using hx)]
      refine ⟨(ih ks h).1, fun c => ?_⟩
      rw [(ih ks h).2]
      constructor
      · rintro (h1 | ⟨y, h1, h2⟩)
        · exact .inl h1
        · exact .inr ⟨y, List.mem_cons_of_mem _ h1, h2⟩
      · rintro (h1 | ⟨y, h1, h2⟩)
        · exact .inl h1
        · rcases List.mem_cons.1 h1 with h1 | h1
          · exact .inl (h2 ▸ h1 ▸ hx)
          · exact .inr ⟨y, h1, h2⟩
    · rw [if_neg (by simpa using hx)]
      have hn : (ks ++ [key x]).Nodup := by
        rw [List.nodup_append]; exact ⟨h, by simp, fun a ha b hb => by simp at hb; intro hc; exact hx (hb ▸ hc ▸ ha)⟩
      refine ⟨(ih _ hn).1, fun c => ?_⟩
      rw [(ih _ hn).2]
      constructor
      · rintro (h1 | ⟨y, h1, h2⟩)
        · rcases List.mem_append.1 h1 with h1 | h1
          · exact .inl h1
          · exact .inr ⟨x, List.mem_cons_self .., (List.mem_singleton.1 h1).symm⟩
        · exact .inr ⟨y, List.mem_cons_of_mem _ h1, h2⟩
      · rintro (h1 | ⟨y, h1, h2⟩)
        · exact .inl (List.mem_append_left _ h1)
        · rcases List.mem_cons.1 h1 with h1 | h1
          · exact .inl (List.mem_append_right _ (by simp [← h2, h1]))
          · exact .inr ⟨y, h1, h2⟩

/-- The groups of the lanes of a mask, one for each destination, ascending within each. -/
theorem groupBy_lanes {α : Type} (m : Mask) (place : Nat → Loc) (f : Nat → α) (key : α → Nat × Nat) (hk : ∀ k, key (f k) = destKey (place k)) :
    ∃ keys : List (Nat × Nat), keys.Nodup ∧ (∀ c, c ∈ keys ↔ ∃ k < 256, m.getLsbD k ∧ destKey (place k) = c) ∧
      groupBy key ((maskLanes m).map f) = keys.map fun c => (maskLanes (destLanes m place c)).map f := by
  obtain ⟨h1, h2⟩ := mem_groupKeys key ((maskLanes m).map f) [] List.nodup_nil
  refine ⟨_, h1, fun c => ?_, ?_⟩
  · rw [h2]
    simp only [List.not_mem_nil, false_or, List.mem_map]
    constructor
    · rintro ⟨x, ⟨k, hk1, rfl⟩, hx⟩
      exact ⟨k, (mem_maskLanes.1 hk1).1, (mem_maskLanes.1 hk1).2, by rw [← hk]; exact hx⟩
    · rintro ⟨k, h3, h4, h5⟩
      exact ⟨f k, ⟨k, mem_maskLanes.2 ⟨h3, h4⟩, rfl⟩, by rw [hk]; exact h5⟩
  · unfold groupBy
    refine List.map_congr_left fun c _ => ?_
    rw [List.filter_map]
    congr 1
    unfold maskLanes lanes
    rw [List.filter_filter]
    refine List.filter_congr fun k hk' => ?_
    have : k < 256 := by simpa using hk'
    simp only [destLanes, getLsbD_ofBits _ this, Function.comp, hk]
    exact Bool.and_comm _ _

/-- Every group has a lane. -/
theorem destLanes_ne {m : Mask} {place : Nat → Loc} {c : Nat × Nat} (h : ∃ k < 256, m.getLsbD k ∧ destKey (place k) = c) :
    maskLanes (destLanes m place c) ≠ [] := by
  obtain ⟨k, h1, h2, h3⟩ := h
  have : k ∈ maskLanes (destLanes m place c) := mem_maskLanes.2 ⟨h1, by simp [destLanes, getLsbD_ofBits _ h1, h2, h3]⟩
  intro hc; rw [hc] at this; simp at this

/-! ## Injecting packets -/

/-- What the sending of a list of packets leaves. -/
structure Injected (s u : State) (rel : Bool) (cs : List (PacketOp × List (Loc × Byte))) : Prop where
  same : u = { s with launches := u.launches, packets := u.packets, nextId := u.nextId }
  launches : ∀ l, ({ u.launch l with rseq := [], wseq := [] } : Launch) = { s.launch l with rseq := [], wseq := [] }
  grows : s.nextId ≤ u.nextId
  sent : ∃ ps, u.packets = s.packets ++ ps ∧ ps.map (fun p => (p.op, p.writes)) = cs ∧
    (∀ p ∈ ps, p.src = s.agent ∧ p.after = (if rel then p.id else s.cur.relFence) ∧ s.nextId ≤ p.id ∧ p.id < u.nextId) ∧ ps.Pairwise (fun p q => p.id < q.id)

theorem injected_one (s : State) (op : PacketOp) (ws : List (Loc × Byte)) (va : W64) (n : Nat) (rel : Bool) :
    Injected s (s.inject op ws va n rel) rel [(op, ws)] := by
  refine ⟨?_, ?_, Nat.le_succ _, ?_⟩
  · unfold State.inject State.updLaunch; simp only []; split <;> rfl
  · intro l
    exact State.launch_updLaunch s s.cur.launch l _ fun _ => rfl
  · let p : Packet := { id := s.nextId, src := s.agent, kind := 0, seq := (s.launch s.cur.launch).nextWrite s.cur.core, va := va,
                        pc := s.cur.pc, bytes := n, op := op, writes := ws, after := if rel then s.nextId else s.cur.relFence }
    refine ⟨[p], rfl, rfl, ?_, by simp⟩
    intro q hp
    have hp := List.mem_singleton.1 hp
    subst hp
    exact ⟨rfl, by cases rel <;> rfl, le_refl _, Nat.lt_succ_self _⟩
theorem injected_nextId {s : State} (op : PacketOp) (ws : List (Loc × Byte)) (va : W64) (n : Nat) (rel : Bool) :
    (s.inject op ws va n rel).nextId = s.nextId + 1 := by unfold State.inject; rfl
theorem injected_agent {s u : State} {rel cs} (h : Injected s u rel cs) : u.agent = s.agent := by
  have h1 := congrArg Launch.vf (h.launches s.cur.launch)
  have h2 := congrArg Launch.q (h.launches s.cur.launch)
  simp only at h1 h2
  have hc : u.cur = s.cur := by rw [h.same]
  have ht : ∀ x, u.tile x = s.tile x := by intro x; rw [h.same]; rfl
  simp only [State.agent, State.agentOf, hc, ht, h1, h2]

/-- Packets sent one after another. -/
theorem injected_fold {α : Type} (F : State → α → State) (c : α → PacketOp × List (Loc × Byte)) (rel : Bool) : ∀ (gs : List α) (s : State),
    (∀ g ∈ gs, ∀ s : State, ∃ va n, F s g = s.inject (c g).1 (c g).2 va n rel) → Injected s (gs.foldl F s) rel (gs.map c)
  | [], s, _ => ⟨rfl, fun _ => rfl, le_refl _, [], by simp, by simp, by simp, by simp⟩
  | g :: gs, s, h => by
    obtain ⟨va, n, hg⟩ := h g (List.mem_cons_self ..) s
    have h1 := injected_one s (c g).1 (c g).2 va n rel
    have h2 := injected_fold F c rel gs (F s g) fun x hx => h x (List.mem_cons_of_mem _ hx)
    rw [← hg] at h1
    have hid : (F s g).nextId = s.nextId + 1 := by rw [hg, injected_nextId]
    have hcur : (F s g).cur = s.cur := by rw [h1.same]
    refine ⟨?_, fun l => (h2.launches l).trans (h1.launches l), h1.grows.trans h2.grows, ?_⟩
    · rw [List.foldl_cons, h2.same, h1.same]
    · obtain ⟨ps, p1, p2, p3, p4⟩ := h1.sent
      obtain ⟨qs, q1, q2, q3, q4⟩ := h2.sent
      obtain ⟨p, rfl⟩ : ∃ p, ps = [p] := by
        have : ps.length = 1 := by have := congrArg List.length p2; simpa using this
        exact List.length_eq_one_iff.1 this
      have hmono : ∀ x ∈ qs, p.id < x.id := fun x hx => Nat.lt_of_lt_of_le (p3 p (List.mem_singleton.2 rfl)).2.2.2 (q3 x hx).2.2.1
      have hnx : (F s g).nextId ≤ (gs.foldl F (F s g)).nextId := h2.grows
      refine ⟨p :: qs, by rw [List.foldl_cons, q1, p1]; simp, ?_, ?_, ?_⟩
      · rw [List.map_cons, q2]; simp at p2; rw [List.map_cons]; simp [p2]
      · intro x hx
        rcases List.mem_cons.1 hx with rfl | hx
        · obtain ⟨a1, a2, a3, a4⟩ := p3 _ (List.mem_singleton.2 rfl)
          refine ⟨a1, a2, a3, Nat.lt_of_lt_of_le a4 ?_⟩
          exact hnx
        · obtain ⟨a1, a2, a3, a4⟩ := q3 x hx
          exact ⟨by rw [a1]; exact injected_agent h1, by rw [a2, hcur], by omega, a4⟩
      · exact List.pairwise_cons.2 ⟨hmono, q4⟩

/-! ## Under the counters of an issue -/

/-- A state with another one's memory, packets, partitions and launches. -/
def State.restOf (s w : State) : State :=
  { s with parts := w.parts, launches := w.launches, packets := w.packets, nextId := w.nextId, grans := w.grans, hbm := w.hbm, sp := w.sp
           vrf := w.vrf, acc := w.acc, host := w.host }

/-- What an access leaves at an issue, seen from the state before it. -/
theorem State.rest_keeps {s w : State} {c : Meta} (h : w = { (s.charge c).restOf w with cores := w.cores })
    (hc : ∀ i, w.core i = (s.charge c).core i) : (s.restOf w).Keeps w := by
  have hk := State.charge_keeps s c
  refine State.keeps_iff.2 ⟨?_, ?_, ?_⟩
  · have e1 := congrArg State.bare h
    have e2 := congrArg (fun x : State => x.restOf w) hk.1
    exact Eq.trans e1 e2
  · intro i; rw [hc i]; exact hk.2.1 i
  · intro x
    have e : w.tile x = (s.charge c).tile x := by rw [h]; rfl
    rw [e]; exact hk.2.2 x

/-- What belongs to a state of translated accesses and posts. -/
theorem State.numbered_rest {s w : State} {c : Meta} (h1 : ∀ p, ({ w.part p with tlb := [] } : Part) = { (s.charge c).part p with tlb := [] })
    (h2 : ∀ l, ({ w.launch l with rseq := [], wseq := [] } : Launch) = { (s.charge c).launch l with rseq := [], wseq := [] }) :
    s.Numbered (s.restOf w) :=
  ⟨fun p => by rw [← charge_part s c p, ← h1 p]; rfl, fun l => by rw [← charge_launch s c l, ← h2 l]; rfl⟩

/-! ## Stores -/

theorem storeBytes_charge {s : State} (h : s.Ready) (c : Meta) (n d k : Nat) (hn : n = 1 ∨ n = 2 ∨ n = 4 ∨ n = 8 ∨ n = 16) :
    (s.charge c).storeBytes n d k = (List.range n).map fun j => s.dataByte d k j := by
  rw [storeBytes_eq (by simp [h.written]) _ _ _ hn]
  simp [State.dataByte]

/-- R88: accesses of this device's memory wait for nothing before they are posted. -/
theorem State.whenReleased_here {s : State} (rel : Bool) (ls : List LaneOk) (k : State → Eff) (h : ∀ l ∈ ls, l.x.loc.tt ≤ 5) : s.whenReleased rel ls k = k s := by
  have e : (ls.any fun l => l.x.loc.tt == 7 || (s.awayOf l true).isSome) = false := by
    rw [List.any_eq_false]
    intro l hl
    have h5 := h l hl
    have h6 : s.awayOf l true = none := by unfold State.awayOf; rw [if_neg]; omega
    rw [h6]
    simp; omega
  unfold State.whenReleased
  simp only [e, Bool.and_false, Bool.false_eq_true, if_false]
theorem foldl_still {α β : Type} (f : α → β → α) (a : α) : ∀ l : List β, (∀ x ∈ l, f a x = a) → l.foldl f a = a
  | [], _ => rfl
  | x :: l, h => by
    rw [List.foldl_cons, h x (List.mem_cons_self ..)]
    exact foldl_still f a l fun y hy => h y (List.mem_cons_of_mem _ hy)
/-- Stores to places of this device are all posted. -/
theorem postStores_here (w : State) (op : PacketOp) (rel : Bool) (ws : List (LaneOk × List Byte)) (h : ∀ y ∈ ws, y.1.x.loc.tt ≤ 5) :
    w.postStores op rel ws = (groupBy (fun (w : LaneOk × List Byte) => destKey w.1.x.loc) ws).foldl (fun s g => match g with
      | [] => s
      | w :: _ => s.inject op (g.flatMap fun w => cellsFrom w.1.x.loc w.2) (BitVec.ofNat 64 w.1.va) (g.flatMap fun w => cellsFrom w.1.x.loc w.2).length rel
          w.1.x.via) w := by
  have e1 : ws.foldl (fun s w => if w.1.x.loc.tt = 7 then s.mmioWrite s.curTag s.cur.smode w.1.x.loc.addr w.2 else s) w = w :=
    foldl_still _ _ _ fun y hy => by
      have := h y hy
      rw [if_neg]; omega
  have e2 : ∀ v : State, ws.filter (fun y => y.1.x.loc.tt != 7 && (v.awayOf y.1 true).isNone) = ws := by
    intro v
    rw [List.filter_eq_self]
    intro y hy
    have := h y hy
    have h6 : v.awayOf y.1 true = none := by unfold State.awayOf; rw [if_neg]; omega
    rw [h6]
    simp; omega
  unfold State.postStores
  rw [e1]
  simp only [e2]
  try congr 1

/-- R84, R85, R132: the packets of a lane store to this device. -/
theorem postStores_injected (w : State) (op : PacketOp) (m : Mask) (va : Nat → Nat) (x : Nat → Xlat) (n : Nat) (f : Nat → Nat → Byte) (rel : Bool)
    (ht : ∀ k < 256, m.getLsbD k → (x k).loc.tt ≤ 5) (hv : ∀ k < 256, m.getLsbD k → (x k).via = 0) :
    ∃ keys : List (Nat × Nat), keys.Nodup ∧ (∀ c, c ∈ keys ↔ ∃ k < 256, m.getLsbD k ∧ destKey (x k).loc = c) ∧
      Injected w (w.postStores op rel ((okLanes m va x).map fun l => (l, (List.range n).map (f l.lane)))) rel
        (keys.map fun c => (op, (maskLanes (destLanes m (fun k => (x k).loc) c)).flatMap fun k =>
          (List.range n).map fun j => (⟨(x k).loc.tt, (x k).loc.addr + j⟩, f k j))) := by
  let ws : Nat → LaneOk × List Byte := fun k => (⟨k, va k, x k⟩, (List.range n).map (f k))
  have e0 : ((okLanes m va x).map fun l => (l, (List.range n).map (f l.lane))) = (maskLanes m).map ws := by
    rw [okLanes, List.map_map]; rfl
  have ht' : ∀ y ∈ (maskLanes m).map ws, y.1.x.loc.tt ≤ 5 := by
    intro y hy
    obtain ⟨k, hk, rfl⟩ := List.mem_map.1 hy
    exact ht k (mem_maskLanes.1 hk).1 (mem_maskLanes.1 hk).2
  obtain ⟨keys, k1, k2, k3⟩ := groupBy_lanes m (fun k => (x k).loc) ws (fun y => destKey y.1.x.loc) fun _ => rfl
  refine ⟨keys, k1, k2, ?_⟩
  rw [e0, postStores_here _ _ _ _ ht', k3]
  have h1 := injected_fold (fun s g => match g with
      | [] => s
      | w :: _ => s.inject op (g.flatMap fun w => cellsFrom w.1.x.loc w.2) (BitVec.ofNat 64 w.1.va) (g.flatMap fun w => cellsFrom w.1.x.loc w.2).length rel
          w.1.x.via)
    (fun g : List (LaneOk × List Byte) => (op, g.flatMap fun w => cellsFrom w.1.x.loc w.2)) rel
    (keys.map fun c => (maskLanes (destLanes m (fun k => (x k).loc) c)).map ws) w (by
      intro g hg t
      obtain ⟨c, hc, rfl⟩ := List.mem_map.1 hg
      have hne := destLanes_ne ((k2 c).1 hc)
      have h0 : ∀ k ∈ maskLanes (destLanes m (fun k => (x k).loc) c), (x k).via = 0 := by
        intro k hk
        have hk := mem_maskLanes.1 hk
        exact hv k hk.1 (by have := hk.2; rw [destLanes, getLsbD_ofBits _ hk.1] at this; simp at this; exact this.1)
      generalize maskLanes (destLanes m (fun k => (x k).loc) c) = l at hne h0
      cases l with
      | nil => exact absurd rfl hne
      | cons k l =>
        refine ⟨BitVec.ofNat 64 (va k), ((ws k :: l.map ws).flatMap fun w => cellsFrom w.1.x.loc w.2).length, ?_⟩
        simp only [List.map_cons, ws]
        rw [h0 k (List.mem_cons_self ..)])
  have h2 : (keys.map fun c => (maskLanes (destLanes m (fun k => (x k).loc) c)).map ws).map
      (fun g : List (LaneOk × List Byte) => ((op, g.flatMap fun w => cellsFrom w.1.x.loc w.2) : PacketOp × List (Loc × Byte))) =
      keys.map fun c => (op, (maskLanes (destLanes m (fun k => (x k).loc) c)).flatMap fun k =>
          (List.range n).map fun j => (⟨(x k).loc.tt, (x k).loc.addr + j⟩, f k j)) := by
    rw [List.map_map]
    refine List.map_congr_left fun c _ => ?_
    simp only [Function.comp, List.flatMap_map, ws, cellsFrom_map]
  rw [h2] at h1
  exact h1

/-! ## Memory as a part of the state -/

/-- A state with another one's memory. -/
def State.memOf (s v : State) : State :=
  { s with grans := v.grans, hbm := v.hbm, sp := v.sp, vrf := v.vrf, acc := v.acc, host := v.host }
theorem State.memOf_writeByte (s v : State) (l : Loc) (b : Byte) (h4 : l.tt ≠ 4) : (s.memOf v).writeByte l b = s.memOf (v.writeByte l b) := by
  obtain ⟨tt, a⟩ := l
  simp only at h4
  unfold State.writeByte
  simp only
  split
  · unfold State.scrubLine
    have : (s.memOf v).unscrubbed a = v.unscrubbed a := rfl
    rw [this]
    split <;> rfl
  all_goals first | rfl | exact absurd rfl h4
theorem State.memOf_writeAll (s : State) : ∀ (cells : List (Loc × Byte)) (v : State), (∀ c ∈ cells, c.1.tt ≠ 4) → (s.memOf v).writeAll cells = s.memOf (v.writeAll cells)
  | [], _, _ => rfl
  | (l, b) :: t, v, h => by
    rw [State.writeAll, State.memOf_writeByte _ _ _ _ (h (l, b) (List.mem_cons_self ..)),
      State.memOf_writeAll s t _ fun c hc => h c (List.mem_cons_of_mem _ hc)]
    rfl
theorem State.writeAll_eq (s : State) (cells : List (Loc × Byte)) (h : ∀ c ∈ cells, c.1.tt ≠ 4) : s.writeAll cells = s.memOf (s.writeAll cells) :=
  State.memOf_writeAll s cells s h
theorem State.memOf_readByte (s v : State) (l : Loc) (h : l.tt ≠ 4) : (s.memOf v).readByte l = v.readByte l := by
  obtain ⟨tt, a⟩ := l
  unfold State.readByte
  simp only
  split <;> first | rfl | exact absurd rfl h

/-- Who owns a granule does not change by a write. -/
theorem State.gran_writeByte (s : State) (l : Loc) (b : Byte) (h4 : l.tt ≠ 4) (g : Nat) :
    ((s.writeByte l b).gran g).owner = (s.gran g).owner ∧ ((s.writeByte l b).gran g).shr = (s.gran g).shr ∧
    ((s.writeByte l b).gran g).region = (s.gran g).region := by
  obtain ⟨tt, a⟩ := l
  simp only at h4
  unfold State.writeByte
  simp only
  split
  · unfold State.scrubLine
    split
    · simp only [State.setGran, State.gran]
      by_cases hg : g = granOf a
      · subst hg; simp only [SMap.get_set_same, and_self]
      · simp only [SMap.get_set_ne _ _ _ hg, and_self]
    · exact ⟨rfl, rfl, rfl⟩
  all_goals first | exact absurd rfl h4 | simp only [State.gran, and_self]
theorem State.gran_writeAll : ∀ (cells : List (Loc × Byte)) (s : State), (∀ c ∈ cells, c.1.tt ≠ 4) → ∀ g,
    ((s.writeAll cells).gran g).owner = (s.gran g).owner ∧ ((s.writeAll cells).gran g).shr = (s.gran g).shr ∧
    ((s.writeAll cells).gran g).region = (s.gran g).region
  | [], _, _, _ => ⟨rfl, rfl, rfl⟩
  | (l, b) :: t, s, h, g => by
    have h1 := State.gran_writeByte s l b (h (l, b) (List.mem_cons_self ..)) g
    have h2 := State.gran_writeAll t (s.writeByte l b) (fun c hc => h c (List.mem_cons_of_mem _ hc)) g
    exact ⟨h2.1.trans h1.1, h2.2.1.trans h1.2.1, h2.2.2.trans h1.2.2⟩
theorem State.delivers_congr' {s t : State} (hv : t.vfs = s.vfs) (hg : ∀ g, (t.gran g).owner = (s.gran g).owner ∧ (t.gran g).shr = (s.gran g).shr ∧
    (t.gran g).region = (s.gran g).region) (hr : t.regions = s.regions) (ht : ∀ x, (t.tile x).owner = (s.tile x).owner)
    (hc : ∀ c, (t.core c).lost = (s.core c).lost) (a : Agent) (l : Loc) : t.delivers a l = s.delivers a l := by
  have ho : t.ownerAt l = s.ownerAt l := by
    unfold State.ownerAt
    split
    · simp only [(hg _).1, (hg _).2.1]
    · rfl
    · rw [ht]
  have hcr : ∀ a b c, t.carrier a b c = s.carrier a b c := by intro a b c; unfold State.carrier State.vf; rw [hv]
  have hvf : ∀ v, t.vf v = s.vf v := by intro v; unfold State.vf; rw [hv]
  unfold State.delivers
  simp only [ho, hcr, hvf, (hg _).2.2, hr, hc]

/-! ## Arrival of stores -/

/-- R130: a packet that may arrive, of this device, is applied where it goes. -/
theorem State.deliver_here {s : State} {p : Packet} (hm : s.mayArrive p = true) (hl : s.locks = []) (ht : p.first.tt ≠ 6)
    (hd : s.delivers p.src p.first = true) :
    s.deliver p = ({ s with packets := s.packets.filter fun q => q.id ≠ p.id } : State).applyPacket p := by
  unfold State.deliver
  have : s.packetLocked p = false := by simp [State.packetLocked, hl]
  rw [if_neg (by simp [hm, this])]
  simp only
  rw [if_neg ht, if_pos hd]

/-- R89, R311: with no L1 line, poison or export a store packet writes its bytes and nothing else. -/
theorem State.applyStore {s : State} {p : Packet} (hop : p.op = .store) (h4 : ∀ c ∈ p.writes, c.1.tt ≠ 4) (hl : (s.core p.src.core).l1 = [])
    (hpo : s.poison = []) (he : s.exports = []) : s.applyPacket p = s.writeAll p.writes := by
  have e := State.writeAll_eq s p.writes h4
  unfold State.applyPacket
  rw [hop]
  simp only
  have h1 : (s.writeAll p.writes).l1Store p.src.core p.writes = s.writeAll p.writes := by
    unfold State.l1Store
    have : ((s.writeAll p.writes).core p.src.core).l1 = [] := by rw [e]; exact hl
    simp [this]
  rw [h1]
  have h2 : (s.writeAll p.writes).clearPoison (p.writes.map Prod.fst) = s.writeAll p.writes := by
    unfold State.clearPoison
    have : (s.writeAll p.writes).poison = [] := by rw [e]; exact hpo
    simp [this]
  rw [h2]
  unfold State.forwardWrites
  have : (s.writeAll p.writes).exports = [] := by rw [e]; exact he
  simp [this]

theorem State.writeAll_append : ∀ (a b : List (Loc × Byte)) (s : State), s.writeAll (a ++ b) = (s.writeAll a).writeAll b
  | [], _, _ => rfl
  | (l, x) :: a, b, s => by simp only [List.cons_append, State.writeAll]; exact State.writeAll_append a b _

/-- R197: the context's packets, alone in flight, arrive in their order. -/
theorem State.flush_stores : ∀ (ps : List Packet) (s : State), s.packets = ps → (∀ p ∈ ps, p.op = .store ∧ (∀ c ∈ p.writes, c.1.tt ≠ 4) ∧
      (s.core p.src.core).l1 = [] ∧ p.first.tt ≠ 6 ∧ s.delivers p.src p.first = true) → ps.Pairwise (fun p q => p.id < q.id) →
    s.locks = [] → s.poison = [] → s.exports = [] →
    ps.foldl (fun s p => s.deliver p) s = ({ s with packets := [] } : State).writeAll (ps.flatMap fun (p : Packet) => p.writes)
  | [], s, hs, _, _, _, _, _ => by simp only [List.foldl_nil, List.flatMap_nil, State.writeAll]; rw [← hs]
  | p :: ps, s, hs, h, hw, hl, hpo, he => by
    obtain ⟨h1, h2, h3, h4, h5⟩ := h p (List.mem_cons_self ..)
    have hlt := (List.pairwise_cons.1 hw).1
    have hm : s.mayArrive p = true := by
      unfold State.mayArrive
      rw [Bool.not_eq_true', List.any_eq_false]
      intro q hq
      rw [hs] at hq
      have : ¬ q.id < p.id := by
        rcases List.mem_cons.1 hq with rfl | hq
        · omega
        · have := hlt q hq; omega
      simp [this]
    have hf : s.packets.filter (fun q => q.id ≠ p.id) = ps := by
      rw [hs, List.filter_cons]
      simp only [ne_eq, not_true_eq_false, decide_false, Bool.false_eq_true, if_false]
      rw [List.filter_eq_self]
      intro q hq
      have := hlt q hq
      simp; omega
    let v : State := { s with packets := ps }
    have hv : s.deliver p = v.writeAll p.writes := by
      rw [State.deliver_here hm hl h4 h5, hf]
      exact State.applyStore (s := v) h1 h2 h3 hpo he
    have e := State.writeAll_eq v p.writes h2
    have ih := State.flush_stores ps (v.writeAll p.writes) (by rw [e]; rfl) (by
        intro q hq
        obtain ⟨g1, g2, g3, g4, g5⟩ := h q (List.mem_cons_of_mem _ hq)
        refine ⟨g1, g2, by rw [e]; exact g3, g4, ?_⟩
        rw [State.delivers_congr' (s := s) (by rw [e]; rfl) (State.gran_writeAll p.writes v h2) (by rw [e]; rfl) (fun x => by rw [e]; rfl) (fun x => by rw [e]; rfl)]
        exact g5) (List.pairwise_cons.1 hw).2 (by rw [e]; exact hl) (by rw [e]; exact hpo) (by rw [e]; exact he)
    rw [List.foldl_cons, hv, ih, List.flatMap_cons, State.writeAll_append]
    congr 1
    let z : State := { s with packets := [] }
    have e2 : ({ v.writeAll p.writes with packets := [] } : State) = z.memOf (v.writeAll p.writes) := by rw [e]; rfl
    rw [e2]
    exact (State.memOf_writeAll z p.writes v h2).symm

/-! ## Where a translated access may go -/

theorem ite_ok {α β : Type} {c : Prop} [Decidable c] {a : α} {b : Except α β} {x : β} (h : (if c then .error a else b) = Except.ok x) : ¬c ∧ b = .ok x := by
  by_cases hc : c
  · rw [if_pos hc] at h; exact nomatch h
  · rw [if_neg hc] at h; exact ⟨hc, h⟩
theorem State.useLeaf_tt {s : State} {tag : Nat} {p : Part} {vf : Nat} {user : Bool} {acc : Acc} {va : Nat} {large : Bool} {e : Nat} {x : Xlat}
    (h : s.useLeaf tag p vf user acc va large e = .ok x) : refused x.loc.tt acc = false := by
  have hpl : ∀ pa l, p.place pa = some l → l.tt = 0 := by
    intro pa l hl
    unfold Part.place at hl
    split at hl
    · simp at hl
    · split at hl
      · injection hl with hl; rw [← hl]
      · simp at hl
  have hlt : leafTT e < 8 := by unfold leafTT field; exact Nat.mod_lt _ (by decide)
  unfold State.useLeaf at h
  obtain ⟨-, h⟩ := ite_ok h
  obtain ⟨-, h⟩ := ite_ok h
  obtain ⟨-, h⟩ := ite_ok h
  extract_lets tt t off pa sk at h
  cases hh : (if tt = 0 then p.place pa else some ⟨0, 0⟩) with
  | none => rw [hh] at h; exact nomatch h
  | some hbm =>
    rw [hh] at h
    simp only at h
    obtain ⟨-, h⟩ := ite_ok h
    obtain ⟨-, h⟩ := ite_ok h
    obtain ⟨-, h⟩ := ite_ok h
    obtain ⟨-, h⟩ := ite_ok h
    obtain ⟨hr, h⟩ := ite_ok h
    obtain ⟨-, h⟩ := ite_ok h
    obtain ⟨-, h⟩ := ite_ok h
    injection h with h
    have hr : refused tt acc = false := by simpa using hr
    rw [← h]
    have ht8 : tt < 8 := hlt
    by_cases h0 : tt = 0
    · rw [if_pos h0] at hh
      have h1 : hbm.tt = 0 := hpl _ _ hh
      simp only [h0, h1] at hr ⊢
      exact hr
    · generalize tt = z at *
      interval_cases z <;> first | contradiction | exact hr
theorem State.checkLane_tt {s : State} (he : s.exports = []) {acc : Acc} {n va salt : Nat} {x : Xlat} (h : s.checkLane acc n va salt = .ok x)
    (hx : x.loc.tt ≤ 5) : refused x.loc.tt acc = false := by
  have hy := (State.checkLane_here he h hx).2
  unfold State.translate at hy
  simp only at hy
  split at hy
  · exact nomatch hy
  · split at hy
    · exact nomatch hy
    · exact State.useLeaf_tt hy

/-! ## The issue of a store -/

/-- The bytes lanes store, one by one. -/
def laneCells (n : Nat) (f : Nat → Nat → Byte) (place : Nat → Loc) (m : Mask) : List (Loc × Byte) :=
  (maskLanes m).flatMap fun k => (List.range n).map fun j => (⟨(place k).tt, (place k).addr + j⟩, f k j)

theorem laneCells_tt {n : Nat} {f : Nat → Nat → Byte} {place : Nat → Loc} {m : Mask} {P : Nat → Prop} (h : ∀ k < 256, m.getLsbD k → P (place k).tt) :
    ∀ c ∈ laneCells n f place m, P c.1.tt := by
  intro c hc
  simp only [laneCells, List.mem_flatMap, List.mem_map] at hc
  obtain ⟨k, hk, j, -, rfl⟩ := hc
  exact h k (mem_maskLanes.1 hk).1 (mem_maskLanes.1 hk).2
theorem destLanes_sub {m : Mask} {place : Nat → Loc} {c : Nat × Nat} {k : Nat} (hk : k < 256) (h : (destLanes m place c).getLsbD k = true) : m.getLsbD k = true := by
  rw [destLanes, getLsbD_ofBits _ hk] at h
  simp at h; exact h.1

/-- A store of n bytes a lane to places of this device, posted, or performed at once. -/
theorem issue_store {s : State} (h : s.Ready) (ha : s.Alone) (c : Meta) (hc : s.illegal c = none)
    (hi : c.insn = false) (hr : c.nonreplay = false) (rel sc : Bool) (n : Nat) (hn : 0 < n) (f : Nat → Nat → Byte) (m : Mask) (va : Nat → Nat) (x : Nat → Xlat)
    (hl : s.Reaches (.store n) n m va x) (k : State → State) (hk : ∀ w : State, w.peers = [] → k w = w) (body : State → Eff)
    (hb : body (s.charge c) = (s.charge c).withLanes (.store n) n ((maskLanes m).map fun k => (k, va k)) fun t oks =>
      t.storeLanes .store rel (oks.map fun l => (l, (List.range n).map (f l.lane))) fun t => .done (k (if sc then t.flush t.own else t))) :
    ∃ t u, issue c s body = .next t ∧ s.Returns u t c.len c.settle [] ∧
      (sc = false → s.Posts u m (fun k => (x k).loc) rel fun l => (.store, laneCells n f (fun k => (x k).loc) l)) ∧
      (sc = true → ∃ keys : List (Nat × Nat), keys.Nodup ∧ (∀ c, c ∈ keys ↔ ∃ k < 256, m.getLsbD k ∧ destKey (x k).loc = c) ∧
        s.Performs u (keys.flatMap fun c => laneCells n f (fun k => (x k).loc) (destLanes m (fun k => (x k).loc) c))) := by
  let p := (s.charge c).cachePages s.curTag ((maskLanes m).map va)
  have hp : (s.charge c).Cached p := State.cachePages_cached _ _ _
  obtain ⟨g1, g2, g3, -⟩ := cached_alone ha c hp (cachePages_l1 ha c _ _)
  have hcores : p.cores = (s.charge c).cores := by
    simp only [p]
    unfold State.cachePages
    extract_lets q add tlb
    split
    · rfl
    · unfold State.updPart; split <;> rfl
  have hmem : p = { (s.charge c) with parts := p.parts } := by
    simp only [p]
    unfold State.cachePages
    extract_lets q add tlb
    split
    · rfl
    · unfold State.updPart; split <;> rfl
  obtain ⟨keys, k1, k2, k3⟩ := postStores_injected p .store m va x n f rel (fun k h1 h2 => (hl k h1 h2).2.1) fun k h1 h2 =>
    State.checkLane_via ha.exports (hl k h1 h2).1 (hl k h1 h2).2.1
  let v := p.postStores .store rel ((okLanes m va x).map fun l => (l, (List.range n).map (f l.lane)))
  have hk3 : Injected p v rel (keys.map fun c => (.store, laneCells n f (fun k => (x k).loc) (destLanes m (fun k => (x k).loc) c))) := k3
  obtain ⟨ps, p1, p2, p3, p4⟩ := hk3.sent
  rw [g1, List.nil_append] at p1
  have hbody : body (s.charge c) = .done (k (if sc then v.flush v.own else v)) := by
    have h5 : ∀ l ∈ ((okLanes m va x).map fun l => ((l, (List.range n).map (f l.lane)) : LaneOk × List Byte)).map Prod.fst, l.x.loc.tt ≤ 5 := by
      intro l hl'
      rw [List.map_map] at hl'
      obtain ⟨y, hy, rfl⟩ := List.mem_map.1 hl'
      obtain ⟨k, hk, rfl⟩ := List.mem_map.1 hy
      exact (hl k (mem_maskLanes.1 hk).1 (mem_maskLanes.1 hk).2).2.1
    rw [hb, withLanes_reaches ha c hl, State.storeLanes, State.whenReleased_here _ _ _ h5, State.askAll_here _ _ _ _ h5]
  have hag : p.agent = s.agent := by rw [hp.agent, charge_agent]
  have hps : ∀ q ∈ ps, ∃ κ, (∃ k < 256, m.getLsbD k ∧ destKey (x k).loc = κ) ∧ q.op = .store ∧ q.writes = laneCells n f (fun k => (x k).loc) (destLanes m (fun k => (x k).loc) κ) := by
    intro q hq
    have : (q.op, q.writes) ∈ ps.map (fun p => (p.op, p.writes)) := List.mem_map.2 ⟨q, hq, rfl⟩
    rw [p2] at this
    obtain ⟨κ, hκ, he⟩ := List.mem_map.1 this
    injection he with e1 e2
    exact ⟨κ, (k2 κ).1 hκ, e1.symm, e2.symm⟩
  have hx4 : ∀ k < 256, m.getLsbD k → (x k).loc.tt ≠ 4 ∧ (x k).loc.tt ≤ 5 := by
    intro k h1 h2
    have := State.checkLane_tt ha.exports (hl k h1 h2).1 (hl k h1 h2).2.1
    refine ⟨?_, (hl k h1 h2).2.1⟩
    intro h4
    rw [h4] at this
    simp [refused] at this
  have hvrest : v = { (s.charge c).restOf v with cores := v.cores } := by
    have e := hk3.same
    rw [hmem] at e
    rw [e]; rfl
  have hvcore : ∀ i, v.core i = (s.charge c).core i := by
    intro i
    have e1 : v.core i = p.core i := by rw [hk3.same]; rfl
    rw [e1, State.core, hcores]; rfl
  have hpart : ∀ q, ({ v.part q with tlb := [] } : Part) = { (s.charge c).part q with tlb := [] } := by
    intro q
    have e : v.part q = p.part q := by rw [hk3.same]; rfl
    rw [e]; exact hp.parts q
  have hlaunch : ∀ l, ({ v.launch l with rseq := [], wseq := [] } : Launch) = { (s.charge c).launch l with rseq := [], wseq := [] } := by
    intro l; rw [hk3.launches l]; exact hp.launches l
  have hcur : v.cur = (s.charge c).cur := by rw [hk3.same]; exact hp.cur
  have hsv : (s.restOf v).restOf v = s.restOf v := rfl
  have hmark : ∀ z : State, z.mark c.nonreplay = z := by intro z; rw [hr, State.mark_false]
  have hsame : s.restOf v = { s with parts := v.parts, launches := v.launches, packets := v.packets, nextId := v.nextId } := by
    have e : (v.grans, v.hbm, v.sp, v.vrf, v.acc, v.host) = (s.grans, s.hbm, s.sp, s.vrf, s.acc, s.host) := by rw [hk3.same, hmem]; simp
    simp only [Prod.mk.injEq] at e
    simp only [State.restOf, e]
  have hpeers : v.peers = [] := by rw [hk3.same, hmem]; simp [ha.peers]
  cases sc with
  | false =>
    let u := s.restOf v
    have hu : u.Keeps (v.mark c.nonreplay) := by rw [hmark]; exact State.rest_keeps hvrest hvcore
    obtain ⟨t, t1, t2⟩ := issue_returns (u := u) (w := v) (vals := []) h hc (.inl hi) (body := body) (by rw [hbody]; simp [hk v hpeers]) (by simp) hu
      (by simp [hcur]) (by simp [hcur]) (by simp [hcur, h.word]) (by simp [hcur, h.recipe]) (by simp [hcur, h.written]) (by simp [hcur, h.poisonV]) (by simp [hcur, h.poisonS])
    refine ⟨t, u, t1, t2, fun _ => ⟨hsame, State.numbered_rest hpart hlaunch, ⟨keys, k1, k2, ?_⟩, ?_⟩, fun hf => nomatch hf⟩
    · rw [show u.packets = ps from p1, p2]
    · intro q hq
      rw [show u.packets = ps from p1] at hq
      obtain ⟨a1, a2, -⟩ := p3 q hq
      refine ⟨a1.trans hag, ?_⟩
      rw [a2, hp.cur]; simp
  | true =>
    let cells := keys.flatMap fun c => laneCells n f (fun k => (x k).loc) (destLanes m (fun k => (x k).loc) c)
    have hcells : (ps.flatMap fun (p : Packet) => p.writes) = cells := by
      have e := congrArg (fun l : List (PacketOp × List (Loc × Byte)) => l.flatMap fun y => y.2) p2
      simp only [List.flatMap_map] at e
      exact e
    have htt : ∀ y ∈ cells, y.1.tt ≠ 4 ∧ y.1.tt ≤ 5 := by
      intro y hy
      obtain ⟨κ, -, hy⟩ := List.mem_flatMap.1 hy
      exact laneCells_tt (P := fun t => t ≠ 4 ∧ t ≤ 5) (fun k h1 h2 => hx4 k h1 (destLanes_sub h1 h2)) y hy
    let z : State := { v with packets := [] }
    have hflush : v.flush v.own = z.writeAll cells := by
      unfold State.flush
      have hown : v.packets.filter v.own = ps := by
        rw [p1, List.filter_eq_self]
        intro q hq
        have e := (p3 q hq).1
        simp [State.own, e, State.agent, State.agentOf, hp.cur, hcur]
      rw [hown, ← hcells]
      refine State.flush_stores ps v p1 ?_ p4 (by rw [hk3.same]; exact g2) (by rw [hk3.same]; exact g3) ?_
      · intro q hq
        obtain ⟨κ, hκ, e1, e2⟩ := hps q hq
        obtain ⟨a1, -⟩ := p3 q hq
        have hne := destLanes_ne hκ
        obtain ⟨k, l, hkl⟩ := List.exists_cons_of_ne_nil hne
        have hkm : k ∈ maskLanes (destLanes m (fun k => (x k).loc) κ) := by rw [hkl]; exact List.mem_cons_self ..
        obtain ⟨b1, b2⟩ := mem_maskLanes.1 hkm
        have b3 := destLanes_sub b1 b2
        have hfirst : q.first = (x k).loc := by
          unfold Packet.first
          rw [e1, e2, laneCells, hkl]
          obtain ⟨n', rfl⟩ : ∃ n', n = n' + 1 := ⟨n - 1, by omega⟩
          simp [List.range_succ_eq_map]
        refine ⟨e1, ?_, ?_, ?_, ?_⟩
        · intro y hy
          rw [e2] at hy
          exact (laneCells_tt (P := fun t => t ≠ 4 ∧ t ≤ 5) (fun k h1 h2 => hx4 k h1 (destLanes_sub h1 h2)) y hy).1
        · rw [a1, hag, hvcore]
          have : s.agent.core = s.cur.core := rfl
          rw [this, charge_core_l1, ha.l1]
        · rw [hfirst]; have := (hl k b1 b3).2.1; omega
        · rw [hfirst, a1, hag]
          have e3 : v.delivers s.agent (x k).loc = p.delivers s.agent (x k).loc :=
            State.delivers_congr (by rw [hk3.same]) (by rw [hk3.same]) (by rw [hk3.same]) (fun i => by rw [hk3.same]; rfl) (fun i => by rw [hk3.same]; rfl) _ _
          rw [e3, hp.delivers, charge_delivers]
          exact (hl k b1 b3).2.2
      · rw [hk3.same, hmem]; simp [ha.exports]
    have hw := State.writeAll_eq z cells fun y hy => (htt y hy).1
    let w := z.writeAll cells
    have hwm : w = z.memOf w := hw
    have hwrest : w = { (s.charge c).restOf w with cores := w.cores } := by
      have e1 : z = { (s.charge c).restOf z with cores := z.cores } := by
        have := congrArg (fun y : State => ({ y with packets := [] } : State)) hvrest
        exact this
      have e2 := congrArg (fun y : State => y.memOf w) e1
      rw [hwm]; exact e2
    have hwcore : ∀ i, w.core i = (s.charge c).core i := by intro i; rw [hwm]; exact hvcore i
    let u := s.restOf w
    have hu : u.Keeps (w.mark c.nonreplay) := by rw [hmark]; exact State.rest_keeps hwrest hwcore
    have hwcur : w.cur = (s.charge c).cur := by rw [hwm]; exact hcur
    obtain ⟨t, t1, t2⟩ := issue_returns (u := u) (w := w) (vals := []) h hc (.inl hi) (body := body) (by rw [hbody, hflush]; simp only [if_true]; rw [hk w (by rw [hwm]; exact hpeers)]) (by simp) hu
      (by simp [hwcur]) (by simp [hwcur]) (by simp [hwcur, h.word]) (by simp [hwcur, h.recipe]) (by simp [hwcur, h.written]) (by simp [hwcur, h.poisonV]) (by simp [hwcur, h.poisonS])
    refine ⟨t, u, t1, t2, (fun hf => nomatch hf), fun _ => ⟨keys, k1, k2, ?_, ?_, ?_⟩⟩
    · have e : w.packets = s.packets := by rw [hwm, ha.packets]; rfl
      simp only [u, State.restOf]
      rw [e]
    · refine State.numbered_rest (c := c) ?_ ?_
      · intro q; rw [hwm]; exact hpart q
      · intro l; rw [hwm]; exact hlaunch l
    · have hst : s.Stored (s.writeAll cells) cells := State.writeAll_stores cells s htt
      have hzs : z = z.memOf s := by
        have e := congrArg (fun y : State => (y.grans, y.hbm, y.sp, y.vrf, y.acc, y.host)) hsame
        simp only [Prod.mk.injEq, State.restOf] at e
        simp only [z, State.memOf, e]
      have hws : w = z.memOf (s.writeAll cells) := by
        have := State.memOf_writeAll z cells s fun y hy => (htt y hy).1
        rw [← hzs] at this
        exact this
      have hub : ∀ l, u.readByte l = (s.writeAll cells).readByte l := by
        intro l
        have hs2 := State.writeAll_eq s cells fun y hy => (htt y hy).1
        refine State.readByte_same ?_ l
        change (w.grans, w.hbm, w.sp, w.vrf, w.acc, s.planes, w.host) = _
        rw [hws, show (s.writeAll cells).planes = s.planes by rw [hs2]; rfl]; rfl
      exact ⟨fun l b hb => by rw [hub]; exact hst.last l b hb, fun l hl => by rw [hub]; exact hst.others l hl⟩

end Sys2Proof.Machine
end

