-- ==== Sys2Proof/Laws/Effects.lean ====
section
/-!
SUPPORT. Effects under the counters of an issue: an effect that does not read what an issue moves or counts leaves, at the issue and in the
state before it, the same but for those.
-/

namespace Sys2Proof.Machine

/-- An effect on the state outside its cores and tiles. -/
theorem State.Keeps.map {s t : State} (h : s.Keeps t) (F G : State → State) (hb : ∀ x : State, (F x).bare = G x.bare)
    (hc : ∀ x : State, (F x).cores = x.cores ∧ (F x).tiles = x.tiles) : (F s).Keeps (F t) := by
  refine State.keeps_iff.2 ⟨?_, ?_, ?_⟩
  · rw [hb, hb, (State.keeps_iff.1 h).1]
  · intro c; simpa [State.core, (hc _).1] using h.2.1 c
  · intro x; simpa [State.tile, (hc _).2] using h.2.2 x
/-- An effect on the current context. -/
theorem State.Keeps.updCur {s t : State} (h : s.Keeps t) (f g : Ctx → Ctx) (hf : ∀ c : Ctx, (f c).aside = g c.aside) : (s.updCur f).Keeps (t.updCur f) :=
  h.map (fun x => x.updCur f) (fun x => { x with cur := g x.cur }) (fun x => by
    have := hf x.cur
    simp only [State.bare, State.updCur, this]) fun _ => ⟨rfl, rfl⟩
/-- An effect on one core. -/
theorem State.Keeps.updCore {s t : State} (h : s.Keeps t) (i : Nat) (f g : Core → Core) (hf : ∀ c : Core, (f c).aside = g c.aside) :
    (s.updCore i f).Keeps (t.updCore i f) := by
  refine State.keeps_iff.2 ⟨?_, ?_, ?_⟩
  · have e := (State.keeps_iff.1 h).1; exact e
  · intro c
    simp only [State.updCore, State.setCore, State.core]
    by_cases hc : c = i
    · subst hc; rw [SMap.get_set_same, SMap.get_set_same, hf, hf]; exact congrArg g (h.2.1 c)
    · rw [SMap.get_set_ne _ _ _ hc, SMap.get_set_ne _ _ _ hc]; exact h.2.1 c
  · intro x; exact h.2.2 x

/-- An instruction without a result whose effect is F. -/
theorem issue_effect {m : Meta} {s u w : State} (h : s.Ready) (hi : s.illegal m = none) (hn : m.insn = false ∨ s.cur.txg = false)
    {body : State → Eff} (hb : body (s.charge m) = .done w) (hw : u.Keeps w) (hr : m.nonreplay = false)
    (hpc : w.cur.pc = s.cur.pc) (hlp : w.cur.loop = s.cur.loop) (hl : w.cur.slotLen = 0) (hrr : w.cur.recipe = none)
    (hd : w.cur.deferred = []) (hv : w.cur.poisonV = []) (hs : w.cur.poisonS = 0) :
    ∃ t, issue m s body = .next t ∧ s.Returns u t m.len m.settle [] := by
  refine issue_returns (u := u) (w := w) (vals := []) h hi hn (by rw [hb]; simp) (by simp) ?_ hpc hlp hl hrr hd hv hs
  have e : w.mark m.nonreplay = w := by rw [hr, State.mark_false]
  have e2 : u.Keeps (w.mark m.nonreplay) := by rw [e]; exact hw
  exact e2
/-- The same of an instruction that a recipe may not replay (R303). -/
theorem issue_effect_nonreplay {m : Meta} {s u w : State} (h : s.Ready) (hi : s.illegal m = none) (hn : m.insn = false ∨ s.cur.txg = false)
    {body : State → Eff} (hb : body (s.charge m) = .done w) (hw : u.Keeps w)
    (hpc : w.cur.pc = s.cur.pc) (hlp : w.cur.loop = s.cur.loop) (hl : w.cur.slotLen = 0) (hrr : w.cur.recipe = none)
    (hd : w.cur.deferred = []) (hv : w.cur.poisonV = []) (hs : w.cur.poisonS = 0) :
    ∃ t, issue m s body = .next t ∧ s.Returns (u.mark m.nonreplay) t m.len m.settle [] :=
  issue_returns (u := u.mark m.nonreplay) (w := w) (vals := []) h hi hn (by rw [hb]; simp) (by simp) (hw.mark _) hpc hlp hl hrr hd hv hs

/-- An instruction whose effect is u and whose result is still out. -/
theorem issue_leftEffect {m : Meta} {s u w : State} (h : s.Ready) (hi : s.illegal m = none) (hn : m.insn = false ∨ s.cur.txg = false)
    (hr : m.nonreplay = false) {body : State → Eff} {vals : List DVal} {fl : FFlags} {due : Nat} {ready : Bool}
    (hb : body (s.charge m) = .done (w.defer vals fl due ready)) (hdue : due ≠ 0 ∨ ready = false) (hw : u.Keeps w)
    (hpc : w.cur.pc = s.cur.pc) (hlp : w.cur.loop = s.cur.loop) (hl : w.cur.slotLen = 0) (hrr : w.cur.recipe = none) (hd : w.cur.deferred = []) :
    ∃ t, issue m s body = .next t ∧ t.cur.deferred = [⟨u.nextId, vals, fl, due, ready⟩] ∧ t.cur.park = (if m.settle then some .settle else none) ∧
      s.GoesOn t m.len ∧ u.SameBytes t ∧ t.vrf = u.vrf ∧ u.Keeps { t with nextId := u.nextId, cur := { t.cur with deferred := [] } } := by
  have hb1 := (State.keeps_iff.1 hw).1
  have hid : w.nextId = u.nextId := by have e := congrArg State.nextId hb1; exact e
  have hd2 : (w.defer vals fl due ready).cur.deferred = [⟨u.nextId, vals, fl, due, ready⟩] := by
    simp [State.defer, hd, contestNew_nil, hid]
  refine ⟨(w.defer vals fl due ready).finish m.len m.nonreplay (if m.settle then some .settle else none), ?_, hd2, rfl, ?_, ?_, ?_, ?_⟩
  · rw [issue_open h hi hn, hb, Eff.close_done_timed (u := w.defer vals fl due ready) hrr hl hd2 hdue]
  · have hg : w.cur.follow m.len = s.cur.follow m.len := by simp [Ctx.follow, hpc, hlp]
    exact ⟨congrArg Prod.fst hg, congrArg Prod.snd hg⟩
  · refine State.sameBytes_of ?_ ?_ ?_ ?_ ?_ ?_
    · have e := congrArg State.grans hb1; exact e
    · have e := congrArg State.hbm hb1; exact e
    · have e := congrArg State.sp hb1; exact e
    · have e := congrArg State.acc hb1; exact e
    · have e := congrArg State.planes hb1; exact e
    · have e := congrArg State.host hb1; exact e
  · have e := congrArg State.vrf hb1; exact e
  · refine hw.trans ⟨?_, fun _ => rfl, fun _ => rfl⟩
    simp only [State.finish, Ctx.aside, State.defer, ← hid, ← hd, hr, Bool.or_false]

/-- An update of one partition reads and moves nothing an issue counts. -/
theorem State.Keeps.updPart {s t : State} (h : s.Keeps t) (i : Nat) (f : Part → Part) : (s.updPart i f).Keeps (t.updPart i f) :=
  h.map (fun x => x.updPart i f) (fun x => x.updPart i f) (fun x => by
    unfold State.updPart
    split
    · rename_i hx
      have : SMap.find x.bare.parts i = _ := hx
      rw [this]; rfl
    · rename_i hx
      have : SMap.find x.bare.parts i = _ := hx
      rw [this]) fun x => by unfold State.updPart; split <;> exact ⟨rfl, rfl⟩
/-- An update of one tile. -/
theorem State.Keeps.updTile {s t : State} (h : s.Keeps t) (i : Nat) (f g : Tile → Tile) (hf : ∀ c : Tile, (f c).aside = g c.aside) :
    (s.updTile i f).Keeps (t.updTile i f) := by
  refine State.keeps_iff.2 ⟨?_, ?_, ?_⟩
  · have e := (State.keeps_iff.1 h).1; exact e
  · intro x; exact h.2.1 x
  · intro c
    simp only [State.updTile, State.setTile, State.tile]
    by_cases hc : c = i
    · subst hc; rw [SMap.get_set_same, SMap.get_set_same, hf, hf]; exact congrArg g (h.2.2 c)
    · rw [SMap.get_set_ne _ _ _ hc, SMap.get_set_ne _ _ _ hc]; exact h.2.2 c
/-- An update of a launch. -/
theorem State.Keeps.updLaunch {s t : State} (h : s.Keeps t) (i : Nat) (f : Launch → Launch) : (s.updLaunch i f).Keeps (t.updLaunch i f) :=
  h.map (fun x => x.updLaunch i f) (fun x => x.updLaunch i f) (fun x => by
    unfold State.updLaunch
    split
    · rename_i hx
      have : SMap.find x.bare.launches i = _ := hx
      rw [this]; rfl
    · rename_i hx
      have : SMap.find x.bare.launches i = _ := hx
      rw [this]) fun x => by unfold State.updLaunch; split <;> exact ⟨rfl, rfl⟩

/-- Bytes written at once. -/
theorem State.Keeps.writeAll {s t : State} (h : s.Keeps t) (cells : List (Loc × Byte)) (h4 : ∀ c ∈ cells, c.1.tt ≠ 4) :
    (s.writeAll cells).Keeps (t.writeAll cells) := by
  have hb := (State.keeps_iff.1 h).1
  have ht : t = t.memOf s := by
    have e1 : t.grans = s.grans := by have e := congrArg State.grans hb; exact e
    have e2 : t.hbm = s.hbm := by have e := congrArg State.hbm hb; exact e
    have e3 : t.sp = s.sp := by have e := congrArg State.sp hb; exact e
    have e4 : t.vrf = s.vrf := by have e := congrArg State.vrf hb; exact e
    have e5 : t.acc = s.acc := by have e := congrArg State.acc hb; exact e
    have e6 : t.host = s.host := by have e := congrArg State.host hb; exact e
    unfold State.memOf
    rw [← e1, ← e2, ← e3, ← e4, ← e5, ← e6]
  have h1 : t.writeAll cells = t.memOf (s.writeAll cells) := by
    conv_lhs => rw [ht]
    exact State.memOf_writeAll t cells s h4
  rw [h1, State.writeAll_eq s cells h4]
  exact h.map (fun x => x.memOf (s.writeAll cells)) (fun x => x.memOf (s.writeAll cells)) (fun _ => rfl) fun _ => ⟨rfl, rfl⟩

end Sys2Proof.Machine
end

