-- ==== Sys2Proof/Laws/Atomics.lean ====
section
/-!
SUPPORT. Atomics and reductions when nothing else acts on the memory they meet.
-/

namespace Sys2Proof.Machine

/-! ## One read-modify-write -/

theorem State.rmwAt_alone {s : State} (core : Nat) (l : Loc) (op : Rmw) (w v cmp : Nat) (h4 : l.tt ≠ 4) (hl : (s.core core).l1 = []) (he : s.exports = []) :
    s.rmwAt core l op w v cmp = (s.readNum l w, s.writeNum l w (op.apply w (s.readNum l w) v cmp)) := by
  unfold State.rmwAt State.writeNum State.writeBytes
  simp only
  have htt : ∀ c ∈ cellsFrom l (natBytes w (op.apply w (s.readNum l w) v cmp)), c.1.tt ≠ 4 := by
    intro c hc
    unfold cellsFrom at hc
    obtain ⟨p, -, rfl⟩ := List.mem_map.1 hc
    exact h4
  generalize cellsFrom l (natBytes w (op.apply w (s.readNum l w) v cmp)) = cells at *
  have e := State.writeAll_eq s cells htt
  have h1 : (s.writeAll cells).l1Store core cells = s.writeAll cells := by
    unfold State.l1Store
    have : ((s.writeAll cells).core core).l1 = [] := by rw [e]; exact hl
    simp [this]
  rw [h1]
  unfold State.forwardWrites
  have : (s.writeAll cells).exports = [] := by rw [e]; exact he
  simp [this]

theorem State.memOf_readNum (z y : State) (l : Loc) (w : Nat) (h : l.tt ≠ 4) : (z.memOf y).readNum l w = y.readNum l w := by
  unfold State.readNum State.readBytes
  congr 1
  refine List.map_congr_left fun i _ => ?_
  exact State.memOf_readByte z y _ h
theorem State.memOf_writeNum (z y : State) (l : Loc) (w v : Nat) (h : l.tt ≠ 4) : (z.memOf y).writeNum l w v = z.memOf (y.writeNum l w v) := by
  unfold State.writeNum State.writeBytes
  refine State.memOf_writeAll z _ y fun c hc => ?_
  unfold cellsFrom at hc
  obtain ⟨p, -, rfl⟩ := List.mem_map.1 hc
  exact h
theorem State.writeNum_eq (y : State) (l : Loc) (w v : Nat) (h : l.tt ≠ 4) : y.writeNum l w v = y.memOf (y.writeNum l w v) := State.memOf_writeNum y y l w v h
theorem State.gran_writeNum (s : State) (l : Loc) (w v : Nat) (h : l.tt ≠ 4) (g : Nat) :
    ((s.writeNum l w v).gran g).owner = (s.gran g).owner ∧ ((s.writeNum l w v).gran g).shr = (s.gran g).shr ∧
    ((s.writeNum l w v).gran g).region = (s.gran g).region := by
  unfold State.writeNum State.writeBytes
  refine State.gran_writeAll _ s (fun c hc => ?_) g
  unfold cellsFrom at hc
  obtain ⟨p, -, rfl⟩ := List.mem_map.1 hc
  exact h

/-! ## Lane by lane -/

/-- One step of `swapLanes`. -/
def swapStep (w : Nat) (place : Nat → Loc) (f : Nat → Nat → Nat) (a : State × (Nat → Nat)) (k : Nat) : State × (Nat → Nat) :=
  (a.1.writeNum (place k) w (f k (a.1.readNum (place k) w)), fun j => if j = k then a.1.readNum (place k) w else a.2 j)
theorem State.swapLanes_eq (s : State) (w : Nat) (place : Nat → Loc) (f : Nat → Nat → Nat) (m : Mask) :
    s.swapLanes w place f m = (maskLanes m).foldl (swapStep w place f) (s, fun _ => 0) := rfl
theorem swapStep_other (w : Nat) (place : Nat → Loc) (f : Nat → Nat → Nat) (j : Nat) : ∀ (ls : List Nat) (a : State × (Nat → Nat)), j ∉ ls →
    (ls.foldl (swapStep w place f) a).2 j = a.2 j
  | [], _, _ => rfl
  | k :: ls, a, h => by
    rw [List.foldl_cons, swapStep_other w place f j ls _ fun hc => h (List.mem_cons_of_mem _ hc)]
    have hne : j ≠ k := fun hc => h (by rw [hc]; exact List.mem_cons_self ..)
    simp only [swapStep]
    rw [if_neg hne]
theorem swap_frame (w : Nat) (place : Nat → Loc) (f : Nat → Nat → Nat) : ∀ (ls : List Nat) (a : State × (Nat → Nat)), (∀ k ∈ ls, (place k).tt ≠ 4) →
    (ls.foldl (swapStep w place f) a).1 = a.1.memOf (ls.foldl (swapStep w place f) a).1 ∧
    ∀ g, (((ls.foldl (swapStep w place f) a).1).gran g).owner = (a.1.gran g).owner ∧ (((ls.foldl (swapStep w place f) a).1).gran g).shr = (a.1.gran g).shr ∧
      (((ls.foldl (swapStep w place f) a).1).gran g).region = (a.1.gran g).region
  | [], a, _ => ⟨rfl, fun _ => ⟨rfl, rfl, rfl⟩⟩
  | k :: ls, a, h => by
    have hk := h k (List.mem_cons_self ..)
    obtain ⟨h1, h2⟩ := swap_frame w place f ls (swapStep w place f a k) fun j hj => h j (List.mem_cons_of_mem _ hj)
    have e := State.writeNum_eq a.1 (place k) w (f k (a.1.readNum (place k) w)) hk
    have g := State.gran_writeNum a.1 (place k) w (f k (a.1.readNum (place k) w)) hk
    refine ⟨?_, fun i => ?_⟩
    · rw [List.foldl_cons]
      refine Eq.trans h1 ?_
      have := congrArg (fun x : State => x.memOf (ls.foldl (swapStep w place f) (swapStep w place f a k)).1) e
      exact this
    · rw [List.foldl_cons]
      have q := h2 i
      have r := g i
      exact ⟨q.1.trans r.1, q.2.1.trans r.2.1, q.2.2.trans r.2.2⟩
/-- The fold, over another state with the same memory. -/
theorem swap_memOf (z : State) (w : Nat) (place : Nat → Loc) (f : Nat → Nat → Nat) : ∀ (ls : List Nat) (a : State × (Nat → Nat)), (∀ k ∈ ls, (place k).tt ≠ 4) →
    ls.foldl (swapStep w place f) (z.memOf a.1, a.2) = (z.memOf (ls.foldl (swapStep w place f) a).1, (ls.foldl (swapStep w place f) a).2)
  | [], _, _ => rfl
  | k :: ls, a, h => by
    have hk := h k (List.mem_cons_self ..)
    have e : swapStep w place f (z.memOf a.1, a.2) k = (z.memOf (swapStep w place f a k).1, (swapStep w place f a k).2) := by
      simp only [swapStep, State.memOf_readNum z a.1 _ _ hk, State.memOf_writeNum z a.1 _ _ _ hk]
    rw [List.foldl_cons, e]
    exact swap_memOf z w place f ls (swapStep w place f a k) fun j hj => h j (List.mem_cons_of_mem _ hj)

/-! ## The atomics of an instruction -/

theorem requestWrites_cached (w : Nat) (ls : List (LaneOk × W64 × W64)) (s : State) (hl : ∀ x ∈ ls, x.1.x.loc.tt ≤ 5 ∧ s.delivers s.agent x.1.x.loc = true) :
    s.Cached (s.requestWrites ls w) ∧ (s.requestWrites ls w).cores = s.cores := by
  unfold State.requestWrites
  have hg : ∀ g ∈ groupBy (fun (x : LaneOk × W64 × W64) => destKey x.1.x.loc) ls, ∀ l ∈ g, l.1.x.loc.tt ≤ 5 ∧ s.delivers s.agent l.1.x.loc = true := by
    intro g hg l hlg
    unfold groupBy at hg
    obtain ⟨k, -, rfl⟩ := List.mem_map.1 hg
    exact hl l (List.mem_filter.1 hlg).1
  generalize groupBy (fun (x : LaneOk × W64 × W64) => destKey x.1.x.loc) ls = gs at hg ⊢
  refine List.foldlRecOn (motive := fun t : State => s.Cached t ∧ t.cores = s.cores) gs _ ⟨.refl s, rfl⟩ fun t h g hgs => ?_
  cases g with
  | nil => exact h
  | cons x g =>
    obtain ⟨h5, hd⟩ := hg _ hgs x (List.mem_cons_self ..)
    have h3 : s.Cached (t.updLaunch t.cur.launch fun l => { l with wseq := SMap.put l.wseq t.cur.core (((t.launch t.cur.launch).nextWrite t.cur.core + 1) % 2 ^ 32) }) :=
      h.1.trans (State.updLaunch_cached t _ _ fun _ => rfl)
    have h6 : ¬ x.1.x.loc.tt = 6 := by omega
    simp only [h6, if_false]
    rw [if_pos]
    · exact ⟨h3, by rw [← h.2]; unfold State.updLaunch; split <;> rfl⟩
    · unfold State.reaches
      rw [h3.delivers, h3.agent, hd]; simp

/-- R90, R91: atomics of lanes of this device, when nothing else acts on it. -/
theorem atomicLanes_eq {z : State} (op : Rmw) (w : Nat) (m : Mask) (va : Nat → Nat) (x : Nat → Xlat) (v c : Nat → W64)
    (k : State → List (Nat × List Byte) → List LaneOk → Eff)
    (hk : z.locks = []) (hpo : z.poison = []) (hl1 : (z.core z.cur.core).l1 = []) (he : z.exports = [])
    (ht : ∀ i < 256, m.getLsbD i → (x i).loc.tt ≤ 5 ∧ (x i).loc.tt ≠ 4) (hd : ∀ i < 256, m.getLsbD i → z.delivers z.agent (x i).loc = true) :
    z.atomicLanes op w ((okLanes m va x).map fun l => (l, v l.lane, c l.lane)) k =
      k ((z.requestWrites ((okLanes m va x).map fun l => (l, v l.lane, c l.lane)) w).memOf (z.swapLanes w (fun i => (x i).loc) (fun i old => op.apply w old (v i).toNat (c i).toNat) m).1)
        ((maskLanes m).map fun i => (i, natBytes w ((z.swapLanes w (fun i => (x i).loc) (fun i old => op.apply w old (v i).toNat (c i).toNat) m).2 i))) [] := by
  let ls := (okLanes m va x).map fun l => (l, v l.lane, c l.lane)
  have hin : ∀ y ∈ ls, ∃ i, i < 256 ∧ m.getLsbD i = true ∧ y = (⟨i, va i, x i⟩, v i, c i) := by
    intro y hy
    obtain ⟨l, hl, rfl⟩ := List.mem_map.1 hy
    obtain ⟨i, hi, rfl⟩ := List.mem_map.1 hl
    exact ⟨i, (mem_maskLanes.1 hi).1, (mem_maskLanes.1 hi).2, rfl⟩
  have hreq := requestWrites_cached w ls z (by
    intro y hy; obtain ⟨i, h1, h2, rfl⟩ := hin y hy; exact ⟨(ht i h1 h2).1, hd i h1 h2⟩)
  unfold State.atomicLanes
  rw [State.askAll_here]
  rotate_left
  · intro l hl
    obtain ⟨y, hy, rfl⟩ := List.mem_map.1 hl
    obtain ⟨i, h1, h2, rfl⟩ := hin y hy
    exact (ht i h1 h2).1
  have hw : ∀ l, z.writeLocked l = false := by intro l; unfold State.writeLocked; rw [hk]; rfl
  have hp : ∀ l, z.poisonedLanes l w = [] := by intro l; unfold State.poisonedLanes; rw [hpo]; rfl
  simp only [hw, hp, Bool.false_eq_true, if_false]
  have hgood : ls.filter (fun x => !([] : List LaneOk).contains x.1) = ls := by simp
  change k (List.foldl _ (z.requestWrites (ls.filter fun x => !([] : List LaneOk).contains x.1) w, []) (ls.filter fun x => !([] : List LaneOk).contains x.1)).1
    (List.foldl _ (z.requestWrites (ls.filter fun x => !([] : List LaneOk).contains x.1) w, []) (ls.filter fun x => !([] : List LaneOk).contains x.1)).2 [] = _
  rw [hgood]
  generalize hF : (fun (a : State × List (Nat × List Byte)) (x : LaneOk × W64 × W64) => _) = F
  let q := z.requestWrites ls w
  let f : Nat → Nat → Nat := fun i old => op.apply w old (v i).toNat (c i).toNat
  let place : Nat → Loc := fun i => (x i).loc
  have hstep : ∀ (y : State) (i : Nat) (o : List (Nat × List Byte)), i < 256 → m.getLsbD i = true → y.exports = [] → (y.core y.cur.core).l1 = [] →
      y.delivers y.agent (place i) = true → F (y, o) (⟨i, va i, x i⟩, v i, c i) =
        (y.writeNum (place i) w (f i (y.readNum (place i) w)), o ++ [(i, natBytes w (y.readNum (place i) w))]) := by
    intro y i o h1 h2 h3 h4 h5
    rw [← hF]
    simp only
    have h6 : ¬ (x i).loc.tt = 6 := by have := (ht i h1 h2).1; omega
    rw [if_neg h6]
    have h5' : y.reaches y.agent (x i) = true := by unfold State.reaches; rw [show y.delivers y.agent (x i).loc = true from h5, Bool.or_true]
    rw [if_pos h5', State.rmwAt_alone _ _ _ _ _ _ (ht i h1 h2).2 h4 h3]
  suffices H : ∀ (is : List Nat) (a : State × (Nat → Nat)) (o : List (Nat × List Byte)), is.Nodup → (∀ i ∈ is, i < 256 ∧ m.getLsbD i = true) →
      a.1 = z.memOf a.1 → (∀ g, (a.1.gran g).owner = (z.gran g).owner ∧ (a.1.gran g).shr = (z.gran g).shr ∧ (a.1.gran g).region = (z.gran g).region) →
      (is.map fun i => ((⟨i, va i, x i⟩ : LaneOk), v i, c i)).foldl F (q.memOf a.1, o) =
        (q.memOf (is.foldl (swapStep w place f) a).1, o ++ is.map fun i => (i, natBytes w ((is.foldl (swapStep w place f) a).2 i))) by
    have hnd : (maskLanes m).Nodup := by unfold maskLanes lanes; exact List.Nodup.filter _ List.nodup_range
    have h0 := H (maskLanes m) (z, fun _ => 0) [] hnd (fun i hi => mem_maskLanes.1 hi) rfl (fun _ => ⟨rfl, rfl, rfl⟩)
    have e1 : ls = (maskLanes m).map fun i => ((⟨i, va i, x i⟩ : LaneOk), v i, c i) := by
      simp only [ls, okLanes, List.map_map]; rfl
    have e2 : q.memOf z = q := by
      have h9 : q = _ := hreq.1.same
      rw [h9]; rfl
    rw [e2] at h0
    have e3 : List.foldl F (q, []) ls = (q.memOf ((maskLanes m).foldl (swapStep w place f) (z, fun _ => 0)).1,
        [] ++ (maskLanes m).map fun i => (i, natBytes w (((maskLanes m).foldl (swapStep w place f) (z, fun _ => 0)).2 i))) := by
      rw [e1]; exact h0
    change k (List.foldl F (q, []) ls).1 (List.foldl F (q, []) ls).2 [] = _
    rw [e3]
    rfl
  intro is
  induction is with
  | nil => intro a o _ _ _ _; simp
  | cons i is ih =>
    intro a o hnd hin ha hg
    obtain ⟨h1, h2⟩ := hin i (List.mem_cons_self ..)
    have hnd' := List.nodup_cons.1 hnd
    have h4 : (place i).tt ≠ 4 := (ht i h1 h2).2
    rw [List.map_cons, List.foldl_cons]
    have hq1 := hreq.1
    have hcur : (q.memOf a.1).cur = z.cur := hq1.cur
    have hdel : (q.memOf a.1).delivers (q.memOf a.1).agent (place i) = true := by
      have e1 : (q.memOf a.1).agent = z.agent := hq1.agent
      rw [e1, State.delivers_congr' (s := z) (t := q.memOf a.1) hq1.vfs hg ?_ (fun y => congrArg Tile.owner (hq1.tile y)) hq1.coreLost]
      · exact hd i h1 h2
      · have e := congrArg State.regions hq1.same; exact e
    have hexp : (q.memOf a.1).exports = [] := by
      have e : q.exports = z.exports := by have e := congrArg State.exports hq1.same; exact e
      exact e.trans he
    have hl1' : ((q.memOf a.1).core (q.memOf a.1).cur.core).l1 = [] := by
      rw [hcur]
      have e : (q.memOf a.1).core z.cur.core = z.core z.cur.core := by
        unfold State.core; rw [show (q.memOf a.1).cores = z.cores from hreq.2]
      rw [e, hl1]
    rw [hstep (q.memOf a.1) i o h1 h2 hexp hl1' hdel, State.memOf_readNum _ _ _ _ h4, State.memOf_writeNum _ _ _ _ _ h4]
    have e3 : a.1.writeNum (place i) w (f i (a.1.readNum (place i) w)) = (swapStep w place f a i).1 := rfl
    rw [e3]
    have hfr : (swapStep w place f a i).1 = z.memOf (swapStep w place f a i).1 := by
      have e := State.writeNum_eq a.1 (place i) w (f i (a.1.readNum (place i) w)) h4
      have e' := congrArg (fun y : State => y.memOf (swapStep w place f a i).1) ha
      exact Eq.trans e e'
    have hgr := fun g => State.gran_writeNum a.1 (place i) w (f i (a.1.readNum (place i) w)) h4 g
    rw [ih (swapStep w place f a i) _ hnd'.2 (fun j hj => hin j (List.mem_cons_of_mem _ hj)) hfr
      (fun g => ⟨(hgr g).1.trans (hg g).1, (hgr g).2.1.trans (hg g).2.1, (hgr g).2.2.trans (hg g).2.2⟩)]
    rw [List.foldl_cons, List.append_assoc]
    congr 1
    rw [List.map_cons, List.singleton_append]
    congr 1
    rw [swapStep_other w place f i is _ hnd'.1]
    simp [swapStep]

/-- What the atomics of an issue leave. -/
structure SwapsUnder (s : State) (c : Meta) (v W : State) : Prop where
  rest : W = { (s.charge c).restOf W with cores := W.cores }
  cores : ∀ i, W.core i = (s.charge c).core i
  parts : ∀ p, ({ W.part p with tlb := [] } : Part) = { (s.charge c).part p with tlb := [] }
  launches : ∀ l, ({ W.launch l with rseq := [], wseq := [] } : Launch) = { (s.charge c).launch l with rseq := [], wseq := [] }
  mem : W = W.memOf v
  packets : W.packets = []

theorem atomic_under {s : State} (ha : s.Alone) (c : Meta) (op : Rmw) (w : Nat) (m : Mask) (va : Nat → Nat) (x : Nat → Xlat) (pcie : Bool)
    (hr : s.Reaches (.atomic pcie) w m va x) (a b : Nat → W64) :
    ∃ W, SwapsUnder s c (s.swapLanes w (fun i => (x i).loc) (fun i old => op.apply w old (a i).toNat (b i).toNat) m).1 W ∧ ∀ K,
      ((s.charge c).cachePages s.curTag ((maskLanes m).map va)).atomicLanes op w ((okLanes m va x).map fun l => (l, a l.lane, b l.lane)) K =
        K W ((maskLanes m).map fun i =>
          (i, natBytes w ((s.swapLanes w (fun i => (x i).loc) (fun i old => op.apply w old (a i).toNat (b i).toNat) m).2 i))) [] := by
  let p := (s.charge c).cachePages s.curTag ((maskLanes m).map va)
  have hp : (s.charge c).Cached p := State.cachePages_cached _ _ _
  obtain ⟨g1, g2, g3, -⟩ := cached_alone ha c hp (cachePages_l1 ha c _ _)
  have hcores : p.cores = (s.charge c).cores := by
    simp only [p]
    unfold State.cachePages
    extract_lets q add tlb
    split
    · rfl
    · unfold State.updPart; split <;> rfl
  have hx4 : ∀ k < 256, m.getLsbD k → (x k).loc.tt ≤ 5 ∧ (x k).loc.tt ≠ 4 := by
    intro k h1 h2
    have := State.checkLane_tt ha.exports (hr k h1 h2).1 (hr k h1 h2).2.1
    refine ⟨(hr k h1 h2).2.1, ?_⟩
    intro h4
    rw [h4] at this
    simp [refused] at this
  have hpx : p.exports = [] := by
    have e := congrArg State.exports hp.same
    exact Eq.trans e (by simp [ha.exports])
  let f : Nat → Nat → Nat := fun i old => op.apply w old (a i).toNat (b i).toNat
  let place : Nat → Loc := fun i => (x i).loc
  have hpl : ∀ k ∈ maskLanes m, (place k).tt ≠ 4 := fun k hk => (hx4 k (mem_maskLanes.1 hk).1 (mem_maskLanes.1 hk).2).2
  have hps : p = p.memOf s := by
    have e := hp.same
    have e2 : (s.charge c).memOf s = s.charge c := by
      rw [State.memOf, ← State.charge_grans s c, ← State.charge_hbm s c, ← State.charge_sp s c, ← State.charge_vrf s c, ← State.charge_acc s c, ← State.charge_host s c]
    have e3 := congrArg (fun y : State => { y with parts := p.parts, launches := p.launches, cores := p.cores }) e2
    exact (e.trans e3.symm).trans (congrArg (fun y : State => y.memOf s) e.symm)
  have hsw : p.swapLanes w place f m = (p.memOf (s.swapLanes w place f m).1, (s.swapLanes w place f m).2) := by
    have := swap_memOf p w place f (maskLanes m) (s, fun _ => 0) hpl
    rw [State.swapLanes_eq, State.swapLanes_eq]
    have e : p.memOf s = p := hps.symm
    simp only [e] at this
    exact this
  have hfr := (swap_frame w place f (maskLanes m) (s, fun _ => 0) hpl).1
  have hfr : (s.swapLanes w place f m).1 = s.memOf (s.swapLanes w place f m).1 := hfr
  let q := p.requestWrites ((okLanes m va x).map fun l => (l, a l.lane, b l.lane)) w
  have hreq := requestWrites_cached w ((okLanes m va x).map fun l => (l, a l.lane, b l.lane)) p (by
    intro y hy
    obtain ⟨l, hl, rfl⟩ := List.mem_map.1 hy
    obtain ⟨i, hi, rfl⟩ := List.mem_map.1 hl
    have hi := mem_maskLanes.1 hi
    refine ⟨(hr i hi.1 hi.2).2.1, ?_⟩
    rw [hp.delivers, hp.agent, charge_agent, charge_delivers]; exact (hr i hi.1 hi.2).2.2)
  have hK : ∀ K, p.atomicLanes op w ((okLanes m va x).map fun l => (l, a l.lane, b l.lane)) K =
      K (q.memOf (s.swapLanes w place f m).1) ((maskLanes m).map fun i => (i, natBytes w ((s.swapLanes w place f m).2 i))) [] := by
    intro K
    have h1 := atomicLanes_eq (z := p) op w m va x a b K g2 g3 (cachePages_l1 ha c _ _) hpx hx4 (by
      intro k h1 h2
      rw [hp.delivers, hp.agent, charge_agent, charge_delivers]; exact (hr k h1 h2).2.2)
    have e1 : (p.swapLanes w place f m).1 = p.memOf (s.swapLanes w place f m).1 := by rw [hsw]
    have e2 : (p.swapLanes w place f m).2 = (s.swapLanes w place f m).2 := by rw [hsw]
    refine h1.trans ?_
    change K (q.memOf (p.swapLanes w place f m).1) ((maskLanes m).map fun i => (i, natBytes w ((p.swapLanes w place f m).2 i))) [] = _
    rw [e1, e2]; rfl
  refine ⟨q.memOf (s.swapLanes w place f m).1, ⟨?_, ?_, ?_, ?_, rfl, ?_⟩, hK⟩
  · have e1 := hreq.1.same
    have e2 := hp.same
    have e3 : q = { (s.charge c) with parts := q.parts, launches := q.launches, cores := q.cores } := by
      exact e1.trans (congrArg (fun y : State => { y with parts := q.parts, launches := q.launches, cores := q.cores }) e2)
    have e4 := congrArg (fun y : State => y.memOf (s.swapLanes w place f m).1) e3
    have e5 : q.packets = (s.charge c).packets := by have e := congrArg State.packets e3; exact e
    have e6 : q.nextId = (s.charge c).nextId := by have e := congrArg State.nextId e3; exact e
    refine e4.trans ?_
    simp only [State.restOf, State.memOf, e5, e6]
  · intro i
    have e : q.cores = (s.charge c).cores := hreq.2.trans hcores
    change SMap.get {} q.cores i = SMap.get {} (s.charge c).cores i
    rw [e]
  · intro i; exact (hreq.1.parts i).trans (hp.parts i)
  · intro i; exact (hreq.1.launches i).trans (hp.launches i)
  · exact hreq.1.packets.trans g1

/-! ## The issue of an atomic -/

/-- The operand a lane of an atomic holds. -/
theorem laneVal_eq {s t : State} (w r k : Nat) (hd : t.cur.deferred = []) (hv : ∀ r, t.rawV r = s.rawV r) : (t.laneVal w r k).toNat = s.operand w r k := by
  unfold State.laneVal State.operand
  rw [State.readV_eq hd, State.readV_eq hd, hv, hv]
  by_cases h : w = 8
  · simp [h]
  · simp only [h, if_false]
    rw [BitVec.toNat_append]; simp

/-- Signed order on 32 bits. -/
theorem signed_slt (a b : Nat) : (signedNat 32 a < signedNat 32 b) ↔ (BitVec.ofNat 32 a).slt (BitVec.ofNat 32 b) = true := by
  rw [BitVec.slt, decide_eq_true_iff, BitVec.toInt_eq_toNat_cond, BitVec.toInt_eq_toNat_cond, BitVec.toNat_ofNat, BitVec.toNat_ofNat]
  unfold signedNat
  norm_num
  constructor <;> intro h <;> omega

/-- The read-modify-writes read only the functions of their lanes. -/
theorem swap_congr {s : State} {w place f g m} (h : ∀ k ∈ maskLanes m, ∀ old, f k old = g k old) : s.swapLanes w place f m = s.swapLanes w place g m := by
  unfold State.swapLanes
  suffices H : ∀ (l : List Nat) (a : State × (Nat → Nat)), (∀ k ∈ l, ∀ old, f k old = g k old) → l.foldl (swapStep w place f) a = l.foldl (swapStep w place g) a from H _ _ h
  intro l
  induction l with
  | nil => intro a _; rfl
  | cons k l ih =>
    intro a h
    rw [List.foldl_cons, List.foldl_cons, ih _ fun j hj => h j (List.mem_cons_of_mem _ hj)]
    simp only [swapStep, h k (List.mem_cons_self ..)]

theorem whenOrdered_none {s : State} (hp : s.packets = []) (all ls n k) : s.whenOrdered all ls n k = k s := by
  simp [State.whenOrdered, State.flush_none hp, hp]

/-- An acquire finds the own L1 empty. -/
theorem acq_under {s : State} {c : Meta} {v W : State} (ha : s.Alone) (h : SwapsUnder s c v W) (b : Bool) (n : Nat) : 
   SwapsUnder s c v (if b then W.acquire n else W) := by
  by_cases hb : b = true
  · rw [if_pos hb]
    unfold State.acquire
    by_cases hn : n = 0
    · rw [if_pos hn]; exact h
    · rw [if_neg hn]
      refine ⟨?_, ?_, h.parts, h.launches, ?_, h.packets⟩
      · exact congrArg (fun y : State => { y with cores := (W.updCore W.cur.core fun k => { k with l1 := [] }).cores }) h.rest
      · intro i
        simp only [State.updCore, State.setCore, State.core]
        have hc := h.cores
        simp only [State.core] at hc
        by_cases hi : i = W.cur.core
        · rw [hi, SMap.get_set_same, hc]
          have e : W.cur.core = s.cur.core := by have e := congrArg (fun y : State => y.cur.core) h.rest; exact e.trans (by simp [State.restOf])
          have := charge_core_l1 s c s.cur.core
          rw [ha.l1] at this
          rw [e]
          simp only [State.core] at this
          generalize SMap.get {} (s.charge c).cores s.cur.core = K at this ⊢
          cases K
          simp only at this
          subst this
          rfl
        · rw [SMap.get_set_ne _ _ _ hi, hc]
      · exact congrArg (fun y : State => { y with cores := (W.updCore W.cur.core fun k => { k with l1 := [] }).cores }) h.mem
  · rw [if_neg hb]; exact h

/-- The issue of an atomic: memory is swapped, the old values return. -/
theorem issue_swap {s : State} (h : s.Ready) (ha : s.Alone) (c : Meta) (hc : s.illegal c = none) (hnr : c.nonreplay = true) {v W : State} (hW : SwapsUnder s c v W)
   (hv : v = s.memOf v) (vals : List DVal) (hpl : ∀ x ∈ vals, x.plain = true) (body : State → Eff) (hb : body (s.charge c) = .done (if vals = [] then W else W.defer vals 0 0 true)) :
   ∃ t u, issue c s body = .next t ∧ s.Swapped v u ∧ s.Returns u t c.len c.settle vals := by
  let u : State := { v with parts := W.parts, launches := W.launches, nextId := W.nextId, cur := { s.cur with dirty := true } }
  have hu : u = (s.restOf W).mark true := by
    have e1 := hW.mem
    have e2 : W.packets = s.packets := by rw [hW.packets, ha.packets]
    have g := congrArg (fun y : State => (y.grans, y.hbm, y.sp, y.vrf, y.acc, y.host)) e1
    simp only [State.memOf, Prod.mk.injEq] at g
    have e3 : u = { s.memOf v with parts := W.parts, launches := W.launches, nextId := W.nextId, cur := { s.cur with dirty := true } } :=
      congrArg (fun y : State => ({ y with parts := W.parts, launches := W.launches, nextId := W.nextId, cur := { s.cur with dirty := true } } : State)) hv
    rw [e3]
    simp only [State.restOf, State.mark, State.memOf, Bool.or_true, e2, g]
  have hcur : W.cur = (s.charge c).cur := by have e := congrArg State.cur hW.rest; exact e
  have hk : u.Keeps (W.mark c.nonreplay) := by
    rw [hu, hnr]
    exact (State.rest_keeps hW.rest hW.cores).mark true
  obtain ⟨t, t1, t2⟩ := issue_returns (u := u) (w := W) (vals := vals) h hc (.inr ha.tx) (body := body) hb hpl hk
    (by simp [hcur]) (by simp [hcur]) (by simp [hcur, h.word]) (by simp [hcur, h.recipe]) (by simp [hcur, h.written]) (by simp [hcur, h.poisonV]) (by simp [hcur, h.poisonS])
  refine ⟨t, u, t1, ⟨rfl, ?_⟩, t2⟩
  exact ⟨fun p => by rw [← charge_part s c p, ← hW.parts p]; rfl, fun l => by rw [← charge_launch s c l, ← hW.launches l]; rfl⟩

/-- Table 03-1: the words of an old value. -/
theorem regWord_natBytes (w old j : Nat) (hw : w = 4 ∨ w = 8) (hj : j < regsOf w) : regWord false (natBytes w old) j = BitVec.ofNat 32 (old / 2 ^ (32 * j)) := by
  have hb : ∀ (n x : Nat), bytesNat (natBytes n x) = x % 256 ^ n := by
    intro n
    induction n with
    | zero => intro x; simp [natBytes, bytesNat, Nat.mod_one]
    | succ n ih =>
      intro x
      simp only [natBytes, bytesNat, ih]
      rw [Nat.pow_succ', Nat.mod_mul]
      simp
  have hd : ∀ (k n x : Nat), k ≤ n → (natBytes n x).drop k = natBytes (n - k) (x / 256 ^ k) := by
    intro k
    induction k with
    | zero => intro n x _; simp
    | succ k ih =>
      intro n x hn
      obtain ⟨n, rfl⟩ : ∃ m, n = m + 1 := ⟨n - 1, by omega⟩
      simp only [natBytes, List.drop_succ_cons]
      rw [ih n (x / 256) (by omega), Nat.div_div_eq_div_mul, Nat.pow_succ']
      congr 1; omega
  have ht : ∀ (k n x : Nat), k ≤ n → (natBytes n x).take k = natBytes k x := by
    intro k
    induction k with
    | zero => intro n x _; simp [natBytes]
    | succ k ih =>
      intro n x hn
      obtain ⟨n, rfl⟩ : ∃ m, n = m + 1 := ⟨n - 1, by omega⟩
      simp only [natBytes, List.take_succ_cons]
      rw [ih n _ (by omega)]
  unfold regWord
  have hlen : (natBytes w old).length = w := by simp
  rw [hlen, if_neg (by omega)]
  have hr : regsOf w = w / 4 := by unfold regsOf; omega
  rw [hd _ _ _ (by omega), ht _ _ _ (by omega), hb]
  apply BitVec.eq_of_toNat_eq
  rw [BitVec.toNat_ofNat, BitVec.toNat_ofNat, show (256 : Nat) ^ (4 * j) = 2 ^ (32 * j) by rw [show (256 : Nat) = 2 ^ 8 from rfl, ← Nat.pow_mul]; congr 1; omega,
    show (256 : Nat) ^ 4 = 2 ^ 32 by norm_num, Nat.mod_mod]

end Sys2Proof.Machine
end

