-- ==== Sys2Proof/Laws/Control.lean ====
section
/-!
SUPPORT. Control: where an instruction that passes control leaves the context, and taking an exception in a group.
-/

namespace Sys2Proof.Machine

/-! ## Passing control -/

/-- R65, R66: control passes to an address, with nothing in flight. -/
theorem Eff.close_goto_quiet {m : Meta} {u : State} (a : W64) (hd : u.cur.deferred = []) :
    (Eff.goto u a).close m = { u with cur := { u.cur with
      addrOff := 0, slotLen := 0, stepped := false, answers := [], probe := 0, woken := 0, pc := a, loop := none } } := by
  unfold Eff.close
  simp only [State.clearIssue, State.updCur]
  split
  · exact State.settle_none hd
  · rfl

theorem issue_goto {m : Meta} {s : State} (h : s.Ready) (hi : s.illegal m = none) (hn : m.insn = false)
    {body : State → Eff} {a : W64} (hb : body (s.charge m) = .goto (s.charge m) a) :
    ∃ t, issue m s body = .next t ∧ s.MovedTo t a ∧ t.cur.loop = none := by
  refine ⟨{ s.charge m with cur := { (s.charge m).cur with
      addrOff := 0, slotLen := 0, stepped := false, answers := [], probe := 0, woken := 0, pc := a, loop := none } }, ?_, ⟨rfl, ?_, ?_, ?_⟩, rfl⟩
  · rw [issue_ready h hi hn, hb, Eff.close_goto_quiet a (by simp [h.written])]
  · exact State.sameBytes_mem (by simp)
  · simp
  · refine (State.charge_keeps s m).trans ⟨?_, fun _ => rfl, fun _ => rfl⟩
    simp only [Ctx.aside]

theorem issue_stays {m : Meta} {s : State} (h : s.Ready) (hi : s.illegal m = none) (hn : m.insn = false) (hr : m.nonreplay = false)
    {body : State → Eff} (hb : body (s.charge m) = .done (s.charge m)) :
    ∃ t, issue m s body = .next t ∧ s.MovedTo t (s.cur.follow m.len).1 := by
  obtain ⟨t, h1, h2⟩ := issue_wroteNothing h hi hn hr hb
  exact ⟨t, h1, h2.goes.1, h2.bytes, h2.rows, h2.keeps⟩

section branch
variable {s : State} (h : s.Ready)
include h

theorem ctlMeta_ok (sm : Bool) (seq : Bool) (ss : List Nat) (hq : seq = true ∨ s.cur.kind = .group) : s.illegal (ctlMeta sm seq ss) = none := by
  rcases hq with rfl | hq
  · exact illegal_uniform h rfl (Nat.zero_le _) rfl (fun _ => rfl) (.inl rfl) rfl
  · exact illegal_lane ⟨h, hq⟩ (Nat.zero_le _) (Nat.zero_le _) (.inl rfl) rfl

/-- R65: a branch goes to its target where its condition holds and on behind it elsewhere. -/
theorem branchIf_moved (sm seq : Bool) (ss : List Nat) (hq : seq = true ∨ s.cur.kind = .group) (o : BitVec 18) (cond : State → Bool) :
    ∃ t, branchIf sm seq ss o cond s = .next t ∧
      s.MovedTo t (if cond (s.charge (ctlMeta sm seq ss)) then s.cur.pc + 2 * o.signExtend 64 else (s.cur.follow 4).1) := by
  by_cases hc : cond (s.charge (ctlMeta sm seq ss)) = true
  · obtain ⟨t, h1, h2, -⟩ := issue_goto (m := ctlMeta sm seq ss) h (ctlMeta_ok h sm seq ss hq) rfl (a := s.cur.pc + 2 * o.signExtend 64)
      (body := fun t => if cond t then .goto t (t.branchTo o) else .done t) (by rw [if_pos hc]; simp [State.branchTo])
    exact ⟨t, h1, by rw [if_pos hc]; exact h2⟩
  · obtain ⟨t, h1, h2⟩ := issue_stays (m := ctlMeta sm seq ss) h (ctlMeta_ok h sm seq ss hq) rfl rfl
      (body := fun t => if cond t then .goto t (t.branchTo o) else .done t) (by rw [if_neg hc])
    exact ⟨t, h1, by rw [if_neg hc]; exact h2⟩

end branch

/-! ## Taking an exception -/

/-- R136: in a group in U mode whose partition has a handler, an event with nothing in flight enters it. -/
theorem State.raise_enters {s : State} (e : FaultEv) (hg : s.cur.kind = .group) (hu : s.cur.smode = false)
    (hv : (s.part (s.launch s.cur.launch).tag).svVec ≠ 0) (hd : s.cur.deferred = []) :
    ∃ r, (e.kind = kTrap → r = s.raised) ∧
      s.raise e = ({ s.clearIssue with raised := r } : State).enterHandler (s.part (s.launch s.cur.launch).tag).svVec e := by
  have h1 : s.clearIssue.cur.settled = true := by simp [Ctx.settled, hd]
  have h2 : s.clearIssue.settle = s.clearIssue := State.settle_none (by simp [hd])
  have hv' : ((s.part (s.launch s.cur.launch).tag).svVec != 0) = true := by simpa using hv
  have h3 : s.raise e = s.clearIssue.takeFault e := by
    unfold State.raise
    simp only [State.clearIssue_cur_smode, hu, State.clearIssue_cur_launch, State.launch, State.part, State.clearIssue_launches,
      State.clearIssue_parts, Ctx.isGroup, State.clearIssue_cur_kind, hg]
    simp only [State.launch, State.part] at hv'
    simp [h1, h2]
  rw [h3]
  unfold State.takeFault
  have hk : s.clearIssue.cur.kind = .group := by simp [hg]
  simp only [hk, State.clearIssue_cur_smode, hu]
  have hp : s.clearIssue.part (s.clearIssue.launch s.clearIssue.cur.launch).tag = s.part (s.launch s.cur.launch).tag := rfl
  simp only [hp, hv, if_false, Bool.false_eq_true]
  split
  · exact ⟨s.raised, fun _ => rfl, rfl⟩
  · rename_i hk
    exact ⟨_, fun h => absurd h hk, rfl⟩

end Sys2Proof.Machine
end

