-- ==== Sys2Proof/Laws/Spads.lean ====
section
/-!
SUPPORT. Runs of bytes written to scratchpad: what a write leaves, and what a read of part of it gives.
-/

namespace Sys2Proof.Machine

theorem cellsFrom_eq (l : Loc) (bs : List Byte) : cellsFrom l bs = (List.range bs.length).map fun j => (⟨l.tt, l.addr + j⟩, bs.getD j 0) := by
  unfold cellsFrom
  apply List.ext_getElem
  · simp
  · intro i h1 h2
    simp at h1
    simp [h1]

theorem State.writeBytes_sp (s : State) (a : Nat) (bs : List Byte) : s.writeBytes ⟨1, a⟩ bs = { s with sp := (s.writeBytes ⟨1, a⟩ bs).sp } :=
  (State.writeAll_stored (cellsFrom ⟨1, a⟩ bs) s (by rw [cellsFrom_eq]; simp)).1

theorem State.writeBytes_byte (s : State) (a : Nat) (bs : List Byte) (i : Nat) (h : i < bs.length) :
    (s.writeBytes ⟨1, a⟩ bs).readByte ⟨1, a + i⟩ = bs.getD i 0 := by
  refine (State.writeAll_stored (cellsFrom ⟨1, a⟩ bs) s (by rw [cellsFrom_eq]; simp)).2.last ⟨1, a + i⟩ _ ?_
  rw [cellsFrom_eq]
  set fl := ((List.range bs.length).map fun j => ((⟨1, a + j⟩ : Loc), bs.getD j 0)).filter fun c => c.1 == ⟨1, a + i⟩ with hf
  have hm : ((⟨1, a + i⟩ : Loc), bs.getD i 0) ∈ fl := by
    rw [hf, List.mem_filter]
    exact ⟨List.mem_map.2 ⟨i, List.mem_range.2 h, rfl⟩, by simp⟩
  have hn : fl ≠ [] := List.ne_nil_of_mem hm
  rw [List.getLast?_eq_some_getLast hn]
  have hg := List.getLast_mem hn
  generalize fl.getLast hn = x at hg
  rw [hf, List.mem_filter, List.mem_map] at hg
  obtain ⟨⟨j, -, hj⟩, hx⟩ := hg
  have hx : x.1 = ⟨1, a + i⟩ := by simpa using hx
  have : j = i := by
    rw [← hj] at hx
    have e := congrArg Loc.addr hx
    change a + j = a + i at e
    omega
  rw [← hj, this]

theorem State.writeBytes_others (s : State) (a : Nat) (bs : List Byte) (l : Loc) (h : ∀ i < bs.length, l ≠ ⟨1, a + i⟩) :
    (s.writeBytes ⟨1, a⟩ bs).readByte l = s.readByte l := by
  refine (State.writeAll_stored (cellsFrom ⟨1, a⟩ bs) s (by rw [cellsFrom_eq]; simp)).2.others l ?_
  intro c hc
  rw [cellsFrom_eq, List.mem_map] at hc
  obtain ⟨j, hj, rfl⟩ := hc
  exact fun e => h j (List.mem_range.1 hj) e.symm

/-- The number a run of bytes holds at an offset. -/
theorem State.writeBytes_readNum (s : State) (a : Nat) (bs p q : List Byte) (n v : Nat) (h : bs = p ++ natBytes n v ++ q) (hv : v < 256 ^ n) :
    (s.writeBytes ⟨1, a⟩ bs).readNum ⟨1, a + p.length⟩ n = v := by
  have : (s.writeBytes ⟨1, a⟩ bs).readBytes ⟨1, a + p.length⟩ n = natBytes n v := by
    apply List.ext_getElem
    · simp [State.readBytes]
    · intro i h1 h2
      have hi : i < n := by simpa using h2
      simp only [State.readBytes, List.getElem_map, List.getElem_range]
      rw [Nat.add_assoc, State.writeBytes_byte s a bs _ (by rw [h]; simp; omega), h, List.append_assoc]
      rw [List.getD_eq_getElem?_getD, List.getElem?_append_right (by omega), Nat.add_sub_cancel_left, List.getElem?_append_left (by simpa using hi),
        List.getElem?_eq_getElem h2, Option.getD_some]
  rw [State.readNum, this, bytesNat_natBytes n v hv]

end Sys2Proof.Machine
end

