-- ==== Sys2Proof/Laws/Copies.lean ====
section
/-!
SUPPORT. Bulk accesses at copy addresses (07 R159, R97): when nothing else acts on memory a bulk load reads the bytes its address names, and
a bulk store posts them, or performs them at once in the block's own allocation.
-/

namespace Sys2Proof.Machine

/-- What requests leave at an issue. -/
structure Asking (s : State) (c : Meta) (w : State) : Prop where
  cached : (s.charge c).Cached w
  cores : ∀ i, w.core i = (s.charge c).core i
theorem Asking.refl (s : State) (c : Meta) : Asking s c (s.charge c) := ⟨.refl _, fun _ => rfl⟩

theorem bulkUnit_pos (a n : Nat) : 0 < bulkUnit a n := by unfold bulkUnit; split <;> [decide; split <;> decide]
theorem bulkUnit_dvd (a n : Nat) : n / bulkUnit a n * bulkUnit a n = n := by
  unfold bulkUnit
  split
  · rename_i h; simp at h; omega
  · split
    · rename_i h; simp at h; omega
    · simp
theorem isLocal_iff (a : W64) : isLocal a = decide (2 ^ 63 ≤ a.toNat) := by
  unfold isLocal
  rw [BitVec.getLsbD, Nat.testBit_eq_decide_div_mod_eq]
  have := a.isLt
  congr 1
  rw [eq_iff_iff]
  omega

theorem Asking.checkLane {s w : State} {c : Meta} (h : Asking s c w) (he : s.exports = []) (ht : (s.part s.curTag).tlb = []) (hp : (w.part s.curTag).tlb = []) {acc : Acc}
    {n va salt : Nat} {x : Xlat} (hc : s.checkLane acc n va salt = .ok x) (hx : x.loc.tt ≤ 5) : w.checkLane acc n va salt = .ok x := by
  have hpart : w.part s.curTag = s.part s.curTag := by
    have e := h.cached.parts s.curTag
    rw [charge_part] at e
    generalize w.part s.curTag = p at *
    generalize s.part s.curTag = q at *
    cases p; cases q; simp_all
  have hby : ∀ l, w.readByte l = s.readByte l := fun l => (h.cached.readByte l).trans (charge_readByte s c l)
  have hv : w.vfs = s.vfs := h.cached.vfs.trans (by simp)
  have htag : w.curTag = s.curTag := h.cached.curTag.trans (charge_curTag s c)
  have hvf : w.curVf = s.curVf := by
    have e := congrArg Launch.vf (h.cached.launches s.cur.launch)
    rw [charge_launch] at e
    have hcur := h.cached.cur
    unfold State.curVf
    rw [hcur]; simpa using e
  have hsm : w.cur.smode = s.cur.smode := by rw [h.cached.cur]; simp
  obtain ⟨h1, h2⟩ := State.checkLane_here he hc hx
  unfold State.checkLane
  rw [if_neg (by simpa using h1), htag, hvf, hsm, State.translate_congr hby hv s.curTag hpart ht, h2]
  have h6 : ¬ x.loc.tt = 6 := by omega
  simp only [if_neg h6]

/-- The pieces of a bulk access all pass. -/
theorem Asking.pieces {s w : State} {c : Meta} (h : Asking s c w) (he : s.exports = []) (ht : (s.part s.curTag).tlb = []) {write : Bool} {lane : Nat} {a : W64} {n : Nat} {place : Nat → Loc}
    (hp : s.CopyPlaces write lane a n place) (hn : isLocal a = true ∨ (w.part s.curTag).tlb = []) :
    ∃ (va : Nat → Nat) (x : Nat → Xlat), w.bulkLanes write lane a n = .ok (bulkUnit a.toNat n, (List.range (n / bulkUnit a.toNat n)).map fun k => ⟨k, va k, x k⟩) ∧
      ∀ k < n / bulkUnit a.toNat n, ((x k).loc.tt ≤ 5 ∧ (x k).via = 0) ∧ ∀ j < bulkUnit a.toNat n, place (k * bulkUnit a.toNat n + j) = ⟨(x k).loc.tt, (x k).loc.addr + j⟩ := by
  have hdiv := bulkUnit_dvd a.toNat n
  have hpos := bulkUnit_pos a.toNat n
  have hcore : w.cur.core = s.cur.core := by rw [h.cached.cur]; simp
  have hblk : w.block w.cur.block = s.block s.cur.block := by
    have e1 : w.cur.block = s.cur.block := by rw [h.cached.cur]; simp
    have e2 : w.blocks = s.blocks := by rw [h.cached.same]; simp
    unfold State.block; rw [e1, e2]
  suffices key : ∃ f : Nat → LaneOk, ∀ k < n / bulkUnit a.toNat n,
      w.copyCheck (if write then .store (bulkUnit a.toNat n) else .load (bulkUnit a.toNat n)) 1 (bulkUnit a.toNat n) lane (a + BitVec.ofNat 64 (k * bulkUnit a.toNat n)) = .ok (f k) ∧
      ((f k).x.loc.tt ≤ 5 ∧ (f k).x.via = 0) ∧ ∀ j < bulkUnit a.toNat n, place (k * bulkUnit a.toNat n + j) = ⟨(f k).x.loc.tt, (f k).x.loc.addr + j⟩ by
    obtain ⟨f, hf⟩ := key
    refine ⟨fun k => (f k).va, fun k => (f k).x, ?_, fun k hk => (hf k hk).2⟩
    unfold State.bulkLanes
    generalize bulkUnit a.toNat n = U at *
    simp only
    obtain ⟨acc, hacc⟩ : ∃ acc, acc = if write then Acc.store U else Acc.load U := ⟨_, rfl⟩
    rw [← hacc] at hf ⊢
    have e1 : (List.range (n / U)).map (fun k => (k, w.copyCheck acc 1 U lane (a + BitVec.ofNat 64 (k * U)))) = (List.range (n / U)).map fun k => (k, .ok (f k)) := by
      refine List.map_congr_left fun k hk => ?_
      rw [(hf k (List.mem_range.1 hk)).1]
    rw [e1]
    have e2 : ∀ g : Nat × Except LaneFail LaneOk → Option LaneFail, (∀ k, g (k, .ok (f k)) = none) →
        ((List.range (n / U)).map fun k => ((k, .ok (f k)) : Nat × Except LaneFail LaneOk)).findSome? g = none := by
      intro g hg
      rw [List.findSome?_eq_none_iff]
      intro r hr
      obtain ⟨k, -, rfl⟩ := List.mem_map.1 hr
      exact hg k
    rw [e2 _ fun _ => rfl]
    simp only [List.filterMap_map]
    rw [← List.filterMap_eq_map]
    rfl
  rcases hp with ⟨h1, h2, h3, h4⟩ | ⟨h1, h2⟩
  · have ha63 : 2 ^ 63 ≤ a.toNat := by simpa [isLocal_iff] using h1
    refine ⟨fun k => ⟨lane, a.toNat % 2 ^ 32 + k * bulkUnit a.toNat n, { loc := ⟨1, s.cur.core * 2 ^ 21 + (s.block s.cur.block).spbase + (a.toNat % 2 ^ 32 + k * bulkUnit a.toNat n)⟩, home := 0 }⟩, ?_⟩
    intro k hk
    generalize bulkUnit a.toNat n = U at *
    have hkU : k * U + U ≤ n := by
      calc k * U + U = (k + 1) * U := by ring
        _ ≤ n / U * U := Nat.mul_le_mul_right _ hk
        _ = n := hdiv
    have hlt := a.isLt
    have hsum : (a + BitVec.ofNat 64 (k * U)).toNat = a.toNat + k * U := by
      rw [BitVec.toNat_add, BitVec.toNat_ofNat]
      omega
    refine ⟨?_, ⟨by simp, rfl⟩, ?_⟩
    · unfold State.copyCheck
      have e1 : isLocal (a + BitVec.ofNat 64 (k * U)) = true := by
        rw [isLocal_iff, hsum]; simp; omega
      have e2 : localOff (a + BitVec.ofNat 64 (k * U)) = a.toNat % 2 ^ 32 + k * U := by
        unfold localOff
        rw [BitVec.extractLsb'_toNat, hsum]
        norm_num
        omega
      rw [e1, e2]
      simp only [if_true, hblk, hcore, Nat.mod_one]
      rw [if_neg (by simp), if_neg (by omega)]
    · intro j hj
      rw [h4 _ (by omega)]
      simp only [Loc.mk.injEq, true_and]
      omega
  · have hn : (w.part s.curTag).tlb = [] := hn.resolve_left (by rw [h1]; decide)
    have : Nonempty Xlat := ⟨⟨⟨0, 0⟩, 0, false, false, false, 0⟩⟩
    choose! x hx using h2
    refine ⟨fun k => ⟨lane, (a + BitVec.ofNat 64 (k * bulkUnit a.toNat n)).toNat, x k⟩, fun k hk => ⟨?_, ⟨(hx k hk).2.1, State.checkLane_via he (hx k hk).1 (hx k hk).2.1⟩, (hx k hk).2.2⟩⟩
    have hnl : isLocal (a + BitVec.ofNat 64 (k * bulkUnit a.toNat n)) = false := by
      have h3 := (hx k hk).1
      unfold State.checkLane State.translate at h3
      rw [isLocal_iff]
      generalize (a + BitVec.ofNat 64 (k * bulkUnit a.toNat n)).toNat = va at *
      rw [if_neg (by simp [Nat.mod_one])] at h3
      by_cases hv : va / 2 ^ 57 = 0
      · simp; omega
      · rw [if_pos hv] at h3
        exact nomatch h3
    unfold State.copyCheck
    rw [hnl]
    simp only [Bool.false_eq_true, if_false]
    rw [h.checkLane he ht hn (hx k hk).1 (hx k hk).2.1]

theorem flatMap_pieces {α : Type} (f : Nat → α) (U : Nat) : ∀ m, ((List.range m).flatMap fun k => (List.range U).map fun j => f (k * U + j)) = (List.range (m * U)).map f
  | 0 => by simp
  | m + 1 => by
    rw [List.range_succ, List.flatMap_append, flatMap_pieces f U m, Nat.succ_mul, List.range_add, List.map_append, List.map_map]
    simp [Function.comp_def]

theorem Asking.agent {s w : State} {c : Meta} (h : Asking s c w) : w.agent = s.agent := h.cached.agent.trans (charge_agent s c)
theorem Asking.delivers {s w : State} {c : Meta} (h : Asking s c w) (a : Agent) (l : Loc) : w.delivers a l = s.delivers a l :=
  (h.cached.delivers a l).trans (charge_delivers s c a l)
theorem Asking.readByte {s w : State} {c : Meta} (h : Asking s c w) (l : Loc) : w.readByte l = s.readByte l :=
  (h.cached.readByte l).trans (charge_readByte s c l)
theorem Asking.l1 {s w : State} {c : Meta} (h : Asking s c w) (i : Nat) : (w.core i).l1 = (s.core i).l1 := by
  rw [h.cores]; exact charge_core_l1 s c i
/-- With its translations cached. -/
theorem Asking.pages {s w : State} {c : Meta} (h : Asking s c w) (l : List Nat) : Asking s c (w.cachePages w.curTag l) :=
  ⟨h.cached.trans (State.cachePages_cached _ _ _), fun i => by
    rw [← h.cores]
    unfold State.cachePages
    extract_lets p add tlb
    split
    · rfl
    · unfold State.updPart; split <;> rfl⟩

/-- A bulk load reads its bytes. -/
theorem Asking.bulkLoad {s w : State} {c : Meta} (h : Asking s c w) (ha : s.Alone) {al lane : Nat} {a : W64} {n : Nat} {place : Nat → Loc}
    (hal : (if isLocal a then a.toNat % 2 ^ 32 else a.toNat) % al = 0) (hp : s.CopyPlaces false lane a n place) (hd : ∀ i < n, s.delivers s.agent (place i) = true)
    (hn : isLocal a = true ∨ (w.part s.curTag).tlb = []) (k : State → List Byte → Eff) :
    ∃ v, Asking s c v ∧ (isLocal a = true → v.parts = w.parts) ∧ w.bulkLoad al lane a n k = (k v ((List.range n).map fun i => s.readByte (place i))).attr lane := by
  obtain ⟨va, x, h1, h2⟩ := h.pieces ha.exports ha.tlb hp hn
  have hdiv := bulkUnit_dvd a.toNat n
  have hpos := bulkUnit_pos a.toNat n
  have hloc : localOff a = a.toNat % 2 ^ 32 := by unfold localOff; rw [BitVec.extractLsb'_toNat]; simp
  unfold State.bulkLoad
  rw [hloc, if_neg (by simpa using hal), h1]
  generalize bulkUnit a.toNat n = U at *
  simp only
  obtain ⟨p, hpe⟩ : ∃ p, p = w.cachePages w.curTag (if isLocal a then [] else ((List.range (n / U)).map fun k => (⟨k, va k, x k⟩ : LaneOk)).map fun l => l.va) := ⟨_, rfl⟩
  have hpa : Asking s c p := by rw [hpe]; exact h.pages _
  rw [← hpe]
  have hle : ∀ k < n / U, k * U < n := by
    intro k hk
    calc k * U < (k + 1) * U := by rw [Nat.succ_mul]; omega
      _ ≤ n / U * U := Nat.mul_le_mul_right _ hk
      _ = n := hdiv
  have hx : ∀ k < n / U, (x k).loc = place (k * U) := by
    intro k hk
    have := (h2 k hk).2 0 hpos
    rw [Nat.add_zero] at this
    rw [this]; rfl
  obtain ⟨v, hv, hvc, hve⟩ := State.readLanes_here (s := p) false U ((List.range (n / U)).map fun k => (⟨k, va k, x k⟩ : LaneOk))
    (fun t bs => k t (bs.flatMap Prod.snd)) (by rw [hpa.cached.packets]; simp [ha.packets]) (by rw [hpa.cached.locks]; simp [ha.locks])
    (by rw [hpa.cached.poison]; simp [ha.poison])
    (by
      have e : p.cur.core = s.cur.core := by rw [hpa.cached.cur]; simp
      rw [hpa.l1, e, ha.l1]
      intro n v hf
      simp [SMap.find] at hf)
    (by intro l hl; obtain ⟨i, hi, rfl⟩ := List.mem_map.1 hl; exact (h2 i (List.mem_range.1 hi)).1.1)
    (by
      intro l hl; obtain ⟨i, hi, rfl⟩ := List.mem_map.1 hl
      have hi := List.mem_range.1 hi
      rw [hpa.delivers, hpa.agent]
      simp only [hx i hi]
      exact hd _ (hle i hi))
  obtain ⟨hvc1, hvc2⟩ := hvc rfl (by
    have e : p.cur.core = s.cur.core := by rw [hpa.cached.cur]; simp
    rw [hpa.l1, e, ha.l1])
  refine ⟨v, ⟨hpa.cached.trans hv, fun i => by rw [← hpa.cores, State.core, hvc1]; rfl⟩, ?_, ?_⟩
  · intro hl
    rw [hvc2, hpe, hl]
    simp [State.cachePages, dedup]
  · rw [hve]
    refine congrArg (fun bs => (k v bs).attr lane) ?_
    rw [List.map_map, List.flatMap_map]
    have e : (List.range n).map (fun i => s.readByte (place i)) = (List.range (n / U)).flatMap fun k => (List.range U).map fun j => s.readByte (place (k * U + j)) := by
      rw [flatMap_pieces (fun i => s.readByte (place i)) U, hdiv]
    rw [e]
    refine List.flatMap_congr fun k hk => ?_
    simp only [Function.comp, State.readBytes, hpa.readByte]
    refine List.map_congr_left fun j hj => ?_
    rw [(h2 k (List.mem_range.1 hk)).2 j (List.mem_range.1 hj)]

/-- An acquire finds the L1 empty already. -/
theorem Asking.acquire {s w : State} {c : Meta} (h : Asking s c w) (ha : s.Alone) (sc : Nat) : Asking s c (w.acquire sc) ∧ (w.acquire sc).parts = w.parts := by
  unfold State.acquire
  split
  · exact ⟨h, rfl⟩
  · have hc : w.cur.core = s.cur.core := by rw [h.cached.cur]; simp
    have hl : (w.core w.cur.core).l1 = [] := by rw [hc, h.l1, ha.l1]
    have hcore : ∀ i, (w.updCore w.cur.core fun k => { k with l1 := [] }).core i = w.core i := by
      intro i
      simp only [State.core, State.updCore, State.setCore, SMap.get_set]
      split
      · rename_i hi
        have hl2 : (SMap.get {} w.cores w.cur.core).l1 = [] := hl
        rw [hi]
        generalize SMap.get {} w.cores w.cur.core = k at *
        cases k; simp_all
      · rfl
    refine ⟨⟨h.cached.trans ⟨rfl, fun _ => rfl, fun _ => rfl, ?_, fun i _ => hcore i⟩, fun i => (hcore i).trans (h.cores i)⟩, rfl⟩
    rw [hcore]

/-- Items grouped by the destination of their place. -/
theorem groupBy_range {α : Type} (n : Nat) (f : Nat → α) (key : α → Nat × Nat) :
    ∃ keys : List (Nat × Nat), keys.Nodup ∧ (∀ c, c ∈ keys ↔ ∃ k < n, key (f k) = c) ∧
      groupBy key ((List.range n).map f) = keys.map fun c => ((List.range n).filter fun k => key (f k) == c).map f := by
  obtain ⟨h1, h2⟩ := mem_groupKeys key ((List.range n).map f) [] List.nodup_nil
  refine ⟨_, h1, fun c => ?_, ?_⟩
  · rw [h2]
    simp only [List.not_mem_nil, false_or, List.mem_map, List.mem_range]
    constructor
    · rintro ⟨x, ⟨k, hk, rfl⟩, h⟩; exact ⟨k, hk, h⟩
    · rintro ⟨k, hk, h⟩; exact ⟨f k, ⟨k, hk, rfl⟩, h⟩
  · unfold groupBy
    refine List.map_congr_left fun c _ => ?_
    rw [List.filter_map]; rfl

/-- The cells of the pieces of a bulk store that go to one destination. -/
def copyCells (U n : Nat) (place : Nat → Loc) (f : Nat → Byte) (c : Nat × Nat) : List (Loc × Byte) :=
  ((List.range (n / U)).filter fun k => destKey (place (k * U)) == c).flatMap fun k => (List.range U).map fun j => (place (k * U + j), f (k * U + j))

/-- A bulk store posts its bytes, one packet for each destination; into the own allocation they are performed before what follows. -/
theorem Asking.bulkStore {s w : State} {c : Meta} (h : Asking s c w) (ha : s.Alone) {lane : Nat} {a : W64} {bs : List Byte} {place : Nat → Loc}
    (hp : s.CopyPlaces true lane a bs.length place) (hn : isLocal a = true ∨ (w.part s.curTag).tlb = []) (k : State → Eff) :
    ∃ (p v : State) (keys : List (Nat × Nat)), Asking s c p ∧ (isLocal a = true → p.parts = w.parts) ∧ keys.Nodup ∧
      (∀ c, c ∈ keys ↔ ∃ i < bs.length / bulkUnit a.toNat bs.length, destKey (place (i * bulkUnit a.toNat bs.length)) = c) ∧
      Injected p v false (keys.map fun c => (.store, copyCells (bulkUnit a.toNat bs.length) bs.length place (fun i => bs.getD i 0) c)) ∧
      w.bulkStore lane a bs k = (k (if isLocal a then v.flush v.own else v)).attr lane := by
  obtain ⟨va, x, h1, h2⟩ := h.pieces ha.exports ha.tlb hp hn
  have hdiv := bulkUnit_dvd a.toNat bs.length
  have hpos := bulkUnit_pos a.toNat bs.length
  unfold State.bulkStore
  rw [h1]
  generalize bulkUnit a.toNat bs.length = U at *
  simp only
  obtain ⟨p, hpe⟩ : ∃ p, p = w.cachePages w.curTag (if isLocal a then [] else ((List.range (bs.length / U)).map fun k => (⟨k, va k, x k⟩ : LaneOk)).map fun l => l.va) := ⟨_, rfl⟩
  have hpa : Asking s c p := by rw [hpe]; exact h.pages _
  rw [← hpe]
  have hx : ∀ k < bs.length / U, (x k).loc = place (k * U) := by
    intro k hk
    have := (h2 k hk).2 0 hpos
    rw [Nat.add_zero] at this
    rw [this]; rfl
  let ws : Nat → LaneOk × List Byte := fun k => (⟨k, va k, x k⟩, (bs.drop (k * U)).take U)
  have e0 : (((List.range (bs.length / U)).map fun k => (⟨k, va k, x k⟩ : LaneOk)).map fun l => (l, (bs.drop (l.lane * U)).take U)) = (List.range (bs.length / U)).map ws := by
    rw [List.map_map]; rfl
  have ht : ∀ y ∈ (List.range (bs.length / U)).map ws, y.1.x.loc.tt ≤ 5 := by
    intro y hy
    obtain ⟨k, hk, rfl⟩ := List.mem_map.1 hy
    exact (h2 k (List.mem_range.1 hk)).1.1
  rw [e0, State.storeLanes, State.whenReleased_here _ _ _ (List.forall_mem_map.2 ht), State.askAll_here _ _ _ _ (List.forall_mem_map.2 ht)]
  obtain ⟨keys, k1, k2, k3⟩ := groupBy_range (bs.length / U) ws fun y => destKey y.1.x.loc
  have hcells : ∀ k < bs.length / U, cellsFrom (x k).loc ((bs.drop (k * U)).take U) = (List.range U).map fun j => (place (k * U + j), bs.getD (k * U + j) 0) := by
    intro k hk
    have hle : k * U + U ≤ bs.length := by
      calc k * U + U = (k + 1) * U := by ring
        _ ≤ bs.length / U * U := Nat.mul_le_mul_right _ hk
        _ = bs.length := hdiv
    have hlen : ((bs.drop (k * U)).take U).length = U := by simp; omega
    rw [cellsFrom_eq, hlen]
    refine List.map_congr_left fun j hj => ?_
    have hj := List.mem_range.1 hj
    rw [(h2 k hk).2 j hj]
    simp only [Prod.mk.injEq, true_and]
    rw [List.getD_eq_getElem?_getD, List.getD_eq_getElem?_getD, List.getElem?_take_of_lt hj, List.getElem?_drop]
  refine ⟨p, p.postStores .store false ((List.range (bs.length / U)).map ws), keys, hpa, ?_, k1, ?_, ?_, rfl⟩
  · intro hl
    rw [hpe, hl]
    simp [State.cachePages, dedup]
  · intro c
    rw [k2]
    constructor
    · rintro ⟨k, hk, h⟩; exact ⟨k, hk, by rw [← hx k hk]; exact h⟩
    · rintro ⟨k, hk, h⟩; exact ⟨k, hk, by rw [← hx k hk] at h; exact h⟩
  · rw [postStores_here _ _ _ _ ht, k3]
    have h1 := injected_fold (fun s g => match g with
        | [] => s
        | w :: _ => s.inject .store (g.flatMap fun w => cellsFrom w.1.x.loc w.2) (BitVec.ofNat 64 w.1.va) (g.flatMap fun w => cellsFrom w.1.x.loc w.2).length false w.1.x.via)
      (fun g : List (LaneOk × List Byte) => (.store, g.flatMap fun w => cellsFrom w.1.x.loc w.2)) false
      (keys.map fun c => ((List.range (bs.length / U)).filter fun k => destKey (ws k).1.x.loc == c).map ws) p (by
        intro g hg t
        obtain ⟨c, hc, rfl⟩ := List.mem_map.1 hg
        obtain ⟨k, hk1, hk2⟩ := (k2 c).1 hc
        have hne : ((List.range (bs.length / U)).filter fun k => destKey (ws k).1.x.loc == c) ≠ [] := by
          intro hc'
          rw [List.filter_eq_nil_iff] at hc'
          exact hc' k (List.mem_range.2 hk1) (by simpa using hk2)
        have hv : ∀ k ∈ (List.range (bs.length / U)).filter fun k => destKey (ws k).1.x.loc == c, (x k).via = 0 := fun k hk =>
          (h2 k (List.mem_range.1 (List.mem_filter.1 hk).1)).1.2
        generalize ((List.range (bs.length / U)).filter fun k => destKey (ws k).1.x.loc == c) = l at hne hv
        cases l with
        | nil => exact absurd rfl hne
        | cons k l =>
          refine ⟨BitVec.ofNat 64 (va k), ((ws k :: l.map ws).flatMap fun w => cellsFrom w.1.x.loc w.2).length, ?_⟩
          simp only [List.map_cons, ws]
          rw [hv k (List.mem_cons_self ..)])
    have h2 : (keys.map fun c => ((List.range (bs.length / U)).filter fun k => destKey (ws k).1.x.loc == c).map ws).map
        (fun g : List (LaneOk × List Byte) => ((.store, g.flatMap fun w => cellsFrom w.1.x.loc w.2) : PacketOp × List (Loc × Byte))) =
        keys.map fun c => (.store, copyCells U bs.length place (fun i => bs.getD i 0) c) := by
      rw [List.map_map]
      refine List.map_congr_left fun c _ => ?_
      simp only [Function.comp, List.flatMap_map, copyCells, Prod.mk.injEq, true_and]
      have hf : (List.range (bs.length / U)).filter (fun k => destKey (ws k).1.x.loc == c) = (List.range (bs.length / U)).filter fun k => destKey (place (k * U)) == c := by
        refine List.filter_congr fun k hk => ?_
        rw [← hx k (List.mem_range.1 hk)]
      rw [hf]
      refine List.flatMap_congr fun k hk => ?_
      exact hcells k (List.mem_range.1 (List.mem_filter.1 hk).1)
    rw [h2] at h1
    exact h1

/-- A bulk store into the own allocation is performed at once. -/
theorem Asking.storeOwn {s w : State} {c : Meta} (h : Asking s c w) (ha : s.Alone) {lane : Nat} {a : W64} {bs : List Byte} {B : Nat} (hl : isLocal a = true)
    (hB : B = s.cur.core * 2 ^ 21 + (s.block s.cur.block).spbase + a.toNat % 2 ^ 32) (hin : a.toNat % 2 ^ 32 + bs.length ≤ (s.block s.cur.block).spsize)
    (hr : (s.block s.cur.block).spbase + (s.block s.cur.block).spsize ≤ 2 ^ 21) (hd : s.delivers s.agent ⟨1, B⟩ = true) (k : State → Eff) :
    ∃ (p z : State), Asking s c p ∧ p.parts = w.parts ∧ z = { p with launches := z.launches, nextId := z.nextId } ∧
      (∀ l, ({ z.launch l with rseq := [], wseq := [] } : Launch) = { p.launch l with rseq := [], wseq := [] }) ∧
      w.bulkStore lane a bs k = (k (z.writeBytes ⟨1, B⟩ bs)).attr lane := by
  obtain ⟨p, v, keys, h1, h2, h3, h4, h5, h6⟩ := h.bulkStore ha (lane := lane) (a := a) (bs := bs) (place := fun i => ⟨1, B + i⟩)
    (.inl ⟨hl, hin, by omega, fun i _ => by rw [hB]⟩) (.inl hl) k
  have hdiv := bulkUnit_dvd a.toNat bs.length
  have hpos := bulkUnit_pos a.toNat bs.length
  generalize bulkUnit a.toNat bs.length = U at *
  have hkey : ∀ i ≤ bs.length, i < bs.length → destKey ⟨1, B + i⟩ = (1, s.cur.core) := by
    intro i _ hi
    simp only [destKey, Loc.core, hB, Prod.mk.injEq, true_and]
    omega
  have hle : ∀ k < bs.length / U, k * U < bs.length := by
    intro k hk
    calc k * U < (k + 1) * U := by rw [Nat.succ_mul]; omega
      _ ≤ bs.length / U * U := Nat.mul_le_mul_right _ hk
      _ = bs.length := hdiv
  have hall : ∀ i < bs.length / U, destKey ⟨1, B + i * U⟩ = (1, s.cur.core) := fun i hi => hkey _ (le_of_lt (hle i hi)) (hle i hi)
  have hpk : p.packets = [] := by rw [h1.cached.packets]; simp [ha.packets]
  obtain ⟨ps, p1, p2, p3, p4⟩ := h5.sent
  rw [hpk, List.nil_append] at p1
  rw [if_pos hl] at h6
  refine ⟨p, { v with packets := [] }, h1, h2 hl, ?_, h5.launches, ?_⟩
  · have e := congrArg (fun y : State => ({ y with packets := [] } : State)) h5.same
    simp only at e
    rw [← hpk] at e ⊢
    exact e
  rw [h6]
  refine congrArg (fun y => (k y).attr lane) ?_
  have hcells : (ps.flatMap fun (p : Packet) => p.writes) = cellsFrom ⟨1, B⟩ bs := by
    have e := congrArg (fun l : List (PacketOp × List (Loc × Byte)) => l.flatMap fun y => y.2) p2
    simp only [List.flatMap_map] at e
    have e2 : ps.flatMap (fun (p : Packet) => p.writes) = keys.flatMap fun c => copyCells U bs.length (fun i => ⟨1, B + i⟩) (fun i => bs.getD i 0) c := e
    rw [e2, cellsFrom_eq]
    have hfull : copyCells U bs.length (fun i => ⟨1, B + i⟩) (fun i => bs.getD i 0) (1, s.cur.core) = (List.range bs.length).map fun j => (⟨1, B + j⟩, bs.getD j 0) := by
      unfold copyCells
      have : (List.range (bs.length / U)).filter (fun k => destKey ⟨1, B + k * U⟩ == (1, s.cur.core)) = List.range (bs.length / U) := by
        rw [List.filter_eq_self]
        intro i hi
        rw [hall i (List.mem_range.1 hi)]; simp
      rw [this, flatMap_pieces (fun i => ((⟨1, B + i⟩ : Loc), bs.getD i 0)) U, hdiv]
    have hone : ∀ c ∈ keys, c = (1, s.cur.core) := by
      intro c hc
      obtain ⟨i, hi, he⟩ := (h4 c).1 hc
      rw [← he]; exact hall i hi
    match keys, h3, hone, h4 with
    | [], _, _, h4 =>
      have : bs.length = 0 := by
        by_contra hne
        have : 0 < bs.length / U := by
          rcases Nat.eq_zero_or_pos (bs.length / U) with h0 | h0
          · rw [h0] at hdiv; omega
          · exact h0
        exact absurd ((h4 _).2 ⟨0, this, rfl⟩) (by simp)
      rw [this]; rfl
    | [c], _, hone, _ =>
      rw [List.flatMap_cons, List.flatMap_nil, List.append_nil, hone c (by simp)]; exact hfull
    | c :: d :: t, h3, hone, _ =>
      have e1 := hone c (by simp)
      have e2 := hone d (by simp)
      rw [e1, e2] at h3
      simp at h3
  have hcur : v.cur = (s.charge c).cur := by rw [h5.same]; exact h1.cached.cur
  unfold State.flush
  have hown : v.packets.filter v.own = ps := by
    rw [p1, List.filter_eq_self]
    intro q hq
    have e := (p3 q hq).1
    have : p.cur = (s.charge c).cur := h1.cached.cur
    simp [State.own, e, State.agent, State.agentOf, this, hcur]
  rw [hown, State.writeBytes, ← hcells]
  refine State.flush_stores ps v p1 ?_ p4 (by rw [h5.same]; exact h1.cached.locks.trans (by simp [ha.locks])) (by rw [h5.same]; exact h1.cached.poison.trans (by simp [ha.poison])) ?_
  · intro q hq
    have hm : (q.op, q.writes) ∈ ps.map (fun p => (p.op, p.writes)) := List.mem_map.2 ⟨q, hq, rfl⟩
    rw [p2] at hm
    obtain ⟨κ, hκ, he⟩ := List.mem_map.1 hm
    obtain ⟨i, hi, hik⟩ := (h4 κ).1 hκ
    injection he with e1 e2
    have hne : ((List.range (bs.length / U)).filter fun k => destKey ((fun i => (⟨1, B + i⟩ : Loc)) (k * U)) == κ) ≠ [] := by
      intro hc'
      rw [List.filter_eq_nil_iff] at hc'
      exact hc' i (List.mem_range.2 hi) (by simpa using hik)
    obtain ⟨a0, t, hat⟩ := List.exists_cons_of_ne_nil hne
    have ham : a0 ∈ (List.range (bs.length / U)).filter fun k => destKey ((fun i => (⟨1, B + i⟩ : Loc)) (k * U)) == κ := by rw [hat]; exact List.mem_cons_self ..
    have ha0 := List.mem_range.1 (List.mem_filter.1 ham).1
    have hfirst : q.first = ⟨1, B + a0 * U⟩ := by
      unfold Packet.first
      rw [← e1, ← e2, copyCells, hat]
      obtain ⟨n', rfl⟩ : ∃ n', U = n' + 1 := ⟨U - 1, by omega⟩
      simp [List.range_succ_eq_map]
    have hsame : v.delivers q.src q.first = s.delivers s.agent ⟨1, B⟩ := by
      rw [(p3 q hq).1, h1.agent, hfirst]
      have e3 : v.delivers s.agent ⟨1, B + a0 * U⟩ = p.delivers s.agent ⟨1, B + a0 * U⟩ :=
        State.delivers_congr (by rw [h5.same]) (by rw [h5.same]) (by rw [h5.same]) (fun i => by rw [h5.same]; rfl) (fun i => by rw [h5.same]; rfl) _ _
      rw [e3, h1.delivers]
      have ec : (⟨1, B + a0 * U⟩ : Loc).core = (⟨1, B⟩ : Loc).core := by
        have := hle a0 ha0
        simp only [Loc.core]
        omega
      have hF : ∀ x, s.delivers s.agent ⟨1, x⟩ =
          if s.agent.tag = 0 then true else ((s.tile (tileOfCore (⟨1, x⟩ : Loc).core)).owner == s.agent.tag && !(s.core (⟨1, x⟩ : Loc).core).lost) := by
        intro x; simp [State.delivers, State.ownerAt]
      rw [hF, hF, ec]
    refine ⟨e1.symm, ?_, ?_, ?_, ?_⟩
    · intro y hy
      rw [← e2, copyCells, List.mem_flatMap] at hy
      obtain ⟨k, -, hy⟩ := hy
      obtain ⟨j, -, rfl⟩ := List.mem_map.1 hy
      simp
    · rw [(p3 q hq).1, h1.agent]
      have e1 : ∀ i, v.core i = p.core i := by intro i; rw [h5.same]; rfl
      rw [e1, h1.l1]
      exact ha.l1
    · rw [hfirst]; simp
    · rw [hsame]; exact hd
  · rw [h5.same]
    have e : p.exports = (s.charge c).exports := by rw [h1.cached.same]
    exact e.trans (by simp [ha.exports])

end Sys2Proof.Machine
end

