-- ==== Sys2Proof/Laws/Counted.lean ====
section
/-!
SUPPORT. Stores whose bytes are then counted (07 R178): what the lanes of a counted store send is posted, one packet for each core.
-/

namespace Sys2Proof.Machine

/-- A counted store of n bytes a lane to windows of scratchpad, posted. -/
theorem issue_counted {s : State} (h : s.Ready) (ha : s.Alone) (c : Meta) (hc : s.illegal c = none) (op : PacketOp) (n : Nat) (f : Nat → Nat → Byte) (m : Mask)
    (va : Nat → Nat) (x : Nat → Xlat) (hl : s.Reaches .counted n m va x) (body : State → Eff)
    (hb : body (s.charge c) = (s.charge c).withLanes .counted n ((maskLanes m).map fun k => (k, va k)) fun t oks =>
      t.storeLanes op false (oks.map fun l => (l, (List.range n).map (f l.lane))) .done) :
    ∃ t u, issue c s body = .next t ∧ s.Returns (u.mark c.nonreplay) t c.len c.settle [] ∧
      s.Posts u m (fun k => (x k).loc) false fun l => (op, laneCells n f (fun k => (x k).loc) l) := by
  let p := (s.charge c).cachePages s.curTag ((maskLanes m).map va)
  have hp : (s.charge c).Cached p := State.cachePages_cached _ _ _
  obtain ⟨g1, -, -, -⟩ := cached_alone ha c hp (cachePages_l1 ha c _ _)
  have hmem : p = { (s.charge c) with parts := p.parts } := by
    simp only [p]
    unfold State.cachePages
    extract_lets q add tlb
    split
    · rfl
    · unfold State.updPart; split <;> rfl
  obtain ⟨keys, k1, k2, k3⟩ := postStores_injected p op m va x n f false (fun k h1 h2 => (hl k h1 h2).2.1) fun k h1 h2 =>
    State.checkLane_via ha.exports (hl k h1 h2).1 (hl k h1 h2).2.1
  let v := p.postStores op false ((okLanes m va x).map fun l => (l, (List.range n).map (f l.lane)))
  have hk3 : Injected p v false (keys.map fun c => (op, laneCells n f (fun k => (x k).loc) (destLanes m (fun k => (x k).loc) c))) := k3
  obtain ⟨ps, p1, p2, p3, -⟩ := hk3.sent
  rw [g1, List.nil_append] at p1
  have hbody : body (s.charge c) = .done v := by
    have h5 : ∀ l ∈ ((okLanes m va x).map fun l => ((l, (List.range n).map (f l.lane)) : LaneOk × List Byte)).map Prod.fst, l.x.loc.tt ≤ 5 := by
      intro l hl'
      rw [List.map_map] at hl'
      obtain ⟨y, hy, rfl⟩ := List.mem_map.1 hl'
      obtain ⟨k, hk, rfl⟩ := List.mem_map.1 hy
      exact (hl k (mem_maskLanes.1 hk).1 (mem_maskLanes.1 hk).2).2.1
    rw [hb, withLanes_reaches ha c hl, State.storeLanes, State.whenReleased_here _ _ _ h5, State.askAll_here _ _ _ _ h5]
  have hag : p.agent = s.agent := by rw [hp.agent, charge_agent]
  have hvrest : v = { (s.charge c).restOf v with cores := v.cores } := by
    have e := hk3.same
    rw [hmem] at e
    rw [e]; rfl
  have hvcore : ∀ i, v.core i = (s.charge c).core i := by
    intro i
    have e1 : v.core i = p.core i := by rw [hk3.same]; rfl
    rw [e1, hmem]; rfl
  have hpart : ∀ q, ({ v.part q with tlb := [] } : Part) = { (s.charge c).part q with tlb := [] } := by
    intro q
    have e : v.part q = p.part q := by rw [hk3.same]; rfl
    rw [e]; exact hp.parts q
  have hlaunch : ∀ l, ({ v.launch l with rseq := [], wseq := [] } : Launch) = { (s.charge c).launch l with rseq := [], wseq := [] } := by
    intro l; rw [hk3.launches l]; exact hp.launches l
  have hcur : v.cur = (s.charge c).cur := by rw [hk3.same]; exact hp.cur
  have hsame : s.restOf v = { s with parts := v.parts, launches := v.launches, packets := v.packets, nextId := v.nextId } := by
    have e : (v.grans, v.hbm, v.sp, v.vrf, v.acc, v.host) = (s.grans, s.hbm, s.sp, s.vrf, s.acc, s.host) := by rw [hk3.same, hmem]; simp
    simp only [Prod.mk.injEq] at e
    simp only [State.restOf, e]
  have hu : (s.restOf v).Keeps v := State.rest_keeps hvrest hvcore
  obtain ⟨t, t1, t2⟩ := issue_returns (u := (s.restOf v).mark c.nonreplay) (w := v) (vals := []) h hc (.inr ha.tx) (body := body) (by rw [hbody]; simp) (by simp)
    (hu.mark _) (by simp [hcur]) (by simp [hcur]) (by simp [hcur, h.word]) (by simp [hcur, h.recipe]) (by simp [hcur, h.written]) (by simp [hcur, h.poisonV])
    (by simp [hcur, h.poisonS])
  refine ⟨t, s.restOf v, t1, t2, hsame, State.numbered_rest hpart hlaunch, ⟨keys, k1, k2, ?_⟩, ?_⟩
  · rw [show (s.restOf v).packets = ps from p1, p2]
  · intro q hq
    rw [show (s.restOf v).packets = ps from p1] at hq
    obtain ⟨a1, a2, -⟩ := p3 q hq
    refine ⟨a1.trans hag, ?_⟩
    rw [a2, hp.cur]; simp

end Sys2Proof.Machine
end

