-- ==== Sys2Proof/Laws/Crypto.lean ====
section
/-!
SUPPORT. AES-256-GCM as the links use it: blocks and schedules hold 16 and 4 bytes, the key stream undoes itself, and a flit that a port sends is
accepted by a port with the same key, slot and counts (22 R393, R395).
-/

namespace Sys2Proof.Machine

/-- A rule of a loop that its start meets and each round keeps. -/
theorem iterate_invariant {α : Type} {P : α → Prop} {f : Nat → α → α} (h : ∀ i a, P a → P (f i a)) : ∀ n i a, P a → P (iterate f n i a)
  | 0, _, _, ha => ha
  | n + 1, i, a, ha => iterate_invariant h n (i + 1) (f i a) (h i a ha)

/-! ## Bytes -/

/-- Each number of a list is a byte. -/
def IsBytes (l : List Nat) : Prop := ∀ x ∈ l, x < 256
theorem xor_byte {a b : Nat} (ha : a < 256) (hb : b < 256) : a ^^^ b < 256 := Nat.xor_lt_two_pow (n := 8) ha hb
theorem aesDouble_byte (a : Nat) (ha : a < 256) : aesDouble a < 256 := by
  unfold aesDouble
  split
  · have e : 2 * a = 2 ^ 8 * 1 + (2 * a - 256) := by omega
    have h : ∀ b < 256, (2 ^ 8 * 1 + b) ^^^ 0x11B = b ^^^ 0x1B := by
      intro b hb
      refine Nat.eq_of_testBit_eq fun i => ?_
      have e1 : (0x11B : Nat) = 2 ^ 8 * 1 + 0x1B := rfl
      rw [e1, Nat.testBit_xor, Nat.testBit_xor, Nat.testBit_two_pow_mul_add _ hb, Nat.testBit_two_pow_mul_add _ (by decide)]
      split
      · rfl
      · rw [Nat.testBit_lt_two_pow (lt_of_lt_of_le hb (Nat.pow_le_pow_right (n := 2) (by decide) (by omega : 8 ≤ i))),
          Nat.testBit_lt_two_pow (lt_of_lt_of_le (by decide : 0x1B < 2 ^ 8) (Nat.pow_le_pow_right (by decide) (by omega : 8 ≤ i)))]
        simp
    rw [e, h _ (by omega)]
    exact xor_byte (by omega) (by decide)
  · omega
theorem aesMul_byte {a : Nat} (b : Nat) (ha : a < 256) : aesMul a b < 256 := by
  unfold aesMul
  refine (iterate_invariant (P := fun x : Nat × Nat => x.1 < 256 ∧ x.2 < 256) (fun i x hx => ⟨aesDouble_byte _ hx.1, ?_⟩) 8 0 (a, 0) ⟨ha, Nat.zero_lt_succ 255⟩).2
  dsimp only
  split
  · exact xor_byte hx.2 hx.1
  · exact hx.2
theorem aesInv_byte {a : Nat} (ha : a < 256) : aesInv a < 256 := by
  unfold aesInv
  exact aesMul_byte _ (iterate_invariant (P := (· < 256)) (fun _ x hx => aesMul_byte _ (aesMul_byte _ hx)) 6 0 a ha)
theorem rotByte_byte : ∀ a < 256, rotByte a 1 < 256 ∧ rotByte a 2 < 256 ∧ rotByte a 3 < 256 ∧ rotByte a 4 < 256 := by
  intro a ha
  unfold rotByte
  have : ∀ k ≤ 8, a * 2 ^ k % 256 + a / 2 ^ (8 - k) < 256 := by
    intro k hk
    interval_cases k <;> omega
  exact ⟨this 1 (by decide), this 2 (by decide), this 3 (by decide), this 4 (by decide)⟩
theorem aesSub_byte {a : Nat} (ha : a < 256) : aesSub a < 256 := by
  have h := rotByte_byte _ (aesInv_byte ha)
  exact xor_byte (xor_byte (xor_byte (xor_byte (xor_byte (aesInv_byte ha) h.1) h.2.1) h.2.2.1) h.2.2.2) (by decide)
theorem IsBytes.xor {a b : List Nat} (ha : IsBytes a) (hb : IsBytes b) : IsBytes (xorBytes a b) := by
  intro x hx
  unfold xorBytes at hx
  rw [← List.map_uncurry_zip_eq_zipWith] at hx
  obtain ⟨y, hy, rfl⟩ := List.mem_map.mp hx
  exact xor_byte (ha _ (List.of_mem_zip hy).1) (hb _ (List.of_mem_zip hy).2)
theorem IsBytes.sub {a : List Nat} (ha : IsBytes a) : IsBytes (a.map aesSub) := by
  intro x hx
  obtain ⟨y, hy, rfl⟩ := List.mem_map.mp hx
  exact aesSub_byte (ha y hy)
theorem IsBytes.getD {a : List Nat} (ha : IsBytes a) (i : Nat) : a.getD i 0 < 256 := by
  rw [List.getD_eq_getElem?_getD]
  cases h : a[i]? with
  | none => decide
  | some x => exact ha x (List.mem_of_getElem? h)

/-! ## Blocks -/

/-- n bytes. -/
structure IsBlock (n : Nat) (l : List Nat) : Prop where
  bytes : IsBytes l
  len : l.length = n
theorem IsBlock.xor {n : Nat} {a b : List Nat} (ha : IsBlock n a) (hb : IsBlock n b) : IsBlock n (xorBytes a b) :=
  ⟨ha.bytes.xor hb.bytes, by simp [xorBytes, ha.len, hb.len]⟩
theorem aesShift_block {a : List Nat} (ha : IsBytes a) : IsBlock 16 (aesShift a) :=
  ⟨fun x hx => by obtain ⟨k, -, rfl⟩ := List.mem_map.mp hx; exact ha.getD _, by simp [aesShift]⟩
theorem aesMix_block {a : List Nat} (ha : IsBytes a) : IsBlock 16 (aesMix a) := by
  refine ⟨fun x hx => ?_, by simp [aesMix]⟩
  obtain ⟨k, -, rfl⟩ := List.mem_map.mp hx
  exact xor_byte (xor_byte (xor_byte (aesDouble_byte _ (ha.getD _)) (xor_byte (aesDouble_byte _ (ha.getD _)) (ha.getD _))) (ha.getD _)) (ha.getD _)
/-- Words of a key schedule. -/
structure IsSchedule (ws : List (List Nat)) : Prop where
  words : ∀ w ∈ ws, IsBlock 4 w
  len : ws.length = 60
theorem aesNextWord_word {ws : List (List Nat)} (n : Nat) (h : ∀ w ∈ ws, IsBlock 4 w) (hl : 8 ≤ ws.length) : IsBlock 4 (aesNextWord n ws) := by
  have hw : ∀ i < 8, IsBlock 4 (ws.getD i []) := by
    intro i hi
    rw [List.getD_eq_getElem _ _ (by omega)]
    exact h _ (List.getElem_mem _)
  unfold aesNextWord
  refine (hw 7 (by decide)).xor ?_
  have h0 := hw 0 (by decide)
  split
  · have hr : IsBlock 4 ((((ws.getD 0 []).drop 1) ++ (ws.getD 0 []).take 1).map aesSub) := by
      refine ⟨IsBytes.sub fun x hx => ?_, by rw [List.length_map, List.length_append, List.length_drop, List.length_take, h0.len]; rfl⟩
      rcases List.mem_append.mp hx with hx | hx
      · exact h0.bytes x (List.mem_of_mem_drop hx)
      · exact h0.bytes x (List.mem_of_mem_take hx)
    cases hm : (((ws.getD 0 []).drop 1) ++ (ws.getD 0 []).take 1).map aesSub with
    | nil => rw [hm] at hr; exact hr
    | cons x r =>
      rw [hm] at hr
      refine ⟨fun y hy => ?_, hr.len⟩
      rcases List.mem_cons.mp hy with rfl | hy
      · exact xor_byte (hr.bytes x (by simp)) (iterate_invariant (P := (· < 256)) (fun _ c hc => aesDouble_byte c hc) _ 0 1 (by decide))
      · exact hr.bytes y (by simp [hy])
  · split
    · exact ⟨h0.bytes.sub, by simpa using h0.len⟩
    · exact h0
theorem aesSchedule_words {key : List Nat} (h : IsBlock 32 key) : IsSchedule (aesSchedule key) := by
  have hf : ∀ w ∈ (List.range 8).map fun i => (key.drop (4 * i)).take 4, IsBlock 4 w := by
    intro w hw
    obtain ⟨i, hi, rfl⟩ := List.mem_map.mp hw
    have := List.mem_range.mp hi
    exact ⟨fun x hx => h.bytes x (List.mem_of_mem_drop (List.mem_of_mem_take hx)), by have := h.len; simp; omega⟩
  have hg : ∀ (f : Nat → List (List Nat) → List (List Nat)) (k n i : Nat) (ws : List (List Nat)), (∀ i ws, f i ws = aesNextWord i ws :: ws) → ws.length = k → 8 ≤ k →
      (∀ w ∈ ws, IsBlock 4 w) → (iterate f n i ws).length = k + n ∧ ∀ w ∈ iterate f n i ws, IsBlock 4 w := by
    intro f k n
    induction n generalizing k with
    | zero => intro i ws _ hl _ hw; exact ⟨hl, hw⟩
    | succ n ih =>
      intro i ws he hl hk hw
      have := ih (k + 1) (i + 1) (f i ws) he (by rw [he]; simp [hl]) (by omega) (by
        rw [he]; intro w hm
        rcases List.mem_cons.mp hm with rfl | hm
        · exact aesNextWord_word i hw (by omega)
        · exact hw w hm)
      exact ⟨by rw [← Nat.add_right_comm, Nat.add_assoc] at this; exact this.1, this.2⟩
  have := hg (fun n ws => aesNextWord n ws :: ws) 8 52 8 _ (fun _ _ => rfl) (by simp) (by decide) (fun w hw => hf w (List.mem_reverse.mp hw))
  exact ⟨fun w hw => this.2 w (List.mem_reverse.mp hw), by unfold aesSchedule; rw [List.length_reverse]; exact this.1⟩
theorem aesRoundKey_block {ws : List (List Nat)} (h : IsSchedule ws) {r : Nat} (hr : r ≤ 14) : IsBlock 16 (aesRoundKey ws r) := by
  have hm : ∀ w ∈ (ws.drop (4 * r)).take 4, IsBlock 4 w := fun w hw => h.words w (List.mem_of_mem_drop (List.mem_of_mem_take hw))
  refine ⟨fun x hx => ?_, ?_⟩
  · obtain ⟨w, hw, hx⟩ := List.mem_flatten.mp hx
    exact (hm w hw).bytes x hx
  · have hl : ((ws.drop (4 * r)).take 4).length = 4 := by have := h.len; simp; omega
    have : ∀ l : List (List Nat), (∀ w ∈ l, IsBlock 4 w) → l.flatten.length = 4 * l.length := by
      intro l
      induction l with
      | nil => simp
      | cons a l ih => intro h; rw [List.flatten_cons, List.length_append, (h a (by simp)).len, ih fun w hw => h w (by simp [hw])]; simp; omega
    unfold aesRoundKey
    rw [this _ hm, hl]
theorem aesBlock_block {ws : List (List Nat)} (h : IsSchedule ws) {b : List Nat} (hb : IsBytes b) : IsBlock 16 (aesBlock ws b) := by
  have step : ∀ n i a, i + n ≤ 14 → IsBytes a → IsBytes (iterate (fun r s => xorBytes (aesMix (aesShift (s.map aesSub))) (aesRoundKey ws r)) n i a) := by
    intro n
    induction n with
    | zero => exact fun _ _ _ ha => ha
    | succ n ih => exact fun i a hi ha => ih (i + 1) _ (by omega) ((aesMix_block (aesShift_block ha.sub).bytes).xor (aesRoundKey_block h (by omega))).bytes
  exact (aesShift_block (step 13 1 _ (by decide) (hb.xor (aesRoundKey_block h (by decide)).bytes)).sub).xor (aesRoundKey_block h (by decide))
theorem beOfNat_block : ∀ n x, IsBlock n (beOfNat n x)
  | 0, _ => ⟨fun _ h => absurd h (by simp [beOfNat]), rfl⟩
  | n + 1, x => by
    have h := beOfNat_block n (x / 256)
    refine ⟨fun y hy => ?_, by simp [beOfNat, h.len]⟩
    rcases List.mem_append.mp hy with hy | hy
    · exact h.bytes y hy
    · rw [List.mem_singleton.mp hy]; exact Nat.mod_lt _ (by decide)

/-! ## The key stream -/

/-- An element of equal blocks in a row. -/
theorem getD_blocks (f : Nat → List Nat) (h : ∀ i, (f i).length = 16) : ∀ n j, j < 16 * n → ((List.range n).flatMap f).getD j 0 = (f (j / 16)).getD (j % 16) 0
  | 0, j, hj => by omega
  | n + 1, j, hj => by
    have hl : ((List.range n).flatMap f).length = 16 * n := by simp [List.length_flatMap, h, Nat.mul_comm]
    rw [List.range_succ, List.flatMap_append]
    by_cases hn : j < 16 * n
    · rw [List.getD_append _ _ _ _ (by omega)]; exact getD_blocks f h n j hn
    · rw [List.getD_append_right _ _ _ _ (by omega), hl]
      have h1 : j / 16 = n := by omega
      have h2 : j - 16 * n = j % 16 := by omega
      simp [h1, h2]
/-- The key stream changes the j-th byte by the j-th byte of its blocks. -/
theorem gcmStream_get {ws : List (List Nat)} (h : IsSchedule ws) {iv : List Nat} (hi : IsBytes iv) (t : List Nat) :
    (gcmStream ws iv t).length = t.length ∧ ∀ j < t.length, (gcmStream ws iv t).getD j 0 =
      t.getD j 0 ^^^ (aesBlock ws (iv ++ beOfNat 4 (j / 16 + 2))).getD (j % 16) 0 := by
  have hk : ∀ i, IsBlock 16 (aesBlock ws (iv ++ beOfNat 4 (i + 2))) := fun i => aesBlock_block h fun x hx => by
    rcases List.mem_append.mp hx with hx | hx
    · exact hi x hx
    · exact (beOfNat_block _ _).bytes x hx
  have hb : ∀ i < (t.length + 15) / 16, ((blocks16 t).getD i []).length = 16 ∧ ∀ m < 16, ((blocks16 t).getD i []).getD m 0 = t.getD (16 * i + m) 0 := by
    intro i hi
    have e : (blocks16 t).getD i [] = (t.drop (16 * i)).take 16 ++ List.replicate (16 - ((t.drop (16 * i)).take 16).length) 0 := by
      rw [List.getD_eq_getElem _ _ (by simp [blocks16]; omega)]
      simp [blocks16]
    refine ⟨by rw [e]; simp, fun m hm => ?_⟩
    rw [e]
    by_cases hlt : 16 * i + m < t.length
    · rw [List.getD_append _ _ _ _ (by simp; omega)]
      simp [List.getD_eq_getElem?_getD, List.getElem?_drop, hm]
    · rw [List.getD_append_right _ _ _ _ (by simp; omega)]
      simp only [List.getD_eq_getElem?_getD]
      rw [List.getElem?_eq_none (by omega : t.length ≤ 16 * i + m), List.getElem?_replicate]
      split <;> rfl
  obtain ⟨n, hn⟩ : ∃ n, n = (blocks16 t).length := ⟨_, rfl⟩
  have hn' : n = (t.length + 15) / 16 := by rw [hn]; simp [blocks16]
  obtain ⟨f, hf⟩ : ∃ f : Nat → List Nat, f = fun i => if i < n then xorBytes ((blocks16 t).getD i []) (aesBlock ws (iv ++ beOfNat 4 (i + 2))) else List.replicate 16 0 := ⟨_, rfl⟩
  have hlen : ∀ i, (f i).length = 16 := by
    intro i
    rw [hf]
    dsimp only
    split
    · unfold xorBytes; rw [List.length_zipWith, (hb i (by omega)).1, (hk i).len]; rfl
    · simp
  have e : gcmStream ws iv t = ((List.range n).flatMap f).take t.length := by
    unfold gcmStream
    dsimp only
    rw [← hn]
    congr 1
    refine List.flatMap_congr fun i hi => ?_
    rw [hf]
    exact (if_pos (List.mem_range.mp hi)).symm
  have hl : ((List.range n).flatMap f).length = 16 * n := by simp [List.length_flatMap, hlen, Nat.mul_comm]
  refine ⟨by rw [e, List.length_take, hl]; omega, fun j hj => ?_⟩
  rw [e]
  have : (((List.range n).flatMap f).take t.length).getD j 0 = ((List.range n).flatMap f).getD j 0 := by
    simp [List.getD_eq_getElem?_getD, hj]
  rw [this, getD_blocks f hlen n j (by omega), hf]
  dsimp only
  rw [if_pos (by omega)]
  have h1 := hb (j / 16) (by omega)
  have hm : j % 16 < 16 := Nat.mod_lt _ (by decide)
  rw [← (by omega : 16 * (j / 16) + j % 16 = j), ← h1.2 _ hm]
  have e2 : (16 * (j / 16) + j % 16) / 16 = j / 16 := by omega
  have e3 : (16 * (j / 16) + j % 16) % 16 = j % 16 := by omega
  rw [e2, e3]
  obtain ⟨a, ha⟩ : ∃ a, a = (blocks16 t).getD (j / 16) [] := ⟨_, rfl⟩
  obtain ⟨b, hb'⟩ : ∃ b, b = aesBlock ws (iv ++ beOfNat 4 (j / 16 + 2)) := ⟨_, rfl⟩
  have hal : a.length = 16 := ha ▸ h1.1
  have hbl : b.length = 16 := hb' ▸ (hk _).len
  rw [← ha, ← hb']
  simp only [List.getD_eq_getElem?_getD, xorBytes, List.getElem?_zipWith]
  rw [List.getElem?_eq_getElem (by omega), List.getElem?_eq_getElem (by omega)]
  rfl
theorem gcmStream_twice {ws : List (List Nat)} (h : IsSchedule ws) {iv : List Nat} (hi : IsBytes iv) (t : List Nat) :
    gcmStream ws iv (gcmStream ws iv t) = t := by
  have h1 := gcmStream_get h hi t
  have h2 := gcmStream_get h hi (gcmStream ws iv t)
  refine List.ext_getElem (by rw [h2.1, h1.1]) fun j hj hj' => ?_
  have := h2.2 j (by rw [h1.1]; exact hj')
  rw [h1.2 j hj', Nat.xor_assoc, Nat.xor_self, Nat.xor_zero, List.getD_eq_getElem _ _ hj, List.getD_eq_getElem _ _ hj'] at this
  exact this
theorem gcmStream_bytes {ws : List (List Nat)} (h : IsSchedule ws) {iv : List Nat} (hi : IsBytes iv) {t : List Nat} (ht : IsBytes t) : IsBytes (gcmStream ws iv t) := by
  have h1 := gcmStream_get h hi t
  intro x hx
  obtain ⟨j, hj, rfl⟩ := List.getElem_of_mem hx
  rw [← List.getD_eq_getElem _ 0 hj, h1.2 j (by rw [← h1.1]; exact hj)]
  refine xor_byte (ht.getD j) ((aesBlock_block h fun y hy => ?_).bytes.getD _)
  rcases List.mem_append.mp hy with hy | hy
  · exact hi y hy
  · exact (beOfNat_block _ _).bytes y hy
theorem gcmTag_block {ws : List (List Nat)} (h : IsSchedule ws) {iv : List Nat} (hi : IsBytes iv) (aad ct : List Nat) : IsBlock 16 (gcmTag ws iv aad ct) :=
  (beOfNat_block _ _).xor (aesBlock_block h fun x hx => by
    rcases List.mem_append.mp hx with hx | hx
    · exact hi x hx
    · exact (beOfNat_block _ _).bytes x hx)
/-- What a key seals, it opens. -/
theorem gcm_opens {key : List Nat} (hk : IsBlock 32 key) {iv : List Nat} (hi : IsBytes iv) (aad t : List Nat) :
    gcmOpen key iv aad (gcmStream (aesSchedule key) iv t) (gcmTag (aesSchedule key) iv aad (gcmStream (aesSchedule key) iv t)) = some t := by
  unfold gcmOpen
  dsimp only
  rw [if_pos rfl, gcmStream_twice (aesSchedule_words hk) hi]

/-! ## Flits -/

theorem byteNats_bytes (l : List Byte) : IsBytes (byteNats l) := fun x hx => by
  obtain ⟨b, -, rfl⟩ := List.mem_map.mp hx
  exact b.isLt
theorem natsBytes_byteNats (l : List Byte) : natsBytes (byteNats l) = l := by simp [natsBytes, byteNats, Function.comp_def]
theorem byteNats_natsBytes {l : List Nat} (h : IsBytes l) : byteNats (natsBytes l) = l := by
  unfold byteNats natsBytes
  rw [List.map_map]
  conv_rhs => rw [← List.map_id l]
  refine List.map_congr_left fun x hx => ?_
  simp [Nat.mod_eq_of_lt (h x hx)]
theorem flitKey_block (k : BitVec 288) : IsBlock 32 (flitKey k) := ⟨byteNats_bytes _, by simp [flitKey, byteNats]⟩
theorem flitIv_bytes (k : BitVec 288) (ic : Nat) : IsBytes (flitIv k ic) := by
  intro x hx
  rcases List.mem_append.mp hx with hx | hx
  · rcases List.mem_append.mp hx with hx | hx <;> exact (beOfNat_block _ _).bytes x hx
  · exact (beOfNat_block _ _).bytes x hx
/-- R393, R395: a flit that port p sends is accepted by a port with the same key in the slot it names, at the sequence number and the count that the
receiver expects; one of no type is not. -/
theorem wire_fate (p r : Port) (x : Sent) (k : BitVec 288) (hp : SMap.find p.keys x.ks.toNat = some k) (hr : SMap.find r.keys (2 + x.ks.toNat) = some k)
    (hs : x.seq = r.rxseq.toNat) (hw : r.wants x.seq = (x.ks, x.ic)) (hf : x.ftype < 16) (hl : x.payload.length = 232) (ht : x.ptag < 128)
    (hd : x.sdev < 32) :
    (flitOf (p.wire x)).seq = x.seq ∧ (flitOf (p.wire x)).ftype = x.ftype ∧ (flitOf (p.wire x)).ptag = x.ptag ∧ (flitOf (p.wire x)).sdev = x.sdev ∧
      r.fate true (flitOf (p.wire x)) = if x.ftype = 0 ∨ 11 < x.ftype then .bad else .accept x.payload := by
  have hk : SMap.get 0 p.keys x.ks.toNat = k := by unfold SMap.get; rw [hp]
  have hsch := aesSchedule_words (flitKey_block k)
  have hiv := flitIv_bytes k x.ic
  obtain ⟨head, hh⟩ : ∃ head, head = headOf x.seq x.ftype x.ks x.ptag x.sdev (field p.ctl.toNat 5 1) := ⟨_, rfl⟩
  obtain ⟨ct, hc⟩ : ∃ ct, ct = gcmStream (aesSchedule (flitKey k)) (flitIv k x.ic) (byteNats x.payload) := ⟨_, rfl⟩
  obtain ⟨tag, hg⟩ : ∃ tag, tag = gcmTag (aesSchedule (flitKey k)) (flitIv k x.ic) (byteNats head) ct := ⟨_, rfl⟩
  have hcl : ct.length = 232 := by rw [hc, (gcmStream_get hsch hiv _).1]; simpa [byteNats] using hl
  have hcb : IsBytes ct := hc ▸ gcmStream_bytes hsch hiv (byteNats_bytes _)
  have htb : IsBlock 16 tag := hg ▸ gcmTag_block hsch hiv _ _
  have hhl : head.length = 8 := by rw [hh]; simp [headOf]
  have hwire : p.wire x = head ++ natsBytes ct ++ natsBytes tag := by unfold Port.wire; dsimp only; rw [hk, ← hh, ← hc, ← hg]
  have h1 : (p.wire x).take 8 = head := by rw [hwire]; simp [hhl]
  have h2 : ((p.wire x).drop 8).take 232 = natsBytes ct := by rw [hwire]; simp [hhl, natsBytes, hcl]
  have h3 : ((p.wire x).drop 240).take 16 = natsBytes tag := by rw [hwire, List.append_assoc, List.drop_append, List.drop_append, List.drop_eq_nil_of_le (by omega : head.length ≤ 240), hhl]; simp [natsBytes, hcl, htb.len, List.drop_eq_nil_of_le]
  have hseq : x.seq < 2 ^ 32 := by rw [hs]; exact r.rxseq.isLt
  obtain ⟨dd, hdd⟩ : ∃ dd, dd = field p.ctl.toNat 5 1 % 32 := ⟨_, rfl⟩
  have hdd' : dd < 32 := by rw [hdd]; exact Nat.mod_lt _ (by decide)
  obtain ⟨n, hn⟩ : ∃ n, n = x.seq + x.ftype * 2 ^ 32 + x.ks.toNat * 2 ^ 36 + x.ptag * 2 ^ 37 + x.sdev * 2 ^ 44 + dd * 2 ^ 49 := ⟨_, rfl⟩
  have hb : x.ks.toNat < 2 := Bool.toNat_lt x.ks
  have hnum : bytesNat head = n := by
    rw [hh, hn, hdd]
    unfold headOf
    rw [Nat.mod_eq_of_lt hf, Nat.mod_eq_of_lt ht, Nat.mod_eq_of_lt hd]
    refine bytesNat_natBytes _ _ ?_
    norm_num
    omega
  have f1 : field n 31 0 = x.seq := by simp only [field]; norm_num; omega
  have f2 : field n 35 32 = x.ftype := by simp only [field]; norm_num; omega
  have f3 : n.testBit 36 = x.ks := by
    rw [Nat.testBit_eq_decide_div_mod_eq]
    have : n / 2 ^ 36 % 2 = x.ks.toNat := by norm_num; omega
    rw [this]
    cases x.ks <;> rfl
  have f4 : field n 43 37 = x.ptag := by simp only [field]; norm_num; omega
  have f5 : field n 48 44 = x.sdev := by simp only [field]; norm_num; omega
  have f6 : field n 63 54 = 0 := by simp only [field]; norm_num; omega
  have hflit : flitOf (p.wire x) = { seq := x.seq, ftype := x.ftype, ks := x.ks, ptag := x.ptag, sdev := x.sdev, ddev := field n 53 49, reserved := 0
                                     head := head, body := natsBytes ct, tag := natsBytes tag } := by
    unfold flitOf
    dsimp only
    rw [h1, h2, h3, hnum, f1, f2, f3, f4, f5, f6]
  rw [hflit]
  refine ⟨rfl, rfl, rfl, rfl, ?_⟩
  unfold Port.fate
  dsimp only
  rw [hw]
  dsimp only
  rw [if_neg (by simp), if_neg (not_not_intro hs), if_neg (not_not_intro rfl), hr]
  dsimp only
  rw [byteNats_natsBytes hcb, byteNats_natsBytes htb.bytes, hg, hc, gcm_opens (flitKey_block k) hiv]
  dsimp only
  rw [natsBytes_byteNats]
  simp

end Sys2Proof.Machine
end

