-- ==== Sys2Proof/Laws/Events.lean ====
section
/-!
SUPPORT. Lemmas for the statements about events: what an event finds by its name, what the operations events share change, and the guards of
queues, links, the mailbox and the sessions, each passed once.
-/

namespace Sys2Proof.Machine

theorem State.ctx_id {s : State} {i : Nat} {c : Ctx} (h : s.ctx? i = some c) : c.id = i ∧ c.kind ≠ .none := by
  have := List.find?_some h
  simp at this
  exact this
theorem State.allCtxs_updCtx (s : State) (i : Nat) (f : Ctx → Ctx) : (s.updCtx i f).allCtxs = updWhere (fun c => c.id == i && c.kind != .none) f s.allCtxs := rfl
theorem find_updWhere {α : Type} (p : α → Bool) (f : α → α) (hf : ∀ a, p (f a) = p a) (l : List α) : (updWhere p f l).find? p = (l.find? p).map f := by
  induction l with
  | nil => rfl
  | cons x t ih =>
    simp only [updWhere, List.map_cons, List.find?_cons] at *
    by_cases hx : p x = true
    · simp [hx, hf]
    · simp only [hx]; simpa [hx] using ih
theorem State.ctx_updCtx {s : State} {i : Nat} {c : Ctx} (h : s.ctx? i = some c) (f : Ctx → Ctx) (hf : ∀ x, (f x).id = x.id ∧ (f x).kind = x.kind) :
    (s.updCtx i f).ctx? i = some (f c) := by
  unfold State.ctx? at *
  rw [State.allCtxs_updCtx, find_updWhere _ _ (fun a => by rw [(hf a).1, (hf a).2]), h]; rfl
theorem State.commit_id {s : State} {i : Nat} {c : TxCommit} (h : s.commit? i = some c) : c.id = i := by
  have := List.find?_some h; simpa using this
theorem State.commit_updCommit {s : State} {i : Nat} {c : TxCommit} (h : s.commit? i = some c) (f : TxCommit → TxCommit) (hf : ∀ x, (f x).id = x.id) :
    (s.updCommit i f).commit? i = some (f c) := by
  unfold State.commit? State.updCommit at *
  rw [find_updWhere _ _ (fun a => by rw [hf a]), h]; rfl
theorem State.job_id {s : State} {i : Nat} {c : Job} (h : s.job? i = some c) : c.id = i := by
  have := List.find?_some h; simpa using this
theorem State.job_updJob {s : State} {i : Nat} {c : Job} (h : s.job? i = some c) (f : Job → Job) (hf : ∀ x, (f x).id = x.id) :
    (s.updJob i f).job? i = some (f c) := by
  unfold State.job? State.updJob at *
  rw [find_updWhere _ _ (fun a => by rw [hf a]), h]; rfl
theorem State.part_of_find {s : State} {t : Nat} {p : Part} (h : SMap.find s.parts t = some p) : s.part t = p := by unfold State.part SMap.get; rw [h]
theorem State.updPart_of_find {s : State} {t : Nat} {p : Part} (h : SMap.find s.parts t = some p) (f : Part → Part) : s.updPart t f = s.setPart t (f p) := by
  unfold State.updPart; rw [h]
/-- t is s but for its memories. -/
def MemOnly (s t : State) : Prop := t = { s with grans := t.grans, hbm := t.hbm, sp := t.sp, vrf := t.vrf, acc := t.acc, planes := t.planes, sums := t.sums, bexp := t.bexp, host := t.host, cores := t.cores }
theorem MemOnly.refl (s : State) : MemOnly s s := rfl
theorem MemOnly.trans {s t u : State} (h : MemOnly s t) (k : MemOnly t u) : MemOnly s u := by
  unfold MemOnly at *; rw [k]; rw [h]
theorem MemOnly.writeByte (s : State) (l : Loc) (b : Byte) : MemOnly s (s.writeByte l b) := by
  unfold State.writeByte
  split
  · dsimp only
    unfold State.scrubLine
    split
    · rfl
    · rfl
  · rfl
  · rfl
  · rfl
  · dsimp only; unfold State.writeMacro; dsimp only
    unfold State.setSlabRow State.updCore State.setCore
    rfl
  · rfl
  · rfl
theorem MemOnly.writeAll (s : State) (l : List (Loc × Byte)) : MemOnly s (s.writeAll l) := by
  induction l generalizing s with
  | nil => exact MemOnly.refl s
  | cons a t ih => exact (MemOnly.writeByte s a.1 a.2).trans (ih _)
theorem MemOnly.ctl {s t : State} (h : MemOnly s t) : t.cur = s.cur ∧ t.ctxs = s.ctxs ∧ t.commits = s.commits ∧ t.jobs = s.jobs ∧ t.parts = s.parts ∧ t.launches = s.launches ∧ t.blocks = s.blocks := by
  unfold MemOnly at h; rw [h]; exact ⟨rfl, rfl, rfl, rfl, rfl, rfl, rfl⟩
theorem State.commit_updCommit_id {s : State} {i : Nat} {c : TxCommit} (h : s.commit? i = some c) (f : TxCommit → TxCommit) (hf : ∀ x, (f x).id = x.id) :
    (s.updCommit c.id f).commit? c.id = some (f c) := by
  have e := State.commit_id h; rw [← e] at h; exact State.commit_updCommit h f hf
theorem State.job_updJob_id {s : State} {i : Nat} {c : Job} (h : s.job? i = some c) (f : Job → Job) (hf : ∀ x, (f x).id = x.id) :
    (s.updJob c.id f).job? c.id = some (f c) := by
  have e := State.job_id h; rw [← e] at h; exact State.job_updJob h f hf
/-- t is s but for its links, its copies and its knowledge of other devices. -/
def LinkOnly (s t : State) : Prop := t = { s with ports := t.ports, peers := t.peers, module := t.module, lineApp := t.lineApp, copies := t.copies, nextId := t.nextId }
theorem LinkOnly.refl (s : State) : LinkOnly s s := rfl
theorem LinkOnly.trans {s t u : State} (h : LinkOnly s t) (k : LinkOnly t u) : LinkOnly s u := by
  unfold LinkOnly at *; rw [k]; rw [h]
theorem LinkOnly.fold {α : Type} {f : State → α → State} (hf : ∀ s a, LinkOnly s (f s a)) (l : List α) (s : State) : LinkOnly s (l.foldl f s) := by
  induction l generalizing s with
  | nil => exact .refl s
  | cons a t ih => exact (hf s a).trans (ih _)
theorem LinkOnly.sendFlit {s t : State} {d : Nat} {f : Held} (h : s.sendFlit d f = some t) : LinkOnly s t := by
  unfold State.sendFlit at h
  cases hp : s.orderedPort d with
  | none => rw [hp] at h; cases h
  | some p =>
    rw [hp] at h; dsimp only at h
    split at h
    · injection h with h; rw [← h]; rfl
    · cases h
theorem LinkOnly.stamp {s t : State} {d : Nat} {b : Bool} (h : (if b = true then s.sendStamp d else some s) = some t) : LinkOnly s t := by
  cases b with
  | false => injection h with h; rw [h]; exact .refl _
  | true =>
    change s.sendStamp d = some t at h
    unfold State.sendStamp at h
    cases h2 : s.sendFlit d { ftype := 6, sdev := s.module.devId, payload := s.stampBytes } with
    | none => rw [h2] at h; cases h
    | some u => rw [h2] at h; injection h with h; rw [← h]; exact (LinkOnly.sendFlit h2).trans rfl
theorem LinkOnly.putOrdering {s t : State} {d a b c : Nat} {p : Nat → List Byte} (h : s.putOrdering d a b c p = some t) : LinkOnly s t := by
  unfold State.putOrdering at h
  dsimp only at h
  split at h
  · cases h
  · rename_i s0 s1 h1
    have e1 : LinkOnly s s1 := LinkOnly.stamp h1
    cases h2 : s1.sendFlit d { ftype := a, ptag := b, sdev := c, payload := p (((s1.peer d).pseqOut + 1) % 2 ^ 32) } with
    | none => rw [h2] at h; cases h
    | some u => rw [h2] at h; injection h with h; rw [← h]; exact (e1.trans (LinkOnly.sendFlit h2)).trans rfl
theorem iterate_keeps {α : Type} (R : α → α → Prop) (hr : ∀ a, R a a) (ht : ∀ a b c, R a b → R b c → R a c) (f : Nat → α → α) (hf : ∀ i a, R a (f i a)) :
    ∀ n i a, R a (iterate f n i a)
  | 0, _, a => hr a
  | n + 1, i, a => ht _ _ _ (hf i a) (iterate_keeps R hr ht f hf n (i + 1) (f i a))
theorem LinkOnly.sendWaiting (s : State) (d : Nat) : LinkOnly s (s.sendWaiting d) := by
  unfold State.sendWaiting
  refine iterate_keeps LinkOnly .refl (fun _ _ _ => .trans) _ (fun _ s => ?_) _ _ _
  split
  · exact .refl _
  · split
    · exact .refl _
    · rename_i h; exact (LinkOnly.putOrdering h).trans rfl
theorem LinkOnly.forwardWrites (s : State) (l : List (Loc × Byte)) : LinkOnly s (s.forwardWrites l) := by
  unfold State.forwardWrites
  split
  · exact .refl _
  · dsimp only
    refine LinkOnly.fold (fun s g => ?_) _ _
    split
    · exact .refl _
    · refine LinkOnly.trans (t := { s.updModule fun m => { m with ownApp := (s.module.ownApp + 1) % 2 ^ 32 } with lineApp := _ }) rfl ?_
      exact LinkOnly.fold (fun s x => LinkOnly.trans (t := s.updPeer _ _) rfl (LinkOnly.sendWaiting _ _)) _ _
theorem LinkOnly.ctl {s t : State} (h : LinkOnly s t) : t.cur = s.cur ∧ t.ctxs = s.ctxs ∧ t.commits = s.commits ∧ t.jobs = s.jobs ∧ t.parts = s.parts ∧
    t.launches = s.launches ∧ t.blocks = s.blocks := by
  unfold LinkOnly at h; rw [h]; exact ⟨rfl, rfl, rfl, rfl, rfl, rfl, rfl⟩
/-- Commits and jobs stand, and every context keeps its name. -/
def KeepsIds (s t : State) : Prop := t.commits = s.commits ∧ (∀ i, (t.ctx? i).isSome = (s.ctx? i).isSome) ∧ t.jobs = s.jobs
theorem KeepsIds.updCtx (s : State) (n : Nat) (f : Ctx → Ctx) (hf : ∀ c, (f c).id = c.id ∧ (f c).kind = c.kind) : KeepsIds s (s.updCtx n f) := by
  refine ⟨rfl, fun i => ?_, rfl⟩
  unfold State.ctx?
  rw [State.allCtxs_updCtx]
  generalize s.allCtxs = l
  induction l with
  | nil => rfl
  | cons y r ih =>
    simp only [updWhere, List.map_cons, List.find?_cons] at ih ⊢
    have e : ((if (y.id == n && y.kind != .none) = true then f y else y).id == i && (if (y.id == n && y.kind != .none) = true then f y else y).kind != .none) =
        (y.id == i && y.kind != .none) := by
      split
      · rw [(hf y).1, (hf y).2]
      · rfl
    rw [e]
    cases (y.id == i && y.kind != .none) with
    | true => rfl
    | false => exact ih
theorem KeepsIds.fold {α : Type} {f : State → α → State} (hf : ∀ s a, KeepsIds s (f s a)) (l : List α) (s : State) : KeepsIds s (l.foldl f s) := by
  induction l generalizing s with
  | nil => exact ⟨rfl, fun _ => rfl, rfl⟩
  | cons a t ih =>
    obtain ⟨h1, h2, h3⟩ := hf s a
    obtain ⟨k1, k2, k3⟩ := ih (f s a)
    exact ⟨k1.trans h1, fun i => (k2 i).trans (h2 i), k3.trans h3⟩
theorem State.clearPoison_keepsIds (s : State) (ls : List Loc) : KeepsIds s (s.clearPoison ls) := by
  unfold State.clearPoison
  split
  · exact ⟨rfl, fun _ => rfl, rfl⟩
  · refine KeepsIds.fold (fun s a => ?_) _ _
    split
    · exact KeepsIds.updCtx _ _ _ fun _ => ⟨rfl, rfl⟩
    · exact ⟨rfl, fun _ => rfl, rfl⟩
theorem State.mxop_id {s : State} {i : Nat} {o : MxOp} (h : s.mxop? i = some o) : o.id = i := by
  have := List.find?_some h; simpa using this
theorem State.mxop_updMx {s : State} {i : Nat} {o : MxOp} (h : s.mxop? i = some o) (f : MxOp → MxOp) (hf : ∀ x, (f x).id = x.id) :
    (s.updMx i f).mxop? i = some (f o) := by
  unfold State.mxop? State.updMx at *
  rw [find_updWhere _ _ (fun a => by rw [hf a]), h]; rfl
theorem State.mxop_self {s : State} {i : Nat} {o : MxOp} (h : s.mxop? i = some o) : s.mxop? o.id = some o := by rw [State.mxop_id h]; exact h

/-! ## Guards -/

/-- R330: a packet that is served reaches its meaning. -/
theorem State.servePacket_of {s : State} {v q t p : Nat} (h : s.Serves v q t p) (f : State → Nat → State) : s.servePacket v q t f = f (s.serving v q p) p := by
  obtain ⟨h1, h2, h3, h4, h5, h6, h7, h8⟩ := h
  have hr : ((s.vf v).queue q).record.isSome = false := by
    have := h2; unfold Queue.mayRun at this
    simp only [Bool.and_eq_true] at this
    have := this.2; cases hh : ((s.vf v).queue q).record with
    | none => rfl
    | some x => rw [hh] at this; cases this
  unfold State.servePacket; dsimp only
  rw [if_neg h1, if_neg (by rw [hr]; decide), if_neg (by rw [h2]; decide), if_neg (by omega), if_neg h6, h3]; dsimp only
  have e : (BitVec.ofNat 512 p).toNat = p := by rw [BitVec.toNat_ofNat]; exact Nat.mod_eq_of_lt h4
  rw [e, h7, if_neg (by decide), if_neg (by rw [h8]; exact fun h => h rfl)]
  rfl
/-- R395: a flit that arrives is acted on, and acknowledged. -/
theorem State.acceptFlit_of {s : State} {n ft : Nat} {f : Flit} {pl : List Byte} (h : s.Arrives n ft f pl) (act : State → Nat → Flit → List Byte → Option State) :
    s.acceptFlit ft act = match act (s.taking n) (s.port n).peer f pl with
      | none => s
      | some t => if ft = 8 || ft = 9 then t else t.portReply n 8 f.seq := by
  obtain ⟨h1, h2, h3, h4, h5, h6⟩ := h
  unfold State.acceptFlit; dsimp only
  rw [← h1, ← h4, if_neg (by rw [h3]; simp [h5]; omega), h6]
  rfl
theorem State.taking_port (s : State) (n : Nat) : (s.taking n).port n = (s.port n).take := by
  unfold State.taking State.updPort State.port; exact SMap.get_set_same ..
theorem State.updPort_taking (s : State) (n : Nat) (f : Port → Port) : (s.taking n).updPort n f = (s.taking n).updPort n fun _ => f (s.port n).take := by
  have := State.taking_port s n
  unfold State.updPort State.port at *
  rw [this]
theorem State.updPort_port (s : State) (n : Nat) (f : Port → Port) : (s.updPort n f).port n = f (s.port n) := by
  unfold State.updPort State.port; rw [SMap.get_set_same]
/-- R416: the command that runs acts. -/
theorem State.mailbox_of {s : State} {op a : Nat} (h : s.Commands op a) (f : State → Module → Nat → State) : s.mailbox op f = f s s.module a := by
  obtain ⟨h1, h2, h3⟩ := h
  unfold State.mailbox; rw [h1, h2, if_pos (by simp), ← h3]
theorem State.updVf_vf (s : State) (v : Nat) (f : VF → VF) : (s.updVf v f).vf v = f (s.vf v) := by
  unfold State.updVf State.vf; exact SMap.get_set_same ..
/-- R370. -/
theorem State.tdispRequest_of {s : State} {v : Nat} (h : v < 512) (h1 : (s.vf v).spdm = 5) (a : VF → Bool) (f : State → State) :
    s.tdispRequest v a f = if a (s.vf v) then (f s).answerWith 0 [] else s.answerWith spdmUnexpected [] := by
  unfold State.tdispRequest; dsimp only
  rw [if_neg (by omega), h1]
  cases a (s.vf v) <;> rfl
/-- R373. -/
theorem State.spdmRequest_of {s : State} (h : s.arg 0 < 520) (ok : Nat → Bool) (f : State → State) :
    s.spdmRequest ok f = if ok (s.spdmOf (s.arg 0)) then f s else s.answerWith spdmUnexpected [] := by
  unfold State.spdmRequest; rw [if_neg (by omega)]
/-- R379: the checks in order. -/
theorem State.slotRequest_of {s : State} {n : Nat} (h : s.Slots n) (f : State → Nat → List Byte → State) : s.slotRequest f =
    if 15 < field n 15 8 || 7 < field n 39 32 || 9 < field n 47 40 || field n 127 72 ≠ 0 then s.answerWith 0 [1]
    else if 512 ≤ field n 31 16 || (s.vf (field n 31 16)).tdi ≠ 2 then s.answerWith 0 [2]
    else if (s.vf (field n 31 16)).tag ≠ (s.vf (s.arg 0)).tag then s.answerWith 0 [3]
    else f s (s.vf (s.arg 0)).tag s.ev.bytes := by
  obtain ⟨h1, h2, h3, h4⟩ := h
  unfold State.slotRequest; dsimp only
  rw [if_neg (by rw [h2]; simp [h3]; omega), ← h4]
theorem State.updCore_core (s : State) (c d : Nat) (f : Core → Core) : (s.updCore c f).core d = if d = c then f (s.core c) else s.core d := by
  simp only [State.core, State.updCore, State.setCore, SMap.get_set]
theorem State.foldl_updCore_keeps (g : State → Nat → State) (P : Core → Prop) (hg : ∀ s d, ∃ f, g s d = s.updCore d f ∧ P (f (s.core d))) :
    ∀ (l : List Nat) (s : State) (c : Nat), P (s.core c) → P ((l.foldl g s).core c) := by
  intro l
  induction l with
  | nil => intro s c h; exact h
  | cons d t ih =>
    intro s c h
    obtain ⟨f, e, hp⟩ := hg s d
    refine ih _ _ ?_
    rw [e, State.updCore_core]
    split
    · exact hp
    · exact h
theorem State.foldl_updCore_all (g : State → Nat → State) (P : Core → Prop) (hg : ∀ s d, ∃ f, g s d = s.updCore d f ∧ P (f (s.core d))) :
    ∀ (l : List Nat) (s : State) (c : Nat), c ∈ l → P ((l.foldl g s).core c) := by
  have keep := State.foldl_updCore_keeps g P hg
  intro l
  induction l with
  | nil => intro s c h; cases h
  | cons d t ih =>
    intro s c h
    rcases List.mem_cons.1 h with rfl | h
    · refine keep t _ _ ?_
      obtain ⟨f, e, hp⟩ := hg s c
      rw [e, State.updCore_core, if_pos rfl]; exact hp
    · exact ih _ _ h

end Sys2Proof.Machine
end

