-- ==== Sys2Proof/Laws/Fetching.lean ====
section
/-!
SUPPORT. Fetching under the counters of an issue: the halfwords, words and loop bodies read are the same.
-/

namespace Sys2Proof.Machine

/-- A fetch always walks (R9). -/
theorem State.translate_fetch {s t : State} (h : ∀ l, t.readByte l = s.readByte l) (hv : t.vfs = s.vfs) (tag : Nat) (hp : t.part tag = s.part tag)
    (vf : Nat) (user : Bool) (va salt : Nat) : t.translate tag vf user .fetch va salt = s.translate tag vf user .fetch va salt := by
  have hc : ∀ a b c, t.carrier a b c = s.carrier a b c := by intro a b c; unfold State.carrier State.vf; rw [hv]
  have h2 : ∀ large e, t.useLeaf tag (s.part tag) vf user .fetch va large e = s.useLeaf tag (s.part tag) vf user .fetch va large e := by
    intro large e
    unfold State.useLeaf
    simp only [hc]
  have h3 : (Acc.fetch == Acc.fetch) = true := rfl
  simp only [State.translate, hp, State.walk_congr h, h3, if_true]
  cases s.walk (s.part tag) va
  · simp only [h2]
  · rfl

theorem charge_fetchHalf (s : State) (m : Meta) (va : W64) : (s.charge m).fetchHalf va = s.fetchHalf va := by
  have ht : (s.charge m).translate s.curTag s.curVf (!s.cur.smode) .fetch va.toNat 0 = s.translate s.curTag s.curVf (!s.cur.smode) .fetch va.toNat 0 :=
    State.translate_fetch (charge_readByte s m) (State.charge_vfs s m) _ (charge_part s m _) _ _ _ _
  unfold State.fetchHalf
  simp only [charge_curTag, charge_curVf, State.charge_cur_smode, ht, charge_delivers, charge_agent, charge_readByte, State.charge_poison]
theorem charge_fetchWord (s : State) (m : Meta) (va : W64) : (s.charge m).fetchWord va = s.fetchWord va := by
  simp only [State.fetchWord, charge_fetchHalf]
theorem charge_fetchHalves (s : State) (m : Meta) : ∀ (n : Nat) (va : W64), (s.charge m).fetchHalves n va = s.fetchHalves n va
  | 0, _ => rfl
  | n + 1, va => by simp only [State.fetchHalves, charge_fetchHalf, charge_fetchHalves s m n]
theorem charge_readSlots (s : State) (m : Meta) : ∀ (n : Nat) (va : W64), (s.charge m).readSlots n va = s.readSlots n va
  | 0, _ => rfl
  | n + 1, va => by simp only [State.readSlots, charge_fetchWord, charge_readSlots s m n]
/-- R70: the body an `lpb` opens. -/
theorem charge_readBody (s : State) (m : Meta) (len : BitVec 5) (steps : BitVec 4) : (s.charge m).readBody len steps = s.readBody len steps := by
  simp only [State.readBody, charge_fetchHalves, charge_readSlots, State.charge_cur_pc]

end Sys2Proof.Machine
end

