-- ==== Sys2Proof/Laws/Reductions.lean ====
section
/-!
SUPPORT. Reductions: the packets they send, and their arrival when nothing else acts on the memory they meet.
-/

namespace Sys2Proof.Machine

/-- What a reduction sends for the lanes of a mask. -/
def redContent (fn : Nat) (place : Nat → Loc) (v : Nat → W64) (m : Mask) : PacketOp × List (Loc × Byte) :=
  (.reduce fn ((maskLanes m).map fun k => (place k, v k)), [])

/-- Reductions of places of this device are all posted. -/
theorem reduceLanes_here (w : State) (fn : Nat) (rel : Bool) (ws : List (LaneOk × W64)) (h : ∀ y ∈ ws, y.1.x.loc.tt ≤ 5) (k : State → Eff) :
    w.reduceLanes fn rel ws k = k ((groupBy (fun (x : LaneOk × W64) => destKey x.1.x.loc) ws).foldl (fun s g => match g with
      | [] => s
      | x :: _ => s.inject (.reduce fn (g.map fun x => (x.1.x.loc, x.2))) [] (BitVec.ofNat 64 x.1.va) ((redOp fn).2 * g.length) rel x.1.x.via) w) := by
  have e2 : ∀ v : State, ws.filter (fun y => (v.awayOf y.1 true).isNone) = ws := by
    intro v
    rw [List.filter_eq_self]
    intro y hy
    have := h y hy
    have h6 : v.awayOf y.1 true = none := by unfold State.awayOf; rw [if_neg]; omega
    rw [h6]; rfl
  have h5 : ∀ l ∈ ws.map Prod.fst, l.x.loc.tt ≤ 5 := List.forall_mem_map.2 h
  unfold State.reduceLanes
  simp only
  rw [State.whenReleased_here _ _ _ h5, State.askAll_here _ _ _ _ h5]
  simp only [e2]
  try rfl

theorem reduce_injected (w : State) (m : Mask) (va : Nat → Nat) (x : Nat → Xlat) (fn : Nat) (v : Nat → W64) (rel : Bool)
    (ht : ∀ k < 256, m.getLsbD k → (x k).loc.tt ≤ 5) (hv : ∀ k < 256, m.getLsbD k → (x k).via = 0) (k : State → Eff) :
    ∃ keys : List (Nat × Nat), keys.Nodup ∧ (∀ c, c ∈ keys ↔ ∃ k < 256, m.getLsbD k ∧ destKey (x k).loc = c) ∧
      ∃ u, Injected w u rel (keys.map fun c => redContent fn (fun k => (x k).loc) v (destLanes m (fun k => (x k).loc) c)) ∧
      w.reduceLanes fn rel ((okLanes m va x).map fun l => (l, v l.lane)) k = k u := by
  let ws : Nat → LaneOk × W64 := fun k => (⟨k, va k, x k⟩, v k)
  have e0 : ((okLanes m va x).map fun l => (l, v l.lane)) = (maskLanes m).map ws := by
    rw [okLanes, List.map_map]; rfl
  have ht' : ∀ y ∈ (maskLanes m).map ws, y.1.x.loc.tt ≤ 5 := by
    intro y hy
    obtain ⟨k, hk, rfl⟩ := List.mem_map.1 hy
    exact ht k (mem_maskLanes.1 hk).1 (mem_maskLanes.1 hk).2
  obtain ⟨keys, k1, k2, k3⟩ := groupBy_lanes m (fun k => (x k).loc) ws (fun y => destKey y.1.x.loc) fun _ => rfl
  refine ⟨keys, k1, k2, ?_⟩
  rw [e0, reduceLanes_here _ _ _ _ ht', k3]
  refine ⟨_, ?_, rfl⟩
  have h1 := injected_fold (fun s g => match g with
      | [] => s
      | x :: _ => s.inject (.reduce fn (g.map fun x => (x.1.x.loc, x.2))) [] (BitVec.ofNat 64 x.1.va) ((redOp fn).2 * g.length) rel x.1.x.via)
    (fun g : List (LaneOk × W64) => (.reduce fn (g.map fun x => (x.1.x.loc, x.2)), [])) rel
    (keys.map fun c => (maskLanes (destLanes m (fun k => (x k).loc) c)).map ws) w (by
      intro g hg t
      obtain ⟨c, hc, rfl⟩ := List.mem_map.1 hg
      have hne := destLanes_ne ((k2 c).1 hc)
      have h0 : ∀ k ∈ maskLanes (destLanes m (fun k => (x k).loc) c), (x k).via = 0 := by
        intro k hk
        obtain ⟨b1, b2⟩ := mem_maskLanes.1 hk
        exact hv k b1 (destLanes_sub b1 b2)
      generalize maskLanes (destLanes m (fun k => (x k).loc) c) = l at hne h0
      cases l with
      | nil => exact absurd rfl hne
      | cons k l =>
        refine ⟨BitVec.ofNat 64 (va k), (redOp fn).2 * (ws k :: l.map ws).length, ?_⟩
        simp only [List.map_cons, ws]
        rw [h0 k (List.mem_cons_self ..)])
  have h2 : (keys.map fun c => (maskLanes (destLanes m (fun k => (x k).loc) c)).map ws).map
      (fun g : List (LaneOk × W64) => ((PacketOp.reduce fn (g.map fun x => (x.1.x.loc, x.2)), []) : PacketOp × List (Loc × Byte))) =
      keys.map fun c => redContent fn (fun k => (x k).loc) v (destLanes m (fun k => (x k).loc) c) := by
    rw [List.map_map]
    refine List.map_congr_left fun c _ => ?_
    simp only [Function.comp, List.map_map, ws, redContent]
    rfl
  rw [h2] at h1
  exact h1

/-! ## Arrival -/

/-- The function of a reduction. -/
def redFn (fn : Nat) (v : Nat → W64) (k old : Nat) : Nat := (redOp fn).1.apply (redOp fn).2 old (v k).toNat 0

theorem State.applyReduce {s : State} {p : Packet} {fn : Nat} {place : Nat → Loc} {v : Nat → W64} {m : Mask}
    (hop : p.op = .reduce fn ((maskLanes m).map fun k => (place k, v k))) (h4 : ∀ k ∈ maskLanes m, (place k).tt ≠ 4) (hl : (s.core p.src.core).l1 = [])
    (hpo : s.poison = []) (he : s.exports = []) : s.applyPacket p = (s.swapLanes (redOp fn).2 place (redFn fn v) m).1 := by
  unfold State.applyPacket
  rw [hop, State.swapLanes_eq]
  have hb : ∀ x : Loc × W64, (s.isPoisoned x.1 || ((redOp fn).2 == 8 && s.isPoisoned ⟨x.1.tt, x.1.addr + 4⟩)) = false := by
    intro x; simp [State.isPoisoned, hpo]
  have hn : ∀ l : List (Loc × W64), (l.filter fun _ => false).length = 0 := by intro l; simp
  simp only [hb, hn, if_true, Bool.false_eq_true, if_false]
  suffices H : ∀ (ls : List Nat) (a : State × (Nat → Nat)), (∀ k ∈ ls, (place k).tt ≠ 4) → (a.1.core p.src.core).l1 = [] → a.1.exports = [] →
      (ls.map fun k => (place k, v k)).foldl (fun s x => (s.rmwAt p.src.core x.1 (redOp fn).1 (redOp fn).2 x.2.toNat 0).2) a.1 =
        (ls.foldl (swapStep (redOp fn).2 place (redFn fn v)) a).1 from
    H _ (s, fun _ => 0) h4 hl he
  intro ls
  induction ls with
  | nil => intro a _ _ _; rfl
  | cons k ls ih =>
    intro a h4 hl he
    have hk := h4 k (List.mem_cons_self ..)
    rw [List.map_cons, List.foldl_cons, List.foldl_cons, State.rmwAt_alone _ _ _ _ _ _ hk hl he]
    have e := State.writeNum_eq a.1 (place k) (redOp fn).2 (redFn fn v k (a.1.readNum (place k) (redOp fn).2)) hk
    exact ih (swapStep (redOp fn).2 place (redFn fn v) a k) (fun j hj => h4 j (List.mem_cons_of_mem _ hj))
      (by simp only [swapStep]; rw [e]; exact hl) (by simp only [swapStep]; rw [e]; exact he)

theorem Packet.first_reduce {q : Packet} {fn : Nat} {k : Nat} {l : List Nat} {ls : List Nat} {place : Nat → Loc} {v : Nat → W64}
    (h : q.op = .reduce fn (ls.map fun k => (place k, v k))) (hl : ls = k :: l) : q.first = place k := by
  unfold Packet.first
  rw [h, hl]; rfl

/-- Reductions of the context, alone in flight, arrive in their order. -/
theorem State.flush_reductions (fn : Nat) (place : Nat → Loc) (v : Nat → W64) (L : Packet → Mask) : ∀ (ps : List Packet) (s : State), s.packets = ps →
    (∀ p ∈ ps, p.op = .reduce fn ((maskLanes (L p)).map fun k => (place k, v k)) ∧ (∀ k ∈ maskLanes (L p), (place k).tt ≠ 4) ∧
      (s.core p.src.core).l1 = [] ∧ p.first.tt ≠ 6 ∧ s.delivers p.src p.first = true) → ps.Pairwise (fun p q => p.id < q.id) →
    s.locks = [] → s.poison = [] → s.exports = [] →
    ps.foldl (fun s p => s.deliver p) s = ps.foldl (fun a p => (a.swapLanes (redOp fn).2 place (redFn fn v) (L p)).1) ({ s with packets := [] } : State)
  | [], s, hs, _, _, _, _, _ => by simp only [List.foldl_nil]; rw [← hs]
  | p :: ps, s, hs, h, hw, hl, hpo, he => by
    obtain ⟨h1, h2, h3, h4, h5⟩ := h p (List.mem_cons_self ..)
    have hlt := (List.pairwise_cons.1 hw).1
    have hm : s.mayArrive p = true := by
      unfold State.mayArrive
      rw [Bool.not_eq_true', List.any_eq_false]
      intro q hq
      rw [hs] at hq
      have : ¬ q.id < p.id := by
        rcases List.mem_cons.1 hq with rfl | hq
        · omega
        · have := hlt q hq; omega
      simp [this]
    have hf : s.packets.filter (fun q => q.id ≠ p.id) = ps := by
      rw [hs, List.filter_cons]
      simp only [ne_eq, not_true_eq_false, decide_false, Bool.false_eq_true, if_false]
      rw [List.filter_eq_self]
      intro q hq
      have := hlt q hq
      simp; omega
    let y : State := { s with packets := ps }
    have hv : s.deliver p = (y.swapLanes (redOp fn).2 place (redFn fn v) (L p)).1 := by
      rw [State.deliver_here hm hl h4 h5, hf]
      exact State.applyReduce (s := y) h1 h2 h3 hpo he
    obtain ⟨e, hg⟩ := swap_frame (redOp fn).2 place (redFn fn v) (maskLanes (L p)) (y, fun _ => 0) h2
    have e : (y.swapLanes (redOp fn).2 place (redFn fn v) (L p)).1 = y.memOf (y.swapLanes (redOp fn).2 place (redFn fn v) (L p)).1 := e
    let y' := (y.swapLanes (redOp fn).2 place (redFn fn v) (L p)).1
    have e : y' = y.memOf y' := e
    have ih := State.flush_reductions fn place v L ps y' (by rw [e]; rfl) (by
        intro q hq
        obtain ⟨g1, g2, g3, g4, g5⟩ := h q (List.mem_cons_of_mem _ hq)
        refine ⟨g1, g2, by rw [e]; exact g3, g4, ?_⟩
        have hg' : ∀ g, (y'.gran g).owner = (s.gran g).owner ∧ (y'.gran g).shr = (s.gran g).shr ∧ (y'.gran g).region = (s.gran g).region := hg
        rw [State.delivers_congr' (s := s) (t := y') (by rw [e]; rfl) hg' (by rw [e]; rfl) (fun x => by rw [e]; rfl) (fun x => by rw [e]; rfl)]
        exact g5) (List.pairwise_cons.1 hw).2 (by rw [e]; exact hl) (by rw [e]; exact hpo) (by rw [e]; exact he)
    rw [List.foldl_cons, List.foldl_cons, hv]
    refine ih.trans ?_
    congr 1
    let z : State := { s with packets := [] }
    have e3 : (z.swapLanes (redOp fn).2 place (redFn fn v) (L p)) = (z.memOf y', (y.swapLanes (redOp fn).2 place (redFn fn v) (L p)).2) :=
      swap_memOf z (redOp fn).2 place (redFn fn v) (maskLanes (L p)) (y, fun _ => 0) h2
    change ({ y' with packets := [] } : State) = (z.swapLanes (redOp fn).2 place (redFn fn v) (L p)).1
    rw [e3, e]; rfl

/-! ## The issue of a reduction -/

/-- A fold of read-modify-writes over masks, through another state with the same memory. -/
theorem swaps_memOf (z : State) (w : Nat) (place : Nat → Loc) (f : Nat → Nat → Nat) : ∀ (ms : List Mask) (y : State),
    (∀ m ∈ ms, ∀ k ∈ maskLanes m, (place k).tt ≠ 4) →
    ms.foldl (fun a m => (a.swapLanes w place f m).1) (z.memOf y) = z.memOf (ms.foldl (fun a m => (a.swapLanes w place f m).1) y)
  | [], _, _ => rfl
  | m :: ms, y, h => by
    have h1 := swap_memOf z w place f (maskLanes m) (y, fun _ => 0) (h m (List.mem_cons_self ..))
    have h2 : (z.memOf y).swapLanes w place f m = (z.memOf (y.swapLanes w place f m).1, (y.swapLanes w place f m).2) := h1
    rw [List.foldl_cons, List.foldl_cons, h2]
    exact swaps_memOf z w place f ms _ fun m' hm => h m' (List.mem_cons_of_mem _ hm)

/-- A reduction of the lanes of a mask at places of this device, posted, or performed at once. -/
theorem issue_reduce {s : State} (h : s.Ready) (ha : s.Alone) (c : Meta) (hc : s.illegal c = none)
    (hnr : c.nonreplay = true) (rel sc : Bool) (fn : Nat) (v : Nat → W64) (m : Mask) (va : Nat → Nat) (x : Nat → Xlat) (pcie : Bool)
    (hl : s.Reaches (.atomic pcie) (redOp fn).2 m va x) (K : State → State) (hK : ∀ w : State, w.peers = [] → K w = w) (body : State → Eff)
    (hb : body (s.charge c) = ((s.charge c).cachePages s.curTag ((maskLanes m).map va)).reduceLanes fn rel ((okLanes m va x).map fun l => (l, v l.lane))
      fun t => .done (K (if sc then t.flush t.own else t))) :
    ∃ t, issue c s body = .next t ∧
      (sc = false → ∃ u, s.Posts u m (fun k => (x k).loc) rel (redContent fn (fun k => (x k).loc) v) ∧ s.Returns (u.mark true) t c.len c.settle []) ∧
      (sc = true → ∃ u, ∃ keys : List (Nat × Nat), keys.Nodup ∧ (∀ c, c ∈ keys ↔ ∃ k < 256, m.getLsbD k ∧ destKey (x k).loc = c) ∧
        s.Swapped ((keys.map fun c => destLanes m (fun k => (x k).loc) c).foldl (fun a m => (a.swapLanes (redOp fn).2 (fun k => (x k).loc) (redFn fn v) m).1) s) u ∧
        s.Returns u t c.len c.settle []) := by
  let place : Nat → Loc := fun k => (x k).loc
  let p := (s.charge c).cachePages s.curTag ((maskLanes m).map va)
  have hp : (s.charge c).Cached p := State.cachePages_cached _ _ _
  obtain ⟨g1, g2, g3, -⟩ := cached_alone ha c hp (cachePages_l1 ha c _ _)
  have hcores : p.cores = (s.charge c).cores := by
    simp only [p]
    unfold State.cachePages
    extract_lets q add tlb
    split
    · rfl
    · unfold State.updPart; split <;> rfl
  have hmem : p = { (s.charge c) with parts := p.parts } := by
    simp only [p]
    unfold State.cachePages
    extract_lets q add tlb
    split
    · rfl
    · unfold State.updPart; split <;> rfl
  obtain ⟨keys, k1, k2, w, k3, k4⟩ := reduce_injected p m va x fn v rel (fun k h1 h2 => (hl k h1 h2).2.1)
    (fun k h1 h2 => State.checkLane_via ha.exports (hl k h1 h2).1 (hl k h1 h2).2.1) fun t => .done (K (if sc then t.flush t.own else t))
  obtain ⟨ps, p1, p2, p3, p4⟩ := k3.sent
  rw [g1, List.nil_append] at p1
  have hbody : body (s.charge c) = .done (K (if sc then w.flush w.own else w)) := by rw [hb]; exact k4
  have hag : p.agent = s.agent := by rw [hp.agent, charge_agent]
  have hx4 : ∀ k < 256, m.getLsbD k → (x k).loc.tt ≠ 4 ∧ (x k).loc.tt ≤ 5 := by
    intro k h1 h2
    have := State.checkLane_tt ha.exports (hl k h1 h2).1 (hl k h1 h2).2.1
    refine ⟨?_, (hl k h1 h2).2.1⟩
    intro h4
    rw [h4] at this
    simp [refused] at this
  have hsub : ∀ κ, ∀ k ∈ maskLanes (destLanes m place κ), (place k).tt ≠ 4 := by
    intro κ k hk
    obtain ⟨b1, b2⟩ := mem_maskLanes.1 hk
    exact (hx4 k b1 (destLanes_sub b1 b2)).1
  have hwrest : w = { (s.charge c).restOf w with cores := w.cores } := by
    have e := k3.same
    rw [hmem] at e
    rw [e]; rfl
  have hwcore : ∀ i, w.core i = (s.charge c).core i := by
    intro i
    have e1 : w.core i = p.core i := by rw [k3.same]; rfl
    rw [e1, State.core, hcores]; rfl
  have hpart : ∀ q, ({ w.part q with tlb := [] } : Part) = { (s.charge c).part q with tlb := [] } := by
    intro q
    have e : w.part q = p.part q := by rw [k3.same]; rfl
    rw [e]; exact hp.parts q
  have hlaunch : ∀ l, ({ w.launch l with rseq := [], wseq := [] } : Launch) = { (s.charge c).launch l with rseq := [], wseq := [] } := by
    intro l; rw [k3.launches l]; exact hp.launches l
  have hcur : w.cur = (s.charge c).cur := by rw [k3.same]; exact hp.cur
  have hsame : s.restOf w = { s with parts := w.parts, launches := w.launches, packets := w.packets, nextId := w.nextId } := by
    have e : (w.grans, w.hbm, w.sp, w.vrf, w.acc, w.host) = (s.grans, s.hbm, s.sp, s.vrf, s.acc, s.host) := by rw [k3.same, hmem]; simp
    simp only [Prod.mk.injEq] at e
    simp only [State.restOf, e]
  have hpeers : w.peers = [] := by rw [k3.same, hmem]; simp [ha.peers]
  cases sc with
  | false =>
    let u := s.restOf w
    have hu : (u.mark true).Keeps (w.mark c.nonreplay) := by rw [hnr]; exact (State.rest_keeps hwrest hwcore).mark true
    obtain ⟨t, t1, t2⟩ := issue_returns (u := u.mark true) (w := w) (vals := []) h hc (.inr ha.tx) (body := body) (by rw [hbody]; simp [hK w hpeers]) (by simp) hu
      (by simp [hcur]) (by simp [hcur]) (by simp [hcur, h.word]) (by simp [hcur, h.recipe]) (by simp [hcur, h.written]) (by simp [hcur, h.poisonV]) (by simp [hcur, h.poisonS])
    refine ⟨t, t1, fun _ => ⟨u, ⟨hsame, State.numbered_rest hpart hlaunch, ⟨keys, k1, k2, ?_⟩, ?_⟩, t2⟩, fun hf => nomatch hf⟩
    · rw [show u.packets = ps from p1, p2]
    · intro q hq
      rw [show u.packets = ps from p1] at hq
      obtain ⟨a1, a2, -⟩ := p3 q hq
      refine ⟨a1.trans hag, ?_⟩
      rw [a2, hp.cur]; simp
  | true =>
    let L : Packet → Mask := fun q => destLanes m place (destKey q.first)
    have hps : ∀ q ∈ ps, (∃ k < 256, m.getLsbD k ∧ destKey (x k).loc = destKey q.first) ∧ q.first.tt ≤ 5 ∧
        (∃ k, k < 256 ∧ m.getLsbD k = true ∧ q.first = (x k).loc) ∧
        q.op = .reduce fn ((maskLanes (L q)).map fun k => (place k, v k)) := by
      intro q hq
      have : (q.op, q.writes) ∈ ps.map (fun p => (p.op, p.writes)) := List.mem_map.2 ⟨q, hq, rfl⟩
      rw [p2] at this
      obtain ⟨κ, hκ, he⟩ := List.mem_map.1 this
      injection he with e1 e2
      have hne := destLanes_ne ((k2 κ).1 hκ)
      obtain ⟨k, l, hkl⟩ := List.exists_cons_of_ne_nil hne
      have hkm : k ∈ maskLanes (destLanes m place κ) := by
        have : maskLanes (destLanes m place κ) = k :: l := hkl
        rw [this]; exact List.mem_cons_self ..
      obtain ⟨b1, b2⟩ := mem_maskLanes.1 hkm
      have b3 := destLanes_sub b1 b2
      have b4 : destKey (place k) = κ := by
        rw [destLanes, getLsbD_ofBits _ b1] at b2
        simp at b2; exact b2.2
      have hfirst : q.first = (x k).loc := Packet.first_reduce e1.symm hkl
      have hLq : L q = destLanes m place κ := by
        simp only [L]; rw [hfirst]; exact congrArg _ b4
      refine ⟨⟨k, b1, b3, by rw [hfirst]⟩, by rw [hfirst]; exact (hx4 k b1 b3).2, ⟨k, b1, b3, hfirst⟩, ?_⟩
      rw [hLq]; exact e1.symm
    have hkeys : ps.map (fun q => L q) = keys.map fun κ => destLanes m place κ := by
      have hk : ∀ (ps : List Packet) (keys : List (Nat × Nat)), (∀ κ ∈ keys, ∃ k < 256, m.getLsbD k ∧ destKey (x k).loc = κ) →
          ps.map (fun p => (p.op, p.writes)) = (keys.map fun c => redContent fn place v (destLanes m place c)) →
          ps.map (fun q => L q) = keys.map fun κ => destLanes m place κ := by
        intro ps
        induction ps with
        | nil => intro keys _ h; cases keys with
          | nil => rfl
          | cons _ _ => simp at h
        | cons q ps ih =>
          intro keys hks h
          cases keys with
          | nil => simp at h
          | cons κ keys =>
            rw [List.map_cons, List.map_cons] at h
            injection h with h1 h2
            rw [List.map_cons, List.map_cons, ih keys (fun κ' hκ' => hks κ' (List.mem_cons_of_mem _ hκ')) h2]
            suffices hq : L q = destLanes m place κ by rw [hq]
            injection h1 with e1 e2
            have hne := destLanes_ne (hks κ (List.mem_cons_self ..))
            obtain ⟨k, l, hkl⟩ := List.exists_cons_of_ne_nil hne
            have hkm : k ∈ maskLanes (destLanes m place κ) := by
              have : maskLanes (destLanes m place κ) = k :: l := hkl
              rw [this]; exact List.mem_cons_self ..
            obtain ⟨b1, b2⟩ := mem_maskLanes.1 hkm
            have b4 : destKey (place k) = κ := by
              rw [destLanes, getLsbD_ofBits _ b1] at b2
              simp at b2; exact b2.2
            have hkl' : maskLanes (destLanes m place κ) = k :: l := hkl
            have hfirst : q.first = place k := Packet.first_reduce e1 hkl'
            simp only [L]
            rw [hfirst, b4]
      exact hk ps keys (fun κ hκ => (k2 κ).1 hκ) p2
    let z : State := { w with packets := [] }
    let V := (keys.map fun c => destLanes m place c).foldl (fun a m => (a.swapLanes (redOp fn).2 place (redFn fn v) m).1) s
    have hzs : z = z.memOf s := by
      have e := congrArg (fun y : State => (y.grans, y.hbm, y.sp, y.vrf, y.acc, y.host)) hsame
      simp only [State.restOf, Prod.mk.injEq] at e
      simp only [z, State.memOf, ← e]
    have hms : ∀ mm ∈ keys.map (fun c => destLanes m place c), ∀ k ∈ maskLanes mm, (place k).tt ≠ 4 := by
      intro mm hmm
      obtain ⟨κ, -, rfl⟩ := List.mem_map.1 hmm
      exact hsub κ
    have hflush : w.flush w.own = z.memOf V := by
      unfold State.flush
      have hown : w.packets.filter w.own = ps := by
        rw [p1, List.filter_eq_self]
        intro q hq
        have e := (p3 q hq).1
        simp [State.own, e, State.agent, State.agentOf, hp.cur, hcur]
      rw [hown]
      have h0 := State.flush_reductions fn place v L ps w p1 (by
        intro q hq
        obtain ⟨a1, -⟩ := p3 q hq
        obtain ⟨-, b2, ⟨k, c1, c2, c3⟩, b4⟩ := hps q hq
        refine ⟨b4, hsub _, ?_, by omega, ?_⟩
        · rw [a1, hag, hwcore]
          have : s.agent.core = s.cur.core := rfl
          rw [this, charge_core_l1, ha.l1]
        · rw [a1, hag, c3]
          have e3 : w.delivers s.agent (x k).loc = p.delivers s.agent (x k).loc :=
            State.delivers_congr (by rw [k3.same]) (by rw [k3.same]) (by rw [k3.same]) (fun i => by rw [k3.same]; rfl) (fun i => by rw [k3.same]; rfl) _ _
          rw [e3, hp.delivers, charge_delivers]
          exact (hl k c1 c2).2.2) p4 (by rw [k3.same]; exact g2) (by rw [k3.same]; exact g3) (by rw [k3.same, hmem]; simp [ha.exports])
      have hfm : ∀ (ps : List Packet) (y : State), ps.foldl (fun a p => (a.swapLanes (redOp fn).2 place (redFn fn v) (L p)).1) y =
          (ps.map fun q => L q).foldl (fun a m => (a.swapLanes (redOp fn).2 place (redFn fn v) m).1) y := by
        intro ps
        induction ps with
        | nil => intro y; rfl
        | cons q ps ih => intro y; rw [List.foldl_cons, List.map_cons, List.foldl_cons, ih]
      rw [h0, hfm, hkeys]
      have := swaps_memOf z (redOp fn).2 place (redFn fn v) (keys.map fun c => destLanes m place c) s hms
      rw [← hzs] at this
      exact this
    let W := z.memOf V
    have hW : SwapsUnder s c V W := by
      refine ⟨?_, hwcore, hpart, hlaunch, rfl, rfl⟩
      have := congrArg (fun y : State => ({ y with packets := [] } : State).memOf V) hwrest
      exact this
    have hV : ∀ (ms : List Mask) (y : State), (∀ m ∈ ms, ∀ k ∈ maskLanes m, (place k).tt ≠ 4) →
        ms.foldl (fun a m => (a.swapLanes (redOp fn).2 place (redFn fn v) m).1) y = y.memOf (ms.foldl (fun a m => (a.swapLanes (redOp fn).2 place (redFn fn v) m).1) y) :=
      fun ms y hms => swaps_memOf y (redOp fn).2 place (redFn fn v) ms y hms
    obtain ⟨t, u, t1, t2, t3⟩ := issue_swap h ha c hc hnr hW (hV _ s hms) [] (by simp) body (by rw [hbody, hflush]; simp only [if_true]; rw [hK (z.memOf V) hpeers])
    exact ⟨t, t1, (fun hf => nomatch hf), fun _ => ⟨u, keys, k1, k2, t2, t3⟩⟩

end Sys2Proof.Machine
end

