-- ==== Sys2Proof/Tests/Slice0.lean ====
section
/-!
SUPPORT. Tests: a word of every row of the opcode table, written out from the table's encoding, with the instruction it decodes to; terms that are not well
formed; and for each statement with hypotheses a small state that meets them.
-/

open Sys2Proof Sys2Proof.Machine

namespace Sys2Proof.Tests

set_option Elab.async false

/-! ## Decoding -/

theorem test_decode_short_forms : ∀ p ∈ [((16, 0x0000B4C2, .movShort true 19 22) : Nat × Nat × Instr),
    (16, 0x0000B4C6, .iaddShort true 19 22),
    (16, 0x0000B4CA, .isubShort true 19 22),
    (16, 0x0000B4CE, .imulShort true 19 22),
    (16, 0x0000B4D2, .andShort true 19 22),
    (16, 0x0000B4D6, .orShort true 19 22),
    (16, 0x0000B4DA, .xorShort true 19 22),
    (16, 0x0000B4DE, .shlShort true 19 22),
    (16, 0x0000B4E2, .shrShort true 19 22),
    (16, 0x0000B4E6, .faddShort true 19 22),
    (16, 0x0000B4EA, .fsubShort true 19 22),
    (16, 0x0000B4EE, .fmulShort true 19 22),
    (16, 0x0000B4F2, .fmaxShort true 19 22),
    (16, 0x0000B4F6, .fminShort true 19 22),
    (16, 0x0000B4FA, .fnegShort true 19 22),
    (16, 0x0000B4FE, .ldsShort true 19 22)],
    decodeTableWord p.1 p.2.1 = some p.2.2 := by decide +kernel
theorem test_decode_major_00 : ∀ p ∈ [((32, 0x6C9D8303, .iadd true 3 54 9 27) : Nat × Nat × Instr),
    (32, 0x6C9D8B03, .isub true 3 54 9 27),
    (32, 0x6C9D9303, .imul true 3 54 9 27),
    (32, 0x6C9D9B03, .imulhI32 true 3 54 9 27),
    (32, 0x6C9DA303, .imulhN32 true 3 54 9 27),
    (32, 0x6C9DAB03, .and true 3 54 9 27),
    (32, 0x6C9DB303, .or true 3 54 9 27),
    (32, 0x6C9DBB03, .xor true 3 54 9 27)],
    decodeTableWord p.1 p.2.1 = some p.2.2 := by decide +kernel
theorem test_decode_major_01 : ∀ p ∈ [((32, 0x6C9D8307, .andn true 3 54 9 27) : Nat × Nat × Instr),
    (32, 0x6C9D8B07, .shl true 3 54 9 27),
    (32, 0x6C9D9307, .shr true 3 54 9 27),
    (32, 0x6C9D9B07, .sra true 3 54 9 27),
    (32, 0x6C9DA307, .iminI32 true 3 54 9 27),
    (32, 0x6C9DAB07, .iminN32 true 3 54 9 27),
    (32, 0x6C9DB307, .imaxI32 true 3 54 9 27),
    (32, 0x6C9DBB07, .imaxN32 true 3 54 9 27)],
    decodeTableWord p.1 p.2.1 = some p.2.2 := by decide +kernel
theorem test_decode_major_02 : ∀ p ∈ [((32, 0x6C9D830B, .idivI32 true 3 54 9 27) : Nat × Nat × Instr),
    (32, 0x6C9D8B0B, .idivN32 true 3 54 9 27),
    (32, 0x6C9D930B, .iremI32 true 3 54 9 27),
    (32, 0x6C9D9B0B, .iremN32 true 3 54 9 27),
    (32, 0x6C9DA30B, .imad true 3 54 9 27),
    (32, 0x6C9DAB0B, .sel true 3 54 9 27),
    (32, 0x6C9DB30B, .mov true 3 54 9 27)],
    decodeTableWord p.1 p.2.1 = some p.2.2 := by decide +kernel
theorem test_decode_major_03 : ∀ p ∈ [((32, 0x009D830F, .iabs true 3 54 9) : Nat × Nat × Instr),
    (32, 0x049D830F, .clz true 3 54 9),
    (32, 0x089D830F, .popc true 3 54 9)],
    decodeTableWord p.1 p.2.1 = some p.2.2 := by decide +kernel
theorem test_decode_major_04 : ∀ p ∈ [((32, 0x249D8313, .iaddi true 3 54 585) : Nat × Nat × Instr),
    (32, 0x249D8B13, .andi true 3 54 585),
    (32, 0x249D9313, .ori true 3 54 585),
    (32, 0x249D9B13, .xori true 3 54 585),
    (32, 0x009DA313, .shli true 3 54 9),
    (32, 0x009DAB13, .shri true 3 54 9),
    (32, 0x009DB313, .srai true 3 54 9),
    (32, 0x249DBB13, .lii true 3 54 585)],
    decodeTableWord p.1 p.2.1 = some p.2.2 := by decide +kernel
theorem test_decode_major_05 : ∀ p ∈ [((32, 0x249D8317, .liu true 3 54 585) : Nat × Nat × Instr)],
    decodeTableWord p.1 p.2.1 = some p.2.2 := by decide +kernel
theorem test_decode_major_08 : ∀ p ∈ [((32, 0x6C9D8323, .fadd true 3 54 9 27) : Nat × Nat × Instr),
    (32, 0x6C9D8B23, .fsub true 3 54 9 27),
    (32, 0x6C9D9323, .fmul true 3 54 9 27),
    (32, 0x6C9D9B23, .ffma true 3 54 9 27),
    (32, 0x6C9DA323, .fmin true 3 54 9 27),
    (32, 0x6C9DAB23, .fmax true 3 54 9 27),
    (32, 0x6C9DB323, .fneg true 3 54 9 27)],
    decodeTableWord p.1 p.2.1 = some p.2.2 := by decide +kernel
theorem test_decode_major_09 : ∀ p ∈ [((32, 0x009D8327, .fabs true 3 54 9) : Nat × Nat × Instr),
    (32, 0x049D8327, .frcp true 3 54 9),
    (32, 0x089D8327, .frsq true 3 54 9),
    (32, 0x0C9D8327, .fexp2 true 3 54 9),
    (32, 0x109D8327, .flog2 true 3 54 9),
    (32, 0x149D8327, .fsqrt true 3 54 9)],
    decodeTableWord p.1 p.2.1 = some p.2.2 := by decide +kernel
theorem test_decode_major_0A : ∀ p ∈ [((32, 0x6C9D832B, .fdiv true 3 54 9 27) : Nat × Nat × Instr)],
    decodeTableWord p.1 p.2.1 = some p.2.2 := by decide +kernel
theorem test_decode_major_10 : ∀ p ∈ [((32, 0x6C9D8343, .hadd2 true 3 54 9 27) : Nat × Nat × Instr),
    (32, 0x6C9D8B43, .hmul2 true 3 54 9 27),
    (32, 0x6C9D9343, .hfma2 true 3 54 9 27),
    (32, 0x6C9D9B43, .hmax2 true 3 54 9 27),
    (32, 0x6C9DA343, .hmin2 true 3 54 9 27),
    (32, 0x6C9DAB43, .hdot2 true 3 54 9 27)],
    decodeTableWord p.1 p.2.1 = some p.2.2 := by decide +kernel
theorem test_decode_major_12 : ∀ p ∈ [((32, 0x0DB2634B, .cvt true 3 4 9 27 3) : Nat × Nat × Instr)],
    decodeTableWord p.1 p.2.1 = some p.2.2 := by decide +kernel
theorem test_decode_major_13 : ∀ p ∈ [((32, 0x6C9D834F, .pack true 3 54 9 27) : Nat × Nat × Instr),
    (32, 0x009D8B4F, .unpkLo true 3 54 9),
    (32, 0x049D8B4F, .unpkHi true 3 54 9),
    (32, 0x6C9D934F, .cvt8Lo true 3 54 9 27),
    (32, 0x6C9D9B4F, .cvt8Hi true 3 54 9 27),
    (32, 0x0C9DA34F, .unpk8 true 3 54 9 3)],
    decodeTableWord p.1 p.2.1 = some p.2.2 := by decide +kernel
theorem test_decode_major_14 : ∀ p ∈ [((32, 0x6C918353, .icmpEq true 3 6 9 27) : Nat × Nat × Instr),
    (32, 0x6C918B53, .icmpNe true 3 6 9 27),
    (32, 0x6C919353, .icmpLtI32 true 3 6 9 27),
    (32, 0x6C919B53, .icmpLeI32 true 3 6 9 27),
    (32, 0x6C91A353, .icmpLtN32 true 3 6 9 27),
    (32, 0x6C91AB53, .icmpLeN32 true 3 6 9 27),
    (32, 0x0C11B353, .pand true 3 6 1 3),
    (32, 0x0C11BB53, .por true 3 6 1 3)],
    decodeTableWord p.1 p.2.1 = some p.2.2 := by decide +kernel
theorem test_decode_major_15 : ∀ p ∈ [((32, 0x6C918357, .fcmpEq true 3 6 9 27) : Nat × Nat × Instr),
    (32, 0x6C918B57, .fcmpNe true 3 6 9 27),
    (32, 0x6C919357, .fcmpLt true 3 6 9 27),
    (32, 0x6C919B57, .fcmpLe true 3 6 9 27),
    (32, 0x6C91A357, .fcmpUn true 3 6 9 27),
    (32, 0x6C91AB57, .fcmpOrd true 3 6 9 27),
    (32, 0x0C11B357, .pxor true 3 6 1 3),
    (32, 0x0011BB57, .pnot true 3 6 1),
    (32, 0x0411BB57, .pmov true 3 6 1),
    (32, 0x081DBB57, .pcount true 3 54 1),
    (32, 0x0C01BB57, .emrd true 3 6),
    (32, 0x10303857, .emwr true 3),
    (32, 0x14303857, .emand true 3)],
    decodeTableWord p.1 p.2.1 = some p.2.2 := by decide +kernel
theorem test_decode_major_16 : ∀ p ∈ [((32, 0x6C9D835B, .shfl true 3 54 9 27) : Nat × Nat × Instr),
    (32, 0x6C9D8B5B, .bcast true 3 54 9 27),
    (32, 0x6C9D935B, .rot true 3 54 9 27),
    (32, 0x009D9B5B, .vtos true 3 54 9),
    (32, 0x009DA35B, .stov true 3 54 9),
    (32, 0x000DAB5B, .lane true 3 54)],
    decodeTableWord p.1 p.2.1 = some p.2.2 := by decide +kernel
theorem test_decode_major_17 : ∀ p ∈ [((32, 0x249D835F, .vreduce true 3 54 9 9) : Nat × Nat × Instr),
    (32, 0x249D8B5F, .vscan true 3 54 9 9)],
    decodeTableWord p.1 p.2.1 = some p.2.2 := by decide +kernel
theorem test_decode_major_18 : ∀ p ∈ [((32, 0x2764C063, .sadd true 19 54 9) : Nat × Nat × Instr),
    (32, 0x2764C863, .ssub true 19 54 9),
    (32, 0x2764D063, .smul true 19 54 9),
    (32, 0x2764D863, .smulh true 19 54 9),
    (32, 0x2764E063, .sand true 19 54 9),
    (32, 0x2764E863, .sor true 19 54 9),
    (32, 0x2764F063, .sxor true 19 54 9),
    (32, 0x2764F863, .scmpLtu true 19 54 9)],
    decodeTableWord p.1 p.2.1 = some p.2.2 := by decide +kernel
theorem test_decode_major_19 : ∀ p ∈ [((32, 0x2764C067, .sshl true 19 54 9) : Nat × Nat × Instr),
    (32, 0x2764C867, .sshr true 19 54 9),
    (32, 0x2764D067, .ssra true 19 54 9),
    (32, 0x2764D867, .smin true 19 54 9),
    (32, 0x2764E067, .smax true 19 54 9),
    (32, 0x2764E867, .sdiv true 19 54 9),
    (32, 0x2764F067, .scmpEq true 19 54 9),
    (32, 0x2764F867, .scmpLt true 19 54 9)],
    decodeTableWord p.1 p.2.1 = some p.2.2 := by decide +kernel
theorem test_decode_major_1A : ∀ p ∈ [((32, 0x276D936B, .sli true 19 40374) : Nat × Nat × Instr)],
    decodeTableWord p.1 p.2.1 = some p.2.2 := by decide +kernel
theorem test_decode_major_1B : ∀ p ∈ [((32, 0x276D936F, .slui true 19 40374) : Nat × Nat × Instr)],
    decodeTableWord p.1 p.2.1 = some p.2.2 := by decide +kernel
theorem test_decode_major_1C : ∀ p ∈ [((32, 0x00010073, .br true 4) : Nat × Nat × Instr),
    (32, 0x00010B73, .bz true 3 4),
    (32, 0x00011373, .bnz true 3 4),
    (32, 0x00011B73, .bany true 3 4),
    (32, 0x00012373, .ball true 3 4),
    (32, 0x00012B73, .bnone true 3 4),
    (32, 0x00013073, .call true 4)],
    decodeTableWord p.1 p.2.1 = some p.2.2 := by decide +kernel
theorem test_decode_major_1D : ∀ p ∈ [((32, 0x0364C077, .jr true 19 54) : Nat × Nat × Instr),
    (32, 0x00000877, .ret true),
    (32, 0x00001077, .exit true),
    (32, 0x0004D877, .trap true 19),
    (32, 0x00002077, .nop true),
    (32, 0x00002B77, .lpx true 3)],
    decodeTableWord p.1 p.2.1 = some p.2.2 := by decide +kernel
theorem test_decode_major_1E : ∀ p ∈ [((32, 0x0B64C07B, .lpb true 19 22 5) : Nat × Nat × Instr)],
    decodeTableWord p.1 p.2.1 = some p.2.2 := by decide +kernel
theorem test_decode_major_1F : ∀ p ∈ [((32, 0xDB64C07F, .yield true 19 3510) : Nat × Nat × Instr)],
    decodeTableWord p.1 p.2.1 = some p.2.2 := by decide +kernel
theorem test_decode_major_20 : ∀ p ∈ [((32, 0x6C9D8383, .ldg8 true 3 54 9 27) : Nat × Nat × Instr),
    (32, 0x6C9D8B83, .ldgI8 true 3 54 9 27),
    (32, 0x6C9D9383, .ldg16 true 3 54 9 27),
    (32, 0x6C9D9B83, .ldgI16 true 3 54 9 27),
    (32, 0x6C9DA383, .ldg32 true 3 54 9 27),
    (32, 0x6C9DAB83, .ldg64 true 3 54 9 27),
    (32, 0x6C9DB383, .ldg128 true 3 54 9 27)],
    decodeTableWord p.1 p.2.1 = some p.2.2 := by decide +kernel
theorem test_decode_major_21 : ∀ p ∈ [((32, 0x6C9D8387, .stg8 true 3 54 9 27) : Nat × Nat × Instr),
    (32, 0x6C9D9387, .stg16 true 3 54 9 27),
    (32, 0x6C9DA387, .stg32 true 3 54 9 27),
    (32, 0x6C9DAB87, .stg64 true 3 54 9 27),
    (32, 0x6C9DB387, .stg128 true 3 54 9 27)],
    decodeTableWord p.1 p.2.1 = some p.2.2 := by decide +kernel
theorem test_decode_major_22 : ∀ p ∈ [((32, 0x6C9D838B, .lds8 true 3 54 9 27) : Nat × Nat × Instr),
    (32, 0x6C9D8B8B, .ldsI8 true 3 54 9 27),
    (32, 0x6C9D938B, .lds16 true 3 54 9 27),
    (32, 0x6C9D9B8B, .ldsI16 true 3 54 9 27),
    (32, 0x6C9DA38B, .lds32 true 3 54 9 27),
    (32, 0x6C9DAB8B, .lds64 true 3 54 9 27),
    (32, 0x6C9DB38B, .lds128 true 3 54 9 27)],
    decodeTableWord p.1 p.2.1 = some p.2.2 := by decide +kernel
theorem test_decode_major_23 : ∀ p ∈ [((32, 0x6C9D838F, .sts8 true 3 54 9 27) : Nat × Nat × Instr),
    (32, 0x6C9D938F, .sts16 true 3 54 9 27),
    (32, 0x6C9DA38F, .sts32 true 3 54 9 27),
    (32, 0x6C9DAB8F, .sts64 true 3 54 9 27),
    (32, 0x6C9DB38F, .sts128 true 3 54 9 27)],
    decodeTableWord p.1 p.2.1 = some p.2.2 := by decide +kernel
theorem test_decode_major_24 : ∀ p ∈ [((32, 0x2764C093, .sldg8 true 19 54 9) : Nat × Nat × Instr),
    (32, 0x2764C893, .sldgI8 true 19 54 9),
    (32, 0x2764D093, .sldg16 true 19 54 9),
    (32, 0x2764D893, .sldgI16 true 19 54 9),
    (32, 0x2764E093, .sldg32 true 19 54 9),
    (32, 0x2764E893, .sldg64 true 19 54 9)],
    decodeTableWord p.1 p.2.1 = some p.2.2 := by decide +kernel
theorem test_decode_major_25 : ∀ p ∈ [((32, 0x2764C097, .sstg8 true 19 54 9) : Nat × Nat × Instr),
    (32, 0x2764D097, .sstg16 true 19 54 9),
    (32, 0x2764E097, .sstg32 true 19 54 9),
    (32, 0x2764E897, .sstg64 true 19 54 9)],
    decodeTableWord p.1 p.2.1 = some p.2.2 := by decide +kernel
theorem test_decode_major_26 : ∀ p ∈ [((32, 0x6C9D849B, .ldg32Ord true 4 54 9 11 1) : Nat × Nat × Instr),
    (32, 0x6C9D8C9B, .ldg64Ord true 4 54 9 11 1),
    (32, 0x6C9D949B, .stg32Ord true 4 54 9 11 1),
    (32, 0x6C9D9C9B, .stg64Ord true 4 54 9 11 1)],
    decodeTableWord p.1 p.2.1 = some p.2.2 := by decide +kernel
theorem test_decode_major_27 : ∀ p ∈ [((32, 0x2760039F, .pref true 3 54 9) : Nat × Nat × Instr),
    (32, 0x27600B9F, .cinv true 3 54 9),
    (32, 0x0000139F, .cinvAll true 3)],
    decodeTableWord p.1 p.2.1 = some p.2.2 := by decide +kernel
theorem test_decode_major_28 : ∀ p ∈ [((32, 0x6C9D84A3, .atomAdd32 true 4 54 9 11 1) : Nat × Nat × Instr),
    (32, 0x6C9D8CA3, .atomMinI32 true 4 54 9 11 1),
    (32, 0x6C9D94A3, .atomMaxI32 true 4 54 9 11 1),
    (32, 0x6C9D9CA3, .atomAnd32 true 4 54 9 11 1),
    (32, 0x6C9DA4A3, .atomOr32 true 4 54 9 11 1),
    (32, 0x6C9DACA3, .atomXor32 true 4 54 9 11 1),
    (32, 0x6C9DB4A3, .atomExch32 true 4 54 9 11 1),
    (32, 0x6C9BBCA3, .atomCas32 true 4 46 9 11 1)],
    decodeTableWord p.1 p.2.1 = some p.2.2 := by decide +kernel
theorem test_decode_major_29 : ∀ p ∈ [((32, 0x6C9D84A7, .atomAdd64 true 4 54 9 11 1) : Nat × Nat × Instr),
    (32, 0x6C9D8CA7, .atomMinN32 true 4 54 9 11 1),
    (32, 0x6C9D94A7, .atomMaxN32 true 4 54 9 11 1),
    (32, 0x6C9D9CA7, .atomFaddF32 true 4 54 9 11 1),
    (32, 0x6C9DB4A7, .atomExch64 true 4 54 9 11 1),
    (32, 0x6C9B3CA7, .atomCas64 true 4 44 9 11 1)],
    decodeTableWord p.1 p.2.1 = some p.2.2 := by decide +kernel
theorem test_decode_major_2A : ∀ p ∈ [((32, 0x6C9D84AB, .redAdd32 true 4 54 9 11 1) : Nat × Nat × Instr),
    (32, 0x6C9D8CAB, .redMinI32 true 4 54 9 11 1),
    (32, 0x6C9D94AB, .redMaxI32 true 4 54 9 11 1),
    (32, 0x6C9D9CAB, .redAnd32 true 4 54 9 11 1),
    (32, 0x6C9DA4AB, .redOr32 true 4 54 9 11 1),
    (32, 0x6C9DACAB, .redXor32 true 4 54 9 11 1),
    (32, 0x6C9DB4AB, .redFaddF32 true 4 54 9 11 1),
    (32, 0x6C9DBCAB, .redAdd64 true 4 54 9 11 1)],
    decodeTableWord p.1 p.2.1 = some p.2.2 := by decide +kernel
theorem test_decode_major_2B : ∀ p ∈ [((32, 0xC09D84AF, .satomAdd true 4 54 9 3) : Nat × Nat × Instr),
    (32, 0xC09D8CAF, .satomExch true 4 54 9 3),
    (32, 0xC09B94AF, .satomCas true 4 46 9 3),
    (32, 0xC09D9CAF, .satomMaxN64 true 4 54 9 3),
    (32, 0x800034AF, .fence true 4 2),
    (32, 0x000030AF, .fenceAsync true)],
    decodeTableWord p.1 p.2.1 = some p.2.2 := by decide +kernel
theorem test_decode_major_2C : ∀ p ∈ [((32, 0x6C9D83B3, .cpt true 3 54 9 27) : Nat × Nat × Instr),
    (32, 0x6C9D8BB3, .cpl true 3 54 9 27),
    (32, 0x6C9D93B3, .cpc true 3 54 9 27)],
    decodeTableWord p.1 p.2.1 = some p.2.2 := by decide +kernel
theorem test_decode_major_2D : ∀ p ∈ [((32, 0x6C9D83B7, .cpm true 3 54 9 27) : Nat × Nat × Instr),
    (32, 0x6C9D8BB7, .cpmCon true 3 54 9 27)],
    decodeTableWord p.1 p.2.1 = some p.2.2 := by decide +kernel
theorem test_decode_major_2E : ∀ p ∈ [((32, 0x6C9D83BB, .cprAdd true 3 54 9 27) : Nat × Nat × Instr),
    (32, 0x6C9D8BBB, .cprMin true 3 54 9 27),
    (32, 0x6C9D93BB, .cprMax true 3 54 9 27)],
    decodeTableWord p.1 p.2.1 = some p.2.2 := by decide +kernel
theorem test_decode_major_30 : ∀ p ∈ [((32, 0x0004C0C3, .bclose true 19) : Nat × Nat × Instr),
    (32, 0x0364C8C3, .bwait true 19 54),
    (32, 0x0364D0C3, .btest true 19 54)],
    decodeTableWord p.1 p.2.1 = some p.2.2 := by decide +kernel
theorem test_decode_major_31 : ∀ p ∈ [((32, 0x6C9183C7, .barInit true 3 6 9 27) : Nat × Nat × Instr),
    (32, 0x6C9D8BC7, .barArrive true 3 54 9 27),
    (32, 0x6C9D93C7, .barExpect true 3 54 9 27),
    (32, 0x6C9D9BC7, .barWait true 3 54 9 27),
    (32, 0x6C91A3C7, .barTwait true 3 6 9 27),
    (32, 0x009DABC7, .barInval true 3 54 9)],
    decodeTableWord p.1 p.2.1 = some p.2.2 := by decide +kernel
theorem test_decode_major_32 : ∀ p ∈ [((32, 0x009183CB, .qbind true 3 6 9) : Nat × Nat × Instr),
    (32, 0x6C1D8BCB, .qpush true 3 54 1 27),
    (32, 0x6C1D93CB, .qpop true 3 54 1 27),
    (32, 0x6C1D9BCB, .qtry true 3 54 1 27)],
    decodeTableWord p.1 p.2.1 = some p.2.2 := by decide +kernel
theorem test_decode_major_33 : ∀ p ∈ [((32, 0x6C9DA3CF, .stb32 true 3 54 9 27) : Nat × Nat × Instr),
    (32, 0x6C9DABCF, .stb64 true 3 54 9 27),
    (32, 0x6C9DB3CF, .stb128 true 3 54 9 27)],
    decodeTableWord p.1 p.2.1 = some p.2.2 := by decide +kernel
theorem test_decode_major_34 : ∀ p ∈ [((32, 0x6C9D83D3, .spawn true 3 54 9 27) : Nat × Nat × Instr)],
    decodeTableWord p.1 p.2.1 = some p.2.2 := by decide +kernel
theorem test_decode_major_35 : ∀ p ∈ [((32, 0x009D83D7, .coll true 3 54 9) : Nat × Nat × Instr),
    (32, 0x6C9D8BD7, .cwait true 3 54 9 27),
    (32, 0x6C9D93D7, .ctest true 3 54 9 27)],
    decodeTableWord p.1 p.2.1 = some p.2.2 := by decide +kernel
theorem test_decode_major_36 : ∀ p ∈ [((32, 0x0000C0DB, .txbegin true 3) : Nat × Nat × Instr),
    (32, 0x0000C8DB, .txend true 3),
    (32, 0x000010DB, .txabort true),
    (32, 0x0004D8DB, .txstat true 19),
    (32, 0x001998DB, .txstatAddr true 19)],
    decodeTableWord p.1 p.2.1 = some p.2.2 := by decide +kernel
theorem test_decode_major_38 : ∀ p ∈ [((32, 0xD93000E3, .mxld true 19 54) : Nat × Nat × Instr),
    (32, 0xD93008E3, .mxfma true 19 54),
    (32, 0x013010E3, .mxzero true 19),
    (32, 0x013018E3, .mxck true 19)],
    decodeTableWord p.1 p.2.1 = some p.2.2 := by decide +kernel
theorem test_decode_major_39 : ∀ p ∈ [((32, 0x0004C0E7, .mxfence true 19) : Nat × Nat × Instr),
    (32, 0x0364C8E7, .mxwait true 19 54),
    (32, 0x0364D0E7, .mxtest true 19 54),
    (32, 0x2764D8E7, .mxsplit true 19 54 9),
    (32, 0xD93020E7, .mxsave true 19 54),
    (32, 0xD93028E7, .mxrest true 19 54)],
    decodeTableWord p.1 p.2.1 = some p.2.2 := by decide +kernel
theorem test_decode_major_3A : ∀ p ∈ [((32, 0x979D83EB, .vraccRow true 3 54 9 3 37) : Nat × Nat × Instr),
    (32, 0x979D8BEB, .vraccCol true 3 54 9 3 37)],
    decodeTableWord p.1 p.2.1 = some p.2.2 := by decide +kernel
theorem test_decode_major_3B : ∀ p ∈ [((32, 0x979D83EF, .vwaccRow true 3 54 9 3 37) : Nat × Nat × Instr),
    (32, 0x979D8BEF, .vwaccCol true 3 54 9 3 37)],
    decodeTableWord p.1 p.2.1 = some p.2.2 := by decide +kernel
theorem test_decode_major_3C : ∀ p ∈ [((32, 0x009D83F3, .qz true 3 54 9) : Nat × Nat × Instr)],
    decodeTableWord p.1 p.2.1 = some p.2.2 := by decide +kernel
theorem test_decode_major_3D : ∀ p ∈ [((32, 0x8134C0F7, .srd true 19 2067) : Nat × Nat × Instr),
    (32, 0x8344C8F7, .swr true 19 2100),
    (32, 0x0034D0F7, .clkq true 19 3)],
    decodeTableWord p.1 p.2.1 = some p.2.2 := by decide +kernel
theorem test_decode_major_3E : ∀ p ∈ [((32, 0x000003FB, .eret true 3) : Nat × Nat × Instr),
    (32, 0x000B0BFB, .fltaddr true 3 22),
    (32, 0x009D93FB, .pmap true 3 54 9),
    (32, 0x6C9D9BFB, .tlbinv true 3 54 9 27)],
    decodeTableWord p.1 p.2.1 = some p.2.2 := by decide +kernel
theorem test_decode_major_3F : ∀ p ∈ [((32, 0x0364D3FF, .hint true 222419) : Nat × Nat × Instr)],
    decodeTableWord p.1 p.2.1 = some p.2.2 := by decide +kernel

/-! ## Small states -/

/-- A group of one launch in U mode with a supervisor, on a core whose program's page is mapped; behind it in address space a window page of the core's
scratchpad, a first-touch page, a page that is neither mapped nor first-touch, and a mapped one. -/
def gs : State :=
  ((((((State.reset.withProgram 4 0).updPart 1 fun p => { p with svVec := 0x2000, ftpBase := 0x12000, ftpCount := 1 }).writeNum ⟨0, 0x8008⟩ 8 0xC001).writeNum
    ⟨0, 0xC000⟩ 8 0x11B).writeNum ⟨0, 0xC008⟩ 8 0x90E).writeNum ⟨0, 0xC010⟩ 8 0x10E).writeNum ⟨0, 0xC018⟩ 8 0x10F |>.writeNum ⟨0, 0x12000⟩ 4 2
/-- The same with its context changed; in S mode; as sequencer context n of the block. -/
def gsWith (f : Ctx → Ctx) : State := gs.updCur f
def gsS : State := gsWith fun c => { c with smode := true }
def sqn (n : Nat) : State := gsWith fun c => { c with kind := .seq n }

theorem ready_of {s : State} (h : s.cur.kind ≠ .none ∧ s.cur.recipe = none ∧ s.cur.slotLen = 0 ∧ s.cur.overdue = false ∧ s.cur.deferred = [] ∧
    s.cur.poisonV = [] ∧ s.cur.poisonS = 0) : s.Ready := by
  rcases h with ⟨kind, recipe, word, due, written, vectors, uniforms⟩
  constructor <;> assumption
theorem group_of {s : State} (h : s.cur.kind = .group ∧ s.cur.recipe = none ∧ s.cur.slotLen = 0 ∧ s.cur.overdue = false ∧ s.cur.deferred = [] ∧
    s.cur.poisonV = [] ∧ s.cur.poisonS = 0) : s.GroupReady := ⟨ready_of ⟨by simp [h.1], h.2⟩, h.1⟩
theorem hasV_of {s : State} {l : List Nat} (h : ∀ r ∈ l, r < min s.cur.valloc 64) : s.hasV l := h
theorem alone_of {s : State} (h : s.packets = [] ∧ s.deliveries = [] ∧ s.locks = [] ∧ s.poison = [] ∧ s.peers = [] ∧ s.ports = [] ∧ s.exports = [] ∧
    (s.part s.curTag).tlb = [] ∧ (s.core s.cur.core).l1 = [] ∧ s.cur.txg = false) : s.Alone :=
  by rcases h with ⟨packets, deliveries, locks, poison, peers, ports, exports, tlb, l1, open_⟩; constructor <;> assumption
theorem unwatched_of {s : State} (o : Loc) (h : s.cur.park = none ∧ s.ctxs = []) : s.Unwatched o := ⟨h.1, by rw [h.2]; simp⟩

/-! ## The statements' hypotheses can be met -/

/-- The lane and uniform statements: a group that may go on and names its last registers, in either mode; sequencers. -/
theorem test_meets_lanes : gs.GroupReady ∧ gs.hasV [63, 63, 63] ∧ (sqn 0).Ready ∧ (sqn 1).Ready ∧ gsS.GroupReady :=
  ⟨group_of (by decide +kernel), hasV_of (by decide +kernel), ready_of (by decide +kernel), ready_of (by decide +kernel), group_of (by decide +kernel)⟩
/-- `LaneMovement`: the lowest active lane is the last one. -/
theorem test_meets_lowest_lane : ∃ s : State, s.GroupReady ∧ s.hasV [63] ∧ 255 < 256 ∧ (s.act 0).getLsbD 255 ∧ ∀ j < 255, !(s.act 0).getLsbD j :=
  ⟨gsWith fun c => { c with em := 1#256 <<< 255 }, group_of (by decide +kernel), hasV_of (by decide +kernel), by decide, by decide +kernel, by decide +kernel⟩
/-- `LaneMovement`, `LineOperations`: no lane is active; every lane is. -/
theorem test_meets_no_lane : (∃ s : State, s.GroupReady ∧ s.act 0 = 0) ∧ gs.act 0 ≠ 0 :=
  ⟨⟨gsWith fun c => { c with em := 0 }, group_of (by decide +kernel), by decide +kernel⟩, by decide +kernel⟩
/-- `Branches`: a lane of `em` with its bit of `p0` set; none with its bit of `p1`. -/
theorem test_meets_branches : (∃ k < 256, gs.cur.em.getLsbD k ∧ (gs.rawP 0).getLsbD k) ∧ ∀ k < 256, gs.cur.em.getLsbD k → !(gs.rawP 1).getLsbD k :=
  ⟨⟨255, by decide +kernel⟩, by decide +kernel⟩
/-- `Jumps`: an even target; an odd one with a supervisor. -/
theorem test_meets_jumps : (gs.rawS 63).getLsbD 0 = false ∧
    ∃ s : State, s.GroupReady ∧ s.cur.smode = false ∧ (s.part s.curTag).svVec ≠ 0 ∧ (s.rawS 63).getLsbD 0 = true :=
  ⟨by decide +kernel, gsWith fun c => { c with sregs := [(63, 1)] }, group_of (by decide +kernel), by decide +kernel⟩
/-- `HintsAndLoopExit`: outside a loop; in a loop with no lane's bit of the predicate set, and with one set. -/
theorem test_meets_loop_exit : gs.cur.loop = none ∧ ∃ (s : State) (l : LoopState), s.GroupReady ∧ s.cur.loop = some l ∧
    (∀ k < 256, s.cur.em.getLsbD k → !(s.rawP 1).getLsbD k) ∧ ∃ k < 256, s.cur.em.getLsbD k ∧ (s.rawP 0).getLsbD k :=
  ⟨by decide +kernel, gsWith fun c => { c with loop := some { count := 1, addrs := [0x10004, 0x10006] } }, { count := 1, addrs := [0x10004, 0x10006] },
    group_of (by decide +kernel), by decide +kernel⟩
/-- `ScratchpadLoads`, `ScratchpadStores`: every lane at offset 0; one at the last place of the allocation. -/
theorem test_meets_scratchpad : gs.packets = [] ∧ gs.poison = [] ∧ (∀ k < 256, (gs.act 0).getLsbD k → gs.spFits 16 (gs.laneAddr (gs.rawS 0) 63 k)) ∧
    gs.spFits 16 0xFFF0 ∧ gs.spFits 1 0xFFFF :=
  by unfold State.spFits; decide +kernel
/-- The same group with lane 255 alone, the window page's address in s1. -/
def gsLast : State := gsWith fun c => { c with em := 1#256 <<< 255, sregs := [(1, 0x8000000), (2, 0x1FFFFF)] }
/-- The memory statements: a group that stands alone; its last lane reaches a place as a load, a store, an atomic and a counted store. -/
theorem test_meets_alone : gs.Alone ∧ (sqn 0).Alone ∧ gsLast.GroupReady ∧ gsLast.Alone :=
  ⟨alone_of (by decide +kernel), alone_of (by decide +kernel), group_of (by decide +kernel), alone_of (by decide +kernel)⟩
theorem test_meets_loads : gsLast.Reaches (.load 16) 16 (gsLast.act 0) (gsLast.laneAddr (gsLast.rawS 0) 63) fun _ => { loc := ⟨0, 0⟩, home := 0 } := by
  unfold State.Reaches; decide +kernel
theorem test_meets_stores : gsLast.Reaches (.store 16) 16 (gsLast.act 0) (gsLast.laneAddr (gsLast.rawS 0) 63) fun _ => { loc := ⟨0, 0⟩, home := 0 } := by
  unfold State.Reaches; decide +kernel
theorem test_meets_atomics : ∀ b, gsLast.Reaches (.atomic b) 8 gsLast.cur.em (gsLast.laneAddr (gsLast.rawS 0) 63) fun _ => { loc := ⟨0, 0⟩, home := 0 } := by
  unfold State.Reaches; decide +kernel
theorem test_meets_counted : gsLast.Reaches .counted 16 (gsLast.act 0) (gsLast.laneAddr (gsLast.rawS 1) 63) fun _ => { loc := ⟨1, 0⟩, home := 0 } := by
  unfold State.Reaches; decide +kernel
/-- `UniformAccesses`, `UniformAtomics`: the last byte of a granule; a doubleword. -/
theorem test_meets_uniform_loads : gsLast.Reaches (.load 1) 1 (oneLane gsLast.uniLane) (fun _ => (gsLast.rawS 2 + gsLast.rawS 0).toNat)
    fun _ => { loc := ⟨0, 0x1FFFFF⟩, home := 0x1FFFFF } := by
  unfold State.Reaches; decide +kernel
theorem test_meets_uniform_stores : gsLast.Reaches (.store 8) 8 (oneLane gsLast.uniLane) (fun _ => (gsLast.rawS 0 + gsLast.rawS 0).toNat)
    fun _ => { loc := ⟨0, 0⟩, home := 0 } := by
  unfold State.Reaches; decide +kernel
theorem test_meets_uniform_atomics : ∀ b, gsLast.Reaches (.atomic b) 8 (oneLane gsLast.uniLane) (fun _ => (gsLast.rawS 0).toNat)
    fun _ => { loc := ⟨0, 0⟩, home := 0 } := by
  unfold State.Reaches; decide +kernel
/-- `LineOperations`: the lane's line stands in device memory and is cacheable; no lane's line is line 1. -/
theorem test_meets_lines : gsLast.lineNamed (gsLast.laneAddr (gsLast.rawS 0) 63 255) 255 = some { loc := ⟨0, 0⟩, home := 0 } ∧
    gsLast.delivers gsLast.agent ⟨0, 0⟩ = true ∧ (∀ k < 256, (gsLast.act 0).getLsbD k → k = 255) ∧ 0 / 128 ≠ 1 :=
  by decide +kernel
/-- `LoopBuffer`: a body of one word with a step word. -/
theorem test_meets_loop_buffer : ∃ (s : State) (a : List W64) (w : List W32), s.Ready ∧ s.cur.loop = none ∧ s.readBody 0 1 = .ok (a, w, true) ∧ a.length = 2 ∧
    w.length = 1 :=
  ⟨State.reset.withProgram 12 0x6C9D83030001000000000000, [0x10008, 0x1000C], [0x00010000], ready_of (by decide +kernel), by decide +kernel⟩
theorem traps_back : ∃ (s : State) (l : LoopState), s.GroupReady ∧ s.cur.smode = true ∧ s.cur.epc.getLsbD 0 = false ∧ s.cur.savedLoop = some l ∧
    l.addrs.getD l.slot 0 = s.cur.epc :=
  ⟨gsWith fun c => { c with smode := true, epc := 0x10006, savedLoop := some { slot := 1, addrs := [0x10004, 0x10006] } },
    { slot := 1, addrs := [0x10004, 0x10006] }, group_of (by decide +kernel), by decide +kernel⟩
/-- `TrapsAndReturns`: U mode with a supervisor; S mode with a loop to go back to. -/
theorem test_meets_traps : gs.GroupReady ∧ gs.cur.txg = false ∧ gs.cur.smode = false ∧ (gs.part gs.curTag).svVec = 0x2000 ∧ (0x2000 : W64) ≠ 0 ∧
    gsS.cur.smode = true ∧ gsS.cur.epc.getLsbD 0 = false ∧ gsS.cur.savedLoop = none ∧
    ∃ (s : State) (l : LoopState), s.GroupReady ∧ s.cur.smode = true ∧ s.cur.epc.getLsbD 0 = false ∧ s.cur.savedLoop = some l ∧ l.addrs.getD l.slot 0 = s.cur.epc :=
  ⟨group_of (by decide +kernel), by refine ⟨?_, ?_, ?_, ?_, ?_, ?_, ?_, traps_back⟩ <;> decide +kernel⟩
/-- `Exit`: a context among two of its launch; its block with another context, and without. -/
theorem test_meets_exit : ∃ (s : State) (l : Launch), s.Ready ∧ s.packets = [] ∧ s.peers = [] ∧ s.cur.txg = false ∧ s.cur.openSet = [] ∧ s.cur.batches = [] ∧
    s.cur.mxOpen = [] ∧ s.cur.mxBatches = [] ∧ SMap.find s.launches s.cur.launch = some l ∧ 1 < l.counter ∧ s.ctxs = [] :=
  ⟨gs.updLaunch 1 fun l => { l with counter := 2 }, (gs.updLaunch 1 fun l => { l with counter := 2 }).launch 1, ready_of (by decide +kernel),
    by decide +kernel⟩
/-- `Yield`, `Transactions` (`txbegin`): no transaction, no pipeline; every lane of `em` opens below its threshold. -/
theorem test_meets_yield : gs.cur.loop = none ∧ (gs.launch gs.cur.launch).pipe = none ∧ gs.cur.reissue = false ∧ gs.cur.rcpHeader = 0 ∧ gs.ctxs = [] ∧
    gs.Opens 0 ∧ ∀ k < 256, ((gs.cur.txWord k).extractLsb' 4 4).toNat < gs.cur.txThresh.toNat :=
  by unfold State.Opens; decide +kernel
/-- `Transactions`: a group whose lane has committed; one with nothing open; one that holds no token at `txabort`. -/
theorem test_meets_transactions : (∃ s : State, s.GroupReady ∧ s.cur.txHold = false ∧ (∃ c ∈ s.commits, c.ctx = s.cur.id) ∧
      ∀ c ∈ s.commits, c.ctx = s.cur.id → c.phase = 3) ∧
    gs.cur.txHold = false ∧ gs.commits = [] ∧ gs.packets = [] ∧ gs.peers = [] ∧ (∀ k < 256, !(gs.cur.openLane k)) ∧
    ∃ s : State, s.GroupReady ∧ s.cur.txg = true ∧ s.cur.em.getLsbD 255 = true ∧ s.cur.openLane 255 = true ∧ s.cur.openLane 0 = false ∧ s.cur.txHold = false :=
  ⟨⟨{ gs with commits := [{ id := 9, ctx := 1, lane := 255, log := {}, phase := 3, ok := true }] }, group_of (by decide +kernel), by decide +kernel⟩,
    by refine ⟨?_, ?_, ?_, ?_, ?_, gsWith fun c => { c with txg := true, txrec := [(255, 0x400)] }, group_of ?_, ?_⟩ <;> decide +kernel⟩
/-- `Submissions`, `Leads`: lane 0 leads a group, a sequencer leads itself; 254 submissions are under way. -/
theorem test_meets_submissions : gs.Leads 0 0 ∧ (sqn 0).Leads 0 0 ∧ (gs.tile (gs.cur.core / 16)).qz.length < 64 ∧
    ∃ s : State, s.GroupReady ∧ s.cur.txg = false ∧ s.Leads 0 255 ∧ s.subs = 254 :=
  ⟨.inl (by decide +kernel), .inr (by decide +kernel), by decide +kernel,
    gsWith fun c => { c with em := 1#256 <<< 255, openSet := List.replicate 254 0 }, group_of (by decide +kernel), by decide +kernel,
    .inl (by decide +kernel), by decide +kernel⟩
/-- `Batches`, `MatrixControl`: no open set; an open one; a completed batch named, one still open named, and one beyond the newest. -/
theorem test_meets_batches : gs.cur.openSet = [] ∧ gs.cur.batches = [] ∧ Named 0 0 0 ∧ Named 1 1 1 ∧ Named 2 1 1 ∧ ¬After 1 1 ∧ After 2 1 ∧ After 0 (2 ^ 32 - 1) ∧
    ¬After 1 (2 ^ 31 + 1) ∧ After 2 (2 ^ 31 + 3) ∧
    (∃ s : State, s.Ready ∧ s.cur.openSet ≠ [] ∧ s.cur.batchN = 1 ∧ ∃ b ∈ s.cur.batches, ¬After b.num 1) ∧
    (∃ s : State, s.Ready ∧ s.cur.kind = .seq 0 ∧ s.cur.mxOpen ≠ [] ∧ s.cur.mxBatchN = 1 ∧ ∃ b ∈ s.cur.mxBatches, b.ops ≠ [] ∧ ¬After b.num 1) ∧
    (sqn 1).cur.mxOpen = [] ∧ (sqn 1).cur.mxBatches = [] := by
  unfold Named After
  refine ⟨?_, ?_, ?_, ?_, ?_, ?_, ?_, ?_, ?_, ?_, ⟨gsWith fun c => { c with openSet := [5], batchN := 1, batches := [⟨1, [4]⟩] }, ready_of ?_, ?_⟩,
    ⟨(sqn 0).updCur fun c => { c with mxOpen := [5], mxBatchN := 1, mxBatches := [{ num := 1, ops := [4] }] }, ready_of ?_, ?_⟩, ?_⟩ <;> decide +kernel
/-- `SystemRegisterReads`, `SystemRegisterWrites`: either mode; a privileged number in U mode with a supervisor. -/
theorem test_meets_system_registers : gs.cur.smode = false ∧ gs.cur.txg = false ∧ gs.myPart.svVec ≠ 0 ∧ 0x800 ≤ (0x800#12).toNat ∧ gsS.cur.smode = true :=
  by decide +kernel
/-- `Supervisor`: a mapped page, one that is not first-touch, a first-touch page with an empty pool and one with a frame. -/
theorem test_meets_supervisor : gsS.hasV [63] ∧ gsS.Leads 0 0 ∧
    (gsS.walk gsS.myPart 0x8030000 = .leaf false 0x10F 0xC018 ∧ leafMalformed false 0x10F = false ∧ (0x10F).testBit 0 = true ∧ targetMalformed false 0x10F = false) ∧
    (gsS.walk gsS.myPart 0x8020000 = .leaf false 0x10E 0xC010 ∧ leafMalformed false 0x10E = false ∧ (0x10E).testBit 0 = false ∧ (0x10E).testBit 11 = false) ∧
    (gsS.walk gsS.myPart 0x8010000 = .leaf false 0x90E 0xC008 ∧ leafMalformed false 0x90E = false ∧ (0x90E).testBit 0 = false ∧ (0x90E).testBit 11 = true) ∧
    ((gsS.updPart 1 fun p => { p with ftpCount := 0 }).walk (gsS.updPart 1 fun p => { p with ftpCount := 0 }).myPart 0x8010000 = .leaf false 0x90E 0xC008 ∧
      (gsS.updPart 1 fun p => { p with ftpCount := 0 }).myPart.ftpCount = 0) ∧
    gsS.myPart.ftpCount ≠ 0 ∧ SMap.find gsS.parts gsS.curTag = some gsS.myPart ∧ gsS.poison = [] ∧ gsS.locks = [] ∧
    gsS.partNum gsS.myPart (gsS.myPart.ftpBase.toNat + 4 * (gsS.myPart.ftpCount.toNat - 1)) 4 = some 2 ∧ gsS.myPart.place (2 * 65536) = some ⟨0, 0x20000⟩ ∧
    gsS.myPart.place 0xC008 = some ⟨0, 0xC008⟩ :=
  ⟨hasV_of (by decide +kernel), .inl (by decide +kernel), by decide +kernel⟩
/-- `MatrixSubmissions`: a sequencer with fewer than 64 operations; a group with a supervisor; the last register pair. -/
theorem test_meets_matrix : (sqn 0).cur.kind = .seq 0 ∧ (sqn 0).cur.mxOpen = [] ∧ (sqn 0).cur.mxBatches = [] ∧ (62#6).toNat + 2 ≤ 64 ∧
    (63#6).toNat + 1 ≤ 64 :=
  by decide +kernel
/-- `MatrixControl`: a split, a join and neither. -/
theorem test_meets_split : (∃ s : State, s.Ready ∧ s.cur.kind = .seq 0 ∧ s.myCore.engine.split = false ∧ s.rawS 1 ≠ 0 ∧ (s.rawS 1).getLsbD 0 = false ∧
      ∀ o ∈ s.mxops, o.ctx ≠ s.cur.id) ∧
    (∃ s : State, s.Ready ∧ s.cur.kind = .seq 0 ∧ s.myCore.engine.split = true ∧ s.rawS 1 = 0 ∧ ∀ c ∈ s.ctxs, c.kind = .seq 1 → c.block ≠ s.cur.block) ∧
    ((sqn 0).myCore.engine.split = true ↔ (sqn 0).rawS 1 ≠ 0) ∧ (sqn 1).cur.kind = .seq 1 :=
  ⟨⟨(sqn 0).updCur fun c => { c with sregs := [(1, 0x10008)] }, ready_of (by decide +kernel), by decide +kernel⟩,
    ⟨(sqn 0).updCore 0 fun k => { k with engine := { k.engine with split := true } }, ready_of (by decide +kernel), by decide +kernel⟩, by decide +kernel⟩
/-- `AccumulatorSlices`: the group's block holds the engine of a launch with a sequencer; no tile and no element has an error. -/
theorem test_meets_accumulators : ∃ s : State, s.GroupReady ∧ s.hasV [63] ∧ s.HoldsEngine ∧ s.myCore.engine.poison.getLsbD 3 = false ∧ s.poison = [] :=
  ⟨gs.updLaunch 1 fun l => { l with seq := 0x10000 }, group_of (by decide +kernel), hasV_of (by decide +kernel), ⟨by decide +kernel, by decide +kernel⟩,
    by decide +kernel⟩

/-- A group whose s1 names offset 0 of its own allocation, s2 the number p; the eight bytes there. -/
def gsObj (h p : Nat) : State := (gsWith fun c => { c with sregs := [(1, 0x8000000000000000), (2, BitVec.ofNat 64 p)] }).writeNum ⟨1, 0⟩ 8 h
theorem names_obj (h p al n : Nat) (acc : Acc) (hs : (gsObj h p).rawS 1 = 0x8000000000000000) (hb : (gsObj h p).myBlock.spsize = 0x10000)
    (hc : (gsObj h p).cur.core * 2 ^ 21 + (gsObj h p).myBlock.spbase = 0) (hn : n ≤ 0x10000) : (gsObj h p).NamesSp acc al n 0 ((gsObj h p).rawS 1) ⟨1, 0⟩ := by
  refine .inl ⟨by rw [hs]; decide, by rw [hs]; simp, by rw [hs, hb]; simpa using hn, ?_⟩
  rw [hs, hc]; rfl
/-- `Barriers`: an object in the group's allocation nobody waits at, not valid; valid with the last open phase, the first and the last beyond them, and the
latest late one. -/
theorem test_meets_barriers : (∀ h, h = 0 ∨ h = 2 ^ 63 → ∀ p, p = 3 ∨ p = 4 ∨ p = 2 ^ 31 - 1 ∨ p = 2 ^ 31 → (gsObj h p).GroupReady ∧ (gsObj h p).Alone ∧
      (gsObj h p).Leads 0 0 ∧ (gsObj h p).NamesSp .counted 32 32 0 ((gsObj h p).rawS 1) ⟨1, 0⟩ ∧ (gsObj h p).NamesSp .watched 32 32 0 ((gsObj h p).rawS 1) ⟨1, 0⟩ ∧
      (gsObj h p).Unwatched ⟨1, 0⟩ ∧ (gsObj h p).cur.woken = 0 ∧ (gsObj h p).cur.smode = false ∧ (gsObj h p).myPart.svVec ≠ 0 ∧ (gsObj h p).header ⟨1, 0⟩ = h ∧
      (((gsObj h p).rawS 2).toNat % 2 ^ 32 = p)) ∧
    phaseAt (2 ^ 63) 3 = 3 ∧ phaseAt (2 ^ 63) 4 = 4 ∧ phaseAt (2 ^ 63) (2 ^ 31 - 1) = 2 ^ 31 - 1 ∧ phaseAt (2 ^ 63) (2 ^ 31) = 2 ^ 31 ∧ (2 ^ 63).testBit 63 = true := by
  refine ⟨?_, by decide +kernel⟩
  rintro h (rfl | rfl) p (rfl | rfl | rfl | rfl) <;>
    refine ⟨group_of ?_, alone_of ?_, .inl ?_, names_obj _ _ _ _ _ ?_ ?_ ?_ (by decide), names_obj _ _ _ _ _ ?_ ?_ ?_ (by decide), unwatched_of _ ?_, ?_⟩ <;>
    decide +kernel
/-- `Barriers`: a wait that was woken, for each of the three reasons. -/
theorem test_meets_woken : ∀ r ∈ [1, 2, 3], ∃ s : State, s.Ready ∧ s.cur.txg = false ∧ s.Leads 0 0 ∧ s.cur.woken = r := by
  intro r hr
  simp only [List.mem_cons, List.not_mem_nil, or_false] at hr
  exact ⟨gsWith fun c => { c with woken := r }, by
    rcases hr with rfl | rfl | rfl <;> refine ⟨ready_of ?_, ?_, .inl ?_, ?_⟩ <;> decide +kernel⟩
/-- A group with the bytes w at offset 0 of its allocation, s1 at them, s2 = p, handle 0 bound to them, and a key slot of its own. -/
def gsQ (n w p : Nat) : State :=
  ((((gsWith fun c => { c with sregs := [(1, 0x8000000000000000), (2, BitVec.ofNat 64 p)] }).updBlock 1 fun b => { b with handles := [(0, ⟨0, 0⟩)] }).writeNum
    ⟨1, 0⟩ n w).updQueue 0 0 fun q => { q with launch := 1 }) |>.updLaunch 1 fun l => { l with first := [(0, 1)] }
/-- Control words of one element of 16 bytes: empty, full, broken. -/
def qEmpty : Nat := 0x10 + 1 * 2 ^ 32 + 16 * 2 ^ 48
def qFull : Nat := qEmpty + 2 ^ 96
def qBroken : Nat := qEmpty + 2 ^ 97
/-- `Queues`: `qbind` of a control word; a full queue, an empty one, one with a broken count, and no queue. -/
theorem test_meets_queues : (∀ w, w = qEmpty ∨ w = qFull ∨ w = qBroken → (gsQ 16 w 0).GroupReady ∧ (gsQ 16 w 0).Alone ∧ (gsQ 16 w 0).Leads 0 0 ∧
      ∃ x, (gsQ 16 w 0).HasQueue 0 ⟨0, 0⟩ ⟨1, 0⟩ x ∧ x.depth = 1 ∧ waiting x = w / 2 ^ 96) ∧
    SMap.find (gsQ 16 0 0).myBlock.handles 1 = none ∧ ∀ o b, ¬gs.Behind o b := by
  refine ⟨?_, by decide +kernel, fun o b h => ?_⟩
  · rintro w (rfl | rfl | rfl) <;>
      refine ⟨group_of ?_, alone_of ?_, .inl ?_, _, ⟨?_, .inl ?_, ?_, rfl⟩, ?_⟩ <;> decide +kernel
  · obtain ⟨_, c, hc, _⟩ := h
    have : gs.ctxs = [] := by decide +kernel
    rw [this] at hc; simp at hc
/-- `Queues`: an element in the allocation, and one behind an address. -/
theorem test_meets_elements : (gsQ 16 qEmpty 0x8000000000000020).ReadsCopy 0 ((gsQ 16 qEmpty 0x8000000000000020).rawS 2) 16 (fun i => ⟨1, 32 + i⟩) ∧
    (gsQ 16 qFull 0x800000000000FFF0).OwnCopy ((gsQ 16 qFull 0x800000000000FFF0).rawS 2) 16 0xFFF0 ∧
    ((gsQ 16 qFull 0x13000).rawS 2).getLsbD 63 = false ∧ (gsQ 16 qFull 0x13000).CopyPlaces true 0 ((gsQ 16 qFull 0x13000).rawS 2) 16 (fun i => ⟨0, 0x13000 + i⟩) := by
  refine ⟨⟨.inl (by decide +kernel), by decide +kernel⟩, by constructor <;> decide +kernel, by decide +kernel, .inr ⟨by decide +kernel, ?_⟩⟩
  have h : bulkUnit ((gsQ 16 qFull 0x13000).rawS 2).toNat 16 = 16 := by decide +kernel
  rw [h]
  intro k hk
  have hk : k = 0 := by omega
  subst hk
  exact ⟨{ loc := ⟨0, 0x13000⟩, home := 0x13000 }, by decide +kernel, by decide, fun j _ => by simp⟩
/-- A card of one chunk with its flags at offset 64 of the allocation (bit 63), and with flags behind an address. -/
def cardOwn : Nat := 65536 * 2 ^ 192 + (2 ^ 63 + 64) * 2 ^ 256
def cardDone : Nat := cardOwn + 2 ^ 512
def cardFar : Nat := 65536 * 2 ^ 192 + 0x13000 * 2 ^ 256
def cardOf (w : Nat) : Nat := w % 2 ^ 512
/-- `CollectiveFlags`, `Collectives`: a card in the allocation with one chunk, whose flag stands there, complete or not; and one with flags behind an
address. -/
theorem test_meets_cards : (∀ w, w = cardOwn ∨ w = cardFar ∨ w = cardDone → (gsQ 65 w 0).Ready ∧ (gsQ 65 w 0).Alone ∧ (gsQ 65 w 0).Leads 0 0 ∧
      (gsQ 65 w 0).subs < 255 ∧ ((gsQ 65 w 0).rawS 1).toNat % 64 = 0 ∧ ((gsQ 65 w 0).rawS 1).getLsbD 63 = true ∧
      (gsQ 65 w 0).ReadsCopy 0 ((gsQ 65 w 0).rawS 1) 64 (fun i => ⟨1, i⟩) ∧ bytesNat ((gsQ 65 w 0).bytesAt 64 fun i => ⟨1, i⟩) = cardOf w ∧
      chunksOf (cardOf w) ((gsQ 65 w 0).members (cardOf w)) = 1) ∧
    (gsQ 65 cardDone 0).ReadsCopy 0 (BitVec.ofNat 64 (2 ^ 63 + 64)) 1 (fun i => ⟨1, 64 + i⟩) ∧
    (gsQ 65 cardDone 0).readByte ⟨1, 64⟩ ≠ 0 ∧ (gsQ 65 cardOwn 0).readByte ⟨1, 64⟩ = 0 ∧ (2 ^ 63 + 64#64).getLsbD 63 = true ∧
    (gsQ 65 cardOwn 0).OwnCopy (BitVec.ofNat 64 (2 ^ 63 + 64)) 1 64 ∧ (0x13000#64).getLsbD 63 = false ∧
    (gsQ 65 cardFar 0).CopyPlaces true 0 0x13000 1 (fun i => ⟨0, 0x13000 + i⟩) := by
  refine ⟨?_, ⟨.inl (by decide +kernel), by decide +kernel⟩, by decide +kernel, by decide +kernel, by decide +kernel,
    by constructor <;> decide +kernel, by decide, .inr ⟨by decide, ?_⟩⟩
  · rintro w (hw | hw | hw) <;> rw [hw] <;>
      refine ⟨ready_of ?_, alone_of ?_, .inl ?_, ?_, ?_, ?_, ⟨.inl ?_, ?_⟩, ?_⟩ <;> decide +kernel
  · intro k hk
    have hk : k = 0 := by
      have : 1 / bulkUnit (BitVec.toNat (77824 : W64)) 1 = 1 := by decide +kernel
      omega
    subst hk
    exact ⟨{ loc := ⟨0, 0x13000⟩, home := 0x13000 }, by decide +kernel, by decide, fun j _ => by simp⟩
/-- A key slot of the group itself, with a floor. -/
def gsKey (w floor : Nat) : State :=
  ((gsQ 16 0 0).updPart 1 fun p => { p with keys := [(0, ⟨0, BitVec.ofNat 64 floor, 0, 0, 0, 0⟩)] }).writeNum ⟨0, 0x13000⟩ 64 w |>.updCur
    fun c => { c with sregs := [(1, 0x13000)] }
/-- A descriptor of one chunk of 256 bytes with counter c. -/
def descr (c : Nat) : Nat := 256 * 2 ^ 128 + c * 2 ^ 192
/-- `Decryptions`: a descriptor that is not valid, one at the floor, one whose counter would wrap and one just above the floor, with the context's own key. -/
theorem test_meets_descriptors : (∀ w, w = 0 ∨ w = descr 7 ∨ w = descr (2 ^ 64 - 1) + 256 * 2 ^ 128 ∨ w = descr 8 → (gsKey w 7).Ready ∧ (gsKey w 7).Alone ∧
      (gsKey w 7).Leads 0 0 ∧ (gsKey w 7).subs < 255 ∧ ((gsKey w 7).rawS 1).toNat % 64 = 0 ∧
      ((gsKey w 7).rawS 1).getLsbD 63 = false ∧ (gsKey w 7).ReadsCopy 0 ((gsKey w 7).rawS 1) 64 (fun i => ⟨0, 0x13000 + i⟩) ∧
      bytesNat ((gsKey w 7).bytesAt 64 fun i => ⟨0, 0x13000 + i⟩) = w ∧
      ∃ k, SMap.find (gsKey w 7).myPart.keys (w / 2 ^ 164 % 16) = some k ∧ (gsKey w 7).ownsSlot k = true ∧ k.floor = 7) ∧
    BadDescriptor 0 ∧ ¬BadDescriptor (descr 7) ∧ descr 7 / 2 ^ 192 % 2 ^ 64 = 7 ∧ ¬BadDescriptor (descr (2 ^ 64 - 1) + 256 * 2 ^ 128) ∧
    lastCounter (descr (2 ^ 64 - 1) + 256 * 2 ^ 128) = 2 ^ 64 ∧ ¬BadDescriptor (descr 8) ∧ descr 8 / 2 ^ 192 % 2 ^ 64 = 8 ∧ lastCounter (descr 8) = 8 := by
  refine ⟨?_, by unfold BadDescriptor; decide +kernel⟩
  rintro w (rfl | rfl | rfl | rfl) <;>
    refine ⟨ready_of (by decide +kernel), alone_of (by decide +kernel), .inl (by decide +kernel), by decide +kernel, by decide +kernel, by decide +kernel,
      ⟨.inr ⟨by decide +kernel, ?_⟩, by decide +kernel⟩, by decide +kernel, ⟨0, 7, 0, 0, 0, 0⟩, by decide +kernel⟩
  all_goals
    refine fun k hk => ⟨{ loc := ⟨0, 0x13000 + 16 * k⟩, home := 0x13000 + 16 * k }, ?_, by simp, ?_⟩
    · revert k; decide +kernel
    · intro j _
      have : ∀ w, w = 16 → (⟨0, 0x13000 + (k * w + j)⟩ : Loc) = ⟨0, 0x13000 + 16 * k + j⟩ := by rintro w rfl; congr 1; omega
      exact this _ (by decide +kernel)
/-- A group about to issue the halfwords of w, in a loop pass or not. -/
def gsW (w : Nat) (l : Option LoopState) : State := (State.reset.withProgram 4 w).updCur fun c => { c with loop := l }
/-- `StepRunsDecoded`: an event has the turn; a context has it by the schedule, and by its core's arbiter; its bytes can be fetched and decode, outside a
loop, in one without step words, and in one with a step word. -/
theorem test_meets_step : (∃ (s : State) (i : Instr) (d : Ev), s.agenda = [.ev i d] ∧ s.issueDue (d.args.getD 0 0) = false) ∧
    (∃ t : State, ({ gsW 0x6C9D8303 none with agenda := [.ctx 1] } : State).GivesTurn t ∧ t.held = false) ∧
    ∃ t, (gsW 0x6C9D8303 none).GivesTurn t ∧ t.held = false := by
  refine ⟨⟨{ (sqn 0) with agenda := [.ev .clockDriveStep {}] }, _, _, rfl, by decide +kernel⟩, ⟨_, .inl ⟨1, [], (gsW 0x6C9D8303 none).cur, rfl, ?_, ?_, ?_, rfl⟩, ?_⟩,
    _, .inr ⟨0, (gsW 0x6C9D8303 none).cur, ?_, ?_, ?_, ?_, ?_, ?_, rfl⟩, ?_⟩ <;> decide +kernel
theorem test_meets_fetch : (gsW 0x6C9D8303 none).Fetches 0x10000 0x03 0x83 ∧ (gsW 0x6C9D8303 none).Fetches (0x10000 + 2) 0x9D 0x6C ∧
    (gsW 0x6C9D8303 none).cur.pc = 0x10000 ∧ (gsW 0x6C9D8303 none).cur.recipe = none ∧ (gsW 0x6C9D8303 none).cur.loop = none ∧
    decode [0x03, 0x83, 0x9D, 0x6C] = .ok (.iadd true 3 54 9 27, []) ∧ (gsW 0xB4C6 none).Fetches 0x10000 0xC6 0xB4 ∧
    decode [0xC6, 0xB4] = .ok (.iaddShort true 19 22, []) :=
  by refine ⟨⟨{ loc := ⟨0, 0x10000⟩, home := 0x10000 }, ?_⟩, ⟨{ loc := ⟨0, 0x10002⟩, home := 0x10002 }, ?_⟩, ?_, ?_, ?_, ?_,
    ⟨{ loc := ⟨0, 0x10000⟩, home := 0x10000 }, ?_⟩, ?_⟩ <;> decide +kernel
/-- A pass of a body of one word whose D field a step word moves by 1. -/
def pass (n : Nat) : LoopState := { count := 9, pass := BitVec.ofNat 64 n, addrs := [0x10000, 0x10004], steps := [0x00010000] }
theorem test_meets_pass : (pass 1).steps ≠ [] ∧ lengthOfHalf (halfOf 0x03 0x83) = 4 ∧ lengthOfHalf (halfOf 0xC6 0xB4) = 2 ∧
    stepHalf { pass 1 with steps := [0] } (halfOf 0xC6 0xB4) = .half (halfOf 0xC6 0xB4) ∧
    (∃ f off n r p, stepHalf (pass 1) (halfOf 0xC6 0xB4) = .word f off n r ∧ decodeFields f = .ok p ∧ p.instr = .iadd true 0 20 20 22) ∧
    ∃ f off n r p, stepFields32 (pass 1) (fieldsOf (0x6C#8 ++ 0x9D#8 ++ 0x83#8 ++ 0x03#8)) 4 = .word f off n r ∧ decodeFields f = .ok p ∧
      p.instr = .iadd true 3 55 9 27 :=
  by refine ⟨?_, ?_, ?_, ?_, ⟨_, _, _, _, _, rfl, rfl, ?_⟩, _, _, _, _, _, rfl, rfl, ?_⟩ <;> decide +kernel
/-- `DecodeAndEncodeAgree`: a well-formed instruction with a word; bytes that decode. -/
theorem test_meets_encoding : wellFormed (.srd false 63 0x893) = true ∧ (encode (.srd false 63 0x893)).isSome = true ∧
    decode [0xC6, 0xB4, 0x00] = .ok (.iaddShort true 19 22, [0x00]) :=
  by decide +kernel
/-- `MemoryFormKept`: a state with memory in form that steps. -/
theorem test_meets_memory_form : (gsW 0x6C9D8303 none).memWf = true ∧ ∃ t, step (gsW 0x6C9D8303 none) = .next t ∧ t.cur.pc = 0x10004 := by
  refine ⟨by decide +kernel, ?_⟩
  have h : (match step (gsW 0x6C9D8303 none) with | .next t => t.cur.pc == 0x10004 | _ => false) = true := by decide +kernel
  revert h
  cases step (gsW 0x6C9D8303 none) with
  | next t => exact fun h => ⟨t, rfl, by simpa using h⟩
  | fault f => simp
  | refused r => simp

/-! ## What events meet -/

/-- A state whose event names numbers and bytes; the group `gs` changed, with an event. -/
def onEvent (s : State) (args : List Nat) (bytes : List Byte := []) : State := { s with ev := ⟨args, bytes⟩ }
def gsOn (f : Ctx → Ctx) (args : List Nat) : State := onEvent (gsWith f) args
/-- The group parked for a reason, holding the token of its partition, its byte 0 of the scratchpad set. -/
def gsParked (p : Park) : State := (onEvent (gsWith fun c => { c with park := some p }) [1]).writeNum ⟨1, 0⟩ 1 1 |>.updPart 1 fun p => { p with token := some 1 }
/-- `CoreEvents`: each reason for which a parked group becomes ready. -/
theorem test_meets_awaited : ∀ p ∈ [Park.settle, .batch 0, .flag ⟨1, 0⟩, .token, .qzQueue, .txend, .limit, .link],
    (gsParked p).ctx? ((gsParked p).arg 0) = some (gsParked p).cur ∧ (gsParked p).cur.event = none ∧ (gsParked p).Awaited (gsParked p).cur := by
  intro p hp
  have h : ∀ p ∈ [Park.settle, .batch 0, .flag ⟨1, 0⟩, .token, .qzQueue, .txend, .limit, .link],
      (gsParked p).ctx? ((gsParked p).arg 0) = some (gsParked p).cur ∧ (gsParked p).cur.event = none ∧ (gsParked p).cur.park = some p ∧
      (gsParked p).cur.deferred = [] ∧ (gsParked p).cur.owes 0 = false ∧ (gsParked p).readByte ⟨1, 0⟩ ≠ 0 ∧
      ((gsParked p).part ((gsParked p).launch (gsParked p).cur.launch).tag).token = some (gsParked p).cur.id ∧
      ((gsParked p).tile ((gsParked p).cur.core / 16)).qz.length < 64 ∧ ∀ k ∈ (gsParked p).commits, k.ctx = (gsParked p).cur.id → k.phase = 3 := by decide +kernel
  obtain ⟨found, quiet, parked, settled, batch, flag, token, queue, done⟩ := h p hp
  refine ⟨found, quiet, ?_⟩
  unfold State.Awaited
  simp only [List.mem_cons, List.not_mem_nil, or_false] at hp
  rcases hp with rfl | rfl | rfl | rfl | rfl | rfl | rfl | rfl <;> rw [parked] <;> simp [settled, batch, token, queue]
  · exact flag
  · exact done
/-- `CoreEvents`: a deferred result; a group at its deadline, whose next word it may issue; a step of each kind of clock; a wave and a wait that have
elapsed. -/
theorem test_meets_core_events :
    (∃ s : State, ∃ c, s.ctx? (s.arg 0) = some c ∧ c.deferred = [⟨s.arg 1, [.uni 63 5 false], 0, 0, true⟩]) ∧
    (∃ s : State, ∃ c, s.ctx? (s.arg 0) = some c ∧ c.overdue = true ∧ c.isReady = true ∧ s.cur.kind = .group ∧ s.cur.overdue = true ∧ s.illegal { settle := true } = none) ∧
    (∀ p ∈ [([], 0), ([⟨1, 3, 1, false⟩, ⟨2, 2, 5, false⟩], 3)], ∃ s : State, (s.core (s.arg 0)).waves = [] ∧ (s.core (s.arg 0)).setpt = 3 ∧
      (s.core (s.arg 0)).stages = p.1 ∧ (∀ e ∈ p.1, StageEntry.cls e ≤ p.2) ∧ (p.2 = 0 ∨ ∃ e ∈ p.1, StageEntry.cls e = p.2) ∧ s.mxops = [] ∧
      ∀ c ∈ s.allCtxs, c.core = s.arg 0 → c.park = none ∧ ∀ d ∈ c.deferred, d.due = 0) ∧
    (∃ s : State, ∃ c, (s.core (s.arg 0)).waves = [⟨c.id, 7, 1⟩] ∧ 7 ≤ (s.core (s.arg 0)).cyc.toNat ∧ s.ctx? c.id = some c ∧ c.park = some .wave) ∧
    ∃ s : State, ∃ c, s.ctx? (s.arg 0) = some c ∧ c.park = some (.barrierTimed ⟨1, 0⟩ 0 9) ∧ 9 ≤ (s.core c.core).span.toNat := by
  refine ⟨⟨gsOn (fun c => { c with deferred := [⟨7, [.uni 63 5 false], 0, 0, true⟩] }) [1, 7], { gs.cur with deferred := [⟨7, [.uni 63 5 false], 0, 0, true⟩] }, by decide +kernel⟩,
    ⟨gsOn (fun c => { c with issued := 4096 }) [1], { gs.cur with issued := 4096 }, by decide +kernel⟩, ?_,
    ⟨(gsOn (fun c => { c with park := some .wave }) [0]).updCore 0 fun k => { k with cyc := 7, waves := [⟨1, 7, 1⟩] },
      gsWith (fun c => { c with park := some .wave }) |>.cur, by decide +kernel⟩,
    (gsOn (fun c => { c with park := some (.barrierTimed ⟨1, 0⟩ 0 9) }) [1]).updCore 0 fun k => { k with span := 9 },
    { gs.cur with park := some (.barrierTimed ⟨1, 0⟩ 0 9) }, by decide +kernel⟩
  rintro p hp
  refine ⟨(gsOn id [0]).updCore 0 fun k => { k with setpt := 3, stages := p.1 }, ?_⟩
  revert p; decide +kernel
/-- `CoreEvents`: the oldest waiter of a queue that may go on: a push, a pop, and either at a broken count. -/
theorem test_meets_queue_waiters : ∀ p ∈ [(qEmpty, true), (qFull, false), (qBroken, true), (qBroken, false)], ∃ s : State, ∃ c,
    ((waiting (s.queueWord ⟨1, 0⟩) > (s.queueWord ⟨1, 0⟩).depth) ∨ if p.2 then waiting (s.queueWord ⟨1, 0⟩) ≠ (s.queueWord ⟨1, 0⟩).depth else
      waiting (s.queueWord ⟨1, 0⟩) ≠ 0) ∧ (p.2 = true ↔ s.arg 2 = 1) ∧ s.arg 0 = 0 ∧ s.arg 1 = 0 ∧ s.ctx? c.id = some c ∧ c ∈ s.allCtxs ∧
    c.park = some (.queue ⟨1, 0⟩ p.2) ∧ ∀ d ∈ s.allCtxs, d.park = some (.queue ⟨1, 0⟩ p.2) → d ≠ c → c.parkSeq < d.parkSeq := by
  intro p hp
  refine ⟨onEvent ((gsQ 16 p.1 0).updCur fun c => { c with park := some (.queue ⟨1, 0⟩ p.2) }) [0, 0, if p.2 then 1 else 0],
    ((gsQ 16 p.1 0).updCur fun c => { c with park := some (.queue ⟨1, 0⟩ p.2) }).cur, ?_⟩
  revert p; decide +kernel
/-- `CoreEvents`: translations under way, a token that is free, a group that stops, and one that may go on. -/
theorem test_meets_translations :
    (∃ s : State, s.inval = [⟨1, 0, 0, 1, 7⟩] ∧ s.arg 0 = 1) ∧
    (∃ s : State, s.ev.args = [71] ∧ (s.fld 71).walkers.length < 16 ∧ (s.fld 71).walkQ = [(1, [9])]) ∧
    (∃ s : State, ∃ p, s.ev.args = [71, 1, 0] ∧ SMap.find s.parts 1 = some p ∧ (SMap.get [] (s.fld 71).walkQ 1).length < 64 ∧ 16 ≤ (s.fld 71).walkers.length) ∧
    (∃ s : State, SMap.find s.walks (s.arg 0) = some ⟨1, 0, 0⟩ ∧ (∃ x ∈ (s.fld 0).walkers, x.1 = s.arg 0) ∧ (s.part 1).tiles.find? (fun x => fieldOfTile x == 0) = some 0) ∧
    (∃ s : State, ∃ p c, SMap.find s.parts (s.arg 0) = some p ∧ p.token = none ∧ p.tokenQ = [Ctx.id c] ∧ s.ctx? c.id = some c) ∧
    (∃ s : State, ∃ c, s.ctx? (s.arg 0) = some c ∧ c.isGroup = true ∧ c.preempt = true ∧ c.dirty = false ∧ c.smode = false) ∧
    ∃ s : State, ∃ c, s.ctx? (s.arg 0) = some c ∧ c.stopped = true ∧ c.ended = false ∧ (s.block c.block).st = .resident ∧ (s.core c.core).engine.held = false ∧
      ∀ x ∈ s.allCtxs, x.block = c.block → x.preempt = false :=
  ⟨⟨onEvent { gs with inval := [⟨1, 0, 0, 1, 7⟩] } [1], by decide +kernel⟩,
    ⟨onEvent (gs.updFld 71 fun x => { x with walkQ := [(1, [9])] }) [71], by decide +kernel⟩,
    ⟨onEvent (gs.updFld 71 fun x => { x with walkers := List.replicate 16 (9, 1) }) [71, 1, 0], gs.part 1, by decide +kernel⟩,
    ⟨onEvent { gs.updFld 0 (fun x => { x with walkers := [(9, 1)] }) with walks := [(9, ⟨1, 0, 0⟩)] } [9], by decide +kernel⟩,
    ⟨onEvent (gs.updPart 1 fun p => { p with tokenQ := [1] }) [1], (gs.updPart 1 fun p => { p with tokenQ := [1] }).part 1, gs.cur, by decide +kernel⟩,
    ⟨gsOn (fun c => { c with preempt := true }) [1], { gs.cur with preempt := true }, by decide +kernel⟩,
    gsOn (fun c => { c with stopped := true }) [1], { gs.cur with stopped := true }, by decide +kernel⟩
/-- A state with packet 7 in flight to a place of HBM that partition 1 owns, from an agent of partition tag. -/
def inFlight (tag : Nat) (op : PacketOp) : State := onEvent { gs with packets := [{ id := 7, src := { tag := tag, ctx := 1 }, kind := 1, seq := 1, op := op, writes := [(⟨0, 0x13000⟩, 5)] }] } [7]
/-- `FabricEvents`: a packet of each kind that is performed, and one that is dropped; a drop, with the log full and not; a notice; a flit from a neighbour
after no, 15 and 16 retries; a record for a ring that does not exist, is full, and has a place. -/
theorem test_meets_mesh : (∀ x ∈ [(1, true), (2, false)], ∀ k ∈ [(PacketOp.store, false), (.reduce 0 [(⟨0, 0x13000⟩, 5)], true)], ∃ p,
      ((inFlight x.1 k.1).packets.find? fun q => q.id == (inFlight x.1 k.1).arg 0 && q.isAtomic == k.2) = some p ∧ (inFlight x.1 k.1).mayArrive p = true ∧
      (inFlight x.1 k.1).locks = [] ∧ p.first.tt ≠ 6 ∧ (inFlight x.1 k.1).delivers p.src p.first = x.2) ∧
    (∃ s : State, s.drops = [⟨0⟩] ∧ (s.module.dropHead - s.module.dropTail).toNat = 65536) ∧
    (∃ s : State, s.drops = [⟨0⟩] ∧ (s.module.dropHead - s.module.dropTail).toNat = 65535) ∧
    (∃ s : State, ∃ p, s.nacks = [⟨{ tag := 1 }, 1, 0, 0, 4, 0, 0, 0, 0, none⟩] ∧ SMap.find s.parts 1 = some p) ∧
    (∀ k ∈ [0, 15, 16], ∀ ok ∈ [0, 1], ∃ s u : State, s.arg 0 = 0 ∧ s.arg 1 = 1 ∧ s.arg 2 = ok ∧ beyondPort (s.arg 0) (s.arg 1) = some 1 ∧
      SMap.get 0 (s.tile (s.arg 0)).flitRetry (s.arg 1) = k ∧
      u = (s.updTile 0 fun x => { x with flitRetry := SMap.set 0 x.flitRetry 1 17 }).updTile 1 (fun x => { x with flitRetry := SMap.set 0 x.flitRetry 3 17 }) ∧
      u.isolated 0 = false ∧ u.isolated 1 = false) ∧
    ∀ x ∈ [(0, 0, 0), (1, 2, 0), (1, 1, 0), (1, 0, 0)], ∃ s : State, ∃ p, s.raised = [(1, 0)] ∧ SMap.find s.parts 1 = some p ∧ p.frSize = x.1 ∧ p.frHead.toNat = x.2.1 ∧
      p.frTail.toNat = x.2.2 ∧ p.place (p.frBase.toNat + 64 * (p.frHead.toNat % 2 ^ p.frSize)) = some ⟨0, 64 * (x.2.1 % 2 ^ x.1)⟩ := by
  refine ⟨?_, ⟨{ gs with drops := [⟨0⟩], module := { gs.module with dropHead := 65536 } }, by decide +kernel⟩,
    ⟨{ gs with drops := [⟨0⟩], module := { gs.module with dropHead := 65535 } }, by decide +kernel⟩,
    ⟨{ gs with nacks := [⟨{ tag := 1 }, 1, 0, 0, 4, 0, 0, 0, 0, none⟩] }, gs.part 1, by decide +kernel⟩, ?_, ?_⟩
  · intro x hx k hk
    refine ⟨{ id := 7, src := { tag := x.1, ctx := 1 }, kind := 1, seq := 1, op := k.1, writes := [(⟨0, 0x13000⟩, 5)] }, ?_⟩
    revert k; revert x; decide +kernel
  · intro k hk ok hok
    refine ⟨onEvent (gs.updTile 0 fun x => { x with flitRetry := SMap.set 0 x.flitRetry 1 k }) [0, 1, ok], _, ?_, ?_, ?_, ?_, ?_, rfl, ?_⟩ <;> revert ok <;>
      revert k <;> decide +kernel
  · rintro x hx
    refine ⟨{ gs.updPart 1 fun p => { p with frSize := x.1, frHead := BitVec.ofNat 32 x.2.1 } with raised := [(1, 0)] },
      (gs.updPart 1 fun p => { p with frSize := x.1, frHead := BitVec.ofNat 32 x.2.1 }).part 1, ?_⟩
    revert x; decide +kernel
/-- A lane's commit whose log has one word of home slice 0 that it read as v, in a phase, and a line that another commit has locked. -/
def committing (v : Nat) (phase verdict : Nat) (locked : Bool) : TxCommit × State :=
  let c : TxCommit := { id := 9, ctx := 1, lane := 3, log := { rlog := [⟨⟨0, 0x13000⟩, 0, BitVec.ofNat 32 v⟩], wlog := [⟨⟨0, 0x13080⟩, 0, 5, 15⟩] }
                        todo := if phase = 0 && verdict = 0 then [0] else [], ready := if phase = 0 && verdict = 0 then [] else [0], phase := phase, verdict := verdict }
  (c, onEvent { gs with commits := [c], locks := if locked then [(0x13000 / 128, { ctx := 1, lane := 4 })] else [] } [9, 0])
/-- `FabricEvents`: a prepare that finds its words as they were, changed, and locked; answers with no verdict and with one; commits and releases. -/
theorem test_meets_commits :
    (∀ v ∈ [0, 1], ∀ l ∈ [true, false], (committing v 0 0 l).2.commit? 9 = some (committing v 0 0 l).1 ∧ (committing v 0 0 l).1.todo = [0] ∧
      (committing v 0 0 l).2.prepareTurn (committing v 0 0 l).1 0 = true ∧ (committing v 0 0 l).1.holder = false ∧
      ((committing v 0 0 l).2.lockLines (committing v 0 0 l).1 0 ((committing v 0 0 l).1.linesAt 0)).2 = (if l then some (0x13000 / 128) else none) ∧
      ((committing v 0 0 l).2.lockLines (committing v 0 0 l).1 0 ((committing v 0 0 l).1.linesAt 0)).1.staleLine (committing v 0 0 l).1 0 =
        if v = 0 then none else some (0x13000 / 128)) ∧
    (∀ x ∈ [(0, 1), (1, 0), (2, 0)], (committing 0 x.1 x.2 false).2.commit? ((committing 0 x.1 x.2 false).2.arg 0) = some (committing 0 x.1 x.2 false).1 ∧
      (committing 0 x.1 x.2 false).1.todo = [] ∧ (committing 0 x.1 x.2 false).1.ready = [(committing 0 x.1 x.2 false).2.arg 1] ∧
      ((committing 0 x.1 x.2 false).2.ctx? 1).isSome = true) ∧
    ∃ s : State, ∃ c, s.commit? (s.arg 0) = some c ∧ c.phase = 0 ∧ c.todo = [] ∧ c.ready = [0] ∧ c.verdict = 0 ∧ s.preparing c.ctx = false :=
  by refine ⟨?_, ?_, onEvent { gs with commits := [{ id := 9, ctx := 1, lane := 3, log := {}, ready := [0] }] } [9],
      { id := 9, ctx := 1, lane := 3, log := {}, ready := [0] }, ?_⟩ <;> decide +kernel
theorem some_of {α : Type} {o : Option α} (d : α) (h : o.isSome = true) : o = some (o.getD d) := by cases o <;> simp_all
/-- What a chunk gives, with the state then and the cause. -/
def endState : ChunkEnd → State × Option Nat
  | .ok s => (s, none)
  | .fail s c => (s, some c)
  | .wait => ({}, some 0)
theorem ok_of {r : ChunkEnd} (h : (endState r).2 = none) : r = .ok (endState r).1 := by cases r <;> simp_all [endState]
theorem fail_of {r : ChunkEnd} {c : Nat} (hc : c ≠ 0) (h : (endState r).2 = some c) : r = .fail (endState r).1 c := by
  cases r <;> simp_all [endState]
/-- A job of the group, of a kind, with its operand words. -/
def jobOf (kind : Nat) (a b b1 : W64) : Job :=
  { id := 9, ctx := 1, launch := 1, block := 1, core := 0, agent := { gs.agent with unit := 1 }, smode := false, kind := kind, sd := 5, opA := a, opB := b, opB1 := b1 }
/-- A copy of 16 bytes, and a record copy whose record stands at an address that translates to nothing. -/
def copyJob : Job := jobOf 1 0x13000 0x13100 16
def lostJob : Job := jobOf 0 0x8020000 0x13000 0
def withJobs (js : List Job) (args : List Nat) : State := onEvent { gs with jobs := js } args
/-- The copy dispatched. -/
def sentJob : Job := { copyJob with nchunks := 1, started := true }
def pagesOf (s : State) (j : Job) : SMap Loc × SMap Nat := match (s.subJob j 0 j.nchunks).2 with
  | .ok p => p
  | .error _ => ([], [])
def movedJob : Job := { sentJob with sub := 1, next := 1, flight := [0], pages := (pagesOf (withJobs [sentJob] [9]) sentJob).1, extents := (pagesOf (withJobs [sentJob] [9]) sentJob).2 }
/-- `EngineEvents`: a job ended at once, one whose record cannot be read, and a copy; its sub-job. -/
theorem test_meets_dispatch : (∀ j ∈ [{ copyJob with pre := 7 }, lostJob, copyJob], (withJobs [j] [9]).job? 9 = some j ∧ j.started = false ∧ j.suspended = false ∧
      j.kind ∉ [8, 9, 10] ∧ (withJobs [j] [9]).asyncDone j.ctx j.after = true ∧ (withJobs [j] [9]).dispatchLost j = false) ∧
    lostJob.pre = 0 ∧ (withJobs [lostJob] [9]).jobCard lostJob [] = .error (some cUnmapped) ∧
    copyJob.pre = 0 ∧ copyJob.readsCard = false ∧ (withJobs [copyJob] [9]).jobCard copyJob [] = .ok 0 ∧ sentJob.badLayout = false ∧
    (withJobs [copyJob] [9]).beyond sentJob = false ∧ sentJob.total = 1 ∧
    (withJobs [sentJob] [9]).subJob sentJob 0 1 = (1, .ok (pagesOf (withJobs [sentJob] [9]) sentJob)) ∧
    (withJobs [copyJob] [9]).subJob sentJob 0 1 = (1, .ok (pagesOf (withJobs [sentJob] [9]) sentJob)) ∧
    (withJobs [sentJob] [9]).overlapped sentJob 0 1 = false ∧ (withJobs [copyJob] [9]).overlapped sentJob 0 1 = false ∧
    (withJobs [sentJob] [9]).job? 9 = some sentJob ∧ sentJob.next = sentJob.sub ∧ sentJob.sub < sentJob.nchunks :=
  by and_intros <;> decide +kernel
/-- `EngineEvents`: a chunk that is read, one whose word is in error, and one whose last, or first, word is written. -/
theorem test_meets_chunks : ((withJobs [movedJob] [9, 0]).job? 9 = some movedJob ∧ 0 ∈ movedJob.flight ∧ SMap.find movedJob.cells 0 = none ∧
      ∃ u, (withJobs [movedJob] [9, 0]).runChunk movedJob 0 [] = .ok u) ∧
    (∃ u, ({ withJobs [movedJob] [9, 0] with poison := [wordKey ⟨0, 0x13000⟩] } : State).runChunk movedJob 0 [] =
      .fail u cPoison) ∧
    ∀ ns ∈ [[0], [0, 1]], ∃ s : State, ∃ t j x ws, s.ev.args.drop 2 = ns ∧ s.job? (s.arg 0) = some j ∧ 0 ∈ Job.flight j ∧
      SMap.find j.cells 0 = some ((⟨0, 0x13100⟩, 5) :: ws) ∧ s.chunkAsked j.id 0 = false ∧ (∀ f ∈ j.failed, f.1 ≠ 0) ∧ s.writeCells j 0 ns = some t ∧
      t.job? j.id = some x ∧ t.chunkAsked j.id 0 = false ∧ SMap.find x.cells 0 = some (if ns = [0] then [(⟨0, 0x13104⟩, 6)] else []) := by
  refine ⟨⟨by decide +kernel, by decide +kernel, by decide +kernel, _, ok_of (by decide +kernel)⟩, ⟨_, fail_of (by decide) (by decide +kernel)⟩, ?_⟩
  intro ns hns
  obtain ⟨j, hj⟩ : ∃ j : Job, j = { movedJob with cells := [(0, [(⟨0, 0x13100⟩, 5), (⟨0, 0x13104⟩, 6)])] } := ⟨_, rfl⟩
  refine ⟨withJobs [j] ([9, 0] ++ ns), ((withJobs [j] ([9, 0] ++ ns)).writeCells j 0 ns).getD {}, j,
    { j with cells := [(0, if ns = [0] then [(⟨0, 0x13104⟩, 6)] else [])] }, [(⟨0, 0x13104⟩, 6)], rfl, ?_, ?_, ?_, ?_, ?_, some_of _ ?_, ?_, ?_, ?_⟩ <;>
    subst hj <;> revert ns <;> decide +kernel
/-- A multicast with its first chunk read, for blocks 1 and 2. -/
def multicast : Job := { jobOf 3 0 0xFFFFFFFF00000000 0 with data := [(0, [5, 6, 7, 8])], receivers := [1, 2] }
def sharing : ChunkEnd := (withJobs [multicast] [9, 1, 0]).share multicast 0 1 [5, 6, 7, 8]
/-- `EngineEvents`: a share for one of two blocks; a delivery. -/
theorem test_meets_shares : (∃ s : State, ∃ j u x, s.job? (s.arg 0) = some j ∧ SMap.find j.data (s.arg 2) = some [5, 6, 7, 8] ∧ j.missing = [] ∧ j.receivers = [s.arg 1, 2] ∧
      (s.arg 1, s.arg 2) ∉ j.shares ∧ (2, s.arg 2) ∉ j.shares ∧ s.share j (s.arg 2) (s.arg 1) [5, 6, 7, 8] = .ok u ∧ u.job? j.id = some x ∧ Job.shares x = j.shares) ∧
    ∃ s : State, s.deliveries = [⟨⟨1, 0⟩, 0, 4⟩] ∧ (⟨1, 0⟩ : Loc).core = s.arg 0 := by
  refine ⟨⟨withJobs [multicast] [9, 1, 0], multicast, (endState sharing).1, ((endState sharing).1.job? 9).getD multicast, ?_, ?_, ?_, ?_, ?_, ?_, ok_of ?_, some_of _ ?_, ?_⟩,
    onEvent { gs with deliveries := [⟨⟨1, 0⟩, 0, 4⟩] } [0], ?_⟩ <;> decide +kernel
/-- The quantisation of one row of 128 BF16 numbers, dispatched. -/
def qzStart : Job := { jobOf 10 0x13400 0 0 with
  card := BitVec.ofNat 512 (0x13000 + 0x13200 * 2 ^ 64 + 0x13300 * 2 ^ 128 + 2 ^ 256 + 128 * 2 ^ 272 + 256 * 2 ^ 288 + 128 * 2 ^ 320), nchunks := 1, started := true }
def qzJob : Job := { qzStart with sub := 1, pages := (pagesOf (withJobs [qzStart] [9]) qzStart).1, extents := (pagesOf (withJobs [qzStart] [9]) qzStart).2 }
def qzEls : List (List Byte) := match (withJobs [qzJob] [9]).readElems qzJob 2 ((List.range 128).map fun i => some (qzSrc qzJob.card.toNat 0 i)) [] with
  | .ok l => l
  | .error _ => []
def qzHeld : ChunkEnd :=
  ((withJobs [qzJob] [9]).readPackets qzJob 2 ((List.range 128).map fun i => some (qzSrc qzJob.card.toNat 0 i))).holdCells qzJob .store 0
    (((List.range 128).zip (qzBlock (qzJob.card.toNat.testBit 387) (qzEls.map fun e => BitVec.ofNat 32 (bytesNat e * 65536))).1 |>.flatMap fun p =>
      [(some (qzDst qzJob.card.toNat 0 p.1), [p.2]), (qzTrans qzJob.card.toNat 0 p.1, [p.2])]) ++
      [(some (qzScl qzJob.card.toNat 0), natBytes 4 (qzBlock (qzJob.card.toNat.testBit 387) (qzEls.map fun e => BitVec.ofNat 32 (bytesNat e * 65536))).2.1.toNat),
       (qzTransScl qzJob.card.toNat 0, natBytes 4 (qzBlock (qzJob.card.toNat.testBit 387) (qzEls.map fun e => BitVec.ofNat 32 (bytesNat e * 65536))).2.1.toNat)])
/-- `EngineEvents`: a block of 128 elements that is read, and the last one, whose last word is written. -/
theorem test_meets_quantisation : ((withJobs [qzJob] [9]).job? 9 = some qzJob ∧ qzJob.kind = 10 ∧ qzJob.started = true ∧ qzJob.next < qzJob.sub ∧
      SMap.find qzJob.cells qzJob.next = none ∧ qzJob.ended = false ∧ qzJob.suspended = false ∧ qzLen qzJob.card.toNat = 128 ∧ qzSize qzJob.card.toNat = 2 ∧
      (withJobs [qzJob] [9]).readElems qzJob 2 ((List.range 128).map fun i => some (qzSrc qzJob.card.toNat 0 i)) [] = .ok qzEls ∧ (endState qzHeld).2 = none) ∧
    ∃ s : State, ∃ j x t, s.job? (s.arg 0) = some j ∧ j.kind = 10 ∧ j.started = true ∧ j.next < j.sub ∧ SMap.find j.cells j.next = some [(⟨0, 0x13200⟩, 5)] ∧
      s.writeCells j j.next (s.ev.args.drop 1) = some t ∧ t.job? j.id = some x ∧ SMap.find x.cells j.next = some [] ∧ t.chunkAsked j.id j.next = false ∧
      (∀ f ∈ x.failed, f.1 ≠ j.next) ∧ j.next + 1 = x.nchunks := by
  refine ⟨by and_intros <;> decide +kernel,
    withJobs [{ qzJob with cells := [(0, [(⟨0, 0x13200⟩, 5)])] }] [9], { qzJob with cells := [(0, [(⟨0, 0x13200⟩, 5)])] }, { qzJob with cells := [(0, [])] },
    ((withJobs [{ qzJob with cells := [(0, [(⟨0, 0x13200⟩, 5)])] }] [9]).writeCells { qzJob with cells := [(0, [(⟨0, 0x13200⟩, 5)])] } 0 []).getD {},
    ?_, ?_, ?_, ?_, ?_, some_of _ ?_, ?_⟩ <;> decide +kernel
/-- Two members' collective of one chunk of eight bytes from rank 0, its first job not started or started, or done with chunk 0 of n. -/
def cardRoot0 : Nat := 3 + 7 * 2 ^ 8 + 0x13000 * 2 ^ 64 + 0x13100 * 2 ^ 128 + 8 * 2 ^ 192 + 0x13200 * 2 ^ 256
def memberJob (id : Nat) (started : Bool) (n : Nat) : Job := { jobOf 9 0x13300 0 0 with id := id, card := BitVec.ofNat 512 cardRoot0, started := started, nchunks := n }
def collState (started : Bool) (n : Nat) (cs : List Coll) (ns : List Nat) : State :=
  onEvent ({ gs with jobs := [memberJob 9 started n, { memberJob 10 started n with ctx := 2 }], colls := cs }.updLaunch 1 fun l => { l with gtable := [(0, 0, [7]), (0, 1, [7])] }) ns
def pair (started : Bool) : Coll := { launch := 1, con := 7, cid := 0, size := 2, jobs := [(0, 9), (1, 10)], started := started }
/-- Its chunk after the first move, and after the words ns of it. -/
def begun (n : Nat) : State := ((collState true n [pair true] [1, 7, 0, 0]).chunkBegin (pair true) 0 []).getD {}
def moved (n : Nat) (ns : List Nat) : State := ((begun n).collJobs (pair true)).foldl (fun t j => t.chunkGoesOn j.id 0 ns) (begun n)
/-- `EngineEvents`: a first card, the last of two; a chunk that begins, of which a word is left, of a collective with a chunk to come, and of one that ends. -/
theorem test_meets_collectives : (∃ j, (collState false 1 [] [9]).job? 9 = some j ∧ j.kind = 9 ∧ j.ended = false ∧ j.suspended = false ∧
      (collState false 1 [] [9]).asyncDone j.ctx j.after = true ∧ (collState false 1 [] [9]).needed j = false ∧ j.started = false ∧
      (collState false 1 [] [9]).rankOf j = some 0 ∧ ((collState false 1 [] [9]).launch j.launch).conSize (cardCon j.card.toNat) = 2) ∧
    (∃ j, (collState true 1 [pair false] [9]).job? 9 = some j ∧ j.kind = 9 ∧ j.ended = false ∧ j.suspended = false ∧ (collState true 1 [pair false] [9]).needed j = false ∧
      j.started = true ∧ (collState true 1 [pair false] [9]).coll? j.launch (cardCon j.card.toNat) (cardCid j.card.toNat) = some (pair false) ∧
      (collState true 1 [pair false] [9]).collJobs (pair false) = [memberJob 9 true 1, { memberJob 10 true 1 with ctx := 2 }] ∧
      (∀ k ∈ [memberJob 9 true 1, { memberJob 10 true 1 with ctx := 2 }], cardBad k.card.toNat 2 = false ∧
        cardsAgree (memberJob 9 true 1).card.toNat k.card.toNat = true ∧ (collState true 1 [pair false] [9]).overlapped k 0 1 = false)) ∧
    (∀ n ∈ [1, 2], (collState true n [pair true] [1, 7, 0, 0]).coll? 1 7 0 = some (pair true) ∧
      (collState true n [pair true] [1, 7, 0, 0]).chunkBegin (pair true) 0 [] = some (begun n) ∧ ∀ j ∈ (collState true n [pair true] [1, 7, 0, 0]).collJobs (pair true),
        SMap.find j.cells 0 = none ∧ j.suspended = false ∧ j.mayFinish 0 = true) ∧
    (∃ x ∈ (moved 1 [0]).collJobs (pair true), (SMap.find x.cells 0).isSome = true) ∧
    (∀ x ∈ (moved 2 []).collJobs (pair true), SMap.find x.cells 0 = none ∧ x.applied.length + x.failed.length ≠ x.nchunks) ∧
    ∀ x ∈ (moved 1 []).collJobs (pair true), x.cells = [] ∧ x.applied.length + x.failed.length = x.nchunks := by
  refine ⟨⟨_, some_of (memberJob 9 false 1) ?_, ?_⟩, ⟨_, some_of (memberJob 9 true 1) ?_, ?_⟩, ?_, ?_, ?_, ?_⟩ <;> decide +kernel
/-- What a read gives, as far as it goes. -/
def readOf (r : Except (Option Nat) (State × List Byte)) : State × List Byte := match r with
  | .ok x => x
  | .error _ => ({}, [])
theorem read_of {r : Except (Option Nat) (State × List Byte)} (h : (readOf r).2 ≠ []) : r = .ok (readOf r) := by cases r <;> simp_all [readOf]
theorem except_of {ε α : Type} {r : Except ε α} (h : (match r with | .ok _ => true | .error _ => false) = true) : ∃ x, r = .ok x := by cases r <;> simp_all
/-- A matrix operation of the sequencer, of a kind, with its operand words: A at 0x13000, 256 bytes a row. -/
def mxOf (kind : Nat) : MxOp := { id := 9, ctx := 1, core := 0, half := 0, kind := kind, opA := 0x13000, opB := 256 * 2 ^ 32 }
/-- The sequencer with operations under way, and a queue of elements of 128 bytes, one of them full. -/
def mxOn (os : List MxOp) (args : List Nat) : State :=
  onEvent { (((sqn 0).writeNum ⟨1, 0⟩ 16 (0x10 + 1 * 2 ^ 32 + 128 * 2 ^ 48 + 2 ^ 96)).updBlock 1 fun b => { b with handles := [(0, ⟨0, 0⟩)] }) with mxops := os } args
/-- `MatrixLaunchEvents`: an operation whose word is bad, one of each kind that starts. -/
theorem test_meets_matrix_start : (∀ o ∈ [{ mxOf 0 with opB := 0 }, mxOf 0, mxOf 1, { mxOf 2 with opA := 15 }, { mxOf 3 with opA := 15 }, { mxOf 4 with opB := 3 }],
      (mxOn [o] [9]).mxop? 9 = some o ∧ o.started = false ∧ ((mxOn [o] [9]).core o.core).engine.held = false ∧ (mxOn [o] [9]).asyncDone o.ctx o.after = true ∧
      (mxOn [o] [9]).mxFirst o = true) ∧
    ({ mxOf 0 with opB := 0 }).badWord = true ∧ (∀ o ∈ [mxOf 0, mxOf 1, { mxOf 2 with opA := 15 }, { mxOf 3 with opA := 15 }, { mxOf 4 with opB := 3 }], o.badWord = false) ∧
    (∃ r, (mxOn [mxOf 0] [9]).mxRanges (mxOf 0) false = .ok r) ∧ (∃ r, (mxOn [{ mxOf 4 with opB := 3 }] [9]).mxRanges { mxOf 4 with opB := 3 } true = .ok r) ∧
    (mxOf 1).begun = false ∧ ∃ r, (mxOn [mxOf 1] [9]).mxStructure (mxOf 1) (mxOf 1).opA [] = .ok r := by
  refine ⟨?_, ?_, ?_, except_of ?_, except_of ?_, ?_, except_of ?_⟩ <;> decide +kernel
/-- A load whose last slab has n bytes; a product, with a queue or without, that has rows read. -/
def loadRanges : MxOp := match (mxOn [mxOf 0] [9]).mxRanges (mxOf 0) false with
  | .ok r => r
  | .error _ => mxOf 0
def loading (n : Nat) : MxOp := { loadRanges with started := true, next := 7, got := List.replicate (4064 + n) 0 }
def multiplying (aq : Bool) : MxOp :=
  let o : MxOp := { mxOf 1 with opA := 0x10000, opB := if aq then 2 ^ 20 else 256 * 2 ^ 32, opB1 := if aq then 0 else 0x13000, begun := true, ranged := true, started := true }
  if aq then o else match (mxOn [o] [9]).mxExtents o [(false, 0x13000)] with
    | .ok r => r
    | .error _ => o
theorem loadRanges_id : loadRanges.id = 9 := by decide +kernel
/-- The last run of a slab. -/
theorem slab_end (o : MxOp) (i n : Nat) : ((o.slabRuns i).flatMap (runBytes 32)).drop (4064 + n) = (runBytes 32 ((o.slabRuns i).getLastD 0)).drop n := by
  obtain ⟨g, hg⟩ : ∃ g : Nat → W64, o.slabRuns i = (List.range 128).map g := by unfold MxOp.slabRuns; exact ⟨_, rfl⟩
  rw [hg, List.range_succ, List.map_append, List.flatMap_append, List.drop_append]
  have : (((List.range 127).map g).flatMap (runBytes 32)).length = 4064 := by
    simp [List.length_flatMap, runBytes, Function.comp_def]
  rw [List.drop_eq_nil_of_le (by omega), this]
  simp
theorem slab_of (n m : Nat) (hm : m ≠ 0) (h : (readOf ((mxOn [loading n] [9, 1]).mxRead (loading n) (nextWords 1 ((runBytes 32 (((loading n).slabRuns 7).getLastD 0)).drop n)) [])).2.length = m) :
    ∃ t bs, (mxOn [loading n] [9, 1]).mxFill (loading n) (((loading n).slabRuns 7).flatMap (runBytes 32)) 1 [] = .ok (t, bs) ∧ bs.length = 4064 + n + m := by
  have hg : (loading n).got = List.replicate (4064 + n) 0 := by unfold loading; rfl
  unfold State.mxFill
  rw [hg, List.length_replicate, slab_end]
  have h' := read_of (r := (mxOn [loading n] [9, 1]).mxRead (loading n) (nextWords 1 ((runBytes 32 (((loading n).slabRuns 7).getLastD 0)).drop n)) []) (by rintro h'; rw [h'] at h; exact hm h.symm)
  rw [h']
  exact ⟨_, _, rfl, by rw [List.length_append, h, List.length_replicate]⟩
/-- `MatrixLaunchEvents`: the last word but one and the last word of a slab; a row of A from memory and from a queue. -/
theorem test_meets_slabs : ∀ n ∈ [24, 28], (mxOn [loading n] [9, 1]).mxop? 9 = some (loading n) ∧ (loading n).kind = 0 ∧ (loading n).started = true ∧
      (loading n).stopped = false ∧ (loading n).fail = 0 ∧ (loading n).next < (loading n).total ∧ ((mxOn [loading n] [9, 1]).core 0).engine.held = false ∧
      ∃ t bs, (mxOn [loading n] [9, 1]).mxFill (loading n) (((loading n).slabRuns 7).flatMap (runBytes 32)) 1 [] = .ok (t, bs) ∧ bs.length = 4064 + n + 4 := by
  intro n hn
  refine ⟨by unfold State.mxop? mxOn onEvent; simp [loading, loadRanges_id], ?_, rfl, ?_, ?_, ?_, ?_, slab_of n 4 (by decide) ?_⟩ <;> revert n <;> decide +kernel
theorem test_meets_rows : (∀ q ∈ [true, false], (mxOn [multiplying q] [9, 1]).mxop? 9 = some (multiplying q) ∧ (multiplying q).kind = 1 ∧ (multiplying q).started = true ∧
      (multiplying q).stopped = false ∧ (multiplying q).fail = 0 ∧ ((mxOn [multiplying q] [9, 1]).core 0).engine.held = false ∧
      (multiplying q).next + (multiplying q).rows.length < (multiplying q).total ∧ (multiplying q).rows.length < (multiplying q).ahead ∧ (multiplying q).aq = q) ∧
    (readOf ((mxOn [multiplying true] [9, 1]).mxPop (multiplying true))).2 ≠ [] ∧
    (readOf ((mxOn [multiplying false] [9, 1]).mxFill (multiplying false) (runBytes 128 0x13000) 1 [])).2 ≠ [] := by
  refine ⟨?_, ?_, ?_⟩ <;> decide +kernel
/-- A product with a row read; a save and a restore that lack four bytes of row n. -/
def rowRead : MxOp := { multiplying false with rows := [List.replicate 128 0x38] }
def movePages (kind : Nat) : SMap Loc × SMap Nat := match (mxOn [mxOf kind] [9]).mxRanges (mxOf kind) (kind == 4) with
  | .ok r => (r.pages, r.extents)
  | .error _ => ([], [])
def moving (kind n : Nat) : MxOp := { mxOf kind with opB := 3, started := true, next := n, got := List.replicate 1020 0, pages := (movePages kind).1, extents := (movePages kind).2 }
def movedOn (kind n : Nat) : State := ((mxOn [moving kind n] [9, 1]).mxCharge (moving kind n)).mxMove 9 false 0 []
theorem dot_zero (a : List Int) (n : Nat) : dot a (List.replicate n 0) = 0 := by
  unfold dot
  have : ∀ l : List (Int × Int), (∀ x ∈ l, x.2 = 0) → ∀ z, l.foldl (fun n x => n + x.1 * x.2) z = z := by
    intro l
    induction l with
    | nil => exact fun _ _ => rfl
    | cons x l ih => intro h z; rw [List.foldl_cons, h x (by simp), mul_zero, add_zero]; exact ih (fun y hy => h y (by simp [hy])) z
  exact this _ (fun x hx => List.eq_of_mem_replicate (List.of_mem_zip hx).2) 0
/-- Planes that nothing has written fail no row check. -/
theorem macro_clean {s : State} {o : MxOp} (h : s.planes = [] ∧ s.sums = [] ∧ o.bf = false) (a : List Int) (p g cg : Nat) : s.macroBad o a p g cg = false := by
  have hc : ∀ c, codeInt false (0 : BitVec 2048) c = 0 := by
    intro c
    have : getByte (0 : BitVec 2048) c = 0 := by unfold getByte; simp
    unfold codeInt; rw [if_neg (by decide), this]; decide
  have hr : s.planeRows o.core p g = List.replicate 128 0 := by
    unfold State.planeRows; rw [h.1]; exact List.map_const' ..
  have hs : (List.range 128).map (fun k => SMap.get (0 : Int) s.sums (planeKey o.core p (128 * g + k) * 8 + cg)) = List.replicate 128 0 := by
    rw [h.2.1]; exact List.map_const' ..
  unfold State.macroBad
  rw [hs, hr, h.2.2]
  simp only [List.map_replicate, hc, dot_zero]
  have : ∀ n, ((List.range n).map fun _ => (0 : Int)).foldl (· + ·) 0 = 0 := by
    intro n; rw [← List.sum_eq_foldl]; simp
  rw [this]; rfl
/-- `MatrixLaunchEvents`: a row that is written, and the tile's row that is read for it; an operation that ends, with a cause, done, or with its last row or
the last but one; a stop with no operation begun and with one. -/
theorem test_meets_matrix_ends :
    ((mxOn [rowRead] [9]).mxop? 9 = some rowRead ∧ rowRead.stopped = false ∧ (∃ r, rowRead.rows = [r] ∧ (mxOn [rowRead] [9]).rowBad rowRead r = false) ∧ rowRead.scales = [] ∧
      (mxOn [rowRead] [9, 4]).accPoison (rowRead.accRow (rowRead.next + rowRead.promo.length)) = 0 ∧ rowRead.promo.length < rowRead.rows.length ∧
      (mxOn [rowRead] [9]).accPoison (rowRead.core * 1024 + rowRead.tileNo rowRead.tile * 256 + rowRead.next) = 0) ∧
    (∀ o ∈ [{ mxOf 0 with started := true, fail := 8 }, { mxOf 0 with started := true, next := 8 }, { mxOf 1 with started := true, next := 1 },
        { mxOf 2 with started := true }, { mxOf 3 with started := true }], (mxOn [o] [9]).mxop? 9 = some o ∧ o.started = true ∧ o.stopped = false ∧
      (o.fail ≠ 0 ∨ o.kind ∈ [0, 1] ∧ o.next = o.total ∨ o.kind = 2 ∨ o.kind = 3 ∧ ((mxOn [o] [9]).core o.core).engine.held = false)) ∧
    (∀ x ∈ [(4, 254), (5, 255)], (mxOn [moving x.1 x.2] [9, 1]).mxop? 9 = some (moving x.1 x.2) ∧ (moving x.1 x.2).fail = 0 ∧
      ((movedOn x.1 x.2).mxop? 9).any (fun o => o.fail == 0 && o.next == x.2 + 1 && !((movedOn x.1 x.2).core o.core).engine.held) = true) ∧
    ∀ l ∈ [[], [{ mxOf 3 with begun := true }]], ((mxOn l [0]).updCore 0 fun k => { k with engine := { k.engine with held := true } }).mxops.filter (fun (o : MxOp) => o.core == 0 &&
      o.begun && !o.stopped && o.fail == 0) = l ∧ (∀ o ∈ l, MxOp.finishing o = false) := by
  refine ⟨⟨?_, ?_, ⟨_, rfl, ?_⟩, ?_⟩, ?_, ?_, ?_⟩
  case refine_3 =>
    have hp : (mxOn [rowRead] [9]).poison = [] := by decide +kernel
    unfold State.rowBad
    rw [hp]
    simp [macro_clean (s := mxOn [rowRead] [9]) (o := rowRead) (by decide +kernel)]
  all_goals decide +kernel
/-- A queue of VF 0 that serves a packet. -/
def servedQueue (p : Nat) : Queue := { en := true, thread := some 0, qsize := 1, prod := 1, packet := some (BitVec.ofNat 512 p) }
def serve (p : Nat) (f : Queue → Queue := id) : State := onEvent (gs.updVf 0 fun x => { x with tag := 1, queues := [(0, f (servedQueue p))] }) [0, 0]
/-- A launch of one block of a group with eight vector registers, whose table of places stands at 0x13000; and one of no group. -/
def goodLaunch : Nat := 1 + 2 ^ 8 + 2 ^ 48 + 2 ^ 64 + 8 * 2 ^ 68 + 4 * 2 ^ 75 + 2 ^ 80 + 0x10000 * 2 ^ 128 + 0x13000 * 2 ^ 256
def noGroup : Nat := goodLaunch - 2 ^ 64
def launchCode (p : Nat) : Nat := match (serve p).checkLaunch 0 0 p with
  | .error c => c
  | .ok _ => 0
theorem serves_of {s : State} {t p : Nat} (h : (s.vf 0).tag ≠ 0 ∧ ((s.vf 0).queue 0).mayRun = true ∧ ((s.vf 0).queue 0).packet = some (BitVec.ofNat 512 p) ∧ p < 2 ^ 512 ∧
    (((s.vf 0).queue 0).prod - ((s.vf 0).queue 0).cons).toNat ≤ 2 ^ ((s.vf 0).queue 0).qsize ∧ ((s.vf 0).queue 0).prod ≠ ((s.vf 0).queue 0).cons ∧
    packetBad p = false ∧ field p 7 0 = t) : s.Serves 0 0 t p := by
  rcases h with ⟨bound, runs, held, size, fits, due, good, kind⟩
  constructor <;> assumption
/-- The same with a second queue, of priority r, that serves a LAUNCH too. -/
def serveTwo (r : Nat) : State := (serve goodLaunch).updVf 0 fun x => { x with queues := x.queues ++ [(1, { servedQueue goodLaunch with thread := some 1, prio := r })] }
/-- `MatrixLaunchEvents`: a LAUNCH that is accepted, one that another queue goes before or not, and one rejected with code 2. -/
theorem test_meets_launch : (∀ p ∈ [goodLaunch, noGroup], (serve p).Serves 0 0 1 p ∧ (serve p).arg 0 = 0 ∧ (serve p).arg 1 = 0 ∧ (serve p).serving 0 0 p = serve p ∧
      (((serve p).vf 0).queue 0).gated = false ∧ ((serve p).vf 0).funded = true ∧ ((serve p).part ((serve p).vf 0).tag).reshaping = false ∧
      (serve p).frontWaits 0 0 ([(field p 312 256, 8 * min 4096 (field p 92 80)), (field p 376 320, 8 * field p 123 115)] ++
        (if field p 504 448 = 0 then [] else [(field p 504 448, 512)])) = none) ∧
    (∃ x, (serve goodLaunch).checkLaunch 0 0 goodLaunch = .ok x) ∧ (serve goodLaunch).outranked 0 0 = false ∧
    (∀ r ∈ [0, 7], (serveTwo r).Serves 0 0 1 goodLaunch ∧ (serveTwo r).serving 0 0 goodLaunch = serveTwo r ∧ (serveTwo r).outranked 0 0 = (r == 7)) ∧ (serve noGroup).checkLaunch 0 0 noGroup = .error 2 := by
  refine ⟨fun p hp => ⟨serves_of ?_, ?_⟩, except_of ?_, ?_, fun r hr => ⟨serves_of ?_, ?_⟩, ?_⟩
  any_goals decide +kernel
  any_goals (revert p; decide +kernel)
  all_goals (revert r; decide +kernel)
/-- `MatrixLaunchEvents`: a spawn of one block that is accepted; a stopped block that re-enters, and a pending block with a seat. -/
theorem test_meets_spawn : (∃ s : State, ∃ j r u, s.job? (s.arg 0) = some j ∧ j.kind = 8 ∧ (s.part (s.launch j.launch).tag).reshaping = false ∧
      s.asyncDone j.ctx j.after = true ∧ s.engStruct j j.opA 32 32 s.ev.bytes = .ok r ∧ r = 0 ∧ ((s.spawnBox j r).1.structPackets j j.opA 32 32).failList j (s.spawnBox j r).2.2 = some u ∧
      s.spawnCause (s.launch j.launch) (field r 226 224 + 1) ((field r 229 227 + 1) * 8) 0 0 0 = 0 ∧ s.coreFor (s.launch j.launch).tag (s.launch j.launch).places 0 = some 0) ∧
    (∃ s : State, s.coreFailed (s.arg 0) = false ∧ s.nextStopped (s.arg 0) = some 1 ∧
      s.coreFor (s.launch (s.block 1).launch).tag (s.launch (s.block 1).launch).places (s.block 1).b = some (s.block 1).core ∧ (s.reenterBlock 1).isSome = true) ∧
    ∃ s : State, s.coreFailed (s.arg 0) = false ∧ s.nextStopped (s.arg 0) = none ∧ (s.core (s.arg 0)).pending.find? s.blockRuns = some 7 ∧
      (s.launch (s.block 7).launch).seq = 0 ∧ (s.seatFresh (s.arg 0) (s.block 7).groups (s.block 7).vregs (s.block 7).spsize).isSome = true := by
  let l (s : State) : State := s.updLaunch 1 fun l => { l with places := [(0, 0, 0)] }
  refine ⟨⟨l (withJobs [jobOf 8 0x13000 0 0] [9]), jobOf 8 0x13000 0 0, 0, _, ?_, ?_, ?_, ?_, ?_, ?_, some_of ({}, false) ?_, ?_⟩,
    ⟨l (onEvent (gs.updBlock 1 fun b => { b with st := .stopped }) [0]), ?_⟩,
    onEvent { gs.updCore 0 (fun k => { k with pending := [7] }) with blocks := SMap.put gs.blocks 7 { launch := 1 } } [0], ?_⟩ <;> decide +kernel
/-- A port to device 9 that takes flits under key 5, with n flits unacknowledged, a switch announced or not; it has sent k of them again. -/
def linkPort (sent : List Sent) (rswitch : Option Nat) (resent : Nat) : Port :=
  { ctl := 0x13, up := true, keys := [(0, 5), (2, 5)], replay := sent, rswitch := rswitch, resent := resent }
def unacked : Sent := { seq := 0, ftype := 8, payload := [] }
/-- The state of device 4 with that port 0, and an arrival with a payload. -/
def linkState (p : Port) : State := { gs with module := { gs.module with devId := 4 }, ports := [(0, p)], peers := [(9, { asks := [⟨7, 1, 0, 0, 0⟩] })] }
/-- A payload of numbers in eight bytes each, and the flit of it that a port sends. -/
def payloadOf (ns : List Nat) : List Byte := (ns.flatMap (natBytes 8) ++ List.replicate 232 0).take 232
theorem payload_length (ns : List Nat) : (payloadOf ns).length = 232 := by
  unfold payloadOf
  rw [List.length_take, List.length_append, List.length_replicate]
  omega
def flitOn (ftype : Nat) (ns : List Nat) : Sent := { seq := 0, ftype := ftype, sdev := 9, payload := payloadOf ns }
def arrival (p : Port) (ftype : Nat) (ns more : List Nat) : State := onEvent (linkState p) ([0, 1] ++ more) (p.wire (flitOn ftype ns))
theorem arrives (p : Port) (hp : ∃ l w n, p = linkPort l w n ∧ (w = none ∨ w = some 5)) {ftype : Nat} (hf : 0 < ftype ∧ ftype ≤ 11) (ns more : List Nat) : (arrival p ftype ns more).Arrives 0 ftype (flitOf (p.wire (flitOn ftype ns))) (payloadOf ns) ∧
      (flitOf (p.wire (flitOn ftype ns))).ptag = 0 ∧ (flitOf (p.wire (flitOn ftype ns))).seq = 0 := by
  obtain ⟨l, w, n, rfl, hw⟩ := hp
  have hport : (arrival (linkPort l w n) ftype ns more).port 0 = linkPort l w n := rfl
  have h := wire_fate (linkPort l w n) (linkPort l w n) (flitOn ftype ns) 5 rfl rfl rfl (by rcases hw with rfl | rfl <;> rfl) (by unfold flitOn; dsimp only; omega)
    (payload_length ns) (show 0 < 128 by decide) (show 9 < 32 by decide)
  rw [if_neg (by unfold flitOn; dsimp only; omega)] at h
  exact ⟨⟨rfl, by decide, by rw [hport]; rfl, rfl, h.2.1, by rw [hport]; exact h.2.2.2.2⟩, h.2.2.1, h.1⟩
/-- `LinkEvents`: a flit of every type arrives. -/
theorem test_meets_flits : ∀ t, 0 < t ∧ t ≤ 11 → ∀ app, ∃ s f pl, State.Arrives s 0 t f pl ∧ f.ptag = 0 ∧ pl = payloadOf [app * 2 ^ 32] := fun _ ht app =>
  ⟨_, _, _, (arrives (linkPort [] none 0) ⟨_, _, _, rfl, .inl rfl⟩ ht [app * 2 ^ 32] []).1,
    (arrives (linkPort [] none 0) ⟨_, _, _, rfl, .inl rfl⟩ ht [app * 2 ^ 32] []).2.1, rfl⟩
theorem test_meets_flit_kinds : (orderingOf (payloadOf [0])).app = 0 ∧ (orderingOf (payloadOf [2 ^ 32])).app = 1 ∧
    (∀ i, i < 32 → i ≠ 4 → bytesNat (((payloadOf [7]).drop (80 + 4 * i)).take 4) = 0) ∧ bytesNat ((payloadOf [7]).take 8) = 7 ∧
    (((linkState (linkPort [] none 0)).taking 0).peer 9).asks.find? (fun a => a.ident == 7) = some ⟨7, 1, 0, 0, 0⟩ := by
  refine ⟨?_, ?_, ?_, ?_, ?_⟩ <;> decide +kernel
/-- `LinkEvents`: a marker for a switch point ahead, and one while another is announced; a NAK with nothing to send again, sixteen times done, and not;
management of each kind. -/
theorem test_meets_link_control : (∃ s f pl, State.Arrives s 0 7 f pl ∧ ((s.port 0).take).rswitch = none ∧ bytesNat (pl.take 4) ≠ f.seq ∧
      notBehind (bytesNat (pl.take 4)) f.seq = true ∧ notBehind ((f.seq + 256) % 2 ^ 32) (bytesNat (pl.take 4)) = true) ∧
    (∃ s f pl, State.Arrives s 0 7 f pl ∧ ((s.port 0).take).rswitch = some 5) ∧
    (∀ x ∈ [([], 0), ([unacked], 16), ([unacked], 15)], ∃ s f pl, State.Arrives s 0 9 f pl ∧
      (((s.port 0).take).acked ((bytesNat (pl.take 4) + 2 ^ 32 - 1) % 2 ^ 32)).replay = x.1 ∧
      (((s.port 0).take).acked ((bytesNat (pl.take 4) + 2 ^ 32 - 1) % 2 ^ 32)).resent = x.2) ∧
    ∀ k ∈ [1, 2, 3], ∃ s f pl, State.Arrives s 0 11 f pl ∧ f.ptag = 0 ∧ s.arg 2 = k := by
  have h7 := arrives (linkPort [] none 0) ⟨_, _, _, rfl, .inl rfl⟩ (ftype := 7) (by decide) [256] []
  refine ⟨⟨_, _, _, h7.1, rfl, ?_⟩, ⟨_, _, _, (arrives (linkPort [] (some 5) 0) ⟨_, _, _, rfl, .inr rfl⟩ (ftype := 7) (by decide) [9] []).1, rfl⟩, ?_,
    fun k _ => ⟨_, _, _, (arrives (linkPort [] none 0) ⟨_, _, _, rfl, .inl rfl⟩ (ftype := 11) (by decide) [] [k]).1,
      (arrives (linkPort [] none 0) ⟨_, _, _, rfl, .inl rfl⟩ (ftype := 11) (by decide) [] [k]).2.1, rfl⟩⟩
  · rw [h7.2.2]; decide +kernel
  · intro x hx
    refine ⟨_, _, _, (arrives (linkPort x.1 none x.2) ⟨_, _, _, rfl, .inl rfl⟩ (ftype := 9) (by decide) [0] []).1, ?_⟩
    have hp : (arrival (linkPort x.1 none x.2) 9 [0] []).port 0 = linkPort x.1 none x.2 := rfl
    rw [hp]
    revert x; decide +kernel
/-- `LinkEvents`: flits that are discarded, for each reason. -/
theorem test_meets_discards : (∀ b, ∀ p : Port, p.fate false (flitOf b) = .crc) ∧
    (∃ s : State, s.arg 0 = 0 ∧ (s.port 0).up = true ∧ (s.port 0).fate (s.arg 1 == 1) (flitOf s.ev.bytes) = .auth) ∧
    (∃ s : State, s.arg 0 = 0 ∧ (s.port 0).up = true ∧ (s.port 0).fate (s.arg 1 == 1) (flitOf s.ev.bytes) = .bad) ∧
    ∃ s : State, s.arg 0 = 0 ∧ (s.port 0).up = true ∧ (s.port 0).fate (s.arg 1 == 1) (flitOf s.ev.bytes) = .again := by
  refine ⟨fun _ _ => rfl, ⟨onEvent (linkState { linkPort [] none 0 with keys := [] }) [0, 1] [], by decide +kernel⟩, ⟨arrival (linkPort [] none 0) 0 [] [], rfl, rfl, ?_⟩,
    onEvent (linkState { linkPort [] none 0 with rxseq := 1 }) [0, 1] [], by decide +kernel⟩
  exact (wire_fate (linkPort [] none 0) (linkPort [] none 0) (flitOn 0 []) 5 rfl rfl rfl rfl (by decide) (payload_length []) (show 0 < 128 by decide)
    (show 9 < 32 by decide)).2.2.2.2.trans (if_pos (.inl rfl))
/-- `LinkEvents`: a marker that is due, without a next key and with one; a stamp; a link that trains and one that is up again. -/
theorem test_meets_link_keys : (∀ k ∈ [false, true], ∃ s : State, s.arg 0 = 0 ∧ (s.port 0).up = true ∧ (s.port 0).markerDue = true ∧ (s.port 0).nextld = k ∧
      (s.port 0).replay.length < 512) ∧
    (∃ s : State, s.orderedPort (s.arg 0) = some 0 ∧ (s.port 0).ready = true ∧ s.orderHeld (s.arg 0) 0 = false) ∧
    (∃ s : State, s.arg 0 = 0 ∧ (s.port 0).up = false ∧ (s.port 0).ctl.getLsbD 0 = true ∧ (s.port 0).peer = s.arg 2 ∧ s.arg 1 < 32) ∧
    ∀ x ∈ [(true, true), (false, false)], ∃ s : State, s.arg 0 = 0 ∧ (s.port 0).ctl.getLsbD 0 = true ∧ (s.port 0).down = x.1 ∧ (s.port 0).up = x.2 ∧
      SMap.find (s.port 0).keys (s.port 0).ks.toNat = some 5 ∧ s.portsTo (s.port 0).peer ≠ [] := by
  refine ⟨fun k hk => ⟨onEvent (linkState { linkPort [] none 0 with ic := 0xFFFF0000, nextld := k }) [0], ?_⟩, ⟨onEvent (linkState (linkPort [] none 0)) [9], by decide +kernel⟩,
    ⟨onEvent (linkState { linkPort [] none 0 with up := false }) [0, 31, 9], by decide +kernel⟩,
    fun x hx => ⟨onEvent { linkState { linkPort [] none 0 with down := x.1, up := x.2 } with
      ports := [(0, { linkPort [] none 0 with down := x.1, up := x.2 }), (1, linkPort [] none 0)] } [0], ?_⟩⟩
  · revert k; decide +kernel
  · revert x; decide +kernel
/-- A state in which page 1 of partition 1 is exported here under index 7, has moved n times, is pinned or not. -/
def exporting (n : Nat) (pin : Bool) (args : List Nat) : State :=
  onEvent ({ linkState (linkPort [] none 0) with exports := [(7, { wr := true, otag := 1, frame := 3, loc := 4, moves := n, pin := pin, vpage := 0x804 })] }.updPart 1 fun p =>
    { p with xdRunning := some 0x8040009 }) args
/-- `LinkEvents`: moves asked for of a page that is mapped, one that is not exported, one that is, refused and granted; a page that comes here; an unpinning. -/
theorem test_meets_moves : (∃ s v, (State.part s (s.arg 1)).xdRunning = some v ∧ s.arg 0 = 0 ∧ ∃ l e h, s.walk (s.part (s.arg 1)) (field (BitVec.toNat v) 56 16 * 65536) = .leaf l e h ∧
      e.testBit 0 = true) ∧
    (∃ s v, (State.part s (s.arg 1)).xdRunning = some v ∧ s.arg 0 = 0 ∧ (∀ l e h, s.walk (s.part (s.arg 1)) (field (BitVec.toNat v) 56 16 * 65536) = .leaf l e h → e.testBit 0 = false) ∧
      (∀ t ∈ (s.part (s.arg 1)).tlb, ¬(t.lvl = 0 ∧ t.inRange (field (BitVec.toNat v) 56 16) 1 = true)) ∧ s.pageEntry (s.arg 1) (field (BitVec.toNat v) 56 16) = none) ∧
    (∀ a ∈ [0, 1], ∃ s v e, (State.part s (s.arg 1)).xdRunning = some v ∧ s.arg 0 = 0 ∧
      (∀ l e h, s.walk (s.part (s.arg 1)) (field (BitVec.toNat v) 56 16 * 65536) = .leaf l e h → e.testBit 0 = false) ∧
      (∀ t ∈ (s.part (s.arg 1)).tlb, ¬(t.lvl = 0 ∧ t.inRange (field (BitVec.toNat v) 56 16) 1 = true)) ∧
      s.pageEntry (s.arg 1) (field (BitVec.toNat v) 56 16) = some (7, e) ∧ e.moves ≠ 4 ∧ s.arg 2 = a) ∧
    (∀ n ∈ [3, 4], ∀ pin ∈ [true, false], ∃ s e, State.arg s 0 = 1 ∧ SMap.find s.exports (s.arg 1) = some e ∧ s.arg 1 < 65536 ∧ e.loc ≠ s.module.devId ∧ e.moves = n ∧ e.pin = pin) ∧
    ∀ pin ∈ [true, false], ∃ s e, State.pageEntry s (s.arg 0) (field (s.arg 1) 56 16) = some (7, e) ∧ e.pin = pin := by
  have hw : ∀ s : State, (match s.walk (s.part (s.arg 1)) 0x8040000 with | .leaf _ e _ => !e.testBit 0 | _ => true) = true →
      ∀ l e h, s.walk (s.part (s.arg 1)) (field (BitVec.toNat (0x8040009 : W64)) 56 16 * 65536) = .leaf l e h → e.testBit 0 = false := by
    intro s h l e k hl
    have : field (BitVec.toNat (0x8040009 : W64)) 56 16 * 65536 = 0x8040000 := by decide
    rw [this] at hl
    rw [hl] at h
    simpa using h
  refine ⟨⟨onEvent ((exporting 0 false []).updPart 1 fun p => { p with xdRunning := some 0x8030009 }) [0, 1], 0x8030009, by decide +kernel, by decide +kernel, false, 0x10F, 0xC018, by decide +kernel⟩,
    ⟨{ exporting 0 false [0, 1] with exports := [] }, 0x8040009, by decide +kernel, by decide +kernel, hw _ ?_, by decide +kernel, by decide +kernel⟩,
    fun a ha => ⟨exporting 3 false [0, 1, a, 5], 0x8040009, { wr := true, otag := 1, frame := 3, loc := 4, moves := 3, pin := false, vpage := 0x804 }, ?_, ?_, hw _ ?_, ?_, ?_, ?_, ?_⟩,
    fun n hn pin hp => ⟨onEvent { exporting 0 false [] with exports := [(7, { loc := 9, moves := n, pin := pin })] } [1, 7, 4, 5], { loc := 9, moves := n, pin := pin }, ?_⟩,
    fun pin hp => ⟨exporting 4 pin [1, 0x8040000], { wr := true, otag := 1, frame := 3, loc := 4, moves := 4, pin := pin, vpage := 0x804 }, ?_⟩⟩
  any_goals decide +kernel
  any_goals (revert a; decide +kernel)
  any_goals (revert pin; decide +kernel)
  revert pin; revert n; decide +kernel
/-- The state with a command in the mailbox: its number, its first parameter, and further parameters, each with its offset and length. -/
def command (s : State) (op a : Nat) (more : List (Nat × Nat × Nat)) (args : List Nat) (f : Module → Module := id) : State :=
  onEvent { s with module := f { s.module with
    mbGo := true
    mbBuf := ((0, 2, op) :: (8, 8, a) :: more).flatMap fun p => ((List.range p.2.1).zip (natBytes p.2.1 p.2.2)).map fun b => (p.1 + b.1, b.2) } } args
theorem commands_of {s : State} {op a : Nat} (h : s.module.mbGo = true ∧ s.module.mb 0 2 = op ∧ a = s.module.mb 8 8) : s.Commands op a := ⟨h.1, h.2.1, h.2.2⟩
/-- A partition's creation from tiles x and y, with n + 1 granules. -/
def creating (tag x y n : Nat) : State := command gs 1 (tag + 2 * 2 ^ 16 + n * 2 ^ 32) [(16, 2, x), (18, 2, y)] []
def tilesOf (s : State) : List Nat := (List.range 2).map fun i => tileOfWord (s.module.mb (16 + 2 * i) 2)
/-- `MailboxEvents`: a partition's number that is no number or is taken; a tile that is taken, tiles that are not connected, granules that there are not, and
a partition of tiles 5 and 6. -/
theorem test_meets_creation : (∀ tag x y n, tag < 128 → n < 2 ^ 32 → ((creating tag x y n).module.mbGo = true ∧ (creating tag x y n).module.mb 0 2 = 1) ∧
      field (tag + 2 * 2 ^ 16 + n * 2 ^ 32) 6 0 = tag ∧ field (tag + 2 * 2 ^ 16 + n * 2 ^ 32) 31 16 = 2 ∧ field (tag + 2 * 2 ^ 16 + n * 2 ^ 32) 63 32 = n) ∧
    (∀ tag ∈ [0, 65, 1, 2], (creating tag 5 6 0).module.mb 8 8 = tag + 2 * 2 ^ 16 ∧ ((tag = 0 ∨ 64 < tag ∨ (creating tag 5 6 0).isPart tag = true) ↔ tag ≠ 2)) ∧
    (∃ t ∈ tilesOf (creating 2 0 1 0), ((creating 2 0 1 0).tile t).owner ≠ 0) ∧
    (∀ y ∈ [6, 8], (∀ t ∈ tilesOf (creating 2 5 y 0), t < 648 ∧ ((creating 2 5 y 0).tile t).owner = 0 ∧ ((creating 2 5 y 0).tile t).degraded = false ∧
      ((creating 2 5 y 0).fld (fieldOfTile t)).degraded = false) ∧ (dedup (tilesOf (creating 2 5 y 0))).length = (tilesOf (creating 2 5 y 0)).length ∧
      connected (sortNat (tilesOf (creating 2 5 y 0))) = (y == 6)) ∧
    (creating 2 5 6 0).takeGranules [] (2 ^ 32) = none ∧ ((creating 2 5 6 0).takeGranules [] 1).isSome = true := by
  refine ⟨fun tag x y n ht hn => ⟨by constructor <;> rfl, ?_⟩, ?_⟩
  · simp only [field]; norm_num; omega
  · refine ⟨?_, ?_, ?_, ?_, ?_⟩ <;> decide +kernel
/-- A command about partition 1 or one that does not exist, with a count, and its ephemeris in granule e. -/
def about (op tag n e : Nat) : State := command (gs.updPart 1 fun p => { p with ephBase := BitVec.ofNat 64 (e * 2 ^ 21), ephSize := 256 }) op (tag + n * 2 ^ 32) [(16, 8, 0)] []
/-- `MailboxEvents`: a partition's last launch has its writes under way, or none. -/
theorem test_meets_destroy : ∀ k ∈ [0, 1], ∃ s : State, s.Commands 2 1 ∧ s.isPart 1 = true ∧ ((∃ l ∈ (s.endPartLaunches 1).launches, l.2.tag = 1) ↔ k = 1) := by
  refine fun k hk => ⟨{ about 2 1 0 0 with packets := if k = 0 then [] else [{ id := 0, src := { tag := 1, launch := 1 }, kind := 1, seq := 1, writes := [(⟨0, 0x13000⟩, 0)] }] }, commands_of ?_, ?_⟩ <;> revert k <;> decide +kernel
/-- `MailboxEvents`: a partition is destroyed; granules join it and leave it, as many as there are or not, and with the ephemeris or without. -/
theorem test_meets_granules : (∀ op ∈ [2, 5, 6], ∀ tag ∈ [1, 2], ∀ n ∈ [1, 2], (about op tag n 0).Commands op (tag + n * 2 ^ 32) ∧ field (tag + n * 2 ^ 32) 6 0 = tag ∧
      field (tag + n * 2 ^ 32) 63 32 = n ∧ (about op tag n 0).isPart tag = (tag == 1)) ∧
    ((about 5 1 1 0).takeGranules [] 1).isSome = true ∧ (about 5 1 1 0).takeGranules [] (2 ^ 32) = none ∧
    ∀ e ∈ [0, 1], ∃ g, ((about 6 1 1 e).part 1).grans.filter (fun g => decide ((about 6 1 1 e).module.mb 16 8 ≤ g.1) && decide (g.1 < (about 6 1 1 e).module.mb 16 8 + 1)) = [g] ∧
      (e = 0 ↔ ((about 6 1 1 e).part 1).ephBase.toNat / 2 ^ 21 ≤ g.1 ∧ g.1 ≤ (((about 6 1 1 e).part 1).ephBase.toNat + ((about 6 1 1 e).part 1).ephSize.toNat - 1) / 2 ^ 21) ∧
      (e = 1 ↔ g.1 < ((about 6 1 1 e).part 1).ephBase.toNat / 2 ^ 21 ∨ (((about 6 1 1 e).part 1).ephBase.toNat + ((about 6 1 1 e).part 1).ephSize.toNat - 1) / 2 ^ 21 < g.1) := by
  refine ⟨fun op ho tag ht n hn => ⟨commands_of ?_, ?_⟩, ?_, ?_, fun e he => ⟨(0, { site := 0, dgran := 0 }), ?_⟩⟩
  any_goals decide +kernel
  any_goals (revert n; revert tag; revert op; decide +kernel)
  revert e; decide +kernel
/-- A command with parameter a in a state with VFs: VF 0 of partition 1 at port 0, n more, VF 9 unbound; a launch runs on VF 0's queue 0 or not. -/
def functions (op a n tdi launch : Nat) : State :=
  command { gs with vfs := (0, { tag := 1, tdi := tdi, queues := [(0, { launch := launch })] }) :: (List.range n).map fun i => (10 + i, { tag := 2 }) } op a [] []
/-- `MailboxEvents`: a VF that is bound; one for a partition with eight, for a port with 64, for no partition, and one that is bound; a VF that works, one that
is not bound, one that is, locked or not. -/
theorem test_meets_functions : (∀ v ∈ [0, 9], ∀ tag ∈ [1, 2, 3], (functions 3 (v + tag * 2 ^ 16) 8 0 0).Commands 3 (v + tag * 2 ^ 16) ∧ field (v + tag * 2 ^ 16) 8 0 = v ∧
      field (v + tag * 2 ^ 16) 22 16 = tag ∧ field (v + tag * 2 ^ 16) 26 24 = 0 ∧ (v + tag * 2 ^ 16).testBit 23 = false ∧
      (((functions 3 (v + tag * 2 ^ 16) 8 0 0).vf v).tag = 0 ↔ v = 9)) ∧
    ((functions 3 0x20009 8 0 0).vfs.filter fun x => x.2.tag == 2).length = 8 ∧
    (((functions 3 0x10009 8 0 0).vfs.filter fun x => x.2.tag == 1).length < 8 ∧ (functions 3 0x10009 8 0 0).portVfs 0 < 64 ∧ (functions 3 0x10009 8 0 0).isPart 1 = true) ∧
    (((functions 3 0x30009 8 0 0).vfs.filter fun x => x.2.tag == 3).length < 8 ∧ (functions 3 0x30009 8 0 0).isPart 3 = false) ∧
    (((functions 3 0x10009 63 0 0).vfs.filter fun x => x.2.tag == 1).length < 8 ∧ 64 ≤ (functions 3 0x10009 63 0 0).portVfs 0) ∧
    (∀ v ∈ [0, 9], (functions 4 v 0 1 0).Commands 4 v ∧ field v 8 0 = v) ∧ (∃ q ∈ ((functions 4 0 0 0 1).vf 0).queues, q.2.launch ≠ 0) ∧
    (∀ v ∈ [0, 9], ∀ tdi ∈ [0, 1], (∀ q ∈ ((functions 4 v 0 tdi 0).vf v).queues, q.2.launch = 0) ∧ (((functions 4 v 0 tdi 0).vf v).tag = 0 ↔ v = 9) ∧
      (v = 0 → ((functions 4 v 0 tdi 0).vf v).locked = (tdi == 1))) := by
  refine ⟨fun v hv tag ht => ⟨commands_of ?_, ?_⟩, ?_, ?_, ?_, ?_, fun v hv => ⟨commands_of ?_, ?_⟩, ?_, ?_⟩
  any_goals decide +kernel
  any_goals (revert tag; revert v; decide +kernel)
  all_goals (revert v; decide +kernel)
/-- Page 0 of partition tag, or one that is not mapped, for index i; index 7 is taken. -/
def exportOf (op i tag va : Nat) : State := command { gs with exports := [(7, {})] } op (i + tag * 2 ^ 20) [(16, 8, va)] []
/-- `MailboxEvents`: an index that is none or is taken, no partition, no page, and a page; an index that is free, and one that is not. -/
theorem test_meets_exports : (∀ op ∈ [8, 9], ∀ i ∈ [65536, 7, 65535], ∀ tag ∈ [1, 2], (exportOf op i tag 0).Commands op (i + tag * 2 ^ 20) ∧ field (i + tag * 2 ^ 20) 19 0 = i ∧
      field (i + tag * 2 ^ 20) 26 20 = tag ∧ (SMap.find (exportOf op i tag 0).exports i = none ↔ i ≠ 7) ∧ (exportOf op i tag 0).isPart tag = (tag == 1)) ∧
    (exportOf 8 65535 1 0x8020000).leafFrame 1 ((exportOf 8 65535 1 0x8020000).module.mb 16 8) = none ∧
    (exportOf 8 65535 1 0).leafFrame 1 ((exportOf 8 65535 1 0).module.mb 16 8) = some 0 := by
  refine ⟨fun op ho i hi tag ht => ⟨commands_of ?_, ?_⟩, by decide +kernel, by decide +kernel⟩ <;> revert tag <;> revert i <;> revert op <;> decide +kernel
/-- A shared region for a set of members with n granules; a region of one granule, to fill from an offset. -/
def region (a n : Nat) : State := command gs 10 a [(16, 4, n)] []
def filling (num off len fail : Nat) : State := command { gs with regions := [(3, { members := [1], grans := [(0, 1)] })] } 11 num [(16, 8, off), (24, 4, len), (32, 8, 0)] [fail]
/-- `MailboxEvents`: a member that does not exist, too many granules, and one; no region, a range beyond it, a host read that fails, and a range up to its end. -/
theorem test_meets_regions : (∀ a ∈ [1, 2], ∀ n ∈ [1, 2 ^ 32 - 1], (region a n).Commands 10 a ∧ (((List.range 64).filter fun i => a.testBit i).map (· + 1) = [a]) ∧
      (region a n).isPart a = (a == 1) ∧ ((region a n).part a).region = 0 ∧ (((region a n).takeGranules [] ((region a n).module.mb 16 4)).isSome = true ↔ n = 1)) ∧
    (∀ num ∈ [3, 4], ∀ off ∈ [2 ^ 21 - 4, 2 ^ 21 - 3], ∀ fail ∈ [0, 1], (filling num off 4 fail).Commands 11 num ∧
      (SMap.find (filling num off 4 fail).regions (field num 31 0) = none ↔ num = 4) ∧ (filling num off 4 fail).module.mb 16 8 = off ∧
      (filling num off 4 fail).module.mb 24 4 = 4 ∧ (1 * 2 ^ 21 < off + 4 ↔ off = 2 ^ 21 - 3) ∧ (filling num off 4 fail).arg 0 = fail) := by
  refine ⟨fun a ha n hn => ⟨commands_of ?_, ?_⟩, fun num hu off ho fail hf => ⟨commands_of ?_, ?_⟩⟩
  any_goals (revert n; revert a; decide +kernel)
  all_goals (revert fail; revert off; revert num; decide +kernel)
/-- The module's commands in a state that is device 4, knows device 9, has field 3 degraded and port 1 enabled to device 9. -/
def moduleCommand (op a : Nat) : State :=
  command ({ linkState (linkPort [] none 0) with ports := [(1, { linkPort [] none 0 with ctl := 0x52 })] }.updFld 3 fun x => { x with degraded := true }) op a [] []
/-- `MailboxEvents`: this device and another one; a fuse; a field that is degraded, ten slots, nine, and all fields; a port whose device has an ordering port, and one
that loses it. -/
theorem test_meets_module_commands : (∀ x ∈ [(12, 4), (12, 9), (13, 0), (14, 3), (14, 5 + 10 * 2 ^ 8), (14, 71 + 9 * 2 ^ 8), (14, 255 + 9 * 2 ^ 8), (15, 2 + 9 * 2 ^ 7 + 2 ^ 12), (15, 63)],
      (moduleCommand x.1 x.2).Commands x.1 x.2 ∧ (x.1 = 12 → (x.2 = 4 ↔ field x.2 4 0 = (moduleCommand x.1 x.2).module.devId) ∧ (x.2 = 9 →
        (SMap.find (moduleCommand x.1 x.2).peers (field x.2 4 0)).isSome = true)) ∧
      (x.1 = 14 → (x.2 = 3 ↔ ((moduleCommand x.1 x.2).fld (field x.2 7 0)).degraded = true)) ∧
      (x.1 = 15 → (x.2 = 63 ↔ x.2.testBit 12 = false) ∧ (x.2 ≠ 63 → ∃ y ∈ (moduleCommand x.1 x.2).ports, y.1 ≠ field x.2 5 0 ∧ y.2.ctl.getLsbD 6 = true ∧ y.2.peer = field x.2 11 7))) ∧
    field (5 + 10 * 2 ^ 8) 11 8 = 10 ∧ field (71 + 9 * 2 ^ 8) 7 0 = 71 ∧ field (71 + 9 * 2 ^ 8) 11 8 = 9 ∧ field (255 + 9 * 2 ^ 8) 7 0 = 255 := by
  refine ⟨fun x hx => ⟨commands_of ?_, ?_⟩, by decide⟩ <;> revert x <;> decide +kernel
/-- A reshape of partition tag in mode m that adds tile t; step k of one under way. -/
def reshaping (tag m t : Nat) : State := command gs 7 (tag + m * 2 ^ 8 + 2 ^ 16) [(16, 2, t)] []
def reshapeAt (k : Nat) (jobs : List Job) (pub : Option Bool := none) : State :=
  onEvent ({ gs with jobs := jobs }.updPart 1 fun p => { p with reshape := some { step := k, added := [1] }, pub := pub }) [1]
/-- `MailboxEvents`: no partition, modes 0, 1, 4 and 5, and a tile that joins and one that does not; a publication that ends; each step with what it waits for; a group that does not stop; a
granule whose turn it is. -/
theorem test_meets_reshape : (∀ tag ∈ [1, 2], ∀ m ∈ [0, 1, 4, 5], (reshaping tag m 1).Commands 7 (tag + m * 2 ^ 8 + 2 ^ 16) ∧ field (tag + m * 2 ^ 8 + 2 ^ 16) 6 0 = tag ∧
      field (tag + m * 2 ^ 8 + 2 ^ 16) 10 8 = m ∧ (reshaping tag m 1).isPart tag = (tag == 1) ∧ ((reshaping tag m 1).part tag).reshape = none) ∧
    (∀ t ∈ [1, 5], ((reshaping 1 1 t).reshapeBad 1 (State.readReshape (reshaping 1 1 t).module ((reshaping 1 1 t).part 1) (1 + 2 ^ 8 + 2 ^ 16)).1
      (State.readReshape (reshaping 1 1 t).module ((reshaping 1 1 t).part 1) (1 + 2 ^ 8 + 2 ^ 16)).2 = 0 ↔ t = 1)) ∧
    (∀ k < 9, ((reshapeAt k []).part ((reshapeAt k []).arg 0)).pub = none ∧ ((reshapeAt k []).part ((reshapeAt k []).arg 0)).reshape = some { step := k, added := [1] }) ∧
    ((reshapeAt 1 [] (some true)).part ((reshapeAt 1 [] (some true)).arg 0)).pub = some true ∧
    (∃ b ∈ (reshapeAt 2 []).partBlocks 1, b.2.st = .resident) ∧
    (∀ b ∈ (({ reshapeAt 2 [] with blocks := [] } : State)).partBlocks 1, b.2.st ≠ .resident) ∧
    (∀ j ∈ (reshapeAt 3 [{ copyJob with flight := [0], data := [(0, [])] }]).jobs, (reshapeAt 3 [{ copyJob with flight := [0], data := [(0, [])] }]).partJob 1 j = true ∧
      (∀ k ∈ j.flight, (SMap.find j.data k).isSome = true) ∧ j.cells = []) ∧
    (reshapeAt 4 []).trafficOf 1 { step := 4, added := [1] } = false := by
  refine ⟨fun tag ht m hm => ⟨commands_of ?_, ?_⟩, ?_, ?_, ?_, ?_, ?_, ?_, ?_⟩
  any_goals decide +kernel
  all_goals (revert m; revert tag; decide +kernel)
theorem test_meets_scrub : (∃ s : State, ∃ c, s.ctx? (s.arg 0) = some c ∧ (s.part (s.launch c.launch).tag).reshape = some { step := 2, added := [1] } ∧ c.isGroup = true ∧ c.preempt = true ∧
      c.dirty = true) ∧
    ∃ s : State, s.arg 0 < granuleCount ∧ (s.gran (s.arg 0)).zp = true ∧ s.scrubTurn (s.arg 0) = true := by
  refine ⟨⟨(reshapeAt 2 []).updCur fun c => { c with preempt := true, dirty := true }, ((reshapeAt 2 []).updCur fun c => { c with preempt := true, dirty := true }).cur, ?_⟩,
    onEvent gs [1], ?_⟩ <;> decide +kernel
/-- Tile 0, row r, with its spare as n and a failed position and next step as p; core c is lost. -/
def failing (r n : Nat) (p : Option (Nat × Nat)) (args : List Nat) (lost : Nat := 999) : State :=
  onEvent ((gs.updTile 0 fun x => x.setRow r n p).updCore lost fun k => { k with lost := true }) args
/-- `ModuleEvents`: the spare's failure, a core's, at a position with a core and without; a second core's failure, a third one's; a step of the wave with a core and
without; a tile; a retire event, answered in each way, with a tile for its cores and without. -/
theorem test_meets_failures : (∀ lost ∈ [15, 999], ((failing 1 0 none [0, 1, 7] lost).tile 0).spare 1 = 0 ∧
      ((failing 1 0 none [0, 1, 7] lost).updTile 0 fun x => x.setRow 1 1 (some (7, 7))).coreAtPos 0 1 7 = if lost = 15 then none else some 15) ∧
    ((failing 0 0 none [0, 0, 8]).tile 0).spare 0 = 0 ∧
    (((failing 0 1 (some (3, 7)) [0, 0, 2]).tile 0).spare 0 = 1 ∧ ((failing 0 1 (some (3, 7)) [0, 0, 2]).tile 0).fail 0 = some (3, 7) ∧
      (failing 0 1 (some (3, 7)) [0, 0, 2]).coreAtPos 0 0 2 = some 2 ∧ (failing 0 1 (some (3, 7)) [0, 0, 2]).coreAtPos 0 0 3 = some 3) ∧
    (((failing 0 2 none [0, 0, 2]).tile 0).spare 0 = 2 ∧ (failing 0 2 none [0, 0, 2]).coreAtPos 0 0 2 = some 2) ∧
    (∀ lost ∈ [15, 999], ((failing 1 1 (some (7, 7)) [0, 1] lost).tile 0).fail 1 = some (7, 7) ∧
      (failing 1 1 (some (7, 7)) [0, 1] lost).coreAtPos 0 1 7 = if lost = 15 then none else some 15) ∧
    (gs.tile 647).degraded = false ∧
    ∀ k < 4, ∀ ts ∈ [[0], [0, 5, 100]], ∃ s : State, s.arg 0 = 1 ∧ (s.part 1).retire = some ⟨1, 0, 1⟩ ∧ (s.part 1).reshape = none ∧ (s.part 1).retireAns = k ∧
      s.remapTile 1 (tileOfCore 0) ((s.ev.args.drop 1).take 1) = if ts = [0] then some 1 else none := by
  refine ⟨?_, ?_, ?_, ?_, ?_, ?_, fun k hk ts ht => ⟨onEvent (gs.updPart 1 fun p => { p with tiles := ts, retire := some ⟨1, 0, 1⟩, retireAns := k }) [1], ?_⟩⟩
  any_goals decide +kernel
  revert ts; revert k; decide +kernel
/-- `ModuleEvents`: an interval of a tile; the sixteenth sensor of a tile; a field that is at its critical temperature, and below it or not known, hot or not, above its
limit, at 95 of 100 of it, and throttled or not. -/
theorem test_meets_sensors : (∃ s : State, s.ev.args = [0] ∧ (s.tile 0).owner ≠ 0 ∧ (s.tile 0).gated = false) ∧
    (∃ s : State, s.arg 0 = 0 ∧ (s.tile 0).owner ≠ 0 ∧ (s.tile 0).gated = false ∧ s.ev.args[15 + 1]? = some 65535) ∧
    (∃ s : State, s.arg 0 = 71 ∧ zenValid (s.fld 71).zen = true ∧ s.module.thermCrit.toInt = zenTemp (s.fld 71).zen) ∧
    ∀ z ∈ [0, 0x8000068F, 0x80000690], ∀ a ∈ [949, 950, 1000, 1001], ∀ th ∈ [true, false], ∃ s : State, s.arg 0 = 71 ∧ s.arg 1 = a ∧ (s.fld 71).ilim = 1000 ∧
      (s.fld 71).throttled = th ∧ (z = 0 ↔ zenValid (s.fld 71).zen = false) ∧ zenTemp (s.fld 71).zen < s.module.thermCrit.toInt ∧
      (z = 0x80000690 ↔ s.module.thermHot.toInt ≤ zenTemp (s.fld 71).zen) := by
  refine ⟨⟨onEvent gs [0], by decide +kernel⟩, ⟨onEvent gs (List.replicate 17 65535 |>.set 0 0), by decide +kernel⟩,
    ⟨onEvent (gs.updFld 71 fun x => { x with zen := 0x80000780 }) [71], by decide +kernel⟩,
    fun z hz a ha th ht => ⟨onEvent (gs.updFld 71 fun x => { x with zen := BitVec.ofNat 64 z, throttled := th }) [71, a], ?_⟩⟩
  revert th; revert a; revert z; decide +kernel
/-- A state at tick n with a VF of partition 1 with a budget of b and what is left of it. -/
def ticking (n b : Nat) (l : Int) : State := onEvent (({ gs with module := { gs.module with ticks := n } }).updVf 0 fun x => { x with tag := 1, tBudget := BitVec.ofNat 32 b, tLeft := l }) [0]
/-- `ModuleEvents`: the last tick of a period, its boundary, and the last slice of it, with a budget and without; registers of a VF; both words of an energy counter and a
partition's. -/
theorem test_meets_power : (ticking 999 1 0).module.ticks = 999 ∧ (ticking 1000 1 0).module.ticks = 1000 ∧
    (∀ l ∈ [0, 1], (ticking 990 1 l).module.ticks % max 1 ((ticking 990 1 l).vf 0).slice = 0 ∧ (((ticking 990 1 l).vf 0).funded = true ↔ l = 1) ∧
      ((ticking 990 1 l).vf 0).tag ≠ 0 ∧ ((ticking 990 1 l).blocks.filter fun b => ((ticking 990 1 l).launch b.2.launch).vf == 0 && b.2.st == .resident &&
        (SMap.find (ticking 990 1 l).launches b.2.launch).isSome &&
        !((ticking 990 1 l).allCtxs.any fun c => c.block == b.1 && c.kind != .none && (c.preempt || c.stopped))).map Prod.fst ≠ [] ∧ ((ticking 990 1 l).vf 0).tdi ≠ 3) ∧
    SMap.find gs.parts 1 = some (gs.part 1) := by
  refine ⟨?_, ?_, ?_, ?_⟩ <;> decide +kernel
/-- `ModuleEvents`: a queue whose producer goes one beyond its size, and up to it; one that is enabled with a thread left, and with none; one that is closed with a launch and
without. -/
theorem test_meets_queue_registers : (∀ n ∈ [2, 3], ∃ s : State, s.arg 1 = 7 ∧ (s.vf 0).tag ≠ 0 ∧ (s.vf 0).tdi ≠ 3 ∧ ((s.vf 0).queue 7).en = true ∧ ((s.vf 0).queue 7).qsize = 1 ∧
      (BitVec.ofNat 32 (s.arg 2) - ((s.vf 0).queue 7).cons).toNat = n ∧ ((s.vf 0).queue 7).launch = 0 ∧ ((s.vf 0).queue 7).packet = none) ∧
    (∃ s : State, (s.vf 0).tag ≠ 0 ∧ ((s.vf 0).queue 7).en = false ∧ (List.range 512).find? (fun t => !s.threadsUsed.contains t) = some 0) ∧
    (∃ s : State, (s.vf 0).tag ≠ 0 ∧ ((s.vf 0).queue 7).en = false ∧ (List.range 512).find? (fun t => !s.threadsUsed.contains t) = none) ∧
    ∀ l ∈ [0, 1], ∃ s : State, s.arg 1 = 7 ∧ (s.vf 0).tag ≠ 0 ∧ ((s.vf 0).queue 7).en = true ∧ ((s.vf 0).queue 7).launch = l := by
  let q (x : Queue) (args : List Nat) : State := onEvent (gs.updVf 0 fun v => { v with tag := 1, queues := [(7, x)] }) args
  refine ⟨fun n hn => ⟨q { en := true, qsize := 1, cons := 0xFFFFFFFF } [0, 7, n - 1], ?_⟩, ⟨q {} [0, 7], by decide +kernel⟩,
    ⟨{ gs with vfs := [(0, { tag := 1 }), (1, { tag := 1, queues := (List.range 512).map fun i => (i, { en := true, thread := some i }) })] }, by decide +kernel⟩,
    fun l hl => ⟨q { en := true, launch := l } [0, 7], ?_⟩⟩
  · revert n; decide +kernel
  · revert l; decide +kernel
/-- A WAIT at an address for a value, with a timeout; a SIGNAL of a kind; a MARK; a RESHAPE_ACK for queue k from generation g, with the table at an address. -/
def waitFor (va val time : Nat) : Nat := 2 + va * 2 ^ 64 + val * 2 ^ 128 + time * 2 ^ 256
def signal (kind va : Nat) : Nat := 3 + kind * 2 ^ 8 + va * 2 ^ 64 + 5 * 2 ^ 128
def reshapeAck (k gen va : Nat) : Nat := 5 + k * 2 ^ 8 + gen * 2 ^ 64 + va * 2 ^ 128 + (if va = 0 then 0 else 2 ^ 192)
/-- The queue blocked in a WAIT with n ticks left. -/
def waiting_ (p n : Nat) : State := serve p fun k => { k with blocked := true, ticks := n }
/-- `ModuleEvents`: WAITs served for the first time, again and at their timeout, with an address that fails, a condition that holds and one that does not. -/
theorem test_meets_waits : ∀ x ∈ [(0x13002, 0), (0x13000, 0), (0x13000, 1)], (serve (waitFor x.1 x.2 9)).Serves 0 0 2 (waitFor x.1 x.2 9) ∧
    (waiting_ (waitFor x.1 x.2 9) 3).Serves 0 0 2 (waitFor x.1 x.2 9) ∧ (waiting_ (waitFor x.1 x.2 9) 0).Serves 0 0 2 (waitFor x.1 x.2 9) ∧
    (((serve (waitFor x.1 x.2 9)).vf 0).queue 0).blocked = false ∧ field (waitFor x.1 x.2 9) 287 256 = 9 ∧ field (waitFor x.1 x.2 9) 10 8 = 0 ∧
    (waiting_ (waitFor x.1 x.2 9) 0).packetLocked? 0 (waitFor x.1 x.2 9) = false ∧
    (waiting_ (waitFor x.1 x.2 9) 0).waitRead 0 (waitFor x.1 x.2 9) = if x.1 = 0x13002 then none else some (0, x.2 == 0) := by
  refine fun x hx => ⟨serves_of ?_, serves_of ?_, serves_of ?_, ?_⟩ <;> revert x <;> decide +kernel
/-- `ModuleEvents`: a SIGNAL to an event counter, to an address that fails and to a word; a MARK; a RESHAPE_ACK for a queue without a launch, for a generation that has not
come and one that has, with a table and without, of which block 0 is placed or not. -/
theorem test_meets_signals : (∀ x ∈ [(2, 0), (0, 0x13002), (0, 0x13000)], (serve (signal x.1 x.2)).Serves 0 0 3 (signal x.1 x.2) ∧ field (signal x.1 x.2) 9 8 = x.1 ∧
      (signal x.1 x.2).testBit 12 = false ∧ (signal x.1 x.2).testBit 10 = false ∧ (x.1 = 0 → (serve (signal 0 x.2)).packetWord 0 (field (signal 0 x.2) 120 64) 4 .engineWrite =
        if x.2 = 0x13002 then none else some ⟨0, 0x13000⟩)) ∧
    ((serve (signal 0 0x13000)).lineLocked (0x13000 / 128) = false ∧ (serve (signal 0 0x13000)).frontTakes 0 { loc := ⟨0, 0x13000⟩, home := 0 } = true) ∧
    (serve (4 + 7 * 2 ^ 64)).Serves 0 0 4 (4 + 7 * 2 ^ 64) ∧
    (∀ x ∈ [(1, 0, 0), (2, 1, 0), (2, 0, 0), (2, 0, 0x13000), (2, 0, 0x13008)], (serve (reshapeAck x.1 x.2.1 x.2.2)).Serves 0 0 5 (reshapeAck x.1 x.2.1 x.2.2)) ∧
    ∀ va ∈ [0x13000, 0x13008], ∃ s : State, s.Serves 0 0 5 (reshapeAck 2 0 va) ∧ ((s.vf 0).queue (field (reshapeAck 2 0 va) 10 8)).launch = 1 ∧ (s.part (s.vf 0).tag).gen = 0 ∧
      s.frontWaits 0 0 [(field (reshapeAck 2 0 va) 184 128, 8 * min 4096 (field (reshapeAck 2 0 va) 204 192))] = none ∧
      s.readPlaces 0 0 (field (reshapeAck 2 0 va) 184 128) (field (reshapeAck 2 0 va) 204 192) = some [if va = 0x13000 then (0, 0, 0) else (1, 1, 0)] ∧
      s.coreFor (s.vf 0).tag [if va = 0x13000 then (0, 0, 0) else (1, 1, 0)] 0 = if va = 0x13000 then some 0 else none := by
  refine ⟨fun x hx => ⟨serves_of ?_, ?_⟩, ?_, serves_of ?_, fun x hx => serves_of ?_,
    fun va hv => ⟨((serve (reshapeAck 2 0 va)).writeNum ⟨0, 0x13008⟩ 8 (1 + 2 ^ 24)).updVf 0 fun x => { x with queues := x.queues ++ [(2, { launch := 1 })] }, serves_of ?_, ?_⟩⟩
  any_goals decide +kernel
  any_goals (revert x; decide +kernel)
  all_goals (revert va; decide +kernel)
/-- `ModuleEvents`: registers of every space, a request of a size that is none, and one off its alignment; requests from the host that the module answers. -/
theorem test_meets_registers : (∀ x ∈ [(0, 4092), (1, 0x20000), (2, 0), (3, 4088), (4, 0), (5, 4092), (6, 0x893), (7, 71), (10, 647), (11, 647)], ∃ s : State, s.arg 0 = x.1 ∧
      mmioAligned 4092 4 = true ∧ 71 < 72 ∧ 647 < 648 ∧ (x.1 ∈ [0, 3, 5] → x.2 < 4096)) ∧
    mmioAligned 2 4 = false ∧ 2 % 4 ≠ 0 ∧ (∀ n ∈ [2, 16], n ≠ 4 ∧ n ≠ 8) ∧ mmioAligned 4088 8 = true ∧
    (∀ k ∈ [0, 1], ∃ s : State, s.arg 0 = 0 ∧ s.arg 1 = k ∧ s.arg 2 = 7 ∧ s.arg 3 = 2 ^ 32 - 8 ∧ s.arg 4 = 8 ∧ mmioAligned (s.arg 3 % 2 ^ 32) 8 = true) ∧
    (∃ s : State, s.arg 0 = 511 ∧ s.arg 2 = 4 ∧ (s.vf 511).tag = 0) ∧
    (∀ t ∈ [1, 2], ∃ s : State, s.arg 2 = 1 ∧ s.arg 1 = 0 ∧ (s.vf 0).tag = t ∧
      s.delivers { unit := 3, tag := t, core := (s.vf 0).port, lq := 0 } ⟨s.arg 2, s.arg 3⟩ = (t == 1)) ∧
    (∃ s : State, s.arg 0 = 0x52530001) ∧ ∃ s : State, s.module.recovery = true := by
  refine ⟨fun x hx => ⟨onEvent gs [x.1], ?_⟩, ?_, ?_, ?_, ?_, fun k hk => ⟨onEvent gs [0, k, 7, 2 ^ 32 - 8, 8], ?_⟩, ⟨onEvent gs [511, 0, 4], ?_⟩,
    fun t ht => ⟨onEvent (gs.updVf 0 fun x => { x with tag := t }) [0, 0, 1, 0], ?_⟩, ⟨onEvent gs [0x52530001], ?_⟩, ⟨{ gs with module := { gs.module with recovery := true } }, ?_⟩⟩
  any_goals decide +kernel
  any_goals (revert x; decide +kernel)
  any_goals (revert k; decide +kernel)
  all_goals (revert t; decide +kernel)
/-- VF 0 with its session in state k, its own state d, its stream's key. -/
def secured (k d : Nat) (args : List Nat) (bytes : List Byte := []) : State :=
  onEvent (gs.updVf 0 fun x => { x with tag := 1, spdm := k, tdi := d, ideKey := some 0 }) args bytes
/-- `SecurityEvents`: a VF in each state, with a session and without, and its stream; a responder of a function in each state; the last PF's. -/
theorem test_meets_sessions : (∀ k ≤ 5, ∀ d < 4, ((secured k d [0]).vf 0).spdm = k ∧ ((secured k d [0]).vf 0).tdi = d ∧ (secured k d [0]).spdmOf 0 = k ∧
      ((secured k d [0]).vf 0).locked = (d == 1 || d == 2) ∧ ((secured k d [0]).vf 0).ideKey ≠ none) ∧
    ∀ k ≤ 5, ∃ s : State, s.arg 0 = 519 ∧ s.spdmOf 519 = k := by
  refine ⟨?_, fun k hk => ⟨onEvent { gs with module := { gs.module with spdm := [(519, k)] } } [519], ?_⟩⟩
  · decide +kernel
  · revert k; decide +kernel
/-- A request for key slot n of a VF and queue, of a block size, in a session of VF 0. -/
def slotRequest (n vf q lg extra : Nat) : Nat := n * 2 ^ 8 + vf * 2 ^ 16 + q * 2 ^ 32 + lg * 2 ^ 40 + extra * 2 ^ 72
def slotState (p tag : Nat) : State :=
  onEvent ((gs.updVf 0 fun x => { x with tag := 1, spdm := 5 }).updVf 1 fun x => { x with tag := tag, tdi := 2 }) [0] (natBytes 56 p)
/-- `SecurityEvents`: requests with each field one beyond its range, for a VF that does not exist, that does not run, that is another partition's, and a good one. -/
theorem test_meets_slots : (∀ p ∈ [slotRequest 16 1 7 9 0, slotRequest 15 1 8 9 0, slotRequest 15 1 7 10 0, slotRequest 15 1 7 9 1, slotRequest 15 512 7 9 0, slotRequest 15 0 7 9 0,
        slotRequest 15 1 7 9 0], ∀ tag ∈ [1, 2], (slotState p tag).Slots p ∧ bytesNat ((slotState p tag).ev.bytes.take 56) = p ∧
      ((15 < field p 15 8 ∨ 7 < field p 39 32 ∨ 9 < field p 47 40 ∨ field p 127 72 ≠ 0) ↔
        p ∈ [slotRequest 16 1 7 9 0, slotRequest 15 1 8 9 0, slotRequest 15 1 7 10 0, slotRequest 15 1 7 9 1]) ∧
      ((512 ≤ field p 31 16 ∨ ((slotState p tag).vf (field p 31 16)).tdi ≠ 2) ↔ p = slotRequest 15 512 7 9 0 ∨ p = slotRequest 15 0 7 9 0) ∧
      (p = slotRequest 15 1 7 9 0 → (((slotState p tag).vf (field p 31 16)).tag = ((slotState p tag).vf ((slotState p tag).arg 0)).tag ↔ tag = 1))) ∧
    SMap.find (gs.part 1).keys 15 = none ∧ ((gs.updPart 1 fun p => { p with keys := [(15, ⟨0, 0, 0, 0, 0, 0⟩)] }).part 1).keys = [(15, ⟨0, 0, 0, 0, 0, 0⟩)] := by
  refine ⟨fun p hp tag ht => ⟨⟨?_, ?_, ?_, ?_⟩, ?_⟩, ?_, ?_⟩
  any_goals decide +kernel
  all_goals (revert tag; revert p; decide +kernel)
/-- A header with registers v63 to v56 and s63 to s56, eight halfwords after the group's word. -/
def recipeWord : Nat := (0xA7 * 2 ^ 56 + 8 * 2 ^ 48 + 8 * 2 ^ 52 + ((List.range 8).map fun i => (63 - i) * 2 ^ (6 * i)).sum) + ((List.range 8).map fun i => (63 - i) * 2 ^ (6 * i)).sum * 2 ^ 64
/-- `Yield`: a recipe of eight registers of each kind. -/
theorem test_meets_recipe : ∃ s : State, s.GroupReady ∧ s.cur.smode = false ∧ s.cur.txg = false ∧ s.cur.loop = none ∧ (s.launch s.cur.launch).pipe = none ∧
    ∃ rc, s.readRecipe (s.cur.pc + 2 * (8 : BitVec 12).signExtend 64) = .ok (some rc) ∧ rc.vs = [63, 62, 61, 60, 59, 58, 57, 56] ∧ rc.us = [63, 62, 61, 60, 59, 58, 57, 56] :=
  ⟨gs.writeNum ⟨0, 0x10010⟩ 16 recipeWord, group_of (by decide +kernel), by decide +kernel, by decide +kernel, by decide +kernel, by decide +kernel,
    ⟨[63, 62, 61, 60, 59, 58, 57, 56], [63, 62, 61, 60, 59, 58, 57, 56], 0⟩, by decide +kernel⟩
/-- `Decryptions`: an address with bit 63 set, with a supervisor. -/
theorem test_meets_descriptor_address : (gsQ 16 0 0).GroupReady ∧ (gsQ 16 0 0).cur.txg = false ∧ (gsQ 16 0 0).Leads 0 0 ∧ (gsQ 16 0 0).subs < 255 ∧
    (gsQ 16 0 0).cur.smode = false ∧ (gsQ 16 0 0).myPart.svVec ≠ 0 ∧ ((gsQ 16 0 0).rawS 1).toNat % 64 = 0 ∧ ((gsQ 16 0 0).rawS 1).getLsbD 63 = true :=
  ⟨group_of (by decide +kernel), by decide +kernel, .inl (by decide +kernel), by decide +kernel⟩

/-! ## Well-formedness -/

/-- A term that breaks a restriction on a field is refused; its neighbour within it is not. -/
theorem test_wellFormed_refuses : ∀ p ∈ [((.cvt false 0 4 1 2 0, .cvt false 0 4 1 2 2) : Instr × Instr), (.cvt false 0 0 1 2 6, .cvt false 0 0 1 2 5),
      (.vreduce false 0 1 2 11, .vreduce false 0 1 2 10), (.vscan false 0 1 2 11, .vscan false 0 1 2 10), (.lpb false 1 0 9, .lpb false 1 0 8),
      (.ldg32Ord false 2 1 2 3 0, .ldg32Ord false 1 1 2 3 0), (.stg32Ord false 1 1 2 3 0, .stg32Ord false 2 1 2 3 0),
      (.redAdd32 false 3 1 2 3 0, .redAdd32 false 2 1 2 3 0), (.atomAdd32 false 5 1 2 3 0, .atomAdd32 false 4 1 2 3 0),
      (.atomCas32 false 0 63 2 3 0, .atomCas32 false 0 62 2 3 0), (.atomCas64 false 0 61 2 3 0, .atomCas64 false 0 60 2 3 0),
      (.satomCas false 0 63 2 0, .satomCas false 0 62 2 0), (.fence false 0 0, .fence false 1 0),
      (.fence false 5 0, .fence false 4 0), (.srd false 1 0x003, .srd false 1 0x002), (.swr false 1 0x894, .swr false 1 0x893), (.clkq false 1 5, .clkq false 1 4),
      (.movShort false 0 0, .movShort true 0 0)],
    wellFormed p.1 = false ∧ wellFormed p.2 = true := by decide +kernel

end Sys2Proof.Tests
end

section
/-!
PROOF. `swr` (00 R5, 02 R75, Table 01-9): its issue is that of a uniform instruction without a result, and its whole effect is
`State.sysWrite`, which updates one field of the context or one register of the context's partition.
-/

namespace Sys2Proof.Machine

/-- R25, R75: what `swr` asks of its issue: uniform, in groups and sequencers, privileged from 0x800 on. -/
theorem illegal_swr {s : State} (h : s.Ready) (sm : Bool) {n : Nat} (d : Nat) (hp : 0x800 ≤ n → s.cur.smode = true) :
    s.illegal (sysMeta sm n [d] false) = none := by
  refine illegal_uniform h rfl (Nat.zero_le _) rfl (fun _ => rfl) ?_ rfl
  by_cases hn : 0x800 ≤ n
  · exact .inr (hp hn)
  · exact .inl (decide_eq_false hn)

/-- The issue of a `swr` of the register with a number, from sd. -/
def swrMeta (sm : Bool) (n : Nat) (d : BitVec 6) : Meta := sysMeta sm (BitVec.ofNat 12 n).toNat [d.toNat] false
theorem readS_charge {s : State} (h : s.Ready) (m : Meta) (r : Nat) : (s.charge m).readS r = s.rawS r := by
  rw [State.readS_eq (by simp [h.written]), State.charge_rawS]
@[simp] theorem State.updPart_cur (s : State) (i : Nat) (f : Part → Part) : (s.updPart i f).cur = s.cur := by
  unfold State.updPart; split <;> rfl

/-- A register of the context: `swr` changes what r.2 changes, which is no more than `fpx`, the threshold of `txc` and `SV_EPC`. -/
theorem swr_context (r : Nat × (W64 → Ctx → Ctx)) (hw : ∀ (t : State) v, t.sysWrite (BitVec.ofNat 12 r.1).toNat v = t.updCur (r.2 v))
    (ha : ∀ v c, (r.2 v c).aside = r.2 v c.aside)
    (hf : ∀ v c, r.2 v c = { c with fpx := (r.2 v c).fpx, txThresh := (r.2 v c).txThresh, epc := (r.2 v c).epc })
    (sm : Bool) (d : BitVec 6) (s : State) (h : s.Ready) (hp : 0x800 ≤ r.1 → s.cur.smode = true) :
    ∃ t, exec (.swr sm d (BitVec.ofNat 12 r.1)) s = .next t ∧ s.Returns { s with cur := r.2 (s.rawS d.toNat) s.cur } t 4 sm [] := by
  have hn : (BitVec.ofNat 12 r.1).toNat ≤ r.1 := by rw [BitVec.toNat_ofNat]; exact Nat.mod_le _ _
  have hk : ({ s with cur := r.2 (s.rawS d.toNat) s.cur } : State).Keeps ((s.charge (swrMeta sm r.1 d)).updCur (r.2 (s.rawS d.toNat))) :=
    (State.charge_keeps s _).updCur _ _ (ha _)
  refine issue_effect (m := swrMeta sm r.1 d) h (illegal_swr h sm _ fun hl => hp (hl.trans hn)) (.inl rfl) (by rw [hw, readS_charge h]) hk
    rfl ?_ ?_ ?_ ?_ ?_ ?_ ?_ <;> rw [State.updCur_cur, hf]
  · simp
  · simp
  · simp [h.word]
  · simp [h.recipe]
  · simp [h.written]
  · simp [h.poisonV]
  · simp [h.poisonS]

/-- A register of the context's partition, which the supervisor writes. -/
theorem swr_partition (r : Nat × (W64 → Part → Part)) (hw : ∀ (t : State) v, t.sysWrite (BitVec.ofNat 12 r.1).toNat v = t.updPart t.curTag (r.2 v))
    (sm : Bool) (d : BitVec 6) (s : State) (h : s.Ready) (hp : s.cur.smode = true) :
    ∃ t, exec (.swr sm d (BitVec.ofNat 12 r.1)) s = .next t ∧ s.Returns (s.updPart s.curTag (r.2 (s.rawS d.toNat))) t 4 sm [] := by
  have ht : (s.charge (swrMeta sm r.1 d)).curTag = s.curTag := by simp [State.curTag, State.launch]
  refine issue_effect (m := swrMeta sm r.1 d) h (illegal_swr h sm _ fun _ => hp) (.inl rfl) (by rw [hw, readS_charge h, ht])
    ((State.charge_keeps s _).updPart _ _) rfl ?_ ?_ ?_ ?_ ?_ ?_ ?_ <;> rw [State.updPart_cur]
  · simp
  · simp
  · simp [h.word]
  · simp [h.recipe]
  · simp [h.written]
  · simp [h.poisonV]
  · simp [h.poisonS]

/-- Table 16-4: `FR_SIZE` takes 4 to 16, or 0. -/
theorem frSizeOf_eq (v : Nat) : frSizeOf v = if 4 ≤ v % 32 ∧ v % 32 ≤ 16 then v % 32 else 0 := by
  simp [frSizeOf]

/-- Settles O34: the registers of the context first, those a `swr` leaves alone among them, then those of the partition. -/
theorem systemRegisterWrites : Obligations.SystemRegisterWrites := by
  unfold Obligations.SystemRegisterWrites
  refine ⟨fun r hr => ?_, fun r hr => ?_⟩
  · simp only [List.mem_cons, List.not_mem_nil, or_false] at hr
    rcases hr with rfl | rfl | rfl | rfl | rfl | rfl | rfl | rfl | rfl | rfl <;>
      exact swr_context _ (fun _ _ => rfl) (fun _ _ => rfl) fun _ _ => rfl
  · simp only [List.mem_cons, List.not_mem_nil, or_false, ← frSizeOf_eq] at hr
    rcases hr with rfl | rfl | rfl | rfl | rfl | rfl | rfl | rfl | rfl | rfl | rfl <;>
      exact swr_partition _ fun _ _ => rfl

end Sys2Proof.Machine
end

section
/-!
PROOF. Failures and the answers to retire events (16 R313 to R317): each event does what its condition names.
-/

namespace Sys2Proof.Machine

/-! ## Core failures (R313, R314) -/

section coreFailure
variable {s : State} (ht : s.arg 0 < 648) (hr : s.arg 1 < 2) (hf : s.arg 2 < 9)
include ht hr hf

/-- R313: tile, row and position exist. -/
theorem coreFailure_inRange : (decide (648 ≤ s.arg 0) || decide (2 ≤ s.arg 1) || decide (9 ≤ s.arg 2)) = false := by
  simp only [Bool.or_eq_false_iff, decide_eq_false_iff_not]; omega
/-- R314: the spare itself fails: the row has none from now on. -/
theorem coreFailure_spare (h8 : s.arg 2 = 8) (h0 : (s.tile (s.arg 0)).spare (s.arg 1) = 0) :
    exec .coreFailure s = .next (s.updTile (s.arg 0) fun x => x.setRow (s.arg 1) 2 none) := by
  change execCoreFailure s = _
  simp only [execCoreFailure, coreFailure_inRange ht hr hf, h0, Bool.false_eq_true, if_false, if_pos h8]
/-- R313: a first failure takes the spare, and the core that stood there stops, when one did. -/
theorem coreFailure_first (h8 : s.arg 2 < 8) (h0 : (s.tile (s.arg 0)).spare (s.arg 1) = 0) {u : State}
    (hu : u = s.updTile (s.arg 0) fun x => x.setRow (s.arg 1) 1 (some (s.arg 2, 7))) :
    (u.coreAtPos (s.arg 0) (s.arg 1) (s.arg 2) = none → exec .coreFailure s = .next u) ∧
      ∀ c, u.coreAtPos (s.arg 0) (s.arg 1) (s.arg 2) = some c → exec .coreFailure s = .next (u.stopFailed c) := by
  refine ⟨fun h => ?_, fun c h => ?_⟩ <;> change execCoreFailure s = _ <;>
    simp only [execCoreFailure, coreFailure_inRange ht hr hf, h0, h8.ne, Bool.false_eq_true, if_false, ← hu, h]
/-- R313: a second failure while the wave runs loses the core hit and the one still to move. -/
theorem coreFailure_duringWave (h1 : (s.tile (s.arg 0)).spare (s.arg 1) = 1) {p : Nat × Nat} (hp : (s.tile (s.arg 0)).fail (s.arg 1) = some p)
    {hit late : Nat} (hh : s.coreAtPos (s.arg 0) (s.arg 1) (s.arg 2) = some hit) (hl : s.coreAtPos (s.arg 0) (s.arg 1) p.1 = some late) :
    exec .coreFailure s = .next (((s.coreLost hit).coreLost late).updTile (s.arg 0) fun x => x.setRow (s.arg 1) 2 none) := by
  change execCoreFailure s = _
  simp only [execCoreFailure, coreFailure_inRange ht hr hf, h1, hp, hh, hl, Bool.false_eq_true, if_false]
/-- R314: in a row without a spare the core is lost. -/
theorem coreFailure_noSpare (h2 : 2 ≤ (s.tile (s.arg 0)).spare (s.arg 1)) {c : Nat} (hc : s.coreAtPos (s.arg 0) (s.arg 1) (s.arg 2) = some c) :
    exec .coreFailure s = .next (s.coreLost c) := by
  obtain ⟨n, hn⟩ := Nat.exists_eq_add_of_le' h2
  change execCoreFailure s = _
  simp only [execCoreFailure, coreFailure_inRange ht hr hf, hn, hc, Bool.false_eq_true, if_false]

end coreFailure

/-- R313: the wave goes one step: the core there, when one is, stops and moves, and the wave is over at the failed position. -/
theorem remapWaveStep_of {s : State} (hr : s.arg 1 < 2) {f p : Nat} (hf : (s.tile (s.arg 0)).fail (s.arg 1) = some (f, p)) :
    (∀ c, s.coreAtPos (s.arg 0) (s.arg 1) p = some c → exec .remapWaveStep s =
      .next (((s.waveStop c).updCore c fun k => { k with pos := p + 1, l1 := [] }).updTile (s.arg 0) fun x =>
        x.setRow (s.arg 1) 1 (if p ≤ f then none else some (f, p - 1)))) ∧
    (s.coreAtPos (s.arg 0) (s.arg 1) p = none → exec .remapWaveStep s =
      .next (s.updTile (s.arg 0) fun x => x.setRow (s.arg 1) 1 (if p ≤ f then none else some (f, p - 1)))) := by
  refine ⟨fun c h => ?_, fun h => ?_⟩ <;> change execRemapWaveStep s = _ <;>
    simp only [execRemapWaveStep, Nat.not_le.2 hr, if_false, hf, h]

/-- R317: a tile that is not degraded yet is lost. -/
theorem tileFailure_of {s : State} (ht : s.arg 0 < 648) (hd : (s.tile (s.arg 0)).degraded = false) :
    exec .tileFailure s = .next (s.tileLost (s.arg 0) (s.ev.args.drop 1)) := by
  change execTileFailure s = _
  simp only [execTileFailure, hd, Nat.not_le.2 ht, decide_false, Bool.or_false, Bool.false_eq_true, if_false]

/-! ## Retire answers (R316) -/

section retire
variable {s : State} {r : Retire} (hr : (s.part (s.arg 0)).retire = some r) (hs : (s.part (s.arg 0)).reshape = none)
include hr hs

/-- R316: the pending event, with its answer. -/
theorem pendingRetire_of : s.pendingRetire (s.arg 0) = some (r, (s.part (s.arg 0)).retireAns) := by
  simp only [State.pendingRetire, hr, hs]
theorem retireShrink_answered (hk : (s.part (s.arg 0)).retireAns = 1) : exec .retireShrink s = .next (s.retireShrink (s.arg 0) r) := by
  change execRetireShrink s = _
  simp only [execRetireShrink, pendingRetire_of hr hs, hk]
theorem retireTimeout_unanswered (hk : (s.part (s.arg 0)).retireAns = 0) : exec .retireTimeout s = .next (s.retireShrink (s.arg 0) r) := by
  change execRetireTimeout s = _
  simp only [execRetireTimeout, pendingRetire_of hr hs, hk]
theorem retireAbort_answered (hk : (s.part (s.arg 0)).retireAns = 3) :
    exec .retireAbort s = .next ((s.endPartLaunches (s.arg 0)).retireShrink (s.arg 0) r) := by
  change execRetireAbort s = _
  simp only [execRetireAbort, pendingRetire_of hr hs, hk]
theorem retireRemap_answered (hk : (s.part (s.arg 0)).retireAns = 2) :
    exec .retireRemap s = .next (s.retireRemap (s.arg 0) r ((s.ev.args.drop 1).take 1)) := by
  change execRetireRemap s = _
  simp only [execRetireRemap, pendingRetire_of hr hs, hk]

end retire

/-- R316: with no tile to take its place, remap is shrink. -/
theorem State.retireRemap_noTile {s : State} {tag : Nat} {r : Retire} {named : List Nat} (h : s.remapTile tag (tileOfCore r.ecore) named = none) :
    s.retireRemap tag r named = s.retireShrink tag r := by
  simp only [State.retireRemap, h]

/-- R313 to R317. -/
theorem failureRules : FailureRules := by
  unfold FailureRules
  refine ⟨?_, ?_, ?_, ?_⟩
  · rintro s _ _ _ rfl rfl rfl ht hr hf
    exact ⟨fun h0 => ⟨fun h8 => coreFailure_spare ht hr hf h8 h0, fun u h8 hu => coreFailure_first ht hr hf h8 h0 hu⟩,
      fun p h1 hp hit late hh hl => coreFailure_duringWave ht hr hf h1 hp hh hl, fun h2 c hc => coreFailure_noSpare ht hr hf h2 hc⟩
  · rintro s _ _ f p rfl rfl hr hf
    exact remapWaveStep_of hr hf
  · rintro s _ rfl ht hd
    exact tileFailure_of ht hd
  · rintro s _ r _ rfl hr hs rfl
    exact ⟨retireShrink_answered hr hs, retireTimeout_unanswered hr hs, retireAbort_answered hr hs, fun hk =>
      ⟨retireRemap_answered hr hs hk, fun hn => by rw [retireRemap_answered hr hs hk, State.retireRemap_noTile hn]⟩⟩

end Sys2Proof.Machine
end

section
/-!
PROOF. Power, clocks and budgets (17 R323; 18 R337, R338; 19 R350 to R359; 23 R409): what a boundary, a reading, a sample, a tick, a
period and a slice leave in the fields their rules name.
-/

namespace Sys2Proof.Machine

/-- What one step of a fold brings about and every step keeps holds at its end. -/
theorem foldl_of_mem {σ ι : Type} {g : σ → ι → σ} {P : σ → Prop} {i : ι} (hit : ∀ s, P (g s i)) (keep : ∀ s j, P s → P (g s j)) {l : List ι}
    (h : i ∈ l) (s : σ) : P (l.foldl g s) := by
  obtain ⟨a, b, rfl⟩ := List.append_of_mem h
  rw [List.foldl_append, List.foldl_cons]
  exact List.foldlRecOn b g (hit _) fun s hs j _ => keep s j hs

/-- The meaning of an event whose guard fails, or holds. -/
theorem next_if_neg {c : Prop} [Decidable c] (h : ¬ c) (a b : State) : (.next (if c then a else b) : Host.Outcome State Fault Refusal) = .next b := by rw [if_neg h]
theorem next_if_pos {c : Prop} [Decidable c] (h : c) (a b : State) : (.next (if c then a else b) : Host.Outcome State Fault Refusal) = .next a := by rw [if_pos h]

/-! ## Boost intervals (R323, R350) -/

/-- R350: the counts of an interval begin anew in every core of its tile. -/
theorem boostIntervalBoundary_restarts {s : State} {t : Nat} (ha : s.ev.args = [t]) (ht : t < 648) (ho : (s.tile t).owner ≠ 0)
    (hg : (s.tile t).gated = false) :
    ∃ w, exec .boostIntervalBoundary s = .next w ∧ ∀ c ∈ coresOf t, (w.core c).steps = 0 ∧ (w.core c).stalled = 0 ∧ (w.core c).boosted = false := by
  have hts : dedup (s.ev.args.filter fun t => decide (t < 648) && (s.tile t).owner != 0 && !(s.tile t).gated) = [t] := by
    simp [ha, ht, ho, hg, dedup]
  refine ⟨_, rfl, fun c hc => ?_⟩
  dsimp only
  rw [hts]
  exact State.foldl_updCore_all _ (fun k => k.steps = 0 ∧ k.stalled = 0 ∧ k.boosted = false) (fun s d => ⟨_, rfl, rfl, rfl, rfl⟩) _ _ c
    (by simpa using hc)

/-! ## Sensors (R359) -/

theorem State.updPart_tiles (s : State) (i : Nat) (f : Part → Part) : (s.updPart i f).tiles = s.tiles := by
  unfold State.updPart; split <;> rfl
theorem State.rezen_tiles (s : State) (t tag : Nat) : (s.rezen t tag).tiles = s.tiles := by
  unfold State.rezen
  dsimp only
  rw [State.updModule_tiles, State.updPart_tiles, State.updFld_tiles]
theorem State.updTile_tile (s : State) (t : Nat) (f : Tile → Tile) : (s.updTile t f).tile t = f (s.tile t) := SMap.get_set_same ..
/-- R359: a tile keeps each reading, in the sensors' range. -/
theorem sensorRead_temps {s : State} (ho : (s.tile (s.arg 0)).owner ≠ 0) (hg : (s.tile (s.arg 0)).gated = false) {i v : Nat} (hi : i < 16)
    (hv : s.ev.args[i + 1]? = some v) : ∃ u, exec .sensorRead s = .next u ∧ SMap.find (u.tile (s.arg 0)).temps i = some (clampTemp v) := by
  refine ⟨_, next_if_neg (by simp [ho, hg]) _ _, ?_⟩
  rw [State.tile, State.rezen_tiles, ← State.tile, State.updTile_tile]
  dsimp only
  refine foldl_of_mem (P := fun m => SMap.find m i = some (clampTemp v)) (i := i) (fun m => ?_) (fun m j hm => ?_) (List.mem_range.2 hi) _
  · simp only [hv, SMap.find_put, if_true]
  · by_cases hj : i = j
    · subst hj; simp only [hv, SMap.find_put, if_true]
    · cases s.ev.args[j + 1]? with
      | none => exact hm
      | some w => simpa only [SMap.find_put, if_neg hj] using hm

/-! ## Field samples (R409) -/

theorem State.setFld_fld (s : State) (f : Nat) (x : Field) : (s.setFld f x).fld f = x := SMap.get_set_same ..

section sample
variable {s : State} (hf : s.arg 0 < 72)
include hf

/-- R409: a field at the critical temperature resets the module. -/
theorem fieldCurrentSample_critical (hv : zenValid (s.fld (s.arg 0)).zen = true) (hc : s.module.thermCrit.toInt ≤ zenTemp (s.fld (s.arg 0)).zen) :
    ∃ t, exec .fieldCurrentSample s = .next t ∧ t.module.cause = 4 ∧ t.parts = [] := by
  have hz : (zenValid (s.fld (s.arg 0)).zen && decide (s.module.thermCrit.toInt ≤ zenTemp (s.fld (s.arg 0)).zen)) = true := by simp [hv, hc]
  exact ⟨_, (next_if_neg (Nat.not_le.2 hf) _ _).trans (next_if_pos hz _ _), rfl, rfl⟩
/-- R409: below it, the sample stands, and throttling follows the current's limit and the hot temperature. -/
theorem fieldCurrentSample_calm (h : zenValid (s.fld (s.arg 0)).zen = false ∨ zenTemp (s.fld (s.arg 0)).zen < s.module.thermCrit.toInt) :
    ∃ t, exec .fieldCurrentSample s = .next t ∧ (t.fld (s.arg 0)).current = s.arg 1 % 2 ^ 12 ∧
      ((t.fld (s.arg 0)).noGrant = true ↔ 95 * (s.fld (s.arg 0)).ilim ≤ 100 * s.arg 1) ∧
      (((s.fld (s.arg 0)).ilim < s.arg 1 ∨ zenValid (s.fld (s.arg 0)).zen = true ∧ s.module.thermHot.toInt ≤ zenTemp (s.fld (s.arg 0)).zen) →
        (t.fld (s.arg 0)).throttled = true) ∧
      ((s.fld (s.arg 0)).throttled = false → s.arg 1 ≤ (s.fld (s.arg 0)).ilim →
        (zenValid (s.fld (s.arg 0)).zen = false ∨ zenTemp (s.fld (s.arg 0)).zen < s.module.thermHot.toInt) → (t.fld (s.arg 0)).throttled = false) := by
  have hz : ¬ (zenValid (s.fld (s.arg 0)).zen && decide (s.module.thermCrit.toInt ≤ zenTemp (s.fld (s.arg 0)).zen)) = true := by
    rcases h with h | h <;> simp [h]
  refine ⟨_, (next_if_neg (Nat.not_le.2 hf) _ _).trans (next_if_neg hz _ _), ?_⟩
  rw [State.setFld_fld]
  refine ⟨rfl, decide_eq_true_iff, fun ht => ?_, fun h1 h2 h3 => ?_⟩
  · rcases ht with ht | ⟨hv, ht⟩
    · simp [ht]
    · simp [hv, ht]
  · rcases h3 with h3 | h3 <;> simp [h1, h2, h3]

end sample

/-! ## The transit tick (R337, R355) -/

theorem SMap.find_eq_none {α : Type} {m : SMap α} {k : Nat} (h : k ∉ m.map Prod.fst) : SMap.find m k = none := by
  cases hf : SMap.find m k with
  | none => rfl
  | some v => exact absurd (List.mem_map_of_mem (SMap.mem_of_find hf)) h
/-- A fold of updates of VFs, and one of updates of cores, changes nothing else. -/
theorem foldl_updVf_frame (f : Nat → VF → VF) (l : List Nat) (s : State) :
    l.foldl (fun s v => s.updVf v (f v)) s = { s with vfs := (l.foldl (fun s v => s.updVf v (f v)) s).vfs } :=
  List.foldlRecOn l _ (motive := fun t : State => t = { s with vfs := t.vfs }) rfl fun t h _ _ => by
    rw [h]; rfl
theorem foldl_updCore_frame (f : Core → Core) (l : List Nat) (s : State) :
    l.foldl (fun s c => s.updCore c f) s = { s with cores := (l.foldl (fun s c => s.updCore c f) s).cores } :=
  List.foldlRecOn l _ (motive := fun t : State => t = { s with cores := t.cores }) rfl fun t h _ _ => by
    rw [h]; rfl
/-- R337: no core has issued in the tick that begins. -/
theorem foldl_issuedTick {s : State} {m : SMap Core} (hm : s.cores = m) (c : Nat) :
    (((m.map Prod.fst).foldl (fun s c => s.updCore c fun k => { k with issuedTick := [] }) s).core c).issuedTick = [] := by
  by_cases h : c ∈ m.map Prod.fst
  · exact State.foldl_updCore_all _ (fun k => k.issuedTick = []) (fun s d => ⟨_, rfl, rfl⟩) _ _ c h
  · refine State.foldl_updCore_keeps _ (fun k => k.issuedTick = []) (fun s d => ⟨_, rfl, rfl⟩) _ _ c ?_
    simp only [State.core, SMap.get, hm, SMap.find_eq_none h]
/-- R337: a tick is counted, the cores' charges begin anew, and the dome timer moves by the drawn amount. -/
theorem transitTick_of {s : State} (h : s.module.ticks < 1000) : ∃ t, exec .transitTick s = .next t ∧ t.module.ticks = s.module.ticks + 1 ∧
    (∀ c, (t.core c).issuedTick = []) ∧ t.module.domeTimer = s.module.domeTimer + Config.freeWord (Nat.pair s.oracle 218) := by
  refine ⟨_, next_if_neg (Nat.not_le.2 h) _ _, rfl, fun c => foldl_issuedTick (by rw [foldl_updVf_frame]) c, ?_⟩
  simp only [State.updModule_module]
  rw [foldl_updCore_frame, foldl_updVf_frame]

/-! ## Periods and slices (R337, R338) -/

/-- R338: the slice of a VF with budget left ends without effect. -/
theorem State.sliceEnd_funded {s : State} {v : Nat} (h : (s.vf v).funded = true) : s.sliceEnd v = s := by
  simp only [State.sliceEnd, h, Bool.or_true, if_true]
section slice
variable {s : State} (hm : s.module.ticks % max 1 (s.vf (s.arg 0)).slice = 0) (h0 : s.module.ticks ≠ 0) (h1 : s.module.ticks < 1000)
include hm h0 h1

/-- R338: a slice ends on a multiple of its length, but for a period's last. -/
theorem exec_sliceEnd : exec .sliceEnd s = .next (s.sliceEnd (s.arg 0)) :=
  next_if_pos (by simp [hm, h0, h1]) _ _
/-- R338: a VF out of budget has its running blocks pre-empted. -/
theorem sliceEnd_spent (ht : (s.vf (s.arg 0)).tag ≠ 0) (hf : (s.vf (s.arg 0)).funded = false) {bs : List Nat}
    (hb : bs = (s.blocks.filter fun b => (s.launch b.2.launch).vf == s.arg 0 && b.2.st == .resident &&
        (SMap.find s.launches b.2.launch).isSome && !(s.allCtxs.any fun c => c.block == b.1 && c.kind != .none && (c.preempt || c.stopped))).map Prod.fst)
    (hn : bs ≠ []) : exec .sliceEnd s =
      .next ((bs.foldl State.requestPreempt s).updVf (s.arg 0) fun x => { x with stopped := true, preempts := x.preempts + 1 }) := by
  rw [exec_sliceEnd hm h0 h1, State.sliceEnd]
  simp only [ht, hf, decide_false, Bool.or_self, Bool.false_eq_true, if_false, ← hb, List.isEmpty_iff, hn]

end slice

/-- R337, R338: at the end of a period the budgets refill, to the state u, and then each VF resumes or has its slice ended. -/
theorem periodBoundary_of {s u : State} (h : 1000 ≤ s.module.ticks)
    (hu : u = (s.vfs.map Prod.fst).foldl (fun s v => s.updVf v fun x => { x with
      tLeft := floorLeft (x.tBudget.toNat + min x.tLeft 0), eLeft := floorLeft (1000 * (x.eBudget.toNat : Int) + min x.eLeft 0) })
        (s.updModule fun m => { m with ticks := 0 })) :
    exec .periodBoundary s = .next ((s.vfs.map Prod.fst).foldl (fun s v => if (s.vf v).funded = true then s.updVf v fun x =>
      { x with stopped := false, queues := x.queues.map fun (q : Nat × Queue) => (q.1, { q.2 with gated := false }) } else s.sliceEnd v) u) := by
  subst hu; exact next_if_neg (Nat.not_lt.2 h) _ _

/-! ## Power controls (R354) -/

section setters
variable (x : VF) (k : Nat) (v : W32)

theorem VF.setControl_range (j : Nat) : (x.setControl k v).range j = x.range j := by
  unfold VF.setControl; split <;> rfl
theorem VF.setControl_clamps : (x.setControl k v).clamps = x.clamps := by
  unfold VF.setControl; split <;> rfl
theorem VF.setRange_clamps : (x.setRange k v).clamps = x.clamps := by
  unfold VF.setRange; split <;> rfl
theorem VF.setControl_control {k : Nat} (hk : k < 4) : (x.setControl k v).control k = v := by
  interval_cases k <;> rfl
theorem VF.setRange_range {k : Nat} (hk : k < 4) : (x.setRange k v).range k = v := by
  interval_cases k <;> rfl

end setters

/-- R354: a control takes a value in the VF's range, and its range stays. -/
theorem VF.writeControl_control (x : VF) {k : Nat} (hk : k < 4) (n : Nat) :
    (x.writeControl k n).control k = BitVec.ofNat 32 (intoRange (x.range k) (n % 65536)) ∧ (x.writeControl k n).range k = x.range k :=
  ⟨x.setControl_control _ hk, x.setControl_range k _ k⟩
/-- R354: a range takes values within the control's own limits; clamps count writes to controls only. -/
theorem VF.writeRange_range (x : VF) {k : Nat} (hk : k < 4) (n : Nat) :
    (x.writeRange k n).range k = BitVec.ofNat 32 (min (max (field n 15 0) (controlLimits k).1) (controlLimits k).2 +
      min (max (field n 31 16) (controlLimits k).1) (controlLimits k).2 * 65536) ∧ (x.writeRange k n).clamps = x.clamps := by
  simp only [VF.writeRange, VF.setControl_range, VF.setControl_clamps, VF.setRange_clamps, VF.setRange_range _ _ hk, and_self]
/-- R368, R370: a VF that is bound and not in ERROR takes the host's writes. -/
theorem State.vfTakes_of {s : State} {v : Nat} (ht : (s.vf v).tag ≠ 0) (hd : (s.vf v).tdi ≠ 3) : s.vfTakes v = true := by
  simp [State.vfTakes, ht, hd]
section control
variable {s : State} (hk : s.arg 1 < 4) (ht : (s.vf (s.arg 0)).tag ≠ 0) (hd : (s.vf (s.arg 0)).tdi ≠ 3)
include hk ht hd

theorem powerControlWrite_of : exec .powerControlWrite s = .next (s.updVf (s.arg 0) fun x => x.writeControl (s.arg 1) (s.arg 2)) :=
  next_if_pos (by simp [State.vfTakes_of ht hd, hk]) _ _
theorem powerRangeWrite_of : exec .powerRangeWrite s = .next (s.updVf (s.arg 0) fun x => x.writeRange (s.arg 1) (s.arg 2)) :=
  next_if_pos (by simp [State.vfTakes_of ht hd, hk]) _ _

end control

/-! ## The photometer's shadows (R358) -/

theorem energyLoRead_hostView {s : State} (h0 : s.arg 0 = 1) (h2 : s.arg 2 = 1) : ∃ t, exec .energyLoRead s = .next t ∧
    (t.vf (s.arg 1)).shadowH = (s.vf (s.arg 1)).acc.extractLsb' 32 32 ∧ (t.vf (s.arg 1)).acc = (s.vf (s.arg 1)).acc := by
  refine ⟨_, next_if_neg (by simp [h0]) _ _, ?_⟩
  rw [State.updVf_vf, h2]; exact ⟨rfl, rfl⟩
theorem energyLoRead_domeView {s : State} (h0 : s.arg 0 = 1) (h2 : s.arg 2 = 2) : ∃ t, exec .energyLoRead s = .next t ∧
    (t.vf (s.arg 1)).shadowM = (s.vf (s.arg 1)).acc.extractLsb' 32 32 := by
  refine ⟨_, next_if_neg (by simp [h0]) _ _, ?_⟩
  rw [State.updVf_vf, h2]; rfl
theorem energyLoRead_partition {s : State} (h0 : s.arg 0 = 0) (h2 : s.arg 2 = 0) {p : Part} (hp : SMap.find s.parts (s.arg 1) = some p) :
    exec .energyLoRead s = .next (s.setPart (s.arg 1) { p with phShadowS := p.phAcc.extractLsb' 32 32 }) := by
  refine (next_if_pos h0 _ _).trans ?_
  rw [State.updPart_of_find hp, h2]; rfl

/-- R337, R338, R350 to R359, R409. -/
theorem powerRules : PowerRules := by
  unfold PowerRules
  refine ⟨?_, ?_, ?_, ?_, ?_, ?_, ?_, ?_, ?_⟩
  · exact fun s t _ ha ht ho hg _ => boostIntervalBoundary_restarts ha ht ho hg
  · rintro s _ i v rfl ho hg hi hv
    exact sensorRead_temps ho hg hi hv
  · rintro s _ _ _ rfl rfl rfl hf
    exact ⟨fieldCurrentSample_critical hf, fieldCurrentSample_calm hf⟩
  · exact fun s h => transitTick_of h
  · exact fun s u h hu => periodBoundary_of h hu
  · rintro s _ rfl hm h0 h1
    exact ⟨fun hf => by rw [exec_sliceEnd hm h0 h1, State.sliceEnd_funded hf], fun bs ht hf hb hn => sliceEnd_spent hm h0 h1 ht hf hb hn⟩
  · rintro s _ _ _ rfl rfl rfl hk ht hd
    refine ⟨_, powerControlWrite_of hk ht hd, ?_⟩
    rw [State.updVf_vf]; exact VF.writeControl_control _ hk _
  · rintro s _ _ _ rfl rfl rfl hk ht hd
    refine ⟨_, powerRangeWrite_of hk ht hd, ?_⟩
    rw [State.updVf_vf]; exact VF.writeRange_range _ hk _
  · exact fun s => ⟨energyLoRead_hostView, energyLoRead_domeView, fun p h0 h2 hp => energyLoRead_partition h0 h2 hp⟩

end Sys2Proof.Machine
end

section
/-!
PROOF. Queues (18 R329 to R336): a host's writes to a queue's registers, and WAIT, SIGNAL, MARK and RESHAPE_ACK as the queue's thread serves
them.
-/

namespace Sys2Proof.Machine

/-! ## A queue's registers (R329, R330, R334) -/

theorem State.updQueue_eq (s : State) (v q : Nat) (f : Queue → Queue) : s.updQueue v q f = s.updQueue v q fun _ => f ((s.vf v).queue q) := rfl

section registers
variable {s : State} (hq : s.arg 1 < 8) (ht : (s.vf (s.arg 0)).tag ≠ 0) (hd : (s.vf (s.arg 0)).tdi ≠ 3)
include hq ht hd

/-- R368, R370: the host reaches one of the queues of a VF that takes its writes. -/
theorem queueWrite_taken : (s.vfTakes (s.arg 0) && decide (s.arg 1 < 8)) = true := by
  simp [State.vfTakes, ht, hd, hq]
theorem exec_qProdWrite : exec .qProdWrite s = .next (s.writeProd (s.arg 0) (s.arg 1) (BitVec.ofNat 32 (s.arg 2))) :=
  next_if_pos (queueWrite_taken hq ht hd) _ _
theorem exec_qCtlEn : exec .qCtlEn s = .next (s.writeEn (s.arg 0) (s.arg 1) (s.arg 2 % 2 == 1)) :=
  next_if_pos (queueWrite_taken hq ht hd) _ _
theorem exec_qCtlRun : exec .qCtlRun s = .next (s.writeRun (s.arg 0) (s.arg 1) (s.arg 2 % 2 == 1)) :=
  next_if_pos (queueWrite_taken hq ht hd) _ _
theorem exec_qCtlAbort : exec .qCtlAbort s = .next (s.writeAbort (s.arg 0) (s.arg 1) (s.arg 2 % 2 == 1)) :=
  next_if_pos (queueWrite_taken hq ht hd) _ _

end registers

section write
variable {s : State} {v q : Nat} {k : Queue} (hk : k = (s.vf v).queue q)
include hk

/-- R330: an idle queue whose producer runs ahead of its ring halts with OVERRUN. -/
theorem State.writeProd_overrun {n : W32} (he : k.en = true) (hs : k.qsize ≠ 0) (ho : 2 ^ k.qsize < (n - k.cons).toNat) (hl : k.launch = 0)
    (hp : k.packet = none) : s.writeProd v q n = s.updQueue v q fun _ => { k with prod := n, last := 14, run := false, halted := true } := by
  have hc : (k.en && k.qsize != 0 && decide (2 ^ k.qsize < (n - k.cons).toNat) && decide (k.launch = 0) && k.packet.isNone) = true := by
    rw [he, bne_iff_ne.2 hs, decide_eq_true ho, decide_eq_true hl, hp]; rfl
  rw [State.writeProd, State.updQueue_eq, ← hk]
  exact congrArg (fun x => s.updQueue v q fun _ => x) (if_pos hc)
theorem State.writeProd_fits {n : W32} (h : (n - k.cons).toNat ≤ 2 ^ k.qsize) :
    s.writeProd v q n = s.updQueue v q fun _ => { k with prod := n } := by
  have hc : (k.en && k.qsize != 0 && decide (2 ^ k.qsize < (n - k.cons).toNat) && decide (k.launch = 0) && k.packet.isNone) = false := by
    rw [decide_eq_false (Nat.not_lt.2 h), Bool.and_false, Bool.false_and, Bool.false_and]
  rw [State.writeProd, State.updQueue_eq, ← hk]
  exact congrArg (fun x => s.updQueue v q fun _ => x) (if_neg (Bool.eq_false_iff.1 hc))
/-- R329: a queue that is enabled takes the first transit thread that is free, when one is. -/
theorem State.writeEn_thread (he : k.en = false) {t : Nat} (hf : (List.range 512).find? (fun t => !s.threadsUsed.contains t) = some t) :
    s.writeEn v q true = s.updQueue v q fun _ => { k with en := true, thread := some t, nothread := false } := by
  subst hk
  simp only [State.writeEn, if_true, if_neg (Bool.eq_false_iff.1 he), hf]
  exact State.updQueue_eq ..
theorem State.writeEn_noThread (he : k.en = false) (hf : (List.range 512).find? (fun t => !s.threadsUsed.contains t) = none) :
    s.writeEn v q true = s.updQueue v q fun _ => { k with nothread := true } := by
  subst hk
  simp only [State.writeEn, if_true, if_neg (Bool.eq_false_iff.1 he), hf]
  exact State.updQueue_eq ..
/-- R329: a queue is disabled once no launch of it runs. -/
theorem State.writeEn_closing (he : k.en = true) (hl : k.launch ≠ 0) : s.writeEn v q false = s.updQueue v q fun _ => { k with closing := true } := by
  subst hk
  have hn : ¬ (!((s.vf v).queue q).en) = true := by simp [he]
  simp only [State.writeEn, Bool.false_eq_true, if_false, if_neg hn, if_pos hl]
  exact State.updQueue_eq ..
theorem State.writeEn_closed (he : k.en = true) (hl : k.launch = 0) : s.writeEn v q false =
    s.updQueue v q fun _ => { k with en := false, thread := none, packet := none, blocked := false, gated := false, ticks := 0 } := by
  subst hk
  have hn : ¬ (!((s.vf v).queue q).en) = true := by simp [he]
  simp only [State.writeEn, Bool.false_eq_true, if_false, if_neg hn, if_neg (not_not.2 hl)]
  exact State.updQueue_eq ..
/-- R330: a hold is lifted, and a record that is due is written. -/
theorem State.writeRun_on : s.writeRun v q true = (s.updQueue v q fun _ => { k with run := true, halted := false }).writeRecord v q := by
  subst hk; rfl
theorem State.writeRun_off : s.writeRun v q false = s.updQueue v q fun _ => { k with run := false } := by
  subst hk; rfl
/-- R334: an abort ends the launch that runs. -/
theorem State.writeAbort_on (hl : k.launch ≠ 0) : s.writeAbort v q true = s.endLaunch k.launch := by
  subst hk; simp [State.writeAbort, hl]
theorem State.writeAbort_idle {on : Bool} (h : on = false ∨ k.launch = 0) : s.writeAbort v q on = s := by
  subst hk; rcases h with h | h <;> simp [State.writeAbort, h]

end write

/-! ## WAIT (R335) -/

section wait
variable {u : State} {v q p : Nat} (hl : field p 10 8 = 5 ∨ u.packetLocked? v p = false)
include hl

theorem waitTest_unlocked : (decide (field p 10 8 ≠ 5) && u.packetLocked? v p) = false := by
  rcases hl with hl | hl <;> simp [hl]
/-- R335: one read of a WAIT: unreadable, satisfied, or not yet. -/
theorem State.waitTest_of (last : Bool) :
    (u.waitRead v p = none → u.waitTest v q p last = u.complete v q 11 2 ((u.vf v).queue q).seen) ∧
    (∀ n, u.waitRead v p = some (n, true) → u.waitTest v q p last = u.complete v q 0 2 (BitVec.ofNat 64 n)) ∧
    ∀ n, u.waitRead v p = some (n, false) → u.waitTest v q p last = if last = true then u.complete v q 10 2 (BitVec.ofNat 64 n)
      else u.updQueue v q fun k => { k with seen := BitVec.ofNat 64 n } := by
  refine ⟨fun h => ?_, fun n h => ?_, fun n h => ?_⟩ <;>
    simp only [State.waitTest, waitTest_unlocked hl, h, Bool.false_eq_true, if_false, if_true]

end wait

section served
variable {s : State} {p : Nat}

/-- R335: a WAIT that is not blocked yet blocks and reads. -/
theorem exec_waitPacket (h : s.Serves (s.arg 0) (s.arg 1) 2 p) (hb : ((s.vf (s.arg 0)).queue (s.arg 1)).blocked = false) :
    exec .waitPacket s = .next (((s.serving (s.arg 0) (s.arg 1) p).updQueue (s.arg 0) (s.arg 1) fun k =>
      { k with blocked := true, ticks := field p 287 256, seen := 0 }).waitTest (s.arg 0) (s.arg 1) p false) := by
  change execWaitPacket s = _
  simp only [execWaitPacket, State.servePacket_of h, hb, Bool.false_eq_true, if_false]
/-- R335: a blocked one with ticks left, or without a limit, reads again. -/
theorem exec_waitRecheck (h : s.Serves (s.arg 0) (s.arg 1) 2 p) (hb : ((s.vf (s.arg 0)).queue (s.arg 1)).blocked = true)
    (hn : ((s.vf (s.arg 0)).queue (s.arg 1)).ticks ≠ 0 ∨ field p 287 256 = 0) :
    exec .waitRecheck s = .next ((s.serving (s.arg 0) (s.arg 1) p).waitTest (s.arg 0) (s.arg 1) p false) := by
  change execWaitRecheck s = _
  rw [execWaitRecheck, State.servePacket_of h]
  exact next_if_pos (by simpa [hb] using hn) _ _
/-- R335: one whose ticks have passed reads for the last time. -/
theorem exec_waitTimeout (h : s.Serves (s.arg 0) (s.arg 1) 2 p) (hb : ((s.vf (s.arg 0)).queue (s.arg 1)).blocked = true)
    (h0 : ((s.vf (s.arg 0)).queue (s.arg 1)).ticks = 0) (hn : field p 287 256 ≠ 0) :
    exec .waitTimeout s = .next ((s.serving (s.arg 0) (s.arg 1) p).waitTest (s.arg 0) (s.arg 1) p true) := by
  change execWaitTimeout s = _
  rw [execWaitTimeout, State.servePacket_of h]
  exact next_if_pos (by simp [hb, h0, hn]) _ _

/-! ## SIGNAL, MARK and RESHAPE_ACK (R336) -/

section signal
variable (h : s.Serves (s.arg 0) (s.arg 1) 3 p) (hc : p.testBit 12 = false) {u : State} (hu : u = s.serving (s.arg 0) (s.arg 1) p)
include h hc hu

/-- R336: a SIGNAL that only interrupts. -/
theorem exec_signalPacket_interrupt (ho : field p 9 8 = 2) :
    exec .signalPacket s = .next ((u.queueIrq (s.arg 0) (s.arg 1) (p.testBit 11)).complete (s.arg 0) (s.arg 1) 0 3 0) := by
  change execSignalPacket s = _
  simp only [execSignalPacket, State.servePacket_of h, ho, hc, if_true, Bool.false_eq_true, if_false, ← hu]
  rfl
variable (ho : field p 9 8 = 0) {w : Nat} (hw : w = if p.testBit 10 = true then 8 else 4)
include ho hw

omit hc in
/-- R336: a SIGNAL whose word cannot be reached is UNMAPPED. -/
theorem exec_signalPacket_unmapped (hl : u.packetWord (s.arg 0) (field p 120 64) w .engineWrite = none) :
    exec .signalPacket s = .next (u.complete (s.arg 0) (s.arg 1) 11 3 0) := by
  have h2 : ¬ (0 = 2) := by decide
  have h1 : ¬ (0 = 1) := by decide
  change execSignalPacket s = _
  simp only [execSignalPacket, State.servePacket_of h, ho, if_neg h2, if_neg h1, ← hu, ← hw, hl]
/-- R336: a SIGNAL that stores a value where no commit holds the line. -/
theorem exec_signalPacket_store {l : Loc} {cells : List (Loc × Byte)} (hb : cells = cellsFrom l (natBytes w (field p 191 128 % 2 ^ (8 * w))))
    (hl : u.packetWord (s.arg 0) (field p 120 64) w .engineWrite = some l) (hn : l.tt ≠ 0 ∨ u.lineLocked (l.addr / 128) = false)
    (ht : u.frontTakes (s.arg 0) { loc := l, home := 0 } = true) :
    exec .signalPacket s = .next (((((u.writeAll cells).clearPoison (cells.map Prod.fst)).forwardWrites cells).queueIrq (s.arg 0) (s.arg 1)
      (p.testBit 11)).complete (s.arg 0) (s.arg 1) 0 3 0) := by
  have h2 : ¬ (0 = 2) := by decide
  have h1 : ¬ (0 = 1) := by decide
  have hk : ¬ (decide (l.tt = 0) && u.lineLocked (l.addr / 128)) = true := by rcases hn with hn | hn <;> simp [hn]
  change execSignalPacket s = _
  simp only [execSignalPacket, State.servePacket_of h, ho, if_neg h2, if_neg h1, if_true, ← hu, ← hw, hl, if_neg hk, ht, ← hb, hc,
    Bool.false_eq_true, if_false]
  rfl

end signal

/-- R336: a MARK records its tag. -/
theorem exec_markPacket (h : s.Serves (s.arg 0) (s.arg 1) 4 p) : exec .markPacket s =
    .next ((s.serving (s.arg 0) (s.arg 1) p).complete (s.arg 0) (s.arg 1) 0 4 (BitVec.ofNat 64 (field p 127 64))) := by
  change execMarkPacket s = _
  rw [execMarkPacket, State.servePacket_of h]

/-- R336: the generation awaited stands. -/
theorem reshapeAck_come {p gen : Nat} (h1 : field p 127 64 ≤ gen) (h2 : gen % 2 = 0) :
    ¬ (decide (gen < field p 127 64) || decide (gen % 2 = 1)) = true := by
  simp only [Bool.or_eq_true, decide_eq_true_eq]; omega

section reshapeAck
variable (h : s.Serves (s.arg 0) (s.arg 1) 5 p) {u : State} (hu : u = s.serving (s.arg 0) (s.arg 1) p) {l gen : Nat}
  (hl : l = ((u.vf (s.arg 0)).queue (field p 10 8)).launch) (hg : gen = (u.part (u.vf (s.arg 0)).tag).gen.toNat)
include h hu hl

/-- R336: the target queue runs no launch. -/
theorem exec_reshapeAck_noLaunch (h0 : l = 0) : exec .reshapeAck s = .next (u.complete (s.arg 0) (s.arg 1) 13 5 0) := by
  change execReshapeAck s = _
  simp only [execReshapeAck, State.servePacket_of h, ← hu, ← hl, if_pos h0]
variable (h0 : l ≠ 0)
include hg h0

/-- R336: the generation awaited has not come, or a reshape is under way. -/
theorem exec_reshapeAck_waits (hn : gen < field p 127 64 ∨ gen % 2 = 1) : exec .reshapeAck s = .next u := by
  have hc : (decide (gen < field p 127 64) || decide (gen % 2 = 1)) = true := by simpa using hn
  change execReshapeAck s = _
  simp only [execReshapeAck, State.servePacket_of h, ← hu, ← hl, ← hg, if_neg h0, if_pos hc]
variable (h1 : field p 127 64 ≤ gen) (h2 : gen % 2 = 0)
include h1 h2

/-- R336: without a table the placement stays. -/
theorem exec_reshapeAck_keeps (ht : field p 184 128 = 0) :
    exec .reshapeAck s = .next (u.complete (s.arg 0) (s.arg 1) 0 5 (BitVec.ofNat 64 gen)) := by
  change execReshapeAck s = _
  simp only [execReshapeAck, State.servePacket_of h, ← hu, ← hl, ← hg, if_neg h0, if_neg (reshapeAck_come h1 h2), if_pos ht]
/-- R336: a table that can be read replaces the launch's, unless it leaves block 0 without a core. -/
theorem exec_reshapeAck_table (ht : field p 184 128 ≠ 0) {places : List (Nat × Nat × Nat)}
    (hw : u.frontWaits (s.arg 0) (s.arg 1) [(field p 184 128, 8 * min 4096 (field p 204 192))] = none)
    (hp : u.readPlaces (s.arg 0) (s.arg 1) (field p 184 128) (field p 204 192) = some places) :
    (u.coreFor (u.vf (s.arg 0)).tag places 0 = none →
      exec .reshapeAck s = .next (u.complete (s.arg 0) (s.arg 1) 4 5 (BitVec.ofNat 64 gen))) ∧
    ∀ c, u.coreFor (u.vf (s.arg 0)).tag places 0 = some c → exec .reshapeAck s =
      .next ((u.updLaunch l fun k => { k with places := places }).complete (s.arg 0) (s.arg 1) 0 5 (BitVec.ofNat 64 gen)) := by
  refine ⟨fun hc => ?_, fun c hc => ?_⟩ <;> change execReshapeAck s = _ <;>
    simp only [execReshapeAck, State.servePacket_of h, ← hu, ← hl, ← hg, if_neg h0, if_neg (reshapeAck_come h1 h2), if_neg ht,
      hw, hp, hc, Option.isNone_none, Option.isNone_some, if_true, Bool.false_eq_true, if_false]

end reshapeAck

end served

/-- R335: the three events of a WAIT, told apart by whether it is blocked and its ticks have passed. -/
theorem waitEvents_of {s u : State} {p : Nat} (h : s.Serves (s.arg 0) (s.arg 1) 2 p)
    (hu : u = (if ((s.vf (s.arg 0)).queue (s.arg 1)).blocked = true then s.serving (s.arg 0) (s.arg 1) p else
      (s.serving (s.arg 0) (s.arg 1) p).updQueue (s.arg 0) (s.arg 1) fun k => { k with blocked := true, ticks := field p 287 256, seen := 0 }))
    {e : Instr × Bool} (he : e ∈ [(Instr.waitPacket, false), (.waitRecheck, false), (.waitTimeout, true)])
    (hb : e.1 = .waitPacket ↔ ((s.vf (s.arg 0)).queue (s.arg 1)).blocked = false)
    (ht : e.1 = .waitTimeout ↔ ((s.vf (s.arg 0)).queue (s.arg 1)).blocked = true ∧ ((s.vf (s.arg 0)).queue (s.arg 1)).ticks = 0 ∧ field p 287 256 ≠ 0) :
    exec e.1 s = .next (u.waitTest (s.arg 0) (s.arg 1) p e.2) := by
  simp only [List.mem_cons, List.not_mem_nil, or_false] at he
  rcases he with rfl | rfl | rfl
  · have hb := hb.1 rfl
    rw [hu, if_neg (by simp [hb])]
    exact exec_waitPacket h hb
  · have hb : ((s.vf (s.arg 0)).queue (s.arg 1)).blocked = true := by
      rw [← Bool.not_eq_false]; exact fun hf => nomatch hb.2 hf
    rw [hu, if_pos hb]
    refine exec_waitRecheck h hb ?_
    by_contra hn
    rw [not_or, not_not] at hn
    exact nomatch ht.2 ⟨hb, hn⟩
  · obtain ⟨hb, h0, hn⟩ := ht.1 rfl
    rw [hu, if_pos hb]
    exact exec_waitTimeout h hb h0 hn

/-- R329 to R336. -/
theorem queueRules : QueueRules := by
  unfold QueueRules
  refine ⟨?_, ?_, ?_, ?_, ?_, ?_⟩
  · rintro s _ _ k rfl rfl hq ht hd hk
    have hon (h : s.arg 2 % 2 = 1) : (s.arg 2 % 2 == 1) = true := by simp [h]
    have hoff (h : s.arg 2 % 2 = 0) : (s.arg 2 % 2 == 1) = false := by simp [h]
    rw [exec_qProdWrite hq ht hd, exec_qCtlEn hq ht hd, exec_qCtlRun hq ht hd, exec_qCtlAbort hq ht hd]
    refine ⟨?_, fun h he => ⟨fun t hf => ?_, fun hf => ?_⟩, fun h he hl => ?_, fun h he hl => ?_, fun h => ?_, fun h => ?_, fun h hl => ?_, fun h => ?_⟩
    · rintro _ rfl
      exact ⟨fun he hs ho hl hp => by rw [State.writeProd_overrun hk he hs ho hl hp], fun hf => by rw [State.writeProd_fits hk hf]⟩
    · rw [hon h, State.writeEn_thread hk he hf]
    · rw [hon h, State.writeEn_noThread hk he hf]
    · rw [hoff h, State.writeEn_closing hk he hl]
    · rw [hoff h, State.writeEn_closed hk he hl]
    · rw [hon h, State.writeRun_on hk]
    · rw [hoff h, State.writeRun_off hk]
    · rw [hon h, State.writeAbort_on hk hl]
    · rw [State.writeAbort_idle hk (h.imp_left hoff)]
  · rintro s _ _ p u rfl rfl h hu hl e he hb ht
    obtain ⟨h1, h2, h3⟩ := State.waitTest_of (v := s.arg 0) (q := s.arg 1) hl e.2
    rw [waitEvents_of h hu he hb ht]
    exact ⟨fun hr => by rw [h1 hr], fun n hr => by rw [h2 n hr], fun n hr => by rw [h3 n hr]⟩
  · rintro s _ _ p u rfl rfl h hu ho hc
    exact exec_signalPacket_interrupt h hc hu ho
  · rintro s _ _ p u w l cells rfl rfl h hu ho hc hw hb
    exact ⟨exec_signalPacket_unmapped h hu ho hw, exec_signalPacket_store h hc hu ho hw hb⟩
  · rintro s _ _ p rfl rfl h
    exact exec_markPacket h
  · rintro s _ _ p u l gen rfl rfl h hu hl hg
    exact ⟨exec_reshapeAck_noLaunch h hu hl, exec_reshapeAck_waits h hu hl hg, exec_reshapeAck_keeps h hu hl hg,
      fun places h0 h1 h2 ht hw hp => exec_reshapeAck_table h hu hl hg h0 h1 h2 ht hw hp⟩

end Sys2Proof.Machine
end

section
/-!
PROOF. Registers as the host and the dome controller reach them, a host's requests, and the resets (00 R5; 09 R204; 21 R368, R369; 23 R410 to
R414).
-/

namespace Sys2Proof.Machine

/-! ## Writes to registers (R5, R369) -/

section registerWrite
variable {s : State}

/-- R369: a write to a block or to the dome MMIO is aligned, and 4 or 8 bytes wide. -/
theorem registerWrite_aligned (h : mmioAligned (s.arg 2) (s.arg 3) = true) :
    ¬ (!mmioAligned (s.arg 2) (s.arg 3) && decide (s.arg 0 < 6)) = true := by
  simp [h]
/-- R5: a register of a partition, a field or a tile is written whole, by number. -/
theorem registerWrite_byNumber (h : 6 ≤ s.arg 0) : ¬ (!mmioAligned (s.arg 2) (s.arg 3) && decide (s.arg 0 < 6)) = true := by
  simp [Nat.not_lt.2 h]
/-- R5, R369: the blocks of VFs and partitions, and the dome MMIO. -/
theorem registerWrite_block (h : mmioAligned (s.arg 2) (s.arg 3) = true) :
    (s.arg 0 = 0 → s.arg 2 < 4096 → exec .registerWrite s = .next (s.writeVf (s.arg 1) .vf (s.arg 2) (s.arg 3) (s.arg 4))) ∧
    (s.arg 0 = 1 → exec .registerWrite s = .next (s.writePart (s.arg 1) (s.arg 2) (s.arg 3) (s.arg 4))) ∧
    (s.arg 0 = 2 → s.arg 1 = 0 → exec .registerWrite s = .next (s.writeDome false (s.arg 2) (s.arg 3) (s.arg 4))) ∧
    (s.arg 0 = 3 → s.arg 2 < 4096 → exec .registerWrite s = .next (s.writeVf (s.arg 1) .pf (s.arg 2) (s.arg 3) (s.arg 4))) ∧
    (s.arg 0 = 4 → exec .registerWrite s = .next (s.writeDome true (s.arg 2) (s.arg 3) (s.arg 4))) ∧
    (s.arg 0 = 5 → s.arg 2 < 4096 → exec .registerWrite s = .next (s.writeVf (s.arg 1) .m (s.arg 2) (s.arg 3) (s.arg 4))) := by
  refine ⟨fun h0 hb => ?_, fun h0 => ?_, fun h0 hb => ?_, fun h0 hb => ?_, fun h0 => ?_, fun h0 hb => ?_⟩ <;>
    refine (next_if_neg (registerWrite_aligned h) _ _).trans ?_ <;> rw [h0]
  · exact next_if_pos hb _ _
  · rfl
  · exact next_if_pos hb _ _
  · exact next_if_pos hb _ _
  · rfl
  · exact next_if_pos hb _ _
theorem registerWrite_partition (h0 : s.arg 0 = 6) (ho : s.arg 2 ≠ 0x892) :
    exec .registerWrite s = .next (s.updPart (s.arg 1) fun p => p.writeM (s.arg 2) (BitVec.ofNat 64 (s.arg 4))) := by
  refine (next_if_neg (registerWrite_byNumber (by omega)) _ _).trans ?_
  rw [h0]
  exact next_if_neg ho _ _
/-- Table 19-4: `HEADROOM` and `PERMITS`. -/
theorem registerWrite_headroom (h0 : s.arg 0 = 7) (hi : s.arg 1 < 72) :
    exec .registerWrite s = .next (s.updFld (s.arg 1) fun x => { x with headroom := min 9 (s.arg 4 % 16) }) := by
  refine (next_if_neg (registerWrite_byNumber (by omega)) _ _).trans ?_
  rw [h0]
  exact next_if_pos (by simp [hi]) _ _
theorem registerWrite_permits (h0 : s.arg 0 = 10) (hi : s.arg 1 < 648) :
    exec .registerWrite s = .next (s.updTile (s.arg 1) fun x => { x with permits := min 64 (s.arg 4 % 128) }) := by
  refine (next_if_neg (registerWrite_byNumber (by omega)) _ _).trans ?_
  rw [h0]
  exact next_if_pos (by simp [hi]) _ _
/-- R126: an entry of a routing table. -/
theorem registerWrite_route (h0 : s.arg 0 = 11) (hi : s.arg 1 < 648) (ho : s.arg 2 < 704) :
    exec .registerWrite s = .next (s.updTile (s.arg 1) fun t => { t with routes := SMap.put t.routes (s.arg 2) (s.arg 4 % 5) }) := by
  refine (next_if_neg (registerWrite_byNumber (by omega)) _ _).trans ?_
  rw [h0]
  exact next_if_pos (by simp [hi, ho]) _ _

end registerWrite

/-! ## Requests of a host (R204, R368, R369) -/

theorem mmioAligned_eq_false {off n : Nat} (h : (n ≠ 4 ∧ n ≠ 8) ∨ off % n ≠ 0) : mmioAligned off n = false := by
  rcases h with ⟨h4, h8⟩ | h <;> simp [mmioAligned, *]
/-- R369. -/
theorem unsupportedRequest_of {s : State} (h : (s.arg 1 ≠ 4 ∧ s.arg 1 ≠ 8) ∨ s.arg 0 % s.arg 1 ≠ 0) :
    exec .unsupportedRequest s = .next (s.answerWith 1 []) :=
  next_if_neg (Bool.eq_false_iff.1 (mmioAligned_eq_false h)) _ _

section request
variable {s : State} (hv : s.arg 0 < 512)
include hv

/-- R368, R369: an access of a VF's BAR. -/
theorem hostRequest_bar (h7 : s.arg 2 = 7) :
    (mmioAligned (s.arg 3 % 2 ^ 32) (s.arg 4) = false → exec .hostOriginatedRequest s = .next (s.answerWith 1 [])) ∧
    (mmioAligned (s.arg 3 % 2 ^ 32) (s.arg 4) = true → s.arg 1 = 1 → s.arg 3 < 2 ^ 32 → exec .hostOriginatedRequest s =
      .next ((s.writeVf (s.arg 0) .vf (s.arg 3 % 2 ^ 32) (s.arg 4) (bytesNat (s.ev.bytes.take (s.arg 4)))).answerWith 0 [])) ∧
    (mmioAligned (s.arg 3 % 2 ^ 32) (s.arg 4) = true → s.arg 1 ≠ 1 →
      exec .hostOriginatedRequest s = .next (s.hostMmioRead (s.arg 0) (s.arg 3 / 2 ^ 32) (s.arg 3 % 2 ^ 32) (s.arg 4))) := by
  have hg : ¬ 512 ≤ s.arg 0 := Nat.not_le.2 hv
  refine ⟨fun ha => ?_, fun ha hw hb => ?_, fun ha hw => ?_⟩ <;> change execHostOriginatedRequest s = _ <;>
    simp only [execHostOriginatedRequest, if_neg hg, if_pos h7, ha, Bool.not_false, Bool.not_true, Bool.false_eq_true, if_false, if_true]
  · simp only [if_pos hw, if_pos hb]
  · simp only [if_neg hw]
/-- R204: nothing is reached through a VF that is not bound. -/
theorem hostRequest_unbound (h5 : s.arg 2 < 5) (ht : (s.vf (s.arg 0)).tag = 0) : exec .hostOriginatedRequest s = .next (s.answerWith 2 []) := by
  refine (next_if_neg (Nat.not_le.2 hv) _ _).trans ((next_if_neg (by omega) _ _).trans ((next_if_neg (by omega) _ _).trans (next_if_pos ?_ _ _)))
  simp [ht]
/-- R130, R204: a read of a place that no line lock can hold is answered with its bytes, or dropped. -/
theorem hostRequest_read (h5 : s.arg 2 < 5) (ht : (s.vf (s.arg 0)).tag ≠ 0) {l : Loc} {a : Agent} (hl : l = ⟨s.arg 2, s.arg 3⟩) (h0 : l.tt ≠ 0)
    (ha : a = { unit := 3, tag := (s.vf (s.arg 0)).tag, core := (s.vf (s.arg 0)).port, lq := s.arg 0 * 8 }) (hr : s.arg 1 ≠ 1) :
    (s.delivers a l = true → exec .hostOriginatedRequest s = .next (s.answerWith 0 (natBytes (s.arg 4) (s.readNum l (s.arg 4))))) ∧
    (s.delivers a l = false →
      exec .hostOriginatedRequest s = .next ((s.dropAt a .hostRead l 0 (s.arg 4) 0 0 0 0).answerWith 2 [])) := by
  have hb : ¬ (decide ((s.vf (s.arg 0)).tag = 0) || decide (5 ≤ s.arg 2)) = true := by simp [ht, h5]
  have e : exec .hostOriginatedRequest s = .next (s.hostAccess (s.arg 0) (decide (s.arg 1 = 1)) l (s.arg 4) (s.ev.bytes.take (s.arg 4))) := by
    rw [hl]
    exact (next_if_neg (Nat.not_le.2 hv) _ _).trans ((next_if_neg (by omega) _ _).trans ((next_if_neg (by omega) _ _).trans (next_if_neg hb _ _)))
  rw [e, decide_eq_false hr]
  refine ⟨fun hd => ?_, fun hd => ?_⟩ <;>
    simp only [State.hostAccess, decide_eq_false h0, Bool.false_and, Bool.false_eq_true, if_false, ← ha, hd, if_true]

end request

/-! ## The drop log and the resets (R410 to R414) -/

theorem Module.withTail_dropHead (m : Module) (v : W32) : ({ m with dropTail := v } : Module).dropHead = m.dropHead := rfl
theorem Module.withTail_dropTail (m : Module) (v : W32) : ({ m with dropTail := v } : Module).dropTail = v := rfl
theorem exec_dropTailWrite (s : State) : exec .dropTailWrite s = .next (s.writeDropTail (s.arg 0)) := rfl
/-- R414: the tail follows the value written, up to the head, which stays. -/
theorem dropTailWrite_of (s : State) : ∃ t, exec .dropTailWrite s = .next t ∧ t.module.dropHead = s.module.dropHead ∧
    t.module.dropTail = if after32 (s.arg 0 % 2 ^ 32) s.module.dropHead.toNat = true then s.module.dropHead else BitVec.ofNat 32 (s.arg 0 % 2 ^ 32) := by
  have e : BitVec.ofNat 32 (s.arg 0 % 2 ^ 32) = BitVec.ofNat 32 (s.arg 0) := by
    apply BitVec.eq_of_toNat_eq; rw [BitVec.toNat_ofNat, BitVec.toNat_ofNat, Nat.mod_mod]
  refine ⟨_, exec_dropTailWrite s, Module.withTail_dropHead _ _, ?_⟩
  rw [e]; exact Module.withTail_dropTail _ _

/-- What a reset with a cause leaves of s: the fuses and the contents of HBM; every partition, VF and launch is gone. -/
structure State.ResetTo (s t : State) (cause : Nat) : Prop where
  cause : t.module.cause = cause
  hbm : t.hbm = s.hbm
  fuses : t.module.fuses = s.module.fuses
  parts : t.parts = []
  vfs : t.vfs = []
  launches : t.launches = []
  ready : t.module.ready = !t.module.recovery
/-- R410 to R412. -/
theorem State.resetWith_to (s : State) (cause : Nat) : s.ResetTo (s.resetWith cause) cause := ⟨rfl, rfl, rfl, rfl, rfl, rfl, rfl⟩
/-- R410: each reset, with the cause that `MOD_CAUSE` then shows. -/
theorem resets_of (s : State) : ∀ e ∈ [(Instr.powerOn, 1), (.resetPin, 2), (.modResetWrite, 3), (.coolantFault, 5), (.undervolt, 6), (.lockstep, 7),
    (.recoveryImage, 8)], (e.1 = .modResetWrite → s.arg 0 = 0x52530001) → (e.1 = .recoveryImage → s.module.recovery = true) →
      ∃ t, exec e.1 s = .next t ∧ s.ResetTo t e.2 := by
  intro e he hm hr
  simp only [List.mem_cons, List.not_mem_nil, or_false] at he
  rcases he with rfl | rfl | rfl | rfl | rfl | rfl | rfl
  case inr.inr.inl => exact ⟨_, next_if_pos (hm rfl) _ _, ⟨rfl, rfl, rfl, rfl, rfl, rfl, rfl⟩⟩
  case inr.inr.inr.inl => exact ⟨_, rfl, ⟨rfl, rfl, rfl, rfl, rfl, rfl, rfl⟩⟩
  case inr.inr.inr.inr.inr.inr => exact ⟨_, next_if_pos (hr rfl) _ _, s.resetWith_to _⟩
  all_goals exact ⟨_, rfl, s.resetWith_to _⟩

/-- R5, R204, R369, R371, R410 to R414. -/
theorem registerRules : RegisterRules := by
  unfold RegisterRules
  refine ⟨?_, ?_, ?_, ?_, ?_⟩
  · rintro s _ _ _ _ rfl rfl rfl rfl
    exact ⟨registerWrite_block, registerWrite_partition, registerWrite_headroom, registerWrite_permits, registerWrite_route⟩
  · rintro s _ _ rfl rfl h
    exact unsupportedRequest_of h
  · rintro s _ _ _ rfl hv rfl rfl
    refine ⟨fun h7 => (hostRequest_bar hv h7).1, fun h7 => (hostRequest_bar hv h7).2.1, fun h7 => (hostRequest_bar hv h7).2.2,
      fun h5 ht => hostRequest_unbound hv h5 ht, fun l a h5 ht hl h0 ha => ⟨fun hd hr => ?_, fun hd hr => ?_⟩⟩
    · exact (hostRequest_read hv h5 ht hl h0 ha hr).1 hd
    · exact (hostRequest_read hv h5 ht hl h0 ha hr).2 hd
  · rintro s _ rfl
    exact dropTailWrite_of s
  · intro e he s hm hr
    obtain ⟨t, ht, hc, hh, hf, hp, hv, hl, hy⟩ := resets_of s e he hm hr
    exact ⟨t, ht, hc, hh, hf, hp, hv, hl, hy⟩

/-- Settles O53: failures, power, queues and registers, clause by clause. -/
theorem moduleEvents : Obligations.ModuleEvents := ⟨failureRules, powerRules, queueRules, registerRules⟩

end Sys2Proof.Machine
end

section
/-!
PROOF. Decoding and encoding (01 R8 to R25). From an instruction to its fields by the kind of fields it has; from the fields back by the
major, whose rows share their checks; then halfwords, words and bytes.
-/

namespace Sys2Proof.Machine

/-! ### The fields of a word, cut and joined again

The library's lemmas on halves of an append, at the widths of Table 01-1, as `simp` meets them. -/

theorem halves_3_3 (x y : BitVec 3) : (x ++ y : BitVec 6).extractLsb' 0 3 = y ∧ (x ++ y : BitVec 6).extractLsb' 3 3 = x :=
  ⟨BitVec.extractLsb'_append_eq_right, BitVec.extractLsb'_append_eq_left⟩
theorem halves_1_5 (x : BitVec 1) (y : BitVec 5) : (x ++ y : BitVec 6).extractLsb' 0 5 = y ∧ (x ++ y : BitVec 6).extractLsb' 5 1 = x :=
  ⟨BitVec.extractLsb'_append_eq_right, BitVec.extractLsb'_append_eq_left⟩
theorem halves_5_1 (x : BitVec 5) (y : BitVec 1) : (x ++ y : BitVec 6).extractLsb' 0 1 = y ∧ (x ++ y : BitVec 6).extractLsb' 1 5 = x :=
  ⟨BitVec.extractLsb'_append_eq_right, BitVec.extractLsb'_append_eq_left⟩
theorem halves_4_2 (x : BitVec 4) (y : BitVec 2) : (x ++ y : BitVec 6).extractLsb' 0 2 = y ∧ (x ++ y : BitVec 6).extractLsb' 2 4 = x :=
  ⟨BitVec.extractLsb'_append_eq_right, BitVec.extractLsb'_append_eq_left⟩
theorem halves_2_4 (x : BitVec 2) (y : BitVec 4) : (x ++ y : BitVec 6).extractLsb' 0 4 = y ∧ (x ++ y : BitVec 6).extractLsb' 4 2 = x :=
  ⟨BitVec.extractLsb'_append_eq_right, BitVec.extractLsb'_append_eq_left⟩
theorem halves_3_1 (x : BitVec 3) (y : BitVec 1) : (x ++ y : BitVec 4).extractLsb' 0 1 = y ∧ (x ++ y : BitVec 4).extractLsb' 1 3 = x :=
  ⟨BitVec.extractLsb'_append_eq_right, BitVec.extractLsb'_append_eq_left⟩
theorem halves_6_6 (x y : BitVec 6) : (x ++ y : BitVec 12).extractLsb' 0 6 = y ∧ (x ++ y : BitVec 12).extractLsb' 6 6 = x :=
  ⟨BitVec.extractLsb'_append_eq_right, BitVec.extractLsb'_append_eq_left⟩
theorem thirds_6_6_6 (x y z : BitVec 6) : (x ++ y ++ z : BitVec 18).extractLsb' 0 6 = z ∧ (x ++ y ++ z : BitVec 18).extractLsb' 6 6 = y ∧
    (x ++ y ++ z : BitVec 18).extractLsb' 12 6 = x :=
  ⟨BitVec.extractLsb'_append_eq_right, (BitVec.extractLsb'_append_eq_of_le (by decide)).trans (halves_6_6 x y).1,
    (BitVec.extractLsb'_append_eq_of_le (by decide)).trans (halves_6_6 x y).2⟩
theorem hint_parts (x y z : BitVec 6) (u v : BitVec 3) : let h : BitVec 24 := x ++ y ++ z ++ u ++ v
    h.extractLsb' 0 3 = v ∧ h.extractLsb' 3 3 = u ∧ h.extractLsb' 6 6 = z ∧ h.extractLsb' 12 6 = y ∧ h.extractLsb' 18 6 = x := by
  refine ⟨?_, ?_, ?_, ?_, ?_⟩ <;>
    (apply BitVec.eq_of_getLsbD_eq; intro i hi; simp only [BitVec.getLsbD_append, BitVec.getLsbD_extractLsb']; grind)

theorem join_1_5 (x : BitVec 6) : x.extractLsb' 5 1 ++ x.extractLsb' 0 5 = x := BitVec.extractLsb'_append_extractLsb'
theorem join_2_4 (x : BitVec 6) : x.extractLsb' 4 2 ++ x.extractLsb' 0 4 = x := BitVec.extractLsb'_append_extractLsb'
theorem join_3_3 (x : BitVec 6) : x.extractLsb' 3 3 ++ x.extractLsb' 0 3 = x := BitVec.extractLsb'_append_extractLsb'
theorem join_4_2 (x : BitVec 6) : x.extractLsb' 2 4 ++ x.extractLsb' 0 2 = x := BitVec.extractLsb'_append_extractLsb'
theorem join_5_1 (x : BitVec 6) : x.extractLsb' 1 5 ++ x.extractLsb' 0 1 = x := BitVec.extractLsb'_append_extractLsb'
theorem join_6_6 (x : BitVec 12) : x.extractLsb' 6 6 ++ x.extractLsb' 0 6 = x := BitVec.extractLsb'_append_extractLsb'
theorem join_3_1 (x : BitVec 4) : x.extractLsb' 1 3 ++ x.extractLsb' 0 1 = x := BitVec.extractLsb'_append_extractLsb'
theorem join_6_6_6 (x : BitVec 18) : x.extractLsb' 12 6 ++ x.extractLsb' 6 6 ++ x.extractLsb' 0 6 = x := by
  apply BitVec.eq_of_getLsbD_eq
  intro i hi
  simp only [BitVec.getLsbD_append, BitVec.getLsbD_extractLsb']
  grind
theorem join_hint (x : BitVec 24) : x.extractLsb' 18 6 ++ x.extractLsb' 12 6 ++ x.extractLsb' 6 6 ++ x.extractLsb' 3 3 ++ x.extractLsb' 0 3 = x := by
  apply BitVec.eq_of_getLsbD_eq
  intro i hi
  simp only [BitVec.getLsbD_append, BitVec.getLsbD_extractLsb']
  grind

/-- A field whose reserved half is what it must be is that half and the other joined. -/
theorem join_high1 {x : BitVec 6} {z : BitVec 1} (h : x.extractLsb' 5 1 = z) : z ++ x.extractLsb' 0 5 = x := h ▸ join_1_5 x
theorem join_high2 {x : BitVec 6} {z : BitVec 2} (h : x.extractLsb' 4 2 = z) : z ++ x.extractLsb' 0 4 = x := h ▸ join_2_4 x
theorem join_high3 {x : BitVec 6} {z : BitVec 3} (h : x.extractLsb' 3 3 = z) : z ++ x.extractLsb' 0 3 = x := h ▸ join_3_3 x
theorem join_high4 {x : BitVec 6} {z : BitVec 4} (h : x.extractLsb' 2 4 = z) : z ++ x.extractLsb' 0 2 = x := h ▸ join_4_2 x
theorem join_low1 {x : BitVec 6} {z : BitVec 1} (h : x.extractLsb' 0 1 = z) : x.extractLsb' 1 5 ++ z = x := h ▸ join_5_1 x
theorem join_low4 {x : BitVec 6} {z : BitVec 4} (h : x.extractLsb' 0 4 = z) : x.extractLsb' 4 2 ++ z = x := h ▸ join_2_4 x

/-! ### From the instruction to the fields and back -/

@[simp] theorem decodeFields_major04 (s pg fn d a b) : decodeFields ⟨s, 4#6, pg, fn, d, a, b⟩ = decodeMajor04 ⟨s, 4#6, pg, fn, d, a, b⟩ := rfl
@[simp] theorem decodeFields_major05 (s pg fn d a b) : decodeFields ⟨s, 5#6, pg, fn, d, a, b⟩ = decodeMajor05 ⟨s, 5#6, pg, fn, d, a, b⟩ := rfl
@[simp] theorem decodeFields_major12 (s pg fn d a b) : decodeFields ⟨s, 18#6, pg, fn, d, a, b⟩ = decodeMajor12 ⟨s, 18#6, pg, fn, d, a, b⟩ := rfl
@[simp] theorem decodeFields_major13 (s pg fn d a b) : decodeFields ⟨s, 19#6, pg, fn, d, a, b⟩ = decodeMajor13 ⟨s, 19#6, pg, fn, d, a, b⟩ := rfl
@[simp] theorem decodeFields_major14 (s pg fn d a b) : decodeFields ⟨s, 20#6, pg, fn, d, a, b⟩ = decodeMajor14 ⟨s, 20#6, pg, fn, d, a, b⟩ := rfl
@[simp] theorem decodeFields_major15 (s pg fn d a b) : decodeFields ⟨s, 21#6, pg, fn, d, a, b⟩ = decodeMajor15 ⟨s, 21#6, pg, fn, d, a, b⟩ := rfl
@[simp] theorem decodeFields_major17 (s pg fn d a b) : decodeFields ⟨s, 23#6, pg, fn, d, a, b⟩ = decodeMajor17 ⟨s, 23#6, pg, fn, d, a, b⟩ := rfl
@[simp] theorem decodeFields_major1A (s pg fn d a b) : decodeFields ⟨s, 26#6, pg, fn, d, a, b⟩ = decodeMajor1A ⟨s, 26#6, pg, fn, d, a, b⟩ := rfl
@[simp] theorem decodeFields_major1B (s pg fn d a b) : decodeFields ⟨s, 27#6, pg, fn, d, a, b⟩ = decodeMajor1B ⟨s, 27#6, pg, fn, d, a, b⟩ := rfl
@[simp] theorem decodeFields_major1C (s pg fn d a b) : decodeFields ⟨s, 28#6, pg, fn, d, a, b⟩ = decodeMajor1C ⟨s, 28#6, pg, fn, d, a, b⟩ := rfl
@[simp] theorem decodeFields_major1E (s pg fn d a b) : decodeFields ⟨s, 30#6, pg, fn, d, a, b⟩ = decodeMajor1E ⟨s, 30#6, pg, fn, d, a, b⟩ := rfl
@[simp] theorem decodeFields_major1F (s pg fn d a b) : decodeFields ⟨s, 31#6, pg, fn, d, a, b⟩ = decodeMajor1F ⟨s, 31#6, pg, fn, d, a, b⟩ := rfl
@[simp] theorem decodeFields_major26 (s pg fn d a b) : decodeFields ⟨s, 38#6, pg, fn, d, a, b⟩ = decodeMajor26 ⟨s, 38#6, pg, fn, d, a, b⟩ := rfl
@[simp] theorem decodeFields_major28 (s pg fn d a b) : decodeFields ⟨s, 40#6, pg, fn, d, a, b⟩ = decodeMajor28 ⟨s, 40#6, pg, fn, d, a, b⟩ := rfl
@[simp] theorem decodeFields_major29 (s pg fn d a b) : decodeFields ⟨s, 41#6, pg, fn, d, a, b⟩ = decodeMajor29 ⟨s, 41#6, pg, fn, d, a, b⟩ := rfl
@[simp] theorem decodeFields_major2A (s pg fn d a b) : decodeFields ⟨s, 42#6, pg, fn, d, a, b⟩ = decodeMajor2A ⟨s, 42#6, pg, fn, d, a, b⟩ := rfl
@[simp] theorem decodeFields_major2B (s pg fn d a b) : decodeFields ⟨s, 43#6, pg, fn, d, a, b⟩ = decodeMajor2B ⟨s, 43#6, pg, fn, d, a, b⟩ := rfl
@[simp] theorem decodeFields_major31 (s pg fn d a b) : decodeFields ⟨s, 49#6, pg, fn, d, a, b⟩ = decodeMajor31 ⟨s, 49#6, pg, fn, d, a, b⟩ := rfl
@[simp] theorem decodeFields_major32 (s pg fn d a b) : decodeFields ⟨s, 50#6, pg, fn, d, a, b⟩ = decodeMajor32 ⟨s, 50#6, pg, fn, d, a, b⟩ := rfl
@[simp] theorem decodeFields_major36 (s pg fn d a b) : decodeFields ⟨s, 54#6, pg, fn, d, a, b⟩ = decodeMajor36 ⟨s, 54#6, pg, fn, d, a, b⟩ := rfl
@[simp] theorem decodeFields_major3A (s pg fn d a b) : decodeFields ⟨s, 58#6, pg, fn, d, a, b⟩ = decodeMajor3A ⟨s, 58#6, pg, fn, d, a, b⟩ := rfl
@[simp] theorem decodeFields_major3B (s pg fn d a b) : decodeFields ⟨s, 59#6, pg, fn, d, a, b⟩ = decodeMajor3B ⟨s, 59#6, pg, fn, d, a, b⟩ := rfl
@[simp] theorem decodeFields_major3D (s pg fn d a b) : decodeFields ⟨s, 61#6, pg, fn, d, a, b⟩ = decodeMajor3D ⟨s, 61#6, pg, fn, d, a, b⟩ := rfl
@[simp] theorem decodeFields_major3E (s pg fn d a b) : decodeFields ⟨s, 62#6, pg, fn, d, a, b⟩ = decodeMajor3E ⟨s, 62#6, pg, fn, d, a, b⟩ := rfl
@[simp] theorem decodeFields_major3F (s pg fn d a b) : decodeFields ⟨s, 63#6, pg, fn, d, a, b⟩ = decodeMajor3F ⟨s, 63#6, pg, fn, d, a, b⟩ := rfl

/-- The fields of a well-formed instruction decode to it: by the kind of fields the instruction has (a condition, a cut immediate, a reserved half). -/
theorem decodeFields_of_encode {i : Instr} {f : Fields} (hw : wellFormed i = true) (he : encode i = some (.word f)) :
    (decodeFields f).map Decoded.instr = .ok i := by
  cases i with
  | iaddi | andi | ori | xori | lii | liu =>
    cases he
    simp [decodeMajor04, decodeMajor05, Except.map, Decoded.instr, join_6_6]
  | shli | shri | srai =>
    cases he
    simp [decodeMajor04, Except.map, Decoded.instr, halves_1_5]
  | unpk8 =>
    cases he
    simp [decodeMajor13, Except.map, Decoded.instr, halves_4_2]
  | icmpEq | icmpNe | icmpLtI32 | icmpLeI32 | icmpLtN32 | icmpLeN32 | pand | por =>
    cases he
    simp [decodeMajor14, Except.map, Decoded.instr, halves_3_3]
  | fcmpEq | fcmpNe | fcmpLt | fcmpLe | fcmpUn | fcmpOrd | pxor | pnot | pmov | pcount | emrd | emwr | emand =>
    cases he
    simp [decodeMajor15, Except.map, Decoded.instr, halves_3_3]
  | barInit | barTwait | qbind | qpush | qpop | qtry | txbegin | txend =>
    cases he
    simp [decodeMajor31, decodeMajor32, decodeMajor36, Except.map, Decoded.instr, halves_3_3]
  | txstatAddr | fltaddr =>
    cases he
    simp [decodeMajor36, decodeMajor3E, Except.map, Decoded.instr, halves_5_1]
  | vraccRow | vraccCol | vwaccRow | vwaccCol =>
    cases he
    simp [decodeMajor3A, decodeMajor3B, Except.map, Decoded.instr, halves_2_4]
  | cvt | vreduce | vscan =>
    cases he
    unfold wellFormed at hw
    dsimp only at hw
    simp [decodeMajor12, decodeMajor17, Except.map, Decoded.instr, hw]
  | sli | slui =>
    cases he
    simp [decodeMajor1A, decodeMajor1B, Except.map, Decoded.instr, join_3_3, join_6_6_6]
  | br | bz | bnz | bany | ball | bnone | call =>
    cases he
    simp [decodeMajor1C, Except.map, Decoded.instr, join_6_6_6]
  | lpb =>
    cases he
    unfold wellFormed at hw
    dsimp only at hw
    simp [decodeMajor1E, Except.map, Decoded.instr, halves_1_5, halves_3_3, join_3_1, hw]
  | yield =>
    cases he
    simp [decodeMajor1F, Except.map, Decoded.instr, join_6_6]
  | ldg32Ord | ldg64Ord | stg32Ord | stg64Ord =>
    cases he
    unfold wellFormed at hw
    dsimp only at hw
    simp [decodeMajor26, Except.map, Decoded.instr, halves_2_4, hw]
  | atomAdd32 | atomMinI32 | atomMaxI32 | atomAnd32 | atomOr32 | atomXor32 | atomExch32 | atomCas32 | atomAdd64 | atomMinN32 | atomMaxN32
  | atomFaddF32 | atomExch64 | atomCas64 =>
    cases he
    unfold wellFormed at hw
    simp only [Bool.and_eq_true] at hw
    simp [decodeMajor28, decodeMajor29, Except.map, Decoded.instr, halves_2_4, hw]
  | redAdd32 | redMinI32 | redMaxI32 | redAnd32 | redOr32 | redXor32 | redFaddF32 | redAdd64 =>
    cases he
    unfold wellFormed at hw
    dsimp only at hw
    simp [decodeMajor2A, Except.map, Decoded.instr, halves_2_4, hw]
  | satomAdd | satomExch | satomCas | satomMaxN64 =>
    cases he
    unfold wellFormed at hw
    simp only [Bool.and_eq_true] at hw
    simp [decodeMajor2B, Except.map, Decoded.instr, halves_2_4, hw]
  | fence s o c =>
    cases he
    unfold wellFormed at hw
    dsimp only at hw
    have ho : o ≠ 0#3 := by rintro rfl; simp [fenceKind] at hw
    simp [decodeMajor2B, Except.map, Decoded.instr, halves_2_4, hw, ho]
  | srd | swr =>
    cases he
    unfold wellFormed at hw
    dsimp only at hw
    simp [decodeMajor3D, Except.map, Decoded.instr, join_6_6, hw]
  | clkq =>
    cases he
    unfold wellFormed at hw
    dsimp only at hw
    simp [decodeMajor3D, Except.map, Decoded.instr, halves_2_4, hw]
  | txstat =>
    cases he
    simp [decodeMajor36, Except.map, Decoded.instr]
  | hint =>
    cases he
    simp [decodeMajor3F, Except.map, Decoded.instr, join_hint]
  | _ => cases he <;> rfl

/-! ### From the fields to the instruction and back

Each row is decided by its checks, which are what `wellFormed` asks and what joins the cut fields again. `encode` and `wellFormed` are unfolded
at one constructor: their equation lemmas, of every instruction at once, cost far more than these proofs. -/

/-- A major opcode and its rows. -/
abbrev Major := BitVec 6 × (Fields → Except Bad Decoded)

/-- What the rows of a major decode is well formed and has the fields it was read from. -/
def Major.ReadsBack (D : Major) : Prop :=
  ∀ f p, f.maj = D.1 → D.2 f = .ok p → wellFormed p.instr = true ∧ encode p.instr = some (.word f)

theorem check_eq_ok {α : Type} {c : Bool} {e : Bad} {x : Except Bad α} {p : α} : (if c then .error e else x) = .ok p ↔ c = false ∧ x = .ok p := by
  cases c <;> simp
theorem ok_eq_ok {α : Type} {q p : α} : (.ok q : Except Bad α) = .ok p ↔ p = q := by simp [eq_comm]

/-- Operations that read every field. -/
def plainMajors : List Major := [(0#6, decodeMajor00), (1#6, decodeMajor01), (2#6, decodeMajor02), (8#6, decodeMajor08), (10#6, decodeMajor0A),
    (16#6, decodeMajor10)]
theorem plainMajors_readBack : ∀ D ∈ plainMajors, D.ReadsBack := by
  simp only [plainMajors, List.forall_mem_cons]
  refine ⟨?_, ?_, ?_, ?_, ?_, ?_, nofun⟩
  all_goals
    rintro ⟨s, maj, pg, fn, d, a, b⟩ p rfl h
    simp only [decodeMajor00, decodeMajor01, decodeMajor02, decodeMajor08, decodeMajor0A, decodeMajor10] at h
    split at h <;> cases h <;> exact ⟨rfl, rfl⟩

/-- Accesses, copies and spawns, which read every field. -/
def accessMajors : List Major := [(32#6, decodeMajor20), (33#6, decodeMajor21), (34#6, decodeMajor22), (35#6, decodeMajor23), (44#6, decodeMajor2C),
    (45#6, decodeMajor2D), (46#6, decodeMajor2E), (51#6, decodeMajor33), (52#6, decodeMajor34)]
theorem accessMajors_readBack : ∀ D ∈ accessMajors, D.ReadsBack := by
  simp only [accessMajors, List.forall_mem_cons]
  refine ⟨?_, ?_, ?_, ?_, ?_, ?_, ?_, ?_, ?_, nofun⟩
  all_goals
    rintro ⟨s, maj, pg, fn, d, a, b⟩ p rfl h
    simp only [decodeMajor20, decodeMajor21, decodeMajor22, decodeMajor23, decodeMajor2C, decodeMajor2D, decodeMajor2E, decodeMajor33, decodeMajor34] at h
    split at h <;> cases h <;> exact ⟨rfl, rfl⟩

/-- Rows selected by the B field. -/
def extMajors : List Major := [(3#6, decodeMajor03), (9#6, decodeMajor09)]
theorem extMajors_readBack : ∀ D ∈ extMajors, D.ReadsBack := by
  simp only [extMajors, List.forall_mem_cons]
  refine ⟨?_, ?_, nofun⟩
  all_goals
    rintro ⟨s, maj, pg, fn, d, a, b⟩ p rfl h
    simp only [decodeMajor03, decodeMajor09] at h
    split at h
    next => split at h <;> cases h <;> exact ⟨rfl, rfl⟩
    next => cases h

/-- Rows with an immediate in A and B. -/
def immediateMajors : List Major := [(4#6, decodeMajor04), (5#6, decodeMajor05), (28#6, decodeMajor1C), (31#6, decodeMajor1F)]
theorem immediateMajors_readBack : ∀ D ∈ immediateMajors, D.ReadsBack := by
  simp only [immediateMajors, List.forall_mem_cons]
  refine ⟨?_, ?_, ?_, ?_, nofun⟩
  all_goals
    rintro ⟨s, maj, pg, fn, d, a, b⟩ p rfl h
    simp only [decodeMajor04, decodeMajor05, decodeMajor1C, decodeMajor1F] at h
    split at h
    all_goals
      simp only [check_eq_ok, ok_eq_ok, Bool.or_eq_false_iff, bne_eq_false_iff_eq, reduceCtorEq] at h <;>
        (simp only [h, Decoded.instr]; unfold encode wellFormed; simp [h, halves_6_6, join_high1, thirds_6_6_6])

/-- Rows that FN does not select. -/
def wideMajors : List Major := [(26#6, decodeMajor1A), (27#6, decodeMajor1B), (63#6, decodeMajor3F)]
theorem wideMajors_readBack : ∀ D ∈ wideMajors, D.ReadsBack := by
  simp only [wideMajors, List.forall_mem_cons]
  refine ⟨?_, ?_, ?_, nofun⟩
  all_goals
    rintro ⟨s, maj, pg, fn, d, a, b⟩ p rfl h
    simp only [decodeMajor1A, decodeMajor1B, decodeMajor3F] at h
    simp only [ok_eq_ok] at h
    simp only [h, Decoded.instr]
    unfold encode wellFormed
    simp [halves_3_3, thirds_6_6_6, hint_parts]

/-- Operations and accesses of uniform registers. -/
def uniformMajors : List Major := [(24#6, decodeMajor18), (25#6, decodeMajor19), (36#6, decodeMajor24), (37#6, decodeMajor25)]
theorem uniformMajors_readBack : ∀ D ∈ uniformMajors, D.ReadsBack := by
  simp only [uniformMajors, List.forall_mem_cons]
  refine ⟨?_, ?_, ?_, ?_, nofun⟩
  all_goals
    rintro ⟨s, maj, pg, fn, d, a, b⟩ p rfl h
    simp only [decodeMajor18, decodeMajor19, decodeMajor24, decodeMajor25] at h
    split at h
    all_goals
      simp only [check_eq_ok, ok_eq_ok, bne_eq_false_iff_eq, reduceCtorEq] at h <;>
        (simp only [h, Decoded.instr]; unfold encode wellFormed; simp)

/-- Control, lane moves and the rest of the rows with reserved fields. -/
def controlMajors : List Major := [(29#6, decodeMajor1D), (22#6, decodeMajor16), (39#6, decodeMajor27), (48#6, decodeMajor30)]
theorem controlMajors_readBack : ∀ D ∈ controlMajors, D.ReadsBack := by
  simp only [controlMajors, List.forall_mem_cons]
  refine ⟨?_, ?_, ?_, ?_, nofun⟩
  all_goals
    rintro ⟨s, maj, pg, fn, d, a, b⟩ p rfl h
    simp only [decodeMajor1D, decodeMajor16, decodeMajor27, decodeMajor30] at h
    split at h
    all_goals
      simp only [check_eq_ok, ok_eq_ok, Bool.or_eq_false_iff, bne_eq_false_iff_eq, reduceCtorEq] at h <;>
        (simp only [h, Decoded.instr]; unfold encode wellFormed; simp)

/-- Engines and matrix operations. -/
def engineMajors : List Major := [(53#6, decodeMajor35), (56#6, decodeMajor38), (57#6, decodeMajor39), (60#6, decodeMajor3C)]
theorem engineMajors_readBack : ∀ D ∈ engineMajors, D.ReadsBack := by
  simp only [engineMajors, List.forall_mem_cons]
  refine ⟨?_, ?_, ?_, ?_, nofun⟩
  all_goals
    rintro ⟨s, maj, pg, fn, d, a, b⟩ p rfl h
    simp only [decodeMajor35, decodeMajor38, decodeMajor39, decodeMajor3C] at h
    split at h
    all_goals
      simp only [check_eq_ok, ok_eq_ok, Bool.or_eq_false_iff, bne_eq_false_iff_eq, reduceCtorEq] at h <;>
        (simp only [h, Decoded.instr]; unfold encode wellFormed; simp)

/-- Ordered and atomic accesses. -/
def orderedMajors : List Major := [(38#6, decodeMajor26), (40#6, decodeMajor28), (41#6, decodeMajor29), (42#6, decodeMajor2A)]
theorem orderedMajors_readBack : ∀ D ∈ orderedMajors, D.ReadsBack := by
  simp only [orderedMajors, List.forall_mem_cons]
  refine ⟨?_, ?_, ?_, ?_, nofun⟩
  all_goals
    rintro ⟨s, maj, pg, fn, d, a, b⟩ p rfl h
    simp only [decodeMajor26, decodeMajor28, decodeMajor29, decodeMajor2A] at h
    split at h
    all_goals
      simp only [check_eq_ok, ok_eq_ok, Bool.or_eq_false_iff, Bool.not_eq_false', reduceCtorEq] at h <;>
        (simp only [h, Decoded.instr]; unfold encode wellFormed; simp [h, join_2_4])

/-- Rows with a predicate in half a field. -/
def predicateMajors : List Major := [(20#6, decodeMajor14), (49#6, decodeMajor31), (50#6, decodeMajor32)]
theorem predicateMajors_readBack : ∀ D ∈ predicateMajors, D.ReadsBack := by
  simp only [predicateMajors, List.forall_mem_cons]
  refine ⟨?_, ?_, ?_, nofun⟩
  all_goals
    rintro ⟨s, maj, pg, fn, d, a, b⟩ p rfl h
    simp only [decodeMajor14, decodeMajor31, decodeMajor32] at h
    split at h
    all_goals
      simp only [check_eq_ok, ok_eq_ok, Bool.or_eq_false_iff, bne_eq_false_iff_eq, reduceCtorEq] at h <;>
        (simp only [h, Decoded.instr]; unfold encode wellFormed; simp [h, join_high3])

/-- Rows of accumulators. -/
def accumulatorMajors : List Major := [(58#6, decodeMajor3A), (59#6, decodeMajor3B)]
theorem accumulatorMajors_readBack : ∀ D ∈ accumulatorMajors, D.ReadsBack := by
  simp only [accumulatorMajors, List.forall_mem_cons]
  refine ⟨?_, ?_, nofun⟩
  all_goals
    rintro ⟨s, maj, pg, fn, d, a, b⟩ p rfl h
    simp only [decodeMajor3A, decodeMajor3B] at h
    split at h
    all_goals
      simp only [ok_eq_ok, reduceCtorEq] at h <;>
        (simp only [h, Decoded.instr]; unfold encode wellFormed; simp [join_2_4])

/-- Rows whose EXT field is checked. -/
def checkedMajors : List Major := [(23#6, decodeMajor17), (30#6, decodeMajor1E), (61#6, decodeMajor3D), (62#6, decodeMajor3E)]
theorem checkedMajors_readBack : ∀ D ∈ checkedMajors, D.ReadsBack := by
  simp only [checkedMajors, List.forall_mem_cons]
  refine ⟨?_, ?_, ?_, ?_, nofun⟩
  all_goals
    rintro ⟨s, maj, pg, fn, d, a, b⟩ p rfl h
    simp only [decodeMajor17, decodeMajor1E, decodeMajor3D, decodeMajor3E] at h
    split at h
    all_goals
      simp only [check_eq_ok, ok_eq_ok, Bool.or_eq_false_iff, bne_eq_false_iff_eq, Bool.not_eq_false', reduceCtorEq] at h <;>
        (simp only [h, Decoded.instr]; unfold encode wellFormed; simp [h, halves_3_1, halves_6_6, join_1_5, join_high3, join_high2, join_low1])

theorem major12_readsBack : Major.ReadsBack (18#6, decodeMajor12) := by
  rintro ⟨s, maj, pg, fn, d, a, b⟩ p rfl h
  simp only [decodeMajor12] at h
  simp only [check_eq_ok, ok_eq_ok, Bool.not_eq_false'] at h
  simp only [h, Decoded.instr]
  unfold encode wellFormed
  simp [h]

theorem major13_readsBack : Major.ReadsBack (19#6, decodeMajor13) := by
  rintro ⟨s, maj, pg, fn, d, a, b⟩ p rfl h
  simp only [decodeMajor13] at h
  split at h
  case h_2 => split at h <;> cases h <;> exact ⟨rfl, rfl⟩
  all_goals
    simp only [check_eq_ok, ok_eq_ok, bne_eq_false_iff_eq, reduceCtorEq] at h <;>
      (simp only [h, Decoded.instr]; unfold encode wellFormed; simp [h, join_high4])

theorem major15_readsBack : Major.ReadsBack (21#6, decodeMajor15) := by
  rintro ⟨s, maj, pg, fn, d, a, b⟩ p rfl h
  simp only [decodeMajor15] at h
  split at h
  case h_8 =>
    split at h
    all_goals
      simp only [check_eq_ok, ok_eq_ok, Bool.or_eq_false_iff, bne_eq_false_iff_eq, reduceCtorEq] at h <;>
        (simp only [*, Decoded.instr]; unfold encode wellFormed; simp [*, join_high3])
  all_goals
    simp only [check_eq_ok, ok_eq_ok, Bool.or_eq_false_iff, bne_eq_false_iff_eq] at h
    simp only [h, Decoded.instr]
    unfold encode wellFormed
    simp [h, join_high3]

theorem major2B_readsBack : Major.ReadsBack (43#6, decodeMajor2B) := by
  rintro ⟨s, maj, pg, fn, d, a, b⟩ p rfl h
  simp only [decodeMajor2B] at h
  split at h
  case h_5 =>
    split at h
    all_goals
      simp only [check_eq_ok, ok_eq_ok, Bool.or_eq_false_iff, bne_eq_false_iff_eq, Bool.not_eq_false'] at h
      simp only [*, Decoded.instr]
      unfold encode wellFormed
      simp [*, join_low4]
  all_goals
    simp only [check_eq_ok, ok_eq_ok, Bool.or_eq_false_iff, bne_eq_false_iff_eq, Bool.not_eq_false', reduceCtorEq] at h <;>
      (simp only [h, Decoded.instr]; unfold encode wellFormed; simp [h, join_low4])

theorem major36_readsBack : Major.ReadsBack (54#6, decodeMajor36) := by
  rintro ⟨s, maj, pg, fn, d, a, b⟩ p rfl h
  simp only [decodeMajor36] at h
  split at h
  case h_4 =>
    split at h
    all_goals
      simp only [check_eq_ok, ok_eq_ok, Bool.or_eq_false_iff, bne_eq_false_iff_eq] at h
      simp only [*, Decoded.instr]
      unfold encode wellFormed
      simp [*, join_low1]
  all_goals
    simp only [check_eq_ok, ok_eq_ok, Bool.or_eq_false_iff, bne_eq_false_iff_eq, reduceCtorEq] at h <;>
      (simp only [h, Decoded.instr]; unfold encode wellFormed; simp [h, join_high3])

/-- The rows of the majors that share no check with another. -/
def singleMajors : List Major := [(18#6, decodeMajor12), (19#6, decodeMajor13), (21#6, decodeMajor15), (43#6, decodeMajor2B), (54#6, decodeMajor36)]

/-- Every assigned major (Table 01-5). -/
def assignedMajors : List Major :=
  plainMajors ++ accessMajors ++ extMajors ++ immediateMajors ++ wideMajors ++ uniformMajors ++ controlMajors ++
    engineMajors ++ orderedMajors ++ predicateMajors ++ accumulatorMajors ++ checkedMajors ++ singleMajors

theorem assignedMajors_readBack : ∀ D ∈ assignedMajors, D.ReadsBack := by
  simp only [assignedMajors, singleMajors, List.forall_mem_append, List.forall_mem_cons]
  exact ⟨⟨⟨⟨⟨⟨⟨⟨⟨⟨⟨⟨plainMajors_readBack, accessMajors_readBack⟩, extMajors_readBack⟩, immediateMajors_readBack⟩, wideMajors_readBack⟩,
      uniformMajors_readBack⟩, controlMajors_readBack⟩, engineMajors_readBack⟩, orderedMajors_readBack⟩, predicateMajors_readBack⟩,
          accumulatorMajors_readBack⟩, checkedMajors_readBack⟩, major12_readsBack, major13_readsBack, major15_readsBack, major2B_readsBack,
              major36_readsBack, nofun⟩

theorem encode_of_major {k : BitVec 6} {D : Fields → Except Bad Decoded} {f : Fields} {p : Decoded} (hm : f.maj = k) (h : D f = .ok p)
    (hD : (k, D) ∈ assignedMajors) : wellFormed p.instr = true ∧ encode p.instr = some (.word f) :=
  assignedMajors_readBack _ hD f p hm h

theorem encode_of_decodeFields {f : Fields} {p : Decoded} (h : decodeFields f = .ok p) : wellFormed p.instr = true ∧ encode p.instr = some (.word f) := by
  unfold decodeFields at h
  split at h
  case h_55 => cases h
  all_goals exact encode_of_major ‹f.maj = _› h (by simp [assignedMajors, plainMajors, accessMajors, extMajors, immediateMajors, wideMajors,
      uniformMajors, controlMajors, engineMajors, orderedMajors, predicateMajors, accumulatorMajors, checkedMajors, singleMajors])

/-! ### The short forms -/

/-- The halfword of a short form, from its fields (Table 01-4). -/
def shortWord (op : BitVec 4) (s : Bool) (d a : BitVec 5) : BitVec 16 := a ++ d ++ op ++ BitVec.ofBool s ++ 0#1

theorem shortWord_fields (op : BitVec 4) (s : Bool) (d a : BitVec 5) : let w := shortWord op s d a
    w.getLsbD 0 = false ∧ w.getLsbD 1 = s ∧ w.extractLsb' 2 4 = op ∧ w.extractLsb' 6 5 = d ∧ w.extractLsb' 11 5 = a := by
  refine ⟨?_, ?_, ?_, ?_, ?_⟩
  · simp only [shortWord, BitVec.getLsbD_append]; simp
  · simp only [shortWord, BitVec.getLsbD_append]; simp
  all_goals
    apply BitVec.eq_of_getLsbD_eq; intro i hi
    simp only [shortWord, BitVec.getLsbD_append, BitVec.getLsbD_extractLsb']
    grind

/-- A halfword of length two is its fields. -/
theorem shortWord_of_even {w : BitVec 16} (h : w.getLsbD 0 = false) :
    shortWord (w.extractLsb' 2 4) (w.getLsbD 1) (w.extractLsb' 6 5) (w.extractLsb' 11 5) = w := by
  apply BitVec.eq_of_getLsbD_eq; intro i hi
  simp only [shortWord, BitVec.getLsbD_append, BitVec.getLsbD_extractLsb', BitVec.getLsbD_ofBool, BitVec.getLsbD_zero]
  grind

theorem encode_shortInstr (op : BitVec 4) (s : Bool) (d a : BitVec 5) : encode (shortInstr op s d a) = some (.half (shortWord op s d a)) := by
  unfold shortInstr
  split
  case h_16 =>
    have hop : op = 15#4 := by simp only [BitVec.toNat_eq] at *; simp at *; omega
    rw [hop]; rfl
  all_goals rfl

/-- The only halfword that is no instruction is 0 (R10). -/
theorem wellFormed_shortInstr (op : BitVec 4) (s : Bool) (d a : BitVec 5) :
    wellFormed (shortInstr op s d a) = true ↔ shortWord op s d a ≠ 0#16 := by
  obtain ⟨-, hs, hop, hd, ha⟩ := shortWord_fields op s d a
  by_cases h0 : op = 0#4
  · subst h0
    rw [← not_iff_not, not_not, Bool.not_eq_true]
    show (s || d != 0 || a != 0) = false ↔ _
    simp only [Bool.or_eq_false_iff, bne_eq_false_iff_eq]
    exact ⟨fun ⟨⟨h1, h2⟩, h3⟩ => by rw [h1, h2, h3]; rfl, fun h => ⟨⟨by rw [← hs, h]; rfl, by rw [← hd, h]; rfl⟩, by rw [← ha, h]; rfl⟩⟩
  · have hw : shortWord op s d a ≠ 0#16 := fun h => h0 (by rw [← hop, h]; rfl)
    unfold shortInstr
    split
    · exact absurd rfl h0
    all_goals exact iff_of_true rfl hw

/-- An instruction with a halfword is a short form. -/
theorem short_of_encode {i : Instr} {w : BitVec 16} (he : encode i = some (.half w)) :
    ∃ op s d a, w = shortWord op s d a ∧ i = shortInstr op s d a := by
  cases i with
  | movShort | iaddShort | isubShort | imulShort | andShort | orShort | xorShort | shlShort | shrShort | faddShort | fsubShort | fmulShort
  | fmaxShort | fminShort | fnegShort | ldsShort =>
    cases he
    exact ⟨_, _, _, _, rfl, rfl⟩
  | _ => cases he

theorem decodeHalf_of_encode {i : Instr} {w : BitVec 16} (hw : wellFormed i = true) (he : encode i = some (.half w)) :
    lengthOfHalf w = 2 ∧ ∃ p, decodeHalf w = .ok p ∧ p.instr = i := by
  obtain ⟨op, s, d, a, rfl, rfl⟩ := short_of_encode he
  obtain ⟨h0, hs, hop, hd, ha⟩ := shortWord_fields op s d a
  refine ⟨by rw [lengthOfHalf, h0]; rfl, ?_⟩
  exact ⟨.short op s d a, by rw [decodeHalf, if_neg ((wellFormed_shortInstr op s d a).1 hw), hs, hop, hd, ha], rfl⟩

theorem encode_of_decodeHalf {w : BitVec 16} {p : Decoded} (hl : lengthOfHalf w = 2) (h : decodeHalf w = .ok p) :
    wellFormed p.instr = true ∧ encode p.instr = some (.half w) := by
  have h0 : w.getLsbD 0 = false := by simpa [lengthOfHalf] using hl
  by_cases hz : w = 0#16
  · rw [decodeHalf, if_pos hz] at h; cases h
  · rw [decodeHalf, if_neg hz] at h; cases h
    have e := shortWord_of_even h0
    exact ⟨(wellFormed_shortInstr ..).2 (by rwa [e]), by simp only [Decoded.instr, encode_shortInstr, e]⟩

/-! ### Words and bytes -/

theorem fieldsOf_word (f : Fields) : fieldsOf f.word = f := by
  obtain ⟨s, maj, pg, fn, d, a, b⟩ := f
  simp only [fieldsOf, Fields.word, Fields.mk.injEq]
  refine ⟨by simp only [BitVec.getLsbD_append]; simp, ?_, ?_, ?_, ?_, ?_, ?_⟩
  all_goals
    apply BitVec.eq_of_getLsbD_eq; intro i hi
    simp only [BitVec.getLsbD_append, BitVec.getLsbD_extractLsb']
    grind

/-- A word of length four is its fields. -/
theorem word_fieldsOf {w : BitVec 32} (h : w.getLsbD 0 = true) : (fieldsOf w).word = w := by
  apply BitVec.eq_of_getLsbD_eq; intro i hi
  simp only [fieldsOf, Fields.word, BitVec.getLsbD_append, BitVec.getLsbD_extractLsb', BitVec.getLsbD_ofBool]
  grind

theorem word_odd (f : Fields) : f.word.getLsbD 0 = true := by simp only [Fields.word, BitVec.getLsbD_append]; simp

theorem halfOf_bytes (w : BitVec 16) : halfOf (w.extractLsb' 0 8) (w.extractLsb' 8 8) = w := BitVec.extractLsb'_append_extractLsb'

theorem halfOf_low (b0 b1 : Byte) : (halfOf b0 b1).extractLsb' 0 8 = b0 ∧ (halfOf b0 b1).extractLsb' 8 8 = b1 :=
  ⟨BitVec.extractLsb'_append_eq_right, BitVec.extractLsb'_append_eq_left⟩

theorem join_bytes (w : BitVec 32) : w.extractLsb' 24 8 ++ w.extractLsb' 16 8 ++ w.extractLsb' 8 8 ++ w.extractLsb' 0 8 = w := by
  apply BitVec.eq_of_getLsbD_eq; intro i hi
  simp only [BitVec.getLsbD_append, BitVec.getLsbD_extractLsb']
  grind

theorem bytes_join (b0 b1 b2 b3 : Byte) : let w := b3 ++ b2 ++ b1 ++ b0
    w.extractLsb' 0 8 = b0 ∧ w.extractLsb' 8 8 = b1 ∧ w.extractLsb' 16 8 = b2 ∧ w.extractLsb' 24 8 = b3 := by
  refine ⟨?_, ?_, ?_, ?_⟩ <;>
    (apply BitVec.eq_of_getLsbD_eq; intro i hi; simp only [BitVec.getLsbD_append, BitVec.getLsbD_extractLsb']; grind)

/-- The first byte of an instruction gives its length (R8). -/
theorem lengthOfHalf_halfOf (b0 b1 : Byte) : lengthOfHalf (halfOf b0 b1) = if b0.getLsbD 0 then 4 else 2 := by
  simp only [lengthOfHalf, halfOf, BitVec.getLsbD_append]; rfl

theorem decodeWord_word (f : Fields) : decodeWord f.word = (decodeFields f).map Decoded.instr := by rw [decodeWord, fieldsOf_word]

theorem encode_of_decodeWord {w : BitVec 32} {i : Instr} (h : decodeWord w = .ok i) :
    wellFormed i = true ∧ encode i = some (.word (fieldsOf w)) := by
  rw [decodeWord] at h
  cases hf : decodeFields (fieldsOf w) with
  | ok p => rw [hf] at h; cases h; exact encode_of_decodeFields hf
  | error => rw [hf] at h; cases h

theorem decode_word_bytes {f : Fields} {i : Instr} (h : decodeWord f.word = .ok i) (rest : List Byte) : decode (Enc.bytes (.word f) ++ rest) = .ok (i, rest) := by
  have hl : ¬ lengthOfHalf (halfOf (f.word.extractLsb' 0 8) (f.word.extractLsb' 8 8)) = 2 := by
    simp [lengthOfHalf_halfOf, -BitVec.getLsbD_eq_getElem, word_odd]
  simp only [Enc.bytes, List.cons_append, List.nil_append, decode, hl, if_false, join_bytes, h]

theorem decode_half_bytes {w : BitVec 16} {p : Decoded} (hl : lengthOfHalf w = 2) (h : decodeHalf w = .ok p) (rest : List Byte) :
    decode (Enc.bytes (.half w) ++ rest) = .ok (p.instr, rest) := by
  simp only [Enc.bytes, List.cons_append, List.nil_append, decode, halfOf_bytes, hl, if_true, h]

theorem decode_of_encode {i : Instr} {e : Enc} (rest : List Byte) (hw : wellFormed i = true) (he : encode i = some e) :
    decode (e.bytes ++ rest) = .ok (i, rest) := by
  cases e with
  | half w =>
    obtain ⟨hl, p, hp, rfl⟩ := decodeHalf_of_encode hw he
    exact decode_half_bytes hl hp rest
  | word f => exact decode_word_bytes ((decodeWord_word f).trans (decodeFields_of_encode hw he)) rest

theorem encode_of_decode {bs rest : List Byte} {i : Instr} (h : decode bs = .ok (i, rest)) :
    wellFormed i = true ∧ ∃ e, encode i = some e ∧ bs = e.bytes ++ rest := by
  unfold decode at h
  split at h
  next b0 b1 tail =>
    split at h
    next hl =>
      split at h
      next p hp =>
        cases h
        obtain ⟨hw, he⟩ := encode_of_decodeHalf hl hp
        exact ⟨hw, _, he, by simp [Enc.bytes, halfOf_low]⟩
      next => cases h
    next hl =>
      split at h
      next b2 b3 tail' =>
        split at h
        next j hj =>
          cases h
          have hw0 : (b3 ++ b2 ++ b1 ++ b0).getLsbD 0 = true := by
            rw [lengthOfHalf_halfOf] at hl; simp only [BitVec.getLsbD_append]; simpa using hl
          obtain ⟨hw, he⟩ := encode_of_decodeWord hj
          obtain ⟨e0, e1, e2, e3⟩ := bytes_join b0 b1 b2 b3
          exact ⟨hw, _, he, by simp only [Enc.bytes, word_fieldsOf hw0, e0, e1, e2, e3, List.cons_append, List.nil_append]⟩
        next => cases h
      next => cases h
  next => cases h

/-- Settles O56: both directions go by the length of the instruction, a word through its fields, a halfword through the fields of its short form. -/
theorem decodeAndEncodeAgree : Obligations.DecodeAndEncodeAgree :=
  ⟨fun _ _ rest => decode_of_encode rest, fun _ _ _ => encode_of_decode⟩

end Sys2Proof.Machine
end

section
/-!
PROOF. A step runs what the bytes at the program counter decode to (01 R8, R9, 02 R70, R71, 18 R343), and the words the spec lists.
-/

namespace Sys2Proof.Machine

/-! ### A step runs what was fetched -/

/-! #### Bytes, halfwords and words -/

theorem halves_word (b0 b1 b2 b3 : Byte) : halfOf b2 b3 ++ halfOf b0 b1 = b3 ++ b2 ++ b1 ++ b0 := by
  apply BitVec.eq_of_getLsbD_eq; intro i hi
  simp only [halfOf, BitVec.getLsbD_append]
  grind
theorem setWidth_low (w : W16) : (w.setWidth 32).extractLsb' 0 16 = w := by
  apply BitVec.eq_of_getLsbD_eq; intro i hi
  simp only [BitVec.getLsbD_extractLsb', BitVec.getLsbD_setWidth]
  grind

theorem lengthOfHalf_cases (h : W16) : lengthOfHalf h = 2 ∨ lengthOfHalf h = 4 := by
  unfold lengthOfHalf; split
  · exact .inr rfl
  · exact .inl rfl

/-- Two bytes decode by their halfword. -/
theorem half_of_decode {b0 b1 : Byte} {i : Instr} (h : decode [b0, b1] = .ok (i, [])) :
    lengthOfHalf (halfOf b0 b1) = 2 ∧ ∃ p, decodeHalf (halfOf b0 b1) = .ok p ∧ p.instr = i := by
  unfold decode at h
  by_cases hl : lengthOfHalf (halfOf b0 b1) = 2
  · simp only [if_pos hl] at h
    cases hd : decodeHalf (halfOf b0 b1) with
    | ok p => rw [hd] at h; cases h; exact ⟨hl, p, rfl, rfl⟩
    | error => rw [hd] at h; cases h
  · simp only [if_neg hl] at h
    cases h

/-- Four bytes that are one instruction decode by the fields of their word. -/
theorem word_of_decode {b0 b1 b2 b3 : Byte} {i : Instr} (h : decode [b0, b1, b2, b3] = .ok (i, [])) :
    lengthOfHalf (halfOf b0 b1) = 4 ∧ ∃ p, decodeFields (fieldsOf (b3 ++ b2 ++ b1 ++ b0)) = .ok p ∧ p.instr = i := by
  rcases lengthOfHalf_cases (halfOf b0 b1) with hl | hl
  · rw [decode, if_pos hl] at h
    cases hd : decodeHalf (halfOf b0 b1) <;> rw [hd] at h <;> cases h
  · refine ⟨hl, ?_⟩
    rw [decode, if_neg (by rw [hl]; decide)] at h
    cases hd : decodeFields (fieldsOf (b3 ++ b2 ++ b1 ++ b0)) with
    | ok p => simp only [decodeWord, hd, Except.map] at h; cases h; exact ⟨p, rfl, rfl⟩
    | error => simp only [decodeWord, hd, Except.map] at h; cases h

theorem State.Fetches.fetchHalf {s : State} {va : W64} {b0 b1 : Byte} (h : s.Fetches va b0 b1) : s.fetchHalf va = .ok (halfOf b0 b1) := by
  obtain ⟨x, ht, hd, hp, h0, h1⟩ := h
  simp only [State.fetchHalf, ht, hd, hp, h0, h1, Bool.not_true, Bool.false_eq_true, if_false]

theorem State.Fetches.fetchWord_half {s : State} {va : W64} {b0 b1 : Byte} (h : s.Fetches va b0 b1) (hl : lengthOfHalf (halfOf b0 b1) = 2) :
    s.fetchWord va = .ok ((halfOf b0 b1).setWidth 32, 2) := by
  simp only [State.fetchWord, h.fetchHalf, hl, if_true]

theorem State.Fetches.fetchWord_word {s : State} {va : W64} {b0 b1 b2 b3 : Byte} (h : s.Fetches va b0 b1) (h' : s.Fetches (va + 2) b2 b3)
    (hl : lengthOfHalf (halfOf b0 b1) = 4) : s.fetchWord va = .ok (b3 ++ b2 ++ b1 ++ b0, 4) := by
  have hn : ¬ lengthOfHalf (halfOf b0 b1) = 2 := by rw [hl]; decide
  simp only [State.fetchWord, h.fetchHalf, h'.fetchHalf, hn, if_false, halves_word]

/-! #### The issue of the context that has the turn -/

section issueCur
variable {t : State} (hrc : t.cur.recipe ≠ some t.cur.pc) (hh : t.held = false) {w : W32} {len : Nat} (hw : t.fetchWord t.cur.pc = .ok (w, len))
include hrc hh hw

/-- Outside a stepped loop pass the word is the one fetched. -/
theorem issueCur_plain (hl : ∀ l, t.cur.loop = some l → l.steps = [] ∨ t.cur.recipe.isSome = true) {p : Decoded}
    (hd : (if len = 2 then decodeHalf (w.extractLsb' 0 16) else decodeFields (fieldsOf w)) = .ok p) : t.issueCur = .run p t := by
  rw [State.issueCur, if_neg hrc, hh, hw]
  cases hloop : t.cur.loop with
  | none => simp only [Bool.false_eq_true, if_false, hd]
  | some l =>
    have hc : (l.steps.isEmpty || t.cur.recipe.isSome) = true := by
      rcases hl l hloop with h | h <;> simp [h]
    simp only [Bool.false_eq_true, if_false, hc, if_true, hd]

section pass
variable {l : LoopState} (hloop : t.cur.loop = some l) (hsteps : l.steps ≠ []) (hnone : t.cur.recipe = none)
include hloop hsteps hnone

/-- In a loop pass a short form that is not stepped is the one fetched (R71). -/
theorem issueCur_pass_half {x : W16} {p : Decoded} (hs : (if len = 2 then stepHalf l (w.extractLsb' 0 16) else stepFields32 l (fieldsOf w) len) = .half x)
    (hd : (if len = 2 then decodeHalf (w.extractLsb' 0 16) else decodeFields (fieldsOf w)) = .ok p) : t.issueCur = .run p t := by
  have hc : (l.steps.isEmpty || t.cur.recipe.isSome) = false := by simp [hnone, hsteps]
  rw [State.issueCur, if_neg hrc, hh, hw]
  simp only [Bool.false_eq_true, if_false, hloop, hc, hs, hd]

/-- In a loop pass a stepped word has the fields its step words make of it (R71). -/
theorem issueCur_pass_word {f : Fields} {off : W64} {n : Nat} {r : Bool} {p : Decoded}
    (hs : (if len = 2 then stepHalf l (w.extractLsb' 0 16) else stepFields32 l (fieldsOf w) len) = .word f off n r) (hd : decodeFields f = .ok p) :
    t.issueCur = .run p { t with cur := { t.cur with addrOff := off, slotLen := n, stepped := r } } := by
  have hc : (l.steps.isEmpty || t.cur.recipe.isSome) = false := by simp [hnone, hsteps]
  rw [State.issueCur, if_neg hrc, hh, hw]
  simp only [Bool.false_eq_true, if_false, hloop, hc, hs, hd, State.updCur]

end pass
end issueCur

/-! #### The turn -/

theorem step_event {s : State} {i : Instr} {d : Ev} {rest : List Move} (h : s.agenda = .ev i d :: rest)
    (hi : i = .clockDriveStep → s.issueDue (d.args.getD 0 0) = false) : step s = exec i { s with agenda := rest, ev := d } := by
  have ht : s.todo = .event i { s with agenda := rest, ev := d } := by
    by_cases hc : i = .clockDriveStep
    · subst hc
      simp only [State.todo, h, hi rfl, Bool.false_eq_true, if_false]
    · simp only [State.todo, h]
  rw [step, ht]

/-- R343: the core's group issues alone, with its clock drive's step behind it. -/
theorem cycle_group {s : State} {k : Nat} {x : Ctx} (ha : s.agenda = []) (hx : s.arbiter k = some x) (hq : s.readyOn k true = []) :
    s.cycle k = (({ s with agenda := [.ev .clockDriveStep ⟨[k], []⟩] } : State).switchTo x.id).issueCur := by
  rw [State.cycle, hx, hq]
  show (({ s with agenda := .ev .clockDriveStep ⟨[k], []⟩ :: s.agenda } : State).switchTo x.id).issueCur = _
  rw [ha]

/-- R343: what is to be done is the issue of the context that has the turn. -/
theorem todo_of_givesTurn {s t : State} (h : s.GivesTurn t) : s.todo = t.issueCur := by
  obtain ⟨id, rest, c, ha, hc, hr, hs, rfl⟩ | ⟨k, x, ha, hra, ht, hn, hx, hq, rfl⟩ := h
  · have hc' : ({ s with agenda := rest } : State).ctx? id = some c := hc
    simp only [State.todo, ha, hc', hr, hs, Bool.and_self, if_true]
  · have hraised : (!s.raised.isEmpty) = false := by rw [hra]; rfl
    rw [← cycle_group (s := { s with turn := s.turn + 1 }) ha hx hq, State.todo.eq_def]
    split
    case h_6 => simp only [hraised, Bool.false_eq_true, if_false, hn, if_neg ht]
    all_goals
      rename_i hne
      exact absurd (ha.symm.trans hne) (by simp)

theorem step_of_run {s t u : State} {p : Decoded} (h : s.GivesTurn t) (hr : t.issueCur = .run p u) : step s = exec p.instr u := by
  rw [step, todo_of_givesTurn h, hr]
  rfl

/-- Settles O55: the turn gives the context's issue, the issue the word fetched or stepped, the word its instruction. -/
theorem stepRunsDecoded : Obligations.StepRunsDecoded := by
  refine ⟨fun s i d rest h hi => step_event h hi, fun s t b0 b1 hturn hheld hrc hf => ⟨fun hl => ⟨?_, ?_⟩, fun l hloop hsteps hnone => ⟨?_, ?_, ?_⟩⟩⟩
  · intro i hd
    obtain ⟨h2, p, hp, rfl⟩ := half_of_decode hd
    exact step_of_run hturn (issueCur_plain hrc hheld (hf.fetchWord_half h2) hl (by rw [if_pos rfl, setWidth_low, hp]))
  · intro i b2 b3 hf' hd
    obtain ⟨h4, p, hp, rfl⟩ := word_of_decode hd
    exact step_of_run hturn (issueCur_plain hrc hheld (hf.fetchWord_word hf' h4) hl hp)
  · intro i h2 hs hd
    obtain ⟨-, p, hp, rfl⟩ := half_of_decode hd
    exact step_of_run hturn (issueCur_pass_half hrc hheld (hf.fetchWord_half h2) hloop hsteps hnone (by rw [if_pos rfl, setWidth_low, hs])
      (by rw [if_pos rfl, setWidth_low, hp]))
  · intro f off n r p h2 hs hp
    exact step_of_run hturn (issueCur_pass_word hrc hheld (hf.fetchWord_half h2) hloop hsteps hnone (by rw [if_pos rfl, setWidth_low, hs]) hp)
  · intro b2 b3 f off n r p h4 hf' hs hp
    exact step_of_run hturn (issueCur_pass_word hrc hheld (hf.fetchWord_word hf' h4) hloop hsteps hnone hs hp)

/-! ### The spec's own words -/

/-- Settles O57: each word is decoded. -/
theorem sampleWords : Obligations.SampleWords := by
  unfold Obligations.SampleWords
  decide +kernel

end Sys2Proof.Machine
end

section
/-!
PROOF. Lane operations that a form of their operands executes (02 R50 to R55, 01 R18), and the short forms.
-/

namespace Sys2Proof.Machine

/-! ### An instruction that a lane form executes -/

theorem computes1_of_float1 {i : Bool → BitVec 3 → BitVec 6 → BitVec 6 → Instr} {f : W32 → FRes} (cls : Nat)
    (hi : ∀ sm g d a s, exec (i sm g d a) s = float1 sm g cls d a f s) : Computes1 i f :=
  fun sm g d a s h hv => hi sm g d a s ▸ float1_wroteV h sm g cls d a hv f

theorem computes2_of_float2 {i : Bool → BitVec 3 → BitVec 6 → BitVec 6 → BitVec 6 → Instr} {f : W32 → W32 → FRes} (cls : Nat)
    (hi : ∀ sm g d a b s, exec (i sm g d a b) s = float2 sm g cls d a b f s) : Computes2 i f :=
  fun sm g d a b s h hv => hi sm g d a b s ▸ float2_wroteV h sm g cls d a b hv f

theorem computes3_of_float3 {i : Bool → BitVec 3 → BitVec 6 → BitVec 6 → BitVec 6 → Instr} {f : W32 → W32 → W32 → FRes} (cls : Nat)
    (hi : ∀ sm g d a b s, exec (i sm g d a b) s = float3 sm g cls d a b f s) : Computes3 i f :=
  fun sm g d a b s h hv => hi sm g d a b s ▸ float3_wroteV h sm g cls d a b hv f

theorem defers1_of_slow1 {i : Bool → BitVec 3 → BitVec 6 → BitVec 6 → Instr} {f : W32 → FRes} (cls : Nat)
    (hi : ∀ sm g d a s, exec (i sm g d a) s = slow1 sm g cls d a f s) : Defers1 i f :=
  fun sm g d a s h hv => hi sm g d a s ▸ slow1_left h sm g cls d a hv f

theorem defers2_of_slow2 {i : Bool → BitVec 3 → BitVec 6 → BitVec 6 → BitVec 6 → Instr} {f : W32 → W32 → FRes} (cls : Nat)
    (hi : ∀ sm g d a b s, exec (i sm g d a b) s = slow2 sm g cls d a b f s) : Defers2 i f :=
  fun sm g d a b s h hv => hi sm g d a b s ▸ slow2_left h sm g cls d a b hv f

/-- A form without flags, in the words of one whose lanes could raise some. -/
theorem computes1_of_lane1 {i : Bool → BitVec 3 → BitVec 6 → BitVec 6 → Instr} {f : W32 → W32} (cls : Nat)
    (hi : ∀ sm g d a s, exec (i sm g d a) s = lane1 sm g cls d a f s) : Computes1 i (fun x => ⟨f x, 0⟩) := by
  intro sm g d a s h hv
  simpa only [hi, ite_self] using lane1_wroteV h sm g cls d a hv f

/-- R13, R50: `fneg` does not read A. -/
theorem computes2_fneg : Computes2 .fneg (fun _ y => ⟨y ^^^ 0x80000000, 0⟩) := by
  intro sm g d a b s h hv
  have hdb : s.hasV [d.toNat, b.toNat] := fun r hr => hv r (by simp only [List.mem_cons] at hr ⊢; tauto)
  have hi : exec (.fneg sm g d a b) s = lane1 sm g 0 d b negElem s := rfl
  simpa only [hi, ite_self, negElem] using lane1_wroteV h sm g 0 d b hdb negElem

/-- Settles O5: each operation is executed by a form of its operands, which `Laws/Operands` describes. -/
theorem floatLaneOperations : Obligations.FloatLaneOperations :=
  ⟨computes2_of_float2 0 fun _ _ _ _ _ _ => rfl, computes2_of_float2 0 fun _ _ _ _ _ _ => rfl, computes2_of_float2 1 fun _ _ _ _ _ _ => rfl,
    computes3_of_float3 1 fun _ _ _ _ _ _ => rfl, computes2_of_float2 0 fun _ _ _ _ _ _ => rfl, computes2_of_float2 0 fun _ _ _ _ _ _ => rfl,
    computes2_fneg, computes1_of_lane1 0 fun _ _ _ _ _ => rfl,
    computes2_of_float2 0 fun _ _ _ _ _ _ => rfl, computes2_of_float2 1 fun _ _ _ _ _ _ => rfl, computes3_of_float3 1 fun _ _ _ _ _ _ => rfl,
    computes2_of_float2 0 fun _ _ _ _ _ _ => rfl, computes2_of_float2 0 fun _ _ _ _ _ _ => rfl, computes3_of_float3 1 fun _ _ _ _ _ _ => rfl,
    fun _ _ => computes1_of_float1 1 fun _ _ _ _ _ => rfl, computes2_of_float2 1 fun _ _ _ _ _ _ => rfl,
    computes1_of_float1 1 fun _ _ _ _ _ => rfl, computes1_of_float1 1 fun _ _ _ _ _ => rfl,
    computes3_of_float3 1 fun _ _ _ _ _ _ => rfl, computes3_of_float3 1 fun _ _ _ _ _ _ => rfl, fun _ => computes1_of_lane1 1 fun _ _ _ _ _ => rfl,
    defers2_of_slow2 3 fun _ _ _ _ _ _ => rfl, defers1_of_slow1 2 fun _ _ _ _ _ => rfl, defers1_of_slow1 2 fun _ _ _ _ _ => rfl,
    defers1_of_slow1 3 fun _ _ _ _ _ => rfl, defers1_of_slow1 2 fun _ _ _ _ _ => rfl, defers1_of_slow1 2 fun _ _ _ _ _ => rfl⟩

/-! ### The short forms -/

theorem computesShort_of_short2 {i : Bool → BitVec 5 → BitVec 5 → Instr} {f : W32 → W32 → W32} (cls : Nat)
    (hi : ∀ sm d a s, exec (i sm d a) s = short2 sm cls d a f s) : ComputesShort i (fun x y => ⟨f x y, 0⟩) := by
  intro sm d a s h hv
  simpa only [hi, ite_self] using short2_wroteV h sm cls d a hv f

theorem computesShort_of_shortF {i : Bool → BitVec 5 → BitVec 5 → Instr} {f : W32 → W32 → FRes} (cls : Nat)
    (hi : ∀ sm d a s, exec (i sm d a) s = shortF sm cls d a f s) : ComputesShort i f :=
  fun sm d a s h hv => hi sm d a s ▸ shortF_wroteV h sm cls d a hv f

/-- A short form that reads a alone. -/
theorem computesShort_of_readA {i : Bool → BitVec 5 → BitVec 5 → Instr} {f : W32 → W32}
    (hi : ∀ sm d a s, exec (i sm d a) s = issue { laneMeta sm 0 0 (topReg [d.toNat, a.toNat]) [a.toNat] with len := 2 } s fun t =>
      .done (t.writeV d.toNat (t.act 0) (ofLanes fun k => f (laneOf (t.readV a.toNat) k)))) :
    ComputesShort i (fun _ y => ⟨f y, 0⟩) := by
  intro sm d a s h hv
  rw [hi]
  refine issue_wroteV (m := { laneMeta sm 0 0 (topReg [d.toNat, a.toNat]) [a.toNat] with len := 2 })
    h.1 (illegal_lane h (topReg_le hv) (Nat.zero_le _) (.inl rfl) rfl) rfl rfl (w := s.cur.em)
    (x := ofLanes fun k => f (laneOf (s.rawV a.toNat) k)) (fl := 0) ?_ ?_ ?_
  · simp only [charge_readV h, charge_act h, ← ready_act h, act_zero h, State.orFlags_zero]
  · intro k hk; simp only [laneOf_ofLanes _ hk]
  · simpa only [ite_self] using noFlags

/-- Settles O4: each short form computes as the form of its operands does, in the lanes of `em`. -/
theorem shortFormOperations : Obligations.ShortFormOperations :=
  ⟨computesShort_of_readA fun _ _ _ _ => rfl, computesShort_of_short2 0 fun _ _ _ _ => rfl, computesShort_of_short2 0 fun _ _ _ _ => rfl,
    computesShort_of_short2 1 fun _ _ _ _ => rfl, computesShort_of_short2 0 fun _ _ _ _ => rfl, computesShort_of_short2 0 fun _ _ _ _ => rfl,
    computesShort_of_short2 0 fun _ _ _ _ => rfl, computesShort_of_short2 0 fun _ _ _ _ => rfl, computesShort_of_short2 0 fun _ _ _ _ => rfl,
    computesShort_of_shortF 0 fun _ _ _ _ => rfl, computesShort_of_shortF 0 fun _ _ _ _ => rfl, computesShort_of_shortF 1 fun _ _ _ _ => rfl,
    computesShort_of_shortF 0 fun _ _ _ _ => rfl, computesShort_of_shortF 0 fun _ _ _ _ => rfl, computesShort_of_readA fun _ _ _ _ => rfl⟩

end Sys2Proof.Machine
end

section
/-!
PROOF. Counts, reductions and scans of the active lanes (02 R58, R62), by induction on the lanes below a bound.
-/

namespace Sys2Proof.Machine

/-! ### Reductions and scans -/

/-- One lane of a scan: the running value, the flags, and the value kept for the lane. -/
def scanStep (op : W32 → W32 → FRes) (v : Vec) (a : W32 × FFlags × SMap W32) (k : Nat) : W32 × FFlags × SMap W32 :=
  ((op a.1 (laneOf v k)).v, a.2.1 ||| (op a.1 (laneOf v k)).fl, SMap.put a.2.2 k (op a.1 (laneOf v k)).v)
/-- `scanLanes` over the lanes below n. -/
def scanTo (act : Mask) (v : Vec) (op : W32 → W32 → FRes) (id_ : W32) (n : Nat) : W32 × FFlags × SMap W32 :=
  (List.range n).foldl (fun a k => if act.getLsbD k then scanStep op v a k else a) (id_, 0, [])

theorem scanLanes_eq (e : Nat) (act : Mask) (v : Vec) : scanLanes e act v = scanTo act v (reduceOp e) (reduceId e) 256 := by
  rw [scanLanes, maskLanes, List.foldl_filter]
  rfl

section scan
variable (act : Mask) (v : Vec) (op : W32 → W32 → FRes) (id_ : W32)

theorem scanTo_succ (n : Nat) : scanTo act v op id_ (n + 1) =
    if act.getLsbD n then scanStep op v (scanTo act v op id_ n) n else scanTo act v op id_ n := by
  simp only [scanTo, List.range_succ, List.foldl_append, List.foldl_cons, List.foldl_nil]
theorem reduceTo_succ (n : Nat) : reduceTo act v op id_ (n + 1) =
    if act.getLsbD n then ((op (reduceTo act v op id_ n).1 (laneOf v n)).v, (reduceTo act v op id_ n).2 ||| (op (reduceTo act v op id_ n).1 (laneOf v n)).fl)
    else reduceTo act v op id_ n := by
  simp only [reduceTo, List.range_succ, List.foldl_append, List.foldl_cons, List.foldl_nil]

/-- The running value and the flags of a scan are those of the reduction. -/
theorem scanTo_total (n : Nat) : (scanTo act v op id_ n).1 = (reduceTo act v op id_ n).1 ∧ (scanTo act v op id_ n).2.1 = (reduceTo act v op id_ n).2 := by
  induction n with
  | zero => exact ⟨rfl, rfl⟩
  | succ n ih =>
    obtain ⟨ih1, ih2⟩ := ih
    rw [scanTo_succ, reduceTo_succ]
    split
    · simp only [scanStep, ih1, ih2, and_self]
    · exact ⟨ih1, ih2⟩

/-- A scan keeps for each active lane the reduction up to it. -/
theorem scanTo_kept {k n : Nat} (hk : k < n) (ha : act.getLsbD k = true) :
    SMap.get 0 (scanTo act v op id_ n).2.2 k = (reduceTo act v op id_ (k + 1)).1 := by
  induction n with
  | zero => omega
  | succ n ih =>
    rw [scanTo_succ]
    rcases Nat.lt_succ_iff_lt_or_eq.1 hk with h | rfl
    · split
      · rw [scanStep, SMap.get_put, if_neg (by omega), ih h]
      · exact ih h
    · rw [if_pos ha, scanStep, SMap.get_put, if_pos rfl, reduceTo_succ, if_pos ha, (scanTo_total act v op id_ k).1]

end scan

theorem maskCount_and (m n : Mask) : maskCount (m &&& n) = (List.range 256).countP fun k => m.getLsbD k && n.getLsbD k := by
  simp only [maskCount, maskLanes, lanes, ← List.countP_eq_length_filter, BitVec.getLsbD_and]

theorem minS_eq : minS = fun x y => BitVec.ofInt 32 (min x.toInt y.toInt) := by
  funext x y; rw [minS, min_def]; split <;> rw [BitVec.ofInt_toInt]
theorem maxS_eq : maxS = fun x y => BitVec.ofInt 32 (max x.toInt y.toInt) := by
  funext x y; rw [maxS, max_def]; split <;> rw [BitVec.ofInt_toInt]
theorem minU_eq : minU = fun x y => BitVec.ofNat 32 (min x.toNat y.toNat) := by
  funext x y; rw [minU, min_def]; split <;> rw [BitVec.ofNat_toNat, BitVec.setWidth_eq]
theorem maxU_eq : maxU = fun x y => BitVec.ofNat 32 (max x.toNat y.toNat) := by
  funext x y; rw [maxU, max_def]; split <;> rw [BitVec.ofNat_toNat, BitVec.setWidth_eq]

/-- Equal operations without flags. -/
theorem withoutFlags {f f' : W32 → W32 → W32} (h : f = f') : (fun x y => (⟨f x y, 0⟩ : FRes)) = fun x y => ⟨f' x y, 0⟩ := by rw [h]

section reductions
variable {s : State} (h : s.GroupReady) (sm : Bool) (g : BitVec 3)
include h

theorem pcount_left (d : BitVec 6) (a : BitVec 3) : ∃ t, exec (.pcount sm g d a) s = .next t ∧ s.LeftResult t 4 4 sm
    [.uni d.toNat (BitVec.ofNat 64 ((List.range 256).countP fun k => (s.act g).getLsbD k && (s.rawP a.toNat).getLsbD k)) false] 0 := by
  refine issue_leftResult (m := laneMeta sm g 2 0 []) h.1 (laneMeta_ok h (l := []) (by simp [State.hasV])) rfl rfl ?_
  simp only [charge_readP h, charge_act h, ready_act h, maskCount_and]

theorem vreduce_left (d a e : BitVec 6) (hv : s.hasV [a.toNat]) : ∃ t, exec (.vreduce sm g d a e) s = .next t ∧
    s.LeftResult t 4 4 sm [.uni d.toNat (0#32 ++ (reduceTo (s.act g) (s.rawV a.toNat) (reduceOp e.toNat) (reduceId e.toNat) 256).1) false]
      (reduceTo (s.act g) (s.rawV a.toNat) (reduceOp e.toNat) (reduceId e.toNat) 256).2 := by
  refine issue_leftResult (m := laneMeta sm g 2 (topReg [a.toNat]) [a.toNat]) h.1 (laneMeta_ok h hv) rfl rfl ?_
  obtain ⟨h1, h2⟩ := scanTo_total (s.act g) (s.rawV a.toNat) (reduceOp e.toNat) (reduceId e.toNat) 256
  simp only [charge_readV h, charge_act h, ← ready_act h, scanLanes_eq, h1, h2, BitVec.setWidth_eq_append (by decide : 32 ≤ 64)]
  rfl

theorem vscan_left (d a e : BitVec 6) (hv : s.hasV [d.toNat, a.toNat]) : ∃ t x, exec (.vscan sm g d a e) s = .next t ∧
    s.LeftResult t 4 4 sm [.vec d.toNat (s.act g) x 0] (reduceTo (s.act g) (s.rawV a.toNat) (reduceOp e.toNat) (reduceId e.toNat) 256).2 ∧
    ∀ k < 256, (s.act g).getLsbD k → laneOf x k = (reduceTo (s.act g) (s.rawV a.toNat) (reduceOp e.toNat) (reduceId e.toNat) (k + 1)).1 := by
  let r := scanTo (s.act g) (s.rawV a.toNat) (reduceOp e.toNat) (reduceId e.toNat) 256
  have h2 := (scanTo_total (s.act g) (s.rawV a.toNat) (reduceOp e.toNat) (reduceId e.toNat) 256).2
  obtain ⟨t, h3, h4⟩ := issue_leftResult (m := laneMeta sm g 2 (topReg [d.toNat, a.toNat]) [a.toNat]) h.1 (laneMeta_ok h hv) rfl rfl
    (vals := [.vec d.toNat (s.act g) (ofLanes fun i => SMap.get 0 r.2.2 i) 0]) (fl := r.2.1)
    (body := fun t => .done (t.defer [.vec d.toNat (t.act g) (ofLanes fun i => SMap.get 0 (scanLanes e.toNat (t.act g) (t.readV a.toNat)).2.2 i) 0]
      (scanLanes e.toNat (t.act g) (t.readV a.toNat)).2.1 e4Steps true))
    (by simp only [charge_readV h, charge_act h, ← ready_act h, scanLanes_eq, r])
  refine ⟨t, _, h3, h2 ▸ h4, fun k hk ha => ?_⟩
  rw [laneOf_ofLanes _ hk, scanTo_kept _ _ _ _ hk ha]

end reductions

/-- Settles O10: each row of Table 02-5 is folded over the active lanes in ascending order, by induction on the lanes below a bound. -/
theorem laneReductions : Obligations.LaneReductions := by
  refine ⟨fun sm g d a s h => pcount_left h sm g d a, fun p hp => ?_⟩
  obtain ⟨hid, hop⟩ : reduceId p.1.toNat = p.2.1 ∧ reduceOp p.1.toNat = p.2.2 := by
    revert p
    simp only [List.forall_mem_cons]
    refine ⟨⟨rfl, rfl⟩, ⟨rfl, ?_⟩, ⟨rfl, ?_⟩, ⟨rfl, ?_⟩, ⟨rfl, ?_⟩, ⟨rfl, rfl⟩, ⟨rfl, rfl⟩, ⟨rfl, rfl⟩, ⟨rfl, rfl⟩, ⟨rfl, rfl⟩, ⟨rfl, rfl⟩, nofun⟩
    · exact withoutFlags minS_eq
    · exact withoutFlags maxS_eq
    · exact withoutFlags minU_eq
    · exact withoutFlags maxU_eq
  rw [← hid, ← hop]
  exact ⟨fun sm g d a s h hv => vreduce_left h sm g d a p.1 hv, fun sm g d a s h hv => vscan_left h sm g d a p.1 hv⟩

end Sys2Proof.Machine
end

section
/-!
PROOF. Hints, the loop exit and the loop buffer (02 R69 to R73, 01 R22, R26).
-/

namespace Sys2Proof.Machine

/-! ### Control that leaves the context where it is, or moves it -/

theorem mask_ne_zero_iff {m : Mask} : m ≠ 0 ↔ ∃ k < 256, m.getLsbD k = true := by
  constructor
  · intro h
    by_contra hn
    push Not at hn
    exact h (BitVec.eq_of_getLsbD_eq fun k hk => by simpa using hn k hk)
  · rintro ⟨k, -, hk⟩ rfl
    simp at hk

/-- R72: whether some lane of `em` has its bit of the predicate. -/
theorem some_lane_iff {e p : Mask} : (e &&& p != 0) = true ↔ ∃ k < 256, e.getLsbD k = true ∧ p.getLsbD k = true := by
  rw [bne_iff_ne, mask_ne_zero_iff]
  simp only [BitVec.getLsbD_and, Bool.and_eq_true]

theorem hint_wroteNothing {s : State} (h : s.Ready) (sm : Bool) :
    ∃ t, issue { ctlMeta sm true [] with recipe := true } s .done = .next t ∧ s.WroteNothing t 4 :=
  issue_wroteNothing h (illegal_uniform h rfl (Nat.zero_le _) rfl (fun _ => rfl) (.inl rfl) rfl) rfl rfl rfl

section lpx
variable {s : State} (h : s.GroupReady) (sm : Bool) (n : BitVec 3)
include h

theorem lpx_outside (hl : s.cur.loop = none) : ∃ t, exec (.lpx sm n) s = .next t ∧ s.WroteNothing t 4 := by
  refine issue_wroteNothing h.1 (ctlMeta_ok h.1 sm false [] (.inr h.2)) rfl rfl ?_
  simp only [State.charge_cur_loop, hl]

theorem lpx_noLane {l : LoopState} (hl : s.cur.loop = some l) (hn : ∀ k < 256, s.cur.em.getLsbD k → !(s.rawP n.toNat).getLsbD k) :
    ∃ t, exec (.lpx sm n) s = .next t ∧ s.WroteNothing t 4 := by
  have hc : ¬ (s.cur.em &&& s.rawP n.toNat != 0) = true := by
    rw [some_lane_iff]
    rintro ⟨k, hk, he, hp⟩
    simpa [hp] using hn k hk he
  refine issue_wroteNothing h.1 (ctlMeta_ok h.1 sm false [] (.inr h.2)) rfl rfl ?_
  simp only [State.charge_cur_loop, hl, State.charge_cur_em, charge_readP h, if_neg hc]

theorem lpx_someLane {l : LoopState} (hl : s.cur.loop = some l) (hn : ∃ k < 256, s.cur.em.getLsbD k ∧ (s.rawP n.toNat).getLsbD k) :
    ∃ t, exec (.lpx sm n) s = .next t ∧ s.MovedTo t (l.addrs.getD (l.addrs.length - 1) 0) ∧ t.cur.loop = none := by
  have hc : (s.cur.em &&& s.rawP n.toNat != 0) = true := some_lane_iff.2 hn
  refine issue_goto h.1 (ctlMeta_ok h.1 sm false [] (.inr h.2)) rfl ?_
  simp only [State.charge_cur_loop, hl, State.charge_cur_em, charge_readP h, if_pos hc]

end lpx

/-- Settles O14: `nop` and hints have no effect, and `lpx` takes one of the three ways its loop state and its lanes give. -/
theorem hintsAndLoopExit : Obligations.HintsAndLoopExit :=
  ⟨fun sm _ h => hint_wroteNothing h sm, fun sm _ _ h => hint_wroteNothing h sm, fun sm n _ h hl => lpx_outside h sm n hl,
    fun sm n _ _ h hl hn => lpx_noLane h sm n hl hn, fun sm n _ _ h hl hn => lpx_someLane h sm n hl hn⟩

/-! ### The loop buffer -/

/-- R22: a body that can be fetched, with valid step words, is assigned outside a body. -/
theorem lpbDetail_none {s : State} {len : BitVec 5} {steps : BitVec 4} {a : List W64} {w : List W32} (hl : s.cur.loop = none)
    (hb : s.readBody len steps = .ok (a, w, true)) : s.lpbDetail len steps = none := by
  simp [State.lpbDetail, hl, hb]

/-- R70: a loop body starts, with nothing in flight. -/
theorem Eff.close_loop_quiet {m : Meta} {u : State} (l : LoopState) (hd : u.cur.deferred = []) :
    (Eff.loop u l).close m = { u with cur := { u.cur with
      addrOff := 0, slotLen := 0, stepped := false, answers := [], probe := 0, woken := 0, pc := l.addrs.getD 0 0, loop := some l } } := by
  unfold Eff.close
  simp only [State.clearIssue, State.updCur]
  split
  · exact State.settle_none hd
  · rfl

theorem issue_loop {m : Meta} {s : State} (h : s.Ready) (hi : s.illegal m = none) (hn : m.insn = false)
    {body : State → Eff} {l : LoopState} (hb : body (s.charge m) = .loop (s.charge m) l) :
    ∃ t, issue m s body = .next t ∧ s.MovedTo t (l.addrs.getD 0 0) ∧ t.cur.loop = some l := by
  refine ⟨{ s.charge m with cur := { (s.charge m).cur with
      addrOff := 0, slotLen := 0, stepped := false, answers := [], probe := 0, woken := 0, pc := l.addrs.getD 0 0, loop := some l } },
    ?_, ⟨rfl, ?_, ?_, ?_⟩, rfl⟩
  · rw [issue_ready h hi hn, hb, Eff.close_loop_quiet l (by simp [h.written])]
  · exact State.sameBytes_mem (by simp)
  · simp
  · refine (State.charge_keeps s m).trans ⟨?_, fun _ => rfl, fun _ => rfl⟩
    simp only [Ctx.aside]

/-- Settles O27: `lpb` goes behind a body it runs no pass of, and to its first slot else. -/
theorem loopBuffer : Obligations.LoopBuffer := by
  intro sm c len steps s a w h hl hb
  have hi : s.illegal { ctlMeta sm true [c.toNat] with extra := s.lpbDetail len steps } = none :=
    illegal_uniform h rfl (Nat.zero_le _) rfl (fun _ => rfl) (.inl rfl) (lpbDetail_none hl hb)
  by_cases h0 : s.rawS c.toNat = 0
  · simp only [if_pos h0]
    exact issue_goto h hi rfl (by simp only [charge_readBody, hb, charge_readS h, if_pos h0])
  · simp only [if_neg h0]
    exact issue_loop (l := { count := s.rawS c.toNat, addrs := a, steps := w }) h hi rfl (by simp only [charge_readBody, hb, charge_readS h, if_neg h0])

end Sys2Proof.Machine
end

section
/-!
PROOF. Exceptions, jumps, traps and returns (02 R66, R68, R77, 05 R136, R137): a word that raises an event, or may not execute, enters the
handler of the group it runs in.
-/

namespace Sys2Proof.Machine

/-! ### Taking an exception in a group in U mode -/

/-- R136: what an event leaves when it enters the handler of the group's partition: r is the faults raised then. -/
def State.entered (s : State) (r : List (Nat × BitVec 512)) (e : FaultEv) : State :=
  ({ s.clearIssue with raised := r } : State).enterHandler (s.part s.curTag).svVec e

/-- R136: what the handler finds, and what the entry leaves. -/
theorem State.entered_fields (s : State) (r : List (Nat × BitVec 512)) (e : FaultEv) : let t := s.entered r e
    t.cur.pc = evenPc (s.part s.curTag).svVec ∧ t.cur.smode = true ∧ t.cur.epc = e.pc ∧ t.cur.cause = causeWord e ∧ t.cur.sregs = s.cur.sregs :=
  ⟨rfl, rfl, rfl, rfl, rfl⟩

/-- Fields of at most their widths, packed by Table 05-7, come apart again. -/
theorem cause_parts {k d l n p c : Nat} (hk : k < 256) (hd : d < 256) (hl : l < 256) (hn : n < 512) (hp : p < 2) (hc : c < 64) :
    let x := k + d * 256 + l * 65536 + n * 16777216 + p * 8589934592 + c * 17179869184
    x < 18446744073709551616 ∧ x % 256 = k ∧ x / 256 % 256 = d ∧ x / 17179869184 % 64 = c := by
  intro x
  refine ⟨?_, ?_, ?_, ?_⟩ <;> omega
/-- Table 05-7: KIND, DETAIL and CODE of the cause word. -/
theorem causeWord_toNat (e : FaultEv) : (causeWord e).toNat % 256 = e.kind % 256 ∧
    (causeWord e).toNat / 256 % 256 = (if e.kind = 15 then 0 else e.detail) % 256 ∧ (causeWord e).toNat / 17179869184 % 64 = e.code % 64 := by
  obtain ⟨h0, h1, h2, h3⟩ := cause_parts (k := e.kind % 256) (d := (if e.kind = 15 then 0 else e.detail) % 256) (l := e.lane % 256) (n := e.count % 512)
    (c := e.code % 64) (Nat.mod_lt _ (by decide)) (Nat.mod_lt _ (by decide)) (Nat.mod_lt _ (by decide)) (Nat.mod_lt _ (by decide)) (Bool.toNat_lt e.spoff)
    (Nat.mod_lt _ (by decide))
  have ht := Nat.mod_eq_of_lt h0
  simp only [causeWord, BitVec.toNat_ofNat, Nat.reducePow, ht]
  exact ⟨h1, h2, h3⟩
theorem causeWord_kind (e : FaultEv) : (causeWord e).extractLsb' 0 8 = BitVec.ofNat 8 e.kind :=
  BitVec.eq_of_toNat_eq (by rw [BitVec.extractLsb'_toNat, BitVec.toNat_ofNat, Nat.shiftRight_zero]; exact (causeWord_toNat e).1)
theorem causeWord_detail (e : FaultEv) : (causeWord e).extractLsb' 8 8 = BitVec.ofNat 8 (if e.kind = 15 then 0 else e.detail) :=
  BitVec.eq_of_toNat_eq (by rw [BitVec.extractLsb'_toNat, BitVec.toNat_ofNat, Nat.shiftRight_eq_div_pow]; exact (causeWord_toNat e).2.1)
theorem causeWord_code (e : FaultEv) : (causeWord e).extractLsb' 34 6 = BitVec.ofNat 6 e.code :=
  BitVec.eq_of_toNat_eq (by rw [BitVec.extractLsb'_toNat, BitVec.toNat_ofNat, Nat.shiftRight_eq_div_pow]; exact (causeWord_toNat e).2.2)

/-- R25: what precedes a fault, outside a transaction. -/
theorem State.beforeFault_eq (s : State) (ht : s.cur.txg = false) :
    s.beforeFault = { s with
      oracle := s.oracle + 1, cores := s.beforeFault.cores, cur := { s.cur with reissue := false, age := s.beforeFault.cur.age } } := by
  simp [State.beforeFault, State.abortOpen, ht, State.updCur, State.updCore, State.setCore]

section enters
variable {s : State} (h : s.GroupReady) (hu : s.cur.smode = false) (hv : (s.part s.curTag).svVec ≠ 0)
include h hu hv

/-- An instruction whose effect is an event enters the handler. -/
theorem issue_event_enters {m : Meta} (hi : s.illegal m = none) (hn : m.insn = false ∨ s.cur.txg = false) (hr : m.nonreplay = false)
    {body : State → Eff} {e : FaultEv} (hb : body (s.charge m) = .event (s.charge m) e) :
    ∃ r, (e.kind = kTrap → r = s.raised) ∧ issue m s body = .next ((s.charge m).entered r e) := by
  have hc : (Eff.event (s.charge m) e).close m = (s.charge m).raise e := by
    show ((s.charge m).mark m.nonreplay).raise e = _
    rw [hr, State.mark_false]
  have hv' : ((s.charge m).part ((s.charge m).launch (s.charge m).cur.launch).tag).svVec ≠ 0 := by
    simpa only [State.part, State.launch, State.curTag, State.charge_parts, State.charge_launches, State.charge_cur_launch] using hv
  obtain ⟨r, hk, he⟩ := State.raise_enters (s := s.charge m) e (by simp [h.2]) (by simp [hu]) hv' (by simp [h.1.written])
  exact ⟨r, by simpa using hk, by rw [issue_open h.1 hi hn, hb, hc, he]; rfl⟩

/-- R25: so does a word that may not execute, with the kind and the detail of its fault in the cause. -/
theorem issue_illegal_enters {m : Meta} {k d : Nat} (hi : s.illegal m = some (k, d)) (hk : k ≠ 15) (hd : d ≠ 2) (ht : s.cur.txg = false)
    (body : State → Eff) : ∃ t, issue m s body = .next t ∧ t.cur.pc = evenPc (s.part s.curTag).svVec ∧ t.cur.smode = true ∧
      t.cur.epc = s.cur.pc ∧ t.cur.cause.extractLsb' 0 8 = BitVec.ofNat 8 k ∧ t.cur.cause.extractLsb' 8 8 = BitVec.ofNat 8 d ∧
      t.cur.sregs = s.cur.sregs := by
  have hb := s.beforeFault_eq ht
  have hg : s.beforeFault.cur.kind = .group := by rw [hb]; exact h.2
  have hs : s.beforeFault.cur.smode = false := by rw [hb]; exact hu
  have hw : s.beforeFault.cur.deferred = [] := by rw [hb]; exact h.1.written
  have hv' : (s.beforeFault.part (s.beforeFault.launch s.beforeFault.cur.launch).tag).svVec ≠ 0 := by rw [hb]; exact hv
  obtain ⟨r, -, he⟩ := State.raise_enters (s.groupEvent k d 0) hg hs hv' hw
  have hf : s.faultWord k d = s.beforeFault.raise (s.groupEvent k d 0) := by simp [State.faultWord, hd]
  obtain ⟨hpc, hsm, hepc, hc, hs⟩ := s.beforeFault.entered_fields r (s.groupEvent k d 0)
  refine ⟨s.beforeFault.entered r (s.groupEvent k d 0), ?_, ?_, hsm, hepc, ?_, ?_, ?_⟩
  · rw [issue, if_neg h.1.holds, State.issueWith, hi]
    exact congrArg _ (hf.trans he)
  · rw [hpc, hb]; rfl
  · rw [hc, causeWord_kind]; rfl
  · rw [hc, causeWord_detail]
    show BitVec.ofNat 8 (if k = 15 then 0 else d) = _
    rw [if_neg hk]
  · rw [hs, hb]

end enters

/-! ### Jumps -/

/-- A jump that writes a link. -/
theorem issue_goto_writeS {m : Meta} {s : State} (h : s.Ready) (hi : s.illegal m = none) (hn : m.insn = false)
    {body : State → Eff} {d : Nat} {v a : W64} (hb : body (s.charge m) = .goto ((s.charge m).writeS d v) a) :
    ∃ t, issue m s body = .next t ∧ t.cur.pc = a ∧ (∀ r, t.rawS r = if r = d then v else s.rawS r) ∧ s.SameBytes t ∧ t.vrf = s.vrf ∧
      s.Keeps { t with cur := { t.cur with sregs := s.cur.sregs } } := by
  let u := (s.charge m).writeS d v
  refine ⟨{ u with cur := { u.cur with
      addrOff := 0, slotLen := 0, stepped := false, answers := [], probe := 0, woken := 0, pc := a, loop := none } }, ?_, rfl, ?_, ?_, ?_, ?_⟩
  · rw [issue_ready h hi hn, hb, Eff.close_goto_quiet (u := u) a (by simp [u, h.written])]
  · intro r
    by_cases hr : r = d <;> simp [State.rawS, u, SMap.get_set, hr]
  · exact State.sameBytes_mem (by simp [u])
  · simp [u]
  · refine (State.charge_keeps s m).trans ⟨?_, fun _ => rfl, fun _ => rfl⟩
    simp [u, State.writeS, Ctx.aside, h.written, h.poisonS]

/-- R66: an even target is jumped to, with the address after the jump in the link. -/
theorem State.jump_even {s : State} {a : W64} (h : a.getLsbD 0 = false) (link : Option Nat) :
    s.jump a link = .goto (link.elim s fun d => s.writeS d (s.cur.pc + 4)) a := by
  unfold State.jump
  rw [if_neg (by rw [h]; decide)]
  cases link <;> rfl

theorem jr_even {s : State} (h : s.Ready) (sm : Bool) (d a : BitVec 6) (ha : (s.rawS a.toNat).getLsbD 0 = false) :
    ∃ t, exec (.jr sm d a) s = .next t ∧ t.cur.pc = s.rawS a.toNat ∧ (∀ r, t.rawS r = if r = d.toNat ∧ d ≠ 0 then s.cur.pc + 4 else s.rawS r) ∧
      s.SameBytes t ∧ t.vrf = s.vrf ∧ s.Keeps { t with cur := { t.cur with sregs := s.cur.sregs } } := by
  have hi := ctlMeta_ok h sm true [a.toNat] (.inl rfl)
  have hr := charge_readS h (ctlMeta sm true [a.toNat]) a.toNat
  by_cases hd : d = 0
  · obtain ⟨t, h1, h2, -⟩ := issue_goto h hi rfl (body := fun t => t.jump (t.readS a.toNat) (if d = 0 then none else some d.toNat))
      (by rw [if_pos hd, hr, State.jump_even ha]; rfl)
    have hs : t.cur.sregs = s.cur.sregs := by
      have e := congrArg (fun x => x.cur.sregs) h2.keeps.1
      simpa only [Ctx.aside] using e
    refine ⟨t, h1, h2.pc, fun r => ?_, h2.bytes, h2.rows, ?_⟩
    · rw [if_neg fun hr => hr.2 hd]; simp only [State.rawS, hs]
    · rw [← hs]; exact h2.keeps
  · obtain ⟨t, h1, hpc, hr, h2⟩ := issue_goto_writeS h hi rfl (body := fun t => t.jump (t.readS a.toNat) (if d = 0 then none else some d.toNat))
      (by rw [if_neg hd, hr, State.jump_even ha, State.charge_cur_pc]; rfl)
    refine ⟨t, h1, hpc, fun r => ?_, h2⟩
    simp only [hr r, hd, ne_eq, not_false_eq_true, and_true]

theorem ret_even {s : State} (h : s.Ready) (sm : Bool) (ha : (s.rawS 63).getLsbD 0 = false) :
    ∃ t, exec (.ret sm) s = .next t ∧ s.MovedTo t (s.rawS 63) := by
  obtain ⟨t, h1, h2, -⟩ := issue_goto (m := ctlMeta sm true [63]) h (ctlMeta_ok h sm true [63] (.inl rfl)) rfl (a := s.rawS 63)
    (body := fun t => t.jump (t.readS 63) none) (by rw [charge_readS h, State.jump_even ha]; rfl)
  exact ⟨t, h1, h2⟩

/-- R27: an odd target of a jump takes MISALIGN. -/
theorem jump_odd {s : State} (h : s.GroupReady) (hu : s.cur.smode = false) (hv : (s.part s.curTag).svVec ≠ 0) (sm : Bool) (n : Nat) (l : Option Nat)
    (ho : (s.rawS n).getLsbD 0 = true) :
    ∃ t, issue (ctlMeta sm true [n]) s (fun t => t.jump (t.readS n) l) = .next t ∧ t.cur.smode = true ∧
      t.cur.pc = evenPc (s.part s.curTag).svVec ∧ t.cur.epc = s.cur.pc ∧ t.cur.cause.toNat % 256 = 6 ∧ ∀ r, t.rawS r = s.rawS r := by
  let e : FaultEv := (s.charge (ctlMeta sm true [n])).groupEvent kMisalign 0 (s.rawS n)
  obtain ⟨r, -, h1⟩ := issue_event_enters h hu hv (ctlMeta_ok h.1 sm true [n] (.inl rfl)) (.inl rfl) rfl (e := e)
    (body := fun t => t.jump (t.readS n) l) (by simp only [State.jump, charge_readS h.1, ho, if_true, e])
  obtain ⟨hpc, hsm, hepc, hc, hs⟩ := (s.charge (ctlMeta sm true [n])).entered_fields r e
  refine ⟨_, h1, hsm, ?_, ?_, ?_, fun r => ?_⟩
  · rw [hpc]; simp [State.part, State.curTag, State.launch]
  · rw [hepc]; simp [e, State.groupEvent]
  · rw [hc]; exact (causeWord_toNat e).1
  · simp only [State.rawS, hs, State.charge_cur_sregs]

/-- Settles O13: an even target is jumped to, an odd one is an event that enters the handler. -/
theorem jumps : Obligations.Jumps := by
  refine ⟨fun sm d a s h ha => jr_even h sm d a ha, fun sm s h ha => ret_even h sm ha, ?_⟩
  simp only [List.forall_mem_cons]
  exact ⟨fun sm d s h hu hv ho => jump_odd h hu hv sm 63 _ ho, fun sm _ s h hu hv ho => jump_odd h hu hv sm 63 none ho, nofun⟩

/-! ### Traps and returns -/

theorem trap_enters {s : State} (h : s.GroupReady) (ht : s.cur.txg = false) (hu : s.cur.smode = false) (hv : (s.part s.curTag).svVec ≠ 0)
    (sm : Bool) (c : BitVec 6) :
    ∃ t, exec (.trap sm c) s = .next t ∧ t.cur.pc = evenPc (s.part s.curTag).svVec ∧ t.cur.smode = true ∧ t.cur.epc = s.cur.pc + 4 ∧
      t.cur.savedEm = s.cur.em ∧ t.cur.savedLoop = s.cur.loop ∧ t.cur.loop = none ∧ t.cur.cause.extractLsb' 0 8 = 15 ∧
      t.cur.cause.extractLsb' 34 6 = c ∧ s.SameBytes t ∧ t.vrf = s.vrf ∧ s.Keeps { t with cur := { t.cur with
        smode := false, epc := s.cur.epc, savedEm := s.cur.savedEm, recipe := none
        savedLoop := s.cur.savedLoop, savedRecipe := s.cur.savedRecipe, cause := s.cur.cause, fltAddrs := s.cur.fltAddrs, event := s.cur.event } } := by
  let m : Meta := { ctlMeta sm true [] with extra := if s.cur.smode then some 0 else none, insn := true }
  let e : FaultEv := { (s.charge m).groupEvent kTrap c.toNat 0 with code := c.toNat, pc := (s.charge m).cur.pc + 4, em := none, addrs := [] }
  have hi : s.illegal m = none := illegal_uniform h.1 rfl (Nat.zero_le _) rfl (fun _ => rfl) (.inl rfl) (by simp [m, hu])
  obtain ⟨r, hr, h1⟩ := issue_event_enters h hu hv hi (.inr ht) rfl (e := e)
    (body := fun t => .event t { t.groupEvent kTrap c.toNat 0 with code := c.toNat, pc := t.cur.pc + 4, em := none, addrs := [] }) rfl
  obtain rfl := hr rfl
  obtain ⟨hpc, hsm, hepc, hc, -⟩ := (s.charge m).entered_fields s.raised e
  refine ⟨_, h1, ?_, hsm, ?_, ?_, ?_, rfl, ?_, ?_, ?_, ?_, ?_⟩
  · rw [hpc]; simp [State.part, State.curTag, State.launch]
  · rw [hepc]; simp [e]
  · exact State.charge_cur_em s m
  · exact State.charge_cur_loop s m
  · rw [hc, causeWord_kind]; rfl
  · rw [hc, causeWord_code]; simp [e]
  · exact State.sameBytes_mem (by simp [State.entered, State.enterHandler, State.updCur, State.clearIssue])
  · exact State.charge_vrf s m
  · refine (State.charge_keeps s m).trans ⟨?_, fun _ => rfl, fun _ => rfl⟩
    simp [State.entered, State.enterHandler, State.updCur, State.clearIssue, Ctx.aside, h.1.recipe, hu, e]

theorem eret_returns {s : State} (h : s.GroupReady) (hs : s.cur.smode = true) (he : s.cur.epc.getLsbD 0 = false) (sm : Bool) :
    ∃ t, exec (.eret sm 0) s = .next t ∧ t.cur.smode = false ∧ t.cur.em = s.cur.savedEm ∧
      (s.cur.savedLoop = none → t.cur.pc = s.cur.epc ∧ t.cur.loop = none) ∧
      (∀ l, s.cur.savedLoop = some l → l.addrs.getD l.slot 0 = s.cur.epc → t.cur.pc = s.cur.epc ∧ t.cur.loop = some l) ∧
      s.SameBytes t ∧ t.vrf = s.vrf ∧ s.Keeps { t with cur := { t.cur with smode := true, em := s.cur.em, recipe := none } } := by
  let m : Meta := { privMeta sm 0 [] with unused := false }
  have hi : s.illegal m = none := illegal_lane h (Nat.zero_le _) (Nat.zero_le _) (.inr hs) rfl
  have hb : ∀ k : State → Eff, whenSettled (s.charge m) k = k (s.charge m) := by
    intro k
    have hd : (s.charge m).cur.deferred = [] := by simp [h.1.written]
    rw [whenSettled, if_pos (by rw [Ctx.settled, hd]; rfl), State.settle_none hd]
  refine ⟨(s.charge m).clearIssue.leaveHandler, ?_, rfl, State.charge_cur_savedEm s m, ?_, ?_, ?_, ?_, ?_⟩
  · refine (issue_ready h.1 hi rfl _).trans ?_
    rw [hb, if_neg (by rw [State.charge_cur_epc, he]; decide)]
    rfl
  · intro hl
    simp [State.leaveHandler, State.clearIssue, State.updCur, hl]
  · intro l hl hpc
    simp only [State.leaveHandler, State.clearIssue, State.updCur, State.charge_cur_savedLoop, hl, LoopState.at_, State.charge_cur_epc, hpc, if_true]
    split <;> exact ⟨rfl, rfl⟩
  · exact State.sameBytes_mem (by simp [State.leaveHandler, State.updCur, State.clearIssue])
  · exact State.charge_vrf s m
  · refine (State.charge_keeps s m).trans ⟨?_, fun _ => rfl, fun _ => rfl⟩
    simp [State.leaveHandler, State.updCur, State.clearIssue, Ctx.aside, h.1.recipe, hs]

/-- R25: in U mode `eret` is no instruction with a nonzero PG, and privileged without. -/
theorem illegal_eret {s : State} (h : s.GroupReady) (hu : s.cur.smode = false) (sm : Bool) (g : BitVec 3) :
    s.illegal { privMeta sm 0 [] with unused := g != 0 } = if g = 0 then some (kPriv, 0) else some (kIllegal, 1) := by
  have hq : s.cur.isSeq = false := by simp [Ctx.isSeq, h.2]
  by_cases hg : g = 0
  · simp [State.illegal, h.1.recipe, hq, hg, hu, privMeta]
  · have hne : (g != 0) = true := bne_iff_ne.2 hg
    rw [if_neg hg, State.illegal, hne]
    simp [h.1.recipe, privMeta]

theorem eret_illegal {s : State} (h : s.GroupReady) (ht : s.cur.txg = false) (hu : s.cur.smode = false) (hv : (s.part s.curTag).svVec ≠ 0)
    (sm : Bool) (g : BitVec 3) : ∃ t, exec (.eret sm g) s = .next t ∧
    t.cur.pc = evenPc (s.part s.curTag).svVec ∧ t.cur.smode = true ∧ t.cur.epc = s.cur.pc ∧ t.cur.cause.extractLsb' 0 8 = (if g = 0 then 5 else 4) ∧
    t.cur.cause.extractLsb' 8 8 = (if g = 0 then 0 else 1) ∧ t.cur.sregs = s.cur.sregs := by
  have hi := illegal_eret h hu sm g
  by_cases hg : g = 0
  · simp only [if_pos hg] at hi ⊢
    exact issue_illegal_enters h hu hv hi (by decide) (by decide) ht _
  · simp only [if_neg hg] at hi ⊢
    exact issue_illegal_enters h hu hv hi (by decide) (by decide) ht _

/-- Settles O28: a trap is an event of a legal word, a return the effect of another, and a return that may not execute a fault. -/
theorem trapsAndReturns : Obligations.TrapsAndReturns := by
  refine ⟨?_, fun sm s h hs he => eret_returns h hs he sm, fun sm g s h ht hu hv => eret_illegal h ht hu hv sm g⟩
  rintro sm c s v h ht hu rfl hv
  exact trap_enters h ht hu hv sm c

end Sys2Proof.Machine
end

section
/-!
PROOF. Loads from scratchpad (03 R84, R86).
-/

namespace Sys2Proof.Machine

/-! ### Scratchpad loads -/

theorem memMeta_ok {s : State} (h : s.GroupReady) {sm : Bool} {g : BitVec 3} {d a n len : Nat} {ss : List Nat} {store : Bool}
    (hv : s.hasV [d + regsOf n - 1, a]) (hn : n = 1 ∨ n = 2 ∨ n = 4 ∨ n = 8 ∨ n = 16) :
    s.illegal { memMeta sm g d n a ss store with len := len } = none := by
  refine illegal_lane h ?_ (Nat.zero_le _) (.inl rfl) rfl
  rw [memMeta, widthRegs_eq hn]
  exact topReg_le hv

theorem loadsSp_of_loadSp {i : Bool → BitVec 3 → BitVec 6 → BitVec 6 → BitVec 6 → Instr} {signed : Bool} {n : Nat}
    (hn : n = 1 ∨ n = 2 ∨ n = 4 ∨ n = 8 ∨ n = 16) (hi : ∀ sm g d a b s, exec (i sm g d a b) s = loadSp signed n sm g d a b s) : LoadsSp i signed n := by
  intro sm g d a b s h hp hpo hv hl
  rw [hi, loadSp]
  exact issue_spLoad h hp hpo { memMeta sm g d.toNat n a.toNat [b.toNat] false with len := 4 } (memMeta_ok h hv hn) rfl rfl signed n d.toNat a.toNat (s.act g)
    (s.rawS b.toNat) hn hl _ (by simp only [charge_act h, ← ready_act h, charge_readS h.1])

/-- R18: the short form reads at `s0`, in the lanes of `em`. -/
theorem ldsShort_loads (sm : Bool) (d a : BitVec 5) (s : State) (h : s.GroupReady) (hp : s.packets = []) (hpo : s.poison = [])
    (hv : s.hasV [d.toNat, a.toNat]) (hl : ∀ k < 256, s.cur.em.getLsbD k → s.spFits 4 (s.laneAddr (s.rawS 0) a.toNat k)) :
    ∃ t vals, exec (.ldsShort sm d a) s = .next t ∧ s.Returns s t 2 sm vals ∧
      LoadResult 4 d.toNat s.cur.em (fun r k => s.loaded false 4 (s.spPlace (s.laneAddr (s.rawS 0) a.toNat k)) r) vals :=
  issue_spLoad h hp hpo { memMeta sm 0 d.toNat 4 a.toNat [0] false with len := 2 } (memMeta_ok h hv (by decide)) rfl rfl false 4 d.toNat a.toNat
    s.cur.em (s.rawS 0) (by decide) hl _ (by simp only [State.charge_cur_em, charge_readS h.1])

/-- Settles O15: every width is the one load of scratchpad, which `issue_spLoad` describes. -/
theorem scratchpadLoads : Obligations.ScratchpadLoads :=
  ⟨loadsSp_of_loadSp (by decide) fun _ _ _ _ _ _ => rfl, loadsSp_of_loadSp (by decide) fun _ _ _ _ _ _ => rfl,
    loadsSp_of_loadSp (by decide) fun _ _ _ _ _ _ => rfl, loadsSp_of_loadSp (by decide) fun _ _ _ _ _ _ => rfl,
    loadsSp_of_loadSp (by decide) fun _ _ _ _ _ _ => rfl, loadsSp_of_loadSp (by decide) fun _ _ _ _ _ _ => rfl,
    loadsSp_of_loadSp (by decide) fun _ _ _ _ _ _ => rfl, ldsShort_loads⟩

end Sys2Proof.Machine
end

section
/-!
PROOF. Submissions (07 R157, R158, R165 to R170, R181, 10 R220): what the leader enqueues, and that without a leader nothing is.
-/

namespace Sys2Proof.Machine

/-! ### Submissions -/

/-- R157, R158: a job stands among the machine's and in the context's open set. -/
def State.enqueue (s : State) (j : Job) : State :=
  { s with jobs := s.jobs ++ [j], nextId := s.nextId + 1, cur := { s.cur with openSet := s.cur.openSet ++ [s.nextId] } }

/-- The job `State.submit` begins with: by the tile's quantiser (10), or by the core's engine; a spawn (8) follows a release fence too. -/
def State.newJob (s : State) (kind d : Nat) : Job :=
  { id := s.nextId, ctx := s.cur.id, launch := s.cur.launch, block := s.cur.block, core := s.cur.core
    agent := if kind = 10 then { s.agent with unit := 2, core := tileOfCore s.cur.core } else { s.agent with unit := 1 }
    smode := s.cur.smode, kind := kind, sd := d, after := if kind = 8 then max s.cur.asyncFence s.cur.relFence else s.cur.asyncFence }
theorem State.submit_eq (s : State) (kind d : Nat) (f : Job → Job) : s.submit kind d f = s.enqueue (f (s.newJob kind d)) := rfl
theorem charge_newJob (s : State) (m : Meta) (kind d : Nat) : (s.charge m).newJob kind d = s.newJob kind d := by
  simp only [State.newJob, charge_agent, State.charge_nextId, State.charge_cur_id, State.charge_cur_launch, State.charge_cur_block, State.charge_cur_core,
    State.charge_cur_smode, State.charge_cur_asyncFence, State.charge_cur_relFence]
theorem charge_submit (s : State) (m : Meta) (kind d : Nat) (f : Job → Job) :
    (s.charge m).submit kind d f = (s.charge m).enqueue (f (s.newJob kind d)) := by rw [State.submit_eq, charge_newJob]
theorem State.Keeps.enqueue {s t : State} (h : s.Keeps t) (j : Job) : (s.enqueue j).Keeps (t.enqueue j) :=
  h.map (fun x => x.enqueue j) (fun x => x.enqueue j) (fun _ => rfl) fun _ => ⟨rfl, rfl⟩

/-- A job of the core's engine, enqueued by an instruction a recipe may not replay. -/
theorem submitted_eq (s : State) {kind : Nat} (d : Nat) (f : Job → Job) (h8 : kind ≠ 8) (h10 : kind ≠ 10) :
    s.submitted kind 1 s.cur.core d f = (s.enqueue (f (s.newJob kind d))).mark true := by
  simp only [State.submitted, State.newJob, if_neg h8, if_neg h10, State.mark, State.enqueue, Bool.or_true]
  rfl

section submission
variable {s : State} (h : s.Ready) {g : BitVec 3}
include h

theorem isSeq_of_not_group (hk : s.cur.kind ≠ .group) : s.cur.isSeq = true := by
  cases hc : s.cur.kind with
  | none => exact absurd hc h.holds
  | group => exact absurd hc hk
  | seq n => simp [Ctx.isSeq, hc]

/-- R14: the leader of an X form, as its issue finds it. -/
theorem leader_of_leads {l : Nat} (hl : s.Leads g l) (m : Meta) : (s.charge m).leader g = some l := by
  rcases hl with ⟨hk, h256, hact, hlow⟩ | ⟨hk, -, rfl⟩
  · have hq : (s.charge m).cur.isSeq = false := by simp [Ctx.isSeq, hk]
    rw [State.leader, hq, charge_act ⟨h, hk⟩, ← ready_act ⟨h, hk⟩]
    exact lowestLane_eq_some.2 ⟨h256, hact, fun j hj => by simpa using hlow j hj⟩
  · have hq : (s.charge m).cur.isSeq = true := by simpa [Ctx.isSeq] using isSeq_of_not_group h hk
    rw [State.leader, hq]; rfl

theorem leader_none (hk : s.cur.kind = .group) (ha : s.act g = 0) (m : Meta) : (s.charge m).leader g = none := by
  have hq : (s.charge m).cur.isSeq = false := by simp [Ctx.isSeq, hk]
  rw [State.leader, hq, charge_act ⟨h, hk⟩, ← ready_act ⟨h, hk⟩, ha]
  exact List.find?_eq_none.2 fun i _ => by simp

/-- A sequencer's guard is `p0` (Table 01-3). -/
theorem xWord_ok {m : Meta} {l : Nat} (hl : s.Leads g l) (hs : m.sEnd ≤ 64) (hv : m.vEnd = 0 := by rfl) (hq : m.seq = true := by rfl)
    (hg : m.pg = g := by rfl) (hp : m.priv = false := by rfl) (he : m.extra = none := by rfl) (hu : m.unused = false := by rfl) : s.illegal m = none := by
  refine illegal_uniform h hv hs hq (fun hseq => ?_) (.inl hp) he hu
  rcases hl with ⟨hk, -⟩ | ⟨-, h0, -⟩
  · simp [Ctx.isSeq, hk] at hseq
  · rw [hg, h0]

/-- The leader submits, below the limit. -/
theorem submission_submits {m : Meta} {l : Nat} (hl : s.Leads m.guard l) (hi : s.illegal m = none) (ht : s.cur.txg = false) (hn : m.nonreplay = true)
    (hs : s.subs < 255) {k : State → Nat → Eff} {j : Job} {u w : State} (hb : k (s.charge m) l = .done w) (hw : u.Keeps w)
    (hc : w.cur = ((s.charge m).enqueue j).cur) : ∃ t, submission m s k = .next t ∧ s.Returns (u.mark true) t m.len m.settle [] := by
  rw [← hn]
  refine issue_effect_nonreplay (w := w) h hi (.inr ht) ?_ hw ?_ ?_ ?_ ?_ ?_ ?_ ?_
  · have hsub : ¬ 255 ≤ (s.charge m).subs := by
      simpa only [State.subs, State.charge_cur_openSet, State.charge_cur_batches, Nat.not_le] using hs
    rw [State.withLeader, leader_of_leads h hl]
    exact (if_neg hsub).trans hb
  all_goals rw [hc]
  · exact State.charge_cur_pc s m
  · exact State.charge_cur_loop s m
  · exact (State.charge_cur_slotLen s m).trans h.word
  · exact (State.charge_cur_recipe s m).trans h.recipe
  · exact (State.charge_cur_deferred s m).trans h.written
  · exact (State.charge_cur_poisonV s m).trans h.poisonV
  · exact (State.charge_cur_poisonS s m).trans h.poisonS

/-- Without a leader nothing is submitted (R14). -/
theorem submission_leaderless {m : Meta} (hk : s.cur.kind = .group) (ha : s.act m.guard = 0) (hi : s.illegal m = none) (ht : s.cur.txg = false)
    (hn : m.nonreplay = true) (k : State → Nat → Eff) : ∃ t, submission m s k = .next t ∧ s.Returns s.replayless t m.len m.settle [] := by
  have hr : s.replayless = s.mark m.nonreplay := by rw [hn, State.mark, Bool.or_true]; rfl
  rw [hr]
  refine issue_effect_nonreplay (w := s.charge m) h hi (.inr ht) ?_ (State.charge_keeps s m) (by simp) (by simp) (by simp [h.word]) (by simp [h.recipe])
    (by simp [h.written]) (by simp [h.poisonV]) (by simp [h.poisonS])
  rw [State.withLeader, leader_none h hk ha]

end submission

theorem submitsWords_of_submitWords {i : Bool → BitVec 3 → BitVec 6 → BitVec 6 → BitVec 6 → Instr} {kind span : Nat} (h8 : kind ≠ 8) (h10 : kind ≠ 10)
    (hi : ∀ sm g d a b s, exec (i sm g d a b) s = submitWords kind span sm g d a b s) : SubmitsWords i kind span := by
  intro sm g d a b s l h ht hl hb hs
  rw [hi, submitWords, submitted_eq s _ _ h8 h10]
  refine submission_submits h (m := subMeta sm g a.toNat b.toNat span) hl (xWord_ok h hl hb) ht rfl hs ?_ ((State.charge_keeps s _).enqueue _) rfl
  simp only [charge_submit, charge_readS h]

theorem spawn_submits (sm : Bool) (g : BitVec 3) (d a b : BitVec 6) (s : State) (l : Nat) (h : s.GroupReady) (ht : s.cur.txg = false) (hl : s.Leads g l)
    (hb : b.toNat + 2 ≤ 64) (hs : s.subs < 255) : ∃ t, exec (.spawn sm g d a b) s = .next t ∧
      s.Returns (s.submitted 8 1 s.cur.core d.toNat fun j =>
        { j with opA := s.rawS a.toNat, opB := s.rawS b.toNat, opB1 := s.rawS (b.toNat + 1), after := max s.cur.asyncFence s.cur.relFence }) t 4 sm [] := by
  let f : Job → Job := fun j => { j with opA := s.rawS a.toNat, opB := s.rawS b.toNat, opB1 := s.rawS (b.toNat + 1) }
  have hu : s.submitted 8 1 s.cur.core d.toNat (fun j =>
      { j with opA := s.rawS a.toNat, opB := s.rawS b.toNat, opB1 := s.rawS (b.toNat + 1), after := max s.cur.asyncFence s.cur.relFence }) =
      (s.enqueue (f (s.newJob 8 d.toNat))).mark true := by
    simp only [State.submitted, State.mark, Bool.or_true]
    rfl
  rw [hu]
  refine submission_submits h.1 (m := { subMeta sm g a.toNat b.toNat 2 with seq := false }) hl
    (illegal_lane h (Nat.zero_le _) hb (.inl rfl) rfl) ht rfl hs ?_ ((State.charge_keeps s _).enqueue _) rfl
  simp only [charge_submit, charge_readS h.1, f]

/-- R220: a quantisation job also stands in the tile's queue. -/
theorem qz_submits (sm : Bool) (g : BitVec 3) (d a : BitVec 6) (s : State) (l : Nat) (h : s.Ready) (ht : s.cur.txg = false) (hl : s.Leads g l)
    (hs : s.subs < 255) (hq : (s.tile (s.cur.core / 16)).qz.length < 64) : ∃ t u, exec (.qz sm g d a) s = .next t ∧ s.Returns u t 4 sm [] ∧
      (u.tile (s.cur.core / 16)).qz = (s.tile (s.cur.core / 16)).qz ++ [s.nextId] ∧
      { u with tiles := s.tiles } = s.submitted 10 2 (s.cur.core / 16) d.toNat (fun j => { j with opA := s.rawS a.toNat }) ∧
      ∀ x, ({ u.tile x with qz := [] } : Tile) = { s.tile x with qz := [] } := by
  let j : Job := { s.newJob 10 d.toNat with opA := s.rawS a.toNat }
  let add : Tile → Tile := fun x => { x with qz := x.qz ++ [s.nextId] }
  let m := syncMeta sm g [a.toNat] true
  have hw : ((s.enqueue j).updTile (s.cur.core / 16) add).Keeps (((s.charge m).enqueue j).updTile (s.cur.core / 16) add) :=
    ((State.charge_keeps s m).enqueue j).updTile _ add add fun _ => rfl
  obtain ⟨t, h1, h2⟩ := submission_submits h (m := m) hl (xWord_ok h hl (Nat.zero_le _)) ht rfl hs (u := (s.enqueue j).updTile (s.cur.core / 16) add)
    (w := ((s.charge m).enqueue j).updTile (s.cur.core / 16) add) (j := j)
    (k := fun t _ =>
      if 64 ≤ (t.tile (tileOfCore t.cur.core)).qz.length then .wait t .qzQueue
      else .done ((t.submit 10 d.toNat fun j => { j with opA := t.readS a.toNat }).updTile (tileOfCore t.cur.core) fun x => { x with qz := x.qz ++ [t.nextId] }))
    (by
      have hqz : ((s.charge m).tile (s.cur.core / 16)).qz = (s.tile (s.cur.core / 16)).qz := by
        have e := congrArg Tile.qz ((State.charge_keeps s m).2.2 (s.cur.core / 16)); exact e
      simp only [State.charge_cur_core, tileOfCore, hqz, if_neg (Nat.not_le.2 hq), charge_submit, charge_readS h, State.charge_nextId, j, add])
    hw rfl
  refine ⟨t, _, h1, h2, ?_, ?_, fun x => ?_⟩
  · simp only [State.mark, State.updTile, State.setTile, State.tile, SMap.get_set_same]
    rfl
  · simp only [State.mark, State.submitted, Bool.or_true]
    rfl
  · simp only [State.mark, State.updTile, State.setTile, State.tile]
    by_cases hx : x = s.cur.core / 16
    · rw [hx, SMap.get_set_same]; rfl
    · rw [SMap.get_set_ne _ _ _ hx]; rfl

/-- The four submissions that stand for the rest where no lane acts. -/
theorem submitWords_leaderless {kind span : Nat} (sm : Bool) (g : BitVec 3) (d a b : BitVec 6) (s : State) (h : s.GroupReady) (ht : s.cur.txg = false)
    (ha : s.act g = 0) (hb : b.toNat + span ≤ 64) : ∃ t, submitWords kind span sm g d a b s = .next t ∧ s.Returns s.replayless t 4 sm [] :=
  submission_leaderless h.1 (m := subMeta sm g a.toNat b.toNat span) h.2 ha (illegal_lane h (Nat.zero_le _) hb (.inl rfl) rfl) ht rfl _

/-- Settles O31: one submission for each form of operands, and none without a leader. -/
theorem submissions : Obligations.Submissions := by
  refine ⟨submitsWords_of_submitWords (by decide) (by decide) fun _ _ _ _ _ _ => rfl, submitsWords_of_submitWords (by decide) (by decide) fun _ _ _ _ _ _ => rfl,
    submitsWords_of_submitWords (by decide) (by decide) fun _ _ _ _ _ _ => rfl, submitsWords_of_submitWords (by decide) (by decide) fun _ _ _ _ _ _ => rfl,
    submitsWords_of_submitWords (by decide) (by decide) fun _ _ _ _ _ _ => rfl, submitsWords_of_submitWords (by decide) (by decide) fun _ _ _ _ _ _ => rfl,
    submitsWords_of_submitWords (by decide) (by decide) fun _ _ _ _ _ _ => rfl, spawn_submits, qz_submits, ?_⟩
  simp only [List.forall_mem_cons]
  exact ⟨fun sm g d a b s h ht ha hb => submitWords_leaderless sm g d a b s h ht ha (by omega),
    fun sm g d a b s h ht ha hb => submitWords_leaderless sm g d a b s h ht ha (by omega),
    fun sm g d a b s h ht ha hb => submitWords_leaderless sm g d a b s h ht ha hb,
    fun sm g d a b s h ht ha hb => submitWords_leaderless sm g d a b s h ht ha (by omega), nofun⟩

end Sys2Proof.Machine
end

section
/-!
PROOF. Integer and immediate lane operations and `sel` (02 R46 to R49): each is executed by a form of its operands; what is left is that
the model's element functions are those of Table 02-2.
-/

namespace Sys2Proof.Machine

/-! ### Element functions of Table 02-2 -/

theorem absElem_eq : absElem = fun x => BitVec.ofNat 32 x.toInt.natAbs := by
  funext x
  have hx : BitVec.ofInt 32 x.toInt = x := BitVec.ofInt_toInt
  rw [absElem, ← BitVec.ofInt_natCast]
  split
  · next h => rw [Int.ofNat_natAbs_of_nonpos (Int.le_of_lt h), BitVec.ofInt_neg, hx]
  · next h => rw [Int.natAbs_of_nonneg (Int.not_lt.1 h), hx]

theorem countP_lt_range (k n : Nat) : (List.range n).countP (fun i => k < i) = n - 1 - k := by
  induction n with
  | zero => simp
  | succ n ih =>
    simp only [List.range_succ, List.countP_append, ih, List.countP_singleton, decide_eq_true_eq]
    split <;> omega

/-- The bits above the highest one are those whose weight exceeds the number. -/
theorem clzElem_eq : clzElem = fun x => BitVec.ofNat 32 ((List.range 32).countP fun i => x.toNat < 2 ^ i) := by
  funext x
  rw [clzElem]
  split
  · next h => subst h; rfl
  · next h =>
    have h0 : x.toNat ≠ 0 := fun h1 => h (BitVec.eq_of_toNat_eq h1)
    have hc : (List.range 32).countP (fun i => decide (x.toNat < 2 ^ i)) = (List.range 32).countP (fun i => decide (Nat.log2 x.toNat < i)) :=
      List.countP_congr fun i _ => by simp only [decide_eq_true_eq, Nat.log2_lt h0]
    rw [hc, countP_lt_range]

theorem divU_eq : divU = fun x y => if y = 0 then 0xFFFFFFFF else x / y := by
  funext x y
  rw [divU, ← BitVec.toNat_udiv, BitVec.ofNat_toNat, BitVec.setWidth_eq]

/-- R46: the signed remainder has the sign of a. -/
theorem remS_eq : remS = fun x y => if y = 0 then x else BitVec.ofInt 32 (x.toInt.tmod y.toInt) := by
  funext x y
  rw [remS, divS]
  split
  · next h => rw [h]; simp
  · have hq := congrArg (BitVec.ofInt 32) (Int.mul_tdiv_add_tmod x.toInt y.toInt)
    rw [BitVec.ofInt_add, BitVec.ofInt_mul, BitVec.ofInt_toInt, BitVec.ofInt_toInt] at hq
    exact sub_eq_of_eq_add' hq.symm

theorem remU_eq : remU = fun x y => if y = 0 then x else x % y := by
  funext x y
  simp only [remU, divU_eq]
  split
  · next h => rw [h]; simp
  · have hq : x = y * (x / y) + x % y := BitVec.eq_of_toNat_eq (by
      rw [BitVec.toNat_add, BitVec.toNat_mul, BitVec.toNat_udiv, BitVec.toNat_umod, Nat.mod_add_mod, Nat.div_add_mod, Nat.mod_eq_of_lt x.isLt])
    exact sub_eq_of_eq_add' hq

/-! ### The forms -/

theorem computes2_of_lane2 {i : Bool → BitVec 3 → BitVec 6 → BitVec 6 → BitVec 6 → Instr} {f : W32 → W32 → W32} (cls : Nat)
    (hi : ∀ sm g d a b s, exec (i sm g d a b) s = lane2 sm g cls d a b f s) : Computes2 i (fun x y => ⟨f x y, 0⟩) := by
  intro sm g d a b s h hv
  simpa only [hi, ite_self] using lane2_wroteV h sm g cls d a b hv f

theorem computes3_of_lane3 {i : Bool → BitVec 3 → BitVec 6 → BitVec 6 → BitVec 6 → Instr} {f : W32 → W32 → W32 → W32} (cls : Nat)
    (hi : ∀ sm g d a b s, exec (i sm g d a b) s = lane3 sm g cls d a b f s) : Computes3 i (fun z x y => ⟨f z x y, 0⟩) := by
  intro sm g d a b s h hv
  simpa only [hi, ite_self] using lane3_wroteV h sm g cls d a b hv f

theorem computesImm_of_laneImm {n : Nat} {i : Bool → BitVec 3 → BitVec 6 → BitVec n → Instr} {f : W32 → BitVec n → W32} (reads : Bool)
    (hi : ∀ sm g d x s, exec (i sm g d x) s = laneImm sm g d reads (fun y => f y x) s) : ComputesImm i f :=
  fun sm g d x s h hv => hi sm g d x s ▸ laneImm_wroteV h sm g d hv reads (fun y => f y x)

/-- R13, R46: `mov` does not read A. -/
theorem computes2_mov : Computes2 .mov (fun _ y => ⟨y, 0⟩) := by
  intro sm g d a b s h hv
  have hdb : s.hasV [d.toNat, b.toNat] := fun r hr => hv r (by simp only [List.mem_cons] at hr ⊢; tauto)
  have hi : exec (.mov sm g d a b) s = lane1 sm g 0 d b id s := rfl
  simpa only [hi, ite_self, id] using lane1_wroteV h sm g 0 d b hdb id

/-- Settles O1: each operation is executed by a form of its operands, with the element function of Table 02-2. -/
theorem integerLaneOperations : Obligations.IntegerLaneOperations := by
  refine ⟨computes2_of_lane2 0 fun _ _ _ _ _ _ => rfl,
    computes2_of_lane2 0 fun _ _ _ _ _ _ => rfl,
    computes2_of_lane2 1 fun _ _ _ _ _ _ => rfl,
    computes2_of_lane2 0 fun _ _ _ _ _ _ => rfl,
    computes2_of_lane2 0 fun _ _ _ _ _ _ => rfl,
    computes2_of_lane2 0 fun _ _ _ _ _ _ => rfl,
    computes2_of_lane2 0 fun _ _ _ _ _ _ => rfl,
    computes2_of_lane2 0 fun _ _ _ _ _ _ => rfl,
    computes2_of_lane2 0 fun _ _ _ _ _ _ => rfl,
    computes2_of_lane2 0 fun _ _ _ _ _ _ => rfl,
    withoutFlags minS_eq ▸ computes2_of_lane2 0 fun _ _ _ _ _ _ => rfl,
    withoutFlags minU_eq ▸ computes2_of_lane2 0 fun _ _ _ _ _ _ => rfl,
    withoutFlags maxS_eq ▸ computes2_of_lane2 0 fun _ _ _ _ _ _ => rfl,
    withoutFlags maxU_eq ▸ computes2_of_lane2 0 fun _ _ _ _ _ _ => rfl,
    computes3_of_lane3 1 fun _ _ _ _ _ _ => rfl,
    computes2_mov,
    congrArg (fun f x => (⟨f x, 0⟩ : FRes)) absElem_eq ▸ computes1_of_lane1 0 fun _ _ _ _ _ => rfl,
    congrArg (fun f x => (⟨f x, 0⟩ : FRes)) clzElem_eq ▸ computes1_of_lane1 0 fun _ _ _ _ _ => rfl,
    computes1_of_lane1 0 fun _ _ _ _ _ => rfl,
    defers2_of_slow2 2 fun _ _ _ _ _ _ => rfl,
    defers2_of_slow2 2 fun _ _ _ _ _ _ => rfl,
    defers2_of_slow2 3 fun _ _ _ _ _ _ => rfl,
    withoutFlags divU_eq ▸ defers2_of_slow2 3 fun _ _ _ _ _ _ => rfl,
    withoutFlags remS_eq ▸ defers2_of_slow2 3 fun _ _ _ _ _ _ => rfl,
    withoutFlags remU_eq ▸ defers2_of_slow2 3 fun _ _ _ _ _ _ => rfl⟩

/-! ### Immediates -/

/-- R49, R64: the register moves up by the width of the immediate, which fills the bits that come free. -/
theorem shiftLeft_or_setWidth {k n : Nat} (x : BitVec (k + n)) (i : BitVec n) : (x <<< n) ||| i.setWidth (k + n) = x.extractLsb' 0 k ++ i := by
  apply BitVec.eq_of_getLsbD_eq
  intro j hj
  rw [BitVec.getLsbD_or, BitVec.getLsbD_shiftLeft, BitVec.getLsbD_setWidth, BitVec.getLsbD_append]
  by_cases h : j < n
  · simp [h, hj]
  · have h1 : j - n < k := by omega
    simp [h, hj, h1, BitVec.getLsbD_of_ge i j (Nat.le_of_not_lt h)]

/-- Settles O2: each immediate operation is executed by the one form of an immediate. -/
theorem immediateLaneOperations : Obligations.ImmediateLaneOperations := by
  refine ⟨?_, ?_, ?_, ?_, ?_, ?_, ?_, ?_, ?_⟩
  · exact computesImm_of_laneImm true fun _ _ _ _ _ => rfl
  · exact computesImm_of_laneImm true fun _ _ _ _ _ => rfl
  · exact computesImm_of_laneImm true fun _ _ _ _ _ => rfl
  · exact computesImm_of_laneImm true fun _ _ _ _ _ => rfl
  · exact computesImm_of_laneImm true fun _ _ _ _ _ => rfl
  · exact computesImm_of_laneImm true fun _ _ _ _ _ => rfl
  · exact computesImm_of_laneImm true fun _ _ _ _ _ => rfl
  · exact computesImm_of_laneImm false fun _ _ _ _ _ => rfl
  · refine computesImm_of_laneImm true fun sm g d i s => ?_
    rw [← funext fun x => shiftLeft_or_setWidth (k := 20) x i]
    rfl

/-! ### Selection -/

/-- Settles O3: the lanes written are those of `em`, and the selector chooses the source of each. -/
theorem selectTakesASelector : Obligations.SelectTakesASelector := by
  intro sm p d a b s h hv
  refine issue_wroteV (m := laneMeta sm 0 0 (topReg [d.toNat, a.toNat, b.toNat]) [a.toNat, b.toNat]) h.1 (laneMeta_ok h hv) rfl rfl (w := s.cur.em)
    (x := ofLanes fun k => if (s.rawP p.toNat).getLsbD k then laneOf (s.rawV a.toNat) k else laneOf (s.rawV b.toNat) k) (fl := 0) ?_ ?_ noFlags
  · simp only [charge_readV h, charge_readP h, State.charge_cur_em, State.orFlags_zero]
  · intro k hk; simp only [laneOf_ofLanes _ hk]

end Sys2Proof.Machine
end

section
/-!
PROOF. Compares, predicate logic, the execution mask and lane movement (02 R42, R56, R57, R59 to R61).
-/

namespace Sys2Proof.Machine

/-! ### Compares -/

theorem compares_of_compare2 {i : Bool → BitVec 3 → BitVec 3 → BitVec 6 → BitVec 6 → Instr} {f : W32 → W32 → Bool × FFlags}
    (hi : ∀ sm g d a b s, exec (i sm g d a b) s = compare2 sm g d a b f s) : Compares i f :=
  fun sm g d a b s h hv => hi sm g d a b s ▸ compare2_wroteP h sm g d a b hv f

/-- Settles O6: every compare is executed by the one form that writes a predicate from two vectors. -/
theorem compareOperations : Obligations.CompareOperations :=
  ⟨compares_of_compare2 fun _ _ _ _ _ _ => rfl, compares_of_compare2 fun _ _ _ _ _ _ => rfl, compares_of_compare2 fun _ _ _ _ _ _ => rfl,
    compares_of_compare2 fun _ _ _ _ _ _ => rfl, compares_of_compare2 fun _ _ _ _ _ _ => rfl, compares_of_compare2 fun _ _ _ _ _ _ => rfl,
    compares_of_compare2 fun _ _ _ _ _ _ => rfl, compares_of_compare2 fun _ _ _ _ _ _ => rfl, compares_of_compare2 fun _ _ _ _ _ _ => rfl,
    compares_of_compare2 fun _ _ _ _ _ _ => rfl, compares_of_compare2 fun _ _ _ _ _ _ => rfl, compares_of_compare2 fun _ _ _ _ _ _ => rfl⟩

/-! ### Predicate logic -/

/-- A written predicate has the bits of its lanes, and no others. -/
theorem State.WroteP.congr {s t : State} {d len : Nat} {v v' : Nat → Bool} {fl : Nat → FFlags} (h : s.WroteP t d len v fl)
    (hv : ∀ k < 256, v k = v' k) : s.WroteP t d len v' fl :=
  { h with bits := fun k hk => by rw [h.bits k hk, hv k hk] }

theorem pred2_wroteP_bits {s : State} (h : s.GroupReady) (sm : Bool) (g d a b : BitVec 3) {f : Mask → Mask → Mask} {p : Bool → Bool → Bool}
    (hf : ∀ x y k, k < 256 → (f x y).getLsbD k = p (x.getLsbD k) (y.getLsbD k)) :
    ∃ t, pred2 sm g d a b f s = .next t ∧ s.WroteP t d.toNat 4
      (fun k => if (s.act g).getLsbD k then p ((s.rawP a.toNat).getLsbD k) ((s.rawP b.toNat).getLsbD k) else (s.rawP d.toNat).getLsbD k)
      (fun _ => 0) := by
  obtain ⟨t, h1, h2⟩ := pred2_wroteP h sm g d a b f
  exact ⟨t, h1, h2.congr fun k hk => by rw [hf _ _ _ hk]⟩

/-- Settles O7: the masks are combined as a whole, which is bit by bit in the lanes. -/
theorem predicateLogic : Obligations.PredicateLogic := by
  unfold Obligations.PredicateLogic
  simp only [List.forall_mem_cons]
  refine ⟨⟨?_, ?_, ?_, nofun⟩, ?_, ?_, nofun⟩
  · exact fun sm g d a b s h => pred2_wroteP_bits h sm g d a b fun x y k _ => BitVec.getLsbD_and
  · exact fun sm g d a b s h => pred2_wroteP_bits h sm g d a b fun x y k _ => BitVec.getLsbD_or
  · exact fun sm g d a b s h => pred2_wroteP_bits h sm g d a b fun x y k _ => BitVec.getLsbD_xor
  · exact fun sm g d a s h => pred2_wroteP_bits h sm g d a a (f := fun x _ => ~~~x) (p := fun x _ => !x) fun x y k hk => by simp [hk]
  · exact fun sm g d a s h => pred2_wroteP_bits h sm g d a a (f := fun x _ => x) (p := fun x _ => x) fun x y k _ => rfl

/-! ### The execution mask -/

/-- R59: `em` alone is written. -/
theorem issue_wroteEm {m : Meta} {s : State} (h : s.Ready) (hi : s.illegal m = none) (hn : m.insn = false) (hr : m.nonreplay = false)
    {body : State → Eff} {e : Mask} (hb : body (s.charge m) = .done ((s.charge m).updCur fun c => { c with em := e })) :
    ∃ t, issue m s body = .next t ∧ t.cur.em = e ∧ s.GoesOn t m.len ∧ s.SameBytes t ∧ t.vrf = s.vrf ∧
      s.Keeps { t with cur := { t.cur with em := s.cur.em } } := by
  let u := (s.charge m).updCur fun c => { c with em := e }
  refine ⟨u.finish m.len m.nonreplay none, ?_, rfl, ?_, ?_, ?_, ?_⟩
  · rw [issue_ready h hi hn, hb, Eff.close_done_quiet (u := u) (by simp [u, h.recipe]) (by simp [u, h.word]) (by simp [u, h.written])]
  · simp [State.GoesOn, State.finish, u, Ctx.follow]
  · exact State.sameBytes_mem (by simp [State.finish, u])
  · simp [State.finish, u]
  · have he : ({ u.finish m.len m.nonreplay none with cur := { (u.finish m.len m.nonreplay none).cur with em := s.cur.em } } : State) =
        (s.charge m).finish m.len m.nonreplay none := by
      simp only [State.finish, u, State.updCur]
      simp [Ctx.follow]
    rw [he, hr]
    exact (State.charge_keeps s m).trans (State.finish_keeps _ _ _)

theorem emrd_wroteP {s : State} (h : s.GroupReady) (sm : Bool) (g d : BitVec 3) : ∃ t, exec (.emrd sm g d) s = .next t ∧
    s.WroteP t d.toNat 4 (fun k => if (s.rawP g.toNat).getLsbD k then s.cur.em.getLsbD k else (s.rawP d.toNat).getLsbD k) (fun _ => 0) := by
  refine issue_wroteP (m := laneMeta sm 0 0 0 []) h.1 (laneMeta_ok h (l := []) (by simp [State.hasV])) rfl rfl (w := s.rawP g.toNat) (x := s.cur.em)
    (fl := 0) ?_ (fun _ _ => rfl) noFlags
  simp only [charge_readP h, State.charge_cur_em, State.orFlags_zero]

theorem emMeta_ok {s : State} (h : s.GroupReady) (sm : Bool) : s.illegal { laneMeta sm 0 0 0 [] with recipe := false } = none :=
  illegal_lane h (Nat.zero_le _) (Nat.zero_le _) (.inl rfl) rfl

/-- Settles O8: `emrd` writes a predicate in the lanes of its guard, `emwr` and `emand` write `em` alone. -/
theorem executionMask : Obligations.ExecutionMask :=
  ⟨fun sm g d s h => emrd_wroteP h sm g d,
    fun sm a s h => issue_wroteEm h.1 (emMeta_ok h sm) rfl rfl (by simp only [charge_readP h]),
    fun sm a s h => issue_wroteEm h.1 (emMeta_ok h sm) rfl rfl (by simp only [charge_readP h, State.updCur, State.charge_cur_em])⟩

/-! ### Lane movement -/

theorem State.namesPoison_none {s : State} (h : s.cur.poisonV = []) (m : Mask) (r : Nat) (idx : Nat → Nat) : s.namesPoison m r idx = false := by
  rw [State.namesPoison, h]; rfl

section movement
variable {s : State} (h : s.GroupReady) (sm : Bool) (g : BitVec 3)
include h

/-- R60: each active lane takes the element its index names; every element is read before one is written. -/
theorem moveLanes_wroteV (d a b : BitVec 6) (hv : s.hasV [d.toNat, a.toNat, b.toNat]) (idx : Mask → Vec → Nat → Nat) :
    ∃ t, moveLanes sm g d a b idx s = .next t ∧ s.WroteV t d.toNat 4
      (fun k => if (s.act g).getLsbD k then laneOf (s.rawV a.toNat) (idx (s.act g) (s.rawV b.toNat) k) else laneOf (s.rawV d.toNat) k)
      (fun _ => 0) := by
  refine issue_wroteV h.1 (laneMeta_ok h hv) rfl rfl (w := s.act g)
    (x := ofLanes fun k => laneOf (s.rawV a.toNat) (idx (s.act g) (s.rawV b.toNat) k)) (fl := 0) ?_ ?_ noFlags
  · have hp : (s.charge (laneMeta sm g 1 (topReg [d.toNat, a.toNat, b.toNat]) [b.toNat])).cur.poisonV = [] := by simp [h.1.poisonV]
    simp only [State.namesPoison_none hp, charge_readV h, charge_act h, ready_act h, State.orFlags_zero, Bool.false_eq_true, if_false]
  · intro k hk; simp only [laneOf_ofLanes _ hk]

theorem bcast_wroteV (d a b : BitVec 6) (hv : s.hasV [d.toNat, a.toNat, b.toNat]) {l : Nat}
    (hl : l < 256 ∧ (s.act g).getLsbD l ∧ ∀ j < l, !(s.act g).getLsbD j) : ∃ t, exec (.bcast sm g d a b) s = .next t ∧ s.WroteV t d.toNat 4
      (fun k => if (s.act g).getLsbD k then laneOf (s.rawV a.toNat) ((laneOf (s.rawV b.toNat) l).toNat % 256) else laneOf (s.rawV d.toNat) k)
      (fun _ => 0) := by
  have hlow : lowestLane (s.act g) = some l := lowestLane_eq_some.2 ⟨hl.1, hl.2.1, by simpa using hl.2.2⟩
  have hm := moveLanes_wroteV h sm g d a b hv fun m vb _ => (laneOf vb ((lowestLane m).getD 0)).toNat % 256
  simp only [hlow, Option.getD_some] at hm
  exact hm

theorem bcast_noLane (d a b : BitVec 6) (hv : s.hasV [d.toNat, a.toNat, b.toNat]) (ha : s.act g = 0) :
    ∃ t, exec (.bcast sm g d a b) s = .next t ∧ s.WroteV t d.toNat 4 (laneOf (s.rawV d.toNat)) (fun _ => 0) := by
  have hm := moveLanes_wroteV h sm g d a b hv fun m vb _ => (laneOf vb ((lowestLane m).getD 0)).toNat % 256
  simp only [ha, BitVec.ofNat_eq_ofNat, BitVec.getLsbD_zero, Bool.false_eq_true, if_false] at hm
  exact hm

theorem vtosMeta_ok (a : BitVec 6) (hv : s.hasV [a.toNat]) : s.illegal { laneMeta sm g 0 (topReg [a.toNat]) [] with recipe := true } = none :=
  laneMeta_ok h hv

theorem vtos_wroteS (d a : BitVec 6) (hv : s.hasV [a.toNat]) {l : Nat} (hl : l < 256 ∧ (s.act g).getLsbD l ∧ ∀ j < l, !(s.act g).getLsbD j) :
    ∃ t, exec (.vtos sm g d a) s = .next t ∧ s.WroteS t d.toNat 4 (0#32 ++ laneOf (s.rawV a.toNat) l) := by
  have hlow : lowestLane (s.act g) = some l := lowestLane_eq_some.2 ⟨hl.1, hl.2.1, by simpa using hl.2.2⟩
  refine issue_wroteS h.1 (vtosMeta_ok h sm g a hv) rfl rfl ?_
  have hp : (s.charge { laneMeta sm g 0 (topReg [a.toNat]) [] with recipe := true }).cur.poisonV = [] := by simp [h.1.poisonV]
  simp only [charge_act h, ← ready_act h, hlow, State.namesPoison_none hp, charge_readV h, Bool.false_eq_true, if_false,
    BitVec.setWidth_eq_append (by decide : 32 ≤ 64)]
  rfl

theorem vtos_noLane (d a : BitVec 6) (hv : s.hasV [a.toNat]) (ha : s.act g = 0) :
    ∃ t, exec (.vtos sm g d a) s = .next t ∧ s.WroteNothing t 4 := by
  have hlow : lowestLane (0 : Mask) = none := by decide
  refine issue_wroteNothing h.1 (vtosMeta_ok h sm g a hv) rfl rfl ?_
  simp only [charge_act h, ← ready_act h, ha, hlow]

theorem stov_wroteV (d a : BitVec 6) (hv : s.hasV [d.toNat]) : ∃ t, exec (.stov sm g d a) s = .next t ∧ s.WroteV t d.toNat 4
    (fun k => if (s.act g).getLsbD k then (s.rawS a.toNat).extractLsb' 0 32 else laneOf (s.rawV d.toNat) k) (fun _ => 0) := by
  refine issue_wroteV (m := { laneMeta sm g 0 (topReg [d.toNat]) [] with ss := [a.toNat] }) h.1
    (illegal_lane h (topReg_le hv) (Nat.zero_le _) (.inl rfl) rfl) rfl rfl (w := s.act g)
    (x := ofLanes fun _ => (s.rawS a.toNat).extractLsb' 0 32) (fl := 0) ?_ ?_ noFlags
  · simp only [charge_readS h.1, charge_act h, ready_act h, State.orFlags_zero]
  · intro k hk; simp only [laneOf_ofLanes _ hk]

theorem lane_wroteV (d : BitVec 6) (hv : s.hasV [d.toNat]) : ∃ t, exec (.lane sm g d) s = .next t ∧ s.WroteV t d.toNat 4
    (fun k => if (s.act g).getLsbD k then BitVec.ofNat 32 k else laneOf (s.rawV d.toNat) k) (fun _ => 0) := by
  refine issue_wroteV h.1 (laneMeta_ok h hv) rfl rfl (w := s.act g) (x := ofLanes fun k => BitVec.ofNat 32 k) (fl := 0) ?_ ?_ noFlags
  · simp only [charge_act h, ready_act h, State.orFlags_zero]
  · intro k hk; simp only [laneOf_ofLanes _ hk]

end movement

/-- Settles O9: `shfl`, `rot` and `bcast` are one movement with three indices; the others write what their lanes or their register hold. -/
theorem laneMovement : Obligations.LaneMovement :=
  ⟨fun sm g d a b _ h hv => moveLanes_wroteV h sm g d a b hv fun _ vb k => (laneOf vb k).toNat % 256,
    fun sm g d a b _ h hv => moveLanes_wroteV h sm g d a b hv fun _ vb k => (k + (laneOf vb k).toNat % 256) % 256,
    fun sm g d a b _ _ h hv hl => bcast_wroteV h sm g d a b hv hl, fun sm g d a b _ h hv ha => bcast_noLane h sm g d a b hv ha,
    fun sm g d a _ _ h hv hl => vtos_wroteS h sm g d a hv hl, fun sm g d a _ h hv ha => vtos_noLane h sm g d a hv ha,
    fun sm g d a _ h hv => stov_wroteV h sm g d a hv, fun sm g d _ h hv => lane_wroteV h sm g d hv⟩

end Sys2Proof.Machine
end

section
/-!
PROOF. Uniform operations, branches and clock requests (02 R63 to R65, R76).
-/

namespace Sys2Proof.Machine

/-! ### Uniform operations -/

theorem computesS_of_uni2 {i : Bool → BitVec 6 → BitVec 6 → BitVec 6 → Instr} {f : W64 → W64 → W64} (cls : Nat)
    (hi : ∀ sm d a b s, exec (i sm d a b) s = uni2 sm cls d a b f s) : ComputesS i f :=
  fun sm d a b s h => hi sm d a b s ▸ uni2_wroteS h sm cls d a b f

theorem defersS_of_uniSlow {i : Bool → BitVec 6 → BitVec 6 → BitVec 6 → Instr} {f : W64 → W64 → W64} (cls : Nat)
    (hi : ∀ sm d a b s, exec (i sm d a b) s = uniSlow sm cls d a b f s) : DefersS i f :=
  fun sm d a b s h => hi sm d a b s ▸ uniSlow_left h sm cls d a b f

theorem smin_eq : (fun x y : W64 => if x.toInt ≤ y.toInt then x else y) = fun x y => BitVec.ofInt 64 (min x.toInt y.toInt) := by
  funext x y; rw [min_def]; split <;> rw [BitVec.ofInt_toInt]
theorem smax_eq : (fun x y : W64 => if x.toInt ≤ y.toInt then y else x) = fun x y => BitVec.ofInt 64 (max x.toInt y.toInt) := by
  funext x y; rw [max_def]; split <;> rw [BitVec.ofInt_toInt]
theorem flag64_beq : (fun x y : W64 => flag64 (x == y)) = fun x y => if x = y then 1 else 0 := by
  funext x y; simp only [flag64, beq_iff_eq]

theorem sli_wroteS {s : State} (h : s.Ready) (sm : Bool) (d : BitVec 6) (i : BitVec 18) :
    ∃ t, exec (.sli sm d i) s = .next t ∧ s.WroteS t d.toNat 4 (i.signExtend 64) :=
  issue_wroteS h (uniMeta_ok h sm 0) rfl rfl rfl

theorem slui_wroteS {s : State} (h : s.Ready) (sm : Bool) (d : BitVec 6) (i : BitVec 18) :
    ∃ t, exec (.slui sm d i) s = .next t ∧ s.WroteS t d.toNat 4 ((s.rawS d.toNat).extractLsb' 0 46 ++ i) := by
  refine issue_wroteS h (uniMeta_ok h sm 0) rfl rfl ?_
  rw [charge_readS h, ← shiftLeft_or_setWidth (k := 46) (s.rawS d.toNat) i]

/-- Settles O11: each operation is executed by a uniform form, with the element function of R63. -/
theorem uniformOperations : Obligations.UniformOperations :=
  ⟨computesS_of_uni2 0 fun _ _ _ _ _ => rfl, computesS_of_uni2 0 fun _ _ _ _ _ => rfl, computesS_of_uni2 1 fun _ _ _ _ _ => rfl,
    computesS_of_uni2 0 fun _ _ _ _ _ => rfl, computesS_of_uni2 0 fun _ _ _ _ _ => rfl, computesS_of_uni2 0 fun _ _ _ _ _ => rfl,
    computesS_of_uni2 0 fun _ _ _ _ _ => rfl, computesS_of_uni2 0 fun _ _ _ _ _ => rfl, computesS_of_uni2 0 fun _ _ _ _ _ => rfl,
    computesS_of_uni2 0 fun _ _ _ _ _ => rfl, smin_eq ▸ computesS_of_uni2 0 fun _ _ _ _ _ => rfl, smax_eq ▸ computesS_of_uni2 0 fun _ _ _ _ _ => rfl,
    flag64_beq ▸ computesS_of_uni2 0 fun _ _ _ _ _ => rfl, computesS_of_uni2 0 fun _ _ _ _ _ => rfl,
    defersS_of_uniSlow 2 fun _ _ _ _ _ => rfl, defersS_of_uniSlow 3 fun _ _ _ _ _ => rfl,
    fun sm d i _ h => sli_wroteS h sm d i, fun sm d i _ h => slui_wroteS h sm d i⟩

/-! ### Branches -/

/-- R65: a branch whose condition is decided both ways by the state it issues in. -/
theorem branchIf_cases {s : State} (h : s.Ready) (sm seq : Bool) (ss : List Nat) (hq : seq = true ∨ s.cur.kind = .group) (o : BitVec 18)
    (cond : State → Bool) {c : Bool} (hc : cond (s.charge (ctlMeta sm seq ss)) = c) {P Q : Prop} (hP : P → c = true) (hQ : Q → c = false) :
    ∃ t, branchIf sm seq ss o cond s = .next t ∧ (P → s.MovedTo t (s.cur.pc + 2 * o.signExtend 64)) ∧ (Q → s.MovedTo t (s.cur.follow 4).1) := by
  obtain ⟨t, h1, h2⟩ := branchIf_moved h sm seq ss hq o cond
  rw [hc] at h2
  exact ⟨t, h1, fun p => by rwa [if_pos (hP p)] at h2, fun q => by rwa [if_neg (by rw [hQ q]; decide)] at h2⟩

section branches
variable {s : State} (sm : Bool) (n : BitVec 3) (o : BitVec 18)

theorem br_moved (h : s.Ready) : ∃ t, exec (.br sm o) s = .next t ∧ s.MovedTo t (s.cur.pc + 2 * o.signExtend 64) :=
  branchIf_moved h sm true [] (.inl rfl) o fun _ => true

theorem bz_moved (h : s.Ready) : ∃ t, exec (.bz sm n o) s = .next t ∧
    s.MovedTo t (if s.rawS n.toNat = 0 then s.cur.pc + 2 * o.signExtend 64 else (s.cur.follow 4).1) := by
  have hb := branchIf_moved h sm true [n.toNat] (.inl rfl) o fun t => t.readS n.toNat == 0
  simp only [charge_readS h, beq_iff_eq] at hb
  exact hb

theorem bnz_moved (h : s.Ready) : ∃ t, exec (.bnz sm n o) s = .next t ∧
    s.MovedTo t (if s.rawS n.toNat = 0 then (s.cur.follow 4).1 else s.cur.pc + 2 * o.signExtend 64) := by
  have hb := branchIf_moved h sm true [n.toNat] (.inl rfl) o fun t => t.readS n.toNat != 0
  simp only [charge_readS h, bne_iff_ne, ite_not] at hb
  exact hb

theorem no_lane_iff {e p : Mask} : (e &&& p != 0) = false ↔ ∀ k < 256, e.getLsbD k = true → (!p.getLsbD k) = true := by
  rw [← Bool.not_eq_true, some_lane_iff]
  push Not
  exact forall₂_congr fun k _ => by simp

theorem every_lane_iff {e p : Mask} : (e &&& ~~~p == 0) = true ↔ ∀ k < 256, e.getLsbD k = true → p.getLsbD k = true := by
  have hn : (e &&& ~~~p == 0) = true ↔ (e &&& ~~~p != 0) = false := by simp
  rw [hn, no_lane_iff]
  exact forall₂_congr fun k hk => by simp [hk]

theorem bany_moved (h : s.GroupReady) : ∃ t, exec (.bany sm n o) s = .next t ∧
    ((∃ k < 256, s.cur.em.getLsbD k ∧ (s.rawP n.toNat).getLsbD k) → s.MovedTo t (s.cur.pc + 2 * o.signExtend 64)) ∧
    ((∀ k < 256, s.cur.em.getLsbD k → !(s.rawP n.toNat).getLsbD k) → s.MovedTo t (s.cur.follow 4).1) :=
  branchIf_cases h.1 sm false [] (.inr h.2) o (fun t => t.cur.em &&& t.readP n.toNat != 0) (by rw [charge_readP h, State.charge_cur_em])
    some_lane_iff.2 no_lane_iff.2

theorem ball_moved (h : s.GroupReady) : ∃ t, exec (.ball sm n o) s = .next t ∧
    ((∀ k < 256, s.cur.em.getLsbD k → (s.rawP n.toNat).getLsbD k) → s.MovedTo t (s.cur.pc + 2 * o.signExtend 64)) ∧
    ((∃ k < 256, s.cur.em.getLsbD k ∧ !(s.rawP n.toNat).getLsbD k) → s.MovedTo t (s.cur.follow 4).1) := by
  refine branchIf_cases h.1 sm false [] (.inr h.2) o (fun t => t.cur.em &&& ~~~(t.readP n.toNat) == 0) (by rw [charge_readP h, State.charge_cur_em])
    every_lane_iff.2 ?_
  rintro ⟨k, hk, he, hp⟩
  rw [← Bool.not_eq_true, every_lane_iff]
  exact fun hall => by simp [hall k hk he] at hp

theorem bnone_moved (h : s.GroupReady) : ∃ t, exec (.bnone sm n o) s = .next t ∧
    ((∀ k < 256, s.cur.em.getLsbD k → !(s.rawP n.toNat).getLsbD k) → s.MovedTo t (s.cur.pc + 2 * o.signExtend 64)) ∧
    ((∃ k < 256, s.cur.em.getLsbD k ∧ (s.rawP n.toNat).getLsbD k) → s.MovedTo t (s.cur.follow 4).1) := by
  have hb : ∀ m : Mask, (m == 0) = !(m != 0) := by simp [bne]
  exact branchIf_cases h.1 sm false [] (.inr h.2) o (fun t => t.cur.em &&& t.readP n.toNat == 0)
    (by rw [charge_readP h, State.charge_cur_em, hb]) (fun hn => by rw [no_lane_iff.2 hn]; rfl) (fun hs => by rw [some_lane_iff.2 hs]; rfl)

theorem call_moved (h : s.Ready) : ∃ t, exec (.call sm o) s = .next t ∧ t.cur.pc = s.cur.pc + 2 * o.signExtend 64 ∧ t.rawS 63 = s.cur.pc + 4 ∧
    (∀ r, r ≠ 63 → t.rawS r = s.rawS r) ∧ s.SameBytes t ∧ t.vrf = s.vrf ∧ s.Keeps { t with cur := { t.cur with sregs := s.cur.sregs } } := by
  obtain ⟨t, h1, hpc, hr, h2⟩ := issue_goto_writeS (m := ctlMeta sm true []) h (ctlMeta_ok h sm true [] (.inl rfl)) rfl
    (body := fun t => .goto (t.writeS 63 (t.cur.pc + 4)) (t.branchTo o)) (by rw [State.branchTo, State.charge_cur_pc])
  exact ⟨t, h1, hpc, by rw [hr, if_pos rfl], fun r hn => by rw [hr, if_neg hn], h2⟩

end branches

/-- Settles O12: every branch is the one conditional move of control, with the condition of its name; `call` also writes its link. -/
theorem branches : Obligations.Branches :=
  ⟨fun sm o _ h => br_moved sm o h, fun sm n o _ h => bz_moved sm n o h, fun sm n o _ h => bnz_moved sm n o h, fun sm n o _ h => bany_moved sm n o h,
    fun sm n o _ h => ball_moved sm n o h, fun sm n o _ h => bnone_moved sm n o h, fun sm o _ h => call_moved sm o h⟩

/-! ### Clock requests -/

/-- R76: what a request of code c sets or clears in its context. -/
def Ctx.clockRequest (c : BitVec 4) (k : Ctx) : Ctx :=
  { k with breq := if c = 1 then true else if c = 2 then false else k.breq, nreq := if c = 3 then true else if c = 4 then false else k.nreq }
/-- R76: the same with the tile's note that boost was asked for. -/
def State.clockRequest (s : State) (c : BitVec 4) : State :=
  let t := s.updCur (Ctx.clockRequest c)
  if c = 1 then t.updTile (s.cur.core / 16) fun x => { x with requested := true } else t

theorem clockRequest_eq (c : BitVec 4) (k : Ctx) : (match c.toNat with
    | 1 => { k with breq := true }
    | 2 => { k with breq := false }
    | 3 => { k with nreq := true }
    | 4 => { k with nreq := false }
    | _ => k) = k.clockRequest c := by
  have hc : c.toNat < 16 := c.isLt
  obtain ⟨n, rfl⟩ : ∃ n : Fin 16, c = BitVec.ofFin n := ⟨c.toFin, rfl⟩
  fin_cases n <;> rfl

theorem State.clockRequest_eq (s : State) (c : BitVec 4) :
    s.clockRequest c = { s with tiles := (s.clockRequest c).tiles, cur := s.cur.clockRequest c } := by
  unfold State.clockRequest; split <;> rfl
theorem State.clockRequest_cur (s : State) (c : BitVec 4) : (s.clockRequest c).cur = s.cur.clockRequest c := by
  unfold State.clockRequest; split <;> rfl

theorem State.Keeps.clockRequest {s t : State} (h : s.Keeps t) (hc : t.cur.core = s.cur.core) (c : BitVec 4) : (s.clockRequest c).Keeps (t.clockRequest c) := by
  have hk := h.updCur (Ctx.clockRequest c) (Ctx.clockRequest c) fun _ => rfl
  unfold State.clockRequest
  rw [hc]
  split
  · exact hk.updTile _ _ (fun x => { x with requested := true }) fun _ => rfl
  · exact hk

theorem State.clockRequest_tile (s : State) (c : BitVec 4) (x : Nat) :
    (s.clockRequest c).tile x = if c = 1 ∧ x = s.cur.core / 16 then { s.tile x with requested := true } else s.tile x := by
  by_cases hc : c = 1
  · simp only [State.clockRequest, hc, if_true, true_and, State.updTile, State.setTile, State.tile, SMap.get_set, State.updCur_tiles]
    split
    · next hx => rw [hx]
    · rfl
  · simp only [State.clockRequest, hc, if_false, false_and]; rfl

/-- Table 02-8: the status word reads nothing an issue counts. -/
theorem State.Keeps.clkWord {s t : State} (h : s.Keeps t) : t.clkWord = s.clkWord := by
  have hb := (State.keeps_iff.1 h).1
  have hc : t.cur.core = s.cur.core := by have e := congrArg (fun x => x.cur.core) hb; exact e
  have h1 : t.cur.breq = s.cur.breq := by have e := congrArg (fun x => x.cur.breq) hb; exact e
  have h2 : t.cur.nreq = s.cur.nreq := by have e := congrArg (fun x => x.cur.nreq) hb; exact e
  have h3 : (t.core s.cur.core).setpt = (s.core s.cur.core).setpt := by have e := congrArg Core.setpt (h.2.1 s.cur.core); exact e
  have h4 : (t.tile (tileOfCore s.cur.core)).permits = (s.tile (tileOfCore s.cur.core)).permits := by
    have e := congrArg Tile.permits (h.2.2 (tileOfCore s.cur.core)); exact e
  rw [State.clkWord, State.clkWord, hc, h1, h2, h3, h4]

/-- The setpoint and the permits are those before the request. -/
theorem State.clkWord_clockRequest (s : State) (c : BitVec 4) : (s.clockRequest c).clkWord = BitVec.ofNat 64
    (s.myCore.setpt + (s.clockRequest c).cur.breq.toNat * 4 + (s.clockRequest c).cur.nreq.toNat * 8 + (s.tile (s.cur.core / 16)).permits * 256) := by
  have hc : (s.clockRequest c).cur.core = s.cur.core := by rw [State.clockRequest_cur]; rfl
  have hk : (s.clockRequest c).core s.cur.core = s.myCore := by unfold State.clockRequest; split <;> rfl
  have ht : ((s.clockRequest c).tile (s.cur.core / 16)).permits = (s.tile (s.cur.core / 16)).permits := by
    rw [State.clockRequest_tile]; split <;> rfl
  rw [State.clkWord, hc, hk, tileOfCore, ht]

/-- Settles O35: the request is made before the status word is taken, which is left in flight. -/
theorem clockRequests : Obligations.ClockRequests := by
  intro sm d c s h
  let m : Meta := { settle := sm, seq := true }
  have hi : s.illegal m = none := illegal_uniform h rfl (Nat.zero_le _) rfl (fun _ => rfl) (.inl rfl) rfl
  let u := s.clockRequest c
  let w := (s.charge m).clockRequest c
  have hw : u.Keeps w := (State.charge_keeps s m).clockRequest (State.charge_cur_core s m) c
  have hcur : w.cur = (s.charge m).cur.clockRequest c := State.clockRequest_cur _ c
  obtain ⟨t, h1, hd, hp, hg, hb, hv, hk⟩ := issue_leftEffect (m := m) (u := u) (w := w) h hi (.inl rfl) rfl
    (vals := [.uni d.toNat w.clkWord false]) (fl := 0) (due := e4Steps) (ready := true)
    (body := fun t =>
      let t := t.updCur fun k => match c.toNat with
        | 1 => { k with breq := true }
        | 2 => { k with breq := false }
        | 3 => { k with nreq := true }
        | 4 => { k with nreq := false }
        | _ => k
      let t := if c.toNat = 1 then t.updTile (tileOfCore t.cur.core) fun x => { x with requested := true } else t
      .done (t.defer [.uni d.toNat t.clkWord false] 0 e4Steps true))
    (by
      have hc : (c.toNat = 1) = (c = 1) := by rw [← BitVec.toNat_inj]; rfl
      simp only [clockRequest_eq, hc]
      rfl)
    (.inl (by decide)) hw (by rw [hcur]; exact State.charge_cur_pc s m) (by rw [hcur]; exact State.charge_cur_loop s m)
    (by rw [hcur]; exact (State.charge_cur_slotLen s m).trans h.word) (by rw [hcur]; exact (State.charge_cur_recipe s m).trans h.recipe)
    (by rw [hcur]; exact (State.charge_cur_deferred s m).trans h.written)
  refine ⟨t, u, h1, ?_, State.clockRequest_tile s c, ?_, hp, ?_, hb, hv, hk⟩
  · exact s.clockRequest_eq c
  · rw [hd, hw.clkWord, State.clkWord_clockRequest]; rfl
  · have hf : u.cur.follow m.len = s.cur.follow m.len := by simp only [u, State.clockRequest_cur]; rfl
    exact ⟨by rw [hg.1, hf], by rw [hg.2, hf]⟩

end Sys2Proof.Machine
end

section
/-!
PROOF. `exit` (02 R67, 06 R150): the context leaves its slot, its block and its launch.
-/

namespace Sys2Proof.Machine

/-! ### The end of a context -/

/-- R151: what the release of a block without contexts leaves. -/
theorem State.retireBlock_rest (s : State) (b : Nat) : s.retireBlock b =
    { s with blocks := (s.retireBlock b).blocks, cores := (s.retireBlock b).cores } := by
  unfold State.retireBlock
  split
  · rfl
  · dsimp only
    split <;> rfl
/-- R151: a block goes when no context of it is left. -/
theorem State.retireBlock_blocks (s : State) (b : Nat) : (s.retireBlock b).blocks =
    if ∃ c ∈ s.allCtxs, c.kind ≠ .none ∧ c.block = b then s.blocks else SMap.del s.blocks b := by
  have hany : (s.allCtxs.any fun c => c.block == b && c.kind != .none) = true ↔ ∃ c ∈ s.allCtxs, c.kind ≠ .none ∧ c.block = b := by
    simp [and_comm]
  unfold State.retireBlock
  by_cases hc : ∃ c ∈ s.allCtxs, c.kind ≠ .none ∧ c.block = b
  · rw [if_pos hc, if_pos (hany.2 hc)]
  · rw [if_neg hc, if_neg (mt hany.1 hc)]
    dsimp only
    split <;> rfl

theorem State.updLaunch_eq {s : State} {k : Nat} {l : Launch} (h : SMap.find s.launches k = some l) (f : Launch → Launch) :
    s.updLaunch k f = { s with launches := SMap.put s.launches k (f l) } := by
  rw [State.updLaunch, h]

/-- The current context without its slot, its token and its block's claim on it. -/
def State.vacated (s : State) : State :=
  (({ s with cur := {}, ctxs := s.ctxs.filter fun x => x.id ≠ s.cur.id } : State).releaseToken s.cur.id).retireBlock s.cur.block

theorem State.vacated_rest (s : State) : s.vacated = { s with
    cur := {}, ctxs := s.ctxs.filter fun x => x.id ≠ s.cur.id, parts := s.vacated.parts, locks := s.vacated.locks, blocks := s.vacated.blocks,
    cores := s.vacated.cores } := by
  unfold State.vacated
  rw [State.retireBlock_rest]
  rfl

/-- R151: the block stays while another context of it is left. -/
theorem State.vacated_blocks (s : State) : s.vacated.blocks =
    if ∃ c ∈ s.ctxs.filter (fun x : Ctx => x.id ≠ s.cur.id), c.kind ≠ .none ∧ c.block = s.cur.block then s.blocks else SMap.del s.blocks s.cur.block := by
  rw [State.vacated, State.retireBlock_blocks]
  refine if_congr ?_ rfl rfl
  simp only [State.allCtxs, State.releaseToken, List.mem_cons, exists_eq_or_imp]
  exact or_iff_right fun h => h.1 rfl

/-- The spawn-tree counter of a launch falls by one. -/
def Launch.less (l : Launch) : Launch := { l with counter := l.counter - 1 }

theorem State.endCtx_cur (s : State) : s.endCtx s.cur =
    if ((s.vacated.updLaunch s.cur.launch Launch.less).launch s.cur.launch).counter = 0 &&
      (SMap.find (s.vacated.updLaunch s.cur.launch Launch.less).launches s.cur.launch).isSome
    then (s.vacated.updLaunch s.cur.launch Launch.less).finishLaunch s.cur.launch 0 else s.vacated.updLaunch s.cur.launch Launch.less := by
  simp only [State.endCtx, State.vacated, if_true]
  rfl

/-- R150: while the launch has another context it stays, with the spawn-tree counter one lower. -/
theorem State.endCtx_eq {s : State} {l : Launch} (h : SMap.find s.launches s.cur.launch = some l) (hc : 1 < l.counter) :
    s.endCtx s.cur = { s.vacated with launches := SMap.put s.launches s.cur.launch l.less } := by
  have hv : s.vacated.launches = s.launches := by rw [State.vacated_rest]
  have hn : l.less.counter ≠ 0 := Nat.sub_ne_zero_of_lt hc
  rw [State.endCtx_cur, State.updLaunch_eq (hv ▸ h), hv]
  simp only [State.launch, SMap.get_put, if_true, hn, decide_false, Bool.false_and, Bool.false_eq_true, if_false]

/-! ### The instruction -/

/-- Without results in flight a settle completes at once. -/
theorem whenSettled_none {s : State} (hd : s.cur.deferred = []) (k : State → Eff) : whenSettled s k = k s := by
  rw [whenSettled, if_pos (by rw [Ctx.settled, hd]; rfl), State.settle_none hd]

/-- R163, R235: with nothing submitted there is nothing to close. -/
theorem State.closeOpen_none {s : State} (h : s.cur.openSet = []) : s.closeOpen = s := by rw [State.closeOpen, h]; rfl
theorem State.closeMx_none {s : State} (h : s.cur.mxOpen = []) : s.closeMx = s := by rw [State.closeMx, h]; rfl

/-- The context at the issue of its `exit`, without its transaction's marks. -/
def State.leaving (s : State) (m : Meta) : State := (s.charge m).updCur fun c => { c with txg := false, doomed := 0 }

theorem exit_ends {s : State} (h : s.Ready) (sm : Bool) (ht : s.cur.txg = false) (ho : s.cur.openSet = []) (hb : s.cur.batches = [])
    (hm : s.cur.mxOpen = []) (hx : s.cur.mxBatches = []) :
    exec (.exit sm) s = .next ((s.leaving (ctlMeta sm true [])).endCtx (s.leaving (ctlMeta sm true [])).cur) := by
  let t := s.charge (ctlMeta sm true [])
  have hd : t.cur.deferred = [] := (State.charge_cur_deferred ..).trans h.written
  have hco : t.closeOpen = t := State.closeOpen_none ((State.charge_cur_openSet ..).trans ho)
  have hcm : t.closeMx = t := State.closeMx_none ((State.charge_cur_mxOpen ..).trans hm)
  have hbt : t.cur.batches = [] := (State.charge_cur_batches ..).trans hb
  have hxt : t.cur.mxBatches = [] := (State.charge_cur_mxBatches ..).trans hx
  have ha : t.abortOpen 11 allLanes = t := by
    have htx : t.cur.txg = false := (State.charge_cur_txg ..).trans ht
    rw [State.abortOpen, htx]; rfl
  refine (issue_ready h (ctlMeta_ok h sm true [] (.inl rfl)) rfl _).trans ?_
  simp only [whenSettled_none hd, hco, hcm, hbt, hxt, ha, t]
  rfl

/-- Settles O29: the context's end is that of R150, seen from the state before the issue. -/
theorem exit : Obligations.Exit := by
  intro sm s l h ht ho hb hm hx hl hc
  let v := s.leaving (ctlMeta sm true [])
  have hvl : v.cur.launch = s.cur.launch := State.charge_cur_launch ..
  have hvs : v.launches = s.launches := State.charge_launches ..
  have hvb : v.vacated.blocks = if ∃ c ∈ s.ctxs.filter (fun x : Ctx => x.id ≠ s.cur.id), c.kind ≠ .none ∧ c.block = s.cur.block then s.blocks
      else SMap.del s.blocks s.cur.block := by
    rw [State.vacated_blocks]
    simp only [v, State.leaving, State.updCur_ctxs, State.updCur_cur, State.updCur_blocks, State.charge_ctxs, State.charge_cur_id, State.charge_cur_block,
      State.charge_blocks]
  have he := State.endCtx_eq (s := v) (l := l) (by rw [hvs, hvl]; exact hl) hc
  have hctx : (v.endCtx v.cur).ctxs = s.ctxs.filter fun c => c.id ≠ s.cur.id := by
    rw [he, State.vacated_rest]
    simp only [v, State.leaving, State.updCur_ctxs, State.updCur_cur, State.charge_ctxs, State.charge_cur_id]
  have hblk : (v.endCtx v.cur).blocks = v.vacated.blocks := by rw [he]
  refine ⟨v.endCtx v.cur, exit_ends h sm ht ho hb hm hx, ?_, hctx, ?_, ?_, ?_, ?_, ?_, ?_, ?_⟩
  · rw [he, State.vacated_rest]
  · rw [he, hvl, SMap.find_put, if_pos rfl]; rfl
  · intro k hk
    rw [he, hvl, hvs, SMap.find_put, if_neg hk]
  · rw [he, State.vacated_rest]
    exact State.sameBytes_mem (by simp [v, State.leaving])
  · rw [he, State.vacated_rest]
    exact State.charge_vrf ..
  · rw [he, State.vacated_rest]
    exact State.charge_vfs ..
  · rw [hctx, hblk, hvb]
    exact fun hex => if_pos hex
  · rw [hctx, hblk, hvb]
    exact fun hall => if_neg fun ⟨c, hcm, hk, hcb⟩ => hall c hcm hk hcb

end Sys2Proof.Machine
end

section
/-!
PROOF. Privileged instructions of S mode (02 R78 to R80, 05 R128): `fltaddr`, `pmap` and `tlbinv`.
-/

namespace Sys2Proof.Machine

/-! ### Consecutive bytes at any place of coherence -/

/-- R85: each of some consecutive bytes stands where it was written. -/
theorem State.Stored.cellsFrom_byte {s t : State} {l : Loc} {bs : List Byte} (h : s.Stored t (cellsFrom l bs)) {i : Nat} (hi : i < bs.length) :
    t.readByte ⟨l.tt, l.addr + i⟩ = bs.getD i 0 := by
  refine h.last _ _ ?_
  have hp : ((fun c : Loc × Byte => c.1 == ⟨l.tt, l.addr + i⟩) ∘ fun j => ((⟨l.tt, l.addr + j⟩ : Loc), bs.getD j 0)) = fun j => j == i := by
    funext j; simp
  rw [cellsFrom_eq, List.filter_map, hp, List.filter_beq, List.count_eq_one_of_mem List.nodup_range (List.mem_range.2 hi)]
  rfl

/-! ### The frame that `pmap` takes -/

/-- R128: the pool has one frame fewer. -/
def Part.lessPool (p : Part) : Part := { p with ftpCount := p.ftpCount - 1 }
/-- R128: a frame of 64 KiB reads as zero, and holds no error. -/
def State.zeroFrame (s : State) (a : Nat) : State :=
  { s with hbm := Mem.clear s.hbm a 65536, poison := s.poison.filter fun k => !(k.2 == 0 && a / 4 ≤ k.1 && k.1 < a / 4 + 16384) }
/-- R128: the frame at a leaves the pool of a partition, zeroed, and the leaf at q holds it. -/
def State.giveFrame (s : State) (tag a : Nat) (q : Loc) (leaf : Nat) : State := ((s.updPart tag Part.lessPool).zeroFrame a).writeNum q 8 leaf
/-- R128: a first-touch leaf, made valid with a frame. -/
def leafWith (e f : Nat) : Nat := e % 2 ^ 16 + f * 2 ^ 16 + e / 2 ^ 56 * 2 ^ 56 + 1

theorem Part.place_hbm {p : Part} {pa : Nat} {l : Loc} (h : p.place pa = some l) : l.tt = 0 := by
  unfold Part.place at h
  split at h
  · exact absurd h nofun
  · split at h
    · rw [← Option.some.inj h]
    · exact absurd h nofun

theorem State.poolTake_gives {s : State} {tag e ea f : Nat} {a q : Loc} (hv : e.testBit 0 = false) (hn : (s.part tag).ftpCount ≠ 0)
    (hf : s.partNum (s.part tag) ((s.part tag).ftpBase.toNat + 4 * ((s.part tag).ftpCount.toNat - 1)) 4 = some f)
    (ha : (s.part tag).place (f * 65536) = some a) (hq : (s.part tag).place ea = some q) :
    s.poolTake tag e ea = (s.giveFrame tag a.addr q (leafWith e f), 0) := by
  have hn' : ¬ (s.part tag).ftpCount.toNat = 0 := fun h0 => hn (BitVec.eq_of_toNat_eq h0)
  simp only [State.poolTake, if_neg hn', hf, ha, hq, hv, Bool.false_eq_true, if_false]
  rfl

theorem State.poolTake_empty {s : State} {tag e ea : Nat} (hn : (s.part tag).ftpCount = 0) : s.poolTake tag e ea = (s, 3) := by
  simp [State.poolTake, hn]

theorem State.updPart_eq {s : State} {k : Nat} {p : Part} (h : SMap.find s.parts k = some p) (f : Part → Part) : s.updPart k f = s.setPart k (f p) := by
  rw [State.updPart, h]

theorem State.Keeps.zeroFrame {s t : State} (h : s.Keeps t) (a : Nat) : (s.zeroFrame a).Keeps (t.zeroFrame a) :=
  h.map (fun x => x.zeroFrame a) (fun x => x.zeroFrame a) (fun _ => rfl) fun _ => ⟨rfl, rfl⟩

theorem cellsFrom_tt {l : Loc} {bs : List Byte} {c : Loc × Byte} (h : c ∈ cellsFrom l bs) : c.1.tt = l.tt := by
  rw [cellsFrom_eq, List.mem_map] at h
  obtain ⟨j, -, rfl⟩ := h
  rfl

theorem State.updPart_readByte (s : State) (k : Nat) (f : Part → Part) (x : Loc) : (s.updPart k f).readByte x = s.readByte x := by
  unfold State.updPart; split <;> rfl

theorem State.zeroFrame_readByte (s : State) (a : Nat) (x : Loc) :
    (s.zeroFrame a).readByte x = if x.tt = 0 ∧ a ≤ x.addr ∧ x.addr < a + 65536 then 0 else s.readByte x := by
  by_cases h0 : x.tt = 0
  · have hz : (s.zeroFrame a).readByte x = if s.unscrubbed x.addr then 0 else Mem.byte (Mem.clear s.hbm a 65536) x.addr := by
      rw [State.readByte, h0]; rfl
    have hs : s.readByte x = if s.unscrubbed x.addr then 0 else Mem.byte s.hbm x.addr := by
      rw [State.readByte, h0]; rfl
    rw [hz, hs, Mem.byte_clear]
    by_cases hu : s.unscrubbed x.addr = true
    · simp only [if_pos hu, ite_self]
    · simp only [if_neg hu, h0, true_and]
  · rw [if_neg fun h => h0 h.1]
    unfold State.readByte
    split
    · contradiction
    all_goals rfl

section giveFrame
variable {s : State} {q : Loc} (hq : q.tt = 0) (tag a leaf : Nat)
include hq

theorem State.Keeps.giveFrame {t : State} (h : s.Keeps t) : (s.giveFrame tag a q leaf).Keeps (t.giveFrame tag a q leaf) :=
  ((h.updPart tag Part.lessPool).zeroFrame a).writeAll _ fun _ hc => by rw [cellsFrom_tt hc, hq]; decide

theorem State.giveFrame_stored : ((s.updPart tag Part.lessPool).zeroFrame a).Stored (s.giveFrame tag a q leaf) (cellsFrom q (natBytes 8 leaf)) :=
  State.writeAll_stores _ _ fun _ hc => by rw [cellsFrom_tt hc, hq]; decide

/-- The memories and the partitions alone change. -/
theorem State.giveFrame_rest : s.giveFrame tag a q leaf =
    (((s.updPart tag Part.lessPool).zeroFrame a).memOf (s.giveFrame tag a q leaf)) :=
  State.writeAll_eq _ _ fun _ hc => by rw [cellsFrom_tt hc, hq]; decide

theorem State.giveFrame_leaf (i : Nat) (hi : i < 8) : (s.giveFrame tag a q leaf).readByte ⟨0, q.addr + i⟩ = BitVec.ofNat 8 (leaf / 256 ^ i) := by
  have hb := (State.giveFrame_stored (s := s) hq tag a leaf).cellsFrom_byte (i := i) (by rwa [natBytes_length])
  rw [hq] at hb
  rw [hb, List.getD_eq_getElem _ _ (by rwa [natBytes_length]), natBytes_getElem]

theorem State.giveFrame_others (x : Loc) (hx : ∀ i < 8, x ≠ ⟨0, q.addr + i⟩) : (s.giveFrame tag a q leaf).readByte x =
    if x.tt = 0 ∧ a ≤ x.addr ∧ x.addr < a + 65536 then 0 else s.readByte x := by
  rw [(State.giveFrame_stored (s := s) hq tag a leaf).others x ?_, State.zeroFrame_readByte, State.updPart_readByte]
  intro c hc
  rw [cellsFrom_eq, List.mem_map] at hc
  obtain ⟨j, hj, rfl⟩ := hc
  rw [natBytes_length, List.mem_range] at hj
  rw [hq]
  exact (hx j hj).symm

end giveFrame

/-! ### `pmap` -/

/-- R79: what becomes of a well-formed leaf of one page. -/
theorem State.pmap_leaf {s : State} {tag va e ea : Nat} (hw : s.walk (s.part tag) va = .leaf false e ea) (hm : leafMalformed false e = false) :
    s.pmap tag va = if e.testBit 0 then (s, if targetMalformed false e then 4 else 1)
      else if !e.testBit 11 then (s, 2) else s.poolTake tag e ea := by
  simp [State.pmap, hw, hm]

theorem charge_walk (s : State) (m : Meta) (p : Part) (va : Nat) : (s.charge m).walk p va = s.walk p va :=
  State.walk_congr (State.readByte_same (by simp)) p va
theorem charge_partNum (s : State) (m : Meta) (p : Part) (pa n : Nat) : (s.charge m).partNum p pa n = s.partNum p pa n :=
  State.partNum_congr (State.readByte_same (by simp)) p pa n
/-- The leaf is the one found before the issue. -/
theorem charge_pmap {s : State} {va e ea : Nat} (hw : s.walk s.myPart va = .leaf false e ea) (hm : leafMalformed false e = false) (m : Meta) :
    (s.charge m).pmap s.curTag va = if e.testBit 0 then (s.charge m, if targetMalformed false e then 4 else 1)
      else if !e.testBit 11 then (s.charge m, 2) else (s.charge m).poolTake s.curTag e ea :=
  State.pmap_leaf (by rw [charge_part, charge_walk]; exact hw) hm

section supervisor
variable {s : State} (h : s.GroupReady) (hs : s.cur.smode = true) (sm : Bool) (g : BitVec 3)
include h hs

/-- R79: the state and the status of `pmap` are returned at once where no line is locked. -/
theorem pmap_returns (d a : BitVec 6) {l n : Nat} {u w : State} (hk : s.locks = []) (hl : s.Leads g l)
    (hp : (s.charge { privMeta sm g [a.toNat] with pg := g }).pmap s.curTag (s.rawS a.toNat).toNat = (w, n)) (hw : u.Keeps w)
    (hc : w.cur = (s.charge { privMeta sm g [a.toNat] with pg := g }).cur) :
    ∃ t, exec (.pmap sm g d a) s = .next t ∧ s.Returns u t 4 sm [.uni d.toNat (BitVec.ofNat 64 n) false] := by
  refine issue_returns (m := { privMeta sm g [a.toNat] with pg := g }) (u := u) (w := w) h.1
    (illegal_lane h (Nat.zero_le _) (Nat.zero_le _) (.inr hs) rfl) (.inl rfl) ?_ (by simp [DVal.plain]) ?_ ?_ ?_ ?_ ?_ ?_ ?_ ?_
  · have hlk : (s.charge { privMeta sm g [a.toNat] with pg := g }).locks = [] := (State.charge_locks ..).trans hk
    simp only [State.withLeader, leader_of_leads h.1 hl, charge_curTag, charge_readS h.1, hp, hlk, List.isEmpty_nil, Bool.not_true, Bool.false_and,
      Bool.false_eq_true, if_false, State.deferS, List.cons_ne_nil]
  · show u.Keeps (w.mark false)
    rwa [State.mark_false]
  all_goals rw [hc]
  · exact State.charge_cur_pc ..
  · exact State.charge_cur_loop ..
  · exact (State.charge_cur_slotLen ..).trans h.1.word
  · exact (State.charge_cur_recipe ..).trans h.1.recipe
  · exact (State.charge_cur_deferred ..).trans h.1.written
  · exact (State.charge_cur_poisonV ..).trans h.1.poisonV
  · exact (State.charge_cur_poisonS ..).trans h.1.poisonS

/-- A status without an effect. -/
theorem pmap_status (d a : BitVec 6) {l n : Nat} (hk : s.locks = []) (hl : s.Leads g l)
    (hn : ∀ m, (s.charge m).pmap s.curTag (s.rawS a.toNat).toNat = (s.charge m, n)) :
    ∃ t, exec (.pmap sm g d a) s = .next t ∧ s.Returns s t 4 sm [.uni d.toNat (BitVec.ofNat 64 n) false] :=
  pmap_returns h hs sm g d a hk hl (hn _) (State.charge_keeps ..) rfl

section leaf
variable (d a : BitVec 6) {l e ea : Nat} (hk : s.locks = []) (hl : s.Leads g l) (hw : s.walk s.myPart (s.rawS a.toNat).toNat = .leaf false e ea)
  (hm : leafMalformed false e = false)
include hk hl hw hm

theorem pmap_mapped (hv : e.testBit 0 = true) (ht : targetMalformed false e = false) :
    ∃ t, exec (.pmap sm g d a) s = .next t ∧ s.Returns s t 4 sm [.uni d.toNat 1 false] :=
  pmap_status h hs sm g d a hk hl fun m => by rw [charge_pmap hw hm m, if_pos hv, ht]; rfl

theorem pmap_notFirstTouch (hv : e.testBit 0 = false) (hf : e.testBit 11 = false) :
    ∃ t, exec (.pmap sm g d a) s = .next t ∧ s.Returns s t 4 sm [.uni d.toNat 2 false] :=
  pmap_status h hs sm g d a hk hl fun m => by rw [charge_pmap hw hm m, hv, hf]; rfl

theorem pmap_poolEmpty (hv : e.testBit 0 = false) (hf : e.testBit 11 = true) (hc : s.myPart.ftpCount = 0) :
    ∃ t, exec (.pmap sm g d a) s = .next t ∧ s.Returns s t 4 sm [.uni d.toNat 3 false] :=
  pmap_status h hs sm g d a hk hl fun m => by
    rw [charge_pmap hw hm m, hv, hf, State.poolTake_empty (by rw [charge_part]; exact hc)]; rfl

theorem pmap_takes {f : Nat} {p q : Loc} (hv : e.testBit 0 = false) (hf : e.testBit 11 = true) (hc : s.myPart.ftpCount ≠ 0)
    (hpn : s.partNum s.myPart (s.myPart.ftpBase.toNat + 4 * (s.myPart.ftpCount.toNat - 1)) 4 = some f)
    (hp : s.myPart.place (f * 65536) = some p) (hq : s.myPart.place ea = some q) :
    ∃ t, exec (.pmap sm g d a) s = .next t ∧ s.Returns (s.giveFrame s.curTag p.addr q (leafWith e f)) t 4 sm [.uni d.toNat 0 false] := by
  have hq0 := Part.place_hbm hq
  refine pmap_returns h hs sm g d a hk hl (n := 0) (w := (s.charge { privMeta sm g [a.toNat] with pg := g }).giveFrame s.curTag p.addr q (leafWith e f))
    ?_ ((State.charge_keeps ..).giveFrame hq0 ..) ?_
  · rw [charge_pmap hw hm, hv, hf]
    refine (State.poolTake_gives hv ?_ ?_ ?_ ?_) <;> rw [charge_part]
    · exact hc
    · rw [charge_partNum]; exact hpn
    · exact hp
    · exact hq
  · rw [State.giveFrame_rest hq0]
    exact State.updPart_cur ..

end leaf

/-! ### `fltaddr` and `tlbinv` -/

theorem fltaddr_returns (d : BitVec 5) (hv : s.hasV [2 * d.toNat + 1]) : ∃ t x y, exec (.fltaddr sm g d) s = .next t ∧
    s.Returns s t 4 sm [.vec (2 * d.toNat) (s.act g) x 0, .vec (2 * d.toNat + 1) (s.act g) y 0] ∧
    ∀ k < 256, laneOf x k = (SMap.get 0 s.cur.fltAddrs k).extractLsb' 0 32 ∧ laneOf y k = (SMap.get 0 s.cur.fltAddrs k).extractLsb' 32 32 := by
  let m : Meta := { privMeta sm g [] with vEnd := topReg [2 * d.toNat + 1] }
  have hi : s.illegal m = none := illegal_lane h (topReg_le hv) (Nat.zero_le _) (.inr hs) rfl
  obtain ⟨t, h1, h2⟩ := issue_returns (m := m) (u := s) (w := s.charge m) h.1 hi (.inl rfl)
    (vals := [.vec (2 * d.toNat) (s.act g) (ofLanes fun k => (SMap.get 0 s.cur.fltAddrs k).extractLsb' 0 32) 0,
      .vec (2 * d.toNat + 1) (s.act g) (ofLanes fun k => (SMap.get 0 s.cur.fltAddrs k).extractLsb' 32 32) 0])
    (body := fun t =>
      let a (i : Nat) : W64 := SMap.get 0 t.cur.fltAddrs i
      .done (t.defer [.vec (2 * d.toNat) (t.act g) (ofLanes fun i => (a i).extractLsb' 0 32) 0,
        .vec (2 * d.toNat + 1) (t.act g) (ofLanes fun i => (a i).extractLsb' 32 32) 0] 0 0 true))
    (by simp only [charge_act h, ← ready_act h, State.charge_cur_fltAddrs, List.cons_ne_nil, if_false])
    (by simp [DVal.plain]) (State.charge_quiet rfl) (by simp) (by simp) (by simp [h.1.word]) (by simp [h.1.recipe]) (by simp [h.1.written])
    (by simp [h.1.poisonV]) (by simp [h.1.poisonS])
  exact ⟨t, _, _, h1, h2, fun k hk => ⟨laneOf_ofLanes _ hk, laneOf_ofLanes _ hk⟩⟩

theorem tlbinv_asks (d a b : BitVec 6) {l : Nat} (hl : s.Leads g l) : ∃ t, ∃ u : State, exec (.tlbinv sm g d a b) s = .next t ∧
    u = { s with inval := s.inval ++ [⟨s.curTag, (s.rawS a.toNat).toNat / 65536, (s.rawS b.toNat).toNat, s.cur.id, s.nextId⟩] } ∧
    t.cur.deferred = [⟨s.nextId, [.uni d.toNat 0 false], 0, 0, false⟩] ∧ t.cur.park = (if sm then some .settle else none) ∧ s.GoesOn t 4 ∧
    s.SameBytes t ∧ t.vrf = s.vrf ∧ u.Keeps { t with nextId := s.nextId, cur := { t.cur with deferred := [] } } := by
  let m : Meta := { privMeta sm g [a.toNat, b.toNat] with pg := g }
  have hi : s.illegal m = none := illegal_lane h (Nat.zero_le _) (Nat.zero_le _) (.inr hs) rfl
  let x : Inval := ⟨s.curTag, (s.rawS a.toNat).toNat / 65536, (s.rawS b.toNat).toNat, s.cur.id, s.nextId⟩
  have hw : ({ s with inval := s.inval ++ [x] } : State).Keeps { s.charge m with inval := (s.charge m).inval ++ [x] } :=
    (State.charge_keeps s m).map (fun y => { y with inval := y.inval ++ [x] }) (fun y => { y with inval := y.inval ++ [x] }) (fun _ => rfl)
      fun _ => ⟨rfl, rfl⟩
  obtain ⟨t, h1, h2⟩ := issue_leftEffect (m := m) h.1 hi (.inl rfl) rfl (vals := [.uni d.toNat 0 false]) (fl := 0) (due := 0) (ready := false)
    (body := fun t => t.withLeader g fun _ =>
      let x : Inval := ⟨t.curTag, (t.readS a.toNat).toNat / 65536, (t.readS b.toNat).toNat, t.cur.id, t.nextId⟩
      .done ({ t with inval := t.inval ++ [x] }.defer [.uni d.toNat 0 false] 0 0 false))
    (by simp only [State.withLeader, leader_of_leads h.1 hl, charge_curTag, charge_readS h.1, State.charge_cur_id, State.charge_nextId]; rfl)
    (.inr rfl) hw (by simp) (by simp) (by simp [h.1.word]) (by simp [h.1.recipe]) (by simp [h.1.written])
  exact ⟨t, _, h1, rfl, h2⟩

end supervisor

/-- Settles O36: `pmap` by what the walk finds, `fltaddr` and `tlbinv` each by its one result. -/
theorem supervisor : Obligations.Supervisor := by
  refine ⟨fun sm g d s h hs hv => fltaddr_returns h hs sm g d hv, ?_, fun sm g d a b s l h hs hl => tlbinv_asks h hs sm g d a b hl⟩
  intro sm g d a s l e ea h hs hk hl hw hm
  refine ⟨pmap_mapped h hs sm g d a hk hl hw hm, pmap_notFirstTouch h hs sm g d a hk hl hw hm, pmap_poolEmpty h hs sm g d a hk hl hw hm, ?_⟩
  intro f p q hv hf hc hpart _ hpn hp hq
  obtain ⟨t, h1, h2⟩ := pmap_takes h hs sm g d a hk hl hw hm hv hf hc hpn hp hq
  have hq0 := Part.place_hbm hq
  refine ⟨t, _, h1, h2, ?_, fun i hi => State.giveFrame_leaf hq0 _ _ _ i hi, fun x hx => State.giveFrame_others hq0 _ _ _ x hx⟩
  rw [State.giveFrame_rest hq0, State.updPart_eq hpart]
  exact (SMap.get_put ..).trans (if_pos rfl)

end Sys2Proof.Machine
end

section
/-!
PROOF. `yield` (02 R74, 16 R300, R301, R311): what is written to the flashback slot, read back by Table 16-1, and what the issue leaves.
-/

namespace Sys2Proof.Machine

/-! ### The slot's bytes by Table 16-1 -/

/-- The vector and uniform registers of a recipe, each of the eight places filled. -/
def State.slotV (s : State) (rc : Recipe) (i : Nat) : List Byte := match rc.vs[i]? with
  | some v => natBytes 1024 (s.rawV v).toNat
  | none => List.replicate 1024 0
def State.slotU (s : State) (rc : Recipe) (i : Nat) : List Byte := match rc.us[i]? with
  | some u => natBytes 8 (s.rawS u).toNat
  | none => List.replicate 8 0
/-- What follows the registers, the addresses and `em`: `p1` to `p7`, no loop state, and what follows the deadline. -/
def State.slotP (s : State) : List Byte := (List.range 7).flatMap fun i => natBytes 32 (s.rawP (i + 1)).toNat
def slotEnd : List Byte := natBytes 4 0 ++ natBytes 8 (0 : W64).toNat ++ natBytes 8 (0 : W64).toNat ++ List.replicate 640 0
def State.slotBytes (s : State) (rc : Recipe) (hdr resume : W64) (deadline : Nat) : List Byte :=
  (List.range 8).flatMap (s.slotV rc) ++ (List.range 8).flatMap (s.slotU rc) ++ natBytes 8 resume.toNat ++ natBytes 8 hdr.toNat ++
    natBytes 32 s.cur.em.toNat ++ s.slotP ++ List.replicate 24 0 ++ natBytes 4 deadline ++ slotEnd

theorem length_flatMap_range {f : Nat → List Byte} {k : Nat} (hf : ∀ i, (f i).length = k) (n : Nat) : ((List.range n).flatMap f).length = k * n := by
  simp [List.length_flatMap, hf, Nat.mul_comm]

/-- One of several pieces of one length stands at its multiple. -/
theorem flatMap_range_piece {f : Nat → List Byte} {k i n : Nat} (hf : ∀ i, (f i).length = k) (hi : i < n) :
    ∃ p q, (List.range n).flatMap f = p ++ f i ++ q ∧ p.length = k * i := by
  obtain ⟨r, rfl⟩ : ∃ r, n = i + 1 + r := ⟨n - (i + 1), by omega⟩
  refine ⟨(List.range i).flatMap f, ((List.range r).map (i + 1 + ·)).flatMap f, ?_, length_flatMap_range hf i⟩
  rw [List.range_add, List.flatMap_append, List.range_succ, List.flatMap_append, List.flatMap_singleton]

@[simp] theorem State.slotV_length (s : State) (rc : Recipe) (i : Nat) : (s.slotV rc i).length = 1024 := by
  unfold State.slotV; split
  · exact natBytes_length ..
  · exact List.length_replicate
@[simp] theorem State.slotU_length (s : State) (rc : Recipe) (i : Nat) : (s.slotU rc i).length = 8 := by
  unfold State.slotU; split
  · exact natBytes_length ..
  · exact List.length_replicate
@[simp] theorem State.slotP_length (s : State) : s.slotP.length = 224 := length_flatMap_range (fun _ => natBytes_length ..) 7
@[simp] theorem slotEnd_length : slotEnd.length = 660 := by
  simp only [slotEnd, List.length_append, natBytes_length, List.length_replicate]
theorem State.slotBytes_length (s : State) (rc : Recipe) (hdr resume : W64) (deadline : Nat) : (s.slotBytes rc hdr resume deadline).length = 9216 := by
  simp only [State.slotBytes, List.length_append, length_flatMap_range (s.slotV_length rc), length_flatMap_range (s.slotU_length rc), natBytes_length,
    State.slotP_length, List.length_replicate, slotEnd_length]

/-! ### The slot, written and read -/

theorem toNat_lt_bytes {n : Nat} (x : BitVec (8 * n)) : x.toNat < 256 ^ n := by
  rw [show 256 = 2 ^ 8 from rfl, ← Nat.pow_mul]; exact x.isLt

/-- R74: the state with the slot written, its errors gone, the record of R303 cleared and the deadline begun anew. -/
def State.yielded (s : State) (rc : Recipe) (hdr resume : W64) (deadline : Nat) : State :=
  { s with
    sp := (s.writeBytes (s.cur.slotLoc 0) (s.slotBytes rc hdr resume deadline)).sp
    poison := (s.cleanSlot s.cur).poison
    cur := { s.cur with dirty := false, fbLoop := none, rcpHeader := hdr, deadline := deadline, issued := 0, yields := min 255 (s.cur.yields + 1) } }

theorem State.writeSlot_yielded {s : State} (hd : s.cur.deferred = []) (rc : Recipe) (hdr resume : W64) (dl : Nat) :
    ((s.writeSlot rc hdr resume none dl 0 0 0).updCur fun c => { c with deadline := dl, issued := 0, yields := min 255 (c.yields + 1) }) =
      s.yielded rc hdr resume dl := by
  obtain ⟨sp, hb⟩ : ∃ sp, s.writeBytes (s.cur.slotLoc 0) (s.slotBytes rc hdr resume dl) = { s with sp := sp } := ⟨_, State.writeBytes_sp ..⟩
  have hw : s.writeSlot rc hdr resume none dl 0 0 0 = ((s.writeBytes (s.cur.slotLoc 0) (s.slotBytes rc hdr resume dl)).cleanSlot s.cur).updCur
      fun c => { c with dirty := false, fbLoop := none, rcpHeader := hdr } := by
    simp only [State.writeSlot, State.readV_eq hd, State.readS_eq hd, State.readP_eq hd, State.slotBytes, slotEnd, List.append_assoc]
    rfl
  rw [hw, State.yielded, hb]
  rfl

theorem Ctx.slotLoc_eq (c : Ctx) (i : Nat) : c.slotLoc i = ⟨1, (c.slotLoc 0).addr + i⟩ := by simp [Ctx.slotLoc]
theorem State.readByte_scratchpad (s : State) (a : Nat) : s.readByte ⟨1, a⟩ = Mem.byte s.sp a := rfl
/-- A number in the slot is one of the scratchpad. -/
theorem State.slotNum_congr {s t : State} {c d : Ctx} (h : t.sp = s.sp) (hc : d.core = c.core) (hf : d.fbbase = c.fbbase) (off n : Nat) :
    t.slotNum d off n = s.slotNum c off n := by
  simp only [State.slotNum, State.readNum, State.readBytes, State.readByte_scratchpad, h, hc, hf]
theorem State.slotNum_eq (s : State) (c : Ctx) (off n : Nat) : s.slotNum c off n = s.readNum ⟨1, (c.slotLoc 0).addr + off⟩ n := by
  rw [← Ctx.slotLoc_eq]; rfl

section slot
variable (s : State) (rc : Recipe) (hdr resume : W64) (dl : Nat)

/-- The bytes before the addresses. -/
def State.slotRegs (s : State) (rc : Recipe) : List Byte := (List.range 8).flatMap (s.slotV rc) ++ (List.range 8).flatMap (s.slotU rc)
theorem State.slotRegs_length : (s.slotRegs rc).length = 0x2040 := by
  rw [State.slotRegs, List.length_append, length_flatMap_range (s.slotV_length rc), length_flatMap_range (s.slotU_length rc)]

/-- A field of the slot, by the bytes before it. -/
theorem State.yielded_slotNum {p q : List Byte} {n v off : Nat} (h : s.slotBytes rc hdr resume dl = p ++ natBytes n v ++ q) (ho : p.length = off)
    (hv : v < 256 ^ n) : (s.yielded rc hdr resume dl).slotNum s.cur off n = v := by
  have hs : (s.yielded rc hdr resume dl).sp = (s.writeBytes (s.cur.slotLoc 0) (s.slotBytes rc hdr resume dl)).sp := by rw [State.yielded]
  rw [State.slotNum_congr hs rfl rfl, State.slotNum_eq, ← ho]
  exact State.writeBytes_readNum s _ _ p q n v h hv

/-! Table 16-1, field by field. -/

theorem State.yielded_vector {i v : Nat} (hi : i < 8) (hv : rc.vs[i]? = some v) :
    (s.yielded rc hdr resume dl).slotNum s.cur (1024 * i) 1024 = (s.rawV v).toNat := by
  obtain ⟨p, q, h, hl⟩ := flatMap_range_piece (s.slotV_length rc) hi
  have hf : s.slotV rc i = natBytes 1024 (s.rawV v).toNat := by rw [State.slotV, hv]
  exact s.yielded_slotNum rc hdr resume dl (p := p) (by rw [State.slotBytes, h, hf]; simp only [List.append_assoc]; rfl) hl
    (toNat_lt_bytes (n := 1024) _)

theorem State.yielded_uniform {i v : Nat} (hi : i < 8) (hv : rc.us[i]? = some v) :
    (s.yielded rc hdr resume dl).slotNum s.cur (0x2000 + 8 * i) 8 = (s.rawS v).toNat := by
  obtain ⟨p, q, h, hl⟩ := flatMap_range_piece (s.slotU_length rc) hi
  have hf : s.slotU rc i = natBytes 8 (s.rawS v).toNat := by rw [State.slotU, hv]
  exact s.yielded_slotNum rc hdr resume dl (p := (List.range 8).flatMap (s.slotV rc) ++ p)
    (by rw [State.slotBytes, h, hf]; simp only [List.append_assoc]; rfl)
    (by rw [List.length_append, length_flatMap_range (s.slotV_length rc), hl]) (toNat_lt_bytes (n := 8) _)

theorem State.yielded_resume : (s.yielded rc hdr resume dl).slotNum s.cur 0x2040 8 = resume.toNat :=
  s.yielded_slotNum rc hdr resume dl (p := s.slotRegs rc) (by simp only [State.slotBytes, State.slotRegs, List.append_assoc]; rfl)
    (s.slotRegs_length rc) (toNat_lt_bytes (n := 8) _)

theorem State.yielded_header : (s.yielded rc hdr resume dl).slotNum s.cur 0x2048 8 = hdr.toNat :=
  s.yielded_slotNum rc hdr resume dl (p := s.slotRegs rc ++ natBytes 8 resume.toNat)
    (by simp only [State.slotBytes, State.slotRegs, List.append_assoc]; rfl)
    (by rw [List.length_append, s.slotRegs_length rc, natBytes_length]) (toNat_lt_bytes (n := 8) _)

theorem State.yielded_em : (s.yielded rc hdr resume dl).slotNum s.cur 0x2050 32 = s.cur.em.toNat :=
  s.yielded_slotNum rc hdr resume dl (p := s.slotRegs rc ++ natBytes 8 resume.toNat ++ natBytes 8 hdr.toNat)
    (by simp only [State.slotBytes, State.slotRegs, List.append_assoc]; rfl)
    (by rw [List.length_append, List.length_append, s.slotRegs_length rc, natBytes_length, natBytes_length]) (toNat_lt_bytes (n := 32) _)

theorem State.yielded_deadline (hd : dl < 256 ^ 4) : (s.yielded rc hdr resume dl).slotNum s.cur 0x2168 4 = dl :=
  s.yielded_slotNum rc hdr resume dl (q := slotEnd)
    (p := s.slotRegs rc ++ natBytes 8 resume.toNat ++ natBytes 8 hdr.toNat ++ natBytes 32 s.cur.em.toNat ++ s.slotP ++ List.replicate 24 0) rfl
    (by simp only [List.length_append, s.slotRegs_length rc, natBytes_length, State.slotP_length, List.length_replicate]) hd

theorem State.yielded_others (p : Loc) (hp : ∀ i < 9216, p ≠ s.cur.slotLoc i) : (s.yielded rc hdr resume dl).readByte p = s.readByte p := by
  have hw : s.writeBytes (s.cur.slotLoc 0) (s.slotBytes rc hdr resume dl) =
      { s with sp := (s.writeBytes (s.cur.slotLoc 0) (s.slotBytes rc hdr resume dl)).sp } := State.writeBytes_sp ..
  have h1 : (s.yielded rc hdr resume dl).readByte p = (s.writeBytes (s.cur.slotLoc 0) (s.slotBytes rc hdr resume dl)).readByte p := by
    rw [hw]
    exact State.readByte_same rfl p
  exact h1.trans (State.writeBytes_others s _ _ p fun i hi he => hp i (State.slotBytes_length .. ▸ hi) (he.trans (s.cur.slotLoc_eq i).symm))

end slot

theorem State.mem_cleanSlot (s : State) (c : Ctx) (k : Nat × Nat) : k ∈ (s.cleanSlot c).poison ↔
    k ∈ s.poison ∧ ¬(k.2 = 1 ∧ (c.slotLoc 0).addr ≤ k.1 * 4 ∧ k.1 * 4 < (c.slotLoc 0).addr + 9216) := by
  rw [State.cleanSlot, List.mem_filter]
  refine and_congr_right fun _ => ?_
  simp only [Bool.not_eq_true', Bool.eq_false_iff, ne_eq, Bool.and_eq_true, beq_iff_eq, decide_eq_true_eq, and_assoc]

/-! ### The instruction -/

/-- What R74 asks of a `yield` in U mode before it takes effect. -/
def yieldMeta (sm : Bool) : Meta := { ctlMeta sm false [] with insn := true }
/-- What a `yield` leaves outside a loop body. -/
def State.afterYield (s : State) (sm : Bool) (l : BitVec 6) (rc : Recipe) (hdr : W64) : State :=
  ((s.charge (yieldMeta sm)).yielded rc hdr (s.cur.pc + 4) ((l.toNat + 1) * 64)).finish 4 false none

theorem State.finish_readByte (u : State) (len : Nat) (b : Bool) (p : Option Park) (l : Loc) : (u.finish len b p).readByte l = u.readByte l :=
  State.readByte_same rfl l
theorem charge_readRecipe (s : State) (m : Meta) (va : W64) : (s.charge m).readRecipe va = s.readRecipe va := by
  have hv : (s.charge m).cur.vLimit = s.cur.vLimit := by simp only [Ctx.vLimit, State.charge_cur_kind, State.charge_cur_valloc]
  simp only [State.readRecipe, charge_fetchHalves, hv]

/-- R311: without an error in a register a recipe is not refused. -/
theorem State.poisonMask_none {s : State} (hv : s.cur.poisonV = []) (hs : s.cur.poisonS = 0) (m : Meta) : s.poisonMask m = 0 := by
  have hz : ∀ rs : List Nat, rs.foldl (fun a r => a ||| SMap.get 0 s.cur.poisonV r) (0 : Mask) = 0 := by
    intro rs
    induction rs with
    | nil => rfl
    | cons r rs ih =>
      have e : (0 : Mask) ||| SMap.get 0 s.cur.poisonV r = 0 := by rw [hv]; exact BitVec.or_zero
      rw [List.foldl_cons, e, ih]
  rw [State.poisonMask, hs, if_neg (by simp), hz]
  exact BitVec.and_zero

section yield
variable {s : State} (h : s.GroupReady) (hu : s.cur.smode = false) (ht : s.cur.txg = false) (hl : s.cur.loop = none)
  (hp : (s.launch s.cur.launch).pipe = none)
include h hu ht hl hp

/-- R74: what is written is the recipe of the header, or none. -/
theorem yield_writes (sm : Bool) (l : BitVec 6) (r : BitVec 12) (rc : Recipe) (hdr : W64) (hh : (if r = 0 then 0 else s.cur.pc + 2 * r.signExtend 64) = hdr)
    (hr : if r = 0 then rc = {} else s.readRecipe hdr = .ok (some rc)) : exec (.yield sm l r) s = .next (s.afterYield sm l rc hdr) := by
  let t := s.charge (yieldMeta sm)
  have hm : ({ ctlMeta sm false [] with extra := if s.cur.smode then some 0 else none, insn := true } : Meta) = yieldMeta sm := by rw [hu]; rfl
  have hd : t.cur.deferred = [] := (State.charge_cur_deferred ..).trans h.1.written
  have hpc : t.cur.pc = s.cur.pc := State.charge_cur_pc ..
  have hlp : t.cur.loop = none := (State.charge_cur_loop ..).trans hl
  have hpi : ∀ rc hdr resume dl, ((t.yielded rc hdr resume dl).launch (t.yielded rc hdr resume dl).cur.launch).pipe = none := fun _ _ _ _ => by
    rw [State.launch, State.yielded]
    exact (by simpa [State.launch, t] using hp)
  have hm0 : ∀ rc : Recipe, t.poisonMask { settle := sm, vs := rc.vs, ss := rc.us } = 0 := fun rc =>
    State.poisonMask_none ((State.charge_cur_poisonV ..).trans h.1.poisonV) ((State.charge_cur_poisonS ..).trans h.1.poisonS) _
  have hrr : t.readRecipe = s.readRecipe := funext fun va => charge_readRecipe ..
  change issue { ctlMeta sm false [] with extra := if s.cur.smode then some 0 else none, insn := true } s _ = _
  rw [hm, issue_open h.1 (illegal_lane h (Nat.zero_le _) (Nat.zero_le _) (.inl rfl) rfl) (.inr ht)]
  change Host.Outcome.next ((whenSettled t _).close _) = _
  rw [whenSettled_none hd]
  simp only [hpc, hlp, State.writeSlot_yielded hd, hpi, hrr, hh, hm0]
  have hc : (Eff.done (t.yielded rc hdr (s.cur.pc + 4) ((l.toNat + 1) * 64))).close (yieldMeta sm) = s.afterYield sm l rc hdr :=
    Eff.close_done_quiet ((State.charge_cur_recipe ..).trans h.1.recipe) ((State.charge_cur_slotLen ..).trans h.1.word) hd
  by_cases h0 : r = 0
  · rw [if_pos h0] at hr
    rw [if_pos h0, ← hr, hc]
  · rw [if_neg h0] at hr
    rw [if_neg h0, hr, ← hc]
    rfl

end yield

section after
variable (s : State) (sm : Bool) (l : BitVec 6) (rc : Recipe) (hdr : W64)

/-- R74, R303, R311: the slot, the deadline and the record as a `yield` leaves them. -/
theorem State.afterYield_slot {t : State} (ht : t = s.afterYield sm l rc hdr) : s.GoesOn t 4 ∧
      t.slotNum t.cur 0x2040 8 = (s.cur.pc + 4).toNat ∧ t.slotNum t.cur 0x2048 8 = hdr.toNat ∧ t.slotNum t.cur 0x2050 32 = s.cur.em.toNat ∧
      t.slotNum t.cur 0x2168 4 = (l.toNat + 1) * 64 ∧ t.cur.deadline = (l.toNat + 1) * 64 ∧ t.cur.issued = 0 ∧ t.cur.dirty = false ∧
      t.cur.yields = min 255 (s.cur.yields + 1) ∧ t.cur.rcpHeader = hdr ∧ t.vrf = s.vrf ∧
      (∀ p, (∀ i < 9216, p ≠ s.cur.slotLoc i) → t.readByte p = s.readByte p) ∧
      (∀ i v, i < 8 → rc.vs[i]? = some v → t.slotNum t.cur (1024 * i) 1024 = (s.rawV v).toNat) ∧
      ∀ i v, i < 8 → rc.us[i]? = some v → t.slotNum t.cur (0x2000 + 8 * i) 8 = (s.rawS v).toNat := by
  subst ht
  let c := s.charge (yieldMeta sm)
  let y := c.yielded rc hdr (s.cur.pc + 4) ((l.toNat + 1) * 64)
  have hn : ∀ off n, (s.afterYield sm l rc hdr).slotNum (s.afterYield sm l rc hdr).cur off n = y.slotNum c.cur off n :=
    State.slotNum_congr (by rw [State.afterYield, State.finish]) rfl rfl
  have hdl : (l.toNat + 1) * 64 < 256 ^ 4 := by have := l.isLt; omega
  have hg : s.GoesOn (s.afterYield sm l rc hdr) 4 := by
    have e : y.cur.follow 4 = s.cur.follow 4 := (State.charge_follow s (yieldMeta sm) 4)
    exact ⟨congrArg Prod.fst e, congrArg Prod.snd e⟩
  refine ⟨hg, (hn ..).trans (c.yielded_resume ..), (hn ..).trans (c.yielded_header ..), ((hn ..).trans (c.yielded_em ..)).trans ?_,
    (hn ..).trans (c.yielded_deadline _ _ _ _ hdl), rfl, rfl, rfl, ?_, rfl, State.charge_vrf .., fun p hp => ?_, fun i v hi hv => ?_, fun i v hi hv => ?_⟩
  · rw [State.charge_cur_em]
  · exact congrArg (fun n => min 255 (n + 1)) (State.charge_cur_yields s (yieldMeta sm))
  · have hloc : ∀ i, c.cur.slotLoc i = s.cur.slotLoc i := fun i => by simp [Ctx.slotLoc, c]
    rw [State.afterYield, State.finish_readByte]
    have hpc : ∀ i < 9216, p ≠ c.cur.slotLoc i := fun i hi => by rw [hloc]; exact hp i hi
    exact (c.yielded_others rc hdr _ _ p hpc).trans (charge_readByte ..)
  · exact (hn ..).trans ((c.yielded_vector rc hdr _ _ hi hv).trans (by rw [State.charge_rawV]))
  · exact (hn ..).trans ((c.yielded_uniform rc hdr _ _ hi hv).trans (by rw [State.charge_rawS]))

/-- R311: the errors of the slot's words are gone, all others stay. -/
theorem State.afterYield_poison (k : Nat × Nat) : k ∈ (s.afterYield sm l rc hdr).poison ↔
    k ∈ s.poison ∧ ¬(k.2 = 1 ∧ (s.cur.slotLoc 0).addr ≤ k.1 * 4 ∧ k.1 * 4 < (s.cur.slotLoc 0).addr + 9216) := by
  have hloc : (s.charge (yieldMeta sm)).cur.slotLoc 0 = s.cur.slotLoc 0 := by simp [Ctx.slotLoc]
  refine (State.mem_cleanSlot _ _ k).trans ?_
  rw [State.charge_poison, hloc]

/-- Beside the slot, the deadline and the record nothing changes. -/
theorem State.afterYield_keeps {t : State} (ht : t = s.afterYield sm l rc hdr) :
    s.Keeps { t with sp := s.sp, poison := s.poison, cur := { t.cur with
      deadline := s.cur.deadline, dirty := s.cur.dirty, yields := s.cur.yields
      rcpHeader := s.cur.rcpHeader, fbLoop := s.cur.fbLoop } } := by
  subst ht
  refine (State.charge_keeps s (yieldMeta sm)).trans ⟨?_, fun _ => rfl, fun _ => rfl⟩
  simp only [State.afterYield, State.finish, State.yielded, Ctx.aside, ← State.charge_sp s (yieldMeta sm), ← State.charge_poison s (yieldMeta sm),
    ← State.charge_cur_deadline s (yieldMeta sm), ← State.charge_cur_dirty s (yieldMeta sm), ← State.charge_cur_yields s (yieldMeta sm),
    ← State.charge_cur_rcpHeader s (yieldMeta sm), ← State.charge_cur_fbLoop s (yieldMeta sm)]

end after

/-- Settles O30: with a recipe and without, the `yield` leaves the state `afterYield`. -/
theorem yield : Obligations.Yield := by
  refine ⟨fun sm l r s hdr rc h hu ht hl hp hr hh hrr => ?_, fun sm l s h hu ht hl hp => ?_⟩
  · refine ⟨_, yield_writes h hu ht hl hp sm l r rc hdr ?_ ?_, s.afterYield_slot sm l rc hdr rfl⟩
    · rw [if_neg hr, hh]
    · rwa [if_neg hr]
  · obtain ⟨hgo, hres, hhdr, hem, hdls, hdl, hiss, hdirty, hy, hrh, hv, hoth, -⟩ := s.afterYield_slot sm l {} 0 rfl
    exact ⟨_, yield_writes h hu ht hl hp sm l 0 {} 0 (if_pos rfl) (by rw [if_pos rfl]), hgo, hres, hhdr, hem, hdls, hdl, hiss, hdirty, hy, hrh, hoth, hv,
      s.afterYield_poison sm l {} 0, s.afterYield_keeps sm l {} 0 rfl⟩

end Sys2Proof.Machine
end

section
/-!
PROOF. Stores to scratchpad, and loads from global memory, plain and ordered (03 R84 to R86, R88, R97): each width is the one access of its form,
which `Laws/Access` and `Laws/GlobalLoads` describe; an ordered load has `State.afterLoad` behind it.
-/

namespace Sys2Proof.Machine

set_option Elab.async false

theorem storesSp_of_storeSp {i : Bool → BitVec 3 → BitVec 6 → BitVec 6 → BitVec 6 → Instr} {n : Nat} (hn : n = 1 ∨ n = 2 ∨ n = 4 ∨ n = 8 ∨ n = 16)
    (hi : ∀ sm g d a b s, exec (i sm g d a b) s = storeSp n sm g d a b s) : StoresSp i n := by
  intro sm g d a b s h hp hpo hv hl
  rw [hi]
  exact storeSp_stored h hp hpo sm g d a b hv hn hl

/-- Settles O16: every width is the one store to scratchpad, which `storeSp_stored` describes. -/
theorem scratchpadStores : Obligations.ScratchpadStores :=
  ⟨storesSp_of_storeSp (by decide) fun _ _ _ _ _ _ => rfl, storesSp_of_storeSp (by decide) fun _ _ _ _ _ _ => rfl,
    storesSp_of_storeSp (by decide) fun _ _ _ _ _ _ => rfl, storesSp_of_storeSp (by decide) fun _ _ _ _ _ _ => rfl,
    storesSp_of_storeSp (by decide) fun _ _ _ _ _ _ => rfl⟩

theorem dataRegs_within {s : State} {d a n : Nat} (hv : s.hasV [d + regsOf n - 1, a]) (hn : n = 1 ∨ n = 2 ∨ n = 4 ∨ n = 8 ∨ n = 16) :
    topReg [d + widthRegs n - 1, a] ≤ min s.cur.valloc 64 := widthRegs_eq hn ▸ topReg_le hv

theorem loadsGlobal_of_loadM {i : Bool → BitVec 3 → BitVec 6 → BitVec 6 → BitVec 6 → Instr} {signed : Bool} {n : Nat}
    (hn : n = 1 ∨ n = 2 ∨ n = 4 ∨ n = 8 ∨ n = 16) (hi : ∀ sm g d a b s, exec (i sm g d a b) s = loadM signed n sm g d a b s) : LoadsGlobal i signed n := by
  intro sm g d a b s x h ha hv hl
  obtain ⟨t, u, vals, -, h1, h2, -, -, -, h3, h4⟩ := issue_globalLoad h ha { memMeta sm g d.toNat n a.toNat [b.toNat] false with len := 4 } (memMeta_ok h hv hn) rfl rfl
    signed true n d.toNat a.toNat (s.act g) (s.rawS b.toNat) x hn hl id (fun t => t.globalLoad signed true n d.toNat (t.act g) (t.readS b.toNat) a.toNat id)
    (by simp only [charge_act h, ← ready_act h, charge_readS h.1]) (fun _ => True) fun w _ => ⟨.refl w, trivial, fun _ => rfl⟩
  exact ⟨t, u, vals, (hi ..).trans h1, h2, h3, h4⟩

/-- Settles O17: every width is the one load from global memory, which `issue_globalLoad` describes. -/
theorem globalLoads : Obligations.GlobalLoads :=
  ⟨loadsGlobal_of_loadM (by decide) fun _ _ _ _ _ _ => rfl, loadsGlobal_of_loadM (by decide) fun _ _ _ _ _ _ => rfl,
    loadsGlobal_of_loadM (by decide) fun _ _ _ _ _ _ => rfl, loadsGlobal_of_loadM (by decide) fun _ _ _ _ _ _ => rfl,
    loadsGlobal_of_loadM (by decide) fun _ _ _ _ _ _ => rfl, loadsGlobal_of_loadM (by decide) fun _ _ _ _ _ _ => rfl,
    loadsGlobal_of_loadM (by decide) fun _ _ _ _ _ _ => rfl⟩

/-! ### What a fence waits for when nothing is in flight -/

theorem State.forwardsOut_none {s : State} (h : s.peers = []) : s.forwardsOut = false := by simp [State.forwardsOut, State.behind, h]
theorem whenFenced_alone {s : State} (hp : s.packets = []) (he : s.peers = []) (c : BitVec 2) (k : State → Eff) : whenFenced s c k = k s := by
  simp [whenFenced, whenPerformed, State.flush_none hp, hp, State.asking, he, State.forwardsOut_none he]
theorem State.fenceAfter_none {s : State} (h : s.peers = []) (sc : Bool) (c : BitVec 2) : s.fenceAfter sc c = s := by
  simp [State.fenceAfter, State.forwardsOut_none h]
theorem State.ordered_outside {s : State} (h : s.cur.txg = false) : s.ordered = true := by simp [State.ordered, h]

theorem State.acquire_cached (s : State) (c : Nat) : s.Cached (s.acquire c) := by
  unfold State.acquire
  split
  · exact .refl s
  · refine ⟨rfl, fun _ => rfl, fun _ => rfl, ?_, fun i hi => ?_⟩
    · rw [State.updCore_core, if_pos rfl]
    · rw [State.updCore_core, if_neg hi]
theorem State.acquire_l1 (s : State) {c : Nat} (hc : c ≠ 0) : ((s.acquire c).core s.cur.core).l1 = [] := by
  rw [State.acquire, if_neg hc, State.updCore_core, if_pos rfl]
theorem State.acquire_defer (s : State) (c : Nat) (vals : List DVal) : (s.defer vals 0 0 true).acquire c = (s.acquire c).defer vals 0 0 true := by
  unfold State.acquire
  split <;> rfl

/-- R88: what follows an ordered load. -/
def State.afterLoad (o : BitVec 3) (c : BitVec 2) (s : State) : State := if s.ordered && o ≠ 0 then s.acquire c.toNat else s
theorem State.afterLoad_outside {s : State} (h : s.cur.txg = false) (o : BitVec 3) (c : BitVec 2) :
    s.afterLoad o c = if o = 0 then s else s.acquire c.toNat := by
  simp [State.afterLoad, State.ordered_outside h]
theorem State.afterLoad_leaves {s : State} (h : s.cur.txg = false) (o : BitVec 3) (c : BitVec 2) : s.Cached (s.afterLoad o c) ∧
    (o ≠ 0 → c ≠ 0 → ((s.afterLoad o c).core (s.afterLoad o c).cur.core).l1 = []) ∧
    ∀ vals, (s.defer vals 0 0 true).afterLoad o c = (s.afterLoad o c).defer vals 0 0 true := by
  have hd : ∀ vals, (s.defer vals 0 0 true).afterLoad o c = if o = 0 then s.defer vals 0 0 true else (s.defer vals 0 0 true).acquire c.toNat :=
    fun vals => State.afterLoad_outside (s := s.defer vals 0 0 true) h o c
  simp only [State.afterLoad_outside h, hd]
  by_cases ho : o = 0
  · simp only [ho, if_true]
    exact ⟨.refl s, fun h => absurd rfl h, fun _ => trivial⟩
  · simp only [if_neg ho, State.acquire_defer, implies_true, and_true]
    refine ⟨s.acquire_cached _, fun _ hc => ?_⟩
    rw [(s.acquire_cached _).cur]
    exact s.acquire_l1 fun h0 => hc (BitVec.eq_of_toNat_eq h0)

theorem loadOrd_loads {n : Nat} (hn : n = 1 ∨ n = 2 ∨ n = 4 ∨ n = 8 ∨ n = 16) (sm : Bool) (o : BitVec 3) (d a : BitVec 6) (b : BitVec 4) (c : BitVec 2)
    (s : State) (x : Nat → Xlat) (h : s.GroupReady) (ha : s.Alone) (hv : s.hasV [d.toNat + regsOf n - 1, a.toNat])
    (hl : s.Reaches (.load n) n s.cur.em (s.laneAddr (s.rawS b.toNat) a.toNat) x) :
    ∃ t u vals, loadOrd n sm o d a b c s = .next t ∧ s.Cached u ∧ (o ≠ 0 → c ≠ 0 → (u.core s.cur.core).l1 = []) ∧ s.Returns u t 4 sm vals ∧
      LoadResult n d.toNat s.cur.em (fun r k => s.loaded false n (x k).loc r) vals := by
  let m : Meta := { memMeta sm 0 d.toNat n a.toNat [b.toNat] false with recipe := false }
  have hm : s.illegal m = none := illegal_lane h (dataRegs_within hv hn) (Nat.zero_le _) (.inl rfl) rfl
  obtain ⟨t, u, vals, w, h1, h2, h3, h4, hc, h5, h6⟩ := issue_globalLoad h ha m hm rfl rfl false (c == 0) n d.toNat a.toNat s.cur.em
    (s.rawS b.toNat) x hn hl (State.afterLoad o c)
    (fun t => if o = 4 && t.ordered then whenFenced t c fun t => t.globalLoad false (c == 0) n d.toNat t.cur.em (t.readS b.toNat) a.toNat (State.afterLoad o c)
      else t.globalLoad false (c == 0) n d.toNat t.cur.em (t.readS b.toNat) a.toNat (State.afterLoad o c))
    (by rw [whenFenced_alone (by simp [ha.packets]) (by simp [ha.peers]), ite_self, charge_readS h.1, State.charge_cur_em])
    (fun w => o ≠ 0 → c ≠ 0 → (w.core w.cur.core).l1 = []) fun w hw => State.afterLoad_leaves hw o c
  refine ⟨t, u, vals, h1, h2, fun ho h0 => ?_, h5, h6⟩
  have e := congrArg Core.l1 (h3.2.1 s.cur.core)
  rw [hc] at h4
  exact e.symm.trans (h4 ho h0)

/-- Settles O18: both widths are the one ordered load, which is a load with `State.afterLoad` behind it. -/
theorem orderedLoads : Obligations.OrderedLoads := by
  intro p hp
  simp only [List.mem_cons, List.not_mem_nil, or_false] at hp
  rcases hp with rfl | rfl
  · exact loadOrd_loads (n := 4) (by decide)
  · exact loadOrd_loads (n := 8) (by decide)

end Sys2Proof.Machine
end

section
/-!
PROOF. Stores to global memory, plain and ordered (03 R84, R85, R88, R132), uniform accesses (R87) and fences (R95, R197): a store of a lane form or
a uniform one is `issue_store` of its lanes; a fence is its release part followed by its acquire part.
-/

namespace Sys2Proof.Machine

set_option Elab.async false

/-! ### Stores to global memory -/

/-- R85: outside a transaction the lanes of a store to this device post their bytes and, at `.sc`, are then performed. -/
theorem globalStore_reaches {s : State} (h : s.Ready) (ha : s.Alone) (m : Meta) (rel sc : Bool) {n : Nat} (hn : n = 1 ∨ n = 2 ∨ n = 4 ∨ n = 8 ∨ n = 16) (d a : Nat)
    (e : Mask) (base : W64) {x : Nat → Xlat} (hl : s.Reaches (.store n) n e (s.laneAddr base a) x) (k : State → State) :
    (s.charge m).globalStore rel sc n d e base a k =
      (s.charge m).withLanes (.store n) n ((maskLanes e).map fun i => (i, s.laneAddr base a i)) fun t oks =>
        t.storeLanes .store rel (oks.map fun l => (l, (List.range n).map (s.dataByte d l.lane))) fun t => .done (k (if sc then t.flush t.own else t)) := by
  have ht : (s.charge m).cur.txg = false := by simp [ha.tx]
  have hk : ((s.charge m).cachePages s.curTag ((maskLanes e).map (s.laneAddr base a))).locks = [] := by
    rw [(State.cachePages_cached _ _ _).locks, State.charge_locks, ha.locks]
  unfold State.globalStore
  simp only [ht, Bool.false_eq_true, if_false, charge_laneAddrs h, withLanes_reaches ha m hl, State.writeLocked, hk, List.isEmpty_nil, Bool.not_true,
    Bool.false_and, Bool.and_false, State.txOpen_none ht, filter_zeroMask, List.map_nil, storeBytes_charge h m _ _ _ hn]
  rfl

theorem storesGlobal_of_storeM {i : Bool → BitVec 3 → BitVec 6 → BitVec 6 → BitVec 6 → Instr} {n : Nat} (hn : n = 1 ∨ n = 2 ∨ n = 4 ∨ n = 8 ∨ n = 16)
    (hi : ∀ sm g d a b s, exec (i sm g d a b) s = storeM n sm g d a b s) : StoresGlobal i n := by
  intro sm g d a b s x h ha hv hl
  obtain ⟨t, u, h1, h2, h3, -⟩ := issue_store h.1 ha (memMeta sm g d.toNat n a.toNat [b.toNat] true) (illegal_lane h (dataRegs_within hv hn) (Nat.zero_le _) (.inl rfl) rfl)
    rfl rfl false false n (by omega) (s.dataByte d.toNat) (s.act g) (s.laneAddr (s.rawS b.toNat) a.toNat) x hl id (fun _ _ => rfl)
    (fun t => t.globalStore false false n d.toNat (t.act g) (t.readS b.toNat) a.toNat id)
    (by rw [charge_act h, ← ready_act h, charge_readS h.1]; exact globalStore_reaches h.1 ha _ _ _ hn _ _ _ _ hl _)
  exact ⟨t, u, (hi ..).trans h1, h2, h3 rfl⟩

/-- Settles O19: every width is the one store to global memory, which `issue_store` describes. -/
theorem globalStores : Obligations.GlobalStores :=
  ⟨storesGlobal_of_storeM (by decide) fun _ _ _ _ _ _ => rfl, storesGlobal_of_storeM (by decide) fun _ _ _ _ _ _ => rfl,
    storesGlobal_of_storeM (by decide) fun _ _ _ _ _ _ => rfl, storesGlobal_of_storeM (by decide) fun _ _ _ _ _ _ => rfl,
    storesGlobal_of_storeM (by decide) fun _ _ _ _ _ _ => rfl⟩

theorem storeOrd_stores {n : Nat} (hn : n = 1 ∨ n = 2 ∨ n = 4 ∨ n = 8 ∨ n = 16) (sm : Bool) (o : BitVec 3) (d a : BitVec 6) (b : BitVec 4) (c : BitVec 2)
    (s : State) (x : Nat → Xlat) (h : s.GroupReady) (ha : s.Alone) (hv : s.hasV [d.toNat + regsOf n - 1, a.toNat])
    (hl : s.Reaches (.store n) n s.cur.em (s.laneAddr (s.rawS b.toNat) a.toNat) x) :
    ∃ t u, storeOrd n sm o d a b c s = .next t ∧ s.Returns u t 4 sm [] ∧
      (o ≠ 4 → s.Posts u s.cur.em (fun k => (x k).loc) (o != 0) fun m => (.store, s.storeCells n d.toNat m fun k => (x k).loc)) ∧
      (o = 4 → ∃ keys : List (Nat × Nat), keys.Nodup ∧ (∀ c, c ∈ keys ↔ ∃ k < 256, s.cur.em.getLsbD k ∧ destKey (x k).loc = c) ∧
        s.Performs u (keys.flatMap fun c => s.storeCells n d.toNat (destLanes s.cur.em (fun k => (x k).loc) c) fun k => (x k).loc)) := by
  let m := memMeta sm 0 d.toNat n a.toNat [b.toNat] true
  have ho : (s.charge m).ordered = true := State.ordered_outside (by simp [ha.tx])
  obtain ⟨t, u, h1, h2, h3, h4⟩ := issue_store h.1 ha m (illegal_lane h (dataRegs_within hv hn) (Nat.zero_le _) (.inl rfl) rfl)
    rfl rfl (o != 0) (o == 4) n (by omega) (s.dataByte d.toNat) s.cur.em (s.laneAddr (s.rawS b.toNat) a.toNat) x hl
    (fun t => t.fenceAfter (o == 4) c) (fun w hw => State.fenceAfter_none hw _ _)
    (fun t => if o == 4 && t.ordered then whenFenced t c fun u => u.globalStore (o != 0) (o == 4 && t.ordered) n d.toNat u.cur.em (u.readS b.toNat) a.toNat
        fun u => u.fenceAfter (o == 4 && t.ordered) c
      else t.globalStore (o != 0) (o == 4 && t.ordered) n d.toNat t.cur.em (t.readS b.toNat) a.toNat fun u => u.fenceAfter (o == 4 && t.ordered) c)
    (by
      simp only [ho, Bool.and_true]
      rw [whenFenced_alone (by simp [ha.packets]) (by simp [ha.peers]), ite_self, charge_readS h.1, State.charge_cur_em]
      exact globalStore_reaches h.1 ha m _ _ hn _ _ _ _ hl _)
  exact ⟨t, u, h1, h2, fun ho => h3 (by simpa using ho), fun ho => h4 (by simpa using ho)⟩

/-- Settles O20: both widths are the one ordered store. -/
theorem orderedStores : Obligations.OrderedStores := by
  intro p hp
  simp only [List.mem_cons, List.not_mem_nil, or_false] at hp
  rcases hp with rfl | rfl
  · exact storeOrd_stores (n := 4) (by decide)
  · exact storeOrd_stores (n := 8) (by decide)

/-! ### Uniform accesses -/

theorem charge_uniTx {s : State} (ht : s.cur.txg = false) (m : Meta) : (s.charge m).uniTx = 0 := by
  rw [State.uniTx, State.txOpen_none (by simpa using ht), State.txDoomed_none (by simpa using ht)]
  rfl
theorem charge_uniLane (s : State) (m : Meta) : (s.charge m).uniLane = s.uniLane := by simp [State.uniLane]

/-- R87: the one access of a uniform instruction, as the access of one lane. -/
theorem uniAddrs (s : State) (va : Nat) : ((maskLanes (oneLane s.uniLane)).map fun k => (k, va)) = [(s.uniLane, va)] := by
  rw [maskLanes_oneLane s.uniLane_lt]; rfl

theorem signedNat_eq_toInt {w : Nat} (hw : 0 < w) (x : Nat) : signedNat w x = (BitVec.ofNat w x).toInt := by
  obtain ⟨v, rfl⟩ : ∃ v, w = v + 1 := ⟨w - 1, by omega⟩
  rw [BitVec.toInt_eq_toNat_cond, BitVec.toNat_ofNat, signedNat, Nat.add_sub_cancel, Nat.pow_succ']
  simp only [Nat.mul_lt_mul_left (by decide : 0 < 2)]

/-- Table 03-1: the 64 bits a uniform load returns. -/
theorem uniValue_readBytes (s : State) (signed : Bool) {n : Nat} (hn : 0 < n) (l : Loc) : uniValue signed (s.readBytes l n) =
    if signed then (BitVec.ofNat (8 * n) (s.readNum l n)).signExtend 64 else BitVec.ofNat 64 (s.readNum l n) := by
  rw [uniValue, State.readBytes_length, signedNat_eq_toInt (by omega), State.readNum, BitVec.signExtend]

theorem loadU_loads (signed : Bool) {n : Nat} (hn : 0 < n) (sm : Bool) (d a b : BitVec 6) (s : State) (x : Xlat) (h : s.Ready) (ha : s.Alone)
    (hl : s.Reaches (.load n) n (oneLane s.uniLane) (fun _ => (s.rawS a.toNat + s.rawS b.toNat).toNat) (fun _ => x)) :
    ∃ t u, loadU signed n sm d a b s = .next t ∧ s.Cached u ∧ s.Returns u t 4 sm [.uni d.toNat
      (if signed then (BitVec.ofNat (8 * n) (s.readNum x.loc n)).signExtend 64 else BitVec.ofNat 64 (s.readNum x.loc n)) false] := by
  rw [← uniValue_readBytes s signed hn]
  refine issue_uniLoad h ha { settle := sm, seq := true, recipe := true, ss := [a.toNat, b.toNat] }
    (illegal_uniform h rfl (Nat.zero_le _) rfl (fun _ => rfl) (.inl rfl) rfl) rfl rfl n d.toNat _ x (uniValue signed) hl _ ?_
  rw [uniAddrs, charge_uniTx ha.tx, if_pos rfl, charge_readS h, charge_readS h, charge_uniLane]

theorem natBytes_toNat {w : Nat} (v : BitVec w) (n : Nat) : natBytes n v.toNat = (List.range n).map fun j => v.extractLsb' (8 * j) 8 := by
  refine List.ext_getElem (by simp) fun j h1 h2 => ?_
  rw [natBytes_getElem, List.getElem_map, List.getElem_range]
  refine BitVec.eq_of_toNat_eq ?_
  rw [BitVec.toNat_ofNat, BitVec.extractLsb'_toNat, Nat.shiftRight_eq_div_pow, Nat.pow_mul]

theorem storeU_stores {n : Nat} (hn : 0 < n) (sm : Bool) (d a b : BitVec 6) (s : State) (x : Xlat) (h : s.Ready) (ha : s.Alone)
    (hl : s.Reaches (.store n) n (oneLane s.uniLane) (fun _ => (s.rawS a.toNat + s.rawS b.toNat).toNat) (fun _ => x)) :
    ∃ t u, storeU n sm d a b s = .next t ∧ s.Returns u t 4 sm [] ∧
      s.Posts u (oneLane s.uniLane) (fun _ => x.loc) false fun m => (.store, (maskLanes m).flatMap fun _ => (List.range n).map fun j =>
        (⟨x.loc.tt, x.loc.addr + j⟩, (s.rawS d.toNat).extractLsb' (8 * j) 8)) := by
  obtain ⟨t, u, h1, h2, h3, -⟩ := issue_store h ha { settle := sm, seq := true, ss := [d.toNat, a.toNat, b.toNat] }
    (illegal_uniform h rfl (Nat.zero_le _) rfl (fun _ => rfl) (.inl rfl) rfl) rfl rfl false false n hn (fun _ j => (s.rawS d.toNat).extractLsb' (8 * j) 8)
    (oneLane s.uniLane) _ (fun _ => x) hl id (fun _ _ => rfl)
    (fun t =>
      if t.uniTx = 0 then
        t.withLanes (.store n) n [(t.uniLane, (t.readS a.toNat + t.readS b.toNat).toNat)] fun u oks =>
          u.storeLanes .store false (oks.map fun l => (l, natBytes n (t.readS d.toNat).toNat)) .done
      else .done (t.txStores n ((maskLanes (t.txOpen t.cur.em)).map fun i => (i, (t.readS a.toNat + t.readS b.toNat).toNat, natBytes n (t.readS d.toNat).toNat))))
    (by rw [uniAddrs, charge_uniTx ha.tx, if_pos rfl, charge_readS h, charge_readS h, charge_readS h, charge_uniLane, natBytes_toNat]; rfl)
  exact ⟨t, u, h1, h2, h3 rfl⟩

/-- Settles O21. -/
theorem uniformAccesses : Obligations.UniformAccesses := by
  constructor
  · simp only [List.forall_mem_cons]
    exact ⟨loadU_loads false (by decide), loadU_loads true (by decide), loadU_loads false (by decide), loadU_loads true (by decide),
      loadU_loads false (by decide), loadU_loads false (by decide), nofun⟩
  · simp only [List.forall_mem_cons]
    exact ⟨storeU_stores (by decide), storeU_stores (by decide), storeU_stores (by decide), storeU_stores (by decide), nofun⟩

/-! ### Fences -/

/-- R95, R197: the release part of a fence and its acquire part. -/
def State.releasePart (s : State) (o : BitVec 3) : State := if o ≠ 1 then s.updCur fun x => { x with relFence := s.nextId } else s
def State.acquirePart (s : State) (o : BitVec 3) (c : BitVec 2) : State := if o ≠ 2 then s.acquire c.toNat else s

theorem State.releasePart_eq (s : State) (o : BitVec 3) :
    s.releasePart o = { s with cur := { s.cur with relFence := if o = 1 then s.cur.relFence else s.nextId } } := by
  unfold State.releasePart
  by_cases h : o = 1
  · rw [if_neg (not_not_intro h), if_pos h]
  · rw [if_pos h, if_neg h]; rfl
theorem State.acquirePart_none (s : State) {o : BitVec 3} {c : BitVec 2} (h : o = 2 ∨ c = 0) : s.acquirePart o c = s := by
  unfold State.acquirePart State.acquire
  rcases h with rfl | rfl
  · rfl
  · exact (if_congr Iff.rfl (if_pos rfl) rfl).trans (ite_self _)
theorem State.acquirePart_empties (s : State) {o : BitVec 3} {c : BitVec 2} (ho : o ≠ 2) (hc : c ≠ 0) : s.acquirePart o c = s.withL1 [] := by
  rw [State.acquirePart, if_pos ho, State.acquire, if_neg (fun h : c.toNat = 0 => hc (BitVec.eq_of_toNat_eq h)), State.withL1]
theorem State.acquirePart_cur (s : State) (o : BitVec 3) (c : BitVec 2) : (s.acquirePart o c).cur = s.cur := by
  unfold State.acquirePart
  split
  · exact (s.acquire_cached _).cur
  · rfl

theorem State.Keeps.releasePart {s t : State} (h : s.Keeps t) (o : BitVec 3) : (s.releasePart o).Keeps (t.releasePart o) := by
  have hn : t.nextId = s.nextId := by have e := congrArg State.nextId (State.keeps_iff.1 h).1; exact e
  unfold State.releasePart
  rw [hn]
  split
  · exact h.updCur _ (fun x => { x with relFence := s.nextId }) fun _ => rfl
  · exact h
theorem State.Keeps.acquirePart {s t : State} (h : s.Keeps t) (hc : t.cur.core = s.cur.core) (o : BitVec 3) (c : BitVec 2) :
    (s.acquirePart o c).Keeps (t.acquirePart o c) := by
  unfold State.acquirePart State.acquire
  rw [hc]
  split
  · split
    · exact h
    · exact h.updCore _ _ (fun k => { k with l1 := [] }) fun _ => rfl
  · exact h

theorem fence_returns (sm : Bool) (o : BitVec 3) (c : BitVec 2) (s : State) (h : s.Ready) (h4 : o = 4 → s.packets = [] ∧ s.peers = []) :
    ∃ t, exec (.fence sm o c) s = .next t ∧ s.Returns ((s.releasePart o).acquirePart o c) t 4 sm [] := by
  let m : Meta := { settle := sm, seq := true }
  have hcur : (((s.charge m).releasePart o).acquirePart o c).cur = _ :=
    (State.acquirePart_cur _ o c).trans (congrArg State.cur ((s.charge m).releasePart_eq o))
  refine issue_effect (m := m) (w := ((s.charge m).releasePart o).acquirePart o c) h (illegal_uniform h rfl (Nat.zero_le _) rfl (fun _ => rfl) (.inl rfl) rfl)
    (.inl rfl) ?_ (((State.charge_keeps s m).releasePart o).acquirePart ?_ o c) rfl ?_ ?_ ?_ ?_ ?_ ?_ ?_
  · by_cases ho : o = 4
    · obtain ⟨hp, he⟩ := h4 ho
      exact (if_pos ho).trans (whenFenced_alone (by simp [hp]) (by simp [he]) c _)
    · exact if_neg ho
  · rw [State.releasePart_eq, State.releasePart_eq]
    exact State.charge_cur_core s m
  all_goals rw [hcur]
  · exact State.charge_cur_pc s m
  · exact State.charge_cur_loop s m
  · exact (State.charge_cur_slotLen s m).trans h.word
  · exact (State.charge_cur_recipe s m).trans h.recipe
  · exact (State.charge_cur_deferred s m).trans h.written
  · exact (State.charge_cur_poisonV s m).trans h.poisonV
  · exact (State.charge_cur_poisonS s m).trans h.poisonS

theorem fenceAsync_returns (sm : Bool) (s : State) (h : s.Ready) :
    ∃ t, exec (.fenceAsync sm) s = .next t ∧ s.Returns { s with cur := { s.cur with asyncFence := s.nextId } } t 4 sm [] := by
  let m : Meta := { settle := sm, seq := true }
  exact issue_effect (m := m) (w := (s.charge m).updCur fun x => { x with asyncFence := (s.charge m).nextId }) h
    (illegal_uniform h rfl (Nat.zero_le _) rfl (fun _ => rfl) (.inl rfl) rfl) (.inl rfl) rfl
    (by
      rw [State.charge_nextId]
      exact (State.charge_keeps s m).updCur _ (fun x => { x with asyncFence := s.nextId }) fun _ => rfl)
    rfl (State.charge_cur_pc s m) (State.charge_cur_loop s m) ((State.charge_cur_slotLen s m).trans h.word) ((State.charge_cur_recipe s m).trans h.recipe)
    ((State.charge_cur_deferred s m).trans h.written) ((State.charge_cur_poisonV s m).trans h.poisonV) ((State.charge_cur_poisonS s m).trans h.poisonS)

/-- Settles O26: a fence is its release part, then its acquire part. -/
theorem fences : Obligations.Fences := by
  refine ⟨fun sm o c s h h4 => ?_, fenceAsync_returns⟩
  obtain ⟨t, h1, h2⟩ := fence_returns sm o c s h fun ho => ⟨(h4 ho).1, (h4 ho).2.1⟩
  refine ⟨t, (s.releasePart o).acquirePart o c, h1, h2, ?_, fun hn => ?_, fun ho hc => ?_⟩
  · rw [State.acquirePart_cur, State.releasePart_eq]
  · rw [State.acquirePart_none _ hn, State.releasePart_eq]
  · rw [State.acquirePart_empties _ ho hc, State.releasePart_eq]
    rfl

end Sys2Proof.Machine
end

section
/-!
PROOF. Atomics, of lanes and uniform ones (03 R90 to R92, R94, R98): with nothing else acting on memory the lanes' places are swapped in ascending order
(`atomic_under`), an acquire finds the L1 empty, and the old values return.
-/

namespace Sys2Proof.Machine

set_option Elab.async false

/-! ### Before and behind the read-modify-writes -/

/-- R98, R200: lanes that reach their places are accessed at once, with their translations cached. -/
theorem atomic_starts {s : State} (ha : s.Alone) (m : Meta) {pcie : Bool} {w : Nat} {e : Mask} {va : Nat → Nat} {x : Nat → Xlat}
    (hr : s.Reaches (.atomic pcie) w e va x) (all sys : Bool) (k : State → List LaneOk → Eff) :
    ((s.charge m).withLanes (.atomic pcie) w ((maskLanes e).map fun i => (i, va i)) fun t oks =>
      t.whenOrdered all oks w fun t => if sys && t.forwardsOut then .wait t .limit else k t oks) =
      k ((s.charge m).cachePages s.curTag ((maskLanes e).map va)) (okLanes e va x) := by
  have hp : (s.charge m).Cached ((s.charge m).cachePages s.curTag ((maskLanes e).map va)) := State.cachePages_cached _ _ _
  have he : ((s.charge m).cachePages s.curTag ((maskLanes e).map va)).peers = [] := by
    have e1 := congrArg State.peers hp.same
    exact e1.trans (by simp [ha.peers])
  rw [withLanes_reaches ha m hr, whenOrdered_none (hp.packets.trans (by simp [ha.packets])), State.forwardsOut_none he, Bool.and_false]
  rfl

/-- R90, R200: the orders behind an atomic. -/
def State.afterAtomic (s : State) (o : BitVec 3) (c : BitVec 2) : State := (if acqOrder o.toNat then s.acquire c.toNat else s).fenceAfter (o == 4) c

theorem SwapsUnder.peers {s v W : State} {m : Meta} (h : SwapsUnder s m v W) (ha : s.Alone) : W.peers = [] := by
  have e := congrArg State.peers h.rest
  exact e.trans ((State.charge_peers s m).trans ha.peers)
theorem SwapsUnder.afterAtomic_defer {s v W : State} {m : Meta} (h : SwapsUnder s m v W) (ha : s.Alone) (o : BitVec 3) (c : BitVec 2) (vals : List DVal) :
    (if vals = [] then W else W.defer vals 0 0 true).afterAtomic o c =
      if vals = [] then (if acqOrder o.toNat then W.acquire c.toNat else W)
      else (if acqOrder o.toNat then W.acquire c.toNat else W).defer vals 0 0 true := by
  have hp : ∀ t : State, t.peers = W.peers → (if acqOrder o.toNat then t.acquire c.toNat else t).peers = [] := by
    intro t ht
    have h1 : (t.acquire c.toNat).peers = t.peers := by have e := congrArg State.peers (t.acquire_cached c.toNat).same; exact e
    split
    · rw [h1, ht, h.peers ha]
    · rw [ht, h.peers ha]
  unfold State.afterAtomic
  by_cases hv : vals = []
  · rw [if_pos hv, if_pos hv, State.fenceAfter_none (hp W rfl)]
  · rw [if_neg hv, if_neg hv, State.fenceAfter_none (hp (W.defer vals 0 0 true) rfl), State.acquire_defer]
    split <;> rfl

theorem State.Reaches.tt {s : State} (ha : s.Alone) {acc : Acc} {n : Nat} {e : Mask} {va : Nat → Nat} {x : Nat → Xlat} (hr : s.Reaches acc n e va x)
    {k : Nat} (hk : k ∈ maskLanes e) : refused (x k).loc.tt acc = false := by
  obtain ⟨h1, h2⟩ := mem_maskLanes.1 hk
  obtain ⟨h3, h4, -⟩ := hr k h1 h2
  exact State.checkLane_tt ha.exports h3 h4
theorem refused_atomic {pcie : Bool} {tt : Nat} (h : refused tt (.atomic pcie) = false) : tt ≠ 4 := by
  rintro rfl
  simp [refused] at h

/-- A swap of places an atomic reaches changes memory alone. -/
theorem State.Reaches.swap_memOnly {s : State} (ha : s.Alone) {pcie : Bool} {w : Nat} {e : Mask} {va : Nat → Nat} {x : Nat → Xlat} (hr : s.Reaches (.atomic pcie) w e va x)
    (f : Nat → Nat → Nat) : (s.swapLanes w (fun i => (x i).loc) f e).1 = s.memOf (s.swapLanes w (fun i => (x i).loc) f e).1 :=
  (swap_frame w (fun i => (x i).loc) f (maskLanes e) (s, fun _ => 0) fun _ hk => refused_atomic (hr.tt ha hk)).1

/-! ### Atomics of lanes -/

theorem cachePages_laneVal {s : State} (h : s.Ready) (m : Meta) (tag : Nat) (vas : List Nat) (w r k : Nat) :
    (((s.charge m).cachePages tag vas).laneVal w r k).toNat = s.operand w r k := by
  have hp := State.cachePages_cached (s.charge m) tag vas
  refine laneVal_eq w r k (by rw [hp.cur]; simp [h.written]) fun r => ?_
  rw [State.rawV, hp.vrf, hp.cur]
  exact State.charge_rawV s m r

/-- R90 to R92: `f` is what the operation makes of the lane's operand, the next one, and the old value. -/
theorem atomMO_swaps {i : Bool → BitVec 3 → BitVec 6 → BitVec 6 → BitVec 4 → BitVec 2 → Instr} {op : Rmw} {w regs : Nat} {pcie : Bool} {f : Nat → Nat → Nat → Nat}
    (hi : ∀ sm o d a b c s, exec (i sm o d a b c) s = atomMO op w regs pcie sm o d a b c s) (hw : w = 4 ∨ w = 8)
    (hf : ∀ v new old, op.apply w old (if op = .cas then new else v) v = f v new old) (sm : Bool) (o : BitVec 3) (d a : BitVec 6) (b : BitVec 4) (c : BitVec 2)
    (s : State) (x : Nat → Xlat) (r : State × (Nat → Nat)) (h : s.GroupReady) (ha : s.Alone) (hv : s.hasV [d.toNat + regs - 1, a.toNat])
    (hl : s.Reaches (.atomic pcie) w s.cur.em (s.laneAddr (s.rawS b.toNat) a.toNat) x)
    (hr : r = s.swapLanes w (fun k => (x k).loc) (fun k => f (s.operand w d.toNat k) (s.operand w (d.toNat + w / 4) k)) s.cur.em) :
    ∃ t u vals, exec (i sm o d a b c) s = .next t ∧ s.Swapped r.1 u ∧ s.Returns u t 4 sm vals ∧
      LoadResult w d.toNat s.cur.em (fun j k => BitVec.ofNat 32 (r.2 k / 2 ^ (32 * j))) vals := by
  let m : Meta := { settle := sm, vEnd := topReg [d.toNat + regs - 1, a.toNat], insn := true, nonreplay := true, ss := [b.toNat]
                    vs := a.toNat :: (List.range regs).map (d.toNat + ·) }
  let va := s.laneAddr (s.rawS b.toNat) a.toNat
  let p := (s.charge m).cachePages s.curTag ((maskLanes s.cur.em).map va)
  let vr := if op = .cas then d.toNat + w / 4 else d.toNat
  obtain ⟨W, hW, hK⟩ := atomic_under ha m op w s.cur.em va x pcie hl (p.laneVal w vr) (p.laneVal w d.toNat)
  have hs : s.swapLanes w (fun i => (x i).loc) (fun i old => op.apply w old (p.laneVal w vr i).toNat (p.laneVal w d.toNat i).toNat) s.cur.em = r := by
    rw [hr]
    refine swap_congr fun k _ old => ?_
    rw [cachePages_laneVal h.1, cachePages_laneVal h.1, ← hf]
    simp only [vr]
    split <;> rfl
  rw [hs] at hW
  simp only [hs] at hK
  have hn : w = 1 ∨ w = 2 ∨ w = 4 ∨ w = 8 ∨ w = 16 := by omega
  have hR := loadVals_result false w d.toNat s.cur.em (fun i => natBytes w (r.2 i)) (fun j k => BitVec.ofNat 32 (r.2 k / 2 ^ (32 * j))) hn
    fun j hj k _ _ => regWord_natBytes w _ j hw hj
  generalize hvals : (if s.cur.em = 0 then [] else _) = vals at hR
  have hI : ∃ t u, atomMO op w regs pcie sm o d a b c s = .next t ∧ s.Swapped r.1 u ∧ s.Returns u t m.len m.settle vals := by
    refine issue_swap h.1 ha m (illegal_lane h (topReg_le hv) (Nat.zero_le _) (.inl rfl) rfl) rfl
      (acq_under ha hW (acqOrder o.toNat) c.toNat) (by rw [← hs]; exact hl.swap_memOnly ha _) vals
      (by rw [← hvals]; split <;> [simp; exact loadVals_plain _ _ _ _ _]) _ ?_
    rw [charge_readS h.1, State.charge_cur_em, charge_laneAddrs h.1]
    refine (atomic_starts ha m hl (relOrder o.toNat) (o = 4 && c = 3) _).trans ((hK _).trans ?_)
    rw [List.isEmpty_nil, if_pos rfl]
    change Eff.done ((W.deferLoad false w d.toNat _).afterAtomic o c) = _
    rw [deferLoad_eq W false w d.toNat s.cur.em _ hn vals hvals, hW.afterAtomic_defer ha]
  obtain ⟨t, u, h1, h2, h3⟩ := hI
  exact ⟨t, u, vals, (hi ..).trans h1, h2, h3, hR⟩

/-- Settles O23: every atomic of lanes is `atomMO` of its operation. -/
theorem atomics : Obligations.Atomics := by
  unfold Obligations.Atomics
  iterate 14 rw [List.forall_mem_cons]
  refine ⟨?add32, ?min32, ?max32, ?and32, ?or32, ?xor32, ?exch32, ?cas32, ?add64, ?minN32, ?maxN32, ?fadd, ?exch64, ?cas64, by simp⟩
  case add32 => exact atomMO_swaps (op := .add) (fun _ _ _ _ _ _ _ => rfl) (.inl rfl) fun _ _ _ => rfl
  case min32 => exact atomMO_swaps (op := .minI) (fun _ _ _ _ _ _ _ => rfl) (.inl rfl) fun v _ old => if_congr (signed_slt v old) rfl rfl
  case max32 => exact atomMO_swaps (op := .maxI) (fun _ _ _ _ _ _ _ => rfl) (.inl rfl) fun v _ old => if_congr (signed_slt old v) rfl rfl
  case and32 => exact atomMO_swaps (op := .and) (fun _ _ _ _ _ _ _ => rfl) (.inl rfl) fun _ _ _ => rfl
  case or32 => exact atomMO_swaps (op := .or) (fun _ _ _ _ _ _ _ => rfl) (.inl rfl) fun _ _ _ => rfl
  case xor32 => exact atomMO_swaps (op := .xor) (fun _ _ _ _ _ _ _ => rfl) (.inl rfl) fun _ _ _ => rfl
  case exch32 => exact atomMO_swaps (op := .exch) (fun _ _ _ _ _ _ _ => rfl) (.inl rfl) fun _ _ _ => rfl
  case cas32 => exact atomMO_swaps (op := .cas) (fun _ _ _ _ _ _ _ => rfl) (.inl rfl) fun _ _ _ => rfl
  case add64 => exact atomMO_swaps (op := .add) (fun _ _ _ _ _ _ _ => rfl) (.inr rfl) fun _ _ _ => rfl
  case minN32 => exact atomMO_swaps (op := .minN) (fun _ _ _ _ _ _ _ => rfl) (.inl rfl) fun _ _ _ => rfl
  case maxN32 => exact atomMO_swaps (op := .maxN) (fun _ _ _ _ _ _ _ => rfl) (.inl rfl) fun _ _ _ => rfl
  case fadd => exact atomMO_swaps (op := .fadd) (fun _ _ _ _ _ _ _ => rfl) (.inl rfl) fun _ _ _ => rfl
  case exch64 => exact atomMO_swaps (op := .exch) (fun _ _ _ _ _ _ _ => rfl) (.inr rfl) fun _ _ _ => rfl
  case cas64 => exact atomMO_swaps (op := .cas) (fun _ _ _ _ _ _ _ => rfl) (.inr rfl) fun _ _ _ => rfl

/-! ### Uniform atomics -/

theorem cachePages_readS {s : State} (h : s.Ready) (m : Meta) (tag : Nat) (vas : List Nat) (r : Nat) : ((s.charge m).cachePages tag vas).readS r = s.rawS r := by
  have hc := (State.cachePages_cached (s.charge m) tag vas).cur
  rw [State.readS_eq (by rw [hc]; simp [h.written]), State.rawS, hc, State.charge_cur_sregs, State.rawS]

theorem swapLanes_oneLane (s : State) {l : Nat} (hl : l < 256) (w : Nat) (x : Loc) (f : Nat → Nat → Nat) :
    (s.swapLanes w (fun _ => x) f (oneLane l)).1 = s.writeNum x w (f l (s.readNum x w)) ∧ (s.swapLanes w (fun _ => x) f (oneLane l)).2 l = s.readNum x w := by
  rw [State.swapLanes_eq, maskLanes_oneLane hl]
  exact ⟨rfl, if_pos rfl⟩

theorem ofNat_bytes_readNum (s : State) (x : Loc) : BitVec.ofNat 64 (bytesNat (natBytes 8 (s.readNum x 8))) = BitVec.ofNat 64 (s.readNum x 8) := by
  have hb : s.readNum x 8 < 256 ^ (s.readBytes x 8).length := bytesNat_lt _
  rw [State.readBytes_length] at hb
  rw [bytesNat_natBytes _ _ hb]

/-- R94: the one access of a uniform atomic is the swap of one lane's place. -/
theorem atomUO_swaps {i : Bool → BitVec 3 → BitVec 6 → BitVec 6 → BitVec 2 → Instr} {op : Rmw} {pcie : Bool} {f : Nat → Nat → Nat → Nat}
    (hi : ∀ sm o d a c s, exec (i sm o d a c) s = atomUO op pcie sm o d a c s)
    (hf : ∀ v new old, op.apply 8 old (if op = .cas then new else v) v = f v new old) (sm : Bool) (o : BitVec 3) (d a : BitVec 6) (c : BitVec 2)
    (s : State) (x : Xlat) (h : s.Ready) (ha : s.Alone)
    (hl : s.Reaches (.atomic pcie) 8 (oneLane s.uniLane) (fun _ => (s.rawS a.toNat).toNat) (fun _ => x)) :
    ∃ t u, exec (i sm o d a c) s = .next t ∧
      s.Swapped (s.writeNum x.loc 8 (f (s.rawS d.toNat).toNat (s.rawS (d.toNat + 1)).toNat (s.readNum x.loc 8))) u ∧
      s.Returns u t 4 sm [.uni d.toNat (BitVec.ofNat 64 (s.readNum x.loc 8)) false] := by
  let m : Meta := { settle := sm, seq := true, insn := true, nonreplay := true, ss := [d.toNat, a.toNat] ++ (if op = .cas then [d.toNat + 1] else []) }
  let v := if op = .cas then s.rawS (d.toNat + 1) else s.rawS d.toNat
  obtain ⟨W, hW, hK⟩ := atomic_under ha m op 8 _ _ _ pcie hl (fun _ => v) (fun _ => s.rawS d.toNat)
  obtain ⟨hs1, hs2⟩ := swapLanes_oneLane s s.uniLane_lt 8 x.loc fun _ old => op.apply 8 old v.toNat (s.rawS d.toNat).toNat
  have hv : op.apply 8 (s.readNum x.loc 8) v.toNat (s.rawS d.toNat).toNat = f (s.rawS d.toNat).toNat (s.rawS (d.toNat + 1)).toNat (s.readNum x.loc 8) := by
    rw [← hf]
    simp only [v]
    split <;> rfl
  have hmem := hl.swap_memOnly ha fun _ old => op.apply 8 old v.toNat (s.rawS d.toNat).toNat
  rw [maskLanes_oneLane s.uniLane_lt] at hK
  rw [hs1, hv] at hW hmem
  let y := s.writeNum x.loc 8 (f (s.rawS d.toNat).toNat (s.rawS (d.toNat + 1)).toNat (s.readNum x.loc 8))
  have hI : ∃ t u, atomUO op pcie sm o d a c s = .next t ∧ s.Swapped y u ∧
      s.Returns u t m.len m.settle [.uni d.toNat (BitVec.ofNat 64 (s.readNum x.loc 8)) false] := by
    refine issue_swap h ha m (illegal_uniform h rfl (Nat.zero_le _) rfl (fun _ => rfl) (.inl rfl) rfl) rfl
      (acq_under ha hW (acqOrder o.toNat) c.toNat) hmem _ (by simp [DVal.plain]) _ ?_
    rw [charge_readS h, State.charge_cur_em]
    refine (congrArg (fun l => (s.charge m).withLanes (.atomic pcie) 8 l _) (uniAddrs s _).symm).trans ?_
    refine (atomic_starts ha m hl (relOrder o.toNat) (o = 4 && c = 3) _).trans ?_
    simp only [maskLanes_oneLane s.uniLane_lt, cachePages_readS h]
    refine (hK _).trans ?_
    simp only [List.map_cons, hs2, ofNat_bytes_readNum, List.isEmpty_nil, if_true]
    exact congrArg Eff.done (hW.afterAtomic_defer ha o c [.uni d.toNat (BitVec.ofNat 64 (s.readNum x.loc 8)) false])
  obtain ⟨t, u, h1, h2, h3⟩ := hI
  exact ⟨t, u, (hi ..).trans h1, h2, h3⟩

/-- Settles O24: every uniform atomic is `atomUO` of its operation. -/
theorem uniformAtomics : Obligations.UniformAtomics := by
  unfold Obligations.UniformAtomics
  iterate 4 rw [List.forall_mem_cons]
  refine ⟨?add, ?exch, ?cas, ?maxN, by simp⟩
  case add => exact atomUO_swaps (op := .add) (fun _ _ _ _ _ _ => rfl) fun _ _ _ => rfl
  case exch => exact atomUO_swaps (op := .exch) (fun _ _ _ _ _ _ => rfl) fun _ _ _ => rfl
  case cas => exact atomUO_swaps (op := .cas) (fun _ _ _ _ _ _ => rfl) fun _ _ _ => rfl
  case maxN => exact atomUO_swaps (op := .maxN) (fun _ _ _ _ _ _ => rfl) fun _ _ _ => rfl

end Sys2Proof.Machine
end

section
/-!
PROOF. Reductions (03 R93, R98): the lanes' operands are posted by destination (`issue_reduce`), and at `.sc` performed at once.
-/

namespace Sys2Proof.Machine

set_option Elab.async false

theorem writeLocked_none {s : State} (h : s.locks = []) (ls : List LaneOk) : s.writeLocked ls = false := by simp [State.writeLocked, h]
theorem poisonedLanes_none {s : State} (h : s.poison = []) (ls : List LaneOk) (n : Nat) : s.poisonedLanes ls n = [] := by simp [State.poisonedLanes, h]

/-- A lane's operand is what the model reads of it. -/
theorem laneVal_operand {s p : State} {w r k : Nat} (h : (p.laneVal w r k).toNat = s.operand w r k) : p.laneVal w r k = BitVec.ofNat 64 (s.operand w r k) := by
  rw [← h, BitVec.ofNat_toNat, BitVec.setWidth_eq]

theorem operand_toNat (s : State) (w r k : Nat) : (BitVec.ofNat 64 (s.operand w r k)).toNat = s.operand w r k := by
  refine (BitVec.toNat_ofNat ..).trans (Nat.mod_eq_of_lt ?_)
  unfold State.operand
  split
  · exact BitVec.isLt _
  · exact (BitVec.isLt _).trans (by decide)

theorem State.mark_true (s : State) : s.mark true = { s with cur := { s.cur with dirty := true } } := by simp [State.mark]

theorem relOrder_eq {o : BitVec 3} (ho : o ≠ 4) : relOrder o.toNat = (o == 2 || o == 3) := by
  revert o
  decide

/-- What the issue of a reduction runs. -/
def redBody (fn : Nat) (pcie : Bool) (o : BitVec 3) (d a : BitVec 6) (b : BitVec 4) (c : BitVec 2) (t : State) : Eff :=
  t.withLanes (.atomic pcie) (redOp fn).2 (t.laneAddrs t.cur.em (t.readS b.toNat) a.toNat) fun t oks =>
    let go (t : State) : Eff :=
      if o = 4 && t.writeLocked oks then .wait t (t.lockPark oks)
      else
        let bad := t.poisonedLanes oks (redOp fn).2
        t.reduceLanes fn (relOrder o.toNat) ((oks.filter fun l => !bad.contains l).map fun l => (l, t.laneVal (redOp fn).2 d.toNat l.lane)) fun t =>
          let t := (if o = 4 then t.flush t.own else t).fenceAfter (o == 4) c
          if bad.isEmpty then .done t else .event t (t.poisonEvent bad)
    if o = 4 then whenFenced t c go else go t

/-- R93: with nothing else acting on memory every lane's operand is posted. -/
theorem redBody_eq {s : State} (h : s.Ready) (ha : s.Alone) (m : Meta) (fn : Nat) {pcie : Bool} (o : BitVec 3) (d a : BitVec 6) (b : BitVec 4) (c : BitVec 2)
    {x : Nat → Xlat} (hl : s.Reaches (.atomic pcie) (redOp fn).2 s.cur.em (s.laneAddr (s.rawS b.toNat) a.toNat) x) :
    redBody fn pcie o d a b c (s.charge m) =
      ((s.charge m).cachePages s.curTag ((maskLanes s.cur.em).map (s.laneAddr (s.rawS b.toNat) a.toNat))).reduceLanes fn (relOrder o.toNat)
        ((okLanes s.cur.em (s.laneAddr (s.rawS b.toNat) a.toNat) x).map fun l => (l, BitVec.ofNat 64 (s.operand (redOp fn).2 d.toNat l.lane)))
        fun t => .done ((if o == 4 then t.flush t.own else t).fenceAfter (o == 4) c) := by
  rw [redBody, charge_readS h, State.charge_cur_em, charge_laneAddrs h, withLanes_reaches ha m hl]
  have hp := State.cachePages_cached (s.charge m) s.curTag ((maskLanes s.cur.em).map (s.laneAddr (s.rawS b.toNat) a.toNat))
  have hv := fun k => laneVal_operand
    (cachePages_laneVal h m s.curTag ((maskLanes s.cur.em).map (s.laneAddr (s.rawS b.toNat) a.toNat)) (redOp fn).2 d.toNat k)
  generalize (s.charge m).cachePages s.curTag ((maskLanes s.cur.em).map (s.laneAddr (s.rawS b.toNat) a.toNat)) = p at hp hv ⊢
  have hpk : p.packets = [] := hp.packets.trans (by simp [ha.packets])
  have hpe : p.peers = [] := (congrArg State.peers hp.same).trans (by simp [ha.peers])
  have hlk : p.locks = [] := (congrArg State.locks hp.same).trans (by simp [ha.locks])
  have hpo : p.poison = [] := (congrArg State.poison hp.same).trans (by simp [ha.poison])
  simp only [whenFenced_alone hpk hpe, ite_self, writeLocked_none hlk, poisonedLanes_none hpo, Bool.and_false, Bool.false_eq_true, if_false, List.isEmpty_nil, if_true,
    List.contains_nil, Bool.not_false, List.filter_true, beq_iff_eq, hv]

theorem redMO_reduces {i : Bool → BitVec 3 → BitVec 6 → BitVec 6 → BitVec 4 → BitVec 2 → Instr} {fn w : Nat} {pcie : Bool} {f : Nat → Nat → Nat}
    (hi : ∀ sm o d a b c s, exec (i sm o d a b c) s = redMO fn pcie sm o d a b c s) (hw : (redOp fn).2 = w)
    (hf : ∀ v old, (redOp fn).1.apply w old v 0 = f v old)
    (sm : Bool) (o : BitVec 3) (d a : BitVec 6) (b : BitVec 4) (c : BitVec 2)
    (s : State) (x : Nat → Xlat) (h : s.GroupReady) (ha : s.Alone) (hv : s.hasV [d.toNat + w / 4 - 1, a.toNat])
    (hl : s.Reaches (.atomic pcie) w s.cur.em (s.laneAddr (s.rawS b.toNat) a.toNat) x) :
    ∃ t u, exec (i sm o d a b c) s = .next t ∧ s.Returns { u with cur := { s.cur with dirty := true } } t 4 sm [] ∧
      (o ≠ 4 → s.Posts u s.cur.em (fun k => (x k).loc) (o == 2 || o == 3) fun m =>
        (.reduce fn ((maskLanes m).map fun k => ((x k).loc, BitVec.ofNat 64 (s.operand w d.toNat k))), [])) ∧
      (o = 4 → ∃ keys : List (Nat × Nat), keys.Nodup ∧ (∀ c, c ∈ keys ↔ ∃ k < 256, s.cur.em.getLsbD k ∧ destKey (x k).loc = c) ∧
        s.Swapped ((keys.map fun c => destLanes s.cur.em (fun k => (x k).loc) c).foldl (fun v m =>
          (v.swapLanes w (fun k => (x k).loc) (fun k => f (s.operand w d.toNat k)) m).1) s) u) := by
  subst hw
  let w := (redOp fn).2
  let m : Meta := { settle := sm, vEnd := topReg [d.toNat + w / 4 - 1, a.toNat], insn := true, nonreplay := true, ss := [b.toNat]
                    vs := a.toNat :: (List.range (w / 4)).map (d.toNat + ·) }
  let v : Nat → W64 := fun k => BitVec.ofNat 64 (s.operand w d.toNat k)
  obtain ⟨t, h1, h2, h3⟩ := issue_reduce h.1 ha m (illegal_lane h (topReg_le hv) (Nat.zero_le _) (.inl rfl) rfl) rfl (relOrder o.toNat) (o == 4) fn v s.cur.em
    (s.laneAddr (s.rawS b.toNat) a.toNat) x pcie hl (fun t => t.fenceAfter (o == 4) c) (fun t ht => State.fenceAfter_none ht _ _)
    (redBody fn pcie o d a b c) (redBody_eq h.1 ha m fn o d a b c hl)
  have h1 : exec (i sm o d a b c) s = .next t := (hi ..).trans h1
  by_cases ho : o = 4
  · obtain ⟨u, keys, hk, hmem, hu, hr⟩ := h3 (by simpa using ho)
    refine ⟨t, u, h1, ?_, fun h => absurd ho h, fun _ => ⟨keys, hk, hmem, ?_⟩⟩
    · rwa [show ({ u with cur := { s.cur with dirty := true } } : State) = u from (congrArg (fun y : State => { u with cur := y.cur }) hu.same).symm]
    · have hs : redFn fn v = fun k => f (s.operand w d.toNat k) := by
        funext k old
        rw [← hf, redFn, operand_toNat]
      rwa [hs] at hu
  · obtain ⟨u, hu, hr⟩ := h2 (by simpa using ho)
    refine ⟨t, u, h1, ?_, fun _ => ?_, fun h => absurd h ho⟩
    · rw [show s.cur = u.cur from (congrArg State.cur hu.same).symm]
      rwa [State.mark_true] at hr
    · rw [← relOrder_eq ho]
      exact hu

/-- Settles O25: every reduction is `redMO` of its function. -/
theorem reductions : Obligations.Reductions := by
  unfold Obligations.Reductions
  iterate 8 rw [List.forall_mem_cons]
  refine ⟨?add32, ?min32, ?max32, ?and32, ?or32, ?xor32, ?fadd, ?add64, by simp⟩
  case add32 => exact redMO_reduces (fn := 0) (fun _ _ _ _ _ _ _ => rfl) rfl fun _ _ => rfl
  case min32 => exact redMO_reduces (fn := 1) (fun _ _ _ _ _ _ _ => rfl) rfl fun v old => if_congr (signed_slt v old) rfl rfl
  case max32 => exact redMO_reduces (fn := 2) (fun _ _ _ _ _ _ _ => rfl) rfl fun v old => if_congr (signed_slt old v) rfl rfl
  case and32 => exact redMO_reduces (fn := 3) (fun _ _ _ _ _ _ _ => rfl) rfl fun _ _ => rfl
  case or32 => exact redMO_reduces (fn := 4) (fun _ _ _ _ _ _ _ => rfl) rfl fun _ _ => rfl
  case xor32 => exact redMO_reduces (fn := 5) (fun _ _ _ _ _ _ _ => rfl) rfl fun _ _ => rfl
  case fadd => exact redMO_reduces (fn := 6) (fun _ _ _ _ _ _ _ => rfl) rfl fun _ _ => rfl
  case add64 => exact redMO_reduces (fn := 7) (fun _ _ _ _ _ _ _ => rfl) rfl fun _ _ => rfl

end Sys2Proof.Machine
end

section
/-!
PROOF. Line operations (03 R89, R96): what a prefetch and an invalidation make of the core's L1, line by line.
-/

namespace Sys2Proof.Machine

set_option Elab.async false

/-! ### Lists of lines -/

theorem mem_dedup {n : Nat} (l : List Nat) : n ∈ dedup l ↔ n ∈ l := by
  suffices H : ∀ acc : List Nat, n ∈ l.foldl (fun acc x => if acc.contains x then acc else acc ++ [x]) acc ↔ n ∈ acc ∨ n ∈ l from
    (H []).trans (by simp)
  induction l with
  | nil => simp
  | cons x l ih =>
    intro acc
    rw [List.foldl_cons, ih, List.mem_cons, ← or_assoc]
    refine or_congr_left ?_
    split
    · rename_i hx
      exact ⟨.inl, fun h => h.elim id fun e => e ▸ List.contains_iff_mem.1 hx⟩
    · rw [List.mem_append, List.mem_singleton]

/-- R89: lines brought into a map, a copy held being kept or not. -/
def State.bring (s : State) (lines : List Nat) (m : SMap (BitVec 1024)) : SMap (BitVec 1024) :=
  lines.foldl (fun m n => if (SMap.find m n).isSome && s.pick (Nat.pair 1 n) then m else SMap.put m n (s.lineBits n)) m
theorem State.fillL1_eq (s : State) (ls : List LaneOk) : s.fillL1 ls =
    s.withL1 (s.bring (dedup ((ls.filter fun l => l.x.cached && s.delivers s.agent l.x.loc).map fun l => l.x.loc.addr / 128)) (s.core s.cur.core).l1) := rfl

/-- A line of the map after is the one held before, or one brought in from memory. -/
theorem State.find_bring (s : State) (n : Nat) : ∀ (lines : List Nat) (m : SMap (BitVec 1024)),
    SMap.find (s.bring lines m) n = SMap.find m n ∨ n ∈ lines ∧ SMap.find (s.bring lines m) n = some (s.lineBits n)
  | [], _ => .inl rfl
  | x :: lines, m => by
    rcases s.find_bring n lines (if (SMap.find m x).isSome && s.pick (Nat.pair 1 x) then m else SMap.put m x (s.lineBits x)) with h | ⟨h1, h2⟩
    · rw [State.bring, List.foldl_cons, ← State.bring, h]
      split
      · exact .inl rfl
      · rw [SMap.find_put]
        split
        · rename_i e
          exact .inr ⟨e ▸ List.mem_cons_self .., e ▸ rfl⟩
        · exact .inl rfl
    · exact .inr ⟨List.mem_cons_of_mem _ h1, h2⟩
theorem State.bring_holds (s : State) {n : Nat} : ∀ (lines : List Nat) (m : SMap (BitVec 1024)), (n ∈ lines ∨ (SMap.find m n).isSome) →
    (SMap.find (s.bring lines m) n).isSome
  | [], _, h => h.resolve_left (List.not_mem_nil)
  | x :: lines, m, h => by
    refine s.bring_holds lines (if (SMap.find m x).isSome && s.pick (Nat.pair 1 x) then m else SMap.put m x (s.lineBits x)) ?_
    by_cases hn : n ∈ lines
    · exact .inl hn
    · refine .inr ?_
      split
      · rename_i hx
        rcases h with h | h
        · obtain rfl | h := List.mem_cons.1 h
          · simp_all
          · exact absurd h hn
        · exact h
      · rw [SMap.find_put]
        split
        · rfl
        · rename_i e
          rcases h with h | h
          · obtain rfl | h := List.mem_cons.1 h
            · exact absurd rfl e
            · exact absurd h hn
          · exact h

/-- R96: lines dropped from a map. -/
theorem SMap.find_dels (n : Nat) (g : LaneOk → Nat) : ∀ (ls : List LaneOk) (m : SMap (BitVec 1024)),
    SMap.find (ls.foldl (fun m l => SMap.del m (g l)) m) n = if ∃ l ∈ ls, g l = n then none else SMap.find m n
  | [], _ => by simp
  | x :: ls, m => by
    rw [List.foldl_cons, SMap.find_dels n g ls, SMap.find_del]
    by_cases h : n = g x
    · simp [h]
    · simp only [h, if_false, List.exists_mem_cons_iff, show ¬ g x = n from fun e => h e.symm, false_or]

/-! ### The lines the active lanes name -/

theorem charge_lineNamed {s : State} (ht : (s.part s.curTag).tlb = []) (m : Meta) (va k : Nat) : (s.charge m).lineNamed va k = s.lineNamed va k := by
  have h := State.translate_congr (charge_readByte s m) (State.charge_vfs s m) s.curTag (charge_part s m _) ht s.curVf (!s.cur.smode) (.load 1) va (Nat.pair 0 k)
  rw [State.lineNamed, State.lineNamed, charge_curTag, charge_curVf, State.charge_cur_smode, h]

theorem State.mem_reachable {s : State} {addrs : List (Nat × Nat)} {l : LaneOk} :
    l ∈ s.reachable addrs ↔ (l.lane, l.va) ∈ addrs ∧ s.lineNamed l.va l.lane = some l.x := by
  unfold State.reachable State.lineNamed
  rw [List.mem_filterMap]
  constructor
  · rintro ⟨p, hp, h⟩
    split at h
    · rename_i x hx
      obtain rfl := Option.some.inj h
      exact ⟨hp, by rw [hx]⟩
    · cases h
  · rintro ⟨hp, h⟩
    refine ⟨_, hp, ?_⟩
    split at h
    · rename_i x hx
      obtain ⟨k, va, y⟩ := l
      obtain rfl := Option.some.inj h
      simp only [hx]
    · cases h

/-- The lanes of a mask at their addresses. -/
theorem mem_laneAddrs {e : Mask} {va : Nat → Nat} {k a : Nat} : (k, a) ∈ (maskLanes e).map (fun k => (k, va k)) ↔ k < 256 ∧ e.getLsbD k ∧ a = va k := by
  rw [List.mem_map]
  constructor
  · rintro ⟨j, hj, e⟩
    obtain ⟨rfl, rfl⟩ := Prod.mk.inj e
    exact ⟨(mem_maskLanes.1 hj).1, (mem_maskLanes.1 hj).2, rfl⟩
  · rintro ⟨h1, h2, rfl⟩
    exact ⟨k, mem_maskLanes.2 ⟨h1, h2⟩, rfl⟩

theorem State.Keeps.withL1 {s t : State} (h : s.Keeps t) (hc : t.cur.core = s.cur.core) (l : SMap (BitVec 1024)) : (s.withL1 l).Keeps (t.withL1 l) := by
  rw [State.withL1, State.withL1, hc]
  exact h.updCore _ _ (fun k => { k with l1 := l }) fun _ => rfl

/-- An instruction that leaves another content of the L1 and nothing else. -/
theorem issue_withL1 {m : Meta} {s : State} (h : s.Ready) (hi : s.illegal m = none) (hn : m.insn = false) (hr : m.nonreplay = false)
    {body : State → Eff} (l : SMap (BitVec 1024)) (hb : body (s.charge m) = .done ((s.charge m).withL1 l)) :
    ∃ t, issue m s body = .next t ∧ s.Returns (s.withL1 l) t m.len m.settle [] :=
  issue_effect h hi (.inl hn) hb ((State.charge_keeps s m).withL1 (by simp) l) hr
    (by simp [State.withL1]) (by simp [State.withL1]) (by simp [State.withL1, h.word]) (by simp [State.withL1, h.recipe]) (by simp [State.withL1, h.written])
    (by simp [State.withL1, h.poisonV]) (by simp [State.withL1, h.poisonS])

theorem charge_lineBits (s : State) (m : Meta) (n : Nat) : (s.charge m).lineBits n = s.lineBits n := by
  simp only [State.lineBits, State.readNum, State.readBytes, charge_readByte]

/-- R96: the lines a mask's lanes name at their addresses, in a state that an issue has charged. -/
theorem charge_reaches {s : State} (ht : (s.part s.curTag).tlb = []) (m : Meta) {addrs : List (Nat × Nat)} {y : LaneOk} :
    y ∈ (s.charge m).reachable addrs ↔ (y.lane, y.va) ∈ addrs ∧ s.lineNamed y.va y.lane = some y.x := by
  rw [State.mem_reachable, charge_lineNamed ht]

theorem mem_aligned4 {addrs : List (Nat × Nat)} {p : Nat × Nat} : p ∈ aligned4 addrs ↔ p ∈ addrs ∧ p.2 % 4 = 0 := by
  rw [aligned4, List.mem_filter, beq_iff_eq]

theorem charge_addrs {s : State} (h : s.GroupReady) (m : Meta) (g : BitVec 3) (b a : Nat) :
    (s.charge m).laneAddrs ((s.charge m).act g) ((s.charge m).readS b) a = (maskLanes (s.act g)).map fun k => (k, s.laneAddr (s.rawS b) a k) := by
  rw [charge_readS h.1, charge_laneAddrs h.1, charge_act h, ready_act h]

theorem lineMeta_ok {s : State} (h : s.GroupReady) (sm : Bool) (g : BitVec 3) {a : BitVec 6} (b : BitVec 6) (hv : s.hasV [a.toNat]) :
    s.illegal (lineMeta sm g a b) = none := illegal_lane h (topReg_le hv) (Nat.zero_le _) (.inl rfl) rfl

theorem pref_brings (sm : Bool) (g : BitVec 3) (a b : BitVec 6) (s : State) (h : s.GroupReady) (ht : (s.part s.curTag).tlb = []) (hv : s.hasV [a.toNat]) :
    ∃ t l, exec (.pref sm g a b) s = .next t ∧ s.Returns (s.withL1 l) t 4 sm [] ∧
      (∀ n, SMap.find l n ≠ SMap.find (s.core s.cur.core).l1 n → SMap.find l n = some (s.lineBits n) ∧
        ∃ k < 256, (s.act g).getLsbD k ∧ s.laneAddr (s.rawS b.toNat) a.toNat k % 4 = 0 ∧ ∃ x, s.lineNamed (s.laneAddr (s.rawS b.toNat) a.toNat k) k = some x ∧
          x.loc.tt = 0 ∧ x.loc.addr / 128 = n) ∧
      ∀ k < 256, (s.act g).getLsbD k → s.laneAddr (s.rawS b.toNat) a.toNat k % 4 = 0 → ∀ x, s.lineNamed (s.laneAddr (s.rawS b.toNat) a.toNat k) k = some x →
        x.loc.tt = 0 → x.nc = false → x.ms = false → s.delivers s.agent x.loc = true → (SMap.find l (x.loc.addr / 128)).isSome := by
  let m := lineMeta sm g a b
  let va := s.laneAddr (s.rawS b.toNat) a.toNat
  let t := s.charge m
  let ls := t.reachable (aligned4 ((maskLanes (s.act g)).map fun k => (k, va k)))
  let lines := dedup ((ls.filter fun l => l.x.cached && t.delivers t.agent l.x.loc).map fun l => l.x.loc.addr / 128)
  have hls : ∀ y : LaneOk, y ∈ ls ↔ y.lane < 256 ∧ (s.act g).getLsbD y.lane ∧ y.va = va y.lane ∧ y.va % 4 = 0 ∧ s.lineNamed y.va y.lane = some y.x := fun y =>
    (charge_reaches ht m).trans ((and_congr_left' (mem_aligned4.trans (and_congr_left' mem_laneAddrs))).trans (by simp only [and_assoc]))
  have hlines : ∀ n, n ∈ lines ↔ ∃ y ∈ ls, y.x.cached = true ∧ s.delivers s.agent y.x.loc = true ∧ y.x.loc.addr / 128 = n := fun n => by
    rw [mem_dedup]
    simp only [t, List.mem_map, List.mem_filter, Bool.and_eq_true, charge_delivers, charge_agent, and_assoc]
  obtain ⟨t', h1, h2⟩ := issue_withL1 h.1 (lineMeta_ok h sm g b hv) rfl rfl (body := fun t =>
    .done (t.fillL1 (t.reachable (aligned4 (t.laneAddrs (t.act g) (t.readS b.toNat) a.toNat))))) (t.bring lines (s.core s.cur.core).l1)
    (by rw [charge_addrs h, State.fillL1_eq, State.charge_cur_core, charge_core_l1])
  refine ⟨t', _, h1, h2, fun n hn => ?_, fun k hk ha h4 x hx htt hnc hms hd => ?_⟩
  · obtain ⟨hm, hf⟩ := (t.find_bring n lines _).resolve_left hn
    obtain ⟨y, hy, hc, -, hn⟩ := (hlines n).1 hm
    obtain ⟨hk, ha, hva, h4, hx⟩ := (hls y).1 hy
    rw [hva] at h4 hx
    have htt : y.x.loc.tt = 0 := by simp [Xlat.cached] at hc; exact hc.1.1
    exact ⟨by rw [hf, charge_lineBits], y.lane, hk, ha, h4, y.x, hx, htt, hn⟩
  · refine t.bring_holds lines _ (.inl ((hlines _).2 ⟨⟨k, va k, x⟩, (hls _).2 ⟨hk, ha, rfl, h4, hx⟩, ?_, hd, rfl⟩))
    simp [Xlat.cached, htt, hnc, hms]

theorem cinv_drops (sm : Bool) (g : BitVec 3) (a b : BitVec 6) (s : State) (h : s.GroupReady) (ht : (s.part s.curTag).tlb = []) (hv : s.hasV [a.toNat]) :
    ∃ t l, exec (.cinv sm g a b) s = .next t ∧ s.Returns (s.withL1 l) t 4 sm [] ∧ ∀ n,
      ((∃ k < 256, (s.act g).getLsbD k ∧ ∃ x, s.lineNamed (s.laneAddr (s.rawS b.toNat) a.toNat k) k = some x ∧ x.loc.tt = 0 ∧ x.loc.addr / 128 = n) →
        SMap.find l n = none) ∧
      ((∀ k < 256, (s.act g).getLsbD k → ∀ x, s.lineNamed (s.laneAddr (s.rawS b.toNat) a.toNat k) k = some x → x.loc.tt = 0 → x.loc.addr / 128 ≠ n) →
        SMap.find l n = SMap.find (s.core s.cur.core).l1 n) := by
  let m := lineMeta sm g a b
  let va := s.laneAddr (s.rawS b.toNat) a.toNat
  let ls := ((s.charge m).reachable ((maskLanes (s.act g)).map fun k => (k, va k))).filter fun l => l.x.loc.tt == 0
  have hls : ∀ n, (∃ y ∈ ls, y.x.loc.addr / 128 = n) ↔
      ∃ k < 256, (s.act g).getLsbD k ∧ ∃ x, s.lineNamed (va k) k = some x ∧ x.loc.tt = 0 ∧ x.loc.addr / 128 = n := by
    intro n
    constructor
    · rintro ⟨y, hy, hn⟩
      obtain ⟨hy, htt⟩ := List.mem_filter.1 hy
      obtain ⟨hp, hx⟩ := (charge_reaches ht m).1 hy
      obtain ⟨hk, ha, hva⟩ := mem_laneAddrs.1 hp
      exact ⟨y.lane, hk, ha, y.x, hva ▸ hx, beq_iff_eq.1 htt, hn⟩
    · rintro ⟨k, hk, ha, x, hx, htt, hn⟩
      exact ⟨⟨k, va k, x⟩, List.mem_filter.2 ⟨(charge_reaches ht m).2 ⟨mem_laneAddrs.2 ⟨hk, ha, rfl⟩, hx⟩, beq_iff_eq.2 htt⟩, hn⟩
  let l := ls.foldl (fun m l => SMap.del m (l.x.loc.addr / 128)) (s.core s.cur.core).l1
  obtain ⟨t', h1, h2⟩ := issue_withL1 h.1 (lineMeta_ok h sm g b hv) rfl rfl (body := fun t =>
    let ls := (t.reachable (t.laneAddrs (t.act g) (t.readS b.toNat) a.toNat)).filter fun l => l.x.loc.tt == 0
    .done (t.updCore t.cur.core fun k => { k with l1 := ls.foldl (fun m l => SMap.del m (l.x.loc.addr / 128)) k.l1 })) l
    (by
      simp only [charge_addrs h, State.withL1, State.updCore, State.charge_cur_core, charge_core_l1]
      rfl)
  refine ⟨t', l, h1, h2, fun n => ⟨fun hn => ?_, fun hn => ?_⟩⟩
  · rw [SMap.find_dels n fun y => y.x.loc.addr / 128, if_pos ((hls n).2 hn)]
  · rw [SMap.find_dels n fun y => y.x.loc.addr / 128, if_neg]
    intro hc
    obtain ⟨k, hk, ha, x, hx, htt, h128⟩ := (hls n).1 hc
    exact hn k hk ha x hx htt h128

/-- Settles O22. -/
theorem lineOperations : Obligations.LineOperations := by
  refine ⟨pref_brings, cinv_drops, fun sm g s h ha => ?_, fun sm g s h ha => ?_⟩
  · exact issue_wroteNothing h.1 (illegal_lane h (Nat.zero_le _) (Nat.zero_le _) (.inl rfl) rfl) rfl rfl
      (by rw [charge_act h, ← ready_act h, if_pos ha])
  · exact issue_withL1 h.1 (illegal_lane h (Nat.zero_le _) (Nat.zero_le _) (.inl rfl) rfl) rfl rfl []
      (by rw [charge_act h, ← ready_act h, if_neg ha]; rfl)

end Sys2Proof.Machine
end

section
/-!
PROOF. Decryptions (07 R172, R174, 22 R377, R378): the descriptor is read as a bulk load reads it (`Asking.bulkLoad`), its slot and counter checked,
and one job submitted; an address with bit 63 is an event that enters the handler.
-/

namespace Sys2Proof.Machine

set_option Elab.async false

/-! ### The descriptor -/

theorem cpcBad_iff {x : Nat} (hx : x < 256 ^ 64) : cpcBad x = true ↔ BadDescriptor x := by
  have h512 : x / 2 ^ 288 % 2 ^ 224 = x / 2 ^ 288 := Nat.mod_eq_of_lt (Nat.div_lt_of_lt_mul hx)
  simp only [cpcBad, BadDescriptor, Bool.or_eq_true, bne_iff_ne, decide_eq_true_eq, or_assoc]
  simp only [field, Nat.reduceAdd, Nat.reduceSub, h512]
  exact Iff.rfl

theorem lastCounter_eq (x : Nat) : field x 255 192 + cpcChunks x - 1 = lastCounter x := rfl

/-- What ends the decryption at once: 8 a bad descriptor, 7 a counter not above the floor, else 0. -/
def cpcPre (x : Nat) (k : KeySlot) : Nat :=
  if cpcBad x then 8 else if field x 255 192 ≤ k.floor.toNat || 2 ^ 64 ≤ field x 255 192 + cpcChunks x - 1 then 7 else 0

theorem cpcPre_bad {x : Nat} (k : KeySlot) (hx : x < 256 ^ 64) (h : BadDescriptor x) : cpcPre x k = 8 := if_pos ((cpcBad_iff hx).2 h)
theorem cpcPre_stale {x : Nat} {k : KeySlot} (hx : x < 256 ^ 64) (h : ¬ BadDescriptor x) (hc : x / 2 ^ 192 % 2 ^ 64 ≤ k.floor.toNat ∨ 2 ^ 64 ≤ lastCounter x) :
    cpcPre x k = 7 := by
  rw [cpcPre, if_neg (fun hb => h ((cpcBad_iff hx).1 hb)), lastCounter_eq]
  rw [if_pos]
  rw [Bool.or_eq_true, decide_eq_true_eq, decide_eq_true_eq]
  exact hc
theorem cpcPre_fresh {x : Nat} {k : KeySlot} (hx : x < 256 ^ 64) (h : ¬ BadDescriptor x) (hf : k.floor.toNat < x / 2 ^ 192 % 2 ^ 64) (hl : lastCounter x < 2 ^ 64) :
    cpcPre x k = 0 := by
  rw [cpcPre, if_neg (fun hb => h ((cpcBad_iff hx).1 hb)), lastCounter_eq]
  rw [if_neg]
  rw [Bool.or_eq_true, decide_eq_true_eq, decide_eq_true_eq]
  exact not_or.2 ⟨Nat.not_le.2 hf, Nat.not_le.2 hl⟩

theorem bytesAt_lt (s : State) (n : Nat) (place : Nat → Loc) : bytesNat (s.bytesAt n place) < 256 ^ n := by
  have h := bytesNat_lt (s.bytesAt n place)
  rwa [State.bytesAt, List.length_map, List.length_range] at h

/-! ### The submission -/

theorem State.updPart_frame (s : State) (i : Nat) (f : Part → Part) : s.updPart i f = { s with parts := (s.updPart i f).parts } := by
  unfold State.updPart
  split <;> rfl

/-- R172: the floor raised to the last counter, when nothing ends the decryption at once. -/
def State.raiseFloor (s : State) (tag pre x : Nat) (k : KeySlot) : State :=
  if pre = 0 then s.updPart tag fun p => { p with keys := SMap.put p.keys (field x 167 164) { k with floor := BitVec.ofNat 64 (lastCounter x) } } else s
theorem State.raiseFloor_frame (s : State) (tag pre x : Nat) (k : KeySlot) : s.raiseFloor tag pre x k = { s with parts := (s.raiseFloor tag pre x k).parts } := by
  unfold State.raiseFloor
  split
  · exact s.updPart_frame _ _
  · rfl
theorem State.raiseFloor_cur (s : State) (tag pre x : Nat) (k : KeySlot) : (s.raiseFloor tag pre x k).cur = s.cur := by rw [State.raiseFloor_frame]
theorem State.raiseFloor_nextId (s : State) (tag pre x : Nat) (k : KeySlot) : (s.raiseFloor tag pre x k).nextId = s.nextId := by rw [State.raiseFloor_frame]
theorem State.raiseFloor_readS (s : State) (tag pre x : Nat) (k : KeySlot) (r : Nat) : (s.raiseFloor tag pre x k).readS r = s.readS r := by
  rw [State.raiseFloor_frame]; rfl
theorem State.raiseFloor_newJob (s : State) (tag pre x : Nat) (k : KeySlot) (kind d : Nat) :
    (s.raiseFloor tag pre x k).newJob kind d = s.newJob kind d := by rw [State.raiseFloor_frame]; rfl
theorem State.Keeps.raiseFloor {s t : State} (h : s.Keeps t) (tag pre x : Nat) (k : KeySlot) : (s.raiseFloor tag pre x k).Keeps (t.raiseFloor tag pre x k) := by
  unfold State.raiseFloor
  split
  · exact h.updPart _ _
  · exact h

/-- R174: the job of a decryption. -/
def State.cpcJob (s : State) (a b : Nat) (x pre : Nat) (k : KeySlot) (j : Job) : Job :=
  { j with opA := s.rawS a, opB := s.rawS b, card := BitVec.ofNat 512 x, key := k.key, pre := pre }

/-- What follows the read of the descriptor. -/
def cpcRest (l d a b : Nat) (t : State) (bs : List Byte) : Eff :=
  let x := bytesNat bs
  let slot := field x 167 164
  match SMap.find (t.part t.curTag).keys slot with
  | none => .event t { t.leaderEvent ⟨l, kKeyowner, slot, 0⟩ false with aux := slot, addrs := [] }
  | some k =>
    if !t.ownsSlot k then .event t { t.leaderEvent ⟨l, kKeyowner, slot, 0⟩ false with aux := slot, addrs := [] }
    else
      let t := t.raiseFloor t.curTag (cpcPre x k) x k
      .done (t.submit 2 d fun j => { j with opA := t.readS a, opB := t.readS b, card := BitVec.ofNat 512 x, key := k.key, pre := cpcPre x k })

/-- What the leader of a `cpc` does. -/
def cpcBody (d a b : Nat) (t : State) (i : Nat) : Eff :=
  let va := (t.readS a).toNat
  if isLocal (t.readS a) then .event t (t.leaderEvent (if va % 64 = 0 then ⟨i, kNotPresent, 2, va⟩ else ⟨i, kMisalign, 0, va⟩) false)
  else t.bulkLoad 64 i (t.readS a) 64 (cpcRest i d a b)
theorem execCpc_eq (sm : Bool) (g : BitVec 3) (d a b : BitVec 6) (s : State) :
    exec (.cpc sm g d a b) s = submission (subMeta sm g a.toNat b.toNat 1) s (cpcBody d.toNat a.toNat b.toNat) := rfl

theorem State.Cached.nextId {s t : State} (h : s.Cached t) : t.nextId = s.nextId := by rw [h.same]
theorem Asking.ownsSlot {s v : State} {m : Meta} (h : Asking s m v) (k : KeySlot) : v.ownsSlot k = s.ownsSlot k := by
  have hc : v.cur = (s.charge m).cur := h.cached.cur
  have hb : v.blocks = (s.charge m).blocks := by rw [h.cached.same]
  have hl := (h.cached.launches s.cur.launch).trans (congrArg (fun x : Launch => { x with rseq := [], wseq := [] }) (charge_launch s m s.cur.launch))
  have hvf : (v.launch s.cur.launch).vf = (s.launch s.cur.launch).vf := (congrArg Launch.vf hl :)
  have hq : (v.launch s.cur.launch).q = (s.launch s.cur.launch).q := (congrArg Launch.q hl :)
  have hf : (v.launch s.cur.launch).first = (s.launch s.cur.launch).first := (congrArg Launch.first hl :)
  simp only [State.ownsSlot, State.vf, State.block, hc, hb, h.cached.vfs, State.charge_cur_launch, State.charge_cur_kind, State.charge_cur_lg,
    State.charge_cur_block, State.charge_blocks, State.charge_vfs, hvf, hq, hf]
theorem Asking.keys {s v : State} {m : Meta} (h : Asking s m v) : (v.part s.curTag).keys = s.myPart.keys := by
  have e := congrArg Part.keys (h.cached.parts s.curTag)
  rw [charge_part] at e
  exact e
theorem Asking.readS {s v : State} {m : Meta} (hs : s.Ready) (h : Asking s m v) (r : Nat) : v.readS r = s.rawS r := by
  rw [State.readS_eq (by rw [h.cached.cur]; simp [hs.written]), State.rawS, h.cached.cur, State.charge_cur_sregs, State.rawS]
theorem Asking.newJob {s v : State} {m : Meta} (h : Asking s m v) (kind d : Nat) : v.newJob kind d = s.newJob kind d := by
  rw [← charge_newJob s m, State.newJob, State.newJob, h.cached.agent, h.cached.cur, h.cached.nextId]

theorem cpcRest_submits {s v : State} {m : Meta} (h : s.Ready) (hv : Asking s m v) {bs : List Byte} {x : Nat} {k : KeySlot} (l d a b : Nat)
    (hx : bytesNat bs = x) (hk : SMap.find s.myPart.keys (x / 2 ^ 164 % 16) = some k) (ho : s.ownsSlot k = true) : cpcRest l d a b v bs =
      .done ((v.raiseFloor s.curTag (cpcPre x k) x k).enqueue (s.cpcJob a b x (cpcPre x k) k (s.newJob 2 d))) := by
  have hk' : SMap.find (v.part s.curTag).keys (field x 167 164) = some k := by rw [hv.keys]; exact hk
  simp only [cpcRest, hx, hv.cached.curTag, charge_curTag, hk', hv.ownsSlot, ho, Bool.not_true, Bool.false_eq_true, if_false, State.submit_eq, State.raiseFloor_newJob,
    State.raiseFloor_readS, hv.newJob, hv.readS h]
  rfl

theorem cpc_submits (sm : Bool) (g : BitVec 3) (d a b : BitVec 6) (s : State) (l : Nat) (place : Nat → Loc) (x : Nat) (k : KeySlot) (h : s.Ready) (ha : s.Alone)
    (hl : s.Leads g l) (hs : s.subs < 255) (hb' : b.toNat + 1 ≤ 64) (h64 : (s.rawS a.toNat).toNat % 64 = 0) (h63 : (s.rawS a.toNat).getLsbD 63 = false)
    (hr : s.ReadsCopy l (s.rawS a.toNat) 64 place) (hx : x = bytesNat (s.bytesAt 64 place)) (hk : SMap.find s.myPart.keys (x / 2 ^ 164 % 16) = some k)
    (ho : s.ownsSlot k = true) : ∃ t u, exec (.cpc sm g d a b) s = .next t ∧ s.Cached u ∧
      s.Returns ((u.raiseFloor s.curTag (cpcPre x k) x k).submitted 2 1 s.cur.core d.toNat (s.cpcJob a.toNat b.toNat x (cpcPre x k) k)) t 4 sm [] := by
  let m := subMeta sm g a.toNat b.toNat 1
  obtain ⟨hp, hd⟩ := hr
  have hloc : isLocal (s.rawS a.toNat) = false := h63
  obtain ⟨v, hv, -, hve⟩ := (Asking.refl s m).bulkLoad ha (al := 64) (by rw [hloc]; exact h64) hp hd (.inr (by rw [charge_part, ha.tlb]))
    (cpcRest l d.toNat a.toNat b.toNat)
  have hrest := cpcRest_submits h hv l d.toNat a.toNat b.toNat hx.symm hk ho
  obtain ⟨u, hu, huk, huc⟩ := State.cached_under hv.cached
  have hj : (u.raiseFloor s.curTag (cpcPre x k) x k).newJob 2 d.toNat = s.newJob 2 d.toNat := by
    rw [State.raiseFloor_newJob, State.newJob, State.newJob, hu.agent, huc, hu.nextId]
  have hb : cpcBody d.toNat a.toNat b.toNat (s.charge m) l =
      .done ((v.raiseFloor s.curTag (cpcPre x k) x k).enqueue (s.cpcJob a.toNat b.toNat x (cpcPre x k) k (s.newJob 2 d.toNat))) := by
    rw [cpcBody, charge_readS h, hloc]
    exact hve.trans (congrArg (Eff.attr l) hrest)
  obtain ⟨t, h1, h2⟩ := submission_submits h (m := m) hl (xWord_ok h hl (by exact hb')) ha.tx rfl hs hb
    ((huk.raiseFloor s.curTag (cpcPre x k) x k).enqueue _) (j := s.newJob 2 d.toNat)
    (by simp only [State.enqueue, State.raiseFloor_cur, State.raiseFloor_nextId, hv.cached.cur, hv.cached.nextId])
  refine ⟨t, u, (execCpc_eq sm g d a b s).trans h1, hu, ?_⟩
  have hcore : s.cur.core = (u.raiseFloor s.curTag (cpcPre x k) x k).cur.core := by rw [State.raiseFloor_cur, huc]
  rw [hcore, submitted_eq _ _ _ (by decide) (by decide), hj]
  exact h2

/-! ### An address with bit 63 -/

/-- Table 05-7: LANE of the cause word. -/
theorem cause_lane {k d l n p c : Nat} (hk : k < 256) (hd : d < 256) (hl : l < 256) :
    (k + d * 256 + l * 65536 + n * 16777216 + p * 8589934592 + c * 17179869184) / 65536 % 256 = l := by
  omega
theorem causeWord_lane (e : FaultEv) : (causeWord e).extractLsb' 16 8 = BitVec.ofNat 8 e.lane := by
  have hlt := (cause_parts (k := e.kind % 256) (d := (if e.kind = 15 then 0 else e.detail) % 256) (l := e.lane % 256) (n := e.count % 512)
    (c := e.code % 64) (Nat.mod_lt _ (by decide)) (Nat.mod_lt _ (by decide)) (Nat.mod_lt _ (by decide)) (Nat.mod_lt _ (by decide)) (Bool.toNat_lt e.spoff)
    (Nat.mod_lt _ (by decide))).1
  refine BitVec.eq_of_toNat_eq ?_
  rw [BitVec.extractLsb'_toNat, BitVec.toNat_ofNat, Nat.shiftRight_eq_div_pow, causeWord, BitVec.toNat_ofNat]
  simp only [Nat.reducePow, Nat.mod_eq_of_lt hlt]
  exact cause_lane (Nat.mod_lt _ (by decide)) (Nat.mod_lt _ (by decide)) (Nat.mod_lt _ (by decide))

/-- R136: an instruction a recipe may not replay, whose effect is an event, enters the handler. -/
theorem issue_event_enters_nonreplay {s : State} (h : s.GroupReady) (hu : s.cur.smode = false) (hv : (s.part s.curTag).svVec ≠ 0) {m : Meta}
    (hi : s.illegal m = none) (hn : m.insn = false ∨ s.cur.txg = false) {body : State → Eff} {e : FaultEv} (hb : body (s.charge m) = .event (s.charge m) e) :
    ∃ r, issue m s body = .next (((s.charge m).mark m.nonreplay).entered r e) := by
  let t := (s.charge m).mark m.nonreplay
  have hv' : (t.part (t.launch t.cur.launch).tag).svVec ≠ 0 := by
    simpa only [t, State.mark, State.part, State.launch, State.curTag, State.charge_parts, State.charge_launches, State.charge_cur_launch] using hv
  obtain ⟨r, -, he⟩ := State.raise_enters (s := t) e (by simp [t, State.mark, h.2]) (by simp [t, State.mark, hu]) hv' (by simp [t, State.mark, h.1.written])
  refine ⟨r, ?_⟩
  rw [issue_open h.1 hi hn, hb]
  exact congrArg _ he

theorem cpc_local (sm : Bool) (g : BitVec 3) (d a b : BitVec 6) (s : State) (l : Nat) (h : s.GroupReady) (ht : s.cur.txg = false) (hl : s.Leads g l)
    (hs : s.subs < 255) (hb : b.toNat + 1 ≤ 64) (hu : s.cur.smode = false) (hv : s.myPart.svVec ≠ 0) (h64 : (s.rawS a.toNat).toNat % 64 = 0)
    (h63 : (s.rawS a.toNat).getLsbD 63 = true) : ∃ t, exec (.cpc sm g d a b) s = .next t ∧ t.cur.pc = evenPc s.myPart.svVec ∧
      t.cur.smode = true ∧ t.cur.epc = s.cur.pc ∧ t.cur.cause.extractLsb' 0 8 = 1 ∧ t.cur.cause.extractLsb' 8 8 = 2 ∧
      t.cur.cause.extractLsb' 16 8 = BitVec.ofNat 8 l ∧ t.cur.sregs = s.cur.sregs := by
  let m := subMeta sm g a.toNat b.toNat 1
  let e := (s.charge m).leaderEvent ⟨l, kNotPresent, 2, (s.rawS a.toNat).toNat⟩ false
  have hbody : ((s.charge m).withLeader m.guard fun i => if 255 ≤ (s.charge m).subs then .wait (s.charge m) .limit
      else cpcBody d.toNat a.toNat b.toNat (s.charge m) i) = .event (s.charge m) e := by
    have hsub : ¬ 255 ≤ (s.charge m).subs := by
      simpa only [State.subs, State.charge_cur_openSet, State.charge_cur_batches, Nat.not_le] using hs
    rw [State.withLeader, leader_of_leads h.1 (g := m.guard) hl]
    simp only [if_neg hsub, cpcBody, charge_readS h.1, isLocal, h63, if_true, h64, e]
  obtain ⟨r, h1⟩ := issue_event_enters_nonreplay h hu hv (m := m) (xWord_ok h.1 hl hb) (.inr ht) (body := fun t => t.withLeader m.guard fun i =>
    if 255 ≤ t.subs then .wait t .limit else cpcBody d.toNat a.toNat b.toNat t i) hbody
  obtain ⟨hpc, hsm, hepc, hc, hsr⟩ := ((s.charge m).mark m.nonreplay).entered_fields r e
  refine ⟨_, (execCpc_eq sm g d a b s).trans h1, ?_, hsm, ?_, ?_, ?_, ?_, ?_⟩
  · rw [hpc]; simp [State.part, State.curTag, State.launch, State.mark, State.myPart]
  · rw [hepc]; simp [e, State.leaderEvent, State.laneEvent]
  · rw [hc, causeWord_kind]; rfl
  · rw [hc, causeWord_detail]; rfl
  · rw [hc, causeWord_lane]; rfl
  · rw [hsr]; simp [State.mark]

/-- Settles O46. -/
theorem decryptions : Obligations.Decryptions := by
  refine ⟨fun sm g d a b s l place x k h ha hl hs hb h64 h63 hr hx hk ho => ?_, fun sm g d a b s l h ht hl hs hb hu hv h64 h63 =>
    cpc_local sm g d a b s l h ht hl hs hb hu hv h64 h63⟩
  obtain ⟨t, u, h1, h2, h3⟩ := cpc_submits sm g d a b s l place x k h ha hl hs hb h64 h63 hr hx hk ho
  have hlt : x < 256 ^ 64 := hx ▸ bytesAt_lt s 64 place
  refine ⟨t, u, h1, h2, fun hbad => ?_, fun hbad hc => ?_, fun hbad hf hl => ?_⟩
  · rwa [cpcPre_bad k hlt hbad] at h3
  · rwa [cpcPre_stale hlt hbad hc] at h3
  · rwa [cpcPre_fresh hlt hbad hf hl] at h3

end Sys2Proof.Machine
end

section
/-!
PROOF. Events of the mesh and of the slices' side of a commit (03 R91, R93; 05 R130, R131; 14 R282; 16 R295, R310, R318; 23 R413): each event under the
conditions its clause names, and what a commit's part leaves of the machine and of the commit itself.
-/

namespace Sys2Proof.Machine

set_option Elab.async false

/-! ### Packets, logs and the ring -/

/-- R130, R131: a packet that may arrive is performed or dropped by the tag check. -/
theorem State.deliver_local {s : State} {p : Packet} (hm : s.mayArrive p = true) (hl : s.locks = []) (ht : p.first.tt ≠ 6) :
    s.deliver p = if s.delivers p.src p.first then (s.without p).applyPacket p
      else (s.without p).dropAt p.src p.cross p.first p.seq p.bytes p.va p.pc 0 0 := by
  have hp : s.packetLocked p = false := by simp [State.packetLocked, hl]
  unfold State.deliver
  rw [hm, hp, if_neg (by decide), if_neg ht]
  rfl

theorem State.arrive_of_find {s : State} {p : Packet} {i : Nat} {b : Bool} (hf : (s.packets.find? fun q => q.id == i && q.isAtomic == b) = some p)
    (hm : s.mayArrive p = true) (hl : s.locks = []) (ht : p.first.tt ≠ 6) :
    s.arrive i b = (if s.delivers p.src p.first then (s.without p).applyPacket p
      else (s.without p).dropAt p.src p.cross p.first p.seq p.bytes p.va p.pc 0 0).closeQuiet := by
  rw [State.arrive, hf, ← State.deliver_local hm hl ht]

theorem dropLogAppend_takes {s : State} {d : Drop} {rest : List Drop} (h : s.drops = d :: rest) : exec .dropLogAppend s = .next { s with
    drops := rest
    module := if (s.module.dropHead - s.module.dropTail).toNat = 65536 then { s.module with dropLost := satInc s.module.dropLost }
      else { s.module with dropLog := SMap.set 0 s.module.dropLog (s.module.dropHead.toNat % 65536) d.rec_, dropHead := s.module.dropHead + 1 } } := by
  change execDropLogAppend s = _
  rw [execDropLogAppend, h]
  rfl

theorem negativeAcknowledgement_raises {s : State} {n : Nack} {rest : List Nack} {p : Part} (h : s.nacks = n :: rest) (hp : SMap.find s.parts n.src.tag = some p) :
    exec .negativeAcknowledgement s = .next { s with nacks := rest, raised := s.raised ++ [(n.src.tag, s.dropNotice n)] } := by
  change execNegativeAcknowledgement s = _
  rw [execNegativeAcknowledgement, h]
  exact congrArg _ (if_neg (by rw [hp]; simp))

/-- R318: a flit of a link that stands. -/
theorem meshFlitReceive_eq {s : State} {n : Nat} (hb : beyondPort (s.arg 0) (s.arg 1) = some n) (ht : s.arg 0 < 648)
    (hk : SMap.get 0 (s.tile (s.arg 0)).flitRetry (s.arg 1) ≠ 17) : exec .meshFlitReceive s = .next (
      let k := if s.arg 2 = 1 then 0 else SMap.get 0 (s.tile (s.arg 0)).flitRetry (s.arg 1) + 1
      let t := s.updTile (s.arg 0) fun x => { x with flitRetry := SMap.set 0 x.flitRetry (s.arg 1) k }
      if k ≠ 17 then t
      else [s.arg 0, n].foldl (fun s' u => if s'.isolated u && !(s'.tile u).degraded then s'.tileLost u (s.ev.args.drop 3) else s')
        (t.updTile n fun x => { x with flitRetry := SMap.set 0 x.flitRetry ((s.arg 1 + 2) % 4) 17 })) := by
  change execMeshFlitReceive s = _
  simp only [execMeshFlitReceive, hb]
  exact congrArg _ (if_neg (by simpa [linkOut] using ⟨ht, decide_eq_false hk⟩))

theorem ringWrite_eq {s : State} {tag : Nat} {r : BitVec 512} {rest : List (Nat × BitVec 512)} {p : Part} (h : s.raised = (tag, r) :: rest)
    (hp : SMap.find s.parts tag = some p) : s.ringWrite =
      match (if p.frSize == 0 || (p.frHead - p.frTail).toNat == 2 ^ p.frSize then none else p.place (p.frBase.toNat + 64 * (p.frHead.toNat % 2 ^ p.frSize))) with
      | some l => (({ s with raised := rest } : State).writeNum l 64 (r ||| BitVec.ofNat 512 (p.rseq.toNat * 2 ^ 352)).toNat).updPart tag
          fun p => { p with frHead := p.frHead + 1, rseq := p.rseq + 1 }
      | none => ({ s with raised := rest } : State).updPart tag fun p =>
          { p with rseq := p.rseq + 1, frLost := if p.frLost = BitVec.allOnes 64 then p.frLost else p.frLost + 1 } := by
  have hq : ({ s with raised := rest } : State).part tag = p := State.part_of_find hp
  rw [State.ringWrite, h]
  simp only [hq] <;> rfl

theorem meshFlitReceive_retries {s : State} {n k : Nat} (hb : beyondPort (s.arg 0) (s.arg 1) = some n) (ht : s.arg 0 < 648)
    (hk : k = SMap.get 0 (s.tile (s.arg 0)).flitRetry (s.arg 1)) :
    (k ≠ 17 → s.arg 2 = 1 → exec .meshFlitReceive s = .next (s.updTile (s.arg 0) fun x => { x with flitRetry := SMap.set 0 x.flitRetry (s.arg 1) 0 })) ∧
    (k < 16 → s.arg 2 ≠ 1 →
      exec .meshFlitReceive s = .next (s.updTile (s.arg 0) fun x => { x with flitRetry := SMap.set 0 x.flitRetry (s.arg 1) (k + 1) })) ∧
    ∀ u, u = (s.updTile (s.arg 0) fun x => { x with flitRetry := SMap.set 0 x.flitRetry (s.arg 1) 17 }).updTile n
        (fun x => { x with flitRetry := SMap.set 0 x.flitRetry ((s.arg 1 + 2) % 4) 17 }) →
      k = 16 → s.arg 2 ≠ 1 → u.isolated (s.arg 0) = false → u.isolated n = false → exec .meshFlitReceive s = .next u := by
  refine ⟨fun h17 h2 => ?_, fun h16 h2 => ?_, fun u hu h16 h2 hi hj => ?_⟩
  · rw [meshFlitReceive_eq hb ht (hk ▸ h17), if_pos h2]
    rfl
  · rw [meshFlitReceive_eq hb ht (by omega), if_neg h2, ← hk]
    exact congrArg _ (if_pos (by omega))
  · rw [meshFlitReceive_eq hb ht (by omega), if_neg h2, ← hk, h16]
    simp only [List.foldl_cons, List.foldl_nil, ← hu, hi, hj, Bool.false_and, Bool.false_eq_true, if_false]
    rfl

theorem faultRingWrite_takes {s : State} {tag : Nat} {r : BitVec 512} {rest : List (Nat × BitVec 512)} {p : Part} (h : s.raised = (tag, r) :: rest)
    (hp : SMap.find s.parts tag = some p) :
    (p.frSize = 0 ∨ (p.frHead - p.frTail).toNat = 2 ^ p.frSize → exec .faultRingWrite s = .next (({ s with raised := rest } : State).setPart tag
      { p with rseq := p.rseq + 1, frLost := if p.frLost = BitVec.allOnes 64 then p.frLost else p.frLost + 1 })) ∧
    ∀ l, p.frSize ≠ 0 → (p.frHead - p.frTail).toNat ≠ 2 ^ p.frSize → p.place (p.frBase.toNat + 64 * (p.frHead.toNat % 2 ^ p.frSize)) = some l →
      exec .faultRingWrite s = .next ((({ s with raised := rest } : State).writeNum l 64 (r ||| BitVec.ofNat 512 (p.rseq.toNat * 2 ^ 352)).toNat).updPart tag
        fun p => { p with frHead := p.frHead + 1, rseq := p.rseq + 1 }) := by
  have he : exec .faultRingWrite s = .next s.ringWrite := rfl
  rw [he, ringWrite_eq h hp]
  refine ⟨fun hf => ?_, fun l h0 hn hl => ?_⟩
  · rw [if_pos (by simpa using hf)]
    exact congrArg _ (State.updPart_of_find (s := { s with raised := rest }) hp _)
  · rw [if_neg (by simpa using ⟨h0, hn⟩), hl]

theorem meshRules : MeshRules := by
  refine ⟨?_, fun s d rest h => dropLogAppend_takes h, fun s n rest p h hp => negativeAcknowledgement_raises h hp,
    fun s n k hb ht hk => meshFlitReceive_retries hb ht hk, fun s tag r rest p h hp => faultRingWrite_takes h hp⟩
  rw [List.forall_mem_cons, List.forall_mem_cons]
  exact ⟨fun s p hf hm hl ht => congrArg _ (State.arrive_of_find hf hm hl ht), fun s p hf hm hl ht => congrArg _ (State.arrive_of_find hf hm hl ht), by simp⟩

/-! ### The slices' side of a commit -/

/-- A commit named in a state, updated. -/
theorem State.CommitIs.of_updCommit {s u : State} {i : Nat} {c : TxCommit} (h : s.commit? i = some c) (hc : u.commits = s.commits) (f : TxCommit → TxCommit)
    (hf : ∀ x, (f x).id = x.id) : (u.updCommit c.id f).CommitIs u c (f c) :=
  ⟨rfl, State.commit_updCommit_id (s := u) (i := i) (by rw [State.commit?, hc]; exact h) f hf⟩

theorem State.lockLines_commits (s : State) (c : TxCommit) (home : Nat) : ∀ ls : List Nat, (s.lockLines c home ls).1.commits = s.commits
  | [] => rfl
  | l :: ls => by
    rw [State.lockLines]
    split
    · rfl
    · exact State.lockLines_commits _ c home ls

theorem TxCommit.answer_todo (cause line : Nat) (c : TxCommit) : (c.answer cause line).todo = c.todo ∧ (c.answer cause line).id = c.id := by
  unfold TxCommit.answer
  split <;> exact ⟨rfl, rfl⟩

/-- R295: a commit with slices yet to answer or to perform goes on. -/
theorem State.settleCommit_waits {s : State} {i : Nat} {c : TxCommit} (h : s.commit? i = some c) (hr : c.ready ≠ []) : s.settleCommit i = s := by
  rw [State.settleCommit, h]
  exact if_pos (by simp [hr])
/-- R295: a commit with nothing left to do is over. -/
theorem State.settleCommit_ends {s : State} {i : Nat} {c : TxCommit} (h : s.commit? i = some c) (hp : c.phase ≠ 0) (hr : c.ready = [])
    (hc : (s.ctx? c.ctx).isSome = true) : s.settleCommit i = s.updCommit i fun c => { c with phase := 3, ok := c.verdict == 0 } := by
  have hn : ¬ (s.ctx? c.ctx).isNone = true := by rw [Option.isNone_iff_eq_none]; intro h; rw [h] at hc; cases hc
  rw [State.settleCommit, h]
  exact (if_neg (by simp [hp, hr])).trans (if_neg hn)

/-- R295: a slice's part in a commit is over: u is what it left, with the commits and contexts of s. -/
theorem State.CommitIs.settled {s u : State} {i home : Nat} {c : TxCommit} {r : List Nat} (h : s.commit? i = some c) (hc : u.commits = s.commits)
    (hx : ∀ i, (u.ctx? i).isSome = (s.ctx? i).isSome) (hp : c.phase ≠ 0) (hr : r = c.ready.filter (· ≠ home)) (hctx : r = [] → (s.ctx? c.ctx).isSome = true) :
    ((u.updCommit c.id fun c => { c with ready := c.ready.filter (· ≠ home) }).settleCommit c.id).CommitIs u c
      (if r = [] then { c with ready := r, phase := 3, ok := c.verdict == 0 } else { c with ready := r }) := by
  obtain ⟨-, h1⟩ := State.CommitIs.of_updCommit h hc (fun c => { c with ready := c.ready.filter (· ≠ home) }) fun _ => rfl
  by_cases he : r = []
  · rw [if_pos he, State.settleCommit_ends h1 hp (hr ▸ he) ((hx _).trans (hctx he)), hr]
    exact ⟨rfl, State.commit_updCommit h1 _ fun _ => rfl⟩
  · rw [if_neg he, State.settleCommit_waits h1 (hr ▸ he), hr]
    exact ⟨rfl, h1⟩

/-- R295: a commit whose prepare a home slice has handled. -/
def TxCommit.handled (c : TxCommit) (home : Nat) : TxCommit := { c with todo := c.todo.filter (· ≠ home), ready := c.ready ++ [home] }
/-- R295: with its lines locked, a prepare is answered READY, or STALE for the lowest line that changed. -/
def State.prepared (s : State) (home : Nat) (c : TxCommit) : TxCommit :=
  match s.staleLine c home with
  | some l => (c.handled home).answer 2 l
  | none => c.handled home
theorem State.prepared_ready {s : State} {home : Nat} {c : TxCommit} (h : s.staleLine c home = none) : s.prepared home c = c.handled home := by
  rw [State.prepared, h]
theorem State.prepared_stale {s : State} {home l : Nat} {c : TxCommit} (h : s.staleLine c home = some l) : s.prepared home c = (c.handled home).answer 2 l := by
  rw [State.prepared, h]
theorem State.prepared_id (s : State) (home : Nat) (c : TxCommit) : (s.prepared home c).id = c.id := by
  unfold State.prepared
  split
  · exact (TxCommit.answer_todo ..).2
  · rfl

theorem txPrepare_answers {s : State} {c : TxCommit} {u : State} (h : s.commit? (s.arg 0) = some c) (hp : c.phase = 0) (ht : s.arg 1 ∈ c.todo)
    (hq : s.prepareTurn c (s.arg 1) = true) :
    (s.lockLines c (s.arg 1) (c.linesAt (s.arg 1)) = (u, none) →
      (u.staleLine c (s.arg 1) = none → ∃ t, exec .txPrepare s = .next t ∧
        t.CommitIs u c { c with todo := c.todo.filter (· ≠ s.arg 1), ready := c.ready ++ [s.arg 1] }) ∧
      ∀ l, u.staleLine c (s.arg 1) = some l → ∃ t, exec .txPrepare s = .next t ∧
        t.CommitIs u c (TxCommit.answer 2 l { c with todo := c.todo.filter (· ≠ s.arg 1), ready := c.ready ++ [s.arg 1] })) ∧
    ∀ l, s.lockLines c (s.arg 1) (c.linesAt (s.arg 1)) = (u, some l) → c.holder = false → ∃ t, exec .txPrepare s = .next t ∧
      t.CommitIs (u.unlock c (s.arg 1)) c { TxCommit.answer 1 l c with todo := (TxCommit.answer 1 l c).todo.filter (· ≠ s.arg 1) } := by
  have hg : ¬ (c.phase ≠ 0 || !c.todo.contains (s.arg 1) || !s.prepareTurn c (s.arg 1)) = true := by simp [hp, ht, hq]
  have hx : exec .txPrepare s = .next (match s.lockLines c (s.arg 1) (c.linesAt (s.arg 1)) with
      | (u, some l) =>
        if c.holder then u
        else (u.unlock c (s.arg 1)).updCommit c.id fun c => { c.answer 1 l with todo := c.todo.filter (· ≠ s.arg 1) }
      | (u, none) => u.updCommit c.id (u.prepared (s.arg 1))) := by
    change execTxPrepare s = _
    rw [execTxPrepare, h]
    exact congrArg _ (if_neg hg)
  have hu := s.lockLines_commits c (s.arg 1) (c.linesAt (s.arg 1))
  rw [hx]
  refine ⟨fun hl => ?_, fun l hl hh => ?_⟩
  · rw [hl] at hu ⊢
    have hf := State.CommitIs.of_updCommit h hu (u.prepared (s.arg 1)) fun x => State.prepared_id ..
    refine ⟨fun hs => ⟨_, rfl, ?_⟩, fun l hs => ⟨_, rfl, ?_⟩⟩
    · rw [State.prepared_ready hs] at hf
      exact hf
    · rw [State.prepared_stale hs] at hf
      exact hf
  · rw [hl] at hu ⊢
    simp only [hh, Bool.false_eq_true, if_false, (TxCommit.answer_todo ..).1]
    exact ⟨_, rfl, State.CommitIs.of_updCommit (u := u.unlock c (s.arg 1)) h hu _ fun x => (TxCommit.answer_todo ..).2⟩

theorem txAnswer_sends {s : State} {c : TxCommit} (h : s.commit? (s.arg 0) = some c) (hp : c.phase = 0) (ht : c.todo = []) (hr : c.ready ≠ []) :
    (c.verdict = 0 → s.preparing c.ctx = false → ∃ t, exec .txAnswer s = .next t ∧ t.CommitIs s c { c with phase := 1 }) ∧
    (c.verdict ≠ 0 → ∃ t, exec .txAnswer s = .next t ∧
      t.CommitIs (s.updCtx c.ctx fun x => x.abortLane c.verdict 0 0 c.lane) c { c with phase := 2 }) := by
  have hx : exec .txAnswer s = .next (
      if c.verdict = 0 && s.preparing c.ctx then s
      else if c.verdict = 0 then (s.updCommit c.id fun c => { c with phase := 1 }).settleCommit c.id
      else ((s.updCommit c.id fun c => { c with phase := 2 }).updCtx c.ctx fun x => x.abortLane c.verdict 0 0 c.lane).settleCommit c.id) := by
    change execTxAnswer s = _
    rw [execTxAnswer, h]
    exact congrArg _ (if_neg (by simp [hp, ht]))
  rw [hx]
  refine ⟨fun hv hpr => ?_, fun hv => ?_⟩
  · obtain ⟨h1, h2⟩ := State.CommitIs.of_updCommit h rfl (fun c => { c with phase := 1 }) fun _ => rfl
    rw [if_neg (by simp [hpr]), if_pos hv, State.settleCommit_waits h2 hr]
    exact ⟨_, rfl, h1, h2⟩
  · obtain ⟨-, h2⟩ := State.CommitIs.of_updCommit h rfl (fun c => { c with phase := 2 }) fun _ => rfl
    rw [if_neg (by simp [hv]), if_neg hv]
    let w := (s.updCommit c.id fun c => { c with phase := 2 }).updCtx c.ctx fun x => x.abortLane c.verdict 0 0 c.lane
    exact ⟨w, congrArg _ (State.settleCommit_waits (s := w) h2 hr), rfl, h2⟩

theorem txCommit_performs {s : State} {c : TxCommit} {r : List Nat} (h : s.commit? (s.arg 0) = some c) (hm : s.arg 1 ∈ c.ready)
    (hr : r = c.ready.filter (· ≠ s.arg 1)) (hctx : r = [] → (s.ctx? c.ctx).isSome = true) (hp : c.phase = 1) :
    ∃ t, exec .txCommit s = .next t ∧
      t.CommitIs ((((s.writeAll (c.cellsAt (s.arg 1))).clearPoison ((c.cellsAt (s.arg 1)).map Prod.fst)).unlock c (s.arg 1)).forwardWrites (c.cellsAt (s.arg 1))) c
      (if r = [] then { c with ready := r, phase := 3, ok := c.verdict == 0 } else { c with ready := r }) := by
  let u := (((s.writeAll (c.cellsAt (s.arg 1))).clearPoison ((c.cellsAt (s.arg 1)).map Prod.fst)).unlock c (s.arg 1)).forwardWrites (c.cellsAt (s.arg 1))
  have hx : exec .txCommit s = .next ((u.updCommit c.id fun c => { c with ready := c.ready.filter (· ≠ s.arg 1) }).settleCommit c.id) := by
    change execTxCommit s = _
    rw [execTxCommit, h]
    exact congrArg _ (if_neg (by simp [hp, hm]))
  obtain ⟨hw1, hw2, hw3, -⟩ := (MemOnly.writeAll s (c.cellsAt (s.arg 1))).ctl
  obtain ⟨hk1, hk2, -⟩ := (s.writeAll (c.cellsAt (s.arg 1))).clearPoison_keepsIds ((c.cellsAt (s.arg 1)).map Prod.fst)
  obtain ⟨hf1, hf2, hf3, -⟩ := (LinkOnly.forwardWrites
    (((s.writeAll (c.cellsAt (s.arg 1))).clearPoison ((c.cellsAt (s.arg 1)).map Prod.fst)).unlock c (s.arg 1)) (c.cellsAt (s.arg 1))).ctl
  refine ⟨_, hx, State.CommitIs.settled h (hf3.trans (hk1.trans hw3)) (fun i => ?_) (by omega) hr hctx⟩
  have ha : u.allCtxs = ((s.writeAll (c.cellsAt (s.arg 1))).clearPoison ((c.cellsAt (s.arg 1)).map Prod.fst)).allCtxs := by
    rw [State.allCtxs, hf1, hf2]; rfl
  have hb : (s.writeAll (c.cellsAt (s.arg 1))).allCtxs = s.allCtxs := by rw [State.allCtxs, hw1, hw2]; rfl
  rw [State.ctx?, ha]
  refine (hk2 i).trans ?_
  rw [State.ctx?, hb]; rfl

theorem txRelease_unlocks {s : State} {c : TxCommit} {r : List Nat} (h : s.commit? (s.arg 0) = some c) (hm : s.arg 1 ∈ c.ready)
    (hr : r = c.ready.filter (· ≠ s.arg 1)) (hctx : r = [] → (s.ctx? c.ctx).isSome = true) (hp : c.phase = 2) :
    ∃ t, exec .txRelease s = .next t ∧ t.CommitIs (s.unlock c (s.arg 1)) c
      (if r = [] then { c with ready := r, phase := 3, ok := c.verdict == 0 } else { c with ready := r }) := by
  have hx : exec .txRelease s = .next (((s.unlock c (s.arg 1)).updCommit c.id fun c => { c with ready := c.ready.filter (· ≠ s.arg 1) }).settleCommit c.id) := by
    change execTxRelease s = _
    rw [execTxRelease, h]
    exact congrArg _ (if_neg (by simp [hp, hm]))
  exact ⟨_, hx, State.CommitIs.settled (u := s.unlock c (s.arg 1)) h rfl (fun _ => rfl) (by omega) hr hctx⟩

theorem commitRules : CommitRules :=
  ⟨fun _ _ _ h hp ht hq => txPrepare_answers h hp ht hq, fun _ _ h hp ht hr => txAnswer_sends h hp ht hr,
    fun _ _ _ h hm hr hctx => ⟨txCommit_performs h hm hr hctx, txRelease_unlocks h hm hr hctx⟩⟩

/-- Settles O48. -/
theorem fabricEvents : Obligations.FabricEvents := ⟨meshRules, commitRules⟩

end Sys2Proof.Machine
end

section
/-!
PROOF. Events of the matrix engine and of the front end (11 R235 to R247; 13 R258 to R262; 06 R143 to R152; 07 R181; 18 R333 to R340): what an event
does once its condition holds, event by event.
-/

namespace Sys2Proof.Machine

/-! ## An operation starts (R235, R238, R241, R246, R247) -/

/-- R238, R241, R246, R247: a control word that is not valid refuses the start. -/
theorem State.mxBegin_badWord {s : State} {o : MxOp} (h : o.badWord = true) (n : Nat) (remote : List Byte) : s.mxBegin o n remote = .error (some cLayout) :=
  if_pos h

section begins
variable {s : State} {o : MxOp} (h : o.badWord = false)
include h

/-- R246: a zeroing or a check reads nothing before it starts. -/
theorem State.mxBegin_inPlace (hk : o.kind ∈ [2, 3]) (n : Nat) (remote : List Byte) :
    s.mxBegin o n remote = .ok (s, { o with begun := true, started := true }) := by
  have hk : o.kind = 2 ∨ o.kind = 3 := by simpa using hk
  rcases hk with hk | hk <;> simp only [State.mxBegin, h, hk, Bool.false_eq_true, if_false]
/-- R238, R247: a load or a save starts once its ranges are known. -/
theorem State.mxBegin_ranged (hk : o.kind ∈ [0, 4]) {r : MxOp} (hr : s.mxRanges o (o.kind == 4) = .ok r) (n : Nat) (remote : List Byte) :
    s.mxBegin o n remote = .ok (s, { r with begun := true, started := true }) := by
  have hk : o.kind = 0 ∨ o.kind = 4 := by simpa using hk
  rcases hk with hk | hk <;> rw [hk] at hr <;> simp only [State.mxBegin, h, hk, hr, Bool.false_eq_true, if_false] <;> rfl
/-- R241: a product first reads its format block. -/
theorem State.mxBegin_format (hk : o.kind = 1) (hb : o.begun = false) {t : State} {r : MxOp} {b n : Nat} {remote : List Byte}
    (hr : s.mxStructure o o.opA remote = .ok (t, r, b)) : s.mxBegin o n remote = .ok (t, { r with fmtBlock := BitVec.ofNat 512 b, begun := true }) := by
  simp only [State.mxBegin, State.mxProduct, h, hk, hb, hr, Bool.false_eq_true, Bool.not_false, if_true, if_false] <;> rfl

end begins

section start
variable {s : State} {o : MxOp} (hn : o.started = false) (hh : (s.core o.core).engine.held = false)
  (ha : s.asyncDone o.ctx o.after = true) (h1 : s.mxFirst o = true)
include hn hh ha h1

/-- R235, R236: what an operation follows has ended. -/
theorem matrixOpStart_due : (o.started || (s.core o.core).engine.held || !s.asyncDone o.ctx o.after || !s.mxFirst o) = false := by
  simp only [hn, hh, ha, h1, Bool.not_true, Bool.or_self]

variable (ho : s.mxop? (s.arg 0) = some o)
include ho

/-- R235: what is decided before the first row or slab is kept with the operation. -/
theorem matrixOpStart_begins {t : State} {r : MxOp} (hb : s.mxBegin o (s.arg 1) s.ev.bytes = .ok (t, r)) :
    exec .matrixOpStart s = .next ((t.mxCharge r).updMx o.id fun x => { r with seq := x.seq }) := by
  change execMatrixOpStart s = _
  simp only [execMatrixOpStart, ho, matrixOpStart_due hn hh ha h1, hb, Bool.false_eq_true, if_false]
/-- R236: an operation whose start is refused has its cause, and ends as any other. -/
theorem matrixOpStart_fails {c : Nat} (hb : s.mxBegin o (s.arg 1) s.ev.bytes = .error (some c)) :
    exec .matrixOpStart s = .next (s.updMx o.id fun x => { x with begun := true, started := true, fail := c }) := by
  change execMatrixOpStart s = _
  simp only [execMatrixOpStart, ho, matrixOpStart_due hn hh ha h1, hb, Bool.false_eq_true, if_false]

end start

/-! ## Slabs and rows are read (R238, R239, R259) -/

section slab
variable {s t : State} {o : MxOp} {bs : List Byte} (ho : s.mxop? (s.arg 0) = some o) (hk : o.kind = 0) (hs : o.started = true) (hp : o.stopped = false)
  (hf : o.fail = 0) (hn : o.next < o.total) (hh : (s.core o.core).engine.held = false)
  (hr : s.mxFill o ((o.slabRuns o.next).flatMap (runBytes 32)) (s.arg 1) s.ev.bytes = .ok (t, bs))
include ho hk hs hp hf hn hh hr

/-- R207, R238: words are read until the slab is whole. -/
theorem exec_mxldSlabWrite : exec .mxldSlabWrite s = .next (if bs.length < 4096 then (t.mxCharge o).updMx o.id fun x => { x with got := bs }
    else ((t.mxCharge o).writeSlab o o.next (partsOf 32 128 bs)).updMx o.id fun x => { x with next := x.next + 1, got := [] }) := by
  have hg : (decide (o.kind ≠ 0) || !o.started || o.stopped || decide (o.fail ≠ 0) || decide (o.total ≤ o.next) ||
      ((s.core o.core).engine.held && o.got.isEmpty)) = false := by
    simp [hk, hs, hp, hf, hn, hh]
  change execMxldSlabWrite s = _
  simp only [execMxldSlabWrite, ho, hg, hr, Bool.false_eq_true, if_false]
/-- R238: a part of a slab is kept. -/
theorem mxldSlabWrite_part (hl : bs.length < 4096) : exec .mxldSlabWrite s = .next ((t.mxCharge o).updMx o.id fun x => { x with got := bs }) :=
  (exec_mxldSlabWrite ho hk hs hp hf hn hh hr).trans (next_if_pos hl _ _)
/-- R238: a whole slab is written. -/
theorem mxldSlabWrite_whole (hl : 4096 ≤ bs.length) : exec .mxldSlabWrite s =
    .next (((t.mxCharge o).writeSlab o o.next (partsOf 32 128 bs)).updMx o.id fun x => { x with next := x.next + 1, got := [] }) :=
  (exec_mxldSlabWrite ho hk hs hp hf hn hh hr).trans (next_if_neg (Nat.not_lt.2 hl) _ _)

end slab

/-- R259: the row buffer takes the next row, or a part of it. -/
theorem aRowRead_of {s t : State} {o : MxOp} {bs : List Byte} (ho : s.mxop? (s.arg 0) = some o) (hk : o.kind = 1) (hs : o.started = true)
    (hp : o.stopped = false) (hf : o.fail = 0) (hh : (s.core o.core).engine.held = false) (hn : o.next + o.rows.length < o.total)
    (ha : o.rows.length < o.ahead)
    (hr : (if o.aq then s.mxPop o else
      s.mxFill o (runBytes o.rowBytes (o.opB1 + BitVec.ofNat 64 ((o.next + o.rows.length) * o.pitch))) (s.arg 1) s.ev.bytes) = .ok (t, bs)) :
    exec .aRowRead s = .next (t.updMx o.id fun x => if bs.length < x.rowBytes then { x with got := bs } else { x with rows := x.rows ++ [bs], got := [] }) := by
  have hg : (decide (o.kind ≠ 1) || !o.started || o.stopped || (s.core o.core).engine.held || decide (o.fail ≠ 0) ||
      decide (o.total ≤ o.next + o.rows.length) || decide (o.ahead ≤ o.rows.length)) = false := by
    simp [hk, hs, hp, hf, hn, hh, ha]
  change execARowRead s = _
  simp only [execARowRead, ho, hg, hr, Bool.false_eq_true, if_false]

/-! ## A row of the product is written (R242, R243, R260) -/

/-- R242: the row depends on the scales of its blocks and of its two halves only. -/
theorem State.productRow_congr {s : State} {o : MxOp} {row : List Byte} {old : Vec} {sa sa' : Nat → W32} {sb sb' : Nat → Nat → W32}
    (ha : ∀ kb < o.kb + 1, sa kb = sa' kb) (hb : ∀ kb < o.kb + 1, ∀ t < 2, sb kb t = sb' kb t) :
    s.productRow o row old sa sb = s.productRow o row old sa' sb' := by
  refine vec_ext fun n hn => ?_
  unfold State.productRow
  rw [laneOf_ofLanes _ hn, laneOf_ofLanes _ hn]
  refine List.foldl_ext _ _ _ fun acc x hx => ?_
  obtain ⟨kb, hkb, rfl⟩ := List.mem_map.1 hx
  rw [ha kb (List.mem_range.1 hkb), hb kb (List.mem_range.1 hkb) (n / 128) (by omega)]
theorem getD_map_range {α : Type} (f : Nat → α) (d : α) {i n : Nat} (h : i < n) : ((List.range n).map f).getD i d = f i := by
  rw [List.getD_eq_getElem?_getD, List.getElem?_map, List.getElem?_range h]; rfl
/-- Pairs laid out one after another. -/
theorem getD_pairs {α : Type} (f : Nat → Nat → α) (d : α) {m i t : Nat} (hi : i < m) (ht : t < 2) :
    ((List.range m).flatMap fun k => [f k 0, f k 1]).getD (2 * i + t) d = f i t := by
  have h : ((List.range m).flatMap fun k => [f k 0, f k 1]) = (List.range (m * 2)).map fun x => f (x / 2) (x % 2) := by
    rw [← flatMap_pieces]
    refine List.flatMap_congr fun k _ => ?_
    simp [List.range_succ, Nat.add_div]
  rw [h, getD_map_range _ _ (by omega)]
  congr 1 <;> omega
/-- R261: a write to a row of a tile touches marks only. -/
theorem State.cleanAcc_rest (s : State) (row : Nat) (m : Mask) : s.cleanAcc row m = { s with poison := (s.cleanAcc row m).poison } := by
  unfold State.cleanAcc; split <;> rfl
/-- R348, R356: a row's counts stand in its core and its tile. -/
theorem State.countRow_rest (s : State) (o : MxOp) (wrote last : Bool) : s.countRow o wrote last =
    { s with cores := (s.countRow o wrote last).cores, tiles := (s.countRow o wrote last).tiles, oracle := (s.countRow o wrote last).oracle } := rfl

/-- R242: the new row of the tile: the oldest row in flight on the tile's row, with the scales of the scale store. -/
def State.nextRow (s : State) (o : MxOp) (row : List Byte) : Vec :=
  s.productRow o row (o.promo.headD (SMap.get 0 s.acc (o.accRow o.next))) (fun kb => (o.scale o.ascl (o.next * 8 + kb)).getD 0)
    fun kb t => (o.scale o.bscl (2048 + kb * 8 + t)).getD 0
/-- The state in which a row has been written: marks and counts aside, the tile's row is new. -/
def State.rowWritten (s : State) (o : MxOp) (last : Bool) (v : Vec) : State :=
  { (s.countRow o true last).cleanAcc (o.accRow o.next) allLanes with acc := SMap.set 0 s.acc (o.accRow o.next) v }
theorem State.rowWritten_frame {s u : State} {o : MxOp} {last : Bool} {v : Vec} (hu : u = s.rowWritten o last v) :
    u.acc = SMap.set 0 s.acc (o.accRow o.next) v ∧ u.vrf = s.vrf ∧ u.planes = s.planes ∧ u.sp = s.sp ∧ u.hbm = s.hbm ∧ u.mxops = s.mxops := by
  rw [State.rowWritten, State.cleanAcc_rest, State.countRow_rest] at hu
  subst hu
  exact ⟨rfl, rfl, rfl, rfl, rfl, rfl⟩

/-- R242, R243: with its scales read, good codes and good parity, the oldest row in flight is written. -/
theorem State.writeRow_of {s : State} {o : MxOp} {row : List Byte} {rest : List (List Byte)} (hr : o.rows = row :: rest)
    (hs : ∀ k, 4096 ≤ k → SMap.find o.scales k = none) (hb : s.rowBad o row = false) (hp : s.accPoison (o.accRow o.next) = 0) :
    s.writeRow o 0 = (s.rowWritten o rest.isEmpty (s.nextRow o row)).updMx o.id
      fun x => { x with next := x.next + 1, rows := rest, promo := x.promo.tail } := by
  have hu (l : List Nat) : (l.findSome? fun k => SMap.find o.scales (4096 + k)) = none := by
    rw [List.findSome?_eq_none_iff]; exact fun k _ => hs _ (by omega)
  unfold State.writeRow
  simp only [hr, hu, hb, hp, Nat.zero_testBit, bne_self_eq_false, Bool.and_false, Bool.or_self, Bool.false_eq_true, if_false]
  exact congrArg (fun v => (s.rowWritten o rest.isEmpty v).updMx o.id fun x => { x with next := x.next + 1, rows := rest, promo := x.promo.tail })
    (State.productRow_congr (fun kb h => congrArg (Option.getD · 0) (getD_map_range _ _ h))
      fun kb h t ht => congrArg (Option.getD · 0) (getD_pairs (fun kb t => o.scale o.bscl (2048 + kb * 8 + t)) _ h ht))

section row
variable {s : State} {o : MxOp} (ho : s.mxop? (s.arg 0) = some o) (hp : o.stopped = false)
include ho hp

/-- R242, R243: the tile has the new row, and registers, planes, scratchpads and HBM stand. -/
theorem mxfmaRowWrite_writes {row : List Byte} {rest : List (List Byte)} {key : Nat} {v : Vec} (h0 : s.arg 1 = 0) (hr : o.rows = row :: rest)
    (hs : ∀ k, 4096 ≤ k → SMap.find o.scales k = none) (hb : s.rowBad o row = false) (hk : key = o.accRow o.next) (ha : s.accPoison key = 0)
    (hv : v = s.nextRow o row) :
    ∃ u, exec .mxfmaRowWrite s = .next u ∧ u.acc = SMap.set 0 s.acc key v ∧ u.vrf = s.vrf ∧ u.planes = s.planes ∧ u.sp = s.sp ∧ u.hbm = s.hbm ∧
      u.mxop? o.id = some { o with next := o.next + 1, rows := rest, promo := o.promo.tail } := by
  subst hk hv
  have hx : exec .mxfmaRowWrite s = .next (s.writeRow o 0) := by
    change execMxfmaRowWrite s = _
    simp only [execMxfmaRowWrite, ho, hp, h0, Nat.zero_testBit, Bool.false_eq_true, if_false]
  obtain ⟨u, hu⟩ : ∃ u, u = s.rowWritten o rest.isEmpty (s.nextRow o row) := ⟨_, rfl⟩
  obtain ⟨hacc, hvrf, hplanes, hsp, hhbm, hops⟩ := State.rowWritten_frame hu
  rw [State.writeRow_of hr hs hb ha, ← hu] at hx
  refine ⟨_, hx, hacc, hvrf, hplanes, hsp, hhbm, State.mxop_updMx ?_ _ fun _ => rfl⟩
  rw [State.mxop?, hops]; exact State.mxop_self ho
/-- R260: a promotion reads the tile's row and changes nothing else. -/
theorem mxfmaRowWrite_promotes (h4 : s.arg 1 = 4) (ha : s.accPoison (o.accRow (o.next + o.promo.length)) = 0) (hl : o.promo.length < o.rows.length) :
    ∃ u, exec .mxfmaRowWrite s = .next u ∧ u = { s with mxops := u.mxops } ∧
      u.mxop? o.id = some { o with promo := o.promo ++ [SMap.get 0 s.acc (o.accRow (o.next + o.promo.length))] } := by
  have hx : exec .mxfmaRowWrite s = .next (s.promote o) := by
    change execMxfmaRowWrite s = _
    simp only [execMxfmaRowWrite, ho, hp, h4, ha, show Nat.testBit 4 2 = true from rfl, bne_self_eq_false, Bool.false_eq_true, if_false, if_true]
  refine ⟨_, hx, rfl, ?_⟩
  rw [State.promote, State.mxop_updMx (State.mxop_self ho) _ fun x => by split <;> rfl, if_pos hl]

end row

/-! ## An operation ends (R236, R246, R247) -/

section ends
variable {s : State} {o : MxOp} (ho : s.mxop? (s.arg 0) = some o) (hs : o.started = true) (hp : o.stopped = false)
include ho hs hp

/-- R236: a failed operation ends, and so does a load or a product with nothing left to do. -/
theorem matrixOpEnd_over (h : o.fail ≠ 0 ∨ o.kind ∈ [0, 1] ∧ o.next = o.total) : exec .matrixOpEnd s = .next (s.endMx o) := by
  change execMatrixOpEnd s = _
  by_cases hf : o.fail = 0
  · obtain ⟨hk, hn⟩ := h.resolve_left (not_not.2 hf)
    have hk : o.kind = 0 ∨ o.kind = 1 := by simpa using hk
    rcases hk with hk | hk <;>
      simp only [execMatrixOpEnd, ho, hs, hp, hf, hk, hn, ne_eq, not_true_eq_false, Bool.not_true, Bool.or_self, Bool.false_eq_true, if_false, if_true]
  · simp only [execMatrixOpEnd, ho, hs, hp, hf, ne_eq, not_false_eq_true, Bool.not_true, Bool.or_self, Bool.false_eq_true, if_false, if_true]

variable (hf : o.fail = 0)
include hf

/-- R246: tiles are zeroed at the end. -/
theorem matrixOpEnd_zeroing (hk : o.kind = 2) : exec .matrixOpEnd s = .next ((s.mxZero o).endMx o) := by
  change execMatrixOpEnd s = _
  simp only [execMatrixOpEnd, ho, hs, hp, hf, hk, ne_eq, not_true_eq_false, Bool.not_true, Bool.or_self, Bool.false_eq_true, if_false]
/-- R246: a check fails when some K-group does. -/
theorem matrixOpEnd_check (hk : o.kind = 3) (hh : (s.core o.core).engine.held = false) {n : Nat} (hn : n = s.mxCheck o ||| s.arg 1 % 2 ^ o.groups) :
    exec .matrixOpEnd s = .next (s.endMx { o with bitmap := n, fail := if n = 0 then 0 else 12 }) := by
  subst hn
  change execMatrixOpEnd s = _
  simp only [execMatrixOpEnd, ho, hs, hp, hf, hk, hh, ne_eq, not_true_eq_false, Bool.not_true, Bool.or_self, Bool.false_eq_true, if_false] <;> rfl
/-- R247: one row of a save or a restore moves; after the last one the operation finishes. -/
theorem matrixOpEnd_moves {t : State} {x : MxOp} (hk : o.kind ∈ [4, 5]) (h1 : s.arg 1 = 1) (h3 : s.arg 3 = 0)
    (ht : t = (s.mxCharge o).mxMove o.id (s.arg 2 == 1) 0 s.ev.bytes) (hx : t.mxop? o.id = some x) (hf' : x.fail = 0) :
    exec .matrixOpEnd s = .next (if x.next = 256 && !(t.core x.core).engine.held then t.mxFinish x else t) := by
  have hi : iterate (fun i s' => s'.mxMove o.id (s.arg 2 == 1 && i == 0) 0 (s.ev.bytes.drop (1024 * i))) (min 1 256) 0 (s.mxCharge o) = t := by
    rw [ht]
    change (s.mxCharge o).mxMove o.id (s.arg 2 == 1 && true) 0 s.ev.bytes = _
    rw [Bool.and_true]
  have hk : o.kind = 4 ∨ o.kind = 5 := by simpa using hk
  change execMatrixOpEnd s = _
  rcases hk with hk | hk <;>
    simp only [execMatrixOpEnd, ho, hs, hp, hf, hk, h1, h3, hi, hx, hf', ne_eq, not_true_eq_false, one_ne_zero, Bool.not_true, Bool.or_self, Bool.false_eq_true, if_false]

end ends

/-! ## The engine stops (R262, R264) -/

section stop
variable {s : State} {c : Nat} {e : Engine} (hc : c = s.arg 0) (he : e = (s.core c).engine) (hh : e.held = true) (hs : e.stopped = false)
include hc he hh hs

/-- R262: with no operation under way the engine has stopped. -/
theorem matrixStopComplete_idle (hl : s.mxops.filter (fun o => o.core == c && o.begun && !o.stopped && o.fail == 0) = []) :
    exec .matrixStopComplete s = .next ((s.updCore c fun k => { k with engine := { k.engine with stopped := true } }).settleBlock e.holder) := by
  subst hc he
  change execMatrixStopComplete s = _
  simp only [execMatrixStopComplete, hl, hh, hs, List.any_nil, List.foldl_nil, Bool.not_true, Bool.or_self, Bool.false_eq_true, if_false]
/-- R262: the operation under way leaves its progress word. -/
theorem matrixStopComplete_underWay {o : MxOp} {u : State} (hl : s.mxops.filter (fun o => o.core == c && o.begun && !o.stopped && o.fail == 0) = [o])
    (hf : o.finishing = false)
    (hu : u = (s.updMx o.id MxOp.atStop).updCore c fun k => { k with engine := k.engine.setProgress o.half o.inL (o.atStop.progressWord (s.mxBatchOf o)) }) :
    exec .matrixStopComplete s = .next ((u.updCore c fun k => { k with engine := { k.engine with stopped := true } }).settleBlock e.holder) := by
  subst hc he hu
  change execMatrixStopComplete s = _
  simp only [execMatrixStopComplete, hl, hh, hs, hf, List.any_cons, List.any_nil, List.foldl_cons, List.foldl_nil, Bool.not_true, Bool.or_self,
    Bool.false_eq_true, if_false]

end stop

/-- R233 to R264. -/
theorem matrixRules : MatrixRules := by
  unfold MatrixRules
  refine ⟨fun s o ho hn hh ha h1 => ?_, fun s o t bs ho hk hs hp hf hn hh hr => ?_, fun s o t bs ho hk hs hp hf hh hn ha hr => ?_,
    fun s o ho hp => ?_, fun s o ho hs hp => ?_, fun s c e hc he hh hs => ?_⟩
  · refine ⟨fun hb => ?_, fun hb => ⟨fun hk => ?_, fun r hk hr => ?_, fun t r b hk hg hr => ?_⟩⟩
    · exact matrixOpStart_fails hn hh ha h1 ho (State.mxBegin_badWord hb _ _)
    · exact matrixOpStart_begins hn hh ha h1 ho (State.mxBegin_inPlace hb hk _ _)
    · exact matrixOpStart_begins hn hh ha h1 ho (State.mxBegin_ranged hb hk hr _ _)
    · exact matrixOpStart_begins hn hh ha h1 ho (State.mxBegin_format hb hk hg hr)
  · exact ⟨mxldSlabWrite_part ho hk hs hp hf hn hh hr, mxldSlabWrite_whole ho hk hs hp hf hn hh hr⟩
  · exact aRowRead_of ho hk hs hp hf hh hn ha hr
  · refine ⟨fun row rest key v h0 hr hs hb hk ha hv => ?_, mxfmaRowWrite_promotes ho hp⟩
    exact mxfmaRowWrite_writes ho hp h0 hr hs hb hk ha (by subst hk; exact hv)
  · refine ⟨matrixOpEnd_over ho hs hp, fun hf => ⟨matrixOpEnd_zeroing ho hs hp hf, fun hk hh n hn => matrixOpEnd_check ho hs hp hf hk hh hn,
      fun t x hk h1 h3 ht hx hf' => ?_⟩⟩
    have hm := matrixOpEnd_moves ho hs hp hf hk h1 h3 ht hx hf'
    exact ⟨fun hn => hm.trans (next_if_neg (by simp [hn]) _ _), fun hn hh => hm.trans (next_if_pos (by simp [hn, hh]) _ _)⟩
  · exact ⟨matrixStopComplete_idle hc he hh hs, fun o u hl hf hu => matrixStopComplete_underWay hc he hh hs hl hf hu⟩

/-! ## The LAUNCH packet (R143 to R147, R333, R337, R339) -/

section launch
variable {s u : State} {p : Nat} (hv : s.Serves (s.arg 0) (s.arg 1) 1 p) (hu : u = s.serving (s.arg 0) (s.arg 1) p)
  (hg : ((u.vf (s.arg 0)).queue (s.arg 1)).gated = false) (hf : (u.vf (s.arg 0)).funded = true) (hr : (u.part (u.vf (s.arg 0)).tag).reshaping = false)
  (hw : u.frontWaits (s.arg 0) (s.arg 1) (launchTables p) = none)
include hv hu hg hf hr hw

/-- R143: the first check that fails gives the code. -/
theorem launch_rejected {c : Nat} (hc : u.checkLaunch (s.arg 0) (s.arg 1) p = .error c) :
    exec .launch s = .next (u.complete (s.arg 0) (s.arg 1) c 1 0) := by
  change execLaunch s = _
  simp only [execLaunch, State.servePacket_of hv, ← hu, hg, hf, hr, hw, hc, Bool.not_true, Bool.false_eq_true, if_false]
/-- R339: a queue that goes first is waited for. -/
theorem launch_outranked {l : Launch} {core : Nat} (hc : u.checkLaunch (s.arg 0) (s.arg 1) p = .ok (l, core))
    (ho : u.outranked (s.arg 0) (s.arg 1) = true) : exec .launch s = .next u := by
  change execLaunch s = _
  simp only [execLaunch, State.servePacket_of hv, ← hu, hg, hf, hr, hw, hc, ho, Bool.not_true, Bool.false_eq_true, if_false, if_true]
/-- R143, R146: the launch stands and its first block is accepted. -/
theorem launch_accepted {l : Launch} {core : Nat} (hc : u.checkLaunch (s.arg 0) (s.arg 1) p = .ok (l, core))
    (ho : u.outranked (s.arg 0) (s.arg 1) = false) :
    exec .launch s = .next ((({ u with nextId := u.nextId + 1, launches := SMap.put u.launches u.nextId l } : State).updQueue (s.arg 0) (s.arg 1) fun k =>
      { k with launch := u.nextId }).acceptBlock
        { launch := u.nextId, groups := l.groups, vregs := l.vregs, spsize := l.spbytes, core := core, entry := l.kernel, args := l.args }) := by
  change execLaunch s = _
  simp only [execLaunch, State.servePacket_of hv, ← hu, hg, hf, hr, hw, hc, ho, Bool.not_true, Bool.false_eq_true, if_false]

end launch

/-! ## Spawn records (R148, R181) -/

/-- R181: a record whose boxes are good accepts or fails its blocks, writes the list and ends with its status word. -/
theorem spawnAccept_of {s : State} {j : Job} {r : Nat} (hj : s.job? (s.arg 0) = some j) (hk : j.kind = 8)
    (hp : (s.part (s.launch j.launch).tag).reshaping = false) (ha : s.asyncDone j.ctx j.after = true) (hr : s.engStruct j j.opA 32 32 s.ev.bytes = .ok r)
    (hx : field r 143 128 ≤ field r 191 176) (hy : field r 159 144 ≤ field r 207 192) (hz : field r 175 160 ≤ field r 223 208)
    (hn : (field r 191 176 - field r 143 128 + 1) * (field r 207 192 - field r 159 144 + 1) * (field r 223 208 - field r 175 160 + 1) ≤ 2 ^ 24)
    {a : State × Nat × List (Nat × Nat)} {u : State × Bool} (hb : a = s.spawnBox j r) (hl : (a.1.structPackets j j.opA 32 32).failList j a.2.2 = some u) :
    exec .spawnAccept s = .next (u.1.endJob j (spawnStatus a.2.1 a.2.2.length (a.2.2.headD (0, 0)).2 u.2)) := by
  have hg : (decide (j.kind ≠ 8) || (s.part (s.launch j.launch).tag).reshaping || !s.asyncDone j.ctx j.after) = false := by simp [hk, hp, ha]
  have hc : (decide (field r 191 176 < field r 143 128) || decide (field r 207 192 < field r 159 144) || decide (field r 223 208 < field r 175 160)) = false := by
    simp [hx, hy, hz]
  change execSpawnAccept s = _
  simp only [execSpawnAccept, hj, hg, hr, hc, if_neg (Nat.not_lt.2 hn), ← hb, hl, Bool.false_eq_true, if_false]
  cases a.2.2 <;> rfl
/-- R148: a box of one block that nothing refuses accepts that block. -/
theorem State.spawnBox_one {s : State} {j : Job} {r x y z core : Nat} {l : Launch} (hl : l = s.launch j.launch) (hx : x = field r 143 128)
    (hy : y = field r 159 144) (hz : z = field r 175 160) (hx1 : field r 191 176 = x) (hy1 : field r 207 192 = y) (hz1 : field r 223 208 = z)
    (hb : field r 255 230 = 0) (hb0 : r.testBit 0 = false) (hc : s.spawnCause l (field r 226 224 + 1) ((field r 229 227 + 1) * 8) x y z = 0)
    (hp : s.coreFor l.tag l.places (linearIndex l x y z) = some core) :
    s.spawnBox j r = (s.acceptBlock { launch := j.launch, b := linearIndex l x y z, bx := x, bY := y, bz := z, groups := field r 226 224 + 1
                                      vregs := (field r 229 227 + 1) * 8, spsize := l.spbytes, core := core, entry := BitVec.ofNat 64 (field r 63 0)
                                      args := BitVec.ofNat 64 (field r 127 64) }, 1, []) := by
  subst hl
  simp only [State.spawnBox, ← hx, ← hy, ← hz, hx1, hy1, hz1, hb, hb0, Nat.sub_self, Nat.zero_add, Nat.mul_one, List.range_one, List.foldl_cons,
    List.foldl_nil, Nat.zero_mod, Nat.zero_div, Nat.add_zero, bne_self_eq_false, Bool.or_self, Bool.false_eq_true, if_false, hc, hp, ne_eq,
    not_true_eq_false, Option.getD_some]

/-! ## Residency (R151, R152, R229, R340) -/

section resident
variable {s : State} (hf : s.coreFailed (s.arg 0) = false)
include hf

/-- R152, R340: a stopped block whose place still names its core re-enters there. -/
theorem blockResident_reenters {id : Nat} {t : State} (hn : s.nextStopped (s.arg 0) = some id)
    (hc : s.coreFor (s.launch (s.block id).launch).tag (s.launch (s.block id).launch).places (s.block id).b = some (s.block id).core)
    (ht : s.reenterBlock id = some t) : exec .blockResident s = .next t := by
  change execBlockResident s = _
  simp only [execBlockResident, hf, hn, hc, ht, Bool.false_eq_true, if_false, if_true, Option.getD_some]
/-- R151, R229: with no stopped block, the first pending one with a seat, and with a free engine where it needs one, enters. -/
theorem blockResident_enters {id : Nat} {seat : Seat} (hn : s.nextStopped (s.arg 0) = none)
    (hp : (s.core (s.arg 0)).pending.find? s.blockRuns = some id)
    (he : (s.launch (s.block id).launch).seq = 0 ∨ (s.core (s.arg 0)).engine.holder = 0 ∧ (s.core (s.arg 0)).engine.retained = false)
    (hs : s.seatFresh (s.arg 0) (s.block id).groups (s.block id).vregs (s.block id).spsize = some seat) :
    exec .blockResident s = .next (s.enterBlock id seat) := by
  have hg : (decide ((s.launch (s.block id).launch).seq ≠ 0) &&
      (decide ((s.core (s.arg 0)).engine.holder ≠ 0) || (s.core (s.arg 0)).engine.retained)) = false := by
    rcases he with h | ⟨h, h'⟩
    · simp [h]
    · simp [h, h']
  change execBlockResident s = _
  simp only [execBlockResident, hf, hn, hp, hg, hs, Bool.false_eq_true, if_false]

end resident

/-- R143 to R152, R181. -/
theorem launchRules : LaunchRules := by
  unfold LaunchRules
  refine ⟨?_, ?_, ?_⟩
  · rintro s _ _ p u rfl rfl hv hu hg hf hr hw
    exact ⟨fun c hc => launch_rejected hv hu hg hf hr hw hc, fun l core hc =>
      ⟨launch_outranked hv hu hg hf hr hw hc, launch_accepted hv hu hg hf hr hw hc⟩⟩
  · rintro s j r hj hk hp ha hr hx hy hz hn a u hb hl
    refine ⟨spawnAccept_of hj hk hp ha hr hx hy hz hn hb hl, ?_⟩
    rintro l x y z core hl' hx' hy' hz' hx1 hy1 hz1 h0 h0' hc hp'
    exact hb.trans (State.spawnBox_one hl' hx' hy' hz' hx1 hy1 hz1 h0 h0' hc hp')
  · rintro s _ rfl hf
    exact ⟨fun id b t hn hb hc ht => blockResident_reenters hf hn (hb ▸ hc) ht,
      fun id b seat hn hp hb he hs => blockResident_enters hf hn hp (hb ▸ he) (hb ▸ hs)⟩

/-- Settles O50: the events of the matrix engine, and those of the front end. -/
theorem matrixLaunchEvents : Obligations.MatrixLaunchEvents := ⟨matrixRules, launchRules⟩

end Sys2Proof.Machine
end

section
/-!
PROOF. How an issue ends with one result or with a park, and the batches of submissions (07 R158, R163, R164).
-/

namespace Sys2Proof.Machine

/-! ### An issue that returns one result, or parks -/

theorem State.Keeps.sameBytes {s t : State} (h : s.Keeps t) : s.SameBytes t := by
  have hb := (State.keeps_iff.1 h).1
  exact State.sameBytes_of (congrArg State.grans hb :) (congrArg State.hbm hb :) (congrArg State.sp hb :) (congrArg State.acc hb :)
    (congrArg State.planes hb :) (congrArg State.host hb :)

/-- R16: the effect u of an instruction with one result, which is in flight; a recipe's mark follows the instruction (R303). -/
theorem issue_result {m : Meta} {s u w : State} (h : s.Ready) (hi : s.illegal m = none) (hn : m.insn = false ∨ s.cur.txg = false) {body : State → Eff}
    {x : DVal} (hb : body (s.charge m) = .done (w.defer [x] 0 0 true)) (hw : u.Keeps w) (hc : w.cur = (s.charge m).cur) (hx : x.plain = true := by rfl) :
    ∃ t, issue m s body = .next t ∧ s.Returns (u.mark m.nonreplay) t m.len m.settle [x] :=
  issue_returns (w := w) h hi hn (by rw [hb, if_neg (by simp)]) (by simpa using hx) (hw.mark _) (by simp [hc]) (by simp [hc]) (by simp [hc, h.word])
    (by simp [hc, h.recipe]) (by simp [hc, h.written]) (by simp [hc, h.poisonV]) (by simp [hc, h.poisonS])

/-- The same of an instruction that a recipe may replay. -/
theorem issue_result_quiet {m : Meta} {s u w : State} (h : s.Ready) (hi : s.illegal m = none) (hn : m.insn = false ∨ s.cur.txg = false) {body : State → Eff}
    {x : DVal} (hb : body (s.charge m) = .done (w.defer [x] 0 0 true)) (hw : u.Keeps w) (hc : w.cur = (s.charge m).cur) (hr : m.nonreplay = false := by rfl)
    (hx : x.plain = true := by rfl) : ∃ t, issue m s body = .next t ∧ s.Returns u t m.len m.settle [x] := by
  have e := issue_result h hi hn hb hw hc hx
  rwa [hr, State.mark_false] at e

/-- R341: an instruction that parks has no effect but what its check left. -/
theorem issue_waits {m : Meta} {s u w : State} (h : s.Ready) (hi : s.illegal m = none) (hn : m.insn = false ∨ s.cur.txg = false) {body : State → Eff}
    {p : Park} (hb : body (s.charge m) = .wait w p) (hw : u.Keeps w) (hu : u.cur = s.cur) (hc : w.cur = (s.charge m).cur) :
    ∃ t, issue m s body = .next t ∧ u.Waits t p := by
  refine ⟨(Eff.wait w p).close m, by rw [issue_open h hi hn, hb], rfl, rfl, ⟨?_, ?_⟩, ?_, ?_⟩
  · simp [Eff.close, hc, hu]
  · simp [Eff.close, hc, hu]
  · exact hw.sameBytes
  · have hid : w.nextId = u.nextId := (congrArg State.nextId (State.keeps_iff.1 hw).1 :)
    have hps : w.cur.parkSeq = u.cur.parkSeq := by rw [hc, hu, State.charge_cur_parkSeq]
    refine hw.trans ⟨?_, fun _ => rfl, fun _ => rfl⟩
    simp only [Eff.close, Ctx.aside, ← hid, ← hps]

/-- R71, R13: a word of a uniform form with neither vector registers nor a guard. -/
theorem uniWord_ok {m : Meta} {s : State} (h : s.Ready) (hv : m.vEnd = 0 := by rfl) (hs : m.sEnd = 0 := by rfl) (hq : m.seq = true := by rfl)
    (hg : m.pg = 0 := by rfl) (hp : m.priv = false := by rfl) (he : m.extra = none := by rfl) (hu : m.unused = false := by rfl) : s.illegal m = none :=
  illegal_uniform h hv (by rw [hs]; exact Nat.zero_le _) hq (fun _ => hg) (.inl hp) he hu

/-- An acquire under the counters of an issue. -/
theorem charge_acquire (s : State) (m : Meta) : (s.withL1 []).Keeps ((s.charge m).acquire 1) :=
  (State.charge_keeps s m).withL1 (State.charge_cur_core s m) []

/-! ### Batches -/

theorem field_low (n : Nat) : field n 31 0 = n % 2 ^ 32 := by simp [field]
theorem after32_iff (x y : Nat) : after32 x y = true ↔ After x y := by simp [after32, After]
theorem owes_iff (c : Ctx) (n : Nat) : c.owes n = true ↔ ∃ b ∈ c.batches, ¬After b.num n := by
  simp only [Ctx.owes, List.any_eq_true, Bool.not_eq_true', ← after32_iff, Bool.not_eq_true]
theorem owes_eq_false (c : Ctx) (n : Nat) : c.owes n = false ↔ ∀ b ∈ c.batches, After b.num n := by
  rw [← Bool.not_eq_true, owes_iff]
  push Not
  rfl
theorem charge_owes (s : State) (m : Meta) (n : Nat) : (s.charge m).cur.owes n = s.cur.owes n := by simp only [Ctx.owes, State.charge_cur_batches]

/-- R163: the batch a wait of register value v is for. -/
def waitFor (v : W64) (newest : W32) : Nat :=
  if after32 (field v.toNat 31 0) newest.toNat then newest.toNat else field v.toNat 31 0
theorem named_iff {v : W64} {newest : W32} {n : Nat} : Named v newest n ↔ n = waitFor v newest := by
  unfold Named waitFor
  rw [field_low]
  by_cases ha : After (v.toNat % 2 ^ 32) newest.toNat
  · rw [if_pos ((after32_iff _ _).2 ha)]
    exact ⟨fun h => h.elim (fun ⟨hn, hna⟩ => absurd (hn ▸ ha) hna) And.left, fun h => .inr ⟨h, h ▸ ha⟩⟩
  · rw [if_neg fun hc => ha ((after32_iff _ _).1 hc)]
    exact ⟨fun h => h.elim And.left fun ⟨hn, hc⟩ => absurd (hn ▸ hc) ha, fun h => .inl ⟨h, h ▸ ha⟩⟩

/-- A closed set under an issue: a batch keeps its set unless every submission of it has ended. -/
theorem State.closeOpen_closed {s : State} (h : s.cur.openSet ≠ []) : s.closeOpen = s.closed := by
  have hall : (s.cur.openSet.filter fun j => s.jobs.any fun x => x.id == j).isEmpty = s.cur.openSet.all fun j => s.jobs.all fun x => x.id != j := by
    rw [Bool.eq_iff_iff, List.isEmpty_iff, List.filter_eq_nil_iff]
    simp only [List.any_eq_true, beq_iff_eq, List.all_eq_true, bne_iff_ne]
    push Not
    rfl
  unfold State.closeOpen State.closed
  rw [if_neg (by simpa using h)]
  simp only [hall, State.updCur]
theorem State.Keeps.closed {s t : State} (h : s.Keeps t) : s.closed.Keeps t.closed := h.map _ State.closed (fun _ => rfl) fun _ => ⟨rfl, rfl⟩

theorem State.writeS_quiet {s : State} (hd : s.cur.deferred = []) (hp : s.cur.poisonS = 0) (d : Nat) (v : W64) : s.writeS d v = s.take (.uni d v false) := by
  have hps : s.cur.poisonS &&& ~~~BitVec.twoPow 64 d = s.cur.poisonS := by rw [hp]; exact BitVec.zero_and
  have hdf : s.cur.deferred.map (contestS d) = s.cur.deferred := by rw [hd, List.map_nil]
  simp only [State.writeS, State.take, hps, hdf]

/-- R163: an empty set closes to the newest batch. -/
theorem bclose_empty (sm : Bool) (d : BitVec 6) (s : State) (h : s.Ready) (ho : s.cur.openSet = []) :
    ∃ t, exec (.bclose sm d) s = .next t ∧ s.WroteS t d.toNat 4 (s.cur.batchN.setWidth 64) := by
  refine issue_wroteS (m := { settle := sm, seq := true }) h (uniWord_ok h) rfl rfl ?_
  simp only [State.closeOpen_none (s := s.charge _) ((State.charge_cur_openSet ..).trans ho), State.charge_cur_batchN]

/-- R163: another set becomes the next batch. -/
theorem bclose_closes (sm : Bool) (d : BitVec 6) (s : State) (h : s.Ready) (ho : s.cur.openSet ≠ []) : ∃ t, exec (.bclose sm d) s = .next t ∧
    s.Returns (s.closed.take (.uni d.toNat ((s.cur.batchN + 1).setWidth 64) false)) t 4 sm [] := by
  let m : Meta := { settle := sm, seq := true }
  have hw : (s.charge m).closeOpen.writeS d.toNat ((s.charge m).closeOpen.cur.batchN.setWidth 64) =
      (s.charge m).closed.take (.uni d.toNat ((s.cur.batchN + 1).setWidth 64) false) := by
    rw [State.closeOpen_closed (by simpa using ho), State.writeS_quiet (by simp [State.closed, h.written]) (by simp [State.closed, h.poisonS])]
    simp only [State.closed, State.charge_cur_batchN]
  exact issue_effect (m := m) h (uniWord_ok h) (.inl rfl) (body := fun t => .done (t.closeOpen.writeS d.toNat (t.closeOpen.cur.batchN.setWidth 64)))
    (congrArg Eff.done hw) ((State.charge_keeps s m).closed.take _) rfl (by simp [State.take, State.closed]) (by simp [State.take, State.closed])
    (by simp [State.take, State.closed, h.word]) (by simp [State.take, State.closed, h.recipe]) (by simp [State.take, State.closed, h.written])
    (by simp [State.take, State.closed, h.poisonV]) (by simp [State.take, State.closed, h.poisonS])

def batchMeta (sm : Bool) (a : Nat) : Meta := { settle := sm, seq := true, ss := [a] }
/-- What a `bwait` does once it issues. -/
def bwaitBody (d a : Nat) (t : State) : Eff :=
  if t.cur.owes (waitFor (t.readS a) t.cur.batchN) then .wait t (.batch (waitFor (t.readS a) t.cur.batchN))
  else .done ((t.acquire 1).deferS d (BitVec.ofNat 64 t.cur.batchDone))
theorem execBwait_eq (sm : Bool) (d a : BitVec 6) (s : State) :
    exec (.bwait sm d a) s = issue (batchMeta sm a.toNat) s (bwaitBody d.toNat a.toNat) := rfl
theorem charge_bwaitBody {s : State} (h : s.Ready) (m : Meta) (d a : Nat) : bwaitBody d a (s.charge m) =
    if s.cur.owes (waitFor (s.rawS a) s.cur.batchN) then .wait (s.charge m) (.batch (waitFor (s.rawS a) s.cur.batchN))
    else .done (((s.charge m).acquire 1).deferS d (BitVec.ofNat 64 s.cur.batchDone)) := by
  simp only [bwaitBody, charge_readS h, State.charge_cur_batchN, charge_owes, Ctx.batchDone, State.charge_cur_batches]

theorem batchDone_eq (c : Ctx) : BitVec.ofNat 64 c.batchDone = match c.batches with
    | [] => c.batchN.setWidth 64
    | b :: _ => BitVec.ofNat 64 ((b.num + 2 ^ 32 - 1) % 2 ^ 32) := by
  unfold Ctx.batchDone
  cases c.batches with
  | nil => exact BitVec.eq_of_toNat_eq (by simp)
  | cons b l => rfl

theorem bwait_completes (sm : Bool) (d a : BitVec 6) (s : State) (n : Nat) (h : s.Ready) (hn : Named (s.rawS a.toNat) s.cur.batchN n)
    (hb : ∀ b ∈ s.cur.batches, After b.num n) : ∃ t, exec (.bwait sm d a) s = .next t ∧ s.Returns (s.withL1 []) t 4 sm [.uni d.toNat (match s.cur.batches with
      | [] => s.cur.batchN.setWidth 64
      | b :: _ => BitVec.ofNat 64 ((b.num + 2 ^ 32 - 1) % 2 ^ 32)) false] := by
  rw [named_iff] at hn
  have hb' : bwaitBody d.toNat a.toNat (s.charge (batchMeta sm a.toNat)) =
      .done (((s.charge (batchMeta sm a.toNat)).acquire 1).deferS d.toNat (BitVec.ofNat 64 s.cur.batchDone)) := by
    rw [charge_bwaitBody h, ← hn, (owes_eq_false s.cur n).2 hb, if_neg (by decide)]
  rw [execBwait_eq, ← batchDone_eq]
  exact issue_result_quiet h (uniWord_ok h) (.inl rfl) hb' (charge_acquire s _) rfl

theorem bwait_parks (sm : Bool) (d a : BitVec 6) (s : State) (n : Nat) (h : s.Ready) (hn : Named (s.rawS a.toNat) s.cur.batchN n)
    (hb : ∃ b ∈ s.cur.batches, ¬After b.num n) : ∃ t, exec (.bwait sm d a) s = .next t ∧ s.Waits t (.batch n) := by
  rw [named_iff] at hn
  have hb' : bwaitBody d.toNat a.toNat (s.charge (batchMeta sm a.toNat)) = .wait (s.charge (batchMeta sm a.toNat)) (.batch n) := by
    rw [charge_bwaitBody h, ← hn, (owes_iff s.cur n).2 hb, if_pos rfl]
  rw [execBwait_eq]
  exact issue_waits h (uniWord_ok h) (.inl rfl) hb' (State.charge_keeps s _) rfl rfl

/-- What a `btest` does once it issues. -/
def btestBody (d a : Nat) (t : State) : Eff :=
  if after32 (field (t.readS a).toNat 31 0) t.cur.batchN.toNat || t.cur.owes (field (t.readS a).toNat 31 0) then .done (t.deferS d 0)
  else .done ((t.acquire 1).deferS d 1)
theorem execBtest_eq (sm : Bool) (d a : BitVec 6) (s : State) :
    exec (.btest sm d a) s = issue (batchMeta sm a.toNat) s (btestBody d.toNat a.toNat) := rfl
theorem charge_btestBody {s : State} (h : s.Ready) (m : Meta) (d a : Nat) {n : Nat} (hn : n = (s.rawS a).toNat % 2 ^ 32) : btestBody d a (s.charge m) =
    if after32 n s.cur.batchN.toNat || s.cur.owes n then .done ((s.charge m).deferS d 0) else .done (((s.charge m).acquire 1).deferS d 1) := by
  simp only [btestBody, charge_readS h, State.charge_cur_batchN, charge_owes, field_low, ← hn]

theorem btest_completed (sm : Bool) (d a : BitVec 6) (s : State) (n : Nat) (h : s.Ready) (hn : n = (s.rawS a.toNat).toNat % 2 ^ 32)
    (ha : ¬After n s.cur.batchN.toNat) (hb : ∀ b ∈ s.cur.batches, After b.num n) :
    ∃ t, exec (.btest sm d a) s = .next t ∧ s.Returns (s.withL1 []) t 4 sm [.uni d.toNat 1 false] := by
  have hb' : btestBody d.toNat a.toNat (s.charge (batchMeta sm a.toNat)) = .done (((s.charge (batchMeta sm a.toNat)).acquire 1).deferS d.toNat 1) := by
    rw [charge_btestBody h _ _ _ hn, (owes_eq_false s.cur n).2 hb, if_neg (by simpa [after32_iff] using ha)]
  rw [execBtest_eq]
  exact issue_result_quiet h (uniWord_ok h) (.inl rfl) hb' (charge_acquire s _) rfl

theorem btest_unfinished (sm : Bool) (d a : BitVec 6) (s : State) (n : Nat) (h : s.Ready) (hn : n = (s.rawS a.toNat).toNat % 2 ^ 32)
    (hb : After n s.cur.batchN.toNat ∨ ∃ b ∈ s.cur.batches, ¬After b.num n) :
    ∃ t, exec (.btest sm d a) s = .next t ∧ s.Returns s t 4 sm [.uni d.toNat 0 false] := by
  have hb' : btestBody d.toNat a.toNat (s.charge (batchMeta sm a.toNat)) = .done ((s.charge (batchMeta sm a.toNat)).deferS d.toNat 0) := by
    rw [charge_btestBody h _ _ _ hn, if_pos (by rw [Bool.or_eq_true, after32_iff, owes_iff]; exact hb)]
  rw [execBtest_eq]
  exact issue_result_quiet h (uniWord_ok h) (.inl rfl) hb' (State.charge_keeps s _) rfl

/-- Settles O32: what closes, waits for and tests the batches, clause by clause. -/
theorem batches : Obligations.Batches :=
  ⟨bclose_empty, bclose_closes, bwait_completes, bwait_parks, btest_completed, btest_unfinished⟩

end Sys2Proof.Machine
end

section
/-!
PROOF. Counted stores (07 R178): each width is the one counted store, which `issue_counted` describes.
-/

namespace Sys2Proof.Machine

/-- What the issue of a counted store knows of it. -/
def countedMeta (n : Nat) (sm : Bool) (g : BitVec 3) (d a b : Nat) : Meta :=
  { settle := sm, guard := g, insn := true, nonreplay := true, sEnd := b + 2, vEnd := topReg [d + widthRegs n - 1, a]
    vs := a :: (List.range (widthRegs n)).map (d + ·), ss := [b, b + 1] }
/-- What a counted store does once it issues. -/
def countedBody (n : Nat) (g : BitVec 3) (d a b : Nat) (t : State) : Eff :=
  t.withLanes .counted n (t.laneAddrs (t.act g) (t.readS b) a) fun t oks =>
    let w := (t.readS (b + 1)).toNat
    t.storeLanes (.counted (field w 31 0) (field w 63 32)) false (oks.map fun l => (l, t.storeBytes n d l.lane)) .done
theorem storeCounted_eq (n : Nat) (sm : Bool) (g : BitVec 3) (d a b : BitVec 6) (s : State) :
    storeCounted n sm g d a b s = issue (countedMeta n sm g d.toNat a.toNat b.toNat) s (countedBody n g d.toNat a.toNat b.toNat) := rfl

/-- What cached translations leave of the registers. -/
theorem cachePages_registers (s : State) (tag : Nat) (l : List Nat) : (s.cachePages tag l).cur = s.cur ∧ (s.cachePages tag l).vrf = s.vrf :=
  ⟨(State.cachePages_cached s tag l).cur, (State.cachePages_cached s tag l).vrf⟩

/-- R178: the object's offset and the phase of a register. -/
def countedOp (v : W64) : PacketOp := .counted (v.toNat % 2 ^ 32) (v.toNat / 2 ^ 32)
theorem countedOp_fields (v : W64) : PacketOp.counted (field v.toNat 31 0) (field v.toNat 63 32) = countedOp v := by
  have hhigh : v.toNat / 2 ^ 32 % 2 ^ 32 = v.toNat / 2 ^ 32 := Nat.mod_eq_of_lt (Nat.div_lt_of_lt_mul v.isLt)
  simp only [field, countedOp, Nat.reduceAdd, Nat.reduceSub, pow_zero, Nat.div_one, hhigh]

/-- The lanes reach their places, so the store posts what they hold. -/
theorem charge_countedBody {s : State} (h : s.GroupReady) (ha : s.Alone) (m : Meta) {n : Nat} (hn : n = 1 ∨ n = 2 ∨ n = 4 ∨ n = 8 ∨ n = 16) (g : BitVec 3) (d a b : Nat)
    {x : Nat → Xlat} (hl : s.Reaches .counted n (s.act g) (s.laneAddr (s.rawS b) a) x) : countedBody n g d a b (s.charge m) =
      (s.charge m).withLanes .counted n ((maskLanes (s.act g)).map fun k => (k, s.laneAddr (s.rawS b) a k)) fun t oks =>
        t.storeLanes (countedOp (s.rawS (b + 1))) false (oks.map fun l => (l, (List.range n).map (s.dataByte d l.lane))) .done := by
  have hreg := cachePages_registers (s.charge m) s.curTag ((maskLanes (s.act g)).map (s.laneAddr (s.rawS b) a))
  have hbytes : ∀ k, ((s.charge m).cachePages s.curTag ((maskLanes (s.act g)).map (s.laneAddr (s.rawS b) a))).storeBytes n d k =
      (List.range n).map (s.dataByte d k) := by
    intro k
    rw [storeBytes_eq (by rw [hreg.1]; simp [h.1.written]) _ _ _ hn]
    simp [State.dataByte, State.rawV, hreg.1, hreg.2]
  have hread : ((s.charge m).cachePages s.curTag ((maskLanes (s.act g)).map (s.laneAddr (s.rawS b) a))).readS (b + 1) = s.rawS (b + 1) := by
    rw [State.readS_eq (by rw [hreg.1]; simp [h.1.written]), State.rawS, hreg.1, State.charge_cur_sregs, State.rawS]
  rw [countedBody, charge_act h, ← ready_act h, charge_readS h.1, charge_laneAddrs h.1, withLanes_reaches ha m hl, withLanes_reaches ha m hl]
  simp only [hbytes, hread, countedOp_fields]

theorem storeCounted_posts {n : Nat} (hn : n = 4 ∨ n = 8 ∨ n = 16) (sm : Bool) (g : BitVec 3) (d a b : BitVec 6) (s : State) (x : Nat → Xlat) (h : s.GroupReady)
    (ha : s.Alone) (hv : s.hasV [d.toNat + n / 4 - 1, a.toNat]) (hb : b.toNat ≤ 62)
    (hl : s.Reaches .counted n (s.act g) (s.laneAddr (s.rawS b.toNat) a.toNat) x) :
    ∃ t u, storeCounted n sm g d a b s = .next t ∧ s.Returns { u with cur := { s.cur with dirty := true } } t 4 sm [] ∧
      s.Posts u (s.act g) (fun k => (x k).loc) false fun m =>
        (countedOp (s.rawS (b.toNat + 1)), s.storeCells n d.toNat m fun k => (x k).loc) := by
  have hn' : n = 1 ∨ n = 2 ∨ n = 4 ∨ n = 8 ∨ n = 16 := .inr (.inr hn)
  have hregs : n / 4 = regsOf n := by rcases hn with rfl | rfl | rfl <;> rfl
  rw [storeCounted_eq]
  obtain ⟨t, u, h1, h2, h3⟩ := issue_counted h.1 ha (countedMeta n sm g d.toNat a.toNat b.toNat)
    (illegal_lane h (dataRegs_within (hregs ▸ hv) hn') (Nat.add_le_add_right hb 2) (.inl rfl) rfl) (countedOp (s.rawS (b.toNat + 1))) n
    (s.dataByte d.toNat) (s.act g) (s.laneAddr (s.rawS b.toNat) a.toNat) x hl _ (charge_countedBody h ha _ hn' g d.toNat a.toNat b.toNat hl)
  have hu : u.mark true = { u with cur := { s.cur with dirty := true } } := by
    have hc : u.cur = s.cur := by rw [h3.same]
    rw [State.mark, Bool.or_true, hc]
  exact ⟨t, u, h1, hu ▸ h2, h3⟩

/-- Settles O41: the three widths. -/
theorem countedStores : Obligations.CountedStores := by
  intro p hp
  simp only [List.mem_cons, List.not_mem_nil, or_false] at hp
  rcases hp with rfl | rfl | rfl
  · exact storeCounted_posts (n := 4) (.inl rfl)
  · exact storeCounted_posts (n := 8) (.inr (.inl rfl))
  · exact storeCounted_posts (n := 16) (.inr (.inr rfl))

end Sys2Proof.Machine
end

section
/-!
PROOF. Collectives as they are submitted (07 R182, R183): the card is read as a bulk load reads it, the flags are cleared as a bulk store writes, and
the job stands behind those stores. What an access makes of the state under the counters of an issue is said once, for the queues and barriers too.
-/

namespace Sys2Proof.Machine

/-! ### What accesses leave under the counters of an issue -/

/-- w is s at an issue but for memory, packets, cached translations and the numbers of requests. -/
structure Accessed (s : State) (c : Meta) (w : State) : Prop where
  same : w = { (s.charge c).restOf w with cores := w.cores }
  cores : ∀ i, w.core i = (s.charge c).core i
  parts : ∀ p, ({ w.part p with tlb := [] } : Part) = { (s.charge c).part p with tlb := [] }
  launches : ∀ l, ({ w.launch l with rseq := [], wseq := [] } : Launch) = { (s.charge c).launch l with rseq := [], wseq := [] }

section accessed
variable {s w : State} {c : Meta}

theorem Asking.accessed (h : Asking s c w) : Accessed s c w :=
  ⟨by have e := h.cached.same; rw [e]; rfl, h.cores, h.cached.parts, h.cached.launches⟩

section
variable (h : Accessed s c w)
include h
theorem Accessed.cur : w.cur = (s.charge c).cur := by rw [h.same]; rfl
theorem Accessed.keeps : (s.restOf w).Keeps w := State.rest_keeps h.same h.cores
theorem Accessed.numbered : s.Numbered (s.restOf w) := State.numbered_rest h.parts h.launches
theorem Accessed.readS (hs : s.Ready) (r : Nat) : w.readS r = s.rawS r := by
  rw [State.readS_eq (by rw [h.cur]; simp [hs.written]), State.rawS, h.cur, State.charge_cur_sregs, State.rawS]
/-- A run of bytes written to scratchpad. -/
theorem Accessed.writeBytes (a : Nat) (bs : List Byte) : Accessed s c (w.writeBytes ⟨1, a⟩ bs) := by
  rw [w.writeBytes_sp a bs]
  exact ⟨by have e := h.same; generalize (w.writeBytes ⟨1, a⟩ bs).sp = m; rw [e]; rfl, h.cores, h.parts, h.launches⟩
end

/-- Packets posted. -/
theorem Asking.injected {v : State} (h : Asking s c w) {rel : Bool} {cs : List (PacketOp × List (Loc × Byte))} (hv : Injected w v rel cs) : Accessed s c v := by
  have e := hv.same
  have hs := h.accessed.same
  refine ⟨by rw [e, hs]; rfl, fun i => ?_, fun p => ?_, fun l => (hv.launches l).trans (h.cached.launches l)⟩
  · rw [← h.cores i, e]; rfl
  · rw [← h.cached.parts p, e]; rfl
end accessed

theorem State.Stored.refl (s : State) : s.Stored s [] := ⟨fun _ _ h => (nomatch h), fun _ _ => rfl⟩
theorem State.Stored.append {s t u : State} {a b : List (Loc × Byte)} (h : s.Stored t a) (k : t.Stored u b) : s.Stored u (a ++ b) := by
  refine ⟨fun l y hl => ?_, fun l hl => ?_⟩
  · rw [List.filter_append] at hl
    by_cases hb : (b.filter fun c => c.1 == l) = []
    · rw [hb, List.append_nil] at hl
      rw [k.others l fun c hc he => (List.filter_eq_nil_iff.1 hb) c hc (by simpa using he)]
      exact h.last l y hl
    · rw [List.getLast?_append_of_ne_nil _ hb] at hl
      exact k.last l y hl
  · rw [k.others l fun c hc => hl c (List.mem_append_right _ hc)]
    exact h.others l fun c hc => hl c (List.mem_append_left _ hc)
theorem State.writeBytes_stored (s : State) (a : Nat) (bs : List Byte) : s.Stored (s.writeBytes ⟨1, a⟩ bs) (cellsFrom ⟨1, a⟩ bs) :=
  (State.writeAll_stored (cellsFrom ⟨1, a⟩ bs) s (by rw [cellsFrom_eq]; simp)).2
theorem State.restOf_readByte {s w : State} {c : Meta} (h : Accessed s c w) (l : Loc) : (s.restOf w).readByte l = w.readByte l :=
  (State.readByte_same (by rw [h.same]; simp [State.restOf]) l).symm
theorem State.Stored.restOf {s w : State} {c : Meta} (h : Accessed s c w) {cells : List (Loc × Byte)} (hs : s.Stored w cells) : s.Stored (s.restOf w) cells :=
  ⟨fun l b hl => (State.restOf_readByte h l).trans (hs.last l b hl), fun l hl => (State.restOf_readByte h l).trans (hs.others l hl)⟩
theorem Accessed.performs {s w : State} {c : Meta} (h : Accessed s c w) (hp : w.packets = s.packets) {cells : List (Loc × Byte)} (hs : s.Stored w cells) :
    s.Performs (s.restOf w) cells := by
  refine ⟨?_, h.numbered, hs.restOf h⟩
  simp only [State.restOf, hp]

/-! ### Bulk stores, as a statement sees them -/

/-- The bytes go into the block's own allocation at once. -/
theorem Asking.storesOwn {s w : State} {c : Meta} (h : Asking s c w) (ha : s.Alone) (lane : Nat) {a : W64} {bs : List Byte} {B : Nat} (ho : s.OwnCopy a bs.length B)
    (k : State → Eff) : ∃ z, Accessed s c z ∧ z.packets = s.packets ∧ s.Stored z (cellsFrom ⟨1, B⟩ bs) ∧ w.bulkStore lane a bs k = (k z).attr lane := by
  obtain ⟨p, z, hp, -, hz, hzl, he⟩ := h.storeOwn ha (lane := lane) ho.own ho.base ho.inside ho.room ho.answers k
  have hacc : Accessed s c z := by
    have hs := hp.accessed.same
    refine ⟨by rw [hz, hs]; rfl, fun i => ?_, fun q => ?_, fun l => (hzl l).trans (hp.cached.launches l)⟩
    · rw [← hp.cores i, hz]; rfl
    · rw [← hp.cached.parts q, hz]; rfl
  have hread : ∀ l, z.readByte l = s.readByte l := fun l => by
    rw [← hp.readByte l]; exact State.readByte_same (by rw [hz]) l
  have hst := z.writeBytes_stored B bs
  refine ⟨z.writeBytes ⟨1, B⟩ bs, hacc.writeBytes B bs, ?_, ⟨hst.last, fun l hl => (hst.others l hl).trans (hread l)⟩, he⟩
  rw [z.writeBytes_sp B bs, hz]
  exact hp.cached.packets.trans (State.charge_packets s c)

/-- The bytes for a virtual address are posted. -/
theorem Asking.storesPosted {s w : State} {c : Meta} (h : Asking s c w) (ha : s.Alone) (lane : Nat) {a : W64} {bs : List Byte} {place : Nat → Loc}
    (hp : s.CopyPlaces true lane a bs.length place) (ha63 : a.getLsbD 63 = false) (hw : (w.part s.curTag).tlb = []) (k : State → Eff) :
    ∃ v, Accessed s c v ∧ (v.grans, v.hbm, v.sp, v.vrf, v.acc, v.planes, v.host) = (s.grans, s.hbm, s.sp, s.vrf, s.acc, s.planes, s.host) ∧
      s.PostsCopy (s.restOf v) (bulkUnit a.toNat bs.length) bs.length place bs ∧ w.bulkStore lane a bs k = (k v).attr lane := by
  have hloc : isLocal a = false := ha63
  obtain ⟨p, v, keys, hpa, -, hk1, hk2, hv, he⟩ := h.bulkStore ha (lane := lane) hp (.inr hw) k
  have hacc := hpa.injected hv
  obtain ⟨ps, p1, p2, p3, -⟩ := hv.sent
  have hpk : p.packets = [] := by rw [hpa.cached.packets, State.charge_packets, ha.packets]
  rw [hpk, List.nil_append] at p1
  refine ⟨v, hacc, ?_, ⟨hacc.numbered, ⟨keys, hk1, hk2, ?_⟩, fun q hq => ?_⟩, by rw [he, hloc]; rfl⟩
  · rw [hv.same, hpa.cached.same]; simp
  · rw [show (s.restOf v).packets = ps from p1, p2]; rfl
  · rw [show (s.restOf v).packets = ps from p1] at hq
    rw [(p3 q hq).1, hpa.agent]

/-! ### The submission -/

theorem State.Keeps.agent {s t : State} (h : s.Keeps t) : t.agent = s.agent := by
  have hb := (State.keeps_iff.1 h).1
  have hc : t.cur.aside = s.cur.aside := (congrArg State.cur hb :)
  have hl : t.launches = s.launches := (congrArg State.launches hb :)
  have ho : ∀ x, (t.tile x).owner = (s.tile x).owner := fun x => (congrArg Tile.owner (h.2.2 x) :)
  have e1 : t.cur.core = s.cur.core := (congrArg Ctx.core hc :)
  have e2 : t.cur.id = s.cur.id := (congrArg Ctx.id hc :)
  have e3 : t.cur.launch = s.cur.launch := (congrArg Ctx.launch hc :)
  simp only [State.agent, State.agentOf, State.launch, hl, ho, e1, e2, e3]
theorem State.Keeps.newJob {s t : State} (h : s.Keeps t) (kind d : Nat) : t.newJob kind d = s.newJob kind d := by
  have hb := (State.keeps_iff.1 h).1
  have hc : t.cur.aside = s.cur.aside := (congrArg State.cur hb :)
  have e1 : t.cur.core = s.cur.core := (congrArg Ctx.core hc :)
  have e2 : t.cur.id = s.cur.id := (congrArg Ctx.id hc :)
  have e3 : t.cur.launch = s.cur.launch := (congrArg Ctx.launch hc :)
  have e4 : t.cur.block = s.cur.block := (congrArg Ctx.block hc :)
  have e5 : t.cur.smode = s.cur.smode := (congrArg Ctx.smode hc :)
  have e6 : t.cur.asyncFence = s.cur.asyncFence := (congrArg Ctx.asyncFence hc :)
  have e7 : t.cur.relFence = s.cur.relFence := (congrArg Ctx.relFence hc :)
  have e8 : t.nextId = s.nextId := (congrArg State.nextId hb :)
  simp only [State.newJob, h.agent, e1, e2, e3, e4, e5, e6, e7, e8]

/-- R157, R158: below the limit the leader submits a job behind what its access left. -/
theorem submission_behind {m : Meta} {s w : State} {l : Nat} (h : s.Ready) (hl : s.Leads m.guard l) (hi : s.illegal m = none) (ht : s.cur.txg = false)
    (hn : m.nonreplay = true) (hs : s.subs < 255) {k : State → Nat → Eff} (hw : Accessed s m w) {kind d : Nat} {f : Job → Job} (h8 : kind ≠ 8) (h10 : kind ≠ 10)
    (hb : k (s.charge m) l = .done (w.submit kind d f)) :
    ∃ t, submission m s k = .next t ∧ s.Returns ((s.restOf w).submitted kind 1 s.cur.core d f) t m.len m.settle [] := by
  have hk := hw.keeps
  have hu : (s.restOf w).submitted kind 1 s.cur.core d f = ((s.restOf w).enqueue (f (w.newJob kind d))).mark m.nonreplay := by
    rw [hk.newJob, hn]; exact submitted_eq (s.restOf w) d f h8 h10
  rw [hu]
  refine issue_effect_nonreplay (w := w.enqueue (f (w.newJob kind d))) h hi (.inr ht) ?_ (hk.enqueue _) ?_ ?_ ?_ ?_ ?_ ?_ ?_
  · have hsub : ¬ 255 ≤ (s.charge m).subs := by
      simpa only [State.subs, State.charge_cur_openSet, State.charge_cur_batches, Nat.not_le] using hs
    rw [State.withLeader, leader_of_leads h hl]
    exact (if_neg hsub).trans hb
  all_goals simp [State.enqueue, hw.cur, h.word, h.recipe, h.written, h.poisonV, h.poisonS]

/-! ### Collectives -/

theorem cardChunks_eq (x n : Nat) : cardChunks x n = chunksOf x n := by
  simp only [cardChunks, cardOut, chunksOf, field, Nat.reduceAdd, Nat.reduceSub, Nat.reducePow, pow_zero, Nat.div_one]
/-- R155: the members of a card's constellation, under the counters of an issue. -/
theorem Asking.members {s v : State} {c : Meta} (h : Asking s c v) (x : Nat) : (v.launch v.cur.launch).conSize (field x 15 8) = s.members x := by
  have hl := congrArg Launch.gtable (h.cached.launches s.cur.launch)
  rw [charge_launch] at hl
  have hl' : (v.launch s.cur.launch).gtable = (s.launch s.cur.launch).gtable := hl
  rw [h.cached.cur, State.charge_cur_launch, Launch.conSize, hl']
  simp only [State.members, field, Nat.reduceAdd, Nat.reduceSub]

/-- What follows the read of the card: the flags are cleared and the job is submitted. -/
def collRest (l d a : Nat) (t : State) (bs : List Byte) : Eff :=
  let x := bytesNat bs
  let n := cardChunks x ((t.launch t.cur.launch).conSize (field x 15 8))
  t.bulkStore l (BitVec.ofNat 64 (field x 319 256)) (List.replicate n 0) fun u =>
    .done (u.submit 9 d fun j => { j with opA := u.readS a, card := BitVec.ofNat 512 x, nchunks := n, need := (t.nextId, u.nextId) })
/-- What the leader of a `coll` does. -/
def collBody (d a : Nat) (t : State) (i : Nat) : Eff := t.bulkLoad 64 i (t.readS a) 64 (collRest i d a)
def collMeta (sm : Bool) (g : BitVec 3) (a : Nat) : Meta := { syncMeta sm g [a] true with sEnd := 0 }
theorem execColl_eq (sm : Bool) (g : BitVec 3) (d a : BitVec 6) (s : State) : exec (.coll sm g d a) s =
    submission (collMeta sm g a.toNat) s (collBody d.toNat a.toNat) := rfl

/-- R182: the job of a collective with the card x of n chunks, behind the stores numbered from p up to q. -/
def State.collJob (s : State) (a x n p q : Nat) (j : Job) : Job :=
  { j with opA := s.rawS a, card := BitVec.ofNat 512 x, nchunks := n, need := (p, q) }

/-- The card is read, and what follows clears the flags of its chunks. -/
theorem coll_reads {s : State} (h : s.Ready) (ha : s.Alone) (m : Meta) {l a d x n : Nat} {place : Nat → Loc} (h64 : (s.rawS a).toNat % 64 = 0)
    (hr : s.ReadsCopy l (s.rawS a) 64 place) (hx : x = bytesNat (s.bytesAt 64 place)) (hn : n = chunksOf x (s.members x)) :
    ∃ v, Asking s m v ∧ (isLocal (s.rawS a) = true → v.parts = (s.charge m).parts) ∧ collBody d a (s.charge m) l =
      (v.bulkStore l (BitVec.ofNat 64 (x / 2 ^ 256 % 2 ^ 64)) (List.replicate n 0) fun u =>
        .done (u.submit 9 d fun j => { j with opA := u.readS a, card := BitVec.ofNat 512 x, nchunks := n, need := (s.nextId, u.nextId) })).attr l := by
  obtain ⟨hp, hd⟩ := hr
  obtain ⟨v, hv, hvp, hve⟩ := (Asking.refl s m).bulkLoad ha (al := 64) (a := s.rawS a) (by split <;> omega) hp hd (.inr (by rw [charge_part, ha.tlb])) (collRest l d a)
  refine ⟨v, hv, hvp, ?_⟩
  have hbs : bytesNat ((List.range 64).map fun i => s.readByte (place i)) = x := hx.symm
  have hid : v.nextId = s.nextId := hv.cached.nextId.trans (State.charge_nextId s m)
  rw [collBody, charge_readS h, hve]
  simp only [collRest, hbs, hv.members, cardChunks_eq, ← hn, hid]
  rfl

theorem Eff.attr_attr_done (l k : Nat) (s : State) : (((Eff.done s).attr l).attr k) = .done s := rfl

section coll
variable {s : State} (h : s.Ready) (ha : s.Alone) {g : BitVec 3} {l : Nat} (hl : s.Leads g l) (hs : s.subs < 255) (sm : Bool) (d a : BitVec 6)
  (h64 : (s.rawS a.toNat).toNat % 64 = 0) {place : Nat → Loc} (hr : s.ReadsCopy l (s.rawS a.toNat) 64 place) {x n : Nat}
  (hx : x = bytesNat (s.bytesAt 64 place)) (hn : n = chunksOf x (s.members x))
include h ha hl hs h64 hr hx hn

/-- R183: the flags stand in the block's own allocation, and are cleared at once. -/
theorem coll_clears {B : Nat} (ho : s.OwnCopy (BitVec.ofNat 64 (x / 2 ^ 256 % 2 ^ 64)) n B) : ∃ t u, exec (.coll sm g d a) s = .next t ∧
    s.Performs u (cellsFrom ⟨1, B⟩ (List.replicate n 0)) ∧
    s.Returns (u.submitted 9 1 s.cur.core d.toNat (s.collJob a.toNat x n s.nextId u.nextId)) t 4 sm [] := by
  let m := collMeta sm g a.toNat
  obtain ⟨v, hv, -, hve⟩ := coll_reads h ha m (d := d.toNat) h64 hr hx hn
  obtain ⟨z, hz, hzp, hzs, hze⟩ := hv.storesOwn ha l (bs := List.replicate n 0) (by rw [List.length_replicate]; exact ho) fun u =>
    .done (u.submit 9 d.toNat fun j => { j with opA := u.readS a.toNat, card := BitVec.ofNat 512 x, nchunks := n, need := (s.nextId, u.nextId) })
  rw [hze, hz.readS h, Eff.attr_attr_done] at hve
  obtain ⟨t, h1, h2⟩ := submission_behind (kind := 9) h (m := m) (k := collBody d.toNat a.toNat) hl (xWord_ok h hl (Nat.zero_le _)) ha.tx rfl hs hz (by decide) (by decide) hve
  exact ⟨t, s.restOf z, (execColl_eq sm g d a s).trans h1, hz.performs hzp hzs, h2⟩

/-- R183: the flags stand at a virtual address, and their clearing is posted. -/
theorem coll_posts {p : Nat → Loc} (hf : (BitVec.ofNat 64 (x / 2 ^ 256 % 2 ^ 64)).getLsbD 63 = false) (h63 : (s.rawS a.toNat).getLsbD 63 = true)
    (hp : s.CopyPlaces true l (BitVec.ofNat 64 (x / 2 ^ 256 % 2 ^ 64)) n p) : ∃ t u, exec (.coll sm g d a) s = .next t ∧
    u = { s with parts := u.parts, launches := u.launches, packets := u.packets, nextId := u.nextId } ∧
    s.PostsCopy u (bulkUnit (BitVec.ofNat 64 (x / 2 ^ 256 % 2 ^ 64)).toNat n) n p (List.replicate n 0) ∧
    s.Returns (u.submitted 9 1 s.cur.core d.toNat (s.collJob a.toNat x n s.nextId u.nextId)) t 4 sm [] := by
  let m := collMeta sm g a.toNat
  have hlen : (List.replicate n (0 : Byte)).length = n := List.length_replicate
  obtain ⟨v, hv, hvp, hve⟩ := coll_reads h ha m (d := d.toNat) h64 hr hx hn
  have htlb : (v.part s.curTag).tlb = [] := by
    rw [State.part, hvp h63]; exact (congrArg Part.tlb (charge_part s m s.curTag)).trans ha.tlb
  obtain ⟨z, hz, hzm, hzs, hze⟩ := hv.storesPosted ha l (bs := List.replicate n 0) (by rw [hlen]; exact hp) hf htlb fun u =>
    .done (u.submit 9 d.toNat fun j => { j with opA := u.readS a.toNat, card := BitVec.ofNat 512 x, nchunks := n, need := (s.nextId, u.nextId) })
  rw [hlen] at hzs
  rw [hze, hz.readS h, Eff.attr_attr_done] at hve
  obtain ⟨t, h1, h2⟩ := submission_behind (kind := 9) h (m := m) (k := collBody d.toNat a.toNat) hl (xWord_ok h hl (Nat.zero_le _)) ha.tx rfl hs hz (by decide) (by decide) hve
  refine ⟨t, s.restOf z, (execColl_eq sm g d a s).trans h1, ?_, hzs, h2⟩
  simp only [Prod.mk.injEq] at hzm
  simp only [State.restOf, hzm]

end coll

/-- Settles O45: the flags in the own allocation, and at a virtual address. -/
theorem collectives : Obligations.Collectives := by
  rintro sm g d a s l place x n _ h ha hl hs h64 hr hx hn rfl
  exact ⟨fun B ho => coll_clears h ha hl hs sm d a h64 hr hx hn ho, fun p hf h63 hp => coll_posts h ha hl hs sm d a h64 hr hx hn hf h63 hp⟩

end Sys2Proof.Machine
end

section
/-!
PROOF. Objects in scratchpad (07 R159, R177): numbers of consecutive bytes, an object a copy address names, and what its access leaves.
-/

namespace Sys2Proof.Machine

/-! ### Numbers of consecutive bytes -/

theorem bytesNat_append (a b : List Byte) : bytesNat (a ++ b) = bytesNat a + 256 ^ a.length * bytesNat b := by
  induction a with
  | nil => simp [bytesNat]
  | cons x a ih => rw [List.cons_append, bytesNat, bytesNat, ih, List.length_cons, Nat.pow_succ']; ring
theorem State.readNum_lt (s : State) (l : Loc) (n : Nat) : s.readNum l n < 256 ^ n := by
  simpa [State.readNum, State.readBytes_length] using bytesNat_lt (s.readBytes l n)
theorem State.readNum_congr {s t : State} {l : Loc} {n : Nat} (h : ∀ i < n, t.readByte ⟨l.tt, l.addr + i⟩ = s.readByte ⟨l.tt, l.addr + i⟩) : t.readNum l n = s.readNum l n :=
  congrArg bytesNat (List.map_congr_left fun i hi => h i (List.mem_range.1 hi))
/-- The low and the high bytes of a number. -/
theorem State.readNum_add (s : State) (l : Loc) (m n : Nat) : s.readNum l (m + n) = s.readNum l m + 256 ^ m * s.readNum ⟨l.tt, l.addr + m⟩ n := by
  have h : s.readBytes l (m + n) = s.readBytes l m ++ s.readBytes ⟨l.tt, l.addr + m⟩ n := by
    simp only [State.readBytes, List.range_add, List.map_append, List.map_map, Function.comp_def, Nat.add_assoc]
  rw [State.readNum, h, bytesNat_append, State.readBytes_length]; rfl
theorem State.writeNum_same (s : State) (a n : Nat) {v : Nat} (h : v < 256 ^ n) : (s.writeNum ⟨1, a⟩ n v).readNum ⟨1, a⟩ n = v :=
  s.writeBytes_readNum a (natBytes n v) [] [] n v (by simp) h
theorem State.writeNum_byte_ne (s : State) (a n v : Nat) {l : Loc} (h : ∀ i < n, l ≠ ⟨1, a + i⟩) : (s.writeNum ⟨1, a⟩ n v).readByte l = s.readByte l :=
  s.writeBytes_others a _ l (by simpa using h)
theorem State.writeNum_apart (s : State) (a n v : Nat) {b k : Nat} (h : b + k ≤ a ∨ a + n ≤ b) :
    (s.writeNum ⟨1, a⟩ n v).readNum ⟨1, b⟩ k = s.readNum ⟨1, b⟩ k :=
  State.readNum_congr fun i hi => s.writeNum_byte_ne a n v fun j hj e => by
    have e' := congrArg Loc.addr e
    change b + i = a + j at e'
    omega

/-! ### What a request leaves -/

/-- w is s at an issue but for scratchpad, cached translations and the numbers of requests. -/
structure Scratched (s : State) (c : Meta) (w : State) : Prop where
  same : w = { s.charge c with sp := w.sp, parts := w.parts, launches := w.launches, cores := w.cores }
  cores : ∀ i, w.core i = (s.charge c).core i
  parts : ∀ p, ({ w.part p with tlb := [] } : Part) = { (s.charge c).part p with tlb := [] }
  launches : ∀ l, ({ w.launch l with rseq := [], wseq := [] } : Launch) = { (s.charge c).launch l with rseq := [], wseq := [] }

section scratched
variable {s w : State} {c : Meta}
theorem Asking.scratched (h : Asking s c w) : Scratched s c w := ⟨by have e := h.cached.same; rw [e], h.cores, h.cached.parts, h.cached.launches⟩

variable (h : Scratched s c w)
include h
theorem Scratched.accessed : Accessed s c w := ⟨by have e := h.same; rw [e]; rfl, h.cores, h.parts, h.launches⟩
theorem Scratched.cur : w.cur = (s.charge c).cur := by rw [h.same]
theorem Scratched.ctxs : w.ctxs = s.ctxs := by rw [h.same]; exact State.charge_ctxs s c
theorem Scratched.writeNum (a n v : Nat) : Scratched s c (w.writeNum ⟨1, a⟩ n v) := by
  rw [State.writeNum, w.writeBytes_sp a]
  exact ⟨by have e := h.same; generalize (w.writeBytes ⟨1, a⟩ (natBytes n v)).sp = m; rw [e], h.cores, h.parts, h.launches⟩
/-- A core written as it was. -/
theorem Scratched.updCore (i : Nat) (f : Core → Core) (hf : ∀ k, f k = k) : Scratched s c (w.updCore i f) := by
  refine ⟨by have e := h.same; rw [State.updCore, State.setCore]; generalize SMap.set ({} : Core) w.cores i (f (w.core i)) = m; rw [e], fun j => ?_, h.parts, h.launches⟩
  rw [State.updCore_core, hf]
  split
  · next e => rw [e]; exact h.cores i
  · exact h.cores j
/-- What a statement sees of it, the marks of the issue aside. -/
theorem Scratched.restOf_same : s.restOf w = { s with sp := w.sp, parts := w.parts, launches := w.launches } := by
  have e : (w.packets, w.nextId, w.grans, w.hbm, w.vrf, w.acc, w.host) = (s.packets, s.nextId, s.grans, s.hbm, s.vrf, s.acc, s.host) := by rw [h.same]; simp
  simp only [Prod.mk.injEq] at e
  simp only [State.restOf, e]
end scratched

/-- R130, R132: a request leaves the bytes as they were. -/
theorem Asking.requested {s v : State} {c : Meta} (h : Asking s c v) : s.Requested (s.restOf v) := by
  refine ⟨?_, h.accessed.numbered, fun _ => rfl⟩
  have e : (v.packets, v.nextId, v.grans, v.hbm, v.sp, v.vrf, v.acc, v.host) = (s.packets, s.nextId, s.grans, s.hbm, s.sp, s.vrf, s.acc, s.host) := by
    rw [h.cached.same]; simp
  simp only [Prod.mk.injEq] at e
  simp only [State.restOf, e]
theorem Asking.readNum {s v : State} {c : Meta} (h : Asking s c v) (l : Loc) (n : Nat) : v.readNum l n = s.readNum l n :=
  State.readNum_congr fun _ _ => h.readByte _
theorem Asking.request {s v : State} {c : Meta} (h : Asking s c v) : Asking s c v.readRequest.2 :=
  ⟨h.cached.trans v.readRequest_cached, fun i => by
    rw [← h.cores i]
    unfold State.readRequest State.updLaunch
    split <;> rfl⟩

/-! ### An object at a copy address -/

theorem State.NamesSp.tt {s : State} {acc : Acc} {al n l : Nat} {a : W64} {o : Loc} (h : s.NamesSp acc al n l a o) : o.tt = 1 := by
  rcases h with ⟨-, -, -, rfl⟩ | ⟨-, h, -⟩
  · rfl
  · exact h
/-- R177: the object stands where its address says. -/
theorem charge_spadPlace {s : State} (ha : s.Alone) (m : Meta) {acc : Acc} {al n l : Nat} {a : W64} {o : Loc} (h : s.NamesSp acc al n l a o) :
    (s.charge m).spadPlace acc al n l a = .ok o := by
  have hoff : localOff a = a.toNat % 2 ^ 32 := by unfold localOff; rw [BitVec.extractLsb'_toNat]; simp
  have hblk : (s.charge m).block (s.charge m).cur.block = s.myBlock := by simp [State.block, State.myBlock]
  unfold State.spadPlace State.copyCheck
  rcases h with ⟨h63, hal, hin, rfl⟩ | ⟨h63, htt, -, x, hx, rfl⟩
  · rw [if_pos (show isLocal a = true from h63)]
    simp only [hoff, hblk, State.charge_cur_core, if_neg (not_not.2 hal), if_neg (Nat.not_lt.2 hin), if_true]
  · have hx5 : x.loc.tt ≤ 5 := by omega
    rw [if_neg (show ¬ isLocal a = true by rw [show isLocal a = false from h63]; decide)]
    simp only [charge_checkLane ha.tlb ha.exports m hx hx5, htt, if_true]
/-- R297: with nothing in flight an operation waits for nothing. -/
theorem whenPerformed_alone {s : State} (hp : s.packets = []) (he : s.peers = []) (n : Nat) (k : State → Eff) : whenPerformed s n k = k s := by
  simp [whenPerformed, State.flush_none hp, hp, State.asking, he]
theorem State.serveDeliveries_none {s : State} (h : s.deliveries = []) (core : Nat) : s.serveDeliveries core = s := by
  simp [State.serveDeliveries, h, iterate]
theorem Asking.deliveries {s v : State} {c : Meta} (h : Asking s c v) : v.deliveries = s.deliveries := by rw [h.cached.same]; exact State.charge_deliveries s c

/-- A barrier operation comes to its object. -/
theorem charge_atBarrier {s : State} (ha : s.Alone) (m : Meta) {acc : Acc} {l : Nat} {a : W64} {o : Loc} (h : s.NamesSp acc 32 32 l a o) (zero : State → State)
    (k : State → Loc → Eff) : ∃ v, Asking s m v ∧ (s.charge m).atBarrier acc l a zero k = k v o := by
  unfold State.atBarrier
  rw [charge_spadPlace ha m h]
  simp only [whenPerformed_alone (s := s.charge m) (by simp [ha.packets]) (by simp [ha.peers])]
  rcases h with ⟨h63, -⟩ | ⟨h63, -, hd, -⟩
  · refine ⟨s.charge m, .refl s m, ?_⟩
    rw [if_pos (show isLocal a = true from h63), State.serveDeliveries_none (by simp [ha.deliveries])]
  · have hv := ((Asking.refl s m).pages [a.toNat]).request
    refine ⟨_, hv, ?_⟩
    rw [if_neg (show ¬ isLocal a = true by rw [show isLocal a = false from h63]; decide), hv.delivers, hv.agent, if_pos hd,
      State.serveDeliveries_none (hv.deliveries.trans ha.deliveries)]

theorem withLeader_leads {s : State} (h : s.Ready) {g : BitVec 3} {l : Nat} (hl : s.Leads g l) (m : Meta) (k : Nat → Eff) : (s.charge m).withLeader g k = k l := by
  rw [State.withLeader, leader_of_leads h hl]

end Sys2Proof.Machine
end

section
/-!
PROOF. Barriers (07 R175 to R177, Table 07-8): an object's header and slots through the unit's loop, and each instruction on an object nobody waits at.
-/

namespace Sys2Proof.Machine

/-! ### A barrier object -/

/-- At w the object at o holds the header h and the slots f, and every other byte is as s has it. -/
structure State.BarrierIs (s w : State) (o : Loc) (h : Nat) (f : Nat → Nat) : Prop where
  header : w.header o = h
  slots : ∀ k < 4, w.slotOf o k = f k
  others : ∀ l, (∀ i < 32, l ≠ ⟨1, o.addr + i⟩) → w.readByte l = s.readByte l

theorem balance_eq (n : Nat) : signedNat 28 (field n 47 20) = balance n := by
  simp only [signedNat, field, balance, BitVec.toInt_eq_toNat_cond, BitVec.toNat_ofNat, Nat.reduceAdd, Nat.reduceSub, Nat.reducePow, Nat.mod_mod]
  by_cases hlow : n / 1048576 % 268435456 < 134217728
  · rw [if_pos hlow, if_pos (by omega)]
  · rw [if_neg hlow, if_neg (by omega)]
theorem balance_bounds (n : Nat) : -(2 ^ 27) ≤ balance n ∧ balance n < 2 ^ 27 := by
  have h := @BitVec.le_toInt 28 (BitVec.ofNat 28 (n / 2 ^ 20))
  have h' := @BitVec.toInt_lt 28 (BitVec.ofNat 28 (n / 2 ^ 20))
  exact ⟨by simpa [balance] using h, by simpa [balance] using h'⟩
theorem State.barSlot_eq (s : State) {o : Loc} (ho : o.tt = 1) (p : Nat) : s.barSlot o p = (arrivals (s.slotOf o (p % 4)), balance (s.slotOf o (p % 4))) := by
  have hl : s.readNum (barSlotLoc o p) 6 = s.slotOf o (p % 4) := by rw [barSlotLoc, ho]; rfl
  rw [State.barSlot, hl, balance_eq]
  simp [arrivals, field]
theorem barBase_eq (h : Nat) : barBase h = basePhase h := by simp [barBase, basePhase, field]
theorem State.barHeader_eq (s : State) (o : Loc) : s.barHeader o = s.header o := rfl

/-- Table 07-7: the bits of a slot. -/
theorem slotBits_lt (n : Nat) (b : Int) : satArrived n + (b % 2 ^ 28).toNat * 2 ^ 20 < 256 ^ 6 := by
  unfold satArrived
  omega
theorem slotBits_eq (n : Nat) (b : Int) : satArrived (satArrived n) + (satBalance b % 2 ^ 28).toNat * 2 ^ 20 = slotValue n b := by
  unfold satArrived satBalance slotValue
  omega

section
variable {s w : State} {o : Loc} {h : Nat} {f : Nat → Nat} (ho : o.tt = 1)
include ho

/-- One slot written. -/
theorem State.BarrierIs.setSlot (hw : s.BarrierIs w o h f) (p n : Nat) (b : Int) : s.BarrierIs (w.setBarSlot o p n b) o h
    fun k => if k = p % 4 then satArrived n + (b % 2 ^ 28).toNat * 2 ^ 20 else f k := by
  obtain ⟨tt, A⟩ := o
  obtain rfl : tt = 1 := ho
  have hp : p % 4 < 4 := Nat.mod_lt _ (by decide)
  refine ⟨(State.writeNum_apart w (A + 8 + 6 * (p % 4)) 6 _ (k := 8) (.inl (by omega))).trans hw.header, fun k hk => ?_, fun l hl => ?_⟩
  · split
    · next e => rw [e]; exact State.writeNum_same w _ 6 (slotBits_lt n b)
    · next e =>
      refine (State.writeNum_apart w (A + 8 + 6 * (p % 4)) 6 _ (k := 6) ?_).trans (hw.slots k hk)
      change A + 8 + 6 * k + 6 ≤ _ ∨ _ ≤ A + 8 + 6 * k
      omega
  · rw [← hw.others l hl]
    refine w.writeNum_byte_ne (A + 8 + 6 * (p % 4)) 6 _ fun i hi => ?_
    have := hl (8 + 6 * (p % 4) + i) (by omega)
    rwa [show A + 8 + 6 * (p % 4) + i = A + (8 + 6 * (p % 4) + i) by omega]

/-- The header written. -/
theorem State.BarrierIs.setHeader (hw : s.BarrierIs w o h f) {v : Nat} (hv : v < 256 ^ 8) : s.BarrierIs (w.writeNum o 8 v) o v f := by
  obtain ⟨tt, A⟩ := o
  obtain rfl : tt = 1 := ho
  refine ⟨State.writeNum_same w A 8 hv, fun k hk => (State.writeNum_apart w A 8 v (k := 6) (.inr (by change A + 8 ≤ A + 8 + 6 * k; omega))).trans (hw.slots k hk), fun l hl => ?_⟩
  rw [← hw.others l hl]
  exact w.writeNum_byte_ne A 8 v fun i hi => hl i (by omega)

/-- `BASE`, bits [55:24] of the header, written. -/
theorem State.BarrierIs.setBase (hw : s.BarrierIs w o h f) (n : Nat) : s.BarrierIs (w.writeNum ⟨o.tt, o.addr + 3⟩ 4 (n % 2 ^ 32)) o
    (h - basePhase h * 2 ^ 24 + n % 2 ^ 32 * 2 ^ 24) f := by
  obtain ⟨tt, A⟩ := o
  obtain rfl : tt = 1 := ho
  have hn : n % 2 ^ 32 < 256 ^ 4 := Nat.mod_lt _ (by decide)
  refine ⟨?_, fun k hk => (State.writeNum_apart w (A + 3) 4 _ (k := 6) (.inr (by change A + 3 + 4 ≤ A + 8 + 6 * k; omega))).trans (hw.slots k hk), fun l hl => ?_⟩
  · have parts : ∀ v : State, v.header ⟨1, A⟩ = v.readNum ⟨1, A⟩ 3 + 256 ^ 3 * (v.readNum ⟨1, A + 3⟩ 4 + 256 ^ 4 * v.readNum ⟨1, A + 7⟩ 1) := fun v => by
      rw [State.header, State.readNum_add v _ 3 5, State.readNum_add v _ 4 1]
    have hold := hw.header
    have hlow := w.readNum_lt ⟨1, A⟩ 3
    have hbase := w.readNum_lt ⟨1, A + 3⟩ 4
    rw [parts] at hold
    rw [parts, State.writeNum_same w (A + 3) 4 hn, State.writeNum_apart w (A + 3) 4 _ (.inl (by omega)), State.writeNum_apart w (A + 3) 4 _ (.inr (by omega)), ← hold]
    unfold basePhase
    omega
  · rw [← hw.others l hl]
    refine w.writeNum_byte_ne (A + 3) 4 _ fun i hi => ?_
    rw [show A + 3 + i = A + (3 + i) by omega]
    exact hl (3 + i) (by omega)

/-- R175: the four slots as one number. -/
theorem State.slots_zero_iff (w : State) : w.readNum ⟨o.tt, o.addr + 8⟩ 24 = 0 ↔ ∀ k < 4, w.slotOf o k = 0 := by
  obtain ⟨tt, A⟩ := o
  obtain rfl : tt = 1 := ho
  have hsum : w.readNum ⟨1, A + 8⟩ 24 = w.slotOf ⟨1, A⟩ 0 + 256 ^ 6 * (w.slotOf ⟨1, A⟩ 1 + 256 ^ 6 * (w.slotOf ⟨1, A⟩ 2 + 256 ^ 6 * w.slotOf ⟨1, A⟩ 3)) := by
    rw [State.readNum_add w _ 6 18, State.readNum_add w _ 6 12, State.readNum_add w _ 6 6]
    rfl
  simp only [hsum]
  constructor
  · intro hz k hk
    interval_cases k <;> omega
  · intro hz
    rw [hz 0 (by decide), hz 1 (by decide), hz 2 (by decide), hz 3 (by decide)]
    rfl

/-- Every slot cleared. -/
theorem State.BarrierIs.clearSlots (hw : s.BarrierIs w o h f) : s.BarrierIs (w.writeNum ⟨o.tt, o.addr + 8⟩ 24 0) o h fun _ => 0 := by
  have hz := (State.slots_zero_iff ho (w.writeNum ⟨o.tt, o.addr + 8⟩ 24 0)).1 (by rw [ho]; exact State.writeNum_same w (o.addr + 8) 24 (by decide))
  refine ⟨?_, hz, fun l hl => ?_⟩
  · rw [ho, ← hw.header]
    obtain ⟨tt, A⟩ := o
    obtain rfl : tt = 1 := ho
    exact State.writeNum_apart w (A + 8) 24 0 (.inl (by omega))
  · rw [ho, ← hw.others l hl]
    refine w.writeNum_byte_ne (o.addr + 8) 24 0 fun i hi => ?_
    rw [show o.addr + 8 + i = o.addr + (8 + i) by omega]
    exact hl (8 + i) (by omega)
end

/-! ### The unit's loop -/

/-- Nobody waits at o, seen at an issue. -/
theorem Scratched.unwatched {s w : State} {c : Meta} (h : Scratched s c w) {o : Loc} (hu : s.Unwatched o) : ∀ x ∈ w.allCtxs, ∀ p n, x.park ≠ some (.barrier o p) ∧
    x.park ≠ some (.barrierTimed o p n) := by
  intro x hx p n
  rcases List.mem_cons.1 hx with rfl | hx
  · rw [h.cur, State.charge_cur_park, hu.1]; simp
  · rw [h.ctxs] at hx; exact hu.2 x hx p n
theorem Scratched.parkedAt_none {s w : State} {c : Meta} (h : Scratched s c w) {o : Loc} (hu : s.Unwatched o) : w.parkedAt o = [] := by
  refine List.filter_eq_nil_iff.2 fun x hx => ?_
  have hp := h.unwatched hu x hx
  split
  · next o' p e => intro ho; rw [beq_iff_eq] at ho; exact (hp p 0).1 (ho ▸ e)
  · next o' p n e => intro ho; rw [beq_iff_eq] at ho; exact (hp p n).2 (ho ▸ e)
  · simp
theorem Scratched.parkedOn_none {s w : State} {c : Meta} (h : Scratched s c w) {o : Loc} (hu : s.Unwatched o) (p : Nat) : w.parkedOn o p = [] := by
  unfold State.parkedOn
  extract_lets l
  have hl : l = [] := by
    refine List.filter_eq_nil_iff.2 fun x hx => ?_
    have hp := h.unwatched hu x hx
    split
    · next o' q e => intro ho; rw [Bool.and_eq_true, beq_iff_eq] at ho; exact (hp q 0).1 (ho.1 ▸ e)
    · next o' q n e => intro ho; rw [Bool.and_eq_true, beq_iff_eq] at ho; exact (hp q n).2 (ho.1 ▸ e)
    · simp
  rw [hl]
  rfl
theorem Scratched.writeTo {s w : State} {c : Meta} (h : Scratched s c w) {o : Loc} (ho : o.tt = 1) (a n v : Nat) : Scratched s c (w.writeNum ⟨o.tt, a⟩ n v) := by
  rw [ho]; exact h.writeNum a n v
theorem Scratched.setBarSlot {s w : State} {c : Meta} (h : Scratched s c w) {o : Loc} (ho : o.tt = 1) (p n : Nat) (b : Int) : Scratched s c (w.setBarSlot o p n b) :=
  h.writeTo ho _ _ _
theorem State.startWaves_nil (s : State) (core why : Nat) : s.startWaves core [] why = s.updCore core fun k => { k with waves := k.waves ++ [] } := rfl

section loop
variable {s w : State} {c : Meta} {o : Loc} {h : Nat} {f : Nat → Nat} (ho : o.tt = 1)
include ho

/-- R176: when the loop goes on. -/
theorem barStep_cond (hw : s.BarrierIs w o h f) : (barValid h && decide (max (field h 19 0) 1 ≤ (w.barSlot o (barBase h)).1) &&
    (barMode h == 0 || (w.barSlot o (barBase h)).2 == 0)) = phaseDone h f := by
  have hmode : barMode h = h / 2 ^ 20 % 4 := by simp [barMode, field]
  have hcount : field h 19 0 = h % 2 ^ 20 := by simp [field]
  rw [State.barSlot_eq w ho, barBase_eq, hw.slots _ (Nat.mod_lt _ (by decide)), hmode, hcount]
  rfl

theorem barStep_idle (hw : s.BarrierIs w o h f) (hd : phaseDone h f = false) : w.barStep o = none := by
  have hcond := barStep_cond ho hw
  rw [hd] at hcond
  unfold State.barStep
  rw [State.barHeader_eq, hw.header]
  exact if_neg (by rw [hcond]; decide)

variable (hu : s.Unwatched o)
include hu

/-- A done phase's slot is cleared and `BASE` moves on. -/
theorem barStep_done (hs : Scratched s c w) (hw : s.BarrierIs w o h f) (hd : phaseDone h f = true) : ∃ v, w.barStep o = some v ∧ Scratched s c v ∧
    s.BarrierIs v o (h - basePhase h * 2 ^ 24 + (basePhase h + 1) % 2 ^ 32 * 2 ^ 24) fun k => if k = basePhase h % 4 then 0 else f k := by
  let x := w.setBarSlot o (basePhase h) 0 0
  let y := x.writeNum ⟨o.tt, o.addr + 3⟩ 4 ((basePhase h + 1) % 2 ^ 32)
  have hx : Scratched s c x := hs.setBarSlot ho _ _ _
  have hy : Scratched s c y := hx.writeTo ho _ _ _
  have hxb := hw.setSlot ho (basePhase h) 0 0
  have hyb := hxb.setBase ho (basePhase h + 1)
  have hz := hy.updCore o.core (fun k => { k with waves := k.waves ++ [] }) fun k => by simp
  refine ⟨y.updCore o.core fun k => { k with waves := k.waves ++ [] }, ?_, hz, hyb.header, hyb.slots, hyb.others⟩
  have hcond := barStep_cond ho hw
  rw [hd] at hcond
  unfold State.barStep
  rw [State.barHeader_eq, hw.header]
  refine (if_pos hcond).trans ?_
  rw [barBase_eq]
  exact congrArg some (by rw [show x.writeNum ⟨o.tt, o.addr + 3⟩ 4 ((basePhase h + 1) % 2 ^ 32) = y from rfl, hy.parkedOn_none hu, State.startWaves_nil])

theorem barSteps_phases : ∀ (n i : Nat) (w : State) (h : Nat) (f : Nat → Nat), Scratched s c w → s.BarrierIs w o h f →
    Scratched s c (iterate (fun _ s => (s.barStep o).getD s) n i w) ∧
      s.BarrierIs (iterate (fun _ s => (s.barStep o).getD s) n i w) o (phases n h f).1 (phases n h f).2
  | 0, _, _, _, _, hs, hw => ⟨hs, hw⟩
  | n + 1, i, w, h, f, hs, hw => by
    rw [iterate, phases]
    cases hd : phaseDone h f with
    | true =>
      obtain ⟨v, hv, hvs, hvw⟩ := barStep_done ho hu hs hw hd
      rw [hv, Option.getD_some, if_pos rfl]
      exact barSteps_phases n (i + 1) v _ _ hvs hvw
    | false =>
      have hrest := barSteps_phases n (i + 1) w h f hs hw
      have hp : phases n h f = (h, f) := by
        cases n with
        | zero => rfl
        | succ n => rw [phases, hd]; rfl
      rw [barStep_idle ho hw hd, Option.getD_none]
      rw [hp] at hrest
      exact hrest

/-- R176: the loop of the unit. -/
theorem barRun_phases (hs : Scratched s c w) (hw : s.BarrierIs w o h f) : Scratched s c (w.barRun o) ∧ s.BarrierIs (w.barRun o) o (phases 5 h f).1 (phases 5 h f).2 :=
  barSteps_phases ho hu 5 0 w h f hs hw
end loop

end Sys2Proof.Machine
end

section
/-!
PROOF. The barrier instructions (07 R177, Table 07-8): each on an object nobody waits at, and a phase beyond the open ones.
-/

namespace Sys2Proof.Machine

/-! ### An issue that comes to an object -/

/-- R177: what the leader of a barrier instruction does: K at the object its register names. -/
def syncBody (acc : Acc) (g : BitVec 3) (a : Nat) (zero : State → State) (K : Nat → State → Loc → Eff) (t : State) : Eff :=
  t.withLeader g fun i => t.atBarrier acc i (t.readS a) zero (K i)

section object
variable {s : State} (h : s.Ready) (ha : s.Alone) {g : BitVec 3} {l : Nat} (hl : s.Leads g l) {acc : Acc} {a : Nat} {o : Loc}
  (hn : s.NamesSp acc 32 32 l (s.rawS a) o)
include h ha hl hn

theorem charge_syncBody (m : Meta) (zero : State → State) (K : Nat → State → Loc → Eff) :
    ∃ v, Asking s m v ∧ syncBody acc g a zero K (s.charge m) = K l v o := by
  rw [syncBody, withLeader_leads h hl m, charge_readS h]
  exact charge_atBarrier ha m hn zero (K l)

variable (sm : Bool) (ss : List Nat) {zero : State → State} {K : Nat → State → Loc → Eff} {body : State → Eff}

/-- An operation that answers: its effect u satisfies what K makes of every request. -/
theorem issue_object {nr : Bool} (hb : body (s.charge (syncMeta sm g ss nr)) = syncBody acc g a zero K (s.charge (syncMeta sm g ss nr))) {x : DVal} {P : State → Prop}
    (hK : ∀ v, Asking s (syncMeta sm g ss nr) v → ∃ u w, K l v o = .done (w.defer [x] 0 0 true) ∧ u.Keeps w ∧ w.cur = v.cur ∧ P u)
    (hx : x.plain = true := by rfl) :
    ∃ t u, issue (syncMeta sm g ss nr) s body = .next t ∧ s.Returns (u.mark nr) t 4 sm [x] ∧ P u := by
  obtain ⟨v, hv, hve⟩ := charge_syncBody h ha hl hn (syncMeta sm g ss nr) zero K
  obtain ⟨u, w, hw, hk, hc, hp⟩ := hK v hv
  obtain ⟨t, h1, h2⟩ := issue_result h (m := syncMeta sm g ss nr) (xWord_ok h hl (Nat.zero_le _)) (.inr ha.tx) (hb.trans (hve.trans hw)) hk
    (hc.trans hv.cached.cur) hx
  exact ⟨t, u, h1, h2, hp⟩

/-- R341: an operation that parks. -/
theorem issue_object_waits (hb : body (s.charge (syncMeta sm g ss false)) = syncBody acc g a zero K (s.charge (syncMeta sm g ss false))) {p : Park}
    (hK : ∀ v, Asking s (syncMeta sm g ss false) v → K l v o = .wait v p) :
    ∃ t u, issue (syncMeta sm g ss false) s body = .next t ∧ s.Requested u ∧ u.Waits t p := by
  obtain ⟨v, hv, hve⟩ := charge_syncBody h ha hl hn (syncMeta sm g ss false) zero K
  obtain ⟨t, h1, h2⟩ := issue_waits h (m := syncMeta sm g ss false) (xWord_ok h hl (Nat.zero_le _)) (.inr ha.tx) (hb.trans (hve.trans (hK v hv))) hv.accessed.keeps rfl
    hv.cached.cur
  exact ⟨t, s.restOf v, h1, hv.requested, h2⟩
end object

/-! ### The object an effect leaves -/

theorem Asking.barrierIs {s v : State} {c : Meta} (h : Asking s c v) (o : Loc) : s.BarrierIs v o (s.header o) (s.slotOf o) :=
  ⟨h.readNum _ _, fun _ _ => h.readNum _ _, fun l _ => h.readByte l⟩

/-- What `ObjectAfter` says of the effect that a barrier operation marks. -/
theorem Scratched.objectAfter {s w : State} {c : Meta} (hs : Scratched s c w) {o : Loc} {h : Nat} {f : Nat → Nat}
    (hw : s.BarrierIs w o (phases 5 h f).1 (phases 5 h f).2) : s.ObjectAfter ((s.restOf w).mark true) o h f := by
  have hb : ∀ l, ((s.restOf w).mark true).readByte l = w.readByte l := fun l => State.restOf_readByte hs.accessed l
  refine ⟨?_, ⟨hs.accessed.numbered.1, hs.accessed.numbered.2⟩, fun _ => rfl, ?_, fun k hk => ?_, fun l hl => (hb l).trans (hw.others l hl)⟩
  · rw [State.mark_true, hs.restOf_same]
  · exact (State.readNum_congr fun _ _ => hb _).trans hw.header
  · exact (State.readNum_congr fun _ _ => hb _).trans (hw.slots k hk)
/-- The loop of the unit on what an operation wrote. -/
theorem Scratched.barRun_objectAfter {s w : State} {c : Meta} (hs : Scratched s c w) {o : Loc} (ho : o.tt = 1) (hu : s.Unwatched o) {h : Nat} {f : Nat → Nat}
    (hw : s.BarrierIs w o h f) : Scratched s c (w.barRun o) ∧ s.ObjectAfter ((s.restOf (w.barRun o)).mark true) o h f := by
  obtain ⟨h1, h2⟩ := barRun_phases ho hu hs hw
  exact ⟨h1, h1.objectAfter h2⟩
theorem phases_invalid (n : Nat) {h : Nat} (hv : h.testBit 63 = false) (f : Nat → Nat) : phases n h f = (h, f) := by
  cases n with
  | zero => rfl
  | succ n => simp [phases, phaseDone, hv]
theorem Scratched.wakeLate {s w : State} {c : Meta} (hs : Scratched s c w) {o : Loc} (hu : s.Unwatched o) : w.wakeLate o = w := by
  unfold State.wakeLate
  rw [hs.parkedAt_none hu]
  rfl

/-! ### Phases -/

theorem phaseOf_eq (h p : Nat) : phaseOf h p = if phaseAt h p < 4 then .isOpen else if 2 ^ 31 ≤ phaseAt h p then .late else .beyond := by
  rw [phaseOf, barBase_eq]; rfl
/-- R177: what an arrival or a wait finds. -/
theorem phase_open {h p : Nat} (hp : h.testBit 63 = false ∨ phaseAt h p < 4) : (if barValid h then phaseOf h p else .isOpen) = Phase.isOpen := by
  rcases hp with hp | hp
  · exact if_neg (by rw [barValid, hp]; decide)
  · rw [phaseOf_eq, if_pos hp]; exact ite_self _
theorem phase_late {h p : Nat} (hv : h.testBit 63 = true) (hp : 2 ^ 31 ≤ phaseAt h p) : (if barValid h then phaseOf h p else .isOpen) = Phase.late := by
  rw [phaseOf_eq, if_neg (show ¬ phaseAt h p < 4 by omega), if_pos hp]; exact if_pos hv
theorem phase_beyond {h p : Nat} (hv : h.testBit 63 = true) (h4 : 4 ≤ phaseAt h p) (hp : phaseAt h p < 2 ^ 31) :
    (if barValid h then phaseOf h p else .isOpen) = Phase.beyond := by
  rw [phaseOf_eq, if_neg (show ¬ phaseAt h p < 4 by omega), if_neg (show ¬ 2 ^ 31 ≤ phaseAt h p by omega)]; exact if_pos hv

/-! ### Initialisation and invalidation -/

/-- R155: the group table of the launch, under the counters of an issue. -/
theorem Asking.gtable {s v : State} {c : Meta} (h : Asking s c v) : (v.launch v.cur.launch).gtable = (s.launch s.cur.launch).gtable := by
  have hl := congrArg Launch.gtable (h.cached.launches s.cur.launch)
  rw [charge_launch] at hl
  rw [h.cached.cur, State.charge_cur_launch]
  exact hl

/-- Table 07-8: the header an initialisation with the word w writes, where the constellation it names has n groups. -/
def initHeader (w n : Nat) : Nat :=
  (if w / 2 ^ 24 % 2 ^ 8 = 0xFF then w % 2 ^ 20 else n % 2 ^ 20) + w / 2 ^ 20 % 4 * 2 ^ 20 + w / 2 ^ 32 * 2 ^ 24 + 2 ^ 63
theorem initHeader_lt {w : Nat} (hw : w < 2 ^ 64) (n : Nat) : initHeader w n < 256 ^ 8 := by
  unfold initHeader
  split <;> omega
theorem initHeader_eq {w : Nat} (hw : w < 2 ^ 64) (n : Nat) :
    (if field w 31 24 = 0xFF then field w 19 0 else n) % 2 ^ 20 + field w 21 20 * 2 ^ 20 + field w 63 32 * 2 ^ 24 + 2 ^ 63 = initHeader w n := by
  have hcon : field w 31 24 = w / 2 ^ 24 % 2 ^ 8 := rfl
  have hlow : field w 19 0 = w % 2 ^ 20 := by simp [field]
  have hhigh : field w 63 32 = w / 2 ^ 32 := Nat.mod_eq_of_lt (by omega)
  rw [hcon, hlow, hhigh, initHeader, show field w 21 20 = w / 2 ^ 20 % 4 from rfl, apply_ite (· % 2 ^ 20), Nat.mod_mod]

/-- What `bar.init` does at its object. -/
def barInitAt (p b : Nat) (_ : Nat) (t : State) (o : Loc) : Eff :=
  let w := (t.readS b).toNat
  let old := t.readNum ⟨o.tt, o.addr + 8⟩ 24
  let con := field w 31 24
  let expect := if con = 0xFF then field w 19 0 else (t.launch t.cur.launch).conSize con
  let t := t.writeNum o 8 (expect % 2 ^ 20 + field w 21 20 * 2 ^ 20 + field w 63 32 * 2 ^ 24 + 2 ^ 63)
  let t := if w.testBit 22 then t else t.writeNum ⟨o.tt, o.addr + 8⟩ 24 0
  .done (((t.barRun o).wakeLate o).deferP p (old != 0))
theorem execBarInit_eq (sm : Bool) (g d : BitVec 3) (a b : BitVec 6) (s : State) : exec (.barInit sm g d a b) s =
    issue (syncMeta sm g [a.toNat, b.toNat] true) s (syncBody .counted g a.toNat (fun u => u.deferP d.toNat false) (barInitAt d.toNat b.toNat)) := rfl

/-- R175: whether a slot held a count. -/
theorem slots_used {o : Loc} (ho : o.tt = 1) (v : State) : (if v.readNum ⟨o.tt, o.addr + 8⟩ 24 != 0 then allLanes else 0) =
    if (List.range 4).all fun k => v.slotOf o k == 0 then (0 : Mask) else allLanes := by
  by_cases hz : v.readNum ⟨o.tt, o.addr + 8⟩ 24 = 0
  · have hall : ((List.range 4).all fun k => v.slotOf o k == 0) = true := by
      simpa using (State.slots_zero_iff ho v).1 hz
    rw [hz, hall]; rfl
  · have hall : ((List.range 4).all fun k => v.slotOf o k == 0) = false := by
      rw [← Bool.not_eq_true]
      intro hall
      exact hz ((State.slots_zero_iff ho v).2 (by simpa using hall))
    rw [hall, if_pos (by simpa using hz)]; rfl

/-- Table 07-7: the slot k after a count at phase p: arrivals, or one arrival and expected bytes. -/
def State.countedSlot (s : State) (o : Loc) (p add bytes : Nat) (expect : Bool) (k : Nat) : Nat :=
  if k = p % 4 then
    slotValue (arrivals (s.slotOf o k) + if expect then (if s.header o / 2 ^ 20 % 4 = 1 then 1 else 0) else add)
      (if expect then balance (s.slotOf o k) - bytes else balance (s.slotOf o k))
  else s.slotOf o k

section steps
variable {s v : State} {c : Meta} (h : s.Ready) (hv : Asking s c v) {o : Loc} (ho : o.tt = 1) (hu : s.Unwatched o)
include hv ho hu

include h in
theorem barInitAt_eq (d b l : Nat) {w : Nat} (hw : w = (s.rawS b).toNat) : ∃ x, Scratched s c x ∧
    barInitAt d b l v o = .done (x.defer [.prd d allLanes (if (List.range 4).all fun k => s.slotOf o k == 0 then 0 else allLanes) 0] 0 0 true) ∧
    s.ObjectAfter ((s.restOf x).mark true) o (initHeader w ((s.launch s.cur.launch).gtable.filter fun e => e.2.2.contains (w / 2 ^ 24 % 2 ^ 8)).length)
      fun k => if w.testBit 22 then s.slotOf o k else 0 := by
  have hlt : w < 2 ^ 64 := hw ▸ (s.rawS b).isLt
  let n := ((s.launch s.cur.launch).gtable.filter fun e => e.2.2.contains (w / 2 ^ 24 % 2 ^ 8)).length
  let y := v.writeNum o 8 (initHeader w n)
  let z := if w.testBit 22 then y else y.writeNum ⟨o.tt, o.addr + 8⟩ 24 0
  have hys : Scratched s c y := hv.scratched.writeTo ho o.addr 8 _
  have hyb : s.BarrierIs y o (initHeader w n) (s.slotOf o) := (hv.barrierIs o).setHeader ho (initHeader_lt hlt n)
  have hz : Scratched s c z ∧ s.BarrierIs z o (initHeader w n) fun k => if w.testBit 22 then s.slotOf o k else 0 := by
    cases hb : w.testBit 22 with
    | true => simp only [z, hb, if_true]; exact ⟨hys, hyb⟩
    | false => simp only [z, hb, Bool.false_eq_true, if_false]; exact ⟨hys.writeTo ho _ _ _, hyb.clearSlots ho⟩
  obtain ⟨hxs, hxo⟩ := hz.1.barRun_objectAfter ho hu hz.2
  refine ⟨z.barRun o, hxs, ?_, hxo⟩
  have hslots : ((List.range 4).all fun k => v.slotOf o k == 0) = (List.range 4).all fun k => s.slotOf o k == 0 := by
    simp only [State.slotOf, hv.readNum]
  have hcon : (v.launch v.cur.launch).conSize (field w 31 24) = n := by
    rw [Launch.conSize, hv.gtable]; rfl
  simp only [barInitAt, hv.accessed.readS h, ← hw, hcon, initHeader_eq hlt, State.deferP, slots_used ho, hslots]
  exact congrArg (fun q : State => Eff.done (q.defer _ 0 0 true)) (hxs.wakeLate hu)

/-- What `bar.inval` does at its object. -/
def barInvalAt (d : Nat) (_ : Nat) (t : State) (o : Loc) : Eff :=
  let h := t.barHeader o
  let t := (t.writeNum o 8 (h % 2 ^ 63)).writeNum ⟨o.tt, o.addr + 8⟩ 24 0
  .done (((t.parkedAt o).foldl (fun t c => t.wake c.id 1) t).deferS d 0)

theorem barInvalAt_eq (d l : Nat) : ∃ x, Scratched s c x ∧ barInvalAt d l v o = .done (x.defer [.uni d 0 false] 0 0 true) ∧
    s.ObjectAfter ((s.restOf x).mark true) o (s.header o % 2 ^ 63) fun _ => 0 := by
  let x := (v.writeNum o 8 (s.header o % 2 ^ 63)).writeNum ⟨o.tt, o.addr + 8⟩ 24 0
  have hxs : Scratched s c x := (hv.scratched.writeTo ho o.addr 8 _).writeTo ho _ _ _
  have hxb : s.BarrierIs x o (s.header o % 2 ^ 63) fun _ => 0 :=
    ((hv.barrierIs o).setHeader ho ((Nat.mod_lt _ (by decide)).trans (by decide))).clearSlots ho
  have hbit : (s.header o % 2 ^ 63).testBit 63 = false := Nat.testBit_lt_two_pow (Nat.mod_lt _ (by decide))
  refine ⟨x, hxs, ?_, hxs.objectAfter (by rw [phases_invalid 5 hbit]; exact hxb)⟩
  have hh : v.barHeader o = s.header o := hv.readNum o 8
  simp only [barInvalAt, hh]
  rw [show (v.writeNum o 8 (s.header o % 2 ^ 63)).writeNum ⟨o.tt, o.addr + 8⟩ 24 0 = x from rfl, hxs.parkedAt_none hu]
  rfl

/-- R177: an arrival at an open phase, or at an object that is not valid. -/
theorem barCount_eq {p : Nat} (add bytes : Nat) (expect : Bool) : Scratched s c (v.barCount o p add bytes expect).1 ∧
    s.ObjectAfter ((s.restOf (v.barCount o p add bytes expect).1).mark true) o (s.header o) (s.countedSlot o p add bytes expect) := by
  have hmode : barMode (s.header o) = s.header o / 2 ^ 20 % 4 := by simp [barMode, field]
  have hslot : v.slotOf o (p % 4) = s.slotOf o (p % 4) := hv.readNum _ _
  have hh : v.barHeader o = s.header o := hv.readNum o 8
  have hset := (hv.barrierIs o).setSlot ho p (satArrived (arrivals (s.slotOf o (p % 4)) + if expect then (if s.header o / 2 ^ 20 % 4 = 1 then 1 else 0) else add))
    (satBalance (if expect then balance (s.slotOf o (p % 4)) - bytes else balance (s.slotOf o (p % 4))))
  simp only [slotBits_eq] at hset
  have hrun := (hv.scratched.setBarSlot ho p _ _).barRun_objectAfter ho hu hset
  simp only [State.barCount, State.barSlot_eq v ho, hslot, hh, hmode]
  refine ⟨hrun.1, ?_⟩
  convert hrun.2 using 2
  rw [State.countedSlot]
  split
  · next e => rw [e]
  · rfl
end steps

end Sys2Proof.Machine
end

section
/-!
PROOF. Arrivals, expected bytes and waits (07 R177, Table 07-8), and what a phase beyond the open ones raises.
-/

namespace Sys2Proof.Machine

theorem barInit_object (sm : Bool) (g d : BitVec 3) (a b : BitVec 6) (s : State) (l : Nat) (o : Loc) (w : Nat) (h : s.Ready) (ha : s.Alone) (hl : s.Leads g l)
    (hn : s.NamesSp .counted 32 32 l (s.rawS a.toNat) o) (hu : s.Unwatched o) (hw : w = (s.rawS b.toNat).toNat) : ∃ t u, exec (.barInit sm g d a b) s = .next t ∧
      s.Returns u t 4 sm [.prd d.toNat allLanes (if (List.range 4).all fun k => s.slotOf o k == 0 then 0 else allLanes) 0] ∧
      s.ObjectAfter u o (initHeader w ((s.launch s.cur.launch).gtable.filter fun e => e.2.2.contains (w / 2 ^ 24 % 2 ^ 8)).length)
        (fun k => if w.testBit 22 then s.slotOf o k else 0) := by
  obtain ⟨t, u, h1, h2, h3⟩ := issue_object h ha hl hn sm [a.toNat, b.toNat] (nr := true) (body := syncBody .counted g a.toNat _ (barInitAt d.toNat b.toNat)) rfl
    (P := fun u => s.ObjectAfter (u.mark true) o (initHeader w ((s.launch s.cur.launch).gtable.filter fun e => e.2.2.contains (w / 2 ^ 24 % 2 ^ 8)).length)
      fun k => if w.testBit 22 then s.slotOf o k else 0) fun v hv => by
    obtain ⟨x, hx, he, ho⟩ := barInitAt_eq h hv hn.tt hu d.toNat b.toNat l hw
    exact ⟨s.restOf x, x, he, hx.accessed.keeps, hx.cur.trans hv.cached.cur.symm, ho⟩
  exact ⟨t, u.mark true, (execBarInit_eq sm g d a b s).trans h1, h2, h3⟩

theorem barInval_object (sm : Bool) (g : BitVec 3) (d a : BitVec 6) (s : State) (l : Nat) (o : Loc) (h : s.Ready) (ha : s.Alone) (hl : s.Leads g l)
    (hn : s.NamesSp .counted 32 32 l (s.rawS a.toNat) o) (hu : s.Unwatched o) : ∃ t u, exec (.barInval sm g d a) s = .next t ∧
      s.Returns u t 4 sm [.uni d.toNat 0 false] ∧ s.ObjectAfter u o (s.header o % 2 ^ 63) fun _ => 0 := by
  obtain ⟨t, u, h1, h2, h3⟩ := issue_object h ha hl hn sm [a.toNat] (nr := true) (body := syncBody .counted g a.toNat (fun u => u.deferS d.toNat 0) (barInvalAt d.toNat)) rfl
    (P := fun u => s.ObjectAfter (u.mark true) o (s.header o % 2 ^ 63) fun _ => 0) fun v hv => by
    obtain ⟨x, hx, he, ho⟩ := barInvalAt_eq hv hn.tt hu d.toNat l
    exact ⟨s.restOf x, x, he, hx.accessed.keeps, hx.cur.trans hv.cached.cur.symm, ho⟩
  exact ⟨t, u.mark true, h1, h2, h3⟩

/-! ### Arrivals and expected bytes -/

/-- What `bar.arrive` and `bar.expect` do at their object, with the fields of s(b). -/
def barArriveAt (d a b : Nat) (l : Nat) (t : State) (o : Loc) : Eff :=
  t.barArrival o l (t.readS a) d (field (t.readS b).toNat 31 0) (field (t.readS b).toNat 51 32) 0 false
def barExpectAt (d a b : Nat) (l : Nat) (t : State) (o : Loc) : Eff :=
  t.barArrival o l (t.readS a) d (field (t.readS b).toNat 31 0) 0 (field (t.readS b).toNat 59 32) true
theorem execBarArrive_eq (sm : Bool) (g : BitVec 3) (d a b : BitVec 6) (s : State) : exec (.barArrive sm g d a b) s =
    issue (syncMeta sm g [a.toNat, b.toNat] true) s (syncBody .counted g a.toNat (fun u => u.deferS d.toNat 0) (barArriveAt d.toNat a.toNat b.toNat)) := rfl
theorem execBarExpect_eq (sm : Bool) (g : BitVec 3) (d a b : BitVec 6) (s : State) : exec (.barExpect sm g d a b) s =
    issue (syncMeta sm g [a.toNat, b.toNat] true) s (syncBody .counted g a.toNat (fun u => u.deferS d.toNat 0) (barExpectAt d.toNat a.toNat b.toNat)) := rfl

theorem saturates_iff {x : Int} (hx : x < 2 ^ 27) : (x != satBalance x) = decide (x < -(2 ^ 27)) := by
  rw [Bool.eq_iff_iff, bne_iff_ne, decide_eq_true_iff, satBalance]
  omega
theorem ofNat_answer (p q : Prop) [Decidable p] [Decidable q] : BitVec.ofNat 64 (if p then 4 else if q then 1 else 2) = (if p then 4 else if q then 1 else 2 : W64) := by
  split
  · rfl
  · split <;> rfl

/-- Table 07-8: the answer of a count: `BALANCE` saturated, or whether the object is valid. -/
def State.countAnswer (s : State) (o : Loc) (p bytes : Nat) (expect : Bool) : W64 :=
  if expect = true ∧ balance (s.slotOf o (p % 4)) - bytes < -(2 ^ 27) then 4 else if (s.header o).testBit 63 then 1 else 2

section arrival
variable {s : State} (h : s.Ready) (ha : s.Alone) {g : BitVec 3} {l : Nat} (hl : s.Leads g l) (sm : Bool) (d a b : BitVec 6) {o : Loc}
  (hn : s.NamesSp .counted 32 32 l (s.rawS a.toNat) o)
include h ha hl hn

/-- A late phase: the answer is 3. -/
theorem barArrival_late {K : Nat → State → Loc → Eff} {add bytes : Nat} {expect : Bool} (hv : (s.header o).testBit 63 = true)
    (hp : 2 ^ 31 ≤ phaseAt (s.header o) ((s.rawS b.toNat).toNat % 2 ^ 32))
    (hK : ∀ v, v.readS b.toNat = s.rawS b.toNat → K l v o = v.barArrival o l (v.readS a.toNat) d.toNat (field (s.rawS b.toNat).toNat 31 0) add bytes expect) :
    ∃ t u, issue (syncMeta sm g [a.toNat, b.toNat] true) s (syncBody .counted g a.toNat (fun u => u.deferS d.toNat 0) K) = .next t ∧
      s.Requested u ∧ s.Returns { u with cur := { s.cur with dirty := true } } t 4 sm [.uni d.toNat 3 false] := by
  obtain ⟨t, u, h1, h2, h3, h4⟩ := issue_object h ha hl hn sm [a.toNat, b.toNat] (nr := true) (K := K) (x := .uni d.toNat 3 false)
    (zero := fun u => u.deferS d.toNat 0) rfl (P := fun u => s.Requested u ∧ u.cur = s.cur) fun v hv' => by
    refine ⟨s.restOf v, v, ?_, hv'.accessed.keeps, rfl, hv'.requested, rfl⟩
    have hh : v.barHeader o = s.header o := hv'.readNum o 8
    rw [hK v (hv'.accessed.readS h _), State.barArrival, hh, field_low, phase_late hv hp]
    rfl
  rw [State.mark_true, h4] at h2
  exact ⟨t, u, h1, h3, h2⟩

/-- An open phase, or an object that is not valid: the counts go into the slot. -/
theorem barArrival_open {K : Nat → State → Loc → Eff} {add bytes : Nat} {expect : Bool} (hu : s.Unwatched o) {p : Nat} (hp : p = (s.rawS b.toNat).toNat % 2 ^ 32)
    (hv : (s.header o).testBit 63 = false ∨ phaseAt (s.header o) p < 4)
    (hK : ∀ v, v.readS b.toNat = s.rawS b.toNat → K l v o = v.barArrival o l (v.readS a.toNat) d.toNat (field (s.rawS b.toNat).toNat 31 0) add bytes expect) :
    ∃ t u, issue (syncMeta sm g [a.toNat, b.toNat] true) s (syncBody .counted g a.toNat (fun u => u.deferS d.toNat 0) K) = .next t ∧
      s.Returns u t 4 sm [.uni d.toNat (s.countAnswer o p bytes expect) false] ∧
      s.ObjectAfter u o (s.header o) (s.countedSlot o p add bytes expect) := by
  obtain ⟨t, u, h1, h2, h3⟩ := issue_object h ha hl hn sm [a.toNat, b.toNat] (nr := true) (K := K)
    (x := .uni d.toNat (s.countAnswer o p bytes expect) false)
    (zero := fun u => u.deferS d.toNat 0) rfl
    (P := fun u => s.ObjectAfter (u.mark true) o (s.header o) (s.countedSlot o p add bytes expect)) fun v hv' => by
    obtain ⟨hx, ho⟩ := barCount_eq hv' hn.tt hu (p := p) add bytes expect
    refine ⟨_, _, ?_, hx.accessed.keeps, hx.cur.trans hv'.cached.cur.symm, ho⟩
    have hh : v.barHeader o = s.header o := hv'.readNum o 8
    have hslot : v.slotOf o (p % 4) = s.slotOf o (p % 4) := hv'.readNum _ _
    have hb := (balance_bounds (s.slotOf o (p % 4))).2
    rw [hK v (hv'.accessed.readS h _), State.barArrival, hh, field_low, ← hp, phase_open hv]
    have hans : (v.barCount o p add bytes expect).2 =
        if expect = true ∧ balance (s.slotOf o (p % 4)) - bytes < -(2 ^ 27) then 4 else if (s.header o).testBit 63 then 1 else 2 := by
      cases expect with
      | false => simp [State.barCount, hh, barValid]
      | true =>
        simp only [State.barCount, hh, barValid, State.barSlot_eq v hn.tt, hslot, if_true, saturates_iff (show balance (s.slotOf o (p % 4)) - (bytes : Int) < 2 ^ 27 by omega), Bool.true_and, decide_eq_true_eq, true_and]
    simp only [hans, ofNat_answer, State.deferS, State.countAnswer]
  exact ⟨t, u.mark true, h1, h2, h3⟩
end arrival

/-! ### Waits -/

/-- What `bar.wait` and `bar.twait` do at their object. -/
def barWaitAt (d a b : Nat) (l : Nat) (t : State) (o : Loc) : Eff :=
  match t.barState o (field (t.readS b).toNat 31 0) with
  | .late => .done ((t.acquire 1).deferS d 0)
  | .beyond => .event t (t.phaseOver l (t.readS a))
  | .isOpen => .wait t (.barrier o (field (t.readS b).toNat 31 0))
def barTwaitAt (q a b : Nat) (l : Nat) (t : State) (o : Loc) : Eff :=
  match t.barState o (field (t.readS b).toNat 31 0) with
  | .late => .done ((t.acquire 1).deferP q true)
  | .beyond => .event t (t.phaseOver l (t.readS a))
  | .isOpen =>
    if field (t.readS b).toNat 63 32 = 0 then .done (t.deferP q false)
    else .wait t (.barrierTimed o (field (t.readS b).toNat 31 0) ((t.core t.cur.core).span.toNat + field (t.readS b).toNat 63 32 * 444))
/-- What a wait that was not woken runs, and a woken one. -/
def barWaitBody (g : BitVec 3) (d a b : Nat) (t : State) : Eff :=
  t.withLeader g fun i =>
    match t.cur.woken with
    | 1 => .done (t.deferS d 1)
    | 2 => .done ((t.acquire 1).deferS d 0)
    | _ => t.atBarrier .watched i (t.readS a) (fun u => u.deferS d 0) (barWaitAt d a b i)
def barTwaitBody (g : BitVec 3) (q a b : Nat) (t : State) : Eff :=
  t.withLeader g fun i =>
    match t.cur.woken with
    | 1 => .done (t.deferP q false)
    | 2 => .done ((t.acquire 1).deferP q true)
    | 3 => .done (t.deferP q false)
    | _ => t.atBarrier .watched i (t.readS a) (fun u => u.deferP q false) (barTwaitAt q a b i)
theorem execBarWait_eq (sm : Bool) (g : BitVec 3) (d a b : BitVec 6) (s : State) : exec (.barWait sm g d a b) s =
    issue (syncMeta sm g [a.toNat, b.toNat] false) s (barWaitBody g d.toNat a.toNat b.toNat) := rfl
theorem execBarTwait_eq (sm : Bool) (g q : BitVec 3) (a b : BitVec 6) (s : State) : exec (.barTwait sm g q a b) s =
    issue (syncMeta sm g [a.toNat, b.toNat] false) s (barTwaitBody g q.toNat a.toNat b.toNat) := rfl
theorem barWaitBody_first {s : State} (hw : s.cur.woken = 0) (m : Meta) (g : BitVec 3) (d a b : Nat) :
    barWaitBody g d a b (s.charge m) = syncBody .watched g a (fun u => u.deferS d 0) (barWaitAt d a b) (s.charge m) := by
  simp only [barWaitBody, syncBody, State.charge_cur_woken, hw]
theorem barTwaitBody_first {s : State} (hw : s.cur.woken = 0) (m : Meta) (g : BitVec 3) (q a b : Nat) :
    barTwaitBody g q a b (s.charge m) = syncBody .watched g a (fun u => u.deferP q false) (barTwaitAt q a b) (s.charge m) := by
  simp only [barTwaitBody, syncBody, State.charge_cur_woken, hw]

theorem Asking.barState {s v : State} {c : Meta} (hv : Asking s c v) (o : Loc) (p : Nat) : v.barState o p =
    if barValid (s.header o) then phaseOf (s.header o) p else .isOpen := by
  have hh : v.barHeader o = s.header o := hv.readNum o 8
  rw [State.barState, hh]

section wait
variable {s : State} (h : s.Ready) (ha : s.Alone) {g : BitVec 3} {l : Nat} (hl : s.Leads g l) (hw : s.cur.woken = 0) (sm : Bool) (d a b : BitVec 6) (q : BitVec 3) {o : Loc}
  (hn : s.NamesSp .watched 32 32 l (s.rawS a.toNat) o)
include h

variable {v : State} {c : Meta} {p : Nat} (hv : Asking s c v) (hp : p = (s.rawS b.toNat).toNat % 2 ^ 32)
include hv hp

theorem barWaitAt_late (hs : (if barValid (s.header o) then phaseOf (s.header o) p else .isOpen) = Phase.late) :
    barWaitAt d.toNat a.toNat b.toNat l v o = .done ((v.acquire 1).defer [.uni d.toNat 0 false] 0 0 true) := by
  simp only [barWaitAt, hv.accessed.readS h, field_low, ← hp, hv.barState, hs]; rfl
theorem barTwaitAt_late (hs : (if barValid (s.header o) then phaseOf (s.header o) p else .isOpen) = Phase.late) :
    barTwaitAt q.toNat a.toNat b.toNat l v o = .done ((v.acquire 1).defer [.prd q.toNat allLanes allLanes 0] 0 0 true) := by
  simp only [barTwaitAt, hv.accessed.readS h, field_low, ← hp, hv.barState, hs]; rfl
theorem barWaitAt_open (hs : (if barValid (s.header o) then phaseOf (s.header o) p else .isOpen) = Phase.isOpen) :
    barWaitAt d.toNat a.toNat b.toNat l v o = .wait v (.barrier o p) := by
  simp only [barWaitAt, hv.accessed.readS h, field_low, ← hp, hv.barState, hs]
theorem barTwaitAt_open (hs : (if barValid (s.header o) then phaseOf (s.header o) p else .isOpen) = Phase.isOpen) :
    barTwaitAt q.toNat a.toNat b.toNat l v o = if (s.rawS b.toNat).toNat / 2 ^ 32 = 0 then .done (v.defer [.prd q.toNat allLanes 0 0] 0 0 true)
      else .wait v (.barrierTimed o p (s.myCore.span.toNat + (s.rawS b.toNat).toNat / 2 ^ 32 * 444)) := by
  have hhint : field (s.rawS b.toNat).toNat 63 32 = (s.rawS b.toNat).toNat / 2 ^ 32 := Nat.mod_eq_of_lt (by have := (s.rawS b.toNat).isLt; omega)
  have hspan : (v.core v.cur.core).span = s.myCore.span := by
    rw [hv.cores, hv.cached.cur, State.charge_cur_core]
    exact (congrArg Core.span ((State.charge_keeps s c).2.1 s.cur.core) :)
  simp only [barTwaitAt, hv.accessed.readS h, field_low, ← hp, hv.barState, hs, hhint, hspan]
  rfl
theorem barWaitAt_beyond (hs : (if barValid (s.header o) then phaseOf (s.header o) p else .isOpen) = Phase.beyond) :
    barWaitAt d.toNat a.toNat b.toNat l v o = .event v (v.phaseOver l (s.rawS a.toNat)) := by
  simp only [barWaitAt, hv.accessed.readS h, field_low, ← hp, hv.barState, hs]
theorem barTwaitAt_beyond (hs : (if barValid (s.header o) then phaseOf (s.header o) p else .isOpen) = Phase.beyond) :
    barTwaitAt q.toNat a.toNat b.toNat l v o = .event v (v.phaseOver l (s.rawS a.toNat)) := by
  simp only [barTwaitAt, hv.accessed.readS h, field_low, ← hp, hv.barState, hs]

omit hv hp
include ha hl hw hn

/-- R177: a late phase lets the wait go on, as an acquire. -/
theorem barWaits_late (hv : (s.header o).testBit 63 = true) (hp : 2 ^ 31 ≤ phaseAt (s.header o) ((s.rawS b.toNat).toNat % 2 ^ 32)) :
    (∃ t u, exec (.barWait sm g d a b) s = .next t ∧ s.Requested u ∧ s.Returns (u.withL1 []) t 4 sm [.uni d.toNat 0 false]) ∧
      ∃ t u, exec (.barTwait sm g q a b) s = .next t ∧ s.Requested u ∧ s.Returns (u.withL1 []) t 4 sm [.prd q.toNat allLanes allLanes 0] := by
  have hacq : ∀ v, Asking s (syncMeta sm g [a.toNat, b.toNat] false) v → ((s.restOf v).withL1 []).Keeps (v.acquire 1) := fun v hv' =>
    hv'.accessed.keeps.withL1 (by rw [hv'.cached.cur, State.charge_cur_core]; rfl) []
  rw [execBarWait_eq, execBarTwait_eq]
  constructor
  · obtain ⟨t, u, h1, h2, u', h3, rfl⟩ := issue_object h ha hl hn sm [a.toNat, b.toNat] (nr := false) (x := .uni d.toNat 0 false)
      (barWaitBody_first hw _ _ d.toNat _ b.toNat) (P := fun u => ∃ u', s.Requested u' ∧ u = u'.withL1 []) fun v hv' => ⟨(s.restOf v).withL1 [], v.acquire 1,
        barWaitAt_late h d a b hv' rfl (phase_late hv hp), hacq v hv', rfl, s.restOf v, hv'.requested, rfl⟩
    exact ⟨t, u', h1, h3, by rwa [State.mark_false] at h2⟩
  · obtain ⟨t, u, h1, h2, u', h3, rfl⟩ := issue_object h ha hl hn sm [a.toNat, b.toNat] (nr := false) (x := .prd q.toNat allLanes allLanes 0)
      (barTwaitBody_first hw _ _ q.toNat _ b.toNat) (P := fun u => ∃ u', s.Requested u' ∧ u = u'.withL1 []) fun v hv' => ⟨(s.restOf v).withL1 [], v.acquire 1,
        barTwaitAt_late h a b q hv' rfl (phase_late hv hp), hacq v hv', rfl, s.restOf v, hv'.requested, rfl⟩
    exact ⟨t, u', h1, h3, by rwa [State.mark_false] at h2⟩

/-- R177: an open phase, or an object that is not valid, parks; a hint of 0 does not. -/
theorem barWaits_open {p : Nat} (hps : p = (s.rawS b.toNat).toNat % 2 ^ 32) (hp : (s.header o).testBit 63 = false ∨ phaseAt (s.header o) p < 4) :
    (∃ t u, exec (.barWait sm g d a b) s = .next t ∧ s.Requested u ∧ u.Waits t (.barrier o p)) ∧
      ∃ t u, exec (.barTwait sm g q a b) s = .next t ∧ s.Requested u ∧
        ((s.rawS b.toNat).toNat / 2 ^ 32 = 0 → s.Returns u t 4 sm [.prd q.toNat allLanes 0 0]) ∧
        ((s.rawS b.toNat).toNat / 2 ^ 32 ≠ 0 → u.Waits t (.barrierTimed o p (s.myCore.span.toNat + (s.rawS b.toNat).toNat / 2 ^ 32 * 444))) := by
  rw [execBarWait_eq, execBarTwait_eq]
  refine ⟨issue_object_waits h ha hl hn sm [a.toNat, b.toNat] (barWaitBody_first hw _ _ d.toNat _ b.toNat) fun v hv =>
    barWaitAt_open h d a b hv hps (phase_open hp), ?_⟩
  by_cases hz : (s.rawS b.toNat).toNat / 2 ^ 32 = 0
  · obtain ⟨t, u, h1, h2, h3⟩ := issue_object h ha hl hn sm [a.toNat, b.toNat] (nr := false) (x := .prd q.toNat allLanes 0 0)
      (barTwaitBody_first hw _ _ q.toNat _ b.toNat) (P := s.Requested) fun v hv =>
        ⟨s.restOf v, v, (barTwaitAt_open h a b q hv hps (phase_open hp)).trans (if_pos hz), hv.accessed.keeps, rfl, hv.requested⟩
    exact ⟨t, u, h1, h3, fun _ => by rwa [State.mark_false] at h2, fun hne => absurd hz hne⟩
  · obtain ⟨t, u, h1, h2, h3⟩ := issue_object_waits h ha hl hn sm [a.toNat, b.toNat] (barTwaitBody_first hw _ _ q.toNat _ b.toNat) fun v hv =>
      (barTwaitAt_open h a b q hv hps (phase_open hp)).trans (if_neg hz)
    exact ⟨t, u, h1, h2, fun h0 => absurd h0 hz, fun _ => h3⟩
end wait

/-! ### Waits that were woken -/

section woken
variable {s : State} (h : s.Ready) (ht : s.cur.txg = false) {g : BitVec 3} {l : Nat} (hl : s.Leads g l) (sm : Bool) (a b : BitVec 6)
include h ht hl

/-- A woken wait answers at once. -/
theorem issue_woken {body : State → Eff} {u : State} {w : State} {x : DVal} (hb : body (s.charge (syncMeta sm g [a.toNat, b.toNat] false)) = .done (w.defer [x] 0 0 true))
    (hk : u.Keeps w) (hc : w.cur = (s.charge (syncMeta sm g [a.toNat, b.toNat] false)).cur) (hx : x.plain = true := by rfl) :
    ∃ t, issue (syncMeta sm g [a.toNat, b.toNat] false) s body = .next t ∧ s.Returns u t 4 sm [x] :=
  issue_result_quiet h (m := syncMeta sm g [a.toNat, b.toNat] false) (xWord_ok h hl (Nat.zero_le _)) (.inr ht) hb hk hc rfl hx

theorem barWait_invalidated (d : BitVec 6) (hw : s.cur.woken = 1) : ∃ t, exec (.barWait sm g d a b) s = .next t ∧ s.Returns s t 4 sm [.uni d.toNat 1 false] := by
  rw [execBarWait_eq]
  exact issue_woken h ht hl sm a b (body := barWaitBody g d.toNat a.toNat b.toNat)
    (by rw [barWaitBody, withLeader_leads h hl]; simp only [State.charge_cur_woken, hw]; rfl) (State.charge_keeps s _) rfl
theorem barWait_completed (d : BitVec 6) (hw : s.cur.woken = 2) : ∃ t, exec (.barWait sm g d a b) s = .next t ∧ s.Returns (s.withL1 []) t 4 sm [.uni d.toNat 0 false] := by
  rw [execBarWait_eq]
  exact issue_woken h ht hl sm a b (body := barWaitBody g d.toNat a.toNat b.toNat)
    (by rw [barWaitBody, withLeader_leads h hl]; simp only [State.charge_cur_woken, hw]; rfl) (charge_acquire s _) rfl
theorem barTwait_ended (q : BitVec 3) (hw : s.cur.woken = 1 ∨ s.cur.woken = 3) :
    ∃ t, exec (.barTwait sm g q a b) s = .next t ∧ s.Returns s t 4 sm [.prd q.toNat allLanes 0 0] := by
  rw [execBarTwait_eq]
  exact issue_woken h ht hl sm a b (body := barTwaitBody g q.toNat a.toNat b.toNat)
    (by rw [barTwaitBody, withLeader_leads h hl]; rcases hw with hw | hw <;> (simp only [State.charge_cur_woken, hw]; rfl)) (State.charge_keeps s _) rfl
theorem barTwait_completed (q : BitVec 3) (hw : s.cur.woken = 2) :
    ∃ t, exec (.barTwait sm g q a b) s = .next t ∧ s.Returns (s.withL1 []) t 4 sm [.prd q.toNat allLanes allLanes 0] := by
  rw [execBarTwait_eq]
  exact issue_woken h ht hl sm a b (body := barTwaitBody g q.toNat a.toNat b.toNat)
    (by rw [barTwaitBody, withLeader_leads h hl]; simp only [State.charge_cur_woken, hw]; rfl) (charge_acquire s _) rfl
end woken

/-! ### A phase beyond the open ones -/

/-- R136: where the handler starts, under a request. -/
theorem Asking.svVec {s v : State} {c : Meta} (hv : Asking s c v) : (v.part (v.launch v.cur.launch).tag).svVec = s.myPart.svVec := by
  have hl := (congrArg Launch.tag (hv.cached.launches s.cur.launch) :)
  rw [charge_launch] at hl
  have hp := (congrArg Part.svVec (hv.cached.parts (s.launch s.cur.launch).tag) :)
  rw [charge_part] at hp
  rw [hv.cached.cur, State.charge_cur_launch, show (v.launch s.cur.launch).tag = (s.launch s.cur.launch).tag from hl]
  exact hp

/-- R136: an instruction whose effect is an event after a request enters the handler. -/
theorem issue_event_requested {s v : State} (h : s.GroupReady) (hu : s.cur.smode = false) (hvec : s.myPart.svVec ≠ 0) {m : Meta}
    (hi : s.illegal m = none) (hn : m.insn = false ∨ s.cur.txg = false) (hv : Asking s m v) {body : State → Eff} {e : FaultEv} (hb : body (s.charge m) = .event v e) :
    ∃ r, issue m s body = .next ((v.mark m.nonreplay).entered r e) := by
  have hvec' : ((v.mark m.nonreplay).part ((v.mark m.nonreplay).launch (v.mark m.nonreplay).cur.launch).tag).svVec = s.myPart.svVec := hv.svVec
  obtain ⟨r, -, he⟩ := State.raise_enters (s := v.mark m.nonreplay) e (by simp [State.mark, hv.cached.cur, h.2]) (by simp [State.mark, hv.cached.cur, hu])
    (by rw [hvec']; exact hvec) (by simp [State.mark, hv.cached.cur, h.1.written])
  refine ⟨r, ?_⟩
  rw [issue_open h.1 hi hn, hb]
  exact congrArg _ he

/-- R177, R308: PHASEOVER at the leader, at the operation's address. -/
theorem object_beyond {s : State} (h : s.GroupReady) (ha : s.Alone) {g : BitVec 3} {l : Nat} (hl : s.Leads g l) {acc : Acc} {a : BitVec 6} {o : Loc}
    (hn : s.NamesSp acc 32 32 l (s.rawS a.toNat) o) (hu : s.cur.smode = false) (hvec : s.myPart.svVec ≠ 0) (sm : Bool) (ss : List Nat) {nr : Bool}
    {zero : State → State} {K : Nat → State → Loc → Eff} {body : State → Eff}
    (hb : body (s.charge (syncMeta sm g ss nr)) = syncBody acc g a.toNat zero K (s.charge (syncMeta sm g ss nr)))
    (hK : ∀ v, Asking s (syncMeta sm g ss nr) v → K l v o = .event v (v.phaseOver l (s.rawS a.toNat))) : ∃ t, issue (syncMeta sm g ss nr) s body = .next t ∧
      t.cur.pc = evenPc s.myPart.svVec ∧ t.cur.smode = true ∧ t.cur.epc = s.cur.pc ∧ t.cur.cause.extractLsb' 0 8 = 10 ∧ t.cur.cause.extractLsb' 16 8 = BitVec.ofNat 8 l ∧
      t.cur.sregs = s.cur.sregs ∧ s.SameBytes t := by
  obtain ⟨v, hv, hve⟩ := charge_syncBody h.1 ha hl hn (syncMeta sm g ss nr) zero K
  obtain ⟨r, h1⟩ := issue_event_requested h hu hvec (m := syncMeta sm g ss nr) (xWord_ok h.1 hl (Nat.zero_le _)) (.inr ha.tx) hv (hb.trans (hve.trans (hK v hv)))
  have hvec' : ((v.mark nr).part (v.mark nr).curTag).svVec = s.myPart.svVec := hv.svVec
  obtain ⟨hpc, hsm, hepc, hc, hsr⟩ := (v.mark nr).entered_fields r (v.phaseOver l (s.rawS a.toNat))
  refine ⟨(v.mark nr).entered r (v.phaseOver l (s.rawS a.toNat)), h1, ?_, hsm, ?_, ?_, ?_, ?_, fun x _ => ?_⟩
  · rw [← hvec']; exact hpc
  · rw [hepc]; simp [State.phaseOver, State.leaderEvent, State.laneEvent, hv.cached.cur]
  · rw [hc, causeWord_kind]; rfl
  · rw [hc, causeWord_lane]; rfl
  · rw [hsr]; simp [State.mark, hv.cached.cur]
  · rw [← hv.readByte x]; exact State.readByte_same rfl x

/-- A phase beyond the open ones, in each of the four instructions that name one. -/
theorem barriers_beyond (sm : Bool) (g : BitVec 3) (d : BitVec 6) (q : BitVec 3) (a b : BitVec 6) (s : State) (l : Nat) (o : Loc) (h : s.GroupReady) (ha : s.Alone)
    (hl : s.Leads g l) (hw : s.cur.woken = 0) (hu : s.cur.smode = false) (hvec : s.myPart.svVec ≠ 0) (hc : s.NamesSp .counted 32 32 l (s.rawS a.toNat) o)
    (hn : s.NamesSp .watched 32 32 l (s.rawS a.toNat) o) (hv : (s.header o).testBit 63 = true)
    (h4 : 4 ≤ phaseAt (s.header o) ((s.rawS b.toNat).toNat % 2 ^ 32)) (hp : phaseAt (s.header o) ((s.rawS b.toNat).toNat % 2 ^ 32) < 2 ^ 31) :
    ∀ i ∈ [Instr.barArrive sm g d a b, .barExpect sm g d a b, .barWait sm g d a b, .barTwait sm g q a b], ∃ t, exec i s = .next t ∧
      t.cur.pc = evenPc s.myPart.svVec ∧ t.cur.smode = true ∧ t.cur.epc = s.cur.pc ∧ t.cur.cause.extractLsb' 0 8 = 10 ∧ t.cur.cause.extractLsb' 16 8 = BitVec.ofNat 8 l ∧
      t.cur.sregs = s.cur.sregs ∧ s.SameBytes t := by
  have hb := phase_beyond hv h4 hp
  have harr : ∀ {c v add bytes expect}, Asking s c v → v.barArrival o l (v.readS a.toNat) d.toNat (field (v.readS b.toNat).toNat 31 0) add bytes expect =
      .event v (v.phaseOver l (s.rawS a.toNat)) := fun {c v add bytes expect} hv' => by
    have hh : v.barHeader o = s.header o := hv'.readNum o 8
    simp only [State.barArrival, hh, hv'.accessed.readS h.1, field_low, hb]
  simp only [List.forall_mem_cons, List.not_mem_nil, false_imp_iff, implies_true, and_true, execBarArrive_eq, execBarExpect_eq, execBarWait_eq, execBarTwait_eq]
  refine ⟨?_, ?_, ?_, ?_⟩
  · exact object_beyond h ha hl hc hu hvec sm _ (K := barArriveAt d.toNat a.toNat b.toNat) rfl fun v hv' => harr hv'
  · exact object_beyond h ha hl hc hu hvec sm _ (K := barExpectAt d.toNat a.toNat b.toNat) rfl fun v hv' => harr hv'
  · exact object_beyond h ha hl hn hu hvec sm _ (barWaitBody_first hw _ _ d.toNat _ b.toNat) fun v hv' => barWaitAt_beyond h.1 d a b hv' rfl hb
  · exact object_beyond h ha hl hn hu hvec sm _ (barTwaitBody_first hw _ _ q.toNat _ b.toNat) fun v hv' => barTwaitAt_beyond h.1 a b q hv' rfl hb

/-- Table 07-8: an arrival, and expected bytes, at a phase that is late or open. -/
theorem barArrivals (sm : Bool) (g : BitVec 3) (d a b : BitVec 6) (s : State) (l : Nat) (o : Loc) (w p hd : Nat) (h : s.Ready) (ha : s.Alone) (hl : s.Leads g l)
    (hn : s.NamesSp .counted 32 32 l (s.rawS a.toNat) o) (hu : s.Unwatched o) (hw : w = (s.rawS b.toNat).toNat) (hp : p = w % 2 ^ 32) (hh : hd = s.header o) :
    (hd.testBit 63 = true → 2 ^ 31 ≤ phaseAt hd p → ∀ i ∈ [Instr.barArrive sm g d a b, .barExpect sm g d a b], ∃ t u, exec i s = .next t ∧
      s.Requested u ∧ s.Returns { u with cur := { s.cur with dirty := true } } t 4 sm [.uni d.toNat 3 false]) ∧
    (hd.testBit 63 = false ∨ phaseAt hd p < 4 →
      (∃ t u, exec (.barArrive sm g d a b) s = .next t ∧ s.Returns u t 4 sm [.uni d.toNat (if hd.testBit 63 then 1 else 2) false] ∧
        s.ObjectAfter u o hd fun k => if k = p % 4 then slotValue (arrivals (s.slotOf o k) + w / 2 ^ 32 % 2 ^ 20) (balance (s.slotOf o k)) else s.slotOf o k) ∧
      ∃ t u, exec (.barExpect sm g d a b) s = .next t ∧
        s.Returns u t 4 sm [.uni d.toNat (if balance (s.slotOf o (p % 4)) - (w / 2 ^ 32 % 2 ^ 28 : Nat) < -(2 ^ 27) then 4 else if hd.testBit 63 then 1 else 2) false] ∧
        s.ObjectAfter u o hd fun k => if k = p % 4 then
            slotValue (arrivals (s.slotOf o k) + if hd / 2 ^ 20 % 4 = 1 then 1 else 0) (balance (s.slotOf o k) - (w / 2 ^ 32 % 2 ^ 28 : Nat))
          else s.slotOf o k) := by
  subst hw hp hh
  simp only [List.forall_mem_cons, List.not_mem_nil, false_imp_iff, implies_true, and_true, execBarArrive_eq, execBarExpect_eq]
  have harrive : ∀ v, v.readS b.toNat = s.rawS b.toNat → barArriveAt d.toNat a.toNat b.toNat l v o =
      v.barArrival o l (v.readS a.toNat) d.toNat (field (s.rawS b.toNat).toNat 31 0) ((s.rawS b.toNat).toNat / 2 ^ 32 % 2 ^ 20) 0 false := fun v hv => by
    rw [barArriveAt, hv]; rfl
  have hexpect : ∀ v, v.readS b.toNat = s.rawS b.toNat → barExpectAt d.toNat a.toNat b.toNat l v o =
      v.barArrival o l (v.readS a.toNat) d.toNat (field (s.rawS b.toNat).toNat 31 0) 0 ((s.rawS b.toNat).toNat / 2 ^ 32 % 2 ^ 28) true := fun v hv => by
    rw [barExpectAt, hv]; rfl
  refine ⟨fun hv hlate => ?_, fun hopen => ⟨?_, ?_⟩⟩
  · exact ⟨barArrival_late h ha hl sm d a b hn hv hlate harrive, barArrival_late h ha hl sm d a b hn hv hlate hexpect⟩
  · have he := barArrival_open h ha hl sm d a b hn hu rfl hopen harrive
    simp only [State.countAnswer, Bool.false_eq_true, false_and, if_false] at he
    exact he
  · have he := barArrival_open h ha hl sm d a b hn hu rfl hopen hexpect
    simp only [State.countAnswer, true_and] at he
    exact he

/-- Settles O42: each instruction of Table 07-8. -/
theorem barriers : Obligations.Barriers := by
  refine ⟨barInit_object, barArrivals, ?_, fun sm g d q a b s l h ht hl => ⟨fun hw => ?_, fun hw => ?_, fun hw => ?_⟩, barInval_object, barriers_beyond⟩
  · rintro sm g d q a b s l o w p hd h ha hl hw hn rfl rfl rfl
    exact ⟨barWaits_late h ha hl hw sm d a b q hn, barWaits_open h ha hl hw sm d a b q hn rfl⟩
  · exact ⟨barWait_invalidated h ht hl sm a b d hw, barTwait_ended h ht hl sm a b q (.inl hw)⟩
  · exact ⟨barWait_completed h ht hl sm a b d hw, barTwait_completed h ht hl sm a b q hw⟩
  · exact barTwait_ended h ht hl sm a b q (.inr hw)

end Sys2Proof.Machine
end

section
/-!
PROOF. Queues (07 R179, R180, Table 07-9): control words, handles, and each instruction at a queue.
-/

namespace Sys2Proof.Machine

/-! ### Control words and handles -/

/-- Table 07-9: the five fields of 16 bytes. -/
theorem word_fields {a b c d e : Nat} (ha : a < 4294967296) (hb : b < 65536) (hc : c < 65536) (hd : d < 4294967296) (he : e < 4294967296) :
    let n := a + 4294967296 * (b + 65536 * (c + 65536 * (d + 4294967296 * e)))
    field n 31 0 = a ∧ field n 47 32 = b ∧ field n 63 48 = c ∧ field n 95 64 = d ∧ field n 127 96 = e := by
  intro n
  simp only [n, field, Nat.reduceAdd, Nat.reduceSub, Nat.reducePow]
  refine ⟨?_, ?_, ?_, ?_, ?_⟩ <;> omega
theorem State.queueWord_eq (s : State) (core off : Nat) : s.queueWord ⟨1, core * 2 ^ 21 + off⟩ = s.qWord core off := by
  generalize hA : core * 2 ^ 21 + off = A
  have hsum : s.readNum ⟨1, A⟩ 16 = s.readNum ⟨1, A⟩ 4 + 4294967296 * (s.readNum ⟨1, A + 4⟩ 2 + 65536 * (s.readNum ⟨1, A + 6⟩ 2 + 65536 *
      (s.readNum ⟨1, A + 8⟩ 4 + 4294967296 * s.readNum ⟨1, A + 12⟩ 4))) := by
    rw [State.readNum_add s _ 4 12, State.readNum_add s _ 2 10, State.readNum_add s _ 2 8, State.readNum_add s _ 4 4]
    rfl
  obtain ⟨h0, h1, h2, h3, h4⟩ := word_fields (s.readNum_lt ⟨1, A⟩ 4) (s.readNum_lt ⟨1, A + 4⟩ 2) (s.readNum_lt ⟨1, A + 6⟩ 2) (s.readNum_lt ⟨1, A + 8⟩ 4)
    (s.readNum_lt ⟨1, A + 12⟩ 4)
  rw [← hsum] at h0 h1 h2 h3 h4
  simp only [State.queueWord, State.qWord, hA, h0, h1, h2, h3, h4]
theorem QWord.count_eq (w : QWord) : w.count = waiting w := rfl
theorem QWord.broken_iff (w : QWord) : w.broken = true ↔ w.depth < waiting w := decide_eq_true_iff

/-- R180: what a handle is bound to, one test after the other. -/
theorem State.bindTo_eq (s : State) {o : Loc} (htt : o.tt = 1) (hs : SMap QBind) (q : Nat) :
    s.bindTo o (s.queueWord o) hs q = match s.qBindAt o.core (o.addr % 2 ^ 21) with | some x => SMap.put hs q x | none => SMap.del hs q := by
  have hw : s.queueWord o = s.qWord o.core (o.addr % 2 ^ 21) := by
    obtain ⟨tt, A⟩ := o
    obtain rfl : tt = 1 := htt
    rw [← State.queueWord_eq, show (⟨1, A⟩ : Loc).core = A / 2 ^ 21 from rfl, Nat.div_add_mod']
  simp only [State.bindTo, State.qBindAt, hw]
  cases s.allocAt o.core (o.addr % 2 ^ 21) with
  | none => rfl
  | some x =>
    simp only []
    generalize s.qWord o.core (o.addr % 2 ^ 21) = w
    by_cases hw : w.depth ≠ 0 ∧ w.esize ≠ 0 ∧ w.esize % 16 = 0 ∧ w.qbase % 16 = 0 ∧ w.qbase + w.depth * w.esize ≤ x.spsize
    · obtain ⟨h1, h2, h3, h4, h5⟩ := hw
      rw [if_pos ⟨h1, h2, h3, h4, h5⟩, if_neg (by simp [h1, h2, h3, h4, h5])]
    · rw [if_neg hw, if_pos (by simp only [Bool.or_eq_true, decide_eq_true_eq]; omega)]

/-! ### An operation at its queue -/

theorem queue_legal {s : State} (h : s.GroupReady) (sm : Bool) (g : BitVec 3) (ss : List Nat) (nr : Bool) : s.illegal (queueMeta sm g ss nr) = none :=
  illegal_lane h (Nat.zero_le _) (Nat.zero_le _) (.inl rfl) rfl

section asked
variable {s v : State} {c : Meta} (hv : Asking s c v)
include hv
theorem Asking.blocks : v.blocks = s.blocks := by rw [hv.cached.same]; exact State.charge_blocks s c
theorem Asking.allocAt (core off : Nat) : v.allocAt core off = s.allocAt core off := by rw [State.allocAt, State.allocAt, hv.blocks]
theorem Asking.qWord (core off : Nat) : v.qWord core off = s.qWord core off := by simp only [State.qWord, hv.readNum]
theorem Asking.qBindAt (core off : Nat) : v.qBindAt core off = s.qBindAt core off := by simp only [State.qBindAt, hv.qWord, hv.allocAt]
theorem Asking.qElem (h : QBind) (w : QWord) (i : Nat) : v.qElem h w i = s.qElem h w i := by simp only [State.qElem, hv.allocAt]
theorem Asking.ctxs : v.ctxs = s.ctxs := hv.scratched.ctxs
theorem Asking.qAhead {h : QBind} {o : Loc} (ho : o = h.loc) (push : Bool) : v.qAhead h push = true ↔ s.Behind o push := by
  have hw : v.cur.woken = s.cur.woken := by rw [hv.cached.cur, State.charge_cur_woken]
  simp only [State.qAhead, hw, hv.ctxs, State.Behind, ho, Bool.and_eq_true, bne_iff_ne, List.any_eq_true, beq_iff_eq]
end asked

theorem State.readRequest_parts (s : State) : s.readRequest.2.parts = s.parts := by
  unfold State.readRequest State.updLaunch
  split <;> rfl

section queue
variable {s : State} (ha : s.Alone) {q : BitVec 3} {h : QBind} {o : Loc} {w : QWord} (hq : s.HasQueue q h o w) (m : Meta)

theorem handle_eq (q : BitVec 3) : (s.charge m).handle (s.charge m).cur.block q.toNat = SMap.find s.myBlock.handles q.toNat := by
  simp only [State.handle, State.charge_cur_block, State.block, State.charge_blocks]; rfl

/-- R180: an unbound handle answers at once. -/
theorem atQueue_unbound {q : BitVec 3} (hn : SMap.find s.myBlock.handles q.toNat = none) (d : Nat) (k : State → QBind → QWord → Eff) :
    (s.charge m).atQueue q.toNat d k = .done ((s.charge m).deferS d (BitVec.allOnes 64)) := by
  simp only [State.atQueue, handle_eq m q, hn]

include hq
theorem State.HasQueue.loc : o = h.loc := hq.place
theorem State.HasQueue.word_eq : w = s.qWord h.core h.off := by rw [hq.word, hq.place, State.queueWord_eq]

include ha
theorem charge_atQueue (d : Nat) (k : State → QBind → QWord → Eff) : ∃ v, Asking s m v ∧ v.parts = s.parts ∧ (s.charge m).atQueue q.toNat d k =
    if w.depth < waiting w then .done (v.deferS d (BitVec.allOnes 64)) else k v h w := by
  have hat : ∀ v, Asking s m v → v.atWord h d k = if w.depth < waiting w then .done (v.deferS d (BitVec.allOnes 64)) else k v h w := fun v hv => by
    simp only [State.atWord, hv.qWord, ← hq.word_eq, QWord.broken_iff]
  simp only [State.atQueue, handle_eq m q, hq.bound, whenPerformed_alone (s := s.charge m) (by simp [ha.packets]) (by simp [ha.peers]), State.charge_cur_core]
  by_cases hc : h.core = s.cur.core
  · exact ⟨s.charge m, .refl s m, State.charge_parts s m, by rw [if_pos hc]; exact hat _ (.refl s m)⟩
  · have hv := (Asking.refl s m).request
    refine ⟨_, hv, (State.readRequest_parts _).trans (State.charge_parts s m), ?_⟩
    rw [if_neg hc, hv.delivers, hv.agent, if_pos (hq.answers.resolve_left hc)]
    exact hat _ hv
end queue

/-- R180: what the leader of a queue instruction does: K at the control word of its handle. -/
def queueBody (g q : BitVec 3) (d : Nat) (K : Nat → State → QBind → QWord → Eff) (t : State) : Eff := t.withLeader g fun i => t.atQueue q.toNat d (K i)
def qpushAt (d b : Nat) (l : Nat) (t : State) (h : QBind) (w : QWord) : Eff :=
  if w.count = w.depth || t.qAhead h true then .wait t (.queue h.loc true)
  else t.bulkLoad 1 l (t.readS b) w.esize fun t bs => .done (((t.writeBytes (t.qElem h w w.tail) bs).qTail h w).deferS d (BitVec.ofNat 64 w.tail))
def qpopAt (d b : Nat) (l : Nat) (t : State) (h : QBind) (w : QWord) : Eff :=
  if w.count = 0 || t.qAhead h false then .wait t (.queue h.loc false) else t.qTake l d b h w
def qtryAt (d b : Nat) (l : Nat) (t : State) (h : QBind) (w : QWord) : Eff :=
  if w.count ≤ (t.ctxs.filter fun c => c.park == some (.queue h.loc false)).length then .done (t.deferS d 0x8000000000000000) else t.qTake l d b h w
theorem execQpush_eq (sm : Bool) (g : BitVec 3) (d : BitVec 6) (q : BitVec 3) (b : BitVec 6) (s : State) :
    exec (.qpush sm g d q b) s = issue (queueMeta sm g [b.toNat] true) s (queueBody g q d.toNat (qpushAt d.toNat b.toNat)) := rfl
theorem execQpop_eq (sm : Bool) (g : BitVec 3) (d : BitVec 6) (q : BitVec 3) (b : BitVec 6) (s : State) :
    exec (.qpop sm g d q b) s = issue (queueMeta sm g [b.toNat] true) s (queueBody g q d.toNat (qpopAt d.toNat b.toNat)) := rfl
theorem execQtry_eq (sm : Bool) (g : BitVec 3) (d : BitVec 6) (q : BitVec 3) (b : BitVec 6) (s : State) :
    exec (.qtry sm g d q b) s = issue (queueMeta sm g [b.toNat] true) s (queueBody g q d.toNat (qtryAt d.toNat b.toNat)) := rfl

theorem State.writeBytes_packets (s : State) (a : Nat) (bs : List Byte) : (s.writeBytes ⟨1, a⟩ bs).packets = s.packets := by rw [s.writeBytes_sp]

section issued
variable {s : State} (hr : s.GroupReady) (ha : s.Alone) {g : BitVec 3} {l : Nat} (hl : s.Leads g l) (sm : Bool) {q : BitVec 3} (ss : List Nat) {d : Nat}
  {K : Nat → State → QBind → QWord → Eff}
include hr ha

/-- An operation that answers after what its access left. -/
theorem queue_answers {body : State → Eff} {w : State} {x : DVal} (hb : body (s.charge (queueMeta sm g ss true)) = .done (w.defer [x] 0 0 true))
    (hw : Accessed s (queueMeta sm g ss true) w) (hx : x.plain = true := by rfl) :
    ∃ t, issue (queueMeta sm g ss true) s body = .next t ∧ s.Returns (s.restOf w).replayless t 4 sm [x] := by
  obtain ⟨t, h1, h2⟩ := issue_result hr.1 (queue_legal hr sm g ss true) (.inr ha.tx) hb hw.keeps hw.cur hx
  exact ⟨t, h1, by rw [show (queueMeta sm g ss true).nonreplay = true from rfl, State.mark_true] at h2; exact h2⟩

include hl

/-- R180: no queue gives all ones. -/
theorem queue_none (hn : SMap.find s.myBlock.handles q.toNat = none ∨ ∃ h o w, s.HasQueue q h o w ∧ w.depth < waiting w) :
    ∃ t u, issue (queueMeta sm g ss true) s (queueBody g q d K) = .next t ∧ s.Requested u ∧ s.Returns u.replayless t 4 sm [.uni d (BitVec.allOnes 64) false] := by
  let m := queueMeta sm g ss true
  have hbody : ∃ v, Asking s m v ∧ queueBody g q d K (s.charge m) = .done (v.deferS d (BitVec.allOnes 64)) := by
    rw [queueBody, withLeader_leads hr.1 hl]
    rcases hn with hn | ⟨h, o, w, hq, hw⟩
    · exact ⟨_, .refl s m, atQueue_unbound m hn d (K l)⟩
    · obtain ⟨v, hv, -, hve⟩ := charge_atQueue ha hq m d (K l)
      exact ⟨v, hv, hve.trans (if_pos hw)⟩
  obtain ⟨v, hv, hve⟩ := hbody
  obtain ⟨t, h1, h2⟩ := queue_answers hr ha sm ss hve hv.accessed
  exact ⟨t, s.restOf v, h1, hv.requested, h2⟩

variable {h : QBind} {o : Loc} {w : QWord} (hq : s.HasQueue q h o w) (hw : waiting w ≤ w.depth)
include hq hw

theorem charge_queueBody (m : Meta) : ∃ v, Asking s m v ∧ v.parts = s.parts ∧ queueBody g q d K (s.charge m) = K l v h w := by
  obtain ⟨v, hv, hvp, hve⟩ := charge_atQueue ha hq m d (K l)
  exact ⟨v, hv, hvp, by rw [queueBody, withLeader_leads hr.1 hl]; exact hve.trans (if_neg (Nat.not_lt.2 hw))⟩
/-- R180: a full or an empty queue parks. -/
theorem queue_waits {p : Park} (hK : ∀ v, Asking s (queueMeta sm g ss true) v → K l v h w = .wait v p) :
    ∃ t u, issue (queueMeta sm g ss true) s (queueBody g q d K) = .next t ∧ s.Requested u ∧ u.Waits t p := by
  obtain ⟨v, hv, -, hve⟩ := charge_queueBody (K := K) (d := d) hr ha hl hq hw (queueMeta sm g ss true)
  obtain ⟨t, h1, h2⟩ := issue_waits hr.1 (queue_legal hr sm g ss true) (.inr ha.tx) (hve.trans (hK v hv)) hv.accessed.keeps rfl hv.cached.cur
  exact ⟨t, s.restOf v, h1, hv.requested, h2⟩
end issued

section instrs
variable {s : State} (hr : s.GroupReady) (ha : s.Alone) {g : BitVec 3} {l : Nat} (hl : s.Leads g l) (sm : Bool) (d b : BitVec 6) {q : BitVec 3} {h : QBind} {o : Loc}
  {w : QWord} (hq : s.HasQueue q h o w) (hw : waiting w ≤ w.depth)
include hr ha hl hq hw

theorem qpush_parks (hf : waiting w = w.depth ∨ s.Behind o true) : ∃ t u, exec (.qpush sm g d q b) s = .next t ∧ s.Requested u ∧ u.Waits t (.queue o true) := by
  rw [execQpush_eq]
  refine queue_waits hr ha hl sm [b.toNat] hq hw (K := qpushAt d.toNat b.toNat) fun v hv => ?_
  rw [qpushAt, ← hq.loc]
  exact if_pos (by rw [Bool.or_eq_true, hv.qAhead hq.loc, decide_eq_true_iff]; exact hf)
theorem qpop_parks (hf : waiting w = 0 ∨ s.Behind o false) : ∃ t u, exec (.qpop sm g d q b) s = .next t ∧ s.Requested u ∧ u.Waits t (.queue o false) := by
  rw [execQpop_eq]
  refine queue_waits hr ha hl sm [b.toNat] hq hw (K := qpopAt d.toNat b.toNat) fun v hv => ?_
  rw [qpopAt, ← hq.loc]
  exact if_pos (by rw [Bool.or_eq_true, hv.qAhead hq.loc, decide_eq_true_iff]; exact hf)
theorem qtry_nothing (hf : waiting w ≤ (s.ctxs.filter fun c => c.park == some (.queue o false)).length) :
    ∃ t u, exec (.qtry sm g d q b) s = .next t ∧ s.Requested u ∧ s.Returns u.replayless t 4 sm [.uni d.toNat 0x8000000000000000 false] := by
  rw [execQtry_eq]
  obtain ⟨v, hv, -, hve⟩ := charge_queueBody (K := qtryAt d.toNat b.toNat) (d := d.toNat) hr ha hl hq hw (queueMeta sm g [b.toNat] true)
  rw [qtryAt, if_pos (by rw [← hq.loc, hv.ctxs]; exact hf)] at hve
  obtain ⟨t, h1, h2⟩ := queue_answers hr ha sm [b.toNat] hve hv.accessed
  exact ⟨t, s.restOf v, h1, hv.requested, h2⟩

/-- R180: the element goes to `TAIL`, which moves on. -/
theorem qpush_stores (hf : waiting w < w.depth) (hb : ¬s.Behind o true) {place : Nat → Loc} (hp : s.ReadsCopy l (s.rawS b.toNat) w.esize place) :
    ∃ t u, exec (.qpush sm g d q b) s = .next t ∧ s.Returns u.replayless t 4 sm [.uni d.toNat (BitVec.ofNat 64 w.tail) false] ∧
      s.Performs u (cellsFrom (s.qElem h w w.tail) (s.bytesAt w.esize place) ++ cellsFrom ⟨1, o.addr + 12⟩ (natBytes 4 ((w.tail + 1) % 2 ^ 32))) := by
  rw [execQpush_eq]
  obtain ⟨v, hv, hvp, hve⟩ := charge_queueBody (K := qpushAt d.toNat b.toNat) (d := d.toNat) hr ha hl hq hw (queueMeta sm g [b.toNat] true)
  have hopen : ¬(decide (w.count = w.depth) || v.qAhead h true) = true := by
    rw [Bool.or_eq_true, hv.qAhead hq.loc, decide_eq_true_iff, QWord.count_eq]
    exact fun hc => hc.elim hf.ne hb
  obtain ⟨z, hz, -, hze⟩ := hv.bulkLoad ha (al := 1) (a := s.rawS b.toNat) (Nat.mod_one _) hp.1 hp.2 (.inr (by rw [State.part, hvp]; exact ha.tlb))
    fun t bs => .done (((t.writeBytes (t.qElem h w w.tail) bs).qTail h w).deferS d.toNat (BitVec.ofNat 64 w.tail))
  rw [qpushAt, if_neg hopen, hv.accessed.readS hr.1, hze, hz.qElem] at hve
  let x := z.writeBytes (s.qElem h w w.tail) (s.bytesAt w.esize place)
  have hx : Accessed s (queueMeta sm g [b.toNat] true) x := hz.accessed.writeBytes _ _
  have hxs : z.Stored x (cellsFrom (s.qElem h w w.tail) (s.bytesAt w.esize place)) := z.writeBytes_stored _ _
  have hy : Accessed s (queueMeta sm g [b.toNat] true) (x.qTail h w) := hx.writeBytes _ _
  have hys : x.Stored (x.qTail h w) (cellsFrom ⟨1, h.loc.addr + 12⟩ (natBytes 4 ((w.tail + 1) % 2 ^ 32))) := x.writeBytes_stored _ _
  obtain ⟨t, h1, h2⟩ := queue_answers hr ha sm [b.toNat] (w := x.qTail h w) hve hy
  refine ⟨t, s.restOf (x.qTail h w), h1, h2, ?_⟩
  have hst := hxs.append hys
  rw [← hq.loc] at hst
  exact hy.performs ((State.writeBytes_packets ..).trans ((State.writeBytes_packets ..).trans (hz.cached.packets.trans (State.charge_packets ..))))
    ⟨hst.last, fun l hl => (hst.others l hl).trans (hz.readByte l)⟩

omit ha hl hq hw in
/-- What a pop asks for once it may take an element. -/
theorem qTake_eq {v : State} {m : Meta} (hv : Asking s m v) : v.qTake l d.toNat b.toNat h w =
    (v.acquire 1).bulkStore l (s.rawS b.toNat) (s.readBytes (s.qElem h w w.head) w.esize) fun t => .done ((t.qHead h w).deferS d.toNat (BitVec.ofNat 64 w.head)) := by
  have hbs : v.readBytes (s.qElem h w w.head) w.esize = s.readBytes (s.qElem h w w.head) w.esize := List.map_congr_left fun _ _ => hv.readByte _
  rw [State.qTake, hv.accessed.readS hr.1, hv.qElem, hbs]

variable {K : Nat → State → QBind → QWord → Eff}
  (hK : ∀ v, Asking s (queueMeta sm g [b.toNat] true) v → K l v h w = v.qTake l d.toNat b.toNat h w)
include hK

/-- R180: the element at `HEAD` goes into the own allocation, and `HEAD` moves on. -/
theorem queue_takesOwn {B : Nat} (ho : s.OwnCopy (s.rawS b.toNat) w.esize B) :
    ∃ t u, issue (queueMeta sm g [b.toNat] true) s (queueBody g q d.toNat K) = .next t ∧ s.Returns u.replayless t 4 sm [.uni d.toNat (BitVec.ofNat 64 w.head) false] ∧
      s.Performs u (cellsFrom ⟨1, B⟩ (s.readBytes (s.qElem h w w.head) w.esize) ++ cellsFrom ⟨1, o.addr + 8⟩ (natBytes 4 ((w.head + 1) % 2 ^ 32))) := by
  obtain ⟨v, hv, -, hve⟩ := charge_queueBody (K := K) (d := d.toNat) hr ha hl hq hw (queueMeta sm g [b.toNat] true)
  obtain ⟨z, hz, hzp, hzs, hze⟩ := (hv.acquire ha 1).1.storesOwn ha l (bs := s.readBytes (s.qElem h w w.head) w.esize) (by rw [State.readBytes_length]; exact ho)
    fun t => .done ((t.qHead h w).deferS d.toNat (BitVec.ofNat 64 w.head))
  rw [hK v hv, qTake_eq hr d b hv, hze] at hve
  have hx : Accessed s (queueMeta sm g [b.toNat] true) (z.qHead h w) := hz.writeBytes _ _
  have hxs : z.Stored (z.qHead h w) (cellsFrom ⟨1, h.loc.addr + 8⟩ (natBytes 4 ((w.head + 1) % 2 ^ 32))) := z.writeBytes_stored _ _
  obtain ⟨t, h1, h2⟩ := queue_answers hr ha sm [b.toNat] (w := z.qHead h w) hve hx
  rw [← hq.loc] at hxs
  exact ⟨t, s.restOf (z.qHead h w), h1, h2, hx.performs ((State.writeBytes_packets ..).trans hzp) (hzs.append hxs)⟩

/-- R180: the element is posted to a virtual address, and `HEAD` moves on. -/
theorem queue_takesPosted {place : Nat → Loc} (h63 : (s.rawS b.toNat).getLsbD 63 = false) (hp : s.CopyPlaces true l (s.rawS b.toNat) w.esize place) :
    ∃ t u, issue (queueMeta sm g [b.toNat] true) s (queueBody g q d.toNat K) = .next t ∧ s.Returns u.replayless t 4 sm [.uni d.toNat (BitVec.ofNat 64 w.head) false] ∧
      u = { s with parts := u.parts, launches := u.launches, packets := u.packets, nextId := u.nextId, sp := u.sp } ∧
      s.PostsCopy u (bulkUnit (s.rawS b.toNat).toNat w.esize) w.esize place (s.readBytes (s.qElem h w w.head) w.esize) ∧
      s.Stored u (cellsFrom ⟨1, o.addr + 8⟩ (natBytes 4 ((w.head + 1) % 2 ^ 32))) := by
  obtain ⟨v, hv, hvp, hve⟩ := charge_queueBody (K := K) (d := d.toNat) hr ha hl hq hw (queueMeta sm g [b.toNat] true)
  have hlen : (s.readBytes (s.qElem h w w.head) w.esize).length = w.esize := State.readBytes_length ..
  obtain ⟨hacq, hap⟩ := hv.acquire ha 1
  obtain ⟨z, hz, hzm, hzc, hze⟩ := hacq.storesPosted ha l (bs := s.readBytes (s.qElem h w w.head) w.esize) (by rw [hlen]; exact hp) h63
    (by rw [State.part, hap, hvp]; exact ha.tlb) fun t => .done ((t.qHead h w).deferS d.toNat (BitVec.ofNat 64 w.head))
  rw [hK v hv, qTake_eq hr d b hv, hze] at hve
  rw [hlen] at hzc
  have hx : Accessed s (queueMeta sm g [b.toNat] true) (z.qHead h w) := hz.writeBytes _ _
  have hxs : z.Stored (z.qHead h w) (cellsFrom ⟨1, h.loc.addr + 8⟩ (natBytes 4 ((w.head + 1) % 2 ^ 32))) := z.writeBytes_stored _ _
  obtain ⟨t, h1, h2⟩ := queue_answers hr ha sm [b.toNat] (w := z.qHead h w) hve hx
  have hread : ∀ l, z.readByte l = s.readByte l := State.readByte_same hzm
  have hxsp : z.qHead h w = { z with sp := (z.qHead h w).sp } := z.writeBytes_sp _ _
  simp only [Prod.mk.injEq] at hzm
  obtain ⟨hg, hh, -, hvrf, hacc, -, hho⟩ := hzm
  have hsent : (s.restOf (z.qHead h w)).packets = (s.restOf z).packets := State.writeBytes_packets ..
  refine ⟨t, s.restOf (z.qHead h w), h1, h2, ?_, ⟨hx.numbered, ?_, ?_⟩, ?_⟩
  · rw [hxsp]; simp only [State.restOf, hg, hh, hvrf, hacc, hho]
  · rw [hsent]; exact hzc.sent
  · rw [hsent]; exact hzc.sender
  · rw [← hq.loc] at hxs
    exact State.Stored.restOf hx ⟨hxs.last, fun l hl => (hxs.others l hl).trans (hread l)⟩
end instrs

/-! ### Handles -/

/-- What a `qbind` makes of its block's handles. -/
def State.bindHandle (t : State) (q : Nat) (h : Option QBind) : State :=
  t.updBlock t.cur.block fun b => { b with handles := match h with | some x => SMap.put b.handles q x | none => SMap.del b.handles q }
theorem State.bindHandle_cur (t : State) (q : Nat) (h : Option QBind) : (t.bindHandle q h).cur = t.cur := by
  unfold State.bindHandle State.updBlock
  split <;> rfl
theorem State.Keeps.bindHandle {s t : State} (hk : s.Keeps t) (q : Nat) (h : Option QBind) : (s.bindHandle q h).Keeps (t.bindHandle q h) := by
  refine hk.map (fun x => x.bindHandle q h) (fun x => x.bindHandle q h) (fun x => ?_) fun x => ?_
  · change (x.updBlock x.cur.block _).bare = x.bare.updBlock x.cur.block _
    unfold State.updBlock
    change State.bare (match SMap.find x.blocks _ with | some y => _ | none => x) = match SMap.find x.blocks _ with | some y => _ | none => x.bare
    cases SMap.find x.blocks x.cur.block <;> rfl
  · simp only [State.bindHandle, State.updBlock]
    cases SMap.find x.blocks x.cur.block <;> exact ⟨rfl, rfl⟩

/-- What the leader of a `qbind` does. -/
def qbindBody (g q : BitVec 3) (a : Nat) (t : State) : Eff :=
  t.withLeader g fun i =>
    let va := t.readS a
    match t.spadPlace .watched 16 16 i va with
    | .error e => .event t (t.leaderEvent e (isLocal va))
    | .ok l =>
      whenPerformed t t.nextId fun t =>
        if isLocal va then .done (t.bindHandle q.toNat (t.qBindAt l.core (l.addr % 2 ^ 21)))
        else
          let r := (t.cachePages t.curTag [va.toNat]).readRequest
          if r.2.delivers r.2.agent l then .done (r.2.bindHandle q.toNat (r.2.qBindAt l.core (l.addr % 2 ^ 21)))
          else .done ((r.2.dropAt r.2.agent .sync l r.1 16 va r.2.cur.pc 0 0).bindHandle q.toNat none)
theorem execQbind_eq (sm : Bool) (g q : BitVec 3) (a : BitVec 6) (s : State) :
    exec (.qbind sm g q a) s = issue (queueMeta sm g [a.toNat] false) s (qbindBody g q a.toNat) := rfl

theorem charge_qbindBody {s : State} (h : s.Ready) (ha : s.Alone) {g : BitVec 3} {l : Nat} (hl : s.Leads g l) (m : Meta) (q : BitVec 3) {a : Nat} {o : Loc}
    (hn : s.NamesSp .watched 16 16 l (s.rawS a) o) :
    ∃ v, Asking s m v ∧ qbindBody g q a (s.charge m) = .done (v.bindHandle q.toNat (s.qBindAt o.core (o.addr % 2 ^ 21))) := by
  rw [qbindBody, withLeader_leads h hl m]
  simp only [charge_readS h, charge_spadPlace ha m hn, whenPerformed_alone (s := s.charge m) (by simp [ha.packets]) (by simp [ha.peers])]
  rcases hn with ⟨h63, -⟩ | ⟨h63, -, hd, -⟩
  · exact ⟨s.charge m, .refl s m, by rw [if_pos (show isLocal (s.rawS a) = true from h63), (Asking.refl s m).qBindAt]⟩
  · have hv := ((Asking.refl s m).pages [(s.rawS a).toNat]).request
    refine ⟨_, hv, ?_⟩
    rw [if_neg (show ¬ isLocal (s.rawS a) = true by rw [show isLocal (s.rawS a) = false from h63]; decide), hv.delivers, hv.agent, if_pos hd, hv.qBindAt]

theorem qbind_binds (sm : Bool) (g q : BitVec 3) (a : BitVec 6) (s : State) (l : Nat) (o : Loc) (w : QWord) (h : s.GroupReady) (ha : s.Alone) (hl : s.Leads g l)
    (hn : s.NamesSp .watched 16 16 l (s.rawS a.toNat) o) (hw : w = s.queueWord o) : ∃ t u, exec (.qbind sm g q a) s = .next t ∧ s.Requested u ∧
      s.Returns (u.updBlock s.cur.block fun b => { b with handles := s.bindTo o w b.handles q.toNat }) t 4 sm [] := by
  rw [execQbind_eq]
  obtain ⟨v, hv, hve⟩ := charge_qbindBody h.1 ha hl (queueMeta sm g [a.toNat] false) q hn
  have hcur := (v.bindHandle_cur q.toNat (s.qBindAt o.core (o.addr % 2 ^ 21))).trans hv.cached.cur
  obtain ⟨t, h1, h2⟩ := issue_effect h.1 (queue_legal h sm g [a.toNat] false) (.inr ha.tx) hve (hv.accessed.keeps.bindHandle q.toNat (s.qBindAt o.core (o.addr % 2 ^ 21))) rfl
    (by rw [hcur]; simp) (by rw [hcur]; simp) (by rw [hcur]; simp [h.1.word]) (by rw [hcur]; simp [h.1.recipe]) (by rw [hcur]; simp [h.1.written])
    (by rw [hcur]; simp [h.1.poisonV]) (by rw [hcur]; simp [h.1.poisonS])
  refine ⟨t, s.restOf v, h1, hv.requested, ?_⟩
  simp only [hw, s.bindTo_eq hn.tt]
  exact h2

/-- Settles O43: what a handle is bound to, and each instruction at a queue. -/
theorem queues : Obligations.Queues := by
  refine ⟨qbind_binds, ?_, fun sm g d q b s l h o w hr ha hl hq hw => ⟨qpush_parks hr ha hl sm d b hq hw, qpop_parks hr ha hl sm d b hq hw, qtry_nothing hr ha hl sm d b hq hw⟩,
    fun sm g d q b s l h o w place hr ha hl hq hf hb hp => qpush_stores hr ha hl sm d b hq hf.le hf hb hp, fun sm g d q b s l h o w hr ha hl hq hw i hi => ?_⟩
  · simp only [List.forall_mem_cons, List.not_mem_nil, false_imp_iff, implies_true, and_true, execQpush_eq, execQpop_eq, execQtry_eq]
    exact ⟨fun sm g d q b s l hr ha hl hn => queue_none hr ha hl sm [b.toNat] (K := qpushAt d.toNat b.toNat) hn,
      fun sm g d q b s l hr ha hl hn => queue_none hr ha hl sm [b.toNat] (K := qpopAt d.toNat b.toNat) hn,
      fun sm g d q b s l hr ha hl hn => queue_none hr ha hl sm [b.toNat] (K := qtryAt d.toNat b.toNat) hn⟩
  · rcases hi with ⟨rfl, h0, hb⟩ | ⟨rfl, hf⟩
    · have hK : ∀ v, Asking s (queueMeta sm g [b.toNat] true) v → qpopAt d.toNat b.toNat l v h w = v.qTake l d.toNat b.toNat h w := fun v hv =>
        if_neg (by rw [Bool.or_eq_true, hv.qAhead hq.loc, decide_eq_true_iff]; exact fun hc => hc.elim h0 hb)
      rw [execQpop_eq]
      exact ⟨fun B ho => queue_takesOwn hr ha hl sm d b hq hw hK ho, fun place h63 hp => queue_takesPosted hr ha hl sm d b hq hw hK h63 hp⟩
    · have hK : ∀ v, Asking s (queueMeta sm g [b.toNat] true) v → qtryAt d.toNat b.toNat l v h w = v.qTake l d.toNat b.toNat h w := fun v hv =>
        if_neg (by rw [← hq.loc, hv.ctxs]; exact Nat.not_le.2 hf)
      rw [execQtry_eq]
      exact ⟨fun B ho => queue_takesOwn hr ha hl sm d b hq hw hK ho, fun place h63 hp => queue_takesPosted hr ha hl sm d b hq hw hK h63 hp⟩

end Sys2Proof.Machine
end

section
/-!
PROOF. Events of the engines (07 R160, R162, R168, R176; 10 R222, R223): a job starts, its sub-jobs, chunks, shares and blocks are done one by one, and
a barrier unit performs its oldest delivery.
-/

namespace Sys2Proof.Machine

theorem State.job_self {s : State} {i : Nat} {j : Job} (h : s.job? i = some j) : s.job? j.id = some j := by rw [State.job_id h]; exact h
/-- No failure is recorded for chunk k. -/
theorem find_failed_none {l : List (Nat × Nat × Nat)} {k : Nat} (h : ∀ f ∈ l, f.1 ≠ k) : (l.find? fun f => f.1 == k) = none :=
  List.find?_eq_none.2 fun f hf => by simpa using h f hf

/-! ## Dispatch (R160, R206, R208) -/

/-- R160, R206, R208: what a dispatch does with a job whose record or card is known. -/
def State.startJob (s : State) (j : Job) : State :=
  if j.badLayout then s.endJob j (statusNone cLayout)
  else if s.beyond j then s.endJob j (statusNone cSprange)
  else
    let r := if j.kind = 3 || j.kind = 4 then s.receiversOf j else ([], [])
    let j := { j with receivers := r.1, missing := r.2, nchunks := j.total, started := true }
    let sub := s.subJob j 0 j.nchunks
    if s.overlapped j 0 sub.1 then s
    else match sub.2 with
      | .error e => s.endJob j (if j.kind = 10 then statusNone e.1 else copyStatus j.nchunks [] [(0, e.1, e.2)] 0 0)
      | .ok pages =>
        let t := s.updJob j.id fun _ => let k := { j with pages := pages.1, extents := pages.2, sub := sub.1 }; if j.kind = 10 then k else k.fill
        if j.kind = 10 then t.updTile (tileOfCore j.core) fun t => { t with qz := t.qz.filter (· ≠ j.id) } else t

/-- A copy, which has no receivers, starts. -/
theorem State.startJob_copy (s : State) {j : Job} (h34 : j.kind ∉ [3, 4]) (h10 : j.kind ≠ 10) (hb : j.badLayout = false) (hy : s.beyond j = false) {n : Nat}
    {pages : SMap Loc} {ext : SMap Nat} (hsub : s.subJob { j with nchunks := j.total, started := true, receivers := [], missing := [] } 0 j.total = (n, .ok (pages, ext)))
    (ho : s.overlapped { j with nchunks := j.total, started := true, receivers := [], missing := [] } 0 n = false) :
    s.startJob j = s.updJob j.id fun _ => ({ j with
      nchunks := j.total, started := true, receivers := [], missing := [], pages := pages, extents := ext, sub := n } : Job).fill := by
  have hr : (decide (j.kind = 3) || decide (j.kind = 4)) = false := by simpa using h34
  simp only [State.startJob, hb, hy, hr, h10, hsub, ho, Bool.false_eq_true, if_false]

section dispatch
variable {s : State} {j : Job} (hj : s.job? (s.arg 0) = some j) (hs : j.started = false) (hp : j.suspended = false) (hk : j.kind ∉ [8, 9, 10])
  (ha : s.asyncDone j.ctx j.after = true)
include hs hp hk ha

theorem jobDispatch_due : (j.started || j.suspended || decide (j.kind = 8) || decide (j.kind = 9) || !s.asyncDone j.ctx j.after) = false ∧ j.kind ≠ 10 := by
  simp only [List.mem_cons, List.not_mem_nil, or_false, not_or] at hk
  obtain ⟨h8, h9, h10⟩ := hk
  simp [hs, hp, ha, h8, h9, h10]

include hj
/-- A job that its submission refused ends. -/
theorem jobDispatch_refused (h : j.pre ≠ 0) : exec .jobDispatch s = .next (s.endJob j (statusNone j.pre)) := by
  obtain ⟨hd, h10⟩ := jobDispatch_due hs hp hk ha
  change execJobDispatch s = _
  simp only [execJobDispatch, hj, hd, h10, h, decide_false, Bool.false_and, Bool.false_eq_true, if_false, ne_eq, not_false_eq_true, if_true]

variable (h0 : j.pre = 0) (hl : s.dispatchLost j = false)
include h0 hl

/-- R208: a record or card that cannot be read. -/
theorem jobDispatch_unread {c : Nat} (hc : s.jobCard j s.ev.bytes = .error (some c)) :
    exec .jobDispatch s = .next ((s.structPackets j j.opA 64 64).endJob j (statusNone c)) := by
  obtain ⟨hd, h10⟩ := jobDispatch_due hs hp hk ha
  change execJobDispatch s = _
  simp only [execJobDispatch, hj, hd, h10, h0, hl, hc, decide_false, Bool.false_and, Bool.false_eq_true, if_false, ne_eq, not_true_eq_false]

theorem jobDispatch_read {x : Nat} (hx : s.jobCard j s.ev.bytes = .ok x) {u : State} (hu : u = if j.readsCard then s.structPackets j j.opA 64 64 else s) :
    exec .jobDispatch s = .next (u.startJob { j with card := BitVec.ofNat 512 x, seq := ((u.job? j.id).getD j).seq }) := by
  obtain ⟨hd, h10⟩ := jobDispatch_due hs hp hk ha
  have hpre : (j.pre ≠ 0) = False := by simp [h0]
  change execJobDispatch s = _
  simp only [execJobDispatch, State.startJob, hj, hd, h10, hpre, hl, hx, decide_false, Bool.false_and, Bool.false_eq_true, if_false, ← hu] <;> rfl

/-- R160, R206: the first sub-job is translated, and its chunks are issued. -/
theorem jobDispatch_starts {x n : Nat} {u : State} {k : Job} {pages : SMap Loc} {ext : SMap Nat} (h34 : j.kind ∉ [3, 4]) (hx : s.jobCard j s.ev.bytes = .ok x)
    (hu : u = if j.readsCard then s.structPackets j j.opA 64 64 else s) (hkj : k = { j with card := BitVec.ofNat 512 x, seq := ((u.job? j.id).getD j).seq })
    (hb : k.badLayout = false) (hy : u.beyond k = false)
    (hsub : u.subJob { k with nchunks := k.total, started := true, receivers := [], missing := [] } 0 k.total = (n, .ok (pages, ext)))
    (ho : u.overlapped { k with nchunks := k.total, started := true, receivers := [], missing := [] } 0 n = false) :
    exec .jobDispatch s = .next (u.updJob j.id fun _ => ({ k with
      nchunks := k.total, started := true, receivers := [], missing := [], pages := pages, extents := ext, sub := n } : Job).fill) := by
  have h10 := (jobDispatch_due hs hp hk ha).2
  have hki : j.id = k.id := by rw [hkj]
  have hkk : k.kind = j.kind := by rw [hkj]
  rw [jobDispatch_read hj hs hp hk ha h0 hl hx hu, ← hkj, hki, u.startJob_copy (by rw [hkk]; exact h34) (by rw [hkk]; exact h10) hb hy hsub ho]

end dispatch

/-- R160: the next sub-job of a long job. -/
theorem subjobDispatch_goesOn (s : State) (j : Job) (n : Nat) (pages : SMap Loc) (ext : SMap Nat) (hj : s.job? (s.arg 0) = some j) (hs : j.started = true)
    (hp : j.suspended = false) (he : j.ended = false) (hf : j.failed = []) (hk : j.kind < 9) (hn : j.next = j.sub) (hc : j.sub < j.nchunks)
    (hsub : s.subJob j j.sub j.nchunks = (n, .ok (pages, ext))) (ho : s.overlapped j j.sub n = false) :
    ∃ t, exec .subjobDispatch s = .next t ∧ t = { s with jobs := t.jobs } ∧ t.job? j.id = some ({ j with pages := pages, extents := ext, sub := n } : Job).fill := by
  let f : Job → Job := fun x => if x.kind = 10 then { x with pages := pages, extents := ext, sub := n } else ({ x with pages := pages, extents := ext, sub := n } : Job).fill
  have hd : (!j.started || j.suspended || j.ended || !j.failed.isEmpty || decide (j.kind = 9) || decide (j.next ≠ j.sub) || decide (j.nchunks ≤ j.sub)) = false := by
    simp [hs, hp, he, hf, hn]; omega
  have hid : ∀ x, (f x).id = x.id := fun x => by
    simp only [f]; split <;> rfl
  refine ⟨s.updJob j.id f, ?_, rfl, ?_⟩
  · change execSubjobDispatch s = _
    simp only [execSubjobDispatch, hj, hd, Bool.false_eq_true, if_false, hsub, ho] <;> rfl
  · rw [State.job_updJob (State.job_self hj) f hid]
    exact congrArg some (if_neg (by omega))

/-! ## Chunks (R162, R207) -/

section chunk
variable {s : State} {j : Job} {k : Nat} (hj : s.job? (s.arg 0) = some j) (hk : k = s.arg 1) (hf : k ∈ j.flight) (h4 : j.kind ∉ [3, 4, 9, 10])
include hj hk hf h4

theorem exec_chunkComplete : exec .chunkComplete s = .next (if (SMap.find j.cells k).isSome then s.chunkWrites j.id k (s.ev.args.drop 2)
    else match s.runChunk j k s.ev.bytes with
      | .wait => s
      | .ok u => u.chunkWrites j.id k (s.ev.args.drop 2)
      | .fail u c => u.chunkOut j.id k (some c)) := by
  simp only [List.mem_cons, List.not_mem_nil, or_false, not_or] at h4
  obtain ⟨h3, h4, h9, h10⟩ := h4
  have hd : (!j.flight.contains k || decide (j.kind = 9) || decide (j.kind = 10)) = false := by simp [hf, h9, h10]
  change execChunkComplete s = _
  simp only [execChunkComplete, ← hk, hj, hd, h3, h4, Bool.false_eq_true, if_false, decide_false, Bool.or_self] <;> rfl

theorem chunkComplete_reads (hn : SMap.find j.cells k = none) :
    (∀ u, s.runChunk j k s.ev.bytes = .ok u → exec .chunkComplete s = .next (u.chunkWrites j.id k (s.ev.args.drop 2))) ∧
      ∀ u c, s.runChunk j k s.ev.bytes = .fail u c → exec .chunkComplete s = .next (u.chunkOut j.id k (some c)) := by
  rw [exec_chunkComplete hj hk hf h4, hn]
  exact ⟨fun u hu => by rw [hu]; rfl, fun u c hu => by rw [hu]; rfl⟩

omit hf h4 hk in
/-- R207: words of the bytes the engine holds are written. -/
theorem chunkWrites_of {w : Loc × Byte} {ws : List (Loc × Byte)} {t : State} {x : Job} {ns : List Nat} (hc : SMap.find j.cells k = some (w :: ws))
    (hq : s.chunkAsked j.id k = false) (hg : ∀ f ∈ j.failed, f.1 ≠ k) (hw : s.writeCells j k ns = some t) (hx : t.job? j.id = some x)
    (ht : t.chunkAsked j.id k = false) : s.chunkWrites j.id k ns = if SMap.find x.cells k = some [] then t.chunkOut j.id k none else t := by
  simp only [State.chunkWrites, State.job_self hj, hc, hq, Bool.false_eq_true, if_false, find_failed_none hg, hw, hx, ht, Bool.not_false, Bool.and_true, beq_iff_eq]

theorem chunkComplete_writes {w : Loc × Byte} {ws : List (Loc × Byte)} {t : State} {x : Job} (hc : SMap.find j.cells k = some (w :: ws))
    (hq : s.chunkAsked j.id k = false) (hg : ∀ f ∈ j.failed, f.1 ≠ k) (hw : s.writeCells j k (s.ev.args.drop 2) = some t) (hx : t.job? j.id = some x)
    (ht : t.chunkAsked j.id k = false) : (SMap.find x.cells k = some [] → exec .chunkComplete s = .next (t.chunkOut j.id k none)) ∧
      (SMap.find x.cells k ≠ some [] → exec .chunkComplete s = .next t) := by
  have he : exec .chunkComplete s = .next (if SMap.find x.cells k = some [] then t.chunkOut j.id k none else t) := by
    rw [exec_chunkComplete hj hk hf h4, ← chunkWrites_of hj hc hq hg hw hx ht, hc]
    rfl
  exact ⟨fun h => by rw [he, if_pos h], fun h => by rw [he, if_neg h]⟩

end chunk

/-! ## Shares and deliveries (R168, R176) -/

/-- R168: one of two receivers gets its share of a chunk; the other has still to get it. -/
theorem cpmShareApply_first (s : State) (j : Job) (u : State) (bs : List Byte) (q : Nat) (x : Job) (hj : s.job? (s.arg 0) = some j)
    (hd : SMap.find j.data (s.arg 2) = some bs) (hm : j.missing = []) (hr : j.receivers = [s.arg 1, q]) (hq : q ≠ s.arg 1) (h1 : (s.arg 1, s.arg 2) ∉ j.shares)
    (h2 : (q, s.arg 2) ∉ j.shares) (hs : s.share j (s.arg 2) (s.arg 1) bs = .ok u) (hx : u.job? j.id = some x) (hxs : x.shares = j.shares) :
    exec .cpmShareApply s = .next (u.updJob j.id fun x => { x with shares := x.shares ++ [(s.arg 1, s.arg 2)] }) := by
  have hblocks : s.shareBlocks j = ([s.arg 1, q], true) := by simp [State.shareBlocks, hm, hr]
  have hone : (([s.arg 1, q] : List Nat).filter fun r => !j.shares.contains (r, s.arg 2) && ((some (s.arg 1)).isNone || some (s.arg 1) == some r)) = [s.arg 1] := by
    simp [h1, Ne.symm hq]
  have hnow : (u.updJob j.id fun x => { x with shares := x.shares ++ [(s.arg 1, s.arg 2)] }).job? j.id = some { x with shares := x.shares ++ [(s.arg 1, s.arg 2)] } :=
    State.job_updJob hx _ fun _ => rfl
  have hrest : (true && ([s.arg 1, q] : List Nat).all fun r => (x.shares ++ [(s.arg 1, s.arg 2)]).contains (r, s.arg 2)) = false := by
    simp [hxs, h2, hq]
  change Host.Outcome.next (s.shares (s.arg 0) (s.arg 2) (some (s.arg 1))) = _
  rw [← State.job_id hj]
  simp only [State.shares, State.job_self hj, hd, hblocks, hone, List.foldl_cons, List.foldl_nil, hs, hnow, hrest, Bool.false_eq_true, if_false]

theorem barrierOperation_oldest (s : State) (d : Delivery) (rest : List Delivery) (hd : s.deliveries = d :: rest) (hc : d.obj.core = s.arg 0) :
    exec .barrierOperation s = .next (({ s with deliveries := rest } : State).barDeliver d.obj d.phase d.n) := by
  change Host.Outcome.next (s.serveDelivery (s.arg 0)) = _
  simp [State.serveDelivery, hd, hc]

/-! ## Quantised blocks (R222, R223) -/

section quantise
variable {s : State} {j : Job} (hj : s.job? (s.arg 0) = some j) (hk : j.kind = 10) (hs : j.started = true) (hn : j.next < j.sub)
include hk hs hn

theorem qzBlock_due : (decide (j.kind ≠ 10) || !j.started || decide (j.sub ≤ j.next)) = false := by simp [hk, hs, hn]

include hj
/-- R222: a block is read, quantised and held, and words of it are written. -/
theorem qzBlockComplete_reads {els : List (List Byte)} {r : List Byte × W32 × Nat × Nat} {u : State} {x n : Nat} (hc : SMap.find j.cells j.next = none) (he : j.ended = false)
    (hp : j.suspended = false) (hx : x = j.card.toNat) (hl : n = qzLen x)
    (hr : s.readElems j (qzSize x) ((List.range n).map fun i => some (qzSrc x j.next i)) s.ev.bytes = .ok els)
    (hq : r = qzBlock (x.testBit 387) (els.map fun e => BitVec.ofNat 32 (if qzSize x = 2 then bytesNat e * 65536 else bytesNat e)))
    (hh : (s.readPackets j (qzSize x) ((List.range n).map fun i => some (qzSrc x j.next i))).holdCells j .store j.next
      (((List.range n).zip r.1 |>.flatMap fun p => [(some (qzDst x j.next p.1), [p.2]), (qzTrans x j.next p.1, [p.2])]) ++
        [(some (qzScl x j.next), natBytes 4 r.2.1.toNat), (qzTransScl x j.next, natBytes 4 r.2.1.toNat)]) = .ok u) :
    exec .qzBlockComplete s = .next ((u.updJob j.id fun j => { j with nan := j.nan + r.2.2.1, ovf := j.ovf + r.2.2.2 }).qzWrites j.id (s.ev.args.drop 1)) := by
  change execQzBlockComplete s = _
  simp only [execQzBlockComplete, hj, qzBlock_due hk hs hn, hc, he, hp, Option.isSome_none, Bool.false_eq_true, if_false, ← hx, ← hl, hr, ← hq, hh]

/-- R223: with the last word of a block the next one may be read, or the job ends. -/
theorem qzBlockComplete_writes {t : State} {x : Job} {w : Loc × Byte} {ws : List (Loc × Byte)} (hc : SMap.find j.cells j.next = some (w :: ws))
    (hw : s.writeCells j j.next (s.ev.args.drop 1) = some t) (hx : t.job? j.id = some x) (hxc : SMap.find x.cells j.next = some [])
    (ha : t.chunkAsked j.id j.next = false) (hf : ∀ f ∈ x.failed, f.1 ≠ j.next) :
    exec .qzBlockComplete s = .next (if j.next + 1 = x.nchunks then t.endJob x (qzStatus x 0 0)
      else t.updJob j.id fun j' => { j' with next := j.next + 1, cells := [] }) := by
  change execQzBlockComplete s = _
  simp only [execQzBlockComplete, hj, qzBlock_due hk hs hn, hc, Option.isSome_some, Bool.false_eq_true, if_false, if_true, State.qzWrites, State.job_self hj,
    Option.getD_some, reduceCtorEq, hw, hx, hxc, ha, bne_self_eq_false, Bool.or_self, find_failed_none hf]

end quantise

theorem jobRules : JobRules := by
  refine ⟨fun s j hj hs hp hk ha => ⟨jobDispatch_refused hj hs hp hk ha, fun h0 hl => ⟨fun c hc => jobDispatch_unread hj hs hp hk ha h0 hl hc,
      fun x u k n pages ext h34 hx hu hkj hb hy hsub ho => jobDispatch_starts hj hs hp hk ha h0 hl h34 hx hu hkj hb hy hsub ho⟩⟩,
    subjobDispatch_goesOn, fun s j k hj hk hf h4 => ⟨chunkComplete_reads hj hk hf h4, fun t x w ws hc hq hg hw hx ht => chunkComplete_writes hj hk hf h4 hc hq hg hw hx ht⟩,
    cpmShareApply_first, barrierOperation_oldest, fun s j hj hk hs hn => ⟨fun els r u x n hc he hp hx hl hr hq hh => ?_, fun t x w ws hc hw hx hxc ha hf => ?_⟩⟩
  · exact qzBlockComplete_reads hj hk hs hn hc he hp hx hl hr hq hh
  · exact qzBlockComplete_writes hj hk hs hn hc hw hx hxc ha hf

end Sys2Proof.Machine
end

section
/-!
PROOF. Events of collectives (07 R182, R183; 09 R206, R207; 22 R406): the first card opens a collective and the last one starts it; a chunk is written at
every member, and the last one ends the jobs.
-/

namespace Sys2Proof.Machine

/-! ## Cards arrive (R182) -/

section card
variable {s : State} {j : Job} (hj : s.job? (s.arg 0) = some j) (hk : j.kind = 9) (he : j.ended = false) (hp : j.suspended = false)
  (ha : s.asyncDone j.ctx j.after = true) (hn : s.needed j = false)
include hj hk he hp ha hn

theorem exec_collectiveStart : exec .collectiveStart s = .next (
    match (if j.started then s else s.joinColl j).coll? j.launch (cardCon j.card.toNat) (cardCid j.card.toNat) with
    | none => if j.started then s else s.joinColl j
    | some c => (if j.started then s else s.joinColl j).startColl c) := by
  have hd : (decide (j.kind ≠ 9) || j.ended || j.suspended || !s.asyncDone j.ctx j.after || s.needed j) = false := by simp [hk, he, hp, ha, hn]
  change execCollectiveStart s = _
  simp only [execCollectiveStart, hj, hd, Bool.false_eq_true, if_false] <;> rfl

end card

/-- No collective of s has the launch, constellation and number of j's card. -/
theorem coll_none {s : State} {l con cid : Nat} (h : ∀ c ∈ s.colls, ¬(c.launch = l ∧ c.con = con ∧ c.cid = cid)) : s.coll? l con cid = none :=
  List.find?_eq_none.2 fun c hc => by simpa [and_assoc] using h c hc
/-- R182: a collective that has started, or has not a card for every rank, waits. -/
theorem State.startColl_waits (s : State) {c : Coll} (h : c.jobs.length ≠ c.size) : s.startColl c = s :=
  if_pos (by simp [h])

/-- The collective that j's card opens with rank r, and s with it. -/
def State.firstColl (s : State) (j : Job) (r : Nat) : Coll :=
  { launch := j.launch, con := cardCon j.card.toNat, cid := cardCid j.card.toNat, size := (s.launch j.launch).conSize (cardCon j.card.toNat), jobs := [(r, j.id)] }
def State.openColl (s : State) (j : Job) (r : Nat) : State :=
  { (s.updJob j.id fun x => { x with started := true }) with colls := s.colls ++ [s.firstColl j r] }

section opened
variable {s : State} {j : Job} (hc : s.coll? j.launch (cardCon j.card.toNat) (cardCid j.card.toNat) = none)
include hc

theorem State.joinColl_first {r : Nat} (hr : s.rankOf j = some r) : s.joinColl j = s.openColl j r := by
  have hc' : (s.updJob j.id fun x => { x with started := true }).coll? j.launch (cardCon j.card.toNat) (cardCid j.card.toNat) = none := hc
  unfold State.joinColl
  rw [hr]
  dsimp only
  rw [hc']
  rfl
theorem State.openColl_coll (r : Nat) : (s.openColl j r).coll? j.launch (cardCon j.card.toNat) (cardCid j.card.toNat) = some (s.firstColl j r) := by
  change (s.colls ++ [s.firstColl j r]).find? _ = _
  rw [List.find?_append, show s.colls.find? _ = none from hc]
  simp [State.firstColl]
end opened

/-- R182: the first card opens its collective. -/
theorem collectiveStart_opens {s : State} {j : Job} (hj : s.job? (s.arg 0) = some j) (hk : j.kind = 9) (he : j.ended = false) (hp : j.suspended = false)
    (ha : s.asyncDone j.ctx j.after = true) (hn : s.needed j = false) {r : Nat} (hs : j.started = false) (hr : s.rankOf j = some r)
    (hc : ∀ c ∈ s.colls, ¬(c.launch = j.launch ∧ c.con = cardCon j.card.toNat ∧ c.cid = cardCid j.card.toNat))
    (h1 : (s.launch j.launch).conSize (cardCon j.card.toNat) ≠ 1) : exec .collectiveStart s = .next (s.openColl j r) := by
  have hwait : (s.openColl j r).startColl (s.firstColl j r) = s.openColl j r := State.startColl_waits _ (Ne.symm h1)
  rw [exec_collectiveStart hj hk he hp ha hn]
  simp only [hs, Bool.false_eq_true, if_false, State.joinColl_first (coll_none hc) hr, State.openColl_coll (coll_none hc), hwait]

/-- R182, R206: the last card starts it. -/
theorem collectiveStart_starts {s : State} {j : Job} (hj : s.job? (s.arg 0) = some j) (hk : j.kind = 9) (he : j.ended = false) (hp : j.suspended = false)
    (ha : s.asyncDone j.ctx j.after = true) (hn : s.needed j = false) {c : Coll} {h : Job} {t : List Job} (hs : j.started = true)
    (hc : s.coll? j.launch (cardCon j.card.toNat) (cardCid j.card.toNat) = some c) (hcs : c.started = false) (hl : c.jobs.length = c.size)
    (hjs : s.collJobs c = h :: t) (ht : t.length + 1 = c.size) (hag : ∀ k ∈ h :: t, cardBad k.card.toNat c.size = false ∧ cardsAgree h.card.toNat k.card.toNat = true)
    (ho : ∀ k ∈ h :: t, s.overlapped k 0 k.nchunks = false) :
    exec .collectiveStart s = .next ((s.chunkExtents (s.collJobs c) c.size 0).updColl c fun x => { x with started := true }) := by
  have hd : (c.started || decide (c.jobs.length ≠ c.size) || decide ((h :: t).length ≠ c.size)) = false := by simp [hcs, hl, ht]
  have hbad : ((h :: t).any fun k => cardBad k.card.toNat c.size || !cardsAgree h.card.toNat k.card.toNat) = false :=
    List.any_eq_false.2 fun k hk => by simp [hag k hk]
  have hover : ((h :: t).any fun k => s.overlapped k 0 k.nchunks) = false := List.any_eq_false.2 fun k hk => by simp [ho k hk]
  rw [exec_collectiveStart hj hk he hp ha hn]
  simp only [hs, if_true, hc, State.startColl, hjs, hd, hbad, hover, Bool.false_eq_true, if_false]

/-! ## Chunks (R183, R406) -/

/-- What follows the words of chunk k that were written in v. -/
def State.chunkEnds (v : State) (c : Coll) (k : Nat) : State :=
  let w := if (v.collJobs c).any fun j => (SMap.find j.cells k).isSome then v else v.updColl c fun x => { x with next := max x.next (k + 1) }
  if (v.collJobs c).all fun j => j.applied.length + j.failed.length == j.nchunks && j.cells.isEmpty then
    ((v.collJobs c).foldl (fun s j => s.endJob j (copyStatus j.nchunks j.applied j.failed j.bytes 0)) w).dropColl c
  else w

/-- R183: a chunk that is under way, or may begin, is written at every member. -/
theorem exec_collectiveChunkComplete {s u : State} {c : Coll} {k : Nat} (hc : s.coll? (s.arg 0) (s.arg 1) (s.arg 2) = some c) (hk : k = s.arg 3) (hs : c.started = true)
    (hu : (u = s ∧ ∃ j ∈ s.collJobs c, (SMap.find j.cells k).isSome = true) ∨
      (s.chunkBegin c k s.ev.bytes = some u ∧ ∀ j ∈ s.collJobs c, SMap.find j.cells k = none ∧ j.suspended = false ∧ j.mayFinish k = true)) :
    exec .collectiveChunkComplete s = .next (((s.collJobs c).foldl (fun t j => t.chunkGoesOn j.id k (s.ev.args.drop 4)) u).chunkEnds c k) := by
  change execCollectiveChunkComplete s = _
  rcases hu with ⟨rfl, j, hj, hjk⟩ | ⟨hb, hall⟩
  · have hunder : ((u.collJobs c).any fun j => (SMap.find j.cells k).isSome) = true := List.any_eq_true.2 ⟨j, hj, hjk⟩
    simp only [execCollectiveChunkComplete, hc, ← hk, hs, hunder, Bool.not_true, Bool.false_and, Bool.or_self, Bool.false_eq_true, if_false, if_true, State.chunkEnds]
  · have hunder : ((s.collJobs c).any fun j => (SMap.find j.cells k).isSome) = false := List.any_eq_false.2 fun j hj => by simp [(hall j hj).1]
    have hmay : ((s.collJobs c).any fun j => j.suspended || !j.mayFinish k) = false := List.any_eq_false.2 fun j hj => by simp [hall j hj]
    simp only [execCollectiveChunkComplete, hc, ← hk, hs, hunder, hmay, hb, Bool.not_true, Bool.and_false, Bool.or_self, Bool.false_eq_true, if_false, State.chunkEnds]

section ends
variable {v : State} {c : Coll} {k : Nat}

/-- R207: a member still holds bytes of the chunk. -/
theorem State.chunkEnds_held (h : ∃ x ∈ v.collJobs c, (SMap.find x.cells k).isSome = true) : v.chunkEnds c k = v := by
  obtain ⟨x, hx, hxk⟩ := h
  have hany : ((v.collJobs c).any fun j => (SMap.find j.cells k).isSome) = true := List.any_eq_true.2 ⟨x, hx, hxk⟩
  have hall : ((v.collJobs c).all fun j => j.applied.length + j.failed.length == j.nchunks && j.cells.isEmpty) = false := by
    refine List.all_eq_false.2 ⟨x, hx, ?_⟩
    cases hcl : x.cells with
    | nil => rw [hcl] at hxk; exact absurd hxk (by simp [SMap.find])
    | cons y ys => simp
  simp only [State.chunkEnds, hany, hall, Bool.false_eq_true, if_false, if_true]

/-- R183: the chunk is done at every member, and others are still to be done. -/
theorem State.chunkEnds_done (h : ∀ x ∈ v.collJobs c, SMap.find x.cells k = none) (hx : ∃ x ∈ v.collJobs c, x.applied.length + x.failed.length ≠ x.nchunks) :
    v.chunkEnds c k = v.updColl c fun x => { x with next := max x.next (k + 1) } := by
  obtain ⟨x, hx, hne⟩ := hx
  have hany : ((v.collJobs c).any fun j => (SMap.find j.cells k).isSome) = false := List.any_eq_false.2 fun j hj => by simp [h j hj]
  have hall : ((v.collJobs c).all fun j => j.applied.length + j.failed.length == j.nchunks && j.cells.isEmpty) = false :=
    List.all_eq_false.2 ⟨x, hx, by simp [hne]⟩
  simp only [State.chunkEnds, hany, hall, Bool.false_eq_true, if_false]

/-- R183: every chunk is done at every member: the jobs end, and with them the collective. -/
theorem State.chunkEnds_last (h : ∀ x ∈ v.collJobs c, x.cells = [] ∧ x.applied.length + x.failed.length = x.nchunks) :
    v.chunkEnds c k = ((v.collJobs c).foldl (fun s j => s.endJob j (copyStatus j.nchunks j.applied j.failed j.bytes 0))
      (v.updColl c fun x => { x with next := max x.next (k + 1) })).dropColl c := by
  have hany : ((v.collJobs c).any fun j => (SMap.find j.cells k).isSome) = false := List.any_eq_false.2 fun j hj => by
    simp [(h j hj).1]
  have hall : ((v.collJobs c).all fun j => j.applied.length + j.failed.length == j.nchunks && j.cells.isEmpty) = true :=
    List.all_eq_true.2 fun j hj => by simp [h j hj]
  simp only [State.chunkEnds, hany, hall, Bool.false_eq_true, if_false, if_true]

end ends

theorem collectiveRules : CollectiveRules := by
  refine ⟨fun s j hj hk he hp ha hn => ⟨fun r hs hr hc h1 => collectiveStart_opens hj hk he hp ha hn hs hr hc h1,
    fun c h t hs hc hcs hl hjs ht hag ho => collectiveStart_starts hj hk he hp ha hn hs hc hcs hl hjs ht hag ho⟩, ?_⟩
  rintro s c k u v hc hk hs hu rfl
  rw [exec_collectiveChunkComplete hc hk hs hu]
  exact ⟨fun h => by rw [State.chunkEnds_held h], fun h hx => by rw [State.chunkEnds_done h hx], fun h => by rw [State.chunkEnds_last h]⟩

/-- Settles O49: the events of jobs, and those of collectives. -/
theorem engineEvents : Obligations.EngineEvents := ⟨jobRules, collectiveRules⟩

end Sys2Proof.Machine
end

section
/-!
PROOF. The sequencer's matrix operations as they issue (11 R235, R238, R240, R246, R247).
-/

namespace Sys2Proof.Machine

/-! ### What a matrix word sees at its issue -/

theorem charge_core_engine (s : State) (m : Meta) (c : Nat) : ((s.charge m).core c).engine = (s.core c).engine := by
  have e := congrArg Core.engine ((State.charge_keeps s m).2.1 c); exact e
theorem charge_seqNo (s : State) (m : Meta) : (s.charge m).cur.seqNo = s.cur.seqNo := by simp only [Ctx.seqNo, State.charge_cur_kind]
theorem charge_mxCount (s : State) (m : Meta) : (s.charge m).cur.mxCount = s.cur.mxCount := by
  simp only [Ctx.mxCount, State.charge_cur_mxOpen, State.charge_cur_mxBatches]
theorem Ctx.seqNo_seq {c : Ctx} {n : Nat} (h : c.kind = .seq n) : c.seqNo = n := by rw [Ctx.seqNo, h]

/-- Table 01-7: a sequencer stream may hold a matrix word. -/
theorem mxMeta_ok_upTo {s : State} (h : s.Ready) {n : Nat} (hk : s.cur.kind = .seq n) (sm : Bool) (ss : List Nat) {e : Nat} (he : e ≤ 64) :
    s.illegal { mxMeta s sm ss with sEnd := e } = none :=
  illegal_uniform h rfl he rfl (fun _ => rfl) (.inl rfl) (by simp only [mxMeta, seqOnly, Ctx.isSeq, hk, if_true]) rfl
theorem mxMeta_ok {s : State} (h : s.Ready) {n : Nat} (hk : s.cur.kind = .seq n) (sm : Bool) (ss : List Nat) : s.illegal (mxMeta s sm ss) = none :=
  mxMeta_ok_upTo h hk sm ss (Nat.zero_le 64)
/-- Table 01-7: a group's stream may not. -/
theorem mxMeta_illegal {s : State} (h : s.GroupReady) (sm : Bool) (ss : List Nat) {e : Nat} (he : e ≤ 64) :
    s.illegal { mxMeta s sm ss with sEnd := e } = some (kIllegal, 5) := by
  have hq : s.cur.isSeq = false := by rw [Ctx.isSeq, h.2]
  simp [State.illegal, mxMeta, seqOnly, h.1.recipe, hq, he]

/-! ### An operation joins the open set -/

/-- R235: s with an operation in the open set of its context. -/
def State.openMx (s : State) (o : MxOp) : State :=
  { s with mxops := s.mxops ++ [o], nextId := s.nextId + 1, cur := { s.cur with mxOpen := s.cur.mxOpen ++ [s.nextId] } }
theorem State.Keeps.openMx {s t : State} (h : s.Keeps t) (o : MxOp) : (s.openMx o).Keeps (t.openMx o) :=
  h.map (·.openMx o) (·.openMx o) (fun _ => rfl) fun _ => ⟨rfl, rfl⟩

/-- R235: the operation that the current context issues. -/
def State.mxOpOf (s : State) (kind span a b : Nat) : MxOp :=
  { id := s.nextId, ctx := s.cur.id, core := s.cur.core, half := s.cur.seqNo, kind := kind, ord := s.cur.mxOpen.length, opA := s.readS a
    opB := if span = 0 then 0 else s.readS b, opB1 := if span = 2 then s.readS (b + 1) else 0, split := s.myCore.engine.split
    after := s.cur.asyncFence, pc := s.cur.pc }
theorem charge_mxOpOf {s : State} (h : s.Ready) (m : Meta) (kind span a b : Nat) : (s.charge m).mxOpOf kind span a b = s.mxOpOf kind span a b := by
  simp only [State.mxOpOf, State.myCore, charge_readS h, State.readS_eq h.written, charge_seqNo, charge_core_engine, State.charge_nextId, State.charge_cur_id,
    State.charge_cur_core, State.charge_cur_mxOpen, State.charge_cur_asyncFence, State.charge_cur_pc]
theorem State.openMx_mxOpOf {s : State} (h : s.Ready) {n : Nat} (hk : s.cur.kind = .seq n) (kind span a b : Nat) : s.openMx (s.mxOpOf kind span a b) =
    s.withMx n kind (s.rawS a) (if span = 0 then 0 else s.rawS b) (if span = 2 then s.rawS (b + 1) else 0) := by
  simp only [State.openMx, State.mxOpOf, State.withMx, State.readS_eq h.written, Ctx.seqNo_seq hk]

section operation
variable {s : State} (kind span : Nat) (sm : Bool) (a b : BitVec 6)

/-- R235: in a sequencer with room an operation is issued with its operand words. -/
theorem matrixOp_issues {n : Nat} (h : s.Ready) (hk : s.cur.kind = .seq n) (hb : b.toNat + span ≤ 64) (hc : s.cur.mxCount < 64) :
    ∃ t, matrixOp kind sm a b span s = .next t ∧ s.Returns (s.withMx n kind (s.rawS a.toNat) (if span = 0 then 0 else s.rawS b.toNat)
      (if span = 2 then s.rawS (b.toNat + 1) else 0)) t 4 sm [] := by
  let m : Meta := { mxMeta s sm (a.toNat :: (List.range span).map (b.toNat + ·)) with sEnd := b.toNat + span }
  let o := s.mxOpOf kind span a.toNat b.toNat
  have hw : (s.charge m).openMx ((s.charge m).mxOpOf kind span a.toNat b.toNat) = (s.charge m).openMx o := by rw [charge_mxOpOf h]
  rw [← State.openMx_mxOpOf h hk]
  refine issue_effect (m := m) (w := (s.charge m).openMx o) h (mxMeta_ok_upTo h hk sm _ hb) (.inl rfl) ?_ ((State.charge_keeps s m).openMx o) rfl
    (State.charge_cur_pc ..) (State.charge_cur_loop ..) ((State.charge_cur_slotLen ..).trans h.word) ((State.charge_cur_recipe ..).trans h.recipe)
    ((State.charge_cur_deferred ..).trans h.written) ((State.charge_cur_poisonV ..).trans h.poisonV) ((State.charge_cur_poisonS ..).trans h.poisonS)
  rw [← hw]
  simp only [charge_mxCount, if_neg (Nat.not_le.2 hc)]
  rfl

/-- Table 01-7, R25: in a group's stream it is ILLEGAL. -/
theorem matrixOp_illegal (h : s.GroupReady) (hu : s.cur.smode = false) (ht : s.cur.txg = false) (hv : s.myPart.svVec ≠ 0) (hb : b.toNat + span ≤ 64) :
    ∃ t, matrixOp kind sm a b span s = .next t ∧ t.cur.pc = evenPc s.myPart.svVec ∧ t.cur.smode = true ∧ t.cur.epc = s.cur.pc ∧
      t.cur.cause.extractLsb' 0 8 = 4 ∧ t.cur.cause.extractLsb' 8 8 = 5 ∧ t.cur.sregs = s.cur.sregs :=
  issue_illegal_enters h hu hv (mxMeta_illegal h sm _ hb) (by decide) (by decide) ht _

end operation

/-- Settles O37: the six words are one operation, which reads no B operand where its span is 0. -/
theorem matrixSubmissions : Obligations.MatrixSubmissions := by
  intro p hp
  have hx : ∀ sm a b s, exec (p.1 sm a b) s = matrixOp p.2.1 sm a (if p.2.2 = 0 then 0 else b) p.2.2 s := by
    simp only [List.mem_cons, List.not_mem_nil, or_false] at hp
    rcases hp with rfl | rfl | rfl | rfl | rfl | rfl <;> exact fun _ _ _ _ => rfl
  obtain ⟨i, kind, span⟩ := p
  by_cases hz : span = 0
  · subst hz
    exact ⟨fun sm a b s n h hk _ hc => hx sm a b s ▸ matrixOp_issues kind 0 sm a 0 h hk (by decide) hc,
      fun sm a b s h hu ht hv _ => hx sm a b s ▸ matrixOp_illegal kind 0 sm a 0 h hu ht hv (by decide)⟩
  · simp only [if_neg hz] at hx ⊢
    refine ⟨fun sm a b s n h hk hb hc => ?_, fun sm a b s h hu ht hv hb => ?_⟩
    · have hi := matrixOp_issues kind span sm a b h hk hb hc
      rw [if_neg hz] at hi
      rw [hx]; exact hi
    · rw [hx]; exact matrixOp_illegal kind span sm a b h hu ht hv hb

end Sys2Proof.Machine
end

section
/-!
PROOF. Batches of matrix operations, and the two halves of the array (11 R235 to R237, R248).
-/

namespace Sys2Proof.Machine

/-! ### The open set closes -/

/-- R235: another set than the empty one becomes the next batch. -/
theorem State.closeMx_some {s : State} (h : s.cur.mxOpen ≠ []) : s.closeMx =
    { s with
      mxops := s.mxops.map fun o => if o.id ∈ s.cur.mxOpen then { o with batch := (s.cur.mxBatchN + 1).toNat } else o
      cur := { s.cur with
        mxOpen := [], mxOpenFail := none, mxBatchN := s.cur.mxBatchN + 1
        mxBatches := s.cur.mxBatches ++ [⟨(s.cur.mxBatchN + 1).toNat, s.cur.mxOpen.filter fun o => s.mxops.any fun x => x.id == o, s.cur.mxOpen.length,
          s.cur.mxOpenFail⟩] } } := by
  have hops : (s.mxops.map fun o => if (s.cur.mxOpen.filter fun o => s.mxops.any fun x => x.id == o).contains o.id then
        { o with batch := (s.cur.mxBatchN + 1).toNat } else o) =
      s.mxops.map fun o => if o.id ∈ s.cur.mxOpen then { o with batch := (s.cur.mxBatchN + 1).toNat } else o := by
    refine List.map_congr_left fun o ho => if_congr ?_ rfl rfl
    have hany : (s.mxops.any fun x => x.id == o.id) = true := List.any_eq_true.2 ⟨o, ho, beq_self_eq_true _⟩
    rw [List.contains_iff_mem, List.mem_filter, hany]
    exact and_iff_left rfl
  rw [State.closeMx, if_neg (by simpa using h)]
  simp only [hops]
theorem State.Keeps.closeMx {s t : State} (h : s.Keeps t) : s.closeMx.Keeps t.closeMx := by
  refine h.map State.closeMx State.closeMx (fun x => ?_) fun x => ?_
  · have ho : x.bare.cur.mxOpen = x.cur.mxOpen := rfl
    rw [State.closeMx, State.closeMx, ho]
    split <;> rfl
  · rw [State.closeMx]
    split <;> exact ⟨rfl, rfl⟩

/-- R237: with nothing submitted the newest batch stays. -/
theorem mxfence_empty (sm : Bool) (d : BitVec 6) (s : State) (n : Nat) (h : s.Ready) (hk : s.cur.kind = .seq n) (ho : s.cur.mxOpen = []) :
    ∃ t, exec (.mxfence sm d) s = .next t ∧ s.Returns s t 4 sm [.uni d.toNat (s.cur.mxBatchN.setWidth 64) false] := by
  refine issue_result_quiet (m := mxMeta s sm []) (w := s.charge (mxMeta s sm [])) h (mxMeta_ok h hk sm []) (.inl rfl) ?_ (State.charge_keeps s _) rfl rfl rfl
  simp only [State.closeMx_none ((State.charge_cur_mxOpen ..).trans ho), State.charge_cur_mxBatchN]
  rfl

theorem mxfence_closes (sm : Bool) (d : BitVec 6) (s : State) (n : Nat) (h : s.Ready) (hk : s.cur.kind = .seq n) (ho : s.cur.mxOpen ≠ []) :
    ∃ t, exec (.mxfence sm d) s = .next t ∧ s.Returns s.closeMx t 4 sm [.uni d.toNat ((s.cur.mxBatchN + 1).setWidth 64) false] := by
  let c := s.charge (mxMeta s sm [])
  have hw := State.closeMx_some (s := c) (by simpa [c] using ho)
  have hn : c.closeMx.cur.mxBatchN = s.cur.mxBatchN + 1 := by rw [hw]; simp only [c, State.charge_cur_mxBatchN]
  have hkeep : s.closeMx.Keeps (c.closeMx.mark false) := by rw [State.mark_false]; exact (State.charge_keeps s _).closeMx
  refine issue_returns (m := mxMeta s sm []) (w := c.closeMx) h (mxMeta_ok h hk sm []) (.inl rfl) ?_ (by simp [DVal.plain]) hkeep ?_ ?_ ?_ ?_ ?_ ?_ ?_
  · rw [if_neg (by simp), ← hn]; rfl
  all_goals simp [hw, c, h.word, h.recipe, h.written, h.poisonV, h.poisonS]

/-! ### Waiting for a batch -/

/-- Table 11-3: the word that is given is the statement's. -/
theorem mxStatus_eq (b : MxBatch) : b.word = mxStatus b := by
  unfold MxBatch.word mxStatus
  cases b.fail <;> rfl
theorem mxWord_eq (c : Ctx) (n : Nat) : c.mxWord n = match c.mxBatches.find? fun b => b.num == n with
    | some b => mxStatus b
    | none => 0 := by
  unfold Ctx.mxWord
  cases c.mxBatches.find? fun b => b.num == n with
  | none => rfl
  | some b => exact mxStatus_eq b
theorem mxDone_iff (c : Ctx) (n : Nat) : c.mxDone n = true ↔ ∀ b ∈ c.mxBatches, b.ops = [] ∨ After b.num n := by
  simp only [Ctx.mxDone, List.all_eq_true, Bool.or_eq_true, List.isEmpty_iff, after32_iff]
theorem mxDone_eq_false (c : Ctx) (n : Nat) : c.mxDone n = false ↔ ∃ b ∈ c.mxBatches, b.ops ≠ [] ∧ ¬After b.num n := by
  rw [← Bool.not_eq_true, mxDone_iff]
  push Not
  rfl

theorem charge_mxDone (s : State) (m : Meta) (n : Nat) : (s.charge m).cur.mxDone n = s.cur.mxDone n := by simp only [Ctx.mxDone, State.charge_cur_mxBatches]
theorem charge_mxWord (s : State) (m : Meta) (n : Nat) : (s.charge m).cur.mxWord n = s.cur.mxWord n := by simp only [Ctx.mxWord, State.charge_cur_mxBatches]

section named
variable {s : State} (h : s.Ready)
include h

theorem charge_mxNamed (m : Meta) {a n : Nat} (hn : Named (s.rawS a) s.cur.mxBatchN n) : (s.charge m).mxNamed a = n := by
  rw [named_iff.1 hn]
  simp only [State.mxNamed, waitFor, charge_readS h, State.charge_cur_mxBatchN]

variable (sm : Bool) (d a : BitVec 6) {n k : Nat} (hk : s.cur.kind = .seq k) (hn : Named (s.rawS a.toNat) s.cur.mxBatchN n)
include hk hn

/-- R237: batch 0 is none. -/
theorem mxwait_zero (h0 : n = 0) : ∀ i ∈ [Instr.mxwait sm d a, .mxtest sm d a],
    ∃ t, exec i s = .next t ∧ s.Returns s t 4 sm [.uni d.toNat 0 false] := by
  subst h0
  let m := mxMeta s sm [a.toNat]
  have hx := charge_mxNamed h m hn
  refine List.forall_mem_cons.2 ⟨?_, List.forall_mem_singleton.2 ?_⟩ <;>
    refine issue_result_quiet (m := m) (w := s.charge m) h (mxMeta_ok h hk sm _) (.inl rfl) ?_ (State.charge_keeps s m) rfl rfl rfl <;>
    simp only [hx, if_true, decide_true, Bool.true_or, State.deferS]

/-- R237: a batch that has completed, which acts as an acquire. -/
theorem mxwait_completed (h0 : n ≠ 0) (hb : ∀ b ∈ s.cur.mxBatches, b.ops = [] ∨ After b.num n) : ∀ i ∈ [Instr.mxwait sm d a, .mxtest sm d a],
    ∃ t, exec i s = .next t ∧ s.Returns (s.withL1 []) t 4 sm [.uni d.toNat (s.cur.mxWord n) false] := by
  let m := mxMeta s sm [a.toNat]
  have hx := charge_mxNamed h m hn
  have hd := (charge_mxDone s m n).trans ((mxDone_iff _ _).2 hb)
  refine List.forall_mem_cons.2 ⟨?_, List.forall_mem_singleton.2 ?_⟩ <;>
    refine issue_result_quiet (m := m) (w := (s.charge m).acquire 1) h (mxMeta_ok h hk sm _) (.inl rfl) ?_ (charge_acquire s m) rfl rfl rfl <;>
    simp only [hx, hd, h0, charge_mxWord, decide_false, Bool.not_true, Bool.or_self, Bool.false_eq_true, if_false, if_true, State.deferS]

variable (hb : ∃ b ∈ s.cur.mxBatches, b.ops ≠ [] ∧ ¬After b.num n)
include hb

theorem mxwait_parks (h0 : n ≠ 0) : ∃ t, exec (.mxwait sm d a) s = .next t ∧ s.Waits t (.mxBatch n) := by
  let m := mxMeta s sm [a.toNat]
  have hd := (charge_mxDone s m n).trans ((mxDone_eq_false _ _).2 hb)
  refine issue_waits (m := m) (w := s.charge m) h (mxMeta_ok h hk sm _) (.inl rfl) ?_ (State.charge_keeps s m) rfl rfl
  simp only [charge_mxNamed h m hn, hd, h0, Bool.false_eq_true, if_false]

theorem mxtest_unfinished : ∃ t, exec (.mxtest sm d a) s = .next t ∧ s.Returns s t 4 sm [.uni d.toNat 0 false] := by
  let m := mxMeta s sm [a.toNat]
  have hd := (charge_mxDone s m n).trans ((mxDone_eq_false _ _).2 hb)
  refine issue_result_quiet (m := m) (w := s.charge m) h (mxMeta_ok h hk sm _) (.inl rfl) ?_ (State.charge_keeps s m) rfl rfl rfl
  simp only [charge_mxNamed h m hn, hd, Bool.not_false, Bool.or_true, if_true, State.deferS]

end named

/-! ### The halves of the array -/

theorem State.updLaunch_of {s t : State} (h : t.launches = s.launches) (k : Nat) (f : Launch → Launch) :
    t.updLaunch k f = { t with launches := (s.updLaunch k f).launches } := by
  unfold State.updLaunch
  rw [h]
  split
  · rfl
  · rw [← h]

/-- R248: the engine of the current context's core, split or joined. -/
def State.setSplit (s : State) (v : Bool) : State := s.updCore s.cur.core fun k => { k with engine := { k.engine with split := v } }
/-- R248: s with its array split and a second sequencer context at pc. -/
def State.splitAt (s : State) (pc s1 : W64) : State :=
  ({ s.setSplit true with ctxs := s.ctxs ++ [seqStart s.cur s.nextId 1 pc s1], nextId := s.nextId + 1 } : State).updLaunch s.cur.launch fun l =>
    { l with counter := l.counter + 1 }
theorem State.Keeps.setSplit {s t : State} (h : s.Keeps t) (hc : t.cur.core = s.cur.core) (v : Bool) : (s.setSplit v).Keeps (t.setSplit v) := by
  rw [State.setSplit, State.setSplit, hc]
  exact h.updCore _ _ (fun k => { k with engine := { k.engine with split := v } }) fun _ => rfl
theorem State.Keeps.addCtx {s t : State} (h : s.Keeps t) (c : Ctx) :
    ({ s with ctxs := s.ctxs ++ [c], nextId := s.nextId + 1 } : State).Keeps { t with ctxs := t.ctxs ++ [c], nextId := t.nextId + 1 } :=
  h.map (fun x => { x with ctxs := x.ctxs ++ [c], nextId := x.nextId + 1 }) (fun x => { x with ctxs := x.ctxs ++ [c], nextId := x.nextId + 1 }) (fun _ => rfl)
    fun _ => ⟨rfl, rfl⟩
/-- The new context under the counters of an issue. -/
theorem charge_splitAt (s : State) (m : Meta) (pc s1 : W64) : (s.splitAt pc s1).Keeps ((s.charge m).splitAt pc s1) := by
  have hs : seqStart (s.charge m).cur (s.charge m).nextId 1 pc s1 = seqStart s.cur s.nextId 1 pc s1 := by
    simp only [seqStart, State.charge_cur_launch, State.charge_cur_block, State.charge_cur_core, State.charge_nextId]
  rw [State.splitAt, State.splitAt, hs, State.charge_cur_launch]
  exact (((State.charge_keeps s m).setSplit (State.charge_cur_core ..) true).addCtx _).updLaunch _ _
theorem State.splitAt_cores (s : State) (pc s1 : W64) : (s.splitAt pc s1).cores = (s.setSplit true).cores := by
  rw [State.splitAt, State.updLaunch_of rfl]
theorem State.splitAt_cur (s : State) (pc s1 : W64) : (s.splitAt pc s1).cur = s.cur := by
  rw [State.splitAt, State.updLaunch_of rfl]; rfl
/-- R248: what a split changes. -/
theorem State.splitAt_eq (s : State) (pc s1 : W64) : s.splitAt pc s1 =
    { s with
      cores := (s.splitAt pc s1).cores, launches := (s.updLaunch s.cur.launch fun l => { l with counter := l.counter + 1 }).launches, nextId := s.nextId + 1
      ctxs := s.ctxs ++ [{ kind := .seq 1, id := s.nextId, launch := s.cur.launch, block := s.cur.block, core := s.cur.core, pc := pc
                           sregs := SMap.set 0 [] 1 s1, resident := true }] } := by
  refine (State.updLaunch_of (s := s) (by rfl) _ _).trans ?_
  rw [s.splitAt_cores]
  rfl
theorem State.splitAt_core (s : State) (pc s1 : W64) (k : Nat) : (s.splitAt pc s1).core k = (s.setSplit true).core k := by
  rw [State.core, s.splitAt_cores]; rfl
theorem State.splitAt_engine (s : State) (pc s1 : W64) : ((s.splitAt pc s1).core s.cur.core).engine = { s.myCore.engine with split := true } := by
  rw [State.splitAt_core, State.setSplit, State.updCore_core, if_pos rfl]; rfl
theorem State.splitAt_others (s : State) (pc s1 : W64) (k : Nat) (hk : k ≠ s.cur.core) : (s.splitAt pc s1).core k = s.core k := by
  rw [State.splitAt_core, State.setSplit, State.updCore_core, if_neg hk]

theorem charge_split (s : State) (m : Meta) : ((s.charge m).core (s.charge m).cur.core).engine.split = s.myCore.engine.split := by
  rw [charge_core_engine, State.charge_cur_core]; rfl

section split
variable {s : State} (h : s.Ready) (sm : Bool) (d a b : BitVec 6)
include h

theorem mxsplit_splits (hk : s.cur.kind = .seq 0) (he : s.myCore.engine.split = false) (ha : s.rawS a.toNat ≠ 0) (hodd : (s.rawS a.toNat).getLsbD 0 = false)
    (hx : ∀ o ∈ s.mxops, o.ctx ≠ s.cur.id) : ∃ t, exec (.mxsplit sm d a b) s = .next t ∧
    s.Returns (s.splitAt (s.rawS a.toNat) (s.rawS b.toNat)) t 4 sm [.uni d.toNat 0 false] := by
  let m := mxMeta s sm [a.toNat, b.toNat]
  have he' : ((s.charge m).core (s.charge m).cur.core).engine.split = false := (charge_split s m).trans he
  have hidle : (s.mxops.any fun o => o.ctx == s.cur.id) = false := List.any_eq_false.2 fun o ho => by simpa using hx o ho
  have hb : ((s.charge m).setSplit true).readS b.toNat = s.rawS b.toNat := charge_readS h m _
  refine issue_result_quiet (m := m) (w := (s.charge m).splitAt (s.rawS a.toNat) (s.rawS b.toNat)) h (mxMeta_ok h hk sm _) (.inl rfl) ?_
    (charge_splitAt s m _ _) (State.splitAt_cur ..) rfl rfl
  rw [← hb]
  simp only [charge_seqNo, Ctx.seqNo_seq hk, charge_readS h, he', hodd, State.charge_mxops, State.charge_cur_id, hidle,
    bne_iff_ne.2 ha, decide_true, Bool.not_false, Bool.and_self, Bool.false_eq_true, if_false, if_true]
  rfl

theorem mxsplit_joins (hk : s.cur.kind = .seq 0) (he : s.myCore.engine.split = true) (ha : s.rawS a.toNat = 0)
    (hx : ∀ c ∈ s.ctxs, c.kind = .seq 1 → c.block ≠ s.cur.block) : ∃ t, exec (.mxsplit sm d a b) s = .next t ∧
    s.Returns (s.setSplit false) t 4 sm [.uni d.toNat 0 false] := by
  let m := mxMeta s sm [a.toNat, b.toNat]
  have he' : ((s.charge m).core (s.charge m).cur.core).engine.split = true := (charge_split s m).trans he
  have hidle : (s.ctxs.any fun x => x.kind == .seq 1 && x.block == s.cur.block) = false := List.any_eq_false.2 fun c hc => by simpa using hx c hc
  refine issue_result_quiet (m := m) (w := (s.charge m).setSplit false) h (mxMeta_ok h hk sm _) (.inl rfl) ?_
    ((State.charge_keeps s m).setSplit (State.charge_cur_core ..) false) rfl rfl rfl
  simp only [charge_seqNo, Ctx.seqNo_seq hk, charge_readS h, State.charge_cur_block, State.charge_ctxs, he', ha, hidle, bne_self_eq_false,
    decide_true, Bool.not_true, Bool.and_false, Bool.and_self, Bool.false_eq_true, if_false, if_true]
  rfl

/-- R248: there is nothing to split and nothing to join. -/
theorem mxsplit_neither {n : Nat} (hk : s.cur.kind = .seq n) (he : n = 0 → (s.myCore.engine.split = true ↔ s.rawS a.toNat ≠ 0)) :
    ∃ t, exec (.mxsplit sm d a b) s = .next t ∧ s.Returns s t 4 sm [.uni d.toNat 1 false] := by
  let m := mxMeta s sm [a.toNat, b.toNat]
  have he' : ((s.charge m).core (s.charge m).cur.core).engine.split = s.myCore.engine.split := charge_split s m
  have hsplit : (decide (n = 0) && !s.myCore.engine.split && s.rawS a.toNat != 0) = false := by
    by_cases hn : n = 0
    · by_cases ha : s.rawS a.toNat = 0
      · simp [ha]
      · simp [(he hn).2 ha]
    · simp [hn]
  have hjoin : (decide (n = 0) && s.myCore.engine.split && decide (s.rawS a.toNat = 0)) = false := by
    by_cases hn : n = 0
    · cases hs : s.myCore.engine.split with
      | false => simp
      | true => rw [decide_eq_false ((he hn).1 hs), Bool.and_false]
    · simp [hn]
  refine issue_result_quiet (m := m) (w := s.charge m) h (mxMeta_ok h hk sm _) (.inl rfl) ?_ (State.charge_keeps s m) rfl rfl rfl
  simp only [charge_seqNo, Ctx.seqNo_seq hk, charge_readS h, he', hsplit, hjoin, Bool.false_eq_true, if_false]
  rfl

end split

/-- Settles O38: the fence, the two reads of a batch and the three outcomes of a split, clause by clause. -/
theorem matrixControl : Obligations.MatrixControl := by
  refine ⟨mxfence_empty, fun sm d s n h hk ho => ?_, fun sm d a s n k h hk hn => ?_, fun sm d a b s h hk he ha hodd hx => ?_,
    fun sm d a b s h hk he ha hx => mxsplit_joins h sm d a b hk he ha hx, fun sm d a b s n h hk he => mxsplit_neither h sm d a b hk he⟩
  · obtain ⟨t, ht, hr⟩ := mxfence_closes sm d s n h hk ho
    refine ⟨t, s.closeMx, ht, hr, ?_, ?_⟩ <;> rw [State.closeMx_some ho]
  · refine ⟨mxwait_zero h sm d a hk hn, fun h0 hb => ?_, fun h0 hb => ⟨mxwait_parks h sm d a hk hn hb h0, mxtest_unfinished h sm d a hk hn hb⟩⟩
    have hc := mxwait_completed h sm d a hk hn h0 hb
    rw [mxWord_eq] at hc
    exact hc
  · obtain ⟨t, ht, hr⟩ := mxsplit_splits h sm d a b hk he ha hodd hx
    exact ⟨t, _, ht, hr, s.splitAt_eq _ _, s.splitAt_engine _ _, s.splitAt_others _ _⟩

end Sys2Proof.Machine
end

section
/-!
PROOF. Rows and columns of a tile of accumulators, read and written (11 R229, R249, R261).
-/

namespace Sys2Proof.Machine

/-! ### Marks of accumulator elements (R261) -/

/-- R261: the marks that are left when the elements m of a row of accumulators are written. -/
def goodParity (row : Nat) (m : Mask) (p : List (Nat × Nat)) : List (Nat × Nat) :=
  p.filter fun k => !(k.2 == 3 && k.1 / 256 == row && m.getLsbD (k.1 % 256))
theorem mem_goodParity {row : Nat} {m : Mask} {p : List (Nat × Nat)} {k : Nat × Nat} :
    k ∈ goodParity row m p ↔ k ∈ p ∧ ¬(k.2 = 3 ∧ ∃ l < 256, m.getLsbD l ∧ k.1 = row * 256 + l) := by
  have hl : (k.1 / 256 = row ∧ m.getLsbD (k.1 % 256) = true) ↔ ∃ l < 256, m.getLsbD l ∧ k.1 = row * 256 + l := by
    constructor
    · rintro ⟨rfl, hm⟩
      exact ⟨k.1 % 256, Nat.mod_lt _ (by decide), hm, by omega⟩
    · rintro ⟨l, hl, hm, he⟩
      have hmod : k.1 % 256 = l := by omega
      exact ⟨by omega, hmod ▸ hm⟩
  simp only [goodParity, List.mem_filter, Bool.not_eq_true', ← Bool.not_eq_true, Bool.and_eq_true, beq_iff_eq, and_assoc, hl]
theorem State.cleanAcc_eq (s : State) (row : Nat) (m : Mask) : s.cleanAcc row m = { s with poison := goodParity row m s.poison } := by
  unfold State.cleanAcc
  split
  · next h =>
    rw [List.isEmpty_iff] at h
    rw [h, goodParity, List.filter_nil, ← h]
  · rfl

theorem foldl_goodParity_nil (row : Nat → Nat) (m : Mask) (l : List Nat) : l.foldl (fun p r => goodParity (row r) m p) [] = [] := by
  induction l with
  | nil => rfl
  | cons r l ih => exact ih
theorem mem_foldl_goodParity (row : Nat → Nat) (m : Mask) (k : Nat × Nat) (l : List Nat) : ∀ p,
    k ∈ l.foldl (fun p r => goodParity (row r) m p) p ↔ k ∈ p ∧ ∀ r ∈ l, ¬(k.2 = 3 ∧ ∃ i < 256, m.getLsbD i ∧ k.1 = row r * 256 + i) := by
  induction l with
  | nil => simp
  | cons r l ih => intro p; rw [List.foldl_cons, ih, mem_goodParity, List.forall_mem_cons, and_assoc]
/-- R261: the rows that a column form writes. -/
theorem State.foldl_cleanAcc (row : Nat → Nat) (m : Mask) (l : List Nat) : ∀ s : State, l.foldl (fun w r => w.cleanAcc (row r) m) s =
    { s with poison := l.foldl (fun p r => goodParity (row r) m p) s.poison } := by
  induction l with
  | nil => intro s; rfl
  | cons r l ih => intro s; rw [List.foldl_cons, ih, State.cleanAcc_eq]; rfl
/-- A machine without marks needs none of it. -/
theorem State.cleanColumn (s : State) (row : Nat → Nat) (m : Mask) (l : List Nat) :
    (if s.poison.isEmpty then s else l.foldl (fun w r => w.cleanAcc (row r) m) s) = { s with poison := l.foldl (fun p r => goodParity (row r) m p) s.poison } := by
  split
  · next h =>
    rw [List.isEmpty_iff] at h
    rw [h, foldl_goodParity_nil, ← h]
  · exact State.foldl_cleanAcc row m l s

theorem State.accPoison_getLsbD (s : State) (row : Nat) {i : Nat} (hi : i < 256) : (s.accPoison row).getLsbD i = true ↔ (row * 256 + i, 3) ∈ s.poison := by
  unfold State.accPoison
  split
  · next h => simp [List.isEmpty_iff.1 h]
  · rw [getLsbD_ofBits _ hi, List.contains_iff_mem]

/-! ### Elements of a column -/

theorem oneLane_iff {j i : Nat} (hi : i < 256) : (oneLane j).getLsbD i = true ↔ i = j := by
  rw [oneLane, BitVec.getLsbD_twoPow, Bool.and_eq_true, decide_eq_true_iff, decide_eq_true_iff]
  omega

/-- The accumulators with element j of row r written from lane r of v. -/
def setElement (row : Nat → Nat) (j : Nat) (v : Vec) (acc : SMap Vec) (r : Nat) : SMap Vec :=
  SMap.set 0 acc (row r) (mergeVec (oneLane j) (ofLanes fun _ => laneOf v r) (SMap.get (0 : Vec) acc (row r)))
theorem setElement_other {row : Nat → Nat} {r q : Nat} (hq : q ≠ row r) (j : Nat) (v : Vec) (acc : SMap Vec) :
    SMap.get 0 (setElement row j v acc r) q = SMap.get 0 acc q := by rw [setElement, SMap.get_set_ne _ _ _ hq]
theorem setElement_lane (row : Nat → Nat) (j : Nat) (v : Vec) (acc : SMap Vec) (r : Nat) {k : Nat} (hk : k < 256) :
    laneOf (SMap.get 0 (setElement row j v acc r) (row r)) k = if k = j then laneOf v r else laneOf (SMap.get 0 acc (row r)) k := by
  rw [setElement, SMap.get_set_same, laneOf_mergeVec _ _ _ hk, laneOf_ofLanes _ hk]
  exact if_congr (oneLane_iff hk) rfl rfl

theorem foldl_setElement_other (row : Nat → Nat) (j : Nat) (v : Vec) {q : Nat} (l : List Nat) : ∀ acc, (∀ r ∈ l, q ≠ row r) →
    SMap.get 0 (l.foldl (setElement row j v) acc) q = SMap.get 0 acc q := by
  induction l with
  | nil => intro acc _; rfl
  | cons r l ih =>
    intro acc hq
    obtain ⟨hr, hl⟩ := List.forall_mem_cons.1 hq
    rw [List.foldl_cons, ih _ hl, setElement_other hr]
theorem foldl_setElement_lane {row : Nat → Nat} (hinj : ∀ a b, row a = row b → a = b) (j : Nat) (v : Vec) (r : Nat) {k : Nat} (hk : k < 256) (l : List Nat) :
    ∀ acc, laneOf (SMap.get 0 (l.foldl (setElement row j v) acc) (row r)) k =
      if k = j ∧ r ∈ l then laneOf v r else laneOf (SMap.get 0 acc (row r)) k := by
  induction l with
  | nil => intro acc; rw [List.foldl_nil, if_neg fun h => List.not_mem_nil h.2]
  | cons x l ih =>
    intro acc
    rw [List.foldl_cons, ih]
    by_cases hx : r = x
    · subst hx
      rw [setElement_lane row j v acc r hk]
      by_cases hj : k = j
      · rw [if_pos hj, ite_self, if_pos ⟨hj, List.mem_cons_self ..⟩]
      · rw [if_neg hj, if_neg fun h => hj h.1, if_neg fun h => hj h.1]
    · rw [setElement_other fun h => hx (hinj _ _ h)]
      simp only [List.mem_cons, hx, false_or]

/-! ### The issue of a slice -/

theorem State.slice_lt (s : State) (x : BitVec 4) (i : BitVec 6) : s.slice x i < 256 := Nat.mod_lt _ (by decide)
theorem State.tileAt_inj (s : State) (n : BitVec 2) (a b : Nat) (h : s.tileAt n a = s.tileAt n b) : a = b := Nat.add_left_cancel h
theorem State.HoldsEngine.detail {s : State} (h : s.HoldsEngine) : sliceDetail s = none := by
  obtain ⟨hb, hs⟩ := h
  rw [sliceDetail, decide_eq_true (show (s.core s.cur.core).engine.holder = s.cur.block from hb), bne_iff_ne.2 hs]
  rfl

/-- R249, R98: nothing that a slice gives an active lane has an error. -/
theorem State.sliceRead_good {s : State} {g : BitVec 3} {d t : Nat} {bad : Mask} {f : Nat → W32}
    (hp : s.act g ≠ 0 → (s.core s.cur.core).engine.poison.getLsbD t = false) (hbad : ∀ k < 256, (s.act g).getLsbD k → bad.getLsbD k = false) :
    s.sliceRead g d t bad f = .done (s.defer [.vec d (s.act g) (ofLanes f) 0] 0 0 true) := by
  have hand : s.act g &&& bad = 0 := by
    refine BitVec.eq_of_getLsbD_eq fun k hk => ?_
    cases ha : (s.act g).getLsbD k with
    | false => simp [ha]
    | true => simp [ha, hbad k hk ha]
  have hnone : (if (s.core s.cur.core).engine.poison.getLsbD t then s.act g else s.act g &&& bad) = 0 := by
    rw [hand]
    by_cases ha : s.act g = 0
    · rw [ha, ite_self]
    · exact if_neg (Bool.eq_false_iff.1 (hp ha))
  simp only [State.sliceRead, hnone, bne_self_eq_false, Bool.false_eq_true, if_false]

section slices
variable {s : State} (h : s.GroupReady) (sm : Bool) (g : BitVec 3) (d : BitVec 6) (x : BitVec 4) (n : BitVec 2) (i : BitVec 6)
include h

theorem charge_slice (m : Meta) : (s.charge m).sliceIndex x i = s.slice x i := by simp only [State.sliceIndex, State.slice, charge_readS h.1]
theorem charge_ready_act (m : Meta) : (s.charge m).act g = s.act g := by rw [charge_act h, ready_act h]
omit h in
theorem charge_tileAt (m : Meta) (r : Nat) : (s.charge m).cur.tileRow n.toNat r = s.tileAt n r := by
  rw [Ctx.tileRow, State.charge_cur_core]; rfl
omit h in
theorem charge_accPoison (m : Meta) (r : Nat) : (s.charge m).accPoison r = s.accPoison r := by rw [State.accPoison, State.charge_poison]; rfl

variable (hv : s.hasV [d.toNat]) (he : s.HoldsEngine)
include hv he

theorem sliceMeta_ok (read : Bool) : s.illegal (sliceMeta s sm g d x read) = none :=
  illegal_lane h (topReg_le hv) (Nat.zero_le _) (.inl rfl) he.detail rfl

/-- R249, R98: a slice without an error in what it gives an active lane is read. -/
theorem slice_reads (hp : s.act g ≠ 0 → s.myCore.engine.poison.getLsbD n.toNat = false) {body : State → Eff} {bad : Mask} {f : Nat → W32}
    (hb : body (s.charge (sliceMeta s sm g d x false)) = (s.charge (sliceMeta s sm g d x false)).sliceRead g d.toNat n.toNat bad f)
    (hbad : ∀ k < 256, (s.act g).getLsbD k → bad.getLsbD k = false) :
    ∃ t, issue (sliceMeta s sm g d x false) s body = .next t ∧ s.Returns s t 4 sm [.vec d.toNat (s.act g) (ofLanes f) 0] := by
  let m := sliceMeta s sm g d x false
  have hgood := State.sliceRead_good (s := s.charge m) (g := g) (t := n.toNat) (bad := bad) (d := d.toNat) (f := f)
    (by rwa [charge_ready_act h, charge_core_engine, State.charge_cur_core]) (by rwa [charge_ready_act h])
  rw [charge_ready_act h] at hgood
  exact issue_result_quiet (m := m) (w := s.charge m) h.1 (sliceMeta_ok h sm g d x hv he false) (.inl rfl) (hb.trans hgood) (State.charge_keeps s m) rfl
    rfl rfl

/-- R249: a write of accumulators, with the marks it ends. -/
theorem slice_writes {body : State → Eff} {acc : SMap Vec} {p : List (Nat × Nat)}
    (hb : body (s.charge (sliceMeta s sm g d x true)) = .done { s.charge (sliceMeta s sm g d x true) with acc := acc, poison := p }) :
    ∃ t, issue (sliceMeta s sm g d x true) s body = .next t ∧ s.Returns { s with acc := acc, poison := p } t 4 sm [] :=
  issue_effect (m := sliceMeta s sm g d x true) h.1 (sliceMeta_ok h sm g d x hv he true) (.inl rfl) hb
    ((State.charge_keeps s _).map (fun y => { y with acc := acc, poison := p }) (fun y => { y with acc := acc, poison := p }) (fun _ => rfl) fun _ => ⟨rfl, rfl⟩)
    rfl (State.charge_cur_pc ..) (State.charge_cur_loop ..) ((State.charge_cur_slotLen ..).trans h.1.word) ((State.charge_cur_recipe ..).trans h.1.recipe)
    ((State.charge_cur_deferred ..).trans h.1.written) ((State.charge_cur_poisonV ..).trans h.1.poisonV) ((State.charge_cur_poisonS ..).trans h.1.poisonS)

section reads
variable (hp : s.act g ≠ 0 → s.myCore.engine.poison.getLsbD n.toNat = false)
include hp

theorem vraccRow_reads (hgood : ∀ k < 256, (s.act g).getLsbD k → (s.tileAt n (s.slice x i) * 256 + k, 3) ∉ s.poison) :
    ∃ t v, exec (.vraccRow sm g d x n i) s = .next t ∧ s.Returns s t 4 sm [.vec d.toNat (s.act g) v 0] ∧
      ∀ k < 256, laneOf v k = laneOf (s.tileRow n (s.slice x i)) k := by
  refine (slice_reads h sm g d x n hv he hp (bad := s.accPoison (s.tileAt n (s.slice x i))) (f := laneOf (s.tileRow n (s.slice x i))) ?_ ?_).imp
    fun _ ⟨ht, hr⟩ => ⟨_, ht, hr, fun k hk => laneOf_ofLanes _ hk⟩
  · simp only [charge_slice h, charge_tileAt, charge_accPoison, State.charge_acc]; rfl
  · exact fun k hk ha => by simpa using mt (State.accPoison_getLsbD s _ hk).1 (hgood k hk ha)

theorem vraccCol_reads (hgood : ∀ k < 256, (s.act g).getLsbD k → (s.tileAt n k * 256 + s.slice x i, 3) ∉ s.poison) :
    ∃ t v, exec (.vraccCol sm g d x n i) s = .next t ∧ s.Returns s t 4 sm [.vec d.toNat (s.act g) v 0] ∧
      ∀ k < 256, laneOf v k = laneOf (s.tileRow n k) (s.slice x i) := by
  let bad : Mask := if s.poison.isEmpty then 0 else ofBits fun r => (s.accPoison (s.tileAt n r)).getLsbD (s.slice x i)
  have hbad : ∀ k < 256, (s.act g).getLsbD k → bad.getLsbD k = false := by
    intro k hk ha
    have hclean := mt (State.accPoison_getLsbD s _ (s.slice_lt x i)).1 (hgood k hk ha)
    by_cases hz : s.poison.isEmpty
    · rw [show bad = 0 from if_pos hz]; exact BitVec.getLsbD_zero
    · rw [show bad = _ from if_neg hz, getLsbD_ofBits _ hk]; simpa using hclean
  refine (slice_reads h sm g d x n hv he hp (bad := bad) (f := fun r => laneOf (s.tileRow n r) (s.slice x i)) ?_ hbad).imp
    fun _ ⟨ht, hr⟩ => ⟨_, ht, hr, fun k hk => laneOf_ofLanes _ hk⟩
  simp only [charge_slice h, charge_tileAt, charge_accPoison, State.charge_acc, State.charge_poison]
  rfl

end reads

theorem vwaccRow_writes : ∃ t, ∃ u : State, exec (.vwaccRow sm g d x n i) s = .next t ∧ s.Returns u t 4 sm [] ∧
    u = { s with acc := u.acc, poison := u.poison } ∧
    (∀ k, k ∈ u.poison ↔ k ∈ s.poison ∧ ¬(k.2 = 3 ∧ ∃ l < 256, (s.act g).getLsbD l ∧ k.1 = s.tileAt n (s.slice x i) * 256 + l)) ∧
    (∀ r, r ≠ s.tileAt n (s.slice x i) → SMap.get 0 u.acc r = SMap.get 0 s.acc r) ∧
    ∀ k < 256, laneOf (u.tileRow n (s.slice x i)) k =
      if (s.act g).getLsbD k then laneOf (s.rawV d.toNat) k else laneOf (s.tileRow n (s.slice x i)) k := by
  let row := s.tileAt n (s.slice x i)
  obtain ⟨acc, hacc⟩ : ∃ m, m = SMap.set 0 s.acc row (mergeVec (s.act g) (s.rawV d.toNat) (s.tileRow n (s.slice x i))) := ⟨_, rfl⟩
  have hother : ∀ r, r ≠ row → SMap.get 0 acc r = SMap.get 0 s.acc r := fun r hr => by rw [hacc, SMap.get_set_ne _ _ _ hr]
  have hsame : SMap.get 0 acc row = mergeVec (s.act g) (s.rawV d.toNat) (s.tileRow n (s.slice x i)) := by rw [hacc, SMap.get_set_same]
  refine (slice_writes h sm g d x hv he (acc := acc) (p := goodParity row (s.act g) s.poison) ?_).imp fun _ ⟨ht, hr⟩ =>
    ⟨_, ht, hr, rfl, fun k => mem_goodParity, hother, fun k hk => (congrArg (laneOf · k) hsame).trans (laneOf_mergeVec _ _ _ hk)⟩
  simp only [hacc, charge_slice h, charge_tileAt, charge_ready_act h, charge_readV h, State.charge_acc, State.cleanAcc_eq, State.charge_poison]
  rfl

theorem vwaccCol_writes : ∃ t, ∃ u : State, exec (.vwaccCol sm g d x n i) s = .next t ∧ s.Returns u t 4 sm [] ∧
    u = { s with acc := u.acc, poison := u.poison } ∧
    (∀ k, k ∈ u.poison ↔ k ∈ s.poison ∧ ¬(k.2 = 3 ∧ ∃ l < 256, (s.act g).getLsbD l ∧ k.1 = s.tileAt n l * 256 + s.slice x i)) ∧
    (∀ r, (∀ k < 256, r ≠ s.tileAt n k) → SMap.get 0 u.acc r = SMap.get 0 s.acc r) ∧
    ∀ r < 256, ∀ k < 256, laneOf (u.tileRow n r) k =
      if k = s.slice x i ∧ (s.act g).getLsbD r then laneOf (s.rawV d.toNat) r else laneOf (s.tileRow n r) k := by
  let j := s.slice x i
  let acc := (maskLanes (s.act g)).foldl (setElement (s.tileAt n) j (s.rawV d.toNat)) s.acc
  let p := (maskLanes (s.act g)).foldl (fun p r => goodParity (s.tileAt n r) (oneLane j) p) s.poison
  refine (slice_writes h sm g d x hv he (acc := acc) (p := p) ?_).imp fun _ ⟨ht, hr⟩ =>
    ⟨_, ht, hr, rfl, fun k => ?_, fun r hne => ?_, fun r hr k hk => ?_⟩
  · simp only [charge_slice h, charge_tileAt, charge_ready_act h, charge_readV h, State.charge_acc]
    rw [State.cleanColumn, State.charge_poison]
    rfl
  · refine (mem_foldl_goodParity (s.tileAt n) (oneLane j) k _ _).trans (and_congr_right fun _ => ?_)
    have hj : ∀ r, (∃ l < 256, (oneLane j).getLsbD l ∧ k.1 = s.tileAt n r * 256 + l) ↔ k.1 = s.tileAt n r * 256 + j := fun r =>
      ⟨fun ⟨l, hl, ho, he⟩ => by rw [he, (oneLane_iff hl).1 ho],
        fun he => ⟨j, s.slice_lt x i, (oneLane_iff (s.slice_lt x i)).2 rfl, he⟩⟩
    simp only [hj, mem_maskLanes]
    grind
  · exact foldl_setElement_other _ _ _ _ _ fun k hk => hne k (mem_maskLanes.1 hk).1
  · refine (foldl_setElement_lane (s.tileAt_inj n) j (s.rawV d.toNat) r hk (maskLanes (s.act g)) s.acc).trans (if_congr ?_ rfl rfl)
    rw [mem_maskLanes, and_iff_right hr]

end slices

/-- Settles O39: the two forms of a read and the two of a write. -/
theorem accumulatorSlices : Obligations.AccumulatorSlices :=
  ⟨fun sm g d x n i _ h hv he hp => ⟨vraccRow_reads h sm g d x n i hv he hp, vraccCol_reads h sm g d x n i hv he hp⟩,
    fun sm g d x n i _ h hv he => ⟨vwaccRow_writes h sm g d x n i hv he, vwaccCol_writes h sm g d x n i hv he⟩⟩

end Sys2Proof.Machine
end

section
/-!
PROOF. A whole flashback slot (16 R300, R301, Table 16-1), with a loop state and start values as a `txbegin` may keep them: what `State.writeSlot`
writes and what is read back of it.
-/

namespace Sys2Proof.Machine

/-- R73: the loop state in a slot. -/
def slotLoop : Option LoopState → List Byte
  | some l => natBytes 8 l.count.toNat ++ natBytes 8 l.pass.toNat ++ natBytes 8 (l.slot + 256)
  | none => List.replicate 24 0
@[simp] theorem slotLoop_length (lp : Option LoopState) : (slotLoop lp).length = 24 := by
  cases lp with
  | none => exact List.length_replicate
  | some l => simp only [slotLoop, List.length_append, natBytes_length]

/-- What follows the deadline in a slot: the entry and the two start values. -/
def slotStart (entry : Nat) (s1 s2 : W64) : List Byte := natBytes 4 entry ++ natBytes 8 s1.toNat ++ natBytes 8 s2.toNat ++ List.replicate 640 0
@[simp] theorem slotStart_length (entry : Nat) (s1 s2 : W64) : (slotStart entry s1 s2).length = 660 := by
  simp only [slotStart, List.length_append, natBytes_length, List.length_replicate]

section image
variable (s : State) (rc : Recipe) (hdr resume : W64) (lp : Option LoopState) (dl entry : Nat) (s1 s2 : W64)

def State.slotImage : List Byte :=
  s.slotRegs rc ++ natBytes 8 resume.toNat ++ natBytes 8 hdr.toNat ++ natBytes 32 s.cur.em.toNat ++ s.slotP ++ slotLoop lp ++ natBytes 4 dl ++
    slotStart entry s1 s2

theorem State.slotImage_length : (s.slotImage rc hdr resume lp dl entry s1 s2).length = 9216 := by
  simp only [State.slotImage, List.length_append, s.slotRegs_length rc, natBytes_length, State.slotP_length, slotLoop_length, slotStart_length]

/-- R74, R300, R311: the slot's bytes are written, their errors gone, and the record of R303 cleared. -/
theorem State.writeSlot_eq (hd : s.cur.deferred = []) : s.writeSlot rc hdr resume lp dl entry s1 s2 =
    { s with
      sp := (s.writeBytes (s.cur.slotLoc 0) (s.slotImage rc hdr resume lp dl entry s1 s2)).sp
      poison := (s.cleanSlot s.cur).poison
      cur := { s.cur with dirty := false, fbLoop := lp, rcpHeader := hdr } } := by
  obtain ⟨sp, hb⟩ : ∃ sp, s.writeBytes (s.cur.slotLoc 0) (s.slotImage rc hdr resume lp dl entry s1 s2) = { s with sp := sp } :=
    ⟨_, State.writeBytes_sp ..⟩
  have hw : s.writeSlot rc hdr resume lp dl entry s1 s2 =
      ((s.writeBytes (s.cur.slotLoc 0) (s.slotImage rc hdr resume lp dl entry s1 s2)).cleanSlot s.cur).updCur
        fun c => { c with dirty := false, fbLoop := lp, rcpHeader := hdr } := by
    simp only [State.writeSlot, State.readV_eq hd, State.readS_eq hd, State.readP_eq hd, State.slotImage, slotStart, State.slotRegs, List.append_assoc]
    rfl
  rw [hw, hb]
  rfl

variable {s rc hdr resume lp dl entry s1 s2} {u : State}
  (hs : u.sp = (s.writeBytes (s.cur.slotLoc 0) (s.slotImage rc hdr resume lp dl entry s1 s2)).sp)
include hs

/-- A field of the slot, by the bytes before it. -/
theorem slotImage_num {p q : List Byte} {n v off : Nat} (h : s.slotImage rc hdr resume lp dl entry s1 s2 = p ++ natBytes n v ++ q) (ho : p.length = off)
    (hv : v < 256 ^ n) : u.slotNum s.cur off n = v := by
  rw [State.slotNum_congr hs rfl rfl, State.slotNum_eq, ← ho]
  exact State.writeBytes_readNum s _ _ p q n v h hv

theorem slotImage_resume : u.slotNum s.cur 0x2040 8 = resume.toNat :=
  slotImage_num hs (p := s.slotRegs rc) (by simp only [State.slotImage, List.append_assoc]; rfl) (s.slotRegs_length rc) (toNat_lt_bytes (n := 8) _)

theorem slotImage_header : u.slotNum s.cur 0x2048 8 = hdr.toNat :=
  slotImage_num hs (p := s.slotRegs rc ++ natBytes 8 resume.toNat) (by simp only [State.slotImage, List.append_assoc]; rfl)
    (by rw [List.length_append, s.slotRegs_length rc, natBytes_length]) (toNat_lt_bytes (n := 8) _)

theorem slotImage_em : u.slotNum s.cur 0x2050 32 = s.cur.em.toNat :=
  slotImage_num hs (p := s.slotRegs rc ++ natBytes 8 resume.toNat ++ natBytes 8 hdr.toNat) (by simp only [State.slotImage, List.append_assoc]; rfl)
    (by simp only [List.length_append, s.slotRegs_length rc, natBytes_length]) (toNat_lt_bytes (n := 32) _)

theorem slotImage_deadline (hd : dl < 256 ^ 4) : u.slotNum s.cur 0x2168 4 = dl :=
  slotImage_num hs (p := s.slotRegs rc ++ natBytes 8 resume.toNat ++ natBytes 8 hdr.toNat ++ natBytes 32 s.cur.em.toNat ++ s.slotP ++ slotLoop lp) rfl
    (by simp only [List.length_append, s.slotRegs_length rc, natBytes_length, State.slotP_length, slotLoop_length]) hd

theorem slotImage_others (hu : u = { s with sp := u.sp, poison := u.poison, cur := u.cur }) (p : Loc) (hp : ∀ i < 9216, p ≠ s.cur.slotLoc i) :
    u.readByte p = s.readByte p := by
  have hw : s.writeBytes (s.cur.slotLoc 0) (s.slotImage rc hdr resume lp dl entry s1 s2) =
      { s with sp := (s.writeBytes (s.cur.slotLoc 0) (s.slotImage rc hdr resume lp dl entry s1 s2)).sp } := State.writeBytes_sp ..
  have h1 : u.readByte p = (s.writeBytes (s.cur.slotLoc 0) (s.slotImage rc hdr resume lp dl entry s1 s2)).readByte p := by
    rw [hw, hu, hs]
    exact State.readByte_same rfl p
  exact h1.trans (State.writeBytes_others s _ _ p fun i hi he => hp i (State.slotImage_length .. ▸ hi) (he.trans (s.cur.slotLoc_eq i).symm))

end image

end Sys2Proof.Machine
end

section
/-!
PROOF. The transaction instructions (14 R276 to R284): the records lane by lane; `txabort` and `txstat` from them; `txend` once its commits stand,
or with nothing to commit; `txbegin`, whose slot is read back by the lemmas on a whole slot.
-/

namespace Sys2Proof.Machine

/-! ### Records, lane by lane -/

theorem field_toNat {w : Nat} (x : BitVec w) (hi lo : Nat) : field x.toNat hi lo = (x.extractLsb' lo (hi + 1 - lo)).toNat := by
  rw [field, BitVec.extractLsb'_toNat, Nat.shiftRight_eq_div_pow]

theorem field_eq_iff {w : Nat} (x : BitVec w) (hi lo n : Nat) (hn : n < 2 ^ (hi + 1 - lo)) :
    field x.toNat hi lo = n ↔ x.extractLsb' lo (hi + 1 - lo) = BitVec.ofNat _ n := by
  rw [field_toNat, ← BitVec.toNat_inj, BitVec.toNat_ofNat, Nat.mod_eq_of_lt hn]

theorem foldl_set_get {α : Type} [DecidableEq α] (d : α) (f : Nat → α) (k : Nat) (l : List Nat) : ∀ m : SMap α,
    SMap.get d (l.foldl (fun m i => SMap.set d m i (f i)) m) k = if k ∈ l then f k else SMap.get d m k := by
  induction l with
  | nil => intro m; rfl
  | cons i l ih =>
    intro m
    rw [List.foldl_cons, ih, SMap.get_set]
    by_cases hk : k = i
    · subst hk; simp
    · simp [hk]

/-- The record, logs and failed address of a lane, and whether it is doomed. -/
def Ctx.laneTx (c : Ctx) (k : Nat) : W32 × Option TxLog × Option W64 × Bool :=
  (c.txWord k, SMap.find c.txlogs k, SMap.find c.txAddr k, c.doomed.getLsbD k)

theorem abortLane_laneTx {cause : Nat} (h : cause ≠ 7) (fkind : Nat) (va : W64) (c : Ctx) (i : Nat) {k : Nat} (hk : k < 256) :
    (c.abortLane cause fkind va i).laneTx k = if k = i then (abortWord cause fkind (c.txWord i), none, none, true) else c.laneTx k := by
  have hd : (c.doomed ||| oneLane i).getLsbD k = if k = i then true else c.doomed.getLsbD k := by
    rw [BitVec.getLsbD_or]
    by_cases hki : k = i
    · rw [if_pos hki, (oneLane_iff hk).2 hki, Bool.or_true]
    · rw [if_neg hki, Bool.eq_false_iff.2 (mt (oneLane_iff hk).1 hki), Bool.or_false]
  simp only [Ctx.laneTx, Ctx.abortLane, Ctx.txWord, if_neg h, SMap.get_set, SMap.find_del, hd]
  split <;> rfl

/-- Lanes that abort together: each once, by its own record. -/
theorem foldl_abortLane {cause : Nat} (h : cause ≠ 7) {k : Nat} (hk : k < 256) (l : List Nat) : ∀ c : Ctx, l.Nodup →
    (l.foldl (fun c i => c.abortLane cause 0 0 i) c).laneTx k =
      if k ∈ l then (abortWord cause 0 (c.txWord k), none, none, true) else c.laneTx k := by
  induction l with
  | nil => intro c _; rfl
  | cons i l ih =>
    intro c hl
    obtain ⟨hi, hl⟩ := List.nodup_cons.1 hl
    have hone := abortLane_laneTx h 0 0 c i hk
    rw [List.foldl_cons, ih _ hl, hone]
    by_cases hki : k = i
    · subst hki
      simp [hi]
    · have hw : (c.abortLane cause 0 0 i).txWord k = c.txWord k := by
        have := congrArg Prod.fst hone
        rwa [if_neg hki] at this
      rw [hw]
      simp [hki]

/-- An abort changes the records, the logs, the failed addresses and the doomed lanes. -/
theorem foldl_abortLane_frame (cause : Nat) (l : List Nat) : ∀ c : Ctx,
    l.foldl (fun c i => c.abortLane cause 0 0 i) c = { c with
      txrec := (l.foldl (fun c i => c.abortLane cause 0 0 i) c).txrec, txlogs := (l.foldl (fun c i => c.abortLane cause 0 0 i) c).txlogs
      txAddr := (l.foldl (fun c i => c.abortLane cause 0 0 i) c).txAddr, doomed := (l.foldl (fun c i => c.abortLane cause 0 0 i) c).doomed } := by
  induction l with
  | nil => intro c; rfl
  | cons i l ih => intro c; rw [List.foldl_cons, ih]; rfl

theorem maskLanes_nodup (m : Mask) : (maskLanes m).Nodup := List.nodup_range.filter _

theorem abortWord_explicit (w : W32) : abortWord 9 0 w =
    BitVec.ofNat 32 (9 + min 15 ((w.extractLsb' 4 4).toNat + 1) * 16 + (w.extractLsb' 8 2).toNat * 256) := by
  have hc : ∀ n : Nat, (if n ≥ 15 then 15 else n + 1) = min 15 (n + 1) := fun n => by split <;> omega
  simp only [abortWord, hc, field_toNat, Nat.reduceEqDiff, if_false, Nat.add_zero]

/-! ### `txabort` -/

theorem charge_txWord (s : State) (m : Meta) (k : Nat) : (s.charge m).cur.txWord k = s.cur.txWord k := by simp [Ctx.txWord]
theorem charge_openLane (s : State) (m : Meta) (k : Nat) : (s.charge m).cur.openLane k = s.cur.openLane k := by
  rw [Ctx.openLane, charge_txWord]; rfl
theorem charge_laneTx (s : State) (m : Meta) (k : Nat) : (s.charge m).cur.laneTx k = s.cur.laneTx k := by simp [Ctx.laneTx, charge_txWord]

theorem txMeta_ok {s : State} (h : s.GroupReady) (sm : Bool) {l : List Nat} (hv : s.hasV l) : s.illegal (txMeta sm (topReg l)) = none :=
  illegal_lane h (topReg_le hv) (Nat.zero_le _) (.inl rfl) rfl

/-- A state with other records, logs, failed addresses and doomed lanes. -/
def State.withTx (s : State) (c : Ctx) : State :=
  { s with cur := { s.cur with txrec := c.txrec, txlogs := c.txlogs, txAddr := c.txAddr, doomed := c.doomed } }
theorem State.Keeps.withTx {s t : State} (h : s.Keeps t) (c : Ctx) : (s.withTx c).Keeps (t.withTx c) :=
  h.updCur (fun x => { x with txrec := c.txrec, txlogs := c.txlogs, txAddr := c.txAddr, doomed := c.doomed })
    (fun x => { x with txrec := c.txrec, txlogs := c.txlogs, txAddr := c.txAddr, doomed := c.doomed }) fun _ => rfl

/-- Open lanes abort; a token is not released when its lane is not among them. -/
theorem State.abortOpen_withTx {s : State} {cause : Nat} {m : Mask} (ht : s.cur.txHold = true → m.getLsbD s.cur.txLane = false) :
    s.abortOpen cause m = s.withTx (if s.cur.txg then s.cur.abortLanes cause m else s.cur) := by
  have hh : (s.cur.txHold && m.getLsbD s.cur.txLane && s.cur.openLane s.cur.txLane) = false := by
    cases hc : s.cur.txHold
    · rfl
    · rw [ht hc]; rfl
  rw [State.abortOpen, hh]
  by_cases hg : s.cur.txg = true
  · rw [if_pos hg, hg]
    exact congrArg (fun c => ({ s with cur := c } : State)) (foldl_abortLane_frame cause _ s.cur)
  · rw [if_neg hg, Bool.eq_false_iff.2 hg]
    rfl

theorem abortLanes_laneTx (c : Ctx) (m : Mask) {k : Nat} (hk : k < 256) : (c.abortLanes 9 m).laneTx k =
    if m.getLsbD k = true ∧ c.openLane k = true then (abortWord 9 0 (c.txWord k), none, none, true) else c.laneTx k := by
  rw [Ctx.abortLanes, foldl_abortLane (by decide) hk _ _ ((maskLanes_nodup m).filter _)]
  simp only [List.mem_filter, mem_maskLanes, hk, true_and]

theorem txabort_aborts (sm : Bool) (s : State) (h : s.GroupReady) (ht : s.cur.txHold = true → s.cur.em.getLsbD s.cur.txLane = false) :
    ∃ t, ∃ u : State, exec (.txabort sm) s = .next t ∧ s.Returns u t 4 sm [] ∧
      u = { s with cur := { s.cur with txrec := u.cur.txrec, txlogs := u.cur.txlogs, txAddr := u.cur.txAddr, doomed := u.cur.doomed } } ∧
      ∀ k < 256, u.cur.laneTx k = if s.cur.txg = true ∧ s.cur.em.getLsbD k = true ∧ s.cur.openLane k = true
        then (abortWord 9 0 (s.cur.txWord k), none, none, true) else s.cur.laneTx k := by
  let t := s.charge (txMeta sm 0)
  let c := if t.cur.txg then t.cur.abortLanes 9 t.cur.em else t.cur
  obtain ⟨t', h1, h2⟩ := issue_effect (m := txMeta sm 0) (u := s.withTx c) (w := t.withTx c) (body := fun t => .done (t.abortOpen 9 t.cur.em)) h.1
    (txMeta_ok h sm (l := []) nofun) (.inl rfl) (congrArg Eff.done (State.abortOpen_withTx (by simpa [t] using ht)))
    ((State.charge_keeps s _).withTx c) rfl (State.charge_cur_pc ..) (State.charge_cur_loop ..) ((State.charge_cur_slotLen ..).trans h.1.word)
    ((State.charge_cur_recipe ..).trans h.1.recipe) ((State.charge_cur_deferred ..).trans h.1.written) ((State.charge_cur_poisonV ..).trans h.1.poisonV)
    ((State.charge_cur_poisonS ..).trans h.1.poisonS)
  refine ⟨t', s.withTx c, h1, h2, rfl, fun k hk => ?_⟩
  change c.laneTx k = _
  by_cases hg : s.cur.txg
  · have hc : c = t.cur.abortLanes 9 t.cur.em := if_pos ((State.charge_cur_txg ..).trans hg)
    rw [hc, abortLanes_laneTx _ _ hk, charge_laneTx, charge_openLane, charge_txWord, State.charge_cur_em]
    simp only [hg, true_and]
  · have hc : c = t.cur := if_neg (by rwa [State.charge_cur_txg])
    rw [hc, charge_laneTx, if_neg fun hn => hg hn.1]

/-! ### `txstat` -/

theorem txstat_returns (sm : Bool) (d : BitVec 6) (s : State) (h : s.GroupReady) (hv : s.hasV [d.toNat]) : ∃ t x, exec (.txstat sm d) s = .next t ∧
    s.Returns s t 4 sm [.vec d.toNat s.cur.em x 0] ∧ ∀ k < 256, laneOf x k = s.cur.txWord k := by
  obtain ⟨t, h1, h2⟩ := issue_result_quiet (m := txMeta sm (topReg [d.toNat])) (x := .vec d.toNat s.cur.em (ofLanes s.cur.txWord) 0) h.1
    (txMeta_ok h sm hv) (.inl rfl) (body := fun t => .done (t.defer [.vec d.toNat t.cur.em (ofLanes t.cur.txWord) 0] 0 0 true))
    (by simp only [State.charge_cur_em, funext (charge_txWord s _)]) (State.charge_keeps s _) rfl
  exact ⟨t, _, h1, h2, fun k hk => laneOf_ofLanes _ hk⟩

/-- R284: the address a lane failed at. -/
def Ctx.failedAt (c : Ctx) (k : Nat) : W64 := if (c.txWord k).extractLsb' 0 4 = 7 then SMap.get 0 c.txAddr k else 0

theorem charge_failedAt (s : State) (m : Meta) (k : Nat) :
    (if field ((s.charge m).cur.txWord k).toNat 3 0 = 7 then SMap.get 0 (s.charge m).cur.txAddr k else 0) = s.cur.failedAt k := by
  rw [charge_txWord, State.charge_cur_txAddr]
  exact if_congr (field_eq_iff _ 3 0 7 (by decide)) rfl rfl

theorem txstatAddr_returns (sm : Bool) (d : BitVec 5) (s : State) (h : s.GroupReady) (hv : s.hasV [2 * d.toNat + 1]) :
    ∃ t x y, exec (.txstatAddr sm d) s = .next t ∧
      s.Returns s t 4 sm [.vec (2 * d.toNat) s.cur.em x 0, .vec (2 * d.toNat + 1) s.cur.em y 0] ∧
      ∀ k < 256, laneOf y k ++ laneOf x k = s.cur.failedAt k := by
  let m := txMeta sm (topReg [2 * d.toNat + 1])
  obtain ⟨t, h1, h2⟩ := issue_returns (m := m) (u := s) (w := s.charge m) h.1 (txMeta_ok h sm hv) (.inl rfl)
    (vals := [.vec (2 * d.toNat) s.cur.em (ofLanes fun i => (s.cur.failedAt i).extractLsb' 0 32) 0,
      .vec (2 * d.toNat + 1) s.cur.em (ofLanes fun i => (s.cur.failedAt i).extractLsb' 32 32) 0])
    (body := fun t =>
      let a (i : Nat) : W64 := if field (t.cur.txWord i).toNat 3 0 = 7 then SMap.get 0 t.cur.txAddr i else 0
      .done (t.defer [.vec (2 * d.toNat) t.cur.em (ofLanes fun i => (a i).extractLsb' 0 32) 0,
        .vec (2 * d.toNat + 1) t.cur.em (ofLanes fun i => (a i).extractLsb' 32 32) 0] 0 0 true))
    (by simp only [charge_failedAt, State.charge_cur_em, List.cons_ne_nil, if_false])
    (by simp [DVal.plain]) (State.charge_quiet rfl) (by simp) (by simp) (by simp [h.1.word]) (by simp [h.1.recipe]) (by simp [h.1.written])
    (by simp [h.1.poisonV]) (by simp [h.1.poisonS])
  refine ⟨t, _, _, h1, h2, fun k hk => ?_⟩
  rw [laneOf_ofLanes _ hk, laneOf_ofLanes _ hk]
  exact halves_append _

/-! ### `txend` -/

/-- R282: the records with those of the lanes of a mask as a commit leaves them. -/
def Ctx.committed (c : Ctx) (ok : Mask) : SMap W32 := (maskLanes ok).foldl (fun m i => SMap.set 0 m i (commitWord (c.txWord i))) c.txrec
theorem committed_get (c : Ctx) (ok : Mask) {k : Nat} (hk : k < 256) :
    SMap.get 0 (c.committed ok) k = if ok.getLsbD k then c.txWord k &&& 0x300 else c.txWord k := by
  rw [Ctx.committed, foldl_set_get 0 (fun i => commitWord (c.txWord i))]
  exact if_congr (mem_maskLanes.trans (and_iff_right hk)) rfl rfl

/-- R278, R282: a state whose group holds no token, with its transaction over. -/
def State.overTx (s : State) (commits : List TxCommit) (rec : SMap W32) : State :=
  { s with commits := commits, cur := { s.cur with txrec := rec, txg := false, txLane := 0, doomed := 0, txlogs := [] } }
theorem State.Keeps.overTx {s t : State} (h : s.Keeps t) (cs : List TxCommit) (rec : SMap W32) : (s.overTx cs rec).Keeps (t.overTx cs rec) :=
  h.map (fun x => x.overTx cs rec) (fun x => x.overTx cs rec) (fun _ => rfl) fun _ => ⟨rfl, rfl⟩

/-- R282: a state with other records and commits. -/
def State.withCommits (s : State) (commits : List TxCommit) (rec : SMap W32) : State :=
  { s with commits := commits, cur := { s.cur with txrec := rec } }
theorem State.endTx_free {s : State} (h : s.cur.txHold = false) (commits : List TxCommit) (rec : SMap W32) :
    (s.withCommits commits rec).endTx = s.overTx commits rec := by
  simp only [State.endTx, State.withCommits, State.overTx, h, Bool.false_eq_true, if_false, State.updCur]

/-- The lanes of a context whose commit stands. -/
def State.okLanesOf (s : State) (i : Nat) : Mask := ofBits fun k => (s.commits.filter fun c => c.ctx == i).any fun c => c.lane == k && c.ok
theorem State.okLanesOf_iff (s : State) (i : Nat) {k : Nat} (hk : k < 256) :
    (s.okLanesOf i).getLsbD k = true ↔ ∃ c ∈ s.commits, c.ctx = i ∧ c.lane = k ∧ c.ok = true := by
  simp only [State.okLanesOf, getLsbD_ofBits _ hk, List.any_eq_true, List.mem_filter, beq_iff_eq, Bool.and_eq_true, and_assoc]

theorem State.finishTx_free {s : State} (h : s.cur.txHold = false) (d : Nat) :
    s.finishTx d = ((s.overTx (s.commits.filter fun c => c.ctx != s.cur.id) (s.cur.committed (s.okLanesOf s.cur.id))).withL1 []).defer
      [.prd d allLanes (s.okLanesOf s.cur.id) 0] 0 0 true := by
  have hc : s.finishTx d = ((s.withCommits (s.commits.filter fun c => c.ctx != s.cur.id) (s.cur.committed (s.okLanesOf s.cur.id))).endTx.acquire 2).defer
      [.prd d allLanes (s.okLanesOf s.cur.id) 0] 0 0 true := rfl
  rw [hc, State.endTx_free h, State.acquire, if_neg (by decide), State.withL1]

/-- A word of `txend`. -/
def endMeta (sm : Bool) : Meta := { txMeta sm 0 with nonreplay := true }
theorem txend_finishes {sm : Bool} {d : BitVec 3} {s : State} (h : s.GroupReady) (hf : s.cur.txHold = false) {body : State → Eff}
    (hb : body (s.charge (endMeta sm)) = .done ((s.charge (endMeta sm)).finishTx d.toNat)) :
    ∃ t u, issue (endMeta sm) s body = .next t ∧
      s.Returns u t 4 sm [.prd d.toNat allLanes (s.okLanesOf s.cur.id) 0] ∧ s.TxOver u (s.okLanesOf s.cur.id) := by
  let m := endMeta sm
  let cs := s.commits.filter fun c => c.ctx != s.cur.id
  let recs := s.cur.committed (s.okLanesOf s.cur.id)
  have hw : (s.charge m).finishTx d.toNat =
      (((s.charge m).overTx cs recs).withL1 []).defer [.prd d.toNat allLanes (s.okLanesOf s.cur.id) 0] 0 0 true := by
    have hc : (s.charge m).cur.committed = s.cur.committed := by
      funext ok
      simp only [Ctx.committed, charge_txWord, State.charge_cur_txrec]
    have ho : (s.charge m).okLanesOf = s.okLanesOf := by
      funext i
      simp only [State.okLanesOf, State.charge_commits]
    rw [State.finishTx_free ((State.charge_cur_txHold ..).trans hf), hc, ho, State.charge_cur_id, State.charge_commits]
  obtain ⟨t, h1, h2⟩ := issue_returns (m := m) (u := ((s.overTx cs recs).withL1 []).mark true) (w := ((s.charge m).overTx cs recs).withL1 []) h.1
    (illegal_lane h (Nat.zero_le _) (Nat.zero_le _) (.inl rfl) rfl) (.inl rfl) (body := body)
    (vals := [.prd d.toNat allLanes (s.okLanesOf s.cur.id) 0])
    ((hb.trans (congrArg Eff.done hw)).trans (by rw [if_neg (by simp)])) (by simp [DVal.plain])
    ((((State.charge_keeps s m).overTx cs recs).withL1 (State.charge_cur_core s m) []).mark true)
    (State.charge_cur_pc ..) (State.charge_cur_loop ..) ((State.charge_cur_slotLen ..).trans h.1.word)
    ((State.charge_cur_recipe ..).trans h.1.recipe) ((State.charge_cur_deferred ..).trans h.1.written) ((State.charge_cur_poisonV ..).trans h.1.poisonV)
    ((State.charge_cur_poisonS ..).trans h.1.poisonS)
  refine ⟨t, _, h1, h2, ?_, fun k hk => committed_get s.cur _ hk⟩
  simp only [cs, State.mark, Bool.or_true, bne, ne_eq, decide_not]
  rfl

theorem txend_committed (sm : Bool) (d : BitVec 3) (s : State) (h : s.GroupReady) (hf : s.cur.txHold = false)
    (hc : ∃ c ∈ s.commits, c.ctx = s.cur.id) (hp : ∀ c ∈ s.commits, c.ctx = s.cur.id → c.phase = 3) :
    ∃ t u, exec (.txend sm d) s = .next t ∧ s.Returns u t 4 sm [.prd d.toNat allLanes (s.okLanesOf s.cur.id) 0] ∧
      s.TxOver u (s.okLanesOf s.cur.id) := by
  refine txend_finishes h hf ?_
  have hmine : (s.commits.filter fun c => c.ctx == s.cur.id).isEmpty = false := by
    obtain ⟨c, hm, hi⟩ := hc
    exact List.isEmpty_eq_false_iff_exists_mem.2 ⟨c, List.mem_filter.2 ⟨hm, beq_iff_eq.2 hi⟩⟩
  have hall : ((s.commits.filter fun c => c.ctx == s.cur.id).all fun c => c.phase == 3) = true := by
    refine List.all_eq_true.2 fun c hm => beq_iff_eq.2 ?_
    obtain ⟨hm, hi⟩ := List.mem_filter.1 hm
    exact hp c hm (beq_iff_eq.1 hi)
  simp only [State.charge_commits, State.charge_cur_id, hmine, hall, Bool.not_false, if_true]

theorem State.txOpen_closed {s : State} (h : s.cur.txg = true → ∀ k < 256, !(s.cur.openLane k)) : s.txOpen allLanes = 0 := by
  by_cases hg : s.cur.txg = true
  · rw [State.txOpen, if_pos hg]
    refine BitVec.eq_of_getLsbD_eq fun k hk => ?_
    rw [BitVec.getLsbD_and, Ctx.openMask, getLsbD_ofBits _ hk, (Bool.not_eq_true' _).mp (h hg k hk), Bool.and_false]
    exact BitVec.getLsbD_zero.symm
  · exact State.txOpen_none (Bool.eq_false_iff.2 hg) _

theorem txend_nothing (sm : Bool) (d : BitVec 3) (s : State) (h : s.GroupReady) (hf : s.cur.txHold = false)
    (hc : ∀ c ∈ s.commits, c.ctx ≠ s.cur.id) (hp : s.packets = []) (he : s.peers = []) (ho : s.cur.txg = true → ∀ k < 256, !(s.cur.openLane k)) :
    ∃ t u, exec (.txend sm d) s = .next t ∧ s.Returns u t 4 sm [.prd d.toNat allLanes (s.okLanesOf s.cur.id) 0] ∧
      s.TxOver u (s.okLanesOf s.cur.id) := by
  refine txend_finishes h hf ?_
  have hmine : s.commits.filter (fun c => c.ctx == s.cur.id) = [] := List.filter_eq_nil_iff.2 fun c hm => by simpa using hc c hm
  have hopen : (s.charge (endMeta sm)).txOpen allLanes = 0 :=
    State.txOpen_closed fun hg k hk => by
      rw [charge_openLane]
      exact ho ((State.charge_cur_txg ..).symm.trans hg) k hk
  simp only [State.charge_commits, State.charge_cur_id, hmine, List.isEmpty_nil, Bool.not_true, Bool.false_eq_true, if_false]
  rw [whenPerformed_alone ((State.charge_packets ..).trans hp) ((State.charge_peers ..).trans he)]
  simp only [hopen, maskLanes_zero, List.map_nil, List.length_nil, List.zip_nil_right, List.all_nil, if_true, List.append_nil, Nat.add_zero]

theorem State.okLanesOf_none {s : State} {i : Nat} (h : ∀ c ∈ s.commits, c.ctx ≠ i) : s.okLanesOf i = 0 := by
  refine BitVec.eq_of_getLsbD_eq fun k hk => (Bool.eq_false_iff.2 fun ht => ?_).trans BitVec.getLsbD_zero.symm
  obtain ⟨c, hm, hi, -⟩ := (s.okLanesOf_iff i hk).1 ht
  exact h c hm hi

/-! ### `txbegin` -/

/-- R278: the records as the lanes outside r open and those in r are refused, without a token. -/
def Ctx.opened (c : Ctx) (r : Mask) : SMap W32 :=
  (maskLanes c.em).foldl (fun m i => SMap.set 0 m i (if r.getLsbD i then refuseWord (c.txWord i) else openWord (c.txWord i) false)) c.txrec
theorem opened_get (c : Ctx) (r : Mask) {k : Nat} (hk : k < 256) : SMap.get 0 (c.opened r) k =
    if c.em.getLsbD k then (if (c.em &&& ~~~r).getLsbD k then c.txWord k &&& 0x00FF00FF ||| 0x400 else c.txWord k &&& 0x00FF010F ||| 0x200)
    else c.txWord k := by
  rw [Ctx.opened, foldl_set_get 0 (fun i => if r.getLsbD i then refuseWord (c.txWord i) else openWord (c.txWord i) false)]
  by_cases he : c.em.getLsbD k = true
  · have hx : (c.em &&& ~~~r).getLsbD k = !r.getLsbD k := by
      rw [BitVec.getLsbD_and, BitVec.getLsbD_not, he, decide_eq_true hk, Bool.true_and, Bool.true_and]
    rw [if_pos (mem_maskLanes.2 ⟨hk, he⟩), if_pos he, hx]
    cases r.getLsbD k
    · exact BitVec.or_zero
    · rfl
  · rw [if_neg fun hm => he (mem_maskLanes.1 hm).2, if_neg he]
    rfl

/-- R74: a state with its flashback slot written. -/
def State.slotted (s : State) (sp : Mem) (poison : List (Nat × Nat)) (lp : Option LoopState) : State :=
  { s with sp := sp, poison := poison, cur := { s.cur with dirty := false, fbLoop := lp } }
/-- R278: a state whose current context has these records, and the lanes of x open without a token. -/
def State.openedTx (s : State) (rec : SMap W32) (x : Mask) : State :=
  { s with cur := { s.cur with txrec := rec, txlogs := [], txg := x != 0, txHold := false, txLane := 0 } }
theorem State.Keeps.begunTx {s t : State} (h : s.Keeps t) (sp : Mem) (poison : List (Nat × Nat)) (lp : Option LoopState) (rec : SMap W32) (x : Mask) :
    ((s.slotted sp poison lp).openedTx rec x).Keeps ((t.slotted sp poison lp).openedTx rec x) :=
  h.map (fun y => (y.slotted sp poison lp).openedTx rec x) (fun y => (y.slotted sp poison lp).openedTx rec x) (fun _ => rfl) fun _ => ⟨rfl, rfl⟩

theorem State.writeP_take {s : State} (hd : s.cur.deferred = []) (r : Nat) (m v : Mask) : s.writeP r m v = s.take (.prd r m v 0) := by
  rw [State.writeP, hd, State.take, List.map_nil, ← hd]
theorem State.take_prd_cur (s : State) (r : Nat) (m v c : Mask) :
    (s.take (.prd r m v c)).cur = { s.cur with preds := (s.take (.prd r m v c)).cur.preds } := by
  by_cases h : r = 0
  · rw [State.take, if_pos h]
  · rw [State.take, if_neg h]

theorem State.openLanes_eq {s : State} (hd : s.cur.deferred = []) (d : Nat) (r : Mask) : s.openLanes d r none =
    (s.openedTx (s.cur.opened r) (s.cur.em &&& ~~~r)).take (.prd d s.cur.em (s.cur.em &&& ~~~r) 0) :=
  State.writeP_take (s := s.openedTx (s.cur.opened r) (s.cur.em &&& ~~~r)) hd d s.cur.em (s.cur.em &&& ~~~r)

/-- R278, R300: the slot a `txbegin` writes for a recipe. -/
def State.txImage (s : State) (rc : Recipe) : List Byte :=
  let entry := s.slotNum s.cur 0x216C 4 % 2
  s.slotImage rc s.cur.rcpHeader s.cur.pc s.cur.loop (s.cur.deadline - s.cur.issued) entry
    (if entry = 1 then BitVec.ofNat 64 (s.slotNum s.cur 0x2170 8) else 0) (if entry = 1 then BitVec.ofNat 64 (s.slotNum s.cur 0x2178 8) else 0)
/-- The scratchpads with that slot written. -/
def State.slotSp (s : State) (rc : Recipe) : Mem := (s.writeBytes (s.cur.slotLoc 0) (s.txImage rc)).sp
theorem State.txSlot_eq {s : State} (hd : s.cur.deferred = []) (rc : Recipe) :
    s.txSlot rc = s.slotted (s.slotSp rc) (s.cleanSlot s.cur).poison s.cur.loop :=
  State.writeSlot_eq s rc _ _ _ _ _ _ _ hd

theorem State.slotSp_image (s : State) (rc : Recipe) : ∃ entry s1 s2, s.slotSp rc = (s.writeBytes (s.cur.slotLoc 0)
    (s.slotImage rc s.cur.rcpHeader s.cur.pc s.cur.loop (s.cur.deadline - s.cur.issued) entry s1 s2)).sp := ⟨_, _, _, rfl⟩

/-! ### The lanes a `txbegin` opens -/

theorem refused_iff (c : Ctx) {k : Nat} (hk : k < 256) : c.txRefused.getLsbD k = true ↔ c.em.getLsbD k = true ∧
    ((c.txWord k).extractLsb' 0 4 = 3 ∨ (c.txWord k).extractLsb' 0 4 = 4) ∧ (c.txWord k).getLsbD 9 = false := by
  rw [Ctx.txRefused, getLsbD_ofBits _ hk]
  simp only [Bool.and_eq_true, Bool.or_eq_true, beq_iff_eq, Bool.not_eq_true', field_eq_iff _ 3 0 3 (by decide), field_eq_iff _ 3 0 4 (by decide)]
  rfl
/-- R279: the lanes a `txbegin` opens. -/
theorem opens_iff (s : State) {k : Nat} (hk : k < 256) : (s.cur.em &&& ~~~s.cur.txRefused).getLsbD k = true ↔ s.Opens k := by
  have hr := refused_iff s.cur hk
  rw [BitVec.getLsbD_and, BitVec.getLsbD_not, decide_eq_true hk, Bool.true_and, Bool.and_eq_true, Bool.not_eq_true', ← Bool.not_eq_true, hr, State.Opens]
  exact and_congr_right fun he => not_congr (and_iff_right he)
/-- R278: no lane that opens is at the threshold, so none asks for the token. -/
theorem noFallback {s : State} (h : ∀ k < 256, s.Opens k → ((s.cur.txWord k).extractLsb' 4 4).toNat < s.cur.txThresh.toNat) :
    s.cur.txFallback &&& ~~~s.cur.txRefused = 0 := by
  refine BitVec.eq_of_getLsbD_eq fun k hk => (Bool.eq_false_iff.2 fun hb => ?_).trans BitVec.getLsbD_zero.symm
  rw [BitVec.getLsbD_and, Bool.and_eq_true, Ctx.txFallback, getLsbD_ofBits _ hk, Bool.and_eq_true, decide_eq_true_eq, field_toNat] at hb
  obtain ⟨⟨he, hle⟩, hr⟩ := hb
  have ho : s.Opens k := (opens_iff s hk).1 (by rw [BitVec.getLsbD_and, he, hr]; rfl)
  exact Nat.not_lt.2 hle (h k hk ho)

theorem charge_txRefused (s : State) (m : Meta) : (s.charge m).cur.txRefused = s.cur.txRefused := by
  simp only [Ctx.txRefused, charge_txWord, State.charge_cur_em]
theorem charge_txFallback (s : State) (m : Meta) : (s.charge m).cur.txFallback = s.cur.txFallback := by
  simp only [Ctx.txFallback, charge_txWord, State.charge_cur_em, State.charge_cur_txThresh]
theorem charge_opened (s : State) (m : Meta) : (s.charge m).cur.opened = s.cur.opened := by
  funext r
  simp only [Ctx.opened, charge_txWord, State.charge_cur_em, State.charge_cur_txrec]
/-- R307: an issue in U mode outside a recipe counts one. -/
theorem charge_issued {s : State} (m : Meta) (hu : s.cur.smode = false) (hi : s.cur.reissue = false) (hr : s.cur.recipe = none) :
    (s.charge m).cur.issued = s.cur.issued + 1 := by
  have hb : ∀ n, (bumpCls s.cur n).smode = s.cur.smode ∧ (bumpCls s.cur n).recipe = s.cur.recipe ∧ (bumpCls s.cur n).issued = s.cur.issued := by
    intro n
    unfold bumpCls
    split <;> exact ⟨rfl, rfl, rfl⟩
  obtain ⟨h1, h2, h3⟩ := hb m.cls
  simp [State.charge, hi, State.updTile, State.setTile, State.setCore, State.updCur, h1, h2, h3, hu, hr]

/-! ### The issue of a `txbegin` -/

/-- R278: what is asked before a `txbegin` needs neither to wait nor the token. -/
structure State.Begins (s : State) : Prop where
  ready : s.GroupReady
  user : s.cur.smode = false
  first : s.cur.reissue = false
  closed : s.cur.txg = false
  noRecipe : s.cur.rcpHeader = 0
  alone : ∀ c ∈ s.ctxs, c.kind = .group → c.core = s.cur.core → c.txg = false ∧ c.park ≠ some .txPlace
  below : ∀ k < 256, s.Opens k → ((s.cur.txWord k).extractLsb' 4 4).toNat < s.cur.txThresh.toNat

theorem State.slotted_em (s : State) (sp : Mem) (poison : List (Nat × Nat)) (lp : Option LoopState) : (s.slotted sp poison lp).cur.em = s.cur.em := rfl
theorem slotted_opened (s : State) (sp : Mem) (poison : List (Nat × Nat)) (lp : Option LoopState) :
    (s.slotted sp poison lp).cur.opened = s.cur.opened := rfl

/-- A `txbegin` that neither waits nor holds the token, once its slot and its records are known. -/
theorem issue_begins {m : Meta} {s : State} (h : s.Ready) (hi : s.illegal m = none) (ht : s.cur.txg = false) (hr : m.nonreplay = false)
    {body : State → Eff} {sp : Mem} {poison : List (Nat × Nat)} {rec : SMap W32} {x : Mask} {d : Nat}
    (hb : body (s.charge m) = .done ((((s.charge m).slotted sp poison s.cur.loop).openedTx rec x).take (.prd d s.cur.em x 0))) :
    ∃ t, issue m s body = .next t ∧ s.Returns (((s.slotted sp poison s.cur.loop).openedTx rec x).take (.prd d s.cur.em x 0)) t m.len m.settle [] := by
  have hk := State.charge_keeps s m
  have hpc := State.charge_cur_pc s m
  have hlp := State.charge_cur_loop s m
  have hl := (State.charge_cur_slotLen s m).trans h.word
  have hrr := (State.charge_cur_recipe s m).trans h.recipe
  have hd := (State.charge_cur_deferred s m).trans h.written
  have hv := (State.charge_cur_poisonV s m).trans h.poisonV
  have hs := (State.charge_cur_poisonS s m).trans h.poisonS
  generalize hc : s.charge m = k at *
  have hcur := State.take_prd_cur ((k.slotted sp poison s.cur.loop).openedTx rec x) d s.cur.em x 0
  refine issue_effect h hi (.inr ht) (hc ▸ hb) ((hk.begunTx sp poison s.cur.loop rec x).take _) hr ?_ ?_ ?_ ?_ ?_ ?_ ?_
  all_goals rw [hcur]
  exacts [hpc, hlp, hl, hrr, hd, hv, hs]

/-- The lanes of `em` a `txbegin` opens. -/
def State.opening (s : State) : Mask := s.cur.em &&& ~~~s.cur.txRefused
/-- A word of `txbegin`. -/
def beginMeta (sm : Bool) : Meta := { txMeta sm 0 with insn := true }
/-- R278: what a `txbegin` leaves without its predicate: sp and poison are what its slot leaves of the scratchpads and of their errors. -/
def State.begunTx (s : State) (sp : Mem) (poison : List (Nat × Nat)) (rec : SMap W32) : State :=
  (s.slotted sp poison s.cur.loop).openedTx rec s.opening
theorem State.begunTx_frame (s : State) (sp : Mem) (poison : List (Nat × Nat)) (rec : SMap W32) : s.begunTx sp poison rec = { s with
    sp := sp, poison := poison, cur := { s.cur with
      txrec := rec, txlogs := [], txg := s.opening != 0, txHold := false, txLane := 0, dirty := false, fbLoop := s.cur.loop } } := rfl

section begin
variable {s : State} (h : s.Begins)
include h

theorem no_other_transactional (m : Meta) (p : Ctx → Bool) (hp : ∀ c : Ctx, c.txg = false → c.park ≠ some .txPlace → p c = false) :
    (((s.charge m).ctxs.filter fun c => c.isGroup && c.core == (s.charge m).cur.core).filter p) = [] := by
  refine List.filter_eq_nil_iff.2 fun c hc => Bool.eq_false_iff.1 ?_
  obtain ⟨hm, hg⟩ := List.mem_filter.1 hc
  rw [Bool.and_eq_true, beq_iff_eq, State.charge_cur_core, Ctx.isGroup, beq_iff_eq] at hg
  rw [State.charge_ctxs] at hm
  obtain ⟨ht, hk⟩ := h.alone c hm hg.1 hg.2
  exact hp c ht hk

theorem txbegin_effect (sm : Bool) (d : BitVec 3) {sp : Mem} {poison : List (Nat × Nat)} {rec : SMap W32}
    (hs : sp = (s.charge (beginMeta sm)).slotSp {})
    (hp : poison = ((s.charge (beginMeta sm)).cleanSlot (s.charge (beginMeta sm)).cur).poison) (hrec : rec = s.cur.opened s.cur.txRefused) :
    ∃ t, exec (.txbegin sm d) s = .next t ∧ s.Returns ((s.begunTx sp poison rec).take (.prd d.toNat s.cur.em s.opening 0)) t 4 sm [] := by
  have hd : (s.charge (beginMeta sm)).cur.deferred = [] := (State.charge_cur_deferred ..).trans h.ready.1.written
  have htx : (s.charge (beginMeta sm)).cur.txg = false := (State.charge_cur_txg ..).trans h.closed
  have hbusy := no_other_transactional h (beginMeta sm) (fun c => c.txg) fun c ht _ => ht
  have hqueue := no_other_transactional h (beginMeta sm) (fun c => c.park == some .txPlace) fun c _ hp => beq_eq_false_iff_ne.2 hp
  have hf : (s.charge (beginMeta sm)).cur.txFallback &&& ~~~(s.charge (beginMeta sm)).cur.txRefused = 0 := by
    rw [charge_txFallback, charge_txRefused]
    exact noFallback h.below
  have hrcp : (s.charge (beginMeta sm)).cur.rcpHeader = 0 := (State.charge_cur_rcpHeader ..).trans h.noRecipe
  refine issue_begins (m := beginMeta sm) h.ready.1 (illegal_lane h.ready (Nat.zero_le _) (Nat.zero_le _) (.inl rfl) rfl) h.closed rfl ?_
  simp only [htx, hbusy, hqueue, hf, hrcp, Bool.false_eq_true, if_false, List.length_nil, ite_self, Nat.add_zero, Nat.reduceLeDiff, ne_eq, not_true_eq_false,
    decide_false, Bool.false_and, if_true]
  rw [State.txSlot_eq hd, State.openLanes_eq]
  · simp only [slotted_opened, State.slotted_em, charge_opened, charge_txRefused, State.charge_cur_em, State.charge_cur_loop, ← hs, ← hp, ← hrec]
    rfl
  · exact hd

/-- R278, R300: the slot resumes at the `txbegin`, names no recipe, and holds `em` and what the deadline still allows. -/
theorem txImage_slot (m : Meta) {sp : Mem} (hs : sp = (s.charge m).slotSp {})
    {u : State} {c : Ctx} (hu : u = { s with sp := sp, poison := u.poison, cur := c }) (hc : c.core = s.cur.core) (hf : c.fbbase = s.cur.fbbase) :
    u.slotNum c 0x2040 8 = s.cur.pc.toNat ∧ u.slotNum c 0x2048 8 = 0 ∧ u.slotNum c 0x2050 32 = s.cur.em.toNat ∧
      (s.cur.deadline < 2 ^ 32 → u.slotNum c 0x2168 4 = s.cur.deadline - (s.cur.issued + 1)) ∧
      ∀ p, (∀ i < 9216, p ≠ s.cur.slotLoc i) → u.readByte p = s.readByte p := by
  obtain ⟨entry, s1, s2, he⟩ := (s.charge m).slotSp_image {}
  replace hs := hs.trans he
  have hcore := State.charge_cur_core s m
  have hbase := State.charge_cur_fbbase s m
  have hpc := State.charge_cur_pc s m
  have hrcp := (State.charge_cur_rcpHeader s m).trans h.noRecipe
  have hem := State.charge_cur_em s m
  have hiss : (s.charge m).cur.deadline - (s.charge m).cur.issued = s.cur.deadline - (s.cur.issued + 1) := by
    rw [State.charge_cur_deadline, charge_issued m h.user h.first h.ready.1.recipe]
  have hloc : ∀ i, (s.charge m).cur.slotLoc i = s.cur.slotLoc i := fun i => by simp only [Ctx.slotLoc, hcore, hbase]
  have hbyte : ∀ p, u.readByte p = ({ s.charge m with sp := sp } : State).readByte p := State.readByte_same (by rw [hu]; simp)
  have hsame := charge_readByte s m
  generalize s.charge m = t at *
  have hn : ∀ off n, u.slotNum c off n = ({ t with sp := sp } : State).slotNum t.cur off n :=
    State.slotNum_congr (by rw [hu]) (hc.trans hcore.symm) (hf.trans hbase.symm)
  refine ⟨?_, ?_, ?_, fun hd => ?_, fun p hp => ?_⟩
  · rw [hn, slotImage_resume hs, hpc]
  · rw [hn, slotImage_header hs, hrcp]
    rfl
  · rw [hn, slotImage_em hs, hem]
  · rw [hn, slotImage_deadline hs (by rw [hiss]; omega), hiss]
  · rw [hbyte, slotImage_others hs rfl p fun i hi => (hloc i).symm ▸ hp i hi]
    exact hsame p

theorem txbegin_begins (sm : Bool) (d : BitVec 3) :
    ∃ t, ∃ u : State, ∃ x : Mask, exec (.txbegin sm d) s = .next t ∧ s.Returns (u.take (.prd d.toNat s.cur.em x 0)) t 4 sm [] ∧
      (∀ k < 256, x.getLsbD k = true ↔ s.Opens k) ∧
      (∀ k, k ∈ u.poison ↔ k ∈ s.poison ∧ ¬(k.2 = 1 ∧ (s.cur.slotLoc 0).addr ≤ k.1 * 4 ∧ k.1 * 4 < (s.cur.slotLoc 0).addr + 9216)) ∧
      u = { s with sp := u.sp, poison := u.poison, cur := { s.cur with
        txrec := u.cur.txrec, txlogs := [], txg := x != 0, txHold := false, txLane := 0, dirty := false, fbLoop := s.cur.loop } } ∧
      (∀ k < 256, u.cur.txWord k = if s.cur.em.getLsbD k then (if x.getLsbD k then s.cur.txWord k &&& 0x00FF00FF ||| 0x400
        else s.cur.txWord k &&& 0x00FF010F ||| 0x200) else s.cur.txWord k) ∧
      u.slotNum u.cur 0x2040 8 = s.cur.pc.toNat ∧ u.slotNum u.cur 0x2048 8 = 0 ∧ u.slotNum u.cur 0x2050 32 = s.cur.em.toNat ∧
      (s.cur.deadline < 2 ^ 32 → u.slotNum u.cur 0x2168 4 = s.cur.deadline - (s.cur.issued + 1)) ∧
      ∀ p, (∀ i < 9216, p ≠ s.cur.slotLoc i) → u.readByte p = s.readByte p := by
  obtain ⟨sp, hs⟩ : ∃ sp, sp = (s.charge (beginMeta sm)).slotSp {} := ⟨_, rfl⟩
  obtain ⟨poison, hp⟩ : ∃ p, p = ((s.charge (beginMeta sm)).cleanSlot (s.charge (beginMeta sm)).cur).poison := ⟨_, rfl⟩
  obtain ⟨rec, hrec⟩ : ∃ r, r = s.cur.opened s.cur.txRefused := ⟨_, rfl⟩
  obtain ⟨t, h1, h2⟩ := txbegin_effect h sm d hs hp hrec
  refine ⟨t, s.begunTx sp poison rec, s.opening, h1, h2, fun k hk => opens_iff s hk, fun k => ?_, s.begunTx_frame sp poison rec, fun k hk => ?_,
    txImage_slot h (beginMeta sm) hs rfl rfl rfl⟩
  · have hloc : (s.charge (beginMeta sm)).cur.slotLoc 0 = s.cur.slotLoc 0 := by simp [Ctx.slotLoc]
    have hm := State.mem_cleanSlot (s.charge (beginMeta sm)) (s.charge (beginMeta sm)).cur k
    rwa [hloc, State.charge_poison, ← hp] at hm
  · exact (congrArg (SMap.get 0 · k) hrec).trans (opened_get s.cur s.cur.txRefused hk)

end begin

/-- Settles O40: each instruction by its own rule; what `txend` gives is the lanes whose commits stand, none where there are none. -/
theorem transactions : Obligations.Transactions := by
  refine ⟨fun sm d s h hu hr ht hc hb hl => txbegin_begins ⟨h, hu, hr, ht, hc, hb, hl⟩ sm d, fun sm d s h hf hc hp => ?_, fun sm d s h hf hc hp he ho => ?_,
    fun sm s h ht => ?_, txstat_returns, txstatAddr_returns⟩
  · obtain ⟨t, u, h1, h2, h3⟩ := txend_committed sm d s h hf hc hp
    exact ⟨t, u, _, h1, h2, h3, fun k hk => s.okLanesOf_iff s.cur.id hk⟩
  · have hz := State.okLanesOf_none hc
    have := txend_nothing sm d s h hf hc hp he ho
    rwa [hz] at this
  · obtain ⟨t, u, h1, h2, h3, h4⟩ := txabort_aborts sm s h ht
    refine ⟨t, u, h1, h2, h3, fun k hk => ⟨fun ha => ?_, fun ha => ?_⟩⟩
    · have hk4 := h4 k hk
      rw [if_pos ha, abortWord_explicit] at hk4
      simpa only [Ctx.laneTx, Prod.mk.injEq] using hk4
    · have hk4 := h4 k hk
      rw [if_neg ha] at hk4
      simpa only [Ctx.laneTx, Prod.mk.injEq] using hk4

end Sys2Proof.Machine
end

section
/-!
PROOF. The form of byte memory (assumption 8; R391, R411): a rule for each operation of the model, under the operation's name, from the writes of a
byte to the step. An operation that takes what goes on after it asks the same of that; one that may give nothing, or a failure, has the rule for the
state it gives.
-/

namespace Sys2Proof.Machine

set_option Elab.async false

/-! ### The form, and what each kind of result owes it -/

/-- Byte memory is in its canonical form (assumption 8): `State.memWf` as a proposition, with a rule of its own for each operation of the model. -/
def State.MemForm (s : State) : Prop := s.memWf = true
/-- The state an optional operation gives, when it gives one. -/
def OptForm (o : Option State) : Prop := ∀ t, o = some t → t.MemForm
/-- The state an effect leaves. -/
def Eff.MemForm : Eff → Prop
  | .done s | .goto s _ | .loop s _ | .event s _ | .wait s _ | .ended s => s.MemForm
/-- The next state of an instruction or an event. -/
def OutForm (o : Host.Outcome State Fault Refusal) : Prop := ∀ t, o = .next t → t.MemForm

theorem OutForm.ite {c : Prop} [Decidable c] {o o' : Host.Outcome State Fault Refusal} (h : OutForm o) (h' : OutForm o') :
    OutForm (if c then o else o') := by
  split; exacts [h, h']
namespace OptForm
theorem none : OptForm .none := fun _ h => by cases h
theorem some {s : State} (h : s.MemForm) : OptForm (.some s) := by rintro _ ⟨⟩; exact h
theorem map {f : State → State} {o : Option State} (hf : ∀ t, t.MemForm → (f t).MemForm) (h : OptForm o) : OptForm (o.map f) := by
  rintro _ ht
  obtain ⟨t, rfl, rfl⟩ := Option.map_eq_some_iff.1 ht
  exact hf t (h t rfl)
theorem ite {c : Prop} [Decidable c] {o o' : Option State} (h : OptForm o) (h' : OptForm o') : OptForm (if c then o else o') := by
  split; exacts [h, h']
theorem getD {s : State} {o : Option State} (h : OptForm o) (hs : s.MemForm) : (o.getD s).MemForm := by
  cases o with
  | none => exact hs
  | some t => exact h t rfl
end OptForm

/-- The state a write of the front end leaves, when it leaves one. -/
def FrontWrite.MemForm : FrontWrite → Prop
  | .done s | .wait s => s.MemForm
  | .fail => True
/-- The state a chunk leaves, when it does not wait. -/
def ChunkEnd.MemForm : ChunkEnd → Prop
  | .ok s | .fail s _ => s.MemForm
  | .wait => True

theorem FrontWrite.MemForm.done {w : FrontWrite} {s : State} (h : w.MemForm) (e : w = .done s) : s.MemForm := by subst e; exact h
theorem FrontWrite.MemForm.wait {w : FrontWrite} {s : State} (h : w.MemForm) (e : w = .wait s) : s.MemForm := by subst e; exact h
theorem ChunkEnd.MemForm.ok {w : ChunkEnd} {s : State} (h : w.MemForm) (e : w = .ok s) : s.MemForm := by subst e; exact h
theorem ChunkEnd.MemForm.fail {w : ChunkEnd} {s : State} {c : Nat} (h : w.MemForm) (e : w = .fail s c) : s.MemForm := by subst e; exact h
theorem Eff.MemForm.ite {c : Prop} [Decidable c] {e e' : Eff} (h : e.MemForm) (h' : e'.MemForm) : (if c then e else e').MemForm := by
  split; exacts [h, h']

/-- The state a word written by an open lane leaves, when it goes on. -/
def TxRes.MemForm : TxRes State → Prop
  | .ok s => s.MemForm
  | _ => True
theorem TxRes.MemForm.get {r : TxRes State} {s : State} (h : r.MemForm) (e : r = .ok s) : s.MemForm := by subst e; exact h
/-- The state an access of an open lane leaves, when it goes on. -/
def TxForm {α : Type} : TxRes (α × State) → Prop
  | .ok r => r.2.MemForm
  | _ => True
/-- The state a read of the engine leaves, when it succeeds. -/
def ReadForm {ε α : Type} : Except ε (State × α) → Prop
  | .ok r => r.1.MemForm
  | .error _ => True
/-- The state of an optional pair. -/
def PairForm {α : Type} : Option (State × α) → Prop
  | some r => r.1.MemForm
  | none => True

theorem OptForm.bind {α : Type} {P : α → Prop} {f : α → Option State} {o : Option α} (h : ∀ a, o = .some a → P a)
    (hf : ∀ a, P a → OptForm (f a)) : OptForm (o.bind f) := by
  intro t e
  obtain ⟨a, ha, e⟩ := Option.bind_eq_some_iff.1 e
  exact hf a (h a ha) t e
theorem TxForm.get {α : Type} {r : TxRes (α × State)} {a : α × State} (h : TxForm r) (e : r = .ok a) : a.2.MemForm := by subst e; exact h
theorem ReadForm.get {ε α : Type} {r : Except ε (State × α)} {t : State} {a : α} (h : ReadForm r) (e : r = .ok (t, a)) : t.MemForm := by
  subst e; exact h
theorem ReadForm.map {ε α β : Type} {f : State × α → State × β} {r : Except ε (State × α)} (hf : ∀ a, (f a).1 = a.1) (h : ReadForm r) :
    ReadForm (r.map f) := by
  cases r with
  | ok a => exact (congrArg State.MemForm (hf a)).mpr h
  | error e => trivial
theorem ReadForm.map_to {ε α β : Type} {f : β → State × α} {r : Except ε β} (hf : ∀ b, (f b).1.MemForm) : ReadForm (r.map f) := by
  cases r with
  | ok b => exact hf b
  | error e => trivial
theorem PairForm.get {α : Type} {o : Option (State × α)} {t : State} {a : α} (h : PairForm o) (e : o = some (t, a)) : t.MemForm := by
  subst e; exact h
theorem PairForm.bind {α : Type} {f : State × α → Option (State × α)} {o : Option (State × α)} (h : PairForm o)
    (hf : ∀ a, a.1.MemForm → PairForm (f a)) : PairForm (o.bind f) := by
  cases o with
  | some a => exact hf a h
  | none => trivial

namespace State.MemForm
variable {s : State}

/-- An update of other fields keeps the form. -/
theorem keep (h : s.MemForm) {cur ctxs blocks launches parts vfs cores tiles fields grans vrf acc planes sums bexp poison packets drops nacks
    deliveries raised jobs colls mxops commits locks walks ports peers exports copies holders lineApp regions module inval reply oracle nextId
    turn agenda ev} :
    State.MemForm ⟨cur, ctxs, blocks, launches, parts, vfs, cores, tiles, fields, grans, s.hbm, s.host, s.sp, vrf, acc, planes, sums, bexp,
      poison, packets, drops, nacks, deliveries, raised, jobs, colls, mxops, commits, locks, walks, ports, peers, exports, copies, holders,
      lineApp, regions, module, inval, reply, oracle, nextId, turn, agenda, ev⟩ := h
theorem ite {t : State} {c : Prop} [Decidable c] (h : s.MemForm) (h' : t.MemForm) : (if c then s else t).MemForm := by split; exacts [h, h']

theorem next (h : s.MemForm) : OutForm (.next s) := by rintro _ ⟨⟩; exact h
theorem refused {r : Refusal} : OutForm (.refused r) := fun _ h => by cases h
theorem pair {α : Type} {p : State × α} {t : State} {a : α} (h : p.1.MemForm) (e : p = (t, a)) : t.MemForm := by subst e; exact h

theorem foldl_of {α β : Type} {P : β → Prop} {f : β → α → β} (hf : ∀ b x, P b → P (f b x)) (l : List α) (b : β) (h : P b) :
    P (l.foldl f b) :=
  List.foldlRecOn l f h fun b hb x _ => hf b x hb
theorem foldl {α : Type} {f : State → α → State} {l : List α} (hf : ∀ t x, t.MemForm → (f t x).MemForm) (h : s.MemForm) :
    (l.foldl f s).MemForm :=
  foldl_of hf l s h
theorem foldl_fst {α β : Type} {f : State × β → α → State × β} {l : List α} {b : β} (hf : ∀ t x, t.1.MemForm → (f t x).1.MemForm)
    (h : s.MemForm) : (l.foldl f (s, b)).1.MemForm :=
  foldl_of (P := fun p => p.1.MemForm) hf l (s, b) h
theorem foldl_opt {α : Type} {f : Option State → α → Option State} {l : List α} {o : Option State} (hf : ∀ o x, OptForm o → OptForm (f o x))
    (h : OptForm o) : OptForm (l.foldl f o) :=
  foldl_of hf l o h
theorem iterate {f : Nat → State → State} {n : Nat} (hf : ∀ i t, t.MemForm → (f i t).MemForm) :
    ∀ {i} {s : State}, s.MemForm → (iterate f n i s).MemForm := by
  induction n with
  | zero => exact fun h => h
  | succ n ih => exact fun h => ih (hf _ _ h)
theorem clearHbm {a n poison} (h : s.MemForm) : State.MemForm { s with hbm := Mem.clear s.hbm a n, poison := poison } :=
  have ⟨hbm, host, sp⟩ := State.memWf_iff.1 h
  State.memWf_iff.2 ⟨Mem.wf_clear hbm _ _, host, sp⟩
theorem filterSp {f vrf poison} (h : s.MemForm) : State.MemForm { s with sp := s.sp.filter f, vrf := vrf, poison := poison } :=
  have ⟨hbm, host, sp⟩ := State.memWf_iff.1 h
  State.memWf_iff.2 ⟨hbm, host, Mem.wf_filter sp _⟩

/-! ### Memory -/

theorem setCore {c v} (h : s.MemForm) : (s.setCore c v).MemForm := keep h
theorem updCore {c f} (h : s.MemForm) : (s.updCore c f).MemForm := setCore h
theorem setTile {t v} (h : s.MemForm) : (s.setTile t v).MemForm := keep h
theorem updTile {t f} (h : s.MemForm) : (s.updTile t f).MemForm := setTile h
theorem setFld {f v} (h : s.MemForm) : (s.setFld f v).MemForm := keep h
theorem updFld {f g} (h : s.MemForm) : (s.updFld f g).MemForm := setFld h
theorem setGran {g v} (h : s.MemForm) : (s.setGran g v).MemForm := keep h
theorem setPart {t v} (h : s.MemForm) : (s.setPart t v).MemForm := keep h
theorem updPart {t f} (h : s.MemForm) : (s.updPart t f).MemForm := by
  unfold State.updPart
  split
  exacts [setPart h, h]
theorem setVf {v x} (h : s.MemForm) : (s.setVf v x).MemForm := keep h
theorem updVf {v f} (h : s.MemForm) : (s.updVf v f).MemForm := setVf h
theorem updQueue {v q f} (h : s.MemForm) : (s.updQueue v q f).MemForm := updVf h
theorem updLaunch {l f} (h : s.MemForm) : (s.updLaunch l f).MemForm := by
  unfold State.updLaunch
  split
  exacts [keep h, h]
theorem updBlock {b f} (h : s.MemForm) : (s.updBlock b f).MemForm := by
  unfold State.updBlock
  split
  exacts [keep h, h]
theorem updPort {p f} (h : s.MemForm) : (s.updPort p f).MemForm := keep h
theorem updPeer {d f} (h : s.MemForm) : (s.updPeer d f).MemForm := keep h
theorem updModule {f} (h : s.MemForm) : (s.updModule f).MemForm := keep h
theorem updCtxs {p f} (h : s.MemForm) : (s.updCtxs p f).MemForm := keep h
theorem updCtx {id f} (h : s.MemForm) : (s.updCtx id f).MemForm := updCtxs h
theorem scrubLine {key} (h : s.MemForm) : (s.scrubLine key).MemForm := State.scrubLine_memWf h key
theorem setSlabRow {core plane row cg v bf} (h : s.MemForm) : (s.setSlabRow core plane row cg v bf).MemForm := keep h
theorem writeByte {l b} (h : s.MemForm) : (s.writeByte l b).MemForm := State.writeByte_memWf h l b
theorem writeAll {l} (h : s.MemForm) : (s.writeAll l).MemForm := State.writeAll_memWf h l
theorem writeBytes {l bs} (h : s.MemForm) : (s.writeBytes l bs).MemForm := writeAll h
theorem writeNum {l n v} (h : s.MemForm) : (s.writeNum l n v).MemForm := writeBytes h
theorem clearPoison {ls} (h : s.MemForm) : (s.clearPoison ls).MemForm := by
  refine ite h (keep (foldl (fun _ _ ht => ?_) h))
  split
  exacts [updCtx ht, ht]
theorem cleanAcc {row m} (h : s.MemForm) : (s.cleanAcc row m).MemForm := ite h (keep h)

/-! ### Addr -/

theorem atCore {core} (h : s.MemForm) : (s.atCore core).MemForm := keep h
theorem cachePages {tag vas} (h : s.MemForm) : (s.cachePages tag vas).MemForm := ite h (updPart h)

/-! ### Link -/

theorem sendFlit {dev f} (h : s.MemForm) : OptForm (s.sendFlit dev f) := by
  unfold State.sendFlit
  split
  exacts [OptForm.none, OptForm.ite (OptForm.some (updPort h)) OptForm.none]
theorem sendStamp {dev} (h : s.MemForm) : OptForm (s.sendStamp dev) := OptForm.map (fun _ ht => updPeer ht) (sendFlit h)
theorem putOrdering {dev ftype ptag sdev payload} (h : s.MemForm) : OptForm (s.putOrdering dev ftype ptag sdev payload) := by
  unfold State.putOrdering
  dsimp only
  split
  exacts [OptForm.none, OptForm.map (fun _ ht => updPeer ht) (sendFlit (OptForm.ite (sendStamp h) (OptForm.some h) _ ‹_›))]
theorem sendWaiting {dev} (h : s.MemForm) : (s.sendWaiting dev).MemForm := by
  refine iterate (fun _ _ ht => ?_) h
  split
  · exact ht
  · split
    exacts [ht, updPeer (putOrdering ht _ ‹_›)]
theorem sendOrdering {dev ftype ptag sdev payload} (h : s.MemForm) : OptForm (s.sendOrdering dev ftype ptag sdev payload) :=
  OptForm.ite (putOrdering (sendWaiting h)) OptForm.none
theorem forwardWrites {cells} (h : s.MemForm) : (s.forwardWrites cells).MemForm := by
  refine ite h (foldl (fun _ _ ht => ?_) h)
  split
  exacts [ht, foldl (fun _ _ ht => sendWaiting (updPeer ht)) (keep (updModule ht))]
theorem dropCopies {l} (h : s.MemForm) : (s.dropCopies l).MemForm := keep h
theorem noteAsk {dev cls who lane kind l} (h : s.MemForm) : (s.noteAsk dev cls who lane kind l).MemForm := keep (updPeer h)

/-! ### Ops -/

theorem updCur {f} (h : s.MemForm) : (s.updCur f).MemForm := keep h
theorem writeV {r m v} (h : s.MemForm) : (s.writeV r m v).MemForm := keep h
theorem writeS {r v} (h : s.MemForm) : (s.writeS r v).MemForm := keep h
theorem writeP {r m v} (h : s.MemForm) : (s.writeP r m v).MemForm := ite h (keep h)
theorem orFlags {fl} (h : s.MemForm) : (s.orFlags fl).MemForm := updCur h
theorem defer {vals flags due ready} (h : s.MemForm) : (s.defer vals flags due ready).MemForm := keep h
theorem landVal {id c x} (h : s.MemForm) : (s.landVal id c x).1.MemForm := by
  unfold State.landVal
  split
  exacts [keep h, h, h]
theorem land {c d} (h : s.MemForm) : (s.land c d).1.MemForm := keep (foldl_fst (fun _ _ ht => landVal ht) h)
theorem landWhere {c p} (h : s.MemForm) : (s.landWhere c p).1.MemForm := foldl_fst (fun _ _ ht => land ht) h
theorem settle (h : s.MemForm) : s.settle.MemForm := ite h (ite (keep (landWhere h)) (updCur h))
theorem frontAsk {v q va n} (h : s.MemForm) : (s.frontAsk v q va n).MemForm := by
  refine foldl (fun _ _ ht => ?_) h
  split
  · exact ht
  · refine ite ht ?_
    split
    · refine ite ht ?_
      split
      exacts [ht, noteAsk (sendFlit ht _ ‹_›)]
    · exact ht
theorem frontWrite {v q va bs} (h : s.MemForm) : (s.frontWrite v q va bs).MemForm := by
  fun_cases State.frontWrite
  exacts [trivial, trivial, h, h, trivial, h, updQueue (noteAsk (dropCopies (sendOrdering h _ ‹_›))), h, h,
    ite (forwardWrites (clearPoison (writeAll h))) h]
theorem raiseRecord {tag r} (h : s.MemForm) : (s.raiseRecord tag r).MemForm := keep h
theorem ringWrite (h : s.MemForm) : s.ringWrite.MemForm := by
  unfold State.ringWrite
  split
  · exact h
  · dsimp only
    split
    exacts [updPart (writeNum (keep h)), updPart (keep h)]
theorem queueIrq {v q want} (h : s.MemForm) : (s.queueIrq v q want).MemForm := ite (updVf h) h
theorem writeRecord {v q} (h : s.MemForm) : (s.writeRecord v q).MemForm := by
  fun_cases State.writeRecord
  exacts [h, queueIrq (updQueue (FrontWrite.MemForm.done (frontWrite h) ‹_›)), FrontWrite.MemForm.wait (frontWrite h) ‹_›, updQueue h]
theorem complete {v q code ptype data} (h : s.MemForm) : (s.complete v q code ptype data).MemForm := writeRecord (updQueue h)
theorem releaseToken {ctx} (h : s.MemForm) : (s.releaseToken ctx).MemForm := keep h
theorem retireBlock {b} (h : s.MemForm) : (s.retireBlock b).MemForm := ite h (ite (updCore (keep h)) (keep h))
theorem closeLaunch {l code} (h : s.MemForm) : (s.closeLaunch l code).MemForm := complete (updQueue (keep h))
theorem finishLaunch {l code} (h : s.MemForm) : (s.finishLaunch l code).MemForm := ite (closeLaunch h) (updLaunch h)
theorem closeQuiet (h : s.MemForm) : s.closeQuiet.MemForm := foldl (fun _ _ ht => ite (closeLaunch ht) ht) h
theorem endCtx {c} (h : s.MemForm) : (s.endCtx c).MemForm :=
  ite (finishLaunch (updLaunch (retireBlock (releaseToken (keep h))))) (updLaunch (retireBlock (releaseToken (keep h))))
theorem reapCtx {id} (h : s.MemForm) : (s.reapCtx id).MemForm := by
  unfold State.reapCtx
  split
  exacts [h, ite (endCtx h) h]
theorem endLaunch {l} (h : s.MemForm) : (s.endLaunch l).MemForm :=
  ite h (finishLaunch (foldl (fun _ _ ht => updCore ht) (keep (keep (foldl (fun _ _ ht => releaseToken ht) h)))))
theorem abortOpen {cause m} (h : s.MemForm) : (s.abortOpen cause m).MemForm := ite h (ite (updCur (releaseToken (updCur h))) (updCur h))
theorem enterHandler {vec e} (h : s.MemForm) : (s.enterHandler vec e).MemForm := updCur h
theorem takeFault {e} (h : s.MemForm) : (s.takeFault e).MemForm := by
  unfold State.takeFault
  dsimp only
  split
  exacts [h, reapCtx (updCur (raiseRecord h)),
    ite (endLaunch (raiseRecord h)) (ite (endLaunch (raiseRecord h)) (enterHandler (ite h (raiseRecord h))))]
theorem leaveHandler (h : s.MemForm) : s.leaveHandler.MemForm := updCur h

/-! ### Operands -/

theorem charge {m} (h : s.MemForm) : (s.charge m).MemForm := ite (updCur (keep h)) (updTile (setCore (updCur (keep h))))
theorem clearIssue (h : s.MemForm) : s.clearIssue.MemForm := updCur h
theorem endRecipe (h : s.MemForm) : s.endRecipe.MemForm := settle (updCur h)
theorem advance {len} (h : s.MemForm) : (s.advance len).MemForm := by
  unfold State.advance
  dsimp only
  split
  · exact ite (endRecipe h) (updCur h)
  · split <;> exact updCur h
theorem raise {e} (h : s.MemForm) : (s.raise e).MemForm :=
  ite (updCur (clearIssue h)) (takeFault (ite (settle (clearIssue h)) (clearIssue h)))
theorem endWith {kind detail} (h : s.MemForm) : (s.endWith kind detail).MemForm := endLaunch (raiseRecord h)
theorem endOver (h : s.MemForm) : s.endOver.MemForm := endWith h
theorem beforeFault (h : s.MemForm) : s.beforeFault.MemForm := updCur (abortOpen (keep (updCore h)))
theorem loopFault {detail} (h : s.MemForm) : (s.loopFault detail).MemForm := raise (updCur (beforeFault h))
theorem faultWord {kind detail} (h : s.MemForm) : (s.faultWord kind detail).MemForm := ite (loopFault h) (raise (beforeFault h))
theorem close {m} {e : Eff} (h : e.MemForm) : (e.close m).MemForm := by
  cases e with
  | done s => exact ite (settle (advance (updCur (clearIssue h)))) (advance (updCur (clearIssue h)))
  | goto s t => exact ite (settle (updCur (clearIssue h))) (updCur (clearIssue h))
  | loop s l => exact ite (settle (updCur (clearIssue h))) (updCur (clearIssue h))
  | event s e => exact raise (updCur h)
  | wait s p => exact keep h
  | ended s => exact h
theorem issueWith {m} {body : State → Eff} (h : s.MemForm) (hbody : ∀ t : State, t.MemForm → (body t).MemForm) :
    (s.issueWith m body).MemForm := by
  fun_cases State.issueWith
  exacts [faultWord h, endOver h, raise (ite (abortOpen (charge h)) (charge h)), close (hbody _ (ite (abortOpen (charge h)) (charge h)))]
theorem issue {m} {body : State → Eff} (h : s.MemForm) (hbody : ∀ t : State, t.MemForm → (body t).MemForm) : OutForm (issue m s body) :=
  OutForm.ite refused (next (issueWith h hbody))
theorem whenSettled {k : State → Eff} (h : s.MemForm) (hk : ∀ t : State, t.MemForm → (k t).MemForm) : (whenSettled s k).MemForm :=
  Eff.MemForm.ite (hk _ (settle h)) h
theorem lane2 {sm g cls d a b f} (h : s.MemForm) : OutForm (lane2 sm g cls d a b f s) := issue h fun _ hu => writeV hu
theorem lane3 {sm g cls d a b f} (h : s.MemForm) : OutForm (lane3 sm g cls d a b f s) := issue h fun _ hu => writeV hu
theorem lane1 {sm g cls d a f} (h : s.MemForm) : OutForm (lane1 sm g cls d a f s) := issue h fun _ hu => writeV hu
theorem laneImm {sm g d reads f} (h : s.MemForm) : OutForm (laneImm sm g d reads f s) := issue h fun _ hu => writeV hu
theorem float2 {sm g cls d a b f} (h : s.MemForm) : OutForm (float2 sm g cls d a b f s) := issue h fun _ hu => orFlags (writeV hu)
theorem float3 {sm g cls d a b f} (h : s.MemForm) : OutForm (float3 sm g cls d a b f s) := issue h fun _ hu => orFlags (writeV hu)
theorem float1 {sm g cls d a f} (h : s.MemForm) : OutForm (float1 sm g cls d a f s) := issue h fun _ hu => orFlags (writeV hu)
theorem slow2 {sm g cls d a b f} (h : s.MemForm) : OutForm (slow2 sm g cls d a b f s) := issue h fun _ hu => defer hu
theorem slow1 {sm g cls d a f} (h : s.MemForm) : OutForm (slow1 sm g cls d a f s) := issue h fun _ hu => defer hu
theorem compare2 {sm g d a b f} (h : s.MemForm) : OutForm (compare2 sm g d a b f s) := issue h fun _ hu => orFlags (writeP hu)
theorem pred2 {sm g d a b f} (h : s.MemForm) : OutForm (pred2 sm g d a b f s) := issue h fun _ hu => writeP hu
theorem uni2 {sm cls d a b f} (h : s.MemForm) : OutForm (uni2 sm cls d a b f s) := issue h fun _ hu => writeS hu
theorem uniSlow {sm cls d a b f} (h : s.MemForm) : OutForm (uniSlow sm cls d a b f s) := issue h fun _ hu => defer hu

/-! ### Fabric -/

theorem setBarSlot {obj p arrived bal} (h : s.MemForm) : (s.setBarSlot obj p arrived bal).MemForm := writeNum h
theorem startWaves {core cs why} (h : s.MemForm) : (s.startWaves core cs why).MemForm := updCore (foldl (fun _ _ ht => updCtx ht) h)
theorem barStep {obj} (h : s.MemForm) : OptForm (s.barStep obj) :=
  OptForm.ite (OptForm.some (startWaves (writeNum (setBarSlot h)))) OptForm.none
theorem barRun {obj} (h : s.MemForm) : (s.barRun obj).MemForm := iterate (fun _ _ ht => OptForm.getD (barStep ht) ht) h
theorem barDeliver {obj p n} (h : s.MemForm) : (s.barDeliver obj p n).MemForm := ite h (barRun (setBarSlot h))
theorem serveDelivery {core} (h : s.MemForm) : (s.serveDelivery core).MemForm := by
  unfold State.serveDelivery
  split
  exacts [h, barDeliver (keep h)]
theorem serveDeliveries {core} (h : s.MemForm) : (s.serveDeliveries core).MemForm := iterate (fun _ _ ht => serveDelivery ht) h
theorem l1Store {core cells} (h : s.MemForm) : (s.l1Store core cells).MemForm := ite h (setCore h)
theorem rmwAt {core l op w v cmp} (h : s.MemForm) : (s.rmwAt core l op w v cmp).2.MemForm := forwardWrites (l1Store (writeAll h))
theorem dropAt {src x l seq bytes va pc job extent} (h : s.MemForm) : (s.dropAt src x l seq bytes va pc job extent).MemForm :=
  ite (ite (keep h) (updPart (keep h))) (keep (ite (keep h) (updPart (keep h))))
theorem applyPacket {p} (h : s.MemForm) : (s.applyPacket p).MemForm := by
  unfold State.applyPacket
  split
  exacts [forwardWrites (clearPoison (l1Store (writeAll h))),
    ite (foldl (fun _ _ ht => ite ht (rmwAt ht)) h) (updCtx (foldl (fun _ _ ht => ite ht (rmwAt ht)) h)), keep (clearPoison (writeAll h))]
theorem sendAway {p dev} (h : s.MemForm) : OptForm (s.sendAway p dev) := by
  fun_cases State.sendAway
  · refine foldl_opt (fun o x ho => ?_) (.some h)
    split
    · exact .none
    · exact .map (fun _ ht => noteAsk (dropCopies ht)) (sendOrdering (ho _ rfl))
  · exact .map (fun _ ht => noteAsk (dropCopies ht)) (sendOrdering h)
theorem deliver {p} (h : s.MemForm) : (s.deliver p).MemForm := by
  refine ite h (ite ?_ (ite (applyPacket (keep h)) (dropAt (keep h))))
  split
  · exact applyPacket (keep h)
  · split
    exacts [sendAway (keep h) _ ‹_›, h]
  · exact dropAt (keep h)
theorem flush {f} (h : s.MemForm) : (s.flush f).MemForm := foldl (fun _ _ ht => deliver ht) h
theorem whenPerformed {n} {k : State → Eff} (h : s.MemForm) (hk : ∀ t : State, t.MemForm → (k t).MemForm) : (whenPerformed s n k).MemForm :=
  Eff.MemForm.ite (flush h) (hk _ (flush h))
theorem whenFenced {scope} {k : State → Eff} (h : s.MemForm) (hk : ∀ t : State, t.MemForm → (k t).MemForm) : (whenFenced s scope k).MemForm :=
  whenPerformed h fun _ hu => Eff.MemForm.ite hu (hk _ hu)
theorem inject {op writes va bytes release via} (h : s.MemForm) : (s.inject op writes va bytes release via).MemForm := keep (updLaunch h)
theorem readRequest (h : s.MemForm) : s.readRequest.2.MemForm := updLaunch h

/-! ### Regs -/

theorem sysReadEffect {n} (h : s.MemForm) : (s.sysReadEffect n).MemForm := by
  unfold State.sysReadEffect
  split
  exacts [updCore h, updPart h, h]
theorem sysWrite {n v} (h : s.MemForm) : (s.sysWrite n v).MemForm := by
  unfold State.sysWrite
  dsimp only
  split
  exacts [updCur h, updCur h, updPart h, updCur h, updPart h, updPart h, updPart h, updPart h, updPart h, updPart h, updPart h, updPart h,
    updPart h, updPart h, updPart h, updPart h, keep h, h]
theorem mmioRead {tag smode off n} (h : s.MemForm) : (s.mmioRead tag smode off n).2.MemForm := by
  fun_cases State.mmioRead
  exacts [h, ite (updPart h) h]
theorem mmioWrite {tag smode off bs} (h : s.MemForm) : (s.mmioWrite tag smode off bs).MemForm := by
  refine ite h ?_
  dsimp only
  split
  exacts [updPart h, updPart h, h]

/-! ### Access -/

theorem withLanes {acc n addrs} {k : State → List LaneOk → Eff} (h : s.MemForm) (hk : ∀ (t : State) x1, t.MemForm → (k t x1).MemForm) :
    (s.withLanes acc n addrs k).MemForm :=
  Eff.MemForm.ite h (Eff.MemForm.ite (hk _ _ (ite (updCur (cachePages h)) (cachePages h))) h)
theorem sendAsk {dev l a} (h : s.MemForm) : OptForm (s.sendAsk dev l a) := by
  unfold State.sendAsk
  dsimp only
  split
  exacts [OptForm.map (fun _ ht => noteAsk ht) (sendFlit h), OptForm.map (fun _ ht => noteAsk (dropCopies ht)) (sendOrdering h),
    OptForm.map (fun _ ht => noteAsk (dropCopies ht)) (sendOrdering h), OptForm.map (fun _ ht => noteAsk (dropCopies ht)) (sendOrdering h)]
theorem askRound {away a} (h : s.MemForm) : (s.askRound away a).MemForm := foldl (fun _ _ ht => ite ht (OptForm.getD (sendAsk ht) ht)) h
theorem askAll {write ls a} {k : State → Eff} (h : s.MemForm) (hk : ∀ t : State, t.MemForm → (k t).MemForm) : (s.askAll write ls a k).MemForm :=
  Eff.MemForm.ite (hk _ h) (Eff.MemForm.ite (Eff.MemForm.ite h (Eff.MemForm.ite (askRound (updCur h)) (hk _ h)))
    (Eff.MemForm.ite (askRound (updCur h)) (askRound h)))
theorem fillL1 {ls} (h : s.MemForm) : (s.fillL1 ls).MemForm := updCore h
theorem dropLines {lines} (h : s.MemForm) : (s.dropLines lines).MemForm := ite h (updCore h)
theorem requestReads {x ls n} (h : s.MemForm) : (s.requestReads x ls n).MemForm := by
  refine foldl (fun _ _ ht => ?_) h
  split
  exacts [ht, ite (readRequest ht) (dropAt (readRequest ht))]
theorem laneBytes {l1 n l} (h : s.MemForm) : (s.laneBytes l1 n l).2.MemForm := by
  fun_cases State.laneBytes
  exacts [mmioRead h, h, h, h, h]
theorem readLanes {l1 n ls} {k : State → List (Nat × List Byte) → Eff} (h : s.MemForm)
    (hk : ∀ (t : State) x1, t.MemForm → (k t x1).MemForm) : (s.readLanes l1 n ls k).MemForm := by
  refine askAll h fun _ hu => Eff.MemForm.ite (flush hu) (Eff.MemForm.ite (flush hu) (Eff.MemForm.ite (flush hu) (hk _ _ ?_)))
  exact foldl_fst (fun _ _ ht => laneBytes ht) (requestReads (ite (fillL1 (flush hu)) (dropLines (flush hu))))
theorem postStores {op release ws} (h : s.MemForm) : (s.postStores op release ws).MemForm := by
  refine foldl (fun _ _ ht => ?_) (foldl (fun _ _ ht => ite (mmioWrite ht) ht) h)
  split
  exacts [ht, inject ht]
theorem whenReleased {release ls} {k : State → Eff} (h : s.MemForm) (hk : ∀ t : State, t.MemForm → (k t).MemForm) :
    (s.whenReleased release ls k).MemForm :=
  Eff.MemForm.ite (whenPerformed h hk) (hk _ h)
theorem storeLanes {op release ws} {k : State → Eff} (h : s.MemForm) (hk : ∀ t : State, t.MemForm → (k t).MemForm) :
    (s.storeLanes op release ws k).MemForm :=
  whenReleased h fun _ hu => askAll hu fun _ hu => hk _ (postStores hu)
theorem reduceLanes {fn release ws} {k : State → Eff} (h : s.MemForm) (hk : ∀ t : State, t.MemForm → (k t).MemForm) :
    (s.reduceLanes fn release ws k).MemForm := by
  unfold State.reduceLanes
  refine whenReleased h fun _ hu => askAll hu fun _ hu => hk _ (foldl (fun _ g ht => ?_) hu)
  cases g with
  | nil => exact ht
  | cons x g => exact inject ht
theorem whenOrdered {all ls n} {k : State → Eff} (h : s.MemForm) (hk : ∀ t : State, t.MemForm → (k t).MemForm) :
    (s.whenOrdered all ls n k).MemForm :=
  Eff.MemForm.ite (flush h) (hk _ (flush h))
theorem requestWrites {ls w} (h : s.MemForm) : (s.requestWrites ls w).MemForm := by
  refine foldl (fun _ _ ht => ?_) h
  split
  exacts [ht, ite (updLaunch ht) (dropAt (updLaunch ht))]
theorem atomicLanes {op w ls} {k : State → List (Nat × List Byte) → List LaneOk → Eff} (h : s.MemForm)
    (hk : ∀ (t : State) x1 x2, t.MemForm → (k t x1 x2).MemForm) : (s.atomicLanes op w ls k).MemForm := by
  unfold State.atomicLanes
  refine askAll h fun _ hu => Eff.MemForm.ite hu (hk _ _ _ (foldl_fst (fun a x ht => ?_) (requestWrites hu)))
  dsimp only
  split
  · split <;> exact ht
  · split
    exacts [rmwAt ht, ht]
theorem acquire {sc} (h : s.MemForm) : (s.acquire sc).MemForm := ite h (updCore h)
theorem fenceAfter {sc scope} (h : s.MemForm) : (s.fenceAfter sc scope).MemForm := ite (updCur h) h

/-! ### Fetch -/

theorem cleanSlot {c} (h : s.MemForm) : (s.cleanSlot c).MemForm := keep h
theorem writeSlot {r hdr resume lp deadline entry s1 s2} (h : s.MemForm) : (s.writeSlot r hdr resume lp deadline entry s1 s2).MemForm := by
  unfold State.writeSlot
  exact updCur (cleanSlot (writeBytes h))
theorem closeOpen (h : s.MemForm) : s.closeOpen.MemForm := ite h (updCur h)
theorem closeMx (h : s.MemForm) : s.closeMx.MemForm := ite h (keep h)

/-! ### Tx -/

theorem txReadWord {i x w} (h : s.MemForm) : TxForm (s.txReadWord i x w) := by
  fun_cases State.txReadWord
  exacts [h, h, trivial, trivial, trivial, trivial, trivial, updCur (dropLines (ite (keep h) h))]
theorem txReadWords {i x} : ∀ {l} {s : State}, s.MemForm → TxForm (s.txReadWords i x l)
  | [], s, h => h
  | w :: l, s, h => by
    unfold State.txReadWords
    split
    · trivial
    · trivial
    · have hr := txReadWords (i := i) (x := x) (l := l) (TxForm.get (txReadWord h) ‹_›)
      split
      exacts [trivial, trivial, (TxForm.get hr ‹_› : State.MemForm _)]
theorem txWriteWord {i x w v} (h : s.MemForm) : (s.txWriteWord i x w v).MemForm := by
  fun_cases State.txWriteWord
  exacts [updCur h, trivial, updCur h]
theorem txWriteWords {i x} : ∀ {l} {s : State}, s.MemForm → (s.txWriteWords i x l).MemForm
  | [], s, h => h
  | w :: l, s, h => by
    unfold State.txWriteWords
    split
    exacts [txWriteWords (TxRes.MemForm.get (txWriteWord h) ‹_›), txWriteWord h]
theorem txAbort {i cause fkind va} (h : s.MemForm) : (s.txAbort i cause fkind va).MemForm :=
  ite (updCur (releaseToken (updCur h))) (updCur h)
theorem txLoadLane {n i va} (h : s.MemForm) : TxForm (s.txLoadLane n i va) := by
  fun_cases State.txLoadLane
  exacts [txAbort h, trivial, txAbort h, trivial, (TxForm.get (txReadWords h) ‹_› : State.MemForm _)]
theorem txLoads {n} : ∀ {l} {s : State}, s.MemForm → TxForm (s.txLoads n l)
  | [], s, h => h
  | a :: l, s, h => by
    unfold State.txLoads
    split
    · trivial
    · trivial
    · have hr := txLoads (n := n) (l := l) (TxForm.get (txLoadLane h) ‹_›)
      split
      exacts [trivial, trivial, (TxForm.get hr ‹_› : State.MemForm _)]
theorem txStores {n ws} (h : s.MemForm) : (s.txStores n ws).MemForm := by
  refine foldl (fun _ _ ht => ?_) h
  split
  · exact txAbort ht
  · exact ht
  · dsimp only
    split
    exacts [TxRes.MemForm.get (txWriteWords ht) ‹_›, txAbort ht, ht]
theorem outsideCheck {acc n addrs} {k : State → List LaneOk → Eff} (h : s.MemForm) (hk : ∀ (t : State) x1, t.MemForm → (k t x1).MemForm) :
    (s.outsideCheck acc n addrs k).MemForm :=
  withLanes (ite (abortOpen h) h) hk
theorem endTx (h : s.MemForm) : s.endTx.MemForm := updCur (ite (releaseToken h) h)
theorem openLanes {d x token} (h : s.MemForm) : (s.openLanes d x token).MemForm := writeP (updCur h)
theorem txSlot {r} (h : s.MemForm) : (s.txSlot r).MemForm := writeSlot h
theorem execTxbegin {sm d} (h : s.MemForm) : OutForm (execTxbegin sm d s) := by
  refine issue h fun _ hu => Eff.MemForm.ite (ite (endTx hu) hu)
      (Eff.MemForm.ite (ite (ite (endTx hu) hu) (updPart (ite (endTx hu) hu)))
      (Eff.MemForm.ite (openLanes (txSlot (ite (endTx hu) hu))) ?_))
  split
  exacts [ite (endTx hu) hu, ite (endTx hu) hu, Eff.MemForm.ite (openLanes (txSlot (ite (endTx hu) hu))) (ite (endTx hu) hu)]
theorem finishTx {d} (h : s.MemForm) : (s.finishTx d).MemForm := defer (acquire (endTx (updCur (keep h))))
theorem execTxend {sm d} (h : s.MemForm) : OutForm (execTxend sm d s) :=
  issue h fun _ hu => Eff.MemForm.ite (Eff.MemForm.ite (finishTx hu) hu)
    (whenPerformed hu fun _ hu => Eff.MemForm.ite (finishTx (keep hu)) (updCur (keep hu)))
theorem execTxabort {sm} (h : s.MemForm) : OutForm (execTxabort sm s) := issue h fun _ hu => abortOpen hu
theorem execTxstat {sm d} (h : s.MemForm) : OutForm (execTxstat sm d s) := issue h fun _ hu => defer hu
theorem execTxstatAddr {sm d} (h : s.MemForm) : OutForm (execTxstatAddr sm d s) := issue h fun _ hu => defer hu

/-! ### Atomics -/

theorem atomMO {op w regs pcie sm o d a b c} (h : s.MemForm) : OutForm (atomMO op w regs pcie sm o d a b c s) :=
  issue h fun _ hu => withLanes hu fun _ _ hu => whenOrdered hu fun _ hu => Eff.MemForm.ite hu
    (atomicLanes hu fun _ _ _ hu => Eff.MemForm.ite (fenceAfter (ite (acquire (ite hu (defer hu))) (ite hu (defer hu))))
    (fenceAfter (ite (acquire (ite hu (defer hu))) (ite hu (defer hu)))))
theorem redMO {fn pcie sm o d a b c} (h : s.MemForm) : OutForm (redMO fn pcie sm o d a b c s) := by
  unfold Machine.redMO
  refine issue h fun _ hu => withLanes hu fun t oks hu => ?_
  extract_lets go
  have hgo u (hu : u.MemForm) : (go u).MemForm :=
    Eff.MemForm.ite hu (reduceLanes hu fun _ hu => Eff.MemForm.ite (fenceAfter (ite (flush hu) hu)) (fenceAfter (ite (flush hu) hu)))
  exact Eff.MemForm.ite (whenFenced hu hgo) (hgo _ hu)
theorem atomUO {op pcie sm o d a c} (h : s.MemForm) : OutForm (atomUO op pcie sm o d a c s) := by
  refine issue h fun _ hu => withLanes hu fun _ _ hu => whenOrdered hu fun _ hu => Eff.MemForm.ite hu
      (atomicLanes hu fun _ _ _ hu => Eff.MemForm.ite (fenceAfter (ite (acquire ?_) ?_)) (fenceAfter (ite (acquire ?_) ?_)))
  · split
    exacts [defer hu, hu]
  · split
    exacts [defer hu, hu]
  · split
    exacts [defer hu, hu]
  · split
    exacts [defer hu, hu]
theorem execFence {sm o c} (h : s.MemForm) : OutForm (execFence sm o c s) :=
  issue h fun _ hu => Eff.MemForm.ite (whenFenced hu fun _ hu => ite (acquire (ite (updCur hu) hu)) (ite (updCur hu) hu))
    (ite (acquire (ite (updCur hu) hu)) (ite (updCur hu) hu))
theorem execFenceAsync {sm} (h : s.MemForm) : OutForm (execFenceAsync sm s) := issue h fun _ hu => updCur hu

/-! ### Sched -/

theorem switchTo {id} (h : s.MemForm) : (s.switchTo id).MemForm := by
  refine ite h ?_
  split
  exacts [h, keep h]
theorem fetchFault {f} (h : s.MemForm) : (s.fetchFault f).MemForm := raise (updCur (keep h))
theorem loadListed {r} (h : s.MemForm) : (s.loadListed r).MemForm := keep h
theorem startRecipe (h : s.MemForm) : s.startRecipe.MemForm := by
  unfold State.startRecipe
  dsimp only
  split
  exacts [fetchFault h, ite (raise (updCur h)) (raise h), ite (endWith h) (ite (endRecipe (updCur (loadListed h))) (updCur (loadListed h)))]
theorem holdBack (h : s.MemForm) : s.holdBack.MemForm := by
  unfold State.holdBack
  split
  exacts [raise (updCur h), keep h]

/-! ### Spad -/

theorem withLeader {g} {k : Nat → Eff} (h : s.MemForm) (hk : ∀ x0, (k x0).MemForm) : (s.withLeader g k).MemForm := by
  unfold State.withLeader
  split
  exacts [h, hk _]
theorem deferS {d v} (h : s.MemForm) : (s.deferS d v).MemForm := defer h
theorem deferP {d b} (h : s.MemForm) : (s.deferP d b).MemForm := defer h
theorem attr {lane} {e : Eff} (h : e.MemForm) : (e.attr lane).MemForm := by cases e <;> exact h
theorem bulkLoad {al lane a n} {k : State → List Byte → Eff} (h : s.MemForm) (hk : ∀ (t : State) x1, t.MemForm → (k t x1).MemForm) :
    (s.bulkLoad al lane a n k).MemForm := by
  fun_cases State.bulkLoad
  exacts [h, h, attr (readLanes (cachePages h) fun _ _ hu => hk _ _ hu)]
theorem bulkStore {lane a bs} {k : State → Eff} (h : s.MemForm) (hk : ∀ t : State, t.MemForm → (k t).MemForm) :
    (s.bulkStore lane a bs k).MemForm := by
  fun_cases State.bulkStore
  exacts [h, attr (storeLanes (cachePages h) fun _ hu => hk _ (ite (flush hu) hu))]
theorem atBarrier {acc lane a} {zero : State → State} {k : State → Loc → Eff} (h : s.MemForm)
    (hzero : ∀ t : State, t.MemForm → (zero t).MemForm) (hk : ∀ (t : State) x1, t.MemForm → (k t x1).MemForm) :
    (s.atBarrier acc lane a zero k).MemForm := by
  unfold State.atBarrier
  split
  exacts [h, whenPerformed h fun _ hu => Eff.MemForm.ite (hk _ _ (serveDeliveries hu))
    (Eff.MemForm.ite (hk _ _ (serveDeliveries (readRequest (cachePages hu)))) (hzero _ (dropAt (readRequest (cachePages hu)))))]
theorem wake {id why} (h : s.MemForm) : (s.wake id why).MemForm := ite (keep (updCtx h)) (updCtx h)
theorem wakeLate {obj} (h : s.MemForm) : (s.wakeLate obj).MemForm := ite h (startWaves h)
theorem barCount {obj p add bytes expect} (h : s.MemForm) : (s.barCount obj p add bytes expect).1.MemForm := barRun (setBarSlot h)
theorem qHead {b q} (h : s.MemForm) : (s.qHead b q).MemForm := writeNum h
theorem qTail {b q} (h : s.MemForm) : (s.qTail b q).MemForm := writeNum h

/-! ### Control -/

theorem branchIf {sm seq ss o} {cond : State → Bool} (h : s.MemForm) : OutForm (branchIf sm seq ss o cond s) :=
  issue h fun _ hu => Eff.MemForm.ite hu hu
theorem execCall {sm o} (h : s.MemForm) : OutForm (execCall sm o s) := issue h fun _ hu => writeS hu
theorem jump {target link} (h : s.MemForm) : (s.jump target link).MemForm := by
  refine Eff.MemForm.ite h ?_
  split
  exacts [writeS h, h]
theorem execJr {sm d a} (h : s.MemForm) : OutForm (execJr sm d a s) := issue h fun _ hu => jump hu
theorem execRet {sm} (h : s.MemForm) : OutForm (execRet sm s) := issue h fun _ hu => jump hu
theorem execExit {sm} (h : s.MemForm) : OutForm (execExit sm s) :=
  issue h fun _ hu => whenSettled hu fun _ hu => Eff.MemForm.ite (endCtx (updCur (abortOpen (closeMx (closeOpen hu))))) hu
theorem execTrap {sm c} (h : s.MemForm) : OutForm (execTrap sm c s) := issue h fun _ hu => hu
theorem execNop {sm} (h : s.MemForm) : OutForm (execNop sm s) := issue h fun _ hu => hu
theorem execHint {sm x} (h : s.MemForm) : OutForm (execHint sm x s) := issue h fun _ hu => hu
theorem execLpx {sm n} (h : s.MemForm) : OutForm (execLpx sm n s) := by
  refine issue h fun _ hu => ?_
  split
  exacts [hu, Eff.MemForm.ite hu hu]
theorem execLpb {sm c len steps} (h : s.MemForm) : OutForm (execLpb sm c len steps s) := by
  refine issue h fun _ hu => ?_
  split
  exacts [hu, Eff.MemForm.ite hu hu]
theorem restoreSlot (h : s.MemForm) : s.restoreSlot.MemForm := updCur (keep h)
theorem runSlot (h : s.MemForm) : s.runSlot.MemForm := by fun_cases State.runSlot <;> exact updCur h
theorem rebind {p t} (h : s.MemForm) : (s.rebind p t).MemForm := by
  unfold State.rebind
  exact runSlot (restoreSlot (writeSlot (updCur h)))
theorem execYield {sm l r} (h : s.MemForm) : OutForm (execYield sm l r s) := by
  unfold Machine.execYield
  refine issue h fun t ht => whenSettled ht fun t ht => ?_
  extract_lets hdr next dl write
  have hwrite rc : (write rc).MemForm := by
    unfold write
    extract_lets u
    have hu : u.MemForm := updCur (writeSlot ht)
    clear_value u
    split
    · exact hu
    · split
      exacts [hu, rebind (clearIssue hu)]
  clear_value write
  split
  · exact hwrite _
  · split
    exacts [ht, ht, Eff.MemForm.ite (hwrite _) ht]

/-! ### Sync -/

theorem execBarInit {sm g p a b} (h : s.MemForm) : OutForm (execBarInit sm g p a b s) :=
  issue h fun _ hu => withLeader hu fun _ => atBarrier hu (fun _ hu => deferP hu) fun _ _ hu => deferP
    (wakeLate (barRun (ite (writeNum hu) (writeNum (writeNum hu)))))
theorem barArrival {o lane va d p add bytes expect} (h : s.MemForm) : (s.barArrival o lane va d p add bytes expect).MemForm := by
  unfold State.barArrival
  dsimp only
  split
  exacts [h, deferS h, deferS (barCount h)]
theorem execBarArrive {sm g d a b} (h : s.MemForm) : OutForm (execBarArrive sm g d a b s) :=
  issue h fun _ hu => withLeader hu fun _ => atBarrier hu (fun _ hu => deferS hu) fun _ _ hu => barArrival hu
theorem execBarExpect {sm g d a b} (h : s.MemForm) : OutForm (execBarExpect sm g d a b s) :=
  issue h fun _ hu => withLeader hu fun _ => atBarrier hu (fun _ hu => deferS hu) fun _ _ hu => barArrival hu
theorem execBarWait {sm g d a b} (h : s.MemForm) : OutForm (execBarWait sm g d a b s) := by
  refine issue h fun t ht => withLeader ht fun i => ?_
  split
  · exact deferS ht
  · exact deferS (acquire ht)
  · refine atBarrier ht (fun _ hu => deferS hu) fun _ _ hu => ?_
    dsimp only
    split
    exacts [deferS (acquire hu), hu, hu]
theorem execBarTwait {sm g p a b} (h : s.MemForm) : OutForm (execBarTwait sm g p a b s) := by
  refine issue h fun t ht => withLeader ht fun i => ?_
  split
  · exact deferP ht
  · exact deferP (acquire ht)
  · exact deferP ht
  · refine atBarrier ht (fun _ hu => deferP hu) fun _ _ hu => ?_
    dsimp only
    split
    exacts [deferP (acquire hu), hu, Eff.MemForm.ite (deferP hu) hu]
theorem execBarInval {sm g d a} (h : s.MemForm) : OutForm (execBarInval sm g d a s) :=
  issue h fun _ hu => withLeader hu fun _ => atBarrier hu (fun _ hu => deferS hu) fun _ _ hu => deferS
    (foldl (fun _ _ ht => wake ht) (writeNum (writeNum hu)))
theorem execQbind {sm g q a} (h : s.MemForm) : OutForm (execQbind sm g q a s) := by
  refine issue h fun t ht => withLeader ht fun i => ?_
  dsimp only
  split
  · exact ht
  · exact whenPerformed ht fun _ hu => Eff.MemForm.ite (updBlock hu)
      (Eff.MemForm.ite (updBlock (readRequest (cachePages hu))) (updBlock (dropAt (readRequest (cachePages hu)))))
theorem atWord {x d} {k : State → QBind → QWord → Eff} (h : s.MemForm) (hk : ∀ (t : State) x1 x2, t.MemForm → (k t x1 x2).MemForm) :
    (s.atWord x d k).MemForm :=
  Eff.MemForm.ite (deferS h) (hk _ _ _ h)
theorem atQueue {q d} {k : State → QBind → QWord → Eff} (h : s.MemForm) (hk : ∀ (t : State) x1 x2, t.MemForm → (k t x1 x2).MemForm) :
    (s.atQueue q d k).MemForm := by
  unfold State.atQueue
  split
  exacts [deferS h, whenPerformed h fun _ hu => Eff.MemForm.ite (atWord hu hk)
    (Eff.MemForm.ite (atWord (readRequest hu) hk) (deferS (dropAt (readRequest hu))))]
theorem execQpush {sm g d q b} (h : s.MemForm) : OutForm (execQpush sm g d q b s) :=
  issue h fun _ hu => withLeader hu fun _ => atQueue hu fun _ _ _ hu => Eff.MemForm.ite hu
    (bulkLoad hu fun _ _ hu => deferS (qTail (writeBytes hu)))
theorem qTake {i d b x w} (h : s.MemForm) : (s.qTake i d b x w).MemForm := bulkStore (acquire h) fun _ hu => deferS (qHead hu)
theorem execQpop {sm g d q b} (h : s.MemForm) : OutForm (execQpop sm g d q b s) :=
  issue h fun _ hu => withLeader hu fun _ => atQueue hu fun _ _ _ hu => Eff.MemForm.ite hu (qTake hu)
theorem execQtry {sm g d q b} (h : s.MemForm) : OutForm (execQtry sm g d q b s) :=
  issue h fun _ hu => withLeader hu fun _ => atQueue hu fun _ _ _ hu => Eff.MemForm.ite (deferS hu) (qTake hu)
theorem storeCounted {n sm g d a b} (h : s.MemForm) : OutForm (storeCounted n sm g d a b s) :=
  issue h fun _ hu => withLanes hu fun _ _ hu => storeLanes hu fun _ hu => hu
theorem execBclose {sm d} (h : s.MemForm) : OutForm (execBclose sm d s) := issue h fun _ hu => writeS (closeOpen hu)
theorem execBwait {sm d a} (h : s.MemForm) : OutForm (execBwait sm d a s) := issue h fun _ hu => Eff.MemForm.ite hu (deferS (acquire hu))
theorem execBtest {sm d a} (h : s.MemForm) : OutForm (execBtest sm d a s) :=
  issue h fun _ hu => Eff.MemForm.ite (deferS hu) (deferS (acquire hu))
theorem cardFlag {i a b} {k : State → Option Loc → Nat → Eff} (h : s.MemForm) (hk : ∀ (t : State) x1 x2, t.MemForm → (k t x1 x2).MemForm) :
    (s.cardFlag i a b k).MemForm :=
  bulkLoad h fun _ _ hu => Eff.MemForm.ite (hk _ _ _ hu) (bulkLoad hu fun _ _ hu => hk _ _ _ hu)
theorem flagAnswer {d v} (h : s.MemForm) : (s.flagAnswer d v).MemForm := deferS (ite (acquire h) h)
theorem execCwait {sm g d a b} (h : s.MemForm) : OutForm (execCwait sm g d a b s) := by
  refine issue h fun _ hu => withLeader hu fun _ => cardFlag hu fun _ _ _ hu => ?_
  split
  exacts [Eff.MemForm.ite hu (flagAnswer hu), flagAnswer hu]
theorem execCtest {sm g d a b} (h : s.MemForm) : OutForm (execCtest sm g d a b s) :=
  issue h fun _ hu => withLeader hu fun _ => cardFlag hu fun _ _ _ hu => flagAnswer hu

/-! ### Matrix -/

theorem matrixOp {kind sm a b span} (h : s.MemForm) : OutForm (matrixOp kind sm a b span s) :=
  issue h fun _ hu => Eff.MemForm.ite hu (keep hu)
theorem execMxfence {sm d} (h : s.MemForm) : OutForm (execMxfence sm d s) := issue h fun _ hu => deferS (closeMx hu)
theorem execMxwait {sm d a} (h : s.MemForm) : OutForm (execMxwait sm d a s) :=
  issue h fun _ hu => Eff.MemForm.ite (deferS hu) (Eff.MemForm.ite (deferS (acquire hu)) hu)
theorem execMxtest {sm d a} (h : s.MemForm) : OutForm (execMxtest sm d a s) :=
  issue h fun _ hu => Eff.MemForm.ite (deferS hu) (deferS (acquire hu))
theorem execMxsplit {sm d a b} (h : s.MemForm) : OutForm (execMxsplit sm d a b s) :=
  issue h fun _ hu => Eff.MemForm.ite (Eff.MemForm.ite hu (Eff.MemForm.ite hu (deferS (updLaunch (keep (updCore hu))))))
    (Eff.MemForm.ite (Eff.MemForm.ite hu (deferS (updCore hu))) (deferS hu))
theorem sliceRead {g d t bad f} (h : s.MemForm) : (s.sliceRead g d t bad f).MemForm := Eff.MemForm.ite h (defer h)
theorem execVraccRow {sm g d x t i} (h : s.MemForm) : OutForm (execVraccRow sm g d x t i s) := issue h fun _ hu => sliceRead hu
theorem execVraccCol {sm g d x t i} (h : s.MemForm) : OutForm (execVraccCol sm g d x t i s) := issue h fun _ hu => sliceRead hu
theorem execVwaccRow {sm g d x t i} (h : s.MemForm) : OutForm (execVwaccRow sm g d x t i s) := issue h fun _ hu => keep (cleanAcc hu)
theorem execVwaccCol {sm g d x t i} (h : s.MemForm) : OutForm (execVwaccCol sm g d x t i s) :=
  issue h fun _ hu => keep (ite hu (foldl (fun _ _ ht => cleanAcc ht) hu))

/-! ### EvCore -/

theorem onCtx {id} {f : State → State} (h : s.MemForm) (hf : ∀ t : State, t.MemForm → (f t).MemForm) : (s.onCtx id f).MemForm :=
  switchTo (hf _ (switchTo h))
theorem execDeferredResultWrite (h : s.MemForm) : OutForm (execDeferredResultWrite s) := by
  refine next ?_
  split
  exacts [h, updCtx (landWhere h)]
theorem groupWake {id} (h : s.MemForm) : (s.groupWake id).MemForm := by
  unfold State.groupWake
  split
  · exact h
  · split
    · exact h
    · dsimp only
      split
      exacts [wake h, onCtx (wake h) fun _ hu => takeFault (updCur hu)]
theorem execGroupWake (h : s.MemForm) : OutForm (execGroupWake s) := next (groupWake h)
theorem execYieldover (h : s.MemForm) : OutForm (execYieldover s) := by
  refine next ?_
  split
  exacts [h, ite (keep h) h]
theorem tickResults {id} (h : s.MemForm) : (s.tickResults id).MemForm := by
  unfold State.tickResults
  split
  exacts [h, updCtx (landWhere h)]
theorem waveWake {core} (h : s.MemForm) : (s.waveWake core).MemForm := by
  refine foldl (fun _ _ ht => ?_) (setCore h)
  split
  exacts [ite (wake ht) ht, ht]
theorem twaitTimeout {id} (h : s.MemForm) : (s.twaitTimeout id).MemForm := by
  unfold State.twaitTimeout
  split
  · exact h
  · split
    exacts [ite (wake h) h, h]
theorem promptWakes {core} (h : s.MemForm) : (s.promptWakes core).MemForm :=
  foldl (fun _ _ ht => twaitTimeout (groupWake ht)) (ite h (waveWake h))
theorem execClockDriveStep (h : s.MemForm) : OutForm (execClockDriveStep s) :=
  next (promptWakes (foldl (fun _ _ ht => tickResults ht) (foldl (fun _ _ ht => updCtx ht) (setCore h))))
theorem execBarrierWaveWake (h : s.MemForm) : OutForm (execBarrierWaveWake s) := next (waveWake h)
theorem execBarTwaitTimeout (h : s.MemForm) : OutForm (execBarTwaitTimeout s) := next (twaitTimeout h)
theorem execQueueWaiterServe (h : s.MemForm) : OutForm (execQueueWaiterServe s) := by
  refine next (ite h ?_)
  split
  exacts [h, wake h]
theorem execTlbinvComplete (h : s.MemForm) : OutForm (execTlbinvComplete s) := by
  refine next ?_
  split
  exacts [h, updCtx (updPart (keep h))]
theorem execWalkerServe (h : s.MemForm) : OutForm (execWalkerServe s) := by
  refine next ?_
  split
  · split
    exacts [ite h (keep (updFld h)), h]
  · refine updFld ?_
    split
    exacts [ite h (keep (updFld h)), h]
theorem execWalkComplete (h : s.MemForm) : OutForm (execWalkComplete s) := by
  refine next ?_
  split
  · exact h
  · refine ite h ?_
    dsimp only
    split
    exacts [updFld (keep h), keep (cachePages (atCore (updFld (keep h))))]
theorem execTokenGrant (h : s.MemForm) : OutForm (execTokenGrant s) := by
  refine next ?_
  split
  exacts [wake (updPart h), h]
theorem dropAsks {id} (h : s.MemForm) : (s.dropAsks id).MemForm := keep h
theorem withdraw {id} (h : s.MemForm) : (s.withdraw id).MemForm := by
  unfold State.withdraw
  split
  exacts [h, ite h (updCtx (keep (dropAsks h)))]
theorem requestPreempt {b} (h : s.MemForm) : (s.requestPreempt b).MemForm :=
  updCore (updCtxs (foldl (fun _ _ ht => ite ht (withdraw ht)) h))
theorem stopGroup {id} (h : s.MemForm) : (s.stopGroup id).MemForm := keep (updCtx (dropAsks (releaseToken h)))
theorem settleBlock {b} (h : s.MemForm) : (s.settleBlock b).MemForm := ite (updCtxs (updBlock h)) h
theorem execGroupStop (h : s.MemForm) : OutForm (execGroupStop s) := by
  refine next ?_
  split
  exacts [h, ite (settleBlock (stopGroup h)) h]
theorem execGroupResume (h : s.MemForm) : OutForm (execGroupResume s) := by
  refine next ?_
  split
  exacts [h, ite h (ite (updCtx h) (onCtx (updCtx h) fun _ hu => ite (endWith hu) (runSlot (restoreSlot hu))))]

/-! ### Submit -/

theorem submit {kind d f} (h : s.MemForm) : (s.submit kind d f).MemForm := keep h
theorem submission {m} {k : State → Nat → Eff} (h : s.MemForm) (hk : ∀ (t : State) x1, t.MemForm → (k t x1).MemForm) :
    OutForm (submission m s k) :=
  issue h fun _ hu => withLeader hu fun _ => Eff.MemForm.ite hu (hk _ _ hu)
theorem submitWords {kind span sm g d a b} (h : s.MemForm) : OutForm (submitWords kind span sm g d a b s) :=
  submission h fun _ _ hu => submit hu
theorem execCpc {sm g d a b} (h : s.MemForm) : OutForm (execCpc sm g d a b s) := by
  refine submission h fun _ _ hu => Eff.MemForm.ite hu (bulkLoad hu fun _ _ hu => ?_)
  dsimp only
  split
  exacts [hu, Eff.MemForm.ite hu (submit (ite (updPart hu) hu))]
theorem execSpawn {sm g d a b} (h : s.MemForm) : OutForm (execSpawn sm g d a b s) := submission h fun _ _ hu => submit hu
theorem execColl {sm g d a} (h : s.MemForm) : OutForm (execColl sm g d a s) :=
  submission h fun _ _ hu => bulkLoad hu fun _ _ hu => bulkStore hu fun _ hu => submit hu
theorem execQz {sm g d a} (h : s.MemForm) : OutForm (execQz sm g d a s) :=
  submission h fun _ _ hu => Eff.MemForm.ite hu (updTile (submit hu))

/-! ### Engine -/

theorem updJob {id f} (h : s.MemForm) : (s.updJob id f).MemForm := keep h
theorem sendChunk {dev a who probe g} (h : s.MemForm) : (s.sendChunk dev a who probe g).MemForm := by
  unfold State.sendChunk
  split
  · exact h
  · dsimp only
    split
    · exact h
    · split
      exacts [noteAsk (dropCopies (updPeer (sendFlit h _ ‹_›))), dropCopies (updPeer (sendFlit h _ ‹_›))]
theorem sendLines {a who probe cells} (h : s.MemForm) : (s.sendLines a who probe cells).MemForm := by
  refine foldl (fun _ _ ht => ?_) h
  split
  · exact ht
  · split
    exacts [sendChunk ht, ht]
theorem engWrite {a who cells} (h : s.MemForm) : (s.engWrite a who cells).MemForm := sendLines (forwardWrites (clearPoison (writeAll h)))
theorem engPackets {a x job ext seq as} (h : s.MemForm) : (s.engPackets a x job ext seq as).1.MemForm := by
  refine foldl_fst (fun _ _ ht => ?_) h
  split
  exacts [ht, ite ht (dropAt ht)]
theorem jobPackets {j x as} (h : s.MemForm) : (s.jobPackets j x as).MemForm := updJob (engPackets h)
theorem writeStatus {j w} (h : s.MemForm) : (s.writeStatus j w).MemForm := by
  unfold State.writeStatus
  split
  · exact h
  · refine ite ?_ (updCtx h)
    dsimp only
    split
    exacts [ite (writeNum h) h, h]
theorem endJob {j w} (h : s.MemForm) : (s.endJob j w).MemForm :=
  ite (updTile (reapCtx (updCtx (keep (ite h (writeStatus h)))))) (reapCtx (updCtx (keep (ite h (writeStatus h)))))

/-! ### EvJobs -/

theorem structPackets {j va al n} (h : s.MemForm) : (s.structPackets j va al n).MemForm := ite h (jobPackets h)
theorem mayEnd {id} (h : s.MemForm) : (s.mayEnd id).MemForm := by
  unfold State.mayEnd
  split
  exacts [h, ite (endJob h) h]
theorem execJobDispatch (h : s.MemForm) : OutForm (execJobDispatch s) := by
  refine next ?_
  split
  · exact h
  · refine ite h (ite h (ite (endJob h) (ite (endJob (dropAt h)) ?_)))
    split
    · exact h
    · exact endJob (structPackets h)
    · refine ite (endJob (ite (structPackets h) h)) (ite (endJob (ite (structPackets h) h)) (ite (ite (structPackets h) h) ?_))
      split
      exacts [endJob (ite (structPackets h) h), ite (updTile (updJob (ite (structPackets h) h))) (updJob (ite (structPackets h) h))]
theorem execSubjobDispatch (h : s.MemForm) : OutForm (execSubjobDispatch s) := by
  refine next ?_
  split
  · exact h
  · refine ite h (ite h ?_)
    split
    exacts [ite (endJob h) (mayEnd (updJob h)), updJob h]
theorem combineCells {j k cs} (h : s.MemForm) : OptForm (s.combineCells j k cs) := by
  refine foldl_opt (fun o x ho => ?_) (.some h)
  split
  · exact .none
  · have ht := ho _ rfl
    dsimp only
    split
    · split
      exacts [.map (fun _ ht => noteAsk (dropCopies ht)) (sendOrdering ht), .some ht]
    · exact .some (forwardWrites (writeNum ht))
theorem writeCells {j k ns} (h : s.MemForm) : OptForm (s.writeCells j k ns) := by
  unfold State.writeCells
  dsimp only
  split
  exacts [OptForm.none, OptForm.some (updJob h),
    OptForm.map (fun _ ht => updJob ht) (OptForm.ite (combineCells h) (OptForm.some (engWrite h)))]
theorem readPackets {j el as} (h : s.MemForm) : (s.readPackets j el as).MemForm := jobPackets h
theorem holdCells {j x k ws} (h : s.MemForm) : (s.holdCells j x k ws).MemForm := by
  unfold State.holdCells
  dsimp only
  split
  · trivial
  · exact jobPackets h
  · split
    exacts [h, updJob (sendLines (jobPackets h))]
theorem runChunk {j k remote} (h : s.MemForm) : (s.runChunk j k remote).MemForm := by
  unfold State.runChunk
  dsimp only
  split
  · trivial
  · exact readPackets h
  · split
    · split
      · trivial
      · exact readPackets (readPackets h)
      · split
        exacts [readPackets (readPackets h), holdCells (readPackets (readPackets h))]
    · exact holdCells (readPackets h)
theorem chunkOut {id k cause} (h : s.MemForm) : (s.chunkOut id k cause).MemForm := mayEnd (updJob h)
theorem share {j k r bs} (h : s.MemForm) : (s.share j k r bs).MemForm := by
  unfold State.share
  split
  · exact h
  · dsimp only
    split
    · trivial
    · split
      exacts [trivial, jobPackets h, ite (keep (engWrite (jobPackets h))) (engWrite (jobPackets h))]
theorem shares {id k only} (h : s.MemForm) : (s.shares id k only).MemForm := by
  unfold State.shares
  split
  · exact h
  · split
    · exact h
    · extract_lets rs u
      have hu : u.MemForm := by
        refine foldl (fun t r ht => ?_) h
        split
        exacts [ht, updJob (ChunkEnd.MemForm.ok (share ht) ‹_›), updJob (ChunkEnd.MemForm.fail (share ht) ‹_›)]
      split
      exacts [hu, ite (chunkOut hu) hu]
theorem chunkWrites {id k ns} (h : s.MemForm) : (s.chunkWrites id k ns).MemForm := by
  unfold State.chunkWrites
  split
  · exact h
  · split
    · exact h
    · exact ite h (chunkOut h)
    · refine ite h ?_
      split
      · exact chunkOut h
      · split
        exacts [h, ite (chunkOut (writeCells h _ ‹_›)) (writeCells h _ ‹_›)]
theorem execChunkComplete (h : s.MemForm) : OutForm (execChunkComplete s) := by
  refine next ?_
  dsimp only
  split
  · exact h
  · refine ite h (ite (ite (shares h) ?_) (ite (chunkWrites h) ?_))
    · split
      exacts [h, chunkOut (readPackets h), shares (updJob (readPackets h))]
    · split
      exacts [h, chunkWrites (ChunkEnd.MemForm.ok (runChunk h) ‹_›), chunkOut (ChunkEnd.MemForm.fail (runChunk h) ‹_›)]
theorem execCpmShareApply (h : s.MemForm) : OutForm (execCpmShareApply s) := next (shares h)
theorem execBarrierOperation (h : s.MemForm) : OutForm (execBarrierOperation s) := next (serveDelivery h)
theorem qzWrites {id ns} (h : s.MemForm) : (s.qzWrites id ns).MemForm := by
  unfold State.qzWrites
  split
  · exact h
  · extract_lets b out
    have hout t (ht : t.MemForm) : (out t).MemForm := by
      unfold out
      split
      · exact ht
      · refine ite ht ?_
        split
        exacts [endJob ht, ite (endJob ht) (updJob ht)]
    clear_value out
    split
    · exact hout _ h
    · split
      exacts [h, hout _ (writeCells h _ ‹_›)]
theorem execQzBlockComplete (h : s.MemForm) : OutForm (execQzBlockComplete s) := by
  refine next ?_
  split
  · exact h
  · refine ite h (ite (qzWrites h) (ite (endJob h) (ite h ?_)))
    dsimp only
    split
    · exact h
    · exact endJob (readPackets h)
    · split
      exacts [h, endJob (ChunkEnd.MemForm.fail (holdCells (readPackets h)) ‹_›),
        qzWrites (updJob (ChunkEnd.MemForm.ok (holdCells (readPackets h)) ‹_›))]

/-! ### EvLaunch -/

theorem servePacket {v q t} {f : State → Nat → State} (h : s.MemForm) (hf : ∀ (t : State) x1, t.MemForm → (f t x1).MemForm) :
    (s.servePacket v q t f).MemForm := by
  refine ite h (ite (ite h (writeRecord h)) (ite h (ite (updQueue h) (ite h ?_))))
  dsimp only
  split
  exacts [frontAsk h, complete h, ite (complete h) (ite h (hf _ _ (updQueue h)))]
theorem frontWaits {v q l} (h : s.MemForm) : OptForm (s.frontWaits v q l) :=
  OptForm.ite OptForm.none (OptForm.some (foldl (fun _ _ ht => frontAsk ht) h))
theorem acceptBlock {x} (h : s.MemForm) : (s.acceptBlock x).MemForm := updLaunch (updCore (keep h))
theorem execLaunch (h : s.MemForm) : OutForm (execLaunch s) := by
  refine next (servePacket h fun t p ht => ?_)
  dsimp only
  refine ite ht (ite (updQueue ht) (ite ht ?_))
  split
  · exact frontWaits ht _ ‹_›
  · exact complete ht
  · exact ite ht (acceptBlock (updQueue (keep ht)))
theorem failList {j fs} (h : s.MemForm) : PairForm (s.failList j fs) := by
  unfold State.failList
  split
  · exact h
  · refine foldl_of (P := PairForm) (fun o x ho => PairForm.bind ho fun u hu => ?_) _ _ h
    dsimp only
    split
    · exact hu
    · split
      exacts [trivial, jobPackets hu, engWrite (jobPackets hu)]
theorem spawnBox {j r} (h : s.MemForm) : (s.spawnBox j r).1.MemForm := by
  unfold State.spawnBox
  refine foldl_fst (fun t x ht => ?_) h
  dsimp only
  split <;> split
  exacts [ht, acceptBlock ht, ht, acceptBlock ht]
theorem execSpawnAccept (h : s.MemForm) : OutForm (execSpawnAccept s) := by
  unfold Machine.execSpawnAccept
  refine next ?_
  split
  · exact h
  · refine ite h ?_
    extract_lets finish
    have hfinish t acc n fs (ht : t.MemForm) : (finish t acc n fs).MemForm := by
      unfold finish
      split
      exacts [h, endJob (PairForm.get (failList (structPackets ht)) ‹_›)]
    clear_value finish
    split
    · exact h
    · exact hfinish _ _ _ _ h
    · exact ite (hfinish _ _ _ _ h) (ite (hfinish _ _ _ _ h) (hfinish _ _ _ _ (spawnBox h)))
theorem zeroSp {core base n} (h : s.MemForm) : (s.zeroSp core base n).MemForm :=
  have ⟨hbm, host, sp⟩ := State.memWf_iff.1 h
  State.memWf_iff.2 ⟨hbm, host, Mem.wf_clear sp _ _⟩
theorem zeroRows {core base n} (h : s.MemForm) : (s.zeroRows core base n).MemForm := keep h
theorem zeroEngine {core} (h : s.MemForm) : (s.zeroEngine core).MemForm := keep h
theorem claimEngine {id} (h : s.MemForm) : (s.claimEngine id).MemForm := updLaunch (keep (updBlock (updCore (zeroEngine h))))
theorem pipeQueues {id p} (h : s.MemForm) : (s.pipeQueues id p).MemForm := updBlock (foldl (fun _ _ ht => writeNum ht) h)
theorem startGroups {id seat} (h : s.MemForm) : (s.startGroups id seat).MemForm :=
  foldl (fun _ _ ht => onCtx (keep (zeroSp (zeroRows ht))) fun _ hu => writeSlot hu) h
theorem enterBlock {id seat} (h : s.MemForm) : (s.enterBlock id seat).MemForm := by
  unfold State.enterBlock
  extract_lets b l s1 s2 s3 s4 s5 s6
  have h4 : s4.MemForm := zeroSp (updBlock (updCore (serveDeliveries h)))
  have h5 : s5.MemForm := by
    clear_value s4
    unfold s5
    split
    exacts [pipeQueues h4, h4]
  exact ite (claimEngine (startGroups h5)) (startGroups h5)
theorem reenterBlock {id} (h : s.MemForm) : OptForm (s.reenterBlock id) := by
  unfold State.reenterBlock
  dsimp only
  split
  exacts [OptForm.none, OptForm.ite OptForm.none (OptForm.some (updCore (updBlock (keep (foldl (fun _ _ ht => updCtx ht) h)))))]
theorem moveSp {a b c d n} (h : s.MemForm) : (s.moveSp a b c d n).MemForm :=
  have ⟨hbm, host, sp⟩ := State.memWf_iff.1 (zeroSp (zeroSp h) : ((s.zeroSp a b n).zeroSp c d n).MemForm)
  State.memWf_iff.2 ⟨hbm, host, foldl_of (P := fun m => Memory.wf m = true) (fun _ _ hm => Mem.wf_setByte hm _ _) _ _ sp⟩
theorem moveEngine {a b} (h : s.MemForm) : (s.moveEngine a b).MemForm := updCore (updCore (keep h))
theorem moveBlock {id core} (h : s.MemForm) : OptForm (s.moveBlock id core) := by
  unfold State.moveBlock
  extract_lets b gs used s1
  refine OptForm.ite OptForm.none ?_
  split
  · exact OptForm.none
  · split
    · exact OptForm.none
    · extract_lets s2 s3 s4 s5 s6
      have h3 : s3.MemForm := foldl (fun _ _ ht => moveSp ht) (moveSp (serveDeliveries h))
      have h5 : s5.MemForm := updCtxs (foldl (fun _ _ ht => updCtx ht) h3)
      exact OptForm.some (keep (updBlock (keep (ite (moveEngine h5) h5))))
theorem execBlockResident (h : s.MemForm) : OutForm (execBlockResident s) := by
  refine next (ite h ?_)
  split
  · dsimp only
    split
    · refine OptForm.getD (reenterBlock ?_) h
      rename_i e
      split at e
      exacts [OptForm.ite (OptForm.some h) (moveBlock h) _ e, by cases e]
    · exact h
  · split
    · exact h
    · refine ite h ?_
      split
      exacts [h, enterBlock h]

/-! ### Plate -/

theorem rezen {t tag} (h : s.MemForm) : (s.rezen t tag).MemForm := updModule (updPart (updFld h))
theorem zeroTile {t} (h : s.MemForm) : (s.zeroTile t).MemForm := foldl (fun _ _ ht => updCore ht) (filterSp (foldl (fun _ _ ht => zeroEngine ht) h))
theorem bindTile {tag t} (h : s.MemForm) : (s.bindTile tag t).MemForm := updTile (zeroTile h)
theorem freeTile {t} (h : s.MemForm) : (s.freeTile t).MemForm := ite (rezen (updTile (zeroTile h))) (updTile (zeroTile h))
theorem backGranules {tag at_ gs} (h : s.MemForm) : (s.backGranules tag at_ gs).MemForm := updPart (foldl (fun _ _ ht => setGran ht) h)
theorem releaseGranule {g} (h : s.MemForm) : (s.releaseGranule g).MemForm := keep (setGran h)
theorem newPlate {tag} (h : s.MemForm) : (s.newPlate tag).MemForm := keep (updPart (updPart h))
theorem zeroLine {key} (h : s.MemForm) : (s.zeroLine key).MemForm := clearHbm (scrubLine h)
theorem publishEnd {tag flag gaps} (h : s.MemForm) : (s.publishEnd tag flag gaps).MemForm := by
  refine foldl (fun _ _ ht => ?_) (foldl (fun _ _ ht => ?_) (updPart (updPart h)))
  · split
    exacts [ht, writeByte ht]
  · split
    exacts [ht, foldl (fun _ _ ht => zeroLine ht) ht]
theorem publishStart {tag flag} (h : s.MemForm) : (s.publishStart tag flag).MemForm := by
  unfold State.publishStart
  dsimp only
  split
  exacts [writeNum (updPart h), updPart h]
theorem publish {tag flag} (h : s.MemForm) : (s.publish tag flag).MemForm := by
  refine publishStart ?_
  split
  exacts [publishEnd h, h]

/-! ### EvColl -/

theorem collExtents {j runs} (h : s.MemForm) : (s.collExtents j runs).MemForm := updJob h
theorem runPackets {j x va n} (h : s.MemForm) : (s.runPackets j x va n).MemForm := by
  unfold State.runPackets
  split
  exacts [h, jobPackets h]
theorem collMark {j va bs} (h : s.MemForm) : OptForm (s.collMark j va bs) := by
  unfold State.collMark
  split
  · exact OptForm.some h
  · split
    exacts [OptForm.none, OptForm.some (runPackets h), OptForm.some (engWrite (runPackets h))]
theorem collRefuse {j} (h : s.MemForm) : OptForm (s.collRefuse j) := OptForm.map (fun _ ht => endJob ht) (collMark h)
theorem updColl {c f} (h : s.MemForm) : (s.updColl c f).MemForm := keep h
theorem dropColl {c} (h : s.MemForm) : (s.dropColl c).MemForm := keep h
theorem joinColl {j} (h : s.MemForm) : (s.joinColl j).MemForm := by
  unfold State.joinColl
  split
  · exact endJob h
  · dsimp only
    split
    exacts [keep (updJob h), ite (OptForm.getD (collRefuse (updJob h)) h) (updColl (updJob h))]
theorem chunkExtents {js g k} (h : s.MemForm) : (s.chunkExtents js g k).MemForm := foldl (fun _ _ ht => collExtents ht) h
theorem startColl {c} (h : s.MemForm) : (s.startColl c).MemForm := by
  unfold State.startColl
  refine ite h ?_
  split
  · exact h
  · have hu {js : List Job} : OptForm (js.foldl (fun t j => t.bind fun t => t.collRefuse j) (some s)) :=
      foldl_opt (fun _ _ ho => OptForm.bind ho fun _ hu => collRefuse hu) (OptForm.some h)
    exact ite (OptForm.getD (OptForm.map (fun _ ht => dropColl ht) hu) h) (ite h (updColl (chunkExtents h)))
theorem execCollectiveStart (h : s.MemForm) : OutForm (execCollectiveStart s) := by
  refine next ?_
  split
  · exact h
  · refine ite h ?_
    dsimp only
    split
    exacts [ite h (joinColl h), startColl (ite h (joinColl h))]
theorem memberChunk {id k n cause} (h : s.MemForm) : OptForm (s.memberChunk id k n cause) := by
  unfold State.memberChunk
  split
  · exact OptForm.some h
  · dsimp only
    split
    exacts [OptForm.none, OptForm.map (fun _ ht => updJob ht) (collMark (collMark h _ ‹_›))]
theorem chunkBegin {c k remote} (h : s.MemForm) : OptForm (s.chunkBegin c k remote) := by
  unfold State.chunkBegin
  refine OptForm.ite OptForm.none (foldl_opt (fun o v ho => OptForm.bind ho fun u hu => ?_)
    (OptForm.some (foldl (fun t p ht => ?_) (chunkExtents h))))
  · dsimp only
    split
    · exact OptForm.none
    · exact memberChunk hu
    · split
      · exact memberChunk hu
      · split
        exacts [OptForm.none, memberChunk (runPackets hu), OptForm.some (updJob (sendLines (runPackets hu)))]
  · split
    exacts [runPackets ht, ht]
theorem chunkGoesOn {id k ns} (h : s.MemForm) : (s.chunkGoesOn id k ns).MemForm := by
  unfold State.chunkGoesOn
  extract_lets finish
  have hfinish t (ht : t.MemForm) : (finish t).MemForm := by
    unfold finish
    split
    · exact ht
    · refine ite ht ?_
      split <;> exact OptForm.getD (memberChunk ht) ht
  clear_value finish
  split
  · exact h
  · split
    · exact h
    · exact hfinish _ h
    · refine ite h ?_
      split
      · exact OptForm.getD (memberChunk h) h
      · split
        exacts [h, hfinish _ (writeCells h _ ‹_›)]
theorem execCollectiveChunkComplete (h : s.MemForm) : OutForm (execCollectiveChunkComplete s) := by
  refine next ?_
  split
  · exact h
  · refine ite h ?_
    split
    · exact h
    · extract_lets u js t
      have hu : u.MemForm := foldl (fun _ _ ht => chunkGoesOn ht) (OptForm.ite (OptForm.some h) (chunkBegin h) _ ‹_›)
      have ht : t.MemForm := ite hu (updColl hu)
      exact ite (dropColl (foldl (fun _ _ ht => endJob ht) ht)) ht

/-! ### EvMatrix -/

theorem updMx {id f} (h : s.MemForm) : (s.updMx id f).MemForm := keep h
theorem mxPackets {o x as} (h : s.MemForm) : (s.mxPackets o x as).MemForm := updMx (engPackets h)
theorem mxRead {o as remote} (h : s.MemForm) : ReadForm (s.mxRead o as remote) := ReadForm.map_to fun _ => mxPackets h
theorem mxFill {o as n remote} (h : s.MemForm) : ReadForm (s.mxFill o as n remote) := ReadForm.map (fun _ => rfl) (mxRead h)
theorem mxCharge {o} (h : s.MemForm) : (s.mxCharge o).MemForm := updCore h
theorem endMx {o} (h : s.MemForm) : (s.endMx o).MemForm := reapCtx (updCtx (ite (updCore (keep (mxCharge h))) (keep (mxCharge h))))
theorem mxStructure {o a remote} (h : s.MemForm) : ReadForm (s.mxStructure o a remote) := by
  fun_cases State.mxStructure
  exacts [trivial, trivial, ReadForm.map (fun _ => rfl) (mxRead h)]
theorem mxScale {r x remote} (h : PairForm r) : PairForm (State.mxScale r x remote) := by
  fun_cases State.mxScale
  exacts [trivial, trivial, h, ReadForm.get (mxRead h) ‹_›]
theorem mxProduct {o n remote} (h : s.MemForm) : ReadForm (s.mxProduct o n remote) := by
  unfold State.mxProduct
  split
  · exact ReadForm.map (fun _ => rfl) (mxStructure h)
  · split
    · split
      exacts [trivial, ReadForm.map_to fun _ => h]
    · dsimp only
      split
      · trivial
      · exact PairForm.get (foldl_of (P := PairForm) (fun _ _ hr => mxScale hr) _ (some (s, o)) h) ‹_›
theorem mxBegin {o n remote} (h : s.MemForm) : ReadForm (s.mxBegin o n remote) := by
  unfold State.mxBegin
  dsimp only
  split
  · trivial
  · split
    · exact mxProduct h
    · exact h
    · exact h
    · split
      · trivial
      · split
        · trivial
        · split
          exacts [trivial, ReadForm.get (mxRead h) ‹_›]
    · exact ReadForm.map_to fun _ => h
theorem execMatrixOpStart (h : s.MemForm) : OutForm (execMatrixOpStart s) := by
  refine next ?_
  split
  · exact h
  · refine ite h ?_
    split
    exacts [h, updMx h, updMx (mxCharge (ReadForm.get (mxBegin h) ‹_›))]
theorem writeSlab {o i rows} (h : s.MemForm) : (s.writeSlab o i rows).MemForm :=
  ite (foldl (fun _ _ ht => setSlabRow ht) (keep (updCore h))) (keep (foldl (fun _ _ ht => setSlabRow ht) (keep (updCore h))))
theorem execMxldSlabWrite (h : s.MemForm) : OutForm (execMxldSlabWrite s) := by
  refine next ?_
  split
  · exact h
  · refine ite h ?_
    split
    · exact h
    · exact updMx h
    · have hu {o} := mxCharge (o := o) (ReadForm.get (mxFill h) ‹_›)
      exact ite (updMx hu) (updMx (writeSlab hu))
theorem mxPop {o} (h : s.MemForm) : ReadForm (s.mxPop o) := by
  unfold State.mxPop
  split
  · trivial
  · dsimp only
    split
    · trivial
    · split
      · trivial
      · split
        · trivial
        · split
          exacts [trivial, qHead (mxPackets h)]
        · exact qHead (mxPackets h)
theorem execARowRead (h : s.MemForm) : OutForm (execARowRead s) := by
  refine next ?_
  split
  · exact h
  · refine ite h ?_
    split
    · exact h
    · exact ite (updMx h) h
    · rename_i e
      split at e
      exacts [updMx (ReadForm.get (mxPop h) e), updMx (ReadForm.get (mxFill h) e)]
theorem poisonTile {o} (h : s.MemForm) : (s.poisonTile o).MemForm := updCore h
theorem mxsumRecord {o} (h : s.MemForm) : (s.mxsumRecord o).MemForm := by
  unfold State.mxsumRecord
  split
  exacts [h, raiseRecord h]
theorem countRow {o wrote last} (h : s.MemForm) : (s.countRow o wrote last).MemForm := keep (updTile (updCore (mxCharge h)))
theorem promote {o} (h : s.MemForm) : (s.promote o).MemForm := updMx h
theorem writeRow {o err} (h : s.MemForm) : (s.writeRow o err).MemForm := by
  unfold State.writeRow
  split
  · exact h
  · dsimp only
    split
    exacts [updMx h, ite (updMx (poisonTile (countRow h)))
      (ite (updMx (mxsumRecord (poisonTile (countRow h)))) (updMx (keep (cleanAcc (countRow h)))))]
theorem execMxfmaRowWrite (h : s.MemForm) : OutForm (execMxfmaRowWrite s) := by
  refine next ?_
  split
  exacts [h, ite h (ite (ite h (promote h)) (writeRow h))]
theorem mxZero {o} (h : s.MemForm) : (s.mxZero o).MemForm := updCore (keep (keep h))
theorem mxStore {o a bs} (h : s.MemForm) : OptForm (s.mxStore o a bs) := OptForm.ite OptForm.none (OptForm.some (engWrite (mxPackets h)))
theorem mxMove {id parity n remote} (h : s.MemForm) : (s.mxMove id parity n remote).MemForm := by
  unfold State.mxMove
  split
  · exact h
  · refine ite h ?_
    dsimp only
    split
    · split
      exacts [h, updMx (updMx (mxStore h _ ‹_›))]
    · split
      · exact h
      · exact updMx h
      · have hu := ReadForm.get (mxFill h) ‹_›
        exact updMx (ite hu (keep (cleanAcc hu)))
theorem mxFinish {o} (h : s.MemForm) : (s.mxFinish o).MemForm := by
  refine ite ?_ (endMx (updCore h))
  dsimp only
  split
  exacts [h, endMx (mxStore h _ ‹_›)]
theorem execMatrixOpEnd (h : s.MemForm) : OutForm (execMatrixOpEnd s) := by
  refine next ?_
  split
  · exact h
  · refine ite h (ite (endMx h) ?_)
    split
    · exact ite (endMx h) h
    · exact ite (endMx h) h
    · exact endMx (mxZero h)
    · exact ite h (endMx h)
    · extract_lets words n u
      have hu : u.MemForm := iterate (fun _ _ ht => mxMove ht) (mxCharge h)
      split
      exacts [ite (endMx hu) (ite (mxFinish hu) hu), hu]
theorem execMatrixStopComplete (h : s.MemForm) : OutForm (execMatrixStopComplete s) :=
  next (ite h (settleBlock (updCore (foldl (fun _ _ ht => updCore (updMx ht)) h))))

/-! ### EvReshape -/

theorem mbFinish {status reason result} (h : s.MemForm) : (s.mbFinish status reason result).MemForm := updModule h
theorem quiesce {tag} (h : s.MemForm) : (s.quiesce tag).MemForm := foldl (fun _ _ ht => requestPreempt ht) h
theorem moveAll : ∀ {l} {s : State}, s.MemForm → OptForm (s.moveAll l)
  | [], s, h => .some h
  | (b, c) :: l, s, h => by
    unfold State.moveAll
    split
    exacts [.none, moveAll (moveBlock h _ ‹_›)]
theorem moveBlocks {tag r} (h : s.MemForm) : (s.moveBlocks tag r).MemForm := by
  unfold State.moveBlocks
  dsimp only
  split
  exacts [moveAll h _ ‹_›, OptForm.getD (moveAll h) h]
theorem movePending {tag r} (h : s.MemForm) : (s.movePending tag r).MemForm := by
  refine foldl (fun _ _ ht => updCore ht) (foldl (fun _ _ ht => ?_) h)
  split
  exacts [ite ht (updBlock (updCore (updCore ht))), ht]
theorem moveQz {tiles} (h : s.MemForm) : (s.moveQz tiles).MemForm := foldl (fun _ _ ht => updTile ht) h
theorem rewrite {tag r} (h : s.MemForm) : (s.rewrite tag r).MemForm :=
  foldl (fun _ _ ht => freeTile ht) (foldl (fun _ _ ht => updTile ht) (updPart (keep h)))
theorem resumeAll {tag} (h : s.MemForm) : (s.resumeAll tag).MemForm := updPart (keep h)
theorem reshapeRecord {tag} (h : s.MemForm) : (s.reshapeRecord tag).MemForm := raiseRecord h
theorem setStep {tag n} (h : s.MemForm) : (s.setStep tag n).MemForm := updPart h
theorem reshapeStep {tag r} (h : s.MemForm) : (s.reshapeStep tag r).MemForm := by
  unfold State.reshapeStep
  dsimp only
  split
  exacts [setStep (publish (updPart h)), setStep (quiesce h), ite h (setStep (keep h)), ite h (setStep h),
    ite h (setStep (moveQz (movePending (moveBlocks (foldl (fun _ _ ht => ite (zeroTile ht) ht) h))))),
    setStep (foldl (fun _ _ ht => updCore ht) h), setStep (rewrite h), setStep (publish (newPlate h)),
    ite (mbFinish (resumeAll (reshapeRecord h))) (resumeAll (reshapeRecord h))]
theorem beginReshape {tag r} (h : s.MemForm) : (s.beginReshape tag r).MemForm := updPart h
theorem execReshapeStep (h : s.MemForm) : OutForm (execReshapeStep s) := by
  refine next ?_
  split
  exacts [publishEnd h, reshapeStep h, h]
theorem execReshapeDirtyTimeout (h : s.MemForm) : OutForm (execReshapeDirtyTimeout s) := by
  refine next ?_
  split
  · exact h
  · dsimp only
    split
    exacts [ite (endLaunch h) h, h]
theorem execScrubGranule (h : s.MemForm) : OutForm (execScrubGranule s) :=
  have ⟨hbm, host, sp⟩ := State.memWf_iff.1 h
  next (ite h (setGran (State.memWf_iff.2 ⟨Mem.wf_filter hbm _, host, sp⟩)))

/-! ### EvFail -/

theorem spoil {l} (h : s.MemForm) : (s.spoil l).MemForm := by
  refine ite (ite h (keep h)) ?_
  split
  exacts [updCtx (ite h (keep h)), ite h (keep h)]
theorem upset {x} (h : s.MemForm) : (s.upset x).MemForm := by
  unfold State.upset
  split
  · exact spoil h
  · split
    exacts [ite (spoil h) h, h]
  · exact ite h (updCtx h)
  · split
    exacts [onCtx h fun _ hu => endWith hu, h]
  · exact ite h (foldl (fun _ _ ht => spoil ht) h)
theorem raiseRetire {tag kind core} (h : s.MemForm) : (s.raiseRetire tag kind core).MemForm := updPart h
theorem loseCore {core kind n} (h : s.MemForm) : (s.loseCore core kind n).MemForm :=
  updPart (updCore (keep (zeroRows (zeroSp (zeroEngine (foldl (fun _ _ ht => endLaunch (raiseRecord ht)) h))))))
theorem coreLost {core} (h : s.MemForm) : (s.coreLost core).MemForm := ite h (ite (updCore h) (raiseRetire (loseCore h)))
theorem tileLost {t words} (h : s.MemForm) : (s.tileLost t words).MemForm :=
  ite (updTile h) (raiseRetire (foldl (fun _ _ ht => spoil ht) (foldl (fun _ _ ht => loseCore ht) (updTile h))))
theorem waveStop {core} (h : s.MemForm) : (s.waveStop core).MemForm :=
  foldl (fun _ _ ht => ite (withdraw ht) (updCtx (releaseToken (withdraw ht)))) h
theorem stopFailed {core} (h : s.MemForm) : (s.stopFailed core).MemForm := by
  refine foldl (fun _ _ ht => settleBlock ht) (updCore (keep (updCtxs (foldl (fun _ _ ht => ?_) h))))
  split
  exacts [ht, ite (endLaunch (raiseRecord ht)) (stopGroup ht)]
theorem execCoreFailure (h : s.MemForm) : OutForm (execCoreFailure s) := by
  unfold Machine.execCoreFailure
  extract_lets t row f lose late hit
  have hlose {v c} (hv : v.MemForm) : (lose v c).MemForm := by
    unfold lose
    split
    exacts [coreLost hv, hv]
  refine next (ite h ?_)
  split
  · refine ite (updTile h) ?_
    split
    exacts [stopFailed (updTile h), updTile h]
  · exact updTile (hlose (hlose h))
  · exact hlose h
theorem execRemapWaveStep (h : s.MemForm) : OutForm (execRemapWaveStep s) := by
  refine next (ite h ?_)
  split
  · exact h
  · refine updTile ?_
    split
    exacts [updCore (waveStop h), h]
theorem execTileFailure (h : s.MemForm) : OutForm (execTileFailure s) := next (ite h (tileLost h))
theorem execMeshFlitReceive (h : s.MemForm) : OutForm (execMeshFlitReceive s) := by
  refine next ?_
  split
  exacts [h, ite h (ite (updTile h) (foldl (fun _ _ ht => ite (tileLost ht) ht) (updTile (updTile h))))]
theorem retireDone {tag} (h : s.MemForm) : (s.retireDone tag).MemForm := updPart h
theorem markAbsent {tag} (h : s.MemForm) : (s.markAbsent tag).MemForm := publish (newPlate (updPart h))
theorem endPartLaunches {tag} (h : s.MemForm) : (s.endPartLaunches tag).MemForm := foldl (fun _ _ ht => endLaunch ht) h
theorem retireShrink {tag r} (h : s.MemForm) : (s.retireShrink tag r).MemForm :=
  ite (retireDone (markAbsent h)) (ite (retireDone (beginReshape (markAbsent h))) (retireDone (endPartLaunches (markAbsent h))))
theorem retireRemap {tag r named} (h : s.MemForm) : (s.retireRemap tag r named).MemForm := by
  unfold State.retireRemap
  dsimp only
  split
  exacts [retireShrink h, ite (retireDone (beginReshape (markAbsent h))) (retireDone (markAbsent h))]
theorem execRetireShrink (h : s.MemForm) : OutForm (execRetireShrink s) := by
  refine next ?_
  split
  exacts [retireShrink h, h]
theorem execRetireRemap (h : s.MemForm) : OutForm (execRetireRemap s) := by
  refine next ?_
  split
  exacts [retireRemap h, h]
theorem execRetireAbort (h : s.MemForm) : OutForm (execRetireAbort s) := by
  refine next ?_
  split
  exacts [retireShrink (endPartLaunches h), h]
theorem execRetireTimeout (h : s.MemForm) : OutForm (execRetireTimeout s) := by
  refine next ?_
  split
  exacts [retireShrink h, h]

/-! ### EvLink -/

theorem portReply {port ftype seq} (h : s.MemForm) : (s.portReply port ftype seq).MemForm := ite (updPort h) h
theorem acceptFlit {ftype} {act : State → Nat → Flit → List Byte → Option State} (h : s.MemForm) (hact : ∀ (t : State) x1 x2 x3, t.MemForm → OptForm (act t x1 x2 x3)) :
    (s.acceptFlit ftype act).MemForm := by
  refine ite h ?_
  split
  · split
    exacts [h, ite (hact _ _ _ _ (updPort h) _ ‹_›) (portReply (hact _ _ _ _ (updPort h) _ ‹_›))]
  · exact h
theorem nak {n} (h : s.MemForm) : (s.nak n).MemForm := ite h (updPort (portReply h))
theorem execDiscardedFlit (h : s.MemForm) : OutForm (execDiscardedFlit s) := by
  refine next (ite h ?_)
  split
  exacts [h, nak (updPort h), nak (updPort h), nak h, h, portReply h]
theorem respond {dev ident status app data} (h : s.MemForm) : OptForm (s.respond dev ident status app data) := sendFlit h
theorem performAt {ftype o x} (h : s.MemForm) : (s.performAt ftype o x).2.MemForm := by
  fun_cases State.performAt
  exacts [forwardWrites (clearPoison (writeAll h)), forwardWrites (writeNum h), rmwAt h]
theorem performFlit {dev x} (h : s.MemForm) : OptForm (s.performFlit dev x) := by
  unfold State.performFlit
  dsimp only
  split
  exacts [respond h, OptForm.map (fun _ ht => dropAt ht) (respond h),
    OptForm.ite OptForm.none (OptForm.ite (respond h)
    (OptForm.map (fun _ ht => ite (updPeer ht) ht) (OptForm.ite (OptForm.some (updPeer (performAt h))) (respond (performAt h))))),
    OptForm.ite (OptForm.map (fun _ ht => noteAsk (updPeer ht)) (sendFlit h)) (OptForm.map (fun _ ht => noteAsk ht) (sendOrdering h))]
theorem applyForward {x} (h : s.MemForm) : (s.applyForward x).MemForm := keep h
theorem performRead {dev x} (h : s.MemForm) : OptForm (s.performRead dev x) := by
  unfold State.performRead
  dsimp only
  split
  exacts [respond h, OptForm.map (fun _ ht => dropAt ht) (respond h),
    OptForm.ite OptForm.none (OptForm.map (fun _ ht => ite ht (keep ht)) (respond h)), OptForm.map (fun _ ht => noteAsk ht) (sendFlit h)]
theorem applyStamp {dev payload} (h : s.MemForm) : (s.applyStamp dev payload).MemForm := updPeer h
theorem applyHeld {dev x} (h : s.MemForm) : OptForm (s.applyHeld dev x) :=
  OptForm.ite (OptForm.some (applyStamp h))
    (OptForm.ite (performRead h) (OptForm.ite (performFlit h)
    (OptForm.ite (OptForm.some h) (OptForm.ite OptForm.none
    (OptForm.map (fun _ ht => updPeer ht) (OptForm.ite (OptForm.some (applyForward h)) (performFlit h)))))))
theorem drainList {dev} : ∀ {l blocked} {s : State}, s.MemForm → (s.drainList dev blocked l).1.MemForm
  | [], _, s, h => h
  | x :: l, blocked, s, h => by
    unfold State.drainList
    dsimp only
    split
    · exact drainList h
    · split
      exacts [drainList (applyHeld h _ ‹_›), drainList h]
theorem drain {dev} (h : s.MemForm) : (s.drain dev).MemForm := updPeer (drainList (updPeer h))
theorem payOwed (h : s.MemForm) : s.payOwed.MemForm := by
  refine ite h (foldl (fun _ _ ht => foldl (fun _ _ ht => ?_) ht) h)
  split
  exacts [updPeer (respond ht _ ‹_›), ht]
theorem drainAll (h : s.MemForm) : s.drainAll.MemForm := payOwed (iterate (fun _ _ ht => foldl (fun _ _ ht => drain ht) ht) h)
theorem hold {dev f payload} (h : s.MemForm) : OptForm (s.hold dev f payload) := OptForm.some (drainAll (updPeer h))
theorem execWrite (h : s.MemForm) : OutForm (execWrite s) := next (acceptFlit h fun _ _ _ _ hu => OptForm.ite (hold hu) OptForm.none)
theorem execForward (h : s.MemForm) : OutForm (execForward s) := next (acceptFlit h fun _ _ _ _ hu => OptForm.ite OptForm.none (hold hu))
theorem execReadreq (h : s.MemForm) : OutForm (execReadreq s) := next (acceptFlit h fun _ _ _ _ hu => hold hu)
theorem execAtomic (h : s.MemForm) : OutForm (execAtomic s) := next (acceptFlit h fun _ _ _ _ hu => hold hu)
theorem execReduce (h : s.MemForm) : OutForm (execReduce s) := next (acceptFlit h fun _ _ _ _ hu => hold hu)
theorem execStamp (h : s.MemForm) : OutForm (execStamp s) := next (acceptFlit h fun _ _ _ _ hu => hold hu)
theorem execChunk (h : s.MemForm) : OutForm (execChunk s) := next (acceptFlit h fun _ _ _ _ hu => hold hu)
theorem answered {a status data} (h : s.MemForm) : (s.answered a status data).MemForm :=
  ite (ite (ite h (updQueue h)) (writeRecord (updQueue h))) (ite (ite h (updJob h)) (ite (OptForm.getD (respond h) h) (ite h (updCtx h))))
theorem execReadrsp (h : s.MemForm) : OutForm (execReadrsp s) := by
  refine next (acceptFlit h fun u dev _ pl hu => ?_)
  have hv {f : State → Nat × Nat → State} {l} (hf : ∀ t x, t.MemForm → (f t x).MemForm) := foldl (l := l) hf hu
  dsimp only
  split
  · exact OptForm.some (hv fun _ _ ht => ite ht (updPeer ht))
  · exact OptForm.some (answered (ite (keep (updPeer (hv fun _ _ ht => ite ht (updPeer ht)))) (updPeer (hv fun _ _ ht => ite ht (updPeer ht)))))
theorem execMarker (h : s.MemForm) : OutForm (execMarker s) := next (acceptFlit h fun _ _ _ _ hu => OptForm.some (updPort hu))
theorem execAck (h : s.MemForm) : OutForm (execAck s) :=
  next (acceptFlit h fun _ _ _ _ hu => OptForm.some (payOwed (sendWaiting (updPort hu))))
theorem takeOver {n} (h : s.MemForm) : (s.takeOver n).MemForm := foldl (fun _ _ ht => foldl (fun _ _ ht => updPort ht) (updPort ht)) h
theorem failOver {dev} (h : s.MemForm) : (s.failOver dev).MemForm := by
  unfold State.failOver
  split
  exacts [takeOver h, h]
theorem execNak (h : s.MemForm) : OutForm (execNak s) :=
  next (acceptFlit h fun _ _ _ _ hu => OptForm.some (ite (updPort hu) (ite (failOver (updPort hu)) (updPort hu))))
theorem execKeySwitchThreshold (h : s.MemForm) : OutForm (execKeySwitchThreshold s) := next (ite h (ite (updPort h) (ite h (updPort h))))
theorem execStampTimer (h : s.MemForm) : OutForm (execStampTimer s) := next (OptForm.getD (sendStamp h) h)
theorem forgetPeer {dev} (h : s.MemForm) : (s.forgetPeer dev).MemForm := by
  refine keep (foldl (fun _ _ ht => ite ?_ (answered ht)) (keep (updPeer h)))
  split
  exacts [dropAt (answered ht), answered ht]
theorem execMgmt (h : s.MemForm) : OutForm (execMgmt s) := by
  refine next (acceptFlit h fun _ _ _ _ hu => OptForm.ite (OptForm.some hu) ?_)
  split
  exacts [OptForm.some (updPort hu), OptForm.some (payOwed (forgetPeer hu)), OptForm.some (updPeer hu), OptForm.some hu]
theorem execLinkTraining (h : s.MemForm) : OutForm (execLinkTraining s) := next (ite h (updPort (updModule h)))
theorem execLinkUp (h : s.MemForm) : OutForm (execLinkUp s) := next (ite h (ite (payOwed (sendWaiting (takeOver (updPort h)))) (updPort h)))
theorem writeLkCtl {n v} (h : s.MemForm) : (s.writeLkCtl n v).MemForm := updPort h
theorem setExport {k e} (h : s.MemForm) : (s.setExport k e).MemForm := keep h
theorem flushCopies {k} (h : s.MemForm) : (s.flushCopies k).MemForm := keep h
theorem pinHere {k e} (h : s.MemForm) : (s.pinHere k e).MemForm := ite (setExport h) (updPart (setExport h))
theorem moveOut {tag v room frame} (h : s.MemForm) : (s.moveOut tag v room frame).MemForm := by
  refine ite (updPart h) ?_
  split
  exacts [updPart h, ite (updPart (pinHere h)) (ite (updPart h) (updPart (ite (setExport (flushCopies h)) (keep (flushCopies h)))))]
theorem moveIn {tag home idx vpage moves bs} (h : s.MemForm) : (s.moveIn tag home idx vpage moves bs).MemForm := by
  refine ite h ?_
  split
  · exact h
  · split
    exacts [h, setExport (foldl (fun _ _ ht => writeByte ht) (updPart h))]
theorem unpinHere {k e tag} (h : s.MemForm) : (s.unpinHere k e tag).MemForm := ite (updPart (setExport h)) (setExport h)
theorem execXdMove (h : s.MemForm) : OutForm (execXdMove s) := by
  refine next ?_
  split
  · split
    exacts [h, moveOut h]
  · split
    exacts [ite (ite (pinHere h) (setExport h)) h, h]
  · exact moveIn h
theorem execXdUnpin (h : s.MemForm) : OutForm (execXdUnpin s) := by
  refine next ?_
  split
  exacts [unpinHere h, ite (unpinHere h) h, h]

/-! ### EvQueue -/

theorem writeProd {v q n} (h : s.MemForm) : (s.writeProd v q n).MemForm := updQueue h
theorem writeEn {v q on} (h : s.MemForm) : (s.writeEn v q on).MemForm := by
  refine ite (ite (updQueue h) ?_) (ite h (ite (updQueue h) (updQueue h)))
  split <;> exact updQueue h
theorem writeRun {v q on} (h : s.MemForm) : (s.writeRun v q on).MemForm := ite (writeRecord (updQueue h)) (updQueue h)
theorem writeAbort {v q on} (h : s.MemForm) : (s.writeAbort v q on).MemForm := ite (endLaunch h) h
theorem writeQctl {v q n} (h : s.MemForm) : (s.writeQctl v q n).MemForm := writeAbort (writeRun (writeEn (updQueue h)))
theorem execQProdWrite (h : s.MemForm) : OutForm (execQProdWrite s) := next (ite (writeProd h) h)
theorem execQCtlEn (h : s.MemForm) : OutForm (execQCtlEn s) := next (ite (writeEn h) h)
theorem execQCtlRun (h : s.MemForm) : OutForm (execQCtlRun s) := next (ite (writeRun h) h)
theorem execQCtlAbort (h : s.MemForm) : OutForm (execQCtlAbort s) := next (ite (writeAbort h) h)
theorem waitTest {v q p last} (h : s.MemForm) : (s.waitTest v q p last).MemForm := by
  refine ite h ?_
  split
  exacts [complete h, ite (complete h) (ite (complete h) (updQueue h))]
theorem execWaitPacket (h : s.MemForm) : OutForm (execWaitPacket s) := next (servePacket h fun _ _ hu => ite hu (waitTest (updQueue hu)))
theorem execWaitRecheck (h : s.MemForm) : OutForm (execWaitRecheck s) := next (servePacket h fun _ _ hu => ite (waitTest hu) h)
theorem execWaitTimeout (h : s.MemForm) : OutForm (execWaitTimeout s) := next (servePacket h fun _ _ hu => ite (waitTest hu) h)
theorem execSignalPacket (h : s.MemForm) : OutForm (execSignalPacket s) := by
  refine next (servePacket h fun _ _ hu => ite (complete (queueIrq (ite (updPart hu) hu))) ?_)
  split
  exacts [complete hu, ite h (complete (queueIrq
    (ite (updPart (ite (forwardWrites (clearPoison (writeAll hu))) hu)) (ite (forwardWrites (clearPoison (writeAll hu))) hu))))]
theorem execMarkPacket (h : s.MemForm) : OutForm (execMarkPacket s) := next (servePacket h fun _ _ hu => complete hu)
theorem execReshapeAck (h : s.MemForm) : OutForm (execReshapeAck s) := by
  refine next (servePacket h fun t p ht => ?_)
  dsimp only
  refine ite (complete ht) (ite ht (ite (complete ht) ?_))
  split
  · exact frontWaits ht _ ‹_›
  · exact complete ht
  · exact ite (complete ht) (complete (updLaunch ht))
theorem sliceEnd {v} (h : s.MemForm) : (s.sliceEnd v).MemForm := ite h (ite h (updVf (foldl (fun _ _ ht => requestPreempt ht) h)))
theorem execSliceEnd (h : s.MemForm) : OutForm (execSliceEnd s) := next (ite (sliceEnd h) h)
theorem execPeriodBoundary (h : s.MemForm) : OutForm (execPeriodBoundary s) :=
  next (ite h (foldl (fun _ _ ht => ite (updVf ht) (sliceEnd ht)) (foldl (fun _ _ ht => updVf ht) (updModule h))))

/-! ### EvPower -/

theorem execSensorRead (h : s.MemForm) : OutForm (execSensorRead s) := next (ite h (rezen (updTile h)))
theorem foldTile {t} (h : s.MemForm) : (s.foldTile t).MemForm := keep (updTile (updPart (foldl (fun _ _ ht => updVf ht) h)))
theorem execEnergyLoRead (h : s.MemForm) : OutForm (execEnergyLoRead s) := next (ite (updPart h) (updVf h))
theorem closeInterval {t} (h : s.MemForm) : (s.closeInterval t).1.MemForm := foldTile (foldl (fun _ _ ht => updCore ht) (updTile h))
theorem grantOne {f n ts} (h : s.MemForm) : (s.grantOne f n ts).MemForm := by
  unfold State.grantOne
  dsimp only
  split
  exacts [h, updFld (updTile h)]
theorem execBoostIntervalBoundary (h : s.MemForm) : OutForm (execBoostIntervalBoundary s) :=
  next (foldl (fun _ _ ht => updCore ht) (foldl (fun _ _ ht => iterate (fun _ _ ht => grantOne ht) ht)
    (foldl_fst (fun _ _ ht => closeInterval ht) h)))
theorem execPowerControlWrite (h : s.MemForm) : OutForm (execPowerControlWrite s) := next (ite (updVf h) h)
theorem execPowerRangeWrite (h : s.MemForm) : OutForm (execPowerRangeWrite s) := next (ite (updVf h) h)
theorem execTransitTick (h : s.MemForm) : OutForm (execTransitTick s) :=
  next (ite h (keep (updModule (foldl (fun _ _ ht => updCore ht) (foldl (fun _ _ ht => updVf ht) h)))))

/-! ### EvModule -/

theorem resetWith {cause} (h : s.MemForm) : (s.resetWith cause).MemForm :=
  have ⟨hbm, host, _⟩ := State.memWf_iff.1 h
  State.memWf_iff.2 ⟨hbm, host, rfl⟩
theorem execPowerOn (h : s.MemForm) : OutForm (execPowerOn s) := next (resetWith h)
theorem execResetPin (h : s.MemForm) : OutForm (execResetPin s) := next (resetWith h)
theorem execModResetWrite (h : s.MemForm) : OutForm (execModResetWrite s) := next (ite (resetWith (keep h)) h)
theorem execUndervolt (h : s.MemForm) : OutForm (execUndervolt s) := next (resetWith h)
theorem execCoolantFault (h : s.MemForm) : OutForm (execCoolantFault s) := next (resetWith (updModule h))
theorem execLockstep (h : s.MemForm) : OutForm (execLockstep s) := next (resetWith h)
theorem execRecoveryImage (h : s.MemForm) : OutForm (execRecoveryImage s) := next (ite (resetWith h) h)
theorem execFieldCurrentSample (h : s.MemForm) : OutForm (execFieldCurrentSample s) :=
  next (ite h (ite (resetWith (keep (updModule h))) (setFld (updModule h))))
theorem execDropTailWrite (h : s.MemForm) : OutForm (execDropTailWrite s) := next (updModule h)

/-! ### EvTdisp -/

theorem clearSlots {v} (h : s.MemForm) : (s.clearSlots v).MemForm := updPart h
theorem vfError {v} (h : s.MemForm) : (s.vfError v).MemForm := updVf (clearSlots h)
theorem answerWith {code bs} (h : s.MemForm) : (s.answerWith code bs).MemForm := keep h
theorem tdispRequest {v allowed} {f : State → State} (h : s.MemForm) (hf : ∀ t : State, t.MemForm → (f t).MemForm) :
    (s.tdispRequest v allowed f).MemForm :=
  ite h (ite (answerWith h) (answerWith (hf _ h)))
theorem execLockInterfaceRequest (h : s.MemForm) : OutForm (execLockInterfaceRequest s) := next (tdispRequest h fun _ hu => updVf hu)
theorem execStartInterfaceRequest (h : s.MemForm) : OutForm (execStartInterfaceRequest s) := next (tdispRequest h fun _ hu => updVf hu)
theorem execStopInterfaceRequest (h : s.MemForm) : OutForm (execStopInterfaceRequest s) :=
  next (tdispRequest h fun _ hu => updVf (clearSlots hu))
theorem execIdePacketReceive (h : s.MemForm) : OutForm (execIdePacketReceive s) := next (ite (vfError h) (ite (answerWith h) h))
theorem sessionEnd {v next} (h : s.MemForm) : (s.sessionEnd v next).MemForm := updVf (ite (vfError h) h)
theorem execSpdmSessionLoss (h : s.MemForm) : OutForm (execSpdmSessionLoss s) := next (ite (sessionEnd h) h)
theorem setSpdm {f n} (h : s.MemForm) : (s.setSpdm f n).MemForm := ite (updVf h) (updModule h)
theorem spdmRequest {ok} {f : State → State} (h : s.MemForm) (hf : ∀ t : State, t.MemForm → (f t).MemForm) : (s.spdmRequest ok f).MemForm :=
  ite h (ite (hf _ h) (answerWith h))
theorem execGetVersion (h : s.MemForm) : OutForm (execGetVersion s) := next (spdmRequest h fun _ hu => answerWith (ite hu (setSpdm hu)))
theorem execGetCapabilities (h : s.MemForm) : OutForm (execGetCapabilities s) := next (spdmRequest h fun _ hu => answerWith (setSpdm hu))
theorem execNegotiateAlgorithms (h : s.MemForm) : OutForm (execNegotiateAlgorithms s) :=
  next (spdmRequest h fun _ hu => ite (answerWith hu) (answerWith (setSpdm hu)))
theorem execGetDigests (h : s.MemForm) : OutForm (execGetDigests s) := next (spdmRequest h fun _ hu => answerWith hu)
theorem execGetCertificate (h : s.MemForm) : OutForm (execGetCertificate s) := next (spdmRequest h fun _ hu => answerWith hu)
theorem execChallenge (h : s.MemForm) : OutForm (execChallenge s) := next (spdmRequest h fun _ hu => keep (answerWith hu))
theorem execGetMeasurements (h : s.MemForm) : OutForm (execGetMeasurements s) := next (spdmRequest h fun _ hu => answerWith hu)
theorem execKeyExchange (h : s.MemForm) : OutForm (execKeyExchange s) := next (spdmRequest h fun _ hu => answerWith (setSpdm hu))
theorem execFinish (h : s.MemForm) : OutForm (execFinish s) :=
  next (spdmRequest h fun _ hu => ite (answerWith (setSpdm hu)) (answerWith (setSpdm hu)))
theorem execEndSession (h : s.MemForm) : OutForm (execEndSession s) :=
  next (spdmRequest h fun _ hu => answerWith (ite (sessionEnd hu) (setSpdm hu)))
theorem execIdeKeyManagement (h : s.MemForm) : OutForm (execIdeKeyManagement s) :=
  next (spdmRequest h fun _ hu => ite (answerWith hu) (answerWith (updVf hu)))
theorem slotRequest {f : State → Nat → List Byte → State} (h : s.MemForm) (hf : ∀ (t : State) x1 x2, t.MemForm → (f t x1 x2).MemForm) :
    (s.slotRequest f).MemForm :=
  ite (answerWith h) (ite (answerWith h) (ite (answerWith h) (ite (answerWith h) (hf _ _ _ h))))
theorem execKeySlotLoad (h : s.MemForm) : OutForm (execKeySlotLoad s) := next (slotRequest h fun _ _ _ hu => answerWith (updPart hu))
theorem execKeySlotClear (h : s.MemForm) : OutForm (execKeySlotClear s) := next (slotRequest h fun _ _ _ hu => answerWith (updPart hu))
theorem execKeySlotQuery (h : s.MemForm) : OutForm (execKeySlotQuery s) := next (slotRequest h fun _ _ _ hu => answerWith hu)

/-! ### EvMmio -/

theorem writeQBase {v q w f} (h : s.MemForm) : (s.writeQBase v q w f).MemForm := ite (ite (vfError h) h) (updQueue h)
theorem writeVfReg {v w off n} (h : s.MemForm) : (s.writeVfReg v w off n).MemForm := by
  unfold State.writeVfReg
  dsimp only
  have upd {c : Bool} {f : VF → VF} : State.MemForm (if c then s.updVf v f else s) := ite (updVf h) h
  split
  iterate 15 exact upd
  refine ite ?_ h
  split
  exacts [writeQBase h, writeQBase h, writeQctl h, writeProd h, ite (updQueue h) h, h]
theorem writeVf {v w off n x} (h : s.MemForm) : (s.writeVf v w off n x).MemForm := ite h (foldl (fun _ _ ht => writeVfReg ht) h)
theorem writePart {v off n x} (h : s.MemForm) : (s.writePart v off n x).MemForm := ite h (ite (updPart h) (ite (updPart h) h))
theorem mbStart (h : s.MemForm) : s.mbStart.MemForm := ite (updModule h) (ite (updModule h) (mbFinish h))
theorem setFieldLimit {f n} (h : s.MemForm) : (s.setFieldLimit f n).MemForm := updFld h
theorem writeDropTail {n} (h : s.MemForm) : (s.writeDropTail n).MemForm := updModule h
theorem writeDomeH {off n} (h : s.MemForm) : (s.writeDomeH off n).MemForm := by
  refine ite (ite h (updModule h)) ?_
  split
  exacts [ite (mbStart h) h, updModule h, writeDropTail h, h]
theorem writeDomeM {off n} (h : s.MemForm) : (s.writeDomeM off n).MemForm := by
  refine ite (ite (setFieldLimit h) h) (ite (updFld h) (ite ?_ (ite (updModule h) ?_)))
  · dsimp only
    split
    exacts [writeLkCtl h, updPort h, updPort h, updPort h, h]
  · split
    exacts [updModule h, updModule h, updModule h, updModule h, updModule h, updModule h, writeDomeH h]
theorem writeDome {dome off n x} (h : s.MemForm) : (s.writeDome dome off n x).MemForm :=
  foldl (fun _ _ ht => ite (writeDomeM ht) (writeDomeH ht)) h
theorem writePower {k i n} (h : s.MemForm) : (s.writePower k i n).MemForm := by
  unfold State.writePower
  split
  exacts [updFld h, updFld h, updFld h, updTile h]
theorem execRegisterWrite (h : s.MemForm) : OutForm (execRegisterWrite s) := by
  refine next (ite h ?_)
  split
  exacts [ite (writeVf h) h, writePart h, ite (writeDome h) h, ite (writeVf h) h, writeDome h, ite (writeVf h) h, ite (keep h) (updPart h),
    ite (updTile h) h, ite (updFld h) h, ite (writePower h) h]
theorem execUnsupportedRequest (h : s.MemForm) : OutForm (execUnsupportedRequest s) := next (ite h (answerWith h))
theorem hostMmioRead {v bar off n} (h : s.MemForm) : (s.hostMmioRead v bar off n).MemForm :=
  ite (answerWith h) (ite (ite (updVf (answerWith h)) (answerWith h)) (ite (updPart (answerWith h)) (answerWith h)))
theorem pfMmioRead {p bar off n} (h : s.MemForm) : (s.pfMmioRead p bar off n).MemForm :=
  ite (answerWith h) (ite (ite (updVf (answerWith h)) (answerWith h)) (answerWith h))
theorem pfMmioWrite {p bar off n x} (h : s.MemForm) : (s.pfMmioWrite p bar off n x).MemForm := ite (ite (writeDome h) h) (ite (writeVf h) h)
theorem hostAccess {v write l n bs} (h : s.MemForm) : (s.hostAccess v write l n bs).MemForm :=
  ite h (ite (ite (answerWith (forwardWrites (clearPoison (writeAll h)))) (answerWith (dropAt h)))
    (ite (answerWith h) (answerWith (dropAt h))))
theorem execHostOriginatedRequest (h : s.MemForm) : OutForm (execHostOriginatedRequest s) :=
  next (ite h (ite (ite (answerWith h) (ite (answerWith (ite (writeVf h) (writePart h))) (hostMmioRead h)))
    (ite (ite (answerWith h) (ite (answerWith (pfMmioWrite h)) (pfMmioRead h))) (ite (answerWith h) (hostAccess h)))))

/-! ### EvMailbox -/

theorem mailbox {op} {f : State → Module → Nat → State} (h : s.MemForm) (hf : ∀ (t : State) x1 x2, t.MemForm → (f t x1 x2).MemForm) :
    (s.mailbox op f).MemForm :=
  ite (hf _ _ _ h) h
theorem mbReject {reason} (h : s.MemForm) : (s.mbReject reason).MemForm := mbFinish h
theorem mbDone {result} (h : s.MemForm) : (s.mbDone result).MemForm := mbFinish h
theorem createPart {tag n tiles gs pages gaps} (h : s.MemForm) : (s.createPart tag n tiles gs pages gaps).MemForm :=
  publishEnd (publish (newPlate (backGranules (keep (setPart (foldl (fun _ _ ht => bindTile ht) h))))))
theorem execPartCreate (h : s.MemForm) : OutForm (execPartCreate s) := by
  refine next (mailbox h fun _ _ _ hu => ite (mbReject hu) (ite (mbReject hu) (ite (mbReject hu) ?_)))
  split
  exacts [mbReject hu, mbDone (createPart hu)]
theorem unbindVf {v} (h : s.MemForm) : (s.unbindVf v).MemForm := updVf h
theorem execPartDestroy (h : s.MemForm) : OutForm (execPartDestroy s) :=
  next (mailbox h fun _ _ _ hu => ite (mbReject hu)
    (ite (endPartLaunches hu) (mbDone (keep (foldl (fun _ _ ht => releaseGranule ht)
    (foldl (fun _ _ ht => freeTile ht) (foldl (fun _ _ ht => unbindVf (updVf (ite (vfError ht) ht))) (endPartLaunches hu))))))))
theorem execVfBind (h : s.MemForm) : OutForm (execVfBind s) := by
  refine next (mailbox h fun _ _ _ hu => ite (mbReject hu) (ite (mbReject hu) ?_))
  split
  exacts [mbReject hu, ite (mbReject hu) (mbDone (updVf hu))]
theorem execVfUnbind (h : s.MemForm) : OutForm (execVfUnbind s) :=
  next (mailbox h fun _ _ _ hu => ite (mbReject hu) (ite (mbReject hu) (mbDone (unbindVf (ite (vfError hu) hu)))))
theorem execGranAdd (h : s.MemForm) : OutForm (execGranAdd s) := by
  refine next (mailbox h fun _ _ _ hu => ite (mbReject hu) ?_)
  split
  exacts [mbReject hu, mbDone (backGranules hu)]
theorem execGranRelease (h : s.MemForm) : OutForm (execGranRelease s) :=
  next (mailbox h fun _ _ _ hu => ite (mbReject hu)
    (ite (mbReject hu) (ite (mbReject hu) (mbDone (updPart (foldl (fun _ _ ht => releaseGranule ht) hu))))))
theorem execReshape (h : s.MemForm) : OutForm (execReshape s) := by
  refine next (mailbox h fun t m a ht => ?_)
  dsimp only
  refine ite (mbReject ht) (ite (mbReject ht) (ite ht ?_))
  split
  exacts [beginReshape ht, mbReject ht]
theorem execExportPage (h : s.MemForm) : OutForm (execExportPage s) := by
  refine next (mailbox h fun _ _ _ hu => ite (mbReject hu) (ite (mbReject hu) ?_))
  split
  exacts [mbReject hu, mbDone (setExport hu)]
theorem execUnexportPage (h : s.MemForm) : OutForm (execUnexportPage s) :=
  next (mailbox h fun _ _ _ hu => ite (mbReject hu) (mbDone (keep (flushCopies hu))))
theorem execSharedCreate (h : s.MemForm) : OutForm (execSharedCreate s) := by
  refine next (mailbox h fun _ _ _ hu => ite (mbReject hu) ?_)
  split
  exacts [mbReject hu, mbDone (foldl (fun _ _ ht => updPart ht) (keep (foldl (fun _ _ ht => setGran ht) hu)))]
theorem execSharedFill (h : s.MemForm) : OutForm (execSharedFill s) := by
  refine next (mailbox h fun _ _ _ hu => ?_)
  split
  exacts [mbReject hu, ite (mbReject hu) (mbDone (clearPoison (writeAll hu)))]
theorem execDevForget (h : s.MemForm) : OutForm (execDevForget s) :=
  next (mailbox h fun _ _ _ hu => ite (mbReject hu) (mbDone (payOwed (forgetPeer hu))))
theorem execRollbackCommit (h : s.MemForm) : OutForm (execRollbackCommit s) := next (mailbox h fun _ _ _ hu => mbDone (updModule hu))
theorem execSetHeadroom (h : s.MemForm) : OutForm (execSetHeadroom s) :=
  next (mailbox h fun _ _ _ hu => ite (mbReject hu)
    (ite (mbReject hu) (ite (mbDone (writePower hu)) (mbDone (foldl (fun _ _ ht => writePower ht) hu)))))
theorem execLinkCtl (h : s.MemForm) : OutForm (execLinkCtl s) := next (mailbox h fun _ _ _ hu => ite (mbReject hu) (mbDone (writeLkCtl hu)))

/-! ### EvMesh -/

theorem arrive {id atomic} (h : s.MemForm) : (s.arrive id atomic).MemForm := by
  unfold State.arrive
  split
  exacts [h, closeQuiet (deliver h)]
theorem execPacketDelivery (h : s.MemForm) : OutForm (execPacketDelivery s) := next (arrive h)
theorem execAtomicPerform (h : s.MemForm) : OutForm (execAtomicPerform s) := next (arrive h)
theorem execDropLogAppend (h : s.MemForm) : OutForm (execDropLogAppend s) := by
  refine next ?_
  split
  exacts [h, updModule (keep h)]
theorem execNegativeAcknowledgement (h : s.MemForm) : OutForm (execNegativeAcknowledgement s) := by
  refine next ?_
  split
  exacts [h, ite (keep h) (raiseRecord (keep h))]
theorem execFaultRingWrite (h : s.MemForm) : OutForm (execFaultRingWrite s) := next (ringWrite h)

/-! ### EvTx -/

theorem updCommit {id f} (h : s.MemForm) : (s.updCommit id f).MemForm := keep h
theorem lockLines {c home} : ∀ {l} {s : State}, s.MemForm → (s.lockLines c home l).1.MemForm
  | [], s, h => h
  | x :: l, s, h => by
    unfold State.lockLines
    split
    exacts [h, lockLines (keep h)]
theorem unlock {c home} (h : s.MemForm) : (s.unlock c home).MemForm := keep h
theorem execTxPrepare (h : s.MemForm) : OutForm (execTxPrepare s) := by
  refine next ?_
  split
  · exact h
  · refine ite h ?_
    split
    exacts [ite (pair (lockLines h) ‹_›) (updCommit (unlock (pair (lockLines h) ‹_›))), updCommit (pair (lockLines h) ‹_›)]
theorem settleCommit {id} (h : s.MemForm) : (s.settleCommit id).MemForm := by
  unfold State.settleCommit
  split
  exacts [h, ite h (ite (keep h) (updCommit h))]
theorem execTxAnswer (h : s.MemForm) : OutForm (execTxAnswer s) := by
  refine next ?_
  split
  exacts [h, ite h (ite h (ite (settleCommit (updCommit h)) (settleCommit (updCtx (updCommit h)))))]
theorem execTxCommit (h : s.MemForm) : OutForm (execTxCommit s) := by
  refine next ?_
  split
  exacts [h, ite h (settleCommit (updCommit (forwardWrites (unlock (clearPoison (writeAll h))))))]
theorem execTxRelease (h : s.MemForm) : OutForm (execTxRelease s) := by
  refine next ?_
  split
  exacts [h, ite h (settleCommit (updCommit (unlock h)))]

/-! ### LaneFloat -/

theorem shortF {sm cls d a f} (h : s.MemForm) : OutForm (shortF sm cls d a f s) := issue h fun _ hu => orFlags (writeV hu)
theorem execFnegShort {sm d a} (h : s.MemForm) : OutForm (execFnegShort sm d a s) := issue h fun _ hu => writeV hu

/-! ### LaneInt -/

theorem execSel {sm p d a b} (h : s.MemForm) : OutForm (execSel sm p d a b s) := issue h fun _ hu => writeV hu
theorem short2 {sm cls d a f} (h : s.MemForm) : OutForm (short2 sm cls d a f s) := issue h fun _ hu => writeV hu
theorem execMovShort {sm d a} (h : s.MemForm) : OutForm (execMovShort sm d a s) := issue h fun _ hu => writeV hu

/-! ### LanePred -/

theorem moveLanes {sm g d a b idx} (h : s.MemForm) : OutForm (moveLanes sm g d a b idx s) :=
  issue h fun _ hu => Eff.MemForm.ite hu (writeV hu)
theorem execPcount {sm g d a} (h : s.MemForm) : OutForm (execPcount sm g d a s) := issue h fun _ hu => defer hu
theorem execEmrd {sm g d} (h : s.MemForm) : OutForm (execEmrd sm g d s) := issue h fun _ hu => writeP hu
theorem execEmwr {sm a} (h : s.MemForm) : OutForm (execEmwr sm a s) := issue h fun _ hu => updCur hu
theorem execEmand {sm a} (h : s.MemForm) : OutForm (execEmand sm a s) := issue h fun _ hu => updCur hu
theorem execVtos {sm g d a} (h : s.MemForm) : OutForm (execVtos sm g d a s) := by
  refine issue h fun _ hu => ?_
  split
  exacts [hu, Eff.MemForm.ite hu (writeS hu)]
theorem execStov {sm g d a} (h : s.MemForm) : OutForm (execStov sm g d a s) := issue h fun _ hu => writeV hu
theorem execLane {sm g d} (h : s.MemForm) : OutForm (execLane sm g d s) := issue h fun _ hu => writeV hu
theorem execVreduce {sm g d a e} (h : s.MemForm) : OutForm (execVreduce sm g d a e s) := issue h fun _ hu => defer hu
theorem execVscan {sm g d a e} (h : s.MemForm) : OutForm (execVscan sm g d a e s) := issue h fun _ hu => defer hu

/-! ### LoadStore -/

theorem deferLoad {signed n d bs} (h : s.MemForm) : (s.deferLoad signed n d bs).MemForm := ite h (defer h)
theorem globalLoad {signed l1 n d m base a} {k : State → State} (h : s.MemForm) (hk : ∀ t : State, t.MemForm → (k t).MemForm) :
    (s.globalLoad signed l1 n d m base a k).MemForm := by
  unfold State.globalLoad
  refine Eff.MemForm.ite (outsideCheck h fun u _ hu => ?_) (withLanes h fun _ _ hu => readLanes hu fun _ _ hu => hk _ (deferLoad hu))
  dsimp only
  split
  exacts [readLanes (TxForm.get (txLoads hu) ‹_›) fun _ _ hu => hk _ (deferLoad hu), hu]
theorem globalStore {release sc n d m base a} {k : State → State} (h : s.MemForm) (hk : ∀ t : State, t.MemForm → (k t).MemForm) :
    (s.globalStore release sc n d m base a k).MemForm :=
  Eff.MemForm.ite (outsideCheck h fun _ _ hu => Eff.MemForm.ite hu (storeLanes (txStores hu) fun _ hu => hk _ (ite (flush hu) hu)))
    (withLanes h fun _ _ hu => Eff.MemForm.ite hu (storeLanes (txStores hu) fun _ hu => hk _ (ite (flush hu) hu)))
theorem loadM {signed n sm g d a b} (h : s.MemForm) : OutForm (loadM signed n sm g d a b s) := issue h fun _ hu => globalLoad hu fun _ hu => hu
theorem storeM {n sm g d a b} (h : s.MemForm) : OutForm (storeM n sm g d a b s) := issue h fun _ hu => globalStore hu fun _ hu => hu
theorem loadOrd {n sm o d a b c} (h : s.MemForm) : OutForm (loadOrd n sm o d a b c s) :=
  issue h fun _ hu => Eff.MemForm.ite (whenFenced hu fun _ hu => globalLoad hu fun _ hu => ite (acquire hu) hu)
    (globalLoad hu fun _ hu => ite (acquire hu) hu)
theorem storeOrd {n sm o d a b c} (h : s.MemForm) : OutForm (storeOrd n sm o d a b c s) :=
  issue h fun _ hu => Eff.MemForm.ite (whenFenced hu fun _ hu => globalStore hu fun _ hu => fenceAfter hu)
    (globalStore hu fun _ hu => fenceAfter hu)
theorem withSp {n addrs} {k : State → List LaneOk → Eff} (h : s.MemForm) (hk : ∀ (t : State) x1, t.MemForm → (k t x1).MemForm) :
    (s.withSp n addrs k).MemForm :=
  Eff.MemForm.ite (hk _ _ h) h
theorem spLoad {signed n d m base a} (h : s.MemForm) : (s.spLoad signed n d m base a).MemForm :=
  withSp h fun _ _ hu => Eff.MemForm.ite (flush hu) (Eff.MemForm.ite (flush hu) (deferLoad (flush hu)))
theorem spStore {n d m base a} (h : s.MemForm) : (s.spStore n d m base a).MemForm :=
  withSp h fun _ _ hu => whenOrdered hu fun _ hu => clearPoison (writeAll hu)
theorem loadSp {signed n sm g d a b} (h : s.MemForm) : OutForm (loadSp signed n sm g d a b s) := issue h fun _ hu => spLoad hu
theorem storeSp {n sm g d a b} (h : s.MemForm) : OutForm (storeSp n sm g d a b s) := issue h fun _ hu => spStore hu
theorem loadU {signed n sm d a b} (h : s.MemForm) : OutForm (loadU signed n sm d a b s) := by
  unfold Machine.loadU
  refine issue h fun t ht => ?_
  dsimp only
  split
  · exact withLanes ht fun _ _ hu => readLanes hu fun _ _ hu => defer hu
  · split
    · have hu := TxForm.get (txLoads ht) ‹_›
      split
      · exact defer hu
      · split
        exacts [defer hu, hu]
    · exact ht
theorem storeU {n sm d a b} (h : s.MemForm) : OutForm (storeU n sm d a b s) :=
  issue h fun _ hu => Eff.MemForm.ite (withLanes hu fun _ _ hu => storeLanes hu fun _ hu => hu) (txStores hu)
theorem execLdsShort {sm d a} (h : s.MemForm) : OutForm (execLdsShort sm d a s) := issue h fun _ hu => spLoad hu
theorem execPref {sm g a b} (h : s.MemForm) : OutForm (execPref sm g a b s) := issue h fun _ hu => fillL1 hu
theorem execCinv {sm g a b} (h : s.MemForm) : OutForm (execCinv sm g a b s) := issue h fun _ hu => updCore hu
theorem execCinvAll {sm g} (h : s.MemForm) : OutForm (execCinvAll sm g s) := issue h fun _ hu => ite hu (updCore hu)

/-! ### System -/

theorem execSrd {sm d n} (h : s.MemForm) : OutForm (execSrd sm d n s) := issue h fun _ hu => defer (sysReadEffect hu)
theorem execSwr {sm d n} (h : s.MemForm) : OutForm (execSwr sm d n s) := issue h fun _ hu => sysWrite hu
theorem execClkq {sm d c} (h : s.MemForm) : OutForm (execClkq sm d c s) := issue h fun _ hu => defer (ite (updTile (updCur hu)) (updCur hu))
theorem execEret {sm g} (h : s.MemForm) : OutForm (execEret sm g s) :=
  issue h fun _ hu => whenSettled hu fun _ hu => Eff.MemForm.ite hu (leaveHandler (clearIssue hu))
theorem execFltaddr {sm g d} (h : s.MemForm) : OutForm (execFltaddr sm g d s) := issue h fun _ hu => defer hu
theorem poolTake {tag e ea} (h : s.MemForm) : (s.poolTake tag e ea).1.MemForm := by
  unfold State.poolTake
  dsimp only
  split
  · exact h
  · split
    · exact h
    · split <;> split
      exacts [writeNum (clearHbm (updPart h)), writeNum (updPart h), clearHbm (updPart h), updPart h]
theorem pmap {tag va} (h : s.MemForm) : (s.pmap tag va).1.MemForm := by
  fun_cases State.pmap
  exacts [h, h, h, h, h, poolTake h]
theorem execPmap {sm g d a} (h : s.MemForm) : OutForm (execPmap sm g d a s) :=
  issue h fun _ hu => withLeader hu fun _ => Eff.MemForm.ite hu (deferS (pmap hu))
theorem execTlbinv {sm g d a b} (h : s.MemForm) : OutForm (execTlbinv sm g d a b s) :=
  issue h fun _ hu => withLeader hu fun _ => defer (keep hu)

/-! ### Uniform -/

theorem execSli {sm d i} (h : s.MemForm) : OutForm (execSli sm d i s) := issue h fun _ hu => writeS hu
theorem execSlui {sm d i} (h : s.MemForm) : OutForm (execSlui sm d i s) := issue h fun _ hu => writeS hu

end State.MemForm

/-- What the machine does next leaves byte memory in its form. -/
def Todo.MemForm : Todo → Prop
  | .idle => True
  | .go t | .run _ t | .event _ t => t.MemForm

namespace State.MemForm
variable {s : State}

theorem issueCur (h : s.MemForm) : s.issueCur.MemForm := by
  unfold State.issueCur
  split
  · exact startRecipe h
  · split
    · exact holdBack h
    · split
      · exact fetchFault h
      · dsimp only
        split
        · split
          · exact updCur h
          · split
            exacts [loopFault (updCur h), faultWord (updCur h)]
          · exact faultWord (updCur h)
        · split
          exacts [h, faultWord h]
        · split
          exacts [h, faultWord h]
        · exact loopFault h
theorem cycle {core} (h : s.MemForm) : (s.cycle core).MemForm := by
  unfold State.cycle
  split
  · exact keep h
  · exact issueCur (switchTo (keep h))
theorem todo (h : s.MemForm) : s.todo.MemForm := by
  unfold State.todo
  split
  · dsimp only
    split
    exacts [cycle (keep h), keep h]
  · exact keep h
  · exact cycle (keep h)
  · exact upset (keep h)
  · dsimp only
    split
    · split
      exacts [issueCur (switchTo (keep h)), keep h]
    · exact keep h
  · split
    · exact keep h
    · dsimp only
      split
      · split
        exacts [keep h, cycle (keep h)]
      · split
        exacts [keep h, trivial]
/-- Every instruction and every event keeps the form (SPEC 05, assumption 8). -/
theorem exec {i} (h : s.MemForm) : OutForm (exec i s) := by
  unfold Machine.exec
  cases i with
  | iadd | isub | imul | and | or | xor | andn | shl | shr | sra | iminI32 | iminN32
  | imaxI32 | imaxN32 => exact lane2 h
  | imulhI32 | imulhN32 | idivI32 | idivN32 | iremI32 | iremN32 | fdiv => exact slow2 h
  | imad => exact lane3 h
  | sel => exact execSel h
  | mov | iabs | clz | popc | fneg | fabs | unpk8 => exact lane1 h
  | iaddi | andi | ori | xori | shli | shri | srai | lii | liu => exact laneImm h
  | fadd | fsub | fmul | fmin | fmax | hadd2 | hmul2 | hmax2 | hmin2 | pack => exact float2 h
  | ffma | hfma2 | hdot2 | cvt8Lo | cvt8Hi => exact float3 h
  | frcp | frsq | fexp2 | flog2 | fsqrt => exact slow1 h
  | cvt | unpkLo | unpkHi => exact float1 h
  | icmpEq | icmpNe | icmpLtI32 | icmpLeI32 | icmpLtN32 | icmpLeN32 | fcmpEq | fcmpNe | fcmpLt
  | fcmpLe | fcmpUn | fcmpOrd => exact compare2 h
  | pand | por | pxor | pnot | pmov => exact pred2 h
  | pcount => exact execPcount h
  | emrd => exact execEmrd h
  | emwr => exact execEmwr h
  | emand => exact execEmand h
  | shfl | bcast | rot => exact moveLanes h
  | vtos => exact execVtos h
  | stov => exact execStov h
  | lane => exact execLane h
  | vreduce => exact execVreduce h
  | vscan => exact execVscan h
  | sadd | ssub | smul | sand | sor | sxor | scmpLtu | sshl | sshr | ssra | smin | smax
  | scmpEq | scmpLt => exact uni2 h
  | smulh | sdiv => exact uniSlow h
  | sli => exact execSli h
  | slui => exact execSlui h
  | br | bz | bnz | bany | ball | bnone => exact branchIf h
  | call => exact execCall h
  | jr => exact execJr h
  | ret => exact execRet h
  | exit => exact execExit h
  | trap => exact execTrap h
  | nop => exact execNop h
  | lpx => exact execLpx h
  | lpb => exact execLpb h
  | yield => exact execYield h
  | ldg8 | ldgI8 | ldg16 | ldgI16 | ldg32 | ldg64 | ldg128 => exact loadM h
  | stg8 | stg16 | stg32 | stg64 | stg128 => exact storeM h
  | lds8 | ldsI8 | lds16 | ldsI16 | lds32 | lds64 | lds128 => exact loadSp h
  | sts8 | sts16 | sts32 | sts64 | sts128 => exact storeSp h
  | sldg8 | sldgI8 | sldg16 | sldgI16 | sldg32 | sldg64 => exact loadU h
  | sstg8 | sstg16 | sstg32 | sstg64 => exact storeU h
  | ldg32Ord | ldg64Ord => exact loadOrd h
  | stg32Ord | stg64Ord => exact storeOrd h
  | pref => exact execPref h
  | cinv => exact execCinv h
  | cinvAll => exact execCinvAll h
  | atomAdd32 | atomMinI32 | atomMaxI32 | atomAnd32 | atomOr32 | atomXor32 | atomExch32 | atomCas32
  | atomAdd64 | atomMinN32 | atomMaxN32 | atomFaddF32 | atomExch64 | atomCas64 => exact atomMO h
  | redAdd32 | redMinI32 | redMaxI32 | redAnd32 | redOr32 | redXor32 | redFaddF32 | redAdd64 => exact redMO h
  | satomAdd | satomExch | satomCas | satomMaxN64 => exact atomUO h
  | fence => exact execFence h
  | fenceAsync => exact execFenceAsync h
  | cpt | cpl | cpm | cpmCon | cprAdd | cprMin | cprMax => exact submitWords h
  | cpc => exact execCpc h
  | bclose => exact execBclose h
  | bwait => exact execBwait h
  | btest => exact execBtest h
  | barInit => exact execBarInit h
  | barArrive => exact execBarArrive h
  | barExpect => exact execBarExpect h
  | barWait => exact execBarWait h
  | barTwait => exact execBarTwait h
  | barInval => exact execBarInval h
  | qbind => exact execQbind h
  | qpush => exact execQpush h
  | qpop => exact execQpop h
  | qtry => exact execQtry h
  | stb32 | stb64 | stb128 => exact storeCounted h
  | spawn => exact execSpawn h
  | coll => exact execColl h
  | cwait => exact execCwait h
  | ctest => exact execCtest h
  | txbegin => exact execTxbegin h
  | txend => exact execTxend h
  | txabort => exact execTxabort h
  | txstat => exact execTxstat h
  | txstatAddr => exact execTxstatAddr h
  | mxld | mxfma | mxzero | mxck | mxsave | mxrest => exact matrixOp h
  | mxfence => exact execMxfence h
  | mxwait => exact execMxwait h
  | mxtest => exact execMxtest h
  | mxsplit => exact execMxsplit h
  | vraccRow => exact execVraccRow h
  | vraccCol => exact execVraccCol h
  | vwaccRow => exact execVwaccRow h
  | vwaccCol => exact execVwaccCol h
  | qz => exact execQz h
  | srd => exact execSrd h
  | swr => exact execSwr h
  | clkq => exact execClkq h
  | eret => exact execEret h
  | fltaddr => exact execFltaddr h
  | pmap => exact execPmap h
  | tlbinv => exact execTlbinv h
  | hint => exact execHint h
  | movShort => exact execMovShort h
  | iaddShort | isubShort | imulShort | andShort | orShort | xorShort | shlShort | shrShort => exact short2 h
  | faddShort | fsubShort | fmulShort | fmaxShort | fminShort => exact shortF h
  | fnegShort => exact execFnegShort h
  | ldsShort => exact execLdsShort h
  | deferredResultWrite => exact execDeferredResultWrite h
  | groupWake => exact execGroupWake h
  | yieldover => exact execYieldover h
  | tlbinvComplete => exact execTlbinvComplete h
  | walkerServe => exact execWalkerServe h
  | walkComplete => exact execWalkComplete h
  | meshFlitReceive => exact execMeshFlitReceive h
  | packetDelivery => exact execPacketDelivery h
  | dropLogAppend => exact execDropLogAppend h
  | negativeAcknowledgement => exact execNegativeAcknowledgement h
  | atomicPerform => exact execAtomicPerform h
  | faultRingWrite => exact execFaultRingWrite h
  | launch => exact execLaunch h
  | blockResident => exact execBlockResident h
  | spawnAccept => exact execSpawnAccept h
  | jobDispatch => exact execJobDispatch h
  | subjobDispatch => exact execSubjobDispatch h
  | chunkComplete => exact execChunkComplete h
  | cpmShareApply => exact execCpmShareApply h
  | barrierOperation => exact execBarrierOperation h
  | barrierWaveWake => exact execBarrierWaveWake h
  | barTwaitTimeout => exact execBarTwaitTimeout h
  | queueWaiterServe => exact execQueueWaiterServe h
  | collectiveStart => exact execCollectiveStart h
  | collectiveChunkComplete => exact execCollectiveChunkComplete h
  | qzBlockComplete => exact execQzBlockComplete h
  | matrixOpStart => exact execMatrixOpStart h
  | mxldSlabWrite => exact execMxldSlabWrite h
  | aRowRead => exact execARowRead h
  | mxfmaRowWrite => exact execMxfmaRowWrite h
  | matrixOpEnd => exact execMatrixOpEnd h
  | matrixStopComplete => exact execMatrixStopComplete h
  | txPrepare => exact execTxPrepare h
  | txAnswer => exact execTxAnswer h
  | txCommit => exact execTxCommit h
  | txRelease => exact execTxRelease h
  | tokenGrant => exact execTokenGrant h
  | groupStop => exact execGroupStop h
  | groupResume => exact execGroupResume h
  | coreFailure => exact execCoreFailure h
  | remapWaveStep => exact execRemapWaveStep h
  | tileFailure => exact execTileFailure h
  | retireShrink => exact execRetireShrink h
  | retireRemap => exact execRetireRemap h
  | retireAbort => exact execRetireAbort h
  | retireTimeout => exact execRetireTimeout h
  | boostIntervalBoundary => exact execBoostIntervalBoundary h
  | sensorRead => exact execSensorRead h
  | fieldCurrentSample => exact execFieldCurrentSample h
  | transitTick => exact execTransitTick h
  | periodBoundary => exact execPeriodBoundary h
  | sliceEnd => exact execSliceEnd h
  | qProdWrite => exact execQProdWrite h
  | qCtlEn => exact execQCtlEn h
  | qCtlRun => exact execQCtlRun h
  | qCtlAbort => exact execQCtlAbort h
  | waitPacket => exact execWaitPacket h
  | waitRecheck => exact execWaitRecheck h
  | waitTimeout => exact execWaitTimeout h
  | signalPacket => exact execSignalPacket h
  | markPacket => exact execMarkPacket h
  | reshapeAck => exact execReshapeAck h
  | powerControlWrite => exact execPowerControlWrite h
  | powerRangeWrite => exact execPowerRangeWrite h
  | energyLoRead => exact execEnergyLoRead h
  | registerWrite => exact execRegisterWrite h
  | lockInterfaceRequest => exact execLockInterfaceRequest h
  | startInterfaceRequest => exact execStartInterfaceRequest h
  | stopInterfaceRequest => exact execStopInterfaceRequest h
  | idePacketReceive => exact execIdePacketReceive h
  | spdmSessionLoss => exact execSpdmSessionLoss h
  | getVersion => exact execGetVersion h
  | getCapabilities => exact execGetCapabilities h
  | negotiateAlgorithms => exact execNegotiateAlgorithms h
  | getDigests => exact execGetDigests h
  | getCertificate => exact execGetCertificate h
  | challenge => exact execChallenge h
  | getMeasurements => exact execGetMeasurements h
  | keyExchange => exact execKeyExchange h
  | finish => exact execFinish h
  | endSession => exact execEndSession h
  | ideKeyManagement => exact execIdeKeyManagement h
  | keySlotLoad => exact execKeySlotLoad h
  | keySlotClear => exact execKeySlotClear h
  | keySlotQuery => exact execKeySlotQuery h
  | recoveryImage => exact execRecoveryImage h
  | reshapeStep => exact execReshapeStep h
  | reshapeDirtyTimeout => exact execReshapeDirtyTimeout h
  | scrubGranule => exact execScrubGranule h
  | write => exact execWrite h
  | readreq => exact execReadreq h
  | readrsp => exact execReadrsp h
  | atomic => exact execAtomic h
  | reduce => exact execReduce h
  | stamp => exact execStamp h
  | marker => exact execMarker h
  | ack => exact execAck h
  | nak => exact execNak h
  | chunk => exact execChunk h
  | mgmt => exact execMgmt h
  | forward => exact execForward h
  | keySwitchThreshold => exact execKeySwitchThreshold h
  | stampTimer => exact execStampTimer h
  | linkTraining => exact execLinkTraining h
  | linkUp => exact execLinkUp h
  | xdMove => exact execXdMove h
  | xdUnpin => exact execXdUnpin h
  | powerOn => exact execPowerOn h
  | resetPin => exact execResetPin h
  | modResetWrite => exact execModResetWrite h
  | undervolt => exact execUndervolt h
  | coolantFault => exact execCoolantFault h
  | lockstep => exact execLockstep h
  | dropTailWrite => exact execDropTailWrite h
  | partCreate => exact execPartCreate h
  | partDestroy => exact execPartDestroy h
  | vfBind => exact execVfBind h
  | vfUnbind => exact execVfUnbind h
  | granAdd => exact execGranAdd h
  | granRelease => exact execGranRelease h
  | reshape => exact execReshape h
  | exportPage => exact execExportPage h
  | unexportPage => exact execUnexportPage h
  | sharedCreate => exact execSharedCreate h
  | sharedFill => exact execSharedFill h
  | devForget => exact execDevForget h
  | rollbackCommit => exact execRollbackCommit h
  | setHeadroom => exact execSetHeadroom h
  | linkCtl => exact execLinkCtl h
  | clockDriveStep => exact execClockDriveStep h
  | discardedFlit => exact execDiscardedFlit h
  | hostOriginatedRequest => exact execHostOriginatedRequest h
  | unsupportedRequest => exact execUnsupportedRequest h
theorem step (h : s.MemForm) : OutForm (step s) := by
  have ht := todo h
  unfold Machine.step
  cases hs : s.todo with
  | idle => exact next h
  | go t => exact next (hs ▸ ht : Todo.MemForm (.go t))
  | run p t => exact exec (hs ▸ ht : Todo.MemForm (.run p t))
  | event i t => exact exec (hs ▸ ht : Todo.MemForm (.event i t))

end State.MemForm

/-- Settles O59: every instruction and every event keeps the form of the three byte memories, and issue prepares no state that lacks it. -/
theorem memoryFormKept : Obligations.MemoryFormKept := fun _ t h => State.MemForm.step h t

/-- Settles O60. -/
theorem resetMemoryForm : Obligations.ResetMemoryForm := State.reset_memWf

end Sys2Proof.Machine
end

section
/-!
PROOF. The TDISP states of a VF, its stream and its sessions (21 R370 to R374), and the copy key slots (R378, R379): each request past its guard, in
the states that allow it and in the others.
-/

namespace Sys2Proof.Machine

set_option Elab.async false

/-- Two events with one next state. -/
theorem next_congr {t u : State} (h : t = u) : (.next t : Host.Outcome State Fault Refusal) = .next u := congrArg _ h

/-! ### The interface of a VF (R370 to R372) -/

/-- Clearing the key slots leaves every VF as it is. -/
theorem State.clearSlots_vf (s : State) (v w : Nat) : (s.clearSlots v).vf w = s.vf w := by
  unfold State.clearSlots State.updPart
  split <;> rfl
/-- R379: of the partition that owns the VF, the slots bound to its contexts are gone. -/
theorem State.clearSlots_part {s : State} {v : Nat} {p : Part} (h : SMap.find s.parts (s.vf v).tag = some p) :
    (s.clearSlots v).part (s.vf v).tag = { p with keys := p.keys.filter fun k => k.2.vf ≠ v } := by
  unfold State.clearSlots
  rw [State.updPart_of_find h]
  exact State.part_of_find (by rw [State.setPart_parts, SMap.find_put, if_pos rfl])
/-- R371: the VF in ERROR, its queues halted. -/
theorem State.vfError_vf (s : State) (v : Nat) : (s.vfError v).vf v =
    { s.vf v with tdi := 3, queues := (s.vf v).queues.map fun q : Nat × Queue => (q.1, { q.2 with run := false }) } := by
  unfold State.vfError
  rw [State.updVf_vf, State.clearSlots_vf]
theorem VF.locked_iff {x : VF} : x.locked = true ↔ x.tdi = 1 ∨ x.tdi = 2 := by
  simp only [VF.locked, Bool.or_eq_true, beq_iff_eq]

section interface
variable {s : State} (hv : s.arg 0 < 512)
include hv

/-- R370: a request in a state that does not allow it. -/
theorem tdispRequest_refused {allowed : VF → Bool} {f : State → State} (h : (s.vf (s.arg 0)).spdm ≠ 5 ∨ allowed (s.vf (s.arg 0)) = false) :
    s.tdispRequest (s.arg 0) allowed f = s.answerWith spdmUnexpected [] := by
  unfold State.tdispRequest
  rw [if_neg (Nat.not_le.2 hv), if_pos]
  rcases h with h | h
  · rw [decide_eq_true h, Bool.true_or]
  · rw [h, Bool.not_false, Bool.or_true]

/-- R370: outside a session nothing is allowed. -/
theorem interface_outside (h : (s.vf (s.arg 0)).spdm ≠ 5) :
    ∀ e ∈ [Instr.lockInterfaceRequest, .startInterfaceRequest, .stopInterfaceRequest], exec e s = .next (s.answerWith spdmUnexpected []) := by
  simp only [List.forall_mem_cons, List.not_mem_nil, false_imp_iff, implies_true, and_true]
  exact ⟨next_congr (tdispRequest_refused hv (.inl h)), next_congr (tdispRequest_refused hv (.inl h)),
    next_congr (tdispRequest_refused hv (.inl h))⟩

variable (h5 : (s.vf (s.arg 0)).spdm = 5)
include h5

/-- R370: a request the state allows. -/
theorem tdispRequest_allowed {allowed : VF → Bool} {f : State → State} (h : allowed (s.vf (s.arg 0)) = true) :
    s.tdispRequest (s.arg 0) allowed f = (f s).answerWith 0 [] := by
  rw [State.tdispRequest_of hv h5, if_pos h]
theorem lockInterface_of :
    ((s.vf (s.arg 0)).tdi = 0 → exec .lockInterfaceRequest s = .next ((s.updVf (s.arg 0) fun x => { x with tdi := 1 }).answerWith 0 [])) ∧
    ((s.vf (s.arg 0)).tdi ≠ 0 → exec .lockInterfaceRequest s = .next (s.answerWith spdmUnexpected [])) :=
  ⟨fun h => next_congr (tdispRequest_allowed hv h5 (beq_iff_eq.2 h)),
    fun h => next_congr (tdispRequest_refused hv (.inr (beq_eq_false_iff_ne.2 h)))⟩
theorem startInterface_of :
    ((s.vf (s.arg 0)).tdi = 1 → exec .startInterfaceRequest s = .next ((s.updVf (s.arg 0) fun x => { x with tdi := 2 }).answerWith 0 [])) ∧
    ((s.vf (s.arg 0)).tdi ≠ 1 → exec .startInterfaceRequest s = .next (s.answerWith spdmUnexpected [])) :=
  ⟨fun h => next_congr (tdispRequest_allowed hv h5 (beq_iff_eq.2 h)),
    fun h => next_congr (tdispRequest_refused hv (.inr (beq_eq_false_iff_ne.2 h)))⟩
theorem stopInterface_of : exec .stopInterfaceRequest s =
    .next (((s.clearSlots (s.arg 0)).updVf (s.arg 0) fun x => { x with tdi := 0 }).answerWith 0 []) :=
  next_congr (tdispRequest_allowed hv h5 rfl)

end interface

/-- R372: a packet of a VF's stream: its check, and in RUN its kind. -/
theorem idePacket_of (s : State) :
    ((s.vf (s.arg 0)).ideKey ≠ none → s.arg 2 = 1 → s.arg 1 ≠ 1 → exec .idePacketReceive s = .next (s.vfError (s.arg 0))) ∧
    (s.arg 2 = 1 → s.arg 1 = 1 → exec .idePacketReceive s = .next s) ∧
    ((s.vf (s.arg 0)).tdi = 2 → s.arg 2 ≠ 1 → exec .idePacketReceive s = .next (s.answerWith 1 [])) := by
  refine ⟨fun hk h2 h1 => ?_, fun h2 h1 => ?_, fun hd h2 => ?_⟩ <;> change execIdePacketReceive s = _
  · simp only [execIdePacketReceive, Option.isSome_iff_ne_none.2 hk, h2, ne_eq, h1, not_false_eq_true, decide_true, Bool.and_true, if_true]
  · simp only [execIdePacketReceive, h2, h1, ne_eq, not_true_eq_false, decide_false, Bool.and_false, Bool.false_eq_true, if_false]
  · simp only [execIdePacketReceive, h2, hd, ne_eq, not_false_eq_true, decide_false, decide_true, Bool.and_false, Bool.false_and, Bool.and_true,
      Bool.false_eq_true, if_false, if_true]

/-- R370: the end of a session in CONFIG_LOCKED or RUN, and in the other states. -/
theorem State.sessionEnd_locked {s : State} {v : Nat} (h : (s.vf v).locked = true) (n : Nat) :
    s.sessionEnd v n = (s.vfError v).updVf v fun x => { x with spdm := n } := by
  unfold State.sessionEnd
  rw [if_pos h]
theorem State.sessionEnd_unlocked {s : State} {v : Nat} (h : (s.vf v).locked = false) (n : Nat) :
    s.sessionEnd v n = s.updVf v fun x => { x with spdm := n } := by
  unfold State.sessionEnd
  rw [if_neg (by rw [h]; exact Bool.false_ne_true)]
theorem sessionLoss_of {s : State} (h : (s.vf (s.arg 0)).spdm = 5) : exec .spdmSessionLoss s = .next (s.sessionEnd (s.arg 0) 0) :=
  next_congr (if_pos h)

/-- R370 to R372. -/
theorem interfaceRules : InterfaceRules := by
  unfold InterfaceRules
  refine ⟨?_, ?_, ?_, ?_⟩
  · rintro s _ rfl hv h5
    obtain ⟨lock, noLock⟩ := lockInterface_of hv h5
    obtain ⟨start, noStart⟩ := startInterface_of hv h5
    refine ⟨lock, noLock, start, noStart, _, stopInterface_of hv h5, rfl, ?_, fun p hp => ?_⟩
    · exact congrArg VF.tdi (State.updVf_vf (s.clearSlots (s.arg 0)) (s.arg 0) fun x => { x with tdi := 0 })
    · exact congrArg Part.keys (State.clearSlots_part hp)
  · exact fun e he s hv h => interface_outside hv h e he
  · rintro s _ rfl
    exact idePacket_of s
  · rintro s _ rfl h5
    rw [sessionLoss_of h5]
    refine ⟨fun h => ⟨_, rfl, ?_⟩, fun h => ?_⟩
    · rw [State.sessionEnd_locked (VF.locked_iff.2 h), State.updVf_vf, State.vfError_vf]
      refine ⟨rfl, rfl, fun q hq => ?_⟩
      obtain ⟨_, _, rfl⟩ := List.mem_map.1 hq
      rfl
    · have hl : (s.vf (s.arg 0)).locked = false := Bool.eq_false_iff.2 fun hl => by have := VF.locked_iff.1 hl; omega
      rw [State.sessionEnd_unlocked hl]

/-! ### The responder (R373, R374) -/

section responder
variable {s : State} (hf : s.arg 0 < 520)
include hf

/-- R373: a request in a state that allows it, and in one that does not. -/
theorem spdmRequest_allowed {ok : Nat → Bool} (f : State → State) (h : ok (s.spdmOf (s.arg 0)) = true) : s.spdmRequest ok f = f s := by
  rw [State.spdmRequest_of hf, if_pos h]
theorem spdmRequest_refused {ok : Nat → Bool} (f : State → State) (h : ok (s.spdmOf (s.arg 0)) = false) :
    s.spdmRequest ok f = s.answerWith spdmUnexpected [] := by
  rw [State.spdmRequest_of hf, if_neg (by rw [h]; exact Bool.false_ne_true)]

theorem getVersion_of :
    (s.spdmOf (s.arg 0) ≠ 5 → exec .getVersion s = .next ((s.setSpdm (s.arg 0) 1).answerWith 0 [0x14])) ∧
    (s.spdmOf (s.arg 0) = 5 → exec .getVersion s = .next (s.answerWith 0 [0x14])) := by
  refine ⟨fun h => next_congr ?_, fun h => next_congr ?_⟩ <;> rw [spdmRequest_allowed hf _ rfl]
  · rw [if_neg h]
  · rw [if_pos h]
theorem getCapabilities_of (h : s.spdmOf (s.arg 0) = 1) : exec .getCapabilities s = .next ((s.setSpdm (s.arg 0) 2).answerWith 0 s.ev.bytes) :=
  next_congr (spdmRequest_allowed hf _ (by rw [h]; rfl))
theorem negotiateAlgorithms_of (h : s.spdmOf (s.arg 0) = 2) :
    (s.arg 1 % 16 ≠ 0 → exec .negotiateAlgorithms s = .next ((s.setSpdm (s.arg 0) 3).answerWith 0 [BitVec.ofNat 8 (s.arg 1 % 16)])) ∧
    (s.arg 1 % 16 = 0 → exec .negotiateAlgorithms s = .next (s.answerWith spdmUnsupported [])) := by
  refine ⟨fun h1 => next_congr ?_, fun h1 => next_congr ?_⟩ <;> rw [spdmRequest_allowed hf _ (by rw [h]; rfl)]
  · rw [if_neg h1]
  · rw [if_pos h1]
/-- R373, R374: what is answered once the algorithms are agreed. -/
theorem negotiated_answers (h : 3 ≤ s.spdmOf (s.arg 0)) :
    exec .getDigests s = .next (s.answerWith 0 (shake256 s.ev.bytes 64)) ∧
    (s.arg 1 = 0 → exec .getCertificate s = .next (s.answerWith 0 s.ev.bytes)) ∧
    (s.arg 1 ≠ 0 → exec .getCertificate s = .next (s.answerWith 0 [])) ∧
    exec .challenge s = .next { s.answerWith 0 s.signature with oracle := s.oracle + 1 } ∧
    exec .getMeasurements s = .next (s.answerWith 0 (s.measurement (s.arg 0) (s.arg 1))) := by
  have allowed f := spdmRequest_allowed hf (ok := fun n => decide (3 ≤ n)) f (decide_eq_true h)
  refine ⟨next_congr (allowed _), fun h1 => next_congr ?_, fun h1 => next_congr ?_, next_congr (allowed _), next_congr (allowed _)⟩ <;>
    rw [allowed]
  · rw [if_pos h1]
  · rw [if_neg h1]
theorem keyExchange_of (h : s.spdmOf (s.arg 0) = 3) : exec .keyExchange s = .next ((s.setSpdm (s.arg 0) 4).answerWith 0 s.ev.bytes) :=
  next_congr (spdmRequest_allowed hf _ (by rw [h]; rfl))
theorem finish_of (h : s.spdmOf (s.arg 0) = 4) :
    (s.arg 1 = 1 → exec .finish s = .next ((s.setSpdm (s.arg 0) 5).answerWith 0 [])) ∧
    (s.arg 1 ≠ 1 → exec .finish s = .next ((s.setSpdm (s.arg 0) 3).answerWith spdmUnexpected [])) := by
  refine ⟨fun h1 => next_congr ?_, fun h1 => next_congr ?_⟩ <;> rw [spdmRequest_allowed hf _ (by rw [h]; rfl)]
  · rw [if_pos h1]
  · rw [if_neg h1]

/-- R372, R373: what a session allows. -/
theorem session_of (h : s.spdmOf (s.arg 0) = 5) :
    (s.arg 0 < 512 → exec .endSession s = .next ((s.sessionEnd (s.arg 0) 3).answerWith 0 [])) ∧
    (512 ≤ s.arg 0 → exec .endSession s = .next ((s.setSpdm (s.arg 0) 3).answerWith 0 [])) ∧
    (s.arg 0 < 512 → exec .ideKeyManagement s = .next ((s.updVf (s.arg 0) fun x =>
      { x with ideKey := some (BitVec.ofNat 256 (bytesNat (s.ev.bytes.take 32))) }).answerWith 0 [])) := by
  have allowed f := spdmRequest_allowed hf (ok := (· == 5)) f (beq_iff_eq.2 h)
  refine ⟨fun hv => next_congr ?_, fun hv => next_congr ?_, fun hv => next_congr ?_⟩ <;> rw [allowed]
  · rw [if_pos hv]
  · rw [if_neg (Nat.not_lt.2 hv)]
  · rw [if_neg (Nat.not_le.2 hv)]

/-- R373: a request in any other state of the responder is unexpected. -/
theorem responder_unexpected (h5 : s.spdmOf (s.arg 0) ≤ 5) : ∀ e ∈ [(Instr.getCapabilities, [1]), (.negotiateAlgorithms, [2]), (.getDigests, [3, 4, 5]),
    (.getCertificate, [3, 4, 5]), (.challenge, [3, 4, 5]), (.getMeasurements, [3, 4, 5]), (.keyExchange, [3]), (.finish, [4]), (.endSession, [5]),
    (.ideKeyManagement, [5])], s.spdmOf (s.arg 0) ∉ e.2 → exec e.1 s = .next (s.answerWith spdmUnexpected []) := by
  have one {n : Nat} (f : State → State) (h : s.spdmOf (s.arg 0) ∉ [n]) : s.spdmRequest (· == n) f = s.answerWith spdmUnexpected [] :=
    spdmRequest_refused hf f (beq_eq_false_iff_ne.2 fun e => h (List.mem_singleton.2 e))
  have agreed (f : State → State) (h : s.spdmOf (s.arg 0) ∉ [3, 4, 5]) :
      s.spdmRequest (fun n => decide (3 ≤ n)) f = s.answerWith spdmUnexpected [] := by
    refine spdmRequest_refused hf f (decide_eq_false fun h3 => h ?_)
    simp only [List.mem_cons, List.not_mem_nil]
    omega
  simp only [List.forall_mem_cons, List.not_mem_nil, false_imp_iff, implies_true, and_true]
  exact ⟨fun h => next_congr (one _ h), fun h => next_congr (one _ h), fun h => next_congr (agreed _ h), fun h => next_congr (agreed _ h),
    fun h => next_congr (agreed _ h), fun h => next_congr (agreed _ h), fun h => next_congr (one _ h), fun h => next_congr (one _ h),
    fun h => next_congr (one _ h), fun h => next_congr (one _ h)⟩

end responder

/-- R373, R374. -/
theorem responderRules : ResponderRules := by
  unfold ResponderRules
  refine ⟨?_, fun e he s hf h5 => responder_unexpected hf h5 e he⟩
  rintro s _ rfl hf
  obtain ⟨restart, inSession⟩ := getVersion_of hf
  refine ⟨restart, inSession, getCapabilities_of hf, fun h => (negotiateAlgorithms_of hf h).1, fun h => (negotiateAlgorithms_of hf h).2,
    negotiated_answers hf, keyExchange_of hf, fun h => (finish_of hf h).1, fun h => (finish_of hf h).2, fun h hv hl => ?_, fun h hv hl => ?_,
    fun h hv => (session_of hf h).2.1 hv, fun h hv => (session_of hf h).2.2 hv⟩
  · rw [(session_of hf h).1 hv, State.sessionEnd_unlocked hl]
  · rw [(session_of hf h).1 hv, State.sessionEnd_locked hl]

/-! ### Key slots (R378, R379) -/

/-- R379: the payload's fields are in their ranges. -/
theorem slotFields_ok {n : Nat} (h1 : field n 15 8 ≤ 15) (h2 : field n 39 32 ≤ 7) (h3 : field n 47 40 ≤ 9) (h4 : field n 127 72 = 0) :
    ¬(decide (15 < field n 15 8) || decide (7 < field n 39 32) || decide (9 < field n 47 40) || decide (field n 127 72 ≠ 0)) = true := by
  simp only [Bool.or_eq_true, decide_eq_true_eq]
  omega
/-- R379: the payload names a VF in RUN. -/
theorem slotTarget_ok {s : State} {w : Nat} (hw : w < 512) (hr : (s.vf w).tdi = 2) : ¬(decide (512 ≤ w) || decide ((s.vf w).tdi ≠ 2)) = true := by
  simp only [Bool.or_eq_true, decide_eq_true_eq, not_or, not_not]
  exact ⟨Nat.not_le.2 hw, hr⟩

section slots
variable {s : State} {n : Nat} (hs : s.Slots n)
include hs

/-- R379: code 1, for a field of the payload out of its range. -/
theorem slotRequest_malformed (h : 15 < field n 15 8 ∨ 7 < field n 39 32 ∨ 9 < field n 47 40 ∨ field n 127 72 ≠ 0)
    (f : State → Nat → List Byte → State) : s.slotRequest f = s.answerWith 0 [1] := by
  rw [State.slotRequest_of hs, if_pos (by simpa only [Bool.or_eq_true, decide_eq_true_eq, or_assoc] using h)]

variable (h1 : field n 15 8 ≤ 15) (h2 : field n 39 32 ≤ 7) (h3 : field n 47 40 ≤ 9) (h4 : field n 127 72 = 0)
include h1 h2 h3 h4

/-- R379: code 2, for a VF that is not in RUN. -/
theorem slotRequest_notRunning (h : 512 ≤ field n 31 16 ∨ (s.vf (field n 31 16)).tdi ≠ 2) (f : State → Nat → List Byte → State) :
    s.slotRequest f = s.answerWith 0 [2] := by
  rw [State.slotRequest_of hs, if_neg (slotFields_ok h1 h2 h3 h4), if_pos (by simpa only [Bool.or_eq_true, decide_eq_true_eq] using h)]

variable (hw : field n 31 16 < 512) (hr : (s.vf (field n 31 16)).tdi = 2)
include hw hr

/-- R379: code 3, for a VF of another partition. -/
theorem slotRequest_foreign (h : (s.vf (field n 31 16)).tag ≠ (s.vf (s.arg 0)).tag) (f : State → Nat → List Byte → State) :
    s.slotRequest f = s.answerWith 0 [3] := by
  rw [State.slotRequest_of hs, if_neg (slotFields_ok h1 h2 h3 h4), if_neg (slotTarget_ok hw hr), if_pos h]
/-- R379: a request that passes its checks. -/
theorem slotRequest_served (h : (s.vf (field n 31 16)).tag = (s.vf (s.arg 0)).tag) (f : State → Nat → List Byte → State) :
    s.slotRequest f = f s (s.vf (s.arg 0)).tag s.ev.bytes := by
  rw [State.slotRequest_of hs, if_neg (slotFields_ok h1 h2 h3 h4), if_neg (slotTarget_ok hw hr), if_neg (not_not.2 h)]

end slots

/-- R379: each of the three requests, by what it does past its checks. -/
theorem slotEvents_of {s t : State} (h : ∀ f, s.slotRequest f = t) :
    ∀ e ∈ [Instr.keySlotLoad, .keySlotClear, .keySlotQuery], exec e s = .next t := by
  simp only [List.forall_mem_cons, List.not_mem_nil, false_imp_iff, implies_true, and_true]
  exact ⟨next_congr (h _), next_congr (h _), next_congr (h _)⟩

/-- R378, R379, R382. -/
theorem slotRules : SlotRules := by
  unfold SlotRules
  refine ⟨fun e he s n hs => ⟨fun h => slotEvents_of (slotRequest_malformed hs h) e he, fun h1 h2 h3 h4 =>
    ⟨fun h => slotEvents_of (slotRequest_notRunning hs h1 h2 h3 h4 h) e he,
      fun hw hr h => slotEvents_of (slotRequest_foreign hs h1 h2 h3 h4 hw hr h) e he⟩⟩, ?_⟩
  rintro s n _ _ _ hs rfl rfl h1 h2 h3 h4 hw hr htag rfl
  have served f := slotRequest_served hs h1 h2 h3 h4 hw hr htag f
  refine ⟨?_, ?_⟩
  · rintro _ rfl
    exact next_congr (served _)
  · rintro _ rfl
    refine ⟨next_congr (served _), fun hk => next_congr ((served _).trans ?_), fun x hk => next_congr ((served _).trans ?_)⟩
    · dsimp only
      rw [hk]
      rfl
    · dsimp only
      rw [hk]

/-- Settles O54: each request past its guard, on each side of it (the error codes, and a session that ends like one that is lost, are assumptions 9 and 47). -/
theorem securityEvents : Obligations.SecurityEvents := ⟨interfaceRules, responderRules, slotRules⟩

end Sys2Proof.Machine
end

section
/-!
PROOF. The commands of the mailbox (23 R416, Table 23-5), reshapes (21 R385 to R390) and the scrubber (R391): each command past its guard, down the
order of its checks.
-/

namespace Sys2Proof.Machine

set_option Elab.async false

/-- R416: what the command that runs makes of the machine. -/
theorem command_of {s t : State} {op a : Nat} (h : s.Commands op a) {f : State → Module → Nat → State} (ht : f s s.module a = t) :
    (.next (s.mailbox op f) : Host.Outcome State Fault Refusal) = .next t :=
  next_congr ((State.mailbox_of h f).trans ht)
/-- A check that fails, before what comes after it. -/
theorem ite_past {α : Sort*} {c : Prop} [Decidable c] {x y z : α} (h : ¬c) (hy : y = z) : (if c then x else y) = z := (if_neg h).trans hy
/-- A part of the state that every step of a fold keeps. -/
theorem foldl_keeps {α β : Type} (p : State → α) {f : State → β → State} (hf : ∀ s x, p (f s x) = p s) (l : List β) (s : State) :
    p (l.foldl f s) = p s :=
  List.foldlRecOn l f (motive := fun t => p t = p s) rfl fun t ht x _ => (hf t x).trans ht

/-! ### Partitions and granules -/

/-- R416: the tag may be taken. -/
theorem partCreate_tag {s : State} {tag : Nat} (h0 : 0 < tag) (h64 : tag ≤ 64) (hp : s.isPart tag = false) :
    ¬(decide (tag = 0) || decide (64 < tag) || s.isPart tag) = true := by
  simp only [Bool.or_eq_true, decide_eq_true_eq, hp, Bool.false_eq_true, or_false]
  omega
/-- R416: the tiles are free, sound and named once. -/
theorem partCreate_tiles {s : State} {tiles : List Nat}
    (hgood : ∀ t ∈ tiles, t < 648 ∧ (s.tile t).owner = 0 ∧ (s.tile t).degraded = false ∧ (s.fld (fieldOfTile t)).degraded = false)
    (hdup : (dedup tiles).length = tiles.length) :
    ¬(tiles.any (fun t => decide (648 ≤ t) || (s.tile t).owner != 0 || (s.tile t).degraded || (s.fld (fieldOfTile t)).degraded) ||
      decide ((dedup tiles).length ≠ tiles.length)) = true := by
  rw [Bool.or_eq_true, not_or]
  refine ⟨fun hx => ?_, fun hx => of_decide_eq_true hx hdup⟩
  obtain ⟨t, ht, hx⟩ := List.any_eq_true.1 hx
  obtain ⟨h1, h2, h3, h4⟩ := hgood t ht
  simp only [Nat.not_le.2 h1, h2, h3, h4, decide_false, bne_self_eq_false, Bool.or_false, Bool.false_eq_true] at hx

section partCreate
variable {s : State} {a : Nat} (h : s.Commands 1 a)
include h

theorem partCreate_badTag (h1 : field a 6 0 = 0 ∨ 64 < field a 6 0 ∨ s.isPart (field a 6 0) = true) : exec .partCreate s = .next (s.mbReject 1) :=
  command_of h (if_pos (by simpa only [Bool.or_eq_true, decide_eq_true_eq, or_assoc] using h1))

variable (h0 : 0 < field a 6 0) (h64 : field a 6 0 ≤ 64) (hp : s.isPart (field a 6 0) = false)
  {tiles : List Nat} (htiles : tiles = (List.range (field a 31 16)).map fun i => tileOfWord (s.module.mb (16 + 2 * i) 2))
include h0 h64 hp htiles

theorem partCreate_badTile (h2 : ∃ t ∈ tiles, 648 ≤ t ∨ (s.tile t).owner ≠ 0 ∨ (s.tile t).degraded = true) :
    exec .partCreate s = .next (s.mbReject 2) := by
  refine command_of h (ite_past (partCreate_tag h0 h64 hp) (if_pos ?_))
  obtain ⟨t, ht, h2⟩ := h2
  subst htiles
  refine Bool.or_eq_true_iff.2 (.inl (List.any_eq_true.2 ⟨t, ht, ?_⟩))
  simp only [Bool.or_eq_true, decide_eq_true_eq, bne_iff_ne]
  tauto

variable (hgood : ∀ t ∈ tiles, t < 648 ∧ (s.tile t).owner = 0 ∧ (s.tile t).degraded = false ∧ (s.fld (fieldOfTile t)).degraded = false)
  (hdup : (dedup tiles).length = tiles.length)
include hgood hdup

theorem partCreate_apart (hc : connected (sortNat tiles) = false) : exec .partCreate s = .next (s.mbReject 3) := by
  subst htiles
  exact command_of h (ite_past (partCreate_tag h0 h64 hp) (ite_past (partCreate_tiles hgood hdup) (if_pos (by rw [hc]; rfl))))

variable (hc : connected (sortNat tiles) = true)
include hc

theorem partCreate_noGranules (hg : s.takeGranules (s.ev.args.drop 5) (field a 63 32 + 1) = none) : exec .partCreate s = .next (s.mbReject 4) := by
  subst htiles
  refine command_of h (ite_past (partCreate_tag h0 h64 hp) (ite_past (partCreate_tiles hgood hdup)
    (ite_past (by rw [hc]; exact Bool.false_ne_true) ?_)))
  rw [hg]
theorem partCreate_created {gs : List Nat} (hg : s.takeGranules (s.ev.args.drop 5) (field a 63 32 + 1) = some gs) {u : State}
    (hu : u = s.createPart (field a 6 0) (field a 63 32) tiles gs (s.arg 0) ((s.ev.args.drop 1).take 4)) :
    exec .partCreate s = .next (u.mbDone (natBytes 8 (u.part (field a 6 0)).ephBase.toNat ++ natBytes 4 (u.part (field a 6 0)).ephSize.toNat)) := by
  subst htiles
  refine command_of h (ite_past (partCreate_tag h0 h64 hp) (ite_past (partCreate_tiles hgood hdup)
    (ite_past (by rw [hc]; exact Bool.false_ne_true) ?_)))
  simp only [hg, ← hu]

end partCreate

section partDestroy
variable {s : State} {a : Nat} (h : s.Commands 2 a)
include h

theorem partDestroy_absent (hp : s.isPart (field a 6 0) = false) : exec .partDestroy s = .next (s.mbReject 1) :=
  command_of h (if_pos (by rw [hp]; rfl))

variable (hp : s.isPart (field a 6 0) = true)
include hp

/-- R198: until the launches it has ended are quiet the command runs. -/
theorem partDestroy_waits (hl : ∃ l ∈ (s.endPartLaunches (field a 6 0)).launches, l.2.tag = field a 6 0) :
    exec .partDestroy s = .next (s.endPartLaunches (field a 6 0)) := by
  obtain ⟨l, hm, hl⟩ := hl
  have busy : ((s.endPartLaunches (field a 6 0)).launches.any fun l => l.2.tag == field a 6 0) = true :=
    List.any_eq_true.2 ⟨l, hm, beq_iff_eq.2 hl⟩
  exact command_of h (ite_past (by rw [hp]; exact Bool.false_ne_true) (if_pos busy))
/-- R416: nothing of the partition is left. -/
theorem partDestroy_done (hl : ∀ l ∈ (s.endPartLaunches (field a 6 0)).launches, l.2.tag ≠ field a 6 0) :
    ∃ t, exec .partDestroy s = .next t ∧ SMap.find t.parts (field a 6 0) = none ∧ (∀ e ∈ t.exports, e.2.otag ≠ field a 6 0) ∧
      (∀ w ∈ t.walks, w.2.tag ≠ field a 6 0) ∧ (∀ i ∈ t.inval, i.tag ≠ field a 6 0) ∧ t.module.mbGo = false ∧ t.module.mbStatus = 0 := by
  have quiet : ¬((s.endPartLaunches (field a 6 0)).launches.any fun l => l.2.tag == field a 6 0) = true := fun hx => by
    obtain ⟨l, hm, hx⟩ := List.any_eq_true.1 hx
    exact hl l hm (beq_iff_eq.1 hx)
  refine ⟨_, command_of h (ite_past (by rw [hp]; exact Bool.false_ne_true) (if_neg quiet)), ?_, fun e he => ?_, fun w hw => ?_, fun i hi => ?_, rfl, rfl⟩
  · exact (SMap.find_del ..).trans (if_pos rfl)
  · exact bne_iff_ne.1 (List.mem_filter.1 he).2
  · exact bne_iff_ne.1 (List.mem_filter.1 hw).2
  · exact bne_iff_ne.1 (List.mem_filter.1 hi).2

end partDestroy

theorem granAdd_of {s : State} {a : Nat} (h : s.Commands 5 a) :
    (s.isPart (field a 6 0) = false → exec .granAdd s = .next (s.mbReject 1)) ∧
    (s.isPart (field a 6 0) = true → s.takeGranules s.ev.args (field a 63 32) = none → exec .granAdd s = .next (s.mbReject 4)) ∧
    ∀ gs, s.isPart (field a 6 0) = true → s.takeGranules s.ev.args (field a 63 32) = some gs →
      exec .granAdd s = .next ((s.backGranules (field a 6 0) (s.part (field a 6 0)).nextGran gs).mbDone (natBytes 4 (s.part (field a 6 0)).nextGran)) := by
  refine ⟨fun hp => command_of h (if_pos (by rw [hp]; rfl)), fun hp hg => ?_, fun gs hp hg => ?_⟩ <;>
    refine command_of h (ite_past (by rw [hp]; exact Bool.false_ne_true) ?_) <;> rw [hg]

section granRelease
variable {s : State} {a : Nat} (h : s.Commands 6 a)
include h

theorem granRelease_absent (hp : s.isPart (field a 6 0) = false) : exec .granRelease s = .next (s.mbReject 1) :=
  command_of h (if_pos (by rw [hp]; rfl))

variable {first : Nat} {gs : List (Nat × GranEntry)} (hfirst : first = s.module.mb 16 8)
  (hgs : gs = (s.part (field a 6 0)).grans.filter fun g => decide (first ≤ g.1) && decide (g.1 < first + field a 63 32))
  (hp : s.isPart (field a 6 0) = true)
include hfirst hgs hp

theorem granRelease_unbacked (hn : gs.length ≠ field a 63 32) : exec .granRelease s = .next (s.mbReject 2) := by
  rw [hgs, hfirst] at hn
  exact command_of h (ite_past (by rw [hp]; exact Bool.false_ne_true) (if_pos hn))

variable (hn : gs.length = field a 63 32)
include hn

theorem granRelease_ephemeris (he : ∃ g ∈ gs, (s.part (field a 6 0)).ephBase.toNat / 2 ^ 21 ≤ g.1 ∧
    g.1 ≤ ((s.part (field a 6 0)).ephBase.toNat + (s.part (field a 6 0)).ephSize.toNat - 1) / 2 ^ 21) : exec .granRelease s = .next (s.mbReject 3) := by
  rw [hgs, hfirst] at hn he
  obtain ⟨g, hg, h1, h2⟩ := he
  refine command_of h (ite_past (by rw [hp]; exact Bool.false_ne_true) (ite_past (not_not.2 hn) (if_pos (List.any_eq_true.2 ⟨g, hg, ?_⟩))))
  simp only [h1, h2, decide_true, Bool.and_self]
theorem granRelease_released (he : ∀ g ∈ gs, g.1 < (s.part (field a 6 0)).ephBase.toNat / 2 ^ 21 ∨
    ((s.part (field a 6 0)).ephBase.toNat + (s.part (field a 6 0)).ephSize.toNat - 1) / 2 ^ 21 < g.1) :
    exec .granRelease s = .next ((((gs.filter fun g => !g.2.shr).foldl (fun s g => s.releaseGranule g.2.dev) s).updPart (field a 6 0) fun p =>
      { p with grans := p.grans.filter fun g => !(decide (first ≤ g.1) && decide (g.1 < first + field a 63 32)) }).mbDone []) := by
  rw [hgs, hfirst] at hn he
  rw [hgs, hfirst]
  refine command_of h (ite_past (by rw [hp]; exact Bool.false_ne_true) (ite_past (not_not.2 hn) (if_neg fun hx => ?_)))
  obtain ⟨g, hg, hx⟩ := List.any_eq_true.1 hx
  have hout := he g hg
  simp only [Bool.and_eq_true, decide_eq_true_eq] at hx
  omega

end granRelease

/-- R416. -/
theorem partitionCommands : PartitionCommands := by
  unfold PartitionCommands
  refine ⟨?_, ?_, ?_, ?_⟩
  · rintro s a _ tiles h rfl htiles
    exact ⟨partCreate_badTag h, fun h0 h64 hp => ⟨partCreate_badTile h h0 h64 hp htiles, fun hgood hdup =>
      ⟨partCreate_apart h h0 h64 hp htiles hgood hdup, partCreate_noGranules h h0 h64 hp htiles hgood hdup,
        fun _ _ hc hg hu => partCreate_created h h0 h64 hp htiles hgood hdup hc hg hu⟩⟩⟩
  · rintro s a _ h rfl
    exact ⟨partDestroy_absent h, partDestroy_waits h, partDestroy_done h⟩
  · rintro s a _ _ h rfl rfl
    exact granAdd_of h
  · rintro s a _ first _ gs h rfl rfl hfirst hgs
    exact ⟨granRelease_absent h, granRelease_unbacked h hfirst hgs, granRelease_ephemeris h hfirst hgs, granRelease_released h hfirst hgs⟩

/-! ### Virtual functions -/

/-- R367: the functions counted are those of a partition. -/
theorem boundFunctions {tag : Nat} (ht : tag ≠ 0) (vfs : SMap VF) : (vfs.filter fun x => x.2.tag == tag && tag != 0) = vfs.filter fun x => x.2.tag == tag := by
  simp only [bne_iff_ne.2 ht, Bool.and_true]

section vfBind
variable {s : State} {a : Nat} (h : s.Commands 3 a)
include h

theorem vfBind_bound (hv : (s.vf (field a 8 0)).tag ≠ 0) : exec .vfBind s = .next (s.mbReject 1) := command_of h (if_pos hv)

variable (hv : (s.vf (field a 8 0)).tag = 0) (ht : field a 22 16 ≠ 0)
include hv ht

theorem vfBind_full (hn : 8 ≤ (s.vfs.filter fun x => x.2.tag == field a 22 16).length) : exec .vfBind s = .next (s.mbReject 2) :=
  command_of h (ite_past (not_not.2 hv) (if_pos (by rwa [boundFunctions ht])))

variable (hn : (s.vfs.filter fun x => x.2.tag == field a 22 16).length < 8) (hport : a.testBit 23 = false)
include hn hport

theorem vfBind_noPort (hp : 64 ≤ s.portVfs (field a 26 24)) : exec .vfBind s = .next (s.mbReject 3) := by
  refine command_of h (ite_past (not_not.2 hv) (ite_past (by rwa [boundFunctions ht, Nat.not_le]) ?_))
  rw [hport, if_neg Bool.false_ne_true, if_neg (Nat.not_lt.2 hp)]

variable (hp : s.portVfs (field a 26 24) < 64)
include hp

theorem vfBind_noPart (hpart : s.isPart (field a 22 16) = false) : exec .vfBind s = .next (s.mbReject 4) := by
  refine command_of h (ite_past (not_not.2 hv) (ite_past (by rwa [boundFunctions ht, Nat.not_le]) ?_))
  rw [hport, if_neg Bool.false_ne_true, if_pos hp]
  exact if_pos (by rw [hpart]; rfl)
theorem vfBind_done (hpart : s.isPart (field a 22 16) = true) : exec .vfBind s =
    .next ((s.updVf (field a 8 0) fun x => { x with tag := field a 22 16, port := field a 26 24 }).mbDone [BitVec.ofNat 8 (field a 26 24)]) := by
  refine command_of h (ite_past (not_not.2 hv) (ite_past (by rwa [boundFunctions ht, Nat.not_le]) ?_))
  rw [hport, if_neg Bool.false_ne_true, if_pos hp]
  exact if_neg (by rw [hpart]; exact Bool.false_ne_true)

end vfBind

theorem noLaunch_of {qs : SMap Queue} (hq : ∀ q ∈ qs, q.2.launch = 0) : ¬(qs.any fun q => q.2.launch != 0) = true := fun hx => by
  obtain ⟨q, hm, hx⟩ := List.any_eq_true.1 hx
  exact bne_iff_ne.1 hx (hq q hm)

section vfUnbind
variable {s : State} {a : Nat} (h : s.Commands 4 a)
include h

theorem vfUnbind_runs (hq : ∃ q ∈ (s.vf (field a 8 0)).queues, q.2.launch ≠ 0) : exec .vfUnbind s = .next (s.mbReject 1) := by
  obtain ⟨q, hm, hq⟩ := hq
  have busy : ((s.vf (field a 8 0)).queues.any fun q => q.2.launch != 0) = true := List.any_eq_true.2 ⟨q, hm, bne_iff_ne.2 hq⟩
  exact command_of h (if_pos busy)

variable (hq : ∀ q ∈ (s.vf (field a 8 0)).queues, q.2.launch = 0)
include hq

theorem vfUnbind_unbound (hv : (s.vf (field a 8 0)).tag = 0) : exec .vfUnbind s = .next (s.mbReject 2) :=
  command_of h (ite_past (noLaunch_of hq) (if_pos hv))

variable (hv : (s.vf (field a 8 0)).tag ≠ 0)
include hv

theorem vfUnbind_unlocked (hl : (s.vf (field a 8 0)).locked = false) : exec .vfUnbind s = .next ((s.unbindVf (field a 8 0)).mbDone []) := by
  refine command_of h (ite_past (noLaunch_of hq) (ite_past hv ?_))
  rw [if_neg (by rw [hl]; exact Bool.false_ne_true)]
theorem vfUnbind_locked (hl : (s.vf (field a 8 0)).locked = true) :
    exec .vfUnbind s = .next (((s.vfError (field a 8 0)).unbindVf (field a 8 0)).mbDone []) := by
  refine command_of h (ite_past (noLaunch_of hq) (ite_past hv ?_))
  rw [if_pos hl]

end vfUnbind

/-- R367, R368, R416. -/
theorem functionCommands : FunctionCommands := by
  unfold FunctionCommands
  refine ⟨?_, ?_⟩
  · rintro s a _ _ _ h rfl rfl rfl hport
    exact ⟨vfBind_bound h, vfBind_full h, fun hv ht hn =>
      ⟨vfBind_noPort h hv ht hn hport, vfBind_noPart h hv ht hn hport, vfBind_done h hv ht hn hport⟩⟩
  · rintro s a _ h rfl
    exact ⟨vfUnbind_runs h, fun hq => ⟨vfUnbind_unbound h hq, vfUnbind_unlocked h hq, vfUnbind_locked h hq⟩⟩

/-! ### Exports and shared regions -/

/-- R377: the entry's number may be used. -/
theorem exportEntry_free {exports : SMap Export} {i : Nat} (hi : i < 65536) (he : SMap.find exports i = none) :
    ¬(decide (65536 ≤ i) || (SMap.find exports i).isSome) = true := by
  simp only [he, Option.isSome_none, Bool.or_false, decide_eq_true_eq]
  omega

section exportPage
variable {s : State} {a va : Nat} (h : s.Commands 8 a)
include h

theorem exportPage_taken (hi : 65536 ≤ field a 19 0 ∨ (SMap.find s.exports (field a 19 0)).isSome = true) : exec .exportPage s = .next (s.mbReject 1) :=
  command_of h (if_pos (by simpa only [Bool.or_eq_true, decide_eq_true_eq] using hi))

variable (hi : field a 19 0 < 65536) (he : SMap.find s.exports (field a 19 0) = none)
include hi he

theorem exportPage_noPart (hp : s.isPart (field a 26 20) = false) : exec .exportPage s = .next (s.mbReject 3) :=
  command_of h (ite_past (exportEntry_free hi he) (if_pos (by rw [hp]; rfl)))

variable (hp : s.isPart (field a 26 20) = true) (hva : va = s.module.mb 16 8)
include hp hva

theorem exportPage_noLeaf (hf : s.leafFrame (field a 26 20) va = none) : exec .exportPage s = .next (s.mbReject 2) := by
  refine command_of h (ite_past (exportEntry_free hi he) (ite_past (by rw [hp]; exact Bool.false_ne_true) ?_))
  rw [← hva, hf]
theorem exportPage_done {f : Nat} (hf : s.leafFrame (field a 26 20) va = some f) :
    exec .exportPage s = .next ((s.setExport (field a 19 0) { wr := a.testBit 27, otag := field a 26 20, frame := f, loc := s.module.devId
                                                              vpage := field va 56 16
                                                              imps := (List.range 4).filterMap fun i => if field (s.module.mb (24 + 2 * i) 2) 11 5 = 0 then none
                                                                else some (field (s.module.mb (24 + 2 * i) 2) 4 0, field (s.module.mb (24 + 2 * i) 2) 11 5)
                                                              }).mbDone []) := by
  refine command_of h (ite_past (exportEntry_free hi he) (ite_past (by rw [hp]; exact Bool.false_ne_true) ?_))
  rw [← hva, hf]

end exportPage

theorem unexportPage_of {s : State} {a : Nat} (h : s.Commands 9 a) :
    (65536 ≤ field a 19 0 ∨ SMap.find s.exports (field a 19 0) = none → exec .unexportPage s = .next (s.mbReject 1)) ∧
    ∀ e, field a 19 0 < 65536 → SMap.find s.exports (field a 19 0) = some e →
      exec .unexportPage s = .next ({ s.flushCopies (field a 19 0) with exports := SMap.del s.exports (field a 19 0) }.mbDone []) := by
  refine ⟨fun hi => command_of h (if_pos ?_), fun e hi he => command_of h (if_neg ?_)⟩
  · simpa only [Bool.or_eq_true, decide_eq_true_eq, Option.isNone_iff_eq_none] using hi
  · simp only [he, Option.isNone_some, Bool.or_false, decide_eq_true_eq]
    omega

theorem State.updPart_regions (s : State) (t : Nat) (f : Part → Part) : (s.updPart t f).regions = s.regions := by unfold State.updPart; split <;> rfl
theorem State.updPart_oracle (s : State) (t : Nat) (f : Part → Part) : (s.updPart t f).oracle = s.oracle := by unfold State.updPart; split <;> rfl

/-- R398: each member is a partition in no region. -/
theorem regionMembers_ok {s : State} {members : List Nat} (hgood : ∀ t ∈ members, s.isPart t = true ∧ (s.part t).region = 0) :
    ¬(members.any fun t => !s.isPart t || (s.part t).region != 0) = true := fun hx => by
  obtain ⟨t, ht, hx⟩ := List.any_eq_true.1 hx
  obtain ⟨h1, h2⟩ := hgood t ht
  simp only [h1, h2, Bool.not_true, bne_self_eq_false, Bool.or_self, Bool.false_eq_true] at hx

section sharedCreate
variable {s : State} {a : Nat} (h : s.Commands 10 a) {members : List Nat} (hm : members = ((List.range 64).filter fun i => a.testBit i).map (· + 1))
include h hm

theorem sharedCreate_member (hb : ∃ t ∈ members, s.isPart t = false ∨ (s.part t).region ≠ 0) : exec .sharedCreate s = .next (s.mbReject 1) := by
  subst hm
  obtain ⟨t, ht, hb⟩ := hb
  refine command_of h (if_pos (List.any_eq_true.2 ⟨t, ht, ?_⟩))
  simpa only [Bool.or_eq_true, Bool.not_eq_true', bne_iff_ne] using hb

variable (hgood : ∀ t ∈ members, s.isPart t = true ∧ (s.part t).region = 0)
include hgood

theorem sharedCreate_noGranules (hg : s.takeGranules s.ev.args (s.module.mb 16 4) = none) : exec .sharedCreate s = .next (s.mbReject 4) := by
  subst hm
  refine command_of h (ite_past (regionMembers_ok hgood) ?_)
  rw [hg]
/-- R398: the region is made, with its members, its granules and its key. -/
theorem sharedCreate_done {gs : List Nat} (hg : s.takeGranules s.ev.args (s.module.mb 16 4) = some gs) :
    ∃ t num r, exec .sharedCreate s = .next t ∧ SMap.find t.regions num = some r ∧ r.members = members ∧
      r.grans = gs.map (fun g => (g / 32768, g % 32768)) ∧ r.key = Config.freeKey s.oracle ∧ t.oracle = s.oracle + 1 := by
  subst hm
  have made : exec .sharedCreate s = .next _ := command_of h (if_neg (regionMembers_ok hgood))
  simp only [hg] at made
  have oracle (f : State → Nat → Granule) : (gs.foldl (fun s g => s.setGran g (f s g)) s).oracle = s.oracle :=
    foldl_keeps State.oracle (f := fun s g => s.setGran g (f s g)) (fun _ _ => rfl) _ _
  refine ⟨_, ((List.range (s.regions.length + 1)).map (· + 1)).find? (fun i => (SMap.find s.regions i).isNone) |>.getD 1,
    ⟨_, gs.map fun g => (g / 32768, g % 32768), Config.freeKey s.oracle⟩, made, ?_, rfl, rfl, rfl, ?_⟩
  · refine (congrArg (SMap.find · _) (foldl_keeps State.regions (fun _ _ => State.updPart_regions ..) _ _)).trans ?_
    refine (SMap.find_put ..).trans ((if_pos rfl).trans ?_)
    exact congrArg (fun o => some (Region.mk _ _ (Config.freeKey o))) (oracle _)
  · exact (foldl_keeps State.oracle (fun _ _ => State.updPart_oracle ..) _ _).trans (congrArg (· + 1) (oracle _))

end sharedCreate

theorem sharedFill_of {s : State} {a off len hpa : Nat} (h : s.Commands 11 a) (ho : off = s.module.mb 16 8) (hl : len = s.module.mb 24 4)
    (hh : hpa = s.module.mb 32 8) :
    (SMap.find s.regions (field a 31 0) = none → exec .sharedFill s = .next (s.mbReject 1)) ∧
    ∀ r, SMap.find s.regions (field a 31 0) = some r →
      (r.grans.length * 2 ^ 21 < off + len ∨ s.arg 0 = 1 → exec .sharedFill s = .next (s.mbReject 2)) ∧
      (off + len ≤ r.grans.length * 2 ^ 21 → s.arg 0 ≠ 1 → ∀ cells, cells = (List.range len).map (fun i =>
          ((⟨0, hbmKey (r.grans.getD ((off + i) / 2 ^ 21) (0, 0)).1
            ((r.grans.getD ((off + i) / 2 ^ 21) (0, 0)).2 * 32 + (off + i) / 65536 % 32) ((off + i) % 65536)⟩ : Loc),
            s.readByte ⟨5, hpa + i⟩)) →
        exec .sharedFill s = .next (((s.writeAll cells).clearPoison (cells.map Prod.fst)).mbDone [])) := by
  refine ⟨fun hr => command_of h ?_, fun r hr => ⟨fun hb => command_of h ?_, fun hb h1 cells hc => command_of h ?_⟩⟩ <;>
    simp only [hr, ← ho, ← hl, ← hh]
  · exact if_pos (by simpa only [Bool.or_eq_true, decide_eq_true_eq] using hb)
  · rw [hc]
    exact if_neg (by simp only [Bool.or_eq_true, decide_eq_true_eq]; omega)

/-- R377, R398, R416. -/
theorem sharingCommands : SharingCommands := by
  unfold SharingCommands
  refine ⟨?_, ?_, ?_, ?_⟩
  · rintro s a _ _ va h rfl rfl hva
    exact ⟨exportPage_taken h, exportPage_noPart h, fun hi he hp => exportPage_noLeaf h hi he hp hva,
      fun f hi he hp => exportPage_done h hi he hp hva⟩
  · rintro s a _ h rfl
    exact unexportPage_of h
  · rintro s a members h hm
    exact ⟨sharedCreate_member h hm, fun hgood => ⟨sharedCreate_noGranules h hm hgood, fun gs hg => sharedCreate_done h hm hgood hg⟩⟩
  · rintro s a _ _ _ h ho hl hh
    exact sharedFill_of h ho hl hh

/-! ### Devices, fuses, headroom and links -/

theorem devForget_of {s : State} {a : Nat} (h : s.Commands 12 a) :
    (field a 4 0 = s.module.devId → exec .devForget s = .next (s.mbReject 1)) ∧
    (field a 4 0 ≠ s.module.devId → (SMap.find s.peers (field a 4 0)).isSome = true →
      exec .devForget s = .next ((s.forgetPeer (field a 4 0)).payOwed.mbDone [])) := by
  refine ⟨fun hd => command_of h (if_pos ?_), fun hd hp => command_of h (if_neg ?_)⟩
  · rw [decide_eq_true hd, Bool.true_or]
  · rw [decide_eq_false hd, Option.isNone_eq_false_iff.2 hp]
    exact Bool.false_ne_true
theorem rollbackCommit_of {s : State} {a : Nat} (h : s.Commands 13 a) {c n : Nat} (hc : c = field a 1 0)
    (hn : n = max (SMap.get 0 s.module.fuses c) (SMap.get 0 s.module.svns c)) :
    exec .rollbackCommit s = .next ((s.updModule fun m => { m with fuses := SMap.set 0 m.fuses c n }).mbDone [BitVec.ofNat 8 n]) := by
  subst hc hn
  exact command_of h rfl

/-- R416: the fields a headroom may be set for: one that is not degraded, or all of them. -/
theorem setHeadroom_of {s : State} {a f n : Nat} (h : s.Commands 14 a) (hf : f = field a 7 0) (hn : n = field a 11 8) :
    (f < 72 → (s.fld f).degraded = true → exec .setHeadroom s = .next (s.mbReject 1)) ∧
    (f < 72 → (s.fld f).degraded = false → 9 < n → exec .setHeadroom s = .next (s.mbReject 2)) ∧
    (f < 72 → (s.fld f).degraded = false → n ≤ 9 → exec .setHeadroom s = .next ((s.writePower 0 f n).mbDone [])) ∧
    (f = 255 → n ≤ 9 → exec .setHeadroom s = .next
      (((((List.range 72).filter fun f => !(s.fld f).degraded).foldl (fun s f => s.writePower 0 f n) s)).mbDone [])) := by
  subst hf hn
  have sound (h72 : field a 7 0 < 72) (hd : (s.fld (field a 7 0)).degraded = false) :
      ¬((decide (71 < field a 7 0) && decide (field a 7 0 ≠ 255)) || (decide (field a 7 0 < 72) && (s.fld (field a 7 0)).degraded)) = true := by
    simp only [hd, Bool.and_false, Bool.or_false, Bool.and_eq_true, decide_eq_true_eq]
    omega
  refine ⟨fun h72 hd => command_of h (if_pos ?_), fun h72 hd h9 => command_of h (ite_past (sound h72 hd) (if_pos h9)),
    fun h72 hd h9 => command_of h (ite_past (sound h72 hd) (ite_past (Nat.not_lt.2 h9) (if_pos (by omega)))),
    fun h255 h9 => command_of h (ite_past ?_ (ite_past (Nat.not_lt.2 h9) (if_neg (not_not.2 h255))))⟩
  · rw [hd, decide_eq_true h72, Bool.and_self, Bool.or_true]
  · simp only [h255, Bool.or_eq_true, Bool.and_eq_true, decide_eq_true_eq]
    omega

theorem linkCtl_of {s : State} {a p d : Nat} (h : s.Commands 15 a) (hp : p = field a 5 0) (hd : d = field a 11 7) :
    (a.testBit 12 = true → (∃ x ∈ s.ports, x.1 ≠ p ∧ x.2.ctl.getLsbD 6 = true ∧ x.2.peer = d) → exec .linkCtl s = .next (s.mbReject 1)) ∧
    (a.testBit 12 = false → exec .linkCtl s = .next ((s.writeLkCtl p ((a.testBit 6).toNat + d * 2)).mbDone [])) := by
  subst hp hd
  refine ⟨fun h12 hx => command_of h (if_pos ?_), fun h12 => command_of h (ite_past ?_ ?_)⟩
  · obtain ⟨x, hm, h1, h2, h3⟩ := hx
    have other : (s.ports.any fun p => p.1 != field a 5 0 && p.2.ctl.getLsbD 6 && p.2.peer == field a 11 7) = true :=
      List.any_eq_true.2 ⟨x, hm, by rw [bne_iff_ne.2 h1, h2, beq_iff_eq.2 h3]; rfl⟩
    rw [h12, other]
    rfl
  · rw [h12, Bool.false_and]
    exact Bool.false_ne_true
  · rw [h12]
    rfl

/-- R375, R400, R416. -/
theorem moduleCommands : ModuleCommands := by
  unfold ModuleCommands
  refine ⟨?_, ?_, ?_, ?_⟩
  · rintro s a _ h rfl
    exact devForget_of h
  · exact fun s a c n h hc hn => rollbackCommit_of h hc hn
  · exact fun s a f n h hf hn => setHeadroom_of h hf hn
  · exact fun s a p d h hp hd => linkCtl_of h hp hd

/-! ### Reshapes (R385 to R390) -/

section reshape
variable {s : State} {a : Nat} (h : s.Commands 7 a)
include h

theorem reshape_absent (hp : s.isPart (field a 6 0) = false) : exec .reshape s = .next (s.mbReject 5) :=
  command_of h (if_pos (by rw [hp]; rfl))

variable (hp : s.isPart (field a 6 0) = true)
include hp

theorem reshape_badKind (hk : field a 10 8 = 0 ∨ 4 < field a 10 8) : exec .reshape s = .next (s.mbReject 6) :=
  command_of h (ite_past (by rw [hp]; exact Bool.false_ne_true) (if_pos (by simpa only [Bool.or_eq_true, decide_eq_true_eq] using hk)))
/-- R385: a request is checked and begins, or is rejected with its reason. -/
theorem reshape_checked (h0 : 0 < field a 10 8) (h4 : field a 10 8 ≤ 4) (hr : (s.part (field a 6 0)).reshape = none) :
    exec .reshape s = .next (match s.reshapeBad (field a 6 0) (State.readReshape s.module (s.part (field a 6 0)) a).1
        (State.readReshape s.module (s.part (field a 6 0)) a).2 with
      | 0 => s.beginReshape (field a 6 0) (State.readReshape s.module (s.part (field a 6 0)) a).1
      | n => s.mbReject n) := by
  refine command_of h (ite_past (by rw [hp]; exact Bool.false_ne_true) (ite_past ?_ (if_neg ?_)))
  · simp only [Bool.or_eq_true, decide_eq_true_eq]
    omega
  · rw [hr]
    exact Bool.false_ne_true

end reshape

/-- R386: one step of a reshape, with no publication under way. -/
theorem reshapeStep_of {s : State} {r : Reshape} (hp : (s.part (s.arg 0)).pub = none) (hr : (s.part (s.arg 0)).reshape = some r) :
    exec .reshapeStep s = .next (s.reshapeStep (s.arg 0) r) := by
  change execReshapeStep s = _
  simp only [execReshapeStep, hp, hr]
/-- R384: a publication under way ends first. -/
theorem reshapeStep_publication {s : State} {flag : Bool} (hp : (s.part (s.arg 0)).pub = some flag) :
    exec .reshapeStep s = .next (s.publishEnd (s.arg 0) flag (s.ev.args.drop 1)) := by
  change execReshapeStep s = _
  simp only [execReshapeStep, hp]

section steps
variable (s : State) (tag : Nat) {r : Reshape}

theorem reshapeStep_zero (h : r.step = 0) :
    s.reshapeStep tag r = ((s.updPart tag fun p => { p with reshaping := true }).publish tag true).setStep tag 1 := by
  simp only [State.reshapeStep, h]
theorem reshapeStep_one (h : r.step = 1) : s.reshapeStep tag r = (s.quiesce tag).setStep tag 2 := by
  simp only [State.reshapeStep, h]
theorem reshapeStep_two (h : r.step = 2) :
    ((∃ b ∈ s.partBlocks tag, b.2.st = .resident) → s.reshapeStep tag r = s) ∧
    ((∀ b ∈ s.partBlocks tag, b.2.st ≠ .resident) → s.reshapeStep tag r =
      { s with jobs := s.jobs.map fun (j : Job) => if s.partJob tag j = true then { j with suspended := true } else j }.setStep tag 3) := by
  have he : s.reshapeStep tag r = if (s.partBlocks tag).any fun b => b.2.st == .resident then s
      else { s with jobs := s.jobs.map fun (j : Job) => if s.partJob tag j = true then { j with suspended := true } else j }.setStep tag 3 := by
    simp only [State.reshapeStep, h]
  rw [he]
  refine ⟨fun hb => if_pos ?_, fun hb => if_neg fun hx => ?_⟩
  · obtain ⟨b, hm, hb⟩ := hb
    exact List.any_eq_true.2 ⟨b, hm, beq_iff_eq.2 hb⟩
  · obtain ⟨b, hm, hx⟩ := List.any_eq_true.1 hx
    exact hb b hm (beq_iff_eq.1 hx)
/-- R386: no chunk of a job of the partition is under way. -/
theorem reshapeStep_three (h : r.step = 3)
    (hj : ∀ j ∈ s.jobs, s.partJob tag j = true → (∀ k ∈ j.flight, (SMap.find j.data k).isSome = true) ∧ j.cells = []) :
    s.reshapeStep tag r = s.setStep tag 4 := by
  have he : s.reshapeStep tag r = if (s.jobs.filter (s.partJob tag)).any fun j => (j.flight.any fun k => (SMap.find j.data k).isNone) || !j.cells.isEmpty
      then s else s.setStep tag 4 := by
    simp only [State.reshapeStep, h]
  rw [he]
  refine if_neg fun hx => ?_
  obtain ⟨j, hm, hx⟩ := List.any_eq_true.1 hx
  obtain ⟨hm, hpart⟩ := List.mem_filter.1 hm
  obtain ⟨read, empty⟩ := hj j hm hpart
  rw [empty, List.isEmpty_nil, Bool.not_true, Bool.or_false] at hx
  obtain ⟨k, hk, hx⟩ := List.any_eq_true.1 hx
  rw [Option.isNone_eq_false_iff.2 (read k hk)] at hx
  exact Bool.false_ne_true hx
theorem reshapeStep_four (h : r.step = 4) (ht : s.trafficOf tag r = false) : s.reshapeStep tag r =
    ((((r.added.foldl (fun s t => if (s.tile t).owner = 0 then s.zeroTile t else s) s).moveBlocks tag r).movePending tag r).moveQz
      (((r.added.foldl (fun s t => if (s.tile t).owner = 0 then s.zeroTile t else s) s).part tag).tiles ++ r.added)).setStep tag 5 := by
  simp only [State.reshapeStep, h, ht, Bool.false_eq_true, if_false]
theorem reshapeStep_five (h : r.step = 5) :
    s.reshapeStep tag r = ((s.part tag).cores.foldl (fun s c => s.updCore c fun k => { k with l1 := [] }) s).setStep tag 6 := by
  simp only [State.reshapeStep, h]
theorem reshapeStep_six (h : r.step = 6) : s.reshapeStep tag r = (s.rewrite tag r).setStep tag 7 := by
  simp only [State.reshapeStep, h]
theorem reshapeStep_seven (h : r.step = 7) : s.reshapeStep tag r = ((s.newPlate tag).publish tag false).setStep tag 8 := by
  simp only [State.reshapeStep, h]
theorem reshapeStep_eight (h : r.step = 8) : s.reshapeStep tag r = if r.byMailbox = true
    then ((s.reshapeRecord tag).resumeAll tag).mbFinish 0 0 (natBytes 8 (((s.reshapeRecord tag).resumeAll tag).part tag).pgen.toNat)
    else (s.reshapeRecord tag).resumeAll tag := by
  simp only [State.reshapeStep, h]

end steps

/-- R387: a dirty group that has not stopped ends its launch. -/
theorem reshapeDirtyTimeout_of {s : State} {c : Ctx} {r : Reshape} (hc : s.ctx? (s.arg 0) = some c) (hr : (s.part (s.launch c.launch).tag).reshape = some r)
    (h2 : r.step = 2) (hg : c.isGroup = true) (hp : c.preempt = true) (hd : c.dirty = true ∨ c.smode = true) :
    exec .reshapeDirtyTimeout s = .next (s.endLaunch c.launch) := by
  change execReshapeDirtyTimeout s = _
  simp only [execReshapeDirtyTimeout, hc, hr, h2, hg, hp, (Bool.or_eq_true _ _).mpr hd, decide_true, Bool.and_self, if_true]

/-! ### The scrubber (R391) -/

theorem State.setGran_gran (s : State) (g : Nat) (x : Granule) : (s.setGran g x).gran g = x := SMap.get_set_same ..
/-- R391: the scrubber clears the granule whose turn it is. -/
theorem scrubGranule_of {s : State} (hg : s.arg 0 < granuleCount) (hz : (s.gran (s.arg 0)).zp = true) (ht : s.scrubTurn (s.arg 0) = true) {base : Nat}
    (hb : base = s.arg 0 / 32768 * 2 ^ 36 + s.arg 0 % 32768 * 2 ^ 21) :
    exec .scrubGranule s = .next ({ s with hbm := s.hbm.filter fun c => !(decide (base ≤ c.1) && decide (c.1 < base + 2 ^ 21) &&
        (s.gran (s.arg 0)).unscrubbed.getLsbD (c.1 % 2 ^ 21 / 128)) }.setGran (s.arg 0) { s.gran (s.arg 0) with zp := false, unscrubbed := 0, demanded := 0 }) := by
  subst hb
  refine next_congr (if_neg ?_)
  rw [hz, ht, decide_eq_false (Nat.not_le.2 hg)]
  exact Bool.false_ne_true

/-- R384 to R391. -/
theorem reshapeRules : ReshapeRules := by
  unfold ReshapeRules
  refine ⟨?_, fun s flag hp => reshapeStep_publication hp, ?_, fun s c r hc hr h2 hg hp hd => reshapeDirtyTimeout_of hc hr h2 hg hp hd, ?_⟩
  · rintro s a _ h rfl
    refine ⟨reshape_absent h, reshape_badKind h, fun hp h0 h4 hr r hread => ?_⟩
    rw [reshape_checked h hp h0 h4 hr, ← hread]
    refine ⟨fun h0 => by simp only [h0], fun hn => ?_⟩
    split
    · exact absurd ‹_› hn
    · rfl
  · rintro s _ r rfl hp hr
    rw [reshapeStep_of hp hr]
    refine ⟨fun h => congrArg _ (reshapeStep_zero s _ h), fun h => congrArg _ (reshapeStep_one s _ h), fun h => ?_,
      fun h hj => congrArg _ (reshapeStep_three s _ h hj), fun h ht => congrArg _ (reshapeStep_four s _ h ht), fun h => congrArg _ (reshapeStep_five s _ h),
      fun h => congrArg _ (reshapeStep_six s _ h), fun h => congrArg _ (reshapeStep_seven s _ h), fun h => congrArg _ (reshapeStep_eight s _ h)⟩
    obtain ⟨busy, still⟩ := reshapeStep_two s (s.arg 0) h
    exact ⟨fun hb => congrArg _ (busy hb), fun hb => congrArg _ (still hb)⟩
  · rintro s _ base rfl hg hz ht hb
    refine ⟨_, scrubGranule_of hg hz ht hb, ?_, ?_, ?_, fun c => ?_⟩
    · rw [State.setGran_gran]
    · rw [State.setGran_gran]
    · rw [State.setGran_gran]
    · rw [State.setGran_hbm, List.mem_filter]
      simp only [Bool.not_eq_true', ← Bool.not_eq_true, Bool.and_eq_true, decide_eq_true_eq, and_assoc]

/-- Settles O52: each command down the order of its checks (the reason of EXPORT_PAGE above 65535 and the waiting PART_DESTROY are assumption 50, the
granules chosen by the event 45, a publication in two steps 44, the steps of a reshape 46). -/
theorem mailboxEvents : Obligations.MailboxEvents := ⟨partitionCommands, functionCommands, sharingCommands, moduleCommands, reshapeRules⟩

end Sys2Proof.Machine
end
